-- ==== Sys2Proof/Word.lean ====
section
/-! DEFINITION. Word.lean: the types of balanced ternary data (R3, R23).

A trit, a tryte (9 trits), a word (27 trits) and a double (54 trits) are balanced integers.
The type is Int in each case; a value of width n is canonical when its magnitude is at most
(3^n - 1)/2 (R7). The arithmetic over these types stands in Machine/Ternary.lean. -/

namespace Sys2Proof

/-- One trit: -1, 0 or +1 (R3). -/
abbrev Trit := Int
/-- Nine trits (R3). -/
abbrev Tryte := Int
/-- Twenty-seven trits (R3). -/
abbrev Word := Int
/-- Fifty-four trits (R3). -/
abbrev Double := Int

end Sys2Proof
end

