-- ==== Sys2Proof/Config.lean ====
section
/-! DEFINITION. Config.lean: what the part fixes, and the free values.

A free value has no body: nothing can evaluate it or prove a value of it. Each is named in the
assumption log. -/

namespace Sys2Proof.Config

/-- Cores of the package (R15). -/
def cores : Nat := 768
/-- Lines of a package's memory (R177). -/
def memoryLines : Nat := 8589934592
/-- Lines of a core's scratchpad (R17). -/
def scratchLines : Nat := 6561
/-- Vector registers of a bay (R17). -/
def bayRegs : Nat := 243
/-- Bays of a core and slots of a bay (R17). -/
def bays : Nat := 16
def slots : Nat := 9
/-- Home slices (R12, R14). -/
def slices : Nat := 256

/-- Free value: what an active lane latches for a vector word that computes no result (R107). -/
opaque latchFill : Nat → Int
/-- Free value: what S.WARP (4), S.GANG (5), S.CORE (6), S.BAY (7) and S.COMMIT (12) read in sequencer q. -/
opaque seqPlace : Nat → Nat → Int
/-- Free value: cycles from a fill's start to the promise the fill engine gives (R163, R164). -/
opaque promiseDelay : Nat → Nat
/-- Free value: whether the host's ATS refuses a PASID's host frame, at the n-th time it is asked (R146 check 9). -/
opaque atsRefuses : Nat → Int → Int → Bool
/-- Free value: which entry of a full node cache a node replaces (R148). -/
opaque nodeVictim : Nat → Nat
/-- Free value: erroneous bytes in the image of a line, by its key, that a slice reads from HBM4 (R43, R44). -/
opaque imageErrors : Nat → Nat → Nat
/-- Free value: what the host has written to a byte of its own memory before the device's n-th read of it, if anything (R47). -/
opaque hostWrites : Nat → Nat → Option (BitVec 8)
/-- Free value: whether the host answers the n-th read of a transducer lane from its memory (R254). -/
opaque hostAnswers : Nat → Bool
/-- Lines of another package that its device reserves, of its memory's end (R329; log entry 137). -/
opaque peerReserved : Int → Nat
/-- Free value: how many lines of memory the device reserves for itself at a power-on reset, brought below the memory's size (R329, R338). -/
opaque reservedLines : Nat → Nat
/-- Free value: the symbol of a core's scratchpad that an upset strikes in a cycle, if any: core, row, bank (R158). -/
opaque upset : Int → Option (Nat × Nat × Nat)
/-- Free value: which free physical scratchpad line a line of a gang's allotment takes (R157, R159). -/
opaque physLine : Nat → Nat → Nat
/-- Free value: which free line of the carve-out a copy in the L1 takes (R159). -/
opaque l1Place : Nat → Nat
/-- Free value: the two M-dies to which a C-die has links, before they are made distinct (R13). -/
opaque ucieHub : Nat → Nat
/-- Free value: which TLB entry a load into a full TLB replaces (R148). -/
opaque tlbVictim : Nat → Nat
/-- Free value: which clean L1 copy a fill into a full L1 replaces (R159). -/
opaque l1Victim : Nat → Nat
/-- Free value: the core, bay and slot of each warp of a placement (R86); one that does not fit is replaced (log entry 4). -/
opaque placing : Nat → List (Nat × Nat × Nat)
/-- Free value: the M-dies that hold the two copies of a journal entry, before they are made distinct (R265). -/
opaque journalDie : Nat → Nat
/-- Free value: the neighbour where no enclosure of Machine/Transcend.lean decides the rounding, which no operand reaches (function code,
significand and exponent of the operand). -/
opaque hardCase : Nat → Int → Int → Bool
/-- Free value: the byte that a write-back leaves in raw-view memory for a tryte outside 0 to 255. -/
opaque rawByte : Int → Nat
/-- Free value: the number by which status word 2 names failed check k of firmware image i, brought into 1 to 19 (R335). -/
opaque bootDetail : Nat → Nat → Nat
/-- Free value: what HBM4 holds, after a warm reset, where a slice held a newer line: trytes and tag (R338). -/
opaque stale : Nat → Int
/-- Free value: the duty that the power arbiter grants, brought into the limits of R337. -/
opaque duty : Nat → Nat → Nat
/-- Free value: the signature of a report, byte i (R336). -/
opaque signature : List (BitVec 8) → Nat → BitVec 8
/-- Free value: SHA-256 of firmware image i, byte j (R336). -/
opaque imageHash : Nat → Nat → BitVec 8
/-- Free value: the device identity, byte j (R336). -/
opaque identity : Nat → BitVec 8

end Sys2Proof.Config
end

