-- ==== Sys2Proof/Syntax.lean ====
section
/-! DEFINITION. Syntax.lean: the operations of spec/opcode_table.json, one constructor of Instr a row.

The first 130 constructors are instruction words with their decoded operands (R96 to R124). The others
are the events of the part; their arguments name the object that the event acts on, or carry what
comes from outside the machine. -/

namespace Sys2Proof

/-- The full forms (R96). -/
inductive Form | vector | group
  deriving DecidableEq, Repr

/-- Guard sense sets (R99). -/
inductive Sense | always | pos | neg | posZero | zeroNeg | zero | posNeg
  deriving DecidableEq, Repr

/-- Form and guard of a full word; pred is 0 to 8 (R98, R99). -/
structure Hd where
  form  : Form
  pred  : Nat
  sense : Sense
  deriving DecidableEq, Repr

/-- A source operand: latch X1 to X3, V register or G register (R100). For a double the even number. -/
inductive Src | x (k : Nat) | v (n : Nat) | g (n : Nat)
  deriving DecidableEq, Repr

/-- A register destination, or latch only (R101). For a double the even number. -/
inductive Dst | v (n : Nat) | g (n : Nat) | latch
  deriving DecidableEq, Repr

/-- A source operand or an immediate. -/
inductive SrcImm | src (s : Src) | imm (i : Int)
  deriving DecidableEq, Repr

/-- A predicate operand (R402). -/
inductive PSrc | p (n : Nat) | q (n : Nat)
  deriving DecidableEq, Repr

/-- Integer types .T .W .D (R23). -/
inductive ITy | t | w | d
  deriving DecidableEq, Repr
/-- Floating types (R116). -/
inductive FTy | f9 | f27
  deriving DecidableEq, Repr
/-- Types of VRED and VSCAN (R117). -/
inductive VTy | f9 | t | w | d | f27
  deriving DecidableEq, Repr
/-- Width of a memory access (R118). -/
inductive Width | tryte | word | double
  deriving DecidableEq, Repr

/-- An address operand: even G base, lane offset, scale k, immediate (R341). -/
structure Addr where
  base  : Nat
  off   : Src
  scale : Nat
  e     : Int
  deriving DecidableEq, Repr

structure I1 where
  (hd : Hd) (ty : ITy) (sat te : Int) (d : Dst) (a : Src)
  deriving DecidableEq, Repr
structure ICnt where
  (hd : Hd) (ty : ITy) (sat te sel : Int) (d : Dst) (a : Src)
  deriving DecidableEq, Repr
structure I2 where
  (hd : Hd) (ty : ITy) (sat te : Int) (d : Dst) (a : Src) (b : SrcImm)
  deriving DecidableEq, Repr
structure I3 where
  (hd : Hd) (ty : ITy) (sat te : Int) (d : Dst) (a b c : Src)
  deriving DecidableEq, Repr
structure ITab1 where
  (hd : Hd) (ty : ITy) (sat te : Int) (d : Dst) (a : Src) (tbl : Int)
  deriving DecidableEq, Repr
structure ITab2 where
  (hd : Hd) (ty : ITy) (sat te : Int) (d : Dst) (a b : Src) (tbl : Int)
  deriving DecidableEq, Repr
structure F1 where
  (hd : Hd) (ty : FTy) (fzi fzo te : Int) (d : Dst) (a : Src)
  deriving DecidableEq, Repr
structure F2 where
  (hd : Hd) (ty : FTy) (fzi fzo te : Int) (d : Dst) (a b : Src)
  deriving DecidableEq, Repr
structure F3 where
  (hd : Hd) (ty : FTy) (fzi fzo te : Int) (d : Dst) (a b c : Src)
  deriving DecidableEq, Repr
structure FScl where
  (hd : Hd) (ty : FTy) (fzi fzo te : Int) (d : Dst) (a : Src) (k : SrcImm)
  deriving DecidableEq, Repr
structure FRnd where
  (hd : Hd) (ty : FTy) (fzi fzo te : Int) (d : Dst) (a : Src) (pos : Int)
  deriving DecidableEq, Repr
structure FCmp where
  (hd : Hd) (ty : FTy) (fzi te : Int) (pd : Nat) (a b : Src) (u : Int)
  deriving DecidableEq, Repr
structure Cmp where
  (hd : Hd) (ty : ITy) (sat te : Int) (pd : Nat) (a : Src) (b : SrcImm)
  deriving DecidableEq, Repr
structure Sel where
  (hd : Hd) (dbl : Bool) (sat te : Int) (d : Dst) (a b c : Src) (p : PSrc)
  deriving DecidableEq, Repr
structure PSet where
  (hd : Hd) (te : Int) (pd : Nat) (a : Src) (j : Int)
  deriving DecidableEq, Repr
structure PTbl where
  (hd : Hd) (te : Int) (pd : Nat) (a b : PSrc) (tbl : Int)
  deriving DecidableEq, Repr
structure PRed where
  (hd : Hd) (te : Int) (qd : Nat) (a : PSrc)
  deriving DecidableEq, Repr
structure PCnt where
  (hd : Hd) (te : Int) (d : Dst) (a : PSrc) (c : Int)
  deriving DecidableEq, Repr
structure Shfl where
  (hd : Hd) (dbl : Bool) (sat te : Int) (d : Dst) (a b : Src) (off : Int)
  deriving DecidableEq, Repr
structure Bcst where
  (hd : Hd) (dbl : Bool) (sat te : Int) (d : Dst) (a : Src) (lane : Int)
  deriving DecidableEq, Repr
/-- op is -1 MIN, 0 ADD, +1 MAX; s18 is FZI or saturation (R117). -/
structure VRed where
  (hd : Hd) (ty : VTy) (op s18 fzo te : Int) (d : Dst) (a : Src)
  deriving DecidableEq, Repr
structure LdA where
  (hd : Hd) (w : Width) (sc : Bool) (rc : Option Nat) (ts : Bool) (d : Dst) (ad : Addr)
  deriving DecidableEq, Repr
structure StA where
  (hd : Hd) (w : Width) (sc : Bool) (ad : Addr) (c : Src)
  deriving DecidableEq, Repr
structure LdgA where
  (hd : Hd) (dbl : Bool) (d : Nat) (base : Nat) (e : Int)
  deriving DecidableEq, Repr
structure StgA where
  (hd : Hd) (dbl : Bool) (c : Nat) (base : Nat) (e : Int)
  deriving DecidableEq, Repr
structure LdsA where
  (hd : Hd) (w : Width) (rc : Option Nat) (ts : Bool) (d : Dst) (ad : Addr)
  deriving DecidableEq, Repr
structure StsA where
  (hd : Hd) (w : Width) (ad : Addr) (c : Src)
  deriving DecidableEq, Repr
/-- Operations of ATOM (R118); TBIN carries its table. -/
inductive AtomOp | add | min | max | xchg | cas | tbin (tbl : Int)
  deriving DecidableEq, Repr
structure AtomA where
  (hd : Hd) (dbl sc : Bool) (op : AtomOp) (d : Dst) (ad : Addr) (c : Src)
  deriving DecidableEq, Repr
/-- op is -1 MIN, 0 ADD, +1 MAX; det names the G register of the round word (R413). -/
structure RedA where
  (hd : Hd) (w : Width) (det : Option Nat) (op : Int) (flt : Bool) (ad : Addr) (c : Src)
  deriving DecidableEq, Repr
structure LdmcA where
  (hd : Hd) (a b : Nat)
  deriving DecidableEq, Repr
structure PrefA where
  (hd : Hd) (n : Nat) (ad : Addr)
  deriving DecidableEq, Repr
structure FenceA where
  (hd : Hd) (scope kind : Int)
  deriving DecidableEq, Repr
structure LdtagA where
  (hd : Hd) (d : Dst) (ad : Addr)
  deriving DecidableEq, Repr
structure SttagA where
  (hd : Hd) (c : Src) (ad : Addr)
  deriving DecidableEq, Repr
structure FlushA where
  (hd : Hd) (ad : Addr)
  deriving DecidableEq, Repr
/-- Address operand with scale 0 (ICINV, TOUCH). -/
structure Near where
  (hd : Hd) (base : Nat) (off : Src) (e : Int)
  deriving DecidableEq, Repr
structure MovA where
  (hd : Hd) (dbl : Bool) (d : Dst) (a : Src)
  deriving DecidableEq, Repr
structure MoviA where
  (hd : Hd) (d : Dst) (imm : Int)
  deriving DecidableEq, Repr
structure MovgA where
  (hd : Hd) (gd : Nat) (a : Src) (lane : Int)
  deriving DecidableEq, Repr
/-- The special and trap registers, by their number m (R404). -/
inductive SReg
  | lane | depth | live | warp | gang | core | bay | spill | flags | gtime | gtimeh | commit
  | tcause | tlanes | tlevel | tinfo | taddr | taddrh | tepc | tepch | tdepth | tstate | tk0 | tk1 | tk2
  deriving DecidableEq, Repr
inductive MovsOp | read (d : Dst) (r : SReg) | write (a : Src) (r : SReg)
  deriving DecidableEq, Repr
structure MovsA where
  (hd : Hd) (op : MovsOp)
  deriving DecidableEq, Repr
structure MovcA where
  (hd : Hd) (d : Dst) (a : PSrc)
  deriving DecidableEq, Repr
/-- Conversions of CVT, source then destination (R119). -/
inductive CvtOp | f9f27 | f27f9 | wf27 | f27w | wf9 | f9w | i9f9 | f9i9 | wi9
  deriving DecidableEq, Repr
structure CvtA where
  (hd : Hd) (op : CvtOp) (sat fzi fzo te : Int) (d : Dst) (a : Src)
  deriving DecidableEq, Repr
/-- Binary formats of BCVT (R119). -/
inductive BFmt | b32 | b16 | bf16 | i8 | i16 | i32
  deriving DecidableEq, Repr
/-- tf: TF9, TW or TF27 as -1, 0, +1; x17 is FZO or saturation (R351). -/
structure BcvtA where
  (hd : Hd) (fmt : BFmt) (toTernary : Bool) (tf x17 te : Int) (d : Dst) (a : Src)
  deriving DecidableEq, Repr
/-- Plane format: -1 TI1P, 0 TI3P, +1 TI9P (R407). -/
structure PackA where
  (hd : Hd) (fmt : Int) (d : Dst) (a : Src)
  deriving DecidableEq, Repr
/-- Target of BRA and CALL (R120). -/
inductive Target | rel (imm : Int) | reg (base : Nat) (imm : Int)
  deriving DecidableEq, Repr
structure BraA where
  (hd : Hd) (t : Target)
  deriving DecidableEq, Repr
structure JmpA where
  (hd : Hd) (a : Src) (imm : Int)
  deriving DecidableEq, Repr
structure WaitjA where
  (hd : Hd) (d : Dst) (n : Nat)
  deriving DecidableEq, Repr
structure BarA where
  (hd : Hd) (q n : Int)
  deriving DecidableEq, Repr
structure BarWA where
  (hd : Hd) (q : Int)
  deriving DecidableEq, Repr
structure SnA where
  (hd : Hd) (k : Int)
  deriving DecidableEq, Repr
/-- op: 0 ADD, -1 MIN, +1 MAX, +3 TBIN (R121). -/
structure SnrA where
  (hd : Hd) (op : Int) (a : Nat) (k : Int)
  deriving DecidableEq, Repr
structure SnbA where
  (hd : Hd) (a : Nat) (k : Int)
  deriving DecidableEq, Repr
structure SnGetA where
  (hd : Hd) (d : Nat) (k : Int)
  deriving DecidableEq, Repr
structure TbA where
  (hd : Hd) (a b : Nat) (e : Int)
  deriving DecidableEq, Repr
structure TbtestA where
  (hd : Hd) (d a b : Nat) (e : Int)
  deriving DecidableEq, Repr
structure SleepA where
  (hd : Hd) (a : Src) (e : Int)
  deriving DecidableEq, Repr
structure WinA where
  (hd : Hd) (a : Nat) (k : Nat)
  deriving DecidableEq, Repr
structure WinrelA where
  (hd : Hd) (k : Nat)
  deriving DecidableEq, Repr
structure TaskA where
  (hd : Hd) (d a : Nat) (hint : Int) (imm : Int)
  deriving DecidableEq, Repr
structure TqryA where
  (hd : Hd) (d a : Nat)
  deriving DecidableEq, Repr
structure SendA where
  (hd : Hd) (a b : Nat) (port : Nat)
  deriving DecidableEq, Repr
structure RecvA where
  (hd : Hd) (a : Nat) (port : Nat)
  deriving DecidableEq, Repr
structure XfstA where
  (hd : Hd) (d a : Nat) (imm : Int)
  deriving DecidableEq, Repr
structure XtabA where
  (hd : Hd) (d a : Nat) (slot : Nat)
  deriving DecidableEq, Repr
structure LnchA where
  (hd : Hd) (d a : Nat) (imm : Int)
  deriving DecidableEq, Repr
structure RoleA where
  (hd : Hd) (a : Nat) (b : Nat) (c : Int)
  deriving DecidableEq, Repr
structure PrehA where
  (hd : Hd) (a : Nat) (imm : Int)
  deriving DecidableEq, Repr
structure ImmA where
  (hd : Hd) (imm : Int)
  deriving DecidableEq, Repr
structure WsetA where
  (hd : Hd) (d a b c : Nat) (unit : Nat)
  deriving DecidableEq, Repr
structure WUnitA where
  (hd : Hd) (d b : Nat) (unit : Nat)
  deriving DecidableEq, Repr
structure DbgA where
  (hd : Hd) (d b : Nat)
  deriving DecidableEq, Repr
structure HrdvA where
  (hd : Hd) (d b : Nat) (item : Nat)
  deriving DecidableEq, Repr
structure HwrvA where
  (hd : Hd) (d a b : Nat) (item : Nat)
  deriving DecidableEq, Repr
/-- Items of HRDP and HWRP; link carries the depth e (R306). -/
inductive HItem | pc | depth | link (e : Nat)
  deriving DecidableEq, Repr
structure HrdpA where
  (hd : Hd) (d b : Nat) (item : HItem)
  deriving DecidableEq, Repr
structure HwrpA where
  (hd : Hd) (d a b : Nat) (item : HItem)
  deriving DecidableEq, Repr
/-- scope: -1 lane, 0 warp, +1 gang, +2 launch (R122). -/
structure HresA where
  (hd : Hd) (scope : Int) (d b : Nat)
  deriving DecidableEq, Repr

/-- Paired opcodes (R123). -/
inductive POp
  | add | sub | mul | min | max | mov | neg | abs | tsh
  | addi | subi | muli | mini | maxi | movi | tshi
  | fadd | fsub | fmul | fmin | fmax | fneg | fabs
  deriving DecidableEq, Repr
/-- One half: m8 is the type (-1 or 0), m7 and m6 its other modifiers (R104, R124). -/
structure Half where
  (op : POp) (pred : Nat) (d : Dst) (s : Option Src) (m8 m7 m6 : Int) (imm : Int)
  deriving DecidableEq, Repr

/-- Where a gang or warp may be placed: for each warp its core, bay and slot (R86). -/
abbrev Placing := List (Nat × Nat × Nat)

/-- A link named as R290 names it: kind, place, direction. -/
structure LinkId where
  (kind : Int) (place : Int) (dir : Int)
  deriving DecidableEq, Repr

/-- The facts of one firmware image, or of the debug-enable record, that R335 checks; bound: the record names this device's identity. -/
structure BootImage where
  (signed keyMatches : Bool) (version : Nat) (bound : Bool)
  deriving DecidableEq, Repr

/-- A function of the host port: none the physical one, some k the virtual function k (R325). -/
abbrev HostFn := Option Nat

/-- A line of BAR0's control region as a function reaches it (R326, R329). -/
structure CtlLine where
  (fn : HostFn) (line : Nat)
  deriving DecidableEq, Repr

/-- The operations and events of spec/opcode_table.json. -/
inductive Instr
  -- class --
  | abs (o : I1) | add (o : I2) | sub (o : I2) | neg (o : I1) | mul (o : I2) | mulh (o : I2)
  | mad (o : I3) | div (o : I2) | divz (o : I2) | mod (o : I2) | min (o : I2) | max (o : I2)
  | sgn (o : I1) | tsh (o : I2) | trot (o : I2) | tlz (o : I1) | tcnt (o : ICnt)
  | tmap (o : ITab1) | tbin (o : ITab2) | tsel (o : I3)
  -- class -0
  | fadd (o : F2) | fsub (o : F2) | fmul (o : F2) | fma (o : F3) | fmin (o : F2) | fmax (o : F2)
  | fneg (o : F1) | fabs (o : F1) | fdiv (o : F2) | fsqrt (o : F1) | frcp (o : F1) | frsq (o : F1)
  | fexp (o : F1) | flog (o : F1) | fexp3 (o : F1) | flog3 (o : F1) | ftanh (o : F1)
  | fscl (o : FScl) | fcls (o : F1) | frnd (o : FRnd)
  -- class -+
  | fcmp (o : FCmp) | cmp (o : Cmp) | sel (o : Sel) | pset (o : PSet) | ptbl (o : PTbl)
  | pany (o : PRed) | pall (o : PRed) | pcnt (o : PCnt) | shfl (o : Shfl) | bcst (o : Bcst)
  | vred (o : VRed) | vscan (o : VRed)
  -- class 0-
  | ld (o : LdA) | st (o : StA) | ldg (o : LdgA) | stg (o : StgA) | lds (o : LdsA) | sts (o : StsA)
  | atom (o : AtomA) | red (o : RedA) | ldmc (o : LdmcA) | pref (o : PrefA) | fence (o : FenceA)
  | ldtag (o : LdtagA) | sttag (o : SttagA) | cflush (o : FlushA) | cinv (o : FlushA)
  | icinv (o : Near) | isync (hd : Hd)
  -- class 00
  | mov (o : MovA) | movi (o : MoviA) | movh (o : MoviA) | movg (o : MovgA) | movs (o : MovsA)
  | movc (o : MovcA) | cvt (o : CvtA) | bcvt (o : BcvtA) | pack (o : PackA) | unpack (o : PackA)
  -- class 0+
  | bra (o : BraA) | jmpi (o : JmpA) | call (o : BraA) | calli (o : JmpA) | ret (hd : Hd)
  | yld (hd : Hd) | waitj (o : WaitjA) | exit (hd : Hd) | nop (hd : Hd)
  -- class +-
  | barA (o : BarA) | barS (o : BarA) | barD (o : BarA) | barW (o : BarWA)
  | sna (o : SnA) | snd (o : SnA) | snr (o : SnrA) | snb (o : SnbA) | snw (o : SnGetA) | snp (o : SnGetA)
  | tbinit (o : TbA) | tbarr (o : TbA) | tbexp (o : TbA) | tbwait (o : TbA) | tbtest (o : TbtestA)
  | sleept (o : SleepA) | touch (o : Near)
  -- class +0
  | win (o : WinA) | winrel (o : WinrelA) | task (o : TaskA) | tqry (o : TqryA) | send (o : SendA)
  | recv (o : RecvA) | xfst (o : XfstA) | xtab (o : XtabA)
  -- class ++
  | lnch (o : LnchA) | role (o : RoleA) | preh (o : PrehA) | trap (o : ImmA) | rft (hd : Hd)
  | brk (o : ImmA) | wset (o : WsetA) | wclr (o : WUnitA) | wrd (o : WUnitA) | hlst (o : DbgA)
  | hrdv (o : HrdvA) | hwrv (o : HwrvA) | hrdp (o : HrdpA) | hwrp (o : HwrpA) | hstep (o : DbgA)
  | hres (o : HresA)
  | pairedWord (a b : Half)
  -- events: releases and expiries
  | namedBarrierRelease (gid : Nat) (i : Nat)
  | barcDetection (gid : Nat)
  | escapementRelease (ch : Nat)
  | yieldRelease (wid : Nat)
  | waitjBoundExpiry (wid : Nat)
  | sleepWake (wid : Nat)
  | promiseReissue (wid : Nat)
  | sectorLanding (req : Nat)
  -- events: memory side
  | windowRecall (req : Nat)
  | ownershipRequest (req : Nat)
  | sliceRequest (req : Nat)
  | sliceMissData (req : Nat)
  | homeStore (req : Nat)
  | homeAtomic (req : Nat)
  | loadReply (op : Nat)
  | writeBack (req : Nat)
  | redContribution (req : Nat)
  | redDetContribution (req : Nat)
  | multicastRequest (req : Nat)
  | multicastInject (entry : Nat)
  | multicastDelivery (req : Nat)
  | streamSectorReceipt (req : Nat)
  | recvBind (wid : Nat)
  | scFrontierReport
  | frontierRelease
  | translationWalk (core : Nat) (ctx : Nat) (page : Int)
  | instructionFetch (wid : Nat)
  | pageRequestResponse (i : Nat) (success : Bool)
  -- events: tile tasks and transducer lanes
  | wloadTask (gid ticket : Nat)
  | mmTask (gid ticket : Nat)
  | streamTask (gid ticket : Nat)
  | epiTask (gid ticket : Nat)
  | taskEnd (gid ticket : Nat)
  | taskfDelivery (wid : Nat)
  | transducerRequestStart (lane : Nat)
  | transducerRequestEnd (lane : Nat)
  | tableLoadComplete (slot : Nat)
  -- events: life cycle
  | roleGrant (wid : Nat)
  | warpRetire (wid : Nat)
  | gangEnd (gid : Nat)
  | launchEnd (lid : Nat)
  | gangPlacement (paddock : Nat) (where_ : Placing)
  | gangStart (gid : Nat)
  | headGangStarvation (paddock : Nat)
  | deadlineMiss (lid : Nat)
  | timeSliceEnd (paddock : Nat)
  | contextSwitchIn (paddock : Nat)
  | sequencerWake (ctx : Nat)
  | preemptionRequest (paddock : Nat)
  | preemptionDeadline (wid : Nat)
  | gangRestore (gid : Nat) (where_ : Placing)
  | watchTrapDelivery (wid : Nat)
  | launchHaltSignal (lid : Nat)
  | hresLaunchSignal (lid : Nat)
  -- events: failures
  | permitAudit (bad : List LinkId)
  | linkError (link : LinkId)
  | scratchpadBankFailure (core bank : Nat)
  | coreFence (core : Nat)
  | sliceFence (slice : Nat) (readable : List Nat)
  | pseudoChannelFence (slice pc : Nat) (lost : List Nat)
  | transducerLaneFence (lane : Nat)
  | mDieFailure (die : Nat)
  | cDieFailure (die : Nat)
  | gtimeMismatch (core : Nat)
  | watchRecordError (core unit : Nat)
  | referenceClockFault
  -- events: reset, power, peers
  | powerOnReset (images : List BootImage)
  | warmReset (images : List BootImage) (badLines : List Nat)
  | powerGrant (duties : List Nat)
  | grantApply (die : Nat)
  | remoteRequestTimeout (req : Nat)
  | peerFailure (package : Int)
  -- events: commands
  | translationInvalidation (half : Int) (first : Int) (count : Int) (desc : Int)
  | pinRelease (ctx : Nat) (key : Int)
  | roundDiscard (ctx : Nat) (addr : Int) (tag : Int)
  | channelReset (paddock : Nat) (seq : Int) (name : Int)
  | contextBind (paddock : Nat) (desc : Int)
  | paddockLimits (paddock min max : Nat)
  | contextUnbind (paddock : Nat) (desc : Int)
  | atsInvalidation (ctx : Nat) (half : Int) (first : Int) (count : Int)
  -- events: host side
  | setPackageNumber (n : Int)
  | startSequencer0 (entry desc : Int)
  | bindVf (vf : Int) (desc base : Int)
  | releaseFrame (frame : Int)
  | setPowerCeiling (watts : Int)
  | attest (nonce : List Int) (addr : Int)
  | getMeasurements (nonce : List Int)
  | controlRegionWrite (line : CtlLine) (word : Nat) (value : Int)
  | hostFetchadd (fn : HostFn) (off : Nat) (x : Int)
  | hostSwap (fn : HostFn) (off : Nat) (x : Int)
  | hostCas (fn : HostFn) (off : Nat) (c x : Int)
  | hostPackedRead (fn : HostFn) (off len : Nat)
  | hostPackedWrite (fn : HostFn) (off : Nat) (bytes : List (BitVec 8))
  | hostRawRead (fn : HostFn) (off len : Nat)
  | hostRawWrite (fn : HostFn) (off : Nat) (bytes : List (BitVec 8))
  | ptmExchange (anchor hostTime : Int) (rate : Int)
  | ieee1588Sync (anchor domainTime : Int) (rate : Int)
  | debugHalt (b : Int) (scope : Int)
  | debugWset (a0 a1 a2 b c : Int) (unit : Int)
  | debugWclr (b : Int) (unit : Int)
  | debugWrd (b : Int) (unit : Int)
  | debugHlst (b : Int)
  | debugHrdv (b : Int) (item : Int)
  | debugHwrv (a b : Int) (item : Int)
  | debugHrdp (b : Int) (item e : Int)
  | debugHwrp (a0 a1 b : Int) (item e : Int)
  | debugHstep (b : Int)
  | debugHres (b : Int) (scope : Int)
  | completionTimeout (wid : Nat)
  | scaleOutLinkFault (lane : Nat)
  | routesRecomputed
  | duplicatePackageNumber
  | powerLoss
  deriving DecidableEq, Repr

end Sys2Proof
end

