-- ==== Sys2Proof/Machine/State.lean ====
section
/-! DEFINITION. Machine/State.lean: everything the spec gives the machine, as plain data.

A sparse store lists (key, value) pairs with strictly rising keys and no entry equal to 0, which is what an
unlisted key reads as. Every collection of like things is a list; a thing of a bounded set that is not
listed stands at its reset value. -/

namespace Sys2Proof.Machine

open Sys2Proof

/-- A sparse array of values: strictly rising keys, no zero value. -/
abbrev Store := List (Nat × Int)

/-- A tag: format code and scale (R64). -/
structure Tag where
  (code scale : Int)
  deriving DecidableEq, Repr

/-- A physical place: a tryte of a package's memory (R145), or of host memory in the packed (+1) or raw (-1)
view: host byte base of the view and tryte offset in the page (R45, R144). -/
inductive Loc
  | dom (pkg addr : Int)
  | host (view base off : Int)
  deriving DecidableEq, Repr

/-- A bypass latch (R107). -/
structure Latch where
  (val : Int) (dbl : Bool)
  deriving DecidableEq, Repr

/-- What a lane waits for (R70). -/
inductive WaitKind
  /-- Replies of a load or atomic (R389, R346). -/
  | load (op : Nat)
  /-- A named barrier's open phase (R88). -/
  | bar (b : Nat) (phase : Int)
  /-- A named barrier's phase that has completed, its release on its way (R91): barrier, the cycle in which it reaches the warp. -/
  | barEnd (b : Nat) (at_ : Int)
  /-- A transaction barrier's phase (R431): key of the barrier, phase waited out. -/
  | tbar (glob : Bool) (addr : Int) (phase : Int)
  /-- A channel's release (R221): channel, the number of the phase since the grant, destination G register. -/
  | chan (ch n : Nat) (gd : Nat)
  /-- WAITJ (R82): deadline, destination, depth, the number of its latch result. -/
  | join (due : Int) (d : Dst) (depth latch : Nat)
  /-- SLEEPT (R424): due time, 27 trits. -/
  | sleep (due : Int)
  /-- A touch (R163): the promise; the access is issued again then. -/
  | touch (promise : Int)
  /-- A word in progress: the pending operation's name in its warp. -/
  | pend (n : Nat)
  deriving DecidableEq, Repr

/-- A wait: what for, and the word at which it began. -/
structure Wait where
  (kind : WaitKind) (word : Int)
  deriving DecidableEq, Repr

/-- A yielded lane's counters (R80). -/
structure Yield where
  (count due : Int)
  deriving DecidableEq, Repr

/-- A halt's reason, unit and immediate (R304). -/
structure Halt where
  (reason unit imm : Int)
  deriving DecidableEq, Repr

/-- One lane (R70, R61, R107, R108, R278). The link stack lists the entries of depths depth, depth - 1, …,
newest first; none stands for a missing entry (R78). hwait is a wait begun in handler mode (R279). since is
the number of latch results made since the open chain's first word, that word's included. skip: the next word
is exempt from address and PC tests (R300). made counts the lane's latch results, so that a result which comes late finds its latch (R107, R346,
R389, R436). tested: the PC units have tested the word that waits to issue (R297). -/
structure Lane where
  (pc : Int) (depth : Nat) (link : List (Option Int)) (live : Bool)
  (wait hwait : Option Wait) (yielded : Option Yield) (halted : Option Halt)
  (flags : Int) (x1 x2 x3 : Latch) (pos since : Nat)
  (tInfo tAddr tEpc : Int) (tDepth : Nat) (tLive tWait tYield tHalt : Bool) (tk0 tk1 tk2 : Int)
  (skip : Bool) (made : Nat) (tested : Bool)
  deriving DecidableEq, Repr

/-- A lane at warp start (R71). -/
def Lane.start (pc : Int) : Lane :=
  ⟨pc, 0, [], true, none, none, none, none, 0, ⟨0, false⟩, ⟨0, false⟩, ⟨0, false⟩, 0, 0,
    0, 0, 0, 0, false, false, false, false, 0, 0, 0, false, 0, false⟩

/-- Where a warp runs: a bay slot (R69), a launch sequencer (R259), or saved (R288). -/
inductive Place
  | slot (core bay slot : Nat)
  | seq (q : Nat)
  | saved
  deriving DecidableEq, Repr

/-- One store unit or contribution of a lane: its place, the place of a double's high word when that lies in another
page (R457), width in trytes, value. -/
structure Unit1 where
  (lane : Nat) (at_ : Loc) (hi : Option Loc) (width : Nat) (val : Int)
  deriving DecidableEq, Repr

/-- What a halted-state word or the debug window asks for (R302, R311), with its operand values. -/
inductive DbgOp
  | wset (words : List Int) (mask : Int) (unit : Nat)
  | wclr (unit : Nat)
  | wrd (unit : Nat)
  | hlst
  | hrdv (item : Nat)
  | hwrv (v : Int) (item : Nat)
  | hrdp (item : HItem)
  | hwrp (lo hi : Int) (item : HItem)
  | hstep
  | hres (scope : Int)
  /-- The halt of the debug window (R311). -/
  | halt (scope : Int)
  deriving DecidableEq, Repr

/-- A word that has issued and whose effect is still in progress: its issue set waits. -/
inductive PendOp
  /-- TASK waiting for a scheduler entry (R237): record, its address, Gd, hint. -/
  | task (words : List Int) (addr : Int) (gd : Nat) (hint : Int)
  /-- XFST waiting for room in the lane's queue (R253). -/
  | xfst (words : List Int) (addr : Int) (gd : Nat)
  /-- XTAB waiting for the slot's requests to end (R251): slot, image address, Gd, the places of its pages; loading once it has begun. -/
  | xtab (slot : Nat) (addr : Int) (gd : Nat) (locs : List Loc) (loading : Bool)
  /-- WINREL, and WIN's release of a bound window (R161, R167): window, the name of the binding released, the record to bind then,
  write-backs to await. -/
  | winrel (k bid : Nat) (next : Option (List Int)) (wbs : List Nat)
  /-- SEND (R419): port, first address, lines, lines sent. -/
  | send (port : Nat) (addr : Int) (n sent : Nat)
  /-- RECV (R420): port, window, first, count, the places of the box lines; the lines are marked. -/
  | recv (port k first n : Nat) (locs : List Loc) (marked : Bool)
  /-- LNCH waiting for the journal (R261), or a command waiting for its completion (R264). -/
  | lnch (words : List Int) (gd : Nat)
  | cmd (words : List Int) (gd : Nat) (ws : List Nat)
  /-- ROLE waiting for registers (R93): allotment, class, entry. -/
  | role (allot : Nat) (cls entry : Int)
  /-- CFLUSH or CINV waiting for write-backs and landings (R360): lines still filling, and write-backs. -/
  | flush (inv : Bool) (lines : List (Nat × Nat)) (wbs : List Nat)
  /-- HSTEP waiting for the stepped word (R307): target warp, lane, Gd; the stepped load or stores to await. -/
  | hstep (wid lane gd : Nat) (done : Option (Int × Int × Int × Int)) (waits : List Nat)
  /-- A halted-state word waiting for the target's earlier words or a step in progress (R301, R310): the operation, the
  warp address, Gd, the cycle in which it issued. -/
  | dbg (r : DbgOp) (b : Int) (gd : Nat) (at_ : Int)
  /-- PREH waiting to be saved, by a liveness record or in full (R286). -/
  | save (rc : Option (List Int))
  deriving DecidableEq, Repr

/-- A pending operation with its name in the warp and its word. -/
structure Pend where
  (n : Nat) (op : PendOp) (word : Int)
  deriving DecidableEq, Repr

/-- A fence in progress (R200, R383): scope, kind, the requests it still awaits, whether it awaits the host's
PCIe read. -/
structure FenceW where
  (scope kind : Int) (reqs : List Nat) (host : Bool)
  deriving DecidableEq, Repr

/-- A parked fetch (R152): the failing page's small page number, and the detail of the failed check. -/
structure Park where
  (page : Int) (detail : Int)
  deriving DecidableEq, Repr

/-- A halt on its way to a warp (R298): the cycle from which the warp issues no word, and the halt. -/
structure HaltAt where
  (at_ : Int) (halt : Halt)
  deriving DecidableEq, Repr

/-- A task fault that awaits its TASKF (R246): detail, record address, and the record as it is written back. -/
structure TaskF where
  (detail addr : Int) (words : List Int)
  deriving DecidableEq, Repr

/-- A held WATCH trap (R297): lanes with unit and address. -/
abbrev WatchTrap := List (Nat × Int × Int)

/-- A warp (R69, R71, R83, R84, R278). hold: the issue slot under its chain hold (R109); blocked: the ownership request that
the warp's next word waits behind (R427); released: the synchronising word whose release has been performed (R201). gid is its gang; a sequencer has none. V is stored at 81·lane + n, P at
9·lane + n, G at n and Q at n. -/
structure Warp where
  (wid : Nat) (gid : Option Nat) (ctx : Nat) (num : Nat) (place : Place)
  (cls level : Int) (allot : Nat)
  (v g p q : Store)
  (spill gtimeh redSeq : Int)
  (lanes : List Lane)
  (handler : Bool) (hpc : Int) (tCause tLanes tLevel : Int) (inTaskf : Bool)
  (taskfs : List TaskF) (watchTraps : List WatchTrap) (permits : List Int)
  (pends : List Pend) (fence : Option FenceW) (code : List Int) (park : Option Park)
  (deadline : Option Int) (halts : List HaltAt) (dbl : Option Halt)
  (idle : Nat) (lastIssue : Int) (hold blocked : Option Nat) (released : Option Int)
  deriving DecidableEq, Repr

/-- A named barrier (R87). dropsNow counts the drops of the open phase. -/
structure Bar where
  (phase : Int) (operand : Option Int) (drops dropsNow : Int) (arrived dropped : List Nat)
  deriving DecidableEq, Repr

/-- A named barrier at gang start (R87). -/
def Bar.start : Bar := ⟨0, none, 0, 0, [], []⟩

/-- States of a window line (R162); recv: filling by RECV (R191). -/
inductive LineState | absent | filling | recv | present | dirty
  deriving DecidableEq, Repr

/-- The leaf by which an access was translated, and where it stands in memory (R142, R149). -/
structure Leaf where
  (val place : Int)
  deriving DecidableEq, Repr

/-- A line of a window that is not absent (R162, R169, R179): its place in memory, whether the core owns it at its
home, its expected read count, the promise of its fill (R163), the leaf that gave its place. -/
structure WLine where
  (j : Nat) (st : LineState) (loc : Loc) (owned : Bool) (count : Option Nat) (promise : Int) (leaf : Leaf)
  deriving DecidableEq, Repr

/-- A bound window (R160): its record's words 0 to 8, its lines (absent when unlisted), the name of the binding (R161, R167). -/
structure Window where
  (base : Int) (gbase : Int) (pitch : Int) (rows lpr : Nat) (bar : Int) (key mode : Int)
  (lines : List WLine) (bid : Nat) (releasing : Bool)
  deriving DecidableEq, Repr

/-- A macro slot (R226, R227): mode -1 TI1, 0 TI3, +1 TI9; scale; rows of 81 elements as words of 9 trits a
tryte, stored at 81·k + n; the core it is bound on. -/
structure Slot where
  (mode scale : Int) (w : Store) (core : Option Nat)
  deriving DecidableEq, Repr

/-- Task states (R237); computed: its results are written, its end is not (R242). -/
inductive TaskSt | queued | running | computed
  deriving DecidableEq, Repr

/-- A tile task (R232 to R247): ticket, issuing warp, record address and copy, dependences met, state; the
side: the issuing core within the gang; hint: the preferred side + 1, or 0; sup: accepted at
supervisor level; the
outcome computed when it runs: detail, flags and fault address; lines received and forwarded by a STREAM; the writes of the issuing
core that its source reads come after (R204); whether its entry is one that no reserve holds (R237); the core whose epilogue unit it has. -/
structure Task where
  (ticket : Nat) (wid : Nat) (addr : Int) (words : List Int) (hint : Int) (side : Nat) (sup : Bool) (met : List Bool) (st : TaskSt)
  (detail flags faddr : Int) (got : List (Store × Tag)) (sent : Nat) (after : List Nat) (spare : Bool) (unit : Option Nat)
  deriving DecidableEq, Repr

/-- A gang (R69, R85 to R94). cores: its core, or even then odd. scratch holds the allotment's trytes and stags its
tags (code, scale) at the gang-relative line; phys gives the physical line of each, on its core (R157, R159); bad lists uncorrectable scratchpad lines (R163, R183), badRows the physical rows, each with its core,
whose codewords are uncorrectable (R158). releases: the windows unbound by a release whose write-backs are not all accepted (R167, R439). -/
structure Gang where
  (gid lid ctx : Nat) (x y z : Int) (cores : List Nat) (alines : Nat) (nwarps : Nat)
  (scratch : Store) (stags : List (Nat × Tag)) (phys : List Nat) (bad : List Nat) (badRows : List (Nat × Nat))
  (wins : List (Option Window)) (bars : List Bar) (slots : List Slot)
  (tasks : List Task) (nextTicket : Nat)
  (commit : Bool) (relaunches : Nat) (placedAt : Nat) (held : Bool) (start : Int)
  (saved : Bool) (full : Bool) (ranges : List (Int × Int)) (killed reported : Bool) (barcSince : Option Int) (releases : List (Window × List Nat))
  deriving DecidableEq, Repr

/-- A gang of a launch that waits to be placed again (R245, R289): coordinates, relaunch count, the page that a page
request must bring first, and the fault that its first warp takes when that request fails. -/
structure Relaunch where
  (x y z : Int) (count : Nat) (page : Option Int) (taskf : Option TaskF)
  deriving DecidableEq, Repr

/-- A launch halt, or a resume (none), on its way on channel 2 (R298, R308): its cycle, and the gang whose warp triggered the halt. -/
structure Signal where
  (at_ : Int) (halt : Option Halt) (but : Option Nat)
  deriving DecidableEq, Repr

/-- A launch accepted and not ended (R262 to R269, R293). headSince: the cycle since which its next gang waits as the head gang. signals: launch halts and resumes on channel 2, in
order of their cycles (R298, R308). nextGang counts the gangs taken from the record in
order; gangEnds those that have ended; die is fixed by the first gang of a die-span launch. -/
structure Launch where
  (lid : Nat) (seq : Int) (paddock ctx : Nat) (words : List Int) (issuer : Option Nat)
  (cls : Int) (nextGang gangEnds : Nat) (again : List Relaunch)
  (descs : List Int) (chans : List Nat) (granted : Bool) (die : Option Nat)
  (missed raised started : Bool) (headSince : Option Int) (table : List (Int × Int × Int × Bool))
  (signals : List Signal)
  deriving DecidableEq, Repr

/-- A journal entry's two copies (R265): sequence number, record, context's descriptor address, issuing gang, gang
table, and the M-dies that hold the copies. -/
structure JEntry where
  (seq : Int) (paddock : Nat) (words : List Int) (desc : Int) (issuer : Option Nat) (nextGang gangEnds : Nat)
  (table : List (Int × Int × Int × Bool)) (dies : List Nat)
  deriving DecidableEq, Repr

/-- A bound context (R257, R258, R272): its descriptor's address and 27 words; bind order; whether its sequencer has
started; whether the wake barrier has completed a phase since the last switch-out; whether the switched-out sequencer has
work. -/
structure Context where
  (ctx : Nat) (desc : Int) (words : List Int) (paddock : Nat) (seqWid : Option Nat)
  (woken seqReady : Bool)
  deriving DecidableEq, Repr

/-- A paddock (R257, R271, R272). -/
structure Paddock where
  (n : Nat) (pairs : List Nat) (min max : Nat) (running : Option Nat) (sliceStart : Int) (nextSeq : Int)
  (starved : Bool) (pausing : Bool)
  deriving DecidableEq, Repr

/-- A release on its way (R219): the number of its phase since the grant, cycle, value, warps that arrived. -/
structure Release where
  (n : Nat) (at_ : Int) (value : Int) (warps : List Nat)
  deriving DecidableEq, Repr

/-- A channel (R215). lid none: a system channel (R225). count: the phases that have completed since its record was made, which is the
number of the open phase. seen: each warp's latest arrival, the number of its phase, and the value latched when it was released. The members
follow from what else State holds, the placed gangs and the units in service: chanMembers. What channels 0 to 4 carry (R225) stands in the package's
GTIME, preempts, the launches' signals, frontiers and frontier, and grants. -/
structure Channel where
  (ch : Nat) (lid : Option Nat) (name : Nat) (pkgSpan : Bool) (op table : Int) (phase : Int)
  (expected drops dropsNow : Int) (arrived dropped : List Nat) (vals : List (Nat × Int)) (acc : Option Int)
  (value lastTc : Int) (due : List Release) (seen : List (Nat × Nat × Option Int)) (broken : Bool)
  (count : Nat)
  deriving DecidableEq, Repr

/-- A line copy in an L1 (R159, R169): global line, its 81 trytes, tag, read count, and which line of the carve-out holds it. -/
structure L1Line where
  (pkg line : Int) (data : Store) (tag : Tag) (count : Option Nat) (place : Nat)
  deriving DecidableEq, Repr

/-- A code block in an instruction cache (R210): context, block address / 162, 27 words. -/
structure CodeBlock where
  (ctx : Nat) (block : Int) (words : List Int)
  deriving DecidableEq, Repr

/-- A TLB entry (R148): context, half, level of the leaf, its page number (n without the page's low trits), the leaf
and where it stands in memory. -/
structure Tlb where
  (ctx : Nat) (half : Int) (level : Nat) (page : Int) (leaf : Int) (entry : Int)
  deriving DecidableEq, Repr

/-- An entry of a die's node cache (R148): the node of a level on the way to a page of a context and half, and its place. page is the
page number without the trits of that level and the levels below. -/
structure NodeEntry where
  (die ctx : Nat) (half : Int) (level : Nat) (page : Int) (node : Int)
  deriving DecidableEq, Repr

/-- A translation that an M-die caches for ATS (R151): PASID and host frame. -/
structure AtsEntry where
  (pasid frame : Int)
  deriving DecidableEq, Repr

/-- A host ATS invalidation (R150, R151): context, half, first page, pages; the accesses checked before it that it awaits; it has been
answered. -/
structure AtsInval where
  (ctx : Nat) (half first count : Int) (waits : List Nat) (answered : Bool)
  deriving DecidableEq, Repr

/-- A watch unit (R294, R295): record, mask, target warp, its gang and launch, count, the cycle in which it was armed. -/
structure Watch where
  (unit : Nat) (words : List Int) (mask : Int) (wid : Nat) (gid lid : Option Nat) (count since : Int)
  deriving DecidableEq, Repr

/-- A binding of a stream port's receive side (R191, R241): the window's range or the STREAM task. -/
inductive BindTo
  | window (k first : Nat)
  | task (ticket : Nat)
  deriving DecidableEq, Repr

/-- The current binding of a port: port, gang, what it feeds, lines, sectors landed, lines sent to it, and the name of the RECV that made it. -/
structure Binding where
  (port gid ctx : Nat) (feeds : BindTo) (n : Nat) (landed sent : Nat) (name : Option Nat)
  deriving DecidableEq, Repr

/-- A core (R17): its L1 carve-out in lines, which its gangs share (R159), L1, code, TLB, watch units, bindings, failed banks, the correctable-error counter, the symbols in error (row and bank) and each bank's consecutive corrected reads (R158), watch records lost
to an uncorrectable error that no warp has reported yet (R294), the cycles in which a bay's two vector pipes are free again (R75): bay,
pipe 0, pipe 1; a bay that is not listed has both free. -/
structure Core where
  (n : Nat) (carve : Nat) (l1 : List L1Line) (code : List CodeBlock) (tlb : List Tlb) (watch : List Watch)
  (binds : List Binding) (banks : List Nat) (corrected : Nat) (symbols streaks : List (Nat × Nat)) (errs : List Watch)
  (pipes : List (Nat × Int × Int))
  deriving DecidableEq, Repr

/-- A core with nothing in it. -/
def Core.empty (n : Nat) : Core := ⟨n, 0, [], [], [], [], [], [], 0, [], [], [], []⟩

/-- A line held in a slice (R178, R182, R190): package, line, dirty toward HBM4, pin (context and key), late mark (line's
map), recency, to be de-duplicated when it is written back. -/
structure HeldLine where
  (pkg line : Int) (dirty : Bool) (pin : Option (Nat × Int)) (late : Option (List Int)) (used : Nat) (dedup : Bool)
  deriving DecidableEq, Repr

/-- A line that an engine owns at its home (R179, R204): owner is a task (gang, ticket), a transducer request, or a
binding (gang, window). -/
inductive Owner
  | task (gid ticket : Nat)
  | xducer (req : Nat)
  | recv (gid k : Nat)
  deriving DecidableEq, Repr
structure Owned where
  (pkg line : Int) (owner : Owner)
  deriving DecidableEq, Repr

/-- A round of RED.DET (R187): element, width, tag, count, operation, kind, held contributions (key, value). -/
structure Round where
  (pkg addr : Int) (width : Nat) (tag count : Int) (op : Int) (flt : Bool) (held : List (List Int × Int)) (ctx : Nat)
  deriving DecidableEq, Repr

/-- A multicast entry (R182): line, map, and the requests merged into it. -/
structure McEntry where
  (id : Nat) (pkg line : Int) (map : List Int) (targets : List Nat)
  deriving DecidableEq, Repr

/-- Key of an .SC access (R206): t, core, bay, slot, lane. -/
abbrev ScKey := List Int

/-- What a request asks of its home (R175, R185, R195). Store units and reads carry their lanes' places. -/
inductive ReqBody
  /-- Read for a load operation: the positions in its list of reads. -/
  | read (op : Nat) (items : List Nat)
  /-- Tag read (R397). -/
  | rtag (op : Nat) (items : List Nat)
  /-- Read for PREF: keep a clean copy with a count (R410). -/
  | pref (n : Nat)
  /-- Store units (R426). -/
  | store (units : List Unit1)
  /-- Tag write (R429). -/
  | wtag (code scale : Int)
  /-- Atomic (R346): operation and units; cas carries expected values by lane. -/
  | atom (op : Nat) (kind : AtomOp) (units : List Unit1) (expect : List (Nat × Int))
  /-- RED (R185): operation, floating. -/
  | red (op : Int) (flt : Bool) (units : List Unit1)
  /-- RED.DET (R187): also round tag, count and key without the lane. -/
  | det (op : Int) (flt : Bool) (tag count : Int) (key : List Int) (units : List Unit1)
  /-- Fill of a window line (R163): gang, window, line. -/
  | fill (gid k j : Nat)
  /-- Sectors of a filled line on their way (R163): data, tag, next sector, and whether the line was found uncorrectable. -/
  | sectors (gid k j : Nat) (data : Store) (tag : Tag) (sector : Nat) (bad : Bool)
  /-- LDMC (R182): gang, window, line, map. -/
  | mcast (gid k j : Nat) (map : List Int)
  /-- A multicast copy on its way to a target (R183). -/
  | mcopy (gid k j : Nat) (data : Store) (tag : Tag) (sector : Nat) (bad : Bool)
  /-- A reply to a load or an atomic on its way to the core (R176). -/
  | data (op : Nat)
  /-- An access to a peer's line that an engine or a fetch makes itself, held on its way (R332). -/
  | seek
  /-- A window line written back, or a recall's answer (R166, R181): its place, data, tag, pin key, dedup, whether
  it carries data, and whether a row of it could not be read (R158). -/
  | wback (at_ : Loc) (data : Store) (tag : Tag) (pin : Int) (dedup : Bool) (have_ : Bool) (bad : Bool)
  /-- A write-back entry of a slice in use (R181): for a line it evicts, to be de-duplicated or not (R190), or one written back to it. -/
  | evict (dedup : Bool)
  /-- Ownership request of a core's store to a present line (R179, R427): gang, window, line, and the store's units in
  the line (scratchpad address, width, value), written when the home grants. -/
  | own (gid k j : Nat) (units : List (Int × Nat × Int))
  /-- A recall sent to a holder (R166): gang, window, line; for ownership. -/
  | recall (gid k j : Nat) (forOwner : Bool)
  /-- A stream sector (R192): receiving core and port, data, tag, sector. -/
  | stream (core port : Nat) (data : Store) (tag : Tag) (sector : Nat)
  /-- Access to host memory (R151), ended by the PCIe port. -/
  | hostStore (units : List Unit1)
  deriving DecidableEq, Repr

/-- A request in flight (R175): name, source (core; 768 + q for a sequencer; 800 for the slices), context, the line it
names, .SC key, state at the slice: 0 on its way, 1 in a miss entry, 2 in the .SC queue, 3 waiting there for the
line, 4 in the retry queue (R180), 5 a write-back whose data is written and whose line is to be pinned (R168); cycle of sending; the requests that are performed before it (R457). -/
structure Req where
  (id : Nat) (src : Nat) (ctx : Nat) (wid : Nat) (pkg line : Int) (body : ReqBody) (sc : Option ScKey) (stage : Nat) (sent : Int) (after : List Nat)
  deriving DecidableEq, Repr

/-- What one lane of a load operation asks for and has received; a double with a part in host memory is two (R457). -/
inductive Got
  | waiting
  | done (v : Int)                     -- an atomic's old value, written (R346)
  | value (v : Int)
  | tg                                 -- reserved code with .TS: zero, TG raised
  | tagFault (addr : Int)
  | uncor (addr : Int)
  deriving DecidableEq, Repr
structure LaneRead where
  (lane : Nat) (virt : Int) (at_ : Loc) (hi : Option Loc) (width : Nat) (got : Got)
  deriving DecidableEq, Repr

/-- A load or atomic whose replies have not all been delivered (R389, R346), with its cycle of issue, whether a handler issued it (R296), the
number that its latch result has in each of its lanes, and for an atomic the depth and the link stack of each lane at the word (R347). -/
structure LoadOp where
  (id wid : Nat) (word : Int) (d : Dst) (width : Nat) (dbl : Bool) (group ts : Bool) (fill : Option (Option Nat)) (instr : Instr)
  (lanes : List LaneRead) (hstep : Bool) (at_ : Int) (inHandler : Bool) (marks : List (Nat × Nat))
  (stood : List (Nat × Nat × List (Option Int)))
  deriving DecidableEq, Repr

/-- A transducer table slot (R248, R249). -/
inductive TableSt | empty | loading | loaded
  deriving DecidableEq, Repr
structure TableSlot where
  (t : Nat) (st : TableSt) (ctx : Nat) (states classes start : Nat) (map entries : Store)
  deriving DecidableEq, Repr

/-- A transducer request (R252): name, gang, launch, context, record and its address, pages pinned, state. run: offset,
produced, state and outcome once it runs; the writes that its source reads come after (R204). -/
structure XReq where
  (id gid lid ctx : Nat) (addr : Int) (words : List Int) (src dst : List Loc) (running : Bool) (offset produced st : Nat) (outcome : Int)
  (after : List Nat)
  deriving DecidableEq, Repr
structure XLane where
  (n : Nat) (queue : List XReq)
  deriving DecidableEq, Repr

/-- A pre-emption request on channel 1 (R285): cycle of arrival, gangs, sequencer warps, budget. -/
structure Preempt where
  (at_ : Int) (paddock : Nat) (wids : List Nat) (budget : Int)
  deriving DecidableEq, Repr

/-- An open PCIe page request (R152). -/
structure PageReq where
  (i ctx : Nat) (page : Int) (cores : List Nat) (relaunch : Bool)
  deriving DecidableEq, Repr

/-- What an event log entry reports (R188, R266, R269, R280, R294, R299, R158 …): a code and its data. -/
inductive LogKind
  | reduction | completionPoisoned | deadline | doubleTrap | watchCleared | halt | preh | bankFailed | storeDiscarded
  | remoteTimeout | headStarved | completionTimeout | aerDiscard | aerAdvisory | clock
  deriving DecidableEq, Repr
structure LogEvent where
  (ctx : Option Nat) (kind : LogKind) (data : List Int)
  deriving DecidableEq, Repr

/-- A VF's binding (R326). -/
structure Vf where
  (n : Nat) (desc base : Int)
  deriving DecidableEq, Repr

/-- A power grant on its way (R337): its word, and the cycle in which its die applies it. -/
structure Grant where
  (word at_ : Int)
  deriving DecidableEq, Repr

/-- The package's own registers and lists; numbered: the host has set the package number since reset (R331, R338); dwin: the debug window's operation in progress (R329, R330, R337, R22, R292, R334). -/
structure Package where
  (gtime : Int)
  (st number detail security debug boundary ceiling : Int) (numbered : Bool)
  (mailbox window : List Int) (dwin : List Pend)
  (vfs : List Vf)
  (duty : List (Nat × Nat)) (grants : List Grant)
  (deadCores deadSlices deadPcs deadLanes deadSeqs deadDies : List Nat) (deadLinks : List LinkId) (scaleDown : List Nat)
  (deadPeers : List Int) (rerouting : Bool)
  (frontier : Int) (frontiers : List (Int × Int))
  (report : List (BitVec 8)) (hostReads : List (List Int)) (aer : Nat)
  deriving DecidableEq, Repr

/-- Domain memory, host memory (R4, R44, R45, R64). Trytes stand at (package + 364)·3^26 + local address; tags
and lists of lines at (package + 364)·3^26 + local line; tags as the word code + 3^9·scale. poison: lines that
are uncorrectable; frames: the frame poison list (R292); lost: the M-dies whose lines are lost with them, each with its package (R22). -/
structure Memory where
  (data tags : Store) (poison : List Nat) (frames : List Nat) (lost : List (Int × Nat)) (host : List Host.Cell)
  deriving DecidableEq, Repr

/-- The home slices' own state (R177 to R190, R207). -/
structure Home where
  (held : List HeldLine) (owned : List Owned) (rounds : List Round) (mcasts : List McEntry) (dedup : List (Nat × Nat))
  deriving DecidableEq, Repr

/-- The transducer (R248 to R256). -/
structure Xducer where
  (slots : List TableSlot) (lanes : List XLane)
  deriving DecidableEq, Repr

/-- The word being issued, set by the step for exec: warp, word index, issue set, issue slot; late: a re-issue at its promise
(R164); step: run by HSTEP for the debugger's pending operation n of warp dbg (R307). -/
structure Cur where
  (wid : Nat) (pc : Int) (lanes : List Nat) (slot : Nat) (late : Bool) (hstep : Option (Nat × Nat))
  deriving DecidableEq, Repr

/-- What arrivals of one cycle meet at: a named barrier, a channel, a transaction barrier (R91, R171, R219). -/
inductive Meeting
  | bar (gid q : Nat)
  | chan (ch : Nat)
  /-- In a gang's scratchpad at an address, or in global memory at a key. -/
  | tb (gid : Option Nat) (addr : Int)
  deriving DecidableEq, Repr

/-- Who moves next: an event of the part, a warp's issue in a slot of its bay, or the clock. -/
inductive Turn
  | event (i : Instr)
  | issue (wid slot : Nat)
  | tick
  deriving DecidableEq, Repr

/-- The machine. cur, forced, agenda, served (bays whose slots have chosen in this cycle), late (warp and slot of the arriving words chosen in
this cycle, which issue at its end), arrivals (this cycle's, each with its warp's place), barred (what the move did within its step met a line that
an engine owns, or full entries at a home: it has not happened; log entry 132), fresh and nextId are the model's own (log entries 3, 4, 10). -/
structure State where
  pkg      : Package
  mem      : Memory
  home     : Home
  warps    : List Warp
  gangs    : List Gang
  launches : List Launch
  ctxs     : List Context
  paddocks : List Paddock
  journal  : List JEntry
  chans    : List Channel
  cores    : List Core
  reqs     : List Req
  ops      : List LoadOp
  xd       : Xducer
  preempts : List Preempt
  pageReqs : List PageReq
  nodes    : List NodeEntry
  ats      : List AtsEntry
  invals   : List AtsInval
  log      : List LogEvent
  cur      : Option Cur
  forced   : Option Cur
  agenda   : List Turn
  served   : List Nat
  late     : List (Nat × Nat)
  arrivals : List (Meeting × Nat)
  barred   : Bool
  fresh    : Nat
  nextId   : Nat
  deriving DecidableEq, Repr

/-- Reasons a step stops. -/
inductive Fault
  /-- Raised by no meaning: every access the spec gives an outcome takes that outcome. Kept so that the type is
  inhabited; safe. -/
  | noSuchState
  deriving DecidableEq, Repr

/-- Reasons the model gives no meaning. -/
inductive Refusal
  /-- Raised by an arm of exec whose instruction has no meaning yet; safe. -/
  | notModelled (mnemonic : String)
  deriving DecidableEq, Repr

/-- A paddock before any bind (R271). -/
def Paddock.start (n : Nat) : Paddock := ⟨n, [], 0, 384, none, 0, 0, false, false⟩

/-- The package after power-on reset, before the host acts (R338, R329, R337). -/
def Package.reset : Package :=
  { gtime := 0, st := 0, number := 0, detail := 0, security := 0, debug := 0, boundary := Config.memoryLines,
    ceiling := 3600, numbered := false, mailbox := List.replicate 27 0, window := List.replicate 27 0, dwin := [], vfs := [], duty := [], grants := [],
    deadCores := [], deadSlices := [], deadPcs := [], deadLanes := [], deadSeqs := [], deadDies := [], deadLinks := [],
    scaleDown := [], deadPeers := [], rerouting := false, frontier := 0, frontiers := [], report := [],
    hostReads := [], aer := 0 }

/-- The machine right after reset (R338). -/
def State.reset : State :=
  { pkg := Package.reset, mem := ⟨[], [], [], [], [], []⟩, home := ⟨[], [], [], [], []⟩, warps := [], gangs := [],
    launches := [], ctxs := [], paddocks := [], journal := [], chans := [], cores := [], reqs := [], ops := [],
    xd := ⟨[], []⟩, preempts := [], pageReqs := [], nodes := [], ats := [], invals := [], log := [], cur := none, forced := none, agenda := [], served := [],
    late := [], arrivals := [], barred := false, fresh := 0, nextId := 0 }

end Sys2Proof.Machine
end

