-- ==== Sys2Proof/Machine/Ternary.lean ====
section
/-! DEFINITION. Machine/Ternary.lean: balanced ternary arithmetic (R5 to R7, R23 to R38) and the
packing of fields into words (R6). -/

namespace Sys2Proof.Tern

/-- 3^n as an integer. -/
def pow3 (n : Nat) : Int := Int.ofNat (Nat.pow 3 n)

/-- The largest magnitude of n trits, (3^n - 1)/2 (R7, R23). -/
def maxv (n : Nat) : Int := Int.ofNat ((Nat.pow 3 n - 1) / 2)

/-- Keep trits n-1 to 0: the value congruent modulo 3^n that is canonical in n trits (R7). -/
def narrow (v : Int) (n : Nat) : Int := (v + maxv n) % pow3 n - maxv n

/-- Discard the k lowest trits, which rounds v / 3^k to nearest (R26). -/
def shr (v : Int) (k : Nat) : Int := (v + maxv k) / pow3 k

/-- v is canonical in n trits (R7). -/
def canon (v : Int) (n : Nat) : Bool := decide (-maxv n ≤ v ∧ v ≤ maxv n)

/-- Trits hi down to lo of v, read as a balanced number (R6). -/
def field (v : Int) (hi lo : Nat) : Int := narrow (shr v lo) (hi + 1 - lo)

/-- Trit i of v. -/
def trit (v : Int) (i : Nat) : Trit := narrow (shr v i) 1

/-- sgn (R24). -/
def sgn (v : Int) : Trit := if v < 0 then -1 else if v = 0 then 0 else 1

/-- The trits 0 to n-1 of v, least significant first. -/
def trits : Nat → Int → List Trit
  | 0, _ => []
  | n + 1, v => narrow v 1 :: trits n (shr v 1)

/-- The value of a trit list, least significant first (R5). -/
def ofTrits : List Trit → Int
  | [] => 0
  | t :: ts => t + 3 * ofTrits ts

/-- The k elements of w trits each of v, lowest first (trytes of a word: w = 9). -/
def split (w : Nat) : Nat → Int → List Int
  | 0, _ => []
  | k + 1, v => narrow v w :: split w k (shr v w)

/-- The value whose elements of w trits are given, lowest first. -/
def join (w : Nat) : List Int → Int
  | [] => 0
  | x :: xs => x + pow3 w * join w xs

/-- Pack fields given lowest first, each with its width (R6). -/
def pack : List (Nat × Int) → Int
  | [] => 0
  | (w, v) :: r => v + pow3 w * pack r

/-- Unpack fields of the given widths, lowest first. -/
def unpack : List Nat → Int → List Int
  | [], _ => []
  | w :: ws, x => narrow x w :: unpack ws (shr x w)

/-- The result of fitting an exact value under a saturation trit, and whether OV is set (R38). -/
def fit (v : Int) (n : Nat) (s : Trit) : Int × Bool :=
  if canon v n then (v, false)
  else if s = 1 then (maxv n * sgn v, true)
  else (narrow v n, s == 0)

/-- Quotient to nearest, ties toward zero, of a by b ≠ 0 (R30). -/
def divNearest (a b : Int) : Int :=
  let q := Int.tdiv a b
  let r := a - q * b
  if 2 * r.natAbs > b.natAbs then q + sgn a * sgn b else q

/-- Quotient truncated toward zero (R30). -/
def divZero (a b : Int) : Int := Int.tdiv a b

/-- TSH on n trits with saturation trit s (R32). Counts at or beyond n are cut to n. -/
def tsh (x : Int) (k : Int) (n : Nat) (s : Trit) : Int × Bool :=
  if 0 < k then fit (x * pow3 (min k.toNat n)) n s
  else (shr x (min (-k).toNat n), false)

/-- TROT on n trits (R33). -/
def trot (x : Int) (k : Int) (n : Nat) : Int :=
  let r := (k % (n : Int)).toNat
  let y := narrow x n
  narrow (y * pow3 r) n + shr y (n - r)

/-- Zero trits above the most significant nonzero trit (R33). -/
def tlz (x : Int) (n : Nat) : Int :=
  Int.ofNat (((trits n x).reverse.takeWhile (fun t => t == 0)).length)

/-- Number of trits equal to c (R33). -/
def tcnt (x : Int) (n : Nat) (c : Trit) : Int :=
  Int.ofNat ((trits n x).countP (fun t => t == c))

/-- TMAP: table m, trit j is f(j - 1) (R34). -/
def tmap (m : Int) (x : Int) (n : Nat) : Int :=
  ofTrits ((trits n x).map fun t => trit m (t + 1).toNat)

/-- The binary trit function g of table m (R35). -/
def g2 (m : Int) (a b : Trit) : Trit := trit m (3 * (a + 1) + (b + 1)).toNat

/-- TBIN (R35). -/
def tbin (m : Int) (a b : Int) (n : Nat) : Int :=
  ofTrits (List.zipWith (g2 m) (trits n a) (trits n b))

/-- One trit of TSEL: selector c (R36). -/
def tsel1 (a b c : Trit) : Trit := if c = 1 then a else if c = 0 then 0 else b

/-- TSEL (R36). -/
def tsel (a b c : Int) (n : Nat) : Int :=
  ofTrits (List.zipWith (fun (p : Trit × Trit) t => tsel1 p.1 p.2 t)
    (List.zip (trits n a) (trits n b)) (trits n c))

/-- The comparison trit of .T: first nonzero from the top element (R362). -/
def firstNonzero : List Int → Trit
  | [] => 0
  | t :: ts => if t = 0 then firstNonzero ts else t

/-- The low word of a double (R4). -/
def lowWord (v : Int) : Word := narrow v 27
/-- The high word of a double (R4). -/
def highWord (v : Int) : Word := narrow (shr v 27) 27
/-- The double of a low and a high word (R4). -/
def double (lo hi : Int) : Double := lo + pow3 27 * hi

/-- Floor division of the tryte address by 81: the line (R4). -/
def lineOf (a : Int) : Int := a / 81

end Sys2Proof.Tern
end

