-- ==== Sys2Proof/Machine/Ops.lean ====
section
/-! DEFINITION. Machine/Ops.lean: the named operations over the state: sparse stores, memory and tags, lookups
and updates of warps, lanes, gangs and the rest, registers, the event log, commit, halts, and taking and
returning from a trap (R277 to R281). -/

namespace Sys2Proof.Machine

open Sys2Proof Tern

/-! ### Sparse stores -/

/-- Insert at its place by key; a value 0 is not listed. -/
def sins (k : Nat) (v : Int) : Store → Store
  | [] => if v = 0 then [] else [(k, v)]
  | (a, b) :: r => if k < a then (if v = 0 then (a, b) :: r else (k, v) :: (a, b) :: r) else (a, b) :: sins k v r

/-- The value at a key; 0 when unlisted. -/
def sget (m : Store) (k : Nat) : Int := ((m.find? fun p => p.1 == k).map fun p => p.2).getD 0

/-- Write a value at a key. -/
def sset (m : Store) (k : Nat) (v : Int) : Store := sins k v (m.filter fun p => p.1 != k)

/-- The canonical form: keys strictly rising, no value 0. -/
def swf : Store → Bool
  | [] => true
  | (a, b) :: r => b != 0 && (match r with | [] => true | (c, _) :: _ => decide (a < c)) && swf r

/-- Read n elements from key k on. -/
def sgets (m : Store) (k : Nat) : Nat → List Int
  | 0 => []
  | n + 1 => sget m k :: sgets m (k + 1) n

/-- Write elements from key k on. -/
def ssets (m : Store) (k : Nat) : List Int → Store
  | [] => m
  | v :: vs => ssets (sset m k v) (k + 1) vs

/-- The entries with keys in [k, k + n), moved to start at 0. -/
def sslice (m : Store) (k n : Nat) : Store :=
  (m.filter fun p => decide (k ≤ p.1 ∧ p.1 < k + n)).map fun p => (p.1 - k, p.2)

/-- Replace the entries of [k, k + n) by those of a store whose keys are below n. -/
def sblit (m : Store) (k n : Nat) (d : Store) : Store :=
  (m.filter fun p => decide (p.1 < k)) ++ ((d.filter fun p => decide (p.1 < n)).map fun p => (p.1 + k, p.2)) ++
    (m.filter fun p => decide (k + n ≤ p.1))

/-- The first entry satisfying p, updated by f. -/
def modFirst {α : Type} (p : α → Bool) (f : α → α) : List α → List α
  | [] => []
  | x :: xs => if p x then f x :: xs else x :: modFirst p f xs

/-- The elements with their positions. -/
def modIdx {α : Type} (f : Nat → α → α) (i : Nat) : List α → List α
  | [] => []
  | x :: xs => f i x :: modIdx f (i + 1) xs

/-- Insert in order of a key, after equal keys. -/
def insertBy {α : Type} (lt : α → α → Bool) (x : α) : List α → List α
  | [] => [x]
  | y :: ys => if lt x y then x :: y :: ys else y :: insertBy lt x ys

/-- Sort by a strict order, keeping the order of equals. -/
def sortBy {α : Type} (lt : α → α → Bool) (l : List α) : List α :=
  l.foldl (fun acc x => insertBy lt x acc) []

/-- Lexicographic order of keys. -/
def keyLt : List Int → List Int → Bool
  | [], [] => false
  | [], _ :: _ => true
  | _ :: _, [] => false
  | a :: as, b :: bs => if a = b then keyLt as bs else decide (a < b)

/-- The distinct elements, first occurrences in order. -/
def nodups {α : Type} [DecidableEq α] (l : List α) : List α :=
  l.foldl (fun acc x => if acc.contains x then acc else acc ++ [x]) []

/-- Keep the first n bits of a count down: the list 0 to n - 1. -/
def upto (n : Nat) : List Nat := List.range n

/-! ### Global memory and tags (R4, R44, R45, R64, R145) -/

/-- The key of a tryte: package and local address. -/
def memKey (pkg addr : Int) : Nat := ((pkg + 364) * 2541865828329 + addr).toNat
/-- The key of a line. -/
def lineKey (pkg line : Int) : Nat := memKey pkg line

/-- A tag as one number, and back: PLAIN with scale 0 is 0 (R64). -/
def Tag.num (t : Tag) : Int := t.code + 19683 * t.scale
def Tag.ofNum (v : Int) : Tag := ⟨narrow v 9, narrow (shr v 9) 9⟩
/-- The tag PLAIN, scale 0. -/
def Tag.plain : Tag := ⟨0, 0⟩

/-- Read the value of n trytes of domain memory, lowest first (R4). -/
def Memory.read (m : Memory) (pkg addr : Int) (n : Nat) : Int := join 9 (sgets m.data (memKey pkg addr) n)
/-- Write n trytes of domain memory. -/
def Memory.write (m : Memory) (pkg addr : Int) (n : Nat) (v : Int) : Memory :=
  { m with data := ssets m.data (memKey pkg addr) (split 9 n v) }
/-- The 81 trytes of a line. -/
def Memory.line (m : Memory) (pkg line : Int) : Store := sslice m.data (memKey pkg (81 * line)) 81
/-- A store of n keys in its canonical form. -/
def snorm (n : Nat) (d : Store) : Store := if swf d then d else ssets [] 0 (sgets d 0 n)
/-- Write the 81 trytes of a line. -/
def Memory.setLine (m : Memory) (pkg line : Int) (d : Store) : Memory :=
  { m with data := sblit m.data (memKey pkg (81 * line)) 81 (snorm 81 d) }
/-- A line's tag. -/
def Memory.tag (m : Memory) (pkg line : Int) : Tag := Tag.ofNum (sget m.tags (lineKey pkg line))
/-- Write a line's tag. -/
def Memory.setTag (m : Memory) (pkg line : Int) (t : Tag) : Memory :=
  { m with tags := sset m.tags (lineKey pkg line) t.num }
/-- The M-die of a line's home slice (R14, R177). -/
def lineDie (line : Int) : Nat := (line % 256).toNat / 64
/-- A line is uncorrectable at its home, or lost with its M-die (R22, R44). -/
def Memory.bad (m : Memory) (pkg line : Int) : Bool := m.poison.contains (lineKey pkg line) || m.lost.contains (pkg, lineDie line)

/-- One byte of host memory; 0 when nothing has been written (log entry 13). -/
def hostGet (l : List Host.Cell) (a : Nat) : Nat := ((l.find? fun c => c.1 == a).map fun c => c.2.toNat).getD 0
/-- Insert a byte at its place; a byte 0 is not listed. -/
def hostIns (a : Nat) (b : BitVec 8) : List Host.Cell → List Host.Cell
  | [] => if b = 0 then [] else [(a, b)]
  | c :: r => if a < c.1 then (if b = 0 then c :: r else (a, b) :: c :: r) else c :: hostIns a b r
/-- Write one byte of host memory. -/
def hostSet (l : List Host.Cell) (a : Nat) (b : Nat) : List Host.Cell :=
  hostIns a (BitVec.ofNat 8 b) (l.filter fun c => c.1 != a)
/-- The canonical form of host memory. -/
def hostWf : List Host.Cell → Bool
  | [] => true
  | c :: r => c.2 != 0 && (match r with | [] => true | d :: _ => decide (c.1 < d.1)) && hostWf r

/-- Every part of memory has its canonical form. -/
def Memory.wf (m : Memory) : Bool := swf m.data && swf m.tags && hostWf m.host

/-! ### Lookups and updates -/

def State.warp? (s : State) (wid : Nat) : Option Warp := s.warps.find? fun w => w.wid == wid
def State.modWarp (s : State) (wid : Nat) (f : Warp → Warp) : State :=
  { s with warps := modFirst (fun w => w.wid == wid) f s.warps }
def State.gang? (s : State) (gid : Nat) : Option Gang := s.gangs.find? fun g => g.gid == gid
def State.modGang (s : State) (gid : Nat) (f : Gang → Gang) : State :=
  { s with gangs := modFirst (fun g => g.gid == gid) f s.gangs }
def State.launch? (s : State) (lid : Nat) : Option Launch := s.launches.find? fun x => x.lid == lid
def State.modLaunch (s : State) (lid : Nat) (f : Launch → Launch) : State :=
  { s with launches := modFirst (fun x => x.lid == lid) f s.launches }
def State.context? (s : State) (c : Nat) : Option Context := s.ctxs.find? fun x => x.ctx == c
def State.modContext (s : State) (c : Nat) (f : Context → Context) : State :=
  { s with ctxs := modFirst (fun x => x.ctx == c) f s.ctxs }
def State.chan? (s : State) (ch : Nat) : Option Channel := s.chans.find? fun x => x.ch == ch
def State.modChan (s : State) (ch : Nat) (f : Channel → Channel) : State :=
  { s with chans := modFirst (fun x => x.ch == ch) f s.chans }
def State.req? (s : State) (id : Nat) : Option Req := s.reqs.find? fun x => x.id == id
def State.modReq (s : State) (id : Nat) (f : Req → Req) : State :=
  { s with reqs := modFirst (fun x => x.id == id) f s.reqs }
def State.delReq (s : State) (id : Nat) : State := { s with reqs := s.reqs.filter fun x => x.id != id }
def State.op? (s : State) (id : Nat) : Option LoadOp := s.ops.find? fun x => x.id == id
def State.modOp (s : State) (id : Nat) (f : LoadOp → LoadOp) : State :=
  { s with ops := modFirst (fun x => x.id == id) f s.ops }
/-- A core; one that is not listed is empty. -/
def State.core (s : State) (n : Nat) : Core := (s.cores.find? fun c => c.n == n).getD (Core.empty n)
def State.modCore (s : State) (n : Nat) (f : Core → Core) : State :=
  if s.cores.any fun c => c.n == n then { s with cores := modFirst (fun c => c.n == n) f s.cores }
  else { s with cores := s.cores ++ [f (Core.empty n)] }
/-- A paddock; one that is not listed stands as at reset (R271). -/
def State.paddock (s : State) (n : Nat) : Paddock := (s.paddocks.find? fun c => c.n == n).getD (Paddock.start n)
def State.modPaddock (s : State) (n : Nat) (f : Paddock → Paddock) : State :=
  if s.paddocks.any fun c => c.n == n then { s with paddocks := modFirst (fun c => c.n == n) f s.paddocks }
  else { s with paddocks := s.paddocks ++ [f (Paddock.start n)] }
/-- The package's own registers, updated. -/
def State.modPkg (s : State) (f : Package → Package) : State := { s with pkg := f s.pkg }
/-- Memory, updated. -/
def State.modMem (s : State) (f : Memory → Memory) : State := { s with mem := f s.mem }

/-- GTIME (R224). -/
def State.now (s : State) : Int := s.pkg.gtime
/-- A fresh name. -/
def State.bump (s : State) : State := { s with nextId := s.nextId + 1 }

/-- Append to an event log (log entry 3 names the entries). -/
def State.note (s : State) (ctx : Option Nat) (k : LogKind) (data : List Int) : State :=
  { s with log := s.log ++ [⟨ctx, k, data⟩] }

/-- What the move does within its step cannot be done now: a line that it needs is an engine's, or the entries of a home are full (R179 to R181,
R204; log entry 132). -/
def State.bar (s : State) : State := { s with barred := true }
/-- A change of the state, unless it is barred: then nothing has happened. -/
def State.orStay (s t : State) : State := if t.barred then s else t

/-- An arrival of this cycle at a meeting, by a warp's place. -/
def State.met (s : State) (m : Meeting) (key : Nat) : State := { s with arrivals := (m, key) :: s.arrivals }
/-- A transaction barrier of a gang has been arrived at in this cycle: posts and landings come before arrivals (R171). -/
def State.tbMet (s : State) (gid : Nat) : Bool := s.arrivals.any fun p => match p.1 with | .tb (some g) _ => g == gid | _ => false

/-- Word i of a list of words. -/
def wordAt (l : List Int) (i : Nat) : Int := l.getD i 0
/-- The double of words i and i + 1 (R4). -/
def dblAt (l : List Int) (i : Nat) : Int := double (wordAt l i) (wordAt l (i + 1))

/-! ### Warps and lanes -/

/-- A lane of a warp. -/
def Warp.lane (w : Warp) (l : Nat) : Lane := w.lanes.getD l (Lane.start 0)
/-- Update one lane. -/
def Warp.modLane (w : Warp) (l : Nat) (f : Lane → Lane) : Warp :=
  { w with lanes := modIdx (fun i x => if i = l then f x else x) 0 w.lanes }
/-- Update the listed lanes. -/
def Warp.modLanes (w : Warp) (ls : List Nat) (f : Nat → Lane → Lane) : Warp :=
  { w with lanes := modIdx (fun i x => if ls.contains i then f i x else x) 0 w.lanes }
/-- Update every lane. -/
def Warp.allLanes (w : Warp) (f : Nat → Lane → Lane) : Warp := { w with lanes := modIdx f 0 w.lanes }
/-- The lanes that satisfy a test, ascending. -/
def Warp.where_ (w : Warp) (p : Lane → Bool) : List Nat := (upto 27).filter fun l => p (w.lane l)

/-- A lane is ready: live and neither waiting, yielded nor halted (R70). -/
def Lane.ready (x : Lane) : Bool := x.live && x.wait.isNone && x.yielded.isNone && x.halted.isNone
/-- The ready lanes of a warp. -/
def Warp.readyLanes (w : Warp) : List Nat := w.where_ Lane.ready

/-- A warp has lanes to issue for (R70, R279): a handler waits for the waits begun in it, and for HRES when every lane is halted. -/
def Warp.hasLanes (w : Warp) : Bool :=
  if w.handler then (w.where_ fun x => x.hwait.isSome).isEmpty && !(w.where_ fun x => x.halted.isNone).isEmpty
  else !w.readyLanes.isEmpty

/-- The issue set (R72): greatest depth, then lowest PC, of the ready lanes. -/
def Warp.issueSet (w : Warp) : List Nat :=
  let r := w.readyLanes
  let d := r.foldl (fun m l => max m (w.lane l).depth) 0
  let r2 := r.filter fun l => (w.lane l).depth == d
  match r2 with
  | [] => []
  | l0 :: _ =>
    let c := r2.foldl (fun m l => min m (w.lane l).pc) (w.lane l0).pc
    r2.filter fun l => (w.lane l).pc == c

/-- The mask word of a set of lanes: trit l is +1 (R84, R278). -/
def maskOf (ls : List Nat) : Int := ls.foldl (fun a l => a + pow3 l) 0

/-- The core a warp runs on; sequencers count from 768 as sources of requests. -/
def Warp.coreNo (w : Warp) : Nat := match w.place with | .slot c _ _ => c | .seq q => 768 + q | .saved => 900
/-- Core, bay and slot as an order key (R91); sequencers first (R274). -/
def Warp.orderKey (w : Warp) : List Int :=
  match w.place with | .slot c b k => [1, c, b, k] | .seq q => [0, q] | .saved => [2, w.wid]
/-- A warp's place as one number, in the order in which arrivals of one cycle apply: core, bay, slot (R91, R218, R219). A launch sequencer, which
has no core number, comes first, as it does between launches of one cycle (R274; DEDUCED, log entry 130). -/
def Warp.slotKey (w : Warp) : Nat :=
  match w.place with | .seq q => q | .slot c b k => 27 + c * 144 + b * 9 + k | .saved => 300000
/-- The warp is a launch sequencer (R259). -/
def Warp.isSeq (w : Warp) : Bool := match w.place with | .seq _ => true | _ => w.gid.isNone

/-- The context's descriptor words (R258). -/
def State.descOf (s : State) (c : Nat) : List Int := match s.context? c with | some x => x.words | none => []

/-! ### Registers (R71, R83) -/

/-- A V register's word in a lane. -/
def Warp.vreg (w : Warp) (l n : Nat) : Int := sget w.v (81 * l + n)
/-- A register holds a word: what is written is narrowed to 27 trits (R7). -/
def Warp.setV (w : Warp) (l n : Nat) (x : Int) : Warp := { w with v := sset w.v (81 * l + n) (lowWord x) }
/-- A G register. -/
def Warp.greg (w : Warp) (n : Nat) : Int := sget w.g n
def Warp.setG (w : Warp) (n : Nat) (x : Int) : Warp := { w with g := sset w.g n (lowWord x) }
/-- A G pair as a double (R83). -/
def Warp.gpair (w : Warp) (n : Nat) : Int := double (w.greg n) (w.greg (n + 1))
/-- A P predicate of a lane; P0 reads +1 (R83). -/
def Warp.preg (w : Warp) (l n : Nat) : Int := if n = 0 then 1 else sget w.p (9 * l + n)
def Warp.setP (w : Warp) (l n : Nat) (x : Int) : Warp := if n = 0 then w else { w with p := sset w.p (9 * l + n) x }
/-- A Q predicate; Q0 reads +1 (R83). -/
def Warp.qreg (w : Warp) (n : Nat) : Int := if n = 0 then 1 else sget w.q n
def Warp.setQ (w : Warp) (n : Nat) (x : Int) : Warp := if n = 0 then w else { w with q := sset w.q n x }

/-- Write a word or a double to a destination of a lane (G destinations ignore the lane). -/
def Warp.setDst (w : Warp) (l : Nat) (d : Dst) (dbl : Bool) (x : Int) : Warp :=
  match d with
  | .latch => w
  | .v n => if dbl then (w.setV l n x).setV l (n + 1) (shr x 27) else w.setV l n x
  | .g n => if dbl then (w.setG n x).setG (n + 1) (shr x 27) else w.setG n x

/-! ### Commit (R244, R293) -/

/-- Commit a gang, and record it in its launch's gang table. -/
def State.commitGang (s : State) (gid : Nat) : State :=
  match s.gang? gid with
  | none => s
  | some g =>
    let s1 := s.modGang gid fun g => { g with commit := true }
    s1.modLaunch g.lid fun x => { x with table := x.table.map fun e => if e.1 = g.x ∧ e.2.1 = g.y ∧ e.2.2.1 = g.z then (e.1, e.2.1, e.2.2.1, true) else e }

/-- Commit the gang of a warp, if it has one. -/
def State.commitWarp (s : State) (w : Warp) : State := match w.gid with | some g => s.commitGang g | none => s

/-! ### Halts (R298, R299) -/

/-- Halt the listed lanes; a lane already halted keeps its reason. -/
def Warp.haltLanes (w : Warp) (ls : List Nat) (h : Halt) : Warp :=
  w.modLanes ls fun _ x => { x with halted := match x.halted with | none => some h | some y => some y }
/-- Halt every lane of a warp. -/
def Warp.haltAll (w : Warp) (h : Halt) : Warp := w.haltLanes (upto 27) h

/-- A warp's address: core, handle, lane (R301). -/
def Warp.address (w : Warp) (l : Nat) : Int :=
  match w.place with
  | .slot c b k => (c : Int) * pow3 18 + ((9 * b + k : Nat) : Int) * pow3 9 + l
  | .seq q => ((768 + q : Nat) : Int) * pow3 18 + l
  | .saved => l

/-! ### Traps (R275 to R281) -/

/-- Trap causes by their codes (R275). -/
def cause.illegal : Int := 1
def cause.priv : Int := 2
def cause.align : Int := 3
def cause.trans : Int := 4
def cause.fetch : Int := 5
def cause.flimit : Int := 6
def cause.arith : Int := 7
def cause.tag : Int := 8
def cause.late : Int := 9
def cause.stack : Int := 10
def cause.barx : Int := 11
def cause.barc : Int := 12
def cause.snx : Int := 13
def cause.taskf : Int := 14
def cause.watch : Int := 15
def cause.trap : Int := 16
def cause.permit : Int := 17
def cause.uncor : Int := 18

/-- A trap to be taken: cause, and the listed lanes with T.INFO and T.ADDR. -/
structure TrapReq where
  (cause : Int) (lanes : List (Nat × Int × Int))
  deriving DecidableEq, Repr

/-- The handler PC of a cause: one code block each of the context's trap table (R277). -/
def State.handlerPc (s : State) (ctx : Nat) (c : Int) : Int := dblAt (s.descOf ctx) 7 + 27 * (c - 1)

/-- A lane as a trap leaves it: its state saved in the trap registers (R277). -/
def Lane.enter (t : TrapReq) (l : Nat) (x : Lane) : Lane :=
  let ia : Int × Int := match t.lanes.find? fun p => p.1 == l with
    | some p => p.2
    | none => (0, 0)
  { x with tEpc := x.pc, tDepth := x.depth, tLive := x.live, tWait := x.wait.isSome, tYield := x.yielded.isSome,
           tHalt := x.halted.isSome, pos := 0, since := 0, tInfo := ia.1, tAddr := ia.2, tested := false }

/-- The double trap (R280): the warp halts, the handler PC stays, an event is logged. -/
def State.doubleTrap (s : State) (w : Warp) (c : Int) : State :=
  let h : Halt := ⟨4, 0, 0⟩
  (s.modWarp w.wid fun w => { w.haltAll h with dbl := some h }).note (some w.ctx) .doubleTrap [w.address 0, w.tCause, c]

/-- Take a trap on a warp (R277). The lanes' PCs are their resume PCs when it is called. -/
def State.enterTrap (s : State) (wid : Nat) (t : TrapReq) : State :=
  match s.warp? wid with
  | none => s
  | some w =>
    if w.handler then s.doubleTrap w t.cause
    else s.modWarp wid fun w =>
      { w.allLanes (Lane.enter t) with
          handler := true, hpc := s.handlerPc w.ctx t.cause, tCause := t.cause, tLanes := maskOf (t.lanes.map fun p => p.1),
          tLevel := w.level, level := 1, inTaskf := decide (t.cause = cause.taskf) }

/-- A lane as RFT leaves it (R281): resume PC, depth and status from the trap registers. The link stack keeps its
newest entries, down to the range of R78. -/
def Lane.resume (now : Int) (x : Lane) : Lane :=
  { x with pc := x.tEpc, depth := x.tDepth, link := x.link.take (min 9 x.tDepth), live := x.tLive,
           wait := if x.tWait then x.wait else none, hwait := none,
           yielded := if x.tYield then (match x.yielded with | some y => some y | none => some ⟨27, now + 729⟩) else none,
           pos := 0, since := 0 }

/-- Return from handler mode (R281). -/
def Warp.leave (now : Int) (w : Warp) : Warp :=
  { w.allLanes (fun _ x => Lane.resume now x) with level := w.tLevel, handler := false, inTaskf := false }

/-- List the same T.INFO and T.ADDR for several lanes. -/
def listed (ls : List Nat) (info addr : Int) : List (Nat × Int × Int) := ls.map fun l => (l, info, addr)

end Sys2Proof.Machine
end

