-- ==== Sys2Proof/WellFormed.lean ====
section
/-! DEFINITION. WellFormed.lean: which operands an encoding admits (R98 to R106, R114 to R124), as a
check on Instr. Events have no encoding; their arguments are checked by their meanings. -/

namespace Sys2Proof

/-- Paired opcodes that take the source field (R123). -/
def POp.usesSource : POp → Bool
  | .addi | .subi | .muli | .mini | .maxi | .movi | .tshi => false
  | _ => true

/-- Paired opcodes that read their destination (R123). -/
def POp.readsDest : POp → Bool
  | .mov | .neg | .abs | .movi | .fneg | .fabs => false
  | _ => true

/-- Paired floating opcodes (R124). -/
def POp.isFloat : POp → Bool
  | .fadd | .fsub | .fmul | .fmin | .fmax | .fneg | .fabs => true
  | _ => false

namespace Wf

/-- A trit. -/
def tr (t : Int) : Bool := decide (-1 ≤ t ∧ t ≤ 1)
/-- 0 or +1. -/
def bit (t : Int) : Bool := decide (0 ≤ t ∧ t ≤ 1)
/-- The 16-trit immediate (R103). -/
def imm (e : Int) : Bool := Tern.canon e 16

/-- A full word's head (R98, R99). -/
def hd (h : Hd) : Bool := decide (h.pred ≤ 8)
/-- A head of the vector form. -/
def hv (h : Hd) : Bool := h.form == .vector && hd h
/-- A head of the group-wide form. -/
def hg (h : Hd) : Bool := h.form == .group && hd h

/-- A source legal in the form; an even one for a double (R100, R101). -/
def src (f : Form) (dbl : Bool) : Src → Bool
  | .x k => f == .vector && decide (1 ≤ k ∧ k ≤ 3)
  | .v n => f == .vector && decide (n ≤ 80) && (!dbl || n % 2 == 0)
  | .g n => decide (n ≤ 26) && (!dbl || (n % 2 == 0 && decide (n ≤ 24)))

/-- A register destination legal in the form (R100, R101). -/
def dst (f : Form) (dbl : Bool) : Dst → Bool
  | .v n => f == .vector && decide (n ≤ 80) && (!dbl || n % 2 == 0)
  | .g n => f == .group && decide (n ≤ 26) && (!dbl || (n % 2 == 0 && decide (n ≤ 24)))
  | .latch => f == .vector

/-- A predicate destination: 1 to 8 (R83, R100). -/
def pdst (n : Nat) : Bool := decide (1 ≤ n ∧ n ≤ 8)
/-- A predicate operand (R402). -/
def psrc (f : Form) : PSrc → Bool
  | .p n => f == .vector && decide (n ≤ 8)
  | .q n => decide (n ≤ 8)

/-- A G register. -/
def gr (n : Nat) : Bool := decide (n ≤ 26)
/-- An even G register of a pair (R83). -/
def gp (n : Nat) : Bool := n % 2 == 0 && decide (n ≤ 24)

/-- An address operand (R341). -/
def addr (f : Form) (a : Addr) : Bool :=
  gp a.base && src f false a.off && decide (a.scale ≤ 4) && imm a.e

/-- The immediate of an integer operation: within a tryte for .T (R115). -/
def intImm (ty : ITy) (i : Int) : Bool := imm i && (ty != .t || Tern.canon i 9)
/-- A source or an immediate. -/
def srcImm (f : Form) (ty : ITy) : SrcImm → Bool
  | .src s => src f (ty == .d) s
  | .imm i => intImm ty i

/-- Read count (R118). -/
def rc : Option Nat → Bool
  | none => true
  | some n => decide (1 ≤ n ∧ n ≤ 26)

/-- Target of BRA and CALL (R353, R356). -/
def target : Target → Bool
  | .rel i => imm i
  | .reg b i => gp b && imm i

/-- Items of HRDV and HWRV (R305). -/
def item (i : Nat) : Bool :=
  decide (i ≤ 80) || decide (100 ≤ i ∧ i ≤ 108) || decide (200 ≤ i ∧ i ≤ 202) || i == 300 ||
  decide (400 ≤ i ∧ i ≤ 426) || decide (500 ≤ i ∧ i ≤ 508)

/-- HRDP and HWRP items (R306). -/
def hitem : HItem → Bool
  | .link e => decide (1 ≤ e ∧ e ≤ 9841)
  | _ => true

/-- S and T registers a MOVS may write (R404). -/
def writable : SReg → Bool
  | .spill | .flags | .tepc | .tepch | .tdepth | .tstate | .tk0 | .tk1 | .tk2 => true
  | _ => false
/-- Lane-scope registers (R404). -/
def laneScope : SReg → Bool
  | .lane | .depth | .flags | .tinfo | .taddr | .taddrh | .tepc | .tepch | .tdepth | .tstate
  | .tk0 | .tk1 | .tk2 => true
  | _ => false
/-- Trap registers (R278). -/
def trapReg : SReg → Bool
  | .tcause | .tlanes | .tlevel | .tinfo | .taddr | .taddrh | .tepc | .tepch | .tdepth | .tstate
  | .tk0 | .tk1 | .tk2 => true
  | _ => false

def i1 (o : I1) : Bool :=
  hd o.hd && tr o.sat && tr o.te && dst o.hd.form (o.ty == .d) o.d && src o.hd.form (o.ty == .d) o.a
def i2 (imOk : Bool) (o : I2) : Bool :=
  hd o.hd && tr o.sat && tr o.te && dst o.hd.form (o.ty == .d) o.d && src o.hd.form (o.ty == .d) o.a &&
  srcImm o.hd.form o.ty o.b && (imOk || match o.b with | .src _ => true | .imm _ => false)
def i3 (o : I3) : Bool :=
  hd o.hd && tr o.sat && tr o.te && dst o.hd.form (o.ty == .d) o.d && src o.hd.form (o.ty == .d) o.a &&
  src o.hd.form (o.ty == .d) o.b && src o.hd.form (o.ty == .d) o.c
def f1 (o : F1) : Bool :=
  hd o.hd && bit o.fzi && bit o.fzo && tr o.te && dst o.hd.form false o.d && src o.hd.form false o.a
def f2 (o : F2) : Bool :=
  hd o.hd && bit o.fzi && bit o.fzo && tr o.te && dst o.hd.form false o.d && src o.hd.form false o.a &&
  src o.hd.form false o.b

/-- The vector registers that a half reads (R106). -/
def halfReads (h : Half) : List Nat :=
  (match h.s with | some (.v n) => [n] | _ => []) ++
  (match h.d with | .v n => if h.op.readsDest then [n] else [] | _ => [])

/-- One half (R104, R105, R124). -/
def half (h : Half) : Bool :=
  decide (h.pred ≤ 8) && dst .vector false h.d && decide (-1 ≤ h.m8 ∧ h.m8 ≤ 0) &&
  (if h.op.isFloat then bit h.m7 && bit h.m6 else tr h.m7 && h.m6 == 0) &&
  (h.op != .movi || h.m8 == 0) &&
  (if h.op.usesSource then (match h.s with | some s => src .vector false s | none => false) && h.imm == 0
   else h.s == none && Tern.canon h.imm 6)

/-- The rules of R106 that a pair of halves must meet. -/
def pairRules (a b : Half) : Bool :=
  let reads := halfReads a ++ halfReads b
  ([0, 1, 2].all fun k => decide ((reads.filter fun n => n % 3 == k).length ≤ 2)) &&
  (match a.d, b.d with | .v m, .v n => m % 3 != n % 3 | _, _ => true) &&
  b.s != some (.x 1)

end Wf

open Wf in
/-- The operands are ones the encoding admits. Events are not encoded: true. -/
def Instr.wf : Instr → Bool
  | .abs o | .neg o | .sgn o | .tlz o => i1 o
  | .add o | .sub o | .mul o | .mulh o | .min o | .max o | .div o | .divz o | .mod o | .tsh o | .trot o => i2 true o
  | .mad o | .tsel o => i3 o
  | .tcnt o => hd o.hd && tr o.sat && tr o.te && tr o.sel && dst o.hd.form (o.ty == .d) o.d && src o.hd.form (o.ty == .d) o.a
  | .tmap o => hd o.hd && tr o.sat && tr o.te && dst o.hd.form (o.ty == .d) o.d && src o.hd.form (o.ty == .d) o.a && Tern.canon o.tbl 3
  | .tbin o => hd o.hd && tr o.sat && tr o.te && dst o.hd.form (o.ty == .d) o.d && src o.hd.form (o.ty == .d) o.a && src o.hd.form (o.ty == .d) o.b && Tern.canon o.tbl 9
  | .fadd o | .fsub o | .fmul o | .fmin o | .fmax o | .fdiv o => f2 o
  | .fma o => hd o.hd && bit o.fzi && bit o.fzo && tr o.te && dst o.hd.form false o.d && src o.hd.form false o.a && src o.hd.form false o.b && src o.hd.form false o.c
  | .fneg o | .fabs o | .fsqrt o | .frcp o | .frsq o | .fexp o | .flog o | .fexp3 o | .flog3 o | .ftanh o | .fcls o => f1 o
  | .fscl o => hd o.hd && bit o.fzi && bit o.fzo && tr o.te && dst o.hd.form false o.d && src o.hd.form false o.a && (match o.k with | .src s => src o.hd.form false s | .imm i => imm i)
  | .frnd o => hd o.hd && bit o.fzi && bit o.fzo && tr o.te && dst o.hd.form false o.d && src o.hd.form false o.a && decide (-364 ≤ o.pos ∧ o.pos ≤ 364)
  | .fcmp o => hd o.hd && bit o.fzi && tr o.te && pdst o.pd && src o.hd.form false o.a && src o.hd.form false o.b && tr o.u
  | .cmp o => hd o.hd && tr o.sat && tr o.te && pdst o.pd && src o.hd.form (o.ty == .d) o.a && srcImm o.hd.form o.ty o.b
  | .sel o => hd o.hd && tr o.sat && tr o.te && dst o.hd.form o.dbl o.d && src o.hd.form o.dbl o.a && src o.hd.form o.dbl o.b && src o.hd.form o.dbl o.c && psrc o.hd.form o.p
  | .pset o => hd o.hd && tr o.te && pdst o.pd && src o.hd.form false o.a && decide (o.j ≤ 26) && decide ((if o.hd.form == .vector then -1 else 0) ≤ o.j)
  | .ptbl o => hd o.hd && tr o.te && pdst o.pd && psrc o.hd.form o.a && psrc o.hd.form o.b && Tern.canon o.tbl 9
  | .pany o | .pall o => hv o.hd && tr o.te && pdst o.qd && psrc .vector o.a
  | .pcnt o => hv o.hd && tr o.te && dst .vector false o.d && psrc .vector o.a && tr o.c
  | .shfl o => hv o.hd && tr o.sat && tr o.te && dst .vector o.dbl o.d && src .vector o.dbl o.a && src .vector false o.b && decide (-26 ≤ o.off ∧ o.off ≤ 26)
  | .bcst o => hv o.hd && tr o.sat && tr o.te && dst .vector o.dbl o.d && src .vector o.dbl o.a && decide (-1 ≤ o.lane ∧ o.lane ≤ 26)
  | .vred o | .vscan o => hv o.hd && tr o.op && (match o.ty with | .f9 | .f27 => bit o.s18 && bit o.fzo | _ => tr o.s18 && o.fzo == 0) && tr o.te && dst .vector (o.ty == .d) o.d && src .vector (o.ty == .d) o.a
  | .ld o => hv o.hd && rc o.rc && (o.w != .tryte || !o.sc) && dst .vector (o.w == .double) o.d && addr .vector o.ad
  | .st o => hv o.hd && (o.w != .tryte || !o.sc) && src .vector (o.w == .double) o.c && addr .vector o.ad
  | .ldg o => hg o.hd && (if o.dbl then gp o.d else gr o.d) && gp o.base && imm o.e
  | .stg o => hg o.hd && (if o.dbl then gp o.c else gr o.c) && gp o.base && imm o.e
  | .lds o => hv o.hd && rc o.rc && dst .vector (o.w == .double) o.d && addr .vector o.ad
  | .sts o => hv o.hd && src .vector (o.w == .double) o.c && addr .vector o.ad
  | .atom o => hv o.hd && dst .vector o.dbl o.d && src .vector o.dbl o.c && addr .vector o.ad && (match o.op with | .cas => o.d != .latch | .tbin t => Tern.canon t 9 && o.ad.e == 0 | _ => true)
  | .red o => hv o.hd && tr o.op && (match o.det with | some g => gr g | none => true) && !(o.flt && o.w == .double) && src .vector (o.w == .double) o.c && addr .vector o.ad
  | .ldmc o => hg o.hd && decide (o.a ≤ 24) && gr o.b
  | .pref o => hv o.hd && rc (some o.n) && addr .vector o.ad
  | .fence o => hd o.hd && decide (-4 ≤ o.scope ∧ o.scope ≤ 3) && tr o.kind
  | .ldtag o => hv o.hd && dst .vector false o.d && addr .vector o.ad
  | .sttag o => hv o.hd && src .vector false o.c && addr .vector o.ad
  | .cflush o | .cinv o => hv o.hd && addr .vector o.ad
  | .icinv o => hd o.hd && gp o.base && src o.hd.form false o.off && imm o.e
  | .isync h | .nop h | .rft h => hd h
  | .mov o => hd o.hd && dst o.hd.form o.dbl o.d && src o.hd.form o.dbl o.a
  | .movi o => hd o.hd && dst o.hd.form false o.d && Tern.canon o.imm 27
  | .movh o => hd o.hd && dst o.hd.form true o.d && o.d != .latch && Tern.canon o.imm 27
  | .movg o => hv o.hd && gr o.gd && src .vector false o.a && decide (-1 ≤ o.lane ∧ o.lane ≤ 26)
  | .movs o => hd o.hd && (match o.op with
      | .read d r => dst o.hd.form false d && (o.hd.form == .vector || !laneScope r)
      | .write a r => src o.hd.form false a && writable r && (o.hd.form == .vector || !laneScope r))
  | .movc o => hd o.hd && dst o.hd.form false o.d && psrc o.hd.form o.a
  | .cvt o => hd o.hd && tr o.sat && bit o.fzi && bit o.fzo && tr o.te && dst o.hd.form false o.d && src o.hd.form false o.a
  | .bcvt o =>
    let wide := o.fmt == .b32 || o.fmt == .i32
    let flt := o.fmt == .b32 || o.fmt == .b16 || o.fmt == .bf16
    hd o.hd && tr o.te && tr o.tf && (if flt then o.tf != 0 && bit o.x17 else o.tf == 0 && tr o.x17) &&
      dst o.hd.form (wide && !o.toTernary) o.d && src o.hd.form (wide && o.toTernary) o.a
  | .pack o | .unpack o => hv o.hd && tr o.fmt && dst .vector false o.d && src .vector false o.a
  | .bra o => hd o.hd && target o.t
  | .call o => hv o.hd && target o.t
  | .jmpi o | .calli o => hv o.hd && src .vector true o.a && imm o.imm
  | .ret h | .yld h | .exit h => hv h
  | .waitj o => hv o.hd && dst .vector false o.d && decide (o.n ≤ 21523360)
  | .barA o | .barS o | .barD o => hv o.hd && Tern.canon o.q 4 && Tern.canon o.n 12
  | .barW o => hv o.hd && Tern.canon o.q 4
  | .sna o | .snd o => hd o.hd && decide (-9 ≤ o.k ∧ o.k ≤ 71)
  | .snr o => hd o.hd && gr o.a && decide (-9 ≤ o.k ∧ o.k ≤ 71) && decide (-1 ≤ o.op ∧ o.op ≤ 3 ∧ o.op ≠ 2)
  | .snb o => hd o.hd && gr o.a && decide (-9 ≤ o.k ∧ o.k ≤ 71)
  | .snw o | .snp o => hd o.hd && gr o.d && decide (-9 ≤ o.k ∧ o.k ≤ 71)
  | .tbinit o | .tbarr o | .tbexp o | .tbwait o => hd o.hd && gr o.a && gr o.b && imm o.e
  | .tbtest o => hd o.hd && gr o.d && gr o.a && gr o.b && imm o.e
  | .sleept o => hv o.hd && src .vector false o.a && imm o.e
  | .touch o => hv o.hd && gp o.base && src .vector false o.off && imm o.e
  | .win o => hg o.hd && gr o.a && decide (o.k ≤ 26)
  | .winrel o => hg o.hd && decide (o.k ≤ 26)
  | .task o => hg o.hd && gr o.d && gr o.a && tr o.hint && imm o.imm
  | .tqry o => hg o.hd && gr o.d && gr o.a
  | .send o => hg o.hd && gr o.a && gr o.b && decide (1 ≤ o.port ∧ o.port ≤ 4)
  | .recv o => hg o.hd && gr o.a && decide (1 ≤ o.port ∧ o.port ≤ 4)
  | .xfst o => hg o.hd && gr o.d && gr o.a && imm o.imm
  | .xtab o => hg o.hd && gr o.d && gp o.a && decide (o.slot ≤ 35)
  | .lnch o => hg o.hd && gr o.d && gp o.a && imm o.imm
  | .role o => hv o.hd && gp o.a && decide (1 ≤ o.b ∧ o.b ≤ 9) && decide (-4 ≤ o.c ∧ o.c ≤ 4)
  | .preh o => hv o.hd && gp o.a && imm o.imm
  | .trap o | .brk o => hd o.hd && imm o.imm
  | .wset o => hg o.hd && gr o.d && decide (o.a ≤ 24) && gr o.b && gr o.c && decide (o.unit ≤ 26)
  | .wclr o => hg o.hd && gr o.d && gr o.b && decide (o.unit ≤ 26)
  | .wrd o => hg o.hd && decide (o.d ≤ 21) && gr o.b && decide (o.unit ≤ 26)
  | .hlst o => hg o.hd && decide (o.d ≤ 23) && gr o.b
  | .hrdv o => hg o.hd && decide (o.d ≤ 25) && gr o.b && item o.item
  | .hwrv o => hg o.hd && gr o.d && gr o.a && gr o.b && item o.item
  | .hrdp o => hg o.hd && decide (o.d ≤ 24) && gr o.b && hitem o.item
  | .hwrp o => hg o.hd && gr o.d && decide (o.a ≤ 25) && gr o.b && hitem o.item
  | .hstep o => hg o.hd && decide (o.d ≤ 24) && gr o.b
  | .hres o => hg o.hd && gr o.d && gr o.b && decide (-1 ≤ o.scope ∧ o.scope ≤ 2)
  | .pairedWord a b => half a && half b && pairRules a b
  | _ => true

end Sys2Proof
end

