-- ==== Sys2Proof/Machine/Operands.lean ====
section
/-! DEFINITION. Machine/Operands.lean: guards, operand forms and the checks of R110 that depend on the warp:
allotment (R100), chain rule (R108), handler mode (R279), sequencers (R259), trap registers (R278). -/

namespace Sys2Proof.Machine

open Sys2Proof Tern

/-! ### Guards (R99) -/

/-- The sense set contains a trit (R99). -/
def senseHas (x : Sense) (t : Int) : Bool :=
  match x with
  | .always => true
  | .pos => t == 1
  | .neg => t == -1
  | .posZero => t == 1 || t == 0
  | .zeroNeg => t == 0 || t == -1
  | .zero => t == 0
  | .posNeg => t == 1 || t == -1

/-- The active lanes of an issue set (R73, R99). In the group-wide form the whole issue set, or none. -/
def activeLanes (w : Warp) (h : Hd) (ls : List Nat) : List Nat :=
  match h.form with
  | .vector => ls.filter fun l => senseHas h.sense (w.preg l h.pred)
  | .group => if senseHas h.sense (w.qreg h.pred) then ls else []

/-! ### Operand values (R83, R101, R107) -/

/-- The value of a source in a lane; dbl reads a double. -/
def Warp.src (w : Warp) (l : Nat) (dbl : Bool) : Src → Int
  | .v n => if dbl then double (w.vreg l n) (w.vreg l (n + 1)) else w.vreg l n
  | .g n => if dbl then w.gpair n else w.greg n
  | .x k =>
    let x := w.lane l
    let y := if k = 1 then x.x1 else if k = 2 then x.x2 else x.x3
    if y.dbl && !dbl then lowWord y.val else y.val

/-- A source or an immediate. -/
def Warp.srcImm (w : Warp) (l : Nat) (dbl : Bool) : SrcImm → Int
  | .src a => w.src l dbl a
  | .imm i => i

/-- A predicate operand (R402). -/
def Warp.psrc (w : Warp) (l : Nat) : PSrc → Int
  | .p n => w.preg l n
  | .q n => w.qreg n

/-- The address of a lane under an address operand: base + offset·3^k + e, exact (R341). -/
def Warp.addrOf (w : Warp) (l : Nat) (a : Addr) : Int := w.gpair a.base + w.src l false a.off * pow3 a.scale + a.e

end Sys2Proof.Machine

namespace Sys2Proof

/-! ### What a word reads and writes -/

/-- The head of a full word. -/
def Instr.hd? : Instr → Option Hd
  | .abs o | .neg o | .sgn o | .tlz o => some o.hd
  | .add o | .sub o | .mul o | .mulh o | .div o | .divz o | .mod o | .min o | .max o | .tsh o | .trot o => some o.hd
  | .mad o | .tsel o => some o.hd
  | .tcnt o => some o.hd | .tmap o => some o.hd | .tbin o => some o.hd
  | .fadd o | .fsub o | .fmul o | .fmin o | .fmax o | .fdiv o => some o.hd
  | .fma o => some o.hd
  | .fneg o | .fabs o | .fsqrt o | .frcp o | .frsq o | .fexp o | .flog o | .fexp3 o | .flog3 o | .ftanh o | .fcls o => some o.hd
  | .fscl o => some o.hd | .frnd o => some o.hd | .fcmp o => some o.hd | .cmp o => some o.hd | .sel o => some o.hd
  | .pset o => some o.hd | .ptbl o => some o.hd | .pany o | .pall o => some o.hd | .pcnt o => some o.hd
  | .shfl o => some o.hd | .bcst o => some o.hd | .vred o | .vscan o => some o.hd
  | .ld o => some o.hd | .st o => some o.hd | .ldg o => some o.hd | .stg o => some o.hd | .lds o => some o.hd
  | .sts o => some o.hd | .atom o => some o.hd | .red o => some o.hd | .ldmc o => some o.hd | .pref o => some o.hd
  | .fence o => some o.hd | .ldtag o => some o.hd | .sttag o => some o.hd | .cflush o | .cinv o => some o.hd
  | .icinv o | .touch o => some o.hd | .isync h | .ret h | .yld h | .exit h | .nop h | .rft h => some h
  | .mov o => some o.hd | .movi o | .movh o => some o.hd | .movg o => some o.hd | .movs o => some o.hd
  | .movc o => some o.hd | .cvt o => some o.hd | .bcvt o => some o.hd | .pack o | .unpack o => some o.hd
  | .bra o | .call o => some o.hd | .jmpi o | .calli o => some o.hd | .waitj o => some o.hd
  | .barA o | .barS o | .barD o => some o.hd | .barW o => some o.hd | .sna o | .snd o => some o.hd
  | .snr o => some o.hd | .snb o => some o.hd | .snw o | .snp o => some o.hd
  | .tbinit o | .tbarr o | .tbexp o | .tbwait o => some o.hd | .tbtest o => some o.hd | .sleept o => some o.hd
  | .win o => some o.hd | .winrel o => some o.hd | .task o => some o.hd | .tqry o => some o.hd | .send o => some o.hd
  | .recv o => some o.hd | .xfst o => some o.hd | .xtab o => some o.hd | .lnch o => some o.hd | .role o => some o.hd
  | .preh o => some o.hd | .trap o | .brk o => some o.hd | .wset o => some o.hd | .wclr o | .wrd o => some o.hd
  | .hlst o | .hstep o => some o.hd | .hrdv o => some o.hd | .hwrv o => some o.hd | .hrdp o => some o.hd
  | .hwrp o => some o.hd | .hres o => some o.hd
  | _ => none

def addrSrcs (a : Addr) : List (Src × Bool) := [(.g a.base, true), (a.off, false)]
def immSrcs (dbl : Bool) : SrcImm → List (Src × Bool) | .src a => [(a, dbl)] | .imm _ => []

/-- The sources of a word that may be V registers or latches, with whether each is a double. -/
def Instr.srcs : Instr → List (Src × Bool)
  | .abs o | .neg o | .sgn o | .tlz o => [(o.a, o.ty == .d)]
  | .add o | .sub o | .mul o | .mulh o | .div o | .divz o | .mod o | .min o | .max o | .tsh o | .trot o =>
    (o.a, o.ty == .d) :: immSrcs (o.ty == .d) o.b
  | .mad o | .tsel o => [(o.a, o.ty == .d), (o.b, o.ty == .d), (o.c, o.ty == .d)]
  | .tcnt o => [(o.a, o.ty == .d)] | .tmap o => [(o.a, o.ty == .d)] | .tbin o => [(o.a, o.ty == .d), (o.b, o.ty == .d)]
  | .fadd o | .fsub o | .fmul o | .fmin o | .fmax o | .fdiv o => [(o.a, false), (o.b, false)]
  | .fma o => [(o.a, false), (o.b, false), (o.c, false)]
  | .fneg o | .fabs o | .fsqrt o | .frcp o | .frsq o | .fexp o | .flog o | .fexp3 o | .flog3 o | .ftanh o | .fcls o => [(o.a, false)]
  | .fscl o => (o.a, false) :: immSrcs false o.k
  | .frnd o => [(o.a, false)]
  | .fcmp o => [(o.a, false), (o.b, false)]
  | .cmp o => (o.a, o.ty == .d) :: immSrcs (o.ty == .d) o.b
  | .sel o => [(o.a, o.dbl), (o.b, o.dbl), (o.c, o.dbl)]
  | .pset o => [(o.a, false)]
  | .shfl o => [(o.a, o.dbl), (o.b, false)] | .bcst o => [(o.a, o.dbl)] | .vred o | .vscan o => [(o.a, o.ty == .d)]
  | .ld o => addrSrcs o.ad | .st o => (o.c, o.w == .double) :: addrSrcs o.ad
  | .lds o => addrSrcs o.ad | .sts o => (o.c, o.w == .double) :: addrSrcs o.ad
  | .atom o => (o.c, o.dbl) :: addrSrcs o.ad | .red o => (o.c, o.w == .double) :: addrSrcs o.ad
  | .pref o => addrSrcs o.ad | .ldtag o => addrSrcs o.ad | .sttag o => (o.c, false) :: addrSrcs o.ad
  | .cflush o | .cinv o => addrSrcs o.ad | .icinv o | .touch o => [(o.off, false)]
  | .mov o => [(o.a, o.dbl)] | .movg o => [(o.a, false)]
  | .movs o => (match o.op with | .write a _ => [(a, false)] | .read _ _ => [])
  | .cvt o => [(o.a, false)] | .bcvt o => [(o.a, (o.fmt == .b32 || o.fmt == .i32) && o.toTernary)]
  | .pack o | .unpack o => [(o.a, false)]
  | .jmpi o | .calli o => [(o.a, true)]
  | .sleept o => [(o.a, false)]
  | .pairedWord a b => (a.s.toList ++ b.s.toList).map fun x => (x, false)
  | _ => []

/-- The register destination of a word, with whether it is a double; a half that reads its destination counts
through its own entry. -/
def Instr.dsts : Instr → List (Dst × Bool)
  | .abs o | .neg o | .sgn o | .tlz o => [(o.d, o.ty == .d)]
  | .add o | .sub o | .mul o | .mulh o | .div o | .divz o | .mod o | .min o | .max o | .tsh o | .trot o => [(o.d, o.ty == .d)]
  | .mad o | .tsel o => [(o.d, o.ty == .d)]
  | .tcnt o => [(o.d, o.ty == .d)] | .tmap o => [(o.d, o.ty == .d)] | .tbin o => [(o.d, o.ty == .d)]
  | .fadd o | .fsub o | .fmul o | .fmin o | .fmax o | .fdiv o => [(o.d, false)]
  | .fma o => [(o.d, false)]
  | .fneg o | .fabs o | .fsqrt o | .frcp o | .frsq o | .fexp o | .flog o | .fexp3 o | .flog3 o | .ftanh o | .fcls o => [(o.d, false)]
  | .fscl o => [(o.d, false)] | .frnd o => [(o.d, false)]
  | .sel o => [(o.d, o.dbl)] | .pcnt o => [(o.d, false)] | .shfl o => [(o.d, o.dbl)] | .bcst o => [(o.d, o.dbl)]
  | .vred o | .vscan o => [(o.d, o.ty == .d)]
  | .ld o => [(o.d, o.w == .double)] | .lds o => [(o.d, o.w == .double)] | .atom o => [(o.d, o.dbl)] | .ldtag o => [(o.d, false)]
  | .mov o => [(o.d, o.dbl)] | .movi o => [(o.d, false)] | .movh o => [(o.d, true)]
  | .movs o => (match o.op with | .read d _ => [(d, false)] | .write _ _ => [])
  | .movc o => [(o.d, false)] | .cvt o => [(o.d, false)]
  | .bcvt o => [(o.d, (o.fmt == .b32 || o.fmt == .i32) && !o.toTernary)]
  | .pack o | .unpack o => [(o.d, false)] | .waitj o => [(o.d, false)]
  | .pairedWord a b => [(a.d, false), (b.d, false)]
  | _ => []

/-- The latch a source names. -/
def latchNo : Src → List Nat | .x k => [k] | _ => []

/-- The latches a word reads, as they stand before it; the first half counts as the second half's X1 (R107, R108). -/
def Instr.latches : Instr → List Nat
  | .pairedWord a b => a.s.toList.flatMap latchNo ++ (b.s.toList.flatMap latchNo).map fun k => k - 1
  | i => i.srcs.flatMap fun p => latchNo p.1

/-- The V registers a word names. -/
def Instr.vregs (i : Instr) : List Nat :=
  (i.srcs.flatMap fun p => match p.1 with | .v n => if p.2 then [n, n + 1] else [n] | _ => []) ++
  (i.dsts.flatMap fun p => match p.1 with | .v n => if p.2 then [n, n + 1] else [n] | _ => [])

/-- Memory, synchronisation, engine, system and control classes (R108, R112). -/
def Instr.endingClass : Instr → Bool
  | .ld _ | .st _ | .ldg _ | .stg _ | .lds _ | .sts _ | .atom _ | .red _ | .ldmc _ | .pref _ | .fence _ | .ldtag _ | .sttag _
  | .cflush _ | .cinv _ | .icinv _ | .isync _ | .bra _ | .jmpi _ | .call _ | .calli _ | .ret _ | .yld _ | .waitj _ | .exit _
  | .nop _ | .barA _ | .barS _ | .barD _ | .barW _ | .sna _ | .snd _ | .snr _ | .snb _ | .snw _ | .snp _ | .tbinit _
  | .tbarr _ | .tbexp _ | .tbwait _ | .tbtest _ | .sleept _ | .touch _ | .win _ | .winrel _ | .task _ | .tqry _ | .send _
  | .recv _ | .xfst _ | .xtab _ | .lnch _ | .role _ | .preh _ | .trap _ | .rft _ | .brk _ | .wset _ | .wclr _ | .wrd _
  | .hlst _ | .hrdv _ | .hwrv _ | .hrdp _ | .hwrp _ | .hstep _ | .hres _ => true
  | _ => false

/-- The trap-enable trit of a word (R61). -/
def Instr.te : Instr → Int
  | .abs o | .neg o | .sgn o | .tlz o => o.te
  | .add o | .sub o | .mul o | .mulh o | .div o | .divz o | .mod o | .min o | .max o | .tsh o | .trot o => o.te
  | .mad o | .tsel o => o.te | .tcnt o => o.te | .tmap o => o.te | .tbin o => o.te
  | .fadd o | .fsub o | .fmul o | .fmin o | .fmax o | .fdiv o => o.te | .fma o => o.te
  | .fneg o | .fabs o | .fsqrt o | .frcp o | .frsq o | .fexp o | .flog o | .fexp3 o | .flog3 o | .ftanh o | .fcls o => o.te
  | .fscl o => o.te | .frnd o => o.te | .fcmp o => o.te | .cmp o => o.te | .sel o => o.te | .pset o => o.te | .ptbl o => o.te
  | .pany o | .pall o => o.te | .pcnt o => o.te | .shfl o => o.te | .bcst o => o.te | .vred o | .vscan o => o.te
  | .cvt o => o.te | .bcvt o => o.te
  | _ => 0

/-- A paired word is in the vector form. -/
def Instr.isVector (i : Instr) : Bool := match i.hd? with | some h => h.form == .vector | none => true

/-- A word that ends its chain (R108). -/
def Instr.chainEnds (i : Instr) : Bool := !i.isVector || i.endingClass || i.te != 0

/-- Words refused in handler mode (R279, R309). -/
def Instr.noHandler : Instr → Bool
  | .call _ | .calli _ | .ret _ | .yld _ | .waitj _ | .exit _ | .role _ | .preh _ | .trap _ | .brk _ => true
  | .bra o => o.hd.form == .vector
  | .jmpi _ => true
  | _ => false

/-- Words that reach scratchpad, named barriers or macros, which a sequencer may not (R259). -/
def Instr.needsGang : Instr → Bool
  | .ldmc _ | .win _ | .winrel _ | .task _ | .tqry _ | .send _ | .recv _ | .xfst _ => true
  | _ => false

/-- A trap register named outside handler mode (R278). -/
def Instr.namesTrapReg : Instr → Bool
  | .movs o => (match o.op with | .read _ r => Wf.trapReg r | .write _ r => Wf.trapReg r)
  | _ => false

end Sys2Proof

namespace Sys2Proof.Machine

open Sys2Proof Tern

/-- The chain rule at one lane (R108): the latches read were made since the chain's first word. -/
def chainOk (x : Lane) (ks : List Nat) : Bool :=
  ks.isEmpty || (x.pos != 0 && x.pos != 4 && ks.all fun k => decide (k ≤ x.since))

/-- A TB word names its barrier by a register that its warp may name: in a sequencer an even one up to G24 (R430). -/
def tbRegOk (i : Instr) (w : Warp) : Bool :=
  let ok (a : Nat) : Bool := !w.isSeq || (a % 2 == 0 && decide (a ≤ 24))
  match i with
  | .tbinit o | .tbarr o | .tbexp o | .tbwait o => ok o.a
  | .tbtest o => ok o.a
  | _ => true

/-- The checks of R110 that depend on the warp. -/
def legal (i : Instr) (w : Warp) (ls : List Nat) : Bool :=
  (i.vregs.all fun n => decide (n < w.allot)) &&
  (ls.all fun l => chainOk (w.lane l) i.latches) &&
  (!w.handler || !i.noHandler) &&
  (!w.isSeq || (!i.isVector && !i.needsGang)) &&
  (w.handler || !i.namesTrapReg) &&
  tbRegOk i w

end Sys2Proof.Machine
end

