-- ==== Sys2Proof/Machine/Flags.lean ====
section
/-! DEFINITION. Machine/Flags.lean: the seven lane flags and ARITH (R38, R61). -/

namespace Sys2Proof.Machine

open Sys2Proof Tern

/-- The flags that an operation raises (R61). -/
structure Fl where
  (ov ix np ip sb dz tg : Bool)
  deriving DecidableEq, Repr

def Fl.none : Fl := ⟨false, false, false, false, false, false, false⟩
def Fl.ovf : Fl := { Fl.none with ov := true }
def Fl.inx : Fl := { Fl.none with ix := true }
def Fl.nan : Fl := { Fl.none with np := true }
def Fl.inf : Fl := { Fl.none with ip := true }
def Fl.sub : Fl := { Fl.none with sb := true }
def Fl.dvz : Fl := { Fl.none with dz := true }
def Fl.tgs : Fl := { Fl.none with tg := true }

/-- Both sets. -/
def Fl.or (a b : Fl) : Fl :=
  ⟨a.ov || b.ov, a.ix || b.ix, a.np || b.np, a.ip || b.ip, a.sb || b.sb, a.dz || b.dz, a.tg || b.tg⟩
/-- The union of a list. -/
def Fl.all (l : List Fl) : Fl := l.foldl Fl.or Fl.none

def bitv (b : Bool) : Int := if b then 1 else 0

/-- The word of a set, laid out as S.FLAGS (R61). -/
def Fl.num (f : Fl) : Int :=
  bitv f.ov + 3 * bitv f.ix + 9 * bitv f.np + 27 * bitv f.ip + 81 * bitv f.sb + 243 * bitv f.dz + 729 * bitv f.tg
/-- The set that a word of S.FLAGS holds: a trit of −1 is stored as 0, reserved trits are ignored (R61). -/
def Fl.ofNum (v : Int) : Fl :=
  ⟨trit v 0 == 1, trit v 1 == 1, trit v 2 == 1, trit v 3 == 1, trit v 4 == 1, trit v 5 == 1, trit v 6 == 1⟩
/-- A word as S.FLAGS stores it. -/
def flagsStored (v : Int) : Int := (Fl.ofNum v).num
/-- S.FLAGS with flags added: flags are sticky. -/
def flagsOr (v : Int) (f : Fl) : Int := ((Fl.ofNum v).or f).num

/-- No flag. -/
def Fl.isNone (f : Fl) : Bool := f == Fl.none

/-- The trap-enable trit traps on these flags (R61). -/
def arithTraps (te : Int) (f : Fl) : Bool :=
  if te = 1 then f.ov || f.np || f.ip || f.dz
  else if te = -1 then f.ov || f.np || f.ip || f.dz || f.ix || f.sb
  else false

/-- Fit an exact value, as a result with its flag (R38). -/
def fitF (v : Int) (n : Nat) (s : Int) : Int × Fl :=
  let r := fit v n s
  (r.1, if r.2 then Fl.ovf else Fl.none)

/-- Add flags to the listed lanes of a warp. -/
def Warp.raise (w : Warp) (fl : List (Nat × Fl)) : Warp :=
  w.allLanes fun i x => match fl.find? fun p => p.1 == i with
    | some p => { x with flags := flagsOr x.flags p.2 }
    | none => x

end Sys2Proof.Machine
end

