-- ==== Sys2Proof/Machine/Float.lean ====
section
/-! DEFINITION. Machine/Float.lean: TF27 and TF9 (R49 to R60): decoding, rounding once, encoding. -/

namespace Sys2Proof.Machine

open Sys2Proof Tern

/-- A ternary floating format: significand trits, exponent bounds, the special exponent, infinities (R49, R52). -/
structure Fmt where
  (p : Nat) (emin emax spec : Int) (hasInf : Bool)
  deriving DecidableEq, Repr

def tf27 : Fmt := ⟨22, -120, 120, 121, true⟩
def tf9 : Fmt := ⟨6, -12, 13, 13, false⟩

/-- What an encoding holds: a NaN with its payload (the trits below t0), an infinity with its sign, or m·3^e. -/
inductive FV
  | nan (pay : Int)
  | inf (s : Int)
  | fin (m e : Int)
  deriving DecidableEq, Repr

/-- Position of t0 in the significand field is p - 1; the ulp of exponent e stands at e - p + 1. -/
def Fmt.bot (f : Fmt) : Int := f.emin - f.p + 1

/-- Read an encoding (R50, R52). -/
def Fmt.dec (f : Fmt) (x : Int) : FV :=
  let sg := narrow x f.p
  let e := narrow (shr x f.p) 5
  let t0 := trit sg (f.p - 1)
  if e = f.spec ∧ (f.hasInf ∨ t0 = 0) then
    if t0 = 0 then .nan (narrow sg (f.p - 1)) else .inf t0
  else if e = f.emin - 1 then .fin sg f.bot
  else .fin sg (e - f.p + 1)

/-- The exponent field's width keeps TF9's three trits within the tryte. -/
def Fmt.enc (f : Fmt) (e sg : Int) : Int := sg + pow3 f.p * e

/-- The one zero (R50). -/
def Fmt.zero (f : Fmt) : Int := f.enc (f.emin - 1) 0
/-- A NaN with a payload. -/
def Fmt.nanE (f : Fmt) (pay : Int) : Int := f.enc f.spec pay
/-- The default NaN: t1 = +1 (R51, R52). -/
def Fmt.dnan (f : Fmt) : Int := f.nanE (pow3 (f.p - 2))
/-- An infinity, or in TF9 the saturated value (R55). -/
def Fmt.infE (f : Fmt) (s : Int) : Int := if f.hasInf then f.enc f.spec (s * pow3 (f.p - 1)) else f.enc f.emax (s * maxv f.p)

/-- A payload is a signalling NaN's: t1 = -1 (R50). -/
def Fmt.signalling (f : Fmt) (pay : Int) : Bool := trit pay (f.p - 2) == -1
/-- The payload with t1 set to +1. -/
def Fmt.quiet (f : Fmt) (pay : Int) : Int := narrow pay (f.p - 2) + pow3 (f.p - 2)

def FV.isNan : FV → Bool | .nan _ => true | _ => false
def FV.isZero : FV → Bool | .fin m _ => m == 0 | _ => false
def FV.sign : FV → Int | .nan _ => 0 | .inf s => s | .fin m _ => sgn m

/-- A nonzero value below the smallest normal magnitude (R59). -/
def Fmt.isSub (f : Fmt) : FV → Bool
  | .fin m e => m != 0 && decide ((m.natAbs : Int) * pow3 (e - f.bot).toNat < (pow3 (f.p - 1) + 1) / 2)
  | _ => false

/-- An operand under FZI (R55). -/
def Fmt.opnd (f : Fmt) (fzi : Int) (x : Int) : FV × Fl :=
  let v := f.dec x
  if fzi = 1 && f.isSub v then (.fin 0 0, Fl.sub) else (v, Fl.none)

/-! ### Rounding (R53 to R55) -/

/-- Least k from k on, within fuel, with 2n ≤ d·3^k. -/
def leadFrom (n d : Nat) : Nat → Nat → Nat
  | 0, k => k
  | fuel + 1, k => if 2 * n ≤ d * Nat.pow 3 k then k else leadFrom n d fuel (k + 1)

/-- Least k with 2n ≤ d·3^k, for n ≥ d: the number of trits of n/d before the point. -/
def lead (n d : Nat) : Nat :=
  leadFrom n d (Nat.log2 n + 2) (((Nat.log2 n - Nat.log2 d) * 5 / 8) - 1)

/-- A rounded magnitude q·3^g: inexact, overflow, below the normal range. -/
structure Rounded where
  (q : Nat) (g : Int) (inexact big sub : Bool)
  deriving DecidableEq, Repr

/-- Round n/d·3^e, n and d positive (R53): h is least with |v| ≤ 3^(h+1)/2; halves go toward zero. -/
def Fmt.round (f : Fmt) (n d : Nat) (e : Int) : Rounded :=
  let j := if n < d then Nat.log2 d - Nat.log2 n + 1 else 0
  let n := n * Nat.pow 3 j
  let e := e - j
  let h : Int := e + lead n d - 1
  let g : Int := max h f.emin - f.p + 1
  let num := if e < g then n else n * Nat.pow 3 (e - g).toNat
  let den := if e < g then d * Nat.pow 3 (g - e).toNat else d
  let q0 := num / den
  let r := num - q0 * den
  let q := if 2 * r > den then q0 + 1 else q0
  ⟨q, g, r != 0, decide (h > f.emax), decide (h < f.emin)⟩

/-- A result before it is rounded (R56). -/
inductive FRes
  | nan (pay : Int) (np : Bool)        -- a NaN operand's payload, already quiet
  | invalid                            -- the default NaN with NP
  | inf (s : Int) (dz : Bool)          -- an infinity, from infinite operands or a division by zero
  | num (s : Int) (n d : Nat) (e : Int)  -- s·(n/d)·3^e, n and d positive
  | zero
  deriving DecidableEq, Repr

/-- Encode a result in a format under FZO, with its flags (R53, R55, R56). -/
def Fmt.finish (f : Fmt) (fzo : Int) : FRes → Int × Fl
  | .nan pay np => (f.nanE pay, if np then Fl.nan else Fl.none)
  | .invalid => (f.dnan, Fl.nan)
  | .inf s dz => (f.infE s, (if dz then Fl.dvz else Fl.none).or (if f.hasInf then Fl.none else Fl.ovf))
  | .zero => (f.zero, Fl.none)
  | .num s n d e =>
    let r := f.round n d e
    if r.big then (f.infE s, (if f.hasInf then Fl.inf else Fl.ovf).or Fl.inx)
    else if r.sub then
      if fzo = 1 then (f.zero, Fl.sub.or Fl.inx)
      else (f.enc (f.emin - 1) (s * r.q), if r.inexact then Fl.inx else Fl.none)
    else (f.enc (r.g + f.p - 1) (s * r.q), if r.inexact then Fl.inx else Fl.none)

/-- m·3^e as a result. -/
def FRes.ofFin (m e : Int) : FRes := if m = 0 then .zero else .num (sgn m) m.natAbs 1 e

/-- A NaN payload is a signalling NaN's. -/
def Fmt.isSignalling (f : Fmt) : FV → Bool
  | .nan p => f.signalling p
  | _ => false

/-- The first NaN of the operands, quieted when signalling; NP when any operand is a signalling NaN (R56, R371). -/
def Fmt.firstNan (f : Fmt) (l : List FV) : Option FRes :=
  match l.find? FV.isNan with
  | some (.nan p) => some (.nan (if f.signalling p then f.quiet p else p) (l.any f.isSignalling))
  | _ => none

/-- The exact sum of two finite values. -/
def finAdd (m1 e1 m2 e2 : Int) : Int × Int :=
  let e := min e1 e2
  (m1 * pow3 (e1 - e).toNat + m2 * pow3 (e2 - e).toNat, e)

/-- a + b of operands that are no NaNs (R56). -/
def addV : FV → FV → FRes
  | .inf s, .inf t => if s = t then .inf s false else .invalid
  | .inf s, _ => .inf s false
  | _, .inf t => .inf t false
  | .fin m1 e1, .fin m2 e2 => let r := finAdd m1 e1 m2 e2; FRes.ofFin r.1 r.2
  | _, _ => .invalid

def negV : FV → FV
  | .nan p => .nan p
  | .inf s => .inf (-s)
  | .fin m e => .fin (-m) e

/-- a × b of operands that are no NaNs; none for 0 × ∞ (R56). -/
def mulV (a b : FV) : Option FV :=
  match a, b with
  | .fin m1 e1, .fin m2 e2 => some (.fin (m1 * m2) (e1 + e2))
  | x, y => if x.isZero || y.isZero then none else some (.inf (x.sign * y.sign))

/-- A value as a result. -/
def resV : FV → FRes
  | .nan _ => .invalid
  | .inf s => .inf s false
  | .fin m e => FRes.ofFin m e

/-- a ÷ b of operands that are no NaNs (R56). -/
def divV : FV → FV → FRes
  | .inf _, .inf _ => .invalid
  | .inf s, b => .inf (if b.sign = 0 then s else s * b.sign) false
  | _, .inf _ => .zero
  | .fin m1 e1, .fin m2 e2 =>
    if m2 = 0 then (if m1 = 0 then .invalid else .inf (sgn m1) true)
    else if m1 = 0 then .zero
    else .num (sgn m1 * sgn m2) m1.natAbs m2.natAbs (e1 - e2)
  | _, _ => .invalid

/-- Order of two values that are no NaNs: sgn(a − b) (R58). -/
def cmpV : FV → FV → Int
  | .inf s, .inf t => sgn (s - t)
  | .inf s, _ => s
  | _, .inf t => -t
  | .fin m1 e1, .fin m2 e2 => sgn (finAdd m1 e1 (-m2) e2).1
  | _, _ => 0

/-! ### Square roots -/

/-- Newton steps toward the floor of the square root of n. -/
def isqrtFrom (n : Nat) : Nat → Nat → Nat
  | 0, x => x
  | fuel + 1, x => let y := (x + n / x) / 2; if y < x then isqrtFrom n fuel y else x

/-- The floor of the square root. -/
def isqrt (n : Nat) : Nat := if n = 0 then 0 else isqrtFrom n (Nat.log2 n + 4) (Nat.pow 2 (Nat.log2 n / 2 + 1))

/-- √(a/b) for positive a, b, as r + an offset in quarters that stands on the same side of every half as the root
does: exact r or r + 1/2 when it is one of them. -/
def rootQ (a b : Nat) : Nat :=
  let r := isqrt (a / b)
  if r * r * b = a then 4 * r
  else
    let h := (2 * r + 1) * (2 * r + 1) * b
    if h = 4 * a then 4 * r + 2 else if 4 * a < h then 4 * r + 1 else 4 * r + 3

/-- √x (R56, R60). -/
def sqrtV : FV → FRes
  | .inf s => if s = 1 then .inf 1 false else .invalid
  | .fin m e =>
    if m = 0 then .zero else if m < 0 then .invalid
    else
      let odd := e % 2
      let a := m.natAbs * (if odd = 0 then 1 else 3) * Nat.pow 3 120
      .num 1 (rootQ a 1) 4 ((e - odd) / 2 - 60)
  | .nan _ => .invalid

/-- 1/√x (R56, R60). -/
def rsqV : FV → FRes
  | .inf s => if s = 1 then .zero else .invalid
  | .fin m e =>
    if m = 0 then .inf 1 true else if m < 0 then .invalid
    else
      let odd := e % 2
      .num 1 (rootQ (Nat.pow 3 200) (m.natAbs * (if odd = 0 then 1 else 3))) 4 (-(e - odd) / 2 - 100)
  | .nan _ => .invalid

/-! ### Operations on encodings -/

/-- An operation over operands: FZI on each, NaN rule, the operation, one rounding (R55, R56). -/
def Fmt.op (f : Fmt) (fzi fzo : Int) (xs : List Int) (g : List FV → FRes) : Int × Fl :=
  let os := xs.map (f.opnd fzi)
  let vs := os.map fun o => o.1
  let fl := Fl.all (os.map fun o => o.2)
  let r := f.finish fzo (match f.firstNan vs with | some n => n | none => g vs)
  (r.1, fl.or r.2)

def two (g : FV → FV → FRes) : List FV → FRes | [a, b] => g a b | _ => .invalid
def one (g : FV → FRes) : List FV → FRes | [a] => g a | _ => .invalid

/-- a × b + c, rounded once (R56). -/
def fmaV : List FV → FRes
  | [a, b, c] => match mulV a b with | none => .invalid | some p => addV p c
  | _ => .invalid

/-- The class of an encoding (R59). -/
def Fmt.cls (f : Fmt) (x : Int) : Int :=
  match f.dec x with
  | .nan p => if f.signalling p then -4 else 4
  | .inf s => 3 * s
  | .fin m e => if m = 0 then 0 else if f.isSub (.fin m e) then sgn m else 2 * sgn m

/-- A finite or infinite value in its canonical encoding, exact. -/
def Fmt.canonical (f : Fmt) (v : FV) : Int := (f.finish 0 (resV v)).1

/-- FNEG (R57): the significand field is negated, the exponent field kept; NaNs unchanged. -/
def Fmt.negE (f : Fmt) (x : Int) : Int :=
  match f.dec x with
  | .nan _ => x
  | _ => x - 2 * narrow x f.p
/-- FABS (R57). -/
def Fmt.absE (f : Fmt) (x : Int) : Int :=
  match f.dec x with
  | .nan _ => x
  | v => if v.sign < 0 then x - 2 * narrow x f.p else x

/-- FMIN (s = -1) and FMAX (s = +1) (R56, R374): one quiet NaN gives the other operand; never rounded, not flushed
by FZO. -/
def Fmt.minmax (f : Fmt) (s : Int) (fzi : Int) (x y : Int) : Int × Fl :=
  let a := f.opnd fzi x
  let b := f.opnd fzi y
  let r : FRes :=
    if f.isSignalling a.1 || f.isSignalling b.1 then (f.firstNan [a.1, b.1]).getD .invalid
    else match a.1, b.1 with
      | .nan p, .nan _ => .nan p false
      | .nan _, v => resV v
      | v, .nan _ => resV v
      | u, v => if cmpV u v * s ≥ 0 then resV u else resV v
  let z := f.finish 0 r
  (z.1, (a.2.or b.2).or z.2)

/-- The exact sum of a list of values, NaNs excluded (R68, R187). -/
def sumV (l : List FV) : FRes :=
  let infs := l.filterMap fun v => match v with | .inf s => some s | _ => none
  match infs with
  | s :: r => if r.all (fun t => t == s) then .inf s false else .invalid
  | [] =>
    let t := l.foldl (fun (acc : Int × Int) v => match v with | .fin m e => finAdd acc.1 acc.2 m e | _ => acc) (0, 0)
    FRes.ofFin t.1 t.2

end Sys2Proof.Machine
end

