-- ==== Sys2Proof/Machine/WatchOps.lean ====
section
/-! DEFINITION. Machine/WatchOps.lean: watch units (R294 to R298): which lanes match, counting, the stopping
actions. -/

namespace Sys2Proof.Machine

open Sys2Proof Tern

/-- Fields of word 0 of a watch record (R295). -/
def Watch.cls (u : Watch) : Int := field (wordAt u.words 0) 26 24
def Watch.action (u : Watch) : Int := field (wordAt u.words 0) 23 21
def Watch.scope (u : Watch) : Int := field (wordAt u.words 0) 20 19
def Watch.threshold (u : Watch) : Int := field (wordAt u.words 0) 18 10
/-- Words 1 and 2 as a double. -/
def Watch.value (u : Watch) : Int := dblAt u.words 1

/-- A lane is in a unit's scope (R295). -/
def Watch.covers (s : State) (u : Watch) (w : Warp) (l : Nat) : Bool :=
  if u.scope = 1 then (match w.gid with | some g => (match s.gang? g with | some g => u.lid == some g.lid | none => false) | none => false)
  else if u.scope = 2 then u.gid.isSome && u.gid == w.gid
  else if u.scope = 3 then u.wid == w.wid
  else u.wid == w.wid && trit u.mask l == 1

/-- What the record of a word checks: the class of R295 that a record breaks is charged by word (R303). -/
def senseOfWatch (v : Int) : Option (Int → Bool) :=
  if v = 0 then some fun _ => true else if v = 1 then some fun t => t == 1 else if v = -1 then some fun t => t == -1
  else if v = 2 then some fun t => t == 1 || t == 0 else if v = -2 then some fun t => t == -1 || t == 0
  else if v = 3 then some fun t => t == 0 else if v = -3 then some fun t => t == 1 || t == -1 else none

/-- The kinds of results that value units tell apart (R296). -/
inductive ResKind | none | t | w | d | f27 | f9
  deriving DecidableEq, Repr

/-- A value unit matches a result of a kind (R296). -/
def Watch.matchesValue (u : Watch) (k : ResKind) (x : Int) : Bool :=
  let w0 := wordAt u.words 0
  let flt := trit w0 9 == 1
  let is9 := trit w0 6 == 1
  match senseOfWatch (field w0 8 7) with
  | none => false
  | some has =>
    match k with
    | .none => false
    | .t => !flt && ((split 9 3 x).any fun e => has (sgn (e - u.value)))
    | .w | .d => !flt && has (sgn (x - u.value))
    | .f27 => flt && !is9 && (match tf27.dec x, tf27.dec (wordAt u.words 1) with
        | .nan _, _ => false
        | _, .nan _ => false
        | a, b => has (cmpV a b))
    | .f9 => flt && is9 && ((split 9 3 x).any fun e => match tf9.dec e, tf9.dec (narrow (wordAt u.words 1) 9) with
        | .nan _, _ => false
        | _, .nan _ => false
        | a, b => has (cmpV a b))

/-- A flag unit matches flags raised (R296). -/
def Watch.matchesFlags (u : Watch) (f : Fl) : Bool :=
  (upto 7).any fun i => trit (wordAt u.words 1) i == 1 && trit f.num i == 1

/-- Kinds of access (R296). -/
inductive Access | load | store | atomic
  deriving DecidableEq, Repr

/-- An address unit matches an access of n trytes at a, in global space or scratchpad (R296). -/
def Watch.matchesAccess (u : Watch) (k : Access) (scratch : Bool) (a : Int) (n : Nat) : Bool :=
  let w0 := wordAt u.words 0
  let kind := match k with | .load => trit w0 9 | .store => trit w0 8 | .atomic => trit w0 7
  let sz := pow3 (field w0 5 2).toNat
  let lo := sz * (u.value / sz)
  kind == 1 && (trit w0 6 == 1) == scratch && decide (a < lo + sz ∧ lo < a + n)

/-- A trigger: unit, action and lane, with the matched address. -/
structure Trig where
  (unit : Nat) (action : Int) (lane : Nat) (addr : Int)
  deriving DecidableEq, Repr

/-- One unit takes its matching lanes in order (R297). -/
def Watch.take (u : Watch) : List (Nat × Int) → Watch × List Trig
  | [] => (u, [])
  | (l, a) :: r =>
    if u.action = 0 then Watch.take { u with count := min (u.count + 1) 265720 } r
    else if u.count + 1 = u.threshold then
      let rest := Watch.take { u with count := 0 } r
      (rest.1, ⟨u.unit, u.action, l, a⟩ :: rest.2)
    else Watch.take { u with count := u.count + 1 } r

/-- Test the units of a core against a word issued at t, after they were armed (R296, R310): m gives a unit's matching lanes with their addresses. The counts
advance; the triggers come back in order of unit. -/
def watchTest (s : State) (core : Nat) (t : Int) (m : Watch → List (Nat × Int)) : State × List Trig :=
  let us := (s.core core).watch.map fun u => u.take (if u.since < t then m u else [])
  if (s.core core).watch.isEmpty then (s, [])
  else (s.modCore core fun c => { c with watch := us.map fun p => p.1 }, us.flatMap fun p => p.2)

/-- A unit whose class is c, armed (R294). -/
def Watch.is (u : Watch) (c : Int) : Bool := u.cls == c

/-- The lanes of ls in a unit's scope. -/
def Watch.inScope (s : State) (u : Watch) (w : Warp) (ls : List Nat) : List Nat := ls.filter fun l => u.covers s w l

/-- The strongest halt among triggers: 5 launch, 4 gang, 3 warp, 2 lane, or 0 (R297). -/
def strongest (ts : List Trig) : Int := ts.foldl (fun m t => if t.action ≥ 2 ∧ t.action > m then t.action else m) 0
/-- The lanes that triggered a trap action, each with its lowest unit and address (R297). -/
def trapTrigs (ts : List Trig) : WatchTrap :=
  let tr := ts.filter fun t => t.action == 1
  (nodups (tr.map fun t => t.lane)).filterMap fun l =>
    (tr.find? fun t => t.lane == l).map fun t => (l, ((t.unit : Int), t.addr))
/-- The lowest unit that triggered. -/
def lowestUnit (ts : List Trig) : Int := match sortBy (fun a b => decide (a < b)) (ts.map fun t => t.unit) with | u :: _ => (u : Int) + 1 | [] => 0

/-- A status word: outcome, code, info narrowed to 18 trits (R301). -/
def dbgStatus (outcome code info : Int) : Int := outcome * pow3 24 + code * pow3 18 + narrow info 18

/-- A halt reason word (R304). -/
def Halt.word (h : Halt) : Int := dbgStatus h.reason h.unit h.imm

/-- The halt of the other warps of a gang or launch: reason +3; +5 from the debug window (R304, R311). -/
def Halt.spread (h : Halt) : Halt := if h.reason = 5 then h else ⟨3, 0, 0⟩

/-- Send a signal on channel 2: signals keep the order of their cycles, and of sending within one (R310). -/
def Launch.signal (x : Launch) (g : Signal) : Launch :=
  { x with signals := (x.signals.filter fun y => decide (y.at_ ≤ g.at_)) ++ g :: x.signals.filter fun y => !decide (y.at_ ≤ g.at_) }

/-- Hold a WATCH trap, each held trap apart from the others (R297). -/
def Warp.holdTrap (w : Warp) (t : WatchTrap) : Warp := if t.isEmpty then w else { w with watchTraps := w.watchTraps ++ [t] }

/-- Halt by a watch action or a halt word: the triggering warp at once, its gang and launch with their skid (R298). -/
def haltBy (s : State) (wid : Nat) (action : Int) (lanes : List Nat) (h : Halt) : State :=
  match s.warp? wid with
  | none => s
  | some w =>
    let own := if action = 2 then s.modWarp wid (fun w => w.haltLanes lanes h) else s.modWarp wid (fun w => w.haltAll h)
    let s1 := own.note (some w.ctx) .halt [w.address 0, h.word]
    if action < 4 then s1
    else
      let others (s : State) (p : Warp → Bool) (at_ : Warp → Int) : State :=
        { s with warps := s.warps.map fun x => if x.wid != wid && p x then { x with halts := x.halts ++ [⟨at_ x, h.spread⟩] } else x }
      let s2 := others s1 (fun x => x.gid.isSome && x.gid == w.gid)
        (fun x => if x.coreNo = w.coreNo then s.now + 3 else s.now + 28)
      if action < 5 then s2
      else match w.gid with
        | none => s2
        | some g => match s.gang? g with
          | none => s2
          | some g => s2.modLaunch g.lid fun x => x.signal ⟨s.now + 81, some h, w.gid⟩

/-- Apply the actions of a word's triggers (R297): the strongest halt with every lane-halt lane; trap actions trap
at once when nothing halts, else they are held. -/
def watchAct (s : State) (wid : Nat) (ts : List Trig) : State :=
  let tr := trapTrigs ts
  let st := strongest ts
  let laneH := (ts.filter fun t => t.action == 2).map fun t => t.lane
  if st = 0 then
    if tr.isEmpty then s else s.enterTrap wid ⟨cause.watch, tr⟩
  else
    let unit := lowestUnit (ts.filter fun t => t.action == st)
    let s1 := if laneH.isEmpty || st = 2 then s else haltBy s wid 2 laneH ⟨1, lowestUnit (ts.filter fun t => t.action == 2), 0⟩
    let s2 := haltBy s1 wid st laneH ⟨1, unit, 0⟩
    s2.modWarp wid fun w => w.holdTrap tr

end Sys2Proof.Machine
end

