-- ==== Sys2Proof/Machine/Issue.lean ====
section
/-! DEFINITION. Machine/Issue.lean: what every issued word has in common (R73, R76, R80, R107 to R110, R276, R296):
the checks, the active lanes, the word's own effect, latches, chains, flags, the PCs, ARITH and the value and
flag units. -/

namespace Sys2Proof.Machine

open Sys2Proof Tern

/-- The answer of a machine step. -/
abbrev Out := Host.Outcome State Fault Refusal

/-- What a word's own effect answers. done: the results that active lanes latch, the flags raised, the kind of
result; the issue set then moves on by one word. pair: the same for the two halves of a paired word. moved: the effect has set the PCs.
stay: the word is issued again later (R163). part: done, but the listed lanes stay on the word (R298). hold: the word waits, unissued, behind an ownership request (R427). trap: nothing was performed. -/
inductive Eff
  | done (s : State) (res : List (Nat × Latch)) (fl : List (Nat × Fl)) (k : ResKind)
  | pair (s : State) (res1 res2 : List (Nat × Latch)) (fl : List (Nat × Fl)) (k1 k2 : ResKind)
  | moved (s : State)
  | stay (s : State)
  | part (s : State) (stay : List Nat)
  | hold (req : Nat)
  | trap (s : State) (t : TrapReq)

/-- A word whose active lanes compute nothing and whose issue set moves on. -/
def Eff.plain (s : State) : Eff := .done s [] [] .none

/-- Move the issue set on by one word; in handler mode the handler PC (R73, R279). -/
def Warp.advance (w : Warp) (ls : List Nat) : Warp :=
  if w.handler then { w with hpc := w.hpc + 1 } else w.modLanes ls fun _ x => { x with pc := x.pc + 1 }

/-- Make lanes wait, at the word that issues (R70, R279). -/
def Warp.waitOn (w : Warp) (ls : List Nat) (k : WaitKind) (word : Int) : Warp :=
  if w.handler then w.modLanes ls fun _ x => { x with hwait := some ⟨k, word⟩ }
  else w.modLanes ls fun _ x => { x with wait := some ⟨k, word⟩ }

/-- The word stays to be issued again without having acted: the PC units have tested it (R297). -/
def Warp.stays (w : Warp) (ls : List Nat) : Warp := w.modLanes ls fun _ x => { x with tested := true }

/-- End the waits that satisfy a test, in both modes. -/
def Warp.wake (w : Warp) (p : Wait → Bool) : Warp :=
  w.allLanes fun _ x =>
    { x with wait := (match x.wait with | some y => if p y then none else some y | none => none),
             hwait := (match x.hwait with | some y => if p y then none else some y | none => none) }

/-- The lanes whose wait, in either mode, satisfies a test. -/
def Warp.waiting (w : Warp) (p : Wait → Bool) : List Nat :=
  w.where_ fun x => (match x.wait with | some y => p y | none => false) || (match x.hwait with | some y => p y | none => false)

/-- Count a word of n instructions against the yielded lanes (R80). -/
def Warp.countYields (w : Warp) (n : Int) : Warp :=
  w.allLanes fun _ x => { x with yielded := x.yielded.map fun y => { y with count := y.count - n } }

/-- A latch holds a word or a double: what it takes is narrowed to its 27 or 54 trits (R7, R107). -/
def Latch.fit (y : Latch) : Latch := ⟨narrow y.val (if y.dbl then 54 else 27), y.dbl⟩

/-- One latch result shifts a lane's latches (R107). -/
def Lane.latch (x : Lane) (y : Latch) : Lane := { x with x3 := x.x2, x2 := x.x1, x1 := y.fit, since := x.since + 1, made := x.made + 1 }

/-- A result that comes late takes the latch that its word's result has by now: its number was n (R107). -/
def Lane.lateLatch (x : Lane) (n : Nat) (y : Latch) : Lane :=
  if x.made = n then { x with x1 := y.fit } else if x.made = n + 1 then { x with x2 := y.fit } else if x.made = n + 2 then { x with x3 := y.fit } else x

/-- The result that a lane of the issue set latches: computed, 0 when inactive, free when the word computes none or its result comes later. -/
def latchOf (s : State) (al : List Nat) (res : List (Nat × Latch)) (l : Nat) : Latch :=
  match res.find? fun p => p.1 == l with
  | some p => p.2
  | none => if al.contains l then ⟨Config.latchFill (s.fresh + l), false⟩ else ⟨0, false⟩

/-- NOP latches nothing, and the lanes that EXIT ends keep their latches (R367, R406). -/
def noLatch : Instr → Bool | .nop _ | .exit _ => true | _ => false
/-- EXIT. -/
def endsLanes : Instr → Bool | .exit _ => true | _ => false
/-- A lane of the issue set latches a result of the word: under EXIT only one that stays live, which was inactive (R107, R367). -/
def Lane.latches (i : Instr) (x : Lane) : Bool := i.isVector && (!noLatch i || (endsLanes i && x.live))

/-- Start or continue each lane's chain (R108). -/
def Lane.chainStep (reads : Bool) (x : Lane) : Lane :=
  if reads then { x with pos := x.pos + 1 } else { x with pos := 1, since := 0 }
/-- End a lane's chain. -/
def Lane.chainEnd (x : Lane) : Lane := { x with pos := 0, since := 0 }

/-- Update the debugger's pending operation n: of warp dbg, or of the debug window. -/
def State.modStep (s : State) (dbg n : Nat) (f : PendOp → PendOp) : State :=
  let g (l : List Pend) : List Pend := l.map fun p => if p.n = n then { p with op := f p.op } else p
  (s.modWarp dbg fun w => { w with pends := g w.pends }).modPkg fun k => { k with dwin := g k.dwin }

/-- Record the outcome of a stepped word for the debugger's pending HSTEP (R307). -/
def recordStep (s : State) (dbg n : Nat) (r : Int × Int × Int × Int) : State :=
  s.modStep dbg n fun o => match o with | .hstep a b c _ ws => .hstep a b c (some r) ws | o => o

/-- Raise a trap on the issuing warp: taken (R277), or reported to the debugger that steps it (R307). -/
def raiseTrap (s : State) (c : Cur) (t : TrapReq) : State :=
  match c.hstep with
  | none => s.enterTrap c.wid t
  | some (dbg, n) =>
    let ia : Int × Int := match t.lanes with | p :: _ => p.2 | [] => (0, 0)
    recordStep s dbg n (2, t.cause, ia.1, ia.2)

/-- Raise a trap that finds its word done: a handler's PC goes back to the word for the double trap (R280). -/
def raiseDone (s : State) (c : Cur) (t : TrapReq) : State :=
  match c.hstep with
  | none => (s.modWarp c.wid fun w => if w.handler then { w with hpc := c.pc } else w).enterTrap c.wid t
  | some _ => raiseTrap s c t

/-- The value and flag units after a vector word (R296 to R298). A stepped word advances counts only (R307). -/
def watchResults (s : State) (c : Cur) (core : Nat) (t : Int) (res : List (List (Nat × Latch) × ResKind)) (fl : List (Nat × Fl)) :
    State × List Trig :=
  match s.warp? c.wid with
  | none => (s, [])
  | some w => watchTest s core t fun u =>
      if u.is 2 then
        ((upto 27).filter fun l => u.covers s w l && res.any fun r => r.1.any fun p => p.1 == l && u.matchesValue r.2 p.2.val).map fun l => (l, 0)
      else if u.is 3 then (fl.filter fun p => u.covers s w p.1 && u.matchesFlags p.2).map fun p => (p.1, 0)
      else []

/-- After the result and flags are written: ARITH, then WATCH (R61, R276). -/
def afterWord (i : Instr) (s : State) (c : Cur) (w : Warp) (res : List (List (Nat × Latch) × ResKind)) (fl : List (Nat × Fl)) : State :=
  let p := if i.isVector && !w.handler then watchResults s c w.coreNo s.now res fl else (s, [])
  let ar := fl.filter fun q => arithTraps i.te q.2
  match c.hstep with
  | some (dbg, n) =>
    if ar.isEmpty then recordStep p.1 dbg n (0, lowestUnit p.2, 0, 0)
    else raiseTrap p.1 c ⟨cause.arith, ar.map fun q => (q.1, q.2.num, 0)⟩
  | none =>
    if ar.isEmpty then watchAct p.1 c.wid p.2
    else
      let s1 := if strongest p.2 = 0 then p.1.modWarp c.wid fun w => w.holdTrap (trapTrigs p.2)
        else watchAct p.1 c.wid p.2
      raiseDone s1 c ⟨cause.arith, ar.map fun q => (q.1, q.2.num, 0)⟩

/-- A warp after a word's effect: latches, chain positions, flags and PCs; the exemption of R300 ends unless it is kept, as it
is across a handler. -/
def Warp.retireWord (w : Warp) (i : Instr) (ls : List Nat) (lts : List (Nat → Latch)) (fl : List (Nat × Fl)) (adv keep : Bool) : Warp :=
  let w1 := w.modLanes ls fun l x =>
    let x1 := Lane.chainStep (!i.latches.isEmpty) x
    let x2 := if x.latches i then lts.foldl (fun x lt => x.latch (lt l)) x1 else x1
    { (if i.chainEnds then x2.chainEnd else x2) with skip := keep && x.skip, tested := false }
  let w2 := w1.raise fl
  if adv then w2.advance ls else w2

/-- The number of instructions a word counts for (R106). -/
def wordCount : Instr → Int | .pairedWord _ _ => 2 | _ => 1

/-- What follows a word's effect: latches, chains, flags and PCs, then ARITH and the value and flag units. -/
def finishWord (i : Instr) (s : State) (c : Cur) (w : Warp) (lts : List (Nat → Latch)) (res : List (List (Nat × Latch) × ResKind))
    (fl : List (Nat × Fl)) (adv : Bool) : State :=
  let s1 : State := { s with fresh := s.fresh + 27 }
  afterWord i (s1.modWarp c.wid fun x => x.retireWord i c.lanes lts fl adv w.handler) c w res fl

/-- Issue one word of the current warp: the checks of R110, then its effect on the active lanes. -/
def runWord (i : Instr) (s : State) (act : State → Cur → Warp → List Nat → Eff) : State :=
  match s.cur with
  | none => s
  | some c =>
    match s.warp? c.wid with
    | none => s
    | some w =>
      let s := { s with cur := none }
      let s1 := s.modWarp c.wid fun w => w.countYields (wordCount i)
      if !legal i w c.lanes then raiseTrap s1 c ⟨cause.illegal, listed c.lanes 0 0⟩
      else
        let al := match i.hd? with | some h => activeLanes w h c.lanes | none => c.lanes
        match act s1 c w al with
        | .trap s2 t => raiseTrap s2 c t
        | .stay s2 => (match c.hstep with | some (d, n) => recordStep s2 d n (1, 0, 0, 0) | none => s2)
        | .part s2 st => finishWord i s2 { c with lanes := c.lanes.filter fun l => !st.contains l } w [latchOf s2 al []] [] [] true
        | .hold n => s.modWarp c.wid fun w => { w with blocked := some n }
        | .moved s2 => finishWord i s2 c w [latchOf s2 al []] [] [] false
        | .done s2 res fl k => finishWord i s2 c w [latchOf s2 al res] [(res, k)] fl true
        | .pair s2 r1 r2 fl k1 k2 => finishWord i s2 c w [latchOf s2 [] r1, latchOf s2 [] r2] [(r1, k1), (r2, k2)] fl true

/-- The effect of a group-wide or vector word that acts only when some lane is active; otherwise it only moves on. -/
def whenActive (al : List Nat) (s : State) (e : Eff) : Eff := if al.isEmpty then .plain s else e

/-- A privileged word at user level (R276). -/
def Warp.user (w : Warp) : Bool := w.level == 0
/-- The trap PRIV on an issue set (R275). -/
def privTrap (s : State) (c : Cur) : Eff := .trap s ⟨cause.priv, listed c.lanes 0 0⟩
/-- The trap ILLEGAL with a word index or detail (R275). -/
def illegalTrap (s : State) (ls : List Nat) (info : Int) : Eff := .trap s ⟨cause.illegal, listed ls info 0⟩

/-! ### Lanewise computation -/

/-- A word that computes a result in each active lane (vector), or once (group-wide), and writes it to d. f gives the
result of a lane with its flags. -/
def computeWord (i : Instr) (s : State) (d : Dst) (dbl : Bool) (k : ResKind) (f : Warp → Nat → Int × Fl) : State :=
  runWord i s fun s c w al =>
    if i.isVector then
      let rs := al.map fun l => (l, f w l)
      let s1 := s.modWarp c.wid fun w => rs.foldl (fun w r => w.setDst r.1 d dbl r.2.1) w
      .done s1 (rs.map fun r => (r.1, ⟨r.2.1, dbl⟩)) ((rs.filter fun r => !r.2.2.isNone).map fun r => (r.1, r.2.2)) k
    else if al.isEmpty then .plain s
    else
      let r := f w 0
      let s1 := s.modWarp c.wid fun w => w.setDst 0 d dbl r.1
      .done s1 [] (if r.2.isNone then [] else c.lanes.map fun l => (l, r.2)) k

/-- A word that computes a predicate trit in each active lane, or once into a Q predicate. -/
def predWord (i : Instr) (s : State) (pd : Nat) (f : Warp → Nat → Int × Fl) : State :=
  runWord i s fun s c w al =>
    if i.isVector then
      let rs := al.map fun l => (l, f w l)
      let s1 := s.modWarp c.wid fun w => rs.foldl (fun w r => w.setP r.1 pd r.2.1) w
      .done s1 (rs.map fun r => (r.1, ⟨r.2.1, false⟩)) ((rs.filter fun r => !r.2.2.isNone).map fun r => (r.1, r.2.2)) .w
    else if al.isEmpty then .plain s
    else
      let r := f w 0
      .done (s.modWarp c.wid fun w => w.setQ pd r.1) [] (if r.2.isNone then [] else c.lanes.map fun l => (l, r.2)) .none

end Sys2Proof.Machine
end

