-- ==== Sys2Proof/Machine/Transcend.lean ====
section
/-! DEFINITION. Machine/Transcend.lean: the functions of R60, correctly rounded (R53).

Each value is enclosed between two integers times 3^-p. When both ends round alike, that is the result; it is never exact, since the exact
cases are taken apart. When they do not, p is doubled, up to 200·2^60: no operand gets that far, since in every case the exact value is a
number whose distance from the rationals has a known lower bound (log entry 9). -/

namespace Sys2Proof.Machine

open Sys2Proof Tern

/-- The precisions of the enclosures, in turn. -/
def tsPrecs : List Nat := (List.range 61).map fun k => 200 * 2 ^ k
/-- The scale of precision p: 3^p. -/
def tsS (p : Nat) : Int := pow3 p
/-- Half the width of an enclosure of precision p, in units: above the sum of all truncation errors, fewer than 10^4 a term. -/
def tsErr (p : Nat) : Int := 100000 * p

/-- Sum of z^(2k+1)/(2k+1) from the term q = z^(2k+1) on, at scale u. -/
def atanhFrom (u z2 : Int) : Nat → Nat → Int → Int → Int
  | 0, _, _, acc => acc
  | fuel + 1, k, q, acc => atanhFrom u z2 fuel (k + 2) (q * z2 / u) (acc + q / k)

/-- artanh of z/3^p, |z| at most half of 3^p. -/
def atanhS (p : Nat) (z : Int) : Int := atanhFrom (tsS p) (z * z / tsS p) p 1 z 0

/-- ln 3 = 2·artanh(1/2). -/
def ln3S (p : Nat) : Int := 2 * atanhS p (tsS p / 2)

/-- Sum of r^k/k! from the term t on, at scale u. -/
def expFrom (u r : Int) : Nat → Nat → Int → Int → Int
  | 0, _, _, acc => acc
  | fuel + 1, k, t, acc => expFrom u r fuel (k + 1) (t * r / (u * k)) (acc + t)

/-- e^(r/3^p), |r| below 3^p. -/
def expS (p : Nat) (r : Int) : Int := expFrom (tsS p) r p 1 (tsS p) 0

/-- m·3^e at the scale; e is at least -200. -/
def atScale (p : Nat) (m e : Int) : Int := m * pow3 (e + p).toNat

/-- The result enclosed by v ± tsErr p units of 3^(e - p), of sign s, v positive and far above tsErr; none where its ends round apart. -/
def enclosedAt (f : Fmt) (s : Int) (p : Nat) (v e : Int) : Option FRes :=
  let a := f.round (v - tsErr p).toNat 1 (e - p)
  let b := f.round (v + tsErr p).toNat 1 (e - p)
  if a.q = b.q ∧ a.g = b.g then some (.num s (2 * v.toNat + 1) 2 (e - p)) else none

/-- The result enclosed by g at the first precision that decides it: g gives a positive value and its exponent. The last arm, which no
operand reaches, makes it total (log entry 9). -/
def enclosed (f : Fmt) (s : Int) (g : Nat → Int × Int) (code : Nat) (m x : Int) : List Nat → FRes
  | [] =>
    let v := g 200
    if Config.hardCase code m x then .num s (2 * (v.1 - tsErr 200).toNat + 1) 2 (v.2 - 200) else .num s (2 * (v.1 + tsErr 200).toNat + 1) 2 (v.2 - 200)
  | p :: r => match enclosedAt f s p (g p).1 (g p).2 with
    | some y => y
    | none => enclosed f s g code m x r

/-- Nearest integer to a/b, b positive. -/
def nearest (a b : Int) : Int := (2 * a + b) / (2 * b)

/-- m·3^e exceeds c in magnitude. -/
def beyond (m e : Int) (c : Int) : Bool :=
  if e ≥ 0 then decide (e > 30) || decide ((m.natAbs : Int) * pow3 e.toNat > c) else decide ((m.natAbs : Int) > c * pow3 (-e).toNat)

/-- e^y·3^n at the scale, for y with |y| below 300: the fixed-point value and the power of three. -/
def expOf (p : Nat) (y : Int) : Int × Int := let n := nearest y (ln3S p); (expS p (y - n * ln3S p), n)

/-- e^x (R60). -/
def expV (f : Fmt) : FV → FRes
  | .inf s => if s = 1 then .inf 1 false else .zero
  | .fin m e =>
    if m = 0 then .num 1 1 1 0
    else if beyond m e 200 then .num 1 1 1 (if 0 < m then 400 else -400)
    else enclosed f 1 (fun p => expOf p (atScale p m e)) 1 m e tsPrecs
  | .nan _ => .invalid

/-- 3^n of an integer n as a result: exact in the normal range (R60); an underflow is inexact even where the subnormal is exact (R375), so
a tail that changes no rounding stands behind it (log entry 128). -/
def exp3Int (f : Fmt) (n : Int) : FRes := if n < f.emin then .num 1 (2 * 3 ^ 100 + 1) (2 * 3 ^ 100) n else .num 1 1 1 n

/-- 3^x (R60). -/
def exp3V (f : Fmt) : FV → FRes
  | .inf s => if s = 1 then .inf 1 false else .zero
  | .fin m e =>
    if m = 0 then .num 1 1 1 0
    else if beyond m e 300 then .num 1 1 1 (if 0 < m then 400 else -400)
    else
      let n := if e ≥ 0 then m * pow3 e.toNat else shr m (-e).toNat
      let frac (p : Nat) : Int := atScale p m e - n * tsS p
      if frac 200 = 0 then exp3Int f n
      else enclosed f 1 (fun p => (expS p (frac p * ln3S p / tsS p), n)) 2 m e tsPrecs
  | .nan _ => .invalid

/-- Trits of a positive magnitude: least t with 2·m ≤ 3^(t+1), from t on. -/
def topFrom (m : Nat) : Nat → Nat → Nat
  | 0, t => t
  | fuel + 1, t => if 2 * m ≤ Nat.pow 3 (t + 1) then t else topFrom m fuel (t + 1)

/-- The highest trit of a positive significand. -/
def topTrit (m : Int) : Nat := topFrom m.natAbs 60 0

/-- ln of m·3^e, m positive: the power of three taken out, and ln of the rest at the scale. -/
def lnParts (p : Nat) (m e : Int) : Int × Int :=
  let t := topTrit m
  (e + t, 2 * atanhS p ((m - pow3 t) * tsS p / (m + pow3 t)))

/-- A signed value enclosed; its sign shows at the first precision. -/
def enclosedS (f : Fmt) (g : Nat → Int) (code : Nat) (m x : Int) : FRes :=
  enclosed f (sgn (g 200)) (fun p => ((g p).natAbs, 0)) code m x tsPrecs

/-- ln x (R56, R60). -/
def logV (f : Fmt) : FV → FRes
  | .inf s => if s = 1 then .inf 1 false else .invalid
  | .fin m e =>
    if m = 0 then .inf (-1) true else if m < 0 then .invalid
    else if e + topTrit m = 0 ∧ m = pow3 (topTrit m) then .zero
    else enclosedS f (fun p => (lnParts p m e).1 * ln3S p + (lnParts p m e).2) 3 m e
  | .nan _ => .invalid

/-- log3 x (R56, R60). -/
def log3V (f : Fmt) : FV → FRes
  | .inf s => if s = 1 then .inf 1 false else .invalid
  | .fin m e =>
    if m = 0 then .inf (-1) true else if m < 0 then .invalid
    else if m = pow3 (topTrit m) then FRes.ofFin (e + topTrit m) 0
    else enclosedS f (fun p => (lnParts p m e).1 * tsS p + (lnParts p m e).2 * tsS p / ln3S p) 4 m e
  | .nan _ => .invalid

/-- tanh of |m·3^e| at the scale. -/
def tanhAt (p : Nat) (m e : Int) : Int :=
  let r := expOf p (2 * atScale p m.natAbs e)
  let ex := r.1 * pow3 r.2.toNat
  (ex - tsS p) * tsS p / (ex + tsS p)

/-- tanh x (R60): below 3^-60 in magnitude it is x less a tail, beyond 60 it is ±1 less a tail. -/
def tanhV (f : Fmt) : FV → FRes
  | .inf s => FRes.ofFin s 0
  | .fin m e =>
    if m = 0 then .zero
    else if beyond m e 60 then .num (sgn m) (2 * 3 ^ 100 - 1) (2 * 3 ^ 100) 0
    else if !beyond m (e + 60) 1 then .num (sgn m) (m.natAbs * (2 * 3 ^ 100 - 1)) (2 * 3 ^ 100) e
    else enclosed f (sgn m) (fun p => (tanhAt p m e, 0)) 5 m e tsPrecs
  | .nan _ => .invalid

end Sys2Proof.Machine
end

