-- ==== Sys2Proof/Machine/Floating.lean ====
section
/-! DEFINITION. Machine/Floating.lean: class −0 and FCMP (R369 to R381). -/

namespace Sys2Proof.Machine

open Sys2Proof Tern

/-- Apply an element function to the operand words: three TF9 elements for .F9 (R339). -/
def felems (ty : FTy) (f : Fmt → List Int → Int × Fl) (xs : List Int) : Int × Fl :=
  match ty with
  | .f27 => f tf27 xs
  | .f9 =>
    let rs := (upto 3).map fun i => f tf9 (xs.map fun x => (split 9 3 x).getD i 0)
    (join 9 (rs.map fun r => r.1), Fl.all (rs.map fun r => r.2))

/-- The kind of result a value unit sees. -/
def fkindOf : FTy → ResKind | .f9 => .f9 | .f27 => .f27

/-- Operations of one, two and three operands under FZI and FZO (R371). -/
def fop (fzi fzo : Int) (g : List FV → FRes) (f : Fmt) (xs : List Int) : Int × Fl := f.op fzi fzo xs g
def fopF (fzi fzo : Int) (g : Fmt → FV → FRes) (f : Fmt) (xs : List Int) : Int × Fl := f.op fzi fzo xs (one (g f))

/-- x − y is x + (−y) (R372). -/
def subV (a b : FV) : FRes := addV a (negV b)
/-- x·y as a result (R372). -/
def mulR (a b : FV) : FRes := match mulV a b with | some v => resV v | none => .invalid
/-- 1/x (R60, R375). -/
def rcpV (v : FV) : FRes := divV (.fin 1 0) v
/-- x·3^k, with k cut to where the outcome no longer changes (R378). -/
def sclV (k : Int) : FV → FRes
  | .fin m e => FRes.ofFin m (e + max (-1000) (min 1000 k))
  | v => resV v

/-- FRND of one operand: the trits below 3^j discarded; IX when the value changes (R379). -/
def frndE (j fzi fzo : Int) (f : Fmt) (xs : List Int) : Int × Fl :=
  match xs with
  | [x] =>
    let o := f.opnd fzi x
    match o.1 with
    | .fin m e =>
      let q := if j ≤ e then m else shr m (j - e).toNat
      let same := j ≤ e || q * pow3 (j - e).toNat == m
      let r := f.finish fzo (FRes.ofFin q (max j e))
      (r.1, (o.2.or r.2).or (if same then Fl.none else Fl.inx))
    | v => let r := f.finish fzo (match f.firstNan [v] with | some n => n | none => resV v)
           (r.1, o.2.or r.2)
  | _ => (0, Fl.none)

/-- FMIN and FMAX of one element. -/
def fmm (sgn' fzi : Int) (f : Fmt) (xs : List Int) : Int × Fl :=
  match xs with | [a, b] => f.minmax sgn' fzi a b | _ => (0, Fl.none)
/-- FNEG, FABS and FCLS of one element: no flag. -/
def fun1 (g : Fmt → Int → Int) (f : Fmt) (xs : List Int) : Int × Fl :=
  match xs with | [a] => (g f a, Fl.none) | _ => (0, Fl.none)

def fltWord1 (i : Instr) (o : F1) (s : State) (f : Fmt → List Int → Int × Fl) : State :=
  computeWord i s o.d false (fkindOf o.ty) fun w l => felems o.ty f [w.src l false o.a]
def fltWord2 (i : Instr) (o : F2) (s : State) (f : Fmt → List Int → Int × Fl) : State :=
  computeWord i s o.d false (fkindOf o.ty) fun w l => felems o.ty f [w.src l false o.a, w.src l false o.b]

/-- FADD (R372). -/
def execFadd (o : F2) (s : State) : Out := .next (fltWord2 (.fadd o) o s (fop o.fzi o.fzo (two addV)))
/-- FSUB (R372). -/
def execFsub (o : F2) (s : State) : Out := .next (fltWord2 (.fsub o) o s (fop o.fzi o.fzo (two subV)))
/-- FMUL (R372). -/
def execFmul (o : F2) (s : State) : Out := .next (fltWord2 (.fmul o) o s (fop o.fzi o.fzo (two mulR)))
/-- FMA (R373). -/
def execFma (o : F3) (s : State) : Out :=
  .next (computeWord (.fma o) s o.d false (fkindOf o.ty) fun w l =>
    felems o.ty (fop o.fzi o.fzo fmaV) [w.src l false o.a, w.src l false o.b, w.src l false o.c])
/-- FMIN (R374). -/
def execFmin (o : F2) (s : State) : Out := .next (fltWord2 (.fmin o) o s (fmm (-1) o.fzi))
/-- FMAX (R374). -/
def execFmax (o : F2) (s : State) : Out := .next (fltWord2 (.fmax o) o s (fmm 1 o.fzi))
/-- FNEG (R57, R376). -/
def execFneg (o : F1) (s : State) : Out := .next (fltWord1 (.fneg o) o s (fun1 Fmt.negE))
/-- FABS (R57, R376). -/
def execFabs (o : F1) (s : State) : Out := .next (fltWord1 (.fabs o) o s (fun1 Fmt.absE))
/-- FDIV (R372). -/
def execFdiv (o : F2) (s : State) : Out := .next (fltWord2 (.fdiv o) o s (fop o.fzi o.fzo (two divV)))
/-- FSQRT (R375). -/
def execFsqrt (o : F1) (s : State) : Out := .next (fltWord1 (.fsqrt o) o s (fop o.fzi o.fzo (one sqrtV)))
/-- FRCP (R375). -/
def execFrcp (o : F1) (s : State) : Out := .next (fltWord1 (.frcp o) o s (fop o.fzi o.fzo (one rcpV)))
/-- FRSQ (R375). -/
def execFrsq (o : F1) (s : State) : Out := .next (fltWord1 (.frsq o) o s (fop o.fzi o.fzo (one rsqV)))
/-- FEXP (R60, R375). -/
def execFexp (o : F1) (s : State) : Out := .next (fltWord1 (.fexp o) o s (fopF o.fzi o.fzo expV))
/-- FLOG (R60, R375). -/
def execFlog (o : F1) (s : State) : Out := .next (fltWord1 (.flog o) o s (fopF o.fzi o.fzo logV))
/-- FEXP3 (R60, R375). -/
def execFexp3 (o : F1) (s : State) : Out := .next (fltWord1 (.fexp3 o) o s (fopF o.fzi o.fzo exp3V))
/-- FLOG3 (R60, R375). -/
def execFlog3 (o : F1) (s : State) : Out := .next (fltWord1 (.flog3 o) o s (fopF o.fzi o.fzo log3V))
/-- FTANH (R60, R375). -/
def execFtanh (o : F1) (s : State) : Out := .next (fltWord1 (.ftanh o) o s (fopF o.fzi o.fzo tanhV))
/-- FSCL (R378): one count for every element. -/
def execFscl (o : FScl) (s : State) : Out :=
  .next (computeWord (.fscl o) s o.d false (fkindOf o.ty) fun w l =>
    felems o.ty (fop o.fzi o.fzo (one (sclV (w.srcImm l false o.k)))) [w.src l false o.a])
/-- FCLS (R59, R377). -/
def execFcls (o : F1) (s : State) : Out := .next (fltWord1 (.fcls o) o s (fun1 Fmt.cls))
/-- FRND (R379). -/
def execFrnd (o : FRnd) (s : State) : Out :=
  .next (computeWord (.frnd o) s o.d false (fkindOf o.ty) fun w l => felems o.ty (frndE o.pos o.fzi o.fzo) [w.src l false o.a])

/-- The comparison of one element: a trit, or none for a NaN; NP when a NaN is signalling (R58, R381). -/
def fcmpE (fzi : Int) (f : Fmt) (x y : Int) : Option Int × Fl :=
  let a := f.opnd fzi x
  let b := f.opnd fzi y
  let fl := a.2.or b.2
  if a.1.isNan || b.1.isNan then (none, fl.or (if f.isSignalling a.1 || f.isSignalling b.1 then Fl.nan else Fl.none))
  else (some (cmpV a.1 b.1), fl)

/-- The comparison of two operand words (R381). -/
def fcmpWord (ty : FTy) (fzi u x y : Int) : Int × Fl :=
  let rs := match ty with
    | .f27 => [fcmpE fzi tf27 x y]
    | .f9 => (List.zipWith (fcmpE fzi tf9) (split 9 3 x) (split 9 3 y)).reverse
  let fl := Fl.all (rs.map fun r => r.2)
  if rs.any fun r => r.1.isNone then (u, fl) else (firstNonzero (rs.filterMap fun r => r.1), fl)

/-- FCMP (R380, R381). -/
def execFcmp (o : FCmp) (s : State) : Out :=
  .next (predWord (.fcmp o) s o.pd fun w l => fcmpWord o.ty o.fzi o.u (w.src l false o.a) (w.src l false o.b))

end Sys2Proof.Machine
end

