-- ==== Sys2Proof/Machine/Integer.lean ====
section
/-! DEFINITION. Machine/Integer.lean: class −−, the integer and trit-logic words (R342 to R344, R365, R366, R399,
R400, R421, R422). -/

namespace Sys2Proof.Machine

open Sys2Proof Tern

/-- Trits of an element of an integer type. -/
def bitsOf : ITy → Nat | .t => 9 | .w => 27 | .d => 54
/-- The kind of result a value unit sees. -/
def kindOf : ITy → ResKind | .t => .t | .w => .w | .d => .d

/-- Apply an element function to each element: three trytes for .T (R339). -/
def elems1 (ty : ITy) (f : Nat → Int → Int × Fl) (a : Int) : Int × Fl :=
  match ty with
  | .t => let rs := (split 9 3 a).map (f 9)
          (join 9 (rs.map fun r => r.1), Fl.all (rs.map fun r => r.2))
  | _ => f (bitsOf ty) a
def elems2 (ty : ITy) (f : Nat → Int → Int → Int × Fl) (a b : Int) : Int × Fl :=
  match ty with
  | .t => let rs := List.zipWith (f 9) (split 9 3 a) (split 9 3 b)
          (join 9 (rs.map fun r => r.1), Fl.all (rs.map fun r => r.2))
  | _ => f (bitsOf ty) a b
def elems3 (ty : ITy) (f : Nat → Int → Int → Int → Int × Fl) (a b c : Int) : Int × Fl :=
  match ty with
  | .t => let rs := List.zipWith (fun (p : Int × Int) z => f 9 p.1 p.2 z) (List.zip (split 9 3 a) (split 9 3 b)) (split 9 3 c)
          (join 9 (rs.map fun r => r.1), Fl.all (rs.map fun r => r.2))
  | _ => f (bitsOf ty) a b c

/-- The B operand: an immediate of .T applies to each element (R343). -/
def Warp.intB (w : Warp) (l : Nat) (ty : ITy) : SrcImm → Int
  | .src b => w.src l (ty == .d) b
  | .imm i => if ty = .t then join 9 [i, i, i] else i

/-! ### Element functions: width, then operands -/

def absF (_ : Nat) (x : Int) : Int × Fl := (x.natAbs, Fl.none)
def negF (_ : Nat) (x : Int) : Int × Fl := (-x, Fl.none)
def sgnF (_ : Nat) (x : Int) : Int × Fl := (sgn x, Fl.none)
def tlzF (n : Nat) (x : Int) : Int × Fl := (tlz x n, Fl.none)
def tcntF (c : Int) (n : Nat) (x : Int) : Int × Fl := (tcnt x n c, Fl.none)
def tmapF (m : Int) (n : Nat) (x : Int) : Int × Fl := (tmap m x n, Fl.none)
def addF (s : Int) (n : Nat) (x y : Int) : Int × Fl := fitF (x + y) n s
def subF (s : Int) (n : Nat) (x y : Int) : Int × Fl := fitF (x - y) n s
def mulF (s : Int) (n : Nat) (x y : Int) : Int × Fl := fitF (x * y) n s
def mulhF (n : Nat) (x y : Int) : Int × Fl := (shr (x * y) n, Fl.none)
def minF (_ : Nat) (x y : Int) : Int × Fl := (min x y, Fl.none)
def maxF (_ : Nat) (x y : Int) : Int × Fl := (max x y, Fl.none)
/-- DIV (R30): 0 with DZ for a zero divisor. -/
def divF (_ : Nat) (x y : Int) : Int × Fl := if y = 0 then (0, Fl.dvz) else (divNearest x y, Fl.none)
def divzF (_ : Nat) (x y : Int) : Int × Fl := if y = 0 then (0, Fl.dvz) else (divZero x y, Fl.none)
def modF (_ : Nat) (x y : Int) : Int × Fl := if y = 0 then (0, Fl.dvz) else (x - divNearest x y * y, Fl.none)
/-- TSH (R32). -/
def tshF (s : Int) (n : Nat) (x k : Int) : Int × Fl := let r := tsh x k n s; (r.1, if r.2 then Fl.ovf else Fl.none)
def trotF (n : Nat) (x k : Int) : Int × Fl := (trot x k n, Fl.none)
def tbinF (m : Int) (n : Nat) (x y : Int) : Int × Fl := (tbin m x y n, Fl.none)
def madF (s : Int) (n : Nat) (x y z : Int) : Int × Fl := fitF (x * y + z) n s
def tselF (n : Nat) (x y z : Int) : Int × Fl := (tsel x y z n, Fl.none)

/-! ### Words of one, two and three operands -/

def intWord1 (i : Instr) (o : I1) (s : State) (f : Nat → Int → Int × Fl) : State :=
  computeWord i s o.d (o.ty == .d) (kindOf o.ty) fun w l => elems1 o.ty f (w.src l (o.ty == .d) o.a)
def intWord2 (i : Instr) (o : I2) (s : State) (f : Nat → Int → Int → Int × Fl) : State :=
  computeWord i s o.d (o.ty == .d) (kindOf o.ty) fun w l => elems2 o.ty f (w.src l (o.ty == .d) o.a) (w.intB l o.ty o.b)
def intWord3 (i : Instr) (o : I3) (s : State) (f : Nat → Int → Int → Int → Int × Fl) : State :=
  computeWord i s o.d (o.ty == .d) (kindOf o.ty) fun w l =>
    elems3 o.ty f (w.src l (o.ty == .d) o.a) (w.src l (o.ty == .d) o.b) (w.src l (o.ty == .d) o.c)

/-- ABS (R342). -/
def execAbs (o : I1) (s : State) : Out := .next (intWord1 (.abs o) o s absF)
/-- ADD (R343, R344). -/
def execAdd (o : I2) (s : State) : Out := .next (intWord2 (.add o) o s (addF o.sat))
/-- SUB (R421, R422). -/
def execSub (o : I2) (s : State) : Out := .next (intWord2 (.sub o) o s (subF o.sat))
/-- NEG (R399, R400). -/
def execNeg (o : I1) (s : State) : Out := .next (intWord1 (.neg o) o s negF)
/-- MUL (R399, R400). -/
def execMul (o : I2) (s : State) : Out := .next (intWord2 (.mul o) o s (mulF o.sat))
/-- MULH (R29, R400). -/
def execMulh (o : I2) (s : State) : Out := .next (intWord2 (.mulh o) o s mulhF)
/-- MAD (R399, R400). -/
def execMad (o : I3) (s : State) : Out := .next (intWord3 (.mad o) o s (madF o.sat))
/-- DIV (R365, R366). -/
def execDiv (o : I2) (s : State) : Out := .next (intWord2 (.div o) o s divF)
/-- DIVZ (R365, R366). -/
def execDivz (o : I2) (s : State) : Out := .next (intWord2 (.divz o) o s divzF)
/-- MOD (R399, R400). -/
def execMod (o : I2) (s : State) : Out := .next (intWord2 (.mod o) o s modF)
/-- MIN (R399, R400). -/
def execMin (o : I2) (s : State) : Out := .next (intWord2 (.min o) o s minF)
/-- MAX (R399, R400). -/
def execMax (o : I2) (s : State) : Out := .next (intWord2 (.max o) o s maxF)
/-- SGN (R421). -/
def execSgn (o : I1) (s : State) : Out := .next (intWord1 (.sgn o) o s sgnF)
/-- TSH (R32, R421). -/
def execTsh (o : I2) (s : State) : Out := .next (intWord2 (.tsh o) o s (tshF o.sat))
/-- TROT (R33, R421). -/
def execTrot (o : I2) (s : State) : Out := .next (intWord2 (.trot o) o s trotF)
/-- TLZ (R33, R421). -/
def execTlz (o : I1) (s : State) : Out := .next (intWord1 (.tlz o) o s tlzF)
/-- TCNT (R33, R421). -/
def execTcnt (o : ICnt) (s : State) : Out :=
  .next (computeWord (.tcnt o) s o.d (o.ty == .d) (kindOf o.ty) fun w l => elems1 o.ty (tcntF o.sel) (w.src l (o.ty == .d) o.a))
/-- TMAP (R34, R421). -/
def execTmap (o : ITab1) (s : State) : Out :=
  .next (computeWord (.tmap o) s o.d (o.ty == .d) (kindOf o.ty) fun w l => elems1 o.ty (tmapF o.tbl) (w.src l (o.ty == .d) o.a))
/-- TBIN (R35, R421). -/
def execTbin (o : ITab2) (s : State) : Out :=
  .next (computeWord (.tbin o) s o.d (o.ty == .d) (kindOf o.ty) fun w l =>
    elems2 o.ty (tbinF o.tbl) (w.src l (o.ty == .d) o.a) (w.src l (o.ty == .d) o.b))
/-- TSEL (R36, R421). -/
def execTsel (o : I3) (s : State) : Out := .next (intWord3 (.tsel o) o s tselF)

end Sys2Proof.Machine
end

