-- ==== Sys2Proof/Machine/Compare.lean ====
section
/-! DEFINITION. Machine/Compare.lean: CMP, selection, predicates and the words that move data between lanes (R350,
R361, R362, R408, R409, R417, R423, R434, R435). -/

namespace Sys2Proof.Machine

open Sys2Proof Tern

/-- The comparison trit of two operands: in .T the first nonzero from the top element (R362). -/
def cmpWord (ty : ITy) (x y : Int) : Int :=
  match ty with
  | .t => firstNonzero (List.zipWith (fun a b => sgn (a - b)) (split 9 3 x) (split 9 3 y)).reverse
  | _ => sgn (x - y)

/-- CMP (R361, R362). -/
def execCmp (o : Cmp) (s : State) : Out :=
  .next (predWord (.cmp o) s o.pd fun w l => (cmpWord o.ty (w.src l (o.ty == .d) o.a) (w.intB l o.ty o.b), Fl.none))

/-- The choice of SEL by a trit (R417). -/
def selBy (p a b c : Int) : Int := if p = 1 then a else if p = 0 then b else c

/-- SEL (R417). -/
def execSel (o : Sel) (s : State) : Out :=
  .next (computeWord (.sel o) s o.d o.dbl (if o.dbl then .d else .w) fun w l =>
    (selBy (w.psrc l o.p) (w.src l o.dbl o.a) (w.src l o.dbl o.b) (w.src l o.dbl o.c), Fl.none))

/-- PSET (R409): trit l of the operand, or trit j. -/
def execPset (o : PSet) (s : State) : Out :=
  .next (predWord (.pset o) s o.pd fun w l =>
    (trit (w.src l false o.a) (if o.j = -1 then l else o.j.toNat), Fl.none))

/-- PTBL (R409). -/
def execPtbl (o : PTbl) (s : State) : Out :=
  .next (predWord (.ptbl o) s o.pd fun w l => (g2 o.tbl (w.psrc l o.a) (w.psrc l o.b), Fl.none))

/-- A predicate reduced over the active lanes into a Q predicate; every active lane latches it. -/
def predReduce (i : Instr) (s : State) (qd : Nat) (a : PSrc) (f : Int → Int → Int) : State :=
  runWord i s fun s c w al =>
    match al with
    | [] => .plain s
    | l0 :: r =>
      let v := r.foldl (fun m l => f m (w.psrc l a)) (w.psrc l0 a)
      .done (s.modWarp c.wid fun w => w.setQ qd v) (al.map fun l => (l, ⟨v, false⟩)) [] .w

/-- PANY (R409): the greatest trit. -/
def execPany (o : PRed) (s : State) : Out := .next (predReduce (.pany o) s o.qd o.a max)
/-- PALL (R409): the least trit. -/
def execPall (o : PRed) (s : State) : Out := .next (predReduce (.pall o) s o.qd o.a min)

/-- A vector word whose lanes' results and flags depend on the set of active lanes. -/
def crossWord (i : Instr) (s : State) (d : Dst) (dbl : Bool) (k : ResKind) (f : Warp → List Nat → Nat → Int) (fl : Warp → List Nat → Fl) : State :=
  runWord i s fun s c w al =>
    let rs := al.map fun l => (l, f w al l)
    let e := fl w al
    .done (s.modWarp c.wid fun w => rs.foldl (fun w r => w.setDst r.1 d dbl r.2) w) (rs.map fun r => (r.1, ⟨r.2, dbl⟩))
      (if e.isNone then [] else al.map fun l => (l, e)) k

/-- No flag. -/
def noFl (_ : Warp) (_ : List Nat) : Fl := Fl.none

/-- PCNT (R409). -/
def execPcnt (o : PCnt) (s : State) : Out :=
  .next (crossWord (.pcnt o) s o.d false .w (fun w al _ => ((al.countP fun l => w.psrc l o.a == o.c : Nat) : Int)) noFl)

/-- SHFL (R423): lane (b + offset) mod 27. -/
def execShfl (o : Shfl) (s : State) : Out :=
  .next (crossWord (.shfl o) s o.d o.dbl (if o.dbl then .d else .w)
    (fun w _ l => w.src ((w.src l false o.b + o.off) % 27).toNat o.dbl o.a) noFl)

/-- BCST (R350): the lowest active lane, or a named one. -/
def execBcst (o : Bcst) (s : State) : Out :=
  .next (crossWord (.bcst o) s o.d o.dbl (if o.dbl then .d else .w)
    (fun w al _ => w.src (if o.lane = -1 then al.headD 0 else o.lane.toNat) o.dbl o.a) noFl)

/-! ### VRED and VSCAN (R68, R434, R435) -/

/-- Combine the present values of a node: ADD is one exact sum and one rounding; MIN and MAX fold in order, but among operands of which one
is a signalling NaN the first NaN is the result (R56). -/
def node (f : Fmt) (op fzo : Int) (vs : List (Option Int)) : Option Int × Fl :=
  let ps := vs.filterMap fun v => v
  if op = 0 then
    let fs := ps.map f.dec
    let r := f.finish fzo (match f.firstNan fs with | some n => n | none => sumV fs)
    (some r.1, r.2)
  else if ps.any fun v => f.isSignalling (f.dec v) then
    let r := f.finish fzo ((f.firstNan (ps.map f.dec)).getD .invalid)
    (some r.1, r.2)
  else match ps with
    | [] => (none, Fl.none)
    | p :: r => let z := r.foldl (fun (acc : Int × Fl) x => let y := f.minmax op 0 acc.1 x; (y.1, acc.2.or y.2)) (f.minmax op 0 p p)
                (some z.1, z.2)

/-- One level of the tree: groups of three. -/
def level (f : Fmt) (op fzo : Int) (n : Nat) (vs : List (Option Int)) : List (Option Int × Fl) :=
  (upto n).map fun j => node f op fzo ((vs.drop (3 * j)).take 3)

/-- The value of a node none of whose lanes contribute: +∞ for MIN, −∞ for MAX, saturated in TF9. -/
def absent (f : Fmt) (op : Int) (v : Option Int) : Int := match v with | some x => x | none => f.infE (-op)

/-- The tree of one element: the reduction, the scan, and the flags of the tree and of the whole scan (R68). -/
def treeOf (f : Fmt) (op fzi fzo : Int) (xs : List (Option Int)) : Int × (Nat → Int) × Fl × Fl :=
  let cs := xs.map fun x => match x with
    | some v => let o := f.opnd fzi v
                (some (if o.2.sb then f.zero else v), o.2)
    | none => (if op = 0 then some f.zero else none, Fl.none)
  let l0 := cs.map fun c => c.1
  let n1 := level f op fzo 9 l0
  let l1 := n1.map fun c => c.1
  let n2 := level f op fzo 3 l1
  let l2 := n2.map fun c => c.1
  let n3 := node f op fzo l2
  let tree := Fl.all (cs.map (fun c => c.2) ++ n1.map (fun c => c.2) ++ n2.map (fun c => c.2) ++ [n3.2])
  let part (l : Nat) : Option Int × Fl :=
    let n := l + 1
    if n = 27 then n3
    else
      let a := n / 9
      let b := n % 9 / 3
      let c := n % 3
      let p2 := node f op fzo (l2.take a)
      let p1 := node f op fzo ((l1.drop (3 * a)).take b)
      let p0 := node f op fzo ((l0.drop (9 * a + 3 * b)).take c)
      let r := node f op fzo [p2.1, p1.1, p0.1]
      (r.1, ((p2.2.or p1.2).or p0.2).or r.2)
  (absent f op n3.1, fun l => absent f op (part l).1, tree, Fl.all (tree :: (upto 27).map fun l => (part l).2))

/-- An integer reduction of the contributions (R435). -/
def intRed (n : Nat) (op s : Int) (xs : List Int) : Int × Fl :=
  if op = 0 then fitF (xs.foldl (fun a x => a + x) 0) n s
  else if op = 1 then (xs.foldl (fun a x => max a x) (-maxv n), Fl.none)
  else (xs.foldl (fun a x => min a x) (maxv n), Fl.none)

/-- The contributions of the lanes up to l. -/
def contrib (w : Warp) (al : List Nat) (dbl : Bool) (a : Src) (l : Nat) : List Int :=
  (al.filter fun j => decide (j ≤ l)).map fun j => w.src j dbl a

/-- A lane's integer result; the lane 26 holds the whole reduction. -/
def intLane (o : VRed) (w : Warp) (al : List Nat) (l : Nat) : Int × Fl :=
  match o.ty with
  | .t =>
    let xs := contrib w al false o.a l
    let rs := (upto 3).map fun i => intRed 9 o.op o.s18 (xs.map fun x => (split 9 3 x).getD i 0)
    (join 9 (rs.map fun r => r.1), Fl.all (rs.map fun r => r.2))
  | .d => intRed 54 o.op o.s18 (contrib w al true o.a l)
  | _ => intRed 27 o.op o.s18 (contrib w al false o.a l)

/-- The contributions of every lane to a floating element: an element of .F9, or the word. -/
def fcontrib (o : VRed) (w : Warp) (al : List Nat) (i : Nat) : List (Option Int) :=
  (upto 27).map fun j => if al.contains j then
      some (if o.ty = .f9 then (split 9 3 (w.src j false o.a)).getD i 0 else w.src j false o.a)
    else none

/-- The trees of the elements. -/
def trees (o : VRed) (w : Warp) (al : List Nat) : List (Int × (Nat → Int) × Fl × Fl) :=
  if o.ty = .f9 then (upto 3).map fun i => treeOf tf9 o.op o.s18 o.fzo (fcontrib o w al i)
  else [treeOf tf27 o.op o.s18 o.fzo (fcontrib o w al 0)]

/-- A floating type. -/
def VTy.isFloat : VTy → Bool | .f9 | .f27 => true | _ => false
def vkindOf : VTy → ResKind | .f9 => .f9 | .t => .t | .w => .w | .d => .d | .f27 => .f27

/-- VRED (R435). -/
def execVred (o : VRed) (s : State) : Out :=
  .next (crossWord (.vred o) s o.d (o.ty == .d) (vkindOf o.ty)
    (fun w al _ => if VTy.isFloat o.ty then join 9 ((trees o w al).map fun t => t.1) else (intLane o w al 26).1)
    (fun w al => if al.isEmpty then Fl.none
      else if VTy.isFloat o.ty then Fl.all ((trees o w al).map fun t => t.2.2.1) else (intLane o w al 26).2))

/-- VSCAN (R435). -/
def execVscan (o : VRed) (s : State) : Out :=
  .next (crossWord (.vscan o) s o.d (o.ty == .d) (vkindOf o.ty)
    (fun w al l => if VTy.isFloat o.ty then join 9 ((trees o w al).map fun t => t.2.1 l) else (intLane o w al l).1)
    (fun w al => if al.isEmpty then Fl.none
      else if VTy.isFloat o.ty then Fl.all ((trees o w al).map fun t => t.2.2.2)
      else Fl.all (al.map fun l => (intLane o w al l).2)))

end Sys2Proof.Machine
end

