-- ==== Sys2Proof/Machine/Lines.lean ====
section
/-! DEFINITION. Machine/Lines.lean: what the lines of domain and host memory hold: packed lines and their logical lines (R65 to R67, R174),
the views of host memory (R45), places. -/

namespace Sys2Proof.Machine

open Sys2Proof Tern

/-! ### Lines and logical lines (R45, R65, R66, R174) -/

/-- A reserved format code (R65). -/
def reservedCode (c : Int) : Bool := decide (c > 11 ∨ c < -13)

/-- Element i of logical line j of a TRIPLE (R66). -/
def tripleElem (d : Store) (j i : Nat) : Int :=
  field (sget d (27 * j + i / 3)) (3 * (i % 3) + 2) (3 * (i % 3))

/-- The 81 trytes of a line of code c whose physical trytes (the head's, for a TRIPLE) are d. -/
def expandLine (c : Int) (d : Store) : Store :=
  if c = 7 then []
  else if c = 8 then ssets [] 0 ((upto 81).map fun i => sget d (i % 3))
  else if c = 9 ∨ c = 10 ∨ c = 11 then ssets [] 0 ((upto 81).map fun i => tripleElem d (c - 9).toNat i)
  else d

/-- A logical line of domain memory with its effective tag, or none for a tag fault (R65 to R67). -/
def Memory.logical (m : Memory) (pkg line : Int) : Option (Store × Tag) :=
  let t := m.tag pkg line
  if reservedCode t.code then none
  else if t.code = 10 ∨ t.code = 11 then
    let head := line - (t.code - 9)
    if head / 243 = line / 243 && (m.tag pkg head).code == 9 then some (expandLine t.code (m.line pkg head), m.tag pkg head) else none
  else if t.code = 9 ∧ (line + 2) / 243 ≠ line / 243 then none
  else some (expandLine t.code (m.line pkg line), t)

/-- Trytes o to o + n - 1 of a line's data as a value. -/
def unitOf (d : Store) (o n : Nat) : Int := join 9 (sgets d o n)

/-- A byte's five trits (R42); none for an invalid byte. -/
def byteTrits (b : Nat) : Option Int := if b ≤ 242 then some ((b : Int) - 121) else none
/-- The byte of five trits. -/
def tritsByte (g : Int) : Nat := (g + 121).toNat

/-- The line of host memory in a view: none when an invalid byte poisons it (R45). The host address of a place is the leaf's own address,
the same for every PASID: DESIGN CHOICE, R151 leaves the translation of PASID and address to the host (log entry 101). -/
def hostLine (m : Memory) (view base : Int) (k : Nat) : Option Store :=
  if view = 1 then
    let bs := (upto 146).map fun i => byteTrits (hostGet m.host (base.toNat + 146 * k + i))
    if bs.all Option.isSome then
      let v := join 5 (bs.map fun b => b.getD 0)
      if canon v 729 then some (ssets [] 0 (split 9 81 v)) else none
    else none
  else some (ssets [] 0 ((upto 81).map fun i => (hostGet m.host (base.toNat + 81 * k + i) : Int)))

/-- Write bytes of host memory from an address on. -/
def hostWrite (h : List Host.Cell) (a : Nat) : List Nat → List Host.Cell
  | [] => h
  | b :: r => hostWrite (hostSet h a b) (a + 1) r

/-- Write one tryte of host memory in a view (R45): a byte in the raw view; the line's bytes in the packed view. An invalid byte or a pad
trit of the packed line counts as zero trits and is rewritten valid: DESIGN CHOICE, R45 says that what a store leaves is always valid and not what
becomes of the rest of such a line (log entry 102). -/
def hostWriteTryte (m : Memory) (view base off : Int) (v : Int) : Memory :=
  if view = 1 then
    let k := (off / 81).toNat
    let bs := (upto 146).map fun i => (byteTrits (hostGet m.host (base.toNat + 146 * k + i))).getD 0
    let d := split 9 81 (join 5 bs)
    let d2 := d.set (off % 81).toNat v
    { m with host := hostWrite m.host (base.toNat + 146 * k) ((split 5 146 (join 9 d2)).map tritsByte) }
  else { m with host := hostSet m.host (base.toNat + off.toNat) (if 0 ≤ v ∧ v ≤ 255 then v.toNat else Config.rawByte v) }

/-- Write n trytes at a place. -/
def Memory.writeLoc (m : Memory) (l : Loc) (n : Nat) (v : Int) : Memory :=
  match l with
  | .dom p a => m.write p a n v
  | .host view base off =>
    (upto n).foldl (fun m (i : Nat) => hostWriteTryte m view base (off + i) ((split 9 n v).getD i 0)) m

/-- The package and line of a place; host lines are not homed in a slice. -/
def Loc.pkgLine : Loc → Int × Int
  | .dom p a => (p, a / 81)
  | .host _ _ _ => (999, 0)
/-- A place n trytes on, in the same page. -/
def Loc.plus : Loc → Int → Loc
  | .dom p a, i => .dom p (a + i)
  | .host v b o, i => .host v b (o + i)
/-- A place in host memory. -/
def Loc.isHost : Loc → Bool | .host _ _ _ => true | _ => false
/-- Its tryte within its line. -/
def Loc.offset : Loc → Int | .dom _ a => a % 81 | .host _ _ o => o % 81

/-- The start of a place's line. -/
def Loc.lineStart (l : Loc) : Loc := l.plus (-l.offset)

/-- What a read of n trytes at a place in one line finds: none for a tag fault, and whether the line is bad. -/
inductive LineRead
  | data (d : Store) (t : Tag)
  | reserved
  | bad
  deriving DecidableEq, Repr

def Memory.lineAt (m : Memory) (l : Loc) : LineRead :=
  match l with
  | .dom p a =>
    let line := a / 81
    let t := m.tag p line
    let head := line - (t.code - 9)
    let tail : Bool := decide (t.code = 10 ∨ t.code = 11)
    if m.bad p line then .bad
    else if tail && head / 243 != line / 243 then .reserved
    else if tail && m.bad p head then .bad
    else match m.logical p line with | some r => .data r.1 r.2 | none => .reserved
  | .host v b o => match hostLine m v b (o / 81).toNat with | some d => .data d Tag.plain | none => .bad

/-! ### Virtual addresses and page-table entries (R138, R139, R142) -/

/-- Canonical addresses (R138). -/
def canonicalAddr (a : Int) : Bool :=
  decide (-(19683 * ((pow3 30 - 1) / 2)) ≤ a ∧ a ≤ (pow3 39 - 1) / 2)
/-- The small page number, and the offset (R139). -/
def pageOf (a : Int) : Int := a / 19683
def offOf (a : Int) : Int := a % 19683

/-- Fields of a page-table entry (R142). -/
def pteKind (e : Int) : Int := field e 53 52
def pteTarget (e : Int) : Int := field e 51 50
def pteBit (e : Int) (i : Nat) : Int := trit e i
def ptePkg (e : Int) : Int := field e 35 30
def pteFrame (e : Int) : Int := field e 29 0

/-- The key of a small frame in the frame poison list (R292). -/
def frameKey (pkg frame : Int) : Nat := memKey pkg frame

end Sys2Proof.Machine
end

