-- ==== Sys2Proof/Machine/Windows.lean ====
section
/-! DEFINITION. Machine/Windows.lean: scratchpad allotments and stash windows as data (R154 to R162, R167), requests, the holders of a line and
its recall (R166, R179, R203). -/

namespace Sys2Proof.Machine

open Sys2Proof Tern

/-! ### Scratchpad -/

/-- Trytes of a gang's allotment (R154). -/
def Gang.trytes (g : Gang) : Int := 81 * g.alines * g.cores.length
/-- A range lies inside the allotment (R155). -/
def Gang.holds (g : Gang) (a n : Int) : Bool := decide (0 ≤ a ∧ a + n ≤ g.trytes)
/-- A scratchpad line's tag; PLAIN with scale 0 after placement (R156). -/
def Gang.tag (g : Gang) (line : Nat) : Tag := ((g.stags.find? fun p => p.1 == line).map fun p => p.2).getD Tag.plain
/-- Write a scratchpad line's tag. -/
def Gang.setTag (g : Gang) (line : Nat) (t : Tag) : Gang :=
  { g with stags := if t = Tag.plain then g.stags.filter fun p => p.1 != line
      else insertBy (fun a b => decide (a.1 < b.1)) (line, t) (g.stags.filter fun p => p.1 != line) }
/-- Read n trytes of the scratchpad as a value. -/
def Gang.read (g : Gang) (a : Int) (n : Nat) : Int := join 9 (sgets g.scratch a.toNat n)
/-- Write n trytes. -/
def Gang.write (g : Gang) (a : Int) (n : Nat) (v : Int) : Gang := { g with scratch := ssets g.scratch a.toNat (split 9 n v) }
/-- The 81 trytes of a scratchpad line. -/
def Gang.line (g : Gang) (line : Nat) : Store := sslice g.scratch (81 * line) 81
/-- Write a scratchpad line with its tag. -/
def Gang.setLine (g : Gang) (line : Nat) (d : Store) (t : Tag) : Gang :=
  { g.setTag line t with scratch := sblit g.scratch (81 * line) 81 (snorm 81 d) }

/-! ### Rows of the scratchpad code (R157, R158) -/

/-- The core that holds a gang's scratchpad line (R154). -/
def Gang.coreOfLine (g : Gang) (line : Nat) : Nat := g.cores.getD (if line < g.alines then 0 else 1) 0
/-- The row and the data bank of a tryte of a core's physical scratchpad (R157). -/
def rowNo (t : Nat) : Nat := t / 24
def dataBank (t : Nat) : Nat := t % 24
/-- A symbol that holds data or a check: all but banks 9 to 23 of the last row, which are held at zero (R157). -/
def symbolAt (row bank : Nat) : Bool :=
  decide (row ≤ 22143 ∧ bank < 27) && (decide (24 ≤ bank) || (upto 24).any fun i => decide (24 * row + i < 531441) && dataBank (24 * row + i) == bank)
/-- The tryte of its core's physical scratchpad that holds a tryte of a gang's allotment; which physical line holds a line of an allotment is left to
the device (free value; R157, log entry 118). -/
def Gang.physOf (g : Gang) (a : Int) : Nat := 81 * g.phys.getD (a / 81).toNat 0 + (a % 81).toNat
/-- The row that holds a tryte of a gang's allotment, with its core. -/
def Gang.rowOf (g : Gang) (a : Int) : Nat × Nat := (g.coreOfLine (a / 81).toNat, rowNo (g.physOf a))
/-- The rows of n trytes. -/
def Gang.rowsOf (g : Gang) (a : Int) (n : Nat) : List (Nat × Nat) := nodups ((upto n).map fun (i : Nat) => g.rowOf (a + (i : Int)))
/-- Some row of n trytes holds an error that cannot be corrected. -/
def Gang.rowsBad (g : Gang) (a : Int) (n : Nat) : Bool := !g.badRows.isEmpty && (g.rowsOf a n).any fun r => g.badRows.contains r
/-- An access to n trytes meets an uncorrectable line or row. -/
def Gang.unread (g : Gang) (a : Int) (n : Nat) : Bool := g.bad.contains (a / 81).toNat || g.rowsBad a n

/-- What a read of a scratchpad line finds: codes 7 to 11 expanded (R65, R174, R389). -/
def Gang.lineAt (g : Gang) (line : Nat) : LineRead :=
  let t := g.tag line
  let j := (t.code - 9).toNat
  if g.bad.contains line then .bad
  else if reservedCode t.code then .reserved
  else if t.code = 10 ∨ t.code = 11 then
    if line < j then .reserved
    else if g.bad.contains (line - j) then .bad
    else if (g.tag (line - j)).code ≠ 9 then .reserved
    else .data (expandLine t.code (g.line (line - j))) (g.tag (line - j))
  else .data (expandLine t.code (g.line line)) t

/-- What an engine's read of a whole scratchpad line finds (R158). -/
def Gang.readLine (g : Gang) (line : Nat) : LineRead :=
  let t := g.tag line
  let j := if t.code = 10 ∨ t.code = 11 then (t.code - 9).toNat else 0
  if g.rowsBad (81 * (line : Int)) 81 || g.rowsBad (81 * ((line - j : Nat) : Int)) 81 then .bad else g.lineAt line

/-- The 27 words of a scratchpad line as it is stored: a record (R160, R232, R252). -/
def Gang.record (g : Gang) (a : Int) : List Int := (upto 27).map fun (i : Nat) => g.read (a + 3 * i) 3

/-! ### Symbol errors and banks (R158) -/

/-- The symbols in error of a row that no failed bank makes an erasure. -/
def Core.errorsOf (c : Core) (row : Nat) : List (Nat × Nat) := c.symbols.filter fun x => x.1 == row && !c.banks.contains x.2
/-- A row whose errors and erasures the code cannot correct: one error beside one erasure, or three erasures, are what it can. -/
def Core.rowLost (c : Core) (row : Nat) : Bool := !(c.errorsOf row).isEmpty && decide (3 < 2 * (c.errorsOf row).length + c.banks.length)

/-- The gangs on a core note which rows of it are uncorrectable. -/
def noteRows (s : State) (core : Nat) : State :=
  let c := s.core core
  let rows := ((nodups (c.symbols.map fun x => x.1)).filter c.rowLost).map fun r => (core, r)
  { s with gangs := s.gangs.map fun g =>
      if !g.saved && g.cores.contains core then { g with badRows := g.badRows.filter (fun x => x.1 != core) ++ rows } else g }

/-- A bank is marked failed: an erasure on every later access, and an event (R158). -/
def markBank (s : State) (core bank : Nat) : State :=
  (noteRows (s.modCore core fun c => { c with banks := c.banks ++ [bank] }) core).note none .bankFailed [core, bank]

/-- A symbol of a core's scratchpad is in error (free value; R158, log entry 118). -/
def strike (s : State) : Option (Nat × Nat × Nat) → State
  | some (core, row, bank) =>
    if Config.cores ≤ core || !symbolAt row bank || (s.core core).symbols.contains (row, bank) then s
    else noteRows (s.modCore core fun c => { c with symbols := c.symbols ++ [(row, bank)] }) core
  | none => s

/-- A row is read: one symbol in error is corrected and the row rewritten, the counter counts it, and a bank that gives the errors of 27 consecutive
corrected reads is marked failed (R158). -/
def correctRow (s : State) (p : Nat × Nat) : State :=
  let c := s.core p.1
  match c.errorsOf p.2 with
  | [x] =>
    if c.rowLost p.2 then s
    else
      let n := (c.streaks.lookup x.2).getD 0 + 1
      let s1 := s.modCore p.1 fun c => { c with symbols := c.symbols.filter (fun y => y != x), corrected := c.corrected + 1, streaks := [(x.2, n)] }
      if n < 27 then s1 else markBank s1 p.1 x.2
  | _ => s

/-- The rows of some units of a gang's scratchpad are read, or written in part, which reads them (R157, R158). -/
def scrub (s : State) (gid : Nat) (us : List (Int × Nat)) : State :=
  match s.gang? gid with
  | none => s
  | some g =>
    if g.cores.all fun n => (s.core n).symbols.isEmpty then s
    else (nodups (us.flatMap fun u => g.rowsOf u.1 u.2)).foldl correctRow s

/-- The clearing of a new gang's allotment rewrites its rows (R156, R157). -/
def clearRows (s : State) (gid : Nat) : State :=
  match s.gang? gid with
  | none => s
  | some g =>
    if g.cores.all fun n => (s.core n).symbols.isEmpty then s
    else
      let rows := g.rowsOf 0 (81 * g.alines * g.cores.length)
      g.cores.foldl (fun s n => noteRows (s.modCore n fun c => { c with symbols := c.symbols.filter fun x => !rows.contains (n, x.1) }) n) s

/-! ### Windows -/

/-- Lines of a window (R160). -/
def Window.span (w : Window) : Nat := w.rows * w.lpr
/-- First scratchpad line. -/
def Window.first (w : Window) : Nat := (w.base / 81).toNat
/-- The global address of line j (R160). -/
def Window.boxAddr (w : Window) (j : Nat) : Int := w.gbase + ((j / w.lpr : Nat) : Int) * w.pitch + 81 * ((j % w.lpr : Nat) : Int)
/-- A line's entry; none when absent. -/
def Window.line? (w : Window) (j : Nat) : Option WLine := w.lines.find? fun x => x.j == j
def Window.stateOf (w : Window) (j : Nat) : LineState := match w.line? j with | some x => x.st | none => .absent
/-- Set or drop a line's entry. -/
def Window.put (w : Window) (x : WLine) : Window :=
  { w with lines := insertBy (fun a b => decide (a.j < b.j)) x (w.lines.filter fun y => y.j != x.j) }
def Window.drop (w : Window) (j : Nat) : Window := { w with lines := w.lines.filter fun y => y.j != j }
def Window.modLine (w : Window) (j : Nat) (f : WLine → WLine) : Window :=
  { w with lines := modFirst (fun y => y.j == j) f w.lines }

/-- The window k of a gang. -/
def Gang.win? (g : Gang) (k : Nat) : Option Window := (g.wins.getD k none)
def Gang.modWin (g : Gang) (k : Nat) (f : Window → Window) : Gang :=
  { g with wins := modIdx (fun i x => if i = k then x.map f else x) 0 g.wins }

/-- The window and line that hold a scratchpad line; a window under release holds none (R167). -/
def Gang.winAt (g : Gang) (line : Nat) : Option (Nat × Nat) :=
  let hits := (upto g.wins.length).filterMap fun k => match g.win? k with
    | some w => if !w.releasing && decide (w.first ≤ line ∧ line < w.first + w.span) then some (k, line - w.first) else none
    | none => none
  hits.head?

/-- A scratchpad address lies in a bound window (R172). -/
def Gang.inWindow (g : Gang) (a : Int) : Bool := (g.winAt (a / 81).toNat).isSome

/-! ### Requests -/

/-- Send a request; it takes the next name. -/
def State.send (s : State) (src ctx wid : Nat) (pkg line : Int) (b : ReqBody) (sc : Option ScKey) : State :=
  { s with reqs := s.reqs ++ [⟨s.nextId, src, ctx, wid, pkg, line, b, sc, 0, s.now, []⟩], nextId := s.nextId + 1 }

/-! ### Slices and their entries (R177 to R182) -/

/-- The next slice of a stack (R177). -/
def nextSlice (x : Nat) : Nat := 16 * (x / 16) + (x + 1) % 16
/-- The live slice that a share has passed to. -/
def liveSlice (dead : Nat → Bool) : Nat → Nat → Nat
  | 0, x => x
  | n + 1, x => if dead x then liveSlice dead n (nextSlice x) else x
/-- The pseudo-channel of a line within its slice. -/
def lineChannel (line : Int) : Nat := (line / 256 % 4).toNat
/-- The home slice of a line of this package: the share of a fenced slice, or of a fenced pseudo-channel, has passed on (R177, R291). -/
def homeSlice (s : State) (line : Int) : Nat :=
  liveSlice (fun x => s.pkg.deadSlices.contains x || s.pkg.deadPcs.contains (4 * x + lineChannel line)) 16 (line % 256).toNat

/-- Two lines stand in one set of one slice. -/
def sameSet (s : State) (a b : Int) : Bool := homeSlice s a == homeSlice s b && a / 256 % 4096 == b / 256 % 4096

/-- A line held in a slice. -/
def State.heldLine? (s : State) (pkg line : Int) : Option HeldLine := s.home.held.find? fun h => h.pkg == pkg && h.line == line
def State.modHeld (s : State) (pkg line : Int) (f : HeldLine → HeldLine) : State :=
  { s with home := { s.home with held := modFirst (fun h => h.pkg == pkg && h.line == line) f s.home.held } }

/-- An agent other than the line's holders owns it (R179, R204). -/
def engineOwned (s : State) (pkg line : Int) : Bool := s.home.owned.any fun o => o.pkg == pkg && o.line == line
/-- Write-back entries in use in the slice of a line (R181). -/
def backLoad (s : State) (pkg line : Int) : Nat :=
  (s.reqs.filter fun r => r.pkg == pkg && homeSlice s r.line == homeSlice s line && (match r.body with | .evict _ => true | _ => false)).length

/-- A request of a multicast entry, which is an entry of its own (R182). -/
def ReqBody.isMcast : ReqBody → Bool | .mcast _ _ _ _ => true | _ => false
/-- Requests in the miss entry of a line. -/
def missing (s : State) (pkg line : Int) : List Req :=
  s.reqs.filter fun r => r.stage == 1 && r.pkg == pkg && r.line == line && !r.body.isMcast
/-- Lines with an open miss entry, and multicast entries, in the slice of a line (R180, R182). -/
def missLoad (s : State) (pkg line : Int) : Nat :=
  (nodups ((s.reqs.filter fun r => r.stage == 1 && r.pkg == pkg && homeSlice s r.line == homeSlice s line &&
    !r.body.isMcast).map fun r => r.line)).length +
  (s.home.mcasts.filter fun e => e.pkg == pkg && homeSlice s e.line == homeSlice s line).length

/-- The package and line of a line key. -/
def keyLine (k : Nat) : Int × Int := (((k / 2541865828329 : Nat) : Int) - 364, ((k % 2541865828329 : Nat) : Int))

/-- Deduplicate a written-back line: it maps to an equal shared copy of its slice with room in its count, else it becomes
one (R190). -/
def dedupLine (s : State) (pkg line : Int) : State :=
  let me := lineKey pkg line
  let same (q : Nat × Nat) : Bool :=
    let p := keyLine q.1
    p.1 == pkg && homeSlice s p.2 == homeSlice s line && s.mem.line pkg p.2 == s.mem.line pkg line && s.mem.tag pkg p.2 == s.mem.tag pkg line &&
      decide ((s.home.dedup.filter fun d => d.2 == q.2).length < 9841)
  let sh := ((s.home.dedup.find? same).map fun q => q.2).getD me
  { s with home := { s.home with dedup := s.home.dedup ++ [(me, sh)] } }

/-! ### Holders (R179) -/

/-- The cores and lines of windows that hold a global line: filled, or with sectors on their way (R179). -/
def holders (s : State) (pkg line : Int) : List (Nat × Nat × WLine) :=
  s.gangs.flatMap fun g => (upto g.wins.length).flatMap fun k => match g.win? k with
    | none => []
    | some w => (w.lines.filter fun x => x.loc.pkgLine == (pkg, line) && !x.loc.isHost &&
        (x.st == .present || x.st == .dirty ||
          (x.st == .filling && s.reqs.any fun r => match r.body with
            | .sectors gi ki ji _ _ _ _ => gi == g.gid && ki == k && ji == x.j
            | .mcopy gi ki ji _ _ _ _ => gi == g.gid && ki == k && ji == x.j
            | _ => false))).map fun x => (g.gid, k, x)

/-- Send the recalls that an access needs: for ownership every holder, for reading the dirty ones; the requester's own
window line apart. -/
def sendRecalls (s : State) (pkg line : Int) (own : Bool) (except : Option (Nat × Nat × Nat)) : State :=
  let hs := (holders s pkg line).filter fun h => (own || h.2.2.st == .dirty) && some (h.1, h.2.1, h.2.2.j) != except
  let todo := hs.filter fun h => !(s.reqs.any fun q => match q.body with
    | .recall g k j o => g == h.1 && k == h.2.1 && j == h.2.2.j && (o || !own)
    | _ => false)
  todo.foldl (fun s h => s.send 800 0 0 pkg line (.recall h.1 h.2.1 h.2.2.j own) none) s

end Sys2Proof.Machine
end

