-- ==== Sys2Proof/Machine/Translate.lean ====
section
/-! DEFINITION. Machine/Translate.lean: virtual addresses, page tables, the walk, its node cache, the TLB, ATS and the checks of
R146 (R138 to R151). -/

namespace Sys2Proof.Machine

open Sys2Proof Tern

/-- The first device-reserved line of a package (R329): another package's is its own (free value; log entry 137). -/
def boundaryOf (s : State) (pkg : Int) : Int :=
  if pkg = s.pkg.number then s.pkg.boundary else (Config.memoryLines - Config.peerReserved pkg % Config.memoryLines : Nat)

/-- A domain leaf's frames lie in the memory of the named package, below its reserved boundary (R143, R329). -/
def frameOk (s : State) (pkg frame : Int) (lv : Nat) : Bool :=
  let half := maxv (6 * lv)
  decide (0 ≤ frame - half ∧ 243 * (frame + half + 1) ≤ boundaryOf s pkg)

/-- The next node of a table entry lies in the package's memory, below the reserved boundary: 729 entries of 6 trytes are 54 lines (R143,
R145, R329). -/
def nodeOk (s : State) (node : Int) : Bool := decide (0 ≤ node ∧ node + 54 ≤ s.pkg.boundary)

/-- A bad entry at a level (R143). -/
def badEntry (s : State) (lv : Nat) (e : Int) : Bool :=
  let k := pteKind e
  let t := pteTarget e
  let bits := [49, 48, 47, 46, 45, 44, 43].map fun i => pteBit e i
  (k != 1 && k != -1) || bits.any (fun b => b == -1) || field e 42 36 != 0 ||
  (if k = -1 then
      t != 0 || bits.any (fun b => b != 0) || lv == 0 || ptePkg e != s.pkg.number || !nodeOk s (pteFrame e)
    else
      decide (lv ≥ 3) || (t != 0 && t != 1 && t != -1) ||
      (if t = 0 then narrow (pteFrame e) (6 * lv) != 0 || !frameOk s (ptePkg e) (pteFrame e) lv
       else lv != 0 || decide (pteFrame e < 0) || ptePkg e != 0))

/-- The walk from a level's node (R144): the failing check's detail, −1 at a table line that is uncorrectable (R44), or the leaf with
its level and place. -/
def walkFrom (s : State) (n : Int) : Nat → Int → Except Int (Int × Nat × Int)
  | lv, node =>
    let a := node + 6 * (field n (6 * lv + 5) (6 * lv) + 364)
    let e := s.mem.read s.pkg.number a 6
    if s.mem.bad s.pkg.number (a / 81) then .error (-1)
    else if pteKind e = 0 then .error 4
    else if badEntry s lv e then .error 5
    else if pteKind e = 1 then .ok (e, lv, a)
    else match lv with
      | 0 => .error 5
      | lv' + 1 => walkFrom s n lv' (81 * pteFrame e)

/-- The root of a half (R141): +1 user, -1 supervisor. -/
def rootOf (s : State) (ctx : Nat) (half : Int) : Int := wordAt (s.descOf ctx) (if half = 1 then 0 else 1)

/-- The half of a page number. -/
def halfOf (n : Int) : Int := if 0 < n then 1 else -1

/-- The place that a leaf gives an address (R144). -/
def placeOf (e : Int) (lv : Nat) (a : Int) : Loc :=
  let n := pageOf a
  if pteTarget e = 0 then .dom (ptePkg e) (19683 * (pteFrame e + narrow n (6 * lv)) + offOf a)
  else .host (pteTarget e) (4096 * pteFrame e) (offOf a)

/-! ### Recalls made whole within one step (R166, R179 to R181, R203, R266) -/

/-- A whole line written at its home: its error and its share of a de-duplicated copy are gone (R181, R190; log entry 40), and the slice holds
nothing of it that is newer; local line 0 is the device's own (R268). -/
def homeWrite (s : State) (pkg line : Int) (d : Store) (t : Tag) : State :=
  if line = 0 then s
  else
    let m := (s.mem.setLine pkg line d).setTag pkg line t
    { s with mem := { m with poison := m.poison.filter fun k => k != lineKey pkg line },
             home := { s.home with dedup := s.home.dedup.filter (fun q => q.1 != lineKey pkg line),
                                   held := modFirst (fun h => h.pkg == pkg && h.line == line) (fun h => { h with dirty := false, dedup := false }) s.home.held } }

/-- A line as its core sends it home: bad when a row of it could not be read, which makes the line uncorrectable at its home (R158; DESIGN CHOICE,
log entry 133). -/
def homeTake (s : State) (pkg line : Int) (d : Store) (t : Tag) (bad : Bool) : State :=
  let s1 := homeWrite s pkg line d t
  if bad && line != 0 then s1.modMem fun m => { m with poison := m.poison ++ [lineKey pkg line] } else s1

/-- A written-back line goes to HBM4 within the step: it needs a free write-back entry for that time (R181), and is de-duplicated then (R190). -/
def throughEntry (s : State) (pkg line : Int) (dedup : Bool) : State :=
  if 27 ≤ backLoad s pkg line then s.bar else if dedup && line != 0 then dedupLine s pkg line else s

/-- Write one sector of a line into the scratchpad. -/
def Gang.landSector (g : Gang) (line sector : Nat) (d : Store) : Gang :=
  { g with scratch := sblit g.scratch (81 * line + 27 * sector) 27 (snorm 27 (sslice d (27 * sector) 27)) }

/-- A write-back or recall answer on its way, written at its home. -/
def landBack (s : State) (r : Req) : State :=
  match r.body with
  | .wback at_ d t pin dedup true bad =>
    let s1 := match at_ with
      | .dom p a => throughEntry (homeTake s p (a / 81) d t bad) p (a / 81) dedup
      | .host _ _ _ => s
    s1.modReq r.id fun r => { r with body := .wback at_ d t pin dedup false false }
  | _ => s

/-- A window copy leaves its core: a dirty one is written at its home; own drops the copy. -/
def putHome (own : Bool) (s : State) (h : Nat × Nat × WLine) : State :=
  match s.gang? h.1 with
  | none => s
  | some g => match g.win? h.2.1 with
    | none => s
    | some w =>
      let q := h.2.2.loc.pkgLine
      let line := w.first + h.2.2.j
      let s1 := if h.2.2.st = .dirty then
          throughEntry (homeTake (scrub s h.1 [(81 * (line : Int), 81)]) q.1 q.2 (g.line line) (g.tag line) (g.unread (81 * (line : Int)) 81)) q.1 q.2
            (pteBit h.2.2.leaf.val 46 == 1)
        else s
      s1.modGang h.1 fun g => g.modWin h.2.1 fun w => if own then w.drop h.2.2.j else w.modLine h.2.2.j fun x => { x with st := .present, owned := false }

/-- After a write within one step, fills of the line that are on their way carry the new data: they count as served after the write. -/
def refreshFills (s : State) (pkg line : Int) : State :=
  let d := s.mem.line pkg line
  let t := s.mem.tag pkg line
  let bad := s.mem.bad pkg line
  let relay (s : State) (g k j n : Nat) : State :=
    s.modGang g fun x => match x.win? k with
      | some w => (upto n).foldl (fun x i => x.landSector (w.first + j) i d) x
      | none => x
  (s.reqs.filter fun r => r.pkg == pkg && r.line == line).foldl (fun s r => match r.body with
    | .sectors g k j _ _ n _ => (relay s g k j n).modReq r.id fun r => { r with body := .sectors g k j d t n bad }
    | .mcopy g k j _ _ n _ => (relay s g k j n).modReq r.id fun r => { r with body := .mcopy g k j d t n bad }
    | _ => s) s

/-- Write n trytes of the package's own memory at their home, every copy of the line having been recalled; local line 0 takes no such write
(R190, R203, R268). -/
def homePut (s : State) (addr : Int) (n : Nat) (v : Int) : State :=
  let pkg := s.pkg.number
  if addr / 81 = 0 then s
  else
    refreshFills { s with mem := s.mem.write pkg addr n v,
                          home := { s.home with dedup := s.home.dedup.filter fun q => q.1 != lineKey pkg (addr / 81) } } pkg (addr / 81)

/-- Have a line's newest data written at its home, each copy by f: what is on its way, then the dirty copies, for own the clean ones too. A line
that an engine owns is awaited (R179, R204). -/
def pull (f : State → Nat × Nat × WLine → State) (s : State) (pkg line : Int) (own : Bool) : State :=
  let s0 := if engineOwned s pkg line then s.bar else s
  let s1 := (s0.reqs.filter fun r => r.pkg == pkg && r.line == line).foldl landBack s0
  ((holders s1 pkg line).filter fun h => h.2.2.st == .dirty || (own && h.2.2.st == .present)).foldl f s1

/-- The lines on the way of a walk below a node, each brought home by rc. -/
def walkVia (rc : State → Int → State) (s : State) (n : Int) : Nat → Int → State
  | lv, node =>
    let a := node + 6 * (field n (6 * lv + 5) (6 * lv) + 364)
    let s1 := rc s (a / 81)
    let e := s1.mem.read s1.pkg.number a 6
    match lv with
    | 0 => s1
    | lv' + 1 => if pteKind e = -1 && !badEntry s1 lv e then walkVia rc s1 n lv' (81 * pteFrame e) else s1

/-- Set the dirty trit of the page of a window line that goes home, in the entry by which it was filled; an entry that has changed since is
walked again, and marked when it still gives the line's place (R149). rc brings a line home and drops its copies. -/
def markCopy (rc : State → Int → State) (s : State) (h : Nat × Nat × WLine) : State :=
  let f := h.2.2.leaf
  let s1 := rc s (f.place / 81)
  if s1.mem.read s1.pkg.number f.place 6 == f.val then homePut s1 f.place 6 (f.val + pow3 44)
  else match s1.gang? h.1 with
    | none => s1
    | some g => match g.win? h.2.1 with
      | none => s1
      | some w =>
        let a := w.boxAddr h.2.2.j
        let root := 81 * rootOf s1 g.ctx (halfOf (pageOf a))
        let s2 := walkVia rc s1 (pageOf a) 4 root
        match walkFrom s2 (pageOf a) 4 root with
        | .ok (e, lv, p) => if placeOf e lv a = h.2.2.loc && pteBit e 44 == 0 then homePut s2 p 6 (e + pow3 44) else s2
        | .error _ => s2

/-- A window copy leaves its core; the dirty trit of its page is set before a dirty one does (R149), in an entry that is itself brought home
first, up to the given depth of such entries. -/
def bringHome : Nat → Bool → State → Nat × Nat × WLine → State
  | 0, own, s, h => putHome own s h
  | n + 1, own, s, h =>
    if h.2.2.st = .dirty ∧ 0 ≤ h.2.2.leaf.place ∧ pteBit h.2.2.leaf.val 44 = 0 then
      putHome own (markCopy (fun s l => pull (bringHome n true) s s.pkg.number l true) s h) h
    else putHome own s h

/-! ### Lines read from HBM4 (R43, R44, R180, R190, R292) -/

/-- Drop the TLB entries for a small frame (R292). -/
def dropFrame (s : State) (pkg frame : Int) : State :=
  let hit (t : Tlb) : Bool := pteTarget t.leaf == 0 && ptePkg t.leaf == pkg &&
    decide (pteFrame t.leaf - maxv (6 * t.level) ≤ frame ∧ frame ≤ pteFrame t.leaf + maxv (6 * t.level))
  { s with cores := s.cores.map fun c => { c with tlb := c.tlb.filter fun t => !hit t } }

/-- List frames as poisoned and drop the translations to them (R292). -/
def poisonFrames (s : State) (pkg : Int) (fs : List Int) : State :=
  fs.foldl (fun s f => dropFrame s pkg f) (s.modMem fun m => { m with frames := nodups (m.frames ++ fs.map (frameKey pkg)) })

/-- The lines that map to the shared copy of a line, by key (R190). -/
def sharers (s : State) (k : Nat) : List Nat := match s.home.dedup.lookup k with
  | some c => (s.home.dedup.filter fun d => d.2 == c).map fun d => d.1
  | none => []

/-- Lose lines: they are uncorrectable, with every line that maps to their shared copy, their frames are listed as poisoned, and translations to
them are dropped (R190, R292). -/
def loseLines (s : State) (pkg : Int) (ls : List Int) : State :=
  let ks := nodups (ls.map (lineKey pkg) ++ (ls.map (lineKey pkg)).flatMap (sharers s))
  let s1 := s.modMem fun m => { m with poison := nodups (m.poison ++ ks) }
  poisonFrames s1 pkg (nodups (ks.map fun (k : Nat) => (((k - lineKey pkg 0 : Nat) : Int)) / 243))

/-- The image of a line, as it is read from HBM4, has more than one erroneous byte, or an invalid byte or pad trit (R43, R44). -/
def imageFault (s : State) (pkg line : Int) : Bool := !s.mem.bad pkg line && decide (2 ≤ Config.imageErrors s.nextId (lineKey pkg line))
/-- Poison a line whose image has failed (R44); an error in a shared copy is in every line that maps to it, and poisons their pages (R190). -/
def poisonImage (s : State) (pkg line : Int) : State :=
  if (s.home.dedup.lookup (lineKey pkg line)).isSome then loseLines s pkg [line]
  else { s with mem := { s.mem with poison := s.mem.poison ++ [lineKey pkg line] } }
/-- A line of which the slice holds nothing is read from HBM4 within the step: through a miss entry, one that is open or a free one (R180), and with
the checks of its image (R44). -/
def readHome (s : State) (pkg line : Int) : State :=
  if pkg = 999 || (s.heldLine? pkg line).isSome then s
  else
    let s1 := if (missing s pkg line).isEmpty && decide (81 ≤ missLoad s pkg line) then s.bar else s
    if imageFault s1 pkg line then poisonImage s1 pkg line else s1

/-- Bring the newest data of a line home, and read it there; own drops every copy that has landed. -/
def recallNow (s : State) (pkg line : Int) (own : Bool) : State := readHome (pull (bringHome 2 own) s pkg line own) pkg line

/-- The device writes n trytes of a line of its own memory within one step: every copy is brought home and dropped first; local line 0 takes no
such write (R203, R268). -/
def deviceWrite (s : State) (addr : Int) (n : Nat) (v : Int) : State :=
  if addr / 81 = 0 then s else homePut (recallNow s s.pkg.number (addr / 81) true) addr n v

/-- A TLB entry that holds page n. -/
def tlbFind (c : Core) (ctx : Nat) (n : Int) : Option Tlb :=
  c.tlb.find? fun t => t.ctx == ctx && t.half == halfOf n && t.page == shr n (6 * t.level)

/-- Set a trit of a stored entry that is 0, as one update at the entry's home slice (R149). -/
def setPteBit (s : State) (a : Int) (i : Nat) : State :=
  let s1 := recallNow s s.pkg.number (a / 81) true
  let e := s1.mem.read s1.pkg.number a 6
  if pteBit e i = 0 then homePut s1 a 6 (e + pow3 i) else s1

/-- Load a leaf into a core's TLB; into a full one in place of a free choice (R148). -/
def loadTlb (s : State) (core : Nat) (t : Tlb) : State :=
  let s1 := s.modCore core fun c =>
    { c with tlb := (if c.tlb.length < 729 then c.tlb else c.tlb.eraseIdx (Config.tlbVictim s.fresh % 729)) ++ [t] }
  { s1 with fresh := s1.fresh + 1 }

/-- Any small frame of a leaf is on the poison list. -/
def leafListed (s : State) (e : Int) (lv : Nat) : Bool :=
  let half := maxv (6 * lv)
  s.mem.frames.any fun k => decide (frameKey (ptePkg e) (pteFrame e - half) ≤ k ∧ k ≤ frameKey (ptePkg e) (pteFrame e + half))

/-- The table lines on the way of a walk are read at their homes: a dirty copy in a window is recalled for reading first, and a line that an
engine owns is awaited (R148, R179). -/
def walkRecall (s : State) (n : Int) : Nat → Int → State := walkVia (fun s l => recallNow s s.pkg.number l false) s n

/-- The nodes below the first that a walk goes through: level and place. -/
def walkNodes (s : State) (n : Int) : Nat → Int → List (Nat × Int)
  | lv, node =>
    let e := s.mem.read s.pkg.number (node + 6 * (field n (6 * lv + 5) (6 * lv) + 364)) 6
    match lv with
    | 0 => []
    | lv' + 1 => if pteKind e = -1 && !badEntry s lv e then (lv', 81 * pteFrame e) :: walkNodes s n lv' (81 * pteFrame e) else []

/-- A walk from the root by the device itself, of pages that no core asks for. -/
def coldWalk (s : State) (ctx : Nat) (n : Int) : State × Except Int (Int × Nat × Int) :=
  let root := 81 * rootOf s ctx (halfOf n)
  let s1 := walkRecall s n 4 root
  (s1, walkFrom s1 n 4 root)

/-- The die of a source of requests: a core's C-die, or a sequencer's M-die as 12 + m (R14, R148). -/
def srcDie (core : Nat) : Nat := if core < 768 then core / 64 else if core < 774 then 12 else 13 + (core - 774) / 7

/-- A cached node leads to a page. -/
def NodeEntry.leads (x : NodeEntry) (die ctx : Nat) (n : Int) : Bool :=
  x.die == die && x.ctx == ctx && x.half == halfOf n && x.page == shr n (6 * (x.level + 1))

/-- Where a walk starts: at the lowest node on its way that the die's node cache holds, else at the root (R148). -/
def walkStart (s : State) (die ctx : Nat) (n : Int) : Nat × Int :=
  (s.nodes.filter fun x => x.leads die ctx n).foldl (fun m x => if x.level < m.1 then (x.level, x.node) else m) (4, 81 * rootOf s ctx (halfOf n))

/-- Keep a node in the cache of a die, into a full one in place of a free choice (R148). -/
def keepNode (die ctx : Nat) (n : Int) (s : State) (p : Nat × Int) : State :=
  let x : NodeEntry := ⟨die, ctx, halfOf n, p.1, shr n (6 * (p.1 + 1)), p.2⟩
  let mine := s.nodes.filter fun y => y.die == die
  if s.nodes.any fun y => y.leads die ctx n && y.level == p.1 then s
  else if mine.length < 729 then { s with nodes := s.nodes ++ [x] }
  else { s with nodes := (s.nodes.filter fun y => some y != mine[Config.nodeVictim s.fresh % 729]?) ++ [x], fresh := s.fresh + 1 }

/-- The walker (R144, R148, R149, R292): walk, set the accessed trit, and the poisoned trit of a listed frame, load the leaf, and keep the
nodes on the way. -/
def walk (s : State) (core ctx : Nat) (n : Int) : State × Except Int (Int × Nat × Int) :=
  let st := walkStart s (srcDie core) ctx n
  let s0 := walkRecall s n st.1 st.2
  match walkFrom s0 n st.1 st.2 with
  | .error d => (s0, .error d)
  | .ok (e, lv, a) =>
    let s1 := setPteBit s0 a 45
    let s2 := if pteTarget e = 0 && leafListed s e lv then setPteBit s1 a 43 else s1
    let e2 := s2.mem.read s2.pkg.number a 6
    let s3 := loadTlb s2 core ⟨ctx, halfOf n, lv, shr n (6 * lv), e2, a⟩
    ((walkNodes s0 n st.1 st.2).foldl (keepNode (srcDie core) ctx n) s3, .ok (e2, lv, a))

/-- The leaf of a page: from the TLB, or by a walk. -/
def leafFor (s : State) (core ctx : Nat) (n : Int) : State × Except Int (Int × Nat × Int) :=
  match tlbFind (s.core core) ctx n with
  | some t => (s, .ok (t.leaf, t.level, t.entry))
  | none => walk s core ctx n

/-- Drop the TLB entry of a page in a core. -/
def forget (s : State) (core ctx : Nat) (n : Int) : State :=
  s.modCore core fun c => { c with tlb := c.tlb.filter fun t => !(t.ctx == ctx && t.half == halfOf n && t.page == shr n (6 * t.level)) }

/-- The leaf for a write: an entry that has changed since a clean leaf was read is walked again, so that the dirty trit is set in the entry
that the write uses (R149). -/
def leafForWrite (s : State) (core ctx : Nat) (n : Int) : State × Except Int (Int × Nat × Int) :=
  match tlbFind (s.core core) ctx n with
  | some t =>
    let s1 := if pteBit t.leaf 44 = 1 then s else recallNow s s.pkg.number (t.entry / 81) false
    if pteBit t.leaf 44 = 1 || s1.mem.read s1.pkg.number t.entry 6 == t.leaf then (s1, .ok (t.leaf, t.level, t.entry))
    else walk (forget s1 core ctx n) core ctx n
  | none => walk s core ctx n

/-- The leaf of a checked address, as a later write through it needs it (R149). -/
def leafOf (s : State) (core ctx : Nat) (a : Int) : Leaf :=
  match (leafFor s core ctx (a / 19683)).2 with
  | .ok (e, _, p) => ⟨e, p⟩
  | .error _ => ⟨0, -1⟩

/-- The leaf that gives an address a place already known, as a later write there needs it (R149). -/
def leafThere (s : State) (core ctx : Nat) (a : Int) (loc : Loc) : Leaf :=
  match (leafFor s core ctx (pageOf a)).2 with
  | .ok (e, lv, p) => if placeOf e lv a = loc then ⟨e, p⟩ else ⟨0, -1⟩
  | .error _ => ⟨0, -1⟩

/-- Permissions an access needs (R142, R146). -/
structure Need where
  (r w x atomic : Bool)
  deriving DecidableEq, Repr
def Need.read : Need := ⟨true, false, false, false⟩
def Need.write : Need := ⟨false, true, false, false⟩
def Need.both : Need := ⟨true, true, false, false⟩
def Need.rmw : Need := ⟨true, true, false, true⟩
def Need.exec : Need := ⟨false, false, true, false⟩
def Need.none : Need := ⟨false, false, false, false⟩

/-- What the checks of R146 find: the place, a detail, or UNCOR. -/
inductive Chk
  | ok (loc : Loc)
  | fail (detail : Int)
  | uncor
  deriving DecidableEq, Repr

/-- ATS refuses a context's host frame: the M-dies' cache holds no translation of it, and the host gives none (R146 check 9, R151). -/
def atsRefused (s : State) (ctx : Nat) (frame : Int) : Bool :=
  let p := wordAt (s.descOf ctx) 2
  !s.ats.contains ⟨p, frame⟩ && Config.atsRefuses s.fresh p frame

/-- Keep the ATS translation of a host leaf that has passed (R151). -/
def keepAts (s : State) (ctx : Nat) (e : Int) : State :=
  let x : AtsEntry := ⟨wordAt (s.descOf ctx) 2, pteFrame e⟩
  if pteTarget e = 0 || s.ats.contains x then s else { s with ats := s.ats ++ [x] }

/-- The checks of a leaf, 6 to 9 and 11 (R146, R325, R334). poison: check 11 applies. -/
def leafChk (s : State) (ctx : Nat) (nd : Need) (e : Int) (lv : Nat) (a : Int) (poison : Bool) : Chk :=
  if nd.r && pteBit e 49 != 1 then .fail 6
  else if nd.w && pteBit e 48 != 1 then .fail 7
  else if nd.atomic && pteTarget e != 0 then .fail 7
  else if nd.x && pteBit e 47 != 1 then .fail 8
  else if pteTarget e != 0 && atsRefused s ctx (pteFrame e) then .fail 9
  else
    let loc := placeOf e lv a
    let listed := match loc with
      | .dom p x => s.mem.frames.contains (frameKey p (x / 19683)) || s.pkg.deadPeers.contains p
      | .host _ _ _ => false
    if poison && (pteBit e 43 == 1 || listed) then .uncor else .ok loc

/-- The checks of R146 on one address: check 10 stands with the stores. core gives the TLB; sup the level. -/
def checkAddr (s : State) (core ctx : Nat) (sup : Bool) (nd : Need) (poison : Bool) (a : Int) : State × Chk :=
  if !canonicalAddr a then (s, .fail 1)
  else if pageOf a = 0 then (s, .fail 2)
  else if pageOf a < 0 && !sup then (s, .fail 3)
  else
    let r := if nd.w then leafForWrite s core ctx (pageOf a) else leafFor s core ctx (pageOf a)
    match r.2 with
    | .error d => (r.1, if d = -1 then .uncor else .fail d)
    | .ok (e, lv, _) =>
      let c := leafChk r.1 ctx nd e lv a poison
      (match c with | .fail _ => r.1 | _ => keepAts r.1 ctx e, c)

/-- Check a list of addresses, threading the TLB. -/
def checkAddrs (s : State) (core ctx : Nat) (sup : Bool) (nd : Need) (poison : Bool) : List Int → State × List (Int × Chk)
  | [] => (s, [])
  | a :: r =>
    let p := checkAddr s core ctx sup nd poison a
    let q := checkAddrs p.1 core ctx sup nd poison r
    (q.1, (a, p.2) :: q.2)

/-- Set the dirty trit of a leaf as it was read, in its entry and in the core's TLB (R149). -/
def markDirty (s : State) (core : Nat) (place e : Int) : State :=
  if pteBit e 44 = 1 then s
  else (setPteBit s place 44).modCore core fun c =>
    { c with tlb := c.tlb.map fun x => if x.entry = place ∧ x.leaf = e then { x with leaf := e + pow3 44 } else x }

/-- Set the dirty trit of a page before a write through one leaf of it leaves, as one update of the entry that the write uses: an entry that has
changed since is walked again, and is marked when it still gives the same place (R149). -/
def markLeaf (s : State) (core ctx : Nat) (a : Int) (f : Leaf) (loc : Loc) : State :=
  if pteBit f.val 44 = 1 then s
  else
    let s1 := recallNow s s.pkg.number (f.place / 81) true
    if s1.mem.read s1.pkg.number f.place 6 == f.val then markDirty s1 core f.place f.val
    else
      let r := walk (forget s1 core ctx (pageOf a)) core ctx (pageOf a)
      match r.2 with
      | .ok (e, lv, p) => if placeOf e lv a = loc then markDirty r.1 core p e else r.1
      | .error _ => r.1

/-- The same through a walk of the device's own, of a page that no TLB holds. -/
def markWalk (s : State) (ctx : Nat) (a : Int) (loc : Loc) : State :=
  let r := coldWalk s ctx (pageOf a)
  match r.2 with
  | .ok (e, lv, p) => if placeOf e lv a = loc then setPteBit r.1 p 44 else r.1
  | .error _ => r.1

/-- Set the dirty trit of the page of an address that has been checked, before the first write there leaves: by the TLB's leaf, else by a new
walk (R149). -/
def setDirty (s : State) (core ctx : Nat) (a : Int) (loc : Loc) : State :=
  match tlbFind (s.core core) ctx (pageOf a) with
  | some t => markLeaf s core ctx a ⟨t.leaf, t.entry⟩ loc
  | none => markWalk s ctx a loc

/-- Set the dirty trit for a write whose address was translated earlier, by the leaf kept with it (R149). -/
def setLeafDirty (s : State) (core ctx : Nat) (a : Int) (f : Leaf) (loc : Loc) : State :=
  if f.place < 0 then s else markLeaf s core ctx a f loc

/-- A group of 3^t pages, by its number, meets a page range. -/
def groupMeets (page : Int) (t : Nat) (first count : Int) : Bool :=
  decide (page * pow3 t - maxv t < first + count ∧ first ≤ page * pow3 t + maxv t)

/-- Drop the translations of a context, half and page range (R150): every leaf that covers a page of the range in a TLB, every node on the way
to one in a node cache, and what ATS has given the context's PASID. -/
def dropTlb (s : State) (ctx : Nat) (half first count : Int) : State :=
  { s with
    nodes := s.nodes.filter fun x => !(x.ctx == ctx && x.half == half && groupMeets x.page (6 * (x.level + 1)) first count),
    ats := s.ats.filter fun x => x.pasid != wordAt (s.descOf ctx) 2,
    cores := s.cores.map fun c => { c with tlb := c.tlb.filter fun t =>
      !(t.ctx == ctx && t.half == half && groupMeets t.page (6 * t.level) first count) } }

end Sys2Proof.Machine
end

