-- ==== Sys2Proof/Machine/Scratch.lean ====
section
/-! DEFINITION. Machine/Scratch.lean: scratchpad allotments, transaction barriers and stash windows (R154 to R173). -/

namespace Sys2Proof.Machine

open Sys2Proof Tern

/-! ### Transaction barriers (R170 to R172) -/

/-- A transaction barrier: in a gang's scratchpad, or in global memory. -/
inductive TbLoc
  | scr (gid : Nat) (a : Int)
  | glob (pkg a : Int)
  deriving DecidableEq, Repr

/-- The three words. -/
structure Tb where
  (w0 w1 w2 : Int)
  deriving DecidableEq, Repr

def tbGet (s : State) : TbLoc → Tb
  | .scr gid a => match s.gang? gid with
    | some g => ⟨g.read a 3, g.read (a + 3) 3, g.read (a + 6) 3⟩
    | none => ⟨0, 0, 0⟩
  | .glob p a => ⟨s.mem.read p a 3, s.mem.read p (a + 3) 3, s.mem.read p (a + 6) 3⟩

/-- Write the three words, whose rows are read for it (R157); fills of a global barrier's line that are on their way carry the new words (R203), and
one in local line 0 takes no write (R268). -/
def tbPut (s : State) (l : TbLoc) (t : Tb) : State :=
  match l with
  | .scr gid a => (scrub s gid [(a, 9)]).modGang gid fun g => ((g.write a 3 t.w0).write (a + 3) 3 t.w1).write (a + 6) 3 t.w2
  | .glob p a => if a / 81 = 0 then s
    else refreshFills (s.modMem fun m => ((m.write p a 3 t.w0).write p (a + 3) 3 t.w1).write p (a + 6) 3 t.w2) p (a / 81)

def Tb.phase (t : Tb) : Int := field t.w0 26 24
def Tb.expected (t : Tb) : Int := field t.w0 23 12
def Tb.pending (t : Tb) : Int := field t.w0 11 0
def tbWord (phase expected pending : Int) : Int := pending + pow3 12 * expected + pow3 24 * phase
/-- The next phase: +13 is followed by −13 (R170). -/
def nextPhase (p : Int) : Int := if p = 13 then -13 else p + 1

/-- A dependence word of a task record: its phase and barrier when present (R232). -/
def depOf (w : Int) : Option (Int × Int) := if trit w 23 = 1 then some (field w 26 24, field w 22 0) else none

/-- A task's dependences after a barrier's phase is tested: a met one stays met (R239). -/
def Task.test (t : Task) (a phase : Int) : Task :=
  let f (i : Nat) (m : Bool) : Bool := match depOf (wordAt t.words (2 + i)) with
    | some (p, b) => m || (b == a && p != phase)
    | none => true
  { t with met := modIdx f 0 t.met }

/-- Test the dependences of a gang's queued tasks on a barrier (R239). -/
def meetDeps (s : State) (gid : Nat) (a phase : Int) : State :=
  s.modGang gid fun g => { g with tasks := g.tasks.map fun t => if t.st = .queued then t.test a phase else t }

/-- A TBWAIT on a barrier whose phase is no longer the one waited out (R431). -/
def tbWaits (l : TbLoc) (phase : Int) (w : Warp) (x : Wait) : Bool :=
  match x.kind, l with
  | .tbar false a p, .scr gid b => a == b && w.gid == some gid && p != phase
  | .tbar true a p, .glob pkg b => a == (memKey pkg b : Int) && p != phase
  | _, _ => false

/-- The wake barriers of bound contexts note a completed phase (R272). -/
def noteWake (s : State) (l : TbLoc) : State :=
  match l with
  | .scr _ _ => s
  | .glob p a =>
    let f (c : Context) : Context :=
      match walkFrom s (pageOf (dblAt c.words 21)) 4 (81 * rootOf s c.ctx (halfOf (pageOf (dblAt c.words 21)))) with
      | .ok (e, lv, _) => if placeOf e lv (dblAt c.words 21) = .dom p a then { c with woken := true } else c
      | .error _ => c
    { s with ctxs := s.ctxs.map f }

/-- A warp of a gang on a core pair, for which gang scope counts as pair (R198). -/
def pairGang (s : State) (w : Warp) : Bool := match w.gid.bind s.gang? with | some g => decide (g.cores.length = 2) | none => false
/-- A fence that an acquire adds to what a warp already waits for. -/
def FenceW.join (f : Option FenceW) (scope : Int) (ids : List Nat) : FenceW :=
  match f with
  | none => ⟨scope, -1, ids, false⟩
  | some f => ⟨max scope f.scope, min f.kind 0, f.reqs ++ ids, f.host⟩
/-- An acquire of gang scope, of pair scope for a gang on a pair: as after FENCE.ACQ, the warp goes on once its outstanding loads and atomics have
returned; for a gang on a pair the core's L1 is emptied (R198, R200, R201). -/
def acquireGang (s : State) (w : Warp) : State :=
  let pair := pairGang s w
  let ids := (s.ops.filter fun o => o.wid == w.wid).map fun o => o.id
  let s1 := if pair then s.modCore w.coreNo fun c => { c with l1 := [] } else s
  if ids.isEmpty then s1 else s1.modWarp w.wid fun x => { x with fence := some (FenceW.join x.fence (if pair then -1 else -3) ids) }

/-- The settlement test that ends every update (R171): both debts zero settle the phase. Then the waiters on another phase
are freed, with the acquire that ends TBWAIT, and the dependences on it are met (R201, R239, R431). -/
def tbSettle (s : State) (l : TbLoc) : State :=
  let t := tbGet s l
  let s1 :=
    if t.pending = 0 ∧ t.w1 = 0 then noteWake (tbPut s l { t with w0 := tbWord (nextPhase t.phase) t.expected t.expected }) l
    else s
  let ph := (tbGet s1 l).phase
  let sa := (s1.warps.filter fun w => !(w.waiting (tbWaits l ph w)).isEmpty).foldl acquireGang s1
  let s2 : State := { sa with warps := sa.warps.map fun w => w.wake (tbWaits l ph w) }
  match l with
  | .scr gid a => meetDeps s2 gid a ph
  | .glob _ _ => s2

/-- The barrier as what arrivals meet at. -/
def TbLoc.meeting : TbLoc → Meeting
  | .scr g a => .tb (some g) a
  | .glob p a => .tb none (memKey p a)

/-- Initialise (R171). -/
def tbInit (s : State) (l : TbLoc) (n : Int) : State := tbSettle (tbPut s l ⟨tbWord 0 n n, 0, 0⟩) l
/-- Post trytes. -/
def tbPost (s : State) (l : TbLoc) (n : Int) : State :=
  let t := tbGet s l
  tbSettle (tbPut s l { t with w1 := narrow (t.w1 + n) 27 }) l
/-- Land trytes. -/
def tbLand (s : State) (l : TbLoc) (n : Int) : State := tbPost s l (-n)
/-- Arrive: none with pending arrivals already 0 (R172). -/
def tbArrive (s : State) (l : TbLoc) : Option State :=
  let t := tbGet s l
  if t.pending = 0 then none
  else some (tbSettle (tbPut s l { t with w0 := tbWord t.phase t.expected (t.pending - 1) }) l)
/-- Post a promise: word 2 moves forward only (R171). -/
def tbPromise (s : State) (l : TbLoc) (p : Int) : State :=
  let t := tbGet s l
  let p := narrow p 27
  tbSettle (if narrow (p - t.w2) 27 > 0 then tbPut s l { t with w2 := p } else s) l

/-! ### Touches and fills (R163 to R165) -/

/-- What a touch finds. -/
inductive Touch
  | present
  | promise (p : Int)
  | late
  | refused (c : Chk) (addr : Int)
  deriving DecidableEq, Repr

/-- Permissions of a fill (R163). -/
def Window.need (w : Window) : Need := if w.mode = -1 then Need.read else Need.both

/-- The first refused page of a list of box lines. -/
def firstBad : List (Int × Chk) → Option (Int × Chk)
  | [] => none
  | (a, .ok l) :: r => let _ := l; let _ := a; firstBad r
  | (a, c) :: _ => some (a, c)

/-- Start a fill of lines js of window k: translate, post, promise, mark, request. -/
def startFill (s : State) (gid k : Nat) (w : Window) (js : List Nat) (ctx : Nat) (core : Nat) (sup : Bool) (rc : Option Nat) : State × Touch :=
  let r := checkAddrs s core ctx sup w.need true (js.map w.boxAddr)
  match firstBad r.2 with
  | some (a, c) => (r.1, .refused c a)
  | none =>
    let p := s.now + Config.promiseDelay s.fresh
    let l : TbLoc := .scr gid w.bar
    let places := List.zip js (r.2.map fun x => ((match x.2 with | .ok loc => loc | _ => .dom 0 0 : Loc), leafOf r.1 core ctx x.1))
    let s1 := tbPromise (tbPost { r.1 with fresh := r.1.fresh + 1 } l (81 * js.length)) l p
    let s2 := s1.modGang gid fun g => g.modWin k fun w =>
      places.foldl (fun w x => w.put ⟨x.1, .filling, x.2.1, false, rc, p, x.2.2⟩) w
    let s3 := places.foldl (fun s x => s.send core ctx 0 x.2.1.pkgLine.1 x.2.1.pkgLine.2 (.fill gid k x.1) none) s2
    (s3, .promise p)

/-- Touch line j of window k (R163, R191). -/
def touchLine (s : State) (gid k j ctx core : Nat) (sup : Bool) (rc : Option Nat) : State × Touch :=
  match s.gang? gid with
  | none => (s, .present)
  | some g => match g.win? k with
    | none => (s, .present)
    | some w =>
      match w.line? j with
      | some x => (match x.st with
        | .present | .dirty => (s, .present)
        | .recv => (s, .late)
        | .filling | .absent => (s, .promise x.promise))
      | none => startFill s gid k w (if w.lines.isEmpty then upto w.span else [j]) ctx core sup rc

/-- Touch several lines in order; the answers in order. -/
def touchAll (s : State) (gid ctx core : Nat) (sup : Bool) (rc : Option Nat) : List (Nat × Nat) → State × List Touch
  | [] => (s, [])
  | (k, j) :: r =>
    let p := touchLine s gid k j ctx core sup rc
    let q := touchAll p.1 gid ctx core sup rc r
    (q.1, p.2 :: q.2)

/-- The latest promise among answers. -/
def latest (ts : List Touch) : Option Int := ts.foldl (fun m t => match t with
  | .promise p => some (match m with | some q => max p q | none => p)
  | _ => m) none

/-- A reading of a window line (R169): its count falls, and at 0 a present line becomes absent. -/
def countRead (s : State) (gid k j : Nat) : State :=
  s.modGang gid fun g => g.modWin k fun w => match w.line? j with
    | some x => (match x.count with
        | some n => if n ≤ 1 then (if x.st = .present then w.drop j else w.modLine j fun x => { x with count := none })
                    else w.modLine j fun x => { x with count := some (n - 1) }
        | none => w)
    | none => w

/-- Write back a dirty line as it stands (R166, R167): sends its data, and leaves it present and no longer owned (R179, R203). Place, dirty trit and dedup trit are those of
the leaf by which the line was filled (R149, R150, R190). -/
def writeBackLine (s : State) (gid k j : Nat) (pin : Int) : State :=
  match s.gang? gid with
  | none => s
  | some g => match g.win? k with
    | none => s
    | some w => match w.line? j with
      | none => s
      | some x =>
        let line := w.first + j
        let core := g.coreOfLine line
        let s0 := if x.st = .dirty then scrub (setLeafDirty s core g.ctx (w.boxAddr j) x.leaf x.loc) gid [(81 * (line : Int), 81)] else s
        let s1 := s0.send core g.ctx gid x.loc.pkgLine.1 x.loc.pkgLine.2
          (.wback x.loc (g.line line) (g.tag line) pin (pteBit x.leaf.val 46 == 1) (x.st == .dirty) (g.unread (81 * (line : Int)) 81)) none
        s1.modGang gid fun g => g.modWin k fun w => w.modLine j fun x =>
          if x.st = .dirty then { x with st := .present, owned := false } else x

end Sys2Proof.Machine
end

