-- ==== Sys2Proof/Machine/Control.lean ====
section
/-! DEFINITION. Machine/Control.lean: branches, calls, joins, yields and the end of lanes (R77 to R82, R353, R354,
R356 to R358, R367, R388, R406, R415, R436, R440). -/

namespace Sys2Proof.Machine

open Sys2Proof Tern

/-- Set the PC of some lanes of the issue set, by lane; the others move on (R73). -/
def Warp.jump (w : Warp) (ls al : List Nat) (target : Nat → Int) : Warp :=
  w.modLanes ls fun l x => { x with pc := if al.contains l then target l else x.pc + 1 }

/-- The target of BRA and CALL (R353, R356). -/
def targetOf (w : Warp) (pc : Int) : Target → Int
  | .rel i => pc + i
  | .reg b i => w.gpair b + i

/-- BRA (R353, R354). -/
def execBra (o : BraA) (s : State) : Out :=
  .next (runWord (.bra o) s fun s c w al =>
    if al.isEmpty then .plain s
    else if w.handler then .moved (s.modWarp c.wid fun x => { x with hpc := targetOf w c.pc o.t })
    else .moved (s.modWarp c.wid fun x => x.jump c.lanes al fun _ => targetOf w c.pc o.t))

/-- JMPI (R388). -/
def execJmpi (o : JmpA) (s : State) : Out :=
  .next (runWord (.jmpi o) s fun s c w al =>
    .moved (s.modWarp c.wid fun w' => w'.jump c.lanes al fun l => w.src l true o.a + o.imm))

/-! ### The link stack and its spill (R78, R79, R358) -/

/-- The address of spill line j. -/
def Warp.spillLine (w : Warp) (j : Nat) : Int := w.spill + 81 * j

/-- A spill line is usable: line-aligned, inside the allotment, in no bound window. -/
def spillOk (g : Gang) (a : Int) : Bool := a % 81 == 0 && g.holds a 81 && !g.inWindow a

/-- Materialise a scratchpad line tagged 7 to 11, in place (R189, R427). -/
def Gang.plainLine (g : Gang) (line : Nat) : Gang :=
  let t := g.tag line
  if t.code = 7 ∨ t.code = 8 then g.setLine line (expandLine t.code (g.line line)) ⟨0, t.scale⟩
  else if t.code = 9 ∨ t.code = 10 ∨ t.code = 11 then
    let head := line - (t.code - 9).toNat
    let d := g.line head
    let sc := (g.tag head).scale
    [9, 10, 11].foldl (fun g (c : Int) => g.setLine (head + (c - 9).toNat) (expandLine c d) ⟨1, sc⟩) g
  else g

/-- Store the entry of one lane in a spill line. -/
def spillStore (l : Nat) (a v : Int) (g : Gang) : Gang := (g.plainLine (a / 81).toNat).write (a + 3 * l) 3 v

/-- The entry of a depth in a lane at depth d: none when missing. -/
def Lane.entry (x : Lane) (j : Nat) : Option Int := (x.link.getD (x.depth - j) none)

/-- The word that lane l has in a spill line, as a read of the line finds it. -/
def spillRead (g : Gang) (a : Int) (l : Nat) : Int :=
  match g.lineAt (a / 81).toNat with
  | .data d _ => unitOf d (3 * l) 3
  | _ => g.read (a + 3 * l) 3

/-- The failing check of a call for a lane: the spill line's address, or 0 (R79). -/
def callBad (g : Gang) (w : Warp) (l : Nat) : Option Int :=
  let d := (w.lane l).depth
  if d = 9841 then some 0
  else if d + 1 ≥ 10 && !spillOk g (w.spillLine (d + 1 - 10)) then some (w.spillLine (d + 1 - 10))
  else none

/-- The failing check of a return for a lane. -/
def retBad (g : Gang) (w : Warp) (l : Nat) : Option Int :=
  let x := w.lane l
  let d := x.depth
  if d = 0 then some 0
  else if (x.entry d).isNone && !spillOk g (w.spillLine (d - 1)) then some (w.spillLine (d - 1))
  else if d ≥ 10 && !spillOk g (w.spillLine (d - 10)) then some (w.spillLine (d - 10))
  else none

/-- A call of one lane: the return PC is pushed (R77). -/
def Lane.call (x : Lane) (target : Int) : Lane :=
  { x with depth := x.depth + 1, link := some (x.pc + 1) :: x.link.take 8, pc := target }

/-- A return of one lane, given the PC taken and the entry reloaded at depth 10 or more (R78, R415). -/
def Lane.ret (x : Lane) (pc : Int) (reload : Option Int) : Lane :=
  let t := x.link.drop 1
  { x with depth := x.depth - 1, pc := pc,
           link := match reload with | some v => (t ++ List.replicate 8 none).take 8 ++ [some v] | none => t }

/-- The gang of a warp; a word that needs one is not issued without it (R259). -/
def gangOf (s : State) (w : Warp) : Option Gang := w.gid.bind s.gang?

/-- The lanes that fail a check, each with T.INFO 0 and the address. -/
def failing (al : List Nat) (f : Nat → Option Int) : List (Nat × Int × Int) :=
  al.filterMap fun l => (f l).map fun a => (l, 0, a)

/-- The spill stores of a call: one for each active lane that reaches depth 10 or more and holds the entry that
leaves its link stack. -/
def spillCalls (w : Warp) (al : List Nat) (g : Gang) : Gang :=
  al.foldl (fun g l =>
    let x := w.lane l
    if x.depth + 1 ≥ 10 then
      match x.entry (x.depth - 8) with
      | some v => spillStore l (w.spillLine (x.depth - 9)) v g
      | none => g
    else g) g

/-- The spill words that a call writes. -/
def callUnits (w : Warp) (al : List Nat) : List (Nat × Int) :=
  (al.filter fun l => decide (9 ≤ (w.lane l).depth) && ((w.lane l).entry ((w.lane l).depth - 8)).isSome).map fun l =>
    (l, w.spillLine ((w.lane l).depth - 9) + 3 * (l : Int))

/-- CALL and CALLI (R357); an uncorrectable spill line raises UNCOR (R158). -/
def callWord (i : Instr) (s : State) (target : Warp → Cur → Nat → Int) : State :=
  runWord i s fun s c w al =>
    match gangOf s w with
    | none => .plain s
    | some g =>
      match failing al (callBad g w) with
      | [] =>
        let us := callUnits w al
        match us.filter fun u => g.unread u.2 3 with
        | [] =>
          let s1 := (scrub s g.gid (us.map fun u => (u.2, 3))).modGang g.gid (spillCalls w al)
          .moved (s1.modWarp c.wid fun w' => w'.modLanes c.lanes fun l x =>
            if al.contains l then x.call (target w c l) else { x with pc := x.pc + 1 })
        | lost => .trap s ⟨cause.uncor, lost.map fun u => (u.1, 0, 81 * (u.2 / 81))⟩
      | bad => .trap s ⟨cause.stack, bad⟩

/-- CALL (R356, R357). -/
def execCall (o : BraA) (s : State) : Out := .next (callWord (.call o) s fun w c _ => targetOf w c.pc o.t)
/-- CALLI (R356, R357). -/
def execCalli (o : JmpA) (s : State) : Out := .next (callWord (.calli o) s fun w _ l => w.src l true o.a + o.imm)

/-- The spill lines that a return reads for a lane. -/
def retLines (w : Warp) (l : Nat) : List Int :=
  let x := w.lane l
  (if (x.entry x.depth).isNone then [w.spillLine (x.depth - 1)] else []) ++
    (if x.depth ≥ 10 then [w.spillLine (x.depth - 10)] else [])

/-- One lane returns. -/
def retLane (g : Gang) (w : Warp) (l : Nat) (x : Lane) : Lane :=
  let pc := match x.entry x.depth with | some v => v | none => spillRead g (w.spillLine (x.depth - 1)) l
  x.ret pc (if x.depth ≥ 10 then some (spillRead g (w.spillLine (x.depth - 10)) l) else none)

/-- RET (R415); an uncorrectable spill line raises UNCOR (R158). -/
def execRet (h : Hd) (s : State) : Out :=
  .next (runWord (.ret h) s fun s c w al =>
    match gangOf s w with
    | none => .plain s
    | some g =>
      match failing al (retBad g w) with
      | [] =>
        match failing al fun l => (retLines w l).find? fun a => g.unread (a + 3 * l) 3 with
        | [] => .moved ((scrub s g.gid (al.flatMap fun l => (retLines w l).map fun a => (a + 3 * (l : Int), 3))).modWarp c.wid fun w' => w'.modLanes c.lanes fun l x =>
            if al.contains l then retLane g w l x else { x with pc := x.pc + 1 })
        | bad => .trap s ⟨cause.uncor, bad⟩
      | bad => .trap s ⟨cause.stack, bad⟩)

/-- YLD (R80, R440). -/
def execYld (h : Hd) (s : State) : Out :=
  .next (runWord (.yld h) s fun s c _ al =>
    .plain (s.modWarp c.wid fun w => w.modLanes al fun _ x => { x with yielded := some ⟨27, s.now + 729⟩ }))

/-- WAITJ (R82, R436): each active lane waits with its own deadline; the join is tested when the step settles. -/
def execWaitj (o : WaitjA) (s : State) : Out :=
  .next (runWord (.waitj o) s fun s c w al =>
    .plain (s.modWarp c.wid fun w' => al.foldl (fun w' l =>
      w'.waitOn [l] (.join (s.now + o.n) o.d (w.lane l).depth ((w.lane l).made + 1)) c.pc) w'))

/-- EXIT (R367): the warp retires later, when no lane is live (R368). -/
def execExit (h : Hd) (s : State) : Out :=
  .next (runWord (.exit h) s fun s c _ al =>
    .moved (s.modWarp c.wid fun w => w.modLanes c.lanes fun l x =>
      if al.contains l then { x with live := false } else { x with pc := x.pc + 1 }))

/-- NOP (R406). -/
def execNop (h : Hd) (s : State) : Out := .next (runWord (.nop h) s fun s _ _ _ => .plain s)

end Sys2Proof.Machine
end

