-- ==== Sys2Proof/Machine/Convert.lean ====
section
/-! DEFINITION. Machine/Convert.lean: conversions and plane layouts (R62, R63, R351, R352, R363, R364, R407, R433). -/

namespace Sys2Proof.Machine

open Sys2Proof Tern

/-! ### CVT (R62, R364) -/

/-- A float to an integer of n trits: the fraction is discarded, then fitted (R62). -/
def toInt (f : Fmt) (fzi sat : Int) (n : Nat) (x : Int) : Int × Fl :=
  let o := f.opnd fzi x
  match o.1 with
  | .nan p => (0, if f.signalling p then Fl.ovf.or Fl.nan else Fl.ovf)
  | .inf s => (maxv n * s, Fl.ovf)
  | .fin m e =>
    let i := if e ≥ 0 then m * pow3 (min e.toNat 200) else shr m (-e).toNat
    let r := fitF i n sat
    (r.1, (o.2.or r.2).or (if e < 0 && i * pow3 (-e).toNat != m then Fl.inx else Fl.none))

/-- An integer to a float (R62). -/
def ofInt (f : Fmt) (fzo : Int) (v : Int) : Int × Fl := f.finish fzo (FRes.ofFin v 0)

/-- One ternary float format to the other: a NaN keeps t1 to t5, quieted when signalling (R62). -/
def reFloat (f g : Fmt) (fzi fzo : Int) (x : Int) : Int × Fl :=
  let o := f.opnd fzi x
  match o.1 with
  | .nan p =>
    let q := if f.signalling p then f.quiet p else p
    (g.nanE (if f.p < g.p then q * pow3 (g.p - f.p) else shr q (f.p - g.p)), if f.signalling p then Fl.nan else Fl.none)
  | v => let r := g.finish fzo (resV v)
         (r.1, o.2.or r.2)

/-- The lowest tryte of a word. -/
def low9 (x : Int) : Int := narrow x 9
/-- Apply a function to each of the three trytes. -/
def each9 (f : Int → Int × Fl) (x : Int) : Int × Fl :=
  let rs := (split 9 3 x).map f
  (join 9 (rs.map fun r => r.1), Fl.all (rs.map fun r => r.2))

/-- CVT of one word (R364). -/
def cvtF (op : CvtOp) (sat fzi fzo : Int) (x : Int) : Int × Fl :=
  match op with
  | .f9f27 => reFloat tf9 tf27 fzi fzo (low9 x)
  | .f27f9 => reFloat tf27 tf9 fzi fzo x
  | .wf27 => ofInt tf27 fzo x
  | .f27w => toInt tf27 fzi sat 27 x
  | .wf9 => ofInt tf9 fzo x
  | .f9w => toInt tf9 fzi sat 27 (low9 x)
  | .i9f9 => each9 (ofInt tf9 fzo) x
  | .f9i9 => each9 (toInt tf9 fzi sat 9) x
  | .wi9 => fitF x 9 sat

/-- The kind of result a value unit sees. -/
def cvtKind : CvtOp → ResKind
  | .f9f27 | .wf27 => .f27
  | .f27f9 | .wf9 | .i9f9 => .f9
  | .f9i9 => .t
  | .f27w | .f9w | .wi9 => .w

/-- CVT (R363, R364). -/
def execCvt (o : CvtA) (s : State) : Out :=
  .next (computeWord (.cvt o) s o.d false (cvtKind o.op) fun w l => cvtF o.op o.sat o.fzi o.fzo (w.src l false o.a))

/-! ### BCVT (R63, R352) -/

/-- Bytes of a binary format. -/
def bBytes : BFmt → Nat | .b32 | .i32 => 4 | .b16 | .bf16 | .i16 => 2 | .i8 => 1
/-- Exponent and fraction bits of a floating binary format. -/
def bFloat : BFmt → Option (Nat × Nat) | .b32 => some (8, 23) | .b16 => some (5, 10) | .bf16 => some (8, 7) | _ => none
/-- Formats held in a pair. -/
def bWide (f : BFmt) : Bool := f == .b32 || f == .i32

/-- The bytes held in a register's trytes: none when one is no byte or an unused tryte is not 0 (R63). -/
def bytesOf (f : BFmt) (x : Int) : Option Nat :=
  let ts := split 9 (if bWide f then 6 else 3) x
  let use := ts.take (bBytes f)
  if use.all (fun t => decide (0 ≤ t ∧ t ≤ 255)) && (ts.drop (bBytes f)).all (fun t => t == 0) then
    some (use.foldr (fun t a => t.toNat + 256 * a) 0)
  else none

/-- Bytes as a register's value. -/
def ofBytes : Nat → Nat → Int
  | 0, _ => 0
  | n + 1, v => (v % 256 : Nat) + pow3 9 * ofBytes n (v / 256)

/-- The value of a binary float's bits: NaN with whether it is quiet, infinity, or s·n/d. -/
inductive BV
  | nan (quiet : Bool)
  | inf (s : Int)
  | num (s : Int) (n d : Nat)
  deriving DecidableEq, Repr

def bDec (eb mb v : Nat) : BV :=
  let fr := v % 2 ^ mb
  let ex := v / 2 ^ mb % 2 ^ eb
  let s : Int := if v / 2 ^ (mb + eb) = 1 then -1 else 1
  let bias := 2 ^ (eb - 1) - 1
  if ex = 2 ^ eb - 1 then (if fr = 0 then .inf s else .nan (decide (2 ^ (mb - 1) ≤ fr)))
  else
    let sig := if ex = 0 then fr else 2 ^ mb + fr
    let e := max ex 1
    if bias + mb ≤ e then .num s (sig * 2 ^ (e - bias - mb)) 1 else .num s sig (2 ^ (bias + mb - e))

/-- Round n/d, positive, to a binary format, ties to even: bits without the sign, and whether inexact. -/
def bRound (eb mb n d : Nat) : Nat × Bool :=
  let bias : Int := 2 ^ (eb - 1) - 1
  let e0 : Int := (Nat.log2 n : Int) - Nat.log2 d
  let small := if e0 ≥ 0 then decide (n < d * 2 ^ e0.toNat) else decide (n * 2 ^ (-e0).toNat < d)
  let e := max (if small then e0 - 1 else e0) (1 - bias)
  let u := e - mb
  let num := if u < 0 then n * 2 ^ (-u).toNat else n
  let den := if u < 0 then d else d * 2 ^ u.toNat
  let q0 := num / den
  let r := num - q0 * den
  let q := if 2 * r > den then q0 + 1 else if 2 * r = den then q0 + q0 % 2 else q0
  (if q < 2 ^ mb then q else (e + bias).toNat * 2 ^ mb + (q - 2 ^ mb), r != 0)

/-- A ternary value to a binary float's bits (R63). -/
def bEnc (eb mb : Nat) (fzo : Int) (f : Fmt) (x : Int) : Nat × Fl :=
  let top := (2 ^ eb - 1) * 2 ^ mb
  match f.dec x with
  | .nan p => (top + 2 ^ (mb - 1), if f.signalling p then Fl.nan else Fl.none)
  | .inf s => (top + (if s < 0 then 2 ^ (mb + eb) else 0), Fl.none)
  | .fin m e =>
    if m = 0 then (0, Fl.none)
    else
      let sg := if m < 0 then 2 ^ (mb + eb) else 0
      let n := m.natAbs * (if e ≥ 0 then 3 ^ e.toNat else 1)
      let d := if e ≥ 0 then 1 else 3 ^ (-e).toNat
      let r := bRound eb mb n d
      if r.1 ≥ top then (top + sg, Fl.inf.or Fl.inx)
      else if r.1 = 0 then (0, Fl.inx)
      else if r.1 < 2 ^ mb && fzo == 1 then (0, Fl.sub.or Fl.inx)
      else (r.1 + sg, if r.2 then Fl.inx else Fl.none)

/-- An integer fitted to m bits of two's complement (R352). -/
def bInt (m : Nat) (s v : Int) : Nat × Fl :=
  let lo : Int := -(2 ^ (m - 1))
  let hi : Int := 2 ^ (m - 1) - 1
  if lo ≤ v ∧ v ≤ hi then ((v % 2 ^ m).toNat, Fl.none)
  else if s = 1 then (((if v < 0 then lo else hi) % 2 ^ m).toNat, Fl.ovf)
  else ((v % 2 ^ m).toNat, if s = 0 then Fl.ovf else Fl.none)

/-- BCVT of one operand (R352). tf: -1 TF9, 0 TW, +1 TF27. -/
def bcvtF (fmt : BFmt) (toT : Bool) (tf x17 : Int) (x : Int) : Int × Fl :=
  let f := if tf = -1 then tf9 else tf27
  match bFloat fmt with
  | some (eb, mb) =>
    if toT then
      match bytesOf fmt x with
      | none => (f.dnan, Fl.nan)
      | some v => match bDec eb mb v with
        | .nan q => (f.dnan, if q then Fl.none else Fl.nan)
        | .inf s => f.finish x17 (.inf s false)
        | .num s n d => f.finish x17 (if n = 0 then .zero else .num s n d 0)
    else let r := bEnc eb mb x17 f (if tf = -1 then low9 x else x)
         (ofBytes (bBytes fmt) r.1, r.2)
  | none =>
    let m := 8 * bBytes fmt
    if toT then
      match bytesOf fmt x with
      | none => (0, Fl.ovf)
      | some v => (if v < 2 ^ (m - 1) then (v : Int) else (v : Int) - 2 ^ m, Fl.none)
    else let r := bInt m x17 x
         (ofBytes (bBytes fmt) r.1, r.2)

/-- The kind of result a value unit sees. -/
def bcvtKind (o : BcvtA) : ResKind :=
  if o.toTernary then (if o.tf = 1 then .f27 else if o.tf = -1 then .f9 else .w) else (if bWide o.fmt then .d else .w)

/-- BCVT (R351, R352). -/
def execBcvt (o : BcvtA) (s : State) : Out :=
  .next (computeWord (.bcvt o) s o.d (bWide o.fmt && !o.toTernary) (bcvtKind o) fun w l =>
    bcvtF o.fmt o.toTernary o.tf o.x17 (w.src l (bWide o.fmt && o.toTernary) o.a))

/-! ### PACK and UNPACK (R407, R433) -/

/-- Trits of an element of a plane format. -/
def planeM (fmt : Int) : Nat := if fmt = -1 then 1 else if fmt = 0 then 3 else 9

/-- Word k of the plane layout of a plain line. -/
def packWord (m : Nat) (ws : List Int) (k : Nat) : Int :=
  let g := 27 / m
  ofTrits ((upto 27).map fun x =>
    let t := m * (27 * (k % g) + x) + (m - 1 - k / g)
    trit (ws.getD (t / 27) 0) (t % 27))

/-- Word k of the plain layout of a plane line. -/
def unpackWord (m : Nat) (ws : List Int) (k : Nat) : Int :=
  let g := 27 / m
  ofTrits ((upto 27).map fun x =>
    let t := 27 * k + x
    let e := t / m
    trit (ws.getD (g * (m - 1 - t % m) + e / 27) 0) (e % 27))

/-- A operand of every lane, active or not. -/
def Warp.srcAll (w : Warp) (dbl : Bool) (a : Src) : List Int := (upto 27).map fun l => w.src l dbl a

/-- PACK (R407). -/
def execPack (o : PackA) (s : State) : Out :=
  .next (computeWord (.pack o) s o.d false .w fun w l => (packWord (planeM o.fmt) (w.srcAll false o.a) l, Fl.none))
/-- UNPACK (R433). -/
def execUnpack (o : PackA) (s : State) : Out :=
  .next (computeWord (.unpack o) s o.d false .w fun w l => (unpackWord (planeM o.fmt) (w.srcAll false o.a) l, Fl.none))

end Sys2Proof.Machine
end

