-- ==== Sys2Proof/Decode.lean ====
section
/-! DEFINITION. Decode.lean: from a 54-trit word to an instruction and back (R96 to R124).

A word is parsed into fields (R98, R104), the opcode map chooses the instruction (R111, R112, R123), and
the parsed instruction is accepted when its operands are admitted (WellFormed.lean) and every trit of the
word that its fields do not use is zero (R101, R114), which is: its encoding is the word again. -/

namespace Sys2Proof

open Tern

/-- Why a word is ILLEGAL at decode (R110). -/
inductive DecodeError | form | opcode | modifier | operand | unusedField
  deriving DecidableEq, Repr

/-- The opcodes of the full forms; BAR, SN and TB carry several mnemonics (R112, R113). -/
inductive Opc
  | add | sub | neg | abs | mul | mulh | mad | div | divz | mod | min | max | sgn | tsh | trot | tlz | tcnt | tmap | tbin | tsel
  | fadd | fsub | fmul | fma | fmin | fmax | fneg | fabs | fdiv | fsqrt | frcp | frsq | fexp | flog | fexp3 | flog3 | ftanh | fscl | fcls | frnd
  | cmp | fcmp | sel | pset | ptbl | pany | pall | pcnt | shfl | bcst | vred | vscan
  | ld | st | ldg | stg | lds | sts | atom | red | ldmc | pref | fence | ldtag | sttag | cflush | cinv | icinv | isync
  | mov | movi | movh | movg | movs | movc | cvt | bcvt | pack | unpack
  | bra | jmpi | call | calli | ret | yld | waitj | exit | nop
  | bar | sn | tb | sleept | touch
  | win | winrel | task | tqry | send | recv | xfst | xtab
  | lnch | role | preh | trap | rft | brk | wset | wclr | wrd | hlst | hrdv | hwrv | hrdp | hwrp | hstep | hres
  deriving DecidableEq, Repr

/-- The assigned opcodes (R112): class value c (R111), index i and opcode. -/
def opcTable : List (Int × Int × Opc) := [
  (-4, 1, .add), (-4, 2, .sub), (-4, 3, .neg), (-4, 4, .abs), (-4, 5, .mul), (-4, 6, .mulh), (-4, 7, .mad), (-4, 8, .div),
  (-4, 9, .divz), (-4, 10, .mod), (-4, 11, .min), (-4, 12, .max), (-4, 13, .sgn), (-4, 14, .tsh), (-4, 15, .trot), (-4, 16, .tlz),
  (-4, 17, .tcnt), (-4, 18, .tmap), (-4, 19, .tbin), (-4, 20, .tsel), (-3, 1, .fadd), (-3, 2, .fsub), (-3, 3, .fmul), (-3, 4, .fma),
  (-3, 5, .fmin), (-3, 6, .fmax), (-3, 7, .fneg), (-3, 8, .fabs), (-3, 9, .fdiv), (-3, 10, .fsqrt), (-3, 11, .frcp), (-3, 12, .frsq),
  (-3, 13, .fexp), (-3, 14, .flog), (-3, 15, .fexp3), (-3, 16, .flog3), (-3, 17, .ftanh), (-3, 18, .fscl), (-3, 19, .fcls), (-3, 20, .frnd),
  (-2, 1, .cmp), (-2, 2, .fcmp), (-2, 3, .sel), (-2, 4, .pset), (-2, 5, .ptbl), (-2, 6, .pany), (-2, 7, .pall), (-2, 8, .pcnt),
  (-2, 9, .shfl), (-2, 10, .bcst), (-2, 11, .vred), (-2, 12, .vscan), (-1, 1, .ld), (-1, 2, .st), (-1, 3, .ldg), (-1, 4, .stg),
  (-1, 5, .lds), (-1, 6, .sts), (-1, 7, .atom), (-1, 8, .red), (-1, 9, .ldmc), (-1, 10, .pref), (-1, 11, .fence), (-1, 12, .ldtag)] ++ [
  (-1, 13, .sttag), (-1, 14, .cflush), (-1, 15, .cinv), (-1, 16, .icinv), (-1, 17, .isync), (0, 1, .mov), (0, 2, .movi), (0, 3, .movh),
  (0, 4, .movg), (0, 5, .movs), (0, 6, .movc), (0, 7, .cvt), (0, 8, .bcvt), (0, 9, .pack), (0, 10, .unpack), (1, 1, .bra),
  (1, 2, .jmpi), (1, 3, .call), (1, 4, .calli), (1, 5, .ret), (1, 6, .yld), (1, 7, .waitj), (1, 8, .exit), (1, 9, .nop),
  (2, 1, .bar), (2, 2, .sn), (2, 3, .tb), (2, 4, .sleept), (2, 5, .touch), (3, 1, .win), (3, 2, .winrel), (3, 3, .task),
  (3, 4, .tqry), (3, 5, .send), (3, 6, .recv), (3, 7, .xfst), (3, 8, .xtab), (4, 1, .lnch), (4, 2, .role), (4, 3, .preh),
  (4, 4, .trap), (4, 5, .rft), (4, 6, .brk), (4, 7, .wset), (4, 8, .wclr), (4, 9, .wrd), (4, 10, .hlst), (4, 11, .hrdv),
  (4, 12, .hwrv), (4, 13, .hrdp), (4, 14, .hwrp), (4, 15, .hstep), (4, 16, .hres)]

/-- The value 81 c + i of an opcode (R111), from the table. -/
def Opc.value : Opc → Int
  | .add => -323
  | .sub => -322
  | .neg => -321
  | .abs => -320
  | .mul => -319
  | .mulh => -318
  | .mad => -317
  | .div => -316
  | .divz => -315
  | .mod => -314
  | .min => -313
  | .max => -312
  | .sgn => -311
  | .tsh => -310
  | .trot => -309
  | .tlz => -308
  | .tcnt => -307
  | .tmap => -306
  | .tbin => -305
  | .tsel => -304
  | .fadd => -242
  | .fsub => -241
  | .fmul => -240
  | .fma => -239
  | .fmin => -238
  | .fmax => -237
  | .fneg => -236
  | .fabs => -235
  | .fdiv => -234
  | .fsqrt => -233
  | .frcp => -232
  | .frsq => -231
  | .fexp => -230
  | .flog => -229
  | .fexp3 => -228
  | .flog3 => -227
  | .ftanh => -226
  | .fscl => -225
  | .fcls => -224
  | .frnd => -223
  | .cmp => -161
  | .fcmp => -160
  | .sel => -159
  | .pset => -158
  | .ptbl => -157
  | .pany => -156
  | .pall => -155
  | .pcnt => -154
  | .shfl => -153
  | .bcst => -152
  | .vred => -151
  | .vscan => -150
  | .ld => -80
  | .st => -79
  | .ldg => -78
  | .stg => -77
  | .lds => -76
  | .sts => -75
  | .atom => -74
  | .red => -73
  | .ldmc => -72
  | .pref => -71
  | .fence => -70
  | .ldtag => -69
  | .sttag => -68
  | .cflush => -67
  | .cinv => -66
  | .icinv => -65
  | .isync => -64
  | .mov => 1
  | .movi => 2
  | .movh => 3
  | .movg => 4
  | .movs => 5
  | .movc => 6
  | .cvt => 7
  | .bcvt => 8
  | .pack => 9
  | .unpack => 10
  | .bra => 82
  | .jmpi => 83
  | .call => 84
  | .calli => 85
  | .ret => 86
  | .yld => 87
  | .waitj => 88
  | .exit => 89
  | .nop => 90
  | .bar => 163
  | .sn => 164
  | .tb => 165
  | .sleept => 166
  | .touch => 167
  | .win => 244
  | .winrel => 245
  | .task => 246
  | .tqry => 247
  | .send => 248
  | .recv => 249
  | .xfst => 250
  | .xtab => 251
  | .lnch => 325
  | .role => 326
  | .preh => 327
  | .trap => 328
  | .rft => 329
  | .brk => 330
  | .wset => 331
  | .wclr => 332
  | .wrd => 333
  | .hlst => 334
  | .hrdv => 335
  | .hwrv => 336
  | .hrdp => 337
  | .hwrp => 338
  | .hstep => 339
  | .hres => 340

/-- The opcode of a value, none when R112 leaves it blank. -/
def opcOf (v : Int) : Option Opc :=
  (opcTable.find? fun r => 81 * r.1 + r.2.1 == v).map fun r => r.2.2

/-- The fields of a full word (R98), each a balanced number. -/
structure Raw where
  (form op pred sense mode di ak ai bk bi ck ci mods imm : Int)
  deriving DecidableEq, Repr

/-- The fields of a half (R104). -/
structure RawHalf where
  (op pred mode di sk si mods imm : Int)
  deriving DecidableEq, Repr

/-- The trits 53-52 of the forms (R96). -/
def formOf (v : Int) : Option Form := if v = 0 then some .vector else if v = 1 then some .group else none
def formVal : Form → Int | .vector => 0 | .group => 1

/-- Guard sense sets (R99). -/
def senseOf (v : Int) : Option Sense :=
  if v = 0 then some .always else if v = 1 then some .pos else if v = -1 then some .neg
  else if v = 2 then some .posZero else if v = -2 then some .zeroNeg else if v = 3 then some .zero
  else if v = -3 then some .posNeg else none
def senseVal : Sense → Int
  | .always => 0 | .pos => 1 | .neg => -1 | .posZero => 2 | .zeroNeg => -2 | .zero => 3 | .posNeg => -3

/-- Read the fields of a full word. -/
def readRaw (w : Int) : Raw :=
  match unpack [16, 6, 4, 1, 4, 1, 4, 1, 4, 1, 2, 2, 6, 2] w with
  | [imm, mods, ci, ck, bi, bk, ai, ak, di, mode, sense, pred, op, form] =>
    ⟨form, op, pred, sense, mode, di, ak, ai, bk, bi, ck, ci, mods, imm⟩
  | _ => ⟨0, 0, 0, 0, 0, 0, 0, 0, 0, 0, 0, 0, 0, 0⟩

/-- Write the fields of a full word. -/
def writeRaw (r : Raw) : Int :=
  pack [(16, r.imm), (6, r.mods), (4, r.ci), (1, r.ck), (4, r.bi), (1, r.bk), (4, r.ai), (1, r.ak),
    (4, r.di), (1, r.mode), (2, r.sense), (2, r.pred), (6, r.op), (2, r.form)]

/-- Read one half of a paired word. -/
def readHalf (w : Int) : RawHalf :=
  match unpack [6, 3, 4, 1, 4, 1, 2, 5] w with
  | [imm, mods, si, sk, di, mode, pred, op] => ⟨op, pred, mode, di, sk, si, mods, imm⟩
  | _ => ⟨0, 0, 0, 0, 0, 0, 0, 0⟩

/-- Write one half. -/
def writeHalf (r : RawHalf) : Int :=
  pack [(6, r.imm), (3, r.mods), (4, r.si), (1, r.sk), (4, r.di), (1, r.mode), (2, r.pred), (5, r.op)]

/-- The 27-trit immediate of a long-immediate word, trits 26-0 (R103). -/
def longImm (r : Raw) : Int := r.imm + pow3 16 * (r.mods + pow3 6 * (r.ci + pow3 4 * r.ck))
/-- The fields that hold a 27-trit immediate. -/
def setLong (r : Raw) (v : Int) : Raw :=
  match unpack [16, 6, 4, 1] v with
  | [imm, mods, ci, ck] => ⟨r.form, r.op, r.pred, r.sense, r.mode, r.di, r.ak, r.ai, r.bk, r.bi, ck, ci, mods, imm⟩
  | _ => r

/-- The register of a kind and index (R100). -/
def srcOf (k i : Int) : Src :=
  if k = -1 then .x i.toNat else if k = 0 then .v (i + 40).toNat else .g (i + 13).toNat
def srcKind : Src → Int | .x _ => -1 | .v _ => 0 | .g _ => 1
def srcIdx : Src → Int | .x k => k | .v n => (n : Int) - 40 | .g n => (n : Int) - 13
/-- The register destination of a form, mode and index (R100, R101). -/
def dstOf (f : Form) (mode i : Int) : Dst :=
  if mode = -1 then .latch else match f with | .vector => .v (i + 40).toNat | .group => .g (i + 13).toNat
def dstMode : Dst → Int | .latch => -1 | _ => 0
def dstIdx : Dst → Int | .latch => 0 | .v n => (n : Int) - 40 | .g n => (n : Int) - 13
/-- A predicate operand of a kind and index (R402). -/
def psrcOf (k i : Int) : PSrc := if k = 1 then .q (i + 4).toNat else .p (i + 4).toNat
def psrcKind : PSrc → Int | .p _ => 0 | .q _ => 1
def psrcIdx : PSrc → Int | .p n => (n : Int) - 4 | .q n => (n : Int) - 4
/-- G register number of an index, and back (R100). -/
def grOf (i : Int) : Nat := (i + 13).toNat
def grIdx (n : Nat) : Int := (n : Int) - 13
/-- Predicate number of an index, and back (R100). -/
def prOf (i : Int) : Nat := (i + 4).toNat
def prIdx (n : Nat) : Int := (n : Int) - 4

def ityOf (v : Int) : ITy := if v = -1 then .t else if v = 0 then .w else .d
def ityVal : ITy → Int | .t => -1 | .w => 0 | .d => 1
def ftyOf (v : Int) : FTy := if v = -1 then .f9 else .f27
def ftyVal : FTy → Int | .f9 => -1 | .f27 => 0
def widthOf (v : Int) : Width := if v = -1 then .tryte else if v = 0 then .word else .double
def widthVal : Width → Int | .tryte => -1 | .word => 0 | .double => 1
def vtyOf (v : Int) : Option VTy :=
  if v = -3 then some .f9 else if v = -1 then some .t else if v = 0 then some .w
  else if v = 1 then some .d else if v = 3 then some .f27 else none
def vtyVal : VTy → Int | .f9 => -3 | .t => -1 | .w => 0 | .d => 1 | .f27 => 3
def boolVal (b : Bool) : Int := if b then 1 else 0

def cvtOf (v : Int) : CvtOp :=
  if v = 1 then .f9f27 else if v = -1 then .f27f9 else if v = 2 then .wf27 else if v = -2 then .f27w
  else if v = 3 then .wf9 else if v = -3 then .f9w else if v = 4 then .i9f9 else if v = -4 then .f9i9 else .wi9
def cvtVal : CvtOp → Int
  | .f9f27 => 1 | .f27f9 => -1 | .wf27 => 2 | .f27w => -2 | .wf9 => 3 | .f9w => -3 | .i9f9 => 4 | .f9i9 => -4 | .wi9 => 0
def bfmtOf (v : Int) : Option BFmt :=
  if v = 1 then some .b32 else if v = 2 then some .b16 else if v = 3 then some .bf16
  else if v = -1 then some .i8 else if v = -2 then some .i16 else if v = -3 then some .i32 else none
def bfmtVal : BFmt → Int | .b32 => 1 | .b16 => 2 | .bf16 => 3 | .i8 => -1 | .i16 => -2 | .i32 => -3

/-- The special-register numbers m (R404). -/
def sregTable : List (Nat × SReg) :=
  [(1, .lane), (2, .depth), (3, .live), (4, .warp), (5, .gang), (6, .core), (7, .bay), (8, .spill), (9, .flags),
   (10, .gtime), (11, .gtimeh), (12, .commit), (20, .tcause), (21, .tlanes), (22, .tlevel), (23, .tinfo),
   (24, .taddr), (25, .taddrh), (26, .tepc), (27, .tepch), (28, .tdepth), (29, .tstate), (30, .tk0), (31, .tk1), (32, .tk2)]
def sregOf (m : Nat) : Option SReg := (sregTable.find? fun r => r.1 == m).map (·.2)
def sregNum : SReg → Nat
  | .lane => 1 | .depth => 2 | .live => 3 | .warp => 4 | .gang => 5 | .core => 6 | .bay => 7 | .spill => 8 | .flags => 9
  | .gtime => 10 | .gtimeh => 11 | .commit => 12 | .tcause => 20 | .tlanes => 21 | .tlevel => 22 | .tinfo => 23
  | .taddr => 24 | .taddrh => 25 | .tepc => 26 | .tepch => 27 | .tdepth => 28 | .tstate => 29 | .tk0 => 30 | .tk1 => 31 | .tk2 => 32

/-- The paired opcodes (R123). -/
def popTable : List (Int × POp) :=
  [(1, .add), (2, .sub), (3, .mul), (4, .min), (5, .max), (6, .mov), (7, .neg), (8, .abs), (9, .tsh),
   (-1, .addi), (-2, .subi), (-3, .muli), (-4, .mini), (-5, .maxi), (-6, .movi), (-9, .tshi),
   (10, .fadd), (11, .fsub), (12, .fmul), (13, .fmin), (14, .fmax), (15, .fneg), (16, .fabs)]
def popOf (v : Int) : Option POp := (popTable.find? fun r => r.1 == v).map (·.2)
def popVal : POp → Int
  | .add => 1 | .sub => 2 | .mul => 3 | .min => 4 | .max => 5 | .mov => 6 | .neg => 7 | .abs => 8 | .tsh => 9
  | .addi => -1 | .subi => -2 | .muli => -3 | .mini => -4 | .maxi => -5 | .movi => -6 | .tshi => -9
  | .fadd => 10 | .fsub => 11 | .fmul => 12 | .fmin => 13 | .fmax => 14 | .fneg => 15 | .fabs => 16

/-! ### Parsing, class by class -/

/-- Class --: modifier trits, lowest first: selector, reserved, B source, trap enable, saturation, type (R115). -/
def mInt (r : Raw) : Int × Int × Int × Int × Int × Int :=
  match unpack [1, 1, 1, 1, 1, 1] r.mods with
  | [sel, z, bs, te, sat, ty] => (sel, z, bs, te, sat, ty)
  | _ => (0, 0, 0, 0, 0, 0)

def pI1 (h : Hd) (r : Raw) : I1 :=
  let (_, _, _, te, sat, ty) := mInt r
  ⟨h, ityOf ty, sat, te, dstOf h.form r.mode r.di, srcOf r.ak r.ai⟩
def pICnt (h : Hd) (r : Raw) : ICnt :=
  let (sel, _, _, te, sat, ty) := mInt r
  ⟨h, ityOf ty, sat, te, sel, dstOf h.form r.mode r.di, srcOf r.ak r.ai⟩
def pI2 (h : Hd) (r : Raw) : I2 :=
  let (_, _, bs, te, sat, ty) := mInt r
  ⟨h, ityOf ty, sat, te, dstOf h.form r.mode r.di, srcOf r.ak r.ai,
    if bs = 1 then .imm r.imm else .src (srcOf r.bk r.bi)⟩
def pI3 (h : Hd) (r : Raw) : I3 :=
  let (_, _, _, te, sat, ty) := mInt r
  ⟨h, ityOf ty, sat, te, dstOf h.form r.mode r.di, srcOf r.ak r.ai, srcOf r.bk r.bi, srcOf r.ck r.ci⟩
def pITab1 (h : Hd) (r : Raw) : ITab1 :=
  let (_, _, _, te, sat, ty) := mInt r
  ⟨h, ityOf ty, sat, te, dstOf h.form r.mode r.di, srcOf r.ak r.ai, r.imm⟩
def pITab2 (h : Hd) (r : Raw) : ITab2 :=
  let (_, _, _, te, sat, ty) := mInt r
  ⟨h, ityOf ty, sat, te, dstOf h.form r.mode r.di, srcOf r.ak r.ai, srcOf r.bk r.bi, r.imm⟩

/-- Class -0: reserved, count source, trap enable, FZO, FZI, type (R116); the same trits as mInt. -/
def pF1 (h : Hd) (r : Raw) : F1 :=
  let (_, _, te, fzo, fzi, ty) := mInt r
  ⟨h, ftyOf ty, fzi, fzo, te, dstOf h.form r.mode r.di, srcOf r.ak r.ai⟩
def pF2 (h : Hd) (r : Raw) : F2 :=
  let (_, _, te, fzo, fzi, ty) := mInt r
  ⟨h, ftyOf ty, fzi, fzo, te, dstOf h.form r.mode r.di, srcOf r.ak r.ai, srcOf r.bk r.bi⟩
def pF3 (h : Hd) (r : Raw) : F3 :=
  let (_, _, te, fzo, fzi, ty) := mInt r
  ⟨h, ftyOf ty, fzi, fzo, te, dstOf h.form r.mode r.di, srcOf r.ak r.ai, srcOf r.bk r.bi, srcOf r.ck r.ci⟩
def pFScl (h : Hd) (r : Raw) : FScl :=
  let (_, cs, te, fzo, fzi, ty) := mInt r
  ⟨h, ftyOf ty, fzi, fzo, te, dstOf h.form r.mode r.di, srcOf r.ak r.ai,
    if cs = 1 then .imm r.imm else .src (srcOf r.bk r.bi)⟩
def pFRnd (h : Hd) (r : Raw) : FRnd :=
  let (_, _, te, fzo, fzi, ty) := mInt r
  ⟨h, ftyOf ty, fzi, fzo, te, dstOf h.form r.mode r.di, srcOf r.ak r.ai, r.imm⟩

/-- Class -+: trap enable, FZO, FZI or saturation, operation, type (R117). -/
def mCmp (r : Raw) : Int × Int × Int × Int × Int :=
  match unpack [1, 1, 1, 1, 2] r.mods with
  | [te, fzo, s18, op, ty] => (te, fzo, s18, op, ty)
  | _ => (0, 0, 0, 0, 0)

def pCmp (h : Hd) (r : Raw) : Cmp :=
  let (te, _, sat, bs, ty) := mCmp r
  ⟨h, ityOf ty, sat, te, prOf r.di, srcOf r.ak r.ai, if bs = 1 then .imm r.imm else .src (srcOf r.bk r.bi)⟩
def pFCmp (h : Hd) (r : Raw) : FCmp :=
  let (te, _, fzi, _, ty) := mCmp r
  ⟨h, if ty = -3 then .f9 else .f27, fzi, te, prOf r.di, srcOf r.ak r.ai, srcOf r.bk r.bi, r.imm⟩
/-- SEL's immediate: index, q (R417). -/
def pSel (h : Hd) (r : Raw) : Sel :=
  let (te, _, sat, _, ty) := mCmp r
  let p : PSrc := match unpack [2, 14] r.imm with
    | [i, q] => if q = 1 then .q (prOf i) else .p (prOf i)
    | _ => .p 0
  ⟨h, ty == 1, sat, te, dstOf h.form r.mode r.di, srcOf r.ak r.ai, srcOf r.bk r.bi, srcOf r.ck r.ci, p⟩
def pPSet (h : Hd) (r : Raw) : PSet :=
  let (te, _, _, _, _) := mCmp r
  ⟨h, te, prOf r.di, srcOf r.ak r.ai, r.imm⟩
def pPTbl (h : Hd) (r : Raw) : PTbl :=
  let (te, _, _, _, _) := mCmp r
  ⟨h, te, prOf r.di, psrcOf r.ak r.ai, psrcOf r.bk r.bi, r.imm⟩
def pPRed (h : Hd) (r : Raw) : PRed :=
  let (te, _, _, _, _) := mCmp r
  ⟨h, te, prOf r.di, psrcOf r.ak r.ai⟩
def pPCnt (h : Hd) (r : Raw) : PCnt :=
  let (te, _, _, _, _) := mCmp r
  ⟨h, te, dstOf h.form r.mode r.di, psrcOf r.ak r.ai, r.imm⟩
def pShfl (h : Hd) (r : Raw) : Shfl :=
  let (te, _, sat, _, ty) := mCmp r
  ⟨h, ty == 1, sat, te, dstOf h.form r.mode r.di, srcOf r.ak r.ai, srcOf r.bk r.bi, r.imm⟩
def pBcst (h : Hd) (r : Raw) : Bcst :=
  let (te, _, sat, _, ty) := mCmp r
  ⟨h, ty == 1, sat, te, dstOf h.form r.mode r.di, srcOf r.ak r.ai, r.imm⟩
def pVRed (h : Hd) (r : Raw) : Option VRed :=
  let (te, fzo, s18, op, ty) := mCmp r
  (vtyOf ty).map fun t => ⟨h, t, op, s18, fzo, te, dstOf h.form r.mode r.di, srcOf r.ak r.ai⟩

/-- Class 0-: trit 16, scale, trit 19, trit 20, width (R118). -/
def mMem (r : Raw) : Int × Int × Int × Int × Int :=
  match unpack [1, 2, 1, 1, 1] r.mods with
  | [t16, k, t19, t20, w] => (t16, k, t19, t20, w)
  | _ => (0, 0, 0, 0, 0)

def pAddr (r : Raw) (k : Int) : Addr := ⟨grOf r.ai, srcOf r.bk r.bi, k.toNat, r.imm⟩
def pLd (h : Hd) (r : Raw) : LdA :=
  let (ts, k, rc, sc, w) := mMem r
  ⟨h, widthOf w, sc == 1, if rc = 1 then some r.ci.toNat else none, ts == 1, dstOf h.form r.mode r.di, pAddr r k⟩
def pSt (h : Hd) (r : Raw) : StA :=
  let (_, k, _, sc, w) := mMem r
  ⟨h, widthOf w, sc == 1, pAddr r k, srcOf r.ck r.ci⟩
def pLdg (h : Hd) (r : Raw) : LdgA :=
  let (_, _, _, _, w) := mMem r
  ⟨h, w == 1, grOf r.di, grOf r.ai, r.imm⟩
def pStg (h : Hd) (r : Raw) : StgA :=
  let (_, _, _, _, w) := mMem r
  ⟨h, w == 1, grOf r.ci, grOf r.ai, r.imm⟩
def pLds (h : Hd) (r : Raw) : LdsA :=
  let (ts, k, rc, _, w) := mMem r
  ⟨h, widthOf w, if rc = 1 then some r.ci.toNat else none, ts == 1, dstOf h.form r.mode r.di, pAddr r k⟩
def pSts (h : Hd) (r : Raw) : StsA :=
  let (_, k, _, _, w) := mMem r
  ⟨h, widthOf w, pAddr r k, srcOf r.ck r.ci⟩
/-- ATOM: scale, operation, .SC, width (R118, R345). -/
def pAtom (h : Hd) (r : Raw) : Option AtomA :=
  match unpack [2, 2, 1, 1] r.mods with
  | [k, op, sc, w] =>
    let o : Option AtomOp := if op = 0 then some .add else if op = -1 then some .min else if op = 1 then some .max
      else if op = 2 then some .xchg else if op = 3 then some .cas else if op = -2 then some (.tbin r.imm) else none
    let ad : Addr := ⟨grOf r.ai, srcOf r.bk r.bi, k.toNat, if op = -2 then 0 else r.imm⟩
    o.map fun o => ⟨h, w == 1, sc == 1, o, dstOf h.form r.mode r.di, ad, srcOf r.ck r.ci⟩
  | _ => none
def pRed (h : Hd) (r : Raw) : RedA :=
  let (kd, k, op, det, w) := mMem r
  ⟨h, widthOf w, if det = 1 then some (grOf r.di) else none, op, kd == -1, pAddr r k, srcOf r.ck r.ci⟩
def pPref (h : Hd) (r : Raw) : PrefA :=
  let (_, k, _, _, _) := mMem r
  ⟨h, r.ci.toNat, pAddr r k⟩
/-- FENCE: zero, kind, scope (R382). -/
def pFence (h : Hd) (r : Raw) : FenceA :=
  match unpack [3, 1, 2] r.mods with
  | [_, kd, sc] => ⟨h, sc, kd⟩
  | _ => ⟨h, 0, 0⟩
def pNear (h : Hd) (r : Raw) : Near := ⟨h, grOf r.ai, srcOf r.bk r.bi, r.imm⟩

/-- Trit 21 and trits 20-16 (R119, R120, R122). -/
def mTop (r : Raw) : Int := match unpack [5, 1] r.mods with | [_, t] => t | _ => 0
def pCvt (h : Hd) (r : Raw) : CvtA :=
  let (te, fzo, fzi, sat, cv) := mCmp r
  ⟨h, cvtOf cv, sat, fzi, fzo, te, dstOf h.form r.mode r.di, srcOf r.ak r.ai⟩
def pBcvt (h : Hd) (r : Raw) : Option BcvtA :=
  let (te, x17, tf, dir, f) := mCmp r
  (bfmtOf f).map fun f => ⟨h, f, dir == 1, tf, x17, te, dstOf h.form r.mode r.di, srcOf r.ak r.ai⟩
/-- MOVS: the immediate is +m for a read and -m for a write (R404). -/
def pMovs (h : Hd) (r : Raw) : Option MovsA :=
  if 0 < r.imm then (sregOf r.imm.toNat).map fun s => ⟨h, .read (dstOf h.form r.mode r.di) s⟩
  else (sregOf (-r.imm).toNat).map fun s => ⟨h, .write (srcOf r.ak r.ai) s⟩
def pTarget (r : Raw) : Target := if mTop r = 1 then .reg (grOf r.ai) r.imm else .rel r.imm
def pJmp (h : Hd) (r : Raw) : JmpA := ⟨h, srcOf r.ak r.ai, r.imm⟩

/-- Class +-: zero, operation, variant (R121). -/
def mSync (r : Raw) : Int × Int :=
  match unpack [2, 2, 2] r.mods with | [_, op, v] => (op, v) | _ => (0, 0)
/-- BAR's immediate: count, name (R348). -/
def barImm (i : Int) : Int × Int := match unpack [12, 4] i with | [n, q] => (n, q) | _ => (0, 0)
def pBar (h : Hd) (r : Raw) : Option Instr :=
  let (n, q) := barImm r.imm
  let (_, v) := mSync r
  if v = 0 then some (.barA ⟨h, q, n⟩) else if v = 1 then some (.barS ⟨h, q, n⟩)
  else if v = -1 then some (.barD ⟨h, q, n⟩) else if v = 2 then some (.barW ⟨h, q⟩) else none
def pSn (h : Hd) (r : Raw) : Option Instr :=
  let (op, v) := mSync r
  if v = 0 then some (.sna ⟨h, r.imm⟩) else if v = -1 then some (.snd ⟨h, r.imm⟩)
  else if v = 3 then some (.snr ⟨h, op, grOf r.ai, r.imm⟩) else if v = 2 then some (.snb ⟨h, grOf r.ai, r.imm⟩)
  else if v = 1 then some (.snw ⟨h, grOf r.di, r.imm⟩) else if v = -2 then some (.snp ⟨h, grOf r.di, r.imm⟩) else none
def pTb (h : Hd) (r : Raw) : Option Instr :=
  let (_, v) := mSync r
  let o : TbA := ⟨h, grOf r.ai, grOf r.bi, r.imm⟩
  if v = -2 then some (.tbinit o) else if v = 1 then some (.tbarr o) else if v = 2 then some (.tbexp o)
  else if v = 3 then some (.tbwait o) else if v = -1 then some (.tbtest ⟨h, grOf r.di, grOf r.ai, grOf r.bi, r.imm⟩) else none
/-- ROLE's immediate: class, blocks (R416). -/
def pRole (h : Hd) (r : Raw) : RoleA :=
  match unpack [2, 14] r.imm with | [c, b] => ⟨h, grOf r.ai, b.toNat, c⟩ | _ => ⟨h, 0, 0, 0⟩
/-- HRDP and HWRP items in trits 19-18 (R122). -/
def pHItem (r : Raw) : Option HItem :=
  match unpack [2, 2, 2] r.mods with
  | [_, it, _] => if it = 0 then some .pc else if it = 1 then some .depth else if it = -1 then some (.link r.imm.toNat) else none
  | _ => none
/-- HRES's scope in trits 21-20 (R122). -/
def pScope (r : Raw) : Int := match unpack [4, 2] r.mods with | [_, s] => s | _ => 0

/-- The instruction that the opcode map and the layouts give the fields; none for an unassigned
modifier value. -/
def parse (o : Opc) (h : Hd) (r : Raw) : Option Instr :=
  match o with
  | .add => some (.add (pI2 h r)) | .sub => some (.sub (pI2 h r)) | .neg => some (.neg (pI1 h r))
  | .abs => some (.abs (pI1 h r)) | .mul => some (.mul (pI2 h r)) | .mulh => some (.mulh (pI2 h r))
  | .mad => some (.mad (pI3 h r)) | .div => some (.div (pI2 h r)) | .divz => some (.divz (pI2 h r))
  | .mod => some (.mod (pI2 h r)) | .min => some (.min (pI2 h r)) | .max => some (.max (pI2 h r))
  | .sgn => some (.sgn (pI1 h r)) | .tsh => some (.tsh (pI2 h r)) | .trot => some (.trot (pI2 h r))
  | .tlz => some (.tlz (pI1 h r)) | .tcnt => some (.tcnt (pICnt h r)) | .tmap => some (.tmap (pITab1 h r))
  | .tbin => some (.tbin (pITab2 h r)) | .tsel => some (.tsel (pI3 h r))
  | .fadd => some (.fadd (pF2 h r)) | .fsub => some (.fsub (pF2 h r)) | .fmul => some (.fmul (pF2 h r))
  | .fma => some (.fma (pF3 h r)) | .fmin => some (.fmin (pF2 h r)) | .fmax => some (.fmax (pF2 h r))
  | .fneg => some (.fneg (pF1 h r)) | .fabs => some (.fabs (pF1 h r)) | .fdiv => some (.fdiv (pF2 h r))
  | .fsqrt => some (.fsqrt (pF1 h r)) | .frcp => some (.frcp (pF1 h r)) | .frsq => some (.frsq (pF1 h r))
  | .fexp => some (.fexp (pF1 h r)) | .flog => some (.flog (pF1 h r)) | .fexp3 => some (.fexp3 (pF1 h r))
  | .flog3 => some (.flog3 (pF1 h r)) | .ftanh => some (.ftanh (pF1 h r)) | .fscl => some (.fscl (pFScl h r))
  | .fcls => some (.fcls (pF1 h r)) | .frnd => some (.frnd (pFRnd h r))
  | .cmp => some (.cmp (pCmp h r)) | .fcmp => some (.fcmp (pFCmp h r)) | .sel => some (.sel (pSel h r))
  | .pset => some (.pset (pPSet h r)) | .ptbl => some (.ptbl (pPTbl h r)) | .pany => some (.pany (pPRed h r))
  | .pall => some (.pall (pPRed h r)) | .pcnt => some (.pcnt (pPCnt h r)) | .shfl => some (.shfl (pShfl h r))
  | .bcst => some (.bcst (pBcst h r)) | .vred => (pVRed h r).map .vred | .vscan => (pVRed h r).map .vscan
  | .ld => some (.ld (pLd h r)) | .st => some (.st (pSt h r)) | .ldg => some (.ldg (pLdg h r))
  | .stg => some (.stg (pStg h r)) | .lds => some (.lds (pLds h r)) | .sts => some (.sts (pSts h r))
  | .atom => (pAtom h r).map .atom | .red => some (.red (pRed h r))
  | .ldmc => some (.ldmc ⟨h, grOf r.ai, grOf r.bi⟩) | .pref => some (.pref (pPref h r))
  | .fence => some (.fence (pFence h r))
  | .ldtag => some (.ldtag ⟨h, dstOf h.form r.mode r.di, pAddr r (mMem r).2.1⟩)
  | .sttag => some (.sttag ⟨h, srcOf r.ck r.ci, pAddr r (mMem r).2.1⟩)
  | .cflush => some (.cflush ⟨h, pAddr r (mMem r).2.1⟩) | .cinv => some (.cinv ⟨h, pAddr r (mMem r).2.1⟩)
  | .icinv => some (.icinv (pNear h r)) | .isync => some (.isync h)
  | .mov => some (.mov ⟨h, mTop r == 1, dstOf h.form r.mode r.di, srcOf r.ak r.ai⟩)
  | .movi => some (.movi ⟨h, dstOf h.form r.mode r.di, longImm r⟩)
  | .movh => some (.movh ⟨h, dstOf h.form r.mode r.di, longImm r⟩)
  | .movg => some (.movg ⟨h, grOf r.di, srcOf r.ak r.ai, r.imm⟩)
  | .movs => (pMovs h r).map .movs
  | .movc => some (.movc ⟨h, dstOf h.form r.mode r.di, psrcOf r.ak r.ai⟩)
  | .cvt => some (.cvt (pCvt h r)) | .bcvt => (pBcvt h r).map .bcvt
  | .pack => some (.pack ⟨h, mTop r, dstOf h.form r.mode r.di, srcOf r.ak r.ai⟩)
  | .unpack => some (.unpack ⟨h, mTop r, dstOf h.form r.mode r.di, srcOf r.ak r.ai⟩)
  | .bra => some (.bra ⟨h, pTarget r⟩) | .jmpi => some (.jmpi (pJmp h r)) | .call => some (.call ⟨h, pTarget r⟩)
  | .calli => some (.calli (pJmp h r)) | .ret => some (.ret h) | .yld => some (.yld h)
  | .waitj => some (.waitj ⟨h, dstOf h.form r.mode r.di, r.imm.toNat⟩) | .exit => some (.exit h) | .nop => some (.nop h)
  | .bar => pBar h r | .sn => pSn h r | .tb => pTb h r
  | .sleept => some (.sleept ⟨h, srcOf r.ak r.ai, r.imm⟩) | .touch => some (.touch (pNear h r))
  | .win => some (.win ⟨h, grOf r.ai, r.imm.toNat⟩) | .winrel => some (.winrel ⟨h, r.imm.toNat⟩)
  | .task => some (.task ⟨h, grOf r.di, grOf r.ai, mTop r, r.imm⟩)
  | .tqry => some (.tqry ⟨h, grOf r.di, grOf r.ai⟩)
  | .send => some (.send ⟨h, grOf r.ai, grOf r.bi, r.imm.toNat⟩) | .recv => some (.recv ⟨h, grOf r.ai, r.imm.toNat⟩)
  | .xfst => some (.xfst ⟨h, grOf r.di, grOf r.ai, r.imm⟩) | .xtab => some (.xtab ⟨h, grOf r.di, grOf r.ai, r.imm.toNat⟩)
  | .lnch => some (.lnch ⟨h, grOf r.di, grOf r.ai, r.imm⟩) | .role => some (.role (pRole h r))
  | .preh => some (.preh ⟨h, grOf r.ai, r.imm⟩) | .trap => some (.trap ⟨h, r.imm⟩) | .rft => some (.rft h)
  | .brk => some (.brk ⟨h, r.imm⟩)
  | .wset => some (.wset ⟨h, grOf r.di, grOf r.ai, grOf r.bi, grOf r.ci, r.imm.toNat⟩)
  | .wclr => some (.wclr ⟨h, grOf r.di, grOf r.bi, r.imm.toNat⟩)
  | .wrd => some (.wrd ⟨h, grOf r.di, grOf r.bi, r.imm.toNat⟩)
  | .hlst => some (.hlst ⟨h, grOf r.di, grOf r.bi⟩)
  | .hrdv => some (.hrdv ⟨h, grOf r.di, grOf r.bi, r.imm.toNat⟩)
  | .hwrv => some (.hwrv ⟨h, grOf r.di, grOf r.ai, grOf r.bi, r.imm.toNat⟩)
  | .hrdp => (pHItem r).map fun it => .hrdp ⟨h, grOf r.di, grOf r.bi, it⟩
  | .hwrp => (pHItem r).map fun it => .hwrp ⟨h, grOf r.di, grOf r.ai, grOf r.bi, it⟩
  | .hstep => some (.hstep ⟨h, grOf r.di, grOf r.bi⟩)
  | .hres => some (.hres ⟨h, pScope r, grOf r.di, grOf r.bi⟩)

/-- One half (R104): the source field or the immediate, as the opcode takes it. -/
def parseHalf (r : RawHalf) : Option Half :=
  match unpack [1, 1, 1] r.mods with
  | [m6, m7, m8] => (popOf r.op).map fun o =>
      ⟨o, prOf r.pred, dstOf .vector r.mode r.di, if o.usesSource then some (srcOf r.sk r.si) else none, m8, m7, m6,
        if o.usesSource then 0 else r.imm⟩
  | _ => none

/-- The instruction that a word's fields name, before its operands and unused trits are checked. -/
def parseWord (w : Int) : Except DecodeError Instr :=
  let form := field w 53 52
  if form = -4 then
    match parseHalf (readHalf (shr w 26)), parseHalf (readHalf (narrow w 26)) with
    | some a, some b => .ok (.pairedWord a b)
    | _, _ => .error .opcode
  else match formOf form with
    | none => .error .form
    | some f =>
      let r := readRaw w
      match senseOf r.sense, opcOf r.op with
      | none, _ => .error .form
      | _, none => .error .opcode
      | some sn, some o => match parse o ⟨f, prOf r.pred, sn⟩ r with
        | none => .error .modifier
        | some i => .ok i

/-! ### Encoding, from the same tables -/

/-- A word with the head's fields and an opcode, every other field zero. -/
def rHd (h : Hd) (o : Opc) : Raw :=
  ⟨formVal h.form, o.value, prIdx h.pred, senseVal h.sense, 0, 0, 0, 0, 0, 0, 0, 0, 0, 0⟩
def Raw.setD (r : Raw) (d : Dst) : Raw := { r with mode := dstMode d, di := dstIdx d }
def Raw.setGD (r : Raw) (n : Nat) : Raw := { r with di := grIdx n }
def Raw.setPD (r : Raw) (n : Nat) : Raw := { r with di := prIdx n }
def Raw.setA (r : Raw) (s : Src) : Raw := { r with ak := srcKind s, ai := srcIdx s }
def Raw.setB (r : Raw) (s : Src) : Raw := { r with bk := srcKind s, bi := srcIdx s }
def Raw.setC (r : Raw) (s : Src) : Raw := { r with ck := srcKind s, ci := srcIdx s }
def Raw.setPA (r : Raw) (s : PSrc) : Raw := { r with ak := psrcKind s, ai := psrcIdx s }
def Raw.setPB (r : Raw) (s : PSrc) : Raw := { r with bk := psrcKind s, bi := psrcIdx s }
def Raw.setM (r : Raw) (l : List (Nat × Int)) : Raw := { r with mods := pack l }
def Raw.setI (r : Raw) (i : Int) : Raw := { r with imm := i }
/-- An address operand: base, lane offset, immediate; the scale is a modifier (R341). -/
def Raw.setAddr (r : Raw) (a : Addr) : Raw := ((r.setA (.g a.base)).setB a.off).setI a.e
/-- B as a source, or the immediate with B zero (R115). -/
def Raw.setBI (r : Raw) : SrcImm → Raw | .src s => r.setB s | .imm i => r.setI i
def bsOf : SrcImm → Int | .src _ => 0 | .imm _ => 1

def encI (h : Hd) (o : Opc) (ty : ITy) (sat te bs sel : Int) (d : Dst) (a : Src) : Raw :=
  (((rHd h o).setM [(1, sel), (1, 0), (1, bs), (1, te), (1, sat), (1, ityVal ty)]).setD d).setA a
def encI1 (o : Opc) (x : I1) : Raw := encI x.hd o x.ty x.sat x.te 0 0 x.d x.a
def encI2 (o : Opc) (x : I2) : Raw := (encI x.hd o x.ty x.sat x.te (bsOf x.b) 0 x.d x.a).setBI x.b
def encI3 (o : Opc) (x : I3) : Raw := ((encI x.hd o x.ty x.sat x.te 0 0 x.d x.a).setB x.b).setC x.c
def encF (h : Hd) (o : Opc) (ty : FTy) (fzi fzo te cs : Int) (d : Dst) (a : Src) : Raw :=
  (((rHd h o).setM [(1, 0), (1, cs), (1, te), (1, fzo), (1, fzi), (1, ftyVal ty)]).setD d).setA a
def encF1 (o : Opc) (x : F1) : Raw := encF x.hd o x.ty x.fzi x.fzo x.te 0 x.d x.a
def encF2 (o : Opc) (x : F2) : Raw := (encF x.hd o x.ty x.fzi x.fzo x.te 0 x.d x.a).setB x.b
/-- Class -+ and the conversions: te, trit 17, trit 18, trit 19, trits 21-20 (R117, R119). -/
def Raw.setMC (r : Raw) (te t17 t18 t19 ty : Int) : Raw := r.setM [(1, te), (1, t17), (1, t18), (1, t19), (2, ty)]
/-- Class 0-: trit 16, scale, trit 19, trit 20, width (R118). -/
def Raw.setMM (r : Raw) (t16 k t19 t20 w : Int) : Raw := r.setM [(1, t16), (2, k), (1, t19), (1, t20), (1, w)]
def Raw.setTop (r : Raw) (t : Int) : Raw := r.setM [(5, 0), (1, t)]
def Raw.setRc (r : Raw) : Option Nat → Raw | none => r | some n => { r with ci := n }
def rcBit : Option Nat → Int | none => 0 | some _ => 1
def encVRed (o : Opc) (x : VRed) : Raw :=
  (((rHd x.hd o).setMC x.te x.fzo x.s18 x.op (vtyVal x.ty)).setD x.d).setA x.a
def encTarget (r : Raw) : Target → Raw | .rel i => r.setI i | .reg b i => ((r.setTop 1).setA (.g b)).setI i
def encBar (h : Hd) (v q n : Int) : Raw :=
  ((rHd h .bar).setM [(2, 0), (2, 0), (2, v)]).setI (pack [(12, n), (4, q)])
def encSn (h : Hd) (v op k : Int) : Raw := ((rHd h .sn).setM [(2, 0), (2, op), (2, v)]).setI k
def encTb (h : Hd) (v : Int) (a b : Nat) (e : Int) : Raw :=
  ((((rHd h .tb).setM [(2, 0), (2, 0), (2, v)]).setA (.g a)).setB (.g b)).setI e
def encNear (o : Opc) (x : Near) : Raw := (((rHd x.hd o).setA (.g x.base)).setB x.off).setI x.e
def encDbg (h : Hd) (o : Opc) (d b : Nat) : Raw := ((rHd h o).setGD d).setB (.g b)
def encHItem (r : Raw) : HItem → Raw
  | .pc => r | .depth => r.setM [(2, 0), (2, 1), (2, 0)] | .link e => (r.setM [(2, 0), (2, -1), (2, 0)]).setI e
def atomOpVal : AtomOp → Int | .add => 0 | .min => -1 | .max => 1 | .xchg => 2 | .cas => 3 | .tbin _ => -2

/-- The fields of a full-form instruction; none for a paired word and for an event. -/
def encRaw : Instr → Option Raw
  | .abs x => some (encI1 .abs x) | .neg x => some (encI1 .neg x) | .sgn x => some (encI1 .sgn x) | .tlz x => some (encI1 .tlz x)
  | .add x => some (encI2 .add x) | .sub x => some (encI2 .sub x) | .mul x => some (encI2 .mul x)
  | .mulh x => some (encI2 .mulh x) | .div x => some (encI2 .div x) | .divz x => some (encI2 .divz x)
  | .mod x => some (encI2 .mod x) | .min x => some (encI2 .min x) | .max x => some (encI2 .max x)
  | .tsh x => some (encI2 .tsh x) | .trot x => some (encI2 .trot x)
  | .mad x => some (encI3 .mad x) | .tsel x => some (encI3 .tsel x)
  | .tcnt x => some (encI x.hd .tcnt x.ty x.sat x.te 0 x.sel x.d x.a)
  | .tmap x => some ((encI x.hd .tmap x.ty x.sat x.te 0 0 x.d x.a).setI x.tbl)
  | .tbin x => some (((encI x.hd .tbin x.ty x.sat x.te 0 0 x.d x.a).setB x.b).setI x.tbl)
  | .fadd x => some (encF2 .fadd x) | .fsub x => some (encF2 .fsub x) | .fmul x => some (encF2 .fmul x)
  | .fmin x => some (encF2 .fmin x) | .fmax x => some (encF2 .fmax x) | .fdiv x => some (encF2 .fdiv x)
  | .fma x => some (((encF x.hd .fma x.ty x.fzi x.fzo x.te 0 x.d x.a).setB x.b).setC x.c)
  | .fneg x => some (encF1 .fneg x) | .fabs x => some (encF1 .fabs x) | .fsqrt x => some (encF1 .fsqrt x)
  | .frcp x => some (encF1 .frcp x) | .frsq x => some (encF1 .frsq x) | .fexp x => some (encF1 .fexp x)
  | .flog x => some (encF1 .flog x) | .fexp3 x => some (encF1 .fexp3 x) | .flog3 x => some (encF1 .flog3 x)
  | .ftanh x => some (encF1 .ftanh x) | .fcls x => some (encF1 .fcls x)
  | .fscl x => some ((encF x.hd .fscl x.ty x.fzi x.fzo x.te (bsOf x.k) x.d x.a).setBI x.k)
  | .frnd x => some ((encF x.hd .frnd x.ty x.fzi x.fzo x.te 0 x.d x.a).setI x.pos)
  | .fcmp x => some ((((((rHd x.hd .fcmp).setMC x.te 0 x.fzi 0 (match x.ty with | .f9 => -3 | .f27 => 3)).setPD x.pd).setA x.a).setB x.b).setI x.u)
  | .cmp x => some (((((rHd x.hd .cmp).setMC x.te 0 x.sat (bsOf x.b) (ityVal x.ty)).setPD x.pd).setA x.a).setBI x.b)
  | .sel x => some (((((((rHd x.hd .sel).setMC x.te 0 x.sat 0 (boolVal x.dbl)).setD x.d).setA x.a).setB x.b).setC x.c).setI
      (pack [(2, psrcIdx x.p), (14, psrcKind x.p)]))
  | .pset x => some (((((rHd x.hd .pset).setMC x.te 0 0 0 0).setPD x.pd).setA x.a).setI x.j)
  | .ptbl x => some ((((((rHd x.hd .ptbl).setMC x.te 0 0 0 0).setPD x.pd).setPA x.a).setPB x.b).setI x.tbl)
  | .pany x => some ((((rHd x.hd .pany).setMC x.te 0 0 0 0).setPD x.qd).setPA x.a)
  | .pall x => some ((((rHd x.hd .pall).setMC x.te 0 0 0 0).setPD x.qd).setPA x.a)
  | .pcnt x => some (((((rHd x.hd .pcnt).setMC x.te 0 0 0 0).setD x.d).setPA x.a).setI x.c)
  | .shfl x => some ((((((rHd x.hd .shfl).setMC x.te 0 x.sat 0 (boolVal x.dbl)).setD x.d).setA x.a).setB x.b).setI x.off)
  | .bcst x => some (((((rHd x.hd .bcst).setMC x.te 0 x.sat 0 (boolVal x.dbl)).setD x.d).setA x.a).setI x.lane)
  | .vred x => some (encVRed .vred x) | .vscan x => some (encVRed .vscan x)
  | .ld x => some (((((rHd x.hd .ld).setMM (boolVal x.ts) x.ad.scale (rcBit x.rc) (boolVal x.sc) (widthVal x.w)).setD x.d).setAddr x.ad).setRc x.rc)
  | .st x => some ((((rHd x.hd .st).setMM 0 x.ad.scale 0 (boolVal x.sc) (widthVal x.w)).setAddr x.ad).setC x.c)
  | .ldg x => some (((((rHd x.hd .ldg).setMM 0 0 0 0 (boolVal x.dbl)).setGD x.d).setA (.g x.base)).setI x.e)
  | .stg x => some (((((rHd x.hd .stg).setMM 0 0 0 0 (boolVal x.dbl)).setA (.g x.base)).setC (.g x.c)).setI x.e)
  | .lds x => some (((((rHd x.hd .lds).setMM (boolVal x.ts) x.ad.scale (rcBit x.rc) 0 (widthVal x.w)).setD x.d).setAddr x.ad).setRc x.rc)
  | .sts x => some ((((rHd x.hd .sts).setMM 0 x.ad.scale 0 0 (widthVal x.w)).setAddr x.ad).setC x.c)
  | .atom x => some (((((rHd x.hd .atom).setM [(2, (x.ad.scale : Int)), (2, atomOpVal x.op), (1, boolVal x.sc), (1, boolVal x.dbl)]).setD x.d).setAddr
      (match x.op with | .tbin t => { x.ad with e := t } | _ => x.ad)).setC x.c)
  | .red x =>
    let r := (((rHd x.hd .red).setMM (if x.flt then -1 else 0) x.ad.scale x.op (if x.det.isSome then 1 else 0) (widthVal x.w)).setAddr x.ad).setC x.c
    some (match x.det with | some g => r.setGD g | none => r)
  | .ldmc x => some (((rHd x.hd .ldmc).setA (.g x.a)).setB (.g x.b))
  | .pref x => some ((((rHd x.hd .pref).setMM 0 x.ad.scale 0 0 0).setAddr x.ad).setRc (some x.n))
  | .fence x => some ((rHd x.hd .fence).setM [(3, 0), (1, x.kind), (2, x.scope)])
  | .ldtag x => some ((((rHd x.hd .ldtag).setMM 0 x.ad.scale 0 0 0).setD x.d).setAddr x.ad)
  | .sttag x => some ((((rHd x.hd .sttag).setMM 0 x.ad.scale 0 0 0).setAddr x.ad).setC x.c)
  | .cflush x => some (((rHd x.hd .cflush).setMM 0 x.ad.scale 0 0 0).setAddr x.ad)
  | .cinv x => some (((rHd x.hd .cinv).setMM 0 x.ad.scale 0 0 0).setAddr x.ad)
  | .icinv x => some (encNear .icinv x) | .touch x => some (encNear .touch x)
  | .isync h => some (rHd h .isync) | .nop h => some (rHd h .nop) | .rft h => some (rHd h .rft)
  | .ret h => some (rHd h .ret) | .yld h => some (rHd h .yld) | .exit h => some (rHd h .exit)
  | .mov x => some ((((rHd x.hd .mov).setTop (boolVal x.dbl)).setD x.d).setA x.a)
  | .movi x => some (setLong ((rHd x.hd .movi).setD x.d) x.imm)
  | .movh x => some (setLong ((rHd x.hd .movh).setD x.d) x.imm)
  | .movg x => some ((((rHd x.hd .movg).setGD x.gd).setA x.a).setI x.lane)
  | .movs x => some (match x.op with
      | .read d m => ((rHd x.hd .movs).setD d).setI (sregNum m)
      | .write a m => ((rHd x.hd .movs).setA a).setI (-(sregNum m : Int)))
  | .movc x => some (((rHd x.hd .movc).setD x.d).setPA x.a)
  | .cvt x => some ((((rHd x.hd .cvt).setMC x.te x.fzo x.fzi x.sat (cvtVal x.op)).setD x.d).setA x.a)
  | .bcvt x => some ((((rHd x.hd .bcvt).setMC x.te x.x17 x.tf (if x.toTernary then 1 else -1) (bfmtVal x.fmt)).setD x.d).setA x.a)
  | .pack x => some ((((rHd x.hd .pack).setTop x.fmt).setD x.d).setA x.a)
  | .unpack x => some ((((rHd x.hd .unpack).setTop x.fmt).setD x.d).setA x.a)
  | .bra x => some (encTarget (rHd x.hd .bra) x.t) | .call x => some (encTarget (rHd x.hd .call) x.t)
  | .jmpi x => some ((((rHd x.hd .jmpi).setTop 1).setA x.a).setI x.imm)
  | .calli x => some ((((rHd x.hd .calli).setTop 1).setA x.a).setI x.imm)
  | .waitj x => some (((rHd x.hd .waitj).setD x.d).setI x.n)
  | .barA x => some (encBar x.hd 0 x.q x.n) | .barS x => some (encBar x.hd 1 x.q x.n)
  | .barD x => some (encBar x.hd (-1) x.q x.n) | .barW x => some (encBar x.hd 2 x.q 0)
  | .sna x => some (encSn x.hd 0 0 x.k) | .snd x => some (encSn x.hd (-1) 0 x.k)
  | .snr x => some ((encSn x.hd 3 x.op x.k).setA (.g x.a)) | .snb x => some ((encSn x.hd 2 0 x.k).setA (.g x.a))
  | .snw x => some ((encSn x.hd 1 0 x.k).setGD x.d) | .snp x => some ((encSn x.hd (-2) 0 x.k).setGD x.d)
  | .tbinit x => some (encTb x.hd (-2) x.a x.b x.e) | .tbarr x => some (encTb x.hd 1 x.a x.b x.e)
  | .tbexp x => some (encTb x.hd 2 x.a x.b x.e) | .tbwait x => some (encTb x.hd 3 x.a x.b x.e)
  | .tbtest x => some ((encTb x.hd (-1) x.a x.b x.e).setGD x.d)
  | .sleept x => some (((rHd x.hd .sleept).setA x.a).setI x.e)
  | .win x => some (((rHd x.hd .win).setA (.g x.a)).setI x.k) | .winrel x => some ((rHd x.hd .winrel).setI x.k)
  | .task x => some (((((rHd x.hd .task).setTop x.hint).setGD x.d).setA (.g x.a)).setI x.imm)
  | .tqry x => some (((rHd x.hd .tqry).setGD x.d).setA (.g x.a))
  | .send x => some ((((rHd x.hd .send).setA (.g x.a)).setB (.g x.b)).setI x.port)
  | .recv x => some (((rHd x.hd .recv).setA (.g x.a)).setI x.port)
  | .xfst x => some ((((rHd x.hd .xfst).setGD x.d).setA (.g x.a)).setI x.imm)
  | .xtab x => some ((((rHd x.hd .xtab).setGD x.d).setA (.g x.a)).setI x.slot)
  | .lnch x => some ((((rHd x.hd .lnch).setGD x.d).setA (.g x.a)).setI x.imm)
  | .role x => some (((rHd x.hd .role).setA (.g x.a)).setI (pack [(2, x.c), (14, (x.b : Int))]))
  | .preh x => some (((rHd x.hd .preh).setA (.g x.a)).setI x.imm)
  | .trap x => some ((rHd x.hd .trap).setI x.imm) | .brk x => some ((rHd x.hd .brk).setI x.imm)
  | .wset x => some (((((rHd x.hd .wset).setGD x.d).setA (.g x.a)).setB (.g x.b) |>.setC (.g x.c)).setI x.unit)
  | .wclr x => some ((encDbg x.hd .wclr x.d x.b).setI x.unit) | .wrd x => some ((encDbg x.hd .wrd x.d x.b).setI x.unit)
  | .hlst x => some (encDbg x.hd .hlst x.d x.b) | .hstep x => some (encDbg x.hd .hstep x.d x.b)
  | .hrdv x => some ((encDbg x.hd .hrdv x.d x.b).setI x.item)
  | .hwrv x => some (((encDbg x.hd .hwrv x.d x.b).setA (.g x.a)).setI x.item)
  | .hrdp x => some (encHItem (encDbg x.hd .hrdp x.d x.b) x.item)
  | .hwrp x => some (encHItem ((encDbg x.hd .hwrp x.d x.b).setA (.g x.a)) x.item)
  | .hres x => some ((encDbg x.hd .hres x.d x.b).setM [(4, 0), (2, x.scope)])
  | _ => none

/-- The fields of a half. -/
def encHalf (h : Half) : RawHalf :=
  let s := h.s.getD (.v 40)
  ⟨popVal h.op, prIdx h.pred, dstMode h.d, dstIdx h.d, srcKind s, srcIdx s,
    pack [(1, h.m6), (1, h.m7), (1, h.m8)], h.imm⟩

/-- The 54-trit word of an instruction; none for an event, which has no encoding. -/
def encode (i : Instr) : Option Int :=
  match i with
  | .pairedWord a b => some (pack [(26, writeHalf (encHalf b)), (26, writeHalf (encHalf a)), (2, -4)])
  | i => (encRaw i).map writeRaw

/-- Decode a 54-trit word, rejecting by name. -/
def decode (w : Int) : Except DecodeError Instr :=
  match parseWord w with
  | .error e => .error e
  | .ok i => if !i.wf then .error .operand else if encode i = some w then .ok i else .error .unusedField

/-- The instruction of a word, none where decoding rejects it. -/
def decode? (w : Int) : Option Instr := match decode w with | .ok i => some i | .error _ => none

/-! ### Words as bits

A word of 54 trits leaves the package through the binary shell as eleven bytes, five trits a byte, least
significant group first, the last group padded with a zero trit (R42). -/

/-- The five trits of a byte, or none for an invalid byte (R42). -/
def groupOfByte (b : Nat) : Option Int := if b ≤ 242 then some ((b : Int) - 121) else none
/-- The byte of a group of five trits (R42). -/
def byteOfGroup (g : Int) : Nat := (g + 121).toNat

/-- The 54-trit value of eleven bytes packed in a number, byte 0 lowest; none for an invalid byte or a
nonzero pad trit. -/
def wordOfBits (w : Nat) : Option Int :=
  let gs := (List.range 11).map fun k => groupOfByte (Nat.div w (Nat.pow 256 k) % 256)
  if gs.all Option.isSome then
    let v := join 5 (gs.map fun g => g.getD 0)
    if canon v 54 then some v else none
  else none

/-- The eleven bytes of a 54-trit value, packed in a number. -/
def bitsOfWord (v : Int) : Nat :=
  ((split 5 11 v).map byteOfGroup).foldr (fun b acc => b + 256 * acc) 0

/-- The instruction that the decoder reads from an instruction word laid out in eleven bytes (88 bits)
under R42; the opcode table gives this hardware's rows no bits, so nbits is not used. -/
def decodeTableWord (nbits w : Nat) : Option Instr :=
  match wordOfBits (w % Nat.pow 2 (max nbits 88)) with
  | none => none
  | some v => decode? v

end Sys2Proof
end

