-- ==== Sys2Proof/Machine/Channels.lean ====
section
/-! DEFINITION. Machine/Channels.lean: the escapement's channels (R213 to R223). -/

namespace Sys2Proof.Machine

open Sys2Proof Tern

/-- Operations of a channel (R216): −4 barrier, −3 broadcast, −1 MIN, 0 ADD, +1 MAX, +3 TBIN. -/
def chanOps : List Int := [-4, -3, -1, 0, 1, 3]

/-- A channel descriptor passes R216; total bounds the expected count. -/
def chanDescOk (d : Int) (total : Int) : Bool :=
  (field d 26 26 == 0 || field d 26 26 == 1) && field d 25 24 == 0 && chanOps.contains (field d 23 22) && field d 21 21 == 0 &&
  (field d 23 22 == 3 || field d 20 12 == 0) && decide (1 ≤ field d 11 0 ∧ field d 11 0 ≤ 265720 ∧ field d 11 0 ≤ total)

/-- The record of a channel at its grant (R216). -/
def Channel.grant (ch : Nat) (lid : Option Nat) (name : Nat) (d : Int) : Channel :=
  ⟨ch, lid, name, field d 26 26 == 1, field d 23 22, field d 20 12, 0, field d 11 0, 0, 0, [], [], [], none, 0, -9, [], [], false, 0⟩

/-- What a channel name finds (R214, R222). -/
inductive ChanRef
  | ok (ch : Nat)
  | priv
  | snx
  deriving DecidableEq, Repr

/-- The channel that a warp names by k (R214). -/
def chanRef (s : State) (w : Warp) (k : Int) : ChanRef :=
  if k < 0 then
    if w.user then .priv
    else match s.chans.find? fun c => c.lid.isNone && (c.name : Int) == k + 9 with
      | some c => if k + 9 ≤ 4 then .snx else .ok c.ch
      | none => .snx
  else match w.gid with
    | none => .snx
    | some g => match s.gang? g with
      | none => .snx
      | some g => match s.launch? g.lid with
        | none => .snx
        | some x => match x.chans[k.toNat]? with | some ch => .ok ch | none => .snx

/-- Cycles from completion to release (R213). -/
def Channel.latency (c : Channel) : Int := if c.pkgSpan then 81 else 27

/-- The value a release carries (R220). -/
def Channel.fold (c : Channel) : Int :=
  let vs := (sortBy (fun a b => decide (a.1 < b.1)) c.vals).map fun p => p.2
  if c.op = -3 then c.acc.getD 0
  else if c.op = 0 then narrow (vs.foldl (fun a x => a + x) 0) 27
  else if c.op = -1 then vs.foldl (fun a x => min a x) (maxv 27)
  else if c.op = 1 then vs.foldl (fun a x => max a x) (-maxv 27)
  else if c.op = 3 then (match vs with | [] => 0 | v :: r => r.foldl (fun a x => tbin c.table a x 27) v)
  else 0

/-- Complete the open phase at cycle t (R219). -/
def Channel.complete (c : Channel) (t : Int) : Channel :=
  let tc := max t (c.lastTc + 9)
  { c with phase := nextPhase c.phase, count := c.count + 1, arrived := [], vals := [], acc := none, dropsNow := 0, lastTc := tc,
           due := c.due ++ [⟨c.count, tc + c.latency, c.fold, c.arrived⟩] }

/-- A warp's latest arrival on a channel. -/
def Channel.seenBy (c : Channel) (wid : Nat) : Option (Nat × Option Int) :=
  (c.seen.find? fun p => p.1 == wid).map fun p => p.2
def Channel.setSeen (c : Channel) (wid n : Nat) (v : Option Int) : Channel :=
  { c with seen := (wid, n, v) :: c.seen.filter fun p => p.1 != wid }

/-- Kinds of arrival (R217): plain, dropping, a value folded by an operation, a broadcast value. -/
inductive Arrival
  | plain
  | dropping
  | value (op x : Int)
  | bcast (x : Int)
  deriving DecidableEq, Repr

/-- The misuse cases of R222 for an arrival. -/
def Channel.misuse (c : Channel) (wid : Nat) (a : Arrival) : Bool :=
  c.dropped.contains wid || decide (c.expected - (c.drops - c.dropsNow) < 1) ||
  (match a with
    | .value op _ => op != c.op || c.op == -4 || c.op == -3 || c.arrived.contains wid
    | .bcast _ => c.op != -3 || c.acc.isSome || c.arrived.contains wid
    | _ => false)

/-- An arrival by a warp (R218). key: its core, bay and slot. -/
def Channel.arrive (c : Channel) (wid key : Nat) (a : Arrival) (now : Int) : Channel :=
  if c.arrived.contains wid then c
  else
    let c1 := { c with arrived := c.arrived ++ [wid] }.setSeen wid c.count none
    let c2 := match a with
      | .value _ x => { c1 with vals := c1.vals ++ [(key, x)] }
      | .bcast x => { c1 with acc := some x }
      | .dropping => { c1 with dropped := c1.dropped ++ [wid], drops := c1.drops + 1, dropsNow := c1.dropsNow + 1 }
      | .plain => c1
    if (c2.arrived.length : Int) = c2.expected - (c2.drops - c2.dropsNow) then c2.complete now else c2

/-- A channel's members (R215): the cores of the launch's gangs; for a system channel every live core, and the M-dies' agents, the sequencers in
service, as 768 and their numbers. -/
def chanMembers (s : State) (c : Channel) : List Nat :=
  match c.lid with
  | some lid => nodups ((s.gangs.filter fun g => g.lid == lid && !g.saved).flatMap fun g => g.cores)
  | none => ((upto Config.cores).filter fun n => !s.pkg.deadCores.contains n) ++
      ((upto 27).filter fun q => !s.pkg.deadSeqs.contains q).map fun q => Config.cores + q

/-- Deliver a release (R219, R221, R223): latch it for each warp that arrived, write Gd of each waiting warp, end the
waits on that phase. -/
def applyRelease (s : State) (ch : Nat) (r : Release) : State :=
  let s1 := s.modChan ch fun c =>
    { c with value := r.value,
             seen := c.seen.map fun p => if r.warps.contains p.1 && p.2.1 == r.n && p.2.2.isNone then (p.1, p.2.1, some r.value) else p }
  let isWait (x : Wait) : Bool := match x.kind with | .chan c n _ => c == ch && n == r.n | _ => false
  let gds (w : Warp) : List Nat := nodups ((upto 27).flatMap fun l =>
    [(w.lane l).wait, (w.lane l).hwait].filterMap fun o => match o with
      | some ⟨.chan c n gd, _⟩ => if c == ch && n == r.n then some gd else none
      | _ => none)
  { s1 with warps := s1.warps.map fun w => ((gds w).foldl (fun w gd => w.setG gd r.value) w).wake isWait }

/-- The due releases of a channel at the present cycle, delivered. -/
def releaseDue (s : State) (ch : Nat) : State :=
  match s.chan? ch with
  | none => s
  | some c =>
    let rs := c.due.filter fun r => decide (r.at_ ≤ s.now)
    rs.foldl (fun s r => applyRelease s ch r) (s.modChan ch fun c => { c with due := c.due.filter fun r => decide (s.now < r.at_) })

/-- Break a channel (R223): every waiting lane traps with UNCOR at its SNW word; a handler's wait stands at the handler PC (R279, R280). -/
def breakChan (s : State) (ch : Nat) : State :=
  let s1 := s.modChan ch fun c => { c with broken := true }
  let isWait (x : Wait) : Bool := match x.kind with | .chan c _ _ => c == ch | _ => false
  s1.warps.foldl (fun s w =>
    let ls := w.waiting isWait
    if ls.isEmpty then s
    else
      let hw := w.lanes.findSome? fun x => match x.hwait with | some y => if isWait y then some y.word else none | none => none
      let s2 := s.modWarp w.wid fun w => { (w.modLanes ls fun _ x =>
        { x with pc := match x.wait with | some y => if isWait y then y.word else x.pc | none => x.pc }).wake isWait with
          hpc := hw.getD w.hpc }
      s2.enterTrap w.wid ⟨cause.uncor, listed ls 0 0⟩) s1

end Sys2Proof.Machine
end

