-- ==== Sys2Proof/Machine/Tasks.lean ====
section
/-! DEFINITION. Machine/Tasks.lean: weight macros and tile tasks (R226 to R243): record checks, the A and B
operands, accumulation, the epilogue. -/

namespace Sys2Proof.Machine

open Sys2Proof Tern

/-! ### Record checks (R232 to R235, R238, R458) -/

/-- A set of scratchpad lines: base, rows, pitch in lines, lines per row. -/
structure Rows where
  (base : Int) (rows pitch width : Int)
  deriving DecidableEq, Repr

/-- First address beyond the last line. -/
def Rows.stop (r : Rows) : Int := r.base + 81 * ((r.rows - 1) * r.pitch + r.width)
/-- A line address belongs to the set. -/
def Rows.has (r : Rows) (a : Int) : Bool :=
  let d := (a - r.base) / 81
  decide (r.base ≤ a ∧ d / r.pitch < r.rows ∧ d % r.pitch < r.width) ||
    (decide (r.pitch < r.width ∧ r.base ≤ a ∧ a < r.stop))
/-- The lines of the set, in order. -/
def Rows.lines (r : Rows) : List Int :=
  (upto r.rows.toNat).flatMap fun (m : Nat) => (upto r.width.toNat).map fun (c : Nat) => r.base + 81 * ((m : Int) * r.pitch + (c : Int))
/-- Two sets share a line. -/
def Rows.meets (r q : Rows) : Bool := r.lines.any q.has
/-- A nine-tryte object at b lies on a line of the set. -/
def Rows.hits (r : Rows) (b : Int) : Bool := r.has (81 * (b / 81))

/-- A charge: a word index and whether its condition fails. -/
abbrev Charge := Nat × Bool
/-- The lowest index charged (R458). -/
def lowestCharge (l : List Charge) : Option Nat :=
  (l.filter fun c => c.2).foldl (fun m c => some (match m with | some i => min i c.1 | none => c.1)) none

def inR (v lo hi : Int) : Bool := decide (lo ≤ v ∧ v ≤ hi)
/-- A line-aligned address inside the allotment. -/
def lineOk (g : Gang) (a : Int) : Bool := a % 81 == 0 && g.holds a 81
/-- Words lo to hi are zero. -/
def zeros (r : List Int) (lo hi : Nat) : List Charge :=
  (upto (hi + 1 - lo)).map fun i => (lo + i, wordAt r (lo + i) != 0)

/-- Columns of a tile select in a mode (R226): -1 TI1, 0 TI3, +1 TI9. -/
def tileCols (mode sel : Int) : Int := if sel = -1 then (if mode = 0 then 243 else if mode = -1 then 729 else 81) else 81
/-- A tile select suits a mode (R234). -/
def tileOk (mode sel : Int) : Bool :=
  if mode = 1 then sel == 0 else if mode = 0 then inR sel (-1) 2 else inR sel (-1) 8

/-- The neighbour of a core on a port (R15, R16): 1 north, 2 east, 3 south, 4 west. -/
def neighbour (core port : Nat) : Option Nat :=
  let x := core % 8
  let y := core / 8 % 8
  if port = 1 then (if y = 0 then none else some (core - 8))
  else if port = 2 then (if x = 7 then none else some (core + 1))
  else if port = 3 then (if y = 7 then none else some (core + 8))
  else if port = 4 then (if x = 0 then none else some (core - 1))
  else none
/-- The facing port. -/
def facing (port : Nat) : Nat := if port ≤ 2 then port + 2 else port - 2

/-- The link of a core's port, as R290 names it: by the lower-numbered core. -/
def linkOf (kind : Int) (core port : Nat) : Option LinkId :=
  (neighbour core port).map fun n => if core < n then ⟨kind, core, port⟩ else ⟨kind, n, facing port⟩
/-- A core's stream port is in service: its link is not fenced (R22). -/
def portLive (s : State) (core port : Nat) : Bool := match linkOf 3 core port with | some l => !s.pkg.deadLinks.contains l | none => true

/-- The barriers that a task record names: its completion barrier and its dependences. -/
def taskBarriers (r : List Int) : List Int :=
  (if wordAt r 1 = -1 then [] else [wordAt r 1]) ++ ([2, 3, 4].filterMap fun i => (depOf (wordAt r i)).map fun p => p.2)

/-- The A rows of an MM record. -/
def mmA (r : List Int) : Rows := ⟨wordAt r 11, wordAt r 10, wordAt r 12, wordAt r 7⟩
/-- The C rows of an MM or STREAM record. -/
def mmC (r : List Int) : Rows := ⟨wordAt r 13, wordAt r 10, wordAt r 14, tileCols (wordAt r 15) (wordAt r 8) / 27⟩
/-- The C rows and output rows of an EPI record. -/
def epiC (r : List Int) : Rows := ⟨wordAt r 6, wordAt r 8, wordAt r 7, wordAt r 9 / 27⟩
def epiOut (r : List Int) : Rows := ⟨wordAt r 12, wordAt r 8, wordAt r 13, if wordAt r 10 = 1 then wordAt r 9 / 27 else wordAt r 9 / 81⟩
/-- The B rows of a WLOAD record. -/
def wloadB (r : List Int) : Rows := ⟨wordAt r 7, 81, wordAt r 8, 1⟩

/-- The kind of a task record (R232). -/
def taskKind (r : List Int) : Int := field (wordAt r 0) 26 24

/-- A global word address that a record names (R235). -/
def wordAddrOk (a : Int) : Bool := canonicalAddr a && a % 3 == 0

/-- The charges of the common words (R232). -/
def commonCharges (g : Gang) (r : List Int) : List Charge :=
  [(0, field (wordAt r 0) 23 0 != 0),
   (1, wordAt r 1 != -1 && !(wordAt r 1 % 9 == 0 && g.holds (wordAt r 1) 9 && !g.inWindow (wordAt r 1)))] ++
  ([2, 3, 4].map fun i => (i, match trit (wordAt r i) 23 with
      | 0 => wordAt r i != 0
      | 1 => !(field (wordAt r i) 22 0 % 9 == 0 && g.holds (field (wordAt r i) 22 0) 9)
      | _ => true)) ++
  [(5, wordAt r 5 != 0), (25, wordAt r 25 != 0), (26, wordAt r 26 != 0)]

/-- The charges of a range: it leaves the allotment, covers the record line, or a barrier the record names. -/
def rangeCharges (g : Gang) (ra : Int) (r : List Int) (x : Rows) (ok : Bool) (i : Nat) (barriers : Bool) : List Charge :=
  if !ok then [] else
    [(i, !g.holds x.base (x.stop - x.base)), (i, x.has ra)] ++
    (if barriers then (taskBarriers r).map fun b => (i, x.hits b) else [])

def wloadCharges (g : Gang) (ra : Int) (r : List Int) : List Charge :=
  let h : Int := g.slots.length
  let ok7 := lineOk g (wordAt r 7)
  let ok8 := inR (wordAt r 8) 1 81
  [(6, !inR (wordAt r 6) 0 (h - 1)), (7, !ok7), (8, !ok8), (9, !inR (wordAt r 9) (-1) 1)] ++ zeros r 10 24 ++
  rangeCharges g ra r (wloadB r) (ok7 && ok8) 8 false

def mmCharges (g : Gang) (core : Nat) (ra : Int) (r : List Int) (stream : Bool) : List Charge :=
  let h : Int := g.slots.length
  let ok6 := inR (wordAt r 6) 0 (h - 1)
  let ok7 := inR (wordAt r 7) 1 32
  let ok8 := inR (wordAt r 8) (-1) 8
  let ok15 := inR (wordAt r 15) (-1) 1
  let ok10 := inR (wordAt r 10) 1 729
  let ok11 := if stream then inR (wordAt r 11) 1 4 else lineOk g (wordAt r 11)
  let ok12 := if stream then inR (wordAt r 12) 0 4 else decide (1 ≤ wordAt r 12)
  let ok13 := lineOk g (wordAt r 13)
  let ok14 := decide (1 ≤ wordAt r 14)
  let suits := ok8 && ok15 && tileOk (wordAt r 15) (wordAt r 8)
  let okA := !stream && ok7 && ok10 && ok11 && ok12 && decide (wordAt r 7 ≤ wordAt r 12)
  let okC := suits && ok10 && ok13 && ok14 && decide (tileCols (wordAt r 15) (wordAt r 8) / 27 ≤ wordAt r 14)
  [(6, !ok6), (7, !ok7), (7, ok6 && ok7 && decide (wordAt r 6 + wordAt r 7 > h)), (8, !ok8), (15, !ok15),
   (15, ok8 && ok15 && !suits), (9, !inR (wordAt r 9) 1 9), (10, !ok10), (11, !ok11), (12, !ok12),
   (12, !stream && ok7 && ok12 && decide (wordAt r 12 < wordAt r 7)),
   (12, stream && ok11 && ok12 && wordAt r 12 == wordAt r 11),
   (11, stream && ok11 && (neighbour core (wordAt r 11).toNat).isNone),
   (12, stream && ok12 && wordAt r 12 != 0 && (neighbour core (wordAt r 12).toNat).isNone),
   (13, !ok13), (14, !ok14), (15, suits && ok14 && decide (wordAt r 14 < tileCols (wordAt r 15) (wordAt r 8) / 27)),
   (16, !inR (wordAt r 16) 0 1)] ++ zeros r 17 24 ++
  rangeCharges g ra r (mmA r) okA 12 false ++ rangeCharges g ra r (mmC r) okC 15 true ++
  (if okA && okC then [(15, (mmA r).meets (mmC r))] else [])

def epiCharges (g : Gang) (ra : Int) (r : List Int) : List Charge :=
  let ok6 := lineOk g (wordAt r 6)
  let ok7 := decide (1 ≤ wordAt r 7)
  let ok8 := inR (wordAt r 8) 1 729
  let ok9 := wordAt r 9 == 81 || wordAt r 9 == 243 || wordAt r 9 == 729
  let ok10 := inR (wordAt r 10) (-1) 1
  let ok12 := lineOk g (wordAt r 12)
  let ok13 := decide (1 ≤ wordAt r 13)
  let okC := ok6 && ok7 && ok8 && ok9 && decide (wordAt r 9 / 27 ≤ wordAt r 7)
  let okO := ok8 && ok9 && ok10 && ok12 && ok13 && decide ((epiOut r).width ≤ wordAt r 13)
  let ok15 := inR (wordAt r 15) 0 1
  let ok18 := inR (wordAt r 18) 0 1
  [(6, !ok6), (7, !ok7), (8, !ok8), (9, !ok9), (9, ok7 && ok9 && decide (wordAt r 7 < wordAt r 9 / 27)), (10, !ok10),
   (11, !inR (wordAt r 11) (-1) 1), (11, ok10 && wordAt r 10 != 0 && wordAt r 11 != 0), (12, !ok12), (13, !ok13),
   (13, ok9 && ok10 && ok13 && decide (wordAt r 13 < (epiOut r).width)), (14, !inR (wordAt r 14) (-121) 121), (15, !ok15),
   (16, ok15 && wordAt r 15 == 1 && !wordAddrOk (dblAt r 16)), (16, wordAt r 15 == 0 && wordAt r 16 != 0),
   (17, wordAt r 15 == 0 && wordAt r 17 != 0), (18, !ok18),
   (19, ok18 && wordAt r 18 == 1 && !wordAddrOk (dblAt r 19)), (19, wordAt r 18 == 0 && wordAt r 19 != 0),
   (20, wordAt r 18 == 0 && wordAt r 20 != 0)] ++ zeros r 21 24 ++
  rangeCharges g ra r (epiC r) okC 9 true ++ rangeCharges g ra r (epiOut r) okO 13 true

/-- The first offending word of a task record (R238, R458); none when it passes. -/
def taskCheck (g : Gang) (core : Nat) (ra : Int) (r : List Int) : Option Nat :=
  let k := taskKind r
  if k = 1 then lowestCharge (commonCharges g r ++ wloadCharges g ra r)
  else if k = 2 then lowestCharge (commonCharges g r ++ mmCharges g core ra r false)
  else if k = 3 then lowestCharge (commonCharges g r ++ mmCharges g core ra r true)
  else if k = 4 then lowestCharge (commonCharges g r ++ epiCharges g ra r)
  else some 0

/-! ### When a task may start (R239) -/

/-- The slots a task uses. -/
def taskSlots (r : List Int) : List Nat :=
  let k := taskKind r
  if k = 1 then [(wordAt r 6).toNat] else if k = 2 ∨ k = 3 then (upto (wordAt r 7).toNat).map fun i => (wordAt r 6).toNat + i else []
/-- Its C and output ranges. -/
def taskRanges (r : List Int) : List Rows :=
  let k := taskKind r
  if k = 2 ∨ k = 3 then [mmC r] else if k = 4 then [epiC r, epiOut r] else []

/-- Two tasks conflict (R239). -/
def conflict (a b : List Int) : Bool :=
  ((taskKind a == 1 || taskKind b == 1) && (taskSlots a).any fun x => (taskSlots b).contains x) ||
  ((taskRanges a).any fun x => (taskRanges b).any fun y => x.meets y)

/-- A queued task may start, as far as its gang goes: dependences met, conflicts ended, its slots idle (R239). -/
def Gang.mayStart (g : Gang) (t : Task) : Bool :=
  t.st == .queued && t.met.all (fun m => m) &&
  (g.tasks.all fun u => u.ticket == t.ticket || decide (t.ticket < u.ticket) || !conflict u.words t.words) &&
  (g.tasks.all fun u => u.st == .queued || u.ticket == t.ticket ||
    !((taskSlots u.words).any fun x => (taskSlots t.words).contains x))

/-- The cores of a gang in the order in which a task takes one of their macros or epilogue units: the preferred one first; without a
preference the even core first: DESIGN CHOICE, R122 leaves open which free macro of the pair hint 0 takes (log entry 104). -/
def Gang.prefer (g : Gang) (t : Task) : List Nat := if t.hint = 2 then g.cores.reverse else g.cores

/-- Scratchpad addresses of the lines that a task reads, in the order in which it reads them; C lines apart. -/
def taskReads (r : List Int) : List Int :=
  let k := taskKind r
  if k = 1 then (wloadB r).lines
  else if k = 2 then (mmA r).lines
  else if k = 4 then (epiC r).lines
  else []
/-- The lines that it writes, C lines among them. -/
def taskWrites (r : List Int) : List Int :=
  let k := taskKind r
  if k = 2 ∨ k = 3 then (mmC r).lines else if k = 4 then (epiOut r).lines else []

/-- The window lines among scratchpad line addresses. -/
def winLines (g : Gang) (ls : List Int) : List (Int × Nat × Nat) :=
  ls.filterMap fun a => (g.winAt (a / 81).toNat).map fun p => (a, p.1, p.2)

/-! ### Operands (R40, R228, R229) -/

/-- Word w of a line's data. -/
def lineWord (d : Store) (w : Nat) : Int := unitOf d (3 * w) 3

/-- Element e of a plane line of m planes (R40). -/
def planeElem (m : Nat) (d : Store) (e : Nat) : Int :=
  let gs := 27 / m
  ofTrits ((upto m).map fun i => trit (lineWord d (gs * (m - 1 - i) + e / 27)) (e % 27))

/-- A code that is read as 81 trytes. -/
def plainCode (c : Int) : Bool := c == 0 || c == 1 || inR c (-13) (-1) || inR c 7 11

/-- The elements of a B line in a mode (R226, R228), or the fault's detail. -/
def bLine (mode : Int) (x : LineRead) : Except Int (List Int × Int) :=
  match x with
  | .bad => .error 25
  | .reserved => .error 21
  | .data d t =>
    let ok := if mode = 1 then plainCode t.code else if mode = 0 then t.code == 4 || t.code == 7 else t.code == 5 || t.code == 7
    if !ok then .error 20
    else if !inR t.scale (-121) 121 then .error 22
    else .ok (if mode = 1 then sgets d 0 81
      else if mode = 0 then (upto 243).map (fun e => planeElem 3 d e)
      else (upto 729).map (fun e => planeElem 1 d e), t.scale)

/-- The A operand of a line: 81 integers, scale, NaN mark (R229), or the fault's detail. -/
def aLine (x : LineRead) : Except Int (List Int × Int × Bool) :=
  match x with
  | .bad => .error 25
  | .reserved => .error 21
  | .data d t =>
    if !(plainCode t.code || t.code == 6 || t.code == 2) then .error 20
    else if !inR t.scale (-121) 121 then .error 22
    else if t.code = 6 then .ok ((upto 81).map fun e => planeElem 9 d e, t.scale, false)
    else if t.code = 2 then
      let es := sgets d 0 81
      let ex (x : Int) : Int := let e := shr x 6; if e = -13 then -12 else e
      let nz := es.filter fun x => match tf9.dec x with | .fin m _ => m != 0 | _ => true
      let big : Int := match nz with | [] => -12 | y :: ys => ys.foldl (fun m x => max m (ex x)) (ex y)
      let al (x : Int) : Int := match tf9.dec x with
        | .fin m e => if e ≥ big - 8 then m * pow3 (e - (big - 8)).toNat else shr m (big - 8 - e).toNat
        | _ => 0
      .ok (es.map al, t.scale + big - 8, es.any fun x => (tf9.dec x).isNan)
    else .ok (sgets d 0 81, t.scale, false)

/-- Sum of products of two lists. -/
def dot : List Int → List Int → Int
  | a :: as, b :: bs => a * b + dot as bs
  | _, _ => 0

/-- Weight of row k, column n of a slot under a tile select (R226). -/
def Slot.weight (x : Slot) (sel : Int) (k n : Nat) : Int :=
  sget x.w (729 * k + (if sel ≤ 0 then n else 81 * sel.toNat + n))

/-- One chunk's addition to a C element (R230): the top p planes of a against the column, one rounding. -/
def mmStep (p : Nat) (a : List Int × Int × Bool) (col : List Int) (sb : Int) (c : Int) : Int × Fl :=
  let t : FV := if a.2.2 then .nan (pow3 20) else .fin (dot (a.1.map fun x => shr x (9 - p)) col) (9 - p + a.2.1 + sb)
  let cv := tf27.dec c
  tf27.finish 0 (match tf27.firstNan [cv, t] with | some n => n | none => addV cv t)

/-- One C element over the chunks in ascending order (R230). -/
def mmElem (p : Nat) (sel : Int) (n : Nat) : List ((List Int × Int × Bool) × Slot) → Int → Fl → Int × Fl
  | [], c, f => (c, f)
  | (a, x) :: r, c, f =>
    let y := mmStep p a ((upto 81).map fun k => x.weight sel k n) x.scale c
    mmElem p sel n r y.1 (f.or y.2)

/-- The C row that an MM or STREAM computes from a row's A operands (R230). -/
def mmRow (r : List Int) (slots : List Slot) (as : List (List Int × Int × Bool)) (old : Nat → Int) : List (Int × Fl) :=
  let n := (tileCols (wordAt r 15) (wordAt r 8)).toNat
  (upto n).map fun j => mmElem (wordAt r 9).toNat (wordAt r 8) j (List.zip as slots)
    (if wordAt r 16 = 1 then tf27.zero else old j) Fl.none

/-! ### The epilogue (R62, R236) -/

/-- One element of an EPI: y from x under shift s, format and saturation (R236). -/
def epiElem (fmt sat s : Int) (x : Int) : Int × Fl :=
  let v := tf27.dec x
  let sc : FV → FV := fun v => match v with | .fin m e => .fin m (e - s) | w => w
  if fmt = 1 then tf27.finish 0 (match tf27.firstNan [v] with | some n => n | none => resV (sc v))
  else if fmt = -1 then
    match v with
    | .nan pay =>
      let p5 := shr pay 16
      if tf27.signalling pay then (tf9.nanE (tf9.quiet p5), Fl.nan) else (tf9.nanE p5, Fl.none)
    | w => tf9.finish 0 (resV (sc w))
  else
    match sc v with
    | .nan pay => (0, if tf27.signalling pay then Fl.ovf.or Fl.nan else Fl.ovf)
    | .inf t => (t * 9841, Fl.ovf)
    | .fin m e =>
      let i := if e ≥ 0 then m * pow3 (min e.toNat 60) else shr m (min (-e).toNat 60)
      let z := fitF i 9 sat
      (z.1, z.2.or (if e < 0 && i * pow3 (min (-e).toNat 60) != m then Fl.inx else Fl.none))

/-- The largest magnitude among values that are no NaNs (R236). -/
def maxMag (xs : List Int) : Option Int :=
  xs.foldl (fun m x => match tf27.dec x with
    | .nan _ => m
    | _ => let a := tf27.absE x
           match m with | none => some a | some b => some (if cmpV (tf27.dec a) (tf27.dec b) > 0 then a else b)) none

end Sys2Proof.Machine
end

