-- ==== Sys2Proof/Machine/Home.lean ====
section
/-! DEFINITION. Machine/Home.lean: what a home slice does with a line (R177 to R190, R195, R203 to R208): arrival
order, recalls, the lines a slice holds, reads, stores, atomics and reductions. -/

namespace Sys2Proof.Machine

open Sys2Proof Tern

/-! ### The lines of a slice (R178) -/

/-- The engine that owns a line: the first of those that have asked for it, in the order in which the home granted (R204). -/
def ownerOf (s : State) (pkg line : Int) : Option Owner := (s.home.owned.find? fun o => o.pkg == pkg && o.line == line).map fun o => o.owner
/-- An engine owns a line, other than the tile tasks of some gangs, whose own fills and stores pass (R204). -/
def engineBars (s : State) (gids : List Nat) (pkg line : Int) : Bool :=
  match ownerOf s pkg line with
  | some (.task g _) => !gids.contains g
  | some _ => true
  | none => false
/-- An open round on a line (R178). -/
def roundOn (s : State) (pkg line : Int) : Bool := s.home.rounds.any fun r => r.pkg == pkg && r.addr / 81 == line
/-- A request waits in a miss entry for a line. -/
def missOn (s : State) (pkg line : Int) : Bool := s.reqs.any fun r => r.stage == 1 && r.pkg == pkg && r.line == line

/-- A line that a slice holds has a directory holder: a window copy or an engine (R179). -/
def heldBy (s : State) (h : HeldLine) : Bool := !(holders s h.pkg h.line).isEmpty || engineOwned s h.pkg h.line

/-- A leaf that some core has loaded maps the line to a page with the dedup trit (R142, R190). -/
def dedupPage (s : State) (pkg line : Int) : Bool :=
  s.cores.any fun c => c.tlb.any fun t => pteBit t.leaf 46 == 1 && pteTarget t.leaf == 0 && ptePkg t.leaf == pkg &&
    decide (pteFrame t.leaf - maxv (6 * t.level) ≤ line / 243 ∧ line / 243 ≤ pteFrame t.leaf + maxv (6 * t.level))

/-- The way that a slice evicts for a line: the least recently used of the set without pin, holder, miss or round. -/
def victimFor (s : State) (pkg line : Int) : Option HeldLine :=
  let cs := s.home.held.filter fun h => h.pkg == pkg && sameSet s h.line line && h.pin.isNone &&
    !heldBy s h && !missOn s h.pkg h.line && !roundOn s h.pkg h.line
  cs.foldl (fun m h => match m with | none => some h | some x => if h.used < x.used then some h else some x) none

/-- The lines of a set that a slice holds. -/
def setCount (s : State) (pkg line : Int) : Nat := (s.home.held.filter fun h => h.pkg == pkg && sameSet s h.line line).length

/-- A dirty victim takes a write-back entry until it stands in HBM4, when it is de-duplicated; what finds no entry free (its maker has waited for
one: makeRoom, roomNow) stands there at once (R181, R190). -/
def evictLine (s : State) (v : HeldLine) : State :=
  if !v.dirty then s
  else if backLoad s v.pkg v.line < 27 then s.send 800 0 0 v.pkg v.line (.evict v.dedup) none
  else if v.dedup then dedupLine s v.pkg v.line else s

/-- Hold a line in its slice: refresh it, or take a way, evicting when the set is full (R178, R181). A full set without a victim does not keep the
line. Local line 0, which only the device writes, is never newer in a slice than in HBM4 (R268). -/
def install (s : State) (pkg line : Int) (dirty : Bool) : State :=
  let dirty := dirty && line != 0
  let s := { s with nextId := s.nextId + 1 }
  match s.heldLine? pkg line with
  | some _ => s.modHeld pkg line fun h =>
      { h with dirty := h.dirty || dirty, used := s.nextId, dedup := h.dedup || (dirty && dedupPage s pkg line) }
  | none =>
    let keep (s : State) : State :=
      { s with home := { s.home with held := s.home.held ++ [⟨pkg, line, dirty, none, none, s.nextId, dirty && dedupPage s pkg line⟩] } }
    if setCount s pkg line < 16 then keep s else match victimFor s pkg line with
      | some v =>
        let s1 : State := { s with home := { s.home with held := s.home.held.filter fun h => !(h.pkg == v.pkg && h.line == v.line) } }
        keep (evictLine s1 v)
      | none => s

/-- The set of a line is full and every way is pinned, held by a window, or busy: the least recently used line with a
holder is recalled for ownership first; an engine's line is awaited (R178, R179). -/
def setBlocked (s : State) (pkg line : Int) : Option HeldLine :=
  if (s.heldLine? pkg line).isSome || setCount s pkg line < 16 || (victimFor s pkg line).isSome then none
  else (s.home.held.filter fun h => h.pkg == pkg && sameSet s h.line line && heldBy s h).foldl
    (fun m h => match m with | none => some h | some x => if h.used < x.used then some h else some x) none

/-- A line that its slice does not hold would evict a dirty one, and no write-back entry is free for that (R181). -/
def entryAwaited (s : State) (pkg line : Int) : Bool :=
  (s.heldLine? pkg line).isNone && backLoad s pkg line ≥ 27 && setCount s pkg line ≥ 16 &&
    (match victimFor s pkg line with | some v => v.dirty | none => false)

/-- What a line that its slice does not hold needs before it may be held, one step of it; none when nothing stands in the way. A full set of
busy ways recalls its least recently used held line (R178); a dirty victim waits for a write-back entry (R181); an image with more than one
erroneous byte, as it is read from HBM4, poisons the line (R43, R44). -/
def makeRoom (s : State) (pkg line : Int) : Option State :=
  if (s.heldLine? pkg line).isSome then none
  else match setBlocked s pkg line with
    | some h => some (sendRecalls s h.pkg h.line true none)
    | none =>
      if entryAwaited s pkg line then some s
      else if imageFault s pkg line then some (poisonImage s pkg line)
      else none

/-- Room for a line within one step: the copies of the least recently used held line of a full set come home until a way is free; a dirty victim
needs a write-back entry (R178, R181). -/
def roomNow (pkg line : Int) : Nat → State → State
  | 0, s => s
  | n + 1, s => match setBlocked s pkg line with
    | some h => roomNow pkg line n (pull (bringHome 2 true) s h.pkg h.line true)
    | none => if entryAwaited s pkg line then s.bar else s

/-! ### Arrival order and remote homes (R176, R332, R334) -/

/-- Requests of request channel 0. -/
def ReqBody.chan0 : ReqBody → Bool
  | .wback _ _ _ _ _ _ _ | .evict _ | .recall _ _ _ _ | .sectors _ _ _ _ _ _ _ | .mcopy _ _ _ _ _ _ _ | .stream _ _ _ _ _ | .data _ | .seek => false
  | _ => true

/-- The endpoint a request travels to: the PCIe port for host lines. -/
def Req.port (s : State) (r : Req) : Int × Nat := if r.pkg = 999 then (999, 0) else (r.pkg, homeSlice s r.line)

/-- Lines of store units. -/
def unitsLines (us : List Unit1) : List (Int × Int) :=
  us.flatMap fun u => (u.at_.pkgLine :: (match u.hi with
    | some h => [h.pkgLine]
    | none => [(u.at_.plus ((u.width : Int) - 1)).pkgLine]))

/-- The lines that a request names. -/
def Req.lines (s : State) (r : Req) : List (Int × Int) :=
  (r.pkg, r.line) :: match r.body with
    | .read op items => (match s.op? op with
        | some o => items.flatMap fun i => match o.lanes[i]? with
          | some x => unitsLines [⟨x.lane, x.at_, x.hi, x.width, 0⟩]
          | none => []
        | none => [])
    | .store us | .atom _ _ us _ | .red _ _ us | .det _ _ _ _ _ us | .hostStore us => unitsLines us
    | _ => []

/-- Earlier unperformed requests of the source that satisfy a test; those that name a common line with the request. -/
def Req.ahead (s : State) (r : Req) (p : Req → Bool) : List Req :=
  (s.reqs.takeWhile fun q => q.id != r.id).filter fun q => q.src == r.src && q.body.chan0 && p q
def Req.meets (s : State) (r q : Req) : Bool := (q.lines s).any fun l => (r.lines s).contains l

/-- What counts against a core's outstanding requests: all but write-backs and recalls (R17). -/
def ReqBody.counted : ReqBody → Bool
  | .wback _ _ _ _ _ _ _ | .evict _ | .recall _ _ _ _ | .stream _ _ _ _ _ => false
  | _ => true
/-- A reply to a load or an atomic. -/
def ReqBody.isData : ReqBody → Bool | .data _ => true | _ => false
/-- A core has room for a request among its 2,187 outstanding ones: those sent before it, until their replies are there; later ones wait in order
at the core (R17, R148). -/
def coreIssues (s : State) (r : Req) : Bool :=
  decide (Config.cores ≤ r.src) ||
  decide ((s.reqs.filter fun q => q.src == r.src && q.body.counted && (decide (q.id < r.id) || q.body.isData)).length < 2187)
/-- The slice of a request has its retry queue of 27 full, so that it accepts nothing on request channel 0 (R180). -/
def sliceStopped (s : State) (r : Req) : Bool :=
  r.pkg != 999 && decide (27 ≤ (s.reqs.filter fun q => q.stage == 4 && q.port s == r.port s).length)

/-- All of a list of requests are over. -/
def settled (s : State) (ids : List Nat) : Bool := ids.all fun i => (s.req? i).isNone
/-- A request has reached its home and may be performed: its core has issued it and its slice accepts it, no earlier request of its source to
that endpoint is on its way (R176), none that names a common line is unperformed (R196), and the parts of its double at lower addresses are
performed (R457). An .SC access is accepted without waiting for a common line (R207). -/
def arrived (s : State) (r : Req) : Bool :=
  settled s r.after && (r.stage == 3 || r.stage == 4 || (r.stage == 0 && coreIssues s r && !sliceStopped s r)) && r.body.chan0 &&
  (r.ahead s fun q => (q.stage == 0 && r.stage == 0 && q.port s == r.port s) || (r.sc.isNone && r.meets s q)).isEmpty

/-- An accepted .SC access stands behind no earlier access of its source, outside the .SC order, that names a common line (R196). -/
def scFree (s : State) (r : Req) : Bool := (r.ahead s fun q => q.sc.isNone && r.meets s q).isEmpty

/-- Remote traffic is held: to a failed peer, while routes are recomputed, with every scale-out lane down, or before the host has set the package
number (R331, R334, R338). -/
def remoteHeld (s : State) (pkg : Int) : Bool :=
  pkg != s.pkg.number && pkg != 999 && (s.pkg.deadPeers.contains pkg || s.pkg.rerouting || decide (32 ≤ s.pkg.scaleDown.length) || !s.pkg.numbered)

/-- Earlier write-backs of the same line, and of the same source to the same slice, are performed first (R176). -/
def firstBack (s : State) (r : Req) : Bool :=
  (s.reqs.takeWhile fun q => q.id != r.id).all fun q => q.stage == 5 ||
    !(((q.pkg == r.pkg && q.line == r.line) || (q.src == r.src && q.port s == r.port s)) && match q.body with | .wback _ _ _ _ _ _ _ => true | _ => false)

/-- A reply stands before another that the same slice sends to the same core: sectors do, and the data of a load or an atomic once all of it has
been sent (R176). -/
def standsBefore (s : State) (r q : Req) : Bool :=
  q.src == r.src && q.port s == r.port s && match q.body with
  | .sectors _ _ _ _ _ _ _ | .mcopy _ _ _ _ _ _ _ => true
  | .data o => r.body != .data o && (match s.op? o with | some x => x.lanes.all fun y => y.got != .waiting | none => false)
  | _ => false
/-- No reply that the same slice sent to the same core before is on its way (R176); replies stand in the order they were sent. -/
def firstReply (s : State) (r : Req) : Bool := (s.reqs.takeWhile fun q => q.id != r.id).all fun q => !standsBefore s r q
/-- A load's or an atomic's data is on its way to its core (R176). -/
def State.data (s : State) (r : Req) (op : Nat) : State := (s.delReq r.id).send r.src r.ctx r.wid r.pkg r.line (.data op) none
/-- Requests become replies: they stand behind what was sent before. -/
def State.reply (s : State) (ids : List Nat) (f : Req → Req) : State :=
  { s with reqs := (s.reqs.filter fun r => !ids.contains r.id) ++ (s.reqs.filter fun r => ids.contains r.id).map f }

/-! ### Recalls (R166, R179, R203) -/

/-- Recalls or write-backs of a line are still in progress. -/
def recalling (s : State) (pkg line : Int) : Bool :=
  s.reqs.any fun q => q.pkg == pkg && q.line == line && match q.body with
    | .recall _ _ _ _ => true
    | .wback _ _ _ _ _ _ _ => true
    | _ => false

/-- A line has no holder to recall and nothing of it is on its way back. -/
def clear (s : State) (pkg line : Int) (own : Bool) (except : Option (Nat × Nat × Nat)) : Bool :=
  !recalling s pkg line &&
  (holders s pkg line).all fun h => !((own || h.2.2.st == .dirty) && some (h.1, h.2.1, h.2.2.j) != except)

/-- The lines that an access to a line concerns: all three of a TRIPLE when it is to be materialised (R189). -/
def Memory.triple (m : Memory) (pkg line : Int) : List Int :=
  let c := (m.tag pkg line).code
  if c = 9 ∨ c = 10 ∨ c = 11 then
    let h := line - (c - 9)
    if (m.logical pkg line).isSome then [h, h + 1, h + 2] else [line]
  else [line]
def tripleLines (s : State) (pkg line : Int) : List Int := s.mem.triple pkg line

/-- Rewrite a ZERO, SPLAT or TRIPLE line as plain lines (R189). -/
def materialise (m : Memory) (pkg line : Int) : Memory :=
  let t := m.tag pkg line
  if t.code = 7 ∨ t.code = 8 then (m.setLine pkg line (expandLine t.code (m.line pkg line))).setTag pkg line ⟨0, t.scale⟩
  else if t.code = 9 ∨ t.code = 10 ∨ t.code = 11 then
    match m.logical pkg line with
    | none => m
    | some r =>
      let head := line - (t.code - 9)
      let d := m.line pkg head
      [9, 10, 11].foldl (fun m (c : Int) => (m.setLine pkg (head + (c - 9)) (expandLine c d)).setTag pkg (head + (c - 9)) ⟨1, r.2.scale⟩) m
  else m

/-! ### Units (R195, R457) -/

/-- The pieces of a unit that lie in one line each. -/
def pieces (at_ : Loc) (hi : Option Loc) (width : Nat) : List (Loc × Nat) :=
  match hi with
  | some h => [(at_, 3), (h, 3)]
  | none => if at_.offset + width > 81 then [(at_, 3), (at_.plus 3, width - 3)] else [(at_, width)]

/-- What a read of a unit finds: its value, or the number of its first reserved or bad piece. -/
inductive UnitRead
  | val (v : Int)
  | reserved (k : Nat)
  | bad (k : Nat)
  deriving DecidableEq, Repr

def readPieces (m : Memory) : Nat → List (Loc × Nat) → UnitRead
  | _, [] => .val 0
  | k, (l, n) :: r =>
    match m.lineAt l with
    | .bad => .bad k
    | .reserved => (match readPieces m (k + 1) r with | .bad j => .bad j | _ => .reserved k)
    | .data d _ => match readPieces m (k + 1) r with
      | .val v => .val (unitOf d l.offset.toNat n + pow3 (9 * n) * v)
      | x => x

/-- Local line 0 of a package, which only the device writes (R268). -/
def Loc.isTime : Loc → Bool
  | .dom _ a => decide (a / 81 = 0)
  | .host _ _ _ => false

/-- Write a unit's pieces; one that lies in a time record is discarded (R268). -/
def writePieces (m : Memory) : List (Loc × Nat) → Int → Memory
  | [], _ => m
  | (l, n) :: r, v => writePieces (if l.isTime then m else m.writeLoc l n (narrow v (9 * n))) r (shr v (9 * n))

/-- The lines of a unit. -/
def unitLines (u : Unit1) : List (Int × Int) := (pieces u.at_ u.hi u.width).map fun p => p.1.pkgLine

/-- The distinct lines that a request's store units touch, with the TRIPLEs they make it rewrite. -/
def storeLines (s : State) (us : List Unit1) : List (Int × Int) :=
  nodups ((us.flatMap unitLines).flatMap fun p => if p.1 = 999 then [] else (tripleLines s p.1 p.2).map fun l => (p.1, l))

/-- Every line of a set is free of engines and holders (R204). -/
def allClear (s : State) (ls : List (Int × Int)) : Bool := ls.all fun p => !engineOwned s p.1 p.2 && clear s p.1 p.2 true none
/-- Send every recall that a set of lines needs. -/
def recallAll (s : State) (ls : List (Int × Int)) : State := ls.foldl (fun s p => sendRecalls s p.1 p.2 true none) s
/-- Give lines their own copies again (R190). -/
def unshare (s : State) (ls : List (Int × Int)) : State :=
  { s with home := { s.home with dedup := s.home.dedup.filter fun d => !(ls.any fun p => lineKey p.1 p.2 == d.1) } }
/-- Materialise and hold a set of lines, dirty. -/
def takeLines (s : State) (ls : List (Int × Int)) : State :=
  let s1 : State := { s with mem := ls.foldl (fun m p => materialise m p.1 p.2) s.mem }
  ls.foldl (fun s p => install s p.1 p.2 true) (unshare s1 ls)

/-! ### L1 (R159, R169, R202) -/

/-- The rows of n trytes from tryte o on of an L1 copy, which stands in the carve-out's physical lines (R157, R159). -/
def Core.l1Rows (c : Core) (x : L1Line) (o n : Nat) : List Nat := nodups ((upto n).map fun i => rowNo (81 * (6561 - c.carve + x.place) + o + i))
/-- A line's copy in the L1 of a core; one of which a row cannot be corrected is dropped, as any copy may be at any time (R158, R159; log entry
134). -/
def l1Find (s : State) (core : Nat) (p : Int × Int) : Option L1Line :=
  let c := s.core core
  c.l1.find? fun x => x.pkg == p.1 && x.line == p.2 && (c.symbols.isEmpty || !(c.l1Rows x 0 81).any c.rowLost)
/-- The rows of trytes of a copy are read, or written in part, which reads them (R157, R158). -/
def l1Scrub (s : State) (core : Nat) (p : Int × Int) (o n : Nat) : State :=
  let c := s.core core
  if c.symbols.isEmpty then s
  else match l1Find s core p with
    | some x => (c.l1Rows x o n).foldl (fun s r => correctRow s (core, r)) s
    | none => s

/-- Drop a core's copy of a line. -/
def dropL1 (s : State) (core : Nat) (pkg line : Int) : State :=
  s.modCore core fun c => { c with l1 := c.l1.filter fun x => !(x.pkg == pkg && x.line == line) }

/-- A write of a core to a line is still on its way to its home. -/
def ReqBody.writes : ReqBody → Bool
  | .store _ | .wtag _ _ | .atom _ _ _ _ | .red _ _ _ | .det _ _ _ _ _ _ | .hostStore _ => true
  | _ => false
def writing (s : State) (core : Nat) (pkg line : Int) : Bool :=
  s.reqs.any fun q => q.src == core && q.body.writes && (q.lines s).contains (pkg, line)

/-- Keep a clean copy, with a read count; into a full L1 in place of a free choice. A copy is dropped for room then and at no other time: DESIGN
CHOICE, R159 and R202 let it be dropped at any time (log entry 134). A line with a reserved code or a bad
line is not kept, nor one that the core has a write under way to, whose lanes must not read an earlier value (R196). -/
def fillL1 (s : State) (core : Nat) (pkg line : Int) (count : Option Nat) : State :=
  let cap := (s.core core).carve
  if cap = 0 ∨ pkg = 999 ∨ core ≥ Config.cores ∨ writing s core pkg line then s
  else match s.mem.lineAt (.dom pkg (81 * line)) with
    | .data d _ =>
      let s1 := dropL1 s core pkg line
      let n := (s1.core core).l1.length
      let s2 := if n < cap then s1 else s1.modCore core fun c => { c with l1 := c.l1.eraseIdx (Config.l1Victim s1.fresh % n) }
      let free := (upto cap).filter fun p => !((s2.core core).l1.any fun x => x.place == p)
      let p := free.getD (Config.l1Place s2.fresh % free.length) 0
      let s3 := s2.modCore core fun c => { c with l1 := c.l1 ++ [⟨pkg, line, d, s.mem.tag pkg line, count, p⟩] }
      l1Scrub { s3 with fresh := s3.fresh + 1 } core (pkg, line) 0 81
    | _ => s

/-! ### Reads for load operations (R389, R390) -/

/-- The address T.ADDR names for the k-th piece of a unit at a virtual address. -/
def pieceAddr (virt : Int) (k : Nat) : Int := 81 * ((virt + 3 * k) / 81)

/-- What a lane receives from its read at the home. -/
def gotOf (m : Memory) (ts : Bool) (x : LaneRead) : Got :=
  match readPieces m 0 (pieces x.at_ x.hi x.width) with
  | .val v => .value v
  | .reserved k => if ts then .tg else .tagFault (pieceAddr x.virt k)
  | .bad k => .uncor (pieceAddr x.virt k)

/-- What LDTAG receives (R397). -/
def tagOf (m : Memory) (x : LaneRead) : Got :=
  match x.at_ with
  | .host _ _ _ => .value 0
  | .dom p a => if m.bad p (a / 81) then .uncor (81 * (x.virt / 81)) else .value (m.tag p (a / 81)).num

/-- Capture the listed reads of an operation. -/
def capture (s : State) (op : Nat) (items : List Nat) (f : LaneRead → Got) : State :=
  s.modOp op fun o => { o with lanes := modIdx (fun i x => if items.contains i && x.got == .waiting then { x with got := f x } else x) 0 o.lanes }

/-- A line as a fill takes it from its home or from host memory: data, tag, and whether it is uncorrectable (R44, R163). -/
def fillLine (s : State) (l : Loc) : Store × Tag × Bool :=
  match l with
  | .dom p a => (s.mem.line p (a / 81), s.mem.tag p (a / 81), s.mem.lineAt l == .bad)
  | .host _ _ _ => match s.mem.lineAt l with
    | .data d t => (d, t, false)
    | _ => ([], Tag.plain, true)

/-- The place of a window line. -/
def winLoc (s : State) (gid k j : Nat) : Option Loc :=
  (((s.gang? gid).bind fun g => g.win? k).bind fun w => w.line? j).map fun x => x.loc

/-- The line that a fill's request names. -/
def fillOf (s : State) (r : Req) (g k j : Nat) : Store × Tag × Bool :=
  if r.pkg = 999 then (match winLoc s g k j with | some l => fillLine s l | none => ([], Tag.plain, false)) else fillLine s (.dom r.pkg (81 * r.line))
/-- Turn a request into sectors on their way, from the line as it stands. -/
def startSectors (s : State) (r : Req) (g k j : Nat) : State :=
  let d := fillOf s r g k j
  s.reply [r.id] fun r => { r with body := .sectors g k j d.1 d.2.1 0 d.2.2, stage := 0 }

/-- Serve a read at the home, the line being ready: deliver to a load operation, or start the sectors of a fill. An .SC read leaves its core no
copy of its lines (R196). -/
def serveRead (s : State) (r : Req) : State :=
  match r.body with
  | .read op items =>
    match s.op? op with
    | none => s.delReq r.id
    | some o =>
      let s1 := capture s op items (gotOf s.mem o.ts)
      let s2 := if r.sc.isSome then (r.lines s).foldl (fun s p => dropL1 s r.src p.1 p.2) s1
        else match o.fill with
        | some rc => if o.lanes.all (fun x => x.hi.isNone && (pieces x.at_ x.hi x.width).length == 1) then fillL1 s1 r.src r.pkg r.line rc else s1
        | none => s1
      s2.data r op
  | .rtag op items => (capture s op items (tagOf s.mem)).data r op
  | .pref n => (fillL1 s r.src r.pkg r.line (some n)).delReq r.id
  | .fill g k j => startSectors s r g k j
  | _ => s

/-- The head of a TRIPLE's tail, to whose home a read of the tail is forwarded (R174, R189). -/
def headOf (s : State) (p : Int × Int) : List (Int × Int) :=
  let c := (s.mem.tag p.1 p.2).code
  if c = 10 ∨ c = 11 then [(p.1, p.2 - (c - 9))] else []

/-- The lines that a read needs, each with whether it is taken in ownership: its own and, for a double that spans two lines, the second, which
the first line's home owns meanwhile (R457). -/
def readLines (s : State) (r : Req) : List (Int × Int × Bool) :=
  let more : List (Int × Int × Bool) := match r.body with
    | .read op items => (match s.op? op with
      | some o => items.flatMap fun i => match o.lanes[i]? with
        | some x => ((pieces x.at_ x.hi x.width).drop 1).map fun p => (p.1.pkgLine.1, p.1.pkgLine.2, true)
        | none => []
      | none => [])
    | _ => []
  let heads (own : Bool) (p : Int × Int) : List (Int × Int × Bool) := if p.1 = 999 then [] else (headOf s p).map fun h => (h.1, h.2, own)
  nodups ((r.pkg, r.line, false) :: heads false (r.pkg, r.line) ++ more ++ more.flatMap fun p => heads false (p.1, p.2.1))

/-- A window line that a fill is for. -/
def Req.window? (r : Req) : Option (Nat × Nat × Nat) :=
  match r.body with | .fill g k j | .own g k j _ | .mcast g k j _ => some (g, k, j) | _ => none

/-- The lines of a read may be read: no engine owns them, and no dirty copy stands in a window, nor any copy of a line taken in ownership
(R203, R204, R457). -/
def readClear (s : State) (r : Req) : Bool :=
  (readLines s r).all fun p => p.1 == 999 || (!engineBars s (r.window?.toList.map fun x => x.1) p.1 p.2.1 && clear s p.1 p.2.1 p.2.2 r.window?)
/-- Recall for reading what stands in the way. -/
def readRecall (s : State) (r : Req) : State :=
  (readLines s r).foldl (fun s p => if p.1 = 999 then s else sendRecalls s p.1 p.2.1 p.2.2 r.window?) s

/-- Store pieces applied in ascending lane order; a unit that meets a bad line, or a tail whose head is bad, is discarded with
an event (R44, R426). -/
def applyUnits (s : State) (ctx : Nat) (us : List Unit1) : State :=
  us.foldl (fun s u =>
    if (pieces u.at_ u.hi u.width).any fun p => !p.1.isHost && s.mem.lineAt p.1 == .bad then s.note (some ctx) .storeDiscarded [u.lane]
    else s.modMem fun m => writePieces m (pieces u.at_ u.hi u.width) u.val) s

/-- What the host has written to its own bytes of a line before the device reads it: each byte holds its old or its new value (R47). -/
def hostActs (s : State) (l : Loc) : State :=
  match l with
  | .dom _ _ => s
  | .host view base off =>
    let n : Nat := if view = 1 then 146 else 81
    let a0 := base.toNat + n * (off / 81).toNat
    let h := (upto n).foldl (fun h i => match Config.hostWrites s.fresh (a0 + i) with
      | some b => hostSet h (a0 + i) b.toNat
      | none => h) s.mem.host
    { s with mem := { s.mem with host := h }, fresh := s.fresh + 1 }

/-- The host's own writes before a read of its memory is performed. -/
def hostBefore (s : State) (r : Req) : State :=
  match r.body with
  | .read op items => (match s.op? op with
    | some o => items.foldl (fun s i => match o.lanes[i]? with
      | some x => (pieces x.at_ x.hi x.width).foldl (fun s p => hostActs s p.1) s
      | none => s) s
    | none => s)
  | .fill g k j | .mcast g k j _ => (match ((s.gang? g).bind fun g => g.win? k).bind fun w => w.line? j with
    | some x => hostActs s x.loc
    | none => s)
  | _ => s

/-! ### Accesses made whole within one step (R203, R266) -/

/-- Take a line for a write of the device's own: recalled with the lines that are materialised with it, given a way, held dirty (R178, R189,
R266). -/
def takeNow (s : State) (pkg line : Int) : State :=
  let s1 := recallNow s pkg line true
  let ls := tripleLines s1 pkg line
  let s2 := (ls.filter fun l => l != line).foldl (fun s l => recallNow s pkg l true) s1
  takeLines (ls.foldl (fun s l => roomNow pkg l 17 s) s2) (ls.map fun l => (pkg, l))

/-- A line is read within one step: its newest data is brought home, and the host's own writes come first (R47, R179). -/
def readBefore (s : State) (l : Loc) : State := match l with | .dom p a => recallNow s p (a / 81) false | .host _ _ _ => hostActs s l

/-- An engine or a fetch finds remote traffic to some of its lines held: a request to each of them stands for its own, and times out as any other
(R332). -/
def seekHeld (s : State) (src ctx wid : Nat) (ls : List (Int × Int)) : State :=
  ls.foldl (fun s p =>
    if !remoteHeld s p.1 || (s.reqs.any fun r => r.body == .seek && r.src == src && r.pkg == p.1 && r.line == p.2) then s
    else s.send src ctx wid p.1 p.2 .seek none) s

/-- The n trytes at a place as they stand; an invalid byte of host memory reads as zero trits. -/
def Memory.rawAt (m : Memory) (l : Loc) (n : Nat) : Int :=
  match l with
  | .dom p a => m.read p a n
  | .host view base off => join 9 ((upto n).map fun (i : Nat) =>
      let o := off + (i : Int)
      if view = 1 then
        let bs := (upto 146).map fun j => (byteTrits (hostGet m.host (base.toNat + 146 * (o / 81).toNat + j))).getD 0
        (split 9 81 (join 5 bs)).getD (o % 81).toNat 0
      else (hostGet m.host (base.toNat + o.toNat) : Int))

/-- One indivisible update of n trytes at a place by the device (R266). -/
def updateNow (s : State) (l : Loc) (n : Nat) (f : Int → Int) : State :=
  let s1 := match l with | .dom p a => takeNow s p (a / 81) | .host _ _ _ => s
  if l.isTime then s1
  else
    let s2 := s1.modMem fun m => m.writeLoc l n (f (m.rawAt l n))
    match l with | .dom p a => refreshFills s2 p (a / 81) | .host _ _ _ => s2

end Sys2Proof.Machine
end

