-- ==== Sys2Proof/Machine/Access.lean ====
section
/-! DEFINITION. Machine/Access.lean: what the memory words share: alignment and translation of their lanes' units (R146,
R147, R341, R457), the address units (R296 to R298), load operations (R389), stores (R426), window touches (R163). -/

namespace Sys2Proof

/-- Trytes of an access width. -/
def Width.trytes : Width → Nat
  | .tryte => 1
  | .word => 3
  | .double => 6
/-- A word or a double. -/
def dblTrytes (d : Bool) : Nat := if d then 6 else 3

end Sys2Proof

namespace Sys2Proof.Machine

open Sys2Proof Tern

/-! ### Translation (R146, R457) -/

/-- One lane's unit, translated: its place, and the place of the second part when that lies in another page. -/
structure Acc where
  (lane : Nat) (virt : Int) (at_ : Loc) (hi : Option Loc)
  deriving DecidableEq, Repr

/-- A unit's failure: detail, or none for UNCOR, and the failing address. -/
structure AccFail where
  (lane : Nat) (detail : Option Int) (addr : Int)
  deriving DecidableEq, Repr

/-- Misaligned for its width (R341). -/
def misaligned (n : Nat) (a : Int) : Bool := n != 1 && a % (n : Int) != 0

/-- Check one unit of n trytes; a double whose parts lie in two small pages is checked in both (R457). -/
def checkUnit (s : State) (core ctx : Nat) (sup : Bool) (nd : Need) (poison : Bool) (n : Nat) (l : Nat) (a : Int) :
    State × Except AccFail Acc :=
  let fail (c : Chk) (x : Int) : AccFail := ⟨l, match c with | .fail d => some d | _ => none, x⟩
  let r := checkAddr s core ctx sup nd poison a
  match r.2 with
  | .ok loc =>
    if n = 6 ∧ pageOf a ≠ pageOf (a + 3) then
      let q := checkAddr r.1 core ctx sup nd poison (a + 3)
      (match q.2 with
        | .ok hi => (q.1, .ok ⟨l, a, loc, some hi⟩)
        | c => (q.1, .error (fail c (a + 3))))
    else (r.1, .ok ⟨l, a, loc, none⟩)
  | c => (r.1, .error (fail c a))

def checkUnits (s : State) (core ctx : Nat) (sup : Bool) (nd : Need) (poison : Bool) (n : Nat) :
    List (Nat × Int) → State × List (Except AccFail Acc)
  | [] => (s, [])
  | (l, a) :: r =>
    let p := checkUnit s core ctx sup nd poison n l a
    let q := checkUnits p.1 core ctx sup nd poison n r
    (q.1, p.2 :: q.2)

def okAccs (l : List (Except AccFail Acc)) : List Acc := l.filterMap fun x => match x with | .ok a => some a | .error _ => none
def badAccs (l : List (Except AccFail Acc)) : List AccFail := l.filterMap fun x => match x with | .ok _ => none | .error e => some e

/-- The trap of failing lanes: UNCOR when any meets poison, else TRANS (R146, R275). -/
def failTrap (l : List AccFail) : TrapReq :=
  let f (x : AccFail) : Nat × Int × Int := match x.detail with
    | some d => (x.lane, d, x.addr)
    | none => (x.lane, 0, 81 * (x.addr / 81))
  ⟨if l.any fun x => x.detail.isNone then cause.uncor else cause.trans, l.map f⟩

/-- ALIGN, then the checks of R146, for the active lanes of a word. -/
def access (s : State) (w : Warp) (addrs : List (Nat × Int)) (n : Nat) (align : Bool) (nd : Need) : State × Except TrapReq (List Acc) :=
  let mis := if align then addrs.filter fun p => misaligned n p.2 else []
  if !mis.isEmpty then (s, .error ⟨cause.align, mis.map fun p => (p.1, 0, p.2)⟩)
  else
    let r := checkUnits s w.coreNo w.ctx (w.level == 1) nd true n addrs
    match badAccs r.2 with
    | [] => (r.1, .ok (okAccs r.2))
    | bad => (r.1, .error (failTrap bad))

/-- Trytes of a unit's value outside 0 to 255 that a raw-view page would receive: the first one's address (R46). -/
def convBad (x : Acc) (n : Nat) (v : Int) : Option Int :=
  let place (i : Nat) : Loc := match x.hi with
    | some h => if i < 3 then x.at_ else h
    | none => x.at_
  ((upto n).find? fun i => (match place i with | .host view _ _ => view == -1 | .dom _ _ => false) && !inR ((split 9 n v).getD i 0) 0 255).map
    fun i => x.virt + i

/-- The checks of a store, check 10 before check 11 (R46, R146). -/
def accessStore (s : State) (w : Warp) (addrs : List (Nat × Int)) (n : Nat) (val : Nat → Int) : State × Except TrapReq (List Acc) :=
  let mis := addrs.filter fun p => misaligned n p.2
  if !mis.isEmpty then (s, .error ⟨cause.align, mis.map fun p => (p.1, 0, p.2)⟩)
  else
    let r1 := checkUnits s w.coreNo w.ctx (w.level == 1) Need.write false n addrs
    let r2 := checkUnits r1.1 w.coreNo w.ctx (w.level == 1) Need.write true n addrs
    let f (p : Except AccFail Acc × Except AccFail Acc) : Except AccFail Acc := match p.1 with
      | .error e => .error e
      | .ok x => match convBad x n (val x.lane) with
        | some a => .error ⟨x.lane, some 10, a⟩
        | none => p.2
    let rs := (List.zip r1.2 r2.2).map f
    match badAccs rs with
    | [] => (r2.1, .ok (okAccs rs))
    | bad => (r2.1, .error (failTrap bad))

/-- The place of the second part of a double that spans two lines. -/
def Acc.second (x : Acc) : Loc := x.hi.getD (x.at_.plus 3)
/-- A double whose parts are two accesses: in two packages, or one of them in host memory (R457). -/
def Acc.apart (x : Acc) (n : Nat) : Bool :=
  match x.hi with
  | some h => x.at_.isHost || h.isHost || x.at_.pkgLine.1 != h.pkgLine.1
  | none => x.at_.isHost && decide (81 < x.at_.offset + n)
/-- What a lane's access reads: its unit, or its two parts in ascending address order (R457). -/
def Acc.reads (x : Acc) (n : Nat) : List LaneRead :=
  if x.apart n then [⟨x.lane, x.virt, x.at_, none, 3, .waiting⟩, ⟨x.lane, x.virt + 3, x.second, none, 3, .waiting⟩]
  else [⟨x.lane, x.virt, x.at_, x.hi, n, .waiting⟩]
/-- The units that a lane's access writes: two when its parts are two accesses (R457). -/
def unitsOf (n : Nat) (val : Nat → Int) (x : Acc) : List Unit1 :=
  if x.apart n then [⟨x.lane, x.at_, none, 3, narrow (val x.lane) 27⟩, ⟨x.lane, x.second, none, 3, shr (val x.lane) 27⟩]
  else [⟨x.lane, x.at_, x.hi, n, val x.lane⟩]

/-- A place outside this package's own memory: remote or host (R206). -/
def Loc.away (s : State) : Loc → Bool
  | .dom p _ => p != s.pkg.number
  | .host _ _ _ => true
def Acc.away (s : State) (x : Acc) : Bool := x.at_.away s || (match x.hi with | some h => h.away s | none => false)
/-- The lanes of an .SC word whose leaf names another package or the host (R206). -/
def scAway (s : State) (sc : Bool) (xs : List Acc) : List (Nat × Int × Int) :=
  if sc then (xs.filter fun x => x.away s).map fun x => (x.lane, 14, x.virt) else []

/-- The lines of a unit. -/
def Acc.lines (x : Acc) (n : Nat) : List (Int × Int) := (pieces x.at_ x.hi n).map fun p => p.1.pkgLine
/-- Set the dirty trits of the pages of units (R149). -/
def dirtyPages (s : State) (w : Warp) (xs : List Acc) : State :=
  xs.foldl (fun s x =>
    let s1 := setDirty s w.coreNo w.ctx x.virt x.at_
    match x.hi with
    | some h => setDirty s1 w.coreNo w.ctx (x.virt + 3) h
    | none => s1) s

/-! ### Address units (R296 to R298) -/

/-- Test the address units against a word's accesses (lane, reported address, first tryte, trytes); go performs the
accesses of the given lanes. A stepped or handler word, and a lane's first word after HRES, is exempt (R294, R300, R307). -/
def guarded (s : State) (c : Cur) (w : Warp) (k : Access) (scratch : Bool) (acc : List (Nat × Int × Int × Nat)) (go : State → List Nat → State) : Eff :=
  let ls := acc.map fun x => x.1
  if w.handler || c.hstep.isSome then .plain (go s ls)
  else
    let p := watchTest s w.coreNo s.now fun u =>
      if u.is 1 then (acc.filter fun x => u.covers s w x.1 && !(w.lane x.1).skip && u.matchesAccess k scratch x.2.2.1 x.2.2.2).map fun x => (x.1, x.2.1)
      else []
    if p.2.isEmpty then .plain (go p.1 ls)
    else
      let s1 := watchAct p.1 c.wid p.2
      if strongest p.2 = 2 && (trapTrigs p.2).isEmpty then
        let hl := (p.2.filter fun t => t.action == 2).map fun t => t.lane
        .part (go s1 (ls.filter fun l => !hl.contains l)) hl
      else .stay s1

/-- The accesses of units for the address units. -/
def unitAcc (n : Nat) (xs : List Acc) : List (Nat × Int × Int × Nat) := xs.map fun x => (x.lane, x.virt, x.virt, n)
/-- The whole lines of tag accesses. -/
def tagAcc (xs : List Acc) : List (Nat × Int × Int × Nat) := xs.map fun x => (x.lane, x.virt, 81 * (x.virt / 81), 81)

/-! ### .SC keys (R206) -/

/-- The key of a lane's .SC access. -/
def scKey (s : State) (w : Warp) (slot l : Nat) : ScKey :=
  match w.place with
  | .slot core bay _ => [s.now, core, bay, slot, l]
  | _ => [s.now, 0, 0, slot, l]

/-! ### Load operations (R389) -/

/-- Elements grouped by a key, in the order of first occurrence. -/
def groupsBy {α κ : Type} [DecidableEq κ] (key : α → κ) (l : List α) : List (κ × List α) :=
  (nodups (l.map key)).map fun k => (k, l.filter fun x => key x == k)

/-- A part of some lane's access in line a comes before its other part, in line b (R457). parts lists each lane's parts in ascending order. -/
def partBefore (parts : List (Nat × Int × Int)) (a b : Int × Int) : Bool :=
  a != b && parts.any fun x => x.2 == a && (parts.filter fun p => p.1 == x.1).map (fun p => p.2) == [a, b]
/-- The lines of some parts, those first that no part in another line comes before. -/
def partLines (parts : List (Nat × Int × Int)) : List (Int × Int) :=
  let ls := nodups (parts.map fun p => p.2)
  let late (l : Int × Int) : Bool := ls.any fun a => partBefore parts a l
  (ls.filter fun l => !late l) ++ ls.filter late
/-- Send one request for each line of some parts, each to be performed after those of the parts that come before (R457). -/
def sendParts (s : State) (w : Warp) (parts : List (Nat × Int × Int)) (body : Int × Int → ReqBody) : State :=
  let ls := List.zip (upto (partLines parts).length) (partLines parts)
  { s with
      reqs := s.reqs ++ ls.map fun p => ⟨s.nextId + p.1, w.coreNo, w.ctx, w.wid, p.2.1, p.2.2, body p.2, none, 0, s.now,
        (ls.filter fun q => partBefore parts q.2 p.2).map fun q => s.nextId + q.1⟩,
      nextId := s.nextId + ls.length }

/-- Send the reads of a load operation: one request a line, or one a lane with its .SC key. -/
def sendReads (s : State) (w : Warp) (op : Nat) (tag : Bool) (sc : Option Nat) (ls : List (Nat × LaneRead)) : State :=
  let body (items : List Nat) : ReqBody := if tag then .rtag op items else .read op items
  match sc with
  | some slot => ls.foldl (fun s p => s.send w.coreNo w.ctx w.wid p.2.at_.pkgLine.1 p.2.at_.pkgLine.2 (body [p.1]) (some (scKey s w slot p.2.lane))) s
  | none => sendParts s w (ls.map fun p => (p.2.lane, p.2.at_.pkgLine)) fun l => body ((ls.filter fun p => p.2.at_.pkgLine == l).map fun p => p.1)

/-- The request names that a stepped word awaits (R307): those from n on. -/
def stepAwaits (s : State) (c : Cur) (n : Nat) : State :=
  match c.hstep with
  | none => s
  | some (dbg, k) =>
    let ids := ((upto (s.nextId - n)).map fun i => n + i)
    s.modStep dbg k fun o => match o with | .hstep a b g d ws => .hstep a b g d (ws ++ ids) | o => o

/-- The numbers that the latch results of a word about to retire will have in some lanes. -/
def Warp.latchMarks (w : Warp) (ls : List Nat) : List (Nat × Nat) := ls.map fun l => (l, (w.lane l).made + 1)

/-- Begin a load operation for lanes that wait. captured: what is known at issue. -/
def startLoad (s : State) (c : Cur) (w : Warp) (i : Instr) (d : Dst) (n : Nat) (group ts : Bool) (fill : Option (Option Nat))
    (tag : Bool) (sc : Option Nat) (wait : List Nat) (rs : List LaneRead) : State :=
  let id := s.nextId
  let op : LoadOp := ⟨id, w.wid, c.pc, d, n, n == 6, group, ts, fill, i, rs, c.hstep.isSome, s.now, w.handler, w.latchMarks wait, []⟩
  let s1 : State := { s with ops := s.ops ++ [op], nextId := id + 1 }
  let todo := (List.zip (upto rs.length) rs).filter fun p => p.2.got == .waiting
  let s2 := sendReads s1 w id tag sc todo
  stepAwaits (s2.modWarp w.wid fun w => w.waitOn wait (.load id) c.pc) c id

/-- A reading of an L1 copy lowers its count; at 0 it invalidates itself (R169). -/
def l1Count (s : State) (core : Nat) (p : Int × Int) : State :=
  match l1Find s core p with
  | some ⟨_, _, _, _, some n, _⟩ =>
    if n ≤ 1 then dropL1 s core p.1 p.2
    else s.modCore core fun c => { c with l1 := c.l1.map fun x => if x.pkg == p.1 && x.line == p.2 then { x with count := some (n - 1) } else x }
  | _ => s

/-- A unit that an L1 copy may serve: in one line of domain memory (R457). -/
def Acc.single (x : Acc) (n : Nat) : Bool := x.hi.isNone && !x.at_.isHost && (pieces x.at_ x.hi n).length == 1

/-- What the L1 gives a lane at issue; waiting when it does not hold the line. -/
def l1Got (s : State) (core n : Nat) (x : Acc) : Got :=
  if x.single n then
    match l1Find s core x.at_.pkgLine with
    | some y => .value (unitOf y.data x.at_.offset.toNat n)
    | none => .waiting
  else .waiting

/-! ### Stores (R202, R426) -/

/-- Send units to their homes, one request for each line. -/
def sendUnits (s : State) (w : Warp) (us : List Unit1) (body : List Unit1 → ReqBody) : State :=
  sendParts s w (us.map fun u => (u.lane, u.at_.pkgLine)) fun l =>
    let vs := us.filter fun u => u.at_.pkgLine == l
    if l.1 = 999 then .hostStore vs else body vs

/-- A store updates the issuing core's copy of a line; a copy of a packed line is dropped (R159, R202). -/
def l1Store (s : State) (core : Nat) (u : Unit1) : State :=
  let f (s : State) (q : (Loc × Nat) × Int) : State :=
    let p := q.1.1.pkgLine
    match l1Find s core p with
    | none => s
    | some y =>
      if inR y.tag.code 7 11 then dropL1 s core p.1 p.2
      else (l1Scrub s core p q.1.1.offset.toNat q.1.2).modCore core fun c => { c with l1 := c.l1.map fun x =>
        if x.pkg == p.1 && x.line == p.2 then { x with data := ssets x.data q.1.1.offset.toNat (split 9 q.1.2 q.2), count := none } else x }
  let ps := pieces u.at_ u.hi u.width
  match ps with
  | [a, b] => f (f s (a, narrow u.val (9 * a.2))) (b, shr u.val (9 * a.2))
  | [a] => f s (a, u.val)
  | _ => s

/-- The lines of some units as a write at the home rewrites them, those that are sound (R189). -/
def Memory.taken (m : Memory) (ls : List (Int × Int)) : Memory :=
  ls.foldl (fun (m : Memory) (p : Int × Int) => if p.1 = 999 then m else match m.lineAt (.dom p.1 (81 * p.2)) with
    | .data _ _ => materialise m p.1 p.2
    | _ => m) m
/-- Memory's tags as a core's next store will find them: what the core's own writes on the way, which are performed first, make of them (R189, R196,
R429). -/
def homeAhead (s : State) (core : Nat) : Memory :=
  s.reqs.foldl (fun m q => if q.src ≠ core then m else match q.body with
    | .store us | .red _ _ us | .atom _ _ us _ => m.taken (nodups ((q.pkg, q.line) :: us.flatMap unitLines))
    | .wtag c x =>
      if q.line = 0 || m.bad q.pkg q.line then m
      else (if inR (m.tag q.pkg q.line).code 7 11 && (m.tag q.pkg q.line).code != c then m.taken [(q.pkg, q.line)] else m).setTag q.pkg q.line ⟨c, x⟩
    | _ => m) s.mem
/-- A line's tag gives it a meaning (R65, R66). -/
def tagSound (s : State) (core : Nat) (p : Int × Int) : Bool := ((homeAhead s core).logical p.1 p.2).isSome
/-- A named line has a reserved code, by the L1 copy's tag or the one the store will find (R66, R426). -/
def tagFaulty (s : State) (core : Nat) (p : Int × Int) : Bool :=
  p.1 != 999 && (l1Find s core p).isNone && !tagSound s core p

/-- The lanes whose lines carry a reserved code, with the first such line's address. -/
def tagFaults (s : State) (core n : Nat) (xs : List Acc) : List (Nat × Int × Int) :=
  xs.filterMap fun x =>
    let ps := List.zip (upto 2) (x.lines n)
    (ps.find? fun p => tagFaulty s core p.2).map fun p => (x.lane, 0, pieceAddr x.virt p.1)

/-! ### Scratchpad units and touches (R154, R155, R163 to R166) -/

/-- The scratchpad lines of a unit. -/
def scrLines (a : Int) (n : Nat) : List Nat := nodups [(a / 81).toNat, ((a + n - 1) / 81).toNat]
/-- First scratchpad address of a unit in a line. -/
def firstIn (a : Int) (line : Nat) : Int := max a (81 * line)

/-- A line has an ownership request outstanding, which later accesses stay behind (R427). -/
def ownPending (s : State) (gid k j : Nat) : Option Nat :=
  (s.reqs.find? fun r => match r.body with | .own g k' j' _ => g == gid && k' == k && j' == j | _ => false).map fun r => r.id

/-- The window lines that a list of units names: lane, address, window, line. -/
def winUnits (g : Gang) (n : Nat) (us : List (Nat × Int)) : List (Nat × Int × Nat × Nat) :=
  us.flatMap fun u => (scrLines u.2 n).filterMap fun x => (g.winAt x).map fun p => (u.1, firstIn u.2 x, p.1, p.2)

/-- What keeps a scratchpad word from being performed now. -/
inductive Hindrance
  | none
  | hold (req : Nat)
  | trap (s : State) (t : TrapReq)
  | sleep (s : State) (promise : Int)

/-- One entry a lane: its first. -/
def firstPer (l : List (Nat × Int)) : List (Nat × Int) := (nodups (l.map fun p => p.1)).filterMap fun x => l.find? fun p => p.1 == x

/-- Touch what a word names: LATE for a line that RECV fills, and at the promise for any that is not there; a refused fill traps,
each lane with its own box address (R146, R163 to R165, R191). -/
def touching (s : State) (c : Cur) (w : Warp) (g : Gang) (n : Nat) (us : List (Nat × Int)) (rc : Option Nat) : Hindrance :=
  let wu := winUnits g n us
  let st (x : Nat × Int × Nat × Nat) : LineState := match g.win? x.2.2.1 with | some y => y.stateOf x.2.2.2 | none => .present
  match wu.findSome? fun x => ownPending s g.gid x.2.2.1 x.2.2.2 with
  | some q => .hold q
  | none =>
    let open_ := wu.filter fun x => st x == .absent || st x == .filling
    let late := wu.filter fun x => st x == .recv || (c.late && (st x == .absent || st x == .filling))
    if !late.isEmpty then .trap s ⟨cause.late, (firstPer (late.map fun x => (x.1, x.2.1))).map fun p => (p.1, 0, p.2)⟩
    else if open_.isEmpty then .none
    else
      let ks := nodups (open_.map fun x => (x.2.2.1, x.2.2.2))
      let r := touchAll s g.gid w.ctx w.coreNo (w.level == 1) rc ks
      let bad := (List.zip ks r.2).filterMap fun p => match p.2 with | .refused ch a => some (p.1, ch, a) | _ => none
      match bad with
      | _ :: _ =>
        let fails := open_.filterMap fun x => (bad.find? fun b => b.1 == (x.2.2.1, x.2.2.2)).map fun b => (x.1, b.2)
        let mine := (nodups (fails.map fun p => p.1)).filterMap fun l =>
          match fails.find? fun p => p.1 == l && (match p.2.1 with | .uncor => true | _ => false) with
          | some p => some p
          | none => fails.find? fun p => p.1 == l
        .trap r.1 (failTrap (mine.map fun p => ⟨p.1, match p.2.1 with | .fail d => some d | _ => none, p.2.2⟩))
      | [] => match latest r.2 with
        | some p => .sleep r.1 p
        | none => .none

/-- ALIGN and the allotment for a scratchpad word's lanes (R155). -/
def scratchFault (g : Gang) (n : Nat) (align : Bool) (us : List (Nat × Int)) : Option TrapReq :=
  let mis := if align then us.filter fun u => misaligned n u.2 else []
  let out := us.filter fun u => !g.holds u.2 n
  if !mis.isEmpty then some ⟨cause.align, mis.map fun u => (u.1, 0, u.2)⟩
  else if !out.isEmpty then some ⟨cause.trans, out.map fun u => (u.1, 12, u.2)⟩
  else none

/-- A unit of a gang's scratchpad, as a load finds it. -/
def scratchGot (g : Gang) (ts : Bool) (a : Int) (n : Nat) : Got :=
  let ps : List (Int × Nat) := if a % 81 + n > 81 then [(a, 3), (a + 3, n - 3)] else [(a, n)]
  let rs := ps.map fun p => (p, if inR (g.tag (p.1 / 81).toNat).code 7 11 then g.readLine (p.1 / 81).toNat
    else if g.rowsBad p.1 p.2 then .bad else g.lineAt (p.1 / 81).toNat)
  match rs.find? fun r => r.2 == .bad with
  | some r => .uncor (81 * (r.1.1 / 81))
  | none => match rs.find? fun r => r.2 == .reserved with
    | some r => if ts then .tg else .tagFault (81 * (r.1.1 / 81))
    | none =>
      .value (rs.foldr (fun r v => match r.2 with
        | .data d _ => unitOf d (r.1.1 % 81).toNat r.1.2 + pow3 (9 * r.1.2) * v
        | _ => v) 0)

/-! ### Releases (R198 to R201, R204) -/

/-- The scope that a fence acts by: for a gang on a pair, gang counts as pair (R198). -/
def actScope (s : State) (w : Warp) (scope : Int) : Int := if scope = -3 ∧ pairGang s w = true then -1 else scope

/-- What a fence of a scope that it acts by awaits: the writes of its core toward the scope, the stores to window lines that wait for ownership, and the
warp's loads. -/
def fenceAwaits (s : State) (w : Warp) (scope kind : Int) : List Nat :=
  let wide := decide (-1 ≤ scope)
  let rs := if kind ≥ 0 then (s.reqs.filter fun r => r.src == w.coreNo && match r.body with
      | .own _ _ _ us => !us.isEmpty
      | b => wide && b.writes && (r.pkg == s.pkg.number || (r.pkg != 999 && scope ≥ 2) || scope == 3)).map fun r => r.id else []
  let os := if kind ≤ 0 then (s.ops.filter fun o => o.wid == w.wid).map fun o => o.id else []
  rs ++ os

/-- A word that carries a release (R201): what the release awaits is awaited first, as by a fence, and the word is issued again then. -/
def releaseFirst (s : State) (c : Cur) (w : Warp) (scope : Int) (go : State → Eff) : Eff :=
  let ws := fenceAwaits s w scope 1
  if w.released = some c.pc then go (s.modWarp c.wid fun w => { w with released := none })
  else if ws.isEmpty || c.hstep.isSome then go s
  else .stay (s.modWarp c.wid fun w => { (w.stays c.lanes) with fence := some ⟨scope, 1, ws, false⟩, released := some c.pc })

/-- The release of gang scope that an arrival carries: of pair scope for a gang on a pair (R198, R201). -/
def releaseGang (s : State) (c : Cur) (w : Warp) (go : State → Eff) : Eff :=
  if pairGang s w then releaseFirst s c w (-1) go else go s

/-- The writes of a core that are on their way, and its window stores that wait for ownership: what an engine that one of its warps starts
reads after (R201, R204). -/
def coreWrites (s : State) (core : Nat) : List Nat :=
  (s.reqs.filter fun r => r.src == core && (r.body.writes || match r.body with | .own _ _ _ us => !us.isEmpty | _ => false)).map fun r => r.id

end Sys2Proof.Machine
end

