-- ==== Sys2Proof/Machine/Sched.lean ====
section
/-! DEFINITION. Machine/Sched.lean: launches, gangs and warps through their lives (R71, R85, R86, R244 to R247,
R258 to R272, R285 to R293). -/

namespace Sys2Proof.Machine

open Sys2Proof Tern

/-! ### Duty (R20, R337) -/

/-- The M-die of a sequencer (R14), as dies are numbered in grants. -/
def seqDie (q : Nat) : Nat := if q < 6 then 12 else 13 + (q - 6) / 7
/-- The die of a warp. -/
def Warp.die (w : Warp) : Nat := match w.place with | .slot c _ _ => c / 64 | .seq q => seqDie q | .saved => 0
/-- A grant word: the die in trits 26 to 23, the duty in trits 9 to 0 (R337). -/
def grantWord (die duty : Nat) : Int := pow3 23 * (die : Int) + duty
/-- The die and the duty of a grant. -/
def Grant.die (g : Grant) : Nat := (field g.word 26 23).toNat
def Grant.duty (g : Grant) : Nat := (field g.word 9 0).toNat
/-- A die's duty; 729 until a grant is applied (log entry 14). -/
def dutyOf (s : State) (die : Nat) : Nat := ((s.pkg.duty.find? fun p => p.1 == die).map fun p => p.2).getD 729
/-- The present cycle is withheld on a die (R337). -/
def withheld (s : State) (die : Nat) : Bool :=
  let k := (s.now % 729).toNat
  (k + 1) * dutyOf s die / 729 == k * dutyOf s die / 729

/-! ### Launch records (R262) -/

def recEntry (r : List Int) : Int := dblAt r 1
def recLimit (r : List Int) : Int := dblAt r 3
def recCounts (r : List Int) : Int × Int × Int := (field (wordAt r 8) 8 0, field (wordAt r 8) 17 9, field (wordAt r 8) 26 18)
/-- Gangs of the launch. -/
def recGangs (r : List Int) : Nat := let c := recCounts r; (c.1 * c.2.1 * c.2.2).toNat
def recWarps (r : List Int) : Nat := (wordAt r 9).toNat
def recRegs (r : List Int) : Nat := (wordAt r 10).toNat
def recLines (r : List Int) : Nat := (wordAt r 11).toNat
def recWindows (r : List Int) : Nat := (field (wordAt r 12) 26 18).toNat
def recBars (r : List Int) : Nat := (field (wordAt r 12) 17 9).toNat
def recMacros (r : List Int) : Nat := (field (wordAt r 12) 8 0).toNat
def recClass (r : List Int) : Int := field (wordAt r 16) 8 0
def recIdempotent (r : List Int) : Bool := trit (wordAt r 16) 26 == 1
def recRaise (r : List Int) : Bool := trit (wordAt r 16) 25 == 1
def recLevel (r : List Int) : Int := trit (wordAt r 16) 24
def recPair (r : List Int) : Bool := trit (wordAt r 16) 23 == 1
def recDeadline (r : List Int) : Int := dblAt r 17
def recStart (r : List Int) : Int := dblAt r 19
/-- Most warps of a gang that one core holds (R262). -/
def perCore (regs : Nat) : Nat := 16 * min 9 (243 / regs)
/-- The gang needs a core pair (R262). -/
def recNeedsPair (r : List Int) : Bool := decide (recWarps r > perCore (recRegs r)) || decide (recMacros r > 16) || recPair r
/-- Coordinates of gang i, x fastest (R270). -/
def gangCoord (r : List Int) (i : Nat) : Int × Int × Int :=
  let c := recCounts r
  ((i : Int) % c.1, (i : Int) / c.1 % c.2.1, (i : Int) / (c.1 * c.2.1))

/-! ### The completion word (R266) -/

/-- Update a launch's completion word at its home: the state advances, event trits only rise; a poisoned page discards
the update and is logged. -/
def cwUpdate (s : State) (x : Launch) (st : Option Int) (bits : List Nat) : State :=
  let a := dblAt x.words 24
  let r := coldWalk s x.ctx (pageOf a)
  match r.2 with
  | .error _ => r.1
  | .ok (e, lv, _) =>
    match leafChk r.1 x.ctx Need.none e lv a true with
    | .ok loc => updateNow r.1 loc 3 fun w =>
        let w1 := match st with | some v => if field w 26 24 < v then w + (v - field w 26 24) * pow3 24 else w | none => w
        bits.foldl (fun w i => if trit w i = 0 then w + pow3 i else w) w1
    | _ => r.1.note (some x.ctx) .completionPoisoned [x.seq]

/-- The same for the launch of a gang. -/
def cwGang (s : State) (gid : Nat) (st : Option Int) (bits : List Nat) : State :=
  match s.gang? gid with
  | some g => (match s.launch? g.lid with | some x => cwUpdate s x st bits | none => s)
  | none => s

/-! ### Cores and their resources (R85, R153) -/

def State.coreLive (s : State) (c : Nat) : Bool := decide (c < Config.cores) && !s.pkg.deadCores.contains c
/-- Registers in use in a bay. -/
def bayUsed (s : State) (core bay : Nat) : Nat :=
  s.warps.foldl (fun n w => match w.place with | .slot c b _ => if c = core ∧ b = bay then n + w.allot else n | _ => n) 0
/-- Occupied slots of a bay. -/
def baySlots (s : State) (core bay : Nat) : List Nat :=
  s.warps.filterMap fun w => match w.place with | .slot c b k => if c = core ∧ b = bay then some k else none | _ => none
/-- A growing ROLE waits in a bay: no new warp is placed there (R93). -/
def growing (s : State) (core bay : Nat) : Bool :=
  s.warps.any fun w => (match w.place with | .slot c b _ => c == core && b == bay | _ => false) &&
    w.pends.any fun p => match p.op with | .role _ _ _ => true | _ => false
/-- Warps of an allotment that a core can still take. -/
def coreRoom (s : State) (core regs : Nat) : Nat :=
  (upto 16).foldl (fun n b => if growing s core b then n else n + min (9 - (baySlots s core b).length) ((243 - bayUsed s core b) / regs)) 0
/-- Gangs placed on a core. -/
def gangsOn (s : State) (core : Nat) : List Gang := s.gangs.filter fun g => !g.saved && g.cores.contains core
/-- The L1 carve-out that a core has for the gangs of a context: the context's, unless gangs there keep theirs (R159). -/
def carveFor (s : State) (core ctx : Nat) : Nat :=
  if (gangsOn s core).isEmpty then (wordAt (s.descOf ctx) 4).toNat else (s.core core).carve
/-- Set the carve-out of cores on which a gang is placed; a core that changes it starts with an empty L1 (R159). -/
def setCarve (s : State) (ctx : Nat) (cores : List Nat) : State :=
  cores.foldl (fun s c =>
    let n := carveFor s c ctx
    if n = (s.core c).carve then s else s.modCore c fun k => { k with carve := n, l1 := [] }) s
/-- A core's free scratchpad lines, region entries, named barriers. -/
def freeLines (s : State) (core ctx : Nat) : Int :=
  6561 - carveFor s core ctx - (gangsOn s core).foldl (fun n g => n + (g.alines : Int)) 0
def freeWins (s : State) (core : Nat) : Int := 243 - (gangsOn s core).foldl (fun n g => if g.cores.head? = some core then n + (g.wins.length : Int) else n) 0
def freeBars (s : State) (core : Nat) : Int := 81 - (gangsOn s core).foldl (fun n g => if g.cores.head? = some core then n + (g.bars.length : Int) else n) 0
/-- Slots of the gangs on a core that satisfy a test. -/
def slotsOn (s : State) (core : Nat) (p : Slot → Bool) : Int :=
  (gangsOn s core).foldl (fun n g => n + ((g.slots.filter p).length : Int)) 0
/-- Macros bound on a core. -/
def boundMacros (s : State) (core : Nat) : Int := slotsOn s core fun x => x.core == some core
/-- Free macros of a core's pair: those neither bound nor held by an unbound slot of a pair gang (R227). -/
def pairMacros (s : State) (core : Nat) : Int :=
  32 - boundMacros s (core / 2 * 2) - boundMacros s (core / 2 * 2 + 1) - slotsOn s core fun x => x.core.isNone
/-- Free macros of a core; a pair gang's unbound slots may still take any of the pair (R227). -/
def freeMacros (s : State) (core : Nat) : Int := min (16 - boundMacros s core) (pairMacros s core)

/-- Resources of a gang: warps, registers, lines, windows, barriers, macros. -/
structure Needs where
  (warps regs lines wins bars macros : Nat)
  deriving DecidableEq, Repr
def recNeeds (r : List Int) : Needs := ⟨recWarps r, recRegs r, recLines r, recWindows r, recBars r, recMacros r⟩

/-- The core or pair can supply them all at once (R85, R86). A pair gang of one warp stands on one of the cores (log entry 51). -/
def canSupply (s : State) (ctx : Nat) (n : Needs) (cores : List Nat) : Bool :=
  let room := cores.map fun c => coreRoom s c n.regs
  cores.all (fun c => s.coreLive c && decide ((n.lines : Int) ≤ freeLines s c ctx)) &&
  decide (n.warps ≤ room.foldl (fun a b => a + b) 0) && (cores.length == 1 || n.warps < 2 || room.all fun r => decide (1 ≤ r)) &&
  (match cores with
    | c :: _ => decide ((n.wins : Int) ≤ freeWins s c ∧ (n.bars : Int) ≤ freeBars s c)
    | [] => false) &&
  (match cores with
    | [c] => decide ((n.macros : Int) ≤ freeMacros s c)
    | c :: _ => decide ((n.macros : Int) ≤ pairMacros s c)
    | [] => n.macros == 0)

/-- The cores that could hold a gang, in order: single cores, or pairs (R270). -/
def candidates (s : State) (pad : Nat) (pair : Bool) (die : Option Nat) : List (List Nat) :=
  let ps := sortBy (fun a b => decide (a < b)) (s.paddock pad).pairs
  let cs := if pair then ps.map fun p => [2 * p, 2 * p + 1] else ps.flatMap fun p => [[2 * p], [2 * p + 1]]
  cs.filter fun l => match die, l with | some d, c :: _ => c / 64 == d | _, _ => true

/-- The lowest that can supply (R270). -/
def chooseCores (s : State) (pad ctx : Nat) (n : Needs) (pair : Bool) (die : Option Nat) : Option (List Nat) :=
  (candidates s pad pair die).find? (canSupply s ctx n)

/-- A pair belongs to some paddock. -/
def pairTaken (s : State) (p : Nat) : Bool := s.paddocks.any fun d => d.pairs.contains p
/-- A pair may leave its paddock: no gang there, above its minimum (R271). -/
def pairFree (s : State) (p : Nat) : Bool :=
  !(s.gangs.any fun g => !g.saved && g.cores.any fun c => c / 2 == p) &&
  (s.paddocks.all fun d => !d.pairs.contains p || decide (d.min < d.pairs.length))
/-- The pair that could come to a paddock below its maximum, among those of a kind: idle, else free in another (R271). -/
def spare (s : State) (pad : Nat) (serves : Nat → Bool) : Option Nat :=
  if (s.paddock pad).max ≤ (s.paddock pad).pairs.length then none
  else
    let ps := (upto 384).filter fun p => !(s.paddock pad).pairs.contains p && pairFree s p && serves p
    match ps.find? fun p => !pairTaken s p with
    | some p => some p
    | none => ps.head?
/-- Move a pair to a paddock. -/
def movePair (s : State) (pad p : Nat) : State :=
  let s1 : State := { s with paddocks := s.paddocks.map fun d => { d with pairs := d.pairs.filter fun q => q != p } }
  s1.modPaddock pad fun d => { d with pairs := d.pairs ++ [p] }

/-! ### Starting gangs and warps (R71, R227, R262) -/

/-- A warp at its start (R71). -/
def newWarp (wid : Nat) (gid : Option Nat) (ctx num : Nat) (place : Place) (cls level : Int) (allot : Nat) (entry : Int) (g : Store) : Warp :=
  { wid := wid, gid := gid, ctx := ctx, num := num, place := place, cls := cls, level := level, allot := allot,
    v := [], g := g, p := [], q := [], spill := -1, gtimeh := 0, redSeq := 0, lanes := List.replicate 27 (Lane.start entry),
    handler := false, hpc := 0, tCause := 0, tLanes := 0, tLevel := 0, inTaskf := false, taskfs := [], watchTraps := [],
    permits := [], pends := [], fence := none, code := [], park := none,
    deadline := none, halts := [], dbl := none, idle := 0, lastIssue := -1, hold := none, blocked := none, released := none }

/-- The registers that a launch loads (R262, R270). -/
def launchRegs (r : List Int) : Store :=
  ssets [] 0 ([wordAt r 6, wordAt r 7, wordAt r 5, wordAt r 8].map lowWord)

/-- A placing names each warp's core, bay and slot: in range, free, within the cores and registers (R86); on each core of a pair when the gang has two warps. -/
def placingOk (s : State) (n : Needs) (cores : List Nat) (pl : Placing) : Bool :=
  pl.length == n.warps &&
  pl.all (fun p => cores.contains p.1 && decide (p.2.1 < 16 ∧ p.2.2 < 9) && !(baySlots s p.1 p.2.1).contains p.2.2 && !growing s p.1 p.2.1) &&
  (nodups pl).length == pl.length &&
  (decide (n.warps < 2) || cores.all fun c => pl.any fun p => p.1 == c) &&
  pl.all (fun p => decide (bayUsed s p.1 p.2.1 + n.regs * (pl.filter fun q => q.1 == p.1 && q.2.1 == p.2.1).length ≤ 243))

/-- Take n lines of a list, each by a free choice, none twice. -/
def drawLines (f : Nat → Nat) : Nat → List Nat → List Nat
  | 0, _ => []
  | n + 1, free => match free[f n % free.length]? with
    | some x => x :: drawLines f n (free.erase x)
    | none => []
/-- The physical lines that a gang takes on a core: outside the carve-out and the other gangs' (R157, R159; free value, log entry 118). -/
def drawPhys (s : State) (core n : Nat) : List Nat :=
  let taken := (gangsOn s core).flatMap fun g => if g.cores.head? = some core then g.phys.take g.alines else g.phys.drop g.alines
  drawLines (fun i => Config.physLine s.fresh (6561 * core + i)) n ((upto (6561 - (s.core core).carve)).filter fun x => !taken.contains x)
/-- The physical lines of a gang on its cores. -/
def gangPhys (s : State) (cores : List Nat) (alines : Nat) : List Nat := cores.flatMap fun c => drawPhys s c alines

/-- Start a gang of a launch at a placing. Names nextId for the gang and the following ones for its warps. -/
def startGang (s : State) (x : Launch) (c : Int × Int × Int) (count : Nat) (cores : List Nat) (pl : Placing) : State :=
  let r := x.words
  let gid := s.nextId
  let s0 := setCarve s x.ctx cores
  let home : Option Nat := if cores.length = 1 then cores.head? else none
  let slots : List Slot := List.replicate (recMacros r) ⟨1, 0, [], home⟩
  let g : Gang :=
    { gid := gid, lid := x.lid, ctx := x.ctx, x := c.1, y := c.2.1, z := c.2.2, cores := cores, alines := recLines r,
      nwarps := recWarps r, scratch := [], stags := [], phys := gangPhys s0 cores (recLines r), bad := [], badRows := [], wins := List.replicate (recWindows r) none,
      bars := List.replicate (recBars r) Bar.start, slots := slots, tasks := [], nextTicket := 0, commit := false,
      relaunches := count, placedAt := s.nextId, held := decide (s.now < recStart r), start := recStart r, saved := false,
      full := false, ranges := [], killed := false, reported := false, barcSince := none, releases := [] }
  let ws := (List.zip (upto pl.length) pl).map fun p =>
    newWarp (gid + 1 + p.1) (some gid) x.ctx p.1 (.slot p.2.1 p.2.2.1 p.2.2.2) x.cls (recLevel r) (recRegs r) (recEntry r) (launchRegs r)
  let s1 := { s0 with fresh := s0.fresh + 1, gangs := s.gangs ++ [g], warps := s.warps ++ ws, nextId := gid + 1 + pl.length }
  s1.modLaunch x.lid fun x => { x with table := x.table ++ [(c.1, c.2.1, c.2.2, false)] }

/-- A launch's context holds its channels in the escapement: it runs, or gangs of it are still on cores (R223). -/
def chansIn (s : State) (ctx pad : Nat) : Bool :=
  (s.paddock pad).running == some ctx || s.gangs.any fun g => g.ctx == ctx && !g.saved
/-- The physical channels 9 to 80 in use (R214); those of a context switched out are saved (R223). -/
def chansUsed (s : State) : Nat :=
  (s.chans.filter fun c => match c.lid.bind s.launch? with | some x => chansIn s x.ctx x.paddock | none => false).length
/-- Grant a launch's channels with its first gang (R216). Records are named from 9 up; programs name them by descriptor. -/
def grantChans (s : State) (x : Launch) : State :=
  let free := ((upto (s.chans.length + x.descs.length)).map fun i => i + 9).filter fun ch => !(s.chans.any fun c => c.ch == ch)
  let chs := free.take x.descs.length
  let recs := (List.zip (upto x.descs.length) (List.zip chs x.descs)).map fun p => Channel.grant p.2.1 (some x.lid) p.1 p.2.2
  let s1 : State := { s with chans := s.chans ++ recs }
  s1.modLaunch x.lid fun x => { x with chans := chs, granted := true }

/-! ### Ends (R245, R247, R266, R291) -/

/-- Clear the watch units on every core that a test picks (R294). -/
def clearWatch (s : State) (p : Watch → Bool) : State :=
  { s with cores := s.cores.map fun c => { c with watch := c.watch.filter fun u => !p u } }

/-- The transducer table slots that a warp's XTAB is loading (R251). -/
def Warp.tableLoads (w : Warp) : List Nat := w.pends.filterMap fun p => match p.op with | .xtab t _ _ _ true => some t | _ => none

/-- Drop what a set of warps has in progress; a table slot that one of them was loading is empty (R251). -/
def dropWarps (s : State) (p : Warp → Bool) : State :=
  let ids := (s.warps.filter p).map fun w => w.wid
  let ts := (s.warps.filter p).flatMap Warp.tableLoads
  { s with warps := s.warps.filter fun w => !p w, ops := s.ops.filter fun o => !ids.contains o.wid,
           xd := { s.xd with slots := s.xd.slots.map fun t => if ts.contains t.t && t.st == .loading then { t with st := .empty } else t } }

/-- The bindings of a killed gang take no further line; one with sectors on their way stays until they have come and been discarded (R173). -/
def stopBinds (gid : Nat) (bs : List Binding) : List Binding :=
  bs.filterMap fun b => if b.gid != gid then some b else if b.landed < 3 * b.sent then some { b with n := b.sent } else none

/-- A gang may be relaunched (R245, R291, R293). -/
def relaunchable (s : State) (g : Gang) : Bool :=
  match s.launch? g.lid with
  | some x => recIdempotent x.words && !g.commit && decide (g.relaunches < 3)
  | none => false

/-- Kill a gang (R245, R291): its warps stop, tasks are discarded, windows unbound without write-back. Relaunched when
asked and allowed; otherwise reported with completion trit 11. page: a page request to await first; tf: the fault that
its failure delivers. -/
def killGang (s : State) (gid : Nat) (page : Option Int) (tf : Option TaskF) : State :=
  match s.gang? gid with
  | none => s
  | some g =>
    let again := relaunchable s g
    let s1 := dropWarps s fun w => w.gid == some gid
    let s2 := clearWatch s1 fun u => u.gid == some gid && u.scope != 1
    let s3 := s2.modGang gid fun g => { g with killed := true, reported := !again, tasks := [], wins := g.wins.map fun _ => none }
    let s4 := { s3 with home := { s3.home with owned := s3.home.owned.filter fun o => match o.owner with
        | .task g' _ => g' != gid
        | .recv g' _ => g' != gid
        | .xducer _ => true } }
    let s5 := { s4 with cores := s4.cores.map fun c => { c with binds := stopBinds gid c.binds } }
    if again then
      (cwGang s5 gid none [14]).modLaunch g.lid fun x =>
        { x with again := x.again ++ [⟨g.x, g.y, g.z, g.relaunches + 1, page, tf⟩],
                 table := x.table.filter fun e => !(e.1 == g.x && e.2.1 == g.y && e.2.2.1 == g.z) }
    else cwGang s5 gid none [11]

/-- Requests that still concern a gang's scratchpad (R173). -/
def gangBusy (s : State) (gid : Nat) : Bool :=
  (s.reqs.any fun r => match r.body with
    | .fill g _ _ | .sectors g _ _ _ _ _ _ | .mcast g _ _ _ | .mcopy g _ _ _ _ _ _ | .own g _ _ _ | .recall g _ _ _ => g == gid
    | .wback _ _ _ _ _ _ _ => r.wid == gid
    | .stream c p _ _ _ => (s.core c).binds.any fun b => b.port == p && b.gid == gid
    | _ => false) ||
  (s.xd.lanes.any fun l => l.queue.any fun q => q.gid == gid) ||
  (match s.gang? gid with | some g => g.tasks.any fun t => t.st != .queued | none => false)

/-- Remove a gang that has ended and count it (R266, R293). -/
def finishGang (s : State) (g : Gang) : State :=
  let s1 := { s with gangs := s.gangs.filter fun x => x.gid != g.gid }
  let s2 := clearWatch s1 fun u => u.gid == some g.gid && u.scope != 1
  if g.killed && !g.reported then s2
  else s2.modLaunch g.lid fun x =>
    { x with gangEnds := x.gangEnds + 1, table := x.table.filter fun e => !(e.1 == g.x && e.2.1 == g.y && e.2.2.1 == g.z) }

/-- Keep the journal entry of a launch in step with its gang table (R265, R293): a gang that waits to be placed again has been placed and has not
ended. -/
def syncJournal (s : State) : State :=
  let f (j : JEntry) : JEntry := match s.launches.find? fun x => x.seq == j.seq && x.paddock == j.paddock with
    | some x => { j with nextGang := x.nextGang, gangEnds := x.gangEnds,
                         table := x.table ++ x.again.map fun a => (a.x, a.y, a.z, false) }
    | none => j
  { s with journal := s.journal.map f }

/-- Order of launches in placement and issue (R270, R273): class, deadline, sequence. -/
def launchBefore (a b : Launch) : Bool :=
  let da := if recDeadline a.words = 0 then pow3 60 else recDeadline a.words
  let db := if recDeadline b.words = 0 then pow3 60 else recDeadline b.words
  keyLt [-a.cls, da, a.seq] [-b.cls, db, b.seq]

/-- A context's sequencer has work (R272); none when it is fenced (R22). -/
def seqWork (s : State) (c : Context) : Bool :=
  if s.pkg.deadSeqs.contains c.paddock then false
  else match c.seqWid with
  | none => true
  | some wid => match s.warp? wid with
    | none => false
    | some w => if w.place == .saved then c.seqReady else w.hasLanes

/-- A bound context is runnable (R272). -/
def runnable (s : State) (c : Context) : Bool := (s.launches.any fun x => x.ctx == c.ctx) || seqWork s c

/-- The contexts of a paddock in bind order, after the running one. -/
def nextContext (s : State) (pad : Nat) : Option Context :=
  let cs := s.ctxs.filter fun c => c.paddock == pad
  let cs : List Context := match (s.paddock pad).running with
    | some r => (cs.dropWhile (fun c => c.ctx != r)).drop 1 ++ cs.takeWhile (fun c => c.ctx != r) ++ cs.filter (fun c => c.ctx == r)
    | none => cs
  cs.find? (runnable s)

/-- Switch a context in: its sequencer starts, or resumes (R259, R272). -/
def switchIn (s : State) (pad : Nat) (c : Context) : State :=
  let s1 := s.modPaddock pad fun d => { d with running := some c.ctx, sliceStart := s.now, pausing := false }
  if s.pkg.deadSeqs.contains pad then s1
  else match c.seqWid with
  | some wid => (s1.modWarp wid fun w => { w with place := .seq pad }).modContext c.ctx fun c => { c with woken := false, seqReady := false }
  | none =>
    let g := ssets [] 0 ([wordAt c.words 21, wordAt c.words 22].map lowWord)
    let w := newWarp s1.nextId none c.ctx 0 (.seq pad) 0 (if pad = 0 then 1 else 0) 0 (dblAt c.words 19) g
    let s2 : State := { s1 with warps := s1.warps ++ [w], nextId := s1.nextId + 1 }
    s2.modContext c.ctx fun c => { c with seqWid := some s1.nextId }

end Sys2Proof.Machine
end

