-- ==== Sys2Proof/Machine/EvMemory.lean ====
section
/-! DEFINITION. Machine/EvMemory.lean: the events of the memory side: landings, recalls, requests at their homes,
replies, write-backs, reductions, multicast, the frontier, walks and fetches (R144, R152, R163, R166, R179 to R192,
R205 to R210, R389, R390). An event that is not enabled leaves the state as it is. -/

namespace Sys2Proof.Machine

open Sys2Proof Tern

/-! ### Landings in windows (R163, R183, R192) -/

/-- Land a sector in line j of window k: the data, 27 trytes on the barrier, and at the third sector the tag and the
state. A window that is no longer bound discards it (R173). -/
def landIn (s : State) (gid k j : Nat) (d : Store) (t : Tag) (sector : Nat) (st : LineState) (bad : Bool) : State :=
  match s.gang? gid with
  | none => s
  | some g => match g.win? k with
    | none => s
    | some w =>
      if (w.line? j).isNone then s
      else
        let line := w.first + j
        let s1 := (scrub s gid [(81 * (line : Int) + 27 * (sector : Int), 27)]).modGang gid fun g =>
          let g1 := g.landSector line sector d
          if sector = 2 then
            let g2 := g1.setTag line t
            { g2 with bad := if bad then nodups (g2.bad ++ [line]) else g2.bad.filter fun x => x != line }.modWin k fun w =>
              w.modLine j fun x => { x with st := st, owned := st == LineState.dirty, count := if st = LineState.dirty then none else x.count }
          else g1
        tbLand s1 (.scr gid w.bar) 27

/-- SECTOR_LANDING (R163): what one slice sends to one core lands in order (R176), before the arrivals of its cycle (R171). -/
def execSectorLanding (id : Nat) (s : State) : Out :=
  .next (match s.req? id with
    | some r => (match r.body with
      | .sectors g k j d t n bad =>
        if !firstReply s r || s.tbMet g then s else
        let s1 := landIn s g k j d t n .present bad
        if n = 2 then s1.delReq id else s1.modReq id fun r => { r with body := .sectors g k j d t (n + 1) bad }
      | _ => s)
    | none => s)

/-- MULTICAST_DELIVERY (R183): a sector of the copy lands; the third counts one delivery (R169). -/
def execMulticastDelivery (id : Nat) (s : State) : Out :=
  .next (match s.req? id with
    | some r => (match r.body with
      | .mcopy g k j d t n bad =>
        if !firstReply s r || s.tbMet g then s else
        let s1 := landIn s g k j d t n .present bad
        if n = 2 then (countRead s1 g k j).delReq id else s1.modReq id fun r => { r with body := .mcopy g k j d t (n + 1) bad }
      | _ => s)
    | none => s)

/-! ### Recalls and ownership (R166, R179) -/

/-- No recall that the same slice sent to the core of the same gang before is on its way, but for those that await a filling line (R176). -/
def firstRecall (s : State) (r : Req) (gid : Nat) : Bool :=
  (s.reqs.takeWhile fun q => q.id != r.id).all fun q => match q.body with
    | .recall g k j _ => g != gid || q.port s != r.port s ||
      (match ((s.gang? g).bind fun g => g.win? k).bind fun w => w.line? j with | some x => x.st == .filling || x.st == .recv | none => false)
    | _ => true

/-- WINDOW_RECALL (R166): a filling line lands first; what one slice sends to one core arrives in order (R176). -/
def execWindowRecall (id : Nat) (s : State) : Out :=
  .next (match s.req? id with
    | some r => (match r.body with
      | .recall gid k j own =>
        if !firstRecall s r gid then s
        else match ((s.gang? gid).bind fun g => g.win? k).bind fun w => w.line? j with
        | none => s.delReq id
        | some x =>
          match x.st with
          | .filling | .recv | .absent => s
          | .present => (if own then s.modGang gid fun g => g.modWin k fun w => w.drop j else s).delReq id
          | .dirty =>
            let s1 := writeBackLine s gid k j 0
            (s1.modGang gid fun g => g.modWin k fun w => if own then w.drop j else w.modLine j fun x => { x with owned := false }).delReq id
      | _ => s)
    | none => s)

/-- The lines of which an ownership request needs every other copy recalled: its own; when the core's copy has been recalled meanwhile, all that
are materialised with it (R179, R189). -/
def ownLines (s : State) (r : Req) (w : Window) (j : Nat) : List Int :=
  if r.pkg = 999 then [] else if (w.line? j).isSome then [r.line] else tripleLines s r.pkg r.line

/-- Write the waiting store of an ownership request, and own the line; a request with no store in it leaves the line present. -/
def takeOwned (gid k j : Nat) (us : List (Int × Nat × Int)) (s : State) : State :=
  s.modGang gid fun g => (us.foldl (fun g u => g.write u.1 u.2.1 u.2.2) g).modWin k fun w => w.modLine j fun x =>
    if us.isEmpty then { x with owned := true } else { x with st := .dirty, owned := true, count := none }

/-- OWNERSHIP_REQUEST (R179): the other holders are recalled; then the core owns the line, which it takes again if its
copy was recalled meanwhile, and the waiting store is written. -/
def execOwnershipRequest (id : Nat) (s : State) : Out :=
  .next (match s.req? id with
    | some r => (match r.body with
      | .own gid k j us =>
        if !arrived s r || remoteHeld s r.pkg then s
        else match (s.gang? gid).bind fun g => g.win? k with
          | none => s.delReq id
          | some w =>
            let need := ownLines s r w j
            if need.any fun l => engineBars s [gid] r.pkg l || !clear s r.pkg l true (some (gid, k, j)) then
              need.foldl (fun s l => sendRecalls s r.pkg l true (some (gid, k, j))) (s.modReq id fun r => { r with stage := 3 })
            else if w.stateOf j == .filling || w.stateOf j == .recv then s
            else if (w.line? j).isSome || r.pkg == 999 then (takeOwned gid k j us s).delReq id
            else match need.findSome? (makeRoom s r.pkg) with
            | some s1 => s1
            | none =>
              let f := leafThere s r.src r.ctx (w.boxAddr j) (.dom r.pkg (81 * r.line))
              let s1 := takeLines s (need.map fun l => (r.pkg, l))
              let s2 := s1.modGang gid fun g => (g.setLine (w.first + j) (s1.mem.line r.pkg r.line) (s1.mem.tag r.pkg r.line)).modWin k fun w =>
                w.put ⟨j, .present, .dom r.pkg (81 * r.line), true, none, s.now, f⟩
              (takeOwned gid k j us s2).delReq id
      | _ => s)
    | none => s)

/-! ### Reads at the home (R175 to R180) -/

/-- A request's wait at its home. -/
def stall (s : State) (id : Nat) : State := s.modReq id fun r => { r with stage := if r.sc.isSome then 2 else 3 }
/-- A miss that finds no entry free waits in the retry queue, while that has room; one that the slice has accepted and that finds it full waits at
its line (R180). -/
def retryQueue (s : State) (r : Req) : State := if sliceStopped s r then s else s.modReq r.id fun r => { r with stage := 4 }

/-- SLICE_REQUEST (R177 to R180): a hit is replied; a miss takes or joins a miss entry, or waits in the retry queue; an .SC read joins the .SC
queue. -/
def execSliceRequest (id : Nat) (s : State) : Out :=
  .next (match s.req? id with
    | some r =>
      let isRead := match r.body with | .read _ _ | .rtag _ _ | .fill _ _ _ | .pref _ => true | _ => false
      if r.body == .seek then (if remoteHeld s r.pkg then s else s.delReq id)
      else if !isRead || !arrived s r || remoteHeld s r.pkg then s
      else if r.sc.isSome then s.modReq id fun r => { r with stage := 2 }
      else if !readClear s r then readRecall (stall s id) r
      else if r.pkg = 999 then serveRead (hostBefore s r) r
      else if (s.heldLine? r.pkg r.line).isSome then serveRead (install s r.pkg r.line false) r
      else
        let ms := missing s r.pkg r.line
        if ms.isEmpty && missLoad s r.pkg r.line ≥ 81 then retryQueue s r
        else if ms.length ≤ 27 then s.modReq id fun r => { r with stage := 1 }
        else stall s id
    | none => s)

/-- SLICE_MISS_DATA (R180): every attached request is replied. -/
def execSliceMissData (id : Nat) (s : State) : Out :=
  .next (match s.req? id with
    | some r =>
      if r.stage != 1 || r.body.isMcast || remoteHeld s r.pkg then s
      else match makeRoom s r.pkg r.line with
        | some s1 => s1
        | none => (missing s r.pkg r.line).foldl (fun s q => if readClear s q then serveRead s q else readRecall (stall s q.id) q)
            (install s r.pkg r.line false)
    | none => s)

/-! ### Stores, tags and atomics (R189, R195, R205, R426, R429) -/

/-- The lines that a write at the home concerns, those not reserved and not bad materialised with it. -/
def writeLines (s : State) (r : Req) (us : List Unit1) : List (Int × Int) :=
  nodups ((((r.pkg, r.line) :: us.flatMap unitLines).filter fun p => p.1 != 999).flatMap fun p => (tripleLines s p.1 p.2).map fun l => (p.1, l))
/-- Lines that may be rewritten. -/
def soundLines (s : State) (ls : List (Int × Int)) : List (Int × Int) :=
  ls.filter fun p => match s.mem.lineAt (.dom p.1 (81 * p.2)) with | .data _ _ => true | _ => false

/-- The lines of a write are ready, or what makes them so (R178, R203, R204). -/
def writeReady (s : State) (id : Nat) (ls : List (Int × Int)) : Option State :=
  if !allClear s ls then some (recallAll (stall s id) ls)
  else ls.findSome? fun p => makeRoom s p.1 p.2

/-- Apply a store at its home. -/
def applyStore (s : State) (r : Req) (us : List Unit1) : State :=
  let ls := writeLines s r us
  match writeReady s r.id ls with
  | some s1 => s1
  | none => (applyUnits (takeLines s (soundLines s ls)) r.ctx us).delReq r.id

/-- HOME_STORE (R426, R429): a store, a tag write, or a store to host memory. -/
def execHomeStore (id : Nat) (s : State) : Out :=
  .next (match s.req? id with
    | some r =>
      if !arrived s r || remoteHeld s r.pkg then s
      else match r.body with
        | .hostStore us => ({ s with mem := us.foldl (fun m u => writePieces m (pieces u.at_ u.hi u.width) u.val) s.mem } : State).delReq id
        | .store us => if r.sc.isSome then s.modReq id fun r => { r with stage := 2 } else applyStore s r us
        | .wtag code scale =>
          let packed := inR (s.mem.tag r.pkg r.line).code 7 11 && (s.mem.tag r.pkg r.line).code != code
          let ls := if packed then writeLines s r [] else [(r.pkg, r.line)]
          match writeReady s id ls with
          | some s1 => s1
          | none =>
            if s.mem.bad r.pkg r.line then (s.note (some r.ctx) .storeDiscarded [0]).delReq id
            else if r.line = 0 then s.delReq id
            else
              let s1 := if packed then takeLines s (soundLines s ls) else install (unshare s ls) r.pkg r.line true
              (s1.modMem fun m => m.setTag r.pkg r.line ⟨code, scale⟩).delReq id
        | _ => s
    | none => s)

/-- The element that an ATOM writes (R346). -/
def atomVal (k : AtomOp) (n : Nat) (m x d : Int) : Int :=
  match k with
  | .add => narrow (m + x) n
  | .min => min m x
  | .max => max m x
  | .xchg => x
  | .cas => if m = d then x else m
  | .tbin t => tbin t m x n

/-- Perform ATOM's units in ascending lane order, refusing reserved and bad lines (R346, R347). -/
def applyAtom (s : State) (r : Req) (op : Nat) (k : AtomOp) (us : List Unit1) (old : List (Nat × Int)) : State :=
  let ls := writeLines s r us
  match writeReady s r.id ls with
  | some s1 => s1
  | none =>
    let s1 := takeLines s (soundLines s ls)
    (us.foldl (fun s u =>
      let ps := pieces u.at_ u.hi u.width
      let cap (s : State) (f : LaneRead → Got) : State := s.modOp op fun o => { o with lanes := o.lanes.map fun x => if x.lane == u.lane && x.at_ == u.at_ then { x with got := f x } else x }
      match readPieces s.mem 0 ps with
      | .bad i => cap s fun x => .uncor (pieceAddr x.virt i)
      | .reserved i => cap s fun x => .tagFault (pieceAddr x.virt i)
      | .val m =>
        let d := ((old.find? fun p => p.1 == u.lane).map fun p => p.2).getD 0
        cap (s.modMem fun y => writePieces y ps (atomVal k (9 * u.width) m u.val d)) fun _ => .value m) s1).data r op

/-- HOME_ATOMIC (R205, R346). -/
def execHomeAtomic (id : Nat) (s : State) : Out :=
  .next (match s.req? id with
    | some r => (match r.body with
      | .atom op k us old =>
        if !arrived s r || remoteHeld s r.pkg then s
        else if r.sc.isSome then s.modReq id fun r => { r with stage := 2 }
        else applyAtom s r op k us old
      | _ => s)
    | none => s)

/-! ### Reductions (R185 to R188, R212) -/

/-- The format of a floating RED element (R413). -/
def redFmt (width : Nat) : Fmt := if width = 1 then tf9 else tf27

/-- One RED update of an element (R185). -/
def redVal (op : Int) (flt : Bool) (width : Nat) (m x : Int) : Int :=
  if flt then
    let f := redFmt width
    if op = 0 then (f.op 0 0 [m, x] (two addV)).1 else (f.minmax op 0 m x).1
  else if op = 0 then narrow (m + x) (9 * width)
  else if op = -1 then min m x else max m x

/-- Apply units by an update of their elements; a reserved or bad line discards with an event (R185, R414). -/
def applyRed (s : State) (ctx : Nat) (us : List Unit1) (f : Nat → Int → Int → Int) : State :=
  us.foldl (fun s u =>
    let ps := pieces u.at_ u.hi u.width
    match readPieces s.mem 0 ps with
    | .val m => s.modMem fun y => writePieces y ps (f u.width m u.val)
    | _ => s.note (some ctx) .reduction [u.lane]) s

/-- RED_CONTRIBUTION (R185). -/
def execRedContribution (id : Nat) (s : State) : Out :=
  .next (match s.req? id with
    | some r => (match r.body with
      | .red op flt us =>
        if !arrived s r || remoteHeld s r.pkg then s
        else
          let ls := writeLines s r us
          match writeReady s id ls with
          | some s1 => s1
          | none => (applyRed (takeLines s (soundLines s ls)) r.ctx us (redVal op flt)).delReq id
      | _ => s)
    | none => s)

/-- A result as an operand of the next exact step. -/
def FRes.toFV (f : Fmt) : FRes → FV
  | .nan p _ => .nan p
  | .invalid => .nan (pow3 (f.p - 2))
  | .inf s _ => .inf s
  | .num s n _ e => .fin (s * n) e
  | .zero => .fin 0 0

/-- The close of a round: contributions in ascending key order, folded exactly, fitted once (R187). -/
def closeVal (op : Int) (flt : Bool) (width : Nat) (m : Int) (xs : List Int) : Int :=
  if flt then
    let f := redFmt width
    if op = 0 then
      let v := xs.foldl (fun (a : FV) x =>
        let b := f.dec x
        (match f.firstNan [a, b] with | some n => n | none => addV a b).toFV f) (f.dec m)
      (f.finish 0 (match f.firstNan [v] with | some n => n | none => resV v)).1
    else xs.foldl (fun a x => (f.minmax op 0 a x).1) m
  else if op = 0 then narrow (xs.foldl (fun a x => a + x) m) (9 * width)
  else xs.foldl (fun a x => if op = -1 then min a x else max a x) m

/-- Hold one contribution in its round; the count closes the round (R187, R188). -/
def holdDet (s : State) (ctx : Nat) (op : Int) (flt : Bool) (tag count : Int) (key : List Int) (u : Unit1) : State :=
  let a : Int × Int := match u.at_ with | .dom p x => (p, x) | .host _ _ _ => (999, 0)
  let ps := pieces u.at_ u.hi u.width
  match readPieces s.mem 0 ps with
  | .val m =>
    let isIt (r : Round) : Bool := r.pkg == a.1 && r.addr == a.2 && r.tag == tag
    let put (rs : List Round) : State := { s with home := { s.home with rounds := rs } }
    let r0 : Round := (s.home.rounds.find? isIt).getD ⟨a.1, a.2, u.width, tag, count, op, flt, [], ctx⟩
    if r0.count != count then s.note (some ctx) .reduction [u.lane]
    else
      let held := r0.held ++ [(key ++ [(u.lane : Int)], u.val)]
      if (held.length : Int) = r0.count then
        let xs := (sortBy (fun a b => keyLt a.1 b.1) held).map fun p => p.2
        (put (s.home.rounds.filter fun r => !isIt r)).modMem fun y => writePieces y ps (closeVal r0.op r0.flt r0.width m xs)
      else if s.home.rounds.any isIt then put (modFirst isIt (fun r => { r with held := held }) s.home.rounds)
      else put (s.home.rounds ++ [{ r0 with held := held }])
  | _ => s.note (some ctx) .reduction [u.lane]

/-- RED_DET_CONTRIBUTION (R187). -/
def execRedDetContribution (id : Nat) (s : State) : Out :=
  .next (match s.req? id with
    | some r => (match r.body with
      | .det op flt tag count key us =>
        if !arrived s r || remoteHeld s r.pkg then s
        else
          let ls := writeLines s r us
          match writeReady s id ls with
          | some s1 => s1
          | none => (us.foldl (fun s u => holdDet s r.ctx op flt tag count key u) (takeLines s (soundLines s ls))).delReq id
      | _ => s)
    | none => s)

/-! ### Replies (R389, R390, R296) -/

/-- The lanes of a load whose wait on it still stands. -/
def opWaiting (w : Warp) (op : Nat) : List Nat := w.waiting fun x => x.kind == .load op

/-- The value a read delivers, with its flag. -/
def Got.deliver : Got → Option (Int × Fl)
  | .value v => some (v, Fl.none)
  | .tg => some (0, Fl.tgs)
  | _ => none

/-- What both parts of a double find: an uncorrectable line before a reserved code, else the two parts (R390, R457). -/
def Got.join : Got → Got → Got
  | .waiting, _ => .waiting
  | _, .waiting => .waiting
  | .uncor a, _ => .uncor a
  | _, .uncor a => .uncor a
  | .tagFault a, _ => .tagFault a
  | _, .tagFault a => .tagFault a
  | .value a, .value b => .value (a + pow3 27 * b)
  | .done v, _ => .done v
  | _, .done v => .done v
  | _, _ => .tg

/-- What each lane of an operation has received. -/
def LoadOp.results (o : LoadOp) : List (Nat × Got) :=
  (nodups (o.lanes.map fun x => x.lane)).map fun l => (l, match o.lanes.filter fun x => x.lane == l with
    | x :: r => r.foldl (fun g y => g.join y.got) x.got
    | [] => .waiting)
/-- Every reply has returned. -/
def LoadOp.complete (o : LoadOp) : Bool := o.lanes.all fun x => x.got != .waiting
/-- An atomic's lanes are written one by one, as their replies return (R346). -/
def LoadOp.isAtom (o : LoadOp) : Bool := match o.instr with | .atom _ => true | _ => false
/-- The operation with what it has delivered marked. -/
def LoadOp.delivered (o : LoadOp) : LoadOp :=
  { o with lanes := o.lanes.map fun x => match x.got with | .value v => { x with got := .done v } | _ => x }

/-- The lanes of an operation that a bad line keeps on the word, with T.ADDR (R390). -/
def LoadOp.refused (o : LoadOp) : List (Nat × Int × Int) :=
  o.results.filterMap fun x => match x.2 with | .tagFault a => some (x.1, 0, a) | .uncor a => some (x.1, 0, a) | _ => none
/-- Any of them uncorrectable. -/
def LoadOp.anyUncor (o : LoadOp) : Bool := o.results.any fun x => match x.2 with | .uncor _ => true | _ => false

/-- Write what has been delivered into the lanes that take it, and into the latches that the word's results have by now (R107, R389, R346). -/
def LoadOp.write (o : LoadOp) (live : List Nat) (w : Warp) : Warp :=
  o.results.foldl (fun w x =>
    match x.2.deliver with
    | none => w
    | some (v, f) =>
      if o.group then (if live.isEmpty then w else w.setDst 0 o.d o.dbl v)
      else if !live.contains x.1 then w
      else
        let n := (o.marks.lookup x.1).getD 0
        ((w.setDst x.1 o.d o.dbl v).modLane x.1 fun y => y.lateLatch n ⟨v, o.dbl⟩).raise [(x.1, f)]) w

/-- A lane as it stood at an atomic that its home refuses: on the word, at its depth, live, with its link stack and without what it has waited for
since; in a handler entered meanwhile, so is what it resumes to (R347; log entry 103). -/
def Lane.standAgain (x : Lane) (word : Int) (handler : Bool) (depth : Nat) (link : List (Option Int)) : Lane :=
  let y : Lane := { x with pc := word, depth := depth, link := link, live := true, wait := none, yielded := none }
  if handler then { y with tEpc := word, tDepth := depth, tLive := true, tWait := false, tYield := false } else y

/-- Refused lanes stand on their word again, in a handler that issued it or outside; a refusal that meets a handler entered meanwhile sets the
resume PC too. -/
def LoadOp.putBack (o : LoadOp) (bad : List Nat) (w : Warp) : Warp :=
  if bad.isEmpty then w
  else if o.inHandler && w.handler then { w with hpc := o.word }
  else w.modLanes bad fun l x => match o.stood.lookup l with
    | some (d, k) => x.standAgain o.word w.handler d k
    | none => { x with pc := o.word, tEpc := if w.handler then o.word else x.tEpc }

/-- The debugger operation that awaits a name (R307). -/
def stepperOf (s : State) (id : Nat) : Option (Nat × Nat) :=
  let f (wid : Nat) (l : List Pend) : Option (Nat × Nat) := l.findSome? fun p => match p.op with
    | .hstep _ _ _ _ ws => if ws.contains id then some (wid, p.n) else none
    | _ => none
  match s.warps.findSome? fun w => f w.wid w.pends with
  | some x => some x
  | none => f 0 s.pkg.dwin

/-- What a complete operation does to its warp, beside what it delivers: the value and flag units, and the trap of the refused lanes
(R296, R307, R390). -/
def endLoad (s : State) (o : LoadOp) (w : Warp) (live : List Nat) (bad : List (Nat × Int × Int)) (last : Bool) : State :=
  let k : ResKind := if o.dbl then .d else .w
  let new := (o.results.filter fun x => live.contains x.1).filterMap fun x => (x.2.deliver).map fun v => (x.1, v)
  let res := if o.group then [] else new.map fun x => (x.1, (⟨x.2.1, o.dbl⟩ : Latch))
  let fl := (new.filter fun x => !x.2.2.isNone).map fun x => (x.1, x.2.2)
  let t : TrapReq := ⟨if o.anyUncor then cause.uncor else cause.tag, bad⟩
  let c : Cur := ⟨o.wid, o.word, live, 0, false, if o.hstep then stepperOf s o.id else none⟩
  let p := if o.inHandler || o.group then (s, []) else watchResults s c w.coreNo o.at_ [(res, k)] fl
  match c.hstep with
  | some (dbg, n) =>
    if !last then p.1
    else if bad.isEmpty then recordStep p.1 dbg n (0, lowestUnit p.2, 0, 0) else raiseTrap p.1 c t
  | none =>
    if bad.isEmpty then watchAct p.1 o.wid p.2
    else
      let s2 := if strongest p.2 = 0 then p.1.modWarp o.wid fun w => w.holdTrap (trapTrigs p.2)
        else watchAct p.1 o.wid p.2
      s2.enterTrap o.wid t

/-- No reply sent before an operation's own, by the same slice to the same core, is on its way (R176). -/
def opFirst (s : State) (id : Nat) : Bool := (s.reqs.filter fun q => q.body == .data id).all (firstReply s)
/-- An operation's data has reached its core. -/
def State.taken (s : State) (id : Nat) : State := { s with reqs := s.reqs.filter fun q => q.body != .data id }

/-- LOAD_REPLY (R176, R389, R390, R346): every reply of a load has returned; of an atomic, some lane's. An atomic's lanes have moved on and take
their results where they stand; those that wait on the word are the ones that its home refuses (log entry 103). -/
def execLoadReply (id : Nat) (s : State) : Out :=
  .next (match s.op? id with
    | none => s.taken id
    | some o =>
      let last := o.complete
      if !opFirst s id then s
      else if !last && (!o.isAtom || o.hstep || !(o.results.any fun x => x.2.deliver.isSome)) then s
      else
        let s0 : State := if last then { s.taken id with ops := s.ops.filter fun x => x.id != id } else (s.taken id).modOp id LoadOp.delivered
        match s.warp? o.wid with
        | none => s0
        | some w =>
          let live := if o.isAtom then o.results.map fun x => x.1 else opWaiting w id
          let bad := if !last then []
            else if o.group then (match o.refused with | p :: _ => live.map fun l => (l, p.2) | [] => [])
            else o.refused.filter fun p => live.contains p.1
          let s1 := s0.modWarp o.wid fun w =>
            let w1 := o.write live w
            o.putBack (bad.map fun p => p.1) (if last then w1.wake fun x => x.kind == .load id else w1)
          endLoad s1 o w live bad last)

/-! ### Write-backs (R181, R168, R190) -/

/-- Lines pinned by a context; pinned lines of a set (R168, R178). -/
def pinCount (s : State) (ctx : Nat) : Nat := (s.home.held.filter fun h => match h.pin with | some p => p.1 == ctx | none => false).length
def setPins (s : State) (pkg line : Int) : Nat := (s.home.held.filter fun h => h.pkg == pkg && sameSet s h.line line && h.pin.isSome).length

/-- Pin a held line under a key, within the quota and twelve of its set; otherwise the launch notes a shortfall
(R168, R178, R266). -/
def pinLine (s : State) (ctx : Nat) (lid : Option Nat) (pkg line key : Int) : State :=
  if key = 0 then s
  else
    let quota : Bool := decide ((pinCount s ctx : Int) < wordAt (s.descOf ctx) 10)
    let fits : Bool := match s.heldLine? pkg line with
      | none => false
      | some h => match h.pin with
        | some p => p.1 == ctx || quota
        | none => quota && decide (setPins s pkg line < 12)
    if fits then s.modHeld pkg line fun h => { h with pin := some (ctx, key) }
    else match lid.bind s.launch? with
    | some x => cwUpdate s x none [15]
      | none => s

/-- Ask the slice of a written line to pin it (R168). -/
def askPin (s : State) (r : Req) (at_ : Loc) (pin : Int) : State :=
  (s.send 800 r.ctx r.wid r.pkg r.line (.wback at_ [] Tag.plain pin false false false) none).modReq s.nextId fun q => { q with stage := 5 }

/-- WRITE_BACK (R181): the line is written whole, tag and all, and takes a write-back entry until it stands in HBM4, when the entry is freed
and the line de-duplicated (R190); it waits while the entries are full. A write to host memory follows its own rule. A line with a pin key is
then placed in its slice, which makes room for it as for any other, and pinned (R168, R178). -/
def execWriteBack (id : Nat) (s : State) : Out :=
  .next (match s.req? id with
    | some r => (match r.body with
      | .evict d => (if d then dedupLine s r.pkg r.line else s).delReq id
      | .wback at_ d t pin dedup have_ bad =>
        if remoteHeld s r.pkg then s
        else if r.stage = 5 then
          (match makeRoom s r.pkg r.line with
            | some s1 => s1
            | none => (pinLine (install s r.pkg r.line false) r.ctx ((s.gang? r.wid).map fun g => g.lid) r.pkg r.line pin).delReq id)
        else if !firstBack s r || (r.pkg != 999 && have_ && decide (27 ≤ backLoad s r.pkg r.line)) then s
        else
          let s1 : State :=
            if !have_ then s
            else match at_ with
              | .dom p a => homeTake s p (a / 81) d t bad
              | .host _ _ _ => s.modMem fun m => (upto 81).foldl (fun (m : Memory) (i : Nat) => m.writeLoc (at_.plus i) 1 (sget d i)) m
          let s2 := s1.delReq id
          let own := r.pkg != 999 && r.line != 0
          let s3 := if have_ && own then s2.send 800 r.ctx 0 r.pkg r.line (.evict dedup) none else s2
          if pin != 0 && own then askPin s3 r at_ pin else s3
      | _ => s)
    | none => s)

end Sys2Proof.Machine
end

