-- ==== Sys2Proof/Machine/Memory.lean ====
section
/-! DEFINITION. Machine/Memory.lean: the memory words (R345 to R347, R359, R360, R382, R383, R387, R389 to R397, R410,
R413, R414, R425 to R429). -/

namespace Sys2Proof.Machine

open Sys2Proof Tern

/-- The addresses of the active lanes (R341). -/
def laneAddrs (w : Warp) (al : List Nat) (ad : Addr) : List (Nat × Int) := al.map fun l => (l, w.addrOf l ad)
/-- The accesses of a set of lanes. -/
def accsOf (xs : List Acc) (ls : List Nat) : List Acc := xs.filter fun x => ls.contains x.lane

/-! ### Loads -/

/-- Perform LD for some lanes (R392). -/
def performLd (o : LdA) (s : State) (c : Cur) (w : Warp) (xs : List Acc) : State :=
  let n := o.w.trytes
  let core := w.coreNo
  if o.sc then
    let s1 := (nodups (xs.flatMap fun x => x.lines n)).foldl (fun s p => dropL1 s core p.1 p.2) s
    startLoad s1 c w (.ld o) o.d n false o.ts none false (some c.slot) (xs.map fun x => x.lane) (xs.flatMap fun x => x.reads n)
  else
    let rs := xs.flatMap fun x => (x.reads n).map fun r => { r with got := l1Got s core n x }
    let hits := nodups ((rs.filter fun r => r.got != .waiting).map fun r => r.at_.pkgLine)
    let s0 := (rs.filter fun r => r.got != .waiting).foldl (fun s r => l1Scrub s core r.at_.pkgLine r.at_.offset.toNat n) s
    let s1 := hits.foldl (fun s p => l1Count s core p) s0
    startLoad s1 c w (.ld o) o.d n false o.ts (some o.rc) false none (xs.map fun x => x.lane) rs

/-- LD (R391, R392). -/
def execLd (o : LdA) (s : State) : Out :=
  .next (runWord (.ld o) s fun s c w al =>
    if al.isEmpty then .plain s
    else
      let r := access s w (laneAddrs w al o.ad) o.w.trytes true Need.read
      match r.2 with
      | .error t => .trap r.1 t
      | .ok xs =>
        match scAway s o.sc xs with
        | [] => guarded r.1 c w .load false (unitAcc o.w.trytes xs) fun s ls => if ls.isEmpty then s else performLd o s c w (accsOf xs ls)
        | bad => .trap r.1 ⟨cause.trans, bad⟩)

/-- LDG (R394). -/
def execLdg (o : LdgA) (s : State) : Out :=
  .next (runWord (.ldg o) s fun s c w al =>
    if al.isEmpty then .plain s
    else
      let a := w.gpair o.base + o.e
      let n := dblTrytes o.dbl
      let l0 := c.lanes.headD 0
      let r := access s w [(l0, a)] n true Need.read
      match r.2 with
      | .error t => .trap r.1 { t with lanes := c.lanes.flatMap fun l => t.lanes.map fun p => (l, p.2) }
      | .ok xs => guarded r.1 c w .load false (unitAcc n xs) fun s ls =>
          if ls.isEmpty then s
          else startLoad s c w (.ldg o) (.g o.d) n true false none false none c.lanes (xs.flatMap fun x => (x.reads n).map fun r => { r with lane := 0 }))

/-- LDTAG (R397): the L1 copy's tag, or the home's. -/
def execLdtag (o : LdtagA) (s : State) : Out :=
  .next (runWord (.ldtag o) s fun s c w al =>
    if al.isEmpty then .plain s
    else
      let r := access s w (laneAddrs w al o.ad) 1 false Need.read
      match r.2 with
      | .error t => .trap r.1 t
      | .ok xs => guarded r.1 c w .load false (tagAcc xs) fun s ls =>
          let got (x : Acc) : Got := if x.at_.isHost then .value 0 else match l1Find s w.coreNo x.at_.pkgLine with
            | some y => .value y.tag.num
            | none => .waiting
          if ls.isEmpty then s
          else startLoad s c w (.ldtag o) o.d 3 false false none true none ls ((accsOf xs ls).map fun x => ⟨x.lane, x.virt, x.at_, none, 1, got x⟩))

/-! ### Stores -/

/-- Perform ST or STG for some lanes; for none it does nothing, and does not commit (R244, R426). -/
def performSt (s : State) (c : Cur) (w : Warp) (sc : Bool) (n : Nat) (val : Nat → Int) (xs : List Acc) : State :=
  if xs.isEmpty then s else
  let core := w.coreNo
  let n0 := s.nextId
  let s1 := dirtyPages (if sc then s.commitWarp w else s) w xs
  let us := xs.flatMap (unitsOf n val)
  let s2 :=
    if sc then
      us.foldl (fun s (u : Unit1) =>
        ((unitsLines [u]).foldl (fun s p => dropL1 s core p.1 p.2) s).send core w.ctx w.wid u.at_.pkgLine.1 u.at_.pkgLine.2 (.store [u]) (some (scKey s w c.slot u.lane))) s1
    else sendUnits (us.foldl (fun s u => l1Store s core u) s1) w us .store
  stepAwaits s2 c n0

/-- The effect of ST and STG on given addresses: checks, tags, then the stores. -/
def storeWord (s : State) (c : Cur) (w : Warp) (sc : Bool) (n : Nat) (addrs : List (Nat × Int)) (val : Nat → Int)
    (all : List (Nat × Int × Int) → List (Nat × Int × Int)) : Eff :=
  let r := accessStore s w addrs n val
  match r.2 with
  | .error t => .trap r.1 { t with lanes := all t.lanes }
  | .ok xs =>
    match scAway s sc xs with
    | [] =>
      match tagFaults r.1 w.coreNo n xs with
      | [] => guarded r.1 c w .store false (unitAcc n xs) fun s ls => performSt s c w sc n val (accsOf xs ls)
      | bad => .trap r.1 ⟨cause.tag, all bad⟩
    | bad => .trap r.1 ⟨cause.trans, bad⟩

/-- The value a store's width takes from the data (R425). -/
def storeVal (w : Warp) (wd : Width) (c : Src) (l : Nat) : Int :=
  match wd with
  | .tryte => narrow (w.src l false c) 9
  | .word => w.src l false c
  | .double => w.src l true c

/-- ST (R425, R426). -/
def execSt (o : StA) (s : State) : Out :=
  .next (runWord (.st o) s fun s c w al =>
    if al.isEmpty then .plain s
    else storeWord s c w o.sc o.w.trytes (laneAddrs w al o.ad) (storeVal w o.w o.c) id)

/-- STG (R428). -/
def execStg (o : StgA) (s : State) : Out :=
  .next (runWord (.stg o) s fun s c w al =>
    if al.isEmpty then .plain s
    else storeWord s c w false (dblTrytes o.dbl) [(c.lanes.headD 0, w.gpair o.base + o.e)]
      (fun _ => if o.dbl then w.gpair o.c else w.greg o.c) fun bad => c.lanes.flatMap fun l => bad.map fun p => (l, p.2))

/-- STTAG (R429). -/
def execSttag (o : SttagA) (s : State) : Out :=
  .next (runWord (.sttag o) s fun s c w al =>
    if al.isEmpty then .plain s
    else
      let r := access s w (laneAddrs w al o.ad) 1 false Need.write
      match r.2 with
      | .error t => .trap r.1 t
      | .ok xs => guarded r.1 c w .store false (tagAcc xs) fun s ls =>
          let ys := (accsOf xs ls).filter fun x => !x.at_.isHost
          let n0 := s.nextId
          let s1 := dirtyPages s w ys
          let s2 := (groupsBy (fun (x : Acc) => x.at_.pkgLine) ys).foldl (fun s g =>
            let t := Tag.ofNum (match g.2.getLast? with | some x => w.src x.lane false o.c | none => 0)
            (dropL1 s w.coreNo g.1.1 g.1.2).send w.coreNo w.ctx w.wid g.1.1 g.1.2 (.wtag t.code t.scale) none) s1
          stepAwaits s2 c n0)

/-! ### Scratchpad (R391, R393, R425, R427) -/

/-- LDS (R393). -/
def execLds (o : LdsA) (s : State) : Out :=
  .next (runWord (.lds o) s fun s c w al =>
    match gangOf s w with
    | none => .plain s
    | some g =>
      if al.isEmpty then .plain s
      else
        let n := o.w.trytes
        let us := laneAddrs w al o.ad
        match scratchFault g n true us with
        | some t => .trap s t
        | none =>
          match touching s c w g n us o.rc with
          | .trap s t => .trap s t
          | .hold q => .hold q
          | .sleep s1 p => .stay (s1.modWarp w.wid fun w => w.waitOn c.lanes (.touch p) c.pc)
          | .none => guarded s c w .load true (us.map fun u => (u.1, u.2, u.2, n)) fun s ls =>
              let vs := us.filter fun u => ls.contains u.1
              let wl := nodups ((winUnits g n vs).map fun x => (x.2.2.1, x.2.2.2))
              let s1 := wl.foldl (fun s p => countRead s g.gid p.1 p.2) s
              if ls.isEmpty then s1
              else startLoad (scrub s1 g.gid (vs.map fun u => (u.2, n))) c w (.lds o) o.d n false o.ts none false none ls
                (vs.map fun u => ⟨u.1, u.2, .dom 0 0, none, n, scratchGot g o.ts u.2 n⟩))

/-- Write a unit to the scratchpad for a source: at once, or in a window line not owned as an ownership request (R166,
R179, R427). -/
def devUnit (s : State) (core ctx wid gid : Nat) (a : Int) (n : Nat) (v : Int) : State :=
  match s.gang? gid with
  | none => s
  | some g =>
    let parts : List (Int × Nat × Int) :=
      if a % 81 + n > 81 then [(a, 3, narrow v 27), (a + 3, n - 3, shr v 27)] else [(a, n, v)]
    parts.foldl (fun s p =>
      let write (g : Gang) : Gang := g.write p.1 p.2.1 p.2.2
      match g.winAt (p.1 / 81).toNat with
      | none => s.modGang gid write
      | some (k, j) =>
        match (g.win? k).bind fun x => x.line? j with
        | some x =>
          if x.owned then s.modGang gid fun g => (write g).modWin k fun y => y.modLine j fun x => { x with st := .dirty, count := none }
          else match ownPending s gid k j with
            | some q => s.modReq q fun r => { r with body := match r.body with | .own a b c us => .own a b c (us ++ [p]) | b => b }
            | none => s.send core ctx wid x.loc.pkgLine.1 x.loc.pkgLine.2 (.own gid k j [p]) none
        | none => s.modGang gid write) s

/-- The same for a warp's store. -/
def stsUnit (s : State) (w : Warp) (gid : Nat) (a : Int) (n : Nat) (v : Int) : State := devUnit s w.coreNo w.ctx w.wid gid a n v

/-- The named scratchpad lines. -/
def namedLines (n : Nat) (us : List (Nat × Int)) : List Nat := nodups (us.flatMap fun u => scrLines u.2 n)

/-- The window lines of doubles that span two lines, where a line of the double is not owned: the double is written as one once the core owns
both (R195, R457). -/
def spannedLines (s : State) (g : Gang) (n : Nat) (us : List (Nat × Int)) : List (Nat × Nat) :=
  let unowned (p : Nat × Nat) : Bool := match (s.gang? g.gid).bind fun g => (g.win? p.1).bind fun x => x.line? p.2 with
    | some x => !x.owned
    | none => false
  nodups ((us.filter fun u => (scrLines u.2 n).length == 2).flatMap fun u => ((scrLines u.2 n).filterMap g.winAt).filter unowned)

/-- Ask for lines that a store needs as a whole; the word is issued again once they are there. -/
def askLines (s : State) (c : Cur) (w : Warp) (gid : Nat) (ls : List (Nat × Nat)) : Eff :=
  let s1 := ls.foldl (fun s p => match (s.gang? gid).bind fun g => (g.win? p.1).bind fun x => x.line? p.2 with
    | some x => s.send w.coreNo w.ctx w.wid x.loc.pkgLine.1 x.loc.pkgLine.2 (.own gid p.1 p.2 []) none
    | none => s) s
  .stay (s1.modWarp w.wid fun w => w.waitOn c.lanes (.touch s.now) c.pc)

/-- A window line tagged 7 to 11 becomes absent; the home materialises it, and the word re-issues after the refill (R189). -/
def unpackLines (s : State) (c : Cur) (w : Warp) (gid : Nat) (ls : List (Nat × Nat)) : Eff :=
  let s1 := ls.foldl (fun s p =>
    match (s.gang? gid).bind fun g => (g.win? p.1).bind fun x => x.line? p.2 with
    | none => s
    | some x =>
      let s1 := if x.st = .dirty then writeBackLine s gid p.1 p.2 0 else s
      let s2 := s1.modGang gid fun g => g.modWin p.1 fun y => y.drop p.2
      s2.send w.coreNo w.ctx w.wid x.loc.pkgLine.1 x.loc.pkgLine.2 (.store []) none) s
  let r := touchAll s1 gid w.ctx w.coreNo (w.level == 1) none ls
  match latest r.2 with
  | some p => .stay (r.1.modWarp w.wid fun w => w.waitOn c.lanes (.touch p) c.pc)
  | none => .stay r.1

/-- STS (R427). -/
def execSts (o : StsA) (s : State) : Out :=
  .next (runWord (.sts o) s fun s c w al =>
    match gangOf s w with
    | none => .plain s
    | some g =>
      if al.isEmpty then .plain s
      else
        let n := o.w.trytes
        let us := laneAddrs w al o.ad
        match scratchFault g n true us with
        | some t => .trap s t
        | none =>
          let ro := (winUnits g n us).filter fun x => match g.win? x.2.2.1 with | some y => y.mode == -1 | none => false
          if !ro.isEmpty then .trap s ⟨cause.trans, (firstPer (ro.map fun x => (x.1, x.2.1))).map fun p => (p.1, 7, p.2)⟩
          else match touching s c w g n us none with
          | .trap s t => .trap s t
          | .hold q => .hold q
          | .sleep s1 p => .stay (s1.modWarp w.wid fun w => w.waitOn c.lanes (.touch p) c.pc)
          | .none =>
            let bad := us.filterMap fun u => ((scrLines u.2 n).find? fun x => g.lineAt x == .bad || g.rowsBad u.2 n).map fun (x : Nat) => (u.1, 0, 81 * (x : Int))
            let tags := us.filterMap fun u => ((scrLines u.2 n).find? fun x => g.lineAt x == .reserved).map fun (x : Nat) => (u.1, 0, 81 * (x : Int))
            let packed := (namedLines n us).filter fun x => inR (g.tag x).code 7 11
            let win := packed.filterMap fun x => g.winAt x
            if !bad.isEmpty then .trap s ⟨cause.uncor, bad⟩
            else if !tags.isEmpty then .trap s ⟨cause.tag, tags⟩
            else if !win.isEmpty then unpackLines s c w g.gid win
            else if !(spannedLines s g n us).isEmpty then askLines s c w g.gid (spannedLines s g n us)
            else guarded s c w .store true (us.map fun u => (u.1, u.2, u.2, n)) fun s ls =>
              let n0 := s.nextId
              let vs := us.filter fun u => ls.contains u.1
              let s1 := (namedLines n vs).foldl (fun s x => s.modGang g.gid fun g => g.plainLine x) s
              stepAwaits (vs.foldl (fun s u => stsUnit s w g.gid u.2 n (storeVal w o.w o.c u.1)) (scrub s1 g.gid (vs.map fun u => (u.2, n)))) c n0)

/-! ### Atomics and reductions (R345 to R347, R413, R414) -/

/-- The home of a unit would refuse it as its lines stand: a reserved code or an uncorrectable line (R347). -/
def refusedAtHome (s : State) (x : Acc) (n : Nat) : Bool :=
  (pieces x.at_ x.hi n).any fun p => match s.mem.lineAt p.1 with | .data _ _ => false | _ => true

/-- ATOM (R346, R347): a double whose parts lie in two packages is two ATOMs of words, each on its part of the data and of the expected value
(R457; DESIGN CHOICE, log entry 135). The issue set moves on, and a word that names the destination waits for the replies (R459). A lane that its home
refuses keeps its PC on the word, so it waits for the replies. -/
def execAtom (o : AtomA) (s : State) : Out :=
  .next (runWord (.atom o) s fun s c w al =>
    if al.isEmpty then .plain s
    else
      let n := dblTrytes o.dbl
      let r := access s w (laneAddrs w al o.ad) n true Need.rmw
      match r.2 with
      | .error t => .trap r.1 t
      | .ok xs =>
        match scAway s o.sc xs with
        | [] => guarded r.1 c w .atomic false (unitAcc n xs) fun s ls =>
            if ls.isEmpty then s
            else
              let ys := accsOf xs ls
              let id := s.nextId
              let s1 := dirtyPages (s.commitWarp w) w ys
              let s2 := (nodups (ys.flatMap fun x => x.lines n)).foldl (fun s p => dropL1 s w.coreNo p.1 p.2) s1
              let op : LoadOp := ⟨id, w.wid, c.pc, o.d, n, o.dbl, false, false, none, .atom o, ys.flatMap fun x => x.reads n, c.hstep.isSome, s.now,
                w.handler, w.latchMarks ls, ls.map fun l => (l, (w.lane l).depth, (w.lane l).link)⟩
              let s3 : State := { s2 with ops := s2.ops ++ [op], nextId := id + 1 }
              let us := ys.flatMap (unitsOf n fun l => w.src l o.dbl o.c)
              let olds := ys.flatMap (unitsOf n fun l => match o.d with | .v m => w.src l o.dbl (.v m) | _ => 0)
              let at_ (u v : Unit1) : Bool := u.at_.pkgLine == v.at_.pkgLine
              let old (u : Unit1) : List (Nat × Int) := (olds.filter (at_ u)).map fun v => (v.lane, v.val)
              let s4 :=
                if o.sc then us.foldl (fun s (u : Unit1) => s.send w.coreNo w.ctx w.wid u.at_.pkgLine.1 u.at_.pkgLine.2
                  (.atom id o.op [u] ((old u).filter fun p => p.1 == u.lane)) (some (scKey s w c.slot u.lane))) s3
                else sendUnits s3 w us fun vs => .atom id o.op vs ((vs.head?.map old).getD [])
              let stay := (ys.filter fun x => refusedAtHome s x n).map fun x => x.lane
              stepAwaits (if stay.isEmpty then s4 else s4.modWarp w.wid fun w => w.waitOn stay (.load id) c.pc) c id
        | bad => .trap r.1 ⟨cause.trans, bad⟩)

/-- RED (R414): a double whose parts lie in two packages is two contributions of words (R457; DESIGN CHOICE, log entry 135). -/
def execRed (o : RedA) (s : State) : Out :=
  .next (runWord (.red o) s fun s c w al =>
    let n := o.w.trytes
    let rw := match o.det with | some r => w.greg r | none => 1
    if o.det.isSome && !inR (field rw 11 0) 1 265720 then illegalTrap s c.lanes 0
    else
      let r := access s w (laneAddrs w al o.ad) n true Need.rmw
      match r.2 with
      | .error t => .trap r.1 t
      | .ok xs => guarded r.1 c w .atomic false (unitAcc n xs) fun s ls =>
          let ys := accsOf xs ls
          let n0 := s.nextId
          let s1 := if o.det.isSome then s.modWarp w.wid fun w => { w with redSeq := narrow (w.redSeq + 1) 27 } else s
          let s2 := if ls.isEmpty then s1 else dirtyPages (s1.commitWarp w) w ys
          let s3 := (nodups (ys.flatMap fun x => x.lines n)).foldl (fun s p => dropL1 s w.coreNo p.1 p.2) s2
          let us := ys.flatMap (unitsOf n (storeVal w o.w o.c))
          let body (us : List Unit1) : ReqBody := match o.det with
            | none => .red o.op o.flt us
            | some _ => .det o.op o.flt (field rw 26 12) (field rw 11 0) [s.pkg.number, w.coreNo, w.num, w.redSeq] us
          stepAwaits (sendUnits s3 w us body) c n0)

/-! ### Hints and cache words (R359, R360, R387, R395, R396, R410) -/

/-- The set of an LDMC and its descriptor pass (R395, R396): T.INFO of the first failing check, or 0. -/
def ldmcCheck (g : Gang) (core : Nat) (a0 a1 a2 b : Int) : Int :=
  let ok01 (v : Int) (n : Nat) : Bool := (upto n).all fun i => inR (trit v i) 0 1
  let die := field a2 26 18
  let y := core % 64
  let mine : Int := if y < 27 then trit a0 y else if y < 54 then trit a1 (y - 27) else trit a2 (y - 54)
  let k := field b 26 18
  let first := field b 17 9
  let n := field b 8 0
  if !ok01 a0 27 || !ok01 a1 27 || !ok01 a2 10 || field a2 17 10 != 0 || !inR die 0 11 || !inR first 0 6560 || !inR n 1 6561 then 1
  else if die != (core / 64 : Nat) || mine != 1 then 2
  else if k < 0 then 3
  else match g.win? k.toNat with
    | none => 3
    | some w => if first + n > w.span then 4 else 0

/-- LDMC (R396). -/
def execLdmc (o : LdmcA) (s : State) : Out :=
  .next (runWord (.ldmc o) s fun s c w al =>
    match gangOf s w with
    | none => .plain s
    | some g =>
      if al.isEmpty then .plain s
      else
        let b := w.greg o.b
        let a : List Int := [w.greg o.a, w.greg (o.a + 1), w.greg (o.a + 2)]
        let e := ldmcCheck g w.coreNo (wordAt a 0) (wordAt a 1) (wordAt a 2) b
        if e ≠ 0 then illegalTrap s c.lanes e
        else
          let k := (field b 26 18).toNat
          let js := (upto (field b 8 0).toNat).map fun i => (field b 17 9).toNat + i
          match g.win? k with
          | none => .plain s
          | some x =>
            let r := checkAddrs s w.coreNo w.ctx (w.level == 1) Need.read true (js.map x.boxAddr)
            match firstBad r.2 with
            | some (a, .fail d) => .trap r.1 ⟨cause.trans, listed c.lanes d a⟩
            | some (a, _) => .trap r.1 ⟨cause.uncor, listed c.lanes 0 (81 * (a / 81))⟩
            | none =>
              let locs := List.zip js (r.2.map fun q => match q.2 with | .ok l => l | _ => .dom 0 0)
              let todo := locs.filter fun q => x.stateOf q.1 == .absent
              let l : TbLoc := .scr g.gid x.bar
              if todo.isEmpty then .plain r.1
              else
                let p := s.now + Config.promiseDelay r.1.fresh
                let s1 := tbPromise (tbPost { r.1 with fresh := r.1.fresh + 1 } l (81 * todo.length)) l p
                let s2 := s1.modGang g.gid fun g => g.modWin k fun y =>
                  todo.foldl (fun y q => y.put ⟨q.1, .filling, q.2, false, none, p, leafOf r.1 w.coreNo w.ctx (x.boxAddr q.1)⟩) y
                .plain (todo.foldl (fun s q => s.send w.coreNo w.ctx w.wid q.2.pkgLine.1 q.2.pkgLine.2 (.mcast g.gid k q.1 a) none) s2))

/-- PREF for one line: touch every window line of the gang whose box holds it, else prefetch it into the L1 (R410). -/
def prefLine (s : State) (w : Warp) (n : Nat) (x : Acc) : State :=
  let va := 81 * (x.virt / 81)
  let hits : List (Nat × Nat) := match gangOf s w with
    | none => []
    | some g => (upto g.wins.length).filterMap fun k => match g.win? k with
      | some y => if y.releasing then none else ((upto y.span).find? fun j => y.boxAddr j == va).map fun j => (k, j)
      | none => none
  match w.gid, hits with
  | some gid, _ :: _ => (touchAll s gid w.ctx w.coreNo (w.level == 1) (some n) hits).1
  | _, _ =>
    if (s.core w.coreNo).carve = 0 || (l1Find s w.coreNo x.at_.pkgLine).isSome || x.at_.isHost then s
    else s.send w.coreNo w.ctx w.wid x.at_.pkgLine.1 x.at_.pkgLine.2 (.pref n) none

/-- PREF (R410): a line of a lane that fails a check gets nothing. -/
def execPref (o : PrefA) (s : State) : Out :=
  .next (runWord (.pref o) s fun s _ w al =>
    let r := checkUnits s w.coreNo w.ctx (w.level == 1) Need.read true 1 (laneAddrs w al o.ad)
    let xs := (groupsBy (fun (x : Acc) => x.virt / 81) (okAccs r.2)).filterMap fun g => g.2.head?
    .plain (xs.foldl (fun s x => prefLine s w o.n x) r.1))

/-- The window lines of a gang that hold a line of memory. -/
def boxLines (g : Gang) (l : Loc) : List (Nat × WLine) :=
  (upto g.wins.length).flatMap fun k => match g.win? k with
    | some y => (y.lines.filter fun x => x.loc.lineStart == l.lineStart).map fun x => (k, x)
    | none => []

/-- CFLUSH or CINV on one window line that is not filling (R360): the write-back to await, if any. -/
def flushLine (s : State) (gid : Nat) (inv : Bool) (p : Nat × Nat) : State × List Nat :=
  match (s.gang? gid).bind fun g => (g.win? p.1).bind fun x => x.line? p.2 with
  | none => (s, [])
  | some x =>
    let r : State × List Nat := if x.st = .dirty then (writeBackLine s gid p.1 p.2 0, [s.nextId]) else (s, [])
    (if inv && (x.st == .dirty || x.st == .present) then r.1.modGang gid fun g => g.modWin p.1 fun y => y.drop p.2 else r.1, r.2)

def flushLines (s : State) (gid : Nat) (inv : Bool) : List (Nat × Nat) → State × List Nat
  | [] => (s, [])
  | p :: r =>
    let a := flushLine s gid inv p
    let b := flushLines a.1 gid inv r
    (b.1, a.2 ++ b.2)

/-- Make the issue set wait on a pending operation, which the step settles. -/
def pendOn (s : State) (c : Cur) (ls : List Nat) (op : PendOp) : State :=
  let n := s.nextId
  ({ s with nextId := n + 1 } : State).modWarp c.wid fun w => { w.waitOn ls (.pend n) c.pc with pends := w.pends ++ [⟨n, op, c.pc⟩] }

/-- CFLUSH and CINV (R360): a filling line is awaited by the pending operation. -/
def flushWord (i : Instr) (o : FlushA) (inv : Bool) (s : State) : State :=
  runWord i s fun s c w al =>
    if al.isEmpty then .plain s
    else
      let r := access s w (laneAddrs w al o.ad) 1 false Need.none
      match r.2 with
      | .error t => .trap r.1 t
      | .ok xs =>
        let ys := (groupsBy (fun (x : Acc) => x.at_.lineStart) xs).filterMap fun g => g.2.head?
        let s1 := ys.foldl (fun s x => dropL1 s w.coreNo x.at_.pkgLine.1 x.at_.pkgLine.2) r.1
        match gangOf s w with
        | none => .plain s1
        | some g =>
          let ls := nodups (ys.flatMap fun x => boxLines g x.at_)
          let fills := (ls.filter fun p => p.2.st == .filling || p.2.st == .recv).map fun p => (p.1, p.2.j)
          let now := (ls.filter fun p => p.2.st == .present || p.2.st == .dirty).map fun p => (p.1, p.2.j)
          let q := flushLines s1 g.gid inv now
          if fills.isEmpty && q.2.isEmpty then .plain q.1 else .plain (pendOn q.1 c al (.flush inv fills q.2))

/-- CFLUSH (R360). -/
def execCflush (o : FlushA) (s : State) : Out := .next (flushWord (.cflush o) o false s)
/-- CINV (R360). -/
def execCinv (o : FlushA) (s : State) : Out := .next (flushWord (.cinv o) o true s)

/-- ICINV (R387). -/
def execIcinv (o : Near) (s : State) : Out :=
  .next (runWord (.icinv o) s fun s _ w al =>
    let ls := if o.hd.form == .vector then al else al.take 1
    let bs := (ls.map fun l => w.gpair o.base + w.src l false o.off + o.e).filter canonicalAddr
    .plain (bs.foldl (fun s a => s.modCore w.coreNo fun k => { k with code := k.code.filter fun b => !(b.ctx == w.ctx && b.block == a / 162) }) s))

/-- ISYNC (R387). -/
def execIsync (h : Hd) (s : State) : Out :=
  .next (runWord (.isync h) s fun s c _ al => .plain (if al.isEmpty then s else s.modWarp c.wid fun w => { w with code := [] }))

/-! ### FENCE (R198 to R200, R383) -/

/-- FENCE (R382, R383): the warp issues nothing until the step settles the fence. -/
def execFence (o : FenceA) (s : State) : Out :=
  .next (runWord (.fence o) s fun s c w al =>
    if al.isEmpty then .plain s
    else
      let scope := actScope s w o.scope
      let s1 := if o.kind ≥ 0 && decide (-1 ≤ scope) then s.commitWarp w else s
      .plain (s1.modWarp c.wid fun w' => { w' with fence := some ⟨scope, o.kind, fenceAwaits s w scope o.kind, o.scope == 3 && o.kind ≥ 0⟩ }))

end Sys2Proof.Machine
end

