-- ==== Sys2Proof/Machine/Engines.lean ====
section
/-! DEFINITION. Machine/Engines.lean: the words that start engines: WIN, WINREL, TASK, TQRY, SEND, RECV, XFST, XTAB (R160 to
R168, R191 to R193, R232 to R239, R248 to R253, R418 to R420, R437 to R439), and how a word in progress moves on. -/

namespace Sys2Proof.Machine

open Sys2Proof Tern

/-- The lanes of a group-wide word with one T.INFO and T.ADDR. -/
def wholeTrap (s : State) (c : Cur) (cs info addr : Int) : Eff := .trap s ⟨cs, listed c.lanes info addr⟩

/-- The record line that a word names: ALIGN, the allotment, an uncorrectable line; else its 27 words, its rows corrected (R155, R158). -/
def recordAt (s : State) (c : Cur) (g : Gang) (a : Int) : Except Eff (State × List Int) :=
  if a % 81 ≠ 0 then .error (wholeTrap s c cause.align 0 a)
  else if !g.holds a 81 then .error (wholeTrap s c cause.trans 12 a)
  else if g.unread a 81 then .error (wholeTrap s c cause.uncor 0 a)
  else .ok (scrub s g.gid [(a, 81)], g.record a)

/-- A group-wide word of a gang, when its guard enables it. -/
def gangWord (i : Instr) (s : State) (f : State → Cur → Warp → Gang → Eff) : State :=
  runWord i s fun s c w al =>
    match gangOf s w with
    | none => .plain s
    | some g => if al.isEmpty then .plain s else f s c w g

/-! ### Windows (R160, R161, R167, R168, R437 to R439) -/

/-- The window that a record describes; a pin key of 0 takes the launch's (R438). -/
def recordWindow (s : State) (g : Gang) (r : List Int) : Window :=
  let key := if wordAt r 7 = 0 then (match s.launch? g.lid with | some x => wordAt x.words 21 | none => 0) else wordAt r 7
  ⟨wordAt r 0, dblAt r 1, wordAt r 3, (wordAt r 4).toNat, (wordAt r 5).toNat, wordAt r 6, key, wordAt r 8, [], 0, false⟩

/-- A scratchpad range meets a window's. -/
def Window.meets (w : Window) (a n : Int) : Bool := decide (a < w.base + 81 * w.span ∧ w.base < a + n)

/-- The other bound windows of a gang. -/
def otherWins (g : Gang) (k : Nat) : List Window :=
  (upto g.wins.length).filterMap fun i => if i = k then none else g.win? i

/-- The charges of a window record (R160, R458). -/
def winCharges (g : Gang) (k : Nat) (r : List Int) : List Charge :=
  let ok0 := lineOk g (wordAt r 0)
  let ok4 := inR (wordAt r 4) 1 6561
  let ok5 := inR (wordAt r 5) 1 6561
  let ok3 := wordAt r 3 != 0 && wordAt r 3 % 81 == 0
  let ok6 := wordAt r 6 % 9 == 0 && g.holds (wordAt r 6) 9
  let n := 81 * (wordAt r 4 * wordAt r 5)
  let others := otherWins g k
  [(0, !ok0), (1, !(canonicalAddr (dblAt r 1) && dblAt r 1 % 81 == 0)), (3, !ok3), (4, !ok4), (5, !ok5),
   (5, ok3 && ok5 && decide ((wordAt r 3).natAbs < 81 * wordAt r 5)),
   (5, ok4 && ok5 && decide (wordAt r 4 * wordAt r 5 > 6561)),
   (5, ok0 && ok4 && ok5 && (!g.holds (wordAt r 0) n || others.any fun w => w.meets (wordAt r 0) n)),
   (6, !ok6), (6, ok6 && others.any fun w => w.meets (wordAt r 6) 9),
   (6, ok0 && ok4 && ok5 && ok6 && decide (wordAt r 0 < wordAt r 6 + 9 ∧ wordAt r 6 < wordAt r 0 + n)),
   (8, !(wordAt r 8 == 0 || wordAt r 8 == -1))] ++ zeros r 9 26

/-- Cancel a binding: sectors on their way to it are discarded; a window's lines that have not landed become absent, their
ownership returns, and their trytes leave the barrier (R193). -/
def cancelBinding (s : State) (core : Nat) (b : Binding) : State :=
  let s1 : State := { s with reqs := s.reqs.filter fun r => match r.body with | .stream c p _ _ _ => !(c == core && p == b.port) | _ => true }
  let s2 := s1.modCore core fun c => { c with binds := c.binds.filter fun x => x.port != b.port }
  match b.feeds with
  | .task _ => s2
  | .window k first =>
    let js := (upto (b.n - b.landed / 3)).map fun i => first + b.landed / 3 + i
    match (s2.gang? b.gid).bind fun g => g.win? k with
    | none => s2
    | some w =>
      let lost := js.filterMap fun j => (w.line? j).map fun x => x.loc.pkgLine
      let s3 := s2.modGang b.gid fun g => g.modWin k fun w => js.foldl (fun w j => w.drop j) w
      let own := s3.home.owned.filter fun o => !(o.owner == .recv b.gid k && lost.contains (o.pkg, o.line))
      tbLand { s3 with home := { s3.home with owned := own } } (.scr b.gid w.bar) (81 * b.n - 27 * b.landed)

/-- The bindings of a gang with their cores. -/
def gangBinds (s : State) (gid : Nat) : List (Nat × Binding) :=
  s.cores.flatMap fun c => (c.binds.filter fun b => b.gid == gid).map fun b => (c.n, b)

/-- Undo the marks of a RECV that waits for its port (R193). -/
def unmarkRecv (s : State) (gid : Nat) (p : PendOp) : State :=
  match p with
  | .recv port k first n _ true => cancelBinding s 900 ⟨port, gid, 0, .window k first, n, 0, 0, none⟩
  | _ => s

/-- Cancel what feeds window k of a gang: its bindings, and RECVs that wait for a port. -/
def cancelRecv (s : State) (gid k : Nat) : State :=
  let bs := (gangBinds s gid).filter fun p => match p.2.feeds with | .window j _ => j == k | .task _ => false
  let s1 := bs.foldl (fun s p => cancelBinding s p.1 p.2) s
  let isIt (p : Pend) : Bool := match p.op with | .recv _ j _ _ _ true => j == k | _ => false
  (s1.warps.filter fun w => w.gid == some gid).foldl (fun s w =>
    (w.pends.filter isIt).foldl (fun s p => unmarkRecv s gid p.op) s) s1

/-- A task reads or writes a scratchpad range: its A, B, C, output or record lines (R439). -/
def Task.touches (t : Task) (w : Window) : Bool :=
  let k := taskKind t.words
  let sets := if k = 1 then [wloadB t.words] else if k = 2 then [mmA t.words, mmC t.words] else if k = 3 then [mmC t.words]
    else [epiC t.words, epiOut t.words]
  w.meets t.addr 81 || sets.any fun x => x.lines.any fun a => w.meets a 81

/-- Begin the release of window k: accesses to its range become ordinary (R167). -/
def beginRelease (s : State) (gid k : Nat) : State :=
  (cancelRecv s gid k).modGang gid fun g => g.modWin k fun w => { w with releasing := true }

/-- What a release still waits for: running tasks on the range, fills in flight, stores waiting for ownership. -/
def releaseWaits (s : State) (g : Gang) (k : Nat) (w : Window) : Bool :=
  (g.tasks.any fun t => t.st != .queued && t.touches w) || (w.lines.any fun x => x.st == .filling) ||
  (w.lines.any fun x => (ownPending s g.gid k x.j).isSome)

/-- Write back and pin the lines of window k and unbind it (R167, R168): the write-backs to await, which end the release. -/
def finishRelease (s : State) (gid k : Nat) (w : Window) : State × List Nat :=
  let js := (w.lines.filter fun x => x.st == .dirty).map (fun x => x.j) ++
    (if w.key = 0 then [] else (w.lines.filter fun x => x.st == .present).map fun x => x.j)
  let s1 := js.foldl (fun s j => writeBackLine s gid k j w.key) s
  let ids := (s1.reqs.filter fun r => decide (s.nextId ≤ r.id)).map fun r => r.id
  (s1.modGang gid fun g => { g with
    wins := modIdx (fun i x => if i = k then none else x) 0 g.wins,
    releases := (g.releases.filter fun x => !settled s1 x.2) ++ [(w, ids)] }, ids)

/-- Bind window k (R438); the binding takes the next name. -/
def bindWin (s : State) (gid k : Nat) (r : List Int) : State :=
  ({ s with nextId := s.nextId + 1 } : State).modGang gid fun g =>
    { g with wins := modIdx (fun i x => if i = k then some { recordWindow s g r with bid := s.nextId } else x) 0 g.wins }

/-- WIN (R438). -/
def execWin (o : WinA) (s : State) : Out :=
  .next (gangWord (.win o) s fun s c w g =>
    if g.wins.length ≤ o.k then illegalTrap s c.lanes (-1)
    else match recordAt s c g (w.greg o.a) with
      | .error e => e
      | .ok (s, r) =>
        match lowestCharge (winCharges g o.k r) with
        | some i => illegalTrap s c.lanes i
        | none =>
          match g.win? o.k with
          | none => .plain (bindWin s g.gid o.k r)
          | some x => .plain (pendOn (beginRelease s g.gid o.k) c c.lanes (.winrel o.k x.bid (some r) [])))

/-- WINREL (R439). -/
def execWinrel (o : WinrelA) (s : State) : Out :=
  .next (gangWord (.winrel o) s fun s c _ g =>
    if g.wins.length ≤ o.k then illegalTrap s c.lanes (-1)
    else match g.win? o.k with
      | none => .plain s
      | some x => .plain (pendOn (beginRelease s g.gid o.k) c c.lanes (.winrel o.k x.bid none [])))

/-! ### Tasks (R232 to R239) -/

/-- The reserve of a gang in its scheduler (R237). -/
def taskReserve (g : Gang) : Nat := if g.slots.isEmpty then 1 else 9
/-- An entry of a gang's own reserve is free (R237). -/
def reserveFree (g : Gang) : Bool := decide ((g.tasks.filter fun t => !t.spare).length < taskReserve g)
/-- An entry is free for a gang: of its reserve, or one that no reserve holds (R237). -/
def entryFree (s : State) (g : Gang) : Bool :=
  let gs := s.gangs.filter fun x => !x.saved && x.cores.head? == g.cores.head?
  let reserved := gs.foldl (fun n x => n + taskReserve x) 0
  let taken := gs.foldl (fun n x => n + (x.tasks.filter fun t => t.spare).length) 0
  reserveFree g || decide (taken + reserved < 405)

/-- A task takes ownership, at their homes, of the lines that it writes through windows; those it cannot name yet it does not own (R179, R204). -/
def ownTask (s : State) (gid : Nat) (t : Task) : State :=
  match s.gang? gid with
  | none => s
  | some g =>
    (winLines g (taskWrites t.words ++ [t.addr])).foldl (fun s x =>
      match g.win? x.2.1 with
      | none => s
      | some w =>
        let r : State × Option Loc := match w.line? x.2.2 with
          | some y => (s, some y.loc)
          | none =>
            let q := checkAddr s (g.cores.getD t.side (g.cores.headD 0)) g.ctx t.sup w.need true (w.boxAddr x.2.2)
            (q.1, match q.2 with | .ok l => some l | _ => none)
        match r.2 with
        | some (.dom p a) => { r.1 with home := { r.1.home with owned := r.1.home.owned ++ [⟨p, a / 81, .task gid t.ticket⟩] } }
        | _ => r.1) s
/-- The ownership of tasks that satisfy a test ends. -/
def disownTasks (s : State) (p : Nat → Nat → Bool) : State :=
  { s with home := { s.home with owned := s.home.owned.filter fun o => match o.owner with | .task g t => !p g t | _ => true } }

/-- Accept a task: its entry, its ticket in Gd, its destination lines (R204, R237, R239). -/
def acceptTask (s : State) (gid wid : Nat) (r : List Int) (addr : Int) (gd : Nat) (hint : Int) (side : Nat) (sup : Bool) : State :=
  match s.gang? gid with
  | none => s
  | some g =>
    let t0 : Task := ⟨g.nextTicket, wid, addr, r, hint, side, sup, [false, false, false], .queued, 0, 0, 0, [], 0,
      coreWrites s (g.cores.getD side (g.cores.headD 0)), !reserveFree g, none⟩
    let bs : List Int := 0 :: ([2, 3, 4].filterMap fun i => (depOf (wordAt r i)).map fun p => p.2)
    let t := bs.foldl (fun (t : Task) b => t.test b (tbGet s (.scr gid b)).phase) t0
    ownTask ((s.modGang gid fun g => { g with tasks := g.tasks ++ [t], nextTicket := g.nextTicket + 1 }).modWarp wid fun w => w.setG gd g.nextTicket) gid t

/-- A core's place in its gang. -/
def Gang.sideOf (g : Gang) (core : Nat) : Nat := if g.cores.head? = some core then 0 else 1
/-- A TASK of the gang waits for an entry. -/
def taskWaits (s : State) (gid : Nat) : Bool :=
  s.warps.any fun w => w.gid == some gid && w.pends.any fun p => match p.op with | .task _ _ _ _ => true | _ => false

/-- The preferred side of a placement hint: 0 any, else the side + 1 (R122). -/
def hintSide (hint : Int) (side : Nat) : Int := if hint = 0 then 0 else if hint = 1 then side + 1 else 2 - side

/-- TASK (R237, R238). -/
def execTask (o : TaskA) (s : State) : Out :=
  .next (gangWord (.task o) s fun s c w g =>
    match recordAt s c g (w.greg o.a + o.imm) with
    | .error e => e
    | .ok (s, r) =>
      let addr := w.greg o.a + o.imm
      match taskCheck g w.coreNo addr r with
      | some i => illegalTrap s c.lanes i
      | none =>
        let side := g.sideOf w.coreNo
        if entryFree s g && !taskWaits s g.gid then .plain (acceptTask s g.gid w.wid r addr o.d (hintSide o.hint side) side (w.level == 1))
        else .plain (pendOn s c c.lanes (.task r addr o.d (hintSide o.hint side))))

/-- The state that TQRY reports (R237). -/
def ticketState (g : Gang) (t : Int) : Int :=
  if t < 0 ∨ (g.nextTicket : Int) ≤ t then -1
  else match g.tasks.find? fun x => (x.ticket : Int) == t with
    | some x => if x.st = .queued then 0 else 1
    | none => 2

/-- TQRY (R237): an ended task makes it an acquire of gang scope, as TBTEST is. -/
def execTqry (o : TqryA) (s : State) : Out :=
  .next (gangWord (.tqry o) s fun s c w g =>
    let st := ticketState g (w.greg o.a)
    .plain ((if st = 2 then acquireGang s w else s).modWarp c.wid fun x => x.setG o.d (pow3 24 * st)))

/-! ### Stream ports (R191 to R193, R418 to R420) -/

/-- Send a line of a gang's scratchpad to the current binding of a facing port: three sectors (R192). -/
def sendLine (s : State) (src ctx wid : Nat) (core port : Nat) (d : Store) (t : Tag) : State :=
  let s1 := (upto 3).foldl (fun s n => s.send src ctx wid 0 0 (.stream core port d t n) none) s
  s1.modCore core fun c => { c with binds := c.binds.map fun b => if b.port = port then { b with sent := b.sent + 1 } else b }

/-- The binding of a port that can take a line of a context, over a link that is not fenced (R22). -/
def takes (s : State) (core port ctx : Nat) : Bool :=
  portLive s core port && (s.core core).binds.any fun b => b.port == port && b.ctx == ctx && decide (b.sent < b.n)

/-- SEND (R419). -/
def execSend (o : SendA) (s : State) : Out :=
  .next (gangWord (.send o) s fun s c w g =>
    let a := w.greg o.a
    let n := w.greg o.b
    if !inR n 1 6561 then illegalTrap s c.lanes 1
    else if a % 81 ≠ 0 then wholeTrap s c cause.align 0 a
    else match ((upto n.toNat).map fun (i : Nat) => a + 81 * (i : Int)).find? fun x => !g.holds x 81 with
      | some x => wholeTrap s c cause.trans 12 x
      | none =>
        if (neighbour w.coreNo o.port).isNone then illegalTrap s c.lanes 4
        else
          let ls := (upto n.toNat).map fun (i : Nat) => a + 81 * (i : Int)
          let all (t : TrapReq) : TrapReq := match t.lanes with | p :: _ => ⟨t.cause, listed c.lanes p.2.1 p.2.2⟩ | [] => t
          match touching s c w g 81 (ls.map fun x => (c.lanes.headD 0, x)) none with
          | .trap s1 t => .trap s1 (all t)
          | .hold q => .hold q
          | .sleep s1 p => .stay (s1.modWarp w.wid fun w => w.waitOn c.lanes (.touch p) c.pc)
          | .none =>
            match ls.find? fun x => g.unread x 81 with
            | some x => wholeTrap s c cause.uncor 0 x
            | none => .plain (pendOn (s.commitWarp w) c c.lanes (.send o.port a n.toNat 0)))

/-- RECV (R420). -/
def execRecv (o : RecvA) (s : State) : Out :=
  .next (gangWord (.recv o) s fun s c w g =>
    let d := w.greg o.a
    let k := field d 26 18
    let first := field d 17 9
    let n := field d 8 0
    if !inR n 1 6561 || !inR first 0 6560 then illegalTrap s c.lanes 1
    else match (if k < 0 then none else g.win? k.toNat) with
      | none => illegalTrap s c.lanes 2
      | some x =>
        if x.releasing then illegalTrap s c.lanes 2
        else if first + n > x.span then illegalTrap s c.lanes 3
        else if (neighbour w.coreNo o.port).isNone then illegalTrap s c.lanes 4
        else
          let js := (upto n.toNat).map fun i => first.toNat + i
          let r := checkAddrs s w.coreNo w.ctx (w.level == 1) Need.both true (js.map x.boxAddr)
          match firstBad r.2 with
          | some (a, .fail e) => wholeTrap r.1 c cause.trans e a
          | some (a, _) => wholeTrap r.1 c cause.uncor 0 (81 * (a / 81))
          | none =>
            let locs := r.2.map fun p => match p.2 with | .ok l => l | _ => Loc.dom 0 0
            .plain (pendOn r.1 c c.lanes (.recv o.port k.toNat first.toNat n.toNat locs false)))

/-! ### Transducer requests (R252, R253) -/

/-- The context holds table slot t (R258). -/
def slotGranted (s : State) (ctx : Nat) (t : Int) : Bool :=
  let d := s.descOf ctx
  decide (0 ≤ t) && (if t < 27 then trit (wordAt d 5) t.toNat == 1 else trit (wordAt d 6) (t.toNat - 27) == 1)

/-- The charges of a request record (R252, R253, R458). -/
def xfstCharges (g : Gang) (r : List Int) : List Charge :=
  let ok0 := inR (wordAt r 0) 0 63
  let ok1 := canonicalAddr (dblAt r 1)
  let ok3 := inR (wordAt r 3) 1 59049
  let ok4 := canonicalAddr (dblAt r 4)
  let ok6 := inR (wordAt r 6) 1 177147
  let ok7 := inR (wordAt r 7) 0 35
  [(0, !ok0), (1, !ok1), (3, !ok3), (4, !ok4), (6, !ok6),
   (6, ok1 && ok3 && ok4 && ok6 && decide (dblAt r 1 < dblAt r 4 + wordAt r 6 ∧ dblAt r 4 < dblAt r 1 + wordAt r 3)),
   (7, !ok7), (7, ok0 && ok7 && decide (wordAt r 0 / 16 ≠ wordAt r 7 / 9)),
   (8, wordAt r 8 != -1 && !(wordAt r 8 % 9 == 0 && g.holds (wordAt r 8) 9 && !g.inWindow (wordAt r 8))),
   (9, !inR (wordAt r 9) (-1) 728)] ++ zeros r 10 26

/-- The first address of each page of a range. -/
def pageStarts (a n : Int) : List Int :=
  (upto ((pageOf (a + n - 1) - pageOf a).toNat + 1)).map fun (i : Nat) => if i = 0 then a else 19683 * (pageOf a + (i : Int))

/-- The place of tryte i of a range, from the places of its pages' first addresses. -/
def spanLoc (locs : List Loc) (a : Int) (i : Nat) : Loc :=
  let x := a + i
  let k := (pageOf x - pageOf a).toNat
  (locs.getD k (.dom 0 0)).plus (x - (if k = 0 then a else 19683 * pageOf x))

/-- The lines of domain memory that a range covers. -/
def spanLines (locs : List Loc) (a : Int) (n : Nat) : List (Int × Int) :=
  let starts := a :: ((upto n).filterMap fun (i : Nat) => if i ≠ 0 ∧ (a + (i : Int)) % 81 = 0 then some (a + (i : Int)) else none)
  (nodups (starts.map fun x => (spanLoc locs a (x - a).toNat).pkgLine)).filter fun p => p.1 != 999

/-- A request's lane queue. -/
def laneQueue (s : State) (n : Nat) : List XReq := ((s.xd.lanes.find? fun l => l.n == n).map fun l => l.queue).getD []
/-- Update a lane's queue. -/
def modQueue (s : State) (n : Nat) (f : List XReq → List XReq) : State :=
  let ls := if s.xd.lanes.any fun l => l.n == n then modFirst (fun (l : XLane) => l.n == n) (fun l => { l with queue := f l.queue }) s.xd.lanes
    else s.xd.lanes ++ [⟨n, f []⟩]
  { s with xd := { s.xd with lanes := ls } }

/-- A table slot; empty when not listed. -/
def tableSlot (s : State) (t : Nat) : TableSlot :=
  (s.xd.slots.find? fun x => x.t == t).getD ⟨t, .empty, 0, 0, 0, 0, [], []⟩
/-- Set a table slot. -/
def setSlot (s : State) (x : TableSlot) : State :=
  { s with xd := { s.xd with slots := (s.xd.slots.filter fun y => y.t != x.t) ++ (if x.st = .empty then [] else [x]) } }

/-- Write the status, the produced count and the fault address of a request record (R252, R255). -/
def xfstStatus (s : State) (core ctx wid gid : Nat) (addr status produced fault : Int) : State :=
  let put (s : State) (i v : Int) : State := devUnit s core ctx wid gid (addr + 3 * i) 3 v
  put (put (put (put s 10 status) 11 produced) 12 (lowWord fault)) 13 (highWord fault)

/-- A refusal's detail and address: a fenced lane, a table, a start state, or a page (R253). A poisoned page, check 11, has the detail 11: DESIGN
CHOICE, R146 gives that check none (log entry 136). -/
def xfstRefusal (s : State) (core ctx : Nat) (sup : Bool) (r : List Int) : State × Except (Int × Int) (List Loc × List Loc) :=
  let t := tableSlot s (wordAt r 7).toNat
  if s.pkg.deadLanes.contains (wordAt r 0).toNat then (s, .error (30, 0))
  else if t.st ≠ .loaded then (s, .error (31, 0))
  else if (t.states : Int) ≤ wordAt r 9 then (s, .error (32, 0))
  else
    let a := checkAddrs s core ctx sup Need.read true (pageStarts (dblAt r 1) (wordAt r 3))
    let detail (p : Int × Chk) : Int × Int := match p.2 with | .fail d => (d, p.1) | _ => (11, p.1)
    let locs (l : List (Int × Chk)) : List Loc := l.map fun p => match p.2 with | .ok x => x | _ => .dom 0 0
    match firstBad a.2 with
    | some p => (a.1, .error (detail p))
    | none =>
      let b := checkAddrs a.1 core ctx sup Need.write true (pageStarts (dblAt r 4) (wordAt r 6))
      match firstBad b.2 with
      | some p => (b.1, .error (detail p))
      | none => (b.1, .ok (locs a.2, locs b.2))

/-- Take a request into its lane's queue once the queue has room; false while it waits. It takes its place among the owners of the destination
lines, whose other copies are recalled; the lane waits for owners before it (R204, R253, R254). -/
def xfstTry (s : State) (wid : Nat) (r : List Int) (addr : Int) (gd : Nat) : State × Bool :=
  match s.warp? wid with
  | none => (s, true)
  | some w =>
    match gangOf s w with
    | none => (s, true)
    | some g =>
      let lane := (wordAt r 0).toNat
      if 27 ≤ (laneQueue s lane).length then (s, false)
      else
        let q := xfstRefusal s w.coreNo w.ctx (w.level == 1) r
        match q.2 with
        | .error (d, a) =>
          ((xfstStatus q.1 w.coreNo w.ctx wid g.gid addr (-5 * pow3 24 + d * pow3 12) 0 a).modWarp wid fun w => w.setG gd (-1), true)
        | .ok (src, dst) =>
          let n := wordAt r 3
          let cap := wordAt r 6
          let ls := spanLines dst (dblAt r 4) cap.toNat
          let s1 := recallAll q.1 ls
          let s2 := if wordAt r 8 = -1 then s1 else tbPost s1 (.scr g.gid (wordAt r 8)) (min (3 * n) cap)
          let id := s2.nextId
          let own := ls.map fun p => (⟨p.1, p.2, .xducer id⟩ : Owned)
          let s3 : State := { s2 with home := { s2.home with owned := s2.home.owned ++ own }, nextId := id + 1 }
          let x : XReq := ⟨id, g.gid, g.lid, w.ctx, addr, r, src, dst, false, 0, 0, 0, 0, coreWrites q.1 w.coreNo⟩
          (((modQueue s3 lane fun l => l ++ [x]).commitWarp w).modWarp wid fun w => w.setG gd 1, true)

/-- XFST (R253). -/
def execXfst (o : XfstA) (s : State) : Out :=
  .next (gangWord (.xfst o) s fun s c w g =>
    match recordAt s c g (w.greg o.a + o.imm) with
    | .error e => e
    | .ok (s, r) =>
      let addr := w.greg o.a + o.imm
      match lowestCharge (xfstCharges g r) with
      | some i => illegalTrap s c.lanes i
      | none =>
        if !slotGranted s w.ctx (wordAt r 7) then privTrap s c
        else
          let t := xfstTry s w.wid r addr o.d
          if t.2 then .plain t.1 else .plain (pendOn t.1 c c.lanes (.xfst r addr o.d)))

/-! ### Tables (R248 to R251) -/

/-- Trytes of an image of n states. -/
def imageTrytes (n : Int) : Int := 81 * (244 + 6 * n)

/-- The states that an image's header names, when in range; 0 when the header is refused. -/
def headerStates (s : State) (l : Loc) : Int :=
  match readPieces s.mem 0 [(l, 3)] with
  | .val v => if inR v 1 729 then v else 0
  | _ => 0

/-- XTAB (R251). -/
def execXtab (o : XtabA) (s : State) : Out :=
  .next (runWord (.xtab o) s fun s c w al =>
    if al.isEmpty then .plain s
    else if !slotGranted s w.ctx o.slot then privTrap s c
    else
      let a := w.gpair o.a
      if a % 81 ≠ 0 then wholeTrap s c cause.align 0 a
      else
        let trapAt (s : State) (p : Int × Chk) : Eff := match p.2 with
          | .fail d => wholeTrap s c cause.trans d p.1
          | _ => wholeTrap s c cause.uncor 0 (81 * (p.1 / 81))
        let h := checkAddrs s w.coreNo w.ctx (w.level == 1) Need.read true [a]
        match h.2 with
        | [(_, .ok l)] =>
          let hs := readBefore h.1 l
          let r := checkAddrs hs w.coreNo w.ctx (w.level == 1) Need.read true (pageStarts a (imageTrytes (headerStates hs l)))
          (match firstBad r.2 with
            | some p => trapAt r.1 p
            | none => .plain (pendOn r.1 c c.lanes (.xtab o.slot a o.d (r.2.map fun p => match p.2 with | .ok x => x | _ => .dom 0 0) false)))
        | p :: _ => trapAt h.1 p
        | [] => .plain h.1)

/-! ### How a word in progress moves on -/

/-- End a pending operation: the word's waits on it end. -/
def endPend (s : State) (wid n : Nat) : State :=
  s.modWarp wid fun w => { w.wake (fun x => x.kind == .pend n) with pends := w.pends.filter fun p => p.n != n }
/-- Change a pending operation. -/
def setPend (s : State) (wid n : Nat) (op : PendOp) : State :=
  s.modWarp wid fun w => { w with pends := w.pends.map fun p => if p.n = n then { p with op := op } else p }

/-- The words that release one binding await its write-backs (R167). -/
def noteBacks (s : State) (gid k bid : Nat) (ids : List Nat) : State :=
  let f (p : Pend) : Pend := match p.op with
    | .winrel j b next wbs => if j = k ∧ b = bid then { p with op := .winrel j b next (wbs ++ ids) } else p
    | _ => p
  { s with warps := s.warps.map fun w => if w.gid == some gid then { w with pends := w.pends.map f } else w }

/-- A window release in progress (R161, R167, R439): the binding it names is written back and unbound, and its write-backs are awaited; a WIN
then binds its record, after the release of what another WIN has bound there meanwhile. -/
def stepWinrel (s : State) (w : Warp) (n k bid : Nat) (next : Option (List Int)) (wbs : List Nat) : State :=
  match w.gid.bind s.gang? with
  | none => endPend s w.wid n
  | some g =>
    let bound := (g.win? k).filter fun x => x.bid == bid
    match bound with
    | some x =>
      if releaseWaits s g k x then s
      else
        let r := finishRelease s g.gid k x
        noteBacks r.1 g.gid k bid r.2
    | none =>
      if wbs.any fun i => (s.req? i).isSome then s
      else match next, g.win? k with
        | some r, none => endPend (bindWin s g.gid k r) w.wid n
        | some _, some y => setPend (beginRelease s g.gid k) w.wid n (.winrel k y.bid next [])
        | none, _ => endPend s w.wid n

/-- A TASK that waits for an entry (R237). -/
def stepTask (s : State) (w : Warp) (n : Nat) (r : List Int) (addr : Int) (gd : Nat) (hint : Int) : State :=
  match w.gid.bind s.gang? with
  | none => endPend s w.wid n
  | some g => if entryFree s g then endPend (acceptTask s g.gid w.wid r addr gd hint (g.sideOf w.coreNo) (w.level == 1)) w.wid n else s

/-- A SEND in progress (R419): lines leave while the facing binding takes them; their rows are read (R158). -/
def sendLoop (s : State) (w : Warp) (gid core port : Nat) (addr : Int) : Nat → Nat → State × Nat
  | 0, sent => (s, sent)
  | k + 1, sent =>
    if takes s core port w.ctx then
      match s.gang? gid with
      | none => (s, sent)
      | some g =>
        let line := (addr / 81).toNat + sent
        sendLoop (sendLine (scrub s gid [(81 * (line : Int), 81)]) w.coreNo w.ctx w.wid core port (g.line line) (g.tag line)) w gid core port addr k (sent + 1)
    else (s, sent)

def stepSend (s : State) (w : Warp) (n port : Nat) (addr : Int) (cnt sent : Nat) : State :=
  match w.gid, neighbour w.coreNo port with
  | some gid, some core =>
    let r := sendLoop s w gid core (facing port) addr (cnt - sent) sent
    if r.2 = cnt then endPend r.1 w.wid n
    else if r.2 = sent then s else setPend r.1 w.wid n (.send port addr cnt r.2)
  | _, _ => s

/-- Bind a marked RECV to its port and end it (R420). -/
def bindRecv (s : State) (w : Warp) (n port k first cnt : Nat) : State :=
  match w.gid with
  | none => s
  | some gid => endPend (s.modCore w.coreNo fun c => { c with binds := c.binds ++ [⟨port, gid, w.ctx, .window k first, cnt, 0, 0, some n⟩] }) w.wid n

/-- A port has no binding with lines left to receive. -/
def portFree (s : State) (core port : Nat) : Bool := !(s.core core).binds.any fun b => b.port == port
/-- The marked RECVs that wait for a port of a core: names and warps, oldest first. -/
def recvWaits (s : State) (core port : Nat) : List (Nat × Nat) :=
  sortBy (fun a b => decide (a.1 < b.1)) (s.warps.flatMap fun w => if w.coreNo != core then [] else
    w.pends.filterMap fun p => match p.op with | .recv q _ _ _ _ true => if q = port then some (p.n, w.wid) else none | _ => none)

/-- A RECV in progress (R420): fills land, dirty lines are written back, copies discarded, the homes grant ownership, the lines are
marked and posted; a free port is bound at once. -/
def stepRecv (s : State) (w : Warp) (n port k first cnt : Nat) (locs : List Loc) (marked : Bool) : State :=
  match w.gid.bind s.gang? with
  | none => endPend s w.wid n
  | some g =>
    match g.win? k with
    | none => endPend s w.wid n
    | some x =>
      if x.releasing then endPend s w.wid n
      else if marked then s
      else
        let js := (upto cnt).map fun i => first + i
        let ls := js.filterMap fun j => x.line? j
        if ls.any fun y => y.st == .filling || y.st == .recv || (ownPending s g.gid k y.j).isSome then s
        else if !ls.isEmpty then (flushLines s g.gid true (ls.map fun y => (k, y.j))).1
        else
          let gl := (nodups (locs.map Loc.pkgLine)).filter fun p => p.1 != 999
          if !allClear s gl then recallAll s gl
          else
            let own := gl.map fun p => (⟨p.1, p.2, .recv g.gid k⟩ : Owned)
            let s1 : State := { s with home := { s.home with owned := s.home.owned ++ own } }
            let s2 := s1.modGang g.gid fun g => g.modWin k fun y =>
              (List.zip js locs).foldl (fun y p => y.put ⟨p.1, .recv, p.2, false, none, 0, leafThere s1 w.coreNo w.ctx (y.boxAddr p.1) p.2⟩) y
            let s3 := setPend (tbPost s2 (.scr g.gid x.bar) (81 * cnt)) w.wid n (.recv port k first cnt locs true)
            if portFree s3 w.coreNo port && (recvWaits s3 w.coreNo port).length ≤ 1 then bindRecv s3 w n port k first cnt else s3

/-- RECV_BIND (R191, R420): the oldest marked RECV of a free port binds. -/
def execRecvBind (wid : Nat) (s : State) : Out :=
  .next (match s.warp? wid with
    | none => s
    | some w =>
      match w.pends.findSome? fun p => match p.op with
          | .recv port k first cnt _ true =>
            if portFree s w.coreNo port && (recvWaits s w.coreNo port).head? == some (p.n, wid) then some (p.n, port, k, first, cnt) else none
          | _ => none with
      | some (n, port, k, first, cnt) => bindRecv s w n port k first cnt
      | none => s)

/-- An XTAB in progress (R251); an invalidation of its pages awaits it (R150): the slot's requests end, then the read begins. -/
def stepXtab (s : State) (w : Warp) (n slot : Nat) (a : Int) (gd : Nat) (locs : List Loc) (loading : Bool) : State :=
  if loading then s
  else if (s.xd.lanes.any fun l => l.queue.any fun q => wordAt q.words 7 == (slot : Int)) || (tableSlot s slot).st == .loading then s
  else setPend (setSlot s ⟨slot, .loading, w.ctx, 0, 0, 0, [], []⟩) w.wid n (.xtab slot a gd locs true)

/-- CFLUSH or CINV in progress (R360): lines that were filling are flushed once they land. -/
def stepFlush (s : State) (w : Warp) (n : Nat) (inv : Bool) (lines : List (Nat × Nat)) (wbs : List Nat) : State :=
  match w.gid.bind s.gang? with
  | none => endPend s w.wid n
  | some g =>
    let st (p : Nat × Nat) : LineState := match g.win? p.1 with | some x => x.stateOf p.2 | none => .absent
    let wait := lines.filter fun p => st p == .filling || st p == .recv
    let r := flushLines s g.gid inv (lines.filter fun p => st p == .present || st p == .dirty)
    let wbs2 := (wbs ++ r.2).filter fun i => (r.1.req? i).isSome
    if wait.isEmpty && wbs2.isEmpty then endPend r.1 w.wid n
    else if wait == lines && wbs2 == wbs then s
    else setPend r.1 w.wid n (.flush inv wait wbs2)

end Sys2Proof.Machine
end

