-- ==== Sys2Proof/Machine/EvTasks.lean ====
section
/-! DEFINITION. Machine/EvTasks.lean: tile tasks and transducer requests as they run and end, stream sectors (R192, R226 to
R256). An event that is not enabled leaves the state as it is. -/

namespace Sys2Proof.Machine

open Sys2Proof Tern

/-! ### Faults of tasks (R243, R245, R246) -/

/-- The status word of a task (R242). -/
def taskStatus (outcome detail : Int) (flags : Int) : Int := outcome * pow3 24 + detail * pow3 16 + flags

/-- Write words at consecutive places of a record line, as the device does: their rows are read for it (R157). -/
def putWords (s : State) (core ctx gid : Nat) (addr : Int) (ws : List Int) : State :=
  (List.zip (upto ws.length) ws).foldl (fun s p => devUnit s core ctx 0 gid (addr + 3 * (p.1 : Int)) 3 p.2) (scrub s gid [(addr, 3 * ws.length)])

/-- The core that runs a task. -/
def Task.core (g : Gang) (t : Task) : Nat := g.cores.getD t.side (g.cores.headD 0)

/-- Remove a task: its entry returns, and it has finished with its lines (R204, R237). -/
def dropTask (s : State) (gid ticket : Nat) : State :=
  (disownTasks s fun g t => g == gid && t == ticket).modGang gid fun g => { g with tasks := g.tasks.filter fun t => t.ticket != ticket }

/-- The warp of a gang that takes a task's TASKF: the issuer, or the live warp of lowest number (R246). -/
def taskfWarp (s : State) (gid wid : Nat) : Option Nat :=
  let ws := s.warps.filter fun w => w.gid == some gid && !(w.where_ fun x => x.live).isEmpty
  if ws.any fun w => w.wid == wid then some wid
  else (sortBy (fun (a b : Warp) => decide (a.num < b.num)) ws).head?.map fun w => w.wid

/-- Send a page request, or join an open one (R152, R245). -/
def requestPage (s : State) (ctx : Nat) (page : Int) (core : Nat) (relaunch : Bool) : State :=
  if s.pageReqs.any fun q => q.ctx == ctx && q.page == page then
    { s with pageReqs := s.pageReqs.map fun q => if q.ctx == ctx && q.page == page then
        { q with cores := if q.cores.contains core then q.cores else q.cores ++ [core], relaunch := q.relaunch || relaunch } else q }
  else { s with pageReqs := s.pageReqs ++ [⟨s.nextId, ctx, page, [core], relaunch⟩], nextId := s.nextId + 1 }

/-- PCIe page requests are on for a context (R258 word 3). -/
def priOn (s : State) (ctx : Nat) : Bool := wordAt (s.descOf ctx) 3 == 1

/-- A task fault (R243, R245, R246). -/
def taskFault (s : State) (gid : Nat) (t : Task) (detail addr : Int) : State :=
  match s.gang? gid with
  | none => s
  | some g =>
    let r := ((t.words.set 5 (taskStatus (-1) detail 0)).set 25 (lowWord addr)).set 26 (highWord addr)
    let tf : TaskF := ⟨detail, t.addr, r⟩
    if inR detail 1 10 && relaunchable s g then
      if detail = 4 ∨ detail = 9 then
        if priOn s g.ctx then requestPage (killGang s gid (some (pageOf addr)) (some tf)) g.ctx (pageOf addr) (t.core g) true
        else killGang s gid none (some tf)
      else killGang s gid none none
    else
      let s1 := dropTask (putWords s (t.core g) g.ctx gid t.addr r) gid t.ticket
      match taskfWarp s gid t.wid with
      | some wid => s1.modWarp wid fun w => { w with taskfs := w.taskfs ++ [tf] }
      | none => cwGang s1 gid none [13]

/-! ### Running a task: its lines, its slots, its port (R239 to R241) -/

/-- What an attempt to run a task gives. -/
inductive TaskOut
  | wait (s : State)
  | fault (s : State) (detail addr : Int)
  | done (s : State)

/-- Touch the lines of a task and own those it writes (R240, R204). -/
def taskAccess (s : State) (g : Gang) (t : Task) : TaskOut :=
  let reads := winLines g (taskReads t.words)
  let writes := winLines g (taskWrites t.words ++ [t.addr])
  let ro := writes.filter fun x => match g.win? x.2.1 with | some y => y.mode == -1 | none => false
  match ro with
  | x :: _ => .fault s 7 x.1
  | [] =>
    let all := nodups ((reads ++ writes).map fun x => x.2)
    if all.any fun p => (ownPending s g.gid p.1 p.2).isSome then .wait s
    else
      let r := touchAll s g.gid g.ctx (t.core g) t.sup none all
      let no : List (Chk × Int) := r.2.filterMap fun x => match x with | .refused c a => some (c, a) | _ => none
      match no.head? with
      | some (.fail d, a) => .fault r.1 d a
      | some (_, a) => .fault r.1 25 (81 * (a / 81))
      | none =>
        if r.2.any fun x => x != .present then .wait r.1
        else
          let need := (nodups (writes.map fun x => x.2)).filter fun p =>
            match (g.win? p.1).bind fun w => w.line? p.2 with | some x => !x.owned | none => false
          if need.isEmpty then .done r.1
          else .wait (need.foldl (fun s p =>
            match (g.win? p.1).bind fun w => w.line? p.2 with
            | some x => s.send (t.core g) g.ctx 0 x.loc.pkgLine.1 x.loc.pkgLine.2 (.own g.gid p.1 p.2 []) none
            | none => s) r.1)

/-- Bind the slot of a WLOAD on a pair: a free macro on the preferred core, else on the other (R227, R122). -/
def bindSlot (s : State) (gid : Nat) (t : Task) : State :=
  match s.gang? gid with
  | none => s
  | some g =>
    let i := (wordAt t.words 6).toNat
    match (g.slots[i]?).bind fun x => x.core with
    | some _ => s
    | none =>
      let used (c : Nat) : Nat := (s.gangs.flatMap fun x => x.slots.filter fun y => y.core == some c).length
      let c := ((g.prefer t).find? fun c => decide (used c < 16)).orElse fun _ => g.cores.head?
      s.modGang gid fun g => { g with slots := modIdx (fun j x => if j = i then { x with core := c } else x) 0 g.slots }

/-- Replace a task. -/
def modTask (s : State) (gid ticket : Nat) (f : Task → Task) : State :=
  s.modGang gid fun g => { g with tasks := g.tasks.map fun t => if t.ticket = ticket then f t else t }

/-- The epilogue unit that an EPI takes: one a core, which runs one EPI at a time, whichever gang's (R239). -/
def epiUnit (s : State) (g : Gang) (t : Task) : Option Nat :=
  (g.prefer t).find? fun c => !(s.gangs.any fun x => x.tasks.any fun u => u.st != .queued && u.unit == some c)

/-- A queued task of the gang may start now: R239, no release in progress on its range (R439), the writes that TASK released are performed
(R204), and the gang runs. -/
def mayRun (s : State) (g : Gang) (t : Task) : Bool :=
  g.mayStart t && settled s t.after && (taskKind t.words != 4 || (epiUnit s g t).isSome) && !g.saved && !g.killed && (s.warps.any fun w => w.gid == some g.gid && w.place != .saved) &&
  ((upto g.wins.length).all fun k => match g.win? k with | some w => !(w.releasing && t.touches w) | none => true) &&
  g.releases.all fun x => settled s x.2 || !t.touches x.1

/-- The slots of a task are in the expected mode; a STREAM's slots stand on its port's core (R234, R241). -/
def slotsFit (g : Gang) (t : Task) : Bool :=
  let k := taskKind t.words
  (taskSlots t.words).all fun i => match g.slots[i]? with
    | some x => k == 1 || (x.mode == wordAt t.words 15 && (k != 3 || x.core == some (t.core g)))
    | none => false

/-- What an engine does on lines that it owns itself: its own ownership bars none of it (R204). -/
def State.aside (s : State) (o : Owner) : State := { s with home := { s.home with owned := s.home.owned.filter fun x => x.owner != o } }
/-- The ownerships as they stood. -/
def State.ownedAs (s t : State) : State := { t with home := { t.home with owned := s.home.owned } }

/-- Nothing comes before a task's lines. -/
def noPre (s : State) (_ : Gang) (_ : Task) : TaskOut := .done s

/-- Start and drive a task of a kind, in a cycle that is not withheld (R20, R337) and before its arrivals (R171): pre comes before its lines
are touched, f runs it once they are ready. -/
def driveTask (s : State) (gid ticket : Nat) (kind : Int) (pre f : State → Gang → Task → TaskOut) : State :=
  match s.gang? gid with
  | none => s
  | some g =>
    match g.tasks.find? fun t => t.ticket == ticket with
    | none => s
    | some t =>
      if taskKind t.words ≠ kind || t.st == .computed || withheld s (g.cores.headD 0 / 64) || s.tbMet gid ||
          (t.st == .queued && !mayRun s g t) then s
      else if !slotsFit g t && t.st == .queued then taskFault s gid t 24 0
      else
        let u := if t.st = .queued && kind = 4 then epiUnit s g t else t.unit
        let s1 := modTask (if t.st = .queued && kind = 1 then bindSlot s gid t else s) gid ticket fun t => { t with st := .running, unit := u }
        let andThen (o : TaskOut) (k : State → Gang → TaskOut) : TaskOut := match o with
          | .done s => (match s.gang? gid with
            | some g => k s g
            | none => .wait s)
          | o => o
        match andThen (andThen (andThen (.done (s1.aside (.task gid ticket))) fun s g => pre s g t) fun s g => taskAccess s g t) fun s g => f s g t with
        | .wait s2 => s.ownedAs s2
        | .fault s2 d a => taskFault (s.ownedAs s2) gid t d a
        | .done s2 => s.ownedAs s2

/-- The lines that a task has read: their rows are corrected, and the readings of window lines counted (R158, R169). -/
def countReads (s : State) (g : Gang) (us : List (Int × Nat)) : State :=
  (winLines g (us.map fun u => u.1)).foldl (fun s x => countRead s g.gid x.2.1 x.2.2) (scrub s g.gid us)
/-- Whole lines. -/
def wholeLines (ls : List Int) : List (Int × Nat) := ls.map fun a => (a, 81)

/-- A task has its results in place: its end is due (R242). -/
def computed (s : State) (gid ticket : Nat) (flags : Fl) : State :=
  modTask s gid ticket fun t => { t with st := .computed, flags := flags.num }

/-- A task writes a whole scratchpad line with its tag. -/
def taskLine (s : State) (gid : Nat) (a : Int) (d : Store) (t : Tag) : State :=
  (scrub s gid [(a, 81)]).modGang gid fun g =>
    let line := (a / 81).toNat
    let g1 := { g.setLine line d t with bad := g.bad.filter fun x => x != line }
    match g.winAt line with
    | some (k, j) => g1.modWin k fun w => w.modLine j fun x => { x with st := .dirty, count := none }
    | none => g1

/-! ### WLOAD (R228) -/

/-- Read the B lines in order: rows of elements and the one scale, or the first fault. -/
def wloadRows (g : Gang) (mode : Int) : Option Int → List Int → Except (Int × Int) (List (List Int) × Int)
  | sc, [] => .ok ([], sc.getD 0)
  | sc, a :: r =>
    match bLine mode (g.readLine (a / 81).toNat) with
    | .error d => .error (d, a)
    | .ok (es, x) =>
      if (match sc with | some y => x != y | none => false) then .error (23, a)
      else match wloadRows g mode (some (sc.getD x)) r with
        | .error e => .error e
        | .ok (rows, z) => .ok (es :: rows, z)

/-- WLOAD_TASK. -/
def execWloadTask (gid ticket : Nat) (s : State) : Out :=
  .next (driveTask s gid ticket 1 noPre fun s g t =>
    let mode := wordAt t.words 9
    match wloadRows g mode none (wloadB t.words).lines with
    | .error (d, a) => .fault s d a
    | .ok (rows, sc) =>
      let w := (List.zip (upto 81) rows).foldl (fun m p => ssets m (729 * p.1) p.2) []
      let i := (wordAt t.words 6).toNat
      let s1 := s.modGang gid fun g => { g with slots := modIdx (fun j x => if j = i then { x with mode := mode, scale := sc, w := w } else x) 0 g.slots }
      .done (computed (countReads s1 g (wholeLines (wloadB t.words).lines)) gid ticket Fl.none))

/-! ### MM and STREAM (R229, R230, R241) -/

/-- The A operands of lines, in order, or the first fault with its address. -/
def aOps : List (Int × LineRead) → Except (Int × Int) (List (List Int × Int × Bool))
  | [] => .ok []
  | (a, x) :: r => match aLine x with
    | .error d => .error (d, a)
    | .ok y => match aOps r with
      | .error e => .error e
      | .ok ys => .ok (y :: ys)

/-- Trytes of a line from its words or its elements. -/
def lineOfWords (ws : List Int) : Store := ssets [] 0 (ws.flatMap fun w => split 9 3 w)

/-- The C lines of row m. -/
def cRow (x : Rows) (m : Nat) : List Int := (upto x.width.toNat).map fun (c : Nat) => x.base + 81 * ((m : Int) * x.pitch + (c : Int))

/-- C lines as an MM, a STREAM or an EPI reads them: logical words, or the first fault (R65, R67, R158). -/
def cLines (g : Gang) : List Int → Except (Int × Int) (List (Int × Store))
  | [] => .ok []
  | a :: r =>
    match g.readLine (a / 81).toNat with
    | .bad => .error (25, a)
    | .reserved => .error (21, a)
    | .data d t =>
      if !inR t.scale (-121) 121 then .error (22, a)
      else match cLines g r with
        | .error e => .error e
        | .ok l => .ok ((a, d) :: l)

/-- The words of a C row, from its lines. -/
def rowWords (ls : List (Int × Store)) (row : List Int) : List Int :=
  row.flatMap fun a => match ls.find? fun p => p.1 == a with
    | some p => (upto 27).map fun w => lineWord p.2 w
    | none => []

/-- Compute the rows of an MM or STREAM in order, from each row's A lines: the C rows and the flags, or the first fault. An
uncorrectable C line, read or written, is a fault (R158). -/
def mmRows (g : Gang) (r : List Int) (slots : List Slot) : Nat → List (List (Int × LineRead)) → Except (Int × Int) (List (List Int) × Fl)
  | _, [] => .ok ([], Fl.none)
  | m, as :: rest =>
    let cs := cRow (mmC r) m
    match cs.find? fun a => g.unread a 81 with
    | some a => .error (25, a)
    | none =>
      match aOps as with
      | .error e => .error e
      | .ok xs =>
        match (if wordAt r 16 = 1 then .ok [] else cLines g cs) with
        | .error e => .error e
        | .ok ls =>
          let old := rowWords ls cs
          let row := mmRow r slots xs fun j => old.getD j 0
          match mmRows g r slots (m + 1) rest with
          | .error e => .error e
          | .ok (rows, f) => .ok (row.map (fun p => p.1) :: rows, (Fl.all (row.map fun p => p.2)).or f)

/-- Lists of n elements each. -/
def chunksOf (n : Nat) : Nat → List Int → List (List Int)
  | 0, _ => []
  | k + 1, l => l.take n :: chunksOf n k (l.drop n)

/-- Write the C rows (R230). -/
def mmWrite (s : State) (gid : Nat) (r : List Int) (rows : List (List Int)) : State :=
  (List.zip (upto rows.length) rows).foldl (fun s p =>
    let cs := cRow (mmC r) p.1
    (List.zip cs (chunksOf 27 cs.length p.2)).foldl (fun s q => taskLine s gid q.1 (lineOfWords q.2) ⟨3, 0⟩) s) s

/-- The slots of a task, in chunk order. -/
def slotsOf (g : Gang) (r : List Int) : List Slot := (taskSlots r).filterMap fun i => g.slots[i]?

/-- Run an MM or STREAM on its A lines, row by row. -/
def mmRun (s : State) (g : Gang) (t : Task) (as : List (List (Int × LineRead))) (reads : List (Int × Nat)) : TaskOut :=
  match mmRows g t.words (slotsOf g t.words) 0 as with
  | .error (d, a) => .fault s d a
  | .ok (rows, f) => .done (computed (mmWrite (countReads s g reads) g.gid t.words rows) g.gid t.ticket f)

/-- The trytes of an A line that an MM reads: the first p planes of a TI9P line, all of any other (R229). -/
def aLength (g : Gang) (p : Int) (a : Int) : Nat := if (g.tag (a / 81).toNat).code = 6 then 9 * p.toNat else 81
/-- What an MM's read of an A line finds: a row beyond what it reads is no fault (R158, R229). -/
def readA (g : Gang) (p : Int) (a : Int) : LineRead :=
  if (g.tag (a / 81).toNat).code = 6 then (if g.rowsBad a (aLength g p a) then .bad else g.lineAt (a / 81).toNat) else g.readLine (a / 81).toNat

/-- The C lines that an MM or a STREAM reads. -/
def mmOld (r : List Int) : List (Int × Nat) := if wordAt r 16 = 0 then wholeLines (mmC r).lines else []

/-- MM_TASK (R230). -/
def execMmTask (gid ticket : Nat) (s : State) : Out :=
  .next (driveTask s gid ticket 2 noPre fun s g t =>
    let x := mmA t.words
    let p := wordAt t.words 9
    let as := (upto x.rows.toNat).map fun m => (cRow x m).map fun a => (a, readA g p a)
    mmRun s g t as (x.lines.map (fun a => (a, aLength g p a)) ++ mmOld t.words))

/-- Lines that a STREAM takes from its port. -/
def streamLines (r : List Int) : Nat := (wordAt r 10 * wordAt r 7).toNat

/-- A running STREAM that has not received all its lines (R241, R288). -/
def Task.lacksLines (t : Task) : Bool := taskKind t.words == 3 && t.st == .running && decide (t.got.length < streamLines t.words)

/-- Line i of what a STREAM received, expanded under its own tag; a TRIPLE tail finds its head among the lines before it. -/
def gotLine (got : List (Store × Tag)) (i : Nat) : LineRead :=
  match got[i]? with
  | none => .reserved
  | some (d, t) =>
    let j := (t.code - 9).toNat
    if reservedCode t.code then .reserved
    else if t.code = 10 ∨ t.code = 11 then
      (match (if i < j then none else got[i - j]?) with
        | some (h, u) => if u.code = 9 then .data (expandLine t.code h) u else .reserved
        | none => .reserved)
    else .data (expandLine t.code d) t

/-- A STREAM's binding is in place or has done its work. -/
def streamBound (s : State) (core : Nat) (g : Gang) (t : Task) : Bool :=
  (s.core core).binds.any fun b => b.gid == g.gid && b.feeds == .task t.ticket

/-- Forward consumed lines on the forward port while its binding takes them (R241). -/
def forwardLoop (s : State) (g : Gang) (t : Task) (core to_ port : Nat) : Nat → Nat → State × Nat
  | 0, sent => (s, sent)
  | k + 1, sent =>
    match t.got[sent]? with
    | some (d, tg) =>
      if takes s to_ port g.ctx then forwardLoop (sendLine s core g.ctx 0 to_ port d tg) g t core to_ port k (sent + 1) else (s, sent)
    | none => (s, sent)

/-- STREAM_TASK (R241): bind, receive, forward, compute. A line that its check refuses faults when it is consumed. -/
def execStreamTask (gid ticket : Nat) (s : State) : Out :=
  .next (driveTask s gid ticket 3 noPre fun s g t =>
    let core := t.core g
    let port := (wordAt t.words 11).toNat
    let fwd := (wordAt t.words 12).toNat
    let n := streamLines t.words
    let unbind (s : State) : State := s.modCore core fun c => { c with binds := c.binds.filter fun b => !(b.gid == gid && b.feeds == .task ticket) }
    if t.got.isEmpty && !streamBound s core g t then
      if portFree s core port && (recvWaits s core port).isEmpty then
        .wait (s.modCore core fun c => { c with binds := c.binds ++ [⟨port, gid, g.ctx, .task ticket, n, 0, 0, none⟩] })
      else .wait s
    else
      let ls : List LineRead := (upto t.got.length).map fun i => gotLine t.got i
      match aOps (ls.map fun x => (0, x)) with
      | .error (d, a) => .fault (unbind s) d a
      | .ok _ =>
        let r : State × Nat := match if fwd = 0 then none else neighbour core fwd with
          | some k => forwardLoop s g t core k (facing fwd) (t.got.length - t.sent) t.sent
          | none => (s, t.got.length)
        if r.2 < n || t.got.length < n then .wait (if r.2 = t.sent then r.1 else modTask r.1 gid ticket fun t => { t with sent := r.2 })
        else
          let c := (wordAt t.words 7).toNat
          let as := (upto (wordAt t.words 10).toNat).map fun m => (upto c).map fun j => ((0 : Int), gotLine t.got (m * c + j))
          mmRun (modTask r.1 gid ticket fun t => { t with got := [], sent := 0 }) g t as (mmOld t.words))

/-- STREAM_SECTOR_RECEIPT (R192, R241): the oldest sector of a port lands in its binding. -/
def execStreamSectorReceipt (id : Nat) (s : State) : Out :=
  .next (match s.req? id with
    | some r => (match r.body with
      | .stream core port d t n =>
        if (s.reqs.takeWhile fun q => q.id != id).any fun q => match q.body with | .stream c p _ _ _ => c == core && p == port | _ => false then s
        else
          let s1 := s.delReq id
          match (s.core core).binds.find? fun b => b.port == port with
          | none => s1
          | some b =>
            if s.tbMet b.gid then s else
            let next (l : List Binding) : List Binding :=
              if b.landed + 1 = 3 * b.n then l.filter fun x => x.port != port
              else l.map fun x => if x.port = port then { x with landed := x.landed + 1 } else x
            let adv (s : State) : State := s.modCore core fun c => { c with binds := next c.binds }
            match b.feeds with
            | .task ticket =>
              adv (if n = 2 then modTask s1 b.gid ticket fun x => { x with got := x.got ++ [(d, t)] } else s1)
            | .window k first =>
              let j := first + b.landed / 3
              let s2 := landIn s1 b.gid k j d t n .dirty false
              let s3 : State := match n, winLoc s1 b.gid k j with
                | 2, some l => { s2 with home := { s2.home with owned := s2.home.owned.filter fun o =>
                    !(o.pkg == l.pkgLine.1 && o.line == l.pkgLine.2 && o.owner == .recv b.gid k) } }
                | _, _ => s2
              adv s3
      | _ => s)
    | none => s)

/-! ### EPI (R235, R236) -/

/-- Translate a word that an EPI names: its place, or the fault (R236). -/
def epiWord (s : State) (g : Gang) (t : Task) (nd : Need) (a : Int) : State × Except (Int × Int) Loc :=
  let r := checkAddr s (t.core g) g.ctx t.sup nd true a
  match r.2 with
  | .ok l => (r.1, .ok l)
  | .fail d => (r.1, .error (d, a))
  | .uncor => (r.1, .error (25, a))

/-- Convert one row (R236): elements and flags. -/
def epiRow (r : List Int) (sh : Int) (xs : List Int) : List (Int × Fl) := xs.map fun x => epiElem (wordAt r 10) (wordAt r 11) sh x

/-- Write one output row with its tag (R236). -/
def epiWriteRow (s : State) (gid : Nat) (r : List Int) (m : Nat) (sh : Int) (ys : List Int) : State :=
  let os := cRow (epiOut r) m
  let f27 := wordAt r 10 == 1
  let code : Int := if f27 then 3 else if wordAt r 10 = -1 then 2 else 1
  (List.zip os (chunksOf (if f27 then 27 else 81) os.length ys)).foldl (fun s q =>
    taskLine s gid q.1 (if f27 then lineOfWords q.2 else ssets [] 0 q.2) ⟨code, sh⟩) s

/-- The places of the scale word and the fold word that an EPI names, or the first translation that fails (R236). -/
def epiPlaces (s : State) (g : Gang) (t : Task) : State × Except (Int × Int) (Loc × Loc) :=
  let r := t.words
  let a := if wordAt r 15 = 1 then epiWord s g t Need.read (dblAt r 16) else (s, .ok (.dom 0 0))
  match a.2 with
  | .error e => (a.1, .error e)
  | .ok ls =>
    let b := if wordAt r 18 = 1 then epiWord a.1 g t Need.rmw (dblAt r 19) else (a.1, .ok (.dom 0 0))
    match b.2 with
    | .error e => (b.1, .error e)
    | .ok lf => (b.1, .ok (ls, lf))

/-- What an EPI does before it reads or writes a line: its translations (R236). -/
def epiPre (s : State) (g : Gang) (t : Task) : TaskOut :=
  let p := epiPlaces s g t
  match p.2 with
  | .error (d, x) => .fault p.1 d x
  | .ok _ => .done p.1

/-- EPI_TASK (R236): translations first, then the scale word, the rows in order, and the fold as one MAX update (R212). -/
def execEpiTask (gid ticket : Nat) (s : State) : Out :=
  .next (driveTask s gid ticket 4 epiPre fun s g t =>
    let r := t.words
    let core := t.core g
    let sa := dblAt r 16
    let fa := dblAt r 19
    let useS := wordAt r 15 == 1
    let useF := wordAt r 18 == 1
    let p := epiPlaces s g t
    match p.2 with
    | .error (d, x) => .fault p.1 d x
    | .ok (ls, lf) =>
        let s0 := p.1
        let sl := if useS && !ls.isHost then (headOf s0 ls.pkgLine) ++ [ls.pkgLine] else []
        let fl := if useF && !lf.isHost then (tripleLines s0 lf.pkgLine.1 lf.pkgLine.2).map fun l => (lf.pkgLine.1, l) else []
        if (sl ++ fl).any fun q => remoteHeld s0 q.1 then .wait (seekHeld s0 core g.ctx 0 (sl ++ fl))
        else if sl.any fun q => engineOwned s0 q.1 q.2 || !clear s0 q.1 q.2 false none then
          .wait (sl.foldl (fun s q => sendRecalls s q.1 q.2 false none) s0)
        else if !allClear s0 fl then .wait (recallAll s0 fl)
        else match fl.findSome? fun q => makeRoom s0 q.1 q.2 with
        | some s1 => .wait s1
        | none =>
          let s1 := sl.foldl (fun s q => readHome s q.1 q.2) (if useS then hostActs s0 ls else s0)
          let sc : UnitRead := if useS then readPieces s1.mem 0 [(ls, 3)] else .val 0
          match sc with
          | .bad _ => .fault s1 25 sa
          | .reserved _ => .fault s1 21 sa
          | .val v =>
            let e := field v 26 22
            let sh := if useS && inR e (-120) 120 then wordAt r 14 + e else wordAt r 14
            if !inR sh (-121) 121 then .fault s1 22 (if useS then sa else 0)
            else
              match (epiOut r).lines.find? fun x => g.unread x 81 with
              | some x => .fault s1 25 x
              | none =>
                match cLines g (epiC r).lines with
                | .error (d, x) => .fault s1 d x
                | .ok _ =>
                  let ms := upto (wordAt r 8).toNat
                  let step (acc : State × Fl × List Int) (m : Nat) : State × Fl × List Int :=
                    match acc.1.gang? gid with
                    | none => acc
                    | some g =>
                      let row := cRow (epiC r) m
                      let xs := match cLines g row with | .ok l => rowWords l row | .error _ => []
                      let ys := epiRow r sh xs
                      (epiWriteRow acc.1 gid r m sh (ys.map fun p => p.1), acc.2.1.or (Fl.all (ys.map fun p => p.2)), acc.2.2 ++ xs)
                  let z := ms.foldl step (countReads s1 g (wholeLines (epiC r).lines), Fl.none, [])
                  let s3 := match useF, maxMag z.2.2 with
                    | true, some mx =>
                      let s2 := setDirty (z.1.commitGang gid) core g.ctx fa lf
                      applyRed (takeLines s2 (soundLines s2 fl)) g.ctx [⟨0, lf, none, 3, mx⟩] (redVal 1 true)
                    | _, _ => z.1
                  .done (computed s3 gid ticket z.2.1))

/-! ### The end of a task, and TASKF (R242, R246) -/

/-- TASK_END (R242): the status word, then the arrival; an arrival that finds 0 pending is discarded with detail 26. -/
def execTaskEnd (gid ticket : Nat) (s : State) : Out :=
  .next (match s.gang? gid with
    | none => s
    | some g => match g.tasks.find? fun t => t.ticket == ticket with
      | none => s
      | some t =>
        if t.st != .computed then s
        else
          let b := wordAt t.words 1
          let full := b == -1 || (tbGet s (.scr gid b)).pending != 0
          let s1 := putWords s (t.core g) g.ctx gid (t.addr + 15) [taskStatus 1 (if full then 0 else 26) t.flags]
          let s2 := dropTask s1 gid ticket
          if b = -1 then s2 else match tbArrive s2 (.scr gid b) with
            | some s3 => s3.met (.tb (some gid) b) 0
            | none => s2)

/-- A warp that has no ready lane takes a pending TASKF: some live lane waits and is not halted, and no wait is for its own
replies alone (R246). -/
def taskfNow (s : State) (w : Warp) : Bool :=
  !w.taskfs.isEmpty && !w.inTaskf && !w.handler && w.place != .saved && w.readyLanes.isEmpty &&
  !(w.where_ fun x => x.live && x.wait.isSome && x.halted.isNone).isEmpty &&
  (w.where_ fun x => x.live && match x.wait with | some ⟨.load op, _⟩ => (s.op? op).isSome | _ => false).isEmpty

/-- The same kind of a drop for each pending word whose lanes' waits are cancelled. -/
def dropPends (s : State) (wid : Nat) : State :=
  match s.warp? wid with
  | none => s
  | some w =>
    let undo (s : State) (p : Pend) : State := match p.op, w.gid with
      | .xtab t _ _ _ true, _ => setSlot s { tableSlot s t with st := .empty }
      | op, some gid => unmarkRecv s gid op
      | _, none => s
    let s1 := w.pends.foldl undo s
    s1.modWarp wid fun w => { w with pends := [] }

/-- Take a TASKF on listed lanes; its detail and record address stand in every lane (R246, R275). -/
def enterTaskf (s : State) (wid : Nat) (ls : List Nat) (tf : TaskF) : State :=
  (s.enterTrap wid ⟨cause.taskf, listed ls tf.detail tf.addr⟩).modWarp wid fun w =>
    w.allLanes fun _ x => { x with tInfo := tf.detail, tAddr := tf.addr }

/-- TASKF_DELIVERY (R246) to a warp with no ready lane: the waits are cancelled, each lane resumes at the word at which it began
to wait, and the trap is taken. A warp with ready lanes takes it when it issues. -/
def execTaskfDelivery (wid : Nat) (s : State) : Out :=
  .next (match s.warp? wid with
    | none => s
    | some w =>
      match w.taskfs with
      | tf :: rest =>
        if !taskfNow s w then s
        else
          let ls := w.where_ fun x => x.live && x.wait.isSome
          let s1 := dropPends s wid
          let s2 := s1.modWarp wid fun w => { w with
            taskfs := rest,
            lanes := (w.modLanes ls fun _ x => { x with pc := (match x.wait with | some y => y.word | none => x.pc), wait := none }).lanes }
          enterTaskf s2 wid ls tf
      | [] => s)

/-! ### Transducer requests as they run (R254 to R256) -/

/-- The class of an input tryte; none when it has none. -/
def TableSlot.classOf (t : TableSlot) (v : Int) : Option Nat :=
  let k := sget t.map (v + 9841).toNat
  if k < 0 then none else some k.toNat
/-- A transition: emitted trytes and next state; none when missing (R250). -/
def TableSlot.next (t : TableSlot) (st k : Nat) : Option (List Int × Nat) :=
  let low := sget t.entries (2 * (81 * st + k))
  let high := sget t.entries (2 * (81 * st + k) + 1)
  if trit high 8 = 1 then some ((split 9 3 low).take (field high 7 6).toNat, (field high 5 0 + 364).toNat) else none

/-- How a run stands: state of the machine, table state, input offset, trytes produced, and the outcome once it ends. -/
structure XRun where
  (s : State) (st o t : Nat) (out : Option Int)

/-- Write one output tryte at its home: the dirty trit of its page is set in the entry that still gives the place the lane has pinned (R149); the
line is materialised first, its tag stays (R189, R254). A tryte for an uncorrectable line is discarded with an event and counts as produced: DESIGN
CHOICE, R254 speaks of the input's errors only (log entry 136). -/
def xWrite (x : XReq) (s : State) (i : Nat) (v : Int) : State :=
  let loc := spanLoc x.dst (dblAt x.words 4) i
  let s1 := if i = 0 || (dblAt x.words 4 + (i : Int)) % 19683 = 0 then markWalk s x.ctx (dblAt x.words 4 + i) loc else s
  let ls := if loc.isHost then [] else (tripleLines s1 loc.pkgLine.1 loc.pkgLine.2).map fun l => (loc.pkgLine.1, l)
  applyUnits (takeLines s1 (soundLines s1 ls)) x.ctx [⟨0, loc, none, 1, v⟩]

/-- The host answers accesses to some places, one after the other (R254; log entry 124). -/
def hostHears (s : State) (ls : List Loc) : Bool × State :=
  ls.foldl (fun z l => if l.isHost then (z.1 && Config.hostAnswers z.2.fresh, { z.2 with fresh := z.2.fresh + 1 }) else z) (true, s)

/-- One step of a request (R254). gone: packages that give no answer; an access to one of them, or one that the host does not answer, ends the
request with outcome -4, and nothing of its step is written (log entry 136). -/
def xStep (gone : Int → Bool) (tb : TableSlot) (x : XReq) (z : XRun) : XRun :=
  let src := spanLoc x.src (dblAt x.words 1) z.o
  let s := if z.o = 0 || src.offset = 0 then hostActs z.s src else z.s
  let lost (l : Loc) : Bool := match l with | .dom p _ => gone p | .host _ _ _ => false
  let q := hostHears s [src]
  let s := q.2
  if lost src || !q.1 then { z with s := s, out := some (-4) }
  else match readPieces s.mem 0 [(src, 1)] with
  | .val v =>
    match (tb.classOf v).bind fun k => tb.next z.st k with
    | none => { z with s := s, out := some (-1) }
    | some (es, st) =>
      if decide ((wordAt x.words 6).toNat < z.t + es.length) then { z with s := s, out := some (-2) }
      else
        let loc (i : Nat) : Loc := spanLoc x.dst (dblAt x.words 4) (z.t + i)
        let raw (i : Nat) : Bool := match loc i with | .host view _ _ => view == -1 | .dom _ _ => false
        let ys := List.zip (upto es.length) es
        if ys.any (fun p => raw p.1 && !inR p.2 0 255) then { z with s := s, out := some (-3) }
        else if ys.any fun p => lost (loc p.1) then { z with s := s, out := some (-4) }
        else
          let q := hostHears s (ys.map fun p => loc p.1)
          let s := q.2
          if !q.1 then { z with s := s, out := some (-4) }
          else { z with s := ys.foldl (fun s p => xWrite x s (z.t + p.1) p.2) s, st := st, o := z.o + 1, t := z.t + es.length }
  | _ => { z with s := s, out := some (-4) }

/-- Run a request: at most n steps. -/
def xRun (gone : Int → Bool) (tb : TableSlot) (x : XReq) : Nat → XRun → XRun
  | 0, z => { z with out := some 1 }
  | n + 1, z => match z.out with
    | some _ => z
    | none => let y := xStep gone tb x z
              match y.out with
              | some _ => y
              | none => xRun gone tb x n y

/-- The gang of a request still takes its updates (R256). -/
def xGang (s : State) (x : XReq) : Option Gang := (s.gang? x.gid).filter fun g => !g.killed

/-- The request's gang has been arrived at in this cycle: the lane's landing follows in a later one (R171). -/
def xMet (s : State) (x : XReq) : Bool := match xGang s x with | some g => s.tbMet g.gid | none => false

/-- TRANSDUCER_REQUEST_START (R204, R254): what XFST released is performed, the source may be read, and the lane is the first owner of the
destination's lines, with every copy of them recalled; then the table is stepped through and the outputs are written and landed. -/
def execTransducerRequestStart (lane : Nat) (s : State) : Out :=
  .next (match laneQueue s lane with
    | x :: rest =>
      if x.running || xMet s x then s
      else if s.pkg.deadLanes.contains lane || !settled s x.after then s
      else
        let gone (p : Int) : Bool := s.pkg.deadPeers.contains p
        let here (l : List (Int × Int)) : List (Int × Int) := l.filter fun p => !gone p.1
        let mine (p : Int × Int) : Bool := (s.home.owned.find? fun o => o.pkg == p.1 && o.line == p.2).any fun o => o.owner == .xducer x.id
        let dst := here (spanLines x.dst (dblAt x.words 4) (wordAt x.words 6).toNat)
        let read := here (spanLines x.src (dblAt x.words 1) (wordAt x.words 3).toNat)
        let src := (nodups (read ++ read.flatMap (headOf s))).filter fun p => !dst.contains p
        let others := (nodups (dst.flatMap fun p => (tripleLines s p.1 p.2).map fun l => (p.1, l))).filter fun p => !dst.contains p
        if (src ++ dst).any fun p => remoteHeld s p.1 then seekHeld s 801 x.ctx 0 (src ++ dst)
        else if !dst.all mine then s
        else if !(src.all fun p => !engineOwned s p.1 p.2 && clear s p.1 p.2 false none) then src.foldl (fun s p => sendRecalls s p.1 p.2 false none) s
        else if !(dst.all fun p => clear s p.1 p.2 true none) then recallAll s dst
        else if !allClear s others then recallAll s others
        else
          let tb := tableSlot s (wordAt x.words 7).toNat
          let st := if wordAt x.words 9 = -1 then tb.start else (wordAt x.words 9).toNat
          let z := xRun gone tb x (wordAt x.words 3).toNat ⟨src.foldl (fun s p => readHome s p.1 p.2) (s.aside (.xducer x.id)), st, 0, 0, none⟩
          let s1 := modQueue (s.ownedAs z.s) lane fun _ =>
            { x with running := true, offset := z.o, produced := z.t, st := z.st, outcome := z.out.getD 1 } :: rest
          if wordAt x.words 8 = -1 then s1
          else match xGang s1 x with
            | some g => tbLand s1 (.scr g.gid (wordAt x.words 8)) z.t
            | none => s1
    | [] => s)

/-- End the first request of a lane's queue (R255). -/
def endXReq (s : State) (lane : Nat) (x : XReq) : State :=
  let own := s.home.owned.filter fun o => o.owner != .xducer x.id
  let s1 := modQueue ({ s with home := { s.home with owned := own } } : State) lane fun q => q.filter fun y => y.id != x.id
  match xGang s1 x with
  | none => s1
  | some g =>
    let core := g.cores.headD 0
    let s2 := putWords s1 core g.ctx g.gid (x.addr + 30) [x.outcome * pow3 24 + x.offset * pow3 12 + x.st, x.produced]
    if wordAt x.words 8 = -1 then s2
    else tbLand s2 (.scr g.gid (wordAt x.words 8)) (min (3 * wordAt x.words 3) (wordAt x.words 6) - x.produced)

/-- TRANSDUCER_REQUEST_END (R255). -/
def execTransducerRequestEnd (lane : Nat) (s : State) : Out :=
  .next (match laneQueue s lane with
    | x :: _ => if x.running && !xMet s x then endXReq s lane x else s
    | [] => s)

/-! ### Table loads (R249 to R251) -/

/-- Word i of an image; none when its line is bad or has a reserved tag code: R251's code 4 names no reserved code, and it counts as an
unreadable line (DEDUCED; log entry 44). -/
def imageWord (m : Memory) (locs : List Loc) (a : Int) (i : Nat) : Option Int :=
  match readPieces m 0 [(spanLoc locs a (3 * i), 3)] with
  | .val v => some v
  | _ => none
/-- Tryte i of an image. -/
def imageTryte (m : Memory) (locs : List Loc) (a : Int) (i : Nat) : Int :=
  match readPieces m 0 [(spanLoc locs a i, 1)] with
  | .val v => v
  | _ => 0

/-- An entry passes R250 for S states and K classes. -/
def entryOk (states classes k : Nat) (low high : Int) : Bool :=
  if classes ≤ k then low == 0 && high == 0
  else field high 26 9 == 0 && inR (trit high 8) 0 1 &&
    (if trit high 8 = 0 then low == 0 && high == 0
     else inR (field high 7 6) 0 3 && inR (field high 5 0) (-364) ((states : Int) - 365) &&
       ((split 9 3 low).drop (field high 7 6).toNat).all fun e => e == 0)

/-- Check an image: the loaded slot, or the return code (R249 to R251). Of an image with several faults the lowest code of R251's table is given, over
the lines that can be read: DEDUCED, the rule gives no order (log entry 44). An unreadable header gives 4, since nothing else can be checked. -/
def loadTable (m : Memory) (t : TableSlot) (locs : List Loc) (a : Int) : Except Int TableSlot :=
  match imageWord m locs a 0, imageWord m locs a 1, imageWord m locs a 2 with
  | some sN, some kN, some st =>
    if !inR sN 1 729 || !inR kN 1 81 || !inR st 0 (sN - 1) ||
      ((upto 24).any fun i => imageWord m locs a (3 + i) != some 0) then .error 1
    else
      let lines := 244 + 6 * sN.toNat
      let map := (upto 19683).map fun v => imageTryte m locs a (81 + v)
      if map.any fun k => !(k == -1 || inR k 0 (kN - 1)) then .error 2
      else
        let es := (upto (81 * sN.toNat)).map fun e => ((imageWord m locs a (27 * 244 + 2 * e)).getD 0, (imageWord m locs a (27 * 244 + 2 * e + 1)).getD 0)
        if !((List.zip (upto es.length) es).all fun p => entryOk sN.toNat kN.toNat (p.1 % 81) p.2.1 p.2.2) then .error 3
        else if (upto lines).any fun l => (imageWord m locs a (27 * l)).isNone then .error 4
        else .ok { t with st := .loaded, states := sN.toNat, classes := kN.toNat, start := st.toNat, map := ssets [] 0 map,
                            entries := ssets [] 0 (es.flatMap fun p => [p.1, p.2]) }
  | _, _, _ => .error 4

/-- The XTAB word that loads a slot: its warp, its name, image, Gd, places. -/
def xtabOf (s : State) (slot : Nat) : Option (Nat × Nat × Int × Nat × List Loc) :=
  s.warps.findSome? fun w => w.pends.findSome? fun p => match p.op with
    | .xtab t a gd locs true => if t = slot then some (w.wid, p.n, a, gd, locs) else none
    | _ => none

/-- Put a word in progress back, to be issued again. -/
def reissuePend (s : State) (wid n : Nat) : State :=
  match (s.warp? wid).bind fun w => w.pends.find? fun p => p.n == n with
  | none => s
  | some p =>
    let s1 := s.modWarp wid fun w =>
      let is (x : Option Wait) : Bool := match x with | some y => y.kind == .pend n | none => false
      let w1 := if (w.where_ fun x => is x.hwait).isEmpty then w else { w with hpc := p.word }
      w1.modLanes (w1.where_ fun x => is x.wait) fun _ x => { x with pc := p.word }
    endPend s1 wid n

/-- Some lines of an image are read: the host's own writes come before each of its lines (R47), the others are read at their homes (R44, R180). -/
def readImage (s : State) (locs : List Loc) (a : Int) (first n : Nat) : State :=
  (upto n).foldl (fun s i =>
    let l := spanLoc locs a (81 * (first + i))
    if l.isHost then hostActs s l else readHome s l.pkgLine.1 l.pkgLine.2) s

/-- TABLE_LOAD_COMPLETE (R251): a header that now names pages which XTAB has not checked makes the word issue again. -/
def execTableLoadComplete (slot : Nat) (s : State) : Out :=
  .next (match xtabOf s slot with
    | none => s
    | some (wid, n, a, gd, locs) =>
      let l0 := locs.getD 0 (.dom 0 0)
      let hl := if l0.isHost then [] else nodups (l0.pkgLine :: headOf s l0.pkgLine)
      let gone (p : Int × Int) : Bool := s.pkg.deadPeers.contains p.1
      let stuck (ls : List (Int × Int)) : Bool := ls.any fun p => remoteHeld s p.1 && !gone p
      let open_ (ls : List (Int × Int)) : Bool := ls.all fun p => gone p || (!engineOwned s p.1 p.2 && clear s p.1 p.2 false none)
      let t := tableSlot s slot
      let fail (s : State) (e : Int) : State := endPend ((setSlot s { t with st := .empty }).modWarp wid fun w => w.setG gd e) wid n
      if stuck hl then seekHeld s 801 0 0 hl
      else if hl.any gone then fail s 4
      else if !open_ hl then hl.foldl (fun s p => sendRecalls s p.1 p.2 false none) s
      else
        let s1 := readImage s locs a 0 1
        let len := imageTrytes (headerStates s1 l0)
        let own := spanLines locs a len.toNat
        let ls := nodups (own ++ own.flatMap (headOf s))
        if locs.length < (pageStarts a len).length then reissuePend (setSlot s1 { t with st := .empty }) wid n
        else if stuck ls then seekHeld s 801 0 0 ls
        else if ls.any gone then fail s 4
        else if !open_ ls then ls.foldl (fun s p => sendRecalls s p.1 p.2 false none) s
        else
          let s2 := readImage s1 locs a 1 (len / 81 - 1).toNat
          match loadTable s2.mem t locs a with
          | .ok t => endPend ((setSlot s2 t).modWarp wid fun w => w.setG gd 0) wid n
          | .error e => fail s2 e)

end Sys2Proof.Machine
end

