-- ==== Sys2Proof/Machine/Preempt.lean ====
section
/-! DEFINITION. Machine/Preempt.lean: pre-emption and the save engine (R272, R285 to R289). -/

namespace Sys2Proof.Machine

open Sys2Proof Tern

/-- A warp that waits only for replies is saved after they are written (R389). -/
def loadsOut (s : State) (wid : Nat) : Bool := s.ops.any fun o => o.wid == wid

/-- A warp may be saved now: no load reply, fence or .SC acceptance outstanding (R209, R383, R389). -/
def savable (s : State) (w : Warp) : Bool :=
  !loadsOut s w.wid && w.fence.isNone && !(s.reqs.any fun r => r.wid == w.wid && r.sc.isSome && r.stage == 0)

/-- A liveness record (R287): dead registers and predicates read 0 after restore; one marked −1 takes the lowest live
lane's value in every lane. -/
def applyRecord (w : Warp) (r : List Int) : Warp :=
  let l0 := ((upto 27).find? fun l => (w.lane l).live).getD 0
  let vm (n : Nat) : Int := trit (wordAt r (n / 27)) (n % 27)
  let v := (upto 27).foldl (fun m l => (upto w.allot).foldl (fun m n =>
    if vm n = 1 then m else sset m (81 * l + n) (if vm n = 0 then 0 else w.vreg l0 n)) m) w.v
  let g := (upto 27).foldl (fun m n => if trit (wordAt r 3) n = 0 then sset m n 0 else m) w.g
  let p := (upto 27).foldl (fun m l => ((upto 8).map fun i => i + 1).foldl (fun m n =>
    if trit (wordAt r 4) n = 1 then m else sset m (9 * l + n) (if trit (wordAt r 4) n = 0 then 0 else w.preg l0 n)) m) w.p
  let q := ((upto 8).map fun i => i + 1).foldl (fun m n => if trit (wordAt r 4) (9 + n) = 0 then sset m n 0 else m) w.q
  { w with v := v, g := g, p := p, q := q }

/-- The scratchpad ranges of a liveness record. -/
def recordRanges (r : List Int) : List (Int × Int) :=
  ([5, 7, 9].filterMap fun i => if wordAt r (i + 1) = 0 then none else some (wordAt r i, 81 * wordAt r (i + 1)))

/-- A liveness record is well formed (R287). -/
def recordOk (g : Option Gang) (allot : Nat) (r : List Int) : Bool :=
  ((upto 81).all fun n => decide (n < allot) || trit (wordAt r (n / 27)) (n % 27) == 0) &&
  ((upto 27).all fun i => inR (trit (wordAt r 3) i) 0 1) && trit (wordAt r 4) 0 == 0 && trit (wordAt r 4) 9 == 0 &&
  ((upto 9).all fun i => inR (trit (wordAt r 4) (9 + i)) 0 1) && field (wordAt r 4) 26 18 == 0 &&
  ([5, 7, 9].all fun i => inR (wordAt r (i + 1)) 0 6561 && wordAt r i % 81 == 0 &&
    (wordAt r (i + 1) == 0 || (match g with | some g => g.holds (wordAt r i) (81 * wordAt r (i + 1)) | none => false))) &&
  ((upto 16).all fun i => wordAt r (11 + i) == 0)

/-- A pending operation of a warp that is saved at its word: what it began is undone, and the word issues again after the
restore (R193, R288). The others are waits in progress, which are saved and go on (R288, R386). -/
def PendOp.atWord : PendOp → Bool
  | .send _ _ _ _ | .recv _ _ _ _ _ _ | .save _ => true
  | _ => false

/-- A wait on one of the listed pending operations. -/
def onPend (ns : List Nat) (x : Wait) : Bool := match x.kind with | .pend n => ns.contains n | _ => false
/-- A wait for a touched line. -/
def onTouch (x : Wait) : Bool := match x.kind with | .touch _ => true | _ => false

/-- The lanes of waits that satisfy a test go back to their words, ready; a handler goes back to its word. -/
def Warp.reissue (w : Warp) (p : Wait → Bool) : Warp :=
  let words := (upto 27).filterMap fun l => match (w.lane l).hwait with | some y => if p y then some y.word else none | none => none
  let w1 := w.allLanes fun _ x => { x with pc := match x.wait with | some y => if p y then y.word else x.pc | none => x.pc }
  { w1.wake p with hpc := match words with | a :: _ => a | [] => w.hpc }

/-- Undo the operations that are saved at their words. A PREH stays passed (R286). -/
def undoPends (s : State) (w : Warp) : State :=
  let ps : List Pend := w.pends.filter fun p => p.op.atWord
  let back := (ps.filter fun p => match p.op with | .save _ => false | _ => true).map fun p => p.n
  let s1 := match w.gid with | some gid => ps.foldl (fun (s : State) (p : Pend) => unmarkRecv s gid p.op) s | none => s
  s1.modWarp w.wid fun w =>
    { (w.reissue (onPend back)).wake (onPend (ps.map fun (p : Pend) => p.n)) with pends := w.pends.filter fun p => !p.op.atWord }

/-- Save one warp: in full, or by a record (R288). -/
def saveWarp (s : State) (wid : Nat) (rc : Option (List Int)) : State :=
  match s.warp? wid with
  | none => s
  | some w =>
    let restrict (w : Warp) : Warp := match rc with | some r => applyRecord w r | none => w
    let mark (g : Gang) : Gang := match rc with
      | some r => { g with ranges := g.ranges ++ recordRanges r }
      | none => { g with full := true }
    let s1 := (undoPends s w).modWarp wid fun w => { restrict w with place := .saved, deadline := none, park := none, hold := none, blocked := none }
    match w.gid with
    | none => s1.modContext w.ctx fun c => { c with seqReady := w.hasLanes, woken := false }
    | some g => s1.modGang g mark

/-- The spill lines in use by a warp: those of depths above 9 (R288). -/
def spillRanges (w : Warp) : List (Int × Int) :=
  let d := (upto 27).foldl (fun m l => max m (max (w.lane l).depth (if w.handler then (w.lane l).tDepth else 0))) 0
  if d < 10 then [] else [(w.spill, 81 * ((d : Int) - 9))]

/-- What of the scratchpad a saved gang keeps (R288). -/
def keptRanges (s : State) (g : Gang) : List (Int × Int) :=
  if g.full then [(0, g.trytes)]
  else g.ranges ++ ((s.warps.filter fun w => w.gid == some g.gid).flatMap spillRanges) ++ (g.wins.filterMap fun o => o.map fun w => (w.bar, 9))

/-- Tryte a lies in one of the ranges. -/
def inRanges (rs : List (Int × Int)) (a : Int) : Bool := rs.any fun q => decide (q.1 ≤ a ∧ a < q.1 + q.2)

/-- Stream bindings with lines not yet received are cancelled (R288); a STREAM task that lacks lines goes back to the queue. -/
def stopStreams (s : State) (gid : Nat) : State :=
  let s1 := (gangBinds s gid).foldl (fun s p => cancelBinding s p.1 p.2) s
  let back (t : Task) : Task := if t.lacksLines then { t with st := .queued, got := [], sent := 0 } else t
  s1.modGang gid fun g => { g with tasks := g.tasks.map back }

/-- The lines of a gang that a save finds uncorrectable (R158, R163). -/
def savedBad (g : Gang) : List Nat :=
  if g.badRows.isEmpty then g.bad
  else nodups (g.bad ++ (upto (g.alines * g.cores.length)).filter fun (l : Nat) => g.rowsBad (81 * (l : Int)) 81)

/-- Every warp of a gang is saved, and nothing of it runs: the gang is saved and its cores are free (R288). -/
def saveGang (s : State) (gid : Nat) : State :=
  match s.gang? gid with
  | none => s
  | some g =>
    let ws := s.warps.filter fun w => w.gid == some gid
    let open_ (w : Warp) : Bool := w.pends.any fun p => match p.op with | .winrel _ _ _ _ | .flush _ _ _ => true | _ => false
    if g.saved || g.killed || ws.isEmpty || !(ws.all (fun w => w.place == .saved)) then s
    else
      let s0 := stopStreams s gid
      if gangBusy s0 gid || ws.any open_ then s0
      else
        let dirty := (upto g.wins.length).flatMap fun k => match g.win? k with
          | some w => (w.lines.filter fun x => x.st == .dirty).map fun x => (k, x.j)
          | none => []
        let s1 := dirty.foldl (fun s p => writeBackLine s gid p.1 p.2 0) s0
        let logs := (s1.cores.flatMap fun c => c.watch.filter fun u => u.gid == some gid && u.scope != 1)
        let s3 := logs.foldl (fun s u => s.note (some g.ctx) .watchCleared ((u.unit : Int) :: u.words)) s1
        let s4 := disownTasks (clearWatch s3 fun u => u.gid == some gid && u.scope != 1) fun g _ => g == gid
        let kept := keptRanges s g
        s4.modGang gid fun g => { g with
          saved := true, cores := if g.cores.length = 1 then [900] else [900, 901],
          slots := g.slots.map (fun x => { x with core := x.core.map fun c => if g.cores.head? = some c then 900 else 901 }),
          wins := g.wins.map (fun o => o.map fun w => { w with lines := [] }),
          scratch := g.scratch.filter fun p => inRanges kept p.1,
          stags := g.stags.filter fun p => inRanges kept (81 * (p.1 : Int)),
          bad := (savedBad g).filter (fun l => inRanges kept (81 * (l : Int))),
          badRows := [], releases := [] }

/-- A pending warp has no ready lane and waits, is parked, or is stopped at a PREH: it is saved there (R285). A warp whose
live lanes are all halted, or that runs its handler, is saved at its deadline. -/
def atWait (w : Warp) : Bool :=
  if w.handler then (w.park.isSome || !(w.where_ fun x => x.hwait.isSome).isEmpty) && !(w.where_ fun x => x.live && x.halted.isNone).isEmpty
  else w.park.isSome || (w.readyLanes.isEmpty && !(w.where_ fun x => x.live && x.halted.isNone).isEmpty)

/-- The record of a PREH that the warp has stopped at (R286). -/
def preHeld (w : Warp) : Option (Option (List Int)) :=
  w.pends.findSome? fun p => match p.op with | .save r => some r | _ => none

/-- Save the gangs whose warps are all saved. -/
def saveGangs (s : State) : State := s.gangs.foldl (fun s g => s.orStay (saveGang s g.gid)) s

/-- Save the pending warps that stand at a wait or at a PREH, then the gangs whose warps are all saved. -/
def saveWaiting (s : State) : State :=
  let s1 := s.warps.foldl (fun s w =>
    if w.deadline.isNone || w.place == .saved || !savable s w then s
    else match preHeld w with
      | some r => saveWarp s w.wid r
      | none => if atWait w then saveWarp s w.wid none else s) s
  saveGangs s1

/-- Send a pre-emption request for a paddock's running context (R272, R285). Gangs held before their start are released
unplaced. -/
def preemptContext (s : State) (pad : Nat) : State :=
  match (s.paddock pad).running with
  | none => s
  | some ctx =>
    let held := s.gangs.filter fun g => g.ctx == ctx && g.held && !g.saved
    let s1 := held.foldl (fun s g =>
      let s1 := dropWarps s fun w => w.gid == some g.gid
      let s2 := { s1 with gangs := s1.gangs.filter fun x => x.gid != g.gid }
      s2.modLaunch g.lid fun x => { x with
        again := x.again ++ [⟨g.x, g.y, g.z, g.relaunches, none, none⟩],
        table := x.table.filter fun e => !(e.1 == g.x && e.2.1 == g.y && e.2.2.1 == g.z) }) s
    let wids := (s1.warps.filter fun w => w.ctx == ctx && w.place != .saved).map fun w => w.wid
    let s2 : State := { s1 with preempts := s1.preempts ++ [⟨s.now + 81, pad, wids, wordAt (s.descOf ctx) 9⟩] }
    s2.modPaddock pad fun d => { d with pausing := true }

end Sys2Proof.Machine
end

