-- ==== Sys2Proof/Machine/DebugOps.lean ====
section
/-! DEFINITION. Machine/DebugOps.lean: the operations of the halted-state words and of the debug window (R301 to R311, R384
to R386). -/

namespace Sys2Proof.Machine

open Sys2Proof Tern

/-! ### Warp addresses and status words (R301) -/

def addrCore (b : Int) : Int := field b 26 18
def addrHandle (b : Int) : Int := field b 17 9
def addrLane (b : Int) : Int := field b 8 0

/-- A core that exists. -/
def coreInRange (b : Int) : Bool := inR (addrCore b) 0 767
/-- It is fenced. -/
def coreFenced (s : State) (b : Int) : Bool := s.pkg.deadCores.contains (addrCore b).toNat
/-- The warp that an address names: one that runs on the core, at the handle; a saved one is not found (R385). -/
def warpAt (s : State) (b : Int) : Option Warp :=
  if !coreInRange b || !inR (addrHandle b) 0 143 then none
  else s.warps.find? fun w =>
    w.place == .slot (addrCore b).toNat ((addrHandle b).toNat / 9) ((addrHandle b).toNat % 9)

/-! ### Watch records (R295) -/

/-- The charges of an address record (R295). -/
def addressCharges (pair : Bool) (w0 a : Int) : List Charge :=
  let b := [trit w0 9, trit w0 8, trit w0 7]
  let top : Int := if pair then 1062881 else 531440
  [(0, b.any (fun x => x == -1) || !(b.any fun x => x == 1) || !inR (trit w0 6) 0 1 || !inR (field w0 5 2) 0 21 || field w0 1 0 != 0),
   (1, trit w0 6 == 0 && !canonicalAddr a), (1, trit w0 6 == 1 && !inR a 0 top)]

/-- The charges of a value record. -/
def valueCharges (w0 w1 w2 : Int) : List Charge :=
  let flt := trit w0 9 == 1
  [(0, !inR (trit w0 9) 0 1 || (senseOfWatch (field w0 8 7)).isNone || !inR (trit w0 6) 0 1 || (!flt && trit w0 6 != 0) || field w0 5 0 != 0),
   (1, flt && trit w0 6 == 1 && field w1 26 9 != 0), (2, flt && w2 != 0)]

/-- The charges of a flag record. -/
def flagCharges (w0 w1 w2 : Int) : List Charge :=
  let m := (upto 7).map fun i => trit w1 i
  [(0, field w0 9 0 != 0), (1, m.any (fun x => x == -1) || !(m.any fun x => x == 1) || field w1 26 7 != 0), (2, w2 != 0)]

/-- The first offending word of a watch record (R303); none when it is valid. -/
def watchBad (pair : Bool) (r : List Int) : Option Nat :=
  let w0 := wordAt r 0
  let c := field w0 26 24
  let common : List Charge := [(0, !inR c 1 4 || !inR (field w0 23 21) 0 5 || !inR (field w0 20 19) 1 4 || !inR (field w0 18 10) 1 9841)]
  if c = 0 then lowestCharge [(0, field w0 9 0 != 0), (1, wordAt r 1 != 0), (2, wordAt r 2 != 0)]
  else if c = 1 then lowestCharge (common ++ addressCharges pair w0 (dblAt r 1))
  else if c = 2 then lowestCharge (common ++ valueCharges w0 (wordAt r 1) (wordAt r 2))
  else if c = 3 then lowestCharge (common ++ flagCharges w0 (wordAt r 1) (wordAt r 2))
  else lowestCharge (common ++ [(0, field w0 9 0 != 0)])

/-! ### What an operation finds -/

/-- The outcome of an operation: its status and results; or it waits; or it begins a step of a lane. -/
inductive DbgOut
  | done (s : State) (ws : List Int)
  | wait
  | step (wid lane : Nat)

/-- The cores of the issuer and of a target warp. -/
def bothCores (s : State) (issuer : Option Nat) (wid : Nat) : List Nat :=
  (s.warps.filter fun w => w.wid == wid || some w.wid == issuer).map fun w => w.coreNo
/-- What was sent before the operation named n, and is not over, is a package release's and an acquire's of some cores (R199, R200, R301): the global
writes of every warp there, and the loads of the issuer. -/
def released (s : State) (n : Nat) (issuer : Option Nat) (cores : List Nat) : Bool :=
  !(s.reqs.any fun r => decide (r.id < n) && (cores.contains r.src || some r.wid == issuer) && r.pkg == s.pkg.number && r.body.writes) &&
  !(s.ops.any fun o => decide (o.id < n) && some o.wid == issuer)
/-- A store of a window line that waits for its ownership (R427). -/
def ReqBody.ownStore : ReqBody → Bool | .own _ _ _ us => !us.isEmpty | _ => false
/-- The words that the target issued before have completed, its loads, window stores and fences among them, and both sides release and acquire
(R301). -/
def quiet (s : State) (n : Nat) (issuer : Option Nat) (wid : Nat) : Bool :=
  !(s.ops.any fun o => decide (o.id < n) && o.wid == wid) && !(s.reqs.any fun r => decide (r.id < n) && r.wid == wid && (r.body.writes || r.body.ownStore)) &&
  (match s.warp? wid with | some w => w.fence.isNone | none => true) && released s n issuer (bothCores s issuer wid)

/-- An earlier operation on the same warp has not ended (R301, R310). -/
def opsBefore (s : State) (n wid : Nat) : Bool :=
  let f (p : Pend) : Bool := decide (p.n < n) && match p.op with
    | .hstep x _ _ _ _ => x == wid
    | .dbg _ b _ _ => (match warpAt s b with | some w => w.wid == wid | none => false)
    | _ => false
  (s.warps.any fun w => w.pends.any f) || s.pkg.dwin.any f
/-- An earlier operation on the same unit of a core has not ended: they are applied in order of arrival (R310). -/
def unitBefore (s : State) (n : Nat) (b : Int) (u : Nat) : Bool :=
  let f (p : Pend) : Bool := decide (p.n < n) && match p.op with
    | .dbg (.wset _ _ v) c _ _ | .dbg (.wclr v) c _ _ => u == v && addrCore c == addrCore b
    | _ => false
  (s.warps.any fun w => w.pends.any f) || s.pkg.dwin.any f

/-- Drop both sides' L1 copies: the operation acquires (R301). -/
def dropL1s (s : State) (issuer : Option Nat) (wid : Nat) : State :=
  let cs := bothCores s issuer wid
  { s with cores := s.cores.map fun c => if cs.contains c.n then { c with l1 := [] } else c }

/-- The same toward a core whose unit is named (R301). -/
def quietCore (s : State) (n : Nat) (issuer : Option Nat) (core : Nat) : Bool :=
  released s n issuer (core :: (s.warps.filter fun w => some w.wid == issuer).map fun w => w.coreNo)

/-- Drop the L1 copies of the issuer's core and of a target core (R301). -/
def dropCoreL1s (s : State) (issuer : Option Nat) (core : Nat) : State :=
  let cs := core :: (s.warps.filter fun w => some w.wid == issuer).map fun w => w.coreNo
  { s with cores := s.cores.map fun c => if cs.contains c.n then { c with l1 := [] } else c }

/-- The live lane that an address names. -/
def liveLane (w : Warp) (b : Int) : Option Nat :=
  if inR (addrLane b) 0 26 && (w.lane (addrLane b).toNat).live then some (addrLane b).toNat else none
/-- Every live lane of a warp is halted (R305). -/
def Warp.allHalted (w : Warp) : Bool := (w.where_ fun x => x.live && x.halted.isNone).isEmpty

/-- Write a status with zeros for k results. -/
def refuse (s : State) (outcome : Int) (k : Nat) : DbgOut := .done s (dbgStatus outcome 0 0 :: List.replicate k 0)

/-! ### Units (R303) -/

/-- WSET (R303). -/
def dbgWset (s : State) (n : Nat) (iss : Option Nat) (b : Int) (r : List Int) (mask : Int) (u : Nat) : DbgOut :=
  match warpAt s b with
  | none => refuse s (-1) 0
  | some w =>
    if coreFenced s b then refuse s (-3) 0
    else
      let g := w.gid.bind s.gang?
      if opsBefore s n w.wid || unitBefore s n b u || !quiet s n iss w.wid then .wait
      else match watchBad (match g with | some g => g.cores.length == 2 | none => false) r with
      | some i => .done s [dbgStatus (-6) i 0]
      | none =>
        let x : Watch := ⟨u, r, if field (wordAt r 0) 20 19 = 4 then mask else 0, w.wid, w.gid, g.map fun g => g.lid, 0, s.now⟩
        .done ((dropL1s s iss w.wid).modCore (addrCore b).toNat fun c =>
          let rest := c.watch.filter fun y => y.unit != u
          { c with watch := if field (wordAt r 0) 26 24 = 0 then rest else insertBy (fun a b => decide (a.unit < b.unit)) x rest }) [0]

/-- WCLR. -/
def dbgWclr (s : State) (n : Nat) (iss : Option Nat) (b : Int) (u : Nat) : DbgOut :=
  if !coreInRange b then refuse s (-1) 0
  else if coreFenced s b then refuse s (-3) 0
  else if unitBefore s n b u || !quietCore s n iss (addrCore b).toNat then .wait
  else .done ((dropCoreL1s s iss (addrCore b).toNat).modCore (addrCore b).toNat fun c => { c with watch := c.watch.filter fun y => y.unit != u }) [0]

/-- WRD; a unit that is off reads as zeros. -/
def dbgWrd (s : State) (n : Nat) (iss : Option Nat) (b : Int) (u : Nat) : DbgOut :=
  if !coreInRange b then refuse s (-1) 5
  else if coreFenced s b then refuse s (-3) 5
  else if unitBefore s n b u || !quietCore s n iss (addrCore b).toNat then .wait
  else
    let s1 := dropCoreL1s s iss (addrCore b).toNat
    match (s.core (addrCore b).toNat).watch.find? fun y => y.unit == u with
    | some y => .done s1 [0, wordAt y.words 0, wordAt y.words 1, wordAt y.words 2, y.mask, y.count]
    | none => refuse s1 0 5

/-! ### HLST (R304) -/

/-- The halted live lanes that HLST lists; in handler mode only after a double trap (R385). -/
def listedHalts (w : Warp) : List Nat :=
  if w.handler && w.dbl.isNone then [] else w.where_ fun x => x.live && x.halted.isSome

/-- The first warp with a halted lane, from a core and handle on. -/
def firstHalted (s : State) (core handle : Int) : Option Warp :=
  let key (w : Warp) : List Int := match w.place with | .slot c b k => [c, 9 * b + k] | _ => []
  let ws := s.warps.filter fun w => !(key w).isEmpty && !keyLt (key w) [core, handle] && !(listedHalts w).isEmpty
  (sortBy (fun a b => keyLt (key a) (key b)) ws).head?

def dbgHlst (s : State) (n : Nat) (iss : Option Nat) (b : Int) : DbgOut :=
  if !coreInRange b then refuse s (-1) 3
  else match firstHalted s (addrCore b) (addrHandle b) with
    | none => refuse s (-1) 3
    | some w =>
      if !quiet s n iss w.wid || opsBefore s n w.wid then .wait
      else
        let ls := listedHalts w
        let l0 := ls.headD 0
        let h : Halt := match w.dbl, (w.lane l0).halted with | some h, _ => h | none, some h => h | none, none => ⟨0, 0, 0⟩
        .done (dropL1s s iss w.wid) [0, w.address l0, maskOf ls, h.word]

/-! ### Items (R305, R306) -/

/-- The target of a lane operation: its warp and lane, or the status; none to wait. -/
inductive Target1
  | bad (outcome : Int)
  | wait
  | lane (w : Warp) (l : Nat)
  | warp (w : Warp)

/-- Resolve a target (R301, R305, R385): whole asks for every live lane halted, else the named lane, which must be live before it is asked whether it is
halted (log entry 138). -/
def dbgTarget (s : State) (n : Nat) (iss : Option Nat) (b : Int) (whole : Bool) : Target1 :=
  if !coreInRange b then .bad (-1)
  else if coreFenced s b then .bad (-3)
  else match warpAt s b with
    | none => .bad (-1)
    | some w =>
      if opsBefore s n w.wid || !quiet s n iss w.wid then .wait
      else if whole then
        if some w.wid = iss || !w.allHalted then .bad (-2) else .warp w
      else match liveLane w b with
        | none => .bad (-1)
        | some l => if some w.wid = iss || (w.lane l).halted.isNone then .bad (-2) else .lane w l

/-- A lane item's value; none out of range (R305). -/
def laneItem (w : Warp) (l item : Nat) : Option Int :=
  let x := w.lane l
  if item ≤ 80 then (if item < w.allot then some (w.vreg l item) else none)
  else if item < 200 then some (w.preg l (item - 100))
  else if item < 300 then some (lowWord (if item = 200 then x.x1 else if item = 201 then x.x2 else x.x3).val)
  else some x.flags

/-- Write a lane item. -/
def setLaneItem (w : Warp) (l item : Nat) (v : Int) : Option Warp :=
  if item ≤ 80 then (if item < w.allot then some (w.setV l item v) else none)
  else if item < 200 then (if item = 100 || !inR v (-1) 1 then none else some (w.setP l (item - 100) v))
  else if item < 300 then some (w.modLane l fun x =>
    if item = 200 then { x with x1 := Latch.fit ⟨v, false⟩ } else if item = 201 then { x with x2 := Latch.fit ⟨v, false⟩ }
      else { x with x3 := Latch.fit ⟨v, false⟩ })
  else some (w.modLane l fun x => { x with flags := flagsStored v })

/-- A warp item's value. -/
def warpItem (w : Warp) (item : Nat) : Int := if item < 500 then w.greg (item - 400) else w.qreg (item - 500)
/-- Write a warp item. -/
def setWarpItem (w : Warp) (item : Nat) (v : Int) : Option Warp :=
  if item < 500 then some (w.setG (item - 400) v)
  else if item = 500 || !inR v (-1) 1 then none else some (w.setQ (item - 500) v)

def dbgHrdv (s : State) (n : Nat) (iss : Option Nat) (b : Int) (item : Nat) : DbgOut :=
  match dbgTarget s n iss b (400 ≤ item) with
  | .bad o => refuse s o 1
  | .wait => .wait
  | .warp w => .done (dropL1s s iss w.wid) [0, warpItem w item]
  | .lane w l => match laneItem w l item with
    | some v => .done (dropL1s s iss w.wid) [0, v]
    | none => refuse s (-4) 1

def dbgHwrv (s : State) (n : Nat) (iss : Option Nat) (b v : Int) (item : Nat) : DbgOut :=
  let put (w : Warp) (o : Option Warp) : DbgOut := match o with
    | some x => .done ((dropL1s s iss w.wid).modWarp w.wid fun _ => x) [0]
    | none => refuse s (-4) 0
  match dbgTarget s n iss b (400 ≤ item) with
  | .bad o => refuse s o 0
  | .wait => .wait
  | .warp w => put w (setWarpItem w item v)
  | .lane w l => put w (setLaneItem w l item v)

/-- Where the link entry of a depth stands: in the link stack, in a spill line, or nowhere (R306). -/
inductive LinkAt
  | stack
  | spill (g : Gang) (a : Int)
  | none

/-- A spill line that HRDP and HWRP may use: line-aligned and inside the allotment. One that lies inside a bound window is used: DESIGN
CHOICE, R306's own list of refusals does not name it, though R79 lets no spill line lie there (log entry 105). -/
def linkSpill (s : State) (w : Warp) (e : Nat) : LinkAt :=
  match w.gid.bind s.gang? with
  | some g => if (w.spillLine (e - 1)) % 81 == 0 && g.holds (w.spillLine (e - 1)) 81 then .spill g (w.spillLine (e - 1)) else .none
  | none => .none

def linkAt (s : State) (w : Warp) (l e : Nat) (write : Bool) : LinkAt :=
  let x := w.lane l
  if x.depth < e then .none
  else if e + 9 ≤ x.depth then linkSpill s w e
  else if write || (x.entry e).isSome then .stack
  else linkSpill s w e

def dbgHrdp (s : State) (n : Nat) (iss : Option Nat) (b : Int) (item : HItem) : DbgOut :=
  match dbgTarget s n iss b false with
  | .bad o => refuse s o 2
  | .wait | .warp _ => .wait
  | .lane w l =>
    let x := w.lane l
    let out (v : Int) : DbgOut := .done (dropL1s s iss w.wid) [0, lowWord v, highWord v]
    match item with
    | .pc => out x.pc
    | .depth => .done (dropL1s s iss w.wid) [0, x.depth, 0]
    | .link e => match linkAt s w l e false with
      | .stack => out ((x.entry e).getD 0)
      | .spill g a => out (spillRead g a l)
      | .none => refuse s (-4) 2

/-- Put an entry of depth e, at most 8 below the depth, into a lane's link stack. -/
def Lane.setEntry (x : Lane) (e : Nat) (v : Int) : Lane :=
  let i := x.depth - e
  { x with link := (x.link ++ List.replicate (i + 1 - x.link.length) none).set i (some v) }

def dbgHwrp (s : State) (n : Nat) (iss : Option Nat) (b lo hi : Int) (item : HItem) : DbgOut :=
  match dbgTarget s n iss b false with
  | .bad o => refuse s o 0
  | .wait | .warp _ => .wait
  | .lane w l =>
    let s1 := dropL1s s iss w.wid
    let put (s : State) (f : Lane → Lane) : DbgOut := .done (s.modWarp w.wid fun w => w.modLane l fun x => (f x).chainEnd) [0]
    match item with
    | .pc => put s1 fun x => { x with pc := double lo hi }
    | .depth => if inR lo 0 9841 then put s1 fun x => { x with depth := lo.toNat, link := x.link.take (min 9 lo.toNat) } else refuse s (-4) 0
    | .link e => match linkAt s w l e true with
      | .stack => put s1 fun x => x.setEntry e (double lo hi)
      | .spill g a => put (s1.modGang g.gid (spillStore l a (double lo hi))) id
      | .none => refuse s (-4) 0

/-! ### HSTEP, HRES and the window's halt (R307, R308, R311) -/

def dbgHstep (s : State) (n : Nat) (iss : Option Nat) (b : Int) : DbgOut :=
  match dbgTarget s n iss b false with
  | .bad o => refuse s o 2
  | .wait | .warp _ => .wait
  | .lane w l =>
    if w.handler then refuse s (-5) 2
    else if (w.lane l).wait.isSome then refuse s 1 2
    else .step w.wid l

/-- Resume the live lanes of a warp; in handler mode, the handler (R308, R280). -/
def Warp.unhalt (w : Warp) : Warp :=
  { w.allLanes (fun _ x => if x.halted.isSome && (x.live || w.handler) then { x with halted := none, skip := true } else x) with dbl := none }
/-- A live lane of the warp is halted. -/
def Warp.hasHalt (w : Warp) : Bool := !(w.where_ fun x => x.halted.isSome && x.live).isEmpty

/-- HRES (R308), issued at cycle t. It ends halts and nothing else: no lane becomes live or ceases to be: DESIGN CHOICE, R69 and R70 name
HRES among what can do so, R308 gives it no such effect (log entry 106). -/
def dbgHres (s : State) (n : Nat) (iss : Option Nat) (b scope t : Int) : DbgOut :=
  if !coreInRange b then refuse s (-1) 0
  else if coreFenced s b then refuse s (-3) 0
  else match warpAt s b with
    | none => refuse s (-1) 0
    | some w =>
      if opsBefore s n w.wid || !quiet s n iss w.wid then .wait
      else if scope = -1 then
        match liveLane w b with
        | none => refuse s (-1) 0
        | some l =>
          if w.handler then refuse s (-5) 0
          else if (w.lane l).halted.isNone then refuse s (-2) 0
          else .done ((dropL1s s iss w.wid).modWarp w.wid fun w => w.modLane l fun x => { x with halted := none, skip := true }) [0]
      else
        let lid := (w.gid.bind s.gang?).map fun g => g.lid
        let mine (x : Warp) : Bool :=
          if scope = 0 then x.wid == w.wid
          else if scope = 1 then x.gid == w.gid
          else (x.gid.bind s.gang?).map (fun g => g.lid) == lid
        if !(s.warps.any fun x => mine x && x.hasHalt) then refuse s (-2) 0
        else if scope = 1 && (s.warps.any fun x => mine x && x.hasHalt && (opsBefore s n x.wid || !quiet s n iss x.wid)) then .wait
        else
          let s1 := dropL1s s iss w.wid
          if scope = 2 then
            match lid with
            | some l => .done (s1.modLaunch l fun x => x.signal ⟨t + 81, none, none⟩) [0]
            | none => refuse s (-2) 0
          else .done { s1 with warps := s1.warps.map fun x => if mine x then x.unhalt else x } [0]

/-- The halt of the debug window: reason +5 (R311). -/
def dbgHalt (s : State) (b scope : Int) : DbgOut :=
  if !coreInRange b then refuse s (-1) 0
  else if coreFenced s b then refuse s (-3) 0
  else match warpAt s b with
    | none => refuse s (-1) 0
    | some w =>
      let h : Halt := ⟨5, 0, 0⟩
      if scope = -1 then (match liveLane w b with
        | none => refuse s (-1) 0
        | some l => .done (haltBy s w.wid 2 [l] h) [0])
      else .done (haltBy s w.wid (scope + 3) (upto 27) h) [0]

/-! ### Running an operation -/

/-- Try an operation named n, of a warp or of the debug window, issued at cycle t. -/
def dbgTry (s : State) (n : Nat) (iss : Option Nat) (r : DbgOp) (b t : Int) : DbgOut :=
  match r with
  | .wset ws m u => dbgWset s n iss b ws m u
  | .wclr u => dbgWclr s n iss b u
  | .wrd u => dbgWrd s n iss b u
  | .hlst => dbgHlst s n iss b
  | .hrdv i => dbgHrdv s n iss b i
  | .hwrv v i => dbgHwrv s n iss b v i
  | .hrdp i => dbgHrdp s n iss b i
  | .hwrp lo hi i => dbgHwrp s n iss b lo hi i
  | .hstep => dbgHstep s n iss b
  | .hres c => dbgHres s n iss b c t
  | .halt c => dbgHalt s b c

/-- The operation named n has ended: its words go to Gd onward, or to the window's words 9 onward (R301, R311). -/
def dbgEnd (s : State) (iss : Option Nat) (n gd : Nat) (ws : List Int) : State :=
  match iss with
  | some wid => endPend (s.modWarp wid fun w => (List.zip (upto ws.length) ws).foldl (fun w p => w.setG (gd + p.1) p.2) w) wid n
  | none => s.modPkg fun k =>
    { k with dwin := k.dwin.filter fun p => p.n != n,
             window := ((List.zip (upto ws.length) ws).foldl (fun l p => l.set (9 + p.1) p.2) k.window).set 8 0 }

/-- Change an operation in progress. -/
def dbgSet (s : State) (iss : Option Nat) (n : Nat) (op : PendOp) : State :=
  match iss with
  | some wid => setPend s wid n op
  | none => s.modPkg fun k => { k with dwin := k.dwin.map fun p => if p.n = n then { p with op := op } else p }

/-- Issue the word of a lane that a debugger steps: its yielded trit is cleared, the step issues it next (R307, R385). -/
def stepLane (s : State) (iss : Option Nat) (n wid l : Nat) : State :=
  match s.warp? wid with
  | none => s
  | some w =>
    let s1 := s.modWarp wid fun w => w.modLane l fun x => { x with yielded := none }
    { s1 with forced := some ⟨wid, (w.lane l).pc, [l], 0, false, some (iss.getD 0, n)⟩ }

/-- One operation moves on: it ends, waits, or begins its step. -/
def dbgRun (s : State) (iss : Option Nat) (n : Nat) (r : DbgOp) (b : Int) (gd : Nat) (t : Int) : State :=
  match dbgTry s n iss r b t with
  | .done s1 ws => dbgEnd s1 iss n gd ws
  | .wait => s
  | .step wid l => if s.forced.isSome then s else stepLane (dropL1s (dbgSet s iss n (.hstep wid l gd none [])) iss wid) iss n wid l

/-- A lane of the warp is being stepped (R307, R310). -/
def stepped (s : State) (wid : Nat) : Bool :=
  let f (p : Pend) : Bool := match p.op with | .hstep x _ _ _ _ => x == wid | _ => false
  (s.warps.any fun w => w.pends.any f) || s.pkg.dwin.any f
/-- A warp's own debug operation is open: its results are in its saved registers before it is restored (R386). -/
def Warp.debugging (w : Warp) : Bool := w.pends.any fun p => match p.op with | .hstep _ _ _ _ _ | .dbg _ _ _ _ => true | _ => false

/-- A step in progress (R307): it ends when its outcome is known, its stores are performed and its loads have returned; a word
that has not issued yet is issued again. -/
def hstepRun (s : State) (iss : Option Nat) (n wid l gd : Nat) (done : Option (Int × Int × Int × Int)) (ws : List Nat) : State :=
  match s.warp? wid with
  | none => dbgEnd s iss n gd [dbgStatus (-1) 0 0, 0, 0]
  | some w =>
    match done with
    | some (o, code, info, addr) =>
      if ws.any fun i => (s.req? i).isSome || (s.op? i).isSome then s
      else
        let st := if o = 0 ∧ ((w.lane l).wait.isSome) then 1 else o
        dbgEnd (dropL1s s iss wid) iss n gd [dbgStatus st code info, lowWord addr, highWord addr]
    | none =>
      if s.forced.isSome || s.cur.isSome || w.blocked.isSome then s
      else if w.place == .saved then dbgEnd s iss n gd [dbgStatus (-1) 0 0, 0, 0]
      else stepLane s iss n wid l

end Sys2Proof.Machine
end

