-- ==== Sys2Proof/Machine/System.lean ====
section
/-! DEFINITION. Machine/System.lean: LNCH and the commands (R257 to R266, R398), ROLE, PREH, TRAP, RFT, BRK and the
halted-state words (R93, R281, R282, R286, R301 to R309, R411, R416). -/

namespace Sys2Proof.Machine

open Sys2Proof Tern

/-! ### Launch records (R262, R263) -/

/-- The charges of a launch record (R262, R458). An address that is not canonical fails its translation (R146, R263 step 5). -/
def launchCharges (s : State) (ctx : Nat) (r : List Int) : List Charge :=
  let tab := dblAt r 14
  let cb := dblAt r 22
  let cw := dblAt r 24
  let c := recCounts r
  let f := wordAt r 16
  [(0, field (wordAt r 0) 23 0 != 0), (4, decide (recLimit r ≤ recEntry r)), (5, !inR (wordAt r 5) 0 26),
   (8, !inR c.1 1 9841 || !inR c.2.1 1 9841 || !inR c.2.2 1 9841), (9, !inR (wordAt r 9) 1 288),
   (10, !inR (wordAt r 10) 9 81 || wordAt r 10 % 9 != 0), (11, !inR (wordAt r 11) 0 (6561 - wordAt (s.descOf ctx) 4)),
   (12, !inR (field (wordAt r 12) 26 18) 0 27 || !inR (field (wordAt r 12) 17 9) 0 27 || !inR (field (wordAt r 12) 8 0) 0 32),
   (13, !inR (wordAt r 13) 0 72), (14, inR (wordAt r 13) 1 72 && tab % 81 != 0),
   (15, wordAt r 13 == 0 && tab != 0),
   (16, !inR (field f 8 0) (-4) 4 || !inR (trit f 26) 0 1 || !inR (trit f 25) 0 1 || !inR (trit f 24) 0 1 || !inR (trit f 23) 0 1 || field f 22 9 != 0),
   (22, cb != 0 && cb % 9 != 0), (24, cw % 3 != 0), (26, wordAt r 26 != 0)]

/-- How a launch record ends its checks: accepted with its channel descriptors, or refused with a detail and a trap. -/
inductive LaunchChk
  | ok (descs : List Int)
  | refused (detail : Int) (cause info addr : Int)
  deriving DecidableEq, Repr

/-- The word at a place, read at its home. -/
def wordNow (s : State) (l : Loc) : Int :=
  match s.mem.lineAt l with
  | .data d _ => unitOf d l.offset.toNat 3
  | _ => s.mem.rawAt l 3

/-- The channel table: the first failing line with its detail, or the descriptors (R263 steps 2 and 5). A line that is poisoned or
uncorrectable fails as check 11 (log entry 109). -/
def chanTable (s : State) (core ctx : Nat) (sup : Bool) (tab : Int) (h : Nat) : State × Except (Int × Int) (List Int) :=
  let r := checkAddrs s core ctx sup Need.read true ((upto ((h + 26) / 27)).map fun (i : Nat) => tab + 81 * (i : Int))
  match firstBad r.2 with
  | some (a, .fail d) => (r.1, .error (d, a))
  | some (a, _) => (r.1, .error (11, a))
  | none =>
    let locs := r.2.map fun p => match p.2 with | .ok l => l | _ => Loc.dom 0 0
    let s1 := locs.foldl readBefore r.1
    match (List.zip r.2 locs).find? fun q => s1.mem.lineAt q.2 == .bad with
    | some q => (s1, .error (11, q.1.1))
    | none => (s1, .ok ((upto h).map fun k => wordNow s1 ((locs.getD (k / 27) (.dom 0 0)).plus (3 * ((k % 27 : Nat) : Int)))))

/-- A translation for writing by checks 1 to 7 and 9 (R263). -/
def writeChk (s : State) (core ctx : Nat) (sup atomic : Bool) (a : Int) : State × Option Int :=
  let r := checkAddr s core ctx sup ⟨false, true, false, atomic⟩ false a
  match r.2 with
  | .fail d => (r.1, some d)
  | _ => (r.1, none)

/-- The refusal of a failed translation. -/
def LaunchChk.trans (d a : Int) : LaunchChk := .refused (300 + d) cause.trans d a

/-- The checks of a launch record in the order of R263. -/
def checkLaunch (s : State) (core ctx : Nat) (sup : Bool) (r : List Int) : State × LaunchChk :=
  match lowestCharge (launchCharges s ctx r) with
  | some i => (s, .refused i cause.illegal i 0)
  | none =>
    let h := (wordAt r 13).toNat
    let t := if h = 0 then (s, .ok []) else chanTable s core ctx sup (dblAt r 14) h
    let total : Int := recGangs r * recWarps r
    let badDesc : Option Nat := match t.2 with
      | .ok ds => (upto h).find? fun k => !chanDescOk (wordAt ds k) total
      | .error _ => none
    match badDesc with
    | some k => (t.1, .refused (100 + k) cause.illegal (100 + k) 0)
    | none =>
      if recWarps r > 2 * perCore (recRegs r) || recMacros r > 32 then (t.1, .refused 200 cause.illegal 200 0)
      else if !sup && (recLevel r == 1 || decide (wordAt (s.descOf ctx) 18 < recClass r)) then (t.1, .refused 16 cause.priv 16 0)
      else match t.2 with
        | .error (d, a) => (t.1, .trans d a)
        | .ok ds =>
          let b := if dblAt r 22 = 0 then (t.1, none) else writeChk t.1 core ctx sup true (dblAt r 22)
          match b.2 with
          | some d => (b.1, .trans d (dblAt r 22))
          | none =>
            let c := writeChk b.1 core ctx sup false (dblAt r 24)
            match c.2 with
            | some d => (c.1, .trans d (dblAt r 24))
            | none => (c.1, .ok ds)

/-- Write a completion word whole: its state and detail; a poisoned page discards the write (R261, R266). -/
def cwSet (s : State) (core ctx : Nat) (sup : Bool) (a seq v : Int) : State :=
  if a % 3 != 0 then s
  else
    let r := checkAddr s core ctx sup Need.write true a
    match r.2 with
    | .ok loc => updateNow (setDirty r.1 core ctx a loc) loc 3 fun _ => v
    | .uncor => r.1.note (some ctx) .completionPoisoned [seq]
    | .fail _ => r.1

/-- The paddock that a warp launches into: its gang's, or its sequencer's (R261). -/
def padOf (s : State) (w : Warp) : Nat :=
  match (w.gid.bind s.gang?).bind fun g => s.launch? g.lid with
  | some x => x.paddock
  | none => match s.context? w.ctx with | some c => c.paddock | none => 0

/-- Entries of a paddock's journal (R265). -/
def journalOf (s : State) (pad : Nat) : List JEntry := s.journal.filter fun j => j.paddock == pad

/-- Two M-dies in service for the copies of a journal entry; one, when no other is left (R22, R265). -/
def journalDies (s : State) : List Nat :=
  let live := (upto 4).filter fun d => !s.pkg.deadDies.contains d
  let a := live.getD (Config.journalDie s.fresh % live.length) 0
  let rest := live.filter fun d => d != a
  a :: (rest[Config.journalDie (s.fresh + 1) % rest.length]?).toList

/-- Accept a launch: sequence number, journal entry, completion word, and the launch (R261, R265). -/
def acceptLaunch (s : State) (wid : Nat) (r descs : List Int) (gd : Nat) : State :=
  match s.warp? wid with
  | none => s
  | some w =>
    let pad := padOf s w
    let seq := (s.paddock pad).nextSeq
    let desc := match s.context? w.ctx with | some c => c.desc | none => 0
    let s1 := s.modPaddock pad fun d => { d with nextSeq := seq + 1 }
    let e : JEntry := ⟨seq, pad, r, desc, w.gid, 0, 0, [], journalDies s⟩
    let x : Launch :=
      { lid := s.nextId, seq := seq, paddock := pad, ctx := w.ctx, words := r, issuer := w.gid, cls := recClass r, nextGang := 0,
        gangEnds := 0, again := [], descs := descs, chans := [], granted := false, die := none, missed := false, raised := false, started := false,
        headSince := none, table := [], signals := [] }
    let s2 : State := { s1 with journal := s1.journal ++ [e], launches := s1.launches ++ [x], nextId := s1.nextId + 1, fresh := s1.fresh + 2 }
    (cwSet s2 w.coreNo w.ctx (w.level == 1) (dblAt r 24) seq 0).modWarp wid fun w => w.setG gd seq

/-! ### Commands (R258, R264) -/

/-- What a command answers: a bad field's word, PRIV, done, or accesses to await (R150). -/
inductive CmdOut
  | bad (i : Nat)
  | priv
  | done (s : State)
  | wait (s : State) (ws : List Nat)

/-- The charges of a context descriptor (R258). -/
def descOk (pad : Nat) (d : List Int) : Bool :=
  let chan (v : Int) : Bool := if pad = 0 then v == 0 || (trit v 26 == 1 && chanDescOk v 265720) else v == 0
  let addr (a m : Int) : Bool := canonicalAddr a && a % m == 0
  inR (wordAt d 0) 0 (Config.memoryLines - 1) && inR (wordAt d 1) 0 (Config.memoryLines - 1) && inR (wordAt d 2) 0 1048575 &&
  inR (wordAt d 3) 0 1 && inR (wordAt d 4) 0 2187 && ((upto 27).all fun i => inR (trit (wordAt d 5) i) 0 1) &&
  ((upto 9).all fun i => inR (trit (wordAt d 6) i) 0 1) && field (wordAt d 6) 26 9 == 0 && dblAt d 7 % 27 == 0 &&
  inR (wordAt d 9) 729 2187000 && inR (wordAt d 10) 0 16777216 && addr (dblAt d 11) 81 &&
  chan (wordAt d 13) && chan (wordAt d 14) && chan (wordAt d 15) && chan (wordAt d 16) &&
  (wordAt d 17 == 0 || inR (wordAt d 17) 27000 270000000) && inR (wordAt d 18) (-4) 4 && addr (dblAt d 21) 9 &&
  wordAt d 23 == 0 && wordAt d 24 == 0 && wordAt d 25 == 0 && wordAt d 26 == 0

/-- Resume a journal entry that no launch carries (R293): ended gangs are not run again, others are placed, relaunched or
reported. -/
def resumeEntry (s : State) (ctx : Nat) (e : JEntry) : State :=
  let idem := recIdempotent e.words
  let again := e.table.filter fun g => idem && !g.2.2.2
  let lost := e.table.filter fun g => !(idem && !g.2.2.2)
  let t := chanTable s 768 ctx (recLevel e.words == 1) (dblAt e.words 14) (wordAt e.words 13).toNat
  let descs := match t.2 with | .ok ds => ds | .error _ => []
  let x : Launch :=
    { lid := s.nextId, seq := e.seq, paddock := e.paddock, ctx := ctx, words := e.words, issuer := e.issuer, cls := recClass e.words,
      nextGang := e.nextGang, gangEnds := e.gangEnds + lost.length, again := again.map fun g => ⟨g.1, g.2.1, g.2.2.1, 1, none, none⟩,
      descs := descs, chans := [], granted := false, die := none, missed := false, raised := false, started := false, headSince := none, table := [],
      signals := [] }
  let s1 : State := { t.1 with launches := t.1.launches ++ [x], nextId := t.1.nextId + 1 }
  cwUpdate s1 x none ((if again.isEmpty then [] else [14]) ++ (if lost.isEmpty then [] else [11]))

/-- The system channels 5 to 8 that a descriptor sets; one whose word is unchanged stands (R225, R258). With several contexts bound to paddock 0 the
last bind decides, a word of 0 takes the channel away, and the end of any of them takes all four: DESIGN CHOICE, R225 speaks of one descriptor
(log entry 140). -/
def setSysChans (s : State) (old : Option (List Int)) (d : List Int) : State :=
  [5, 6, 7, 8].foldl (fun s (k : Nat) =>
    let v := wordAt d (k + 8)
    if (match old with | some o => wordAt o (k + 8) == v | none => false) then s
    else
      let rest := s.chans.filter fun c => !(c.lid.isNone && c.name == k)
      { s with chans := if v = 0 then rest else rest ++ [Channel.grant k none k v] }) s

/-- Bind a context to a paddock (R258, R264, R293): a second bind takes the changed descriptor. -/
def bindContext (s : State) (pad : Nat) (desc : Int) (d : List Int) : State :=
  match s.ctxs.find? fun c => c.paddock == pad && c.desc == desc with
  | some c =>
    let s1 := s.modContext c.ctx fun c => { c with words := d }
    if pad = 0 then setSysChans s1 (some c.words) d else s1
  | none =>
    let ctx := s.nextId
    let s1 : State := { s with ctxs := s.ctxs ++ [⟨ctx, desc, d, pad, none, false, false⟩], nextId := ctx + 1 }
    let s2 := if pad = 0 then setSysChans s1 none d else s1
    (s2.journal.filter fun e => e.paddock == pad && e.desc == desc && !(s2.launches.any fun x => x.paddock == pad && x.seq == e.seq)).foldl
      (fun s e => resumeEntry s ctx e) s2

/-- A context descriptor read at an address of a context; none when it is misaligned, untranslatable or bad. -/
def readDesc (s : State) (core ctx : Nat) (a : Int) : State × Option (List Int) :=
  if a % 81 ≠ 0 then (s, none)
  else
    let r := checkAddr s core ctx true Need.read true a
    match r.2 with
    | .ok l =>
      let s1 := readBefore r.1 l
      (match s1.mem.lineAt l with | .data d _ => (s1, some ((upto 27).map (fun i => lineWord d i))) | _ => (s1, none))
    | _ => (r.1, none)

/-- Page ranges meet. -/
def pagesMeet (first count a n : Int) : Bool := decide (pageOf a < first + count ∧ first ≤ pageOf (a + n - 1))

/-- The code blocks of a context that touch a page range (R324). -/
def touchesPages (half first count block : Int) : Bool :=
  pagesMeet first count (162 * block) 162 && (halfOf (pageOf (162 * block)) == half || halfOf (pageOf (162 * block + 161)) == half)

/-- An operation in progress that keeps places it has checked. -/
def PendOp.keepsPlaces : PendOp → Bool
  | .xtab _ _ _ _ _ => true
  | .recv _ _ _ _ _ _ => true
  | _ => false

/-- What an invalidation awaits: accesses in flight of the context, its XTABs and RECVs in progress, the RECVs whose lines have not come, and its transducer
requests on the pages
(R150, R256). -/
def invalAwaits (s : State) (ctx : Nat) (half first count : Int) : List Nat :=
  let rs := s.reqs.filter fun r => r.ctx == ctx && r.src != 800
  let xs := (s.xd.lanes.flatMap fun l => l.queue).filter fun x => x.ctx == ctx &&
    ((halfOf (pageOf (dblAt x.words 1)) == half && pagesMeet first count (dblAt x.words 1) (wordAt x.words 3)) ||
     (halfOf (pageOf (dblAt x.words 4)) == half && pagesMeet first count (dblAt x.words 4) (wordAt x.words 6)))
  let ps := (s.warps.filter fun w => w.ctx == ctx).flatMap fun w => (w.pends.filter fun p => p.op.keepsPlaces).map fun p => p.n
  let bs := s.cores.flatMap fun c => (c.binds.filter fun b => b.ctx == ctx).filterMap fun b => b.name
  rs.map (fun r => r.id) ++ ps ++ bs ++ xs.map fun x => x.id

/-- The window copies of a page range leave their cores, dirty ones through the entries by which they were filled: none is written back later
to where the range pointed before (R150; DEDUCED: log entry 108). -/
def returnPages (s : State) (ctx : Nat) (half first count : Int) : State :=
  let hs := (s.gangs.filter fun g => g.ctx == ctx).flatMap fun g => (upto g.wins.length).flatMap fun k => match g.win? k with
    | some w => (w.lines.filter fun x => (x.st == .dirty || x.st == .present) && !x.loc.isHost && halfOf (pageOf (w.boxAddr x.j)) == half &&
        pagesMeet first count (w.boxAddr x.j) 81).map fun x => (g.gid, k, x)
    | none => []
  hs.foldl (bringHome 2 true) s

/-- Drop the translations and the code blocks of a page range, and return its window copies (R150, R324). -/
def invalidate (s : State) (ctx : Nat) (half first count : Int) : State :=
  let s1 := dropTlb (returnPages s ctx half first count) ctx half first count
  { s1 with cores := s1.cores.map (fun c => { c with code := c.code.filter fun b => !(b.ctx == ctx && touchesPages half first count b.block) }),
            warps := s1.warps.map fun w => if w.ctx = ctx then { w with code := [] } else w }

/-- Something an operation awaits has not ended. -/
def awaiting (s : State) (ws : List Nat) : Bool :=
  ws.any fun i => (s.req? i).isSome || (s.xd.lanes.any fun l => l.queue.any fun x => x.id == i) || (s.cores.any fun c => c.binds.any fun b => b.name == some i) ||
    s.warps.any fun w => w.pends.any fun p => p.n == i

/-- The bound context whose descriptor an address names. -/
def ctxOfDesc (s : State) (a : Int) : Option Context := s.ctxs.find? fun c => c.desc == a

/-- End a context: its table slots, code blocks, translations, sequencer and system channels (R248, R264, R324). -/
def unbindContext (s : State) (c : Context) : State :=
  let s1 : State := { s with
    xd := { s.xd with slots := s.xd.slots.filter fun x => x.ctx != c.ctx },
    cores := s.cores.map (fun k => { k with code := k.code.filter (fun b => b.ctx != c.ctx), tlb := k.tlb.filter fun t => t.ctx != c.ctx }),
    ctxs := s.ctxs.filter fun x => x.ctx != c.ctx,
    chans := s.chans.filter fun x => !(c.paddock == 0 && x.lid.isNone) }
  let s2 := dropWarps s1 fun w => w.gid.isNone && w.ctx == c.ctx
  s2.modPaddock c.paddock fun d => { d with running := if d.running = some c.ctx then none else d.running,
                                            pausing := d.pausing && d.running != some c.ctx }

/-- A launch of a paddock by its sequence number (R264). -/
def launchOfSeq (s : State) (pad : Nat) (seq : Int) : Option Launch := s.launches.find? fun x => x.paddock == pad && x.seq == seq

/-- Set a paddock's limits; the minimums of all paddocks sum to at most 384 (R264). -/
def limitsOk (s : State) (pad : Nat) (lo : Int) : Bool :=
  decide (((s.paddocks.filter fun d => d.n != pad).foldl (fun n d => n + d.min) 0 : Nat) + lo ≤ 384)

/-- The effect of a command after its fields are checked (R264): kind, record, issuing context and paddock. -/
def commandFields (s : State) (core ctx pad : Nat) (r : List Int) : State × Option Nat :=
  let k := field (wordAt r 0) 26 24
  let first (l : List Charge) : Option Nat := lowestCharge l
  if k = -1 then
    (s, first [(1, !(wordAt r 1 == 1 || wordAt r 1 == -1)), (4, decide (wordAt r 4 < 1)), (5, (ctxOfDesc s (dblAt r 5)).isNone)])
  else if k = -2 then (s, none)
  else if k = -3 then
    let q := checkAddr s core ctx true Need.rmw true (dblAt r 1)
    (q.1, first [(1, dblAt r 1 % 3 != 0 || (match q.2 with | .ok (.dom _ _) => false | _ => true))])
  else if k = -4 then
    (s, match launchOfSeq s pad (wordAt r 1) with
      | none => some 1
      | some x => if inR (wordAt r 2) 0 (x.chans.length - 1) then none else some 2)
  else if k = 2 then
    if !inR (wordAt r 1) 0 26 then (s, some 1)
    else
      let q := readDesc s core ctx (dblAt r 2)
      (q.1, match q.2 with | some d => if descOk (wordAt r 1).toNat d then none else some 2 | none => some 2)
  else if k = 3 then
    let ok2 := inR (wordAt r 2) 0 384
    (s, first [(1, !inR (wordAt r 1) 0 26), (2, !ok2), (2, inR (wordAt r 1) 0 26 && ok2 && !limitsOk s (wordAt r 1).toNat (wordAt r 2)),
      (3, ok2 && !inR (wordAt r 3) (wordAt r 2) 384), (3, !inR (wordAt r 3) 0 384)])
  else if k = 4 then
    (s, if !inR (wordAt r 1) 0 26 then some 1
      else if s.ctxs.any fun c => (c.paddock : Int) == wordAt r 1 && c.desc == dblAt r 2 then none else some 2)
  else (s, some 0)

/-- A command needs supervisor level (R264). -/
def commandSup (k : Int) : Bool := k != -2

/-- The element address of a round discard (R264). -/
def discardRound (s : State) (core ctx : Nat) (a tag : Int) : State :=
  match (checkAddr s core ctx true Need.rmw true a).2 with
  | .ok (.dom p x) => { s with home := { s.home with rounds := s.home.rounds.filter fun q => !(q.pkg == p && q.addr == x && q.tag == tag) } }
  | _ => s

/-- Release the lines pinned under a key (R168, R264). -/
def releasePins (s : State) (ctx : Nat) (key : Int) : State :=
  { s with home := { s.home with held := s.home.held.map fun h => if h.pin = some (ctx, key) then { h with pin := none } else h } }

/-- Return a launch channel to its grant state (R216, R223, R264). The spacing of its completions goes on (R213); releases still due are dropped:
DESIGN CHOICE, R216's grant state names neither (log entry 141). -/
def resetChan (s : State) (x : Launch) (k : Nat) : State :=
  match x.chans[k]? with
  | none => s
  | some ch => s.modChan ch fun c => { Channel.grant ch (some x.lid) k (wordAt x.descs k) with lastTc := c.lastTc }

/-- Perform a command whose fields passed (R264). -/
def performCommand (s : State) (core ctx pad : Nat) (r : List Int) : CmdOut :=
  let k := field (wordAt r 0) 26 24
  if k = -1 then
    match ctxOfDesc s (dblAt r 5) with
    | none => .bad 5
    | some c =>
      let ws := invalAwaits s c.ctx (wordAt r 1) (dblAt r 2) (wordAt r 4)
      if ws.isEmpty then .done (invalidate s c.ctx (wordAt r 1) (dblAt r 2) (wordAt r 4))
      else .wait (dropTlb s c.ctx (wordAt r 1) (dblAt r 2) (wordAt r 4)) ws
  else if k = -2 then .done (releasePins s ctx (wordAt r 1))
  else if k = -3 then .done (discardRound s core ctx (dblAt r 1) (wordAt r 3))
  else if k = -4 then
    match launchOfSeq s pad (wordAt r 1) with
    | some x => .done (resetChan s x (wordAt r 2).toNat)
    | none => .bad 1
  else if k = 2 then
    let q := readDesc s core ctx (dblAt r 2)
    match q.2 with
    | some d => .done (bindContext q.1 (wordAt r 1).toNat (dblAt r 2) d)
    | none => .bad 2
  else if k = 3 then .done (s.modPaddock (wordAt r 1).toNat fun d => { d with min := (wordAt r 2).toNat, max := (wordAt r 3).toNat })
  else
    match s.ctxs.find? fun c => (c.paddock : Int) == wordAt r 1 && c.desc == dblAt r 2 with
    | none => .bad 2
    | some c => if s.launches.any fun x => x.ctx == c.ctx then .wait s [] else .done (unbindContext s c)

/-- A command: its fields, then its level, then its effect (R264, R276). -/
def command (s : State) (core ctx pad : Nat) (sup : Bool) (r : List Int) : CmdOut :=
  let f := commandFields s core ctx pad r
  match f.2 with
  | some i => .bad i
  | none => if !sup && commandSup (field (wordAt r 0) 26 24) then .priv else performCommand f.1 core ctx pad r

/-! ### LNCH (R260, R261, R398) -/

/-- The record that a LNCH names: its trap, a wait while an engine owns the line, or its words (R261). -/
inductive RecordRead
  | trap (s : State) (t : TrapReq)
  | busy (s : State)
  | words (s : State) (r : List Int)

def readRecord (s : State) (c : Cur) (w : Warp) (a : Int) : RecordRead :=
  if a % 81 ≠ 0 then .trap s ⟨cause.align, listed c.lanes 0 a⟩
  else
    let q := checkAddr s w.coreNo w.ctx (w.level == 1) Need.read true a
    match q.2 with
    | .fail d => .trap q.1 ⟨cause.trans, listed c.lanes d a⟩
    | .uncor => .trap q.1 ⟨cause.uncor, listed c.lanes 0 a⟩
    | .ok l =>
      let p := l.pkgLine
      if !l.isHost && engineOwned q.1 p.1 p.2 then .busy q.1
      else
        let s1 := readBefore q.1 l
        match s1.mem.lineAt l with
        | .bad => .trap s1 ⟨cause.uncor, listed c.lanes 0 a⟩
        | .data d _ => .words s1 ((upto 27).map fun i => lineWord d i)
        | .reserved => .words s1 ((upto 27).map fun (i : Nat) => s1.mem.rawAt (l.plus (3 * (i : Int))) 3)

/-- Accept a launch now, or wait while its paddock's journal is full (R261). -/
def launchWord (s : State) (c : Cur) (w : Warp) (r descs : List Int) (gd : Nat) : Eff :=
  let s1 := s.commitWarp w
  if (journalOf s (padOf s w)).length < 729 then .plain (acceptLaunch s1 w.wid r descs gd)
  else .plain (pendOn s1 c c.lanes (.lnch (r ++ descs) gd))

/-- The effect of a command record (R264); it commits when it is performed (R244). -/
def commandWord (s : State) (c : Cur) (w : Warp) (r : List Int) (gd : Nat) : Eff :=
  match command s w.coreNo w.ctx (padOf s w) (w.level == 1) r with
  | .bad i => illegalTrap s c.lanes i
  | .priv => privTrap s c
  | .done s1 => .plain ((s1.commitWarp w).modWarp w.wid fun w => w.setG gd 0)
  | .wait s1 ws => .plain (pendOn s1 c c.lanes (.cmd r gd ws))

/-- LNCH (R260, R261), after the release of package scope that it carries (R201). -/
def execLnch (o : LnchA) (s : State) : Out :=
  .next (runWord (.lnch o) s fun s c w al =>
    if al.isEmpty then .plain s
    else releaseFirst s c w 1 fun s => match readRecord s c w (w.gpair o.a + o.imm) with
      | .trap s1 t => .trap s1 t
      | .busy s1 => .stay (s1.modWarp c.wid fun w => w.stays c.lanes)
      | .words s1 r =>
        if field (wordAt r 0) 26 24 ≠ 1 then commandWord s1 c w r o.d
        else
          let q := checkLaunch s1 w.coreNo w.ctx (w.level == 1) r
          match q.2 with
          | .ok ds => launchWord q.1 c w r ds o.d
          | .refused d cs info a =>
            .trap (cwSet q.1 w.coreNo w.ctx (w.level == 1) (dblAt r 24) (-1) (-(pow3 24) + d * pow3 18)) ⟨cs, listed c.lanes info a⟩)

/-- A LNCH that waits for the journal (R261). -/
def stepLnch (s : State) (w : Warp) (n : Nat) (words : List Int) (gd : Nat) : State :=
  if (journalOf s (padOf s w)).length < 729 then endPend (acceptLaunch s w.wid (words.take 27) (words.drop 27) gd) w.wid n else s

/-- A command that waits (R150, R264). -/
def stepCmd (s : State) (w : Warp) (n : Nat) (r : List Int) (gd : Nat) (ws : List Nat) : State :=
  let done (s : State) : State := endPend ((s.commitWarp w).modWarp w.wid fun w => w.setG gd 0) w.wid n
  if field (wordAt r 0) 26 24 = -1 then
    if awaiting s ws then s
    else match ctxOfDesc s (dblAt r 5) with
      | some c => done (invalidate s c.ctx (wordAt r 1) (dblAt r 2) (wordAt r 4))
      | none => done s
  else match s.ctxs.find? fun c => (c.paddock : Int) == wordAt r 1 && c.desc == dblAt r 2 with
    | none => done s
    | some c => if s.launches.any fun x => x.ctx == c.ctx then s else unbindContext (done s) c

/-! ### ROLE (R93, R416) -/

/-- The new allotment, class and entry of a warp (R93). -/
def Warp.applyRole (w : Warp) (allot : Nat) (cls entry : Int) : Warp :=
  let w1 := w.allLanes fun _ x => if x.live then { x with pc := entry, depth := 0, link := [], pos := 0, since := 0 } else { x with pos := 0, since := 0 }
  { w1 with allot := allot, cls := cls, v := w.v.filter fun p => decide (p.1 % 81 < allot) }

/-- A warp's bay. -/
def Warp.bay? (w : Warp) : Option (Nat × Nat) := match w.place with | .slot c b _ => some (c, b) | _ => none

/-- ROLEs that wait in a bay, in the order in which they issued (R93). -/
def rolesIn (s : State) (bay : Nat × Nat) : List (Nat × Nat × Nat × Int × Int) :=
  let f (w : Warp) : List (Nat × Nat × Nat × Int × Int) := w.pends.filterMap fun p => match p.op with
    | .role a c e => some (p.n, w.wid, a, c, e)
    | _ => none
  sortBy (fun a b => decide (a.1 < b.1)) ((s.warps.filter fun w => w.bay? == some bay).flatMap f)

/-- Registers of a warp's bay held by the other warps of its gang. -/
def gangAllot (s : State) (w : Warp) : Nat :=
  (s.warps.filter fun x => x.wid != w.wid && x.gid == w.gid && x.bay?.isSome && x.bay? == w.bay?).foldl (fun n x => n + x.allot) 0

/-- ROLE (R93). -/
def execRole (o : RoleA) (s : State) : Out :=
  .next (runWord (.role o) s fun s c w al =>
    let allot := 9 * o.b
    let entry := w.gpair o.a
    let top : Int := match (gangOf s w).bind fun g => s.launch? g.lid with | some x => x.cls | none => 4
    if al.isEmpty then .plain s
    else if (w.where_ fun x => x.live).any fun l => !c.lanes.contains l then illegalTrap s c.lanes 0
    else if w.user && decide (top < o.c) then privTrap s c
    else if allot + gangAllot s w > 243 then wholeTrap s c cause.barc (-1) 0
    else
      let room := match w.bay? with
        | some b => (rolesIn s b).isEmpty && decide (bayUsed s b.1 b.2 + allot ≤ 243 + w.allot)
        | none => true
      if allot ≤ w.allot || room then .moved (s.modWarp c.wid fun w => w.applyRole allot o.c entry)
      else .plain (pendOn s c c.lanes (.role allot o.c entry)))

/-! ### PREH, TRAP, RFT, BRK (R281, R282, R286, R309) -/

/-- The liveness record of a pending warp's PREH: none when the warp is to be saved in full; bad logs an event (R286). -/
def prehRecord (s : State) (c : Cur) (w : Warp) (a : Int) : State × Option (List Int) :=
  if (w.where_ fun x => x.live).any fun l => !c.lanes.contains l then (s, none)
  else
    let q := readDesc s w.coreNo w.ctx a
    match q.2 with
    | some r => if recordOk (gangOf s w) w.allot r then (q.1, some r) else (q.1.note (some w.ctx) .preh [w.address 0, a], none)
    | none => (q.1.note (some w.ctx) .preh [w.address 0, a], none)

/-- PREH (R286, R411). -/
def execPreh (o : PrehA) (s : State) : Out :=
  .next (runWord (.preh o) s fun s c w al =>
    if al.isEmpty || w.deadline.isNone then .plain s
    else
      let q := prehRecord s c w (w.gpair o.a + o.imm)
      .plain (pendOn q.1 c c.lanes (.save q.2)))

/-- TRAP (R282): the word completes, then its lanes trap at the next word. -/
def execTrap (o : ImmA) (s : State) : Out :=
  .next (match s.cur with
    | none => s
    | some c => match s.warp? c.wid with
      | none => s
      | some w =>
        let s1 := runWord (.trap o) s fun s _ _ _ => .plain s
        let al := activeLanes w o.hd c.lanes
        if !legal (.trap o) w c.lanes || al.isEmpty then s1
        else raiseDone s1 c ⟨cause.trap, listed (if o.hd.form = .vector then al else c.lanes) o.imm 0⟩)

/-- RFT (R281). -/
def execRft (h : Hd) (s : State) : Out :=
  .next (runWord (.rft h) s fun s c w al =>
    if !w.handler then illegalTrap s c.lanes 0
    else if al.isEmpty then .plain s
    else .moved (s.modWarp c.wid fun w => w.leave s.now))

/-- BRK (R309): every lane is then halted with reason +2, one that another halt had stopped before too; under HSTEP it halts nothing (R307). -/
def execBrk (o : ImmA) (s : State) : Out :=
  .next (runWord (.brk o) s fun s c w al =>
    if al.isEmpty || c.hstep.isSome then .plain s
    else .plain ((s.modWarp c.wid fun w => w.allLanes fun _ x => { x with halted := some ⟨2, 0, o.imm⟩ }).note (some w.ctx) .halt [w.address 0, (Halt.mk 2 0 o.imm).word]))

/-! ### The halted-state words (R301 to R308) -/

/-- A halted-state word: PRIV at user level; its issue set waits until the operation ends (R301, R384). -/
def haltedWord (i : Instr) (s : State) (gd b : Nat) (r : Warp → DbgOp) : State :=
  runWord i s fun s c w al =>
    if al.isEmpty then .plain s
    else if w.user then privTrap s c
    else .plain (dbgRun (pendOn s c c.lanes (.dbg (r w) (w.greg b) gd s.now)) (some w.wid) s.nextId (r w) (w.greg b) gd s.now)

/-- WSET (R303). -/
def execWset (o : WsetA) (s : State) : Out :=
  .next (haltedWord (.wset o) s o.d o.b fun w => .wset [w.greg o.a, w.greg (o.a + 1), w.greg (o.a + 2)] (w.greg o.c) o.unit)
/-- WCLR (R303). -/
def execWclr (o : WUnitA) (s : State) : Out := .next (haltedWord (.wclr o) s o.d o.b fun _ => .wclr o.unit)
/-- WRD (R303). -/
def execWrd (o : WUnitA) (s : State) : Out := .next (haltedWord (.wrd o) s o.d o.b fun _ => .wrd o.unit)
/-- HLST (R304). -/
def execHlst (o : DbgA) (s : State) : Out := .next (haltedWord (.hlst o) s o.d o.b fun _ => .hlst)
/-- HRDV (R305). -/
def execHrdv (o : HrdvA) (s : State) : Out := .next (haltedWord (.hrdv o) s o.d o.b fun _ => .hrdv o.item)
/-- HWRV (R305). -/
def execHwrv (o : HwrvA) (s : State) : Out := .next (haltedWord (.hwrv o) s o.d o.b fun w => .hwrv (w.greg o.a) o.item)
/-- HRDP (R306). -/
def execHrdp (o : HrdpA) (s : State) : Out := .next (haltedWord (.hrdp o) s o.d o.b fun _ => .hrdp o.item)
/-- HWRP (R306). -/
def execHwrp (o : HwrpA) (s : State) : Out :=
  .next (haltedWord (.hwrp o) s o.d o.b fun w => .hwrp (w.greg o.a) (w.greg (o.a + 1)) o.item)
/-- HSTEP (R307). -/
def execHstep (o : DbgA) (s : State) : Out := .next (haltedWord (.hstep o) s o.d o.b fun _ => .hstep)
/-- HRES (R308). -/
def execHres (o : HresA) (s : State) : Out := .next (haltedWord (.hres o) s o.d o.b fun _ => .hres o.scope)

end Sys2Proof.Machine
end

