-- ==== Sys2Proof/Machine/Eligible.lean ====
section
/-! DEFINITION. Machine/Eligible.lean: instruction fetch (R97, R152, R210), which warps may issue, and the choice among them (R20,
R109, R273, R337, R459). -/

namespace Sys2Proof.Machine

open Sys2Proof Tern

/-! ### Where a warp stands -/

/-- The issue set: in handler mode every lane (R72, R279). -/
def Warp.issuers (w : Warp) : List Nat := if w.handler then upto 27 else w.issueSet
/-- The PC of the issue set. -/
def Warp.issuePc (w : Warp) : Int := if w.handler then w.hpc else match w.issueSet with | l :: _ => (w.lane l).pc | [] => 0

/-! ### Which warps may issue -/

/-- The gang of a warp issues: it is neither held before its start, killed nor saved (R267, R291). -/
def gangRuns (s : State) (w : Warp) : Bool :=
  match w.gid with
  | none => true
  | some g => match s.gang? g with
    | some g => !g.held && !g.killed && !g.saved
    | none => false

/-- A value or flag unit is armed with the warp in its scope, and a load or atomic of the warp has not written its results: the warp issues
nothing, and takes no trap in place of a word (R296). -/
def resultsAwaited (s : State) (w : Warp) : Bool :=
  (s.ops.any fun o => o.wid == w.wid) &&
    (s.core w.coreNo).watch.any fun u => (u.is 2 || u.is 3) && (upto 27).any fun l => u.covers s w l

/-- A warp may issue a word: the package runs, the warp stands in a slot, performs no fence (R383), is not parked (R152), is not
behind an ownership request (R427), has not stopped at a PREH (R286), has not reached its pre-emption deadline (R285), and
has lanes to issue for in a cycle that is not withheld (R20, R337), and awaits no results under a watch unit (R296). -/
def freeToIssue (s : State) (w : Warp) : Bool :=
  s.pkg.st == 1 && !withheld s w.die && w.place != .saved && w.fence.isNone && w.park.isNone && w.blocked.isNone && (preHeld w).isNone &&
  (match w.deadline with | some d => decide (s.now < d) | none => true) && gangRuns s w && w.hasLanes && !resultsAwaited s w

/-! ### Fetch (R97, R152, R210, R284) -/

/-- The code block of a PC: 27 words, 162 trytes (R97). -/
def blockOf (pc : Int) : Int := pc / 27
/-- A checked block as the warp notes it, with its level. -/
def fetchKey (w : Warp) (pc : Int) : Int := 2 * blockOf pc + w.level
/-- The block in a core's instruction cache. -/
def codeBlock? (s : State) (core ctx : Nat) (b : Int) : Option CodeBlock := (s.core core).code.find? fun x => x.ctx == ctx && x.block == b
/-- The word at a PC, once its block has been checked and stands in the cache. -/
def wordFor (s : State) (w : Warp) (pc : Int) : Option Int :=
  if w.code.contains (fetchKey w pc) then (codeBlock? s w.coreNo w.ctx (blockOf pc)).map fun b => wordAt b.words (pc % 27).toNat else none

/-- The segment limit of a warp; sequencers and handlers have none (R284). -/
def segLimit (s : State) (w : Warp) : Option Int :=
  if w.handler then none else ((gangOf s w).bind fun g => s.launch? g.lid).map fun x => recLimit x.words

/-- What a fetch gives. -/
inductive FetchOut
  | ok (s : State)
  | trap (s : State) (t : TrapReq)
  | park (s : State) (page detail : Int)
  | wait (s : State)

/-- The place of an address of a block, from the places of its two ends. -/
def blockLoc (a0 : Int) (locs : List Loc) (a : Int) : Loc :=
  match locs with
  | [l] => l.plus (a - a0)
  | [l, h] => if pageOf a = pageOf a0 then l.plus (a - a0) else h.plus (a - 19683 * pageOf a)
  | _ => .dom 0 0

/-- The word of three trytes at a place as a fetch reads it: logical where the line has a meaning, else as stored. -/
def fetchWord3 (m : Memory) (l : Loc) : Int :=
  match m.lineAt l with
  | .data d _ => unitOf d l.offset.toNat 3
  | _ => m.rawAt l 3

/-- The 27 words of a block: each a double (R4, R210). -/
def readBlock (m : Memory) (a0 : Int) (locs : List Loc) : List Int :=
  (upto 27).map fun (i : Nat) =>
    double (fetchWord3 m (blockLoc a0 locs (a0 + 6 * (i : Int)))) (fetchWord3 m (blockLoc a0 locs (a0 + 6 * (i : Int) + 3)))

/-- The walk of a page meets no uncorrectable table line: what fails then is check 11. -/
def tablesRead (s : State) (w : Warp) (n : Int) : Bool := match (leafFor s w.coreNo w.ctx n).2 with | .ok _ => true | .error _ => false

/-- Fetch the block of a PC for lanes of a warp: both pages are checked, the lower first, and every failed check that starts no page request is
FETCH (R152); the core's own writes to the block are performed first, and the home's lines are recalled for reading and read there, after the
host's own writes to its lines (R44, R47, R211); a core that holds the
block only checks it. -/
def fetchBlock (s : State) (w : Warp) (ls : List Nat) (pc : Int) : FetchOut :=
  let b := blockOf pc
  let a0 := 162 * b
  let p1 := pageOf (a0 + 161)
  let as := if pageOf a0 = p1 then [a0] else [a0, 19683 * p1]
  let r := checkAddrs s w.coreNo w.ctx (w.level == 1) Need.exec true as
  match firstBad r.2 with
  | some (a, .fail d) =>
    if (d = 4 ∨ d = 9) && priOn s w.ctx then .park r.1 (pageOf a) d else .trap r.1 ⟨cause.fetch, listed ls d (6 * pc)⟩
  | some (a, _) =>
    if tablesRead r.1 w (pageOf a) then .trap r.1 ⟨cause.fetch, listed ls 0 (6 * pc)⟩ else .trap r.1 ⟨cause.uncor, listed ls 0 (81 * (a / 81))⟩
  | none =>
    let locs := r.2.map fun p => match p.2 with | .ok l => l | _ => Loc.dom 0 0
    let note (s : State) : State := s.modWarp w.wid fun w => { w with code := [fetchKey w pc] }
    if (codeBlock? r.1 w.coreNo w.ctx b).isSome then .ok (note r.1)
    else
      let words := (upto 54).map fun (i : Nat) => a0 + 3 * (i : Int)
      let lines := (nodups (words.map fun a => (blockLoc a0 locs a).pkgLine)).filter fun p => p.1 != 999
      if lines.any fun p => remoteHeld r.1 p.1 || writing r.1 w.coreNo p.1 p.2 then .wait (seekHeld r.1 w.coreNo w.ctx w.wid lines)
      else if !(lines.all fun p => !engineOwned r.1 p.1 p.2 && clear r.1 p.1 p.2 false none) then
        .wait (lines.foldl (fun s p => sendRecalls s p.1 p.2 false none) r.1)
      else
        let hosts := nodups ((words.map (blockLoc a0 locs)).filter Loc.isHost |>.map Loc.lineStart)
        let s1 := hosts.foldl hostActs (lines.foldl (fun s p => readHome s p.1 p.2) r.1)
        match words.find? fun a => s1.mem.lineAt (blockLoc a0 locs a) == .bad with
        | some a => .trap s1 ⟨cause.uncor, listed ls 0 (81 * (a / 81))⟩
        | none => .ok (note (s1.modCore w.coreNo fun c => { c with code := c.code ++ [⟨w.ctx, b, readBlock s1.mem a0 locs⟩] }))

/-- The issue set's PC is beyond the segment (R284): nothing is fetched there. -/
def pastLimit (s : State) (w : Warp) (pc : Int) : Bool := match segLimit s w with | some l => decide (l ≤ pc) | none => false

/-- A warp may fetch: it may issue, and stands before the limit. -/
def wantsFetch (s : State) (w : Warp) : Bool :=
  freeToIssue s w && !pastLimit s w w.issuePc && (wordFor s w w.issuePc).isNone

/-- Fetch for a warp: the block, the trap, or parking with a page request (R152). -/
def fetchFor (s : State) (w : Warp) : State :=
  match fetchBlock s w w.issuers w.issuePc with
  | .ok s1 => s1
  | .trap s1 t => s1.enterTrap w.wid t
  | .park s1 page d => requestPage (s1.modWarp w.wid fun w => { w with park := some ⟨page, d⟩ }) w.ctx page w.coreNo false
  | .wait s1 => s1

/-- INSTRUCTION_FETCH (R210, R152). -/
def execInstructionFetch (wid : Nat) (s : State) : Out :=
  .next (match s.warp? wid with
    | none => s
    | some w => if wantsFetch s w then fetchFor s w else s)

/-! ### Results that are not ready (R459) -/

/-- The G registers of a source or destination. -/
def srcGs (p : Src × Bool) : List Nat := match p.1 with | .g n => if p.2 then [n, n + 1] else [n] | _ => []
def dstGs (p : Dst × Bool) : List Nat := match p.1 with | .g n => if p.2 then [n, n + 1] else [n] | _ => []
/-- The G registers that a word names beside its sources and destination. -/
def otherGs : Instr → List Nat
  | .ldg o => [o.d, o.d + 1, o.base, o.base + 1]
  | .stg o => [o.c, o.c + 1, o.base, o.base + 1]
  | .ldmc o => [o.a, o.a + 1, o.a + 2, o.b]
  | .red o => o.det.toList
  | .icinv o | .touch o => [o.base, o.base + 1]
  | .movg o => [o.gd]
  | .bra o | .call o => (match o.t with | .reg b _ => [b, b + 1] | .rel _ => [])
  | .snr o => [o.a]
  | .snb o => [o.a]
  | .snw o | .snp o => [o.d]
  | .tbinit o | .tbarr o | .tbexp o | .tbwait o => [o.a, o.a + 1, o.b]
  | .tbtest o => [o.d, o.a, o.a + 1, o.b]
  | .win o => [o.a]
  | .task o => [o.d, o.a]
  | .tqry o => [o.d, o.a]
  | .send o => [o.a, o.b]
  | .recv o => [o.a]
  | .xfst o => [o.d, o.a]
  | .xtab o => [o.d, o.a, o.a + 1]
  | .lnch o => [o.d, o.a, o.a + 1]
  | .role o => [o.a, o.a + 1]
  | .preh o => [o.a, o.a + 1]
  | .wset o => [o.d, o.a, o.a + 1, o.a + 2, o.b, o.c]
  | .wclr o => [o.d, o.b]
  | .wrd o => [o.d, o.d + 1, o.d + 2, o.d + 3, o.d + 4, o.d + 5, o.b]
  | .hlst o => [o.d, o.d + 1, o.d + 2, o.d + 3, o.b]
  | .hstep o => [o.d, o.d + 1, o.d + 2, o.b]
  | .hrdv o => [o.d, o.d + 1, o.b]
  | .hwrv o => [o.d, o.a, o.b]
  | .hrdp o => [o.d, o.d + 1, o.d + 2, o.b]
  | .hwrp o => [o.d, o.a, o.a + 1, o.b]
  | .hres o => [o.d, o.b]
  | _ => []
/-- The G registers that a word reads or writes. -/
def wordGs (i : Instr) : List Nat := i.srcs.flatMap srcGs ++ i.dsts.flatMap dstGs ++ otherGs i

/-- Words that read V registers of lanes outside their issue set (R350, R403, R407, R423). -/
def crossLanes : Instr → Bool
  | .shfl _ | .bcst _ | .movg _ | .pack _ | .unpack _ => true
  | _ => false

/-- A lane's result has been written. -/
def Got.isDone : Got → Bool | .done _ => true | _ => false

/-- A load or atomic of the warp has not yet written a register that the word names (R346, R459). -/
def loadHazard (s : State) (w : Warp) (i : Instr) (ls : List Nat) : Bool :=
  s.ops.any fun o => o.wid == w.wid && match o.d with
    | .latch => false
    | .v n => (i.vregs.any fun m => m == n || (o.dbl && m == n + 1)) &&
        o.lanes.any fun x => !x.got.isDone && (crossLanes i || ls.contains x.lane)
    | .g n => (wordGs i).any fun m => m == n || (o.dbl && m == n + 1)

/-- Operands of the warp's next word are ready. -/
def operandsReady (s : State) (w : Warp) (v : Int) : Bool :=
  match decode? v with
  | some i => !loadHazard s w i w.issuers
  | none => true

/-! ### Passes (R75) -/

/-- The passes that a word costs on each vector pipe that it takes (R75, R114, R406, R408, R411); none without an active lane (R73), and
none for a PREH of a warp that is not pending (R286). -/
def passesOf (i : Instr) (w : Warp) (ls : List Nat) : List Nat :=
  let nine (k : Nat) : Nat := (k + 8) / 9
  match i with
  | .pairedWord a b =>
    let n (h : Half) : Nat := nine (ls.filter fun l => w.preg l h.pred == 1).length
    if n a + n b = 0 then [] else [n a, n b]
  | .nop _ => []
  | i =>
    let idle : Bool := match i with | .preh _ => w.deadline.isNone | _ => false
    let al := match i.hd? with | some h => activeLanes w h ls | none => ls
    if idle || al.isEmpty then []
    else if !i.isVector then [1]
    else match i with
      | .shfl _ | .bcst _ | .vred _ | .vscan _ | .pack _ | .unpack _ => [3]
      | .pany _ | .pall _ | .pcnt _ | .movc ⟨_, _, .p _⟩ => [1]
      | _ => [nine al.length]

/-- The cycles in which the pipes of a bay are free again. -/
def pipeTimes (s : State) (core bay : Nat) : Int × Int :=
  match (s.core core).pipes.find? fun e => e.1 == bay with
  | some e => e.2
  | none => (s.now, s.now)

/-- The vector pipes of a place that can start a word in this cycle; a sequencer's words wait for none. -/
def pipesFree (s : State) (key : Nat) : Nat :=
  if key < 100 then 2
  else
    let t := pipeTimes s ((key - 100) / 16) ((key - 100) % 16)
    (if t.1 ≤ s.now then 1 else 0) + (if t.2 ≤ s.now then 1 else 0)

/-- The pipes that a warp's next word takes. -/
def pipeNeed (s : State) (w : Warp) : Nat :=
  match (wordFor s w w.issuePc).bind decode? with
  | some i => (passesOf i w w.issuers).length
  | none => 0

/-- A word of a warp for some lanes takes its pipes (R75). -/
def takePipes (s : State) (w : Warp) (i : Instr) (ls : List Nat) : State :=
  match w.place with
  | .slot c b _ =>
    let t := pipeTimes s c b
    let now := s.now
    let put (x : Int × Int) : State :=
      s.modCore c fun k => { k with pipes := (b, x.1, x.2) :: k.pipes.filter fun e => e.1 != b }
    match passesOf i w ls with
    | [] => s
    | [n] => if t.1 ≤ now then put (now + n, t.2) else put (t.1, now + n)
    | n :: m :: _ => put (now + n, now + m)
  | _ => s

/-! ### Choice (R109, R273) -/

/-- A pending trap that a warp takes in place of its next word without fetching it: a held WATCH trap, a lost watch record, PERMIT,
FLIMIT (R276, R284, R290, R294, R297). -/
def watchDue (w : Warp) : Option WatchTrap :=
  if w.handler then none else w.watchTraps.find? fun t => t.all fun p => (w.lane p.1).halted.isNone
def recordLost (s : State) (w : Warp) (ls : List Nat) : Option Watch :=
  if w.handler then none else (s.core w.coreNo).errs.find? fun u => ls.any fun l => u.covers s w l
def permitDue (w : Warp) : Bool := !w.permits.isEmpty
def trapFirst (s : State) (w : Warp) : Bool := (watchDue w).isSome || (recordLost s w w.issuers).isSome || permitDue w || pastLimit s w w.issuePc

/-- A warp has issued in the present cycle. -/
def issuedNow (s : State) (w : Warp) : Bool := decide (2 * s.now ≤ w.lastIssue)

/-- The place where a warp issues, as one number: bays, then sequencers. -/
def Warp.bayKey (w : Warp) : Nat :=
  match w.place with | .slot c b _ => 100 + 16 * c + b | .seq q => q | .saved => 99999

/-- What an arriving word meets others at (R91, R171, R219). -/
def meetingOf (s : State) (w : Warp) (i : Instr) : Option Meeting :=
  let chan (k : Int) : Option Meeting := match chanRef s w k with | .ok ch => some (.chan ch) | _ => none
  match i with
  | .sna o | .snd o => chan o.k
  | .snr o => chan o.k
  | .snb o => chan o.k
  | .barA o | .barS o | .barD o => w.gid.map fun g => .bar g o.q.toNat
  | .tbarr o => some (match w.gid with | some g => .tb (some g) (w.greg o.a + o.e) | none => .tb none (w.gpair o.a + o.e))
  | _ => none

/-- A word whose fills or requests post on transaction barriers (R171). -/
def posts : Instr → Bool
  | .lds _ | .sts _ | .touch _ | .recv _ | .xfst _ | .ldmc _ | .tbexp _ => true
  | _ => false

/-- A word that would arrive after a warp of a later place in the same cycle, or post after an arrival, issues in a later cycle: arrivals of
one cycle apply in ascending order of core, bay and slot, after the posts (R91, R171, R219). -/
def inOrder (s : State) (w : Warp) (i : Instr) : Bool :=
  (match meetingOf s w i with
    | some m => !s.arrivals.any fun p => p.1 == m && decide (w.slotKey < p.2)
    | none => true) &&
  (!posts i || match w.gid with | some g => !s.tbMet g | none => true)

/-- The warp's next word can issue in this cycle: its operands are ready, its pipes free, and its arrival is not too late (R75, R219,
R273). -/
def wordReady (s : State) (w : Warp) (v : Int) : Bool :=
  operandsReady s w v && decide (pipeNeed s w ≤ pipesFree s w.bayKey) && (match decode? v with | some i => inOrder s w i | none => true)

/-- A warp is eligible for a slot of its bay (R273). -/
def eligible (s : State) (w : Warp) : Bool :=
  freeToIssue s w && !issuedNow s w &&
  (trapFirst s w || match wordFor s w w.issuePc with | some v => wordReady s w v | none => false)

/-- Issue slots of a place. -/
def slotsAt (key : Nat) : List Nat := if key < 100 then [0] else [0, 1]

/-- The warp that holds a slot of a bay: one under a chain hold that has a ready lane (R109). -/
def holderOf (s : State) (key slot : Nat) : Option Warp :=
  s.warps.find? fun w => w.bayKey == key && w.hold == some slot && w.hasLanes

/-- A warp's place in the order of R273: class, deadline, launch, placement of its gang, S.WARP. -/
def Warp.rank (s : State) (w : Warp) : List Int :=
  match (w.gid.bind s.gang?) with
  | none => [-w.cls, pow3 60, 0, 0, w.num]
  | some g => match s.launch? g.lid with
    | none => [-w.cls, pow3 60, 0, g.placedAt, w.num]
    | some x => [-w.cls, if recDeadline x.words = 0 then pow3 60 else recDeadline x.words, x.seq, g.placedAt, w.num]

/-- The first of a list under a strict order. -/
def bestBy {α : Type} (lt : α → α → Bool) : List α → Option α
  | [] => none
  | x :: xs => match bestBy lt xs with
    | none => some x
    | some y => some (if lt y x then y else x)

/-- The choice of a slot among eligible warps (R273): the guard first, ties by lower warp slot; else by rank. -/
def choose (s : State) (ws : List Warp) : Option Warp :=
  match bestBy (fun a b => keyLt (-(a.idle : Int) :: a.orderKey) (-(b.idle : Int) :: b.orderKey)) (ws.filter fun w => decide (729 ≤ w.idle)) with
  | some w => some w
  | none => bestBy (fun a b => keyLt (a.rank s ++ a.orderKey) (b.rank s ++ b.orderKey)) ws

/-- The pipes that the words chosen before leave are enough for a warp's word (R75). -/
def pipesLeft (s : State) (key : Nat) (ws : List Warp) (chosen : List (Nat × Nat)) (w : Warp) : Bool :=
  let need (x : Warp) : Nat := if trapFirst s x then 0 else pipeNeed s x
  let used := ((ws.filter fun x => chosen.any fun p => p.2 == x.wid).map need).foldl (· + ·) 0
  decide (need w + used ≤ pipesFree s key) || decide (need w = 0)

/-- The choices of a place's slots in this cycle, slot 0 first: slot and warp. A warp under a chain hold issues in the slot that holds it
and in no other: DESIGN CHOICE, R109 does not say whether the other slot could issue its word (log entry 97). -/
def choices (s : State) (key : Nat) (ws : List Warp) : List (Nat × Nat) :=
  (slotsAt key).foldl (fun (acc : List (Nat × Nat)) k =>
    let rest : List Warp := ws.filter fun w => !(acc.any fun p => p.2 == w.wid) && pipesLeft s key ws acc w
    let pick : Option Warp := match holderOf s key k with
      | some h => rest.find? fun w => w.wid == h.wid
      | none => choose s (rest.filter fun w => !((slotsAt key).any fun j => j != k && w.hold == some j))
    match pick with
    | some (w : Warp) => acc ++ [(k, w.wid)]
    | none => acc) []

/-- A slot of the place chooses freely, not held by a chain, and a warp's word could have issued in it (R273). -/
def freeSlot (s : State) (key : Nat) (ws : List Warp) (chosen : List (Nat × Nat)) (w : Warp) : Bool :=
  (slotsAt key).any fun k => (holderOf s key k).isNone && pipesLeft s key ws (chosen.filter fun p => p.1 < k) w

/-- The word that a warp issues next, no trap being due in its place, is an arrival. -/
def arrives (s : State) (w : Warp) : Bool :=
  !trapFirst s w && match (wordFor s w w.issuePc).bind decode? with | some i => (meetingOf s w i).isSome | none => false

/-- The slots of a place choose: the chosen warps issue in order of warp slot, arriving words at the end of the cycle; an eligible warp that
is passed over by a free slot counts a cycle (R91, R171, R219, R273). -/
def chooseBay (s : State) (key : Nat) : State :=
  let ws := s.warps.filter fun w => w.bayKey == key && eligible s w
  let cs := choices s key ws
  let order := sortBy (fun (a b : Nat × Nat) =>
    keyLt (((s.warp? a.2).map Warp.orderKey).getD []) (((s.warp? b.2).map Warp.orderKey).getD [])) cs
  let pass (w : Warp) : Warp :=
    if w.bayKey == key && freeSlot s key ws cs w && (ws.any fun x => x.wid == w.wid) && !(cs.any fun p => p.2 == w.wid) then { w with idle := w.idle + 1 } else w
  let ends (p : Nat × Nat) : Bool := match s.warp? p.2 with | some w => arrives s w | none => false
  { s with warps := s.warps.map pass, served := s.served ++ [key], late := s.late ++ (order.filter ends).map (fun p => (p.2, p.1)),
           agenda := ((order.filter fun p => !ends p).map fun p => Turn.issue p.2 p.1) ++ s.agenda }

/-- The arriving words that were chosen issue in order of their places, and the cycle ends (R91, R219). -/
def closeCycle (s : State) : State :=
  let key (p : Nat × Nat) : Nat := ((s.warp? p.1).map Warp.slotKey).getD 0
  { s with late := [], agenda := (sortBy (fun (a b : Nat × Nat) => decide (key a < key b)) s.late).map (fun p => Turn.issue p.1 p.2) ++ [Turn.tick] }

/-- The next place whose slots choose in this cycle: sequencers, then bays in order; withheld ones do not choose. -/
def nextBay (s : State) : Option Nat :=
  let ws := s.warps.filter fun w => !s.served.contains w.bayKey && w.place != .saved && !withheld s w.die && eligible s w
  bestBy (fun a b => decide (a < b)) (ws.map Warp.bayKey)

end Sys2Proof.Machine
end

