-- ==== Sys2Proof/Machine/Sync.lean ====
section
/-! DEFINITION. Machine/Sync.lean: named barriers (R87 to R92, R348, R349), escapement words (R214 to R222), transaction
barrier words (R430, R431), SLEEPT (R424) and TOUCH (R432). -/

namespace Sys2Proof.Machine

open Sys2Proof Tern

/-! ### Named barriers -/

/-- Update barrier q of a gang. -/
def Gang.modBar (g : Gang) (q : Nat) (f : Bar → Bar) : Gang := { g with bars := modIdx (fun i b => if i = q then f b else b) 0 g.bars }

/-- The misuse cases of an arrival (R90). -/
def barMisuse (g : Gang) (wid : Nat) (q n : Int) : Bool :=
  if q < 0 then true
  else match g.bars[q.toNat]? with
    | none => true
    | some b => b.dropped.contains wid || !inR n 1 g.nwarps || (match b.operand with | some m => m != n | none => false) ||
        decide (n - (b.drops - b.dropsNow) < 1)

/-- An arrival (R88, R89). -/
def Bar.arrive (b : Bar) (wid : Nat) (n : Int) (drop : Bool) : Bar :=
  let b1 := { b with operand := some n, arrived := if b.arrived.contains wid then b.arrived else b.arrived ++ [wid] }
  let b2 := if drop && !b1.dropped.contains wid then
    { b1 with dropped := b1.dropped ++ [wid], drops := b1.drops + 1, dropsNow := b1.dropsNow + 1 } else b1
  if (b2.arrived.length : Int) = n - (b2.drops - b2.dropsNow) then
    { b2 with phase := (b2.phase + 1) % 27, operand := none, arrived := [], dropsNow := 0 }
  else b2

/-- The cycle in which the release of a phase that completes now reaches a warp: the next one on the barrier's own core, the ninth on the
partner core; a saved warp's waits end with the first (R91). -/
def barDue (g : Gang) (now : Int) (w : Warp) : Int :=
  match w.place with
  | .slot c _ _ => if g.cores.head? = some c then now + 1 else now + 9
  | _ => now + 1

/-- The open phase of a barrier completes: what waits for it waits for its release (R91). -/
def endBarPhase (s : State) (g : Gang) (q : Nat) (ph : Int) : State :=
  let go (w : Warp) (x : Wait) : Wait := match x.kind with
    | .bar b p => if b = q ∧ p = ph then { x with kind := .barEnd q (barDue g s.now w) } else x
    | _ => x
  { s with warps := s.warps.map fun w =>
      if w.gid = some g.gid then w.allLanes fun _ x => { x with wait := x.wait.map (go w), hwait := x.hwait.map (go w) } else w }

/-- BAR.A, BAR.S and BAR.D (R349). -/
def barWord (i : Instr) (o : BarA) (drop wait : Bool) (s : State) : State :=
  runWord i s fun s c w al =>
    match gangOf s w with
    | none => .plain s
    | some g =>
      if al.isEmpty then .plain s
      else if barMisuse g w.wid o.q o.n then .trap s ⟨cause.barx, listed al 0 0⟩
      else
        let q := o.q.toNat
        let ph := (g.bars.getD q Bar.start).phase
        releaseGang s c w fun s =>
          let s1 := (s.met (.bar g.gid q) w.slotKey).modGang g.gid fun g => g.modBar q fun b => b.arrive w.wid o.n drop
          let s2 := if wait then s1.modWarp c.wid fun w => w.waitOn al (.bar q ph) c.pc else s1
          .plain (if ((g.bars.getD q Bar.start).arrive w.wid o.n drop).phase = ph then s2 else endBarPhase s2 g q ph)

/-- BAR.A. -/
def execBarA (o : BarA) (s : State) : Out := .next (barWord (.barA o) o false false s)
/-- BAR.S. -/
def execBarS (o : BarA) (s : State) : Out := .next (barWord (.barS o) o false true s)
/-- BAR.D. -/
def execBarD (o : BarA) (s : State) : Out := .next (barWord (.barD o) o true false s)
/-- BAR.W (R349). -/
def execBarW (o : BarWA) (s : State) : Out :=
  .next (runWord (.barW o) s fun s c w al =>
    match gangOf s w with
    | none => .plain s
    | some g =>
      if al.isEmpty then .plain s
      else if o.q < 0 || (g.bars[o.q.toNat]?).isNone then .trap s ⟨cause.barx, listed al 0 0⟩
      else .plain (s.modWarp c.wid fun w => w.waitOn al (.bar o.q.toNat (g.bars.getD o.q.toNat Bar.start).phase) c.pc))

/-! ### Escapement words -/

/-- The trap of a channel word on the lanes that act (R214, R222, R223); none when the channel may be used. -/
def snFind (s : State) (w : Warp) (k : Int) (al : List Nat) : Except TrapReq Channel :=
  match chanRef s w k with
  | .priv => .error ⟨cause.priv, listed al 0 0⟩
  | .snx => .error ⟨cause.snx, listed al k 0⟩
  | .ok ch => match s.chan? ch with
    | none => .error ⟨cause.snx, listed al k 0⟩
    | some c => if c.broken then .error ⟨cause.uncor, listed al 0 0⟩ else .ok c

/-- An arriving word (R217, R218, R244). -/
def snArrive (i : Instr) (s : State) (k : Int) (a : Warp → Arrival) : State :=
  runWord i s fun s _ w al =>
    if al.isEmpty then .plain s
    else match snFind s w k al with
      | .error t => .trap s t
      | .ok c =>
        if c.misuse w.wid (a w) then .trap s ⟨cause.snx, listed al k 0⟩
        else .plain (((s.commitWarp w).met (.chan c.ch) w.slotKey).modChan c.ch fun c => c.arrive w.wid w.slotKey (a w) s.now)

/-- SNA. -/
def execSna (o : SnA) (s : State) : Out := .next (snArrive (.sna o) s o.k fun _ => .plain)
/-- SND. -/
def execSnd (o : SnA) (s : State) : Out := .next (snArrive (.snd o) s o.k fun _ => .dropping)
/-- SNR. -/
def execSnr (o : SnrA) (s : State) : Out := .next (snArrive (.snr o) s o.k fun w => .value o.op (w.greg o.a))
/-- SNB. -/
def execSnb (o : SnbA) (s : State) : Out := .next (snArrive (.snb o) s o.k fun w => .bcast (w.greg o.a))

/-- SNW (R221). -/
def execSnw (o : SnGetA) (s : State) : Out :=
  .next (runWord (.snw o) s fun s c w al =>
    if al.isEmpty then .plain s
    else match snFind s w o.k al with
      | .error t => .trap s t
      | .ok ch => match ch.seenBy w.wid with
        | some (_, some v) => .plain (s.modWarp c.wid fun w => w.setG o.d v)
        | some (n, none) => .plain (s.modWarp c.wid fun w => w.waitOn al (.chan ch.ch n o.d) c.pc)
        | none => .plain (s.modWarp c.wid fun w => w.waitOn al (.chan ch.ch ch.count o.d) c.pc))

/-- SNP (R221). -/
def execSnp (o : SnGetA) (s : State) : Out :=
  .next (runWord (.snp o) s fun s c w al =>
    if al.isEmpty then .plain s
    else match snFind s w o.k al with
      | .error t => .trap s t
      | .ok ch =>
        let st : Int := match ch.seenBy w.wid with | some (_, some _) => 1 | some (_, none) => 0 | none => -1
        .plain (s.modWarp c.wid fun w => w.setG o.d (pow3 24 * ch.phase + pow3 23 * st)))

/-! ### Transaction barrier words -/

/-- The barrier that a TB word names, or its trap on the lanes that act (R430, R431). -/
def tbFind (s : State) (w : Warp) (a : Nat) (e : Int) (al : List Nat) : State × Except TrapReq TbLoc :=
  match gangOf s w with
  | some g =>
    let b := w.greg a + e
    if b % 9 != 0 then (s, .error ⟨cause.align, listed al 0 b⟩)
    else if !g.holds b 9 then (s, .error ⟨cause.trans, listed al 12 b⟩)
    else if g.inWindow b then (s, .error ⟨cause.trans, listed al 13 b⟩)
    else if g.unread b 9 then (s, .error ⟨cause.uncor, listed al 0 (81 * (b / 81))⟩)
    else (scrub s g.gid [(b, 9)], .ok (.scr g.gid b))
  | none =>
    let b := w.gpair a + e
    if b % 9 != 0 then (s, .error ⟨cause.align, listed al 0 b⟩)
    else
      let r := checkAddr s w.coreNo w.ctx (w.level == 1) Need.rmw true b
      match r.2 with
      | .fail d => (r.1, .error ⟨cause.trans, listed al d b⟩)
      | .uncor => (r.1, .error ⟨cause.uncor, listed al 0 (81 * (b / 81))⟩)
      | .ok (.dom p x) =>
        let s1 := recallNow r.1 p (x / 81) true
        if s1.mem.bad p (x / 81) then (s1, .error ⟨cause.uncor, listed al 0 (81 * (b / 81))⟩)
        else (takeNow s1 p (x / 81), .ok (.glob p x))
      | .ok (.host _ _ _) => (r.1, .error ⟨cause.trans, listed al 7 b⟩)

/-- Set the dirty trit of a global barrier's page before it is written (R149). -/
def tbDirty (s : State) (w : Warp) (l : TbLoc) (a : Nat) (e : Int) : State :=
  match l with
  | .scr _ _ => s
  | .glob p x => setDirty s w.coreNo w.ctx (w.gpair a + e) (.dom p x)

/-- A TB word: f acts on the barrier with the value v; a bad value is ILLEGAL with T.INFO 1. -/
def tbWord1 (i : Instr) (s : State) (a b : Nat) (e : Int) (ok : Int → Bool) (f : State → Cur → Warp → List Nat → TbLoc → Int → Eff) : State :=
  runWord i s fun s c w al =>
    if al.isEmpty then .plain s
    else
      let r := tbFind s w a e al
      match r.2 with
      | .error t => .trap r.1 t
      | .ok l => if !ok (w.greg b) then illegalTrap r.1 al 1 else f r.1 c w al l (w.greg b)

/-- TBINIT. -/
def execTbinit (o : TbA) (s : State) : Out :=
  .next (tbWord1 (.tbinit o) s o.a o.b o.e (fun v => inR v 1 265720) fun s _ w _ l v => .plain (tbInit (tbDirty s w l o.a o.e) l v))
/-- TBEXP. -/
def execTbexp (o : TbA) (s : State) : Out :=
  .next (tbWord1 (.tbexp o) s o.a o.b o.e (fun v => decide (0 ≤ v)) fun s _ w _ l v => .plain (tbPost (tbDirty s w l o.a o.e) l v))
/-- The release that TBARR carries: of gang scope; on a global barrier of package scope (R201, R431). -/
def releaseAt (s : State) (c : Cur) (w : Warp) (l : TbLoc) (go : State → Eff) : Eff :=
  match l with
  | .scr _ _ => releaseGang s c w go
  | .glob _ _ => releaseFirst s c w 1 go
/-- TBARR: post, test, arrive, test (R431). -/
def execTbarr (o : TbA) (s : State) : Out :=
  .next (tbWord1 (.tbarr o) s o.a o.b o.e (fun v => decide (0 ≤ v)) fun s c w al l v =>
    if (tbGet s l).pending = 0 then .trap s ⟨cause.barx, listed al 0 0⟩
    else releaseAt s c w l fun s => match tbArrive (tbPost (tbDirty s w l o.a o.e) l v) l with
      | some s1 => .plain (s1.met l.meeting w.slotKey)
      | none => .trap s ⟨cause.barx, listed al 0 0⟩)
/-- The wait on a barrier. -/
def tbWaitKind (l : TbLoc) (p : Int) : WaitKind :=
  match l with
  | .scr _ a => .tbar false a p
  | .glob k a => .tbar true (memKey k a) p
/-- TBWAIT: it returns with an acquire (R201). -/
def execTbwait (o : TbA) (s : State) : Out :=
  .next (tbWord1 (.tbwait o) s o.a o.b o.e (fun v => inR v (-13) 13) fun s c w al l v =>
    .plain (if (tbGet s l).phase = v then s.modWarp c.wid fun w => w.waitOn al (tbWaitKind l v) c.pc else acquireGang s w))
/-- TBTEST: an acquire when it finds the phase advanced (R201). -/
def execTbtest (o : TbtestA) (s : State) : Out :=
  .next (tbWord1 (.tbtest o) s o.a o.b o.e (fun v => inR v (-13) 13) fun s c w _ l v =>
    let ph := (tbGet s l).phase
    .plain ((if ph = v then s else acquireGang s w).modWarp c.wid fun w => w.setG o.d (pow3 24 * ph + (if ph = v then 0 else pow3 23))))

/-! ### SLEEPT and TOUCH -/

/-- The due time of a sleeper (R424). -/
def sleepDue (w : Warp) (l : Nat) (o : SleepA) : Int := narrow (w.src l false o.a + o.e) 27
/-- A due time has come. -/
def sleepOver (now due : Int) : Bool := decide (0 ≤ narrow (now - due) 27)

/-- SLEEPT (R424). -/
def execSleept (o : SleepA) (s : State) : Out :=
  .next (runWord (.sleept o) s fun s c w al =>
    .plain (s.modWarp c.wid fun w' => al.foldl (fun w' l =>
      if sleepOver s.now (sleepDue w l o) then w' else w'.waitOn [l] (.sleep (sleepDue w l o)) c.pc) w'))

/-- TOUCH (R432). -/
def execTouch (o : Near) (s : State) : Out :=
  .next (runWord (.touch o) s fun s c w al =>
    match gangOf s w with
    | none => .plain s
    | some g =>
      let us := al.map fun l => (l, w.gpair o.base + w.src l false o.off + o.e)
      match scratchFault g 1 false us with
      | some t => .trap s t
      | none => match touching s c w g 1 us none with
        | .trap s t => .trap s t
        | .hold q => .hold q
        | .sleep s1 p => .stay (s1.modWarp w.wid fun w => w.waitOn c.lanes (.touch p) c.pc)
        | .none => .plain s)

end Sys2Proof.Machine
end

