-- ==== Sys2Proof/Machine/EvRelease.lean ====
section
/-! DEFINITION. Machine/EvRelease.lean: how waits and yields end: named barriers, BARC, the escapement, yields, joins, sleepers,
promises (R80, R82, R91, R92, R163, R164, R219, R424). An event that is not enabled leaves the state as it is. -/

namespace Sys2Proof.Machine

open Sys2Proof Tern

/-! ### Named barriers (R88, R91, R92) -/

/-- A wait on barrier i whose release has come. -/
def barOver (i : Nat) (now : Int) (x : Wait) : Bool := match x.kind with | .barEnd b t => b == i && decide (t ≤ now) | _ => false

/-- NAMED_BARRIER_RELEASE (R91), with the acquire that ends the wait of a gang on a pair (R198, R201). -/
def execNamedBarrierRelease (gid i : Nat) (s : State) : Out :=
  .next (
    let hit (w : Warp) : Bool := w.gid == some gid && !(w.waiting (barOver i s.now)).isEmpty
    let s1 := (s.warps.filter hit).foldl acquireGang s
    { s1 with warps := s1.warps.map fun w => if hit w then w.wake (barOver i s.now) else w })

/-- The wait of a lane on a named barrier whose phase is still open. -/
def barOpen (g : Gang) (x : Option Wait) : Option (Nat × Int) :=
  match x with
  | some ⟨.bar b p, word⟩ => if (g.bars.getD b Bar.start).phase = p then some (b, word) else none
  | _ => none

/-- The open named-barrier wait of a lane, in the handler or before it. -/
def laneBar (g : Gang) (x : Lane) : Option (Nat × Int) :=
  match barOpen g x.wait with
  | some r => some r
  | none => barOpen g x.hwait

/-- Every live lane of a warp waits, unhalted, on an open phase; a handler also waits (R92, R279). -/
def warpBarred (g : Gang) (w : Warp) : Bool :=
  (w.where_ fun x => x.live && (x.halted.isSome || (laneBar g x).isNone)).isEmpty &&
  (!w.handler || !(w.where_ fun x => x.hwait.isSome).isEmpty)

/-- The barrier cycle of a gang holds (R92). While a warp of it is saved it does not, and its cycles are counted anew after the restore: DESIGN CHOICE,
R92 does not speak of saved warps (log entry 139). -/
def barrierCycle (s : State) (g : Gang) : Bool :=
  let ws := s.warps.filter fun w => w.gid == some g.gid
  !g.saved && !g.killed && ws.all (fun w => w.place != .saved && warpBarred g w) && ws.any fun w => !(w.where_ fun x => x.live).isEmpty

/-- BARC on a warp: its lanes go back to their barrier words, their waits are cancelled, and the listed lanes trap (R92). -/
def barcWarp (s : State) (g : Gang) (w : Warp) : State :=
  let ls := w.where_ fun x => x.live && (laneBar g x).isSome
  if ls.isEmpty then s
  else
    let s1 := s.modWarp w.wid fun w => (w.reissue fun x => (barOpen g (some x)).isSome)
    s1.enterTrap w.wid ⟨cause.barc, ls.map fun l => (l, (((laneBar g (w.lane l)).map fun p => p.1).getD 0 : Int), 0)⟩

/-- BARC_DETECTION (R92). -/
def execBarcDetection (gid : Nat) (s : State) : Out :=
  .next (match s.gang? gid with
    | none => s
    | some g =>
      if !barrierCycle s g then s
      else (s.warps.filter fun w => w.gid == some gid).foldl (fun s w => barcWarp s g w) s)

/-! ### The escapement (R213, R219, R221) -/

/-- ESCAPEMENT_RELEASE. -/
def execEscapementRelease (ch : Nat) (s : State) : Out := .next (releaseDue s ch)

/-! ### Yields (R80) -/

/-- A yielded lane is released: by its count, its due time, or because the warp has no ready lane. -/
def yieldOver (now : Int) (none_ : Bool) (y : Yield) : Bool := decide (y.count ≤ 0 ∨ y.due ≤ now) || none_

/-- YIELD_RELEASE: all the lanes that are released in one cycle return together; one released under a handler also returns ready. While the
warp is in handler mode the want of a ready lane releases none: DESIGN CHOICE, R80 does not say whether it would (log entry 100). -/
def execYieldRelease (wid : Nat) (s : State) : Out :=
  .next (match s.warp? wid with
    | none => s
    | some w =>
      if w.place == .saved then s
      else
        let idle := !w.handler && w.readyLanes.isEmpty
        s.modWarp wid fun w => w.allLanes fun _ x => match x.yielded with
          | some y => if yieldOver s.now idle y then { x with yielded := none, tYield := false } else x
          | none => x)

/-! ### WAITJ (R82) -/

/-- The joins that a warp's lanes wait at: word and depth. -/
def Warp.joins (w : Warp) : List (Int × Nat) :=
  nodups ((upto 27).filterMap fun l => match (w.lane l).wait with | some ⟨.join _ _ d _, word⟩ => some (word, d) | _ => none)

/-- The lane waits at a join. -/
def Lane.atJoin (j : Int × Nat) (x : Lane) : Bool := match x.wait with | some ⟨.join _ _ d _, word⟩ => (word, d) == j | _ => false
/-- The lane waits at a join and its bound has expired. -/
def Lane.joinLate (now : Int) (x : Lane) : Bool := match x.wait with | some ⟨.join due _ _ _, _⟩ => decide (due ≤ now) | _ => false

/-- Release lanes of a join, writing a value to their destinations and to the latches that WAITJ's results have (R107); the value units test it as the word's result (R296). -/
def joinEnd (s : State) (wid : Nat) (ls : List Nat) (v : Int) : State :=
  match s.warp? wid with
  | none => s
  | some w =>
    let s1 := s.modWarp wid fun w => ls.foldl (fun w l => match (w.lane l).wait with
      | some ⟨.join _ d _ n, _⟩ => (w.setDst l d false v).modLane l fun x => { x.lateLatch n ⟨v, false⟩ with wait := none }
      | _ => w) w
    if w.handler then s1
    else
      let c : Cur := ⟨wid, 0, ls, 0, false, none⟩
      let p := watchResults s1 c w.coreNo s.now [(ls.map fun l => (l, ⟨v, false⟩), .w)] []
      watchAct p.1 wid p.2

/-- The joins that are complete: every live lane waits there (R82). A lane that is halted while it waits at the word counts among them:
DESIGN CHOICE, the procedure of R82 asks only that it waits there, the sentence below it says that halted lanes have not arrived (log entry 99). -/
def joinRelease (s : State) (wid : Nat) : State :=
  match s.warp? wid with
  | none => s
  | some w =>
    match w.joins.find? fun j => (w.where_ fun x => x.live && !x.atJoin j).isEmpty with
    | some j => joinEnd s wid (w.where_ (Lane.atJoin j)) 0
    | none => s

/-- A lane of the warp may still arrive at a join in this cycle: a lane is ready, and the warp has not issued in the cycle (R82, R273). -/
def mayArrive (s : State) (w : Warp) : Bool := !w.readyLanes.isEmpty && !issuedNow s w

/-- WAITJ_BOUND_EXPIRY: the join is tested first, then the bounds. A bound that ends in this cycle is tested once no lane can arrive in
it any more, since the arrival wins (R82). -/
def execWaitjBoundExpiry (wid : Nat) (s : State) : Out :=
  .next (match s.warp? wid with
    | none => s
    | some w =>
      if w.place == .saved then s
      else
        let s1 := joinRelease s wid
        match s1.warp? wid with
        | none => s1
        | some w =>
          let ls := w.where_ (Lane.joinLate (if mayArrive s1 w then s1.now - 1 else s1.now))
          if ls.isEmpty then s1 else joinEnd s1 wid ls 1)

/-! ### Sleepers (R424) -/

/-- A sleep whose due time has come. -/
def sleepWakes (now : Int) (x : Wait) : Bool := match x.kind with | .sleep due => sleepOver now due | _ => false

/-- SLEEP_WAKE; a saved warp's sleepers wake at its restore. -/
def execSleepWake (wid : Nat) (s : State) : Out :=
  .next (match s.warp? wid with
    | none => s
    | some w => if w.place == .saved then s else s.modWarp wid fun w => w.wake (sleepWakes s.now))

/-! ### Promises (R163, R164) -/

/-- The promise that a wait is for. -/
def promiseOf (x : Option Wait) : Option (Int × Int) := match x with | some ⟨.touch p, word⟩ => some (p, word) | _ => none

/-- The lanes that wait for the earliest promise which has come, with the word: lanes of one word and one depth; in handler mode the
handler's word for all 27 lanes. -/
def promiseGroup (w : Warp) (now : Int) : Option (Int × List Nat) :=
  if w.handler then
    (if (w.where_ fun x => match promiseOf x.hwait with | some (p, _) => decide (p ≤ now) | none => false).isEmpty then none
     else some (w.hpc, upto 27))
  else
    let ps : List (Int × Int × Nat) := (upto 27).filterMap fun l =>
      match promiseOf (w.lane l).wait, (w.lane l).halted with
      | some (p, word), none => if p ≤ now ∧ (w.lane l).live then some (p, word, (w.lane l).depth) else none
      | _, _ => none
    match bestBy (fun (a b : Int × Int × Nat) => decide (a.1 < b.1)) ps with
    | none => none
    | some b => some (b.2.1, w.where_ fun x => x.live && x.halted.isNone && promiseOf x.wait == some (b.1, b.2.1) && x.depth == b.2.2)

/-- A warp may issue an access again: as a warp that issues, but for its ready lanes; it takes an issue slot, which a withheld cycle has
not (R20, R337). -/
def mayReissue (s : State) (w : Warp) : Bool :=
  s.pkg.st == 1 && !withheld s w.die && w.place != .saved && w.fence.isNone && w.park.isNone && w.blocked.isNone && (preHeld w).isNone && !resultsAwaited s w &&
  (match w.deadline with | some d => decide (s.now < d) | none => true) && gangRuns s w && s.forced.isNone && s.cur.isNone

/-- End the touch waits of lanes, which stand at their word. -/
def Warp.untouch (w : Warp) (ls : List Nat) : Warp :=
  if w.handler then w.modLanes ls fun _ x => { x with hwait := match x.hwait with | some y => if onTouch y then none else some y | none => none }
  else w.modLanes ls fun _ x => { x with wait := none }

/-- PROMISE_REISSUE: the access is issued again at its promise. A block that has left the cache is fetched again first. -/
def execPromiseReissue (wid : Nat) (s : State) : Out :=
  .next (match s.warp? wid with
    | none => s
    | some w =>
      match promiseGroup w s.now with
      | none => s
      | some (pc, ls) =>
        if !mayReissue s w then s
        else match codeBlock? s w.coreNo w.ctx (blockOf pc) with
          | some b =>
            (match decode? (wordAt b.words (pc % 27).toNat) with
              | some i =>
                if loadHazard s w i ls then s
                else { s.modWarp wid fun w => w.untouch ls with forced := some ⟨wid, pc, ls, 0, true, none⟩ }
              | none => s.modWarp wid fun w => w.untouch ls)
          | none => match fetchBlock s w ls pc with
            | .ok s1 => s1
            | .wait s1 => s1
            | .trap s1 t => (s1.modWarp wid fun w => w.untouch ls).enterTrap wid t
            | .park s1 page d =>
              requestPage (s1.modWarp wid fun w => { w.untouch ls with park := some ⟨page, d⟩ }) w.ctx page w.coreNo false)

end Sys2Proof.Machine
end

