-- ==== Sys2Proof/Machine/EvLife.lean ====
section
/-! DEFINITION. Machine/EvLife.lean: warps, gangs, launches and contexts through their lives: ROLE, retirement, placement, starts,
deadlines, time slices, pre-emption, restoring, and the signals of channel 2 (R93, R173, R266 to R274, R285 to R289, R297, R298,
R308, R368). An event that is not enabled leaves the state as it is. -/

namespace Sys2Proof.Machine

open Sys2Proof Tern

/-! ### ROLE and retirement (R93, R368) -/

/-- ROLE_GRANT (R93): the oldest ROLE of a bay takes its registers once the pool can supply them. -/
def execRoleGrant (wid : Nat) (s : State) : Out :=
  .next (match s.warp? wid with
    | none => s
    | some w => match w.bay? with
      | none => s
      | some b => match rolesIn s b with
        | (n, wid', a, c, e) :: _ =>
          if wid' = wid ∧ bayUsed s b.1 b.2 + a ≤ 243 + w.allot then endPend (s.modWarp wid fun w => w.applyRole a c e) wid n else s
        | [] => s)

/-- Every access of a warp has been performed: its requests have left, and its loads have captured their values (R368). -/
def performed (s : State) (wid : Nat) : Bool :=
  !(s.reqs.any fun r => r.wid == wid) && s.ops.all fun o => o.wid != wid || o.lanes.all fun x => x.got != .waiting

/-- Hand a retired warp's pending TASKFs to the warp that takes them, or note them in the completion word (R246). -/
def passTaskfs (s : State) (w : Warp) : State :=
  match w.taskfs, w.gid with
  | [], _ => s
  | tfs, some gid => (match taskfWarp s gid w.wid with
      | some wid => s.modWarp wid fun x => { x with taskfs := x.taskfs ++ tfs }
      | none => cwGang s gid none [13])
  | _, none => s

/-- WARP_RETIRE (R368): the warp leaves, and with it its slot and registers, once what it sent is performed and every reply is there (R347). -/
def execWarpRetire (wid : Nat) (s : State) : Out :=
  .next (match s.warp? wid with
    | none => s
    | some w =>
      if w.handler || w.place == .saved || !(w.where_ fun x => x.live).isEmpty || !performed s wid || loadsOut s wid then s
      else passTaskfs (dropWarps s fun x => x.wid == wid) w)

/-! ### The ends of gangs and launches (R173, R247, R266) -/

/-- Release every bound window of a gang that ends, one step at a time (R167, R173). -/
def endWindows (s : State) (gid : Nat) (n : Nat) : State :=
  (upto n).foldl (fun s k => match s.gang? gid with
    | none => s
    | some g => match g.win? k with
      | none => s
      | some w =>
        if !w.releasing then beginRelease s gid k
        else if releaseWaits s g k w then s
        else (finishRelease s gid k w).1) s

/-- STREAMs whose lines have not come end with the gang: once every warp has retired, no other task of it runs and no sector is on its way to it
(R193, R241; DESIGN CHOICE: when that end comes, log entry 107). -/
def endStreams (s : State) (gid : Nat) : State :=
  match s.gang? gid with
  | none => s
  | some g =>
    let coming := s.reqs.any fun r => match r.body with
      | .stream c p _ _ _ => (s.core c).binds.any fun b => b.port == p && b.gid == gid
      | _ => false
    if coming || !(g.tasks.all Task.lacksLines) then s
    else
      let s1 := (gangBinds s gid).foldl (fun s p => cancelBinding s p.1 p.2) s
      g.tasks.foldl (fun s t => dropTask s gid t.ticket) s1

/-- GANG_END (R173, R247): when every warp has retired, queued tasks are discarded, windows are released, and what is on its way to
the scratchpad ends first. A killed gang has neither. -/
def execGangEnd (gid : Nat) (s : State) : Out :=
  .next (match s.gang? gid with
    | none => s
    | some g =>
      if s.warps.any fun w => w.gid == some gid then s
      else if g.killed then (if gangBusy s gid then s else finishGang s g)
      else
        let queued := g.tasks.any fun t => t.st == .queued
        let ts := (g.tasks.filter fun t => t.st == .queued).map fun t => t.ticket
        let s1 := if queued then cwGang (ts.foldl (fun s t => dropTask s gid t) s) gid none [12] else s
        let s2 := endWindows (endStreams s1 gid) gid g.wins.length
        match s2.gang? gid with
        | none => s2
        | some g2 => if gangBusy s2 gid || g2.wins.any Option.isSome then s2 else finishGang s2 g2)

/-- Every gang of a launch has ended, and every transducer request (R266). -/
def launchDone (s : State) (x : Launch) : Bool :=
  decide (recGangs x.words ≤ x.gangEnds) && x.again.isEmpty && !(s.gangs.any fun g => g.lid == x.lid) &&
  !(s.xd.lanes.any fun l => l.queue.any fun q => q.lid == x.lid)

/-- A launch arrives on its completion barrier; an arrival that finds 0 pending is discarded (R266). -/
def completionArrive (s : State) (x : Launch) : State :=
  let a := dblAt x.words 22
  if a = 0 then s
  else
    let r := coldWalk s x.ctx (pageOf a)
    match r.2 with
    | .error _ => r.1
    | .ok (e, lv, at_) =>
      match leafChk r.1 x.ctx ⟨false, true, false, true⟩ e lv a true with
      | .ok (.dom p y) =>
        let s0 := recallNow r.1 p (y / 81) true
        if s0.mem.bad p (y / 81) then s0
        else
          let s1 := takeNow (setPteBit s0 at_ 44) p (y / 81)
          (match tbArrive s1 (.glob p y) with
            | some s2 => s2
            | none => s1)
      | _ => r.1

/-- LAUNCH_END (R266): the completion word, the barrier, the journal entry; then the channels and launch-scope units are free. -/
def execLaunchEnd (lid : Nat) (s : State) : Out :=
  .next (match s.launch? lid with
    | none => s
    | some x =>
      if !launchDone s x then s
      else
        let s1 := completionArrive (cwUpdate s x (some 2) []) x
        let s2 : State := { s1 with
          journal := s1.journal.filter fun j => !(j.paddock == x.paddock && j.seq == x.seq),
          launches := s1.launches.filter fun y => y.lid != lid,
          chans := s1.chans.filter fun c => c.lid != some lid }
        clearWatch s2 fun u => u.scope == 1 && u.lid == some lid)

/-! ### Placement (R85, R86, R267, R270, R271) -/

/-- A gang that waits to be placed: its launch, coordinates, and its relaunch record. -/
abbrev Waiting := Launch × (Int × Int × Int) × Option Relaunch

/-- The gangs of a paddock's running context that may be placed now, in order: relaunched ones first, then those of each launch in their order,
one that was released before its start in its own place (R267, R270, R272). A relaunched gang waits for its page, and until the killed one has
ended (R245, R256). -/
def waitingGangs (s : State) (pad : Nat) : List Waiting :=
  match (s.paddock pad).running with
  | none => []
  | some ctx =>
    let xs := sortBy launchBefore (s.launches.filter fun x => x.paddock == pad && x.ctx == ctx && decide (recStart x.words - 2700000 ≤ s.now))
    let again (first : Bool) (x : Launch) : List Waiting := (x.again.filter fun a => decide (a.count ≠ 0) == first).filterMap fun a =>
      if a.page.isSome || (s.gangs.any fun g => g.lid == x.lid && g.x == a.x && g.y == a.y && g.z == a.z) then none
      else some (x, (a.x, a.y, a.z), some a)
    let next (x : Launch) : List Waiting := if x.nextGang < recGangs x.words then [(x, gangCoord x.words x.nextGang, none)] else []
    let before (a b : Waiting) : Bool := keyLt [a.2.1.2.2, a.2.1.2.1, a.2.1.1] [b.2.1.2.2, b.2.1.2.1, b.2.1.1]
    xs.flatMap (again true) ++ xs.flatMap fun x => sortBy before (again false x) ++ next x

/-- A launch holds a channel of die span. -/
def dieSpan (x : Launch) : Bool := x.descs.any fun d => field d 26 26 == 0
/-- The launch's channels are granted, or can be with its first gang (R216). -/
def chansFit (s : State) (x : Launch) : Bool := x.granted || decide (chansUsed s + x.descs.length ≤ 72)
/-- The lowest core or pair that can supply a waiting gang (R270). -/
def coresFor (s : State) (pad : Nat) (x : Launch) : Option (List Nat) :=
  if chansFit s x then chooseCores s pad x.ctx (recNeeds x.words) (recNeedsPair x.words) (if dieSpan x then x.die else none) else none

/-- A pair whose cores a gang of the launch could take: both in service for a gang on a pair, one of them for another (R291). -/
def pairLive (s : State) (x : Launch) (p : Nat) : Bool :=
  if recNeedsPair x.words then s.coreLive (2 * p) && s.coreLive (2 * p + 1) else s.coreLive (2 * p) || s.coreLive (2 * p + 1)
/-- The paddocks whose head gang cannot be placed, in the order of R271: the higher class, then the earlier deadline, then the lower number. -/
def waitingPads (s : State) : List (Nat × Launch) :=
  let cand (pad : Nat) : Option (List Int × Nat × Launch) :=
    match waitingGangs s pad with
    | (x, _, _) :: _ =>
      if (coresFor s pad x).isSome || (s.paddock pad).pausing then none
      else some ([-x.cls, if recDeadline x.words = 0 then pow3 60 else recDeadline x.words, (pad : Int)], pad, x)
    | [] => none
  (sortBy (fun (a b : List Int × Nat × Launch) => keyLt a.1 b.1) ((upto 27).filterMap cand)).map fun c => c.2
/-- The first of some waiting paddocks to which a pair can go: none leaves a waiting paddock that comes before it. -/
def moveFor (s : State) : List Nat → List (Nat × Launch) → Option (Nat × Nat)
  | _, [] => none
  | before, (pad, x) :: r =>
    match spare s pad fun p => pairLive s x p && !(before.any fun q => (s.paddock q).pairs.contains p) with
    | some p => some (pad, p)
    | none => moveFor s (pad :: before) r
/-- The paddock that an idle pair goes to, and the pair (R271; log entry 65). -/
def pairMove (s : State) : Option (Nat × Nat) := moveFor s [] (waitingPads s)

/-- A launch's head gang has waited 2,187,000 cycles (R270). -/
def Launch.starves (x : Launch) (now : Int) : Bool := match x.headSince with | some t => decide (2187000 ≤ now - t) | none => false
/-- The head gang, when it starves. -/
def starving (s : State) (pad : Nat) : Option Waiting := (waitingGangs s pad).head?.filter fun w => w.1.starves s.now
/-- The gang for which a starved paddock places no other: it was the head gang when it starved. -/
def starved (s : State) (pad : Nat) : Option Waiting := (waitingGangs s pad).find? fun w => w.1.starves s.now

/-- The gang to place, with its cores: the first that can be; while a head gang starves, only that one. -/
def nextGang (s : State) (pad : Nat) : Option (Waiting × List Nat) :=
  let f (w : Waiting) : Option (Waiting × List Nat) := (coresFor s pad w.1).map fun c => (w, c)
  if (s.paddock pad).starved then (starved s pad).bind f else (waitingGangs s pad).findSome? f

/-- Place a gang of a launch (R245, R266, R270). -/
def placeGang (s : State) (w : Waiting) (cores : List Nat) (pl : Placing) : State :=
  let x := w.1
  let s0 : State := { s with fresh := s.fresh + 1 }
  let s1 := if x.granted then s0 else grantChans s0 x
  let s2 := s1.modLaunch x.lid fun y => { y with
    headSince := none,
    die := if dieSpan y && y.die.isNone then cores.head?.map fun c => c / 64 else y.die,
    nextGang := if w.2.2.isNone then y.nextGang + 1 else y.nextGang,
    again := match w.2.2 with | some a => y.again.filter fun b => !(b.x == a.x && b.y == a.y && b.z == a.z) | none => y.again }
  let s3 := s2.modPaddock x.paddock fun d => { d with starved := false }
  let gid := s3.nextId
  let s4 := clearRows (startGang s3 x w.2.1 (match w.2.2 with | some a => a.count | none => 0) cores pl) gid
  match w.2.2.bind fun a => a.taskf with
  | some tf => (putWords s4 (cores.headD 0) x.ctx gid tf.addr tf.words).modWarp (gid + 1) fun w => { w with taskfs := [tf] }
  | none => s4

/-- GANG_PLACEMENT (R270, R271): a pair comes first where a head gang needs one; then the next gang is placed. A placing that does
not fit places nothing. -/
def execGangPlacement (pad : Nat) (pl : Placing) (s : State) : Out :=
  .next (
    if s.pkg.st ≠ 1 || (s.paddock pad).pausing then s
    else match pairMove s with
      | some (q, p) => movePair s q p
      | none => match nextGang s pad with
        | some (w, cores) => if placingOk s (recNeeds w.1.words) cores pl then placeGang s w cores pl else s
        | none => s)

/-- A head gang that cannot be placed counts its wait (R270), and a launch whose gang is no longer the head gang counts none; a paddock that has
starved stays with the gang that starved. -/
def noteHeads (s : State) : State :=
  (upto 27).foldl (fun s pad => match waitingGangs s pad with
    | (x, _, _) :: _ =>
      if (s.paddock pad).starved then s
      else
        let wait : Option Int := if (coresFor s pad x).isNone then some (x.headSince.getD s.now) else none
        let f (y : Launch) : Launch :=
          if y.lid = x.lid then { y with headSince := wait }
          else if y.paddock = pad ∧ y.ctx = x.ctx ∧ y.headSince.isSome then { y with headSince := none } else y
        { s with launches := s.launches.map f }
    | [] => s) s

/-- A paddock with a bound context holds at least its minimum (R271): one pair comes to it. -/
def balancePads (s : State) : State :=
  (upto 27).foldl (fun s pad =>
    let d := s.paddock pad
    if d.pairs.length < d.min && (s.ctxs.any fun c => c.paddock == pad) then
      match spare s pad fun p => s.coreLive (2 * p) && s.coreLive (2 * p + 1) with
      | some p => movePair s pad p
      | none => s
    else s) s

/-- GANG_START (R267). -/
def execGangStart (gid : Nat) (s : State) : Out :=
  .next (match s.gang? gid with
    | some g => if g.held && g.start ≤ s.now then s.modGang gid fun g => { g with held := false } else s
    | none => s)

/-- HEAD_GANG_STARVATION (R270, R274). -/
def execHeadGangStarvation (pad : Nat) (s : State) : Out :=
  .next (if (s.paddock pad).starved then s
    else match starving s pad with
      | some (x, _, _) => (s.note (some x.ctx) .headStarved [x.seq]).modPaddock pad fun d => { d with starved := true }
      | none => s)

/-- DEADLINE_MISS (R269): the end of the launch in the same cycle wins. -/
def execDeadlineMiss (lid : Nat) (s : State) : Out :=
  .next (match s.launch? lid with
    | none => s
    | some x =>
      if recDeadline x.words = 0 || x.missed || decide (s.now < recDeadline x.words) || launchDone s x then s
      else
        let raise := recRaise x.words
        let s1 := (cwUpdate s x none (if raise then [17, 16] else [17])).note (some x.ctx) .deadline [x.seq]
        let s2 := s1.modLaunch lid fun x => { x with missed := true, raised := raise, cls := if raise then 4 else x.cls }
        let mine (w : Warp) : Bool := match w.gid.bind s.gang? with | some g => g.lid == lid | none => false
        { s2 with warps := s2.warps.map fun w => if raise && mine w then { w with cls := 4 } else w })

/-! ### Time slices and contexts (R272, R285) -/

/-- The time slice of a context (R258 word 17). -/
def sliceOf (s : State) (ctx : Nat) : Int := if wordAt (s.descOf ctx) 17 = 0 then 2187000 else wordAt (s.descOf ctx) 17
/-- The runnable contexts of a paddock. -/
def runnables (s : State) (pad : Nat) : Nat := (s.ctxs.filter fun c => c.paddock == pad && runnable s c).length

/-- TIME_SLICE_END (R272). -/
def execTimeSliceEnd (pad : Nat) (s : State) : Out :=
  .next (match (s.paddock pad).running with
    | none => s
    | some ctx =>
      if (s.paddock pad).pausing || runnables s pad ≤ 1 || s.now < (s.paddock pad).sliceStart + sliceOf s ctx then s
      else preemptContext s pad)

/-- The switch-out of a context is complete: its warps and gangs are saved, and its channels' releases delivered (R223, R272). -/
def switchedOut (s : State) (pad ctx : Nat) : Bool :=
  (s.warps.all fun w => w.ctx != ctx || w.place == .saved) && (s.gangs.all fun g => g.ctx != ctx || g.saved) &&
  !(s.preempts.any fun p => p.paddock == pad) &&
  s.chans.all fun c => match c.lid.bind s.launch? with | some x => x.ctx != ctx || c.due.isEmpty | none => true

/-- Switch a context in when its channels find room in the escapement (R214, R223) and its sequencer has no debug operation open (R386). -/
def trySwitch (s s1 : State) (pad : Nat) (c : Context) : State :=
  let s2 := switchIn s1 pad c
  let open_ : Bool := match c.seqWid.bind s.warp? with | some w => w.debugging | none => false
  if chansUsed s2 ≤ 72 && !open_ then s2 else s

/-- CONTEXT_SWITCH_IN (R272): into an empty paddock; after a time slice; or at once when the running context is no longer runnable. -/
def execContextSwitchIn (pad : Nat) (s : State) : Out :=
  .next (match nextContext s pad with
    | none => s
    | some c => match (s.paddock pad).running with
      | none => trySwitch s s pad c
      | some r =>
        if (s.paddock pad).pausing then (if switchedOut s pad r then trySwitch s s pad c else s)
        else if r = c.ctx then s
        else match s.context? r with
          | none => trySwitch s s pad c
          | some rc =>
            if runnable s rc then s
            else match rc.seqWid.bind s.warp? with
              | none => trySwitch s s pad c
              | some w => if w.place == .saved then trySwitch s s pad c
                else if savable s w then trySwitch s (saveWarp s w.wid none) pad c else s)

/-- SEQUENCER_WAKE (R272): a completed phase of the wake barrier gives a switched-out sequencer work. -/
def execSequencerWake (ctx : Nat) (s : State) : Out :=
  .next (match s.context? ctx with
    | none => s
    | some c => match c.seqWid.bind s.warp? with
      | some w => if c.woken && w.place == .saved then s.modContext ctx fun c => { c with woken := false, seqReady := true } else s
      | none => s)

/-- PREEMPTION_REQUEST (R285): 81 cycles after it was sent the named warps are pending. -/
def execPreemptionRequest (pad : Nat) (s : State) : Out :=
  .next (
    let due := s.preempts.filter fun p => p.paddock == pad && decide (p.at_ ≤ s.now)
    let s1 : State := { s with preempts := s.preempts.filter fun p => !(p.paddock == pad && decide (p.at_ ≤ s.now)) }
    let mark (p : Preempt) (w : Warp) : Warp := if p.wids.contains w.wid && w.place != .saved then { w with deadline := some (p.at_ + p.budget) } else w
    due.foldl (fun (s : State) p => { s with warps := s.warps.map (mark p) }) s1)

/-- PREEMPTION_DEADLINE (R285): the warp is saved in full, once the words that it issued have completed. -/
def execPreemptionDeadline (wid : Nat) (s : State) : Out :=
  .next (match s.warp? wid with
    | none => s
    | some w => match w.deadline with
      | some d => if d ≤ s.now ∧ w.place ≠ .saved ∧ savable s w then saveGangs (saveWarp s wid none) else s
      | none => s)

/-! ### Restoring (R289) -/

/-- The warps of a gang in order of S.WARP. -/
def gangWarps (s : State) (gid : Nat) : List Warp :=
  sortBy (fun (a b : Warp) => decide (a.num < b.num)) (s.warps.filter fun w => w.gid == some gid)

/-- A gang fits some cores apart from its warps: lines, windows, barriers, macros. -/
def gangFits (s : State) (g : Gang) (cores : List Nat) : Bool :=
  cores.length == g.cores.length && cores.all (fun c => s.coreLive c && decide ((g.alines : Int) ≤ freeLines s c g.ctx)) &&
  (match cores with
    | c :: _ => decide ((g.wins.length : Int) ≤ freeWins s c ∧ (g.bars.length : Int) ≤ freeBars s c)
    | [] => false) &&
  (let on (k : Nat) : Nat := (g.slots.filter fun x => x.core == some k).length
   let loose := (g.slots.filter fun x => x.core.isNone).length
   match cores with
   | [a] => decide ((g.slots.length : Int) ≤ freeMacros s a)
   | [a, b] => decide ((on 900 : Int) ≤ 16 - boundMacros s a ∧ (on 901 : Int) ≤ 16 - boundMacros s b ∧ (on 900 + on 901 + loose : Int) ≤ pairMacros s a)
   | _ => false)

/-- A placing of warps with their own allotments: in range, free, on each core of a pair, within the registers (R86). -/
def restoreOk (s : State) (cores : List Nat) (ws : List Warp) (pl : Placing) : Bool :=
  let z := List.zip ws pl
  pl.length == ws.length && (nodups pl).length == pl.length &&
  (decide (ws.length < 2) || cores.all fun c => pl.any fun p => p.1 == c) &&
  pl.all (fun p => cores.contains p.1 && decide (p.2.1 < 16 ∧ p.2.2 < 9) && !(baySlots s p.1 p.2.1).contains p.2.2 && !growing s p.1 p.2.1) &&
  pl.all fun p => decide (bayUsed s p.1 p.2.1 +
    (z.foldl (fun n q => if q.2.1 = p.1 ∧ q.2.2.1 = p.2.1 then n + q.1.allot else n) 0) ≤ 243)

/-- The cores or pairs of a paddock that could take a saved gang. -/
def restoreCores (s : State) (g : Gang) : List (List Nat) :=
  match s.launch? g.lid with
  | some x => (candidates s x.paddock (g.cores.length == 2) (if dieSpan x then x.die else none)).filter (gangFits s g)
  | none => []

/-- The side of a saved slot's core, on the gang's new cores. -/
def newCore (cores : List Nat) (c : Nat) : Nat := cores.getD (if c = 901 then 1 else 0) 0

/-- The gang's context runs in its paddock and is not being switched out. -/
def ctxRuns (s : State) (g : Gang) : Bool :=
  match s.launch? g.lid with
  | some x => (s.paddock x.paddock).running == some g.ctx && !(s.paddock x.paddock).pausing
  | none => false

/-- GANG_RESTORE (R289): the gang is placed again with the same S.GANG, every saved item at its saved value. -/
def execGangRestore (gid : Nat) (pl : Placing) (s : State) : Out :=
  .next (match s.gang? gid with
    | none => s
    | some g =>
      let ws := gangWarps s gid
      if !g.saved || s.pkg.st ≠ 1 || !ctxRuns s g || ws.any Warp.debugging then s
      else match (restoreCores s g).find? fun cs => restoreOk s cs ws pl with
        | none => s
        | some cores =>
          let where_ (w : Warp) : Warp := match (List.zip ws pl).find? fun p => p.1.wid == w.wid with
            | some p => { w with place := .slot p.2.1 p.2.2.1 p.2.2.2, code := [] }
            | none => w
          let s1 : State := { s with warps := s.warps.map where_, nextId := s.nextId + 1, fresh := s.fresh + 1 }
          let sc := setCarve s1 g.ctx cores
          let ph := gangPhys sc cores g.alines
          let s2 := clearRows (sc.modGang gid fun g => { g with
            phys := ph, saved := false, full := false, ranges := [], barcSince := none, placedAt := s.nextId, cores := cores,
            slots := g.slots.map fun x => { x with core := x.core.map (newCore cores) } }) gid
          g.tasks.foldl (fun s t => ownTask s gid t) s2)

/-! ### Choosing where warps go (R86) -/

/-- The first free slot of some cores, over their bays in turn, whose bay has the registers after some warps have been put. -/
def firstFit (s : State) (cores : List Nat) (put : List ((Nat × Nat × Nat) × Nat)) (allot : Nat) : Option (Nat × Nat × Nat) :=
  let room (c b : Nat) : Bool :=
    !growing s c b &&
    decide ((put.filter fun p => p.1.1 == c && p.1.2.1 == b).foldl (fun n p => n + p.2) (bayUsed s c b) + allot ≤ 243)
  cores.findSome? fun c => (upto 9).findSome? fun k =>
    ((upto 16).find? fun b => !(baySlots s c b).contains k && !(put.any fun p => p.1 == (c, b, k)) && room c b).map fun b => (c, b, k)

/-- Put warps of given allotments one after the other; the last warp of a pair gang prefers the odd core. -/
def fitAll (s : State) (cores : List Nat) : List ((Nat × Nat × Nat) × Nat) → List Nat → Placing
  | put, [] => put.map fun p => p.1
  | put, a :: r =>
    match firstFit s (if r.isEmpty && !put.isEmpty then cores.reverse else cores) put a with
    | some p => fitAll s cores (put ++ [(p, a)]) r
    | none => put.map fun p => p.1

/-- Where the default step puts a new gang: the free choice, when it fits (log entry 4). -/
def placingFor (s : State) (n : Needs) (cores : List Nat) : Placing :=
  if placingOk s n cores (Config.placing s.fresh) then Config.placing s.fresh else fitAll s cores [] (List.replicate n.warps n.regs)

/-- Where it restores a gang: the free choice when it fits, else the lowest cores that hold it. -/
def restoreFor (s : State) (g : Gang) : Placing :=
  let ws := gangWarps s g.gid
  let cs := restoreCores s g
  if cs.any fun c => restoreOk s c ws (Config.placing s.fresh) then Config.placing s.fresh
  else ((cs.map fun c => fitAll s c [] (ws.map fun w => w.allot)).find? fun pl => cs.any fun c => restoreOk s c ws pl).getD []

/-! ### Signals (R297, R298, R308) -/

/-- A held WATCH trap, taken in place of a word (R297). -/
def deliverWatch (s : State) (wid : Nat) (t : WatchTrap) : State :=
  let s1 := s.modWarp wid fun w => { w with watchTraps := w.watchTraps.erase t }
  s1.enterTrap wid ⟨cause.watch, t.map fun p => (p.1, p.2.1, p.2.2)⟩

/-- WATCH_TRAP_DELIVERY (R297): at the first issue of the warp in which no listed lane is halted. -/
def execWatchTrapDelivery (wid : Nat) (s : State) : Out :=
  .next (match s.warp? wid with
    | none => s
    | some w => match watchDue w with
      | some t => if freeToIssue s w && !issuedNow s w then deliverWatch s wid t else s
      | none => s)

/-- Warps of a launch. -/
def ofLaunch (s : State) (lid : Nat) (w : Warp) : Bool := match w.gid.bind s.gang? with | some g => g.lid == lid | none => false

/-- A signal of a kind that is due. -/
def Signal.isDue (g : Signal) (now : Int) (halt : Bool) : Bool := decide (g.at_ ≤ now) && g.halt.isSome == halt

/-- The signals of one kind that come next and are due, and the launch without them: signals are applied in sending order (R310). -/
def dueSignals (x : Launch) (now : Int) (halt : Bool) : List Signal × Launch :=
  (x.signals.takeWhile fun g => g.isDue now halt, { x with signals := x.signals.dropWhile fun g => g.isDue now halt })

/-- A halt reaches a warp: of a gang other than the one that triggered it (R298). -/
def Warp.takeSignal (w : Warp) (g : Signal) : Warp :=
  match g.halt with
  | some h => if w.gid == g.but then w else w.haltAll h.spread
  | none => w

/-- LAUNCH_HALT_SIGNAL (R298): every lane of the launch's other gangs is halted; one that is halted already keeps its reason. -/
def execLaunchHaltSignal (lid : Nat) (s : State) : Out :=
  .next (match s.launch? lid with
    | none => s
    | some x =>
      let d := dueSignals x s.now true
      let halt (w : Warp) : Warp := if ofLaunch s lid w then d.1.foldl Warp.takeSignal w else w
      ({ s with warps := s.warps.map halt } : State).modLaunch lid fun _ => d.2)

/-- HRES_LAUNCH_SIGNAL (R308): every lane of the launch is resumed, a saved warp's too; it waits for a step of one of them (R310). -/
def execHresLaunchSignal (lid : Nat) (s : State) : Out :=
  .next (match s.launch? lid with
    | none => s
    | some x =>
      let d := if s.warps.any fun w => ofLaunch s lid w && stepped s w.wid then ([], x) else dueSignals x s.now false
      let resume (w : Warp) : Warp := if !d.1.isEmpty && ofLaunch s lid w then w.unhalt else w
      ({ s with warps := s.warps.map resume } : State).modLaunch lid fun _ => d.2)

end Sys2Proof.Machine
end

