-- ==== Sys2Proof/Machine/EvFail.lean ====
section
/-! DEFINITION. Machine/EvFail.lean: failures of units and how the part contains them (R20, R22, R158, R224, R290 to R294). An event
that is not enabled leaves the state as it is. -/

namespace Sys2Proof.Machine

open Sys2Proof Tern

/-! ### Cores (R22, R158, R224, R291) -/

/-- End the steps of warps on a core: the core is fenced (R301). -/
def endSteps (s : State) (core : Nat) : State :=
  let on (wid : Nat) : Bool := s.warps.any fun w => w.wid == wid && w.coreNo == core
  let ends (s : State) (iss : Option Nat) (ps : List Pend) : State := ps.foldl (fun s p => match p.op with
    | .hstep x _ gd _ _ => if on x then dbgEnd s iss p.n gd [dbgStatus (-3) 0 0, 0, 0] else s
    | _ => s) s
  let s1 := (s.warps.filter fun w => w.coreNo != core).foldl (fun s w => ends s (some w.wid) w.pends) s
  ends s1 none s1.pkg.dwin

/-- Kill the gangs of a core and break their launches' channels (R223, R291). -/
def killOn (s : State) (core : Nat) : State :=
  let gs := s.gangs.filter fun g => !g.saved && !g.killed && g.cores.contains core
  gs.foldl (fun s g =>
    let s1 := killGang s g.gid none none
    match s1.launch? g.lid with
    | some x => x.chans.foldl breakChan s1
    | none => s1) s

/-- Fence a core (R291): its requests drain, its own contents are discarded, its pair leaves every paddock. -/
def fenceCore (s : State) (core : Nat) : State :=
  if !s.coreLive core then s
  else
    let s1 := killOn (endSteps s core) core
    let s2 := s1.modPkg fun p => { p with deadCores := p.deadCores ++ [core] }
    let s3 : State := { s2 with paddocks := s2.paddocks.map fun d => { d with pairs := d.pairs.filter fun q => q != core / 2 } }
    s3.modCore core fun c => { Core.empty core with banks := c.banks, corrected := c.corrected }

/-- CORE_FENCE (R291). -/
def execCoreFence (core : Nat) (s : State) : Out := .next (fenceCore s core)

/-- GTIME_MISMATCH (R224). -/
def execGtimeMismatch (core : Nat) (s : State) : Out := .next (fenceCore s core)

/-- Fence the cores of a C-die. -/
def fenceDie (s : State) (die : Nat) : State := (upto 64).foldl (fun s i => fenceCore s (64 * die + i)) s

/-- C_DIE_FAILURE (R22): the cores of the die. -/
def execCDieFailure (die : Nat) (s : State) : Out :=
  .next (if 12 ≤ die then s else fenceDie s die)

/-- SCRATCHPAD_BANK_FAILURE (R158): the third failed bank fences the core. -/
def execScratchpadBankFailure (core bank : Nat) (s : State) : Out :=
  .next (if Config.cores ≤ core || 27 ≤ bank || (s.core core).banks.contains bank then s
    else
      let s1 := markBank s core bank
      if 3 ≤ (s1.core core).banks.length then fenceCore s1 core else s1)

/-- WATCH_RECORD_ERROR (R294): the unit is cleared; the next warp in its scope that issues traps with UNCOR. -/
def execWatchRecordError (core unit : Nat) (s : State) : Out :=
  .next (match (s.core core).watch.find? fun u => u.unit == unit with
    | some u => s.modCore core fun c => { c with watch := c.watch.filter fun x => x.unit != unit, errs := c.errs ++ [u] }
    | none => s)

/-! ### Links (R22, R290) -/

/-- The two M-dies to which a C-die has links: which, R13 leaves open (log entry 112). -/
def dieHubs (d : Nat) : List Nat :=
  let a := Config.ucieHub (2 * d) % 4
  [12 + a, 12 + (a + 1 + Config.ucieHub (2 * d + 1) % 3) % 4]
/-- The dies to which a C-die has UCIe links: the C-dies next to it on its side, and two M-dies (R13). Next to each other are the dies of one side
with consecutive numbers: DESIGN CHOICE, R13 does not say in which order the six stand (log entry 112). -/
def diePeers (d : Nat) : List Nat :=
  (if d % 6 = 0 then [] else [d - 1]) ++ (if d % 6 = 5 then [] else [d + 1]) ++ dieHubs d
/-- The UCIe link of two dies, the lower first (R290). -/
def dieLink (a b : Nat) : LinkId := ⟨-1, 729 * ((min a b : Nat) : Int) + ((max a b : Nat) : Int), 0⟩

/-- A link identifier names a link (R13, R16, R290). -/
def linkOk (l : LinkId) : Bool :=
  if l.kind = -1 then
    let a := (field l.place 11 6).toNat
    let b := (field l.place 5 0).toNat
    decide (a < 12) && (diePeers a).contains b && dieLink a b == l
  else inR l.kind 1 3 && inR l.place 0 767 && inR l.dir 1 4 && linkOf l.kind l.place.toNat l.dir.toNat == some l

/-- The word of a link identifier (R290). -/
def linkWord (l : LinkId) : Int := l.kind * pow3 24 + l.place * pow3 12 + l.dir * pow3 9

/-- Every request link, or every reply link, of a core is fenced. -/
def isolated (s : State) (core : Nat) : Bool :=
  [1, 2].any fun (k : Int) => (upto 4).all fun i => match linkOf k core (i + 1) with
    | some l => s.pkg.deadLinks.contains l
    | none => true

/-- Every link of a C-die is fenced: it cuts off the die's cores. -/
def dieIsolated (s : State) (d : Nat) : Bool := (diePeers d).all fun p => s.pkg.deadLinks.contains (dieLink d p)

/-- Fence a link: traffic routes around it, and a core that it isolates is fenced (R22, R291). -/
def fenceLink (s : State) (l : LinkId) : State :=
  let s1 := s.modPkg fun p => { p with deadLinks := p.deadLinks ++ [l] }
  if l.kind = -1 then
    ([(field l.place 11 6).toNat, (field l.place 5 0).toNat].filter fun d => decide (d < 12)).foldl (fun s d => if dieIsolated s d then fenceDie s d else s) s1
  else
    let a := l.place.toNat
    let cs := a :: (neighbour a l.dir.toNat).toList
    cs.foldl (fun s c => if isolated s c then fenceCore s c else s) s1

/-- The links of a list that stand and are named well, each once. -/
def standing (s : State) (ls : List LinkId) : List LinkId := nodups (ls.filter fun l => linkOk l && !s.pkg.deadLinks.contains l)

/-- The warp of sequencer 0: its paddock's running context's. -/
def seqZero (s : State) : Option Nat := ((s.paddock 0).running.bind s.context?).bind fun c => c.seqWid

/-- PERMIT_AUDIT (R290): every 19,683 cycles; sequencer 0 traps with PERMIT for each link fenced. -/
def execPermitAudit (bad : List LinkId) (s : State) : Out :=
  .next (if s.now % 19683 ≠ 0 then s
    else (standing s bad).foldl (fun s l =>
      let s1 := fenceLink s l
      match seqZero s1 with
      | some wid => s1.modWarp wid fun w => { w with permits := w.permits ++ [linkWord l] }
      | none => s1) s)

/-- LINK_ERROR (R22). -/
def execLinkError (link : LinkId) (s : State) : Out := .next ((standing s [link]).foldl fenceLink s)

/-! ### Slices and pseudo-channels (R22, R291, R292) -/

/-- The window copies of lines at a home (R292 step 2): gang, window, line. -/
def copiesAt (s : State) (homed : Int × Int → Bool) : List (Nat × Nat × WLine) :=
  s.gangs.flatMap fun g => (upto g.wins.length).flatMap fun k => match g.win? k with
    | some w => (w.lines.filter fun x => (x.st == .dirty || x.st == .present) && homed x.loc.pkgLine).map fun x => (g.gid, k, x)
    | none => []
/-- They go back to it: dirty ones are written, every one becomes absent. -/
def returnWindows (s : State) (homed : Int × Int → Bool) : State := (copiesAt s homed).foldl (bringHome 2 true) s

/-- A request that a slice has accepted and not performed, when the slice fails (R292 step 4): a write is lost, a reply is UNCOR; a
fill, a multicast and an ownership request are made again at the successor. -/
def loseReq (s : State) (r : Req) : State :=
  match r.body with
  | .read op items | .rtag op items => (capture s op items fun x => .uncor (81 * (x.virt / 81))).data r op
  | .atom op _ us _ =>
    (s.modOp op fun o => { o with lanes := o.lanes.map fun x =>
      if x.got == .waiting && us.any (fun u => u.lane == x.lane && u.at_ == x.at_) then { x with got := .uncor (81 * (x.virt / 81)) } else x }).data r op
  | .fill _ _ _ | .mcast _ _ _ _ | .own _ _ _ _ => s.modReq r.id fun r => { r with stage := 0 }
  | _ => s.delReq r.id

/-- The dirty lines of a slice: those that it holds, and those in its write-back entries (R181, R292). -/
def dirtyLines (s : State) (homed : Int × Int → Bool) : List (Int × Int) :=
  (s.home.held.filter fun h => h.dirty && homed (h.pkg, h.line)).map (fun h => (h.pkg, h.line)) ++
  (s.reqs.filter fun r => homed (r.pkg, r.line) && match r.body with | .evict _ => true | _ => false).map fun r => (r.pkg, r.line)
/-- A core has the newest data of a line, which it writes back or has sent on its way to the line's home (R292). -/
def newerOut (s : State) (homed : Int × Int → Bool) (p : Int × Int) : Bool :=
  ((copiesAt s homed).any fun c => c.2.2.st == .dirty && c.2.2.loc.pkgLine == p) ||
  s.reqs.any fun r => (r.pkg, r.line) == p && match r.body with | .wback _ _ _ _ _ h _ => h | _ => false

/-- Fence a slice (R292). readable: the dirty lines that can still be read. A line whose newest data a core has written back to the successor is
not lost; the pages of the elements of open rounds are poisoned (R188). -/
def fenceSlice (s : State) (slice : Nat) (readable : List Nat) : State :=
  if 256 ≤ slice || s.pkg.deadSlices.contains slice then s
  else
    let me := s.pkg.number
    let homed (p : Int × Int) : Bool := p.1 == me && homeSlice s p.2 == slice
    let lost := ((dirtyLines s homed).filter fun p => !readable.contains p.2.toNat && !newerOut s homed p).map fun p => p.2
    let elems := (s.home.rounds.filter fun r => homed (r.pkg, r.addr / 81)).map fun r => r.addr / 19683
    let s1 := returnWindows s homed
    let accepted := s1.reqs.filter fun r => homed (r.pkg, r.line) && (r.stage != 0 || (match r.body with | .evict _ => true | _ => false))
    let s2 := accepted.foldl loseReq s1
    let s3 : State := { s2 with home := { s2.home with
      held := s2.home.held.filter (fun h => !homed (h.pkg, h.line)),
      rounds := s2.home.rounds.filter (fun r => !homed (r.pkg, r.addr / 81)),
      mcasts := s2.home.mcasts.filter fun e => !homed (e.pkg, e.line) } }
    { (poisonFrames (loseLines s3 me lost) me elems).modPkg fun p => { p with deadSlices := p.deadSlices ++ [slice] } with barred := s.barred }

/-- SLICE_FENCE (R292). -/
def execSliceFence (slice : Nat) (readable : List Nat) (s : State) : Out := .next (fenceSlice s slice readable)

/-- The slice in whose pseudo-channel a line stands: its own, or the one to which the lines of fenced pseudo-channels have been moved (R177, R291). -/
def standsIn (s : State) (line : Int) : Nat :=
  liveSlice (fun x => s.pkg.deadPcs.contains (4 * x + lineChannel line)) 16 (line % 256).toNat

/-- Work on lines that move to another slice: it is done there, what stands in write-back entries is written with the move, and the slice that
gives them up holds them no longer (R177, R291; log entry 69). -/
def moveWork (s : State) (moved : Int × Int → Bool) : State :=
  let mine (r : Req) : Bool := moved (r.pkg, r.line)
  let s1 := (s.reqs.filter mine).foldl (fun s r => match r.body with
    | .evict d => (if d then dedupLine s r.pkg r.line else s).delReq r.id
    | _ => s) s
  { s1 with
    reqs := s1.reqs.map (fun r => if mine r && (r.stage == 1 || r.stage == 3 || r.stage == 4) then { r with stage := 0 } else r),
    home := { s1.home with held := s1.home.held.filter (fun h => !moved (h.pkg, h.line)),
                           mcasts := s1.home.mcasts.filter fun e => !moved (e.pkg, e.line) } }

/-- PSEUDO_CHANNEL_FENCE (R291): the lines that stand there and cannot be read are lost; the others move to the successor with their share. -/
def execPseudoChannelFence (slice pc : Nat) (lost : List Nat) (s : State) : Out :=
  .next (if 256 ≤ slice || 4 ≤ pc || s.pkg.deadPcs.contains (4 * slice + pc) then s
    else
      let mine (l : Int) : Bool := decide (0 ≤ l ∧ l < Config.memoryLines) && standsIn s l == slice && lineChannel l == pc
      let s1 := moveWork s fun p => p.1 == s.pkg.number && mine p.2
      (loseLines s1 s.pkg.number ((lost.map fun (l : Nat) => (l : Int)).filter mine)).modPkg fun p => { p with deadPcs := p.deadPcs ++ [4 * slice + pc] })

/-! ### Peers and scale-out lanes (R331, R334) -/

/-- A peer is marked failed; routes are recomputed (R334). -/
def failPeer (s : State) (pkg : Int) : State :=
  if pkg = s.pkg.number || !inR pkg (-364) 364 || s.pkg.deadPeers.contains pkg then s
  else s.modPkg fun p => { p with deadPeers := p.deadPeers ++ [pkg], rerouting := true }

/-- The other packages of the domain, by number. -/
def otherPackages (s : State) : List Int := ((upto 729).map fun (i : Nat) => (i : Int) - 364).filter fun p => p != s.pkg.number

/-- A scale-out lane is down: routes are recomputed around it; with the last lane every peer has all of its links down (R334). -/
def laneDown (s : State) (lane : Nat) : State :=
  if 32 ≤ lane || s.pkg.scaleDown.contains lane then s
  else
    let s1 := s.modPkg fun p => { p with scaleDown := p.scaleDown ++ [lane], rerouting := true }
    if s1.pkg.scaleDown.length < 32 then s1 else (otherPackages s1).foldl failPeer s1

/-! ### Transducer lanes, M-dies, the clock (R20, R22, R255) -/

/-- Fence a transducer lane: its requests end with outcome −4 (R22, R255); one that has not started reports offset 0 and state 0: DESIGN CHOICE, R255
does not say which state it reports (log entry 136). -/
def fenceLane (s : State) (lane : Nat) : State :=
  if 64 ≤ lane || s.pkg.deadLanes.contains lane then s
  else
    let s1 := s.modPkg fun p => { p with deadLanes := p.deadLanes ++ [lane] }
    (laneQueue s1 lane).foldl (fun s x => endXReq s lane { x with outcome := -4 }) s1

/-- TRANSDUCER_LANE_FENCE (R22). -/
def execTransducerLaneFence (lane : Nat) (s : State) : Out := .next (fenceLane s lane)

/-- The sequencers of an M-die (R14). -/
def dieSeqs (die : Nat) : List Nat := if die = 0 then upto 6 else (upto 7).map fun i => 7 * die - 1 + i

/-- Resume the launches of the paddocks whose sequencers an M-die held, from their journal entries: their placed gangs are relaunched, or
reported (R22, R293; log entry 110). -/
def resumeDie (s : State) (die : Nat) : State :=
  let mine (g : Gang) : Bool := !g.killed && match s.launch? g.lid with | some x => (dieSeqs die).contains x.paddock | none => false
  (s.gangs.filter mine).foldl (fun s g => killGang s g.gid none none) s

/-- The scale-out lanes of an M-die (R14, R331), numbered as its transducer lanes are: DEDUCED (log entry 70). -/
def dieLanes (die : Nat) : List Nat := (upto 8).map fun i => 8 * die + i

/-- M_DIE_FAILURE (R22): die 0 stops the package; another takes its slices, stacks, lanes of both kinds and sequencers with it; the journal keeps
the copies on the other dies, and the launches of its paddocks resume. -/
def execMDieFailure (die : Nat) (s : State) : Out :=
  .next (if 4 ≤ die || s.pkg.deadDies.contains die then s
    else if die = 0 then s.modPkg fun p => { p with st := 2, deadDies := p.deadDies ++ [0] }
    else
      let s1 := (upto 64).foldl (fun s i => fenceSlice s (64 * die + i) []) s
      let s2 := (upto 16).foldl (fun s i => fenceLane s (16 * die + i)) s1
      let s3 := dropWarps s2 fun w => match w.place with | .seq q => (dieSeqs die).contains q | _ => false
      let keep (j : JEntry) : Option JEntry :=
        let d := j.dies.filter fun x => x != die
        if d.isEmpty then none else some { j with dies := d }
      let s4 := resumeDie { (dieLanes die).foldl laneDown s3 with journal := s3.journal.filterMap keep, mem := { s3.mem with lost := s3.mem.lost ++ [(s3.pkg.number, die)] } } die
      s4.modPkg fun p => { p with deadDies := p.deadDies ++ [die], deadSeqs := p.deadSeqs ++ dieSeqs die })

/-- REFERENCE_CLOCK_FAULT (R20): UNCOR is raised to every context's supervisor, its sequencer's handler, with an event in the context's log, and
the package stops (log entry 111). -/
def execReferenceClockFault (s : State) : Out :=
  .next (
    let tell (s : State) (c : Context) : State :=
      let s1 := s.note (some c.ctx) .clock []
      match c.seqWid.bind s1.warp? with
      | some w => s1.enterTrap w.wid ⟨cause.uncor, listed w.issuers 0 0⟩
      | none => s1
    (s.ctxs.foldl tell s).modPkg fun p => { p with st := 2 })

end Sys2Proof.Machine
end

