-- ==== Sys2Proof/Machine/EvPower.lean ====
section
/-! DEFINITION. Machine/EvPower.lean: reset, secure boot, power, peers (R331 to R338, R383). An event that is not enabled leaves the
state as it is. -/

namespace Sys2Proof.Machine

open Sys2Proof Tern

/-! ### Memory across resets (R331, R338) -/

/-- Trytes of a package's key space. -/
def pkgSpan : Nat := 2541865828329
/-- A key belongs to a package. -/
def ofPkg (pkg : Int) (k : Nat) : Bool := decide (memKey pkg 0 ≤ k ∧ k < memKey pkg 0 + pkgSpan)

/-- Clear a package's memory (R338). -/
def Memory.clearPkg (m : Memory) (pkg : Int) : Memory :=
  { m with data := m.data.filter (fun p => !ofPkg pkg p.1), tags := m.tags.filter (fun p => !ofPkg pkg p.1),
           poison := m.poison.filter (fun k => !ofPkg pkg k), frames := m.frames.filter (fun k => !ofPkg pkg k),
           lost := m.lost.filter fun p => p.1 != pkg }

/-- The entries of package a, stood at package b in place of what stood there. -/
def Store.renumber (m : Store) (a b : Int) : Store :=
  let rest := m.filter fun p => !ofPkg a p.1 && !ofPkg b p.1
  let mine := (m.filter fun p => ofPkg a p.1).map fun p => (p.1 - memKey a 0 + memKey b 0, p.2)
  (rest.filter fun p => decide (p.1 < memKey b 0)) ++ mine ++ rest.filter fun p => !decide (p.1 < memKey b 0)

/-- The same for a list of keys. -/
def keysRenumber (l : List Nat) (a b : Int) : List Nat :=
  (l.filter fun k => ofPkg a k || !ofPkg b k).map fun k => if ofPkg a k then k - memKey a 0 + memKey b 0 else k

/-- The package takes a number: its memory is that package's (R331). -/
def Memory.renumber (m : Memory) (a b : Int) : Memory :=
  if a = b then m
  else { m with data := Store.renumber m.data a b, tags := Store.renumber m.tags a b, poison := keysRenumber m.poison a b,
                frames := keysRenumber m.frames a b, lost := (m.lost.filter fun p => p.1 != b).map fun p => if p.1 = a then (b, p.2) else p }

/-! ### Secure boot (R335) -/

/-- The first failed check of an image: 0 signature, 1 key hash, 2 security version. -/
def imageFails (fused : Int) (i : BootImage) : Option Nat :=
  if !i.signed then some 0 else if !i.keyMatches then some 1 else if (i.version : Int) < fused then some 2 else none

/-- The five firmware images in boot order; an image that is not there carries no signature. -/
def bootImage (l : List BootImage) (i : Nat) : BootImage := l.getD i ⟨false, false, 0, false⟩

/-- The first image that fails, with its check. -/
def bootFails (fused : Int) (l : List BootImage) : Option (Nat × Nat) :=
  (upto 5).findSome? fun i => (imageFails fused (bootImage l i)).map fun k => (i, k)

/-- Debugging is enabled: the sixth image, the debug-enable record, names this device and passes the checks (R335). -/
def debugEnabled (fused : Int) (l : List BootImage) : Bool := (bootImage l 5).bound && (imageFails fused (bootImage l 5)).isNone

/-- The package after reset logic and secure boot: a refusal names its check. -/
def bootPkg (old : Package) (l : List BootImage) : Package :=
  let base := { Package.reset with number := old.number, security := old.security, hostReads := old.hostReads }
  match bootFails old.security l with
  | some (i, k) => { base with st := -1, detail := 1 + ((Config.bootDetail i k % 19 : Nat) : Int) }
  | none => { base with debug := if debugEnabled old.security l then 1 else 0 }

/-! ### Resets (R265, R338) -/

/-- Everything but memory as after reset; names and the free values go on. -/
def wiped (s : State) (m : Memory) (p : Package) : State :=
  { State.reset with mem := m, pkg := p, fresh := s.fresh, nextId := s.nextId }

/-- The reserved boundary that a power-on reset fixes: free, within the memory (R329, R338). -/
def bootBoundary (n : Nat) : Int := (Config.memoryLines - Config.reservedLines n % Config.memoryLines : Nat)

/-- POWER_ON_RESET (R338): HBM4 is cleared and the reserved boundary fixed. -/
def execPowerOnReset (images : List BootImage) (s : State) : Out :=
  .next (wiped { s with fresh := s.fresh + 1 } (s.mem.clearPkg s.pkg.number) { bootPkg s.pkg images with boundary := bootBoundary s.fresh })

/-- POWER_LOSS (R293): every launch and journal and HBM4's contents are lost; the package stops. -/
def execPowerLoss (s : State) : Out :=
  .next (wiped s (s.mem.clearPkg s.pkg.number)
    { Package.reset with number := s.pkg.number, security := s.pkg.security, hostReads := s.pkg.hostReads, st := 2 })

/-- A line of which a slice held newer data than HBM4: what HBM4 holds is free (R338). -/
def staleLine (s : State) (p : Int × Int) : State :=
  let d := ssets [] 0 ((upto 81).map fun i => narrow (Config.stale (s.fresh + i)) 9)
  let m := (s.mem.setLine p.1 p.2 d).setTag p.1 p.2 (Tag.ofNum (narrow (Config.stale (s.fresh + 81)) 18))
  { s with mem := m, fresh := s.fresh + 82 }

/-- The lines that fail their check code are poisoned, with every line that maps to their shared copy (R44, R190, R338). -/
def poisonLines (s : State) (ls : List Nat) : State :=
  let ks := (ls.filter fun l => decide (l < Config.memoryLines)).map fun (l : Nat) => lineKey s.pkg.number l
  s.modMem fun m => { m with poison := nodups (m.poison ++ ks ++ ks.flatMap (sharers s)) }

/-- WARM_RESET (R265, R338): HBM4 with its de-duplication tables (R190, R329), the boundary and the journals are kept; the numbering of each paddock goes on above its entries, and no number is used again. -/
def execWarmReset (images : List BootImage) (badLines : List Nat) (s : State) : Out :=
  .next (
    let dirty := nodups (dirtyLines s fun p => p.1 == s.pkg.number)
    let s1 := poisonLines (dirty.foldl staleLine s) badLines
    let p := { bootPkg s.pkg images with
      boundary := s.pkg.boundary, deadCores := s.pkg.deadCores, deadSlices := s.pkg.deadSlices, deadPcs := s.pkg.deadPcs,
      deadLanes := s.pkg.deadLanes, deadSeqs := s.pkg.deadSeqs, deadDies := s.pkg.deadDies, deadLinks := s.pkg.deadLinks }
    let s2 : State := { wiped s1 s1.mem p with journal := s.journal, home := { State.reset.home with dedup := s.home.dedup } }
    (upto 27).foldl (fun t n => if (s.paddock n).nextSeq = 0 then t else t.modPaddock n fun d =>
      { d with nextSeq := (journalOf s n).foldl (fun m j => max m (j.seq + 1)) (s.paddock n).nextSeq }) s2)

/-! ### Power (R337) -/

/-- A grant keeps to the limits: 27 to 729, and at most 27 above the last one. -/
def grantOk (s : State) (die duty : Nat) : Bool := decide (27 ≤ duty ∧ duty ≤ 729 ∧ duty ≤ dutyOf s die + 27)

/-- Grants are on their way; one that its die has missed is not (R337). -/
def granting (s : State) : Bool := s.pkg.grants.any fun g => decide (s.now < g.at_)

/-- POWER_GRANT (R337): every 72,900 cycles, 16 grants in phases 9 cycles apart, each applied 81 cycles after it is posted. -/
def execPowerGrant (duties : List Nat) (s : State) : Out :=
  .next (
    if s.now % 72900 ≠ 0 || granting s || duties.length ≠ 16 then s
    else if !((List.zip (upto 16) duties).all fun p => grantOk s p.1 p.2) then s
    else ({ s with fresh := s.fresh + 1 } : State).modPkg fun k =>
      { k with grants := (List.zip (upto 16) duties).map fun p => ⟨grantWord p.1 p.2, s.now + 9 * (p.1 : Int) + 81⟩ })

/-- The arbiter's choice in the default step: free, within the limits. -/
def dutiesFor (s : State) : List Nat :=
  (upto 16).map fun d => max 27 (min (min 729 (dutyOf s d + 27)) (Config.duty s.fresh d))

/-- GRANT_APPLY (R337). -/
def execGrantApply (die : Nat) (s : State) : Out :=
  .next (
    let due (g : Grant) : Bool := g.die == die && decide (g.at_ ≤ s.now)
    match s.pkg.grants.find? due with
    | none => s
    | some g => s.modPkg fun k => { k with
        duty := (die, g.duty) :: k.duty.filter (fun p => p.1 != die), grants := k.grants.filter fun x => !due x })

/-! ### Peers (R331, R332, R334) -/

/-- PEER_FAILURE (R334). -/
def execPeerFailure (pkg : Int) (s : State) : Out := .next (failPeer s pkg)

/-- End a remote request that has had no answer (R332): loads are UCOR at their word, stores and reductions are discarded with an event,
and the lines of a fill are uncorrectable. -/
def endRemote (s : State) (r : Req) : State :=
  let lost (s : State) : State := (s.note (some r.ctx) .remoteTimeout [r.pkg, r.line]).delReq r.id
  let land (s : State) (g k j : Nat) : State :=
    ((upto 3).foldl (fun s n => landIn s g k j [] Tag.plain n .present true) s).delReq r.id
  match r.body with
  | .fill g k j | .mcast g k j _ => land s g k j
  | .read _ _ | .rtag _ _ | .atom _ _ _ _ => loseReq s r
  | .pref _ | .seek => s.delReq r.id
  | _ => lost s

/-- REMOTE_REQUEST_TIMEOUT (R332, R334): after 2,700,000 cycles; the peer has failed. A request to a live peer that is held while routes are
recomputed does not end. -/
def execRemoteRequestTimeout (id : Nat) (s : State) : Out :=
  .next (match s.req? id with
    | some r =>
      let on := match r.body with | .sectors _ _ _ _ _ _ _ | .mcopy _ _ _ _ _ _ _ | .stream _ _ _ _ _ | .recall _ _ _ _ | .evict _ | .data _ => false | _ => true
      if r.pkg = s.pkg.number || r.pkg = 999 || !on || s.now - r.sent < 2700000 || (s.pkg.rerouting && !s.pkg.deadPeers.contains r.pkg) then s
      else failPeer (endRemote s r) r.pkg
    | none => s)

/-- SCALE_OUT_LINK_FAULT (R334): routes are recomputed around the lane; with the last lane every peer has all of its links down. -/
def execScaleOutLinkFault (lane : Nat) (s : State) : Out :=
  .next (laneDown s lane)

/-- ROUTES_RECOMPUTED (R334): held traffic resumes; the time that a request to a live peer was held counts for no timeout. -/
def execRoutesRecomputed (s : State) : Out :=
  .next (
    let go (r : Req) : Req :=
      if s.pkg.rerouting && r.pkg != s.pkg.number && r.pkg != 999 && !s.pkg.deadPeers.contains r.pkg then { r with sent := s.now } else r
    ({ s with reqs := s.reqs.map go } : State).modPkg fun p => { p with rerouting := false })

/-- DUPLICATE_PACKAGE_NUMBER (R331): held with every scale-out lane down; status word 2 reads 20. -/
def execDuplicatePackageNumber (s : State) : Out :=
  .next (if s.pkg.st ≠ 0 ∧ s.pkg.st ≠ 1 then s else s.modPkg fun p => { p with detail := 20, scaleDown := upto 32 })

/-! ### The host's side of a fence (R383) -/

/-- COMPLETION_TIMEOUT (R383): the PCIe read of a fence ends in a completion timeout; an event is logged. -/
def execCompletionTimeout (wid : Nat) (s : State) : Out :=
  .next (match s.warp? wid with
    | some w => (match w.fence with
      | some f => if f.host then (s.modWarp wid fun w => { w with fence := some { f with host := false } }).note (some w.ctx) .completionTimeout [w.address 0]
                  else s
      | none => s)
    | none => s)

end Sys2Proof.Machine
end

