-- ==== Sys2Proof/Machine/EvCommand.lean ====
section
/-! DEFINITION. Machine/EvCommand.lean: the commands of command programs as they take effect, and ATS invalidations (R150, R151,
R264). Each acts as the command issued at supervisor level by sequencer 0; one that must wait, or whose fields are bad, leaves the
state as it is. -/

namespace Sys2Proof.Machine

open Sys2Proof Tern

/-- A command record of a kind, with its words from word 1 on (R264). -/
def commandRecord (kind : Int) (ws : List Int) : List Int := (kind * pow3 24 :: ws) ++ List.replicate (26 - ws.length) 0

/-- A command that completes at once, issued in paddock 0's running context for a paddock. -/
def commandEvent (s : State) (pad : Nat) (r : List Int) : State :=
  match (s.paddock 0).running with
  | none => s
  | some ctx => match command s 768 ctx pad true r with
    | .done s1 => s1
    | _ => s

/-- TRANSLATION_INVALIDATION (R150, R264). -/
def execTranslationInvalidation (half first count desc : Int) (s : State) : Out :=
  .next (commandEvent s 0 (commandRecord (-1) [half, lowWord first, highWord first, count, lowWord desc, highWord desc]))

/-- PIN_RELEASE (R168, R264): in the named context. -/
def execPinRelease (ctx : Nat) (key : Int) (s : State) : Out := .next (releasePins s ctx key)

/-- ROUND_DISCARD (R188, R264): the element address in the named context. -/
def execRoundDiscard (ctx : Nat) (addr tag : Int) (s : State) : Out :=
  .next (match command s 768 ctx 0 true (commandRecord (-3) [lowWord addr, highWord addr, tag]) with
    | .done s1 => s1
    | _ => s)

/-- CHANNEL_RESET (R216, R264). -/
def execChannelReset (pad : Nat) (seq name : Int) (s : State) : Out := .next (commandEvent s pad (commandRecord (-4) [seq, name]))

/-- CONTEXT_BIND (R258, R264). -/
def execContextBind (pad : Nat) (desc : Int) (s : State) : Out := .next (commandEvent s 0 (commandRecord 2 [pad, lowWord desc, highWord desc]))

/-- PADDOCK_LIMITS (R264, R271). -/
def execPaddockLimits (pad min_ max_ : Nat) (s : State) : Out := .next (commandEvent s 0 (commandRecord 3 [pad, min_, max_]))

/-- CONTEXT_UNBIND (R264). -/
def execContextUnbind (pad : Nat) (desc : Int) (s : State) : Out := .next (commandEvent s 0 (commandRecord 4 [pad, lowWord desc, highWord desc]))

/-- ATS_INVALIDATION (R150, R151): the matching translations are dropped; it is answered when the accesses checked before it have ended. -/
def execAtsInvalidation (ctx : Nat) (half first count : Int) (s : State) : Out :=
  .next (
    let ws := invalAwaits s ctx half first count
    let s1 := if ws.isEmpty then invalidate s ctx half first count else dropTlb s ctx half first count
    { s1 with invals := s1.invals ++ [⟨ctx, half, first, count, ws, ws.isEmpty⟩] })

end Sys2Proof.Machine
end

