-- ==== Sys2Proof/Machine/EvHost.lean ====
section
/-! DEFINITION. Machine/EvHost.lean: the host's side: mailbox, windows, AtomicOps, time record, reports, debug window (R268, R311,
R326 to R330, R336). An event that is not enabled leaves the state as it is. -/

namespace Sys2Proof.Machine

open Sys2Proof Tern

/-! ### Mailbox operations (R330, R336) -/

/-- Two's complement bytes of a value, lowest first. -/
def bytesLE (v : Int) (n : Nat) : List (BitVec 8) := (upto n).map fun i => BitVec.ofNat 8 (v / (256 : Int) ^ i % 256).toNat

/-- Bytes 0 to 216 of a report (R336). -/
def reportBody (s : State) (nonce : List Int) : List (BitVec 8) :=
  ((upto 4).flatMap fun i => bytesLE (wordAt nonce i) 8) ++ ((upto 5).flatMap fun i => (upto 32).map fun j => Config.imageHash i j) ++
  bytesLE s.pkg.security 2 ++ bytesLE s.pkg.debug 1 ++ (upto 22).map fun j => Config.identity j
/-- A signed report. -/
def signedReport (s : State) (nonce : List Int) : List (BitVec 8) :=
  let b := reportBody s nonce
  b ++ (upto 384).map fun i => Config.signature b i

/-- The lines of local memory that the host's operations may name: below the reserved boundary. -/
def localLine (s : State) (l : Int) : Bool := decide (0 ≤ l ∧ l < s.pkg.boundary)

/-- Zero a small frame and clear it from the poison list (R330): its lines map to no shared copy any more (R190); the time record stays (R268). -/
def freeFrame (s : State) (frame : Int) : State :=
  let me := s.pkg.number
  let ls := ((upto 243).map fun (i : Nat) => 243 * frame + (i : Int)).filter fun l => l != 0
  let s1 := ls.foldl (fun s l => recallNow s me l true) s
  let m := ls.foldl (fun (m : Memory) l => (m.setLine me l []).setTag me l Tag.plain) s1.mem
  let keys := ls.map (lineKey me)
  let m2 : Memory := { m with poison := m.poison.filter (fun k => !keys.contains k), frames := m.frames.filter fun k => k != frameKey me frame }
  let h := { s1.home with dedup := s1.home.dedup.filter fun d => !keys.contains d.1 }
  dropFrame (ls.foldl (fun s l => refreshFills s me l) { s1 with mem := m2, home := h }) me frame

/-- Write a report to memory as raw-view trytes (R336). -/
def writeReport (s : State) (addr : Int) (bs : List (BitVec 8)) : State :=
  let me := s.pkg.number
  let s1 := (upto 8).foldl (fun (s : State) (i : Nat) => takeNow s me (addr / 81 + (i : Int))) s
  let s2 := s1.modMem fun m => { m with data := ssets m.data (memKey me addr) (bs.map fun b => (b.toNat : Int)) }
  (upto 8).foldl (fun (s : State) (i : Nat) => refreshFills s me (addr / 81 + (i : Int))) s2

/-- The descriptor at a local address (R330). -/
def localDesc (s : State) (a : Int) : Option (List Int) :=
  if a % 81 ≠ 0 || !localLine s (a / 81) then none
  else
    let s1 := recallNow s s.pkg.number (a / 81) false
    match s1.mem.lineAt (.dom s.pkg.number a) with
    | .data d _ => some ((upto 27).map fun i => lineWord d i)
    | _ => none

/-- Start sequencer 0 at an entry in a context that is bound to paddock 0 (R259, R330, R338). -/
def startZero (s : State) (entry desc : Int) (d : List Int) : State :=
  let s1 := bindContext s 0 desc d
  match s1.ctxs.find? fun c => c.paddock == 0 && c.desc == desc with
  | none => s1
  | some c =>
    let s2 := (switchIn s1 0 c).modPkg fun p => { p with st := 1 }
    match (s2.context? c.ctx).bind fun c => c.seqWid with
    | some wid => s2.modWarp wid fun w => { w with lanes := List.replicate 27 (Lane.start entry) }
    | none => s2

/-- The slices' lists when the package takes a number (R331). -/
def Home.renumber (h : Home) (a b : Int) : Home :=
  let key (k : Nat) : Nat := if ofPkg a k then k - memKey a 0 + memKey b 0 else k
  { h with held := h.held.map (fun x => if x.pkg = a then { x with pkg := b } else x), dedup := h.dedup.map fun d => (key d.1, key d.2) }

/-- The package takes its number, once after a reset (R331, R338). -/
def setNumber (s : State) (n : Int) : State :=
  ({ s with mem := s.mem.renumber s.pkg.number n, home := s.home.renumber s.pkg.number n } : State).modPkg fun p => { p with number := n, numbered := true }

/-- A mailbox operation: 0 done, −1 a bad operand, −2 the wrong state (R330). The state is tested first; bring-up has taken its step 4 once the
number is set, which only a reset undoes, and takes step 5 after it (R331, R338; log entry 113). -/
def mailboxOp (s : State) (w : List Int) : State × Int :=
  let op := wordAt w 0
  let st := s.pkg.st
  if op = 1 then
    if st ≠ 0 || s.pkg.numbered then (s, -2)
    else if !inR (wordAt w 1) (-364) 364 then (s, -1)
    else (setNumber s (wordAt w 1), 0)
  else if op = 2 then
    if st ≠ 0 || s.pkg.detail = 20 || !s.pkg.numbered then (s, -2)
    else match localDesc s (dblAt w 3) with
      | some d => if descOk 0 d then (startZero s (dblAt w 1) (dblAt w 3) d, 0) else (s, -1)
      | none => (s, -1)
  else if op = 3 then
    if st ≠ 1 then (s, -2)
    else if !inR (wordAt w 1) 1 27 || (ctxOfDesc s (dblAt w 2)).isNone || !canonicalAddr (dblAt w 4) || dblAt w 4 % 81 ≠ 0 then (s, -1)
    else (s.modPkg fun p => { p with vfs := p.vfs.filter (fun v => (v.n : Int) != wordAt w 1) ++ [⟨(wordAt w 1).toNat, dblAt w 2, dblAt w 4⟩] }, 0)
  else if op = 4 then
    if st ≠ 1 then (s, -2)
    else if dblAt w 1 < 0 || !localLine s (243 * dblAt w 1 + 242) then (s, -1)
    else (freeFrame s (dblAt w 1), 0)
  else if op = 5 then
    if st = -1 then (s, -2)
    else if !inR (wordAt w 1) 0 3600 then (s, -1)
    else (s.modPkg fun p => { p with ceiling := wordAt w 1 }, 0)
  else if op = 6 then
    if st ≠ 1 then (s, -2)
    else if dblAt w 5 % 81 ≠ 0 || dblAt w 5 ≤ 0 || !localLine s (dblAt w 5 / 81 + 7) then (s, -1)
    else
      let r := signedReport s [wordAt w 1, wordAt w 2, wordAt w 3, wordAt w 4]
      (writeReport (s.modPkg fun p => { p with report := r }) (dblAt w 5) r, 0)
  else (s, -1)

/-- Run the mailbox as it stands, its word 26 at +1; the device answers in word 26. -/
def runMailbox (s : State) : State :=
  let r := mailboxOp s s.pkg.mailbox
  r.1.modPkg fun p => { p with mailbox := p.mailbox.set 26 r.2 }

/-- The host fills the mailbox and starts it; a busy mailbox ignores it. -/
def mailboxEvent (s : State) (ws : List Int) : State :=
  if wordAt s.pkg.mailbox 26 = 1 then s
  else runMailbox (s.modPkg fun p => { p with mailbox := (ws ++ List.replicate (26 - ws.length) 0) ++ [1] })

/-- SET_PACKAGE_NUMBER (R330, R331). -/
def execSetPackageNumber (n : Int) (s : State) : Out := .next (mailboxEvent s [1, n])
/-- START_SEQUENCER_0 (R330). -/
def execStartSequencer0 (entry desc : Int) (s : State) : Out :=
  .next (mailboxEvent s [2, lowWord entry, highWord entry, lowWord desc, highWord desc])
/-- BIND_VF (R326, R330). -/
def execBindVf (vf desc base : Int) (s : State) : Out :=
  .next (mailboxEvent s [3, vf, lowWord desc, highWord desc, lowWord base, highWord base])
/-- RELEASE_FRAME (R330). -/
def execReleaseFrame (frame : Int) (s : State) : Out := .next (mailboxEvent s [4, lowWord frame, highWord frame])
/-- SET_POWER_CEILING (R330, R337). -/
def execSetPowerCeiling (watts : Int) (s : State) : Out := .next (mailboxEvent s [5, watts])
/-- ATTEST (R330, R336). -/
def execAttest (nonce : List Int) (addr : Int) (s : State) : Out :=
  .next (mailboxEvent s [6, wordAt nonce 0, wordAt nonce 1, wordAt nonce 2, wordAt nonce 3, lowWord addr, highWord addr])
/-- GET_MEASUREMENTS (R336): the signed report, over the management interface. -/
def execGetMeasurements (nonce : List Int) (s : State) : Out :=
  .next (if s.pkg.st = -1 then s else s.modPkg fun p => { p with report := signedReport s nonce })

/-! ### The debug window (R311) -/

/-- The operation that the window's words ask for; none when an instruction with these fields is not legal (R302). -/
def windowOp (w : List Int) : Option DbgOp :=
  let op := wordAt w 0
  let m := wordAt w 1
  let i := wordAt w 7
  let scope := field m 5 4
  let part := field m 3 2
  let item : Option HItem :=
    if field m 26 4 ≠ 0 || field m 1 0 ≠ 0 then none
    else if part = 0 ∧ i = 0 then some .pc
    else if part = 1 ∧ i = 0 then some .depth
    else if part = -1 ∧ inR i 1 9841 then some (.link i.toNat)
    else none
  let unit := m == 0 && inR i 0 26
  let val := m == 0 && (inR i 0 80 || inR i 100 108 || inR i 200 202 || i == 300 || inR i 400 426 || inR i 500 508)
  let spans := inR scope (-1) 2 && field m 26 6 == 0 && field m 3 0 == 0 && i == 0
  if op = 0 then (if spans then some (.halt scope) else none)
  else if op = 7 then (if unit then some (.wset [wordAt w 2, wordAt w 3, wordAt w 4] (wordAt w 6) i.toNat) else none)
  else if op = 8 then (if unit then some (.wclr i.toNat) else none)
  else if op = 9 then (if unit then some (.wrd i.toNat) else none)
  else if op = 10 then (if m = 0 ∧ i = 0 then some .hlst else none)
  else if op = 11 then (if val then some (.hrdv i.toNat) else none)
  else if op = 12 then (if val then some (.hwrv (wordAt w 2) i.toNat) else none)
  else if op = 13 then item.map .hrdp
  else if op = 14 then item.map fun x => .hwrp (wordAt w 2) (wordAt w 3) x
  else if op = 15 then (if m = 0 ∧ i = 0 then some .hstep else none)
  else if op = 16 then (if spans then some (.hres scope) else none)
  else none

/-- Start the window's operation: its control word is +1 until it ends. -/
def startWindow (s : State) : State :=
  let b := wordAt s.pkg.window 5
  match windowOp s.pkg.window with
  | none => s.modPkg fun p => { p with window := p.window.set 8 0 }
  | some r =>
    let n := s.nextId
    let s1 := s.bump.modPkg fun p => { p with window := p.window.set 8 1, dwin := p.dwin ++ [⟨n, .dbg r b 0 s.now, 0⟩] }
    dbgRun s1 none n r b 0 s.now

/-- The window is enabled and idle. -/
def windowFree (s : State) : Bool := s.pkg.debug == 1 && wordAt s.pkg.window 8 != 1 && s.pkg.st != -1

/-- The host fills words 0 to 7 and starts the window. -/
def windowEvent (s : State) (op m a0 a1 a2 b c i : Int) : State :=
  if !windowFree s then s
  else startWindow (s.modPkg fun p => { p with window := [op, m, a0, a1, a2, b, c, i] ++ p.window.drop 8 })

/-- DEBUG_HALT. -/
def execDebugHalt (b scope : Int) (s : State) : Out := .next (windowEvent s 0 (scope * pow3 4) 0 0 0 b 0 0)
/-- DEBUG_WSET. -/
def execDebugWset (a0 a1 a2 b c unit : Int) (s : State) : Out := .next (windowEvent s 7 0 a0 a1 a2 b c unit)
/-- DEBUG_WCLR. -/
def execDebugWclr (b unit : Int) (s : State) : Out := .next (windowEvent s 8 0 0 0 0 b 0 unit)
/-- DEBUG_WRD. -/
def execDebugWrd (b unit : Int) (s : State) : Out := .next (windowEvent s 9 0 0 0 0 b 0 unit)
/-- DEBUG_HLST. -/
def execDebugHlst (b : Int) (s : State) : Out := .next (windowEvent s 10 0 0 0 0 b 0 0)
/-- DEBUG_HRDV. -/
def execDebugHrdv (b item : Int) (s : State) : Out := .next (windowEvent s 11 0 0 0 0 b 0 item)
/-- DEBUG_HWRV. -/
def execDebugHwrv (a b item : Int) (s : State) : Out := .next (windowEvent s 12 0 a 0 0 b 0 item)
/-- DEBUG_HRDP. -/
def execDebugHrdp (b item e : Int) (s : State) : Out := .next (windowEvent s 13 (item * pow3 2) 0 0 0 b 0 e)
/-- DEBUG_HWRP. -/
def execDebugHwrp (a0 a1 b item e : Int) (s : State) : Out := .next (windowEvent s 14 (item * pow3 2) a0 a1 0 b 0 e)
/-- DEBUG_HSTEP. -/
def execDebugHstep (b : Int) (s : State) : Out := .next (windowEvent s 15 0 0 0 0 b 0 0)
/-- DEBUG_HRES. -/
def execDebugHres (b scope : Int) (s : State) : Out := .next (windowEvent s 16 (scope * pow3 4) 0 0 0 b 0 0)

/-- The 150 bytes of a line with a tag: trits and tag (R42, R43). -/
def imageBytes (d : Store) (t : Tag) : List Nat :=
  ((split 5 146 (join 9 (sgets d 0 81))).map tritsByte) ++ (split 5 4 t.num).map tritsByte

/-- The status line (R329). -/
def statusLine (s : State) : List Int :=
  [s.pkg.st, s.pkg.number, s.pkg.detail, s.pkg.security, s.pkg.debug, lowWord s.pkg.boundary, highWord s.pkg.boundary, s.pkg.ceiling] ++
  List.replicate 19 0

/-- A word of the control region as a function reads it: a VF reads 0 (R326), and so does everybody in a debug window that is not enabled
(R311). A read of the region changes nothing, so no step answers one. -/
def controlRead (s : State) (fn : HostFn) (line word : Nat) : Int :=
  if fn.isSome then 0
  else if line = 0 then wordAt (statusLine s) word
  else if line = 1 then wordAt s.pkg.mailbox word
  else if line = 2 ∧ s.pkg.debug = 1 then wordAt s.pkg.window word
  else 0

/-- The trytes of a control line: its 27 words. -/
def controlData (s : State) (fn : HostFn) (line : Nat) : Store := ssets [] 0 ((upto 27).flatMap fun w => split 9 3 (controlRead s fn line w))
/-- The bytes of the control region as a function reads them: line k stands packed at offset 150k, with the tag PLAIN (R42, R43, R326, R329). -/
def controlBytes (s : State) (fn : HostFn) (off n : Nat) : List Nat :=
  ((upto 3).flatMap fun k => if fn.isSome then List.replicate 150 0 else imageBytes (controlData s fn k) Tag.plain).drop off |>.take n

/-- CONTROL_REGION_WRITE (R10, R311, R326, R329, R330): a mailbox or window word is staged, or starts the staged operation; a VF's write, the
status line, the window's reserved words, a busy mailbox or window and a window that is not enabled ignore it. -/
def execControlRegionWrite (line : CtlLine) (word : Nat) (value : Int) (s : State) : Out :=
  .next (
    if line.fn.isSome || 27 ≤ word then s
    else if line.line = 1 then
      if wordAt s.pkg.mailbox 26 = 1 then s
      else
        let s1 := s.modPkg fun p => { p with mailbox := p.mailbox.set word (narrow value 27) }
        if word = 26 ∧ value = 1 then runMailbox s1 else s1
    else if line.line = 2 then
      if !windowFree s || 15 ≤ word then s
      else if word = 8 then (if value = 1 then startWindow s else s)
      else s.modPkg fun p => { p with window := p.window.set word (narrow value 27) }
    else s)

/-! ### Where a host access lands (R326) -/

/-- The window an access uses. -/
inductive HostAcc
  | at_ (l : Loc)
  | refused
  deriving DecidableEq, Repr

/-- The context of a bound VF, with its aperture base. -/
def vfOf (s : State) (n : Nat) : Option (Context × Int) :=
  match s.pkg.vfs.find? fun v => v.n == n with
  | some v => (ctxOfDesc s v.desc).map fun c => (c, v.base)
  | none => none

/-- The place of tryte t of a function's windows, with the accessed and dirty trits set (R149, R326). -/
def hostPlace (s : State) (fn : HostFn) (nd : Need) (t : Int) : State × HostAcc :=
  match fn with
  | none => (s, if t < 81 * Config.memoryLines then .at_ (.dom s.pkg.number t) else .refused)
  | some n => match vfOf s n with
    | none => (s, .refused)
    | some (c, b) =>
      let a := b + t
      if !canonicalAddr a || pageOf a ≤ 0 then (s, .refused)
      else
        let w := coldWalk s c.ctx (pageOf a)
        match w.2 with
        | .error _ => (w.1, .refused)
        | .ok (e, lv, at_) => match leafChk w.1 c.ctx nd e lv a true with
          | .ok l =>
            let s1 := setPteBit w.1 at_ 45
            (if nd.w then setPteBit s1 at_ 44 else s1, .at_ l)
          | _ => (w.1, .refused)

/-- The windows and the aperture answer (R335): not after a refused boot, nor when the package has stopped. -/
def barsUp (s : State) : Bool := s.pkg.st == 0 || s.pkg.st == 1

/-- An engine owns the line, or remote traffic to it is held: the access waits. -/
def hostBusy (s : State) (l : Loc) : Bool := engineOwned s l.pkgLine.1 l.pkgLine.2 || remoteHeld s l.pkgLine.1

/-- What the host receives: 0 and bytes, 1 Unsupported Request, 2 poisoned data. -/
def hostAnswer (s : State) (ws : List Int) : State := s.modPkg fun p => { p with hostReads := p.hostReads ++ [ws] }
/-- A discarded write is logged through AER. -/
def aerDiscard (s : State) : State := (s.note none .aerDiscard []).modPkg fun p => { p with aer := p.aer + 1 }

/-! ### Packed and raw windows (R326, R327) -/

/-- The 150 bytes of a line in the packed window. -/
def packedImage (m : Memory) (pkg line : Int) : List Nat := imageBytes (m.line pkg line) (m.tag pkg line)

/-- Pieces of a byte range of a window by line: line index, first byte within it, number of bytes. -/
def byLine (per off len : Nat) : List (Nat × Nat × Nat) :=
  let a := off / per
  let z := (off + len + per - 1) / per
  (upto (z - a)).map fun i =>
    let lo := max off ((a + i) * per)
    let hi := min (off + len) ((a + i + 1) * per)
    (a + i, lo - (a + i) * per, hi - lo)

/-- Bytes of a line, packed or raw, as a window gives them (R327). -/
def windowBytes (raw : Bool) (o n : Nat) (d : Store) (t : Tag) : Except Int (List Int) :=
  if raw then
    let ts := sgets d o n
    if ts.all fun t => inR t 0 255 then .ok ts else .error 2
  else .ok (((imageBytes d t).drop o).take n |>.map fun (b : Nat) => (b : Int))

/-- What a read of one line's bytes gives: none to wait; an answer code, or the bytes. -/
def hostReadLine (s : State) (fn : HostFn) (raw : Bool) (p : Nat × Nat × Nat) : State × Option (Except Int (List Int)) :=
  let r := hostPlace s fn Need.read (81 * (p.1 : Int))
  match r.2 with
  | .refused => (r.1, some (.error 1))
  | .at_ l =>
    if l.isHost then
      let s1 := hostActs r.1 l
      (s1, some (match s1.mem.lineAt l with | .data d t => windowBytes raw p.2.1 p.2.2 d t | _ => .error 2))
    else if hostBusy r.1 l then (r.1, none)
    else
      let q := l.pkgLine
      let s1 := recallNow r.1 q.1 q.2 false
      if s1.mem.bad q.1 q.2 then (s1, some (.error 2))
      else (s1, some (windowBytes raw p.2.1 p.2.2 (s1.mem.line q.1 q.2) (s1.mem.tag q.1 q.2)))

/-- Read the pieces of a range in order. -/
def hostReadAll (s : State) (fn : HostFn) (raw : Bool) : List (Nat × Nat × Nat) → State × Option (Except Int (List Int))
  | [] => (s, some (.ok []))
  | p :: r =>
    let x := hostReadLine s fn raw p
    match x.2 with
    | some (.ok bs) =>
      let y := hostReadAll x.1 fn raw r
      (y.1, match y.2 with | some (.ok cs) => some (.ok (bs ++ cs)) | o => o)
    | o => (x.1, o)

/-- A read of a window: Unsupported Request, poisoned data, or the bytes. -/
def hostRead (s : State) (fn : HostFn) (raw : Bool) (off len : Nat) : State :=
  if !barsUp s then hostAnswer s [1]
  else
    let r := hostReadAll s fn raw (byLine (if raw then 81 else 150) off len)
    match r.2 with
    | none => s
    | some (.error e) => hostAnswer r.1 [e]
    | some (.ok bs) => hostAnswer r.1 (0 :: bs)

/-- HOST_PACKED_READ (R327). -/
def execHostPackedRead (fn : HostFn) (off len : Nat) (s : State) : Out := .next (hostRead s fn false off len)
/-- HOST_RAW_READ (R327). -/
def execHostRawRead (fn : HostFn) (off len : Nat) (s : State) : Out := .next (hostRead s fn true off len)

/-- A line image with bytes written from byte o on; an invalid byte is left out. -/
def overlay (img : List Nat) (o : Nat) (bs : List (BitVec 8)) : List Nat :=
  (List.zip (upto bs.length) bs).foldl (fun (l : List Nat) p => if p.2.toNat ≤ 242 then l.set (o + p.1) p.2.toNat else l) img

/-- The digits of a byte as five trits. -/
def byteVal (b : Nat) : Int := (b : Int) - 121

/-- The trytes of a packed image. -/
def imageData (img : List Nat) : Store := ssets [] 0 (split 9 81 (narrow (join 5 ((img.take 146).map byteVal)) 729))

/-- Write a line from its image; pad trits are written as 0 (R327). -/
def putImage (m : Memory) (pkg line : Int) (img : List Nat) : Memory :=
  let t := narrow (join 5 ((img.drop 146).map byteVal)) 18
  (m.setLine pkg line (imageData img)).setTag pkg line (Tag.ofNum t)

/-- A packed write holds a byte that is none: it is discarded and logged through AER (R327). -/
def logBytes (raw : Bool) (bs : List (BitVec 8)) (s : State) : State := if !raw && bs.any (fun b => decide (242 < b.toNat)) then aerDiscard s else s

/-- Write a line's bytes through a leaf that leads to host memory (R45, R326): the trytes that they hold. A packed write to a line that cannot be
read is discarded. -/
def hostLeafWrite (s : State) (l : Loc) (raw : Bool) (o : Nat) (bs : List (BitVec 8)) : State :=
  if raw then s.modMem fun m => (List.zip (upto bs.length) bs).foldl (fun m p => m.writeLoc (l.plus ((o + p.1 : Nat) : Int)) 1 (p.2.toNat : Int)) m
  else match s.mem.lineAt l with
    | .data d t =>
      let e := imageData (overlay (imageBytes d t) o bs)
      logBytes raw bs (s.modMem fun m => (upto 81).foldl (fun m (i : Nat) => if sget e i = sget d i then m else m.writeLoc (l.plus (i : Int)) 1 (sget e i)) m)
    | _ => aerDiscard s

/-- Write one line's bytes of a window. none: it waits. -/
def hostWriteLine (s : State) (fn : HostFn) (raw : Bool) (p : Nat × Nat × Nat) (bs : List (BitVec 8)) : Option State :=
  let r := hostPlace s fn Need.write (81 * (p.1 : Int))
  match r.2 with
  | .refused => some (aerDiscard r.1)
  | .at_ l =>
    if l.isHost then some (hostLeafWrite (hostActs r.1 l) l raw p.2.1 (bs.take p.2.2))
    else if hostBusy r.1 l then none
    else
      let q := l.pkgLine
      if q.2 = 0 then some r.1
      else
        let s1 := recallNow r.1 q.1 q.2 true
        if s1.mem.bad q.1 q.2 then some (aerDiscard s1)
        else
          let bs := bs.take p.2.2
          let s2 := install (unshare (roomNow q.1 q.2 17 s1) [q]) q.1 q.2 true
          let s3 := s2.modMem fun m =>
            if raw then { m with data := ssets m.data (memKey q.1 (81 * q.2 + p.2.1)) (bs.map fun b => (b.toNat : Int)) }
            else putImage m q.1 q.2 (overlay (packedImage m q.1 q.2) p.2.1 bs)
          some (logBytes raw bs (refreshFills s3 q.1 q.2))

/-- Write the pieces of a range in order. -/
def hostWriteAll (s : State) (fn : HostFn) (raw : Bool) : List (Nat × Nat × Nat) → List (BitVec 8) → Option State
  | [], _ => some s
  | p :: r, bs => match hostWriteLine s fn raw p bs with
    | some s1 => hostWriteAll s1 fn raw r (bs.drop p.2.2)
    | none => none

/-- A write to a window. -/
def hostWriteWin (s : State) (fn : HostFn) (raw : Bool) (off : Nat) (bs : List (BitVec 8)) : State :=
  if !barsUp s then aerDiscard s
  else (hostWriteAll s fn raw (byLine (if raw then 81 else 150) off bs.length) bs).getD s

/-- HOST_PACKED_WRITE (R327). -/
def execHostPackedWrite (fn : HostFn) (off : Nat) (bytes : List (BitVec 8)) (s : State) : Out := .next (hostWriteWin s fn false off bytes)
/-- HOST_RAW_WRITE (R327). -/
def execHostRawWrite (fn : HostFn) (off : Nat) (bytes : List (BitVec 8)) (s : State) : Out := .next (hostWriteWin s fn true off bytes)

/-! ### The atomic aperture (R328) -/

/-- The place is word 0 of a bound context's wake barrier. -/
def isWake (s : State) (l : Loc) : Bool :=
  s.ctxs.any fun c =>
    let a := dblAt c.words 21
    a != 0 && match (coldWalk s c.ctx (pageOf a)).2 with
      | .ok (e, lv, _) => placeOf e lv a == l
      | .error _ => false

/-- An operand in range (R328). -/
def inWord (x : Int) : Bool := canon x 27

/-- One AtomicOp: f updates the word; arrive: it is a FetchAdd of −1. One of another size is Unsupported Request with nothing performed (R328): it changes
no state, and the table has no step for it. -/
def hostAtomic (s : State) (fn : HostFn) (off : Nat) (xs : List Int) (arrive : Bool) (f : Int → Int) : State :=
  if !barsUp s || off % 8 ≠ 0 || !(xs.all inWord) then hostAnswer s [1]
  else
    let r := hostPlace s fn Need.rmw (3 * ((off / 8 : Nat) : Int))
    match r.2 with
    | .refused => hostAnswer r.1 [1]
    | .at_ l =>
      let q := l.pkgLine
      if hostBusy r.1 l then s
      else if isWake r.1 l then
        if !arrive then hostAnswer r.1 [1]
        else match l with
          | .dom p x =>
            let s1 := takeNow r.1 p (x / 81)
            let old := s1.mem.read p x 3
            (match tbArrive s1 (.glob p x) with
              | some s2 => hostAnswer s2 [0, old]
              | none => hostAnswer ((s1.note none .aerAdvisory []).modPkg fun k => { k with aer := k.aer + 1 }) [0, old])
          | .host _ _ _ => s
      else
        let s0 := recallNow r.1 q.1 q.2 true
        match s0.mem.lineAt l with
        | .data _ _ =>
          let s1 := takeNow s0 q.1 q.2
          hostAnswer (updateNow s1 l 3 f) [0, s1.mem.rawAt l 3]
        | .bad => hostAnswer s0 [2]
        | .reserved => hostAnswer s0 [1]

/-- HOST_FETCHADD (R328). -/
def execHostFetchadd (fn : HostFn) (off : Nat) (x : Int) (s : State) : Out :=
  .next (hostAtomic s fn off [x] (x == -1) fun m => narrow (m + x) 27)
/-- HOST_SWAP (R328). -/
def execHostSwap (fn : HostFn) (off : Nat) (x : Int) (s : State) : Out := .next (hostAtomic s fn off [x] false fun _ => x)
/-- HOST_CAS (R328). -/
def execHostCas (fn : HostFn) (off : Nat) (c x : Int) (s : State) : Out :=
  .next (hostAtomic s fn off [c, x] false fun m => if m = c then x else m)

/-! ### The time record (R268) -/

/-- Update words of the time record, raise a status trit, and step both versions. -/
def timeUpdate (s : State) (w : Nat) (anchor time rate : Int) (bit : Nat) : State :=
  if !barsUp s then s
  else
    let me := s.pkg.number
    let s1 := recallNow s me 0 true
    let rd (i : Nat) : Int := s1.mem.read me (3 * (i : Int)) 3
    let put (m : Memory) (p : Nat × Int) : Memory := m.write me (3 * (p.1 : Int)) 3 p.2
    let v := narrow (rd 0 + 1) 27
    let st := if trit (rd 11) bit = 0 then rd 11 + pow3 bit else rd 11
    let s2 := s1.modMem fun m => [(26, v), (w, lowWord anchor), (w + 1, highWord anchor), (w + 2, lowWord time), (w + 3, highWord time),
      (w + 4, narrow rate 27), (11, st), (0, v)].foldl put m
    refreshFills s2 me 0

/-- PTM_EXCHANGE (R268). -/
def execPtmExchange (anchor hostTime rate : Int) (s : State) : Out := .next (timeUpdate s 1 anchor hostTime rate 0)
/-- IEEE_1588_SYNC (R268). -/
def execIeee1588Sync (anchor domainTime rate : Int) (s : State) : Out := .next (timeUpdate s 6 anchor domainTime rate 1)

end Sys2Proof.Machine
end

