-- ==== Sys2Proof/Machine/EvMesh.lean ====
section
/-! DEFINITION. Machine/EvMesh.lean: multicast at the home, the .SC frontier, walks, and page-request responses (R148,
R152, R182 to R184, R206 to R208). An event that is not enabled leaves the state as it is. -/

namespace Sys2Proof.Machine

open Sys2Proof Tern

/-- MULTICAST_REQUEST (R182, R184). -/
def execMulticastRequest (id : Nat) (s : State) : Out :=
  .next (match s.req? id with
    | some r => (match r.body with
      | .mcast g k j map =>
        if r.stage = 1 || !arrived s r || remoteHeld s r.pkg then s
        else if r.pkg = 999 then startSectors (hostBefore s r) r g k j
        else if s.home.mcasts.any fun e => e.pkg == r.pkg && e.line == r.line && e.map == map then
          let ms := modFirst (fun (e : McEntry) => e.pkg == r.pkg && e.line == r.line && e.map == map) (fun e => { e with targets := e.targets ++ [id] }) s.home.mcasts
          ({ s with home := { s.home with mcasts := ms } } : State).modReq id fun r => { r with stage := 1 }
        else if (match s.heldLine? r.pkg r.line with | some h => h.late == some map | none => false) then
          if readClear s r then startSectors (install s r.pkg r.line false) r g k j else readRecall (stall s id) r
        else if missLoad s r.pkg r.line < 81 then
          ({ s with home := { s.home with mcasts := s.home.mcasts ++ [⟨s.nextId, r.pkg, r.line, map, [id]⟩] }, nextId := s.nextId + 1 } : State).modReq id
            fun r => { r with stage := 1 }
        else retryQueue s r
      | _ => s)
    | none => s)

/-- The gangs whose windows a multicast entry fills. -/
def mcGangs (s : State) (e : McEntry) : List Nat :=
  s.reqs.filterMap fun r => if e.targets.contains r.id then r.window?.map fun x => x.1 else none

/-- MULTICAST_INJECT (R182): the targets are frozen, the late mark is set, one copy goes to each target. -/
def execMulticastInject (id : Nat) (s : State) : Out :=
  .next (match s.home.mcasts.find? fun e => e.id == id with
    | none => s
    | some e =>
      if remoteHeld s e.pkg || engineBars s (mcGangs s e) e.pkg e.line then s
      else if !clear s e.pkg e.line false none then sendRecalls s e.pkg e.line false none
      else match makeRoom s e.pkg e.line with
        | some s1 => s1
        | none =>
          let s1 := install s e.pkg e.line false
          let s2 := s1.modHeld e.pkg e.line fun h => { h with late := some e.map }
          let s3 : State := { s2 with home := { s2.home with mcasts := s2.home.mcasts.filter fun x => x.id != id } }
          let d := fillLine s3 (.dom e.pkg (81 * e.line))
          s3.reply e.targets fun r => match r.body with
            | .mcast g k j _ => { r with body := .mcopy g k j d.1 d.2.1 0 d.2.2, stage := 0 }
            | _ => r)

/-! ### The frontier (R207, R208) -/

/-- The lowest .SC timestamp not yet accepted by its home slice, or g. -/
def scFloor (s : State) (g : Int) : Int :=
  s.reqs.foldl (fun m r => match r.sc with
    | some (t :: _) => if r.stage = 2 then m else min m t
    | _ => m) g

/-- SC_FRONTIER_REPORT: at each GTIME that is a multiple of 27, once. -/
def execScFrontierReport (s : State) : Out :=
  .next (if s.now % 27 != 0 || (s.pkg.frontiers.any fun f => f.1 == s.now + 81) then s
    else s.modPkg fun p => { p with frontiers := p.frontiers ++ [(s.now + 81, scFloor s s.now)] })

/-- The t of a key. -/
def Req.scTime (r : Req) : Int := match r.sc with | some (t :: _) => t | _ => 0

/-- A read in .SC order: a miss takes a miss entry for the time in which it is served, when one is free (R180). -/
def performScRead (s : State) (r : Req) : State :=
  if !readClear s r then readRecall s r
  else if (s.heldLine? r.pkg r.line).isNone && (missing s r.pkg r.line).isEmpty && missLoad s r.pkg r.line ≥ 81 then s
  else match makeRoom s r.pkg r.line with
    | some s1 => s1
    | none => serveRead (install s r.pkg r.line false) r

/-- Perform one accepted .SC access when its line is ready. -/
def performSc (s : State) (r : Req) : State :=
  if !scFree s r then s
  else match r.body with
  | .read _ _ | .rtag _ _ => performScRead s r
  | .store us => applyStore s r us
  | .atom op k us old => applyAtom s r op k us old
  | _ => s

/-- Perform queued accesses in key order; a slice whose lowest one must wait performs none after it. -/
def performQueue (s : State) (blocked : List Nat) : List Req → State
  | [] => s
  | r :: rs =>
    if blocked.contains (homeSlice s r.line) then performQueue s blocked rs
    else
      let s1 := performSc s r
      performQueue s1 (if (s1.req? r.id).isSome then homeSlice s r.line :: blocked else blocked) rs

/-- FRONTIER_RELEASE: the due frontiers are taken, and the queues perform below them. -/
def execFrontierRelease (s : State) : Out :=
  .next (
    let due := s.pkg.frontiers.filter fun f => decide (f.1 ≤ s.now)
    let s1 := s.modPkg fun p => { p with frontier := due.foldl (fun m f => max m f.2) p.frontier,
                                         frontiers := p.frontiers.filter fun f => decide (s.now < f.1) }
    let q := s1.reqs.filter fun r => r.stage == 2 && r.sc.isSome && decide (r.scTime < s1.pkg.frontier)
    performQueue s1 [] (sortBy (fun a b => keyLt (a.sc.getD []) (b.sc.getD [])) q))

/-! ### Walks and page requests (R148, R152, R245) -/

/-- TRANSLATION_WALK: a missing translation of a bound context is walked and loaded. -/
def execTranslationWalk (core ctx : Nat) (page : Int) (s : State) : Out :=
  .next (if page = 0 || (s.context? ctx).isNone || (tlbFind (s.core core) ctx page).isSome || !canonicalAddr (19683 * page) then s
    else (walk s core ctx page).1)

/-- Drop the TLB entries of a page in some cores. -/
def dropPage (s : State) (cores : List Nat) (ctx : Nat) (page : Int) : State :=
  cores.foldl (fun s c => s.modCore c fun k => { k with tlb := k.tlb.filter fun t =>
    !(t.ctx == ctx && t.half == halfOf page && t.page == shr page (6 * t.level)) }) s

/-- PAGE_REQUEST_RESPONSE (R152, R245): success retries the fetches parked on the page; failure traps them with FETCH. -/
def execPageRequestResponse (i : Nat) (success : Bool) (s : State) : Out :=
  .next (match s.pageReqs.find? fun q => q.i == i with
    | none => s
    | some q =>
      let s0 : State := { s with pageReqs := s.pageReqs.filter fun x => x.i != i }
      let isIt (w : Warp) : Bool := w.ctx == q.ctx && (match w.park with | some p => p.page == q.page | none => false)
      let free (a : Relaunch) : Relaunch :=
        if a.page == some q.page then { a with page := none, taskf := if success then none else a.taskf } else a
      let freed (x : Launch) : Launch := if x.ctx = q.ctx then { x with again := x.again.map free } else x
      let s1 : State := if q.relaunch then { s0 with launches := s0.launches.map freed } else s0
      if success then
        let s2 := dropPage s1 q.cores q.ctx q.page
        { s2 with fresh := s2.fresh + 1, warps := s2.warps.map fun w => if isIt w then { w with park := none } else w }
      else
        (s1.warps.filter isIt).foldl (fun s w =>
          let d := match w.park with | some p => p.detail | none => 0
          let ls := if w.handler then upto 27 else w.issueSet
          let pc := if w.handler then w.hpc else (w.lane (ls.headD 0)).pc
          (s.modWarp w.wid fun w => { w with park := none }).enterTrap w.wid ⟨cause.fetch, listed ls d (6 * pc)⟩) s1)

end Sys2Proof.Machine
end

