-- ==== Sys2Proof/Machine/Moves.lean ====
section
/-! DEFINITION. Machine/Moves.lean: moves between registers, predicates and special registers (R401 to R405). -/

namespace Sys2Proof.Machine

open Sys2Proof Tern

/-- MOV (R401, R403). -/
def execMov (o : MovA) (s : State) : Out :=
  .next (computeWord (.mov o) s o.d o.dbl (if o.dbl then .d else .w) fun w l => (w.src l o.dbl o.a, Fl.none))

/-- MOVI (R401, R403). -/
def execMovi (o : MoviA) (s : State) : Out :=
  .next (computeWord (.movi o) s o.d false .w fun _ _ => (o.imm, Fl.none))

/-- The low word of the pair that a destination names. -/
def Warp.lowOf (w : Warp) (l : Nat) : Dst → Int | .v n => w.vreg l n | .g n => w.greg n | .latch => 0

/-- MOVH (R401, R403): the high word of the pair. -/
def execMovh (o : MoviA) (s : State) : Out :=
  .next (computeWord (.movh o) s o.d true .d fun w l => (double (w.lowOf l o.d) o.imm, Fl.none))

/-- MOVG (R401, R403): one lane's operand into a G register; active lanes latch it (log entry 8). -/
def execMovg (o : MovgA) (s : State) : Out :=
  .next (runWord (.movg o) s fun s c w al =>
    match al with
    | [] => .plain s
    | l0 :: _ =>
      let v := w.src (if o.lane = -1 then l0 else o.lane.toNat) false o.a
      .done (s.modWarp c.wid fun w => w.setG o.gd v) (al.map fun l => (l, ⟨v, false⟩)) [] .w)

/-- The value MOVC gathers (R403): a P predicate's trits over all 27 lanes, or a Q predicate's trit. -/
def Warp.gather (w : Warp) : PSrc → Int
  | .p n => (upto 27).foldl (fun a l => a + w.preg l n * pow3 l) 0
  | .q n => w.qreg n

/-- MOVC (R401 to R403). -/
def execMovc (o : MovcA) (s : State) : Out :=
  .next (computeWord (.movc o) s o.d false .w fun w _ => (w.gather o.a, Fl.none))

/-! ### Special and trap registers (R84, R224, R244, R278, R404, R405) -/

/-- T.STATE of a lane (R278): a release during handler mode clears the waiting trit (R277). -/
def Lane.tstate (x : Lane) : Int :=
  (if x.tLive then 1 else 0) + (if x.tWait && x.wait.isSome then 3 else 0) + (if x.tYield then 9 else 0) +
    (if x.halted.isSome then 27 else 0)

/-- A gang-wide place register of a warp; a sequencer's is a free value. -/
def placeReg (w : Warp) (m : Nat) (v : Int) : Int := match w.place with | .seq q => Config.seqPlace m q | _ => v

/-- A special or trap register as a lane reads it. -/
def readS (s : State) (w : Warp) (l : Nat) (r : SReg) : Int :=
  let x := w.lane l
  let g := w.gid.bind s.gang?
  match r with
  | .lane => l
  | .depth => x.depth
  | .live => maskOf (w.where_ fun x => x.live)
  | .warp => placeReg w 4 w.num
  | .gang => placeReg w 5 (match g with | some g => g.x + pow3 9 * g.y + pow3 18 * g.z | none => 0)
  | .core => placeReg w 6 (match w.place with | .slot c _ _ => c | _ => 0)
  | .bay => placeReg w 7 (match w.place with | .slot _ b _ => b | _ => 0)
  | .spill => w.spill
  | .flags => x.flags
  | .gtime => lowWord s.now
  | .gtimeh => w.gtimeh
  | .commit => placeReg w 12 (match g with | some g => if g.commit then 1 else 0 | none => 0)
  | .tcause => w.tCause
  | .tlanes => w.tLanes
  | .tlevel => w.tLevel
  | .tinfo => x.tInfo
  | .taddr => lowWord x.tAddr
  | .taddrh => highWord x.tAddr
  | .tepc => lowWord x.tEpc
  | .tepch => highWord x.tEpc
  | .tdepth => x.tDepth
  | .tstate => x.tstate
  | .tk0 => x.tk0
  | .tk1 => x.tk1
  | .tk2 => x.tk2

/-- A write of T.STATE (R278): trits that are −1, and the halted trit, are ignored. -/
def Lane.setState (x : Lane) (v : Int) : Lane :=
  let x1 := { x with tLive := if trit v 0 = 1 then true else if trit v 0 = 0 then false else x.tLive }
  let x2 := if trit v 1 = 0 then { x1 with tWait := false, wait := none } else x1
  if trit v 2 = 0 then { x2 with tYield := false, yielded := none } else if trit v 2 = 1 then { x2 with tYield := true } else x2

/-- A write of a lane's register (R61, R278). -/
def Lane.writeS (x : Lane) (r : SReg) (v : Int) : Lane :=
  match r with
  | .flags => { x with flags := flagsStored v }
  | .tepc => { x with tEpc := double v (highWord x.tEpc) }
  | .tepch => { x with tEpc := double (lowWord x.tEpc) v }
  | .tdepth => if 0 ≤ v ∧ v ≤ 9841 then { x with tDepth := v.toNat } else x
  | .tstate => x.setState v
  | .tk0 => { x with tk0 := v }
  | .tk1 => { x with tk1 := v }
  | .tk2 => { x with tk2 := v }
  | _ => x

/-- The lane whose operand a warp-scope write takes: the lowest active one (R405). -/
def firstOf (al : List Nat) : Nat := al.headD 0

/-- MOVS (R404, R405). -/
def execMovs (o : MovsA) (s : State) : Out :=
  .next (runWord (.movs o) s fun s c w al =>
    if al.isEmpty then .plain s
    else match o.op with
    | .read d r =>
      let s1 := if r = .gtime then s.modWarp c.wid fun w => { w with gtimeh := highWord s.now } else s
      if o.hd.form = .vector then
        let rs := al.map fun l => (l, readS s w l r)
        .done (s1.modWarp c.wid fun w => rs.foldl (fun w p => w.setDst p.1 d false p.2) w) (rs.map fun p => (p.1, ⟨p.2, false⟩)) [] .w
      else .done (s1.modWarp c.wid fun w => w.setDst 0 d false (readS s w 0 r)) [] [] .none
    | .write a r =>
      let res (v : Nat → Int) := al.map fun l => (l, (⟨v l, false⟩ : Latch))
      if r = .spill then
        .done (s.modWarp c.wid fun w => { w with spill := w.src (firstOf al) false a }) (res fun _ => w.src (firstOf al) false a) [] .w
      else .done (s.modWarp c.wid fun w' => w'.modLanes al fun l x => x.writeS r (w.src l false a)) (res fun l => w.src l false a) [] .w)

end Sys2Proof.Machine
end

