-- ==== Sys2Proof/Machine/Paired.lean ====
section
/-! DEFINITION. Machine/Paired.lean: the paired word (R104 to R107, R123, R124). -/

namespace Sys2Proof

open Machine Tern

/-- The type of an integer or floating half (R124). -/
def Half.ity (h : Half) : ITy := if h.m8 = -1 then .t else .w
def Half.fty (h : Half) : FTy := if h.m8 = -1 then .f9 else .f27

/-- The destination's value before the word; 0 with destination mode −1 (R105). -/
def Half.dval (h : Half) (w : Warp) (l : Nat) : Int := match h.d with | .v n => w.vreg l n | _ => 0

/-- The second operand; an immediate of .T applies to each element (R124). -/
def Half.sval (h : Half) (w : Warp) (l : Nat) : Int :=
  match h.s with
  | some a => w.src l false a
  | none => if h.m8 = -1 then join 9 [h.imm, h.imm, h.imm] else h.imm

/-- The result of a half: its full-form namesake's function (R123). -/
def Half.result (h : Half) (w : Warp) (l : Nat) : Int × Fl :=
  let x := h.dval w l
  let y := h.sval w l
  match h.op with
  | .add | .addi => elems2 h.ity (addF h.m7) x y
  | .sub | .subi => elems2 h.ity (subF h.m7) x y
  | .mul | .muli => elems2 h.ity (mulF h.m7) x y
  | .min | .mini => elems2 h.ity minF x y
  | .max | .maxi => elems2 h.ity maxF x y
  | .mov | .movi => (y, Fl.none)
  | .neg => elems1 h.ity negF y
  | .abs => elems1 h.ity absF y
  | .tsh | .tshi => elems2 h.ity (tshF h.m7) x y
  | .fadd => felems h.fty (fop h.m7 h.m6 (two addV)) [x, y]
  | .fsub => felems h.fty (fop h.m7 h.m6 (two subV)) [x, y]
  | .fmul => felems h.fty (fop h.m7 h.m6 (two mulR)) [x, y]
  | .fmin => felems h.fty (fmm (-1) h.m7) [x, y]
  | .fmax => felems h.fty (fmm 1 h.m7) [x, y]
  | .fneg => felems h.fty (fun1 Fmt.negE) [y]
  | .fabs => felems h.fty (fun1 Fmt.absE) [y]

/-- The kind of result a value unit sees. -/
def Half.kind (h : Half) : ResKind := if h.op.isFloat then fkindOf h.fty else kindOf h.ity

/-- The lanes that a half's guard enables: predicate trit +1 (R104). -/
def Half.lanes (h : Half) (w : Warp) (ls : List Nat) : List Nat := ls.filter fun l => w.preg l h.pred == 1

/-- The second half as it reads the latches: the first half counts as its X1 (R107). -/
def Half.second (h : Half) : Half := { h with s := h.s.map fun a => match a with | .x k => .x (k - 1) | a => a }

/-- The results of a half, by lane. -/
def Half.results (h : Half) (w : Warp) (ls : List Nat) : List (Nat × Int × Fl) := (h.lanes w ls).map fun l => (l, h.result w l)

/-- Write a half's results. -/
def Half.write (h : Half) (rs : List (Nat × Int × Fl)) (w : Warp) : Warp := rs.foldl (fun w r => w.setDst r.1 h.d false r.2.1) w

end Sys2Proof

namespace Sys2Proof.Machine

open Sys2Proof Tern

/-- What a half's active lanes latch. -/
def latched (rs : List (Nat × Int × Fl)) : List (Nat × Latch) := rs.map fun r => (r.1, ⟨r.2.1, false⟩)

/-- The flags that two halves raise, by lane. -/
def pairFlags (ls : List Nat) (r1 r2 : List (Nat × Int × Fl)) : List (Nat × Fl) :=
  (ls.map fun l => (l, Fl.all (((r1 ++ r2).filter fun r => r.1 == l).map fun r => r.2.2))).filter fun p => !p.2.isNone

/-- The paired word (R104 to R107). Both halves read before either writes. -/
def execPairedWord (a b : Half) (s : State) : Out :=
  .next (runWord (.pairedWord a b) s fun s c w _ =>
    let r1 := a.results w c.lanes
    let r2 := b.second.results w c.lanes
    .pair (s.modWarp c.wid fun w => b.write r2 (a.write r1 w)) (latched r1) (latched r2) (pairFlags c.lanes r1 r2) a.kind b.kind)

end Sys2Proof.Machine
end

