-- ==== Sys2Proof/Machine/Dispatch.lean ====
section
/-! DEFINITION. Machine/Dispatch.lean: one arm a constructor of Instr. -/

namespace Sys2Proof.Machine

open Sys2Proof

/-- Run one operation or event on a state. -/
def exec (i : Instr) (s : State) : Host.Outcome State Fault Refusal :=
  match i with
  | .abs o => Sys2Proof.Machine.execAbs o s
  | .add o => Sys2Proof.Machine.execAdd o s
  | .sub o => Sys2Proof.Machine.execSub o s
  | .neg o => Sys2Proof.Machine.execNeg o s
  | .mul o => Sys2Proof.Machine.execMul o s
  | .mulh o => Sys2Proof.Machine.execMulh o s
  | .mad o => Sys2Proof.Machine.execMad o s
  | .div o => Sys2Proof.Machine.execDiv o s
  | .divz o => Sys2Proof.Machine.execDivz o s
  | .mod o => Sys2Proof.Machine.execMod o s
  | .min o => Sys2Proof.Machine.execMin o s
  | .max o => Sys2Proof.Machine.execMax o s
  | .sgn o => Sys2Proof.Machine.execSgn o s
  | .tsh o => Sys2Proof.Machine.execTsh o s
  | .trot o => Sys2Proof.Machine.execTrot o s
  | .tlz o => Sys2Proof.Machine.execTlz o s
  | .tcnt o => Sys2Proof.Machine.execTcnt o s
  | .tmap o => Sys2Proof.Machine.execTmap o s
  | .tbin o => Sys2Proof.Machine.execTbin o s
  | .tsel o => Sys2Proof.Machine.execTsel o s
  | .fadd o => Sys2Proof.Machine.execFadd o s
  | .fsub o => Sys2Proof.Machine.execFsub o s
  | .fmul o => Sys2Proof.Machine.execFmul o s
  | .fma o => Sys2Proof.Machine.execFma o s
  | .fmin o => Sys2Proof.Machine.execFmin o s
  | .fmax o => Sys2Proof.Machine.execFmax o s
  | .fneg o => Sys2Proof.Machine.execFneg o s
  | .fabs o => Sys2Proof.Machine.execFabs o s
  | .fdiv o => Sys2Proof.Machine.execFdiv o s
  | .fsqrt o => Sys2Proof.Machine.execFsqrt o s
  | .frcp o => Sys2Proof.Machine.execFrcp o s
  | .frsq o => Sys2Proof.Machine.execFrsq o s
  | .fexp o => Sys2Proof.Machine.execFexp o s
  | .flog o => Sys2Proof.Machine.execFlog o s
  | .fexp3 o => Sys2Proof.Machine.execFexp3 o s
  | .flog3 o => Sys2Proof.Machine.execFlog3 o s
  | .ftanh o => Sys2Proof.Machine.execFtanh o s
  | .fscl o => Sys2Proof.Machine.execFscl o s
  | .fcls o => Sys2Proof.Machine.execFcls o s
  | .frnd o => Sys2Proof.Machine.execFrnd o s
  | .fcmp o => Sys2Proof.Machine.execFcmp o s
  | .cmp o => Sys2Proof.Machine.execCmp o s
  | .sel o => Sys2Proof.Machine.execSel o s
  | .pset o => Sys2Proof.Machine.execPset o s
  | .ptbl o => Sys2Proof.Machine.execPtbl o s
  | .pany o => Sys2Proof.Machine.execPany o s
  | .pall o => Sys2Proof.Machine.execPall o s
  | .pcnt o => Sys2Proof.Machine.execPcnt o s
  | .shfl o => Sys2Proof.Machine.execShfl o s
  | .bcst o => Sys2Proof.Machine.execBcst o s
  | .vred o => Sys2Proof.Machine.execVred o s
  | .vscan o => Sys2Proof.Machine.execVscan o s
  | .ld o => Sys2Proof.Machine.execLd o s
  | .st o => Sys2Proof.Machine.execSt o s
  | .ldg o => Sys2Proof.Machine.execLdg o s
  | .stg o => Sys2Proof.Machine.execStg o s
  | .lds o => Sys2Proof.Machine.execLds o s
  | .sts o => Sys2Proof.Machine.execSts o s
  | .atom o => Sys2Proof.Machine.execAtom o s
  | .red o => Sys2Proof.Machine.execRed o s
  | .ldmc o => Sys2Proof.Machine.execLdmc o s
  | .pref o => Sys2Proof.Machine.execPref o s
  | .fence o => Sys2Proof.Machine.execFence o s
  | .ldtag o => Sys2Proof.Machine.execLdtag o s
  | .sttag o => Sys2Proof.Machine.execSttag o s
  | .cflush o => Sys2Proof.Machine.execCflush o s
  | .cinv o => Sys2Proof.Machine.execCinv o s
  | .icinv o => Sys2Proof.Machine.execIcinv o s
  | .isync hd => Sys2Proof.Machine.execIsync hd s
  | .mov o => Sys2Proof.Machine.execMov o s
  | .movi o => Sys2Proof.Machine.execMovi o s
  | .movh o => Sys2Proof.Machine.execMovh o s
  | .movg o => Sys2Proof.Machine.execMovg o s
  | .movs o => Sys2Proof.Machine.execMovs o s
  | .movc o => Sys2Proof.Machine.execMovc o s
  | .cvt o => Sys2Proof.Machine.execCvt o s
  | .bcvt o => Sys2Proof.Machine.execBcvt o s
  | .pack o => Sys2Proof.Machine.execPack o s
  | .unpack o => Sys2Proof.Machine.execUnpack o s
  | .bra o => Sys2Proof.Machine.execBra o s
  | .jmpi o => Sys2Proof.Machine.execJmpi o s
  | .call o => Sys2Proof.Machine.execCall o s
  | .calli o => Sys2Proof.Machine.execCalli o s
  | .ret hd => Sys2Proof.Machine.execRet hd s
  | .yld hd => Sys2Proof.Machine.execYld hd s
  | .waitj o => Sys2Proof.Machine.execWaitj o s
  | .exit hd => Sys2Proof.Machine.execExit hd s
  | .nop hd => Sys2Proof.Machine.execNop hd s
  | .barA o => Sys2Proof.Machine.execBarA o s
  | .barS o => Sys2Proof.Machine.execBarS o s
  | .barD o => Sys2Proof.Machine.execBarD o s
  | .barW o => Sys2Proof.Machine.execBarW o s
  | .sna o => Sys2Proof.Machine.execSna o s
  | .snd o => Sys2Proof.Machine.execSnd o s
  | .snr o => Sys2Proof.Machine.execSnr o s
  | .snb o => Sys2Proof.Machine.execSnb o s
  | .snw o => Sys2Proof.Machine.execSnw o s
  | .snp o => Sys2Proof.Machine.execSnp o s
  | .tbinit o => Sys2Proof.Machine.execTbinit o s
  | .tbarr o => Sys2Proof.Machine.execTbarr o s
  | .tbexp o => Sys2Proof.Machine.execTbexp o s
  | .tbwait o => Sys2Proof.Machine.execTbwait o s
  | .tbtest o => Sys2Proof.Machine.execTbtest o s
  | .sleept o => Sys2Proof.Machine.execSleept o s
  | .touch o => Sys2Proof.Machine.execTouch o s
  | .win o => Sys2Proof.Machine.execWin o s
  | .winrel o => Sys2Proof.Machine.execWinrel o s
  | .task o => Sys2Proof.Machine.execTask o s
  | .tqry o => Sys2Proof.Machine.execTqry o s
  | .send o => Sys2Proof.Machine.execSend o s
  | .recv o => Sys2Proof.Machine.execRecv o s
  | .xfst o => Sys2Proof.Machine.execXfst o s
  | .xtab o => Sys2Proof.Machine.execXtab o s
  | .lnch o => Sys2Proof.Machine.execLnch o s
  | .role o => Sys2Proof.Machine.execRole o s
  | .preh o => Sys2Proof.Machine.execPreh o s
  | .trap o => Sys2Proof.Machine.execTrap o s
  | .rft hd => Sys2Proof.Machine.execRft hd s
  | .brk o => Sys2Proof.Machine.execBrk o s
  | .wset o => Sys2Proof.Machine.execWset o s
  | .wclr o => Sys2Proof.Machine.execWclr o s
  | .wrd o => Sys2Proof.Machine.execWrd o s
  | .hlst o => Sys2Proof.Machine.execHlst o s
  | .hrdv o => Sys2Proof.Machine.execHrdv o s
  | .hwrv o => Sys2Proof.Machine.execHwrv o s
  | .hrdp o => Sys2Proof.Machine.execHrdp o s
  | .hwrp o => Sys2Proof.Machine.execHwrp o s
  | .hstep o => Sys2Proof.Machine.execHstep o s
  | .hres o => Sys2Proof.Machine.execHres o s
  | .pairedWord a b => Sys2Proof.Machine.execPairedWord a b s
  | .namedBarrierRelease gid k => Sys2Proof.Machine.execNamedBarrierRelease gid k s
  | .barcDetection gid => Sys2Proof.Machine.execBarcDetection gid s
  | .escapementRelease ch => Sys2Proof.Machine.execEscapementRelease ch s
  | .yieldRelease wid => Sys2Proof.Machine.execYieldRelease wid s
  | .waitjBoundExpiry wid => Sys2Proof.Machine.execWaitjBoundExpiry wid s
  | .sleepWake wid => Sys2Proof.Machine.execSleepWake wid s
  | .promiseReissue wid => Sys2Proof.Machine.execPromiseReissue wid s
  | .sectorLanding req => Sys2Proof.Machine.execSectorLanding req s
  | .windowRecall req => Sys2Proof.Machine.execWindowRecall req s
  | .ownershipRequest req => Sys2Proof.Machine.execOwnershipRequest req s
  | .sliceRequest req => Sys2Proof.Machine.execSliceRequest req s
  | .sliceMissData req => Sys2Proof.Machine.execSliceMissData req s
  | .homeStore req => Sys2Proof.Machine.execHomeStore req s
  | .homeAtomic req => Sys2Proof.Machine.execHomeAtomic req s
  | .loadReply op => Sys2Proof.Machine.execLoadReply op s
  | .writeBack req => Sys2Proof.Machine.execWriteBack req s
  | .redContribution req => Sys2Proof.Machine.execRedContribution req s
  | .redDetContribution req => Sys2Proof.Machine.execRedDetContribution req s
  | .multicastRequest req => Sys2Proof.Machine.execMulticastRequest req s
  | .multicastInject entry => Sys2Proof.Machine.execMulticastInject entry s
  | .multicastDelivery req => Sys2Proof.Machine.execMulticastDelivery req s
  | .streamSectorReceipt req => Sys2Proof.Machine.execStreamSectorReceipt req s
  | .recvBind wid => Sys2Proof.Machine.execRecvBind wid s
  | .scFrontierReport => Sys2Proof.Machine.execScFrontierReport s
  | .frontierRelease => Sys2Proof.Machine.execFrontierRelease s
  | .translationWalk core ctx page => Sys2Proof.Machine.execTranslationWalk core ctx page s
  | .instructionFetch wid => Sys2Proof.Machine.execInstructionFetch wid s
  | .pageRequestResponse k success => Sys2Proof.Machine.execPageRequestResponse k success s
  | .wloadTask gid ticket => Sys2Proof.Machine.execWloadTask gid ticket s
  | .mmTask gid ticket => Sys2Proof.Machine.execMmTask gid ticket s
  | .streamTask gid ticket => Sys2Proof.Machine.execStreamTask gid ticket s
  | .epiTask gid ticket => Sys2Proof.Machine.execEpiTask gid ticket s
  | .taskEnd gid ticket => Sys2Proof.Machine.execTaskEnd gid ticket s
  | .taskfDelivery wid => Sys2Proof.Machine.execTaskfDelivery wid s
  | .transducerRequestStart lane => Sys2Proof.Machine.execTransducerRequestStart lane s
  | .transducerRequestEnd lane => Sys2Proof.Machine.execTransducerRequestEnd lane s
  | .tableLoadComplete slot => Sys2Proof.Machine.execTableLoadComplete slot s
  | .roleGrant wid => Sys2Proof.Machine.execRoleGrant wid s
  | .warpRetire wid => Sys2Proof.Machine.execWarpRetire wid s
  | .gangEnd gid => Sys2Proof.Machine.execGangEnd gid s
  | .launchEnd lid => Sys2Proof.Machine.execLaunchEnd lid s
  | .gangPlacement paddock where_ => Sys2Proof.Machine.execGangPlacement paddock where_ s
  | .gangStart gid => Sys2Proof.Machine.execGangStart gid s
  | .headGangStarvation paddock => Sys2Proof.Machine.execHeadGangStarvation paddock s
  | .deadlineMiss lid => Sys2Proof.Machine.execDeadlineMiss lid s
  | .timeSliceEnd paddock => Sys2Proof.Machine.execTimeSliceEnd paddock s
  | .contextSwitchIn paddock => Sys2Proof.Machine.execContextSwitchIn paddock s
  | .sequencerWake ctx => Sys2Proof.Machine.execSequencerWake ctx s
  | .preemptionRequest paddock => Sys2Proof.Machine.execPreemptionRequest paddock s
  | .preemptionDeadline wid => Sys2Proof.Machine.execPreemptionDeadline wid s
  | .gangRestore gid where_ => Sys2Proof.Machine.execGangRestore gid where_ s
  | .watchTrapDelivery wid => Sys2Proof.Machine.execWatchTrapDelivery wid s
  | .launchHaltSignal lid => Sys2Proof.Machine.execLaunchHaltSignal lid s
  | .hresLaunchSignal lid => Sys2Proof.Machine.execHresLaunchSignal lid s
  | .permitAudit bad => Sys2Proof.Machine.execPermitAudit bad s
  | .linkError link => Sys2Proof.Machine.execLinkError link s
  | .scratchpadBankFailure core bank => Sys2Proof.Machine.execScratchpadBankFailure core bank s
  | .coreFence core => Sys2Proof.Machine.execCoreFence core s
  | .sliceFence slice readable => Sys2Proof.Machine.execSliceFence slice readable s
  | .pseudoChannelFence slice pc lost => Sys2Proof.Machine.execPseudoChannelFence slice pc lost s
  | .transducerLaneFence lane => Sys2Proof.Machine.execTransducerLaneFence lane s
  | .mDieFailure die => Sys2Proof.Machine.execMDieFailure die s
  | .cDieFailure die => Sys2Proof.Machine.execCDieFailure die s
  | .gtimeMismatch core => Sys2Proof.Machine.execGtimeMismatch core s
  | .watchRecordError core unit => Sys2Proof.Machine.execWatchRecordError core unit s
  | .referenceClockFault => Sys2Proof.Machine.execReferenceClockFault s
  | .powerOnReset images => Sys2Proof.Machine.execPowerOnReset images s
  | .warmReset images badLines => Sys2Proof.Machine.execWarmReset images badLines s
  | .powerGrant duties => Sys2Proof.Machine.execPowerGrant duties s
  | .grantApply die => Sys2Proof.Machine.execGrantApply die s
  | .remoteRequestTimeout req => Sys2Proof.Machine.execRemoteRequestTimeout req s
  | .peerFailure package => Sys2Proof.Machine.execPeerFailure package s
  | .translationInvalidation half first count desc => Sys2Proof.Machine.execTranslationInvalidation half first count desc s
  | .pinRelease ctx key => Sys2Proof.Machine.execPinRelease ctx key s
  | .roundDiscard ctx addr tag => Sys2Proof.Machine.execRoundDiscard ctx addr tag s
  | .channelReset paddock seq name => Sys2Proof.Machine.execChannelReset paddock seq name s
  | .contextBind paddock desc => Sys2Proof.Machine.execContextBind paddock desc s
  | .paddockLimits paddock min max => Sys2Proof.Machine.execPaddockLimits paddock min max s
  | .contextUnbind paddock desc => Sys2Proof.Machine.execContextUnbind paddock desc s
  | .atsInvalidation ctx half first count => Sys2Proof.Machine.execAtsInvalidation ctx half first count s
  | .setPackageNumber n => Sys2Proof.Machine.execSetPackageNumber n s
  | .startSequencer0 entry desc => Sys2Proof.Machine.execStartSequencer0 entry desc s
  | .bindVf vf desc base => Sys2Proof.Machine.execBindVf vf desc base s
  | .releaseFrame frame => Sys2Proof.Machine.execReleaseFrame frame s
  | .setPowerCeiling watts => Sys2Proof.Machine.execSetPowerCeiling watts s
  | .attest nonce addr => Sys2Proof.Machine.execAttest nonce addr s
  | .getMeasurements nonce => Sys2Proof.Machine.execGetMeasurements nonce s
  | .controlRegionWrite line word value => Sys2Proof.Machine.execControlRegionWrite line word value s
  | .hostFetchadd fn off x => Sys2Proof.Machine.execHostFetchadd fn off x s
  | .hostSwap fn off x => Sys2Proof.Machine.execHostSwap fn off x s
  | .hostCas fn off c x => Sys2Proof.Machine.execHostCas fn off c x s
  | .hostPackedRead fn off len => Sys2Proof.Machine.execHostPackedRead fn off len s
  | .hostPackedWrite fn off bytes => Sys2Proof.Machine.execHostPackedWrite fn off bytes s
  | .hostRawRead fn off len => Sys2Proof.Machine.execHostRawRead fn off len s
  | .hostRawWrite fn off bytes => Sys2Proof.Machine.execHostRawWrite fn off bytes s
  | .ptmExchange anchor hostTime rate => Sys2Proof.Machine.execPtmExchange anchor hostTime rate s
  | .ieee1588Sync anchor domainTime rate => Sys2Proof.Machine.execIeee1588Sync anchor domainTime rate s
  | .debugHalt b scope => Sys2Proof.Machine.execDebugHalt b scope s
  | .debugWset a0 a1 a2 b c unit => Sys2Proof.Machine.execDebugWset a0 a1 a2 b c unit s
  | .debugWclr b unit => Sys2Proof.Machine.execDebugWclr b unit s
  | .debugWrd b unit => Sys2Proof.Machine.execDebugWrd b unit s
  | .debugHlst b => Sys2Proof.Machine.execDebugHlst b s
  | .debugHrdv b item => Sys2Proof.Machine.execDebugHrdv b item s
  | .debugHwrv a b item => Sys2Proof.Machine.execDebugHwrv a b item s
  | .debugHrdp b item e => Sys2Proof.Machine.execDebugHrdp b item e s
  | .debugHwrp a0 a1 b item e => Sys2Proof.Machine.execDebugHwrp a0 a1 b item e s
  | .debugHstep b => Sys2Proof.Machine.execDebugHstep b s
  | .debugHres b scope => Sys2Proof.Machine.execDebugHres b scope s
  | .completionTimeout wid => Sys2Proof.Machine.execCompletionTimeout wid s
  | .scaleOutLinkFault lane => Sys2Proof.Machine.execScaleOutLinkFault lane s
  | .routesRecomputed => Sys2Proof.Machine.execRoutesRecomputed s
  | .duplicatePackageNumber => Sys2Proof.Machine.execDuplicatePackageNumber s
  | .powerLoss => Sys2Proof.Machine.execPowerLoss s

end Sys2Proof.Machine
end

