-- ==== Sys2Proof/Machine/Settle.lean ====
section
/-! DEFINITION. Machine/Settle.lean: what every step brings about of itself, without a cost of its own: fences end, joins complete,
words in progress move on, halts land, saves happen (R82, R92, R200, R237, R253, R265, R285, R298, R301, R383, R427). -/

namespace Sys2Proof.Machine

open Sys2Proof Tern

/-! ### Fences and stores behind ownership (R200, R383, R427) -/

/-- What a fence awaits has ended. -/
def FenceW.ended (s : State) (f : FenceW) : Bool := !f.host && f.reqs.all fun i => (s.req? i).isNone && (s.op? i).isNone
/-- A fence of pair scope or wider that acquires empties the core's L1. -/
def FenceW.clears (f : FenceW) : Bool := decide (f.kind ≤ 0 ∧ -1 ≤ f.scope)

/-- End the fences that are over. -/
def settleFences (s : State) : State :=
  (s.warps.map fun w => w.wid).foldl (fun s wid => match s.warp? wid with
    | some w => (match w.fence with
      | some f =>
        if f.ended s then
          let s1 := s.modWarp wid fun w => { w with fence := none }
          if f.clears then s1.modCore w.coreNo fun c => { c with l1 := [] } else s1
        else s
      | none => s)
    | none => s) s

/-- A word held behind an ownership request may issue once the request has ended. -/
def settleBlocked (s : State) : State :=
  let f (w : Warp) : Warp := match w.blocked with
    | some n => if (s.req? n).isNone then { w with blocked := none } else w
    | none => w
  { s with warps := s.warps.map f }

/-- A chain hold lapses while its warp has no lane to issue for (R109). -/
def settleHolds (s : State) : State :=
  let f (w : Warp) : Warp := if w.hold.isSome && !w.hasLanes then { w with hold := none } else w
  { s with warps := s.warps.map f }

/-- Joins that are complete (R82). -/
def settleJoins (s : State) : State :=
  (s.warps.map fun w => w.wid).foldl (fun s wid => match s.warp? wid with
    | some w => if w.place == .saved then s else joinRelease s wid
    | none => s) s

/-! ### Words in progress -/

/-- An operation that goes on when its warp is saved: on its gang's windows, since its gang is saved after it (R167, R288), and a debugger's, whose
results are written into the saved registers (R386). -/
def PendOp.goesOn : PendOp → Bool
  | .winrel _ _ _ _ | .flush _ _ _ | .hstep _ _ _ _ _ | .dbg _ _ _ _ => true
  | _ => false

/-- The words in progress of the warps, with their warps, oldest first. -/
def pendNames (s : State) : List (Nat × Nat) :=
  sortBy (fun (a b : Nat × Nat) => decide (a.1 < b.1)) (s.warps.flatMap fun w =>
    (w.pends.filter fun p => w.place != .saved || p.op.goesOn).map fun p => (p.n, w.wid))

/-- One word in progress of a warp moves on. A stepped word that could not issue is tried once a cycle. -/
def settlePend (s : State) (tick : Bool) (n wid : Nat) : State :=
  match s.warp? wid with
  | none => s
  | some w => match w.pends.find? fun p => p.n == n with
    | none => s
    | some p => match p.op with
      | .task r a gd h => stepTask s w n r a gd h
      | .xfst r a gd =>
        let t := xfstTry s wid r a gd
        if t.2 then endPend t.1 wid n else t.1
      | .xtab sl a gd locs ld => stepXtab s w n sl a gd locs ld
      | .winrel k bid nx wbs => stepWinrel s w n k bid nx wbs
      | .send port a cnt sent => stepSend s w n port a cnt sent
      | .recv port k first cnt locs m => stepRecv s w n port k first cnt locs m
      | .lnch ws gd => stepLnch s w n ws gd
      | .cmd ws gd q => stepCmd s w n ws gd q
      | .flush inv ls wbs => stepFlush s w n inv ls wbs
      | .hstep x l gd done ws => if done.isSome || tick then hstepRun s (some wid) n x l gd done ws else s
      | .dbg r b gd t => dbgRun s (some wid) n r b gd t
      | .role _ _ _ => s
      | .save _ => s

/-- The debug window's operation moves on (R311). -/
def settleWindow (s : State) (tick : Bool) : State :=
  (s.pkg.dwin.map fun p => p.n).foldl (fun s n => s.orStay (match s.pkg.dwin.find? fun p => p.n == n with
    | some p => (match p.op with
      | .dbg r b gd t => dbgRun s none n r b gd t
      | .hstep x l gd done ws => if done.isSome || tick then hstepRun s none n x l gd done ws else s
      | _ => s)
    | none => s)) s

/-- Every word in progress moves on, but for what is barred. -/
def settlePends (s : State) (tick : Bool) : State :=
  settleWindow ((pendNames s).foldl (fun s p => s.orStay (settlePend s tick p.1 p.2)) s) tick

/-! ### Halts, barrier cycles, the journal -/

/-- Halts whose cycle has come (R298). -/
def settleHalts (s : State) : State :=
  let f (w : Warp) : Warp :=
    if w.halts.isEmpty then w
    else
      let due := w.halts.filter fun h => decide (h.at_ ≤ s.now)
      let w1 := due.foldl (fun (w : Warp) h => w.haltAll h.halt) w
      { w1 with halts := w.halts.filter fun h => !decide (h.at_ ≤ s.now) }
  { s with warps := s.warps.map f }

/-- The cycle since which a barrier cycle holds (R92). -/
def settleBarc (s : State) : State :=
  let f (g : Gang) : Gang :=
    if barrierCycle s g then { g with barcSince := some (g.barcSince.getD s.now) } else { g with barcSince := none }
  { s with gangs := s.gangs.map f }

/-- ATS invalidations are answered when what they await has ended (R150, R151). -/
def settleInvals (s : State) : State :=
  s.invals.foldl (fun s x =>
    if x.answered || awaiting s x.waits then s
    else
      let s1 := invalidate s x.ctx x.half x.first x.count
      s.orStay { s1 with invals := s1.invals.map fun y => if y = x then { y with answered := true } else y }) s

/-- A core whose third bank has failed is fenced (R158). -/
def settleBanks (s : State) : State :=
  (s.cores.filter fun c => decide (3 ≤ c.banks.length) && s.coreLive c.n).foldl (fun s c => s.orStay (fenceCore s c.n)) s

/-- What a step brings about of itself. -/
def settle (tick : Bool) (s : State) : State :=
  let s1 := settleBlocked (settleFences (settleBanks s))
  let s2 := settlePends (settleJoins s1) tick
  let s3 := saveWaiting (settleHalts (settleInvals s2))
  syncJournal (noteHeads (balancePads (settleBarc (settleHolds s3))))

end Sys2Proof.Machine
end

