-- ==== Sys2Proof/Machine/Turn.lean ====
section
/-! DEFINITION. Machine/Turn.lean: what moves next, and how it moves: a warp's issue with the traps taken in place of its word (R246,
R276, R284, R290, R294, R297), a word issued again or stepped (R164, R307), the default order of events, the clock (log entries 3, 4). -/

namespace Sys2Proof.Machine

open Sys2Proof Tern

/-- Change the state of an answer. -/
def Out.map (f : State → State) : Out → Out
  | .next s => .next (f s)
  | .fault r => .fault r
  | .refused r => .refused r

/-! ### A warp's issue -/

/-- The issue slot is used: the warp issues no other word in this cycle (R273). -/
def noteIssue (s : State) (wid slot : Nat) : State :=
  s.modWarp wid fun w => { w with lastIssue := 2 * s.now + slot, idle := 0 }

/-- The trap that a word of some lanes at a PC takes before it is fetched, when one is due: a held WATCH trap, a lost watch record, PERMIT,
FLIMIT (R276, R284, R290, R294, R297). The state no longer holds what the trap reports. -/
def trapDue (s : State) (w : Warp) (ls : List Nat) (pc : Int) (held : Option WatchTrap) : Option (State × TrapReq) :=
  match held with
  | some t => some (s.modWarp w.wid fun w => { w with watchTraps := w.watchTraps.erase t }, ⟨cause.watch, t⟩)
  | none => match recordLost s w ls with
    | some u => some (s.modCore w.coreNo fun c => { c with errs := c.errs.filter fun x => x != u }, ⟨cause.uncor, listed ls 0 0⟩)
    | none => match w.permits with
      | p :: r => some (s.modWarp w.wid fun w => { w with permits := r }, ⟨cause.permit, listed ls p 0⟩)
      | [] => if pastLimit s w pc then some (s, ⟨cause.flimit, listed ls 0 (6 * pc)⟩) else none

/-- The trap that a warp takes in place of its next word. -/
def trapInPlace (s : State) (w : Warp) : Option State :=
  (trapDue s w w.issuers w.issuePc (watchDue w)).map fun p => p.1.enterTrap w.wid p.2

/-- The PC units test the word at a PC, for the lanes of its issue set that are not exempt, once for each issue (R296, R297, R300). -/
def pcUnits (s : State) (w : Warp) (ls : List Nat) (pc : Int) : State × List Trig :=
  if w.handler then (s, [])
  else watchTest s w.coreNo s.now fun u =>
    if u.is 4 && u.value == pc then ((u.inScope s w ls).filter fun l => !(w.lane l).skip && !(w.lane l).tested).map fun l => (l, 0) else []

/-- A pending TASKF is taken in place of a word that reads no latch (R246). -/
def taskfHere (w : Warp) (i : Option Instr) : Option TaskF :=
  if w.handler || w.inTaskf then none
  else match w.taskfs, i with
    | tf :: _, some i => if i.latches.isEmpty then some tf else none
    | tf :: _, none => some tf
    | [], _ => none

/-- The first word of a launch has issued (R266). -/
def noteRunning (s : State) (w : Warp) : State :=
  match (gangOf s w).bind fun g => s.launch? g.lid with
  | some x => if x.started then s else (cwUpdate s x (some 1) []).modLaunch x.lid fun x => { x with started := true }
  | none => s

/-- A word of the warp starts: its launch runs, and it takes its pipes (R75, R266). -/
def startWord (s : State) (w : Warp) : State :=
  noteRunning (match (wordFor s w w.issuePc).bind decode? with | some i => takePipes s w i w.issuers | none => s) w

/-- The chain hold after a word (R109). A word that reads a latch and traps before it is done (ILLEGAL among others) leaves no hold, since
its warp is in its handler: DESIGN CHOICE, R109 does not say whether the hold stands until the handler's first word (log entry 98). -/
def noteHold (s : State) (wid slot : Nat) (i : Option Instr) (wasHandler : Bool) : State :=
  s.modWarp wid fun w => { w with hold := match i with
    | some i => if !i.latches.isEmpty && !i.chainEnds && w.handler == wasHandler then some slot else none
    | none => none }

/-- Issue the word at the issue set's PC. A word that waits behind an ownership request has not issued: nothing of it stays but the
wait (R427). -/
def issueAt (s : State) (w : Warp) (slot : Nat) (v : Int) : Out :=
  let ls := w.issuers
  let c : Cur := ⟨w.wid, w.issuePc, ls, slot, false, none⟩
  let s1 := noteIssue s w.wid slot
  let p := pcUnits s1 w ls w.issuePc
  if !p.2.isEmpty then .next (watchAct p.1 w.wid p.2)
  else
    let i := decode? v
    match taskfHere w i with
    | some tf => .next (enterTaskf (p.1.modWarp w.wid fun w => { w with taskfs := w.taskfs.drop 1 }) w.wid ls tf)
    | none =>
      let s2 := startWord p.1 w
      match i with
      | none => .next (noteHold (raiseTrap (s2.modWarp w.wid fun w => w.countYields 1) c ⟨cause.illegal, listed ls 0 0⟩) w.wid slot none w.handler)
      | some j =>
        Out.map (fun s3 =>
          match (s3.warp? w.wid).bind fun w => w.blocked with
          | some n => s.modWarp w.wid fun w => { w with blocked := some n }
          | none => noteHold s3 w.wid slot i w.handler) (exec j { s2 with cur := some c })

/-- A warp issues in a slot of its bay, when it still may. -/
def issueTurn (s : State) (wid slot : Nat) : Out :=
  match s.warp? wid with
  | none => .next s
  | some w =>
    if !freeToIssue s w || issuedNow s w then .next s
    else match trapInPlace s w with
      | some s1 => .next (noteIssue s1 wid slot)
      | none => match wordFor s w w.issuePc with
        | none => .next (fetchFor s w)
        | some v => if wordReady s w v then issueAt s w slot v else .next s

/-! ### Words issued out of turn (R164, R307) -/

/-- The held WATCH trap that comes before a stepped word (R300): no lane that it lists is halted, but for the stepped one (log entry 60). -/
def watchAtStep (w : Warp) (l : Nat) : Option WatchTrap :=
  w.watchTraps.find? fun t => t.all fun p => p.1 == l || (w.lane p.1).halted.isNone

/-- A trap that is reported to the debugger for a stepped lane: the lane's own report comes first (R307). -/
def TrapReq.forLane (t : TrapReq) (l : Nat) : TrapReq :=
  { t with lanes := t.lanes.filter (fun p => p.1 == l) ++ t.lanes.filter fun p => p.1 != l }

/-- The word that is issued out of turn, once its block stands in the cache. -/
def forcedWord (s : State) (w : Warp) (pc : Int) : Option Instr :=
  (codeBlock? s w.coreNo w.ctx (blockOf pc)).bind fun b => decode? (wordAt b.words (pc % 27).toNat)

/-- A word issued out of turn takes pipes and its place among arrivals as any other, and needs an issue slot: it waits for a cycle that is
not withheld while the package runs (R20, R75, R219, R337). -/
def forcedFree (s : State) (c : Cur) : Bool :=
  match s.warp? c.wid with
  | none => true
  | some w => s.pkg.st == 1 && !withheld s w.die && (c.hstep.isSome || (!issuedNow s w && !resultsAwaited s w)) &&
    match forcedWord s w c.pc with
    | some i => decide ((passesOf i w c.lanes).length ≤ pipesFree s w.bayKey) && inOrder s w i
    | none => true

/-- Run a word out of turn. -/
def runForced (s : State) (w : Warp) (c : Cur) (i : Instr) : Out := exec i { takePipes s w i c.lanes with cur := some c }

/-- A stepped word: its block is fetched without a page request, and a trap is reported, not entered. A fetch that must wait gives the
turn back. -/
def stepTurn (s : State) (w : Warp) (c : Cur) : Out :=
  match trapDue s w c.lanes c.pc (watchAtStep w (c.lanes.headD 0)) with
  | some p => .next (raiseTrap p.1 c (p.2.forLane (c.lanes.headD 0)))
  | none => match fetchBlock s w c.lanes c.pc with
    | .trap s1 t => .next (raiseTrap s1 c t)
    | .park s1 _ d => .next (raiseTrap s1 c ⟨cause.fetch, listed c.lanes d (6 * c.pc)⟩)
    | .wait s1 => .next s1
    | .ok s1 =>
      if !forcedFree s1 c then .next { s1 with forced := some c }
      else match forcedWord s1 w c.pc with
        | some i => runForced s1 w c i
        | none => .next (raiseTrap s1 c ⟨cause.illegal, listed c.lanes 0 0⟩)

/-- The forced word: an access issued again at its promise, or a step. -/
def forcedTurn (s : State) (c : Cur) : Out :=
  let s1 : State := { s with forced := none }
  if !forcedFree s c then .next s
  else match s1.warp? c.wid with
  | none => .next s1
  | some w =>
    if c.hstep.isSome then stepTurn s1 w c
    else match forcedWord s1 w c.pc with
      | some i => runForced (noteIssue s1 w.wid c.slot) w c i
      | none => .next s1

/-! ### The order of events within a cycle (log entry 4) -/

/-- The event that a request in flight brings about. -/
def Req.event (r : Req) : Instr :=
  match r.body with
  | .read _ _ | .rtag _ _ | .pref _ | .fill _ _ _ => if r.stage = 1 then .sliceMissData r.id else .sliceRequest r.id
  | .store _ | .wtag _ _ | .hostStore _ => .homeStore r.id
  | .atom _ _ _ _ => .homeAtomic r.id
  | .red _ _ _ => .redContribution r.id
  | .det _ _ _ _ _ _ => .redDetContribution r.id
  | .sectors _ _ _ _ _ _ _ => .sectorLanding r.id
  | .mcast _ _ _ _ => .multicastRequest r.id
  | .mcopy _ _ _ _ _ _ _ => .multicastDelivery r.id
  | .wback _ _ _ _ _ _ _ | .evict _ => .writeBack r.id
  | .own _ _ _ _ => .ownershipRequest r.id
  | .recall _ _ _ _ => .windowRecall r.id
  | .stream _ _ _ _ _ => .streamSectorReceipt r.id
  | .data op => .loadReply op
  | .seek => .sliceRequest r.id

/-- The event that a task awaits. -/
def Task.event (g : Gang) (t : Task) : Instr :=
  if t.st = .computed then .taskEnd g.gid t.ticket
  else if taskKind t.words = 1 then .wloadTask g.gid t.ticket
  else if taskKind t.words = 2 then .mmTask g.gid t.ticket
  else if taskKind t.words = 3 then .streamTask g.gid t.ticket
  else .epiTask g.gid t.ticket

/-- Events of a warp that its waits and times bring about. -/
def warpTimed (s : State) (w : Warp) : List Instr :=
  (if (w.where_ fun x => x.yielded.isSome).isEmpty then [] else [.yieldRelease w.wid]) ++
  (if (w.where_ (Lane.joinLate (s.now - 1))).isEmpty then [] else [.waitjBoundExpiry w.wid]) ++
  (if (w.waiting (sleepWakes s.now)).isEmpty then [] else [.sleepWake w.wid]) ++
  (if w.taskfs.isEmpty then [] else [.taskfDelivery w.wid]) ++
  (if (promiseGroup w s.now).isSome then [.promiseReissue w.wid] else []) ++
  (if w.deadline.isSome then [.preemptionDeadline w.wid] else [])

/-- A barrier cycle has lasted: BARC comes 2,160 cycles after it began, which is within the 2,187 that R92 grants (DESIGN CHOICE, log entry
131). -/
def barcDue (s : State) (g : Gang) : List Instr :=
  match g.barcSince with
  | some t => if 2160 ≤ s.now - t then [.barcDetection g.gid] else []
  | none => []

/-- Events of a gang that its waits and times bring about. -/
def gangTimed (s : State) (g : Gang) : List Instr :=
  ((upto g.bars.length).filter fun i => s.warps.any fun w => w.gid == some g.gid &&
    !(w.waiting (barOver i s.now)).isEmpty).map (Instr.namedBarrierRelease g.gid) ++ barcDue s g ++
  (if g.held then [.gangStart g.gid] else [])

/-- The paddocks with bound contexts. -/
def padsIn (s : State) : List Nat := nodups (s.ctxs.map fun c => c.paddock)

/-- What the escapement posts and delivers at an exact cycle (R207, R213, R225): grants, pre-emption requests, halts and resumes of launches,
releases, the frontier. -/
def channelEvents (s : State) : List Instr :=
  s.pkg.grants.map (fun g => .grantApply g.die) ++ s.preempts.map (fun p => .preemptionRequest p.paddock) ++
  s.launches.flatMap (fun x => (x.signals.filter fun g => decide (g.at_ ≤ s.now)).map fun g =>
    if g.halt.isSome then .launchHaltSignal x.lid else .hresLaunchSignal x.lid) ++
  (s.chans.filter fun c => !c.due.isEmpty).map (fun c => .escapementRelease c.ch) ++
  (if s.now % 72900 = 0 && !granting s then [.powerGrant (dutiesFor s)] else []) ++ [.scFrontierReport, .frontierRelease]

/-- Events whose time has come. -/
def timedEvents (s : State) : List Instr :=
  channelEvents s ++ s.gangs.flatMap (gangTimed s) ++ s.warps.flatMap (warpTimed s) ++
  (s.reqs.filter fun r => decide (2700000 ≤ s.now - r.sent)).map (fun r => .remoteRequestTimeout r.id)

/-- Events of what is in flight. -/
def flightEvents (s : State) : List Instr :=
  s.reqs.map Req.event ++ s.home.mcasts.map (fun e => .multicastInject e.id) ++ s.ops.map (fun o => .loadReply o.id) ++
  s.warps.flatMap (fun w => if w.pends.isEmpty then [] else [.recvBind w.wid, .roleGrant w.wid]) ++
  s.gangs.flatMap (fun g => g.tasks.map (Task.event g)) ++
  s.xd.lanes.flatMap (fun l => if l.queue.isEmpty then [] else [.transducerRequestStart l.n, .transducerRequestEnd l.n]) ++
  (s.xd.slots.filter fun x => x.st == .loading).map (fun x => .tableLoadComplete x.t) ++
  (if s.pkg.rerouting then [.routesRecomputed] else [])

/-- Events of the scheduler. -/
def lifeEvents (s : State) : List Instr :=
  s.warps.map (fun w => .warpRetire w.wid) ++ s.gangs.map (fun g => .gangEnd g.gid) ++
  s.launches.flatMap (fun x => [.launchEnd x.lid, .deadlineMiss x.lid]) ++ s.ctxs.map (fun c => .sequencerWake c.ctx) ++
  (padsIn s).flatMap (fun p => [.headGangStarvation p, .timeSliceEnd p, .contextSwitchIn p]) ++
  (s.gangs.filter fun g => g.saved).map (fun g => .gangRestore g.gid (restoreFor s g)) ++
  (padsIn s).map (fun p =>
    .gangPlacement p (match nextGang s p with
      | some (w, cores) => placingFor s (recNeeds w.1.words) cores
      | none => []))

/-- A move ends in a bar: it waits (log entry 132). -/
def isBarred : Out → Bool
  | .next s => s.barred
  | _ => false
/-- An event changes the state, and nothing bars it. -/
def enabled (s : State) (i : Instr) : Bool := match exec i s with | .next s1 => decide (s1 ≠ s) && !s1.barred | _ => true

/-- What a step does. -/
inductive Move
  | turn (t : Turn)
  | forced (c : Cur)
  | choose (key : Nat)
  | close
  deriving DecidableEq, Repr

/-- The warps that fetch, the first of which does. -/
def fetchEvents (s : State) : List Instr := (s.warps.filter (wantsFetch s)).map fun w => .instructionFetch w.wid

/-- The move of the default order: a forced word, due events, fetches, the choices of the bays, what is in flight, the scheduler, and
when nothing else moves the arriving words of the cycle, and the clock. -/
def defaultMove (s : State) : Move :=
  match s.forced.filter fun c => forcedFree s c && !isBarred (forcedTurn s c) with
  | some c => .forced c
  | none => match (timedEvents s ++ fetchEvents s).find? (enabled s) with
    | some i => .turn (.event i)
    | none => match nextBay s with
      | some k => .choose k
      | none => match (flightEvents s ++ lifeEvents s).find? (enabled s) with
        | some i => .turn (.event i)
        | none => if s.late.isEmpty then .turn .tick else .close

/-- An event of the agenda that is barred stays at its head; anything else is taken, and a barred issue comes to nothing: its bay chooses again
(log entry 132). -/
def heldTurn (s : State) : Turn → Bool
  | .event i => isBarred (exec i s)
  | _ => false
/-- The move of a step: the agenda first. -/
def nextMove (s : State) : Move × State :=
  match s.agenda with
  | t :: r => if heldTurn { s with agenda := r } t then (defaultMove s, s) else (.turn t, { s with agenda := r })
  | [] => (defaultMove s, s)

/-- Let events happen one after the other; a barred one waits. -/
def happen (s : State) (es : List Instr) : State :=
  es.foldl (fun s i => match exec i s with | .next t => s.orStay t | _ => s) s

/-- Bounds of WAITJ that expire in a cycle, tested after every arrival of the cycle (R82). -/
def expireJoins (s : State) : State :=
  happen s ((s.warps.filter fun w => !(w.where_ (Lane.joinLate s.now)).isEmpty).map fun w => .waitjBoundExpiry w.wid)

/-- The next cycle (R224): the bounds of the old cycle expire, GTIME counts, the bays have not chosen, the host has answered the fences'
reads (R383), the escapement posts and delivers what is due in the new cycle (R213, R225), and barrier cycles that have lasted are found
(R92). -/
def tick (s : State) : State :=
  let f (w : Warp) : Warp := { w with fence := w.fence.map fun x => { x with host := false } }
  let s0 := expireJoins s
  let s1 := ({ s0 with served := [], arrivals := [], warps := s0.warps.map f } : State).modPkg fun p => { p with gtime := narrow (p.gtime + 1) 54 }
  happen (strike s1 (Config.upset s1.now)) (channelEvents s1 ++ s1.gangs.flatMap (barcDue s1))

/-- Make a move; one that is barred has not happened. -/
def makeMove (m : Move) (s : State) : Out :=
  Out.map s.orStay (match m with
  | .turn (.event i) => exec i s
  | .turn (.issue wid slot) => issueTurn s wid slot
  | .turn .tick => .next (tick s)
  | .forced c => forcedTurn s c
  | .choose k => .next (chooseBay s k)
  | .close => .next (closeCycle s))

/-- The move ends a cycle. -/
def Move.ticks : Move → Bool
  | .turn .tick => true
  | _ => false

/-- One step: the move, and what it brings about. -/
def turn (s : State) : Out :=
  let p := nextMove s
  Out.map (settle p.1.ticks) (makeMove p.1 p.2)

/-! ### A word placed to run (log entry 5) -/

/-- Where a placed word stands: word 6,561, at address 39,366 of page 2. -/
def placePc : Int := 6561

/-- A leaf of page 2 in frame 2 of the package: every permission, accessed and dirty (R142). -/
def placeLeaf (pkg : Int) : Int := pow3 52 + pow3 49 + pow3 48 + pow3 47 + pow3 45 + pow3 44 + pkg * pow3 30 + 2

/-- A launch of one gang of one warp of 27 registers at supervisor level, its segment one code block. -/
def placeRecord : List Int :=
  [0, placePc, 0, placePc + 27, 0, 0, 0, 0, 1 + pow3 9 + pow3 18, 1, 27, 0, 0, 0, 0, 0, pow3 24] ++ List.replicate 10 0

/-- A machine that issues a word next: the package runs, a warp of a launch of context n, the fresh names n to n + 3, stands at the
word in core 0, its translation and code block are loaded, and its issue heads the agenda. -/
def placeWord (s : State) (v : Int) : State :=
  let n := s.nextId
  let loc : Loc := .dom s.pkg.number 39366
  let mem := s.mem.write s.pkg.number 39366 6 v
  let ctx : Context := ⟨n, 81, List.replicate 27 0, 0, none, false, false⟩
  let launch : Launch :=
    { lid := n + 1, seq := 0, paddock := 0, ctx := n, words := placeRecord, issuer := none, cls := 0, nextGang := 1, gangEnds := 0,
      again := [], descs := [], chans := [], granted := true, die := none, missed := false, raised := false, started := true,
      headSince := none, table := [(0, 0, 0, false)], signals := [] }
  let gang : Gang :=
    { gid := n + 2, lid := n + 1, ctx := n, x := 0, y := 0, z := 0, cores := [0], alines := 0, nwarps := 1, scratch := [], stags := [], phys := [],
      bad := [], badRows := [], wins := [], bars := [], slots := [], tasks := [], nextTicket := 0, commit := false, relaunches := 0, placedAt := n,
      held := false, start := 0, saved := false, full := false, ranges := [], killed := false, reported := false, barcSince := none,
      releases := [] }
  let warp : Warp := { newWarp (n + 3) (some (n + 2)) n 0 (.slot 0 0 0) 0 1 27 placePc [] with code := [2 * 243 + 1] }
  let s1 : State := { s with
    mem := mem, ctxs := s.ctxs ++ [ctx], launches := s.launches ++ [launch], gangs := s.gangs ++ [gang], warps := s.warps ++ [warp],
    forced := none, cur := none, agenda := Turn.issue (n + 3) 0 :: s.agenda, nextId := n + 4 }
  let s2 := s1.modPkg fun p => { p with st := 1 }
  let s3 := s2.modPaddock 0 fun d => { d with pairs := [0], running := some n }
  s3.modCore 0 fun c => { c with
    tlb := ⟨n, 1, 0, 2, placeLeaf s.pkg.number, 0⟩ :: c.tlb,
    code := ⟨n, 243, readBlock mem 39366 [loc]⟩ :: c.code }

end Sys2Proof.Machine
end

