-- ==== Sys2Proof/Machine/Step.lean ====
section
/-! DEFINITION. Machine/Step.lean: one step of the machine, and a word stored where the next step runs it. -/

namespace Sys2Proof.Machine

open Sys2Proof

/-- One step (log entry 3). -/
def step (s : State) : Host.Outcome State Fault Refusal := turn s

/-- The state with an instruction word, laid out as decodeTableWord reads it, where the next step runs it (log entry 5). -/
def State.withFetchWord (s : State) (nbits w : Nat) : State := placeWord s ((wordOfBits (w % Nat.pow 2 (max nbits 88))).getD 0)

end Sys2Proof.Machine
end

