-- ==== Sys2Proof/Safety.lean ====
section
/-! DEFINITION. Safety.lean: what the statements call safe: the forms that every step keeps or brings about. -/

namespace Sys2Proof.Machine

open Sys2Proof

/-- A slot is held for a chain only while its warp has a lane to issue for (R109). -/
def Warp.holdOk (w : Warp) : Bool := w.hold.isNone || w.hasLanes

/-- A gang notes since when its barrier cycle holds, and only then (R92). -/
def Gang.barcOk (s : State) (g : Gang) : Bool := g.barcSince.isSome == barrierCycle s g

/-- A journal entry stands as its launch does: gangs taken, gangs ended, and the gangs placed and not ended, those that wait to be placed again
among them (R265, R293). -/
def JEntry.synced (s : State) (j : JEntry) : Bool :=
  match s.launches.find? fun x => x.seq == j.seq && x.paddock == j.paddock with
  | some x => j.nextGang == x.nextGang && j.gangEnds == x.gangEnds &&
      j.table == x.table ++ x.again.map fun a => (a.x, a.y, a.z, false)
  | none => true

/-- What every step leaves: chain holds lapsed, barrier cycles noted, the journal in step with the launches. -/
def State.settled (s : State) : Bool := s.warps.all Warp.holdOk && s.gangs.all (Gang.barcOk s) && s.journal.all (JEntry.synced s)

/-- Every memory stands in its one canonical form: the domain's and the host's, and each gang's scratchpad (R4, R154). -/
def State.memoriesOk (s : State) : Bool := s.mem.wf && s.gangs.all fun g => swf g.scratch

/-- A register's entries are words of 27 trits (R4, R153). -/
def wordsOk (m : Store) : Bool := m.all fun p => inR p.2 (-Tern.maxv 27) (Tern.maxv 27)
/-- A latch holds a word, or a double of 54 trits (R107). -/
def Latch.ok (y : Latch) : Bool := inR y.val (-Tern.maxv (if y.dbl then 54 else 27)) (Tern.maxv (if y.dbl then 54 else 27))
/-- Every general register and every latch of the warp is in range. -/
def Warp.regsOk (w : Warp) : Bool := wordsOk w.v && wordsOk w.g && w.lanes.all fun x => x.x1.ok && x.x2.ok && x.x3.ok
def State.regsOk (s : State) : Bool := s.warps.all Warp.regsOk

/-- A step answers a next state. -/
def answers (o : Host.Outcome State Fault Refusal) : Bool := match o with | .next _ => true | _ => false

/-! ### Words as statements speak of them -/

/-- A warp has 27 lanes and at most 81 V registers (R69, R71). -/
structure Warp.Shaped (w : Warp) : Prop where
  lanes : w.lanes.length = 27
  allot : w.allot ≤ 81

/-- The word i is about to run for warp w: the step has set it as current, the checks of R110 pass, and it is not
stepped by a debugger (R307). -/
structure Runs (i : Instr) (s : State) (c : Cur) (w : Warp) : Prop where
  cur : s.cur = some c
  warp : s.warp? c.wid = some w
  own : c.hstep = none
  wf : i.wf = true
  legal : legal i w c.lanes = true
  shaped : w.Shaped
  set : ∀ l ∈ c.lanes, l < 27

/-- The active lanes of a word (R73, R99). -/
def activeOf (i : Instr) (w : Warp) (ls : List Nat) : List Nat :=
  match i.hd? with | some h => activeLanes w h ls | none => ls

/-- A destination holds a word, or a double as two words, in the words' 27 trits (R4, R7, R101). -/
def Warp.Holds (w : Warp) (l : Nat) (d : Dst) (dbl : Bool) (x : Int) : Prop :=
  match d with
  | .latch => True
  | .v n => if dbl then w.vreg l n = Tern.lowWord x ∧ w.vreg l (n + 1) = Tern.highWord x else w.vreg l n = Tern.lowWord x
  | .g n => if dbl then w.greg n = Tern.lowWord x ∧ w.greg (n + 1) = Tern.highWord x else w.greg n = Tern.lowWord x

/-- Where a word of the value classes writes: a register destination, a P predicate of each lane, a Q predicate. -/
inductive To
  | reg (d : Dst) (dbl : Bool)
  | p (n : Nat)
  | q (n : Nat)
  deriving DecidableEq, Repr

/-- The target holds a value in a lane. -/
def To.Holds (t : To) (w : Warp) (l : Nat) (x : Int) : Prop :=
  match t with
  | .reg d dbl => w.Holds l d dbl x
  | .p n => w.preg l n = x
  | .q n => w.qreg n = x

/-- The V registers of a target. -/
def To.vs : To → List Nat | .reg (.v n) dbl => if dbl then [n, n + 1] else [n] | _ => []
/-- The G registers of a target. -/
def To.gs : To → List Nat | .reg (.g n) dbl => if dbl then [n, n + 1] else [n] | _ => []
/-- The P predicates of a target. -/
def To.ps : To → List Nat | .p n => [n] | _ => []
/-- The Q predicates of a target. -/
def To.qs : To → List Nat | .q n => [n] | _ => []
/-- What a lane latches is a double. -/
def To.dbl : To → Bool | .reg _ b => b | _ => false

/-- A lane without what every word changes in its issue set: PC, flags, latches, chain, the exemption of R300, the word's PC test, and the
count of a yield (R61, R73, R80, R107, R108, R297). -/
def Lane.kept (x : Lane) : Lane :=
  { x with pc := 0, flags := 0, x1 := ⟨0, false⟩, x2 := ⟨0, false⟩, x3 := ⟨0, false⟩, pos := 0, since := 0, made := 0,
           skip := false, tested := false, yielded := none }

/-- A warp without its registers, lanes and handler PC. -/
def Warp.kept (w : Warp) : Warp := { w with v := [], g := [], p := [], q := [], lanes := [], hpc := 0 }

/-- A warp without the halts on their way to it (R298). -/
def Warp.halting (w : Warp) : Warp := { w with halts := [] }

/-- All the machine but its warps, watch units, launch signals and log. -/
def State.kept (s : State) : State :=
  { s with warps := [], cores := [], launches := [], log := [], cur := none, fresh := 0 }

/-- Nothing beside its own warp changes by a word: memory byte by byte, tags, scratchpads, engines, requests, every other warp. A watch
unit that the word triggers may send halts and count (R297, R298). -/
structure Apart (s t : State) (wid : Nat) : Prop where
  bytes : ∀ p a, t.mem.read p a 1 = s.mem.read p a 1
  tags : ∀ p l, t.mem.tag p l = s.mem.tag p l
  host : ∀ a, hostGet t.mem.host a = hostGet s.mem.host a
  scratch : ∀ n, t.gang? n = s.gang? n
  kept : t.kept = s.kept
  others : ∀ n, n ≠ wid → (t.warp? n).map Warp.halting = (s.warp? n).map Warp.halting
  cores : ∀ n, { t.core n with watch := [] } = { s.core n with watch := [] }
  launches : t.launches.map (fun x => { x with signals := [] }) = s.launches.map (fun x => { x with signals := [] })

/-- The issue set has moved on by one word, in handler mode the handler PC (R73, R279); yields count it (R80). The PC of a lane is its resume PC when
the word traps (R277); a handler's word that its flags trap keeps the handler PC (R280). -/
structure MovedOn (i : Instr) (c : Cur) (w w' : Warp) : Prop where
  yields : ∀ l, l < 27 → (w'.lane l).yielded = (w.lane l).yielded.map fun y => { y with count := y.count - wordCount i }
  pcs : w.handler = false → ∀ l, l < 27 → (w'.lane l).pc = (w.lane l).pc + (if l ∈ c.lanes then 1 else 0)
  hpc : w.handler = true → (w'.hpc = w.hpc + 1 ∨ (i.te ≠ 0 ∧ w'.hpc = c.pc)) ∧ ∀ l, l < 27 → (w'.lane l).pc = (w.lane l).pc

/-- No trap or watch unit can follow the word: trap enable is 0, and no unit is armed in the core (R61, R296). -/
structure Quiet (i : Instr) (s : State) (w : Warp) : Prop where
  te : i.te = 0
  units : (s.core w.coreNo).watch = []

/-- Beside the registers, PCs, flags and latches nothing of the machine has changed: no other warp, no trap register, no mode, no
wait. -/
structure Calm (s t : State) (c : Cur) (w w' : Warp) : Prop where
  warp : w'.kept = w.kept
  lanes : ∀ l, l < 27 → (w'.lane l).kept = (w.lane l).kept
  others : ∀ n, n ≠ c.wid → t.warp? n = s.warp? n
  cores : t.cores = s.cores
  launches : t.launches = s.launches
  log : t.log = s.log

/-- What a word of the value classes does (R61, R73, R76, R99, R101, R107): value x l, with flags f l, in each active lane, or once in
the group-wide form. -/
structure Computed (i : Instr) (s t : State) (c : Cur) (w w' : Warp) (tg : To) (x : Nat → Int) (f : Nat → Fl) : Prop where
  warp : t.warp? c.wid = some w'
  result : ∀ l ∈ activeOf i w c.lanes, tg.Holds w' l (x (if i.isVector then l else 0))
  latch : i.isVector = true → ∀ l ∈ c.lanes,
    (w'.lane l).x1 = (if l ∈ activeOf i w c.lanes then Latch.fit ⟨x l, tg.dbl⟩ else ⟨0, false⟩) ∧ (w'.lane l).x2 = (w.lane l).x1 ∧
      (w'.lane l).x3 = (w.lane l).x2
  unlatched : ∀ l, l < 27 → ¬(i.isVector = true ∧ l ∈ c.lanes) →
    (w'.lane l).x1 = (w.lane l).x1 ∧ (w'.lane l).x2 = (w.lane l).x2 ∧ (w'.lane l).x3 = (w.lane l).x3
  flags : ∀ l, l < 27 → (w'.lane l).flags =
    (let fl := f (if i.isVector then l else 0)
     if l ∈ activeOf i w c.lanes ∧ fl.isNone = false then flagsOr (w.lane l).flags fl else (w.lane l).flags)
  vregs : ∀ l n, n < 81 → ¬(l ∈ activeOf i w c.lanes ∧ n ∈ tg.vs) → w'.vreg l n = w.vreg l n
  gregs : ∀ n, ¬(activeOf i w c.lanes ≠ [] ∧ n ∈ tg.gs) → w'.greg n = w.greg n
  pregs : ∀ l n, n ≤ 8 → ¬(l ∈ activeOf i w c.lanes ∧ n ∈ tg.ps) → w'.preg l n = w.preg l n
  qregs : ∀ n, ¬(activeOf i w c.lanes ≠ [] ∧ n ∈ tg.qs) → w'.qreg n = w.qreg n
  moved : MovedOn i c w w'
  apart : Apart s t c.wid
  calm : Quiet i s w → Calm s t c w w'

/-- The word i computes x with flags f into its target: from every state where it runs it answers such a next state. x and f are given
the warp, its active lanes and the lane. -/
def Computes (i : Instr) (tg : To) (x : Warp → List Nat → Nat → Int) (f : Warp → List Nat → Nat → Fl) : Prop :=
  ∀ s c w, Runs i s c w → ∃ t w', exec i s = .next t ∧
    Computed i s t c w w' tg (x w (activeOf i w c.lanes)) (f w (activeOf i w c.lanes))

/-! ### Words of the other classes -/

/-- The state as a word's effect finds it: the word is taken up, and yields have counted it (R80). -/
def State.counted (s : State) (i : Instr) (wid : Nat) : State :=
  ({ s with cur := none } : State).modWarp wid fun w => w.countYields (wordCount i)

/-- The state after a word without a result: its issue set latches, ends or continues its chains and, when adv, moves on by one word; the
free values go on by 27. -/
def State.endWord (s : State) (i : Instr) (c : Cur) (w : Warp) (adv : Bool) : State :=
  ({ s with fresh := s.fresh + 27 } : State).modWarp c.wid fun x =>
    x.retireWord i c.lanes [latchOf s (activeOf i w c.lanes) []] [] adv w.handler

/-- From every state where the word i runs and P holds, it has the effect e and ends, moving on by one word when adv. P and e are given
the state as the word finds it, the issue, the warp and its active lanes. -/
def Does (i : Instr) (P : State → Cur → Warp → List Nat → Prop) (e : State → Cur → Warp → List Nat → State) (adv : Bool) : Prop :=
  ∀ s c w, Runs i s c w → P (s.counted i c.wid) c w (activeOf i w c.lanes) →
    exec i s = .next ((e (s.counted i c.wid) c w (activeOf i w c.lanes)).endWord i c w adv)

/-- From every state where the word i runs and P holds, it takes the trap t and does nothing else (R276, R277). -/
def Traps (i : Instr) (P : State → Cur → Warp → List Nat → Prop) (t : State → Cur → Warp → List Nat → TrapReq) : Prop :=
  ∀ s c w, Runs i s c w → P (s.counted i c.wid) c w (activeOf i w c.lanes) →
    exec i s = .next ((s.counted i c.wid).enterTrap c.wid (t (s.counted i c.wid) c w (activeOf i w c.lanes)))

end Sys2Proof.Machine
end

