-- ==== Sys2Proof/Certificates/Slice0/Obligations.lean ====
section
/-! DEFINITION. Certificates/Slice0/Obligations.lean: the statements for the provers, with the rules of the spec that they name
written as functions and relations of their own. -/

namespace Sys2Proof.Rule

open Sys2Proof.Machine Sys2Proof.Tern

/-! ### Arithmetic (R5, R7, R26, R30, R38, R53) -/

/-- An exact value fitted to n trits under saturation trit s: result r, OV (R38). -/
def Fits (v : Int) (n : Nat) (s r : Int) (ov : Bool) : Prop :=
  if -maxv n ≤ v ∧ v ≤ maxv n then r = v ∧ ov = false
  else if s = 1 then r = (if v < 0 then -maxv n else maxv n) ∧ ov = true
  else (-maxv n ≤ r ∧ r ≤ maxv n) ∧ (pow3 n ∣ v - r) ∧ ov = decide (s = 0)

/-! ### Results by element (R23, R339) -/

/-- A result of each element of an integer type: the word, the double, or the three trytes. -/
def each1 (ty : ITy) (r : Nat → Int → Int) (a : Int) : Int :=
  match ty with
  | .w => r 27 a
  | .d => r 54 a
  | .t => r 9 (field a 8 0) + pow3 9 * (r 9 (field a 17 9) + pow3 9 * r 9 (field a 26 18))
def each2 (ty : ITy) (r : Nat → Int → Int → Int) (a b : Int) : Int :=
  match ty with
  | .w => r 27 a b
  | .d => r 54 a b
  | .t => r 9 (field a 8 0) (field b 8 0) + pow3 9 * (r 9 (field a 17 9) (field b 17 9) + pow3 9 * r 9 (field a 26 18) (field b 26 18))
def each3 (ty : ITy) (r : Nat → Int → Int → Int → Int) (a b c : Int) : Int :=
  match ty with
  | .w => r 27 a b c
  | .d => r 54 a b c
  | .t => r 9 (field a 8 0) (field b 8 0) (field c 8 0) + pow3 9 * (r 9 (field a 17 9) (field b 17 9) (field c 17 9) +
      pow3 9 * r 9 (field a 26 18) (field b 26 18) (field c 26 18))
/-- A flag that some element raises. -/
def any2 (ty : ITy) (r : Nat → Int → Int → Bool) (a b : Int) : Bool :=
  match ty with
  | .w => r 27 a b
  | .d => r 54 a b
  | .t => r 9 (field a 8 0) (field b 8 0) || r 9 (field a 17 9) (field b 17 9) || r 9 (field a 26 18) (field b 26 18)
def any3 (ty : ITy) (r : Nat → Int → Int → Int → Bool) (a b c : Int) : Bool :=
  match ty with
  | .w => r 27 a b c
  | .d => r 54 a b c
  | .t => r 9 (field a 8 0) (field b 8 0) (field c 8 0) || r 9 (field a 17 9) (field b 17 9) (field c 17 9) ||
      r 9 (field a 26 18) (field b 26 18) (field c 26 18)

/-- The operand B: an immediate of .T stands in each element (R343). -/
def operandB (w : Warp) (l : Nat) (ty : ITy) : SrcImm → Int
  | .src b => w.src l (ty == .d) b
  | .imm i => if ty = .t then i + pow3 9 * (i + pow3 9 * i) else i

/-- OV alone, DZ alone. -/
def ovIf (b : Bool) : Fl := if b then { Fl.none with ov := true } else Fl.none
def dzIf (b : Bool) : Fl := if b then { Fl.none with dz := true } else Fl.none

/-- Integer words of one operand: the element's result (R33, R34, R342, R399, R400, R421); none of them raises a flag. -/
inductive One : Instr → Dst → ITy → Src → (Nat → Int → Int) → Prop
  | abs (o : I1) : One (.abs o) o.d o.ty o.a fun _ x => if x < 0 then -x else x
  | neg (o : I1) : One (.neg o) o.d o.ty o.a fun _ x => -x
  | sgn (o : I1) : One (.sgn o) o.d o.ty o.a fun _ x => if x < 0 then -1 else if x = 0 then 0 else 1
  | tlz (o : I1) : One (.tlz o) o.d o.ty o.a fun n x => (((List.range n).reverse.takeWhile fun i => trit x i == 0).length : Nat)
  | tcnt (o : ICnt) : One (.tcnt o) o.d o.ty o.a fun n x => ((List.range n).countP fun i => trit x i == o.sel : Nat)
  | tmap (o : ITab1) : One (.tmap o) o.d o.ty o.a fun n x => ofTrits ((List.range n).map fun i => trit o.tbl (trit x i + 1).toNat)

/-- Integer words of two operands: the element's result, and when OV or DZ is raised (R29 to R33, R35, R37, R38, R343, R344, R365, R366,
R399, R400, R421, R422). -/
inductive Two : Instr → Dst → ITy → Src → SrcImm → (Nat → Int → Int → Int) → (Int → Int → Fl) → Prop
  | add (o : I2) : Two (.add o) o.d o.ty o.a o.b (fun n x y => (fit (x + y) n o.sat).1)
      fun a b => ovIf (any2 o.ty (fun n x y => (fit (x + y) n o.sat).2) a b)
  | sub (o : I2) : Two (.sub o) o.d o.ty o.a o.b (fun n x y => (fit (x - y) n o.sat).1)
      fun a b => ovIf (any2 o.ty (fun n x y => (fit (x - y) n o.sat).2) a b)
  | mul (o : I2) : Two (.mul o) o.d o.ty o.a o.b (fun n x y => (fit (x * y) n o.sat).1)
      fun a b => ovIf (any2 o.ty (fun n x y => (fit (x * y) n o.sat).2) a b)
  | mulh (o : I2) : Two (.mulh o) o.d o.ty o.a o.b (fun n x y => shr (x * y) n) fun _ _ => Fl.none
  | div (o : I2) : Two (.div o) o.d o.ty o.a o.b (fun _ x y => if y = 0 then 0 else divNearest x y)
      fun a b => dzIf (any2 o.ty (fun _ _ y => y == 0) a b)
  | divz (o : I2) : Two (.divz o) o.d o.ty o.a o.b (fun _ x y => if y = 0 then 0 else Int.tdiv x y)
      fun a b => dzIf (any2 o.ty (fun _ _ y => y == 0) a b)
  | mod (o : I2) : Two (.mod o) o.d o.ty o.a o.b (fun _ x y => if y = 0 then 0 else x - divNearest x y * y)
      fun a b => dzIf (any2 o.ty (fun _ _ y => y == 0) a b)
  | min (o : I2) : Two (.min o) o.d o.ty o.a o.b (fun _ x y => if x ≤ y then x else y) fun _ _ => Fl.none
  | max (o : I2) : Two (.max o) o.d o.ty o.a o.b (fun _ x y => if x ≤ y then y else x) fun _ _ => Fl.none
  | tsh (o : I2) : Two (.tsh o) o.d o.ty o.a o.b
      (fun n x k => if 0 < k then (fit (x * pow3 (Min.min k.toNat n)) n o.sat).1 else shr x (Min.min (-k).toNat n))
      fun a b => ovIf (any2 o.ty (fun n x k => decide (0 < k) && (fit (x * pow3 (Min.min k.toNat n)) n o.sat).2) a b)
  | trot (o : I2) : Two (.trot o) o.d o.ty o.a o.b (fun n x k => ofTrits ((List.range n).map fun i => trit x (((i : Int) - k) % n).toNat))
      fun _ _ => Fl.none
  | tbin (o : ITab2) : Two (.tbin o) o.d o.ty o.a (.src o.b)
      (fun n x y => ofTrits ((List.range n).map fun i => trit o.tbl (3 * (trit x i + 1) + (trit y i + 1)).toNat)) fun _ _ => Fl.none

/-- Integer words of three operands (R36, R399, R400, R421). -/
inductive Three : Instr → I3 → (Nat → Int → Int → Int → Int) → (Int → Int → Int → Fl) → Prop
  | mad (o : I3) : Three (.mad o) o (fun n x y z => (fit (x * y + z) n o.sat).1)
      fun a b c => ovIf (any3 o.ty (fun n x y z => (fit (x * y + z) n o.sat).2) a b c)
  | tsel (o : I3) : Three (.tsel o) o
      (fun n x y z => ofTrits ((List.range n).map fun i => if trit z i = 1 then trit x i else if trit z i = 0 then 0 else trit y i))
      fun _ _ _ => Fl.none

end Sys2Proof.Rule

open Sys2Proof Sys2Proof.Machine Sys2Proof.Tern

/-! ## Arithmetic -/

/-- R38: an exact value fitted to n trits. -/
def Obligations.FittingAnExactValue : Prop :=
  ∀ (v : Int) (n : Nat) (s : Int), Rule.Fits v n s (fit v n s).1 (fit v n s).2

/-- R5, R7: a value is canonical in n trits when its magnitude is at most (3^n - 1)/2; it is then the sum of its n trits, each -1, 0 or +1, and
every trit above is 0. Narrowing keeps trits n-1 to 0: the result is canonical, congruent modulo 3^n, and the only such number. Keeping the upper
trits rounds to nearest. R26: discarding the k lowest trits leaves q·3^k, the multiple of 3^k nearest to the value, whose tail t is at most
(3^k - 1)/2; R30: DIV's quotient is nearest, ties toward zero. -/
def Obligations.NarrowingDiscardingAndDividing : Prop :=
  (∀ (v : Int) (n : Nat), (-maxv n ≤ narrow v n ∧ narrow v n ≤ maxv n) ∧ (pow3 n ∣ v - narrow v n) ∧
    ∀ r, -maxv n ≤ r → r ≤ maxv n → (pow3 n ∣ v - r) → r = narrow v n) ∧
  (∀ (v : Int) (n : Nat), -maxv n ≤ v → v ≤ maxv n →
    ofTrits ((List.range n).map (trit v)) = v ∧ (∀ i, trit v i = -1 ∨ trit v i = 0 ∨ trit v i = 1) ∧ ∀ i, n ≤ i → trit v i = 0) ∧
  (∀ (v : Int) (n : Nat), canon v n = decide (v.natAbs ≤ (Nat.pow 3 n - 1) / 2)) ∧
  (∀ (v : Int) (k : Nat), 2 * (v - pow3 k * shr v k).natAbs < Nat.pow 3 k) ∧
  (∀ (v : Int) (k : Nat), v = pow3 k * shr v k + narrow v k ∧ 2 * (narrow v k).natAbs ≤ Nat.pow 3 k - 1 ∧
    ∀ q : Int, (v - pow3 k * shr v k).natAbs ≤ (v - pow3 k * q).natAbs) ∧
  (∀ a b : Int, b ≠ 0 → 2 * (a - divNearest a b * b).natAbs ≤ b.natAbs ∧
    (2 * (a - divNearest a b * b).natAbs = b.natAbs → (divNearest a b * b).natAbs ≤ a.natAbs))

/-! ## What every step keeps: the memories -/

/-- From every state whose memories stand in their one canonical form (addresses rising, no entry equal to what an unlisted address reads as), a step
leaves them in it: the domain's and the host's memory and each gang's scratchpad, so that equal memories are equal data. -/
def Obligations.EveryStepKeepsTheMemories : Prop :=
  ∀ s t : State, s.memoriesOk = true → step s = .next t → t.memoriesOk = true

/-! ## Value words -/

/-- ABS, NEG, SGN, TLZ, TCNT and TMAP: every form computes the element's result into its destination, in each active lane or once,
latches it, moves on, and changes nothing else. -/
def Obligations.OneOperandIntegerWords : Prop :=
  ∀ i d ty a r, Rule.One i d ty a r →
    Computes i (.reg d (ty == .d)) (fun w _ l => Rule.each1 ty r (w.src l (ty == .d) a)) (fun _ _ _ => Fl.none)

/-- ADD, SUB, MUL, MULH, DIV, DIVZ, MOD, MIN, MAX, TSH, TROT and TBIN, in every type, form, saturation and trap enable, with OV and DZ as the
rules say. -/
def Obligations.TwoOperandIntegerWords : Prop :=
  ∀ i d ty a b r f, Rule.Two i d ty a b r f →
    Computes i (.reg d (ty == .d)) (fun w _ l => Rule.each2 ty r (w.src l (ty == .d) a) (Rule.operandB w l ty b))
      (fun w _ l => f (w.src l (ty == .d) a) (Rule.operandB w l ty b))

/-- MAD and TSEL. -/
def Obligations.ThreeOperandIntegerWords : Prop :=
  ∀ i o r f, Rule.Three i o r f →
    Computes i (.reg o.d (o.ty == .d))
      (fun w _ l => Rule.each3 o.ty r (w.src l (o.ty == .d) o.a) (w.src l (o.ty == .d) o.b) (w.src l (o.ty == .d) o.c))
      (fun w _ l => f (w.src l (o.ty == .d) o.a) (w.src l (o.ty == .d) o.b) (w.src l (o.ty == .d) o.c))


/-! ## Control -/

/-- The lanes of an issue set after a jump: an active lane at its target, another one word on (R73). -/
def Rule.jumped (c : Cur) (al : List Nat) (target : Nat → Int) (w : Warp) : Warp :=
  w.allLanes (fun l x =>
      if c.lanes.contains l then { x with pc := if al.contains l then target l else x.pc + 1 } else x)

/-- NOP only moves on; EXIT ends its active lanes, whose issue set otherwise moves on; YLD yields for 27 instructions or 729 cycles;
ISYNC only empties what the warp has fetched (R80, R367, R387, R406, R440). -/
def Obligations.NopExitYldIsync : Prop :=
  (∀ h, Does (.nop h) (fun _ _ _ _ => True) (fun s _ _ _ => s) true) ∧
  (∀ h, Does (.exit h) (fun _ _ _ _ => True) (fun s c _ al => s.modWarp c.wid fun w =>
    w.allLanes (fun l x => if c.lanes.contains l then (if al.contains l then { x with live := false } else { x with pc := x.pc + 1 })
        else x)) false) ∧
  (∀ h, Does (.yld h) (fun _ _ _ _ => True) (fun s c _ al => s.modWarp c.wid fun w =>
    w.allLanes (fun l x => if al.contains l then { x with yielded := some ⟨27, s.pkg.gtime + 729⟩ } else x)) true) ∧
  (∀ h, Does (.isync h) (fun _ _ _ al => al ≠ []) (fun s c _ _ => s.modWarp c.wid fun w => { w with code := [] }) true)

/-- BRA and JMPI: each active lane goes to its own target, the others of the issue set move on; in handler mode BRA.GW moves the handler
PC (R73, R279, R353, R354, R388). -/
def Obligations.BranchesGoToTheirTargets : Prop :=
  (∀ o, Does (.bra o) (fun _ _ w al => al ≠ [] ∧ w.handler = false)
    (fun s c w al => s.modWarp c.wid (Rule.jumped c al fun _ => match o.t with | .rel k => c.pc + k | .reg b k => w.gpair b + k)) false) ∧
  (∀ o, Does (.bra o) (fun _ _ w al => al ≠ [] ∧ w.handler = true)
    (fun s c w _ => s.modWarp c.wid fun x => { x with hpc := match o.t with | .rel k => c.pc + k | .reg b k => w.gpair b + k }) false) ∧
  (∀ o, Does (.bra o) (fun _ _ _ al => al = []) (fun s _ _ _ => s) true) ∧
  (∀ o, Does (.jmpi o) (fun _ _ _ _ => True) (fun s c w al => s.modWarp c.wid (Rule.jumped c al fun l => w.src l true o.a + o.imm)) false)

/-- What the release that a word carries awaits is over, or there is nothing of it (R201). -/
def Rule.freed (s : State) (c : Cur) (w : Warp) (scope : Int) : Prop := w.released = some c.pc ∨ fenceAwaits s w scope 1 = []
/-- The state after that release: it is used up. -/
def Rule.unheld (s : State) (c : Cur) (w : Warp) : State :=
  if w.released = some c.pc then s.modWarp c.wid fun x => { x with released := none } else s
/-- From every state where the word runs, P holds and its release awaits something, the word stays where it is and its warp waits for the
writes on their way, as after a FENCE; the PC units have tested it (R201, R297). -/
def Rule.HoldsBack (i : Instr) (P : State → Cur → Warp → List Nat → Prop) (scope : Int) : Prop :=
  ∀ s c w, Runs i s c w → P (s.counted i c.wid) c w (activeOf i w c.lanes) → ¬ Rule.freed (s.counted i c.wid) c w scope →
    exec i s = .next ((s.counted i c.wid).modWarp c.wid fun x =>
      { x.modLanes c.lanes (fun _ y => { y with tested := true }) with
          fence := some ⟨scope, 1, fenceAwaits (s.counted i c.wid) w scope 1, false⟩, released := some c.pc })

/-- No lane fails a call: none stands at the greatest depth, and a lane at depth 9 or more has a usable spill line (R79, R357). -/
def Rule.callFits (g : Gang) (w : Warp) (al : List Nat) : Prop :=
  ∀ l ∈ al, (w.lane l).depth ≠ 9841 ∧ (9 ≤ (w.lane l).depth → spillOk g (w.spill + 81 * (((w.lane l).depth - 9 : Nat) : Int)) = true)

/-- A call: depth + 1, the return PC newest in the link stack, which holds nine entries (R77, R78). -/
def Rule.called (c : Cur) (al : List Nat) (target : Nat → Int) (w : Warp) : Warp :=
  w.allLanes (fun l x => if c.lanes.contains l then
      (if al.contains l then { x with depth := x.depth + 1, link := some (x.pc + 1) :: x.link.take 8, pc := target l } else { x with pc := x.pc + 1 })
      else x)

/-- CALL and CALLI: the return PC is pushed, a lane at depth 9 or more spills the entry that leaves its link stack, and the active lanes go
to their targets; lanes that may not call trap STACK, and an uncorrectable spill word traps UNCOR; below depth 9 nothing is spilled. RET: below depth 10
an active lane whose newest entry is held goes there, with depth one less; at any depth a return that passes its checks reads the spill lines that it
needs; a lane at depth 0 makes the word trap STACK, an uncorrectable spill word UNCOR (R77 to R79, R158, R356 to R358, R415). -/
def Obligations.CallsPushAndReturnsPop : Prop :=
  (∀ o g, Does (.call o) (fun s _ w al => gangOf s w = some g ∧ Rule.callFits g w al ∧ ∀ u ∈ callUnits w al, g.unread u.2 3 = false)
    (fun s c w al => ((scrub s g.gid ((callUnits w al).map fun u => (u.2, 3))).modGang g.gid (spillCalls w al)).modWarp c.wid
      (Rule.called c al fun _ => match o.t with | .rel k => c.pc + k | .reg b k => w.gpair b + k)) false) ∧
  (∀ o g, Does (.calli o) (fun s _ w al => gangOf s w = some g ∧ Rule.callFits g w al ∧ ∀ u ∈ callUnits w al, g.unread u.2 3 = false)
    (fun s c w al => ((scrub s g.gid ((callUnits w al).map fun u => (u.2, 3))).modGang g.gid (spillCalls w al)).modWarp c.wid
      (Rule.called c al fun l => w.src l true o.a + o.imm)) false) ∧
  (∀ i o p g, (i = .call o ∨ i = .calli p) → Traps i (fun s _ w al => gangOf s w = some g ∧ ¬ Rule.callFits g w al)
    (fun _ _ w al => ⟨cause.stack, failing al (callBad g w)⟩)) ∧
  (∀ i o p g, (i = .call o ∨ i = .calli p) → Traps i
    (fun s _ w al => gangOf s w = some g ∧ Rule.callFits g w al ∧ ∃ u ∈ callUnits w al, g.unread u.2 3 = true)
    (fun _ _ w al => ⟨cause.uncor, ((callUnits w al).filter fun u => g.unread u.2 3).map fun u => (u.1, 0, 81 * (u.2 / 81))⟩)) ∧
  (∀ (w : Warp) al, (∀ l, (w.lane l).depth < 9) → callUnits w al = []) ∧
  (∀ w : Warp, ∀ g, (∀ l, (w.lane l).depth < 9) → ∀ al, spillCalls w al g = g) ∧
  (∀ h g, Does (.ret h) (fun s _ w al => gangOf s w = some g ∧ ∀ l ∈ al, 1 ≤ (w.lane l).depth ∧ (w.lane l).depth ≤ 9 ∧
      ∃ v r, (w.lane l).link = some v :: r)
    (fun s c _ al => s.modWarp c.wid fun x => x.allLanes (fun l x => if c.lanes.contains l then
      (if al.contains l then { x with depth := x.depth - 1, link := x.link.drop 1, pc := (x.link.headD none).getD 0 } else { x with pc := x.pc + 1 })
      else x)) false) ∧
  (∀ h g, Does (.ret h) (fun s _ w al => gangOf s w = some g ∧ failing al (retBad g w) = [] ∧
      ∀ l ∈ al, ∀ a ∈ retLines w l, g.unread (a + 3 * (l : Int)) 3 = false)
    (fun s c w al => (scrub s g.gid (al.flatMap fun l => (retLines w l).map fun a => (a + 3 * (l : Int), 3))).modWarp c.wid fun x => x.allLanes (fun l x => if c.lanes.contains l then
      (if al.contains l then retLane g w l x else { x with pc := x.pc + 1 }) else x)) false) ∧
  (∀ h g, Traps (.ret h) (fun s _ w al => gangOf s w = some g ∧ ∃ l ∈ al, (w.lane l).depth = 0)
    (fun _ _ w al => ⟨cause.stack, failing al (retBad g w)⟩)) ∧
  (∀ h g, Traps (.ret h) (fun s _ w al => gangOf s w = some g ∧ failing al (retBad g w) = [] ∧
      ∃ l ∈ al, ∃ a ∈ retLines w l, g.unread (a + 3 * (l : Int)) 3 = true)
    (fun _ _ w al => ⟨cause.uncor, failing al fun l => (retLines w l).find? fun a => g.unread (a + 3 * (l : Int)) 3⟩))

/-! ## What every step keeps: the registers -/

/-- From every state whose warps' V and G registers are words of 27 trits and whose latches are words, or doubles of 54 trits, a step leaves them so; such
registers read in range, whatever register is read. -/
def Obligations.EveryStepKeepsRegistersInRange : Prop :=
  (∀ s t : State, s.regsOk = true → step s = .next t → t.regsOk = true) ∧
  (∀ w : Warp, w.regsOk = true → (∀ l n, -maxv 27 ≤ w.vreg l n ∧ w.vreg l n ≤ maxv 27) ∧ ∀ n, -maxv 27 ≤ w.greg n ∧ w.greg n ≤ maxv 27)

/-- WAITJ: each active lane waits from this word on, due after its bound, at its depth; its result, which comes at the end, is the latch that
this word makes (R107). SLEEPT: an active lane sleeps until its due time
unless that has come; the due time is the operand and the immediate, in 27 trits (R82, R424, R436). -/
def Obligations.WaitjAndSleeptWait : Prop :=
  (∀ o, Does (.waitj o) (fun _ _ _ _ => True) (fun s c _ al => s.modWarp c.wid fun x => x.allLanes (fun l y =>
    if al.contains l then { y with wait := some ⟨.join (s.pkg.gtime + (o.n : Int)) o.d y.depth (y.made + 1), c.pc⟩ } else y)) true) ∧
  (∀ o, Does (.sleept o) (fun _ _ w _ => w.handler = false) (fun s c w al => s.modWarp c.wid fun x => x.allLanes (fun l y =>
    if al.contains l ∧ narrow (s.pkg.gtime - narrow (w.src l false o.a + o.e) 27) 27 < 0 then
      { y with wait := some ⟨.sleep (narrow (w.src l false o.a + o.e) 27), c.pc⟩ } else y)) true)

/-! ## Barriers and channels -/

/-- An arrival at a named barrier that is no misuse (R90). -/
def Rule.barGood (g : Gang) (wid : Nat) (q n : Int) : Prop :=
  0 ≤ q ∧ ∃ b, g.bars[q.toNat]? = some b ∧ b.dropped.contains wid = false ∧ (1 ≤ n ∧ n ≤ g.nwarps) ∧
    (∀ m, b.operand = some m → m = n) ∧ 1 ≤ n - (b.drops - b.dropsNow)

/-- The release of gang scope that an arrival carries is over: for a gang on a pair, one of pair scope; else there is none (R198, R201). -/
def Rule.gangFreed (s : State) (c : Cur) (w : Warp) : Prop := pairGang s w = true → Rule.freed s c w (-1)
def Rule.gangUnheld (s : State) (c : Cur) (w : Warp) : State := if pairGang s w then Rule.unheld s c w else s

/-- An arrival is noted for its cycle, and made (R88, R91). -/
def Rule.barArrived (s : State) (g : Gang) (w : Warp) (q : Nat) (n : Int) (drop : Bool) : State :=
  ({ s with arrivals := (.bar g.gid q, w.slotKey) :: s.arrivals } : State).modGang g.gid fun g => g.modBar q fun b => b.arrive w.wid n drop
/-- A wait for the phase that has completed waits for its release: one cycle on the barrier's own core, nine on the partner core (R91). -/
def Rule.barEnds (now : Int) (g : Gang) (q : Nat) (ph : Int) (w : Warp) (x : Wait) : Wait :=
  if x.kind = .bar q ph then { x with kind := .barEnd q (now + (match w.place with
    | .slot c _ _ => if g.cores.head? = some c then 1 else 9
    | _ => 1)) } else x
/-- What the gang's warps wait for after the arrival: when it completes the phase, the release. -/
def Rule.barAfter (s : State) (g : Gang) (w : Warp) (q : Nat) (n : Int) (drop : Bool) : State :=
  let b := g.bars.getD q Bar.start
  if (b.arrive w.wid n drop).phase = b.phase then s
  else { s with warps := s.warps.map fun w => if w.gid = some g.gid then
      (w.allLanes fun _ x => { x with wait := x.wait.map (Rule.barEnds s.pkg.gtime g q b.phase w), hwait := x.hwait.map (Rule.barEnds s.pkg.gtime g q b.phase w) })
    else w }

/-- BAR.A, BAR.S and BAR.D arrive at their barrier once the release that they carry for a gang on a pair is over, for which the word else waits;
BAR.S makes its active lanes wait for the open phase; an arrival that completes it makes the waits for it wait for their release; misuse traps BARX;
BAR.W waits without arriving, and of a barrier outside the gang's traps BARX. A phase completes exactly when its arrivals reach the operand less the earlier drops: it advances modulo 27 and its arrivals are forgotten,
while drops stay (R87 to R91, R198, R201, R348, R349). -/
def Obligations.NamedBarrierWordsArriveAndWait : Prop :=
  (∀ o g, Does (.barA o) (fun s c w al => gangOf s w = some g ∧ al ≠ [] ∧ Rule.barGood g w.wid o.q o.n ∧ Rule.gangFreed s c w)
    (fun s c w _ => Rule.barAfter (Rule.barArrived (Rule.gangUnheld s c w) g w o.q.toNat o.n false) g w o.q.toNat o.n false) true) ∧
  (∀ o g, Does (.barS o) (fun s c w al => gangOf s w = some g ∧ al ≠ [] ∧ Rule.barGood g w.wid o.q o.n ∧ Rule.gangFreed s c w)
    (fun s c w al => Rule.barAfter ((Rule.barArrived (Rule.gangUnheld s c w) g w o.q.toNat o.n false).modWarp c.wid fun x =>
      x.waitOn al (.bar o.q.toNat (g.bars.getD o.q.toNat Bar.start).phase) c.pc) g w o.q.toNat o.n false) true) ∧
  (∀ o g, Does (.barD o) (fun s c w al => gangOf s w = some g ∧ al ≠ [] ∧ Rule.barGood g w.wid o.q o.n ∧ Rule.gangFreed s c w)
    (fun s c w _ => Rule.barAfter (Rule.barArrived (Rule.gangUnheld s c w) g w o.q.toNat o.n true) g w o.q.toNat o.n true) true) ∧
  (∀ o g, Does (.barW o) (fun s _ w al => gangOf s w = some g ∧ al ≠ [] ∧ 0 ≤ o.q ∧ o.q.toNat < g.bars.length)
    (fun s c _ al => s.modWarp c.wid fun x => x.waitOn al (.bar o.q.toNat (g.bars.getD o.q.toNat Bar.start).phase) c.pc) true) ∧
  (∀ i o g, (i = .barA o ∨ i = .barS o ∨ i = .barD o) →
    Traps i (fun s _ w al => gangOf s w = some g ∧ al ≠ [] ∧ ¬ Rule.barGood g w.wid o.q o.n) (fun _ _ _ al => ⟨cause.barx, listed al 0 0⟩) ∧
    Rule.HoldsBack i (fun s _ w al => gangOf s w = some g ∧ al ≠ [] ∧ Rule.barGood g w.wid o.q o.n ∧ pairGang s w = true) (-1)) ∧
  (∀ o g, Traps (.barW o) (fun s _ w al => gangOf s w = some g ∧ al ≠ [] ∧ ¬ (0 ≤ o.q ∧ o.q.toNat < g.bars.length))
    (fun _ _ _ al => ⟨cause.barx, listed al 0 0⟩)) ∧
  (∀ (b : Bar) (wid : Nat) (n : Int) (drop : Bool), b.dropped.contains wid = false →
      let k : Int := (b.arrived.length : Int) + (if b.arrived.contains wid then 0 else 1)
      let e : Int := n - ((b.drops + (if drop then 1 else 0)) - (b.dropsNow + (if drop then 1 else 0)))
      let b' := b.arrive wid n drop
      b'.drops = b.drops + (if drop then 1 else 0) ∧
      (k = e → b'.phase = (b.phase + 1) % 27 ∧ b'.arrived = [] ∧ b'.dropsNow = 0 ∧ b'.operand = none) ∧
      (k ≠ e → b'.phase = b.phase ∧ (b'.arrived.length : Int) = k ∧ b'.operand = some n))

/-- An arrival at a channel is noted for its cycle (R219). -/
def Rule.chanMet (s : State) (ch : Nat) (w : Warp) : State := { s with arrivals := (.chan ch, w.slotKey) :: s.arrivals }

/-- SNA, SND, SNR and SNB commit the gang and arrive at their channel; an arrival that is a misuse traps SNX; SNW gives the value of the phase its
warp has seen released, or waits for it; SNP gives phase and status (R214, R217, R218, R221, R222, R244). -/
def Obligations.ChannelWordsArriveAndRead : Prop :=
  (∀ o ch, Does (.sna o) (fun s _ w al => al ≠ [] ∧ snFind s w o.k al = .ok ch ∧ ch.misuse w.wid .plain = false)
    (fun s _ w _ => (Rule.chanMet (s.commitWarp w) ch.ch w).modChan ch.ch fun x => x.arrive w.wid w.slotKey .plain s.now) true) ∧
  (∀ o ch, Does (.snd o) (fun s _ w al => al ≠ [] ∧ snFind s w o.k al = .ok ch ∧ ch.misuse w.wid .dropping = false)
    (fun s _ w _ => (Rule.chanMet (s.commitWarp w) ch.ch w).modChan ch.ch fun x => x.arrive w.wid w.slotKey .dropping s.now) true) ∧
  (∀ o ch, Does (.snr o) (fun s _ w al => al ≠ [] ∧ snFind s w o.k al = .ok ch ∧ ch.misuse w.wid (.value o.op (w.greg o.a)) = false)
    (fun s _ w _ => (Rule.chanMet (s.commitWarp w) ch.ch w).modChan ch.ch fun x => x.arrive w.wid w.slotKey (.value o.op (w.greg o.a)) s.now) true) ∧
  (∀ o ch, Does (.snb o) (fun s _ w al => al ≠ [] ∧ snFind s w o.k al = .ok ch ∧ ch.misuse w.wid (.bcast (w.greg o.a)) = false)
    (fun s _ w _ => (Rule.chanMet (s.commitWarp w) ch.ch w).modChan ch.ch fun x => x.arrive w.wid w.slotKey (.bcast (w.greg o.a)) s.now) true) ∧
  (∀ o ch, Traps (.sna o) (fun s _ w al => al ≠ [] ∧ snFind s w o.k al = .ok ch ∧ ch.misuse w.wid .plain = true)
    (fun _ _ _ al => ⟨cause.snx, listed al o.k 0⟩)) ∧
  (∀ o ch, Traps (.snd o) (fun s _ w al => al ≠ [] ∧ snFind s w o.k al = .ok ch ∧ ch.misuse w.wid .dropping = true)
    (fun _ _ _ al => ⟨cause.snx, listed al o.k 0⟩)) ∧
  (∀ o ch, Traps (.snr o) (fun s _ w al => al ≠ [] ∧ snFind s w o.k al = .ok ch ∧ ch.misuse w.wid (.value o.op (w.greg o.a)) = true)
    (fun _ _ _ al => ⟨cause.snx, listed al o.k 0⟩)) ∧
  (∀ o ch, Traps (.snb o) (fun s _ w al => al ≠ [] ∧ snFind s w o.k al = .ok ch ∧ ch.misuse w.wid (.bcast (w.greg o.a)) = true)
    (fun _ _ _ al => ⟨cause.snx, listed al o.k 0⟩)) ∧
  (∀ o ch ph v, Does (.snw o) (fun s _ w al => al ≠ [] ∧ snFind s w o.k al = .ok ch ∧ ch.seenBy w.wid = some (ph, some v))
    (fun s c _ _ => s.modWarp c.wid fun x => x.setG o.d v) true) ∧
  (∀ o ch ph, Does (.snw o) (fun s _ w al => al ≠ [] ∧ snFind s w o.k al = .ok ch ∧ ch.seenBy w.wid = some (ph, none))
    (fun s c _ al => s.modWarp c.wid fun x => x.waitOn al (.chan ch.ch ph o.d) c.pc) true) ∧
  (∀ o ch, Does (.snw o) (fun s _ w al => al ≠ [] ∧ snFind s w o.k al = .ok ch ∧ ch.seenBy w.wid = none)
    (fun s c _ al => s.modWarp c.wid fun x => x.waitOn al (.chan ch.ch ch.count o.d) c.pc) true) ∧
  (∀ o ch ph v, Does (.snp o) (fun s _ w al => al ≠ [] ∧ snFind s w o.k al = .ok ch ∧ ch.seenBy w.wid = some (ph, some v))
    (fun s c _ _ => s.modWarp c.wid fun x => x.setG o.d (pow3 24 * ch.phase + pow3 23)) true) ∧
  (∀ o ch ph, Does (.snp o) (fun s _ w al => al ≠ [] ∧ snFind s w o.k al = .ok ch ∧ ch.seenBy w.wid = some (ph, none))
    (fun s c _ _ => s.modWarp c.wid fun x => x.setG o.d (pow3 24 * ch.phase)) true) ∧
  (∀ o ch, Does (.snp o) (fun s _ w al => al ≠ [] ∧ snFind s w o.k al = .ok ch ∧ ch.seenBy w.wid = none)
    (fun s c _ _ => s.modWarp c.wid fun x => x.setG o.d (pow3 24 * ch.phase - pow3 23)) true)

/-- The release that TBARR carries is over: of gang scope on a barrier of the scratchpad, of package scope on a global one (R201, R431). -/
def Rule.tbFreed (s : State) (c : Cur) (w : Warp) : TbLoc → Prop
  | .scr _ _ => Rule.gangFreed s c w
  | .glob _ _ => Rule.freed s c w 1
def Rule.tbUnheld (s : State) (c : Cur) (w : Warp) : TbLoc → State
  | .scr _ _ => Rule.gangUnheld s c w
  | .glob _ _ => Rule.unheld s c w

/-- TBINIT, TBEXP, TBARR, TBWAIT and TBTEST act on the transaction barrier they name: a new barrier, postings, an arrival once the release that it
carries is over, a wait for the open phase, the phase and whether it has passed; a phase found passed acquires (R170, R171, R201, R430, R431). -/
def Obligations.TransactionBarrierWords : Prop :=
  (∀ o s1 l, Does (.tbinit o) (fun s _ w al => al ≠ [] ∧ tbFind s w o.a o.e al = (s1, .ok l) ∧ 1 ≤ w.greg o.b ∧ w.greg o.b ≤ 265720)
    (fun _ _ w _ => tbInit (tbDirty s1 w l o.a o.e) l (w.greg o.b)) true) ∧
  (∀ o s1 l, Does (.tbexp o) (fun s _ w al => al ≠ [] ∧ tbFind s w o.a o.e al = (s1, .ok l) ∧ 0 ≤ w.greg o.b)
    (fun _ _ w _ => tbPost (tbDirty s1 w l o.a o.e) l (w.greg o.b)) true) ∧
  (∀ o s1 l s2, Does (.tbarr o) (fun s c w al => al ≠ [] ∧ tbFind s w o.a o.e al = (s1, .ok l) ∧ 0 ≤ w.greg o.b ∧ (tbGet s1 l).pending ≠ 0 ∧
      Rule.tbFreed s1 c w l ∧ tbArrive (tbPost (tbDirty (Rule.tbUnheld s1 c w l) w l o.a o.e) l (w.greg o.b)) l = some s2)
    (fun _ _ w _ => { s2 with arrivals := (l.meeting, w.slotKey) :: s2.arrivals }) true) ∧
  (∀ o s1 l, Does (.tbwait o) (fun s _ w al => al ≠ [] ∧ tbFind s w o.a o.e al = (s1, .ok l) ∧ -13 ≤ w.greg o.b ∧ w.greg o.b ≤ 13 ∧
      (tbGet s1 l).phase = w.greg o.b)
    (fun _ c w al => s1.modWarp c.wid fun x => x.waitOn al (tbWaitKind l (w.greg o.b)) c.pc) true) ∧
  (∀ o s1 l, Does (.tbwait o) (fun s _ w al => al ≠ [] ∧ tbFind s w o.a o.e al = (s1, .ok l) ∧ -13 ≤ w.greg o.b ∧ w.greg o.b ≤ 13 ∧
      (tbGet s1 l).phase ≠ w.greg o.b)
    (fun _ _ w _ => acquireGang s1 w) true) ∧
  (∀ o s1 l, Does (.tbtest o) (fun s _ w al => al ≠ [] ∧ tbFind s w o.a o.e al = (s1, .ok l) ∧ -13 ≤ w.greg o.b ∧ w.greg o.b ≤ 13)
    (fun _ c w _ => (if (tbGet s1 l).phase = w.greg o.b then s1 else acquireGang s1 w).modWarp c.wid fun x =>
      x.setG o.d (pow3 24 * (tbGet s1 l).phase + (if (tbGet s1 l).phase = w.greg o.b then 0 else pow3 23))) true)

/-! ## Floats, comparisons, moves, the paired word -/

namespace Sys2Proof.Rule

open Sys2Proof.Machine Sys2Proof.Tern

/-- A floating result of each element: the TF27 word, or three TF9 trytes (R339). -/
def eachF (ty : FTy) (r : Fmt → List Int → Int) (xs : List Int) : Int :=
  match ty with
  | .f27 => r tf27 xs
  | .f9 => r tf9 (xs.map fun x => field x 8 0) + pow3 9 * (r tf9 (xs.map fun x => field x 17 9) +
      pow3 9 * r tf9 (xs.map fun x => field x 26 18))
/-- The flags that the elements raise together. -/
def flagsF (ty : FTy) (r : Fmt → List Int → Fl) (xs : List Int) : Fl :=
  match ty with
  | .f27 => r tf27 xs
  | .f9 => ((r tf9 (xs.map fun x => field x 8 0)).or (r tf9 (xs.map fun x => field x 17 9))).or (r tf9 (xs.map fun x => field x 26 18))

/-- An operation on values: FZI flushes each operand, a NaN is passed on, the exact result is rounded once and FZO flushes it
(R53, R55, R56, R371). -/
def rounded (fzi fzo : Int) (g : Fmt → List FV → FRes) (f : Fmt) (xs : List Int) : Int × Fl := f.op fzi fzo xs (g f)

/-- Floating words: operands, and the exact operation of an element. -/
inductive FltOp : Instr → Dst → FTy → List Src → (Fmt → List Int → Int × Fl) → Prop
  | fadd (o : F2) : FltOp (.fadd o) o.d o.ty [o.a, o.b] (rounded o.fzi o.fzo fun _ => two addV)
  | fsub (o : F2) : FltOp (.fsub o) o.d o.ty [o.a, o.b] (rounded o.fzi o.fzo fun _ => two fun x y => addV x (negV y))
  | fmul (o : F2) : FltOp (.fmul o) o.d o.ty [o.a, o.b]
      (rounded o.fzi o.fzo fun _ => two fun x y => match mulV x y with | some v => resV v | none => .invalid)
  | fma (o : F3) : FltOp (.fma o) o.d o.ty [o.a, o.b, o.c] (rounded o.fzi o.fzo fun _ vs => match vs with
      | [x, y, z] => (match mulV x y with | some p => addV p z | none => .invalid) | _ => .invalid)
  | fmin (o : F2) : FltOp (.fmin o) o.d o.ty [o.a, o.b] fun f xs => match xs with | [x, y] => f.minmax (-1) o.fzi x y | _ => (0, Fl.none)
  | fmax (o : F2) : FltOp (.fmax o) o.d o.ty [o.a, o.b] fun f xs => match xs with | [x, y] => f.minmax 1 o.fzi x y | _ => (0, Fl.none)
  | fneg (o : F1) : FltOp (.fneg o) o.d o.ty [o.a] fun f xs => match xs with | [x] => (f.negE x, Fl.none) | _ => (0, Fl.none)
  | fabs (o : F1) : FltOp (.fabs o) o.d o.ty [o.a] fun f xs => match xs with | [x] => (f.absE x, Fl.none) | _ => (0, Fl.none)
  | fdiv (o : F2) : FltOp (.fdiv o) o.d o.ty [o.a, o.b] (rounded o.fzi o.fzo fun _ => two divV)
  | fsqrt (o : F1) : FltOp (.fsqrt o) o.d o.ty [o.a] (rounded o.fzi o.fzo fun _ => one sqrtV)
  | frcp (o : F1) : FltOp (.frcp o) o.d o.ty [o.a] (rounded o.fzi o.fzo fun _ => one fun x => divV (.fin 1 0) x)
  | frsq (o : F1) : FltOp (.frsq o) o.d o.ty [o.a] (rounded o.fzi o.fzo fun _ => one rsqV)
  | fexp (o : F1) : FltOp (.fexp o) o.d o.ty [o.a] (rounded o.fzi o.fzo fun f => one (expV f))
  | flog (o : F1) : FltOp (.flog o) o.d o.ty [o.a] (rounded o.fzi o.fzo fun f => one (logV f))
  | fexp3 (o : F1) : FltOp (.fexp3 o) o.d o.ty [o.a] (rounded o.fzi o.fzo fun f => one (exp3V f))
  | flog3 (o : F1) : FltOp (.flog3 o) o.d o.ty [o.a] (rounded o.fzi o.fzo fun f => one (log3V f))
  | ftanh (o : F1) : FltOp (.ftanh o) o.d o.ty [o.a] (rounded o.fzi o.fzo fun f => one (tanhV f))
  | fcls (o : F1) : FltOp (.fcls o) o.d o.ty [o.a] fun f xs => match xs with | [x] => (f.cls x, Fl.none) | _ => (0, Fl.none)
  | frnd (o : FRnd) : FltOp (.frnd o) o.d o.ty [o.a] (frndE o.pos o.fzi o.fzo)

/-- Words that move or convert a value: target, result and flags (R62, R63, R350, R352, R363, R364, R401 to R403, R407, R409, R417, R423,
R433, R435). al is the set of active lanes. -/
inductive MoveOp : Instr → To → (Warp → List Nat → Nat → Int) → (Warp → List Nat → Nat → Fl) → Prop
  | mov (o : MovA) : MoveOp (.mov o) (.reg o.d o.dbl) (fun w _ l => w.src l o.dbl o.a) fun _ _ _ => Fl.none
  | movi (o : MoviA) : MoveOp (.movi o) (.reg o.d false) (fun _ _ _ => o.imm) fun _ _ _ => Fl.none
  | movh (o : MoviA) : MoveOp (.movh o) (.reg o.d true)
      (fun w _ l => (match o.d with | .v n => w.vreg l n | .g n => w.greg n | .latch => 0) + pow3 27 * o.imm) fun _ _ _ => Fl.none
  | movc (o : MovcA) : MoveOp (.movc o) (.reg o.d false)
      (fun w _ _ => match o.a with | .p n => (List.range 27).foldl (fun a l => a + w.preg l n * pow3 l) 0 | .q n => w.qreg n) fun _ _ _ => Fl.none
  | cvt (o : CvtA) : MoveOp (.cvt o) (.reg o.d false) (fun w _ l => (cvtF o.op o.sat o.fzi o.fzo (w.src l false o.a)).1)
      fun w _ l => (cvtF o.op o.sat o.fzi o.fzo (w.src l false o.a)).2
  | bcvt (o : BcvtA) : MoveOp (.bcvt o) (.reg o.d (bWide o.fmt && !o.toTernary))
      (fun w _ l => (bcvtF o.fmt o.toTernary o.tf o.x17 (w.src l (bWide o.fmt && o.toTernary) o.a)).1)
      fun w _ l => (bcvtF o.fmt o.toTernary o.tf o.x17 (w.src l (bWide o.fmt && o.toTernary) o.a)).2
  | pack (o : PackA) : MoveOp (.pack o) (.reg o.d false)
      (fun w _ l => packWord (planeM o.fmt) ((List.range 27).map fun k => w.src k false o.a) l) fun _ _ _ => Fl.none
  | unpack (o : PackA) : MoveOp (.unpack o) (.reg o.d false)
      (fun w _ l => unpackWord (planeM o.fmt) ((List.range 27).map fun k => w.src k false o.a) l) fun _ _ _ => Fl.none
  | sel (o : Sel) : MoveOp (.sel o) (.reg o.d o.dbl)
      (fun w _ l => if w.psrc l o.p = 1 then w.src l o.dbl o.a else if w.psrc l o.p = 0 then w.src l o.dbl o.b else w.src l o.dbl o.c)
      fun _ _ _ => Fl.none
  | pcnt (o : PCnt) : MoveOp (.pcnt o) (.reg o.d false) (fun w al _ => ((al.countP fun l => w.psrc l o.a == o.c : Nat) : Int)) fun _ _ _ => Fl.none
  | shfl (o : Shfl) : MoveOp (.shfl o) (.reg o.d o.dbl) (fun w _ l => w.src ((w.src l false o.b + o.off) % 27).toNat o.dbl o.a) fun _ _ _ => Fl.none
  | bcst (o : Bcst) : MoveOp (.bcst o) (.reg o.d o.dbl) (fun w al _ => w.src (if o.lane = -1 then al.headD 0 else o.lane.toNat) o.dbl o.a)
      fun _ _ _ => Fl.none
  | fscl (o : FScl) : MoveOp (.fscl o) (.reg o.d false)
      (fun w _ l => eachF o.ty (fun f xs => (f.op o.fzi o.fzo xs (one (sclV (w.srcImm l false o.k)))).1) [w.src l false o.a])
      fun w _ l => flagsF o.ty (fun f xs => (f.op o.fzi o.fzo xs (one (sclV (w.srcImm l false o.k)))).2) [w.src l false o.a]

/-- The comparison trit of an integer type: sgn(a - b); in .T the first nonzero one from the top element (R37, R362). -/
def compared (ty : ITy) (a b : Int) : Int :=
  let s (x y : Int) : Int := if x < y then -1 else if x = y then 0 else 1
  match ty with
  | .t =>
    if field a 26 18 ≠ field b 26 18 then s (field a 26 18) (field b 26 18)
    else if field a 17 9 ≠ field b 17 9 then s (field a 17 9) (field b 17 9)
    else s (field a 8 0) (field b 8 0)
  | _ => s a b

/-- Words that write a predicate (R37, R58, R361, R362, R380, R381, R409). -/
inductive PredOp : Instr → Nat → (Warp → Nat → Int) → (Warp → Nat → Fl) → Prop
  | cmp (o : Cmp) : PredOp (.cmp o) o.pd (fun w l => compared o.ty (w.src l (o.ty == .d) o.a) (operandB w l o.ty o.b)) fun _ _ => Fl.none
  | fcmp (o : FCmp) : PredOp (.fcmp o) o.pd (fun w l => (fcmpWord o.ty o.fzi o.u (w.src l false o.a) (w.src l false o.b)).1)
      fun w l => (fcmpWord o.ty o.fzi o.u (w.src l false o.a) (w.src l false o.b)).2
  | pset (o : PSet) : PredOp (.pset o) o.pd (fun w l => trit (w.src l false o.a) (if o.j = -1 then l else o.j.toNat)) fun _ _ => Fl.none
  | ptbl (o : PTbl) : PredOp (.ptbl o) o.pd (fun w l => trit o.tbl (3 * (w.psrc l o.a + 1) + (w.psrc l o.b + 1)).toNat) fun _ _ => Fl.none

/-- What a special register reads as (R84, R224, R244, R404); none for GTIME, whose read also latches, and for the trap registers. -/
def special (s : State) (w : Warp) (l : Nat) : SReg → Option Int
  | .lane => some l
  | .depth => some (w.lane l).depth
  | .live => some (((List.range 27).filter fun k => (w.lane k).live).foldl (fun a k => a + pow3 k) 0)
  | .spill => some w.spill
  | .flags => some (w.lane l).flags
  | .gtimeh => some w.gtimeh
  | .tcause => some w.tCause
  | .tlanes => some w.tLanes
  | .tlevel => some w.tLevel
  | .tinfo => some (w.lane l).tInfo
  | .taddr => some (lowWord (w.lane l).tAddr)
  | .taddrh => some (highWord (w.lane l).tAddr)
  | .tepc => some (lowWord (w.lane l).tEpc)
  | .tepch => some (highWord (w.lane l).tEpc)
  | .tdepth => some (w.lane l).tDepth
  | .tk0 => some (w.lane l).tk0
  | .tk1 => some (w.lane l).tk1
  | .tk2 => some (w.lane l).tk2
  | .warp => (match w.place with | .slot _ _ _ => some w.num | _ => none)
  | .core => (match w.place with | .slot c _ _ => some c | _ => none)
  | .bay => (match w.place with | .slot _ b _ => some b | _ => none)
  | .gang => (match w.place, w.gid.bind s.gang? with | .slot _ _ _, some g => some (g.x + pow3 9 * g.y + pow3 18 * g.z) | _, _ => none)
  | .commit => (match w.place, w.gid.bind s.gang? with | .slot _ _ _, some g => some (if g.commit then 1 else 0) | _, _ => none)
  | .gtime | .tstate => none

/-- The first half's and the second half's target. -/
def halfTo (h : Half) : To := .reg h.d false
/-- What a half computes, as its full-form namesake does (R104, R105, R123, R124): x the old destination, y the source or immediate. -/
def half (h : Half) (x y : Int) : Int × Fl :=
  let ty : ITy := if h.m8 = -1 then .t else .w
  let ft : FTy := if h.m8 = -1 then .f9 else .f27
  let fitted (g : Int → Int → Int) : Int × Fl :=
    (each2 ty (fun n x y => (fit (g x y) n h.m7).1) x y, ovIf (any2 ty (fun n x y => (fit (g x y) n h.m7).2) x y))
  let flt (g : Fmt → List Int → Int × Fl) (xs : List Int) : Int × Fl := (eachF ft (fun f xs => (g f xs).1) xs, flagsF ft (fun f xs => (g f xs).2) xs)
  match h.op with
  | .add | .addi => fitted fun x y => x + y
  | .sub | .subi => fitted fun x y => x - y
  | .mul | .muli => fitted fun x y => x * y
  | .min | .mini => (each2 ty (fun _ x y => if x ≤ y then x else y) x y, Fl.none)
  | .max | .maxi => (each2 ty (fun _ x y => if x ≤ y then y else x) x y, Fl.none)
  | .mov | .movi => (y, Fl.none)
  | .neg => (each1 ty (fun _ y => -y) y, Fl.none)
  | .abs => (each1 ty (fun _ y => if y < 0 then -y else y) y, Fl.none)
  | .tsh | .tshi => (each2 ty (fun n x k => if 0 < k then (fit (x * pow3 (Min.min k.toNat n)) n h.m7).1 else shr x (Min.min (-k).toNat n)) x y,
      ovIf (any2 ty (fun n x k => decide (0 < k) && (fit (x * pow3 (Min.min k.toNat n)) n h.m7).2) x y))
  | .fadd => flt (rounded h.m7 h.m6 fun _ => two addV) [x, y]
  | .fsub => flt (rounded h.m7 h.m6 fun _ => two fun x y => addV x (negV y)) [x, y]
  | .fmul => flt (rounded h.m7 h.m6 fun _ => two fun x y => match mulV x y with | some v => resV v | none => .invalid) [x, y]
  | .fmin => flt (fun f xs => match xs with | [x, y] => f.minmax (-1) h.m7 x y | _ => (0, Fl.none)) [x, y]
  | .fmax => flt (fun f xs => match xs with | [x, y] => f.minmax 1 h.m7 x y | _ => (0, Fl.none)) [x, y]
  | .fneg => flt (fun f xs => match xs with | [y] => (f.negE y, Fl.none) | _ => (0, Fl.none)) [y]
  | .fabs => flt (fun f xs => match xs with | [y] => (f.absE y, Fl.none) | _ => (0, Fl.none)) [y]

end Sys2Proof.Rule

/-- Rounding n/d·3^e to q·3^g is to nearest, halves toward zero, and IX says whether anything was lost. The leading trit of the value stands at the h
with 3^h/2 < v ≤ 3^(h+1)/2: of the two expansions of a tie the one nearer to zero. The kept trits are those from h down to h - p + 1, and on the
subnormal grid down to emin - p + 1; they fit the p trits of a significand; the value overflows when h > emax, and is below the normal range when
h < emin. TF9's 7 ÷ 2 is the worked tryte 1,012 with IX (R53, R54). -/
def Obligations.RoundingIsToNearest : Prop :=
  (∀ (f : Fmt) (n d : Nat) (e : Int), 0 < n → 0 < d →
    let r := f.round n d e
    let a := n * Nat.pow 3 (e - r.g).toNat
    let b := d * Nat.pow 3 (r.g - e).toNat
    (2 * ((a : Int) - r.q * b).natAbs ≤ b ∧ (r.inexact = decide (a ≠ r.q * b)) ∧ (2 * ((a : Int) - r.q * b).natAbs = b → r.q * b ≤ a)) ∧
    ∃ h : Int, d * Nat.pow 3 (h - e).toNat < 2 * n * Nat.pow 3 (e - h).toNat ∧
      2 * n * Nat.pow 3 (e - (h + 1)).toNat ≤ d * Nat.pow 3 (h + 1 - e).toNat ∧
      r.g = (if h < f.emin then f.emin else h) - f.p + 1 ∧ 2 * r.q ≤ Nat.pow 3 f.p - 1 ∧ r.big = decide (f.emax < h) ∧ r.sub = decide (h < f.emin)) ∧
  tf9.op 0 0 [(tf9.finish 0 (.ofFin 7 0)).1, (tf9.finish 0 (.ofFin 2 0)).1] (two divV) = (1012, Fl.inx)

/-- The first NaN among the operands, in order A, B, C, passes its payload on, quieted when it is signalling; NP tells whether an operand was a
signalling NaN, and SB, under FZI, whether one was subnormal. FMIN and FMAX give the other operand when just one is a quiet NaN (R55, R56, R371). -/
def Obligations.NansPassOn : Prop :=
  (∀ (f : Fmt) (fzi fzo : Int) (before after : List Int) (x : Int) (g : List FV → FRes) (p : Int), (∀ y ∈ before, (f.dec y).isNan = false) → f.dec x = .nan p →
    f.op fzi fzo (before ++ x :: after) g = (f.nanE (if f.signalling p then f.quiet p else p),
      { Fl.none with np := (before ++ x :: after).any (fun y => f.isSignalling (f.dec y)),
                     sb := decide (fzi = 1) && (before ++ x :: after).any fun y => f.isSub (f.dec y) })) ∧
  (∀ (f : Fmt) (s x y p : Int), f.dec x = .nan p → f.signalling p = false → (f.dec y).isNan = false →
    f.minmax s 0 x y = f.finish 0 (resV (f.dec y)) ∧ f.minmax s 0 y x = f.finish 0 (resV (f.dec y)))

/-- The nineteen floating words but FSCL and FCMP compute each element's rounded result, with its flags, into their destination, and
change nothing else. That FMIN and FMAX deliver a subnormal operand as it is, under FZO too, is the model's choice (log entry 29). -/
def Obligations.FloatingWords : Prop :=
  ∀ i d ty as r, Rule.FltOp i d ty as r →
    Computes i (.reg d false) (fun w _ l => Rule.eachF ty (fun f xs => (r f xs).1) (as.map (w.src l false)))
      (fun w _ l => Rule.flagsF ty (fun f xs => (r f xs).2) (as.map (w.src l false)))

/-- MOV, MOVI, MOVH, MOVC, CVT, BCVT, PACK, UNPACK, SEL, PCNT, SHFL, BCST and FSCL. -/
def Obligations.MovingAndConvertingWords : Prop :=
  ∀ i t x f, Rule.MoveOp i t x f → Computes i t x f

/-- CMP, FCMP, PSET and PTBL write a P predicate in each active lane, or a Q predicate once; PANY and PALL write the greatest and the least
predicate trit of the active lanes to a Q predicate (R37, R58, R361, R362, R380, R381, R409). -/
def Obligations.PredicateWords : Prop :=
  (∀ i n x f, Rule.PredOp i n x f → Computes i (if i.isVector then .p n else .q n) (fun w _ l => x w l) (fun w _ l => f w l)) ∧
  (∀ o : PRed, Computes (.pany o) (.q o.qd) (fun w al _ => al.tail.foldl (fun m l => max m (w.psrc l o.a)) (if al = [] then 0 else w.psrc (al.headD 0) o.a))
    (fun _ _ _ => Fl.none)) ∧
  (∀ o : PRed, Computes (.pall o) (.q o.qd) (fun w al _ => al.tail.foldl (fun m l => min m (w.psrc l o.a)) (if al = [] then 0 else w.psrc (al.headD 0) o.a))
    (fun _ _ _ => Fl.none))

/-- The reduction of integer contributions: the fitted exact sum, the greatest, or the least; of none, 0 and the bounds (R435). -/
def Rule.reduced (n : Nat) (op s : Int) (xs : List Int) : Int :=
  if op = 0 then (fit (xs.foldl (fun a x => a + x) 0) n s).1
  else if op = 1 then xs.foldl (fun a x => if a ≤ x then x else a) (-maxv n)
  else xs.foldl (fun a x => if x ≤ a then x else a) (maxv n)

/-- VRED and VSCAN: of integers, each active lane receives the reduction of all active lanes, or of those up to it; of floats, the tree
of R68 (R434, R435). That a VSCAN raises the flags of the results that it delivers, and no others, is the model's choice (log entry 90). -/
def Obligations.ReductionsAndScans : Prop :=
  (∀ o : VRed, o.ty = .w ∨ o.ty = .d → Computes (.vred o) (.reg o.d (o.ty == .d))
    (fun w al _ => Rule.reduced (if o.ty = .d then 54 else 27) o.op o.s18 (al.map fun j => w.src j (o.ty == .d) o.a))
    (fun w al _ => if al = [] then Fl.none else (intLane o w al 26).2)) ∧
  (∀ o : VRed, o.ty = .w ∨ o.ty = .d → Computes (.vscan o) (.reg o.d (o.ty == .d))
    (fun w al l => Rule.reduced (if o.ty = .d then 54 else 27) o.op o.s18 ((al.filter fun j => decide (j ≤ l)).map fun j => w.src j (o.ty == .d) o.a))
    (fun w al _ => if al = [] then Fl.none else Fl.all (al.map fun l => (intLane o w al l).2))) ∧
  (∀ o : VRed, o.ty = .t → Computes (.vred o) (.reg o.d false) (fun w al _ => (intLane o w al 26).1)
    (fun w al _ => if al = [] then Fl.none else (intLane o w al 26).2)) ∧
  (∀ o : VRed, o.ty = .t → Computes (.vscan o) (.reg o.d false) (fun w al l => (intLane o w al l).1)
    (fun w al _ => if al = [] then Fl.none else Fl.all (al.map fun l => (intLane o w al l).2))) ∧
  (∀ o : VRed, o.ty = .f27 → Computes (.vred o) (.reg o.d false)
    (fun w al _ => (treeOf tf27 o.op o.s18 o.fzo (fcontrib o w al 0)).1)
    (fun w al _ => if al = [] then Fl.none else (treeOf tf27 o.op o.s18 o.fzo (fcontrib o w al 0)).2.2.1)) ∧
  (∀ o : VRed, o.ty = .f9 → Computes (.vred o) (.reg o.d false)
    (fun w al _ => join 9 ((List.range 3).map fun k => (treeOf tf9 o.op o.s18 o.fzo (fcontrib o w al k)).1))
    (fun w al _ => if al = [] then Fl.none else Fl.all ((List.range 3).map fun k => (treeOf tf9 o.op o.s18 o.fzo (fcontrib o w al k)).2.2.1))) ∧
  (∀ o : VRed, o.ty = .f27 → Computes (.vscan o) (.reg o.d false)
    (fun w al l => (treeOf tf27 o.op o.s18 o.fzo (fcontrib o w al 0)).2.1 l)
    (fun w al _ => if al = [] then Fl.none else (treeOf tf27 o.op o.s18 o.fzo (fcontrib o w al 0)).2.2.2)) ∧
  (∀ o : VRed, o.ty = .f9 → Computes (.vscan o) (.reg o.d false)
    (fun w al l => join 9 ((List.range 3).map fun k => (treeOf tf9 o.op o.s18 o.fzo (fcontrib o w al k)).2.1 l))
    (fun w al _ => if al = [] then Fl.none else Fl.all ((List.range 3).map fun k => (treeOf tf9 o.op o.s18 o.fzo (fcontrib o w al k)).2.2.2)))

/-- MOVG writes one lane's operand, of the lowest active lane or the named one, to a G register; MOVS reads and writes the special and
trap registers; a read of S.GTIME latches S.GTIMEH; each active lane latches the value that a write of S.SPILL writes (R61, R224, R278, R401 to R405). -/
def Obligations.SpecialRegisterMoves : Prop :=
  (∀ o : MovgA, Computes (.movg o) (.reg (.g o.gd) false) (fun w al _ => w.src (if o.lane = -1 then al.headD 0 else o.lane.toNat) false o.a)
    (fun _ _ _ => Fl.none)) ∧
  (∀ hd d r, ∀ s c w, Runs (.movs ⟨hd, .read d r⟩) s c w → r ≠ .gtime → ∃ t w', exec (.movs ⟨hd, .read d r⟩) s = .next t ∧
    Computed (.movs ⟨hd, .read d r⟩) s t c w w' (.reg d false) (fun l => readS s w l r) (fun _ => Fl.none)) ∧
  (∀ s w l r x, Rule.special s w l r = some x → readS s w l r = x) ∧
  (∀ hd d, ∀ s c w, Runs (.movs ⟨hd, .read d .gtime⟩) s c w → activeOf (.movs ⟨hd, .read d .gtime⟩) w c.lanes ≠ [] →
    ∃ t w', exec (.movs ⟨hd, .read d .gtime⟩) s = .next t ∧ t.warp? c.wid = some w' ∧ w'.gtimeh = highWord s.pkg.gtime ∧
      (∀ l ∈ activeOf (.movs ⟨hd, .read d .gtime⟩) w c.lanes, w'.Holds l d false (lowWord s.pkg.gtime)) ∧
      MovedOn (.movs ⟨hd, .read d .gtime⟩) c w w' ∧ Apart s t c.wid) ∧
  (∀ hd a, ∀ s c w, Runs (.movs ⟨hd, .write a .spill⟩) s c w → activeOf (.movs ⟨hd, .write a .spill⟩) w c.lanes ≠ [] →
    ∃ t w', exec (.movs ⟨hd, .write a .spill⟩) s = .next t ∧ t.warp? c.wid = some w' ∧
      w'.spill = w.src ((activeOf (.movs ⟨hd, .write a .spill⟩) w c.lanes).headD 0) false a ∧ w'.v = w.v ∧ w'.g = w.g ∧ w'.p = w.p ∧ w'.q = w.q ∧
      (hd.form = .vector → ∀ l ∈ c.lanes, (w'.lane l).x1 = (if l ∈ activeOf (.movs ⟨hd, .write a .spill⟩) w c.lanes then
        Latch.fit ⟨w.src ((activeOf (.movs ⟨hd, .write a .spill⟩) w c.lanes).headD 0) false a, false⟩ else ⟨0, false⟩)) ∧
      MovedOn (.movs ⟨hd, .write a .spill⟩) c w w' ∧ Apart s t c.wid) ∧
  (∀ hd a r, ∀ s c w, Runs (.movs ⟨hd, .write a r⟩) s c w → Quiet (.movs ⟨hd, .write a r⟩) s w → r ≠ .spill →
    ∃ t w', exec (.movs ⟨hd, .write a r⟩) s = .next t ∧ t.warp? c.wid = some w' ∧
      (∀ l, l < 27 → (w'.lane l).kept = (if l ∈ activeOf (.movs ⟨hd, .write a r⟩) w c.lanes then
        ((w.lane l).writeS r (w.src l false a)).kept else (w.lane l).kept)) ∧
      (∀ l, l < 27 → (w'.lane l).flags = (if l ∈ activeOf (.movs ⟨hd, .write a r⟩) w c.lanes ∧ r = .flags then
        ((List.range 7).foldl (fun x k => x + (if trit (w.src l false a) k = 1 then pow3 k else 0)) 0) else (w.lane l).flags)) ∧
      w'.v = w.v ∧ w'.g = w.g ∧ w'.p = w.p ∧ w'.q = w.q ∧ Apart s t c.wid)

/-- The paired word: both halves read before either writes, each in the lanes whose predicate is +1; the second half's X2 and X3 are the
latches before the word; each half latches, the second into X1; a lane's flags are raised by the halves that it runs; with no watch unit armed nothing
else changes (R61, R104 to R107, R123, R124). That FMIN and FMAX deliver a subnormal operand as it is, under FZO too, is the model's choice (log entry 29). -/
def Obligations.PairedWordRunsBothHalves : Prop :=
  ∀ a b s c w, Runs (.pairedWord a b) s c w → ∃ t w', exec (.pairedWord a b) s = .next t ∧ t.warp? c.wid = some w' ∧
    let src (h : Half) (shift : Nat) (l : Nat) : Int := match h.s with
      | some (.x k) => w.src l false (.x (k - shift))
      | some r => w.src l false r
      | none => if h.m8 = -1 then h.imm + pow3 9 * (h.imm + pow3 9 * h.imm) else h.imm
    let old (h : Half) (l : Nat) : Int := match h.d with | .v n => w.vreg l n | _ => 0
    let x1 (l : Nat) := Rule.half a (old a l) (src a 0 l)
    let x2 (l : Nat) := Rule.half b (old b l) (src b 1 l)
    let on (h : Half) (l : Nat) : Prop := l ∈ c.lanes ∧ w.preg l h.pred = 1
    let fl (l : Nat) : Fl := (if w.preg l a.pred = 1 then (x1 l).2 else Fl.none).or (if w.preg l b.pred = 1 then (x2 l).2 else Fl.none)
    (∀ l, on a l → w'.Holds l a.d false (x1 l).1) ∧ (∀ l, on b l → w'.Holds l b.d false (x2 l).1) ∧
    (∀ l n, n < 81 → ¬(on a l ∧ a.d = .v n) → ¬(on b l ∧ b.d = .v n) → w'.vreg l n = w.vreg l n) ∧
    (∀ l ∈ c.lanes, (w.preg l b.pred = 1 → (w'.lane l).x1 = Latch.fit ⟨(x2 l).1, false⟩) ∧ (w.preg l b.pred ≠ 1 → (w'.lane l).x1 = ⟨0, false⟩) ∧
      (w.preg l a.pred = 1 → (w'.lane l).x2 = Latch.fit ⟨(x1 l).1, false⟩) ∧ (w.preg l a.pred ≠ 1 → (w'.lane l).x2 = ⟨0, false⟩) ∧
      (w'.lane l).x3 = (w.lane l).x1) ∧
    (∀ l, l < 27 → l ∉ c.lanes → (w'.lane l).x1 = (w.lane l).x1 ∧ (w'.lane l).x2 = (w.lane l).x2 ∧ (w'.lane l).x3 = (w.lane l).x3) ∧
    (∀ l, l < 27 → (w'.lane l).flags = if l ∈ c.lanes ∧ (fl l).isNone = false then flagsOr (w.lane l).flags (fl l) else (w.lane l).flags) ∧
    (Quiet (.pairedWord a b) s w → Calm s t c w w') ∧
    (∀ n, w'.greg n = w.greg n) ∧ (∀ l n, w'.preg l n = w.preg l n) ∧ (∀ n, w'.qreg n = w.qreg n) ∧
    MovedOn (.pairedWord a b) c w w' ∧ Apart s t c.wid

/-! ## Memory words -/

/-- Alignment and the checks of R146 pass for the units of a word, s1 is the state after the walks, and no watch unit of the core is armed,
or a handler runs, which the units do not watch (R296, R300). -/
def Rule.reaches (s s1 : State) (w : Warp) (addrs : List (Nat × Int)) (n : Nat) (align : Bool) (nd : Need) (xs : List Acc) : Prop :=
  access s w addrs n align nd = (s1, .ok xs) ∧ xs ≠ [] ∧ (w.handler = true ∨ (s1.core w.coreNo).watch = [])

/-- The addresses of a word's lanes: base, offset scaled by 3^k, immediate (R341). -/
def Rule.addresses (w : Warp) (al : List Nat) (ad : Addr) : List (Nat × Int) :=
  al.map fun l => (l, w.gpair ad.base + w.src l false ad.off * pow3 ad.scale + ad.e)

/-- A word with no active lane only moves on: no register, memory, request or other warp changes (R73, R99). RED.DET and RFT have checks of
their own before (R279, R414), and the words that set PCs stand in statements of their own. -/
def Obligations.WordsWithNoActiveLaneMoveOn : Prop :=
  ∀ i h, i.hd? = some h → (∀ o, i ≠ .jmpi o) → (∀ o, i ≠ .call o) → (∀ o, i ≠ .calli o) → (∀ h, i ≠ .ret h) → (∀ h, i ≠ .exit h) →
    (∀ h, i ≠ .rft h) → (∀ o, i = .red o → o.det = none) → Does i (fun _ _ _ al => al = []) (fun s _ _ _ => s) true

/-- A unit is two accesses: it lies in two packages, in host memory with one part in another page, or in two lines of host memory (R457). -/
def Rule.twoParts (x : Acc) (n : Nat) : Bool :=
  match x.hi with
  | some h => decide (x.at_.isHost = true ∨ h.isHost = true ∨ x.at_.pkgLine.1 ≠ h.pkgLine.1)
  | none => decide (x.at_.isHost = true ∧ 81 < x.at_.offset + n)

/-- LD, LDG and LDTAG start a load operation for their lanes, which wait for it; an LD finds what its core's L1 holds, unless it is .SC, and
an L1 row that is read is corrected; a double whose parts lie in two packages, or in two lines of host memory, is two reads (R158, R159, R206, R391,
R392, R394, R397, R457). -/
def Obligations.GlobalLoadsStartALoadOperation : Prop :=
  (∀ o s1 xs, o.sc = false → Does (.ld o) (fun s _ w al => al ≠ [] ∧ Rule.reaches s s1 w (Rule.addresses w al o.ad) o.w.trytes true Need.read xs)
    (fun _ c w _ =>
      let rs : List LaneRead := xs.flatMap fun x => (x.reads o.w.trytes).map fun r => { r with got := l1Got s1 w.coreNo o.w.trytes x }
      let hits := nodups ((rs.filter fun r => r.got != .waiting).map fun r => r.at_.pkgLine)
      let read := (rs.filter fun r => r.got != .waiting).foldl (fun s r => l1Scrub s w.coreNo r.at_.pkgLine r.at_.offset.toNat o.w.trytes) s1
      startLoad (hits.foldl (fun s p => l1Count s w.coreNo p) read) c w (.ld o) o.d o.w.trytes false o.ts (some o.rc) false none
        (xs.map fun x => x.lane) rs) true) ∧
  (∀ o s1 xs, o.sc = true → Does (.ld o) (fun s _ w al => al ≠ [] ∧ Rule.reaches s s1 w (Rule.addresses w al o.ad) o.w.trytes true Need.read xs ∧
      ∀ x ∈ xs, x.away s = false)
    (fun _ c w _ => startLoad ((nodups (xs.flatMap fun x => x.lines o.w.trytes)).foldl (fun s p => dropL1 s w.coreNo p.1 p.2) s1) c w (.ld o) o.d
      o.w.trytes false o.ts none false (some c.slot) (xs.map fun x => x.lane) (xs.flatMap fun x => x.reads o.w.trytes)) true) ∧
  (∀ o s1 x, Does (.ldg o) (fun s c w al => al ≠ [] ∧
      Rule.reaches s s1 w [(c.lanes.headD 0, w.gpair o.base + o.e)] (if o.dbl then 6 else 3) true Need.read [x])
    (fun _ c w _ => startLoad s1 c w (.ldg o) (.g o.d) (if o.dbl then 6 else 3) true false none false none c.lanes
      ((x.reads (if o.dbl then 6 else 3)).map fun r => { r with lane := 0 })) true) ∧
  (∀ o s1 xs, Does (.ldtag o) (fun s _ w al => al ≠ [] ∧ Rule.reaches s s1 w (Rule.addresses w al o.ad) 1 false Need.read xs)
    (fun _ c w _ => startLoad s1 c w (.ldtag o) o.d 3 false false none true none (xs.map fun x => x.lane) (xs.map fun x =>
      ⟨x.lane, x.virt, x.at_, none, 1, if x.at_.isHost then .value 0 else match l1Find s1 w.coreNo x.at_.pkgLine with
        | some y => .value y.tag.num
        | none => .waiting⟩)) true) ∧
  (∀ (x : Acc) n, x.reads n = if Rule.twoParts x n
      then [⟨x.lane, x.virt, x.at_, none, 3, .waiting⟩, ⟨x.lane, x.virt + 3, x.hi.getD (x.at_.plus 3), none, 3, .waiting⟩]
      else [⟨x.lane, x.virt, x.at_, x.hi, n, .waiting⟩])

/-- LDS starts a load operation that holds what its scratchpad lines hold, once its window lines are present; a line that is not yet there
makes its lanes wait for the promise of its fill, the word unissued (R163, R165, R169, R393). -/
def Obligations.ScratchpadLoadsReadTheirLines : Prop :=
  (∀ o g, Does (.lds o) (fun s c w al => gangOf s w = some g ∧ al ≠ [] ∧ scratchFault g o.w.trytes true (Rule.addresses w al o.ad) = none ∧
      touching s c w g o.w.trytes (Rule.addresses w al o.ad) o.rc = .none ∧ (w.handler = true ∨ (s.core w.coreNo).watch = []))
    (fun s c w al =>
      let us := Rule.addresses w al o.ad
      let wl := nodups ((winUnits g o.w.trytes us).map fun x => (x.2.2.1, x.2.2.2))
      startLoad (scrub (wl.foldl (fun s p => countRead s g.gid p.1 p.2) s) g.gid (us.map fun u => (u.2, o.w.trytes))) c w (.lds o) o.d o.w.trytes false o.ts none false none al
        (us.map fun u => ⟨u.1, u.2, .dom 0 0, none, o.w.trytes, scratchGot g o.ts u.2 o.w.trytes⟩)) true) ∧
  (∀ (o : LdsA) g s c w s1 p, Runs (.lds o) s c w → gangOf (s.counted (.lds o) c.wid) w = some g → activeOf (.lds o) w c.lanes ≠ [] →
    scratchFault g o.w.trytes true (Rule.addresses w (activeOf (.lds o) w c.lanes) o.ad) = none →
    touching (s.counted (.lds o) c.wid) c w g o.w.trytes (Rule.addresses w (activeOf (.lds o) w c.lanes) o.ad) o.rc = .sleep s1 p →
    exec (.lds o) s = .next (s1.modWarp w.wid fun x => x.waitOn c.lanes (.touch p) c.pc))

/-- A load operation is noted with what its lanes have already received, its lanes wait for it, and each read that is open has been sent
home in one request, which is performed after that of another line where a double's first part lies; the result that comes later is the latch
that the word makes; nothing else changes (R107, R389, R390, R457). -/
def Obligations.LoadOperationsSendTheirOpenReads : Prop :=
  ∀ (s : State) c w i d n group ts fill tag sc ls rs, s.warp? w.wid = some w → c.hstep = none →
    let t := startLoad s c w i d n group ts fill tag sc ls rs
    t.ops = s.ops ++ [⟨s.nextId, w.wid, c.pc, d, n, n == 6, group, ts, fill, i, rs, false, s.pkg.gtime, w.handler, ls.map fun l => (l, (w.lane l).made + 1), []⟩] ∧
    t.warp? w.wid = some (w.waitOn ls (.load s.nextId) c.pc) ∧ (∀ m, m ≠ w.wid → t.warp? m = s.warp? m) ∧
    t.mem = s.mem ∧ t.home = s.home ∧ t.gangs = s.gangs ∧ t.cores = s.cores ∧ t.pkg = s.pkg ∧ t.chans = s.chans ∧
    (∃ new, t.reqs = s.reqs ++ new ∧ (∀ q ∈ new, q.src = w.coreNo ∧ q.ctx = w.ctx ∧ q.wid = w.wid ∧ q.stage = 0 ∧ q.sent = s.pkg.gtime ∧
        ∃ items, q.body = (if tag then .rtag s.nextId items else .read s.nextId items) ∧
          ∀ k ∈ items, ∃ x, rs[k]? = some x ∧ x.got = .waiting ∧ x.at_.pkgLine = (q.pkg, q.line)) ∧
      (∀ q ∈ new, ∀ m ∈ q.after, sc = none ∧ ∃ p ∈ new, p.id = m ∧ (p.pkg, p.line) ≠ (q.pkg, q.line)) ∧
      ∀ k x, rs[k]? = some x → x.got = .waiting →
        ∃ q ∈ new, ∃ items, k ∈ items ∧ q.body = (if tag then .rtag s.nextId items else .read s.nextId items))

/-- The values that a store takes: the low tryte, the word, or the double of its data (R425). -/
def Rule.stored (w : Warp) (wd : Width) (c : Src) (l : Nat) : Int :=
  match wd with
  | .tryte => narrow (w.src l false c) 9
  | .word => w.src l false c
  | .double => w.src l true c

/-- A store's units pass the checks, no line of theirs has a reserved code, and no watch unit of the core is armed (R46, R146, R426). -/
def Rule.storable (s s1 : State) (w : Warp) (addrs : List (Nat × Int)) (n : Nat) (val : Nat → Int) (xs : List Acc) : Prop :=
  accessStore s w addrs n val = (s1, .ok xs) ∧ xs ≠ [] ∧ tagFaults s1 w.coreNo n xs = [] ∧ (w.handler = true ∨ (s1.core w.coreNo).watch = [])

/-- ST and STG mark their pages dirty, update the core's copy of each line, and send each line's units to its home in one request; an .SC
store commits, drops the copies, and sends each lane's unit with its key (R149, R202, R206, R425, R426, R428). -/
def Obligations.GlobalStoresSendTheirUnits : Prop :=
  (∀ o s1 xs, o.sc = false → Does (.st o) (fun s _ w al => al ≠ [] ∧
      Rule.storable s s1 w (Rule.addresses w al o.ad) o.w.trytes (Rule.stored w o.w o.c) xs)
    (fun _ _ w _ =>
      let us := xs.flatMap (unitsOf o.w.trytes (Rule.stored w o.w o.c))
      sendUnits (us.foldl (fun s u => l1Store s w.coreNo u) (dirtyPages s1 w xs)) w us .store) true) ∧
  (∀ o s1 xs, o.sc = true → Does (.st o) (fun s _ w al => al ≠ [] ∧
      Rule.storable s s1 w (Rule.addresses w al o.ad) o.w.trytes (Rule.stored w o.w o.c) xs ∧ ∀ x ∈ xs, x.away s = false)
    (fun _ c w _ => (xs.flatMap (unitsOf o.w.trytes (Rule.stored w o.w o.c))).foldl (fun s (u : Unit1) =>
        ((unitsLines [u]).foldl (fun s p => dropL1 s w.coreNo p.1 p.2) s).send w.coreNo w.ctx w.wid u.at_.pkgLine.1 u.at_.pkgLine.2 (.store [u])
          (some (scKey s w c.slot u.lane))) (dirtyPages (s1.commitWarp w) w xs)) true) ∧
  (∀ o s1 x, Does (.stg o) (fun s c w al => al ≠ [] ∧ Rule.storable s s1 w [(c.lanes.headD 0, w.gpair o.base + o.e)] (if o.dbl then 6 else 3)
      (fun _ => if o.dbl then w.gpair o.c else w.greg o.c) [x])
    (fun _ _ w _ =>
      let us := unitsOf (if o.dbl then 6 else 3) (fun _ => if o.dbl then w.gpair o.c else w.greg o.c) x
      sendUnits (us.foldl (fun s u => l1Store s w.coreNo u) (dirtyPages s1 w [x])) w us .store) true) ∧
  (∀ o s1 x, Does (.sttag o) (fun s _ w al => al = [x.lane] ∧ x.at_.isHost = false ∧
      Rule.reaches s s1 w (Rule.addresses w al o.ad) 1 false Need.write [x])
    (fun _ _ w _ =>
      let t := Tag.ofNum (w.src x.lane false o.c)
      (dropL1 (dirtyPages s1 w [x]) w.coreNo x.at_.pkgLine.1 x.at_.pkgLine.2).send w.coreNo w.ctx w.wid x.at_.pkgLine.1 x.at_.pkgLine.2
        (.wtag t.code t.scale) none) true)

/-- STS writes its units into the gang's scratchpad outside windows, in ascending lane order, and changes no other tryte of it (R154, R195,
R425, R427). -/
def Obligations.ScratchpadStoresWriteTheirUnits : Prop :=
  ∀ o g, Does (.sts o) (fun s _ w al => gangOf s w = some g ∧ al ≠ [] ∧ scratchFault g o.w.trytes true (Rule.addresses w al o.ad) = none ∧
      (∀ x ∈ namedLines o.w.trytes (Rule.addresses w al o.ad), g.winAt x = none ∧ (-13 ≤ (g.tag x).code ∧ (g.tag x).code ≤ 6) ∧
        g.bad.contains x = false) ∧ (∀ u ∈ Rule.addresses w al o.ad, g.rowsBad u.2 o.w.trytes = false) ∧
        (w.handler = true ∨ (s.core w.coreNo).watch = []))
    (fun s _ w al => (scrub s g.gid ((Rule.addresses w al o.ad).map fun u => (u.2, o.w.trytes))).modGang g.gid fun g => (Rule.addresses w al o.ad).foldl (fun g u => g.write u.2 o.w.trytes (Rule.stored w o.w o.c u.1)) g) true

/-- The old values of ATOM's destination at the parts of a line, for the lanes that have units there (R346). -/
def Rule.oldsAt (olds vs : List Unit1) : List (Nat × Int) :=
  match vs with
  | [] => []
  | u :: _ => (olds.filter fun v => v.at_.pkgLine == u.at_.pkgLine).map fun v => (v.lane, v.val)
/-- What ATOM does before its requests leave: its pages are dirty, its gang is committed, its core's copies are dropped, and its load operation is
noted with the depth and link stack of its lanes (R149, R202, R244, R346, R347). -/
def Rule.atomBegun (o : AtomA) (c : Cur) (w : Warp) (s1 : State) (xs : List Acc) : State :=
  let n := if o.dbl then 6 else 3
  let ls := xs.map fun x => x.lane
  let s2 := (nodups (xs.flatMap fun x => x.lines n)).foldl (fun s p => dropL1 s w.coreNo p.1 p.2) (dirtyPages (s1.commitWarp w) w xs)
  let op : LoadOp := ⟨s1.nextId, w.wid, c.pc, o.d, n, o.dbl, false, false, none, .atom o, xs.flatMap fun x => x.reads n, false, s1.pkg.gtime, w.handler,
    ls.map fun l => (l, (w.lane l).made + 1), ls.map fun l => (l, (w.lane l).depth, (w.lane l).link)⟩
  { s2 with ops := s2.ops ++ [op], nextId := s1.nextId + 1 }
/-- The lanes that their home refuses as its lines stand wait at the word (R347). -/
def Rule.atomWaits (o : AtomA) (c : Cur) (w : Warp) (s1 : State) (xs : List Acc) (s : State) : State :=
  let stay := (xs.filter fun x => refusedAtHome s1 x (if o.dbl then 6 else 3)).map fun x => x.lane
  if stay = [] then s else s.modWarp w.wid fun x => x.waitOn stay (.load s1.nextId) c.pc

/-- ATOM and RED set their pages dirty, commit their gang, drop the core's copies, and send each line's units home; an ATOM's issue set moves on, its
destination held by its load operation; an ATOM.SC, refused where a leaf names another package or the host, sends each lane's unit with its key;
RED.DET takes the next sequence number of its warp and sends its tag, count and key (R185, R187, R206, R244, R345, R346, R347, R413, R414). That the
lanes which a home refuses are decided at issue, wait at the word and have latched its result is the model's choice (log entry 103), as is that a
double in two packages is two updates of words (log entry 135). -/
def Obligations.AtomicsAndReductionsGoHome : Prop :=
  (∀ o s1 xs, o.sc = false → Does (.atom o) (fun s _ w al => al ≠ [] ∧
      Rule.reaches s s1 w (Rule.addresses w al o.ad) (if o.dbl then 6 else 3) true Need.rmw xs)
    (fun _ c w _ =>
      let n := if o.dbl then 6 else 3
      let olds := xs.flatMap (unitsOf n fun l => match o.d with | .v m => w.src l o.dbl (.v m) | _ => 0)
      Rule.atomWaits o c w s1 xs (sendUnits (Rule.atomBegun o c w s1 xs) w (xs.flatMap (unitsOf n fun l => w.src l o.dbl o.c))
        fun vs => .atom s1.nextId o.op vs (Rule.oldsAt olds vs))) true) ∧
  (∀ o s1 xs, o.sc = true → Does (.atom o) (fun s _ w al => al ≠ [] ∧
      Rule.reaches s s1 w (Rule.addresses w al o.ad) (if o.dbl then 6 else 3) true Need.rmw xs ∧ ∀ x ∈ xs, x.away s = false)
    (fun _ c w _ =>
      let n := if o.dbl then 6 else 3
      let olds := xs.flatMap (unitsOf n fun l => match o.d with | .v m => w.src l o.dbl (.v m) | _ => 0)
      Rule.atomWaits o c w s1 xs ((xs.flatMap (unitsOf n fun l => w.src l o.dbl o.c)).foldl (fun s (u : Unit1) =>
        s.send w.coreNo w.ctx w.wid u.at_.pkgLine.1 u.at_.pkgLine.2 (.atom s1.nextId o.op [u] ((Rule.oldsAt olds [u]).filter fun p => p.1 == u.lane))
          (some (scKey s w c.slot u.lane))) (Rule.atomBegun o c w s1 xs))) true) ∧
  (∀ (o : AtomA) s c w s1 xs, o.sc = true → Runs (.atom o) s c w → activeOf (.atom o) w c.lanes ≠ [] →
    access (s.counted (.atom o) c.wid) w (Rule.addresses w (activeOf (.atom o) w c.lanes) o.ad) (if o.dbl then 6 else 3) true Need.rmw = (s1, .ok xs) →
    (∃ x ∈ xs, x.away s = true) → exec (.atom o) s = .next (s1.enterTrap c.wid
      ⟨cause.trans, (xs.filter fun x => x.away s).map fun x => (x.lane, 14, x.virt)⟩)) ∧
  (∀ o s1 xs, o.det = none → Does (.red o) (fun s _ w al => Rule.reaches s s1 w (Rule.addresses w al o.ad) o.w.trytes true Need.rmw xs)
    (fun _ _ w _ =>
      sendUnits ((nodups (xs.flatMap fun x => x.lines o.w.trytes)).foldl (fun s p => dropL1 s w.coreNo p.1 p.2) (dirtyPages (s1.commitWarp w) w xs)) w
        (xs.flatMap (unitsOf o.w.trytes (Rule.stored w o.w o.c))) (.red o.op o.flt)) true) ∧
  (∀ o r s1 xs, o.det = some r → Does (.red o) (fun s _ w al => 1 ≤ field (w.greg r) 11 0 ∧
      Rule.reaches s s1 w (Rule.addresses w al o.ad) o.w.trytes true Need.rmw xs)
    (fun _ _ w _ =>
      let s2 := s1.modWarp w.wid fun x => { x with redSeq := narrow (x.redSeq + 1) 27 }
      sendUnits ((nodups (xs.flatMap fun x => x.lines o.w.trytes)).foldl (fun s p => dropL1 s w.coreNo p.1 p.2) (dirtyPages (s2.commitWarp w) w xs)) w
        (xs.flatMap (unitsOf o.w.trytes (Rule.stored w o.w o.c)))
        (fun us => .det o.op o.flt (field (w.greg r) 26 12) (field (w.greg r) 11 0) [s2.pkg.number, w.coreNo, w.num, w.redSeq] us)) true) ∧
  (∀ o r, o.det = some r → Traps (.red o) (fun _ _ w _ => field (w.greg r) 11 0 < 1)
    (fun _ c _ _ => ⟨cause.illegal, listed c.lanes 0 0⟩))

/-- FENCE makes its warp wait for its core's writes toward the scope and its own loads, gang scope of a gang on a pair as pair; ICINV drops the blocks of its addresses; TOUCH
passes once its lines are present; PREF touches or fetches each line once; CFLUSH and CINV drop the L1's copies, write back what is dirty
in windows, CINV drops those copies too, and the word waits for the write-backs; LDMC of lines that are all absent posts their trytes with
a promise, marks them filling and sends a request for each, and a bad one is refused with ILLEGAL (R163, R182, R198 to R200, R360, R382,
R383, R387, R395, R396, R410, R432). -/
def Obligations.FencesTouchesAndCacheWords : Prop :=
  (∀ o, Does (.fence o) (fun s _ w al => al ≠ [] ∧ (actScope s w o.scope < -1 ∨ o.kind < 0)) (fun s c w _ => s.modWarp c.wid fun x =>
    { x with fence := some ⟨actScope s w o.scope, o.kind, fenceAwaits s w (actScope s w o.scope) o.kind, o.scope == 3 && decide (0 ≤ o.kind)⟩ }) true) ∧
  (∀ o, Does (.fence o) (fun s _ w al => al ≠ [] ∧ -1 ≤ actScope s w o.scope ∧ 0 ≤ o.kind) (fun s c w _ => (s.commitWarp w).modWarp c.wid fun x =>
    { x with fence := some ⟨actScope s w o.scope, o.kind, fenceAwaits s w (actScope s w o.scope) o.kind, o.scope == 3⟩ }) true) ∧
  (∀ s w k, actScope s w k = if k = -3 ∧ pairGang s w = true then -1 else k) ∧
  (∀ o, Does (.icinv o) (fun _ _ _ _ => True) (fun s _ w al =>
    (((if o.hd.form = .vector then al else al.take 1).map fun l => w.gpair o.base + w.src l false o.off + o.e).filter canonicalAddr).foldl
      (fun s a => s.modCore w.coreNo fun k => { k with code := k.code.filter fun b => !(b.ctx == w.ctx && b.block == a / 162) }) s) true) ∧
  (∀ o g, Does (.touch o) (fun s c w al => gangOf s w = some g ∧
      scratchFault g 1 false (al.map fun l => (l, w.gpair o.base + w.src l false o.off + o.e)) = none ∧
      touching s c w g 1 (al.map fun l => (l, w.gpair o.base + w.src l false o.off + o.e)) none = .none) (fun s _ _ _ => s) true) ∧
  (∀ o s1 rs, Does (.pref o) (fun s _ w al => checkUnits s w.coreNo w.ctx (w.level == 1) Need.read true 1 (Rule.addresses w al o.ad) = (s1, rs))
    (fun _ _ w _ => ((groupsBy (fun (x : Acc) => x.virt / 81) (okAccs rs)).filterMap fun g => g.2.head?).foldl (fun s x => prefLine s w o.n x) s1) true) ∧
  (∀ i o inv g s1 xs, (i = .cflush o ∧ inv = false) ∨ (i = .cinv o ∧ inv = true) → Does i (fun s _ w al => al ≠ [] ∧
      access s w (Rule.addresses w al o.ad) 1 false Need.none = (s1, .ok xs) ∧ gangOf s w = some g ∧
      ∀ x ∈ xs, ∀ p ∈ boxLines g x.at_, p.2.st = .present ∨ p.2.st = .dirty)
    (fun _ c w al =>
      let ys := (groupsBy (fun (x : Acc) => x.at_.lineStart) xs).filterMap fun g => g.2.head?
      let s2 := ys.foldl (fun s x => dropL1 s w.coreNo x.at_.pkgLine.1 x.at_.pkgLine.2) s1
      let q := flushLines s2 g.gid inv ((nodups (ys.flatMap fun x => boxLines g x.at_)).map fun p => (p.1, p.2.j))
      if q.2 = [] then q.1 else pendOn q.1 c al (.flush inv [] q.2)) true) ∧
  (∀ o g x s1 locs, Does (.ldmc o) (fun s _ w al => gangOf s w = some g ∧ al ≠ [] ∧
      ldmcCheck g w.coreNo (w.greg o.a) (w.greg (o.a + 1)) (w.greg (o.a + 2)) (w.greg o.b) = 0 ∧ g.win? (field (w.greg o.b) 26 18).toNat = some x ∧
      x.lines = [] ∧ locs.length = (field (w.greg o.b) 8 0).toNat ∧
      checkAddrs s w.coreNo w.ctx (w.level == 1) Need.read true
        (((upto (field (w.greg o.b) 8 0).toNat).map fun i => (field (w.greg o.b) 17 9).toNat + i).map x.boxAddr) =
        (s1, (List.zip ((upto (field (w.greg o.b) 8 0).toNat).map fun i => (field (w.greg o.b) 17 9).toNat + i) locs).map fun p => (x.boxAddr p.1, .ok p.2)))
    (fun s _ w _ =>
      let k := (field (w.greg o.b) 26 18).toNat
      let todo := List.zip ((upto (field (w.greg o.b) 8 0).toNat).map fun i => (field (w.greg o.b) 17 9).toNat + i) locs
      let p := s.pkg.gtime + Config.promiseDelay s1.fresh
      let s2 := tbPromise (tbPost { s1 with fresh := s1.fresh + 1 } (.scr g.gid x.bar) (81 * todo.length)) (.scr g.gid x.bar) p
      let s3 := s2.modGang g.gid fun g => g.modWin k fun y =>
        todo.foldl (fun y q => y.put ⟨q.1, .filling, q.2, false, none, p, leafOf s1 w.coreNo w.ctx (x.boxAddr q.1)⟩) y
      todo.foldl (fun s q => s.send w.coreNo w.ctx w.wid q.2.pkgLine.1 q.2.pkgLine.2
        (.mcast g.gid k q.1 [w.greg o.a, w.greg (o.a + 1), w.greg (o.a + 2)]) none) s3) true) ∧
  (∀ o g e, e ≠ 0 → Traps (.ldmc o) (fun s _ w al => gangOf s w = some g ∧ al ≠ [] ∧
      ldmcCheck g w.coreNo (w.greg o.a) (w.greg (o.a + 1)) (w.greg (o.a + 2)) (w.greg o.b) = e)
    (fun _ c _ _ => ⟨cause.illegal, listed c.lanes e 0⟩))

/-- Misaligned lanes of LD, ST, ATOM, LDS and STS trap ALIGN with their addresses, and nothing is performed. The checks of R146 on an address,
in order: the address, its half, the walk, which starts at the root where the node cache holds no node on the way, and by a leaf that the TLB holds (for a
write, one whose page is dirty) the permissions and the poison (R138, R144, R146, R148, R276, R341). -/
def Obligations.AlignmentAndAddressChecks : Prop :=
  (let mis (n : Nat) (l : List (Nat × Int)) : List (Nat × Int) := l.filter fun p => decide (n ≠ 1 ∧ p.2 % (n : Int) ≠ 0)
  let trap (n : Nat) (l : List (Nat × Int)) : TrapReq := ⟨cause.align, (mis n l).map fun p => (p.1, 0, p.2)⟩
  (∀ o, Traps (.ld o) (fun _ _ w al => mis o.w.trytes (Rule.addresses w al o.ad) ≠ []) (fun _ _ w al => trap o.w.trytes (Rule.addresses w al o.ad))) ∧
  (∀ o, Traps (.st o) (fun _ _ w al => mis o.w.trytes (Rule.addresses w al o.ad) ≠ []) (fun _ _ w al => trap o.w.trytes (Rule.addresses w al o.ad))) ∧
  (∀ o, Traps (.atom o) (fun _ _ w al => mis (if o.dbl then 6 else 3) (Rule.addresses w al o.ad) ≠ [])
    (fun _ _ w al => trap (if o.dbl then 6 else 3) (Rule.addresses w al o.ad))) ∧
  (∀ o g, Traps (.lds o) (fun s _ w al => gangOf s w = some g ∧ mis o.w.trytes (Rule.addresses w al o.ad) ≠ [])
    (fun _ _ w al => trap o.w.trytes (Rule.addresses w al o.ad))) ∧
  (∀ o g, Traps (.sts o) (fun s _ w al => gangOf s w = some g ∧ mis o.w.trytes (Rule.addresses w al o.ad) ≠ [])
    (fun _ _ w al => trap o.w.trytes (Rule.addresses w al o.ad)))) ∧
  (∀ (s : State) core ctx sup nd poison a, let r := (checkAddr s core ctx sup nd poison a).2
    let inUser : Prop := 0 < pageOf a
    (¬ (-(19683 * ((pow3 30 - 1) / 2)) ≤ a ∧ a ≤ (pow3 39 - 1) / 2) → r = .fail 1) ∧
    ((-(19683 * ((pow3 30 - 1) / 2)) ≤ a ∧ a ≤ (pow3 39 - 1) / 2) → a / 19683 = 0 → r = .fail 2) ∧
    (-(19683 * ((pow3 30 - 1) / 2)) ≤ a → a / 19683 < 0 → sup = false → r = .fail 3) ∧
    (∀ d, canonicalAddr a = true → pageOf a ≠ 0 → (inUser ∨ sup = true) → tlbFind (s.core core) ctx (pageOf a) = none →
      (let st := walkStart s (srcDie core) ctx (pageOf a)
       walkFrom (walkRecall s (pageOf a) st.1 st.2) (pageOf a) st.1 st.2 = .error d) → r = if d = -1 then .uncor else .fail d) ∧
    ((∀ y ∈ s.nodes, y.leads (srcDie core) ctx (pageOf a) = false) →
      walkStart s (srcDie core) ctx (pageOf a) = (4, 81 * rootOf s ctx (halfOf (pageOf a)))) ∧
    (∀ t, canonicalAddr a = true → pageOf a ≠ 0 → (inUser ∨ sup = true) → tlbFind (s.core core) ctx (pageOf a) = some t →
      (nd.w = true → trit t.leaf 44 = 1) →
      let readable : Prop := nd.r = true → trit t.leaf 49 = 1
      let writable : Prop := nd.w = true → trit t.leaf 48 = 1
      let fetchable : Prop := nd.x = true → trit t.leaf 47 = 1
      let x : Int := 19683 * (field t.leaf 29 0 + narrow (pageOf a) (6 * t.level)) + a % 19683
      (¬ readable → r = .fail 6) ∧ (readable → ¬ writable → r = .fail 7) ∧
      (readable → writable → nd.atomic = false → ¬ fetchable → r = .fail 8) ∧
      (readable → writable → fetchable → field t.leaf 51 50 = 0 → poison = true → trit t.leaf 43 = 1 → r = .uncor) ∧
      (readable → writable → fetchable → field t.leaf 51 50 = 0 →
        (poison = true → trit t.leaf 43 ≠ 1 ∧ s.mem.frames.contains (frameKey (field t.leaf 35 30) (x / 19683)) = false ∧
          s.pkg.deadPeers.contains (field t.leaf 35 30) = false) → r = .ok (.dom (field t.leaf 35 30) x))))

/-- A write of n trytes to domain memory reads back as its value, and leaves every other tryte as it was (R4, R195). -/
def Obligations.MemoryReadsWhatWasWritten : Prop :=
  ∀ (m : Memory) (pkg a : Int) (n : Nat) (v : Int), -364 ≤ pkg → 0 ≤ a → -maxv (9 * n) ≤ v → v ≤ maxv (9 * n) →
    (m.write pkg a n v).read pkg a n = v ∧
    (∀ q b, -364 ≤ q → 0 ≤ b → (q + 364) * 2541865828329 + b < (pkg + 364) * 2541865828329 + a ∨
        (pkg + 364) * 2541865828329 + a + n ≤ (q + 364) * 2541865828329 + b → (m.write pkg a n v).read q b 1 = m.read q b 1) ∧
    (∀ q l, (m.write pkg a n v).tag q l = m.tag q l)

/-! ## Engines, launches, system words, the debugger -/

/-- A record line that a word names: aligned, in the allotment, correctable (R155, R158, R160, R232, R252). -/
def Rule.recordFits (g : Gang) (a : Int) : Prop := a % 81 = 0 ∧ 0 ≤ a ∧ a + 81 ≤ g.trytes ∧ g.unread a 81 = false
/-- The state once a word has read its record line: the line's rows are corrected (R158). -/
def Rule.readRec (s : State) (g : Gang) (a : Int) : State := scrub s g.gid [(a, 81)]

/-- WIN binds an unbound window to its record; a bound one is released first, the word waiting; WINREL releases, and of an unbound window does
nothing; a bad record or window traps ILLEGAL with the first word that is wrong (R160, R161, R167, R437 to R439, R458). That the words wait in the same
way for a window that is already being released is the model's choice (log entry 49). -/
def Obligations.WindowWords : Prop :=
  (∀ o g, Does (.win o) (fun s _ w al => gangOf s w = some g ∧ al ≠ [] ∧ o.k < g.wins.length ∧ Rule.recordFits g (w.greg o.a) ∧
      lowestCharge (winCharges g o.k (g.record (w.greg o.a))) = none ∧ g.win? o.k = none)
    (fun s _ w _ =>
      let s0 := Rule.readRec s g (w.greg o.a)
      ({ s0 with nextId := s0.nextId + 1 } : State).modGang g.gid fun y =>
        { y with wins := modIdx (fun i x => if i = o.k then some { recordWindow s0 y (g.record (w.greg o.a)) with bid := s0.nextId } else x) 0 y.wins }) true) ∧
  (∀ o g x, Does (.win o) (fun s _ w al => gangOf s w = some g ∧ al ≠ [] ∧ o.k < g.wins.length ∧ Rule.recordFits g (w.greg o.a) ∧
      lowestCharge (winCharges g o.k (g.record (w.greg o.a))) = none ∧ g.win? o.k = some x)
    (fun s c w _ => pendOn (beginRelease (Rule.readRec s g (w.greg o.a)) g.gid o.k) c c.lanes (.winrel o.k x.bid (some (g.record (w.greg o.a))) [])) true) ∧
  (∀ (o : WinA) g s c w k, Runs (.win o) s c w → gangOf s w = some g → activeOf (.win o) w c.lanes ≠ [] → o.k < g.wins.length →
    Rule.recordFits g (w.greg o.a) → lowestCharge (winCharges g o.k (g.record (w.greg o.a))) = some k →
    exec (.win o) s = .next ((Rule.readRec (s.counted (.win o) c.wid) g (w.greg o.a)).enterTrap c.wid ⟨cause.illegal, listed c.lanes k 0⟩)) ∧
  (∀ o g x, Does (.winrel o) (fun s _ w al => gangOf s w = some g ∧ al ≠ [] ∧ o.k < g.wins.length ∧ g.win? o.k = some x)
    (fun s c _ _ => pendOn (beginRelease s g.gid o.k) c c.lanes (.winrel o.k x.bid none [])) true) ∧
  (∀ o g, Does (.winrel o) (fun s _ w al => gangOf s w = some g ∧ al ≠ [] ∧ o.k < g.wins.length ∧ g.win? o.k = none) (fun s _ _ _ => s) true) ∧
  (∀ i k o p, (i = .winrel o ∧ k = o.k ∨ i = .win p ∧ k = p.k) → ∀ g, Traps i (fun s _ w al => gangOf s w = some g ∧ al ≠ [] ∧ g.wins.length ≤ k)
    (fun _ c _ _ => ⟨cause.illegal, listed c.lanes (-1) 0⟩))

/-- TASK takes an entry, owns the window lines that it will write, and gives its ticket, or waits for one; a bad record traps ILLEGAL; TQRY reports a ticket's state, and of an ended task
acquires; SEND and RECV of sound operands commit what they must and wait (R191, R204, R237, R238, R244, R418 to R420). That a task owns its lines from its
acceptance on, after the writes that its core had in flight (log entry 126), and that a SEND on a fenced link waits (log entry 52), are the model's choices. -/
def Obligations.TaskAndStreamWords : Prop :=
  (∀ o g, Does (.task o) (fun s _ w al => gangOf s w = some g ∧ al ≠ [] ∧ Rule.recordFits g (w.greg o.a + o.imm) ∧
      taskCheck g w.coreNo (w.greg o.a + o.imm) (g.record (w.greg o.a + o.imm)) = none ∧
      entryFree (Rule.readRec s g (w.greg o.a + o.imm)) g = true ∧ taskWaits (Rule.readRec s g (w.greg o.a + o.imm)) g.gid = false)
    (fun s _ w _ =>
      let a := w.greg o.a + o.imm
      let s0 := Rule.readRec s g a
      let bs : List Int := 0 :: ([2, 3, 4].filterMap fun i => (depOf (wordAt (g.record a) i)).map fun p => p.2)
      let t : Task := bs.foldl (fun (t : Task) b => t.test b (tbGet s0 (.scr g.gid b)).phase)
        ⟨g.nextTicket, w.wid, a, g.record a, hintSide o.hint (g.sideOf w.coreNo), g.sideOf w.coreNo, w.level == 1, [false, false, false], .queued, 0, 0, 0, [], 0,
          coreWrites s0 (g.cores.getD (g.sideOf w.coreNo) (g.cores.headD 0)), !reserveFree g, none⟩
      ownTask ((s0.modGang g.gid fun g => { g with tasks := g.tasks ++ [t], nextTicket := g.nextTicket + 1 }).modWarp w.wid fun x => x.setG o.d g.nextTicket)
        g.gid t) true) ∧
  (∀ o g, Does (.task o) (fun s _ w al => gangOf s w = some g ∧ al ≠ [] ∧ Rule.recordFits g (w.greg o.a + o.imm) ∧
      taskCheck g w.coreNo (w.greg o.a + o.imm) (g.record (w.greg o.a + o.imm)) = none ∧
      (entryFree (Rule.readRec s g (w.greg o.a + o.imm)) g = false ∨ taskWaits (Rule.readRec s g (w.greg o.a + o.imm)) g.gid = true))
    (fun s c w _ => pendOn (Rule.readRec s g (w.greg o.a + o.imm)) c c.lanes (.task (g.record (w.greg o.a + o.imm)) (w.greg o.a + o.imm) o.d (hintSide o.hint (g.sideOf w.coreNo)))) true) ∧
  (∀ (o : TaskA) g s c w k, Runs (.task o) s c w → gangOf s w = some g → activeOf (.task o) w c.lanes ≠ [] → Rule.recordFits g (w.greg o.a + o.imm) →
    taskCheck g w.coreNo (w.greg o.a + o.imm) (g.record (w.greg o.a + o.imm)) = some k →
    exec (.task o) s = .next ((Rule.readRec (s.counted (.task o) c.wid) g (w.greg o.a + o.imm)).enterTrap c.wid ⟨cause.illegal, listed c.lanes k 0⟩)) ∧
  (∀ o g, Does (.tqry o) (fun s _ w al => gangOf s w = some g ∧ al ≠ []) (fun s c w _ =>
    let st : Int := if w.greg o.a < 0 ∨ (g.nextTicket : Int) ≤ w.greg o.a then -1
      else match g.tasks.find? fun t => (t.ticket : Int) == w.greg o.a with
        | some t => if t.st = .queued then 0 else 1
        | none => 2
    (if st = 2 then acquireGang s w else s).modWarp c.wid fun x => x.setG o.d (pow3 24 * st)) true) ∧
  (∀ o g, Does (.send o) (fun s c w al => gangOf s w = some g ∧ al ≠ [] ∧ 1 ≤ w.greg o.b ∧ w.greg o.b ≤ 6561 ∧ w.greg o.a % 81 = 0 ∧
      0 ≤ w.greg o.a ∧ w.greg o.a + 81 * w.greg o.b ≤ g.trytes ∧ (neighbour w.coreNo o.port).isSome = true ∧
      (∀ i, i < (w.greg o.b).toNat → g.unread (w.greg o.a + 81 * (i : Int)) 81 = false) ∧
      touching s c w g 81 ((upto (w.greg o.b).toNat).map fun (i : Nat) => (c.lanes.headD 0, w.greg o.a + 81 * (i : Int))) none = .none)
    (fun s c w _ => pendOn (s.commitWarp w) c c.lanes (.send o.port (w.greg o.a) (w.greg o.b).toNat 0)) true) ∧
  (∀ o g x s1 rs, Does (.recv o) (fun s _ w al => gangOf s w = some g ∧ al ≠ [] ∧ 1 ≤ field (w.greg o.a) 8 0 ∧ field (w.greg o.a) 8 0 ≤ 6561 ∧
      0 ≤ field (w.greg o.a) 17 9 ∧ field (w.greg o.a) 17 9 ≤ 6560 ∧ 0 ≤ field (w.greg o.a) 26 18 ∧
      g.win? (field (w.greg o.a) 26 18).toNat = some x ∧ x.releasing = false ∧ field (w.greg o.a) 17 9 + field (w.greg o.a) 8 0 ≤ x.span ∧
      (neighbour w.coreNo o.port).isSome = true ∧
      checkAddrs s w.coreNo w.ctx (w.level == 1) Need.both true
        (((upto (field (w.greg o.a) 8 0).toNat).map fun i => (field (w.greg o.a) 17 9).toNat + i).map x.boxAddr) = (s1, rs) ∧ firstBad rs = none)
    (fun _ c w _ => pendOn s1 c c.lanes (.recv o.port (field (w.greg o.a) 26 18).toNat (field (w.greg o.a) 17 9).toNat (field (w.greg o.a) 8 0).toNat
      (rs.map fun p => match p.2 with | .ok l => l | _ => Loc.dom 0 0) false)) true)

/-- XFST of a sound record. Its request is accepted when the lane's queue has room and no refusal stands: it goes to the end of the queue with the
places of its source and destination and the stores of its core that it follows, its destination lines are owned for it, its trytes are posted on
its barrier, and Gd is 1. A refused one writes status −5 with the detail, no trytes produced and the fault address, and Gd is −1. While the queue
is full the word waits. A bad record traps ILLEGAL with its first offending word, a slot that the context does not hold PRIV. XTAB of a granted
slot and a readable image makes its issue set wait for the load; of a slot not granted it traps PRIV, of a misaligned address ALIGN (R248, R251 to
R253, R276). -/
def Obligations.TransducerWords : Prop :=
  (∀ (o : XfstA) g s c w s1 src dst, Runs (.xfst o) s c w → gangOf s w = some g → activeOf (.xfst o) w c.lanes ≠ [] →
    let a := w.greg o.a + o.imm
    let r := g.record a
    let lane := (wordAt r 0).toNat
    let s0 := Rule.readRec (s.counted (.xfst o) c.wid) g a
    let ls := spanLines dst (dblAt r 4) (wordAt r 6).toNat
    Rule.recordFits g a → lowestCharge (xfstCharges g r) = none → slotGranted s w.ctx (wordAt r 7) = true → (laneQueue s lane).length < 27 →
    xfstRefusal s0 w.coreNo w.ctx (w.level == 1) r = (s1, .ok (src, dst)) →
    let s2 := if wordAt r 8 = -1 then recallAll s1 ls else tbPost (recallAll s1 ls) (.scr g.gid (wordAt r 8)) (Min.min (3 * wordAt r 3) (wordAt r 6))
    let x : XReq := ⟨s2.nextId, g.gid, g.lid, w.ctx, a, r, src, dst, false, 0, 0, 0, 0, coreWrites s1 w.coreNo⟩
    exec (.xfst o) s = .next ((((modQueue { s2 with
        home := { s2.home with owned := s2.home.owned ++ ls.map fun p => ⟨p.1, p.2, .xducer s2.nextId⟩ }, nextId := s2.nextId + 1 }
      lane fun l => l ++ [x]).commitWarp w).modWarp c.wid fun y => y.setG o.d 1).endWord (.xfst o) c w true)) ∧
  (∀ (o : XfstA) g s1 d a, Does (.xfst o) (fun s _ w al => gangOf s w = some g ∧ al ≠ [] ∧ Rule.recordFits g (w.greg o.a + o.imm) ∧
      lowestCharge (xfstCharges g (g.record (w.greg o.a + o.imm))) = none ∧ slotGranted s w.ctx (wordAt (g.record (w.greg o.a + o.imm)) 7) = true ∧
      (laneQueue s (wordAt (g.record (w.greg o.a + o.imm)) 0).toNat).length < 27 ∧
      xfstRefusal (Rule.readRec s g (w.greg o.a + o.imm)) w.coreNo w.ctx (w.level == 1) (g.record (w.greg o.a + o.imm)) = (s1, .error (d, a)))
    (fun _ c w _ => (xfstStatus s1 w.coreNo w.ctx w.wid g.gid (w.greg o.a + o.imm) (-5 * pow3 24 + d * pow3 12) 0 a).modWarp c.wid fun x => x.setG o.d (-1))
    true) ∧
  (∀ o g, Does (.xfst o) (fun s _ w al => gangOf s w = some g ∧ al ≠ [] ∧ Rule.recordFits g (w.greg o.a + o.imm) ∧
      lowestCharge (xfstCharges g (g.record (w.greg o.a + o.imm))) = none ∧ slotGranted s w.ctx (wordAt (g.record (w.greg o.a + o.imm)) 7) = true ∧
      27 ≤ (laneQueue s (wordAt (g.record (w.greg o.a + o.imm)) 0).toNat).length)
    (fun s c w _ => pendOn (Rule.readRec s g (w.greg o.a + o.imm)) c c.lanes (.xfst (g.record (w.greg o.a + o.imm)) (w.greg o.a + o.imm) o.d)) true) ∧
  (∀ (o : XfstA) g s c w k, Runs (.xfst o) s c w → gangOf s w = some g → activeOf (.xfst o) w c.lanes ≠ [] → Rule.recordFits g (w.greg o.a + o.imm) →
    lowestCharge (xfstCharges g (g.record (w.greg o.a + o.imm))) = some k →
    exec (.xfst o) s = .next ((Rule.readRec (s.counted (.xfst o) c.wid) g (w.greg o.a + o.imm)).enterTrap c.wid ⟨cause.illegal, listed c.lanes k 0⟩)) ∧
  (∀ (o : XfstA) g s c w, Runs (.xfst o) s c w → gangOf s w = some g → activeOf (.xfst o) w c.lanes ≠ [] → Rule.recordFits g (w.greg o.a + o.imm) →
    lowestCharge (xfstCharges g (g.record (w.greg o.a + o.imm))) = none → slotGranted s w.ctx (wordAt (g.record (w.greg o.a + o.imm)) 7) = false →
    exec (.xfst o) s = .next ((Rule.readRec (s.counted (.xfst o) c.wid) g (w.greg o.a + o.imm)).enterTrap c.wid ⟨cause.priv, listed c.lanes 0 0⟩)) ∧
  (∀ (o : XtabA) s c w s1 l s2 rs, Runs (.xtab o) s c w → activeOf (.xtab o) w c.lanes ≠ [] → slotGranted s w.ctx o.slot = true → w.gpair o.a % 81 = 0 →
    checkAddrs (s.counted (.xtab o) c.wid) w.coreNo w.ctx (w.level == 1) Need.read true [w.gpair o.a] = (s1, [(w.gpair o.a, .ok l)]) →
    let hs := readBefore s1 l
    checkAddrs hs w.coreNo w.ctx (w.level == 1) Need.read true (pageStarts (w.gpair o.a) (81 * (244 + 6 * headerStates hs l))) = (s2, rs) →
    firstBad rs = none →
    exec (.xtab o) s = .next ((pendOn s2 c c.lanes
      (.xtab o.slot (w.gpair o.a) o.d (rs.map fun p => match p.2 with | .ok x => x | _ => .dom 0 0) false)).endWord (.xtab o) c w true)) ∧
  (∀ o, Traps (.xtab o) (fun s _ w al => al ≠ [] ∧ slotGranted s w.ctx o.slot = false) (fun _ c _ _ => ⟨cause.priv, listed c.lanes 0 0⟩)) ∧
  (∀ o, Traps (.xtab o) (fun s _ w al => al ≠ [] ∧ slotGranted s w.ctx o.slot = true ∧ w.gpair o.a % 81 ≠ 0)
    (fun _ c w _ => ⟨cause.align, listed c.lanes 0 (w.gpair o.a)⟩))

/-- LNCH waits for the release of package scope that it carries. Then, of a sound launch record, it commits and accepts the launch, or waits while 729
launches of the paddock are journalled; an accepted launch takes its paddock's next sequence number, which stands in Gd, in its journal entry and in
its launch; a refused record leaves −1 and the detail in its completion word and traps; a command has its effect, commits and leaves 0 in Gd, or
waits; a bad command traps ILLEGAL with its word, one without its level PRIV; a misaligned record address traps ALIGN (R201, R244, R260 to R265,
R398). -/
def Obligations.LaunchWords : Prop :=
  (∀ o s1 r s2 ds, Does (.lnch o) (fun s c w al => al ≠ [] ∧ Rule.freed s c w 1 ∧
      readRecord (Rule.unheld s c w) c w (w.gpair o.a + o.imm) = .words s1 r ∧ field (wordAt r 0) 26 24 = 1 ∧
      checkLaunch s1 w.coreNo w.ctx (w.level == 1) r = (s2, .ok ds) ∧ (journalOf s2 (padOf s2 w)).length < 729)
    (fun _ _ w _ => acceptLaunch (s2.commitWarp w) w.wid r ds o.d) true) ∧
  (∀ o s1 r s2 ds, Does (.lnch o) (fun s c w al => al ≠ [] ∧ Rule.freed s c w 1 ∧
      readRecord (Rule.unheld s c w) c w (w.gpair o.a + o.imm) = .words s1 r ∧ field (wordAt r 0) 26 24 = 1 ∧
      checkLaunch s1 w.coreNo w.ctx (w.level == 1) r = (s2, .ok ds) ∧ 729 ≤ (journalOf s2 (padOf s2 w)).length)
    (fun _ c w _ => pendOn (s2.commitWarp w) c c.lanes (.lnch (r ++ ds) o.d)) true) ∧
  (∀ o, Rule.HoldsBack (.lnch o) (fun _ _ _ al => al ≠ []) 1) ∧
  (∀ (o : LnchA) s c w s1 r s2 d cs info a, Runs (.lnch o) s c w → activeOf (.lnch o) w c.lanes ≠ [] → Rule.freed (s.counted (.lnch o) c.wid) c w 1 →
    readRecord (Rule.unheld (s.counted (.lnch o) c.wid) c w) c w (w.gpair o.a + o.imm) = .words s1 r → field (wordAt r 0) 26 24 = 1 →
    checkLaunch s1 w.coreNo w.ctx (w.level == 1) r = (s2, .refused d cs info a) →
    exec (.lnch o) s = .next ((cwSet s2 w.coreNo w.ctx (w.level == 1) (dblAt r 24) (-1) (-(pow3 24) + d * pow3 18)).enterTrap c.wid
      ⟨cs, listed c.lanes info a⟩)) ∧
  (∀ o s1 r s2, Does (.lnch o) (fun s c w al => al ≠ [] ∧ Rule.freed s c w 1 ∧
      readRecord (Rule.unheld s c w) c w (w.gpair o.a + o.imm) = .words s1 r ∧ field (wordAt r 0) 26 24 ≠ 1 ∧
      command s1 w.coreNo w.ctx (padOf s1 w) (w.level == 1) r = .done s2)
    (fun _ _ w _ => (s2.commitWarp w).modWarp w.wid fun x => x.setG o.d 0) true) ∧
  (∀ o s1 r s2 ws, Does (.lnch o) (fun s c w al => al ≠ [] ∧ Rule.freed s c w 1 ∧
      readRecord (Rule.unheld s c w) c w (w.gpair o.a + o.imm) = .words s1 r ∧ field (wordAt r 0) 26 24 ≠ 1 ∧
      command s1 w.coreNo w.ctx (padOf s1 w) (w.level == 1) r = .wait s2 ws)
    (fun _ c _ _ => pendOn s2 c c.lanes (.cmd r o.d ws)) true) ∧
  (∀ (o : LnchA) s c w s1 r, Runs (.lnch o) s c w → activeOf (.lnch o) w c.lanes ≠ [] → Rule.freed (s.counted (.lnch o) c.wid) c w 1 →
    readRecord (Rule.unheld (s.counted (.lnch o) c.wid) c w) c w (w.gpair o.a + o.imm) = .words s1 r → field (wordAt r 0) 26 24 ≠ 1 →
    (∀ k, command s1 w.coreNo w.ctx (padOf s1 w) (w.level == 1) r = .bad k →
      exec (.lnch o) s = .next (s1.enterTrap c.wid ⟨cause.illegal, listed c.lanes k 0⟩)) ∧
    (command s1 w.coreNo w.ctx (padOf s1 w) (w.level == 1) r = .priv →
      exec (.lnch o) s = .next (s1.enterTrap c.wid ⟨cause.priv, listed c.lanes 0 0⟩))) ∧
  (∀ (o : LnchA) s c w, Runs (.lnch o) s c w → activeOf (.lnch o) w c.lanes ≠ [] → Rule.freed (s.counted (.lnch o) c.wid) c w 1 →
    (w.gpair o.a + o.imm) % 81 ≠ 0 → exec (.lnch o) s = .next ((Rule.unheld (s.counted (.lnch o) c.wid) c w).enterTrap c.wid
      ⟨cause.align, listed c.lanes 0 (w.gpair o.a + o.imm)⟩)) ∧
  (∀ (s : State) wid w r ds gd, s.warp? wid = some w →
    let pad := padOf s w
    let seq := (s.paddock pad).nextSeq
    let t := acceptLaunch s wid r ds gd
    (t.paddock pad).nextSeq = seq + 1 ∧ (t.warp? wid).map (fun w => w.greg gd) = some seq ∧
    (∃ e, t.journal = s.journal ++ [e] ∧ e.seq = seq ∧ e.paddock = pad ∧ e.words = r ∧ e.issuer = w.gid ∧ e.nextGang = 0 ∧ e.gangEnds = 0) ∧
    (∃ x, t.launches = s.launches ++ [x] ∧ x.lid = s.nextId ∧ x.seq = seq ∧ x.paddock = pad ∧ x.ctx = w.ctx ∧ x.words = r ∧ x.descs = ds ∧
      x.nextGang = 0 ∧ x.gangEnds = 0))

/-- What ROLE does to its warp: each live lane goes to the entry with an empty link stack, chains end, and the allotment and class are new (R93). -/
def Rule.newRole (o : RoleA) (w x : Warp) : Warp :=
  { x.allLanes (fun _ y => if y.live then { y with pc := w.gpair o.a, depth := 0, link := [], pos := 0, since := 0 }
        else { y with pos := 0, since := 0 }) with
    allot := 9 * o.b, cls := o.c, v := x.v.filter fun p => decide (p.1 % 81 < 9 * o.b) }
/-- ROLE passes its checks: every live lane issues it, the class is at most the launch's at user level, and the allotment fits the bay beside the gang's
other warps there (R93, R416). -/
def Rule.roleOk (o : RoleA) (s : State) (c : Cur) (w : Warp) (al : List Nat) : Prop :=
  al ≠ [] ∧ (∀ l, l < 27 → (w.lane l).live = true → l ∈ c.lanes) ∧
  (w.level = 0 → o.c ≤ (match (gangOf s w).bind fun g => s.launch? g.lid with | some x => x.cls | none => 4)) ∧ 9 * o.b + gangAllot s w ≤ 243
/-- The new allotment is at most the old one, or the warp's bay has room for it and no ROLE waits there before (R93). -/
def Rule.roleNow (o : RoleA) (s : State) (w : Warp) : Prop :=
  9 * o.b ≤ w.allot ∨ ∀ b, w.bay? = some b → rolesIn s b = [] ∧ bayUsed s b.1 b.2 + 9 * o.b ≤ 243 + w.allot

/-- ROLE gives a warp its new registers, class and entry at once when it does not grow or its bay has room, and waits when it grows and its bay has no
room; a ROLE that not every live lane issues traps ILLEGAL, one above the launch's class PRIV, one that can never fit BARC with T.INFO −1. PREH is
passed while no pre-emption is pending, and makes its issue set wait to be saved when one is. TRAP completes, moves its issue set on, and traps with
its immediate. RFT leaves the handler; outside one it traps ILLEGAL. BRK halts every lane of its warp with its reason and is passed, with an
event (R93, R281, R282, R286, R309, R411, R416). -/
def Obligations.SystemWords : Prop :=
  (∀ o, Does (.role o) (fun s c w al => Rule.roleOk o s c w al ∧ Rule.roleNow o s w) (fun s c w _ => s.modWarp c.wid (Rule.newRole o w)) false) ∧
  (∀ o, Does (.role o) (fun s c w al => Rule.roleOk o s c w al ∧ ¬ Rule.roleNow o s w)
    (fun s c w _ => pendOn s c c.lanes (.role (9 * o.b) o.c (w.gpair o.a))) true) ∧
  (∀ o, Traps (.role o) (fun _ c w al => al ≠ [] ∧ ∃ l, l < 27 ∧ (w.lane l).live = true ∧ ¬ l ∈ c.lanes)
    (fun _ c _ _ => ⟨cause.illegal, listed c.lanes 0 0⟩)) ∧
  (∀ o, Traps (.role o) (fun s c w al => al ≠ [] ∧ (∀ l, l < 27 → (w.lane l).live = true → l ∈ c.lanes) ∧ w.level = 0 ∧
      (match (gangOf s w).bind fun g => s.launch? g.lid with | some x => x.cls | none => 4) < o.c)
    (fun _ c _ _ => ⟨cause.priv, listed c.lanes 0 0⟩)) ∧
  (∀ o, Traps (.role o) (fun s c w al => al ≠ [] ∧ (∀ l, l < 27 → (w.lane l).live = true → l ∈ c.lanes) ∧
      (w.level = 0 → o.c ≤ (match (gangOf s w).bind fun g => s.launch? g.lid with | some x => x.cls | none => 4)) ∧ 243 < 9 * o.b + gangAllot s w)
    (fun _ c _ _ => ⟨cause.barc, listed c.lanes (-1) 0⟩)) ∧
  (∀ o, Does (.preh o) (fun _ _ w _ => w.deadline = none) (fun s _ _ _ => s) true) ∧
  (∀ o d, Does (.preh o) (fun _ _ w al => al ≠ [] ∧ w.deadline = some d)
    (fun s c w _ => pendOn (prehRecord s c w (w.gpair o.a + o.imm)).1 c c.lanes (.save (prehRecord s c w (w.gpair o.a + o.imm)).2)) true) ∧
  (∀ (o : ImmA) s c w, Runs (.trap o) s c w → activeOf (.trap o) w c.lanes ≠ [] →
    exec (.trap o) s = .next ((((s.counted (.trap o) c.wid).endWord (.trap o) c w true).modWarp c.wid fun x =>
      if x.handler then { x with hpc := c.pc } else x).enterTrap c.wid ⟨cause.trap, listed (activeOf (.trap o) w c.lanes) o.imm 0⟩)) ∧
  (∀ h, Does (.rft h) (fun _ _ w al => w.handler = true ∧ al ≠ []) (fun s c _ _ => s.modWarp c.wid fun x => x.leave s.pkg.gtime) false) ∧
  (∀ h, Does (.rft h) (fun _ _ w al => w.handler = true ∧ al = []) (fun s _ _ _ => s) true) ∧
  (∀ h, Traps (.rft h) (fun _ _ w _ => w.handler = false) (fun _ c _ _ => ⟨cause.illegal, listed c.lanes 0 0⟩)) ∧
  (∀ o, Does (.brk o) (fun _ _ _ al => al ≠ []) (fun s c w _ =>
    let t := s.modWarp c.wid fun x => x.allLanes fun _ y => { y with halted := some ⟨2, 0, o.imm⟩ }
    { t with log := t.log ++ [⟨some w.ctx, .halt, [w.address 0, 2 * pow3 24 + narrow o.imm 18]⟩] }) true)

/-- The halted-state words, with the register of their results, the register of the address, and their operation (R301). -/
inductive Rule.DebugWord : Instr → Nat → Nat → (Warp → DbgOp) → Prop
  | wset (o : WsetA) : Rule.DebugWord (.wset o) o.d o.b fun w => .wset [w.greg o.a, w.greg (o.a + 1), w.greg (o.a + 2)] (w.greg o.c) o.unit
  | wclr (o : WUnitA) : Rule.DebugWord (.wclr o) o.d o.b fun _ => .wclr o.unit
  | wrd (o : WUnitA) : Rule.DebugWord (.wrd o) o.d o.b fun _ => .wrd o.unit
  | hlst (o : DbgA) : Rule.DebugWord (.hlst o) o.d o.b fun _ => .hlst
  | hrdv (o : HrdvA) : Rule.DebugWord (.hrdv o) o.d o.b fun _ => .hrdv o.item
  | hwrv (o : HwrvA) : Rule.DebugWord (.hwrv o) o.d o.b fun w => .hwrv (w.greg o.a) o.item
  | hrdp (o : HrdpA) : Rule.DebugWord (.hrdp o) o.d o.b fun _ => .hrdp o.item
  | hwrp (o : HwrpA) : Rule.DebugWord (.hwrp o) o.d o.b fun w => .hwrp (w.greg o.a) (w.greg (o.a + 1)) o.item
  | hstep (o : DbgA) : Rule.DebugWord (.hstep o) o.d o.b fun _ => .hstep
  | hres (o : HresA) : Rule.DebugWord (.hres o) o.d o.b fun _ => .hres o.scope

/-- A halted lane as a debugger may name it: its warp stands there, nothing of it or of its debugger is in flight, and it is live and halted
(R301, R305, R385). -/
def Rule.halted (s : State) (n : Nat) (iss : Option Nat) (b : Int) (w : Warp) (l : Nat) : Prop :=
  warpAt s b = some w ∧ coreFenced s b = false ∧ opsBefore s n w.wid = false ∧ quiet s n iss w.wid = true ∧ addrLane b = l ∧ l < 27 ∧
    (w.lane l).live = true ∧ (w.lane l).halted.isSome = true ∧ iss ≠ some w.wid

/-- The ten halted-state words run at supervisor level, their issue set waiting for the operation to end; at user level they trap PRIV. What the
operations on a halted lane give: V registers, PC, call depth, a step, resumption; a unit armed, read and cleared; the halts listed; and the outcomes −1, −2, −3 of a warp that is not
there, of a lane that is not halted, and of a fenced core; an outcome stands in Gd and on, each a word of 27 trits (R276, R301 to R308). -/
def Obligations.HaltedStateWords : Prop :=
  (∀ i gd b r, Rule.DebugWord i gd b r →
    Does i (fun _ _ w al => al ≠ [] ∧ w.level ≠ 0)
      (fun s c w _ => dbgRun (pendOn s c c.lanes (.dbg (r w) (w.greg b) gd s.pkg.gtime)) (some w.wid) s.nextId (r w) (w.greg b) gd s.pkg.gtime) true ∧
    Traps i (fun _ _ w al => al ≠ [] ∧ w.level = 0) (fun _ c _ _ => ⟨cause.priv, listed c.lanes 0 0⟩)) ∧
  (∀ s n iss b w l item t, Rule.halted s n iss b w l → item ≤ 80 → item < w.allot →
    dbgTry s n iss (.hrdv item) b t = .done (dropL1s s iss w.wid) [0, w.vreg l item]) ∧
  (∀ s n iss b w l v item t, Rule.halted s n iss b w l → item ≤ 80 → item < w.allot →
    dbgTry s n iss (.hwrv v item) b t = .done ((dropL1s s iss w.wid).modWarp w.wid fun _ => w.setV l item v) [0]) ∧
  (∀ s n iss b w l t, Rule.halted s n iss b w l →
    dbgTry s n iss (.hrdp .pc) b t = .done (dropL1s s iss w.wid) [0, lowWord (w.lane l).pc, highWord (w.lane l).pc]) ∧
  (∀ s n iss b w l lo hi t, Rule.halted s n iss b w l →
    dbgTry s n iss (.hwrp lo hi .pc) b t = .done ((dropL1s s iss w.wid).modWarp w.wid fun w => w.modLane l fun x =>
      { x with pc := double lo hi, pos := 0, since := 0 }) [0]) ∧
  (∀ s n iss b w l t, Rule.halted s n iss b w l → w.handler = false →
    dbgTry s n iss (.hres (-1)) b t = .done ((dropL1s s iss w.wid).modWarp w.wid fun w => w.modLane l fun x => { x with halted := none, skip := true }) [0]) ∧
  (∀ s n iss b w r m u t, warpAt s b = some w → coreFenced s b = false → opsBefore s n w.wid = false → unitBefore s n b u = false → quiet s n iss w.wid = true → field (wordAt r 0) 26 24 ≠ 0 →
    watchBad (match w.gid.bind s.gang? with | some g => g.cores.length == 2 | none => false) r = none →
    dbgTry s n iss (.wset r m u) b t = .done ((dropL1s s iss w.wid).modCore (addrCore b).toNat fun c => { c with
      watch := insertBy (fun a b => decide (a.unit < b.unit)) ⟨u, r, if field (wordAt r 0) 20 19 = 4 then m else 0, w.wid, w.gid, (w.gid.bind s.gang?).map fun g => g.lid, 0, s.pkg.gtime⟩ (c.watch.filter fun y => y.unit != u) }) [0]) ∧
  (∀ s n iss b u t, coreInRange b = true → coreFenced s b = false → unitBefore s n b u = false → quietCore s n iss (addrCore b).toNat = true → dbgTry s n iss (.wclr u) b t =
    .done ((dropCoreL1s s iss (addrCore b).toNat).modCore (addrCore b).toNat fun c => { c with watch := c.watch.filter fun y => y.unit != u }) [0]) ∧
  (∀ s n iss b item t, coreInRange b = true → coreFenced s b = false → warpAt s b = none → dbgTry s n iss (.hrdv item) b t = .done s [-(pow3 24), 0]) ∧
  (∀ s n iss b item t, coreInRange b = true → coreFenced s b = true → dbgTry s n iss (.hrdv item) b t = .done s [-(3 * pow3 24), 0]) ∧
  (∀ s n iss b w (l : Nat) item t, warpAt s b = some w → coreFenced s b = false → opsBefore s n w.wid = false → quiet s n iss w.wid = true → addrLane b = (l : Int) →
    l < 27 → (w.lane l).live = true → (w.lane l).halted = none → item < 400 → dbgTry s n iss (.hrdv item) b t = .done s [-(2 * pow3 24), 0]) ∧
  (∀ s n iss b u t x, coreInRange b = true → coreFenced s b = false → unitBefore s n b u = false → quietCore s n iss (addrCore b).toNat = true →
    (s.core (addrCore b).toNat).watch.find? (fun y => y.unit == u) = some x → dbgTry s n iss (.wrd u) b t =
      .done (dropCoreL1s s iss (addrCore b).toNat) [0, wordAt x.words 0, wordAt x.words 1, wordAt x.words 2, x.mask, x.count]) ∧
  (∀ s n iss b w (h : Halt) t, coreInRange b = true → firstHalted s (addrCore b) (addrHandle b) = some w → opsBefore s n w.wid = false →
    quiet s n iss w.wid = true → (w.dbl = some h ∨ w.dbl = none ∧ (w.lane ((listedHalts w).headD 0)).halted = some h) →
    dbgTry s n iss .hlst b t = .done (dropL1s s iss w.wid)
      [0, w.address ((listedHalts w).headD 0), maskOf (listedHalts w), h.reason * pow3 24 + h.unit * pow3 18 + h.imm]) ∧
  (∀ s n iss b w l t, Rule.halted s n iss b w l → dbgTry s n iss (.hrdp .depth) b t = .done (dropL1s s iss w.wid) [0, (w.lane l).depth, 0]) ∧
  (∀ s n iss b w l t, Rule.halted s n iss b w l → w.handler = false → (w.lane l).wait = none → dbgTry s n iss .hstep b t = .step w.wid l) ∧
  (∀ (s : State) wid n r b gd t s1 ws w, dbgTry s n (some wid) r b t = .done s1 ws → s1.warp? wid = some w →
    ∃ w', (dbgRun s (some wid) n r b gd t).warp? wid = some w' ∧ (∀ k x, ws[k]? = some x → w'.greg (gd + k) = lowWord x) ∧
      (∀ m, m < gd ∨ gd + ws.length ≤ m → w'.greg m = w.greg m) ∧ (∀ p ∈ w'.pends, p.n ≠ n))

/-! ## Events: waits end -/

/-- A wait on barrier i for a phase that is over, whose release has come (R88, R91). -/
def Rule.released (i : Nat) (now : Int) (x : Wait) : Bool := match x.kind with | .barEnd n t => decide (n = i ∧ t ≤ now) | _ => false
/-- A lane whose wait at a join ends: the 0 or +1 stands in its destination, and in the latch that its WAITJ made, if that is still there (R82, R107). -/
def Rule.joined (v : Int) (w : Warp) (l : Nat) : Warp :=
  match (w.lane l).wait with
  | some ⟨.join _ d _ n, _⟩ => (w.setDst l d false v).modLane l fun x => { x.lateLatch n ⟨v, false⟩ with wait := none }
  | _ => w

/-- How waits end. A named barrier's release ends the waits of the gang's warps that it has reached, after the acquire that each makes. BARC, when the barrier cycle of a gang holds, puts the waiting lanes of each of its warps back on their barrier words and traps
them, each with its barrier's number. A due release of a channel stands in it, writes its value to the Gd of each lane that waits for its phase, and
ends the wait. A yielded lane returns when its count or its time is over, or, outside handler mode, when its warp has no ready lane (the handler's
case: log entry 100). Lanes whose WAITJ bound has expired get +1 when no join is complete; a complete join gives its lanes 0; a halted lane that waits at a join counts
(log entry 99). A barrier cycle is none while a warp of the gang is saved (log entry 139), and a BARC_DETECTION without one does nothing (log entry 25). A sleeper wakes at its
due time. A warp that waits for a promise that has come issues its word again (R80, R82, R91, R92, R163, R164, R198, R201, R219, R221, R424). -/
def Obligations.WaitsEnd : Prop :=
  (∀ (s : State) gid i, exec (.namedBarrierRelease gid i) s = .next
    (let hit (w : Warp) : Bool := decide (w.gid = some gid) && !(w.waiting (Rule.released i s.pkg.gtime)).isEmpty
     let s1 := (s.warps.filter hit).foldl acquireGang s
     { s1 with warps := s1.warps.map fun w => if hit w then w.wake (Rule.released i s.pkg.gtime) else w })) ∧
  (∀ (s : State) gid g, s.gang? gid = some g → barrierCycle s g = true → exec (.barcDetection gid) s = .next
    ((s.warps.filter fun x => x.gid == some gid).foldl (fun s w =>
      let ls := w.where_ fun x => x.live && (laneBar g x).isSome
      if ls = [] then s else (s.modWarp w.wid fun x => x.reissue fun y => (barOpen g (some y)).isSome).enterTrap w.wid
        ⟨cause.barc, ls.map fun l => (l, (((laneBar g (w.lane l)).map fun p => p.1).getD 0 : Int), 0)⟩) s)) ∧
  (∀ (s : State) gid g, s.gang? gid = some g → barrierCycle s g = false → exec (.barcDetection gid) s = .next s) ∧
  (∀ (s : State) ch c r, s.chan? ch = some c → c.due = [r] → r.at_ ≤ s.pkg.gtime → ∃ t, exec (.escapementRelease ch) s = .next t ∧
    (∃ c', t.chan? ch = some c' ∧ c'.value = r.value ∧ c'.due = []) ∧
    ∀ wid w l gd word, s.warp? wid = some w → l < 27 → (w.lane l).wait = some ⟨.chan ch r.n gd, word⟩ →
      ∃ w', t.warp? wid = some w' ∧ w'.greg gd = lowWord r.value ∧ (w'.lane l).wait = none) ∧
  (∀ (s : State) wid w, s.warp? wid = some w → w.place ≠ .saved → exec (.yieldRelease wid) s = .next (s.modWarp wid fun x => x.allLanes fun _ y =>
    match y.yielded with
    | some z => if z.count ≤ 0 ∨ z.due ≤ s.pkg.gtime ∨ (w.handler = false ∧ w.readyLanes = []) then { y with yielded := none, tYield := false } else y
    | none => y)) ∧
  (∀ (s : State) wid w, s.warp? wid = some w → w.place ≠ .saved → (w.handler = true ∨ (s.core w.coreNo).watch = []) →
    (∀ j ∈ w.joins, ∃ l, l < 27 ∧ (w.lane l).live = true ∧ (w.lane l).atJoin j = false) →
    exec (.waitjBoundExpiry wid) s = .next (s.modWarp wid fun x => (w.where_ fun y => match y.wait with
        | some ⟨.join due _ _ _, _⟩ => decide (due ≤ if w.readyLanes ≠ [] ∧ issuedNow s w = false then s.pkg.gtime - 1 else s.pkg.gtime)
        | _ => false).foldl (Rule.joined 1) x)) ∧
  (∀ (s : State) wid w word depth, s.warp? wid = some w → (w.handler = true ∨ (s.core w.coreNo).watch = []) → w.joins = [(word, depth)] →
    (∀ l, l < 27 → (w.lane l).live = true → (w.lane l).atJoin (word, depth) = true) →
    joinRelease s wid = s.modWarp wid fun x => (w.where_ fun y => y.atJoin (word, depth)).foldl (Rule.joined 0) x) ∧
  (∀ (s : State) wid w word depth, s.warp? wid = some w → w.place ≠ .saved → (w.handler = true ∨ (s.core w.coreNo).watch = []) →
    w.joins = [(word, depth)] → (∀ l, l < 27 → (w.lane l).live = true → (w.lane l).atJoin (word, depth) = true) →
    exec (.waitjBoundExpiry wid) s = .next (joinRelease s wid)) ∧
  (∀ (s : State) wid w, s.warp? wid = some w → w.place ≠ .saved → exec (.sleepWake wid) s = .next (s.modWarp wid fun x =>
    x.wake fun y => match y.kind with | .sleep due => decide (0 ≤ narrow (s.pkg.gtime - due) 27) | _ => false)) ∧
  (∀ (s : State) wid w pc ls b i, s.warp? wid = some w → promiseGroup w s.pkg.gtime = some (pc, ls) → mayReissue s w = true →
    codeBlock? s w.coreNo w.ctx (pc / 27) = some b → decode? (wordAt b.words (pc % 27).toNat) = some i → loadHazard s w i ls = false →
    exec (.promiseReissue wid) s = .next { s.modWarp wid fun x => x.untouch ls with forced := some ⟨wid, pc, ls, 0, true, none⟩ })

/-! ## Events: the memory side -/

/-- A reply stands before another that the same slice sends to the same core: sectors, copies, and the data of a load or an atomic of which all
has been sent (R176). -/
def Rule.sentBefore (s : State) (r q : Req) : Prop :=
  q.src = r.src ∧ q.port s = r.port s ∧ ((∃ g k j d t n b, q.body = .sectors g k j d t n b) ∨ (∃ g k j d t n b, q.body = .mcopy g k j d t n b) ∨
    ∃ o x, q.body = .data o ∧ r.body ≠ .data o ∧ s.op? o = some x ∧ ∀ y ∈ x.lanes, y.got ≠ .waiting)

/-- Sectors and multicast copies land in their window lines, what one slice sends to one core in the order in which it was sent, and before the
arrivals of their cycle at the gang's barriers; a recall, those of one slice to one core in order, writes a dirty line back and, for ownership, drops
the copy; a granted ownership request owns the line, and one with a waiting store writes it and marks the line dirty (R163, R166, R169, R171, R176,
R179, R183, R427). -/
def Obligations.WindowLineEvents : Prop :=
  (∀ (s : State) id r g k j d t n bad, s.req? id = some r → r.body = .sectors g k j d t n bad → firstReply s r = true → s.tbMet g = false →
    exec (.sectorLanding id) s = .next
    (let s1 := landIn s g k j d t n .present bad
     if n = 2 then { s1 with reqs := s1.reqs.filter fun q => q.id != id } else s1.modReq id fun r => { r with body := .sectors g k j d t (n + 1) bad })) ∧
  (∀ (s : State) id r g k j d t n bad, s.req? id = some r → r.body = .mcopy g k j d t n bad → firstReply s r = true → s.tbMet g = false →
    exec (.multicastDelivery id) s = .next
    (let s1 := landIn s g k j d t n .present bad
     if n = 2 then (countRead s1 g k j).delReq id else s1.modReq id fun r => { r with body := .mcopy g k j d t (n + 1) bad })) ∧
  (∀ (s : State) gid k j d t n st bad g w x, s.gang? gid = some g → g.win? k = some w → w.line? j = some x →
    ∃ s1 g1, landIn s gid k j d t n st bad = tbLand s1 (.scr gid w.bar) 27 ∧ s1.gang? gid = some g1 ∧ s1.mem = s.mem ∧
      (∀ i, i < 27 → sget g1.scratch (81 * (w.first + j) + 27 * n + i) = sget d (27 * n + i)) ∧
      (∀ a, a < 81 * (w.first + j) + 27 * n ∨ 81 * (w.first + j) + 27 * n + 27 ≤ a → sget g1.scratch a = sget g.scratch a)) ∧
  (∀ (s : State) id r gid k j own g w x, s.req? id = some r → r.body = .recall gid k j own → firstRecall s r gid = true →
    s.gang? gid = some g → g.win? k = some w →
    w.line? j = some x → (x.st = .present → exec (.windowRecall id) s = .next
        ((if own then s.modGang gid fun g => g.modWin k fun w => w.drop j else s).delReq id)) ∧
      (x.st = .dirty → exec (.windowRecall id) s = .next (((writeBackLine s gid k j 0).modGang gid fun g => g.modWin k fun w =>
        if own then w.drop j else w.modLine j fun y => { y with owned := false }).delReq id))) ∧
  (∀ (s : State) id r gid k j us g w x, s.req? id = some r → r.body = .own gid k j us → arrived s r = true → remoteHeld s r.pkg = false →
    r.pkg ≠ 999 → engineBars s [gid] r.pkg r.line = false → clear s r.pkg r.line true (some (gid, k, j)) = true → s.gang? gid = some g →
    g.win? k = some w → w.line? j = some x → (x.st = .present ∨ x.st = .dirty) →
    exec (.ownershipRequest id) s = .next ((s.modGang gid fun g => (us.foldl (fun g u => g.write u.1 u.2.1 u.2.2) g).modWin k fun w =>
      w.modLine j fun y => if us = [] then { y with owned := true } else { y with st := .dirty, owned := true, count := none }).delReq id)) ∧
  (∀ (s : State) (r : Req), firstReply s r = true ↔ ∀ q ∈ s.reqs.takeWhile (fun q => q.id != r.id), ¬ Rule.sentBefore s r q)

/-- A read at its home: a held line is served, a miss opens an entry or, while the entries are full, waits in the retry queue if that has room, an .SC
read joins the queue; arriving data serves what waits for it; what a read finds is on its way to its core; when every reply of a load has come, in the
order in which its slices sent it, its lanes receive their values and their waits end, or a lane whose tag has no meaning traps TAG on its word; an
atomic's lanes receive theirs where they stand; a value stands also in the latch that its word made, while that is X1, X2 or X3 (R107, R176 to R180,
R207, R346, R389, R390). -/
def Obligations.ReadsAtTheHome : Prop :=
  (∀ (s : State) id r op items, s.req? id = some r → r.body = .read op items → arrived s r = true → remoteHeld s r.pkg = false →
    (r.sc.isSome = true → exec (.sliceRequest id) s = .next (s.modReq id fun r => { r with stage := 2 })) ∧
    (r.sc = none → readClear s r = true → r.pkg ≠ 999 → (s.heldLine? r.pkg r.line).isSome = true →
      exec (.sliceRequest id) s = .next (serveRead (install s r.pkg r.line false) r)) ∧
    (r.sc = none → readClear s r = true → r.pkg ≠ 999 → s.heldLine? r.pkg r.line = none → missing s r.pkg r.line = [] →
      missLoad s r.pkg r.line < 81 → exec (.sliceRequest id) s = .next (s.modReq id fun r => { r with stage := 1 })) ∧
    (r.sc = none → readClear s r = true → r.pkg ≠ 999 → s.heldLine? r.pkg r.line = none → missing s r.pkg r.line = [] →
      81 ≤ missLoad s r.pkg r.line → exec (.sliceRequest id) s = .next (if sliceStopped s r then s else s.modReq id fun r => { r with stage := 4 }))) ∧
  (∀ (s : State) id r op items, s.req? id = some r → r.body = .read op items → r.stage = 1 → remoteHeld s r.pkg = false →
    makeRoom s r.pkg r.line = none → missing s r.pkg r.line = [r] → readClear (install s r.pkg r.line false) r = true →
    exec (.sliceMissData id) s = .next (serveRead (install s r.pkg r.line false) r)) ∧
  (∀ (s : State) r op items o, r.body = .read op items → s.op? op = some o → o.fill = none → r.sc = none → serveRead s r =
    (((s.modOp op fun o' => { o' with lanes := modIdx (fun i x => if items.contains i && x.got == .waiting then
      { x with got := match readPieces s.mem 0 (pieces x.at_ x.hi x.width) with
        | .val v => .value v
        | .reserved k => if o.ts then .tg else .tagFault (81 * ((x.virt + 3 * k) / 81))
        | .bad k => .uncor (81 * ((x.virt + 3 * k) / 81)) } else x) 0 o'.lanes }).delReq r.id).send r.src r.ctx r.wid r.pkg r.line (.data op) none)) ∧
  (∀ (s : State) id o w, s.op? id = some o → s.warp? o.wid = some w → (∀ x ∈ o.lanes, ∃ v, x.got = .value v) → o.hstep = false → o.isAtom = false → opFirst s id = true →
    (o.inHandler = true ∨ (s.core w.coreNo).watch = []) →
    exec (.loadReply id) s = .next (({ s with reqs := s.reqs.filter (fun q => q.body != .data id), ops := s.ops.filter fun x => x.id != id } : State).modWarp o.wid fun y =>
      (o.write (w.waiting fun x => x.kind == .load id) y).wake fun x => x.kind == .load id)) ∧
  (∀ (s : State) id o w, s.op? id = some o → s.warp? o.wid = some w → (∀ x ∈ o.lanes, ∃ v, x.got = .value v) → o.hstep = false → o.isAtom = true → opFirst s id = true →
    (o.inHandler = true ∨ (s.core w.coreNo).watch = []) →
    exec (.loadReply id) s = .next (({ s with reqs := s.reqs.filter (fun q => q.body != .data id), ops := s.ops.filter fun x => x.id != id } : State).modWarp o.wid fun y =>
      (o.write (nodups (o.lanes.map fun x => x.lane)) y).wake fun x => x.kind == .load id)) ∧
  (∀ (o : LoadOp) (w : Warp) l virt at_ hi n v, o.group = false → o.isAtom = false → o.dbl = false → o.d = .v n → n < 81 → l < 27 → w.lanes.length = 27 →
    o.lanes = [⟨l, virt, at_, hi, o.width, .value v⟩] → ∀ k, o.marks = [(l, k)] →
    (o.write [l] w).vreg l n = lowWord v ∧ (∀ k m, m < 81 → (k ≠ l ∨ m ≠ n) → (o.write [l] w).vreg k m = w.vreg k m) ∧
    let x := w.lane l
    let y := (o.write [l] w).lane l
    y.x1 = (if x.made = k then Latch.fit ⟨v, false⟩ else x.x1) ∧ y.x2 = (if x.made = k + 1 then Latch.fit ⟨v, false⟩ else x.x2) ∧
    y.x3 = (if x.made = k + 2 then Latch.fit ⟨v, false⟩ else x.x3)) ∧
  (∀ (s : State) id o w, s.op? id = some o → s.warp? o.wid = some w → w.handler = false → o.group = false → o.hstep = false → o.isAtom = false → o.stood = [] → opFirst s id = true →
    (s.core w.coreNo).watch = [] → ∀ l virt at_ hi a, o.lanes = [⟨l, virt, at_, hi, o.width, .tagFault a⟩] → w.waiting (fun x => x.kind == .load id) = [l] →
    exec (.loadReply id) s = .next ((({ s with reqs := s.reqs.filter (fun q => q.body != .data id), ops := s.ops.filter fun x => x.id != id } : State).modWarp o.wid fun y =>
      (y.wake fun x => x.kind == .load id).modLanes [l] fun _ x => { x with pc := o.word }).enterTrap o.wid ⟨cause.tag, [(l, 0, a)]⟩))

/-- A store, a tag write of an unpacked line, an atomic and a reduction of one unit, once their lines are free at their home: the memory that they write.
A write-back writes its line whole and takes a write-back entry, for which it waits while the 27 are in use; an entry that is freed de-duplicates its
line where the page has the dedup trit (R64, R181, R185, R187, R190, R195, R205, R346, R426, R429). That the home's line is correctable again after a
write-back is the model's choice (log entry 40), as is that a row which could not be read leaves it uncorrectable (log entry 133). -/
def Obligations.WritesAtTheHome : Prop :=
  (∀ (s : State) id r us, s.req? id = some r → r.body = .store us → arrived s r = true → remoteHeld s r.pkg = false → r.sc = none →
    writeReady s id (writeLines s r us) = none →
    exec (.homeStore id) s = .next ((applyUnits (takeLines s (soundLines s (writeLines s r us))) r.ctx us).delReq id)) ∧
  (∀ (s : State) ctx l p a (n : Nat) v, 0 ≤ a → 81 ≤ a → a % 81 + n ≤ 81 → s.mem.lineAt (.dom p a) ≠ .bad →
    applyUnits s ctx [⟨l, .dom p a, none, n, v⟩] = s.modMem fun m => m.write p a n (narrow v (9 * n))) ∧
  (∀ (s : State) id r code scale, s.req? id = some r → r.body = .wtag code scale → arrived s r = true → remoteHeld s r.pkg = false →
    ((s.mem.tag r.pkg r.line).code < 7 ∨ 11 < (s.mem.tag r.pkg r.line).code ∨ (s.mem.tag r.pkg r.line).code = code) → writeReady s id [(r.pkg, r.line)] = none →
    s.mem.bad r.pkg r.line = false → r.line ≠ 0 →
    exec (.homeStore id) s = .next (((install (unshare s [(r.pkg, r.line)]) r.pkg r.line true).modMem fun m => m.setTag r.pkg r.line ⟨code, scale⟩).delReq id)) ∧
  (∀ (s : State) id r op k u old m, s.req? id = some r → r.body = .atom op k [u] old → arrived s r = true → remoteHeld s r.pkg = false → r.sc = none →
    writeReady s id (writeLines s r [u]) = none →
    let s1 := takeLines s (soundLines s (writeLines s r [u]))
    readPieces s1.mem 0 (pieces u.at_ u.hi u.width) = .val m →
    let d := ((old.find? fun p => p.1 == u.lane).map fun p => p.2).getD 0
    let new : Int := match k with
      | .add => narrow (m + u.val) (9 * u.width)
      | .min => if m ≤ u.val then m else u.val
      | .max => if m ≤ u.val then u.val else m
      | .xchg => u.val
      | .cas => if m = d then u.val else m
      | .tbin t => tbin t m u.val (9 * u.width)
    exec (.homeAtomic id) s = .next ((((s1.modMem fun y => writePieces y (pieces u.at_ u.hi u.width) new).modOp op fun o =>
      { o with lanes := o.lanes.map fun x => if x.lane = u.lane ∧ x.at_ = u.at_ then { x with got := .value m } else x }).delReq id).send r.src r.ctx r.wid
        r.pkg r.line (.data op) none)) ∧
  (∀ (s : State) id r op u m, s.req? id = some r → r.body = .red op false [u] → arrived s r = true → remoteHeld s r.pkg = false →
    writeReady s id (writeLines s r [u]) = none →
    let s1 := takeLines s (soundLines s (writeLines s r [u]))
    readPieces s1.mem 0 (pieces u.at_ u.hi u.width) = .val m →
    exec (.redContribution id) s = .next ((s1.modMem fun y => writePieces y (pieces u.at_ u.hi u.width)
      (if op = 0 then narrow (m + u.val) (9 * u.width) else if op = -1 then Min.min m u.val else Max.max m u.val)).delReq id)) ∧
  (∀ (s : State) id r op tag count key u m, s.req? id = some r → r.body = .det op false tag count key [u] → arrived s r = true →
    remoteHeld s r.pkg = false → writeReady s id (writeLines s r [u]) = none → s.home.rounds = [] → ∀ p a, u.at_ = .dom p a →
    let s1 := takeLines s (soundLines s (writeLines s r [u]))
    readPieces s1.mem 0 (pieces u.at_ u.hi u.width) = .val m →
    (count = 1 → exec (.redDetContribution id) s = .next ((s1.modMem fun y => writePieces y (pieces u.at_ u.hi u.width)
      (if op = 0 then narrow (m + u.val) (9 * u.width) else if op = -1 then Min.min m u.val else Max.max m u.val)).delReq id)) ∧
    (1 < count → exec (.redDetContribution id) s = .next (({ s1 with home := { s1.home with
      rounds := [⟨p, a, u.width, tag, count, op, false, [(key ++ [(u.lane : Int)], u.val)], r.ctx⟩] } } : State).delReq id))) ∧
  (∀ (s : State) id r p a d t dedup bad, s.req? id = some r → r.body = .wback (.dom p a) d t 0 dedup true bad → r.stage ≠ 5 → firstBack s r = true →
    remoteHeld s r.pkg = false → 81 ≤ a → r.pkg ≠ 999 → r.line ≠ 0 → backLoad s r.pkg r.line < 27 → exec (.writeBack id) s = .next ((({ s with
      mem := { (s.mem.setLine p (a / 81) d).setTag p (a / 81) t with
        poison := (s.mem.poison.filter fun k => k != lineKey p (a / 81)) ++ (if bad then [lineKey p (a / 81)] else []) },
      home := { s.home with dedup := s.home.dedup.filter fun q => q.1 != lineKey p (a / 81),
                            held := modFirst (fun h => h.pkg == p && h.line == a / 81) (fun h => { h with dirty := false, dedup := false }) s.home.held } } : State).delReq
        id).send 800 r.ctx 0 r.pkg r.line (.evict dedup) none)) ∧
  (∀ (s : State) id r p a d t dedup bad, s.req? id = some r → r.body = .wback (.dom p a) d t 0 dedup true bad → r.stage ≠ 5 → r.pkg ≠ 999 →
    27 ≤ backLoad s r.pkg r.line → exec (.writeBack id) s = .next s) ∧
  (∀ (s : State) id r dedup, s.req? id = some r → r.body = .evict dedup →
    exec (.writeBack id) s = .next ((if dedup then dedupLine s r.pkg r.line else s).delReq id))

/-- The addresses whose checks a fetch of the block of a PC makes: its first tryte, and the first tryte of a second page (R152). -/
def Rule.blockPages (pc : Int) : List Int :=
  let a := 162 * blockOf pc
  if pageOf a = pageOf (a + 161) then [a] else [a, 19683 * pageOf (a + 161)]

/-- A warp is parked on the page of a page request (R152). -/
def Rule.parkedOn (q : PageReq) (w : Warp) : Bool := w.ctx == q.ctx && match w.park with | some p => p.page == q.page | none => false

/-- A multicast request to a line that its slice does not hold opens a miss entry when fewer than 81 are taken, joins an open entry of its line and
map, and else waits; an entry is injected, with its late mark set, as one copy to each target; a stream sector lands in the window line its port's
binding has reached; a free port binds the oldest marked RECV; at each multiple of 27 a frontier is noted for 81 cycles later, and a release takes
those due; a walk from the lowest cached node recalls the table lines, sets the accessed trit, and the poisoned trit of a listed frame, and loads its
leaf into a TLB with room; a fetch loads a block whose pages pass their checks and whose lines can be read at their homes, or from the host as it has written them; a page response that succeeds wakes the
warps parked on its page, and one that fails traps the only such warp with FETCH (R148, R152, R182, R192, R207, R208, R210, R292). -/
def Obligations.MeshTranslationAndFetchEvents : Prop :=
  (∀ (s : State) id r g k j map, s.req? id = some r → r.body = .mcast g k j map → r.stage ≠ 1 → arrived s r = true → remoteHeld s r.pkg = false →
    r.pkg ≠ 999 → s.home.mcasts.any (fun e => e.pkg == r.pkg && e.line == r.line && e.map == map) = false → s.heldLine? r.pkg r.line = none →
    missLoad s r.pkg r.line < 81 →
    exec (.multicastRequest id) s = .next (({ s with home := { s.home with mcasts := s.home.mcasts ++ [⟨s.nextId, r.pkg, r.line, map, [id]⟩] }, nextId := s.nextId + 1 } : State).modReq id fun r => { r with stage := 1 })) ∧
  (∀ (s : State) id r g k j map e, s.req? id = some r → r.body = .mcast g k j map → r.stage ≠ 1 → arrived s r = true → remoteHeld s r.pkg = false →
    r.pkg ≠ 999 → s.home.mcasts.find? (fun e => e.pkg == r.pkg && e.line == r.line && e.map == map) = some e →
    exec (.multicastRequest id) s = .next
      (let ms := modFirst (fun e => e.pkg == r.pkg && e.line == r.line && e.map == map) (fun e => { e with targets := e.targets ++ [id] }) s.home.mcasts
       ({ s with home := { s.home with mcasts := ms } } : State).modReq id fun r => { r with stage := 1 })) ∧
  (∀ (s : State) id r g k j map, s.req? id = some r → r.body = .mcast g k j map → r.stage ≠ 1 → arrived s r = true → remoteHeld s r.pkg = false →
    r.pkg ≠ 999 → s.home.mcasts.any (fun e => e.pkg == r.pkg && e.line == r.line && e.map == map) = false → s.heldLine? r.pkg r.line = none →
    81 ≤ missLoad s r.pkg r.line → exec (.multicastRequest id) s = .next (if sliceStopped s r then s else s.modReq id fun r => { r with stage := 4 })) ∧
  (∀ (s : State) id e, s.home.mcasts.find? (fun x => x.id == id) = some e → remoteHeld s e.pkg = false → engineBars s (mcGangs s e) e.pkg e.line = false →
    clear s e.pkg e.line false none = true → makeRoom s e.pkg e.line = none →
    exec (.multicastInject id) s = .next (
      let s1 := (install s e.pkg e.line false).modHeld e.pkg e.line fun h => { h with late := some e.map }
      { s1 with home := { s1.home with mcasts := s1.home.mcasts.filter fun x => x.id != id },
                reqs := (s1.reqs.filter fun r => !e.targets.contains r.id) ++ (s1.reqs.filter fun r => e.targets.contains r.id).map fun r =>
                  match r.body with
                  | .mcast g k j _ => { r with stage := 0, body := .mcopy g k j (s1.mem.line e.pkg e.line) (s1.mem.tag e.pkg e.line) 0 (s1.mem.lineAt (.dom e.pkg (81 * e.line)) == .bad) }
                  | _ => r })) ∧
  (∀ (s : State) id r core port d t n b k first, s.req? id = some r → r.body = .stream core port d t n →
    ((s.reqs.takeWhile fun q => q.id != id).any fun q => match q.body with | .stream c p _ _ _ => c == core && p == port | _ => false) = false →
    (s.core core).binds = [b] → b.port = port → b.feeds = .window k first → n < 2 → b.landed + 1 ≠ 3 * b.n →
    s.tbMet b.gid = false →
    exec (.streamSectorReceipt id) s = .next ((landIn (s.delReq id) b.gid k (first + b.landed / 3) d t n .dirty false).modCore core fun c =>
      { c with binds := c.binds.map fun x => if x.port = port then { x with landed := x.landed + 1 } else x })) ∧
  (∀ (s : State) wid w gid n port k first cnt locs, s.warp? wid = some w → w.gid = some gid → w.pends = [⟨n, .recv port k first cnt locs true, 0⟩] →
    portFree s w.coreNo port = true → (recvWaits s w.coreNo port).head? = some (n, wid) →
    exec (.recvBind wid) s = .next (endPend (s.modCore w.coreNo fun c =>
      { c with binds := c.binds ++ [⟨port, gid, w.ctx, .window k first, cnt, 0, 0, some n⟩] }) wid n)) ∧
  (∀ s : State, s.pkg.gtime % 27 = 0 → (∀ f ∈ s.pkg.frontiers, f.1 ≠ s.pkg.gtime + 81) → exec .scFrontierReport s = .next (s.modPkg fun p =>
    { p with frontiers := p.frontiers ++ [(s.pkg.gtime + 81, scFloor s s.pkg.gtime)] })) ∧
  (∀ s : State, (∀ r ∈ s.reqs, r.sc = none) → exec .frontierRelease s = .next (s.modPkg fun p =>
    { p with frontier := (p.frontiers.filter fun f => decide (f.1 ≤ s.pkg.gtime)).foldl (fun m f => Max.max m f.2) p.frontier,
             frontiers := p.frontiers.filter fun f => decide (s.pkg.gtime < f.1) })) ∧
  (∀ (s : State) g, scFloor s g ≤ g ∧ ∀ r ∈ s.reqs, ∀ t k, r.sc = some (t :: k) → r.stage ≠ 2 → scFloor s g ≤ t) ∧
  (∀ (s : State) core ctx page e lv a, page ≠ 0 → (s.context? ctx).isSome = true → tlbFind (s.core core) ctx page = none → canonicalAddr (19683 * page) = true →
    let st := walkStart s (srcDie core) ctx page
    let s0 := walkRecall s page st.1 st.2
    let s1 := setPteBit s0 a 45
    let s2 := if pteTarget e = 0 && leafListed s e lv then setPteBit s1 a 43 else s1
    walkFrom s0 page st.1 st.2 = .ok (e, lv, a) → (s2.core core).tlb.length < 729 →
    exec (.translationWalk core ctx page) s = .next ((walkNodes s0 page st.1 st.2).foldl (keepNode (srcDie core) ctx page)
      { s2.modCore core fun c => { c with tlb := c.tlb ++ [⟨ctx, halfOf page, lv, shr page (6 * lv), s2.mem.read s2.pkg.number a 6, a⟩] } with
        fresh := s2.fresh + 1 })) ∧
  (∀ (s : State) (a : Int) (i : Nat),
    let s1 := recallNow s s.pkg.number (a / 81) true
    let e := s1.mem.read s1.pkg.number a 6
    setPteBit s a i = if pteBit e i = 0 then homePut s1 a 6 (e + pow3 i) else s1) ∧
  (∀ (s : State) wid w, s.warp? wid = some w → freeToIssue s w = true → wordFor s w w.issuePc = none → pastLimit s w w.issuePc = false →
    exec (.instructionFetch wid) s = .next (fetchFor s w)) ∧
  (∀ (s : State) (w : Warp) (s1 : State) (locs : List (Int × Loc)), checkAddrs s w.coreNo w.ctx (w.level == 1) Need.exec true (Rule.blockPages w.issuePc) = (s1, locs.map fun p => (p.1, .ok p.2)) →
    let b := blockOf w.issuePc
    let at_ (a : Int) : Loc := blockLoc (162 * b) (locs.map fun p => p.2) a
    let words := (upto 54).map fun (i : Nat) => 162 * b + 3 * (i : Int)
    let lines := (nodups (words.map fun a => (at_ a).pkgLine)).filter fun p => p.1 != 999
    codeBlock? s1 w.coreNo w.ctx b = none →
    (∀ p ∈ lines, remoteHeld s1 p.1 = false ∧ writing s1 w.coreNo p.1 p.2 = false ∧ engineOwned s1 p.1 p.2 = false ∧ clear s1 p.1 p.2 false none = true) →
    let hosts := nodups (((words.map at_).filter Loc.isHost).map Loc.lineStart)
    let s2 := hosts.foldl hostActs (lines.foldl (fun s p => readHome s p.1 p.2) s1)
    (∀ a ∈ words, s2.mem.lineAt (at_ a) ≠ .bad) →
    fetchFor s w = (s2.modCore w.coreNo fun c => { c with code := c.code ++ [⟨w.ctx, b, readBlock s2.mem (162 * b) (locs.map fun p => p.2)⟩] }).modWarp w.wid
      fun x => { x with code := [fetchKey w w.issuePc] }) ∧
  (∀ (s : State) i q, s.pageReqs.find? (fun x => x.i == i) = some q → q.relaunch = false → exec (.pageRequestResponse i true) s = .next (
    let s1 := dropPage { s with pageReqs := s.pageReqs.filter fun x => x.i != i } q.cores q.ctx q.page
    { s1 with fresh := s1.fresh + 1, warps := s1.warps.map fun w => if Rule.parkedOn q w = true then { w with park := none } else w })) ∧
  (∀ (s : State) i q w d, s.pageReqs.find? (fun x => x.i == i) = some q → q.relaunch = false → s.warps.filter (Rule.parkedOn q) = [w] → w.park = some ⟨q.page, d⟩ →
    exec (.pageRequestResponse i false) s = .next
      (let ls := if w.handler then upto 27 else w.issueSet
       ((({ s with pageReqs := s.pageReqs.filter fun x => x.i != i } : State).modWarp w.wid fun w => { w with park := none }).enterTrap w.wid
         ⟨cause.fetch, listed ls d (6 * if w.handler then w.hpc else (w.lane (ls.headD 0)).pc)⟩)))

/-! ## Events: tasks and transducer requests -/

/-- The accumulator of R230: the top p planes of a, from trit 8 down, each against the column. -/
def Rule.planes (p : Nat) (a col : List Int) : Int :=
  (List.range p).foldl (fun acc i => 3 * acc + dot (a.map fun x => trit x (8 - i)) col) 0

/-- A task of a kind runs or may start in a cycle that is not withheld, and before the arrivals of the cycle at its gang's barriers; its slots are in
mode, what comes before its lines is done, and its lines are present and owned: the state s0 with the task running, and the state and gang it then works
on, its own lines barring it nothing (R171, R204, R239 to R241, R337). An EPI's translations come before its lines (R236). -/
def Rule.taskReady (s : State) (gid ticket : Nat) (kind : Int) (t : Task) (s0 s2 : State) (g : Gang) : Prop :=
  ∃ g0 g1 g2 s1, s.gang? gid = some g0 ∧ g0.tasks.find? (fun t => t.ticket == ticket) = some t ∧ taskKind t.words = kind ∧
    withheld s (g0.cores.headD 0 / 64) = false ∧ s.tbMet gid = false ∧
    (t.st = .running ∨ (t.st = .queued ∧ mayRun s g0 t = true ∧ slotsFit g0 t = true)) ∧
    (let u := if t.st = .queued ∧ kind = 4 then epiUnit s g0 t else t.unit
     s0 = modTask (if t.st = .queued ∧ kind = 1 then bindSlot s gid t else s) gid ticket fun t => { t with st := .running, unit := u }) ∧
    (s0.aside (.task gid ticket)).gang? gid = some g1 ∧
    (if kind = 4 then epiPre (s0.aside (.task gid ticket)) g1 t else noPre (s0.aside (.task gid ticket)) g1 t) = .done s1 ∧
    s1.gang? gid = some g2 ∧ taskAccess s1 g2 t = .done s2 ∧ s2.gang? gid = some g

/-- One row of an EPI: its words are converted, written with their tag, and kept for the fold (R236). -/
def Rule.epiStep (gid : Nat) (r : List Int) (sh : Int) (acc : State × Fl × List Int) (m : Nat) : State × Fl × List Int :=
  match acc.1.gang? gid with
  | none => acc
  | some g =>
    let row := cRow (epiC r) m
    let xs := match cLines g row with | .ok l => rowWords l row | .error _ => []
    let ys := epiRow r sh xs
    (epiWriteRow acc.1 gid r m sh (ys.map fun p => p.1), acc.2.1.or (Fl.all (ys.map fun p => p.2)), acc.2.2 ++ xs)

/-- A ready WLOAD fills its slot from 81 rows of one scale; an MM reads of a TI9P line its first p planes alone; a step of an MM adds the exact plane sum and
rounds once; a ready MM, and a STREAM that
forwards nothing and has all its lines, write their rows with their tags; a STREAM without a binding takes its free port; an EPI with neither scale
nor fold converts its rows; an end writes the status word and arrives on the barrier; a fault that relaunches nothing is reported by a status word and
a held TASKF; a warp with no ready lane takes a held TASKF (R228 to R230, R236, R241, R242, R245, R246). -/
def Obligations.TileTasksRun : Prop :=
  (∀ (p : Nat) (a col : List Int) (sa sb c : Int), p ≤ 9 → (∀ x ∈ a, -9841 ≤ x ∧ x ≤ 9841) →
    mmStep p (a, sa, false) col sb c = tf27.finish 0
      (let t := FV.fin (Rule.planes p a col) (9 - p + sa + sb)
       match tf27.firstNan [tf27.dec c, t] with | some n => n | none => addV (tf27.dec c) t)) ∧
  (∀ s gid ticket t s0 s2 g rows sc, Rule.taskReady s gid ticket 1 t s0 s2 g → wloadRows g (wordAt t.words 9) none (wloadB t.words).lines = .ok (rows, sc) →
    exec (.wloadTask gid ticket) s = .next (s0.ownedAs (computed (countReads (s2.modGang gid fun g => { g with
      slots := modIdx (fun j x => if j = (wordAt t.words 6).toNat then { x with mode := wordAt t.words 9, scale := sc, w := (List.zip (upto 81) rows).foldl (fun m p => ssets m (729 * p.1) p.2) [] } else x) 0 g.slots })
      g (wholeLines (wloadB t.words).lines)) gid ticket Fl.none))) ∧
  (∀ s gid ticket t s0 s2 g rows f, Rule.taskReady s gid ticket 2 t s0 s2 g →
    mmRows g t.words (slotsOf g t.words) 0 ((upto (mmA t.words).rows.toNat).map fun m => (cRow (mmA t.words) m).map fun a => (a, readA g (wordAt t.words 9) a)) = .ok (rows, f) →
    exec (.mmTask gid ticket) s = .next (s0.ownedAs (computed (mmWrite (countReads s2 g ((mmA t.words).lines.map (fun a => (a, aLength g (wordAt t.words 9) a)) ++
      (if wordAt t.words 16 = 0 then wholeLines (mmC t.words).lines else []))) g.gid t.words rows) g.gid t.ticket f))) ∧
  (∀ (g : Gang) (p a : Int), readA g p a = if (g.tag (a / 81).toNat).code = 6 ∧ g.rowsBad a (9 * p.toNat) = false then g.lineAt (a / 81).toNat
    else if (g.tag (a / 81).toNat).code = 6 then .bad else g.readLine (a / 81).toNat) ∧
  (∀ s gid ticket t s0 s2 g, Rule.taskReady s gid ticket 3 t s0 s2 g → t.got = [] → streamBound s2 (t.core g) g t = false →
    portFree s2 (t.core g) (wordAt t.words 11).toNat = true → recvWaits s2 (t.core g) (wordAt t.words 11).toNat = [] →
    exec (.streamTask gid ticket) s = .next (s0.ownedAs (s2.modCore (t.core g) fun c =>
      { c with binds := c.binds ++ [⟨(wordAt t.words 11).toNat, gid, g.ctx, .task ticket, streamLines t.words, 0, 0, none⟩] }))) ∧
  (∀ s gid ticket t s0 s2 g xs rows f, Rule.taskReady s gid ticket 3 t s0 s2 g → t.got ≠ [] → wordAt t.words 12 = 0 → t.got.length = streamLines t.words →
    aOps ((upto t.got.length).map fun i => (0, gotLine t.got i)) = .ok xs →
    mmRows g t.words (slotsOf g t.words) 0 ((upto (wordAt t.words 10).toNat).map fun m => (upto (wordAt t.words 7).toNat).map fun j =>
      ((0 : Int), gotLine t.got (m * (wordAt t.words 7).toNat + j))) = .ok (rows, f) →
    exec (.streamTask gid ticket) s = .next (s0.ownedAs (computed (mmWrite (countReads (modTask s2 gid ticket fun t => { t with got := [], sent := 0 }) g
      (if wordAt t.words 16 = 0 then wholeLines (mmC t.words).lines else [])) g.gid t.words rows) g.gid t.ticket f))) ∧
  (∀ s gid ticket t s0 s2 g cs, Rule.taskReady s gid ticket 4 t s0 s2 g → wordAt t.words 15 = 0 → wordAt t.words 18 = 0 → inR (wordAt t.words 14) (-121) 121 = true →
    (∀ x ∈ (epiOut t.words).lines, g.unread x 81 = false) → cLines g (epiC t.words).lines = .ok cs →
    exec (.epiTask gid ticket) s = .next
      (let z := (upto (wordAt t.words 8).toNat).foldl (Rule.epiStep gid t.words (wordAt t.words 14)) (countReads s2 g (wholeLines (epiC t.words).lines), Fl.none, [])
       s0.ownedAs (computed z.1 gid ticket z.2.1))) ∧
  (∀ (s : State) gid ticket g t, s.gang? gid = some g → g.tasks.find? (fun t => t.ticket == ticket) = some t → t.st = .computed → wordAt t.words 1 = -1 →
    exec (.taskEnd gid ticket) s = .next (dropTask (putWords s (t.core g) g.ctx gid (t.addr + 15) [pow3 24 + t.flags]) gid ticket)) ∧
  (∀ (s : State) gid ticket g t s3, s.gang? gid = some g → g.tasks.find? (fun t => t.ticket == ticket) = some t → t.st = .computed → wordAt t.words 1 ≠ -1 →
    (tbGet s (.scr gid (wordAt t.words 1))).pending ≠ 0 →
    tbArrive (dropTask (putWords s (t.core g) g.ctx gid (t.addr + 15) [pow3 24 + t.flags]) gid ticket) (.scr gid (wordAt t.words 1)) = some s3 →
    exec (.taskEnd gid ticket) s = .next { s3 with arrivals := (.tb (some gid) (wordAt t.words 1), 0) :: s3.arrivals }) ∧
  (∀ (s : State) gid g t d a wid, s.gang? gid = some g → (d < 1 ∨ 10 < d ∨ relaunchable s g = false) →
    let r := ((t.words.set 5 (-(pow3 24) + d * pow3 16)).set 25 (lowWord a)).set 26 (highWord a)
    let s1 := dropTask (putWords s (t.core g) g.ctx gid t.addr r) gid t.ticket
    taskfWarp s gid t.wid = some wid → taskFault s gid t d a = s1.modWarp wid fun w => { w with taskfs := w.taskfs ++ [⟨d, t.addr, r⟩] }) ∧
  (∀ (s : State) wid w tf rest, s.warp? wid = some w → w.taskfs = tf :: rest → taskfNow s w = true → w.pends = [] →
    exec (.taskfDelivery wid) s = .next ((((s.modWarp wid fun w => { w with
        taskfs := rest,
        lanes := (w.modLanes (w.where_ fun x => x.live && x.wait.isSome) fun _ x => { x with pc := ((x.wait.map fun y => y.word).getD x.pc), wait := none }).lanes }).enterTrap wid
      ⟨cause.taskf, listed (w.where_ fun x => x.live && x.wait.isSome) tf.detail tf.addr⟩).modWarp wid fun w =>
        w.allLanes fun _ x => { x with tInfo := tf.detail, tAddr := tf.addr })))

/-- A line can be read now: its package answers, and neither a remote hold, nor an engine, nor a holder's newer copy stands before it. -/
def Rule.readableNow (s : State) (p : Int × Int) : Prop :=
  p.1 ∉ s.pkg.deadPeers ∧ remoteHeld s p.1 = false ∧ engineOwned s p.1 p.2 = false ∧ clear s p.1 p.2 false none = true

/-- A place that gives no answer: its package is gone. -/
def Rule.lost (gone : Int → Bool) : Loc → Bool
  | .dom p _ => gone p
  | .host _ _ _ => false

/-- The state in which a step of a request has asked the host for its source: what the host has written to a new line of it, and its answer (R47, R151,
R254; log entry 124). -/
def Rule.xAsked (x : XReq) (z : XRun) : State × Bool :=
  let src := spanLoc x.src (dblAt x.words 1) z.o
  let s := if z.o = 0 || src.offset = 0 then hostActs z.s src else z.s
  if src.isHost then ({ s with fresh := s.fresh + 1 }, Config.hostAnswers s.fresh) else (s, true)

/-- A step of a request reads value v from its source (R254). -/
def Rule.xReads (gone : Int → Bool) (x : XReq) (z : XRun) (v : Int) : Prop :=
  let src := spanLoc x.src (dblAt x.words 1) z.o
  Rule.lost gone src = false ∧ (Rule.xAsked x z).2 = true ∧ readPieces (Rule.xAsked x z).1.mem 0 [(src, 1)] = .val v

/-- Transducer requests without a count barrier: the first of a lane's queue starts once what XFST released is performed, its source can be read and
it owns its destination's lines with every copy of them home, and runs through its table; a step with a transition emits by it, and ends the request
with -1 for want of one, -2 for want of room, -3 for a value no raw byte holds, and -4 for a source that gives no value or a place that gives no
answer, of which step nothing is written; an end writes the outcome, the offset and the state, and the trytes produced. An image that can be read is
checked: a sound one stands in its slot and Gd is 0, an unsound one leaves the slot empty and Gd is its code (R249 to R251, R254, R255). That a source
whose tag code is reserved gives -4 (log entry 53), that a host which does not answer gives -4 (log entry 124), what an unanswered step leaves (log entry
136), and the number of XTAB's pages and the order of the codes (log entry 44) are the model's choices. -/
def Obligations.TransducerEvents : Prop :=
  (∀ (s : State) lane x rest, laneQueue s lane = x :: rest → x.running = false → xMet s x = false → lane ∉ s.pkg.deadLanes → settled s x.after = true →
    let here (l : List (Int × Int)) := l.filter fun p => !s.pkg.deadPeers.contains p.1
    let dst := here (spanLines x.dst (dblAt x.words 4) (wordAt x.words 6).toNat)
    let read := here (spanLines x.src (dblAt x.words 1) (wordAt x.words 3).toNat)
    let src := (nodups (read ++ read.flatMap (headOf s))).filter fun p => !dst.contains p
    let others := (nodups (dst.flatMap fun p => (tripleLines s p.1 p.2).map fun l => (p.1, l))).filter fun p => !dst.contains p
    (∀ p ∈ src ++ dst, remoteHeld s p.1 = false) → (∀ p ∈ src, engineOwned s p.1 p.2 = false ∧ clear s p.1 p.2 false none = true) →
    (∀ p ∈ dst, (s.home.owned.find? fun o => o.pkg == p.1 && o.line == p.2).any (fun o => o.owner == .xducer x.id) = true ∧ clear s p.1 p.2 true none = true) →
    allClear s others = true → wordAt x.words 8 = -1 →
    exec (.transducerRequestStart lane) s = .next
      (let tb := tableSlot s (wordAt x.words 7).toNat
       let z := xRun (fun p => s.pkg.deadPeers.contains p) tb x (wordAt x.words 3).toNat
         ⟨src.foldl (fun s p => readHome s p.1 p.2) (s.aside (.xducer x.id)), (if wordAt x.words 9 = -1 then tb.start else (wordAt x.words 9).toNat), 0, 0, none⟩
       modQueue (s.ownedAs z.s) lane fun _ =>
         { x with running := true, offset := z.o, produced := z.t, st := z.st, outcome := z.out.getD 1 } :: rest)) ∧
  (∀ (gone : Int → Bool) (tb : TableSlot) (x : XReq) (z : XRun) v k es st, Rule.xReads gone x z v → tb.classOf v = some k → tb.next z.st k = some (es, st) →
    xStep gone tb x z =
      if (wordAt x.words 6).toNat < z.t + es.length then { z with s := (Rule.xAsked x z).1, out := some (-2) }
      else
        let ys := List.zip (upto es.length) es
        let at_ (i : Nat) : Loc := spanLoc x.dst (dblAt x.words 4) (z.t + i)
        if ys.any fun p => (match at_ p.1 with | .host view _ _ => view == -1 | .dom _ _ => false) && !inR p.2 0 255 then
          { z with s := (Rule.xAsked x z).1, out := some (-3) }
        else if ys.any fun p => Rule.lost gone (at_ p.1) then { z with s := (Rule.xAsked x z).1, out := some (-4) }
        else if (hostHears (Rule.xAsked x z).1 (ys.map fun p => at_ p.1)).1 = false then
          { z with s := (hostHears (Rule.xAsked x z).1 (ys.map fun p => at_ p.1)).2, out := some (-4) }
        else { z with s := ys.foldl (fun s p => xWrite x s (z.t + p.1) p.2) (hostHears (Rule.xAsked x z).1 (ys.map fun p => at_ p.1)).2,
                      st := st, o := z.o + 1, t := z.t + es.length }) ∧
  (∀ (s : State) (ls : List Loc), (∀ l ∈ ls, l.isHost = false) → hostHears s ls = (true, s)) ∧
  (∀ (s : State) (l : Loc), l.isHost = true → hostHears s [l] = (Config.hostAnswers s.fresh, { s with fresh := s.fresh + 1 })) ∧
  (∀ (gone : Int → Bool) (tb : TableSlot) (x : XReq) (z : XRun) v, Rule.xReads gone x z v → (∀ k, tb.classOf v = some k → tb.next z.st k = none) →
    xStep gone tb x z = { z with s := (Rule.xAsked x z).1, out := some (-1) }) ∧
  (∀ (gone : Int → Bool) (tb : TableSlot) (x : XReq) (z : XRun), (∀ v, ¬ Rule.xReads gone x z v) → xStep gone tb x z = { z with s := (Rule.xAsked x z).1, out := some (-4) }) ∧
  (∀ (s : State) lane x rest g, laneQueue s lane = x :: rest → x.running = true → s.gang? x.gid = some g → g.killed = false → s.tbMet g.gid = false → wordAt x.words 8 = -1 →
    exec (.transducerRequestEnd lane) s = .next (putWords (modQueue
        ({ s with home := { s.home with owned := s.home.owned.filter fun o => o.owner != .xducer x.id } } : State) lane fun q => q.filter fun y => y.id != x.id)
      (g.cores.headD 0) g.ctx g.gid (x.addr + 30) [x.outcome * pow3 24 + x.offset * pow3 12 + x.st, x.produced])) ∧
  (∀ (s : State) slot wid n a gd l locs, xtabOf s slot = some (wid, n, a, gd, l :: locs) →
    let s1 := readImage s (l :: locs) a 0 1
    let len := imageTrytes (headerStates s1 l)
    let own := spanLines (l :: locs) a len.toNat
    (∀ p ∈ (if l.isHost then [] else l.pkgLine :: headOf s l.pkgLine) ++ own ++ own.flatMap (headOf s), Rule.readableNow s p) →
    (pageStarts a len).length ≤ (l :: locs).length →
    let s2 := readImage s1 (l :: locs) a 1 (len / 81 - 1).toNat
    exec (.tableLoadComplete slot) s = .next
      (match loadTable s2.mem (tableSlot s slot) (l :: locs) a with
       | .ok t => endPend ((setSlot s2 t).modWarp wid fun w => w.setG gd 0) wid n
       | .error e => endPend ((setSlot s2 { tableSlot s slot with st := .empty }).modWarp wid fun w => w.setG gd e) wid n)) ∧
  (∀ (s : State) locs a first n, readImage s locs a first n = (upto n).foldl (fun s i =>
    let l := spanLoc locs a (81 * (first + i))
    if l.isHost then hostActs s l else readHome s l.pkgLine.1 l.pkgLine.2) s) ∧
  (∀ (m : Memory) t locs a u, loadTable m t locs a = .ok u → u.st = .loaded ∧ u.t = t.t ∧ 1 ≤ u.states ∧ u.states ≤ 729 ∧ 1 ≤ u.classes ∧ u.classes ≤ 81 ∧
    u.start < u.states)

/-! ## Events: the lives of warps, gangs, launches and contexts -/

/-- The oldest ROLE of a bay is granted once the pool can supply it, and what it then changes; a warp without held TASKFs retires once its lanes have
ended and its accesses are performed; a gang with no warp, task, binding, bound window or access under way ends; a launch that is done ends: its word,
its barrier, its journal entry and channels; the next gang is placed on the cores it fits, with the registers of its warps; a held gang starts at its
time; a head gang starves; a launch that passes its deadline is noted, and raised to class 4 when its record says so (R71, R93, R173, R266, R267, R269,
R270, R368). -/
def Obligations.WarpsGangsAndLaunchesLive : Prop :=
  (∀ (s : State) wid w b n a c e rest, s.warp? wid = some w → w.bay? = some b → rolesIn s b = (n, wid, a, c, e) :: rest →
    bayUsed s b.1 b.2 + a ≤ 243 + w.allot → exec (.roleGrant wid) s = .next (endPend (s.modWarp wid fun w => w.applyRole a c e) wid n)) ∧
  (∀ (w : Warp) a c e l, w.lanes.length = 27 → l < 27 → (w.applyRole a c e).allot = a ∧ (w.applyRole a c e).cls = c ∧
    ((w.lane l).live = true → ((w.applyRole a c e).lane l).pc = e ∧ ((w.applyRole a c e).lane l).depth = 0) ∧
    ∀ n, n < 81 → (w.applyRole a c e).vreg l n = if n < a then w.vreg l n else 0) ∧
  (∀ (s : State) wid w, s.warp? wid = some w → w.handler = false → w.place ≠ .saved → (∀ l, l < 27 → (w.lane l).live = false) →
    performed s wid = true → loadsOut s wid = false → w.taskfs = [] →
    exec (.warpRetire wid) s = .next (
      let ts := (s.warps.filter fun x => x.wid == wid).flatMap Warp.tableLoads
      { s with warps := s.warps.filter (fun x => x.wid != wid), ops := s.ops.filter (fun o => o.wid != wid),
               xd := { s.xd with slots := s.xd.slots.map fun t => if ts.contains t.t && t.st == .loading then { t with st := .empty } else t } })) ∧
  (∀ (s : State) gid g, s.gang? gid = some g → (∀ w ∈ s.warps, w.gid ≠ some gid) → g.killed = false → g.tasks = [] → (∀ o ∈ g.wins, o = none) →
    gangBinds s gid = [] → gangBusy s gid = false → exec (.gangEnd gid) s = .next
      ((clearWatch { s with gangs := s.gangs.filter fun x => x.gid != gid } fun u => u.gid == some gid && u.scope != 1).modLaunch g.lid fun x =>
        { x with gangEnds := x.gangEnds + 1, table := x.table.filter fun e => !(e.1 == g.x && e.2.1 == g.y && e.2.2.1 == g.z) })) ∧
  (∀ (s : State) lid x, s.launch? lid = some x → launchDone s x = true → exec (.launchEnd lid) s = .next
    (let s1 := completionArrive (cwUpdate s x (some 2) []) x
     clearWatch { s1 with
       journal := s1.journal.filter (fun j => !(j.paddock == x.paddock && j.seq == x.seq)), launches := s1.launches.filter (fun y => y.lid != lid),
       chans := s1.chans.filter fun c => c.lid != some lid } fun u => u.scope == 1 && u.lid == some lid)) ∧
  (∀ (s : State) pad pl w cores, s.pkg.st = 1 → (s.paddock pad).pausing = false → pairMove s = none → nextGang s pad = some (w, cores) →
    placingOk s (recNeeds w.1.words) cores pl = true → exec (.gangPlacement pad pl) s = .next (placeGang s w cores pl)) ∧
  (∀ (s : State) x c count cores pl, ∃ g, g ∈ (startGang s x c count cores pl).gangs ∧ g.gid = s.nextId ∧ (g.x, g.y, g.z) = c ∧ g.cores = cores ∧
    g.lid = x.lid ∧ g.scratch = [] ∧ (startGang s x c count cores pl).warps = s.warps ++ (List.zip (upto pl.length) pl).map fun p =>
      newWarp (s.nextId + 1 + p.1) (some s.nextId) x.ctx p.1 (.slot p.2.1 p.2.2.1 p.2.2.2) x.cls (recLevel x.words) (recRegs x.words) (recEntry x.words)
        (launchRegs x.words)) ∧
  (∀ wid gid ctx num place cls lvl allot entry r l n, l < 27 →
    let w := newWarp wid gid ctx num place cls lvl allot entry (launchRegs r)
    w.greg 0 = lowWord (wordAt r 6) ∧ w.greg 1 = lowWord (wordAt r 7) ∧ w.greg 2 = lowWord (wordAt r 5) ∧ w.greg 3 = lowWord (wordAt r 8) ∧ w.greg (4 + n) = 0 ∧ w.vreg l n = 0 ∧
    w.preg l (n + 1) = 0 ∧ w.qreg (n + 1) = 0 ∧ (w.lane l).pc = entry ∧ (w.lane l).live = true ∧ (w.lane l).depth = 0 ∧ w.handler = false) ∧
  (∀ (s : State) gid g, s.gang? gid = some g → g.held = true → g.start ≤ s.now →
    exec (.gangStart gid) s = .next (s.modGang gid fun g => { g with held := false })) ∧
  (∀ (s : State) pad x c a, (s.paddock pad).starved = false → starving s pad = some (x, c, a) →
    exec (.headGangStarvation pad) s = .next ((s.note (some x.ctx) .headStarved [x.seq]).modPaddock pad fun d => { d with starved := true })) ∧
  (∀ (s : State) lid x, s.launch? lid = some x → recDeadline x.words ≠ 0 → recDeadline x.words ≤ s.now → x.missed = false → launchDone s x = false →
    recRaise x.words = false → exec (.deadlineMiss lid) s = .next (((cwUpdate s x none [17]).note (some x.ctx) .deadline [x.seq]).modLaunch lid fun x =>
      { x with missed := true, raised := false })) ∧
  (∀ (s : State) lid x, s.launch? lid = some x → recDeadline x.words ≠ 0 → recDeadline x.words ≤ s.now → x.missed = false → launchDone s x = false →
    recRaise x.words = true → exec (.deadlineMiss lid) s = .next (
      let s1 := ((cwUpdate s x none [17, 16]).note (some x.ctx) .deadline [x.seq]).modLaunch lid fun x => { x with missed := true, raised := true, cls := 4 }
      { s1 with warps := s1.warps.map fun w => if (w.gid.bind s.gang?).any (fun g => g.lid == lid) then { w with cls := 4 } else w }))

/-- A time slice that ends while another context is runnable sends a pre-emption request for the running one (none of whose gangs is held); a context is
switched into an empty paddock when its channels fit, and a first switch starts its sequencer; a completed wake barrier readies a saved sequencer; a due
request sets the deadline of the warps it names; a warp is saved in full at its deadline; a warp with nothing to issue again is saved as it stands; a
saved gang is restored on cores that hold it; a due WATCH trap is taken; a due halt reaches the launch's other gangs, and a due resume all of it,
when none of its warps is stepped (R272, R285, R288, R289, R297, R298, R308, R310). That a launch's halt and resume reach its saved warps (log entry 67),
the cores that a restore takes and its place among the gangs placed (log entry 66) are the model's choices. -/
def Obligations.ContextsAndSavedWarps : Prop :=
  (∀ (s : State) pad ctx, (s.paddock pad).running = some ctx → (s.paddock pad).pausing = false → 2 ≤ runnables s pad →
    (s.paddock pad).sliceStart + sliceOf s ctx ≤ s.now → (∀ g ∈ s.gangs, g.ctx = ctx → g.held = false) →
    exec (.timeSliceEnd pad) s = .next (({ s with preempts := s.preempts ++ [⟨s.now + 81, pad, (s.warps.filter fun w => w.ctx == ctx && w.place != .saved).map (fun w => w.wid),
      wordAt (s.descOf ctx) 9⟩] } : State).modPaddock pad fun d => { d with pausing := true })) ∧
  (∀ (s : State) pad c, nextContext s pad = some c → (s.paddock pad).running = none → chansUsed (switchIn s pad c) ≤ 72 →
    (∀ wid w, c.seqWid = some wid → s.warp? wid = some w → w.debugging = false) →
    exec (.contextSwitchIn pad) s = .next (switchIn s pad c)) ∧
  (∀ (s : State) pad c, pad ∉ s.pkg.deadSeqs → c.seqWid = none → (∀ w ∈ s.warps, w.wid ≠ s.nextId) → ∃ w, (switchIn s pad c).warp? s.nextId = some w ∧
    w.place = .seq pad ∧ w.ctx = c.ctx ∧ w.level = (if pad = 0 then 1 else 0) ∧ w.greg 0 = lowWord (wordAt c.words 21) ∧ w.greg 1 = lowWord (wordAt c.words 22) ∧
    ∀ l, l < 27 → (w.lane l).pc = dblAt c.words 19) ∧
  (∀ (s : State) ctx c wid w, s.context? ctx = some c → c.seqWid = some wid → s.warp? wid = some w → c.woken = true → w.place = .saved →
    exec (.sequencerWake ctx) s = .next (s.modContext ctx fun c => { c with woken := false, seqReady := true })) ∧
  (∀ (s : State) pad p, s.preempts = [p] → p.paddock = pad → p.at_ ≤ s.now → exec (.preemptionRequest pad) s = .next { s with
    preempts := [], warps := s.warps.map fun w => if w.wid ∈ p.wids ∧ w.place ≠ .saved then { w with deadline := some (p.at_ + p.budget) } else w }) ∧
  (∀ (s : State) wid w d, s.warp? wid = some w → w.deadline = some d → d ≤ s.now → w.place ≠ .saved → savable s w = true →
    exec (.preemptionDeadline wid) s = .next (saveGangs (saveWarp s wid none))) ∧
  (∀ (s : State) wid w gid, s.warp? wid = some w → w.gid = some gid → (∀ p ∈ w.pends, p.op.atWord = false) → w.lanes.length = 27 →
    saveWarp s wid none = ((s.modWarp wid fun w => { w with place := .saved, deadline := none, park := none, hold := none, blocked := none }).modGang gid
      fun g => { g with full := true })) ∧
  (∀ (s : State) gid g pl cores, s.gang? gid = some g → g.saved = true → s.pkg.st = 1 → ctxRuns s g = true → (gangWarps s gid).any Warp.debugging = false →
    (restoreCores s g).find? (fun cs => restoreOk s cs (gangWarps s gid) pl) = some cores → (∀ n ∈ cores, (s.core n).symbols = []) →
    exec (.gangRestore gid pl) s = .next (
      let s1 : State := { s with nextId := s.nextId + 1, fresh := s.fresh + 1, warps := s.warps.map fun w =>
        match (List.zip (gangWarps s gid) pl).find? fun p => p.1.wid == w.wid with
        | some p => { w with place := .slot p.2.1 p.2.2.1 p.2.2.2, code := [] }
        | none => w }
      let sc := setCarve s1 g.ctx cores
      let ph := gangPhys sc cores g.alines
      g.tasks.foldl (fun s t => ownTask s gid t) (sc.modGang gid fun g => { g with
        phys := ph, saved := false, full := false, ranges := [], barcSince := none, placedAt := s.nextId, cores := cores,
        slots := g.slots.map fun x => { x with core := x.core.map fun c => cores.getD (if c = 901 then 1 else 0) 0 } }))) ∧
  (∀ (s : State) wid w t, s.warp? wid = some w → w.handler = false → w.watchTraps.find? (fun t => t.all fun p => (w.lane p.1).halted.isNone) = some t →
    freeToIssue s w = true → issuedNow s w = false →
    exec (.watchTrapDelivery wid) s = .next ((s.modWarp wid fun w => { w with watchTraps := w.watchTraps.erase t }).enterTrap wid ⟨cause.watch, t⟩)) ∧
  (∀ (s : State) lid x t h but, s.launch? lid = some x → x.signals = [⟨t, some h, but⟩] → t ≤ s.now → exec (.launchHaltSignal lid) s = .next
    (({ s with warps := s.warps.map fun w => if ofLaunch s lid w = true ∧ w.gid ≠ but then w.haltAll h.spread else w } : State).modLaunch lid fun _ =>
      { x with signals := [] })) ∧
  (∀ (s : State) lid x t but, s.launch? lid = some x → x.signals = [⟨t, none, but⟩] → t ≤ s.now →
    (∀ w ∈ s.warps, ofLaunch s lid w = true → stepped s w.wid = false) → exec (.hresLaunchSignal lid) s = .next
    (({ s with warps := s.warps.map fun w => if ofLaunch s lid w = true then w.unhalt else w } : State).modLaunch lid fun _ => { x with signals := [] }))

/-! ## Events: failures, resets, power, peers -/

/-- A link that stands (R13, R16). -/
def Rule.stands (s : State) (l : LinkId) : Prop := linkOk l = true ∧ l ∉ s.pkg.deadLinks

/-- A link whose loss isolates no core and no C-die (R22). -/
def Rule.plainLink (s : State) (l : LinkId) : Prop :=
  let s1 := s.modPkg fun p => { p with deadLinks := p.deadLinks ++ [l] }
  if l.kind = -1 then ∀ d, d < 12 → dieIsolated s1 d = false else ∀ c, isolated s1 c = false

/-- A core fence kills the gangs of the core, clears the core's own contents and takes its pair from every paddock, and so does a GTIME mismatch; a C-die
takes its 64 cores; a third failed bank fences its core; a lost watch record clears its unit and is held; an error, or an audit for sequencer 0 to take,
fences a standing link; a slice without window copies or requests loses its unreadable dirty lines and the pages of its open rounds; lost lines are
uncorrectable and their data stands; a pseudo-channel loses lines among those that stand in it, and their slices hold none of them; a transducer lane ends its request with -4; M-die 0 stops the package, another
takes its slices, transducer and scale-out lanes and sequencers, its journal copies, and its paddocks' launches resume; a clock fault raises UNCOR to each context's sequencer
and stops the package (R14, R20, R22, R158, R188, R224, R255, R290 to R294). The pages of a slice fence's rounds and the lines of a moved
pseudo-channel (log entry 69), the lines of a lost M-die and which lanes are its (log entry 70), the launches that a lost M-die resumes (log entry 110)
and the clock fault's log line and handler (log entry 111) are the model's choices. -/
def Obligations.UnitsFailAndAreFenced : Prop :=
  (∀ (s : State) core gid g, s.coreLive core = true → s.gang? gid = some g → core ∈ g.cores → g.saved = false → g.killed = false →
    ∃ t g', exec (.coreFence core) s = .next t ∧ core ∈ t.pkg.deadCores ∧ t.gang? gid = some g' ∧ g'.killed = true ∧ ∀ w ∈ t.warps, w.gid ≠ some gid) ∧
  (∀ (s : State) core, s.coreLive core = true → (∀ g ∈ s.gangs, core ∉ g.cores) → (∀ w ∈ s.warps, w.pends = []) → s.pkg.dwin = [] →
    let t := (({ s with paddocks := s.paddocks.map fun d => { d with pairs := d.pairs.filter fun q => q != core / 2 } } : State).modPkg
      fun p => { p with deadCores := p.deadCores ++ [core] }).modCore core fun c => { Core.empty core with banks := c.banks, corrected := c.corrected }
    exec (.coreFence core) s = .next t ∧ exec (.gtimeMismatch core) s = .next t) ∧
  (∀ (s : State) die, die < 12 → exec (.cDieFailure die) s = .next ((upto 64).foldl (fun s i => fenceCore s (64 * die + i)) s)) ∧
  (∀ (s : State) core bank, core < 768 → bank < 27 → bank ∉ (s.core core).banks → (s.core core).banks.length < 2 → exec (.scratchpadBankFailure core bank) s =
    .next ((noteRows (s.modCore core fun c => { c with banks := c.banks ++ [bank] }) core).note none .bankFailed [core, bank])) ∧
  (∀ (s : State) core bank, core < 768 → bank < 27 → bank ∉ (s.core core).banks → 2 ≤ (s.core core).banks.length → exec (.scratchpadBankFailure core bank) s =
    .next (fenceCore ((noteRows (s.modCore core fun c => { c with banks := c.banks ++ [bank] }) core).note none .bankFailed [core, bank]) core)) ∧
  (∀ (s : State) core unit u, (s.core core).watch.find? (fun u => u.unit == unit) = some u → exec (.watchRecordError core unit) s =
    .next (s.modCore core fun c => { c with watch := c.watch.filter fun x => x.unit != unit, errs := c.errs ++ [u] })) ∧
  (∀ (s : State) l, Rule.stands s l → exec (.linkError l) s = .next (fenceLink s l)) ∧
  (∀ (s : State) l, Rule.plainLink s l → fenceLink s l = s.modPkg fun p => { p with deadLinks := p.deadLinks ++ [l] }) ∧
  (∀ (s : State) l wid, Rule.stands s l → s.now % 19683 = 0 → seqZero (fenceLink s l) = some wid → exec (.permitAudit [l]) s =
    .next ((fenceLink s l).modWarp wid fun w => { w with permits := w.permits ++ [linkWord l] })) ∧
  (∀ (s : State) slice readable, slice < 256 → slice ∉ s.pkg.deadSlices →
    let homed (p : Int × Int) : Bool := p.1 == s.pkg.number && homeSlice s p.2 == slice
    copiesAt s homed = [] → (∀ r ∈ s.reqs, homed (r.pkg, r.line) = false) →
    exec (.sliceFence slice readable) s = .next ((poisonFrames (loseLines { s with home := { s.home with
        held := s.home.held.filter (fun h => !homed (h.pkg, h.line)), rounds := s.home.rounds.filter (fun r => !homed (r.pkg, r.addr / 81)),
        mcasts := s.home.mcasts.filter fun e => !homed (e.pkg, e.line) } } s.pkg.number
      ((s.home.held.filter fun h => homed (h.pkg, h.line) && h.dirty && !readable.contains h.line.toNat).map fun h => h.line)) s.pkg.number
      ((s.home.rounds.filter fun r => homed (r.pkg, r.addr / 81)).map fun r => r.addr / 19683)).modPkg
        fun p => { p with deadSlices := p.deadSlices ++ [slice] })) ∧
  (∀ (s : State) pkg ls l a n, l ∈ ls → (loseLines s pkg ls).mem.bad pkg l = true ∧ (loseLines s pkg ls).mem.read pkg a n = s.mem.read pkg a n) ∧
  (∀ (s : State) slice pc (lost : List Nat), slice < 256 → pc < 4 → 4 * slice + pc ∉ s.pkg.deadPcs →
    let mine (l : Int) : Bool := decide (0 ≤ l ∧ l < Config.memoryLines) && standsIn s l == slice && lineChannel l == pc
    (∀ r ∈ s.reqs, r.pkg = s.pkg.number → mine r.line = false) → exec (.pseudoChannelFence slice pc lost) s =
    .next ((loseLines { s with home := { s.home with
        held := s.home.held.filter (fun h => !(h.pkg == s.pkg.number && mine h.line)),
        mcasts := s.home.mcasts.filter fun e => !(e.pkg == s.pkg.number && mine e.line) } } s.pkg.number ((lost.map fun (l : Nat) => (l : Int)).filter mine)).modPkg fun p => { p with deadPcs := p.deadPcs ++ [4 * slice + pc] })) ∧
  (∀ (s : State) l, s.pkg.deadPcs = [] → standsIn s l = (l % 256).toNat) ∧
  (∀ (s : State) lane x, lane < 64 → lane ∉ s.pkg.deadLanes → laneQueue s lane = [x] → exec (.transducerLaneFence lane) s =
    .next (endXReq (s.modPkg fun p => { p with deadLanes := p.deadLanes ++ [lane] }) lane { x with outcome := -4 })) ∧
  (∀ (s : State), 0 ∉ s.pkg.deadDies → exec (.mDieFailure 0) s = .next (s.modPkg fun p => { p with st := 2, deadDies := p.deadDies ++ [0] })) ∧
  (∀ (s : State) die, 1 ≤ die → die < 4 → die ∉ s.pkg.deadDies → exec (.mDieFailure die) s = .next
    (let s1 := (upto 64).foldl (fun s i => fenceSlice s (64 * die + i) []) s
     let s2 := (upto 16).foldl (fun s i => fenceLane s (16 * die + i)) s1
     let s3 := dropWarps s2 fun w => match w.place with | .seq q => (dieSeqs die).contains q | _ => false
     let keep (j : JEntry) : Option JEntry := if (j.dies.filter fun x => x != die) = [] then none else some { j with dies := j.dies.filter fun x => x != die }
     let s4 := (upto 8).foldl (fun s i => laneDown s (8 * die + i)) s3
     (resumeDie { s4 with journal := s3.journal.filterMap keep, mem := { s3.mem with lost := s3.mem.lost ++ [(s3.pkg.number, die)] } } die).modPkg
       fun p => { p with deadDies := p.deadDies ++ [die], deadSeqs := p.deadSeqs ++ dieSeqs die })) ∧
  (∀ (s : State) die gs, (s.gangs.filter fun g => !g.killed && (s.launch? g.lid).any fun x => (dieSeqs die).contains x.paddock) = gs →
    resumeDie s die = gs.foldl (fun s g => killGang s g.gid none none) s) ∧
  (∀ (s : State), exec .referenceClockFault s = .next ((s.ctxs.foldl (fun (s : State) c =>
    let s1 := s.note (some c.ctx) .clock []
    match c.seqWid.bind s1.warp? with
    | some w => s1.enterTrap w.wid ⟨cause.uncor, listed w.issuers 0 0⟩
    | none => s1) s).modPkg fun p => { p with st := 2 }))

/-- A power-on reset clears every agent and the package's memory, and starts with the state its boot gives; a boot accepts five sound images or refuses
with a detail from 1 to 19; a warm reset with no dirty slice line keeps memory, boundary and journals, poisons the lines that fail their check, and
numbers on above what was used; power loss clears memory and journals and stops the package; a grant posting within its limits is 16 words, 9 cycles
apart, each applied from its cycle on (R265, R293, R335, R337, R338). What a power-on reset keeps and clears (log entries 12 and 71) and how launches are
numbered after a warm reset (log entry 127) are the model's choices. -/
def Obligations.ResetsAndPower : Prop :=
  (∀ (s : State) images, ∃ t, exec (.powerOnReset images) s = .next t ∧ t.warps = [] ∧ t.gangs = [] ∧ t.launches = [] ∧ t.ctxs = [] ∧ t.journal = [] ∧
    t.reqs = [] ∧ t.pkg.gtime = 0 ∧ t.pkg.deadCores = [] ∧ t.pkg.number = s.pkg.number ∧ 1 ≤ t.pkg.boundary ∧ t.pkg.boundary ≤ Config.memoryLines ∧
    (bootFails s.pkg.security images = none → t.pkg.st = 0) ∧ (bootFails s.pkg.security images ≠ none → t.pkg.st = -1 ∧ 1 ≤ t.pkg.detail ∧ t.pkg.detail ≤ 19) ∧
    ∀ a, 0 ≤ a → a < 2541865828329 → t.mem.read s.pkg.number a 1 = 0) ∧
  (∀ fused images, bootFails fused images = none ↔ ∀ i, i < 5 → (bootImage images i).signed = true ∧ (bootImage images i).keyMatches = true ∧
    fused ≤ ((bootImage images i).version : Int)) ∧
  (∀ (s : State) images bad, (∀ h ∈ s.home.held, h.dirty = false) → (∀ r ∈ s.reqs, ∀ d, r.body ≠ .evict d) → ∃ t, exec (.warmReset images bad) s = .next t ∧ t.warps = [] ∧ t.gangs = [] ∧
    t.launches = [] ∧ t.ctxs = [] ∧ t.journal = s.journal ∧ t.pkg.boundary = s.pkg.boundary ∧ t.pkg.gtime = 0 ∧ t.mem.data = s.mem.data ∧ t.mem.tags = s.mem.tags ∧
    t.mem.host = s.mem.host ∧ (∀ l : Nat, l ∈ bad → l < Config.memoryLines → t.mem.bad s.pkg.number l = true) ∧
    ∀ n, n < 27 → (s.paddock n).nextSeq ≠ 0 → (s.paddock n).nextSeq ≤ (t.paddock n).nextSeq ∧ ∀ j ∈ journalOf s n, j.seq < (t.paddock n).nextSeq) ∧
  (∀ (s : State), ∃ t, exec .powerLoss s = .next t ∧ t.pkg.st = 2 ∧ t.warps = [] ∧ t.launches = [] ∧ t.journal = [] ∧
    ∀ a, 0 ≤ a → a < 2541865828329 → t.mem.read s.pkg.number a 1 = 0) ∧
  (∀ (s : State) duties, s.now % 72900 = 0 → granting s = false → duties.length = 16 → (∀ d, d < 16 → grantOk s d (duties.getD d 0) = true) →
    ∃ t, exec (.powerGrant duties) s = .next t ∧ t.pkg.grants.length = 16 ∧ ∀ d, d < 16 → t.pkg.grants[d]? = some ⟨grantWord d (duties.getD d 0), s.now + 9 * (d : Int) + 81⟩) ∧
  (∀ (die duty : Nat) (t : Int), die < 16 → duty ≤ 729 → (⟨grantWord die duty, t⟩ : Grant).die = die ∧ (⟨grantWord die duty, t⟩ : Grant).duty = duty) ∧
  (∀ (s : State) die g, s.pkg.grants = [g] → g.die = die → g.at_ ≤ s.now → ∃ t, exec (.grantApply die) s = .next t ∧ dutyOf t die = g.duty ∧ t.pkg.grants = [] ∧
    ∀ d, d ≠ die → dutyOf t d = dutyOf s d)

/-- A remote store or load that has had no answer for 2,700,000 cycles, and is not held for a new route, ends: the store is discarded with an event, the
load's lanes get UNCOR, and the peer has failed; a failed peer, and a lane that goes down, start new routes, and the last lane fails every peer; with
new routes traffic goes on, and held time counts for no time-out; a package with another's number has its lanes down and shows detail 20; a fence's
host read may end in a completion timeout (R331, R332, R334, R383). That held time starts again with the new routes, that a peer fails at once, and that the
last lane's loss fails every peer are the model's choices (log entry 72). -/
def Obligations.PeersAndTimeouts : Prop :=
  (∀ (s : State) id r us, s.req? id = some r → r.body = .store us → r.pkg ≠ s.pkg.number → -364 ≤ r.pkg → r.pkg ≤ 364 → 2700000 ≤ s.now - r.sent →
    r.pkg ∉ s.pkg.deadPeers → s.pkg.rerouting = false → exec (.remoteRequestTimeout id) s = .next (((s.note (some r.ctx) .remoteTimeout [r.pkg, r.line]).delReq r.id).modPkg
      fun p => { p with deadPeers := p.deadPeers ++ [r.pkg], rerouting := true })) ∧
  (∀ (s : State) id r op items o, s.req? id = some r → r.body = .read op items → r.pkg ≠ s.pkg.number → -364 ≤ r.pkg → r.pkg ≤ 364 → 2700000 ≤ s.now - r.sent →
    (s.pkg.rerouting = true → r.pkg ∈ s.pkg.deadPeers) → s.op? op = some o → (∀ i ∈ items, ∃ x, o.lanes[i]? = some x ∧ x.got = .waiting) → ∃ t o', exec (.remoteRequestTimeout id) s = .next t ∧ t.op? op = some o' ∧
      ∀ i ∈ items, ∃ x a, o'.lanes[i]? = some x ∧ x.got = .uncor a) ∧
  (∀ (s : State) p, p ≠ s.pkg.number → -364 ≤ p → p ≤ 364 → p ∉ s.pkg.deadPeers →
    exec (.peerFailure p) s = .next (s.modPkg fun k => { k with deadPeers := k.deadPeers ++ [p], rerouting := true })) ∧
  (∀ (s : State) lane, lane < 32 → lane ∉ s.pkg.scaleDown →
    let s1 := s.modPkg fun k => { k with scaleDown := k.scaleDown ++ [lane], rerouting := true }
    exec (.scaleOutLinkFault lane) s = .next (if s.pkg.scaleDown.length < 31 then s1 else
      (((upto 729).map fun (i : Nat) => (i : Int) - 364).filter fun p => p != s.pkg.number).foldl failPeer s1)) ∧
  (∀ (s : State), exec .routesRecomputed s = .next (({ s with reqs := s.reqs.map fun r =>
      if s.pkg.rerouting = true ∧ r.pkg ≠ s.pkg.number ∧ r.pkg ≠ 999 ∧ r.pkg ∉ s.pkg.deadPeers then { r with sent := s.now } else r } : State).modPkg
    fun k => { k with rerouting := false })) ∧
  (∀ (s : State), (s.pkg.st = 0 ∨ s.pkg.st = 1) → exec .duplicatePackageNumber s = .next (s.modPkg fun k => { k with detail := 20, scaleDown := upto 32 })) ∧
  (∀ (s : State) wid w f, s.warp? wid = some w → w.fence = some f → f.host = true → exec (.completionTimeout wid) s =
    .next ((s.modWarp wid fun w => { w with fence := some { f with host := false } }).note (some w.ctx) .completionTimeout [w.address 0]))

/-- Commands of paddock 0's running context as they take effect: an invalidation that nothing delays drops what it names, and no TLB entry of the range
stands after it; an ATS invalidation is noted, with what it awaits; pins of a key are released; a round is discarded; a launch's channel stands as
granted, its last completion alone kept (log entry 141); a context is bound, at the end of the bind order when it is new; limits are set; a context without launches is unbound, with its sequencer
(R150, R151, R168, R188, R216, R258, R264, R271). -/
def Obligations.CommandsTakeEffect : Prop :=
  (∀ (s : State) half first count desc c k, (s.paddock 0).running = some k → (half = 1 ∨ half = -1) → 1 ≤ count → -maxv 54 ≤ first → first ≤ maxv 54 →
    -maxv 54 ≤ desc → desc ≤ maxv 54 → ctxOfDesc s desc = some c → invalAwaits s c.ctx half first count = [] →
    exec (.translationInvalidation half first count desc) s = .next (invalidate s c.ctx half first count)) ∧
  (∀ (s : State) ctx half first count, invalAwaits s ctx half first count = [] → exec (.atsInvalidation ctx half first count) s =
    .next { invalidate s ctx half first count with invals := (invalidate s ctx half first count).invals ++ [⟨ctx, half, first, count, [], true⟩] }) ∧
  (∀ (s : State) ctx half first count ws, invalAwaits s ctx half first count = ws → ws ≠ [] → exec (.atsInvalidation ctx half first count) s =
    .next { dropTlb s ctx half first count with invals := s.invals ++ [⟨ctx, half, first, count, ws, false⟩] }) ∧
  (∀ (s : State) ctx half first count n, ∀ t ∈ ((invalidate s ctx half first count).core n).tlb, t ∈ (s.core n).tlb ∧
    ¬(t.ctx = ctx ∧ t.half = half ∧ t.page * pow3 (6 * t.level) - maxv (6 * t.level) < first + count ∧ first ≤ t.page * pow3 (6 * t.level) + maxv (6 * t.level))) ∧
  (∀ (s : State) ctx key, ∃ t, exec (.pinRelease ctx key) s = .next t ∧ (∀ h ∈ t.home.held, h.pin ≠ some (ctx, key)) ∧
    t.home.held.length = s.home.held.length ∧ t.mem = s.mem ∧ t.warps = s.warps) ∧
  (∀ (s : State) ctx addr tag s1 p x, -maxv 54 ≤ addr → addr ≤ maxv 54 → addr % 3 = 0 → checkAddr s 768 ctx true Need.rmw true addr = (s1, .ok (.dom p x)) →
    (checkAddr s1 768 ctx true Need.rmw true addr).2 = .ok (.dom p x) →
    exec (.roundDiscard ctx addr tag) s = .next { s1 with home := { s1.home with
      rounds := s1.home.rounds.filter fun q => !(q.pkg == p && q.addr == x && q.tag == tag) } }) ∧
  (∀ (s : State) pad seq (k : Nat) x ch ctx, (s.paddock 0).running = some ctx → launchOfSeq s pad seq = some x → x.chans[k]? = some ch →
    exec (.channelReset pad seq k) s = .next (s.modChan ch fun c => { Channel.grant ch (some x.lid) k (wordAt x.descs k) with lastTc := c.lastTc })) ∧
  (∀ (s : State) pad desc ctx s1 d s2 d2, (s.paddock 0).running = some ctx → pad ≤ 26 → -maxv 54 ≤ desc → desc ≤ maxv 54 → readDesc s 768 ctx desc = (s1, some d) →
    descOk pad d = true → readDesc s1 768 ctx desc = (s2, some d2) → exec (.contextBind pad desc) s = .next (bindContext s2 pad desc d2)) ∧
  (∀ (s : State) pad desc d, (s.ctxs.find? fun c => c.paddock == pad && c.desc == desc) = none → pad ≠ 0 → (∀ e ∈ s.journal, e.paddock ≠ pad) →
    bindContext s pad desc d = { s with ctxs := s.ctxs ++ [⟨s.nextId, desc, d, pad, none, false, false⟩], nextId := s.nextId + 1 }) ∧
  (∀ (s : State) pad (lo hi : Nat) ctx, (s.paddock 0).running = some ctx → pad ≤ 26 → lo ≤ hi → hi ≤ 384 → limitsOk s pad lo = true →
    exec (.paddockLimits pad lo hi) s = .next (s.modPaddock pad fun d => { d with min := lo, max := hi })) ∧
  (∀ (s : State) (pad : Nat) desc c ctx, (s.paddock 0).running = some ctx → pad ≤ 26 → -maxv 54 ≤ desc → desc ≤ maxv 54 →
    (s.ctxs.find? fun c => (c.paddock : Int) == (pad : Int) && c.desc == desc) = some c → (∀ x ∈ s.launches, x.ctx ≠ c.ctx) →
    exec (.contextUnbind pad desc) s = .next (unbindContext s c) ∧ (∀ c' ∈ (unbindContext s c).ctxs, c'.ctx ≠ c.ctx) ∧
      ∀ w ∈ (unbindContext s c).warps, w.gid = none → w.ctx ≠ c.ctx)

/-! ## Events: the host -/

/-- The mailbox is idle (R330). -/
def Rule.mailboxIdle (s : State) : Prop := wordAt s.pkg.mailbox 26 ≠ 1

/-- Operands staged in the mailbox and its word 26 at +1; then the answer in word 26 (R330). -/
def Rule.staged (s : State) (ws : List Int) : State := s.modPkg fun p => { p with mailbox := (ws ++ List.replicate (26 - ws.length) 0) ++ [1] }
def Rule.answered (s : State) (a : Int) : State := s.modPkg fun p => { p with mailbox := p.mailbox.set 26 a }

/-- The window's words that ask for an operation: op, m, A words, B, C and I of its instruction (R311). -/
inductive Rule.WindowOp : Instr → Int → Int → Int → Int → Int → Int → Int → Int → DbgOp → Prop
  | halt (b sc : Int) : -1 ≤ sc → sc ≤ 2 → WindowOp (.debugHalt b sc) 0 (81 * sc) 0 0 0 b 0 0 (.halt sc)
  | wset (a0 a1 a2 b c u : Int) : 0 ≤ u → u ≤ 26 → WindowOp (.debugWset a0 a1 a2 b c u) 7 0 a0 a1 a2 b c u (.wset [a0, a1, a2] c u.toNat)
  | wclr (b u : Int) : 0 ≤ u → u ≤ 26 → WindowOp (.debugWclr b u) 8 0 0 0 0 b 0 u (.wclr u.toNat)
  | wrd (b u : Int) : 0 ≤ u → u ≤ 26 → WindowOp (.debugWrd b u) 9 0 0 0 0 b 0 u (.wrd u.toNat)
  | hlst (b : Int) : WindowOp (.debugHlst b) 10 0 0 0 0 b 0 0 .hlst
  | hrdv (b : Int) (k : Nat) : k ≤ 80 ∨ (100 ≤ k ∧ k ≤ 108) ∨ (200 ≤ k ∧ k ≤ 202) ∨ k = 300 ∨ (400 ≤ k ∧ k ≤ 426) ∨ (500 ≤ k ∧ k ≤ 508) →
      WindowOp (.debugHrdv b k) 11 0 0 0 0 b 0 k (.hrdv k)
  | hwrv (a b : Int) (k : Nat) : k ≤ 80 ∨ (100 ≤ k ∧ k ≤ 108) ∨ (200 ≤ k ∧ k ≤ 202) ∨ k = 300 ∨ (400 ≤ k ∧ k ≤ 426) ∨ (500 ≤ k ∧ k ≤ 508) →
      WindowOp (.debugHwrv a b k) 12 0 a 0 0 b 0 k (.hwrv a k)
  | hrdpPc (b : Int) : WindowOp (.debugHrdp b 0 0) 13 0 0 0 0 b 0 0 (.hrdp .pc)
  | hrdpDepth (b : Int) : WindowOp (.debugHrdp b 1 0) 13 9 0 0 0 b 0 0 (.hrdp .depth)
  | hrdpLink (b : Int) (e : Nat) : 1 ≤ e → e ≤ 9841 → WindowOp (.debugHrdp b (-1) e) 13 (-9) 0 0 0 b 0 e (.hrdp (.link e))
  | hwrpPc (a0 a1 b : Int) : WindowOp (.debugHwrp a0 a1 b 0 0) 14 0 a0 a1 0 b 0 0 (.hwrp a0 a1 .pc)
  | hwrpDepth (a0 a1 b : Int) : WindowOp (.debugHwrp a0 a1 b 1 0) 14 9 a0 a1 0 b 0 0 (.hwrp a0 a1 .depth)
  | hwrpLink (a0 a1 b : Int) (e : Nat) : 1 ≤ e → e ≤ 9841 → WindowOp (.debugHwrp a0 a1 b (-1) e) 14 (-9) a0 a1 0 b 0 e (.hwrp a0 a1 (.link e))
  | hstep (b : Int) : WindowOp (.debugHstep b) 15 0 0 0 0 b 0 0 .hstep
  | hres (b sc : Int) : -1 ≤ sc → sc ≤ 2 → WindowOp (.debugHres b sc) 16 (81 * sc) 0 0 0 b 0 0 (.hres sc)

/-- The mailbox, when it is idle: the number is set once in bring-up, and sequencer 0 started after it, in the state that the start gives; a VF is bound, a
frame released, a ceiling set, a report written, and each answers 0; a number set again or too late answers -2; a report has 601 bytes; words written
to the control region by function 0 stage and start operations, and a VF's words and the window's reserved words are ignored; the debug window runs an
operation as its instruction, and its answer stands in words 9 on (R10, R311, R326, R329 to R331, R335, R336). The -2 for a number set again (log entry
113), the package's state judged before the operands (log entry 73) and the release of frame 0, which keeps line 0 (log entry 74), are the model's
choices. -/
def Obligations.MailboxAndDebugWindow : Prop :=
  (∀ (s : State) n, Rule.mailboxIdle s → s.pkg.st = 0 → s.pkg.numbered = false → -364 ≤ n → n ≤ 364 → exec (.setPackageNumber n) s =
    .next (Rule.answered (({ Rule.staged s [1, n] with mem := s.mem.renumber s.pkg.number n, home := s.home.renumber s.pkg.number n } : State).modPkg
      fun p => { p with number := n, numbered := true }) 0)) ∧
  (∀ (s : State) n, Rule.mailboxIdle s → (s.pkg.st ≠ 0 ∨ s.pkg.numbered = true) → exec (.setPackageNumber n) s = .next (Rule.answered (Rule.staged s [1, n]) (-2))) ∧
  (∀ (s : State) entry desc d, Rule.mailboxIdle s → s.pkg.st = 0 → s.pkg.detail ≠ 20 → s.pkg.numbered = true → -maxv 54 ≤ entry → entry ≤ maxv 54 →
    -maxv 54 ≤ desc → desc ≤ maxv 54 →
    let s1 := Rule.staged s [2, lowWord entry, highWord entry, lowWord desc, highWord desc]
    localDesc s1 desc = some d → descOk 0 d = true → exec (.startSequencer0 entry desc) s = .next (Rule.answered (startZero s1 entry desc d) 0)) ∧
  (∀ (s : State) entry desc d, s.ctxs = [] → s.journal = [] → s.warps = [] → 0 ∉ s.pkg.deadSeqs → ∃ w c, (startZero s entry desc d).pkg.st = 1 ∧
    (startZero s entry desc d).ctxs = [c] ∧ c.desc = desc ∧ c.paddock = 0 ∧ ((startZero s entry desc d).paddock 0).running = some c.ctx ∧
    (startZero s entry desc d).warps = [w] ∧ w.place = .seq 0 ∧ w.level = 1 ∧ ∀ l, l < 27 → (w.lane l).pc = entry) ∧
  (∀ (s : State) vf desc base, Rule.mailboxIdle s → s.pkg.st = 1 → 1 ≤ vf → vf ≤ 27 → -maxv 54 ≤ desc → desc ≤ maxv 54 → -maxv 54 ≤ base → base ≤ maxv 54 →
    (ctxOfDesc s desc).isSome = true → canonicalAddr base = true → base % 81 = 0 → exec (.bindVf vf desc base) s =
    .next (Rule.answered ((Rule.staged s [3, vf, lowWord desc, highWord desc, lowWord base, highWord base]).modPkg fun p =>
      { p with vfs := p.vfs.filter (fun v => (v.n : Int) != vf) ++ [⟨vf.toNat, desc, base⟩] }) 0)) ∧
  (∀ (s : State) f, Rule.mailboxIdle s → s.pkg.st = 1 → 0 ≤ f → 243 * f + 242 < s.pkg.boundary → f ≤ maxv 54 → exec (.releaseFrame f) s =
    .next (Rule.answered (freeFrame (Rule.staged s [4, lowWord f, highWord f]) f) 0)) ∧
  (∀ (s : State) f l, 0 ≤ f → f ≤ 129140163 → 243 * f ≤ l → l < 243 * f + 243 → l ≠ 0 → inR s.pkg.number (-364) 364 = true → (freeFrame s f).mem.tag s.pkg.number l = Tag.plain ∧
    (∀ i, i < 81 → (freeFrame s f).mem.read s.pkg.number (81 * l + (i : Nat)) 1 = 0) ∧ frameKey s.pkg.number f ∉ (freeFrame s f).mem.frames) ∧
  (∀ (s : State) x, Rule.mailboxIdle s → s.pkg.st ≠ -1 → 0 ≤ x → x ≤ 3600 → exec (.setPowerCeiling x) s =
    .next (Rule.answered ((Rule.staged s [5, x]).modPkg fun p => { p with ceiling := x }) 0)) ∧
  (∀ (s : State) a b c d x, Rule.mailboxIdle s → s.pkg.st = 1 → x % 81 = 0 → 0 < x → x ≤ maxv 54 → x / 81 + 7 < s.pkg.boundary → exec (.attest [a, b, c, d] x) s =
    .next (let s1 := Rule.staged s [6, a, b, c, d, lowWord x, highWord x]
      let r := signedReport s1 [a, b, c, d]
      Rule.answered (writeReport (s1.modPkg fun p => { p with report := r }) x r) 0)) ∧
  (∀ (s : State) nonce, (signedReport s nonce).length = 601) ∧
  (∀ (s : State) nonce, s.pkg.st ≠ -1 → exec (.getMeasurements nonce) s = .next (s.modPkg fun p => { p with report := signedReport s nonce })) ∧
  (∀ (s : State) word v, Rule.mailboxIdle s → word < 26 → exec (.controlRegionWrite ⟨none, 1⟩ word v) s =
    .next (s.modPkg fun p => { p with mailbox := p.mailbox.set word (narrow v 27) })) ∧
  (∀ (s : State), Rule.mailboxIdle s → exec (.controlRegionWrite ⟨none, 1⟩ 26 1) s =
    .next (let s1 := s.modPkg fun p => { p with mailbox := p.mailbox.set 26 1 }
      Rule.answered (mailboxOp s1 s1.pkg.mailbox).1 (mailboxOp s1 s1.pkg.mailbox).2)) ∧
  (∀ (s : State) word v, s.pkg.debug = 1 → wordAt s.pkg.window 8 ≠ 1 → s.pkg.st ≠ -1 → word < 15 → word ≠ 8 → exec (.controlRegionWrite ⟨none, 2⟩ word v) s =
    .next (s.modPkg fun p => { p with window := p.window.set word (narrow v 27) })) ∧
  (∀ (s : State), s.pkg.debug = 1 → wordAt s.pkg.window 8 ≠ 1 → s.pkg.st ≠ -1 → exec (.controlRegionWrite ⟨none, 2⟩ 8 1) s = .next (startWindow s)) ∧
  (∀ (s : State) word v, 15 ≤ word → exec (.controlRegionWrite ⟨none, 2⟩ word v) s = .next s) ∧
  (∀ (s : State) vf line word v, exec (.controlRegionWrite ⟨some vf, line⟩ word v) s = .next s ∧ controlRead s (some vf) line word = 0) ∧
  (∀ (s : State) i op m a0 a1 a2 b c k r, Rule.WindowOp i op m a0 a1 a2 b c k r → s.pkg.debug = 1 → wordAt s.pkg.window 8 ≠ 1 → s.pkg.st ≠ -1 → s.pkg.window.length = 27 →
    exec i s = .next (dbgRun ((s.modPkg fun p => { p with window := ([op, m, a0, a1, a2, b, c, k] ++ p.window.drop 8).set 8 1 }).bump.modPkg
      fun p => { p with dwin := p.dwin ++ [⟨s.nextId, .dbg r b 0 s.now, 0⟩] }) none s.nextId r b 0 s.now)) ∧
  (∀ (s : State) n r b at_ ws s1 p, s.pkg.dwin = [p] → p.n = n → dbgTry s n none r b at_ = .done s1 ws → s1.pkg = s.pkg → s.pkg.window.length = 27 → ws.length ≤ 6 →
    ∃ t, dbgRun s none n r b 0 at_ = t ∧ t.pkg.dwin = [] ∧ wordAt t.pkg.window 8 = 0 ∧ ∀ i x, ws[i]? = some x → wordAt t.pkg.window (9 + i) = x)

/-- The host's AtomicOps and what each makes of the word (R328). -/
inductive Rule.HostAtomic : Instr → HostFn → Nat → List Int → (Int → Int) → Prop
  | add (fn : HostFn) (off : Nat) (x : Int) : HostAtomic (.hostFetchadd fn off x) fn off [x] fun m => narrow (m + x) 27
  | swap (fn : HostFn) (off : Nat) (x : Int) : HostAtomic (.hostSwap fn off x) fn off [x] fun _ => x
  | cas (fn : HostFn) (off : Nat) (c x : Int) : HostAtomic (.hostCas fn off c x) fn off [c, x] fun m => if m = c then x else m

/-- Reads and writes of the host's windows. -/
inductive Rule.HostRead : Instr → HostFn → Bool → Nat → Nat → Prop
  | packed (fn : HostFn) (off len : Nat) : HostRead (.hostPackedRead fn off len) fn false off len
  | raw (fn : HostFn) (off len : Nat) : HostRead (.hostRawRead fn off len) fn true off len
inductive Rule.HostWrite : Instr → HostFn → Bool → Nat → List (BitVec 8) → Prop
  | packed (fn : HostFn) (off : Nat) (bs : List (BitVec 8)) : HostWrite (.hostPackedWrite fn off bs) fn false off bs
  | raw (fn : HostFn) (off : Nat) (bs : List (BitVec 8)) : HostWrite (.hostRawWrite fn off bs) fn true off bs

/-- The host's accesses: an AtomicOp updates one word of domain memory at its home and answers the old one, or is refused; a decrement of a wake barrier
arrives on it; a window read answers the bytes of its lines, and a write writes them, or each is refused while the windows do not answer; a packed line
is 150 bytes of five trits; the time record is stepped as one (R42, R268, R326 to R328, R335). -/
def Obligations.HostAccessesLand : Prop :=
  (∀ i fn off xs f (s : State) s1 p a d tg, Rule.HostAtomic i fn off xs f → barsUp s = true → off % 8 = 0 → (∀ x ∈ xs, -maxv 27 ≤ x ∧ x ≤ maxv 27) →
    hostPlace s fn Need.rmw (3 * ((off / 8 : Nat) : Int)) = (s1, .at_ (.dom p a)) → hostBusy s1 (.dom p a) = false → isWake s1 (.dom p a) = false →
    let s2 := recallNow s1 p (a / 81) true
    let s3 := takeNow s2 p (a / 81)
    s2.mem.lineAt (.dom p a) = .data d tg →
    exec i s = .next (hostAnswer (updateNow s3 (.dom p a) 3 f) [0, s3.mem.rawAt (.dom p a) 3])) ∧
  (∀ (s : State) p a n f, (Loc.dom p a).isTime = false →
    let s1 := takeNow s p (a / 81)
    updateNow s (.dom p a) n f = refreshFills (s1.modMem fun m => m.writeLoc (.dom p a) n (f (s1.mem.rawAt (.dom p a) n))) p (a / 81)) ∧
  (∀ i fn off xs f (s : State), Rule.HostAtomic i fn off xs f → (barsUp s = false ∨ off % 8 ≠ 0 ∨ ∃ x ∈ xs, x < -maxv 27 ∨ maxv 27 < x) →
    exec i s = .next (hostAnswer s [1])) ∧
  (∀ fn off (s : State) s1 p a s2, barsUp s = true → off % 8 = 0 → hostPlace s fn Need.rmw (3 * ((off / 8 : Nat) : Int)) = (s1, .at_ (.dom p a)) →
    hostBusy s1 (.dom p a) = false → isWake s1 (.dom p a) = true → tbArrive (takeNow s1 p (a / 81)) (.glob p a) = some s2 →
    exec (.hostFetchadd fn off (-1)) s = .next (hostAnswer s2 [0, (takeNow s1 p (a / 81)).mem.read p a 3])) ∧
  (∀ i fn raw off len (s : State) s1 bs, Rule.HostRead i fn raw off len → barsUp s = true →
    hostReadAll s fn raw (byLine (if raw then 81 else 150) off len) = (s1, some (.ok bs)) → exec i s = .next (hostAnswer s1 (0 :: bs))) ∧
  (∀ (s : State) l lo n, l < Config.memoryLines → hostBusy s (.dom s.pkg.number (81 * (l : Int))) = false → s.gangs = [] →
    (recallNow s s.pkg.number l false).mem.bad s.pkg.number l = false → (hostReadAll s none false [(l, lo, n)]).2 =
      some (.ok ((((packedImage (recallNow s s.pkg.number l false).mem s.pkg.number l).drop lo).take n).map fun (b : Nat) => (b : Int)))) ∧
  (∀ (m : Memory) p l, (packedImage m p l).length = 150 ∧ ∀ b ∈ packedImage m p l, b ≤ 242) ∧
  (∀ i fn raw off len (s : State), Rule.HostRead i fn raw off len → barsUp s = false → exec i s = .next (hostAnswer s [1])) ∧
  (∀ i fn raw off bs (s : State) s1, Rule.HostWrite i fn raw off bs → barsUp s = true →
    hostWriteAll s fn raw (byLine (if raw then 81 else 150) off bs.length) bs = some s1 → exec i s = .next s1) ∧
  (∀ i fn raw off bs (s : State), Rule.HostWrite i fn raw off bs → barsUp s = false →
    exec i s = .next ((s.note none .aerDiscard []).modPkg fun p => { p with aer := p.aer + 1 })) ∧
  (∀ (s : State) a t r i w b, (i = Instr.ptmExchange a t r ∧ w = 1 ∧ b = 0 ∨ i = Instr.ieee1588Sync a t r ∧ w = 6 ∧ b = 1) → barsUp s = true → exec i s = .next
    (let s1 := recallNow s s.pkg.number 0 true
     let rd (k : Nat) : Int := s1.mem.read s.pkg.number (3 * (k : Int)) 3
     refreshFills (s1.modMem fun m => [(26, narrow (rd 0 + 1) 27), (w, lowWord a), (w + 1, highWord a), (w + 2, lowWord t), (w + 3, highWord t), (w + 4, narrow r 27),
       (11, if trit (rd 11) b = 0 then rd 11 + pow3 b else rd 11), (0, narrow (rd 0 + 1) 27)].foldl
         (fun m (q : Nat × Int) => m.write s.pkg.number (3 * (q.1 : Int)) 3 q.2) m) s.pkg.number 0))

/-! ## Traps, reset, encodings, steps -/

/-- A trap enters handler mode: status saved, supervisor level, the handler PC of its cause; a second trap halts the warp; RFT restores; an illegal word traps
ILLEGAL and changes nothing else but the count against yielded lanes (log entry 84); ARITH follows a result whose flags are enabled, at the next word (R61, R110, R275 to R277, R280, R281). -/
def Obligations.TrapEntryAndReturn : Prop :=
  (∀ (s : State) wid w t, s.warp? wid = some w → w.handler = false → w.lanes.length = 27 → ∃ w', (s.enterTrap wid t).warp? wid = some w' ∧
    w'.handler = true ∧ w'.hpc = dblAt (s.descOf w.ctx) 7 + 27 * (t.cause - 1) ∧ w'.tCause = t.cause ∧ w'.tLanes = maskOf (t.lanes.map fun p => p.1) ∧
    w'.tLevel = w.level ∧ w'.level = 1 ∧ w'.v = w.v ∧ w'.g = w.g ∧ w'.p = w.p ∧ w'.q = w.q ∧ ∀ l, l < 27 →
      (let x := w.lane l
       let y := w'.lane l
       y.tEpc = x.pc ∧ y.tDepth = x.depth ∧ y.tLive = x.live ∧ y.tWait = x.wait.isSome ∧ y.tYield = x.yielded.isSome ∧ y.tHalt = x.halted.isSome ∧ y.pos = 0 ∧
       y.pc = x.pc ∧ y.depth = x.depth ∧ y.link = x.link ∧ y.wait = x.wait ∧ y.live = x.live ∧ y.x1 = x.x1 ∧ y.x2 = x.x2 ∧ y.x3 = x.x3 ∧ y.flags = x.flags) ∧
      (∀ a i, t.lanes.find? (fun p => p.1 == l) = some (l, i, a) → (w'.lane l).tInfo = i ∧ (w'.lane l).tAddr = a) ∧
      ((∀ p ∈ t.lanes, p.1 ≠ l) → (w'.lane l).tInfo = 0 ∧ (w'.lane l).tAddr = 0)) ∧
  (∀ (s : State) wid t, (s.enterTrap wid t).mem = s.mem ∧ (s.enterTrap wid t).gangs = s.gangs ∧ ∀ n, n ≠ wid → (s.enterTrap wid t).warp? n = s.warp? n) ∧
  (∀ (s : State) wid w t, s.warp? wid = some w → w.handler = true → w.lanes.length = 27 → ∃ w', (s.enterTrap wid t).warp? wid = some w' ∧ w'.hpc = w.hpc ∧
    w'.tCause = w.tCause ∧ w'.tLanes = w.tLanes ∧ w'.handler = true ∧ (∀ l, l < 27 → (w'.lane l).halted.isSome = true ∧ (w'.lane l).tEpc = (w.lane l).tEpc) ∧
    (s.enterTrap wid t).log = s.log ++ [⟨some w.ctx, .doubleTrap, [w.address 0, w.tCause, t.cause]⟩]) ∧
  (∀ (w : Warp) now l, w.lanes.length = 27 → l < 27 → (w.leave now).handler = false ∧ (w.leave now).level = w.tLevel ∧ ((w.leave now).lane l).pc = (w.lane l).tEpc ∧
    ((w.leave now).lane l).depth = (w.lane l).tDepth ∧ ((w.leave now).lane l).live = (w.lane l).tLive ∧ ((w.leave now).lane l).pos = 0 ∧
    ((w.leave now).lane l).wait = (if (w.lane l).tWait then (w.lane l).wait else none)) ∧
  (∀ (i : Instr) (s : State) c w, (encode i).isSome = true → s.cur = some c → s.warp? c.wid = some w → c.hstep = none → legal i w c.lanes = false →
    exec i s = .next ((s.counted i c.wid).enterTrap c.wid ⟨cause.illegal, listed c.lanes 0 0⟩)) ∧
  (∀ o r f (s : State) c w l, Rule.Two (.add o) o.d o.ty o.a o.b r f → Runs (.add o) s c w → w.handler = false → (s.core w.coreNo).watch = [] → o.hd.form = .vector →
    l ∈ activeOf (.add o) w c.lanes →
    (let fl := f (w.src l (o.ty == .d) o.a) (Rule.operandB w l o.ty o.b)
     arithTraps o.te fl = true → ∃ t w', exec (.add o) s = .next t ∧ t.warp? c.wid = some w' ∧ w'.handler = true ∧ w'.tCause = 7 ∧
       (w'.lane l).tEpc = (w.lane l).pc + 1 ∧ (w'.lane l).tInfo = fl.num ∧
       w'.Holds l o.d (o.ty == .d) (Rule.each2 o.ty r (w.src l (o.ty == .d) o.a) (Rule.operandB w l o.ty o.b))))

/-- The machine right after reset: GTIME 0, the package not started, no warp, gang, launch or context, memory clear, no unit fenced; its memories and registers keep their form; a cycle makes GTIME 1
(R224, R329, R338; registers that no rule gives a value: log entry 12; the tags PLAIN: log entry 2; no unit fenced: log entry 71). -/
def Obligations.ResetState : Prop :=
  State.reset.pkg.gtime = 0 ∧ State.reset.pkg.st = 0 ∧ State.reset.warps = [] ∧ State.reset.gangs = [] ∧ State.reset.launches = [] ∧ State.reset.ctxs = [] ∧
  State.reset.journal = [] ∧ State.reset.pkg.deadCores = [] ∧ State.reset.pkg.deadSlices = [] ∧ State.reset.pkg.deadLinks = [] ∧
  State.reset.pkg.boundary = Config.memoryLines ∧ State.reset.memoriesOk = true ∧ State.reset.regsOk = true ∧ State.reset.settled = true ∧
  (∀ p a n, State.reset.mem.read p a n = 0) ∧ (∀ p l, State.reset.mem.tag p l = Tag.plain ∧ State.reset.mem.bad p l = false) ∧
  ∃ t, step { State.reset with agenda := [.tick] } = .next t ∧ t.pkg.gtime = 1

/-- Words written out from the spec's worked encodings, by their six groups of nine trits. -/
def Rule.word (a b c d e f : Int) : Int := f + 19683 * (e + 19683 * (d + 19683 * (c + 19683 * (b + 19683 * a))))

/-- The vector form and the group-wide form without a guard. -/
def Rule.vec : Hd := ⟨.vector, 0, .always⟩
def Rule.grp : Hd := ⟨.group, 0, .always⟩

/-- The worked encodings of the instruction reference decode to the instructions they stand for (R96 to R105, R110). -/
def Obligations.WorkedWordsDecode : Prop :=
  decode? (Rule.word (-970) 7914 (-6884) 0 0 0) = some (.add ⟨⟨.vector, 2, .posZero⟩, .w, 0, 0, .v 5, .v 12, .src (.x 1)⟩) ∧
  decode? (Rule.word (-952) (-6672) (-8783) (-2754) 0 0) = some (.mad ⟨Rule.vec, .w, 0, 0, .v 3, .v 4, .v 5, .v 6⟩) ∧
  decode? (Rule.word (-949) (-6675) (-8991) 1 0 2) = some (.div ⟨Rule.vec, .w, 0, 0, .v 2, .v 3, .imm 2⟩) ∧
  decode? (Rule.word (-718) (-6672) (-8783) (-2781) 0 0) = some (.fma ⟨Rule.vec, .f9, 0, 0, 0, .v 3, .v 4, .v 5, .v 6⟩) ∧
  decode? (Rule.word (-475) (-6570) (-9234) 0 0 (-1)) = some (.pset ⟨Rule.vec, 0, 1, .v 2, -1⟩) ∧
  decode? (Rule.word (-241) (-6662) (-2226) 0 6561 0) = some (.ld ⟨Rule.vec, .word, false, none, false, .v 6, ⟨4, .v 1, 1, 0⟩⟩) ∧
  decode? (Rule.word (-238) (-6560) (-2226) (-2673) 6561 0) = some (.st ⟨Rule.vec, .word, false, ⟨4, .v 1, 1, 0⟩, .v 7⟩) ∧
  decode? (Rule.word (-223) (-6662) (-2226) (-2670) 2187 0) = some (.atom ⟨Rule.vec, false, false, .cas, .v 6, ⟨4, .v 1, 1, 0⟩, .v 7⟩) ∧
  decode? (Rule.word (-220) (-6572) (-2226) (-2664) 6561 0) = some (.red ⟨Rule.vec, .word, some 9, 0, false, ⟨4, .v 1, 1, 0⟩, .v 7⟩) ∧
  decode? (Rule.word (-211) (-6561) 0 12 0 0) = some (.fence ⟨Rule.vec, 1, 1⟩) ∧
  decode? (Rule.word 5 (-6675) 0 0 51 (-3833)) = some (.movi ⟨Rule.vec, .v 2, 1000000⟩) ∧
  decode? (Rule.word 14 (-6666) 0 0 0 10) = some (.movs ⟨Rule.vec, .read (.v 5) .gtime⟩) ∧
  decode? (Rule.word 26 (-6660) (-8262) 27 0 0) = some (.pack ⟨Rule.vec, 1, .v 7, .v 6⟩) ∧
  decode? (Rule.word 248 (-6561) (-7776) 27 0 0) = some (.jmpi ⟨Rule.vec, .v 8, 0⟩) ∧
  decode? (Rule.word 263 (-6672) 0 0 0 729) = some (.waitj ⟨Rule.vec, .v 3, 729⟩) ∧
  decode? (Rule.word 257 (-6561) 0 0 0 0) = some (.ret Rule.vec) ∧
  decode? (Rule.word 260 (-6561) 0 0 0 0) = some (.yld Rule.vec) ∧
  decode? (Rule.word 266 (-6561) 0 0 0 0) = some (.exit Rule.vec) ∧
  decode? (Rule.word 269 (-6561) 0 0 0 0) = some (.nop Rule.vec) ∧
  decode? (Rule.word 488 (-6561) 0 9 54 4) = some (.barS ⟨Rule.vec, 2, 4⟩) ∧
  decode? (Rule.word 491 (-6560) (-1458) 28 0 2) = some (.snr ⟨Rule.vec, 1, 7, 2⟩) ∧
  decode? (Rule.word 494 (-6560) (-1870) 27 0 0) = some (.tbwait ⟨Rule.vec, 5, 6, 0⟩) ∧
  decode? (Rule.word 2924 (-6590) (-729) 27 0 0) = some (.task ⟨Rule.grp, 3, 10, 1, 0⟩) ∧
  decode? (Rule.word 2936 (-6593) (-729) 0 0 0) = some (.xfst ⟨Rule.grp, 2, 10, 0⟩) ∧
  decode? (Rule.word 3161 (-6593) (-2187) 0 0 0) = some (.lnch ⟨Rule.grp, 2, 4, 0⟩) ∧
  decode? (Rule.word 980 (-6560) (-2187) 0 0 0) = some (.preh ⟨Rule.vec, 4, 0⟩) ∧
  decode? (Rule.word 983 (-6561) 0 0 0 5) = some (.trap ⟨Rule.vec, 5⟩) ∧
  decode? (Rule.word 986 (-6561) 0 0 0 0) = some (.rft Rule.vec) ∧
  decode? (Rule.word 3179 (-6587) (-646) 6480 0 0) = some (.wset ⟨Rule.grp, 4, 10, 15, 12, 0⟩) ∧
  decode? (Rule.word 3188 (-6588) 78 0 0 0) = some (.hlst ⟨Rule.grp, 4, 10⟩) ∧
  decode? (Rule.word 3194 (-6587) 2756 0 0 6) = some (.hwrv ⟨Rule.grp, 4, 24, 15, 6⟩) ∧
  decode? (Rule.word 3197 (-6588) 78 (-1) 0 12) = some (.hrdp ⟨Rule.grp, 4, 10, .link 12⟩) ∧
  decode? (Rule.word 3206 (-6588) 78 (-9) 0 0) = some (.hres ⟨Rule.grp, -1, 4, 10⟩)

/-- Decoding and encoding agree: a word decodes to an instruction exactly when the instruction is well formed and the word is its encoding; every operand
keeps its value, and no two words decode to one instruction. -/
def Obligations.DecodeAndEncodeAgree : Prop :=
  ∀ (i : Instr) (w : Int), decode? w = some i ↔ (i.wf = true ∧ encode i = some w)

/-- When a warp issues and no trap stands in place of its word, the word at its issue PC is decoded and runs: step is exec of it on the state with the
issue noted, then what every step brings about; an undecodable word traps ILLEGAL; an event of the agenda is exec of it; else the default order moves
(R73, R97, R110, R273). The agenda and the default order (log entries 3 and 4), that an undecodable word counts against the yields (log entry 84) and
leaves no chain hold (log entry 98), and that what cannot be done within a step waits as a whole (log entry 132) are the model's choices. -/
def Obligations.StepRunsTheDecodedWord : Prop :=
  (∀ (s : State) wid slot r w v i, s.agenda = .issue wid slot :: r → s.warp? wid = some w →
    let s0 : State := { s with agenda := r }
    freeToIssue s0 w = true → issuedNow s0 w = false → trapInPlace s0 w = none → wordFor s0 w w.issuePc = some v → wordReady s0 w v = true →
    (s.core w.coreNo).watch = [] → w.taskfs = [] → decode? v = some i →
    step s = Out.map (fun t => settle false (s0.orStay (match (t.warp? w.wid).bind fun w => w.blocked with
        | some n => s0.modWarp w.wid fun w => { w with blocked := some n }
        | none => noteHold t w.wid slot (some i) w.handler)))
      (exec i { startWord (noteIssue s0 w.wid slot) w with cur := some ⟨w.wid, w.issuePc, w.issuers, slot, false, none⟩ })) ∧
  (∀ (s : State) wid slot r w v, s.agenda = .issue wid slot :: r → s.warp? wid = some w →
    let s0 : State := { s with agenda := r }
    freeToIssue s0 w = true → issuedNow s0 w = false → trapInPlace s0 w = none → wordFor s0 w w.issuePc = some v → wordReady s0 w v = true →
    (s.core w.coreNo).watch = [] → w.taskfs = [] → decode? v = none →
    step s = .next (settle false (s0.orStay (noteHold (((startWord (noteIssue s0 w.wid slot) w).modWarp w.wid fun w => w.countYields 1).enterTrap w.wid
      ⟨cause.illegal, listed w.issuers 0 0⟩) w.wid slot none w.handler)))) ∧
  (∀ (s : State) i r, s.agenda = .event i :: r → isBarred (exec i { s with agenda := r }) = false → step s = Out.map (settle false) (exec i { s with agenda := r })) ∧
  (∀ (s : State) i r, s.agenda = .event i :: r → isBarred (exec i { s with agenda := r }) = true →
    step s = Out.map (settle (defaultMove s).ticks) (makeMove (defaultMove s) s)) ∧
  (∀ (s : State), s.agenda = [] → step s = Out.map (settle (defaultMove s).ticks) (makeMove (defaultMove s) s)) ∧
  (∀ (s : State), s.agenda = [] → defaultMove s = .turn .tick → step s = .next (settle true (s.orStay (tick s))))

/-- No step and no instruction ends in a fault or a refusal. -/
def Obligations.EveryInstructionAndStepAnswers : Prop :=
  (∀ (i : Instr) (s : State), ∃ t, exec i s = .next t) ∧ ∀ s : State, ∃ t, step s = .next t

/-- Whatever a step does, it leaves chain holds only with warps that have lanes to issue for, barrier cycles noted since they hold, and the journal in
step with the launches (R92, R109, R265, R293). -/
def Obligations.EveryStepLeavesTheMachineSettled : Prop :=
  ∀ s t : State, step s = .next t → t.settled = true
end

