-- ==== Sys2Proof/Laws/State.lean ====
section
/-! SUPPORT. Laws/State.lean: one lemma a field an update of State, and of the register updates of a warp. -/

namespace Sys2Proof.Machine

open Sys2Proof Tern

/-! ### modWarp -/

@[simp] theorem State.modWarp_pkg (s : State) (n : Nat) (f : Warp → Warp) : (s.modWarp n f).pkg = s.pkg := rfl
@[simp] theorem State.modWarp_mem (s : State) (n : Nat) (f : Warp → Warp) : (s.modWarp n f).mem = s.mem := rfl
@[simp] theorem State.modWarp_home (s : State) (n : Nat) (f : Warp → Warp) : (s.modWarp n f).home = s.home := rfl
@[simp] theorem State.modWarp_warps (s : State) (n : Nat) (f : Warp → Warp) : (s.modWarp n f).warps = modFirst (fun w => w.wid == n) f s.warps := rfl
@[simp] theorem State.modWarp_gangs (s : State) (n : Nat) (f : Warp → Warp) : (s.modWarp n f).gangs = s.gangs := rfl
@[simp] theorem State.modWarp_launches (s : State) (n : Nat) (f : Warp → Warp) : (s.modWarp n f).launches = s.launches := rfl
@[simp] theorem State.modWarp_ctxs (s : State) (n : Nat) (f : Warp → Warp) : (s.modWarp n f).ctxs = s.ctxs := rfl
@[simp] theorem State.modWarp_paddocks (s : State) (n : Nat) (f : Warp → Warp) : (s.modWarp n f).paddocks = s.paddocks := rfl
@[simp] theorem State.modWarp_journal (s : State) (n : Nat) (f : Warp → Warp) : (s.modWarp n f).journal = s.journal := rfl
@[simp] theorem State.modWarp_chans (s : State) (n : Nat) (f : Warp → Warp) : (s.modWarp n f).chans = s.chans := rfl
@[simp] theorem State.modWarp_cores (s : State) (n : Nat) (f : Warp → Warp) : (s.modWarp n f).cores = s.cores := rfl
@[simp] theorem State.modWarp_reqs (s : State) (n : Nat) (f : Warp → Warp) : (s.modWarp n f).reqs = s.reqs := rfl
@[simp] theorem State.modWarp_ops (s : State) (n : Nat) (f : Warp → Warp) : (s.modWarp n f).ops = s.ops := rfl
@[simp] theorem State.modWarp_xd (s : State) (n : Nat) (f : Warp → Warp) : (s.modWarp n f).xd = s.xd := rfl
@[simp] theorem State.modWarp_preempts (s : State) (n : Nat) (f : Warp → Warp) : (s.modWarp n f).preempts = s.preempts := rfl
@[simp] theorem State.modWarp_pageReqs (s : State) (n : Nat) (f : Warp → Warp) : (s.modWarp n f).pageReqs = s.pageReqs := rfl
@[simp] theorem State.modWarp_nodes (s : State) (n : Nat) (f : Warp → Warp) : (s.modWarp n f).nodes = s.nodes := rfl
@[simp] theorem State.modWarp_ats (s : State) (n : Nat) (f : Warp → Warp) : (s.modWarp n f).ats = s.ats := rfl
@[simp] theorem State.modWarp_invals (s : State) (n : Nat) (f : Warp → Warp) : (s.modWarp n f).invals = s.invals := rfl
@[simp] theorem State.modWarp_log (s : State) (n : Nat) (f : Warp → Warp) : (s.modWarp n f).log = s.log := rfl
@[simp] theorem State.modWarp_cur (s : State) (n : Nat) (f : Warp → Warp) : (s.modWarp n f).cur = s.cur := rfl
@[simp] theorem State.modWarp_forced (s : State) (n : Nat) (f : Warp → Warp) : (s.modWarp n f).forced = s.forced := rfl
@[simp] theorem State.modWarp_agenda (s : State) (n : Nat) (f : Warp → Warp) : (s.modWarp n f).agenda = s.agenda := rfl
@[simp] theorem State.modWarp_served (s : State) (n : Nat) (f : Warp → Warp) : (s.modWarp n f).served = s.served := rfl
@[simp] theorem State.modWarp_late (s : State) (n : Nat) (f : Warp → Warp) : (s.modWarp n f).late = s.late := rfl
@[simp] theorem State.modWarp_arrivals (s : State) (n : Nat) (f : Warp → Warp) : (s.modWarp n f).arrivals = s.arrivals := rfl
@[simp] theorem State.modWarp_barred (s : State) (n : Nat) (f : Warp → Warp) : (s.modWarp n f).barred = s.barred := rfl
@[simp] theorem State.modWarp_fresh (s : State) (n : Nat) (f : Warp → Warp) : (s.modWarp n f).fresh = s.fresh := rfl
@[simp] theorem State.modWarp_nextId (s : State) (n : Nat) (f : Warp → Warp) : (s.modWarp n f).nextId = s.nextId := rfl

/-! ### modGang -/

@[simp] theorem State.modGang_pkg (s : State) (n : Nat) (f : Gang → Gang) : (s.modGang n f).pkg = s.pkg := rfl
@[simp] theorem State.modGang_mem (s : State) (n : Nat) (f : Gang → Gang) : (s.modGang n f).mem = s.mem := rfl
@[simp] theorem State.modGang_home (s : State) (n : Nat) (f : Gang → Gang) : (s.modGang n f).home = s.home := rfl
@[simp] theorem State.modGang_warps (s : State) (n : Nat) (f : Gang → Gang) : (s.modGang n f).warps = s.warps := rfl
@[simp] theorem State.modGang_gangs (s : State) (n : Nat) (f : Gang → Gang) : (s.modGang n f).gangs = modFirst (fun g => g.gid == n) f s.gangs := rfl
@[simp] theorem State.modGang_launches (s : State) (n : Nat) (f : Gang → Gang) : (s.modGang n f).launches = s.launches := rfl
@[simp] theorem State.modGang_ctxs (s : State) (n : Nat) (f : Gang → Gang) : (s.modGang n f).ctxs = s.ctxs := rfl
@[simp] theorem State.modGang_paddocks (s : State) (n : Nat) (f : Gang → Gang) : (s.modGang n f).paddocks = s.paddocks := rfl
@[simp] theorem State.modGang_journal (s : State) (n : Nat) (f : Gang → Gang) : (s.modGang n f).journal = s.journal := rfl
@[simp] theorem State.modGang_chans (s : State) (n : Nat) (f : Gang → Gang) : (s.modGang n f).chans = s.chans := rfl
@[simp] theorem State.modGang_cores (s : State) (n : Nat) (f : Gang → Gang) : (s.modGang n f).cores = s.cores := rfl
@[simp] theorem State.modGang_reqs (s : State) (n : Nat) (f : Gang → Gang) : (s.modGang n f).reqs = s.reqs := rfl
@[simp] theorem State.modGang_ops (s : State) (n : Nat) (f : Gang → Gang) : (s.modGang n f).ops = s.ops := rfl
@[simp] theorem State.modGang_xd (s : State) (n : Nat) (f : Gang → Gang) : (s.modGang n f).xd = s.xd := rfl
@[simp] theorem State.modGang_preempts (s : State) (n : Nat) (f : Gang → Gang) : (s.modGang n f).preempts = s.preempts := rfl
@[simp] theorem State.modGang_pageReqs (s : State) (n : Nat) (f : Gang → Gang) : (s.modGang n f).pageReqs = s.pageReqs := rfl
@[simp] theorem State.modGang_nodes (s : State) (n : Nat) (f : Gang → Gang) : (s.modGang n f).nodes = s.nodes := rfl
@[simp] theorem State.modGang_ats (s : State) (n : Nat) (f : Gang → Gang) : (s.modGang n f).ats = s.ats := rfl
@[simp] theorem State.modGang_invals (s : State) (n : Nat) (f : Gang → Gang) : (s.modGang n f).invals = s.invals := rfl
@[simp] theorem State.modGang_log (s : State) (n : Nat) (f : Gang → Gang) : (s.modGang n f).log = s.log := rfl
@[simp] theorem State.modGang_cur (s : State) (n : Nat) (f : Gang → Gang) : (s.modGang n f).cur = s.cur := rfl
@[simp] theorem State.modGang_forced (s : State) (n : Nat) (f : Gang → Gang) : (s.modGang n f).forced = s.forced := rfl
@[simp] theorem State.modGang_agenda (s : State) (n : Nat) (f : Gang → Gang) : (s.modGang n f).agenda = s.agenda := rfl
@[simp] theorem State.modGang_served (s : State) (n : Nat) (f : Gang → Gang) : (s.modGang n f).served = s.served := rfl
@[simp] theorem State.modGang_late (s : State) (n : Nat) (f : Gang → Gang) : (s.modGang n f).late = s.late := rfl
@[simp] theorem State.modGang_arrivals (s : State) (n : Nat) (f : Gang → Gang) : (s.modGang n f).arrivals = s.arrivals := rfl
@[simp] theorem State.modGang_barred (s : State) (n : Nat) (f : Gang → Gang) : (s.modGang n f).barred = s.barred := rfl
@[simp] theorem State.modGang_fresh (s : State) (n : Nat) (f : Gang → Gang) : (s.modGang n f).fresh = s.fresh := rfl
@[simp] theorem State.modGang_nextId (s : State) (n : Nat) (f : Gang → Gang) : (s.modGang n f).nextId = s.nextId := rfl

/-! ### modLaunch -/

@[simp] theorem State.modLaunch_pkg (s : State) (n : Nat) (f : Launch → Launch) : (s.modLaunch n f).pkg = s.pkg := rfl
@[simp] theorem State.modLaunch_mem (s : State) (n : Nat) (f : Launch → Launch) : (s.modLaunch n f).mem = s.mem := rfl
@[simp] theorem State.modLaunch_home (s : State) (n : Nat) (f : Launch → Launch) : (s.modLaunch n f).home = s.home := rfl
@[simp] theorem State.modLaunch_warps (s : State) (n : Nat) (f : Launch → Launch) : (s.modLaunch n f).warps = s.warps := rfl
@[simp] theorem State.modLaunch_gangs (s : State) (n : Nat) (f : Launch → Launch) : (s.modLaunch n f).gangs = s.gangs := rfl
@[simp] theorem State.modLaunch_launches (s : State) (n : Nat) (f : Launch → Launch) : (s.modLaunch n f).launches = modFirst (fun x => x.lid == n) f s.launches := rfl
@[simp] theorem State.modLaunch_ctxs (s : State) (n : Nat) (f : Launch → Launch) : (s.modLaunch n f).ctxs = s.ctxs := rfl
@[simp] theorem State.modLaunch_paddocks (s : State) (n : Nat) (f : Launch → Launch) : (s.modLaunch n f).paddocks = s.paddocks := rfl
@[simp] theorem State.modLaunch_journal (s : State) (n : Nat) (f : Launch → Launch) : (s.modLaunch n f).journal = s.journal := rfl
@[simp] theorem State.modLaunch_chans (s : State) (n : Nat) (f : Launch → Launch) : (s.modLaunch n f).chans = s.chans := rfl
@[simp] theorem State.modLaunch_cores (s : State) (n : Nat) (f : Launch → Launch) : (s.modLaunch n f).cores = s.cores := rfl
@[simp] theorem State.modLaunch_reqs (s : State) (n : Nat) (f : Launch → Launch) : (s.modLaunch n f).reqs = s.reqs := rfl
@[simp] theorem State.modLaunch_ops (s : State) (n : Nat) (f : Launch → Launch) : (s.modLaunch n f).ops = s.ops := rfl
@[simp] theorem State.modLaunch_xd (s : State) (n : Nat) (f : Launch → Launch) : (s.modLaunch n f).xd = s.xd := rfl
@[simp] theorem State.modLaunch_preempts (s : State) (n : Nat) (f : Launch → Launch) : (s.modLaunch n f).preempts = s.preempts := rfl
@[simp] theorem State.modLaunch_pageReqs (s : State) (n : Nat) (f : Launch → Launch) : (s.modLaunch n f).pageReqs = s.pageReqs := rfl
@[simp] theorem State.modLaunch_nodes (s : State) (n : Nat) (f : Launch → Launch) : (s.modLaunch n f).nodes = s.nodes := rfl
@[simp] theorem State.modLaunch_ats (s : State) (n : Nat) (f : Launch → Launch) : (s.modLaunch n f).ats = s.ats := rfl
@[simp] theorem State.modLaunch_invals (s : State) (n : Nat) (f : Launch → Launch) : (s.modLaunch n f).invals = s.invals := rfl
@[simp] theorem State.modLaunch_log (s : State) (n : Nat) (f : Launch → Launch) : (s.modLaunch n f).log = s.log := rfl
@[simp] theorem State.modLaunch_cur (s : State) (n : Nat) (f : Launch → Launch) : (s.modLaunch n f).cur = s.cur := rfl
@[simp] theorem State.modLaunch_forced (s : State) (n : Nat) (f : Launch → Launch) : (s.modLaunch n f).forced = s.forced := rfl
@[simp] theorem State.modLaunch_agenda (s : State) (n : Nat) (f : Launch → Launch) : (s.modLaunch n f).agenda = s.agenda := rfl
@[simp] theorem State.modLaunch_served (s : State) (n : Nat) (f : Launch → Launch) : (s.modLaunch n f).served = s.served := rfl
@[simp] theorem State.modLaunch_late (s : State) (n : Nat) (f : Launch → Launch) : (s.modLaunch n f).late = s.late := rfl
@[simp] theorem State.modLaunch_arrivals (s : State) (n : Nat) (f : Launch → Launch) : (s.modLaunch n f).arrivals = s.arrivals := rfl
@[simp] theorem State.modLaunch_barred (s : State) (n : Nat) (f : Launch → Launch) : (s.modLaunch n f).barred = s.barred := rfl
@[simp] theorem State.modLaunch_fresh (s : State) (n : Nat) (f : Launch → Launch) : (s.modLaunch n f).fresh = s.fresh := rfl
@[simp] theorem State.modLaunch_nextId (s : State) (n : Nat) (f : Launch → Launch) : (s.modLaunch n f).nextId = s.nextId := rfl

/-! ### modContext -/

@[simp] theorem State.modContext_pkg (s : State) (n : Nat) (f : Context → Context) : (s.modContext n f).pkg = s.pkg := rfl
@[simp] theorem State.modContext_mem (s : State) (n : Nat) (f : Context → Context) : (s.modContext n f).mem = s.mem := rfl
@[simp] theorem State.modContext_home (s : State) (n : Nat) (f : Context → Context) : (s.modContext n f).home = s.home := rfl
@[simp] theorem State.modContext_warps (s : State) (n : Nat) (f : Context → Context) : (s.modContext n f).warps = s.warps := rfl
@[simp] theorem State.modContext_gangs (s : State) (n : Nat) (f : Context → Context) : (s.modContext n f).gangs = s.gangs := rfl
@[simp] theorem State.modContext_launches (s : State) (n : Nat) (f : Context → Context) : (s.modContext n f).launches = s.launches := rfl
@[simp] theorem State.modContext_ctxs (s : State) (n : Nat) (f : Context → Context) : (s.modContext n f).ctxs = modFirst (fun x => x.ctx == n) f s.ctxs := rfl
@[simp] theorem State.modContext_paddocks (s : State) (n : Nat) (f : Context → Context) : (s.modContext n f).paddocks = s.paddocks := rfl
@[simp] theorem State.modContext_journal (s : State) (n : Nat) (f : Context → Context) : (s.modContext n f).journal = s.journal := rfl
@[simp] theorem State.modContext_chans (s : State) (n : Nat) (f : Context → Context) : (s.modContext n f).chans = s.chans := rfl
@[simp] theorem State.modContext_cores (s : State) (n : Nat) (f : Context → Context) : (s.modContext n f).cores = s.cores := rfl
@[simp] theorem State.modContext_reqs (s : State) (n : Nat) (f : Context → Context) : (s.modContext n f).reqs = s.reqs := rfl
@[simp] theorem State.modContext_ops (s : State) (n : Nat) (f : Context → Context) : (s.modContext n f).ops = s.ops := rfl
@[simp] theorem State.modContext_xd (s : State) (n : Nat) (f : Context → Context) : (s.modContext n f).xd = s.xd := rfl
@[simp] theorem State.modContext_preempts (s : State) (n : Nat) (f : Context → Context) : (s.modContext n f).preempts = s.preempts := rfl
@[simp] theorem State.modContext_pageReqs (s : State) (n : Nat) (f : Context → Context) : (s.modContext n f).pageReqs = s.pageReqs := rfl
@[simp] theorem State.modContext_nodes (s : State) (n : Nat) (f : Context → Context) : (s.modContext n f).nodes = s.nodes := rfl
@[simp] theorem State.modContext_ats (s : State) (n : Nat) (f : Context → Context) : (s.modContext n f).ats = s.ats := rfl
@[simp] theorem State.modContext_invals (s : State) (n : Nat) (f : Context → Context) : (s.modContext n f).invals = s.invals := rfl
@[simp] theorem State.modContext_log (s : State) (n : Nat) (f : Context → Context) : (s.modContext n f).log = s.log := rfl
@[simp] theorem State.modContext_cur (s : State) (n : Nat) (f : Context → Context) : (s.modContext n f).cur = s.cur := rfl
@[simp] theorem State.modContext_forced (s : State) (n : Nat) (f : Context → Context) : (s.modContext n f).forced = s.forced := rfl
@[simp] theorem State.modContext_agenda (s : State) (n : Nat) (f : Context → Context) : (s.modContext n f).agenda = s.agenda := rfl
@[simp] theorem State.modContext_served (s : State) (n : Nat) (f : Context → Context) : (s.modContext n f).served = s.served := rfl
@[simp] theorem State.modContext_late (s : State) (n : Nat) (f : Context → Context) : (s.modContext n f).late = s.late := rfl
@[simp] theorem State.modContext_arrivals (s : State) (n : Nat) (f : Context → Context) : (s.modContext n f).arrivals = s.arrivals := rfl
@[simp] theorem State.modContext_barred (s : State) (n : Nat) (f : Context → Context) : (s.modContext n f).barred = s.barred := rfl
@[simp] theorem State.modContext_fresh (s : State) (n : Nat) (f : Context → Context) : (s.modContext n f).fresh = s.fresh := rfl
@[simp] theorem State.modContext_nextId (s : State) (n : Nat) (f : Context → Context) : (s.modContext n f).nextId = s.nextId := rfl

/-! ### modChan -/

@[simp] theorem State.modChan_pkg (s : State) (n : Nat) (f : Channel → Channel) : (s.modChan n f).pkg = s.pkg := rfl
@[simp] theorem State.modChan_mem (s : State) (n : Nat) (f : Channel → Channel) : (s.modChan n f).mem = s.mem := rfl
@[simp] theorem State.modChan_home (s : State) (n : Nat) (f : Channel → Channel) : (s.modChan n f).home = s.home := rfl
@[simp] theorem State.modChan_warps (s : State) (n : Nat) (f : Channel → Channel) : (s.modChan n f).warps = s.warps := rfl
@[simp] theorem State.modChan_gangs (s : State) (n : Nat) (f : Channel → Channel) : (s.modChan n f).gangs = s.gangs := rfl
@[simp] theorem State.modChan_launches (s : State) (n : Nat) (f : Channel → Channel) : (s.modChan n f).launches = s.launches := rfl
@[simp] theorem State.modChan_ctxs (s : State) (n : Nat) (f : Channel → Channel) : (s.modChan n f).ctxs = s.ctxs := rfl
@[simp] theorem State.modChan_paddocks (s : State) (n : Nat) (f : Channel → Channel) : (s.modChan n f).paddocks = s.paddocks := rfl
@[simp] theorem State.modChan_journal (s : State) (n : Nat) (f : Channel → Channel) : (s.modChan n f).journal = s.journal := rfl
@[simp] theorem State.modChan_chans (s : State) (n : Nat) (f : Channel → Channel) : (s.modChan n f).chans = modFirst (fun x => x.ch == n) f s.chans := rfl
@[simp] theorem State.modChan_cores (s : State) (n : Nat) (f : Channel → Channel) : (s.modChan n f).cores = s.cores := rfl
@[simp] theorem State.modChan_reqs (s : State) (n : Nat) (f : Channel → Channel) : (s.modChan n f).reqs = s.reqs := rfl
@[simp] theorem State.modChan_ops (s : State) (n : Nat) (f : Channel → Channel) : (s.modChan n f).ops = s.ops := rfl
@[simp] theorem State.modChan_xd (s : State) (n : Nat) (f : Channel → Channel) : (s.modChan n f).xd = s.xd := rfl
@[simp] theorem State.modChan_preempts (s : State) (n : Nat) (f : Channel → Channel) : (s.modChan n f).preempts = s.preempts := rfl
@[simp] theorem State.modChan_pageReqs (s : State) (n : Nat) (f : Channel → Channel) : (s.modChan n f).pageReqs = s.pageReqs := rfl
@[simp] theorem State.modChan_nodes (s : State) (n : Nat) (f : Channel → Channel) : (s.modChan n f).nodes = s.nodes := rfl
@[simp] theorem State.modChan_ats (s : State) (n : Nat) (f : Channel → Channel) : (s.modChan n f).ats = s.ats := rfl
@[simp] theorem State.modChan_invals (s : State) (n : Nat) (f : Channel → Channel) : (s.modChan n f).invals = s.invals := rfl
@[simp] theorem State.modChan_log (s : State) (n : Nat) (f : Channel → Channel) : (s.modChan n f).log = s.log := rfl
@[simp] theorem State.modChan_cur (s : State) (n : Nat) (f : Channel → Channel) : (s.modChan n f).cur = s.cur := rfl
@[simp] theorem State.modChan_forced (s : State) (n : Nat) (f : Channel → Channel) : (s.modChan n f).forced = s.forced := rfl
@[simp] theorem State.modChan_agenda (s : State) (n : Nat) (f : Channel → Channel) : (s.modChan n f).agenda = s.agenda := rfl
@[simp] theorem State.modChan_served (s : State) (n : Nat) (f : Channel → Channel) : (s.modChan n f).served = s.served := rfl
@[simp] theorem State.modChan_late (s : State) (n : Nat) (f : Channel → Channel) : (s.modChan n f).late = s.late := rfl
@[simp] theorem State.modChan_arrivals (s : State) (n : Nat) (f : Channel → Channel) : (s.modChan n f).arrivals = s.arrivals := rfl
@[simp] theorem State.modChan_barred (s : State) (n : Nat) (f : Channel → Channel) : (s.modChan n f).barred = s.barred := rfl
@[simp] theorem State.modChan_fresh (s : State) (n : Nat) (f : Channel → Channel) : (s.modChan n f).fresh = s.fresh := rfl
@[simp] theorem State.modChan_nextId (s : State) (n : Nat) (f : Channel → Channel) : (s.modChan n f).nextId = s.nextId := rfl

/-! ### modReq -/

@[simp] theorem State.modReq_pkg (s : State) (n : Nat) (f : Req → Req) : (s.modReq n f).pkg = s.pkg := rfl
@[simp] theorem State.modReq_mem (s : State) (n : Nat) (f : Req → Req) : (s.modReq n f).mem = s.mem := rfl
@[simp] theorem State.modReq_home (s : State) (n : Nat) (f : Req → Req) : (s.modReq n f).home = s.home := rfl
@[simp] theorem State.modReq_warps (s : State) (n : Nat) (f : Req → Req) : (s.modReq n f).warps = s.warps := rfl
@[simp] theorem State.modReq_gangs (s : State) (n : Nat) (f : Req → Req) : (s.modReq n f).gangs = s.gangs := rfl
@[simp] theorem State.modReq_launches (s : State) (n : Nat) (f : Req → Req) : (s.modReq n f).launches = s.launches := rfl
@[simp] theorem State.modReq_ctxs (s : State) (n : Nat) (f : Req → Req) : (s.modReq n f).ctxs = s.ctxs := rfl
@[simp] theorem State.modReq_paddocks (s : State) (n : Nat) (f : Req → Req) : (s.modReq n f).paddocks = s.paddocks := rfl
@[simp] theorem State.modReq_journal (s : State) (n : Nat) (f : Req → Req) : (s.modReq n f).journal = s.journal := rfl
@[simp] theorem State.modReq_chans (s : State) (n : Nat) (f : Req → Req) : (s.modReq n f).chans = s.chans := rfl
@[simp] theorem State.modReq_cores (s : State) (n : Nat) (f : Req → Req) : (s.modReq n f).cores = s.cores := rfl
@[simp] theorem State.modReq_reqs (s : State) (n : Nat) (f : Req → Req) : (s.modReq n f).reqs = modFirst (fun x => x.id == n) f s.reqs := rfl
@[simp] theorem State.modReq_ops (s : State) (n : Nat) (f : Req → Req) : (s.modReq n f).ops = s.ops := rfl
@[simp] theorem State.modReq_xd (s : State) (n : Nat) (f : Req → Req) : (s.modReq n f).xd = s.xd := rfl
@[simp] theorem State.modReq_preempts (s : State) (n : Nat) (f : Req → Req) : (s.modReq n f).preempts = s.preempts := rfl
@[simp] theorem State.modReq_pageReqs (s : State) (n : Nat) (f : Req → Req) : (s.modReq n f).pageReqs = s.pageReqs := rfl
@[simp] theorem State.modReq_nodes (s : State) (n : Nat) (f : Req → Req) : (s.modReq n f).nodes = s.nodes := rfl
@[simp] theorem State.modReq_ats (s : State) (n : Nat) (f : Req → Req) : (s.modReq n f).ats = s.ats := rfl
@[simp] theorem State.modReq_invals (s : State) (n : Nat) (f : Req → Req) : (s.modReq n f).invals = s.invals := rfl
@[simp] theorem State.modReq_log (s : State) (n : Nat) (f : Req → Req) : (s.modReq n f).log = s.log := rfl
@[simp] theorem State.modReq_cur (s : State) (n : Nat) (f : Req → Req) : (s.modReq n f).cur = s.cur := rfl
@[simp] theorem State.modReq_forced (s : State) (n : Nat) (f : Req → Req) : (s.modReq n f).forced = s.forced := rfl
@[simp] theorem State.modReq_agenda (s : State) (n : Nat) (f : Req → Req) : (s.modReq n f).agenda = s.agenda := rfl
@[simp] theorem State.modReq_served (s : State) (n : Nat) (f : Req → Req) : (s.modReq n f).served = s.served := rfl
@[simp] theorem State.modReq_late (s : State) (n : Nat) (f : Req → Req) : (s.modReq n f).late = s.late := rfl
@[simp] theorem State.modReq_arrivals (s : State) (n : Nat) (f : Req → Req) : (s.modReq n f).arrivals = s.arrivals := rfl
@[simp] theorem State.modReq_barred (s : State) (n : Nat) (f : Req → Req) : (s.modReq n f).barred = s.barred := rfl
@[simp] theorem State.modReq_fresh (s : State) (n : Nat) (f : Req → Req) : (s.modReq n f).fresh = s.fresh := rfl
@[simp] theorem State.modReq_nextId (s : State) (n : Nat) (f : Req → Req) : (s.modReq n f).nextId = s.nextId := rfl

/-! ### delReq -/

@[simp] theorem State.delReq_pkg (s : State) (n : Nat) : (s.delReq n).pkg = s.pkg := rfl
@[simp] theorem State.delReq_mem (s : State) (n : Nat) : (s.delReq n).mem = s.mem := rfl
@[simp] theorem State.delReq_home (s : State) (n : Nat) : (s.delReq n).home = s.home := rfl
@[simp] theorem State.delReq_warps (s : State) (n : Nat) : (s.delReq n).warps = s.warps := rfl
@[simp] theorem State.delReq_gangs (s : State) (n : Nat) : (s.delReq n).gangs = s.gangs := rfl
@[simp] theorem State.delReq_launches (s : State) (n : Nat) : (s.delReq n).launches = s.launches := rfl
@[simp] theorem State.delReq_ctxs (s : State) (n : Nat) : (s.delReq n).ctxs = s.ctxs := rfl
@[simp] theorem State.delReq_paddocks (s : State) (n : Nat) : (s.delReq n).paddocks = s.paddocks := rfl
@[simp] theorem State.delReq_journal (s : State) (n : Nat) : (s.delReq n).journal = s.journal := rfl
@[simp] theorem State.delReq_chans (s : State) (n : Nat) : (s.delReq n).chans = s.chans := rfl
@[simp] theorem State.delReq_cores (s : State) (n : Nat) : (s.delReq n).cores = s.cores := rfl
@[simp] theorem State.delReq_reqs (s : State) (n : Nat) : (s.delReq n).reqs = s.reqs.filter fun x => x.id != n := rfl
@[simp] theorem State.delReq_ops (s : State) (n : Nat) : (s.delReq n).ops = s.ops := rfl
@[simp] theorem State.delReq_xd (s : State) (n : Nat) : (s.delReq n).xd = s.xd := rfl
@[simp] theorem State.delReq_preempts (s : State) (n : Nat) : (s.delReq n).preempts = s.preempts := rfl
@[simp] theorem State.delReq_pageReqs (s : State) (n : Nat) : (s.delReq n).pageReqs = s.pageReqs := rfl
@[simp] theorem State.delReq_nodes (s : State) (n : Nat) : (s.delReq n).nodes = s.nodes := rfl
@[simp] theorem State.delReq_ats (s : State) (n : Nat) : (s.delReq n).ats = s.ats := rfl
@[simp] theorem State.delReq_invals (s : State) (n : Nat) : (s.delReq n).invals = s.invals := rfl
@[simp] theorem State.delReq_log (s : State) (n : Nat) : (s.delReq n).log = s.log := rfl
@[simp] theorem State.delReq_cur (s : State) (n : Nat) : (s.delReq n).cur = s.cur := rfl
@[simp] theorem State.delReq_forced (s : State) (n : Nat) : (s.delReq n).forced = s.forced := rfl
@[simp] theorem State.delReq_agenda (s : State) (n : Nat) : (s.delReq n).agenda = s.agenda := rfl
@[simp] theorem State.delReq_served (s : State) (n : Nat) : (s.delReq n).served = s.served := rfl
@[simp] theorem State.delReq_late (s : State) (n : Nat) : (s.delReq n).late = s.late := rfl
@[simp] theorem State.delReq_arrivals (s : State) (n : Nat) : (s.delReq n).arrivals = s.arrivals := rfl
@[simp] theorem State.delReq_barred (s : State) (n : Nat) : (s.delReq n).barred = s.barred := rfl
@[simp] theorem State.delReq_fresh (s : State) (n : Nat) : (s.delReq n).fresh = s.fresh := rfl
@[simp] theorem State.delReq_nextId (s : State) (n : Nat) : (s.delReq n).nextId = s.nextId := rfl

/-! ### modOp -/

@[simp] theorem State.modOp_pkg (s : State) (n : Nat) (f : LoadOp → LoadOp) : (s.modOp n f).pkg = s.pkg := rfl
@[simp] theorem State.modOp_mem (s : State) (n : Nat) (f : LoadOp → LoadOp) : (s.modOp n f).mem = s.mem := rfl
@[simp] theorem State.modOp_home (s : State) (n : Nat) (f : LoadOp → LoadOp) : (s.modOp n f).home = s.home := rfl
@[simp] theorem State.modOp_warps (s : State) (n : Nat) (f : LoadOp → LoadOp) : (s.modOp n f).warps = s.warps := rfl
@[simp] theorem State.modOp_gangs (s : State) (n : Nat) (f : LoadOp → LoadOp) : (s.modOp n f).gangs = s.gangs := rfl
@[simp] theorem State.modOp_launches (s : State) (n : Nat) (f : LoadOp → LoadOp) : (s.modOp n f).launches = s.launches := rfl
@[simp] theorem State.modOp_ctxs (s : State) (n : Nat) (f : LoadOp → LoadOp) : (s.modOp n f).ctxs = s.ctxs := rfl
@[simp] theorem State.modOp_paddocks (s : State) (n : Nat) (f : LoadOp → LoadOp) : (s.modOp n f).paddocks = s.paddocks := rfl
@[simp] theorem State.modOp_journal (s : State) (n : Nat) (f : LoadOp → LoadOp) : (s.modOp n f).journal = s.journal := rfl
@[simp] theorem State.modOp_chans (s : State) (n : Nat) (f : LoadOp → LoadOp) : (s.modOp n f).chans = s.chans := rfl
@[simp] theorem State.modOp_cores (s : State) (n : Nat) (f : LoadOp → LoadOp) : (s.modOp n f).cores = s.cores := rfl
@[simp] theorem State.modOp_reqs (s : State) (n : Nat) (f : LoadOp → LoadOp) : (s.modOp n f).reqs = s.reqs := rfl
@[simp] theorem State.modOp_ops (s : State) (n : Nat) (f : LoadOp → LoadOp) : (s.modOp n f).ops = modFirst (fun x => x.id == n) f s.ops := rfl
@[simp] theorem State.modOp_xd (s : State) (n : Nat) (f : LoadOp → LoadOp) : (s.modOp n f).xd = s.xd := rfl
@[simp] theorem State.modOp_preempts (s : State) (n : Nat) (f : LoadOp → LoadOp) : (s.modOp n f).preempts = s.preempts := rfl
@[simp] theorem State.modOp_pageReqs (s : State) (n : Nat) (f : LoadOp → LoadOp) : (s.modOp n f).pageReqs = s.pageReqs := rfl
@[simp] theorem State.modOp_nodes (s : State) (n : Nat) (f : LoadOp → LoadOp) : (s.modOp n f).nodes = s.nodes := rfl
@[simp] theorem State.modOp_ats (s : State) (n : Nat) (f : LoadOp → LoadOp) : (s.modOp n f).ats = s.ats := rfl
@[simp] theorem State.modOp_invals (s : State) (n : Nat) (f : LoadOp → LoadOp) : (s.modOp n f).invals = s.invals := rfl
@[simp] theorem State.modOp_log (s : State) (n : Nat) (f : LoadOp → LoadOp) : (s.modOp n f).log = s.log := rfl
@[simp] theorem State.modOp_cur (s : State) (n : Nat) (f : LoadOp → LoadOp) : (s.modOp n f).cur = s.cur := rfl
@[simp] theorem State.modOp_forced (s : State) (n : Nat) (f : LoadOp → LoadOp) : (s.modOp n f).forced = s.forced := rfl
@[simp] theorem State.modOp_agenda (s : State) (n : Nat) (f : LoadOp → LoadOp) : (s.modOp n f).agenda = s.agenda := rfl
@[simp] theorem State.modOp_served (s : State) (n : Nat) (f : LoadOp → LoadOp) : (s.modOp n f).served = s.served := rfl
@[simp] theorem State.modOp_late (s : State) (n : Nat) (f : LoadOp → LoadOp) : (s.modOp n f).late = s.late := rfl
@[simp] theorem State.modOp_arrivals (s : State) (n : Nat) (f : LoadOp → LoadOp) : (s.modOp n f).arrivals = s.arrivals := rfl
@[simp] theorem State.modOp_barred (s : State) (n : Nat) (f : LoadOp → LoadOp) : (s.modOp n f).barred = s.barred := rfl
@[simp] theorem State.modOp_fresh (s : State) (n : Nat) (f : LoadOp → LoadOp) : (s.modOp n f).fresh = s.fresh := rfl
@[simp] theorem State.modOp_nextId (s : State) (n : Nat) (f : LoadOp → LoadOp) : (s.modOp n f).nextId = s.nextId := rfl

/-! ### modPkg -/

@[simp] theorem State.modPkg_pkg (s : State) (f : Package → Package) : (s.modPkg f).pkg = f s.pkg := rfl
@[simp] theorem State.modPkg_mem (s : State) (f : Package → Package) : (s.modPkg f).mem = s.mem := rfl
@[simp] theorem State.modPkg_home (s : State) (f : Package → Package) : (s.modPkg f).home = s.home := rfl
@[simp] theorem State.modPkg_warps (s : State) (f : Package → Package) : (s.modPkg f).warps = s.warps := rfl
@[simp] theorem State.modPkg_gangs (s : State) (f : Package → Package) : (s.modPkg f).gangs = s.gangs := rfl
@[simp] theorem State.modPkg_launches (s : State) (f : Package → Package) : (s.modPkg f).launches = s.launches := rfl
@[simp] theorem State.modPkg_ctxs (s : State) (f : Package → Package) : (s.modPkg f).ctxs = s.ctxs := rfl
@[simp] theorem State.modPkg_paddocks (s : State) (f : Package → Package) : (s.modPkg f).paddocks = s.paddocks := rfl
@[simp] theorem State.modPkg_journal (s : State) (f : Package → Package) : (s.modPkg f).journal = s.journal := rfl
@[simp] theorem State.modPkg_chans (s : State) (f : Package → Package) : (s.modPkg f).chans = s.chans := rfl
@[simp] theorem State.modPkg_cores (s : State) (f : Package → Package) : (s.modPkg f).cores = s.cores := rfl
@[simp] theorem State.modPkg_reqs (s : State) (f : Package → Package) : (s.modPkg f).reqs = s.reqs := rfl
@[simp] theorem State.modPkg_ops (s : State) (f : Package → Package) : (s.modPkg f).ops = s.ops := rfl
@[simp] theorem State.modPkg_xd (s : State) (f : Package → Package) : (s.modPkg f).xd = s.xd := rfl
@[simp] theorem State.modPkg_preempts (s : State) (f : Package → Package) : (s.modPkg f).preempts = s.preempts := rfl
@[simp] theorem State.modPkg_pageReqs (s : State) (f : Package → Package) : (s.modPkg f).pageReqs = s.pageReqs := rfl
@[simp] theorem State.modPkg_nodes (s : State) (f : Package → Package) : (s.modPkg f).nodes = s.nodes := rfl
@[simp] theorem State.modPkg_ats (s : State) (f : Package → Package) : (s.modPkg f).ats = s.ats := rfl
@[simp] theorem State.modPkg_invals (s : State) (f : Package → Package) : (s.modPkg f).invals = s.invals := rfl
@[simp] theorem State.modPkg_log (s : State) (f : Package → Package) : (s.modPkg f).log = s.log := rfl
@[simp] theorem State.modPkg_cur (s : State) (f : Package → Package) : (s.modPkg f).cur = s.cur := rfl
@[simp] theorem State.modPkg_forced (s : State) (f : Package → Package) : (s.modPkg f).forced = s.forced := rfl
@[simp] theorem State.modPkg_agenda (s : State) (f : Package → Package) : (s.modPkg f).agenda = s.agenda := rfl
@[simp] theorem State.modPkg_served (s : State) (f : Package → Package) : (s.modPkg f).served = s.served := rfl
@[simp] theorem State.modPkg_late (s : State) (f : Package → Package) : (s.modPkg f).late = s.late := rfl
@[simp] theorem State.modPkg_arrivals (s : State) (f : Package → Package) : (s.modPkg f).arrivals = s.arrivals := rfl
@[simp] theorem State.modPkg_barred (s : State) (f : Package → Package) : (s.modPkg f).barred = s.barred := rfl
@[simp] theorem State.modPkg_fresh (s : State) (f : Package → Package) : (s.modPkg f).fresh = s.fresh := rfl
@[simp] theorem State.modPkg_nextId (s : State) (f : Package → Package) : (s.modPkg f).nextId = s.nextId := rfl

/-! ### modMem -/

@[simp] theorem State.modMem_pkg (s : State) (f : Memory → Memory) : (s.modMem f).pkg = s.pkg := rfl
@[simp] theorem State.modMem_mem (s : State) (f : Memory → Memory) : (s.modMem f).mem = f s.mem := rfl
@[simp] theorem State.modMem_home (s : State) (f : Memory → Memory) : (s.modMem f).home = s.home := rfl
@[simp] theorem State.modMem_warps (s : State) (f : Memory → Memory) : (s.modMem f).warps = s.warps := rfl
@[simp] theorem State.modMem_gangs (s : State) (f : Memory → Memory) : (s.modMem f).gangs = s.gangs := rfl
@[simp] theorem State.modMem_launches (s : State) (f : Memory → Memory) : (s.modMem f).launches = s.launches := rfl
@[simp] theorem State.modMem_ctxs (s : State) (f : Memory → Memory) : (s.modMem f).ctxs = s.ctxs := rfl
@[simp] theorem State.modMem_paddocks (s : State) (f : Memory → Memory) : (s.modMem f).paddocks = s.paddocks := rfl
@[simp] theorem State.modMem_journal (s : State) (f : Memory → Memory) : (s.modMem f).journal = s.journal := rfl
@[simp] theorem State.modMem_chans (s : State) (f : Memory → Memory) : (s.modMem f).chans = s.chans := rfl
@[simp] theorem State.modMem_cores (s : State) (f : Memory → Memory) : (s.modMem f).cores = s.cores := rfl
@[simp] theorem State.modMem_reqs (s : State) (f : Memory → Memory) : (s.modMem f).reqs = s.reqs := rfl
@[simp] theorem State.modMem_ops (s : State) (f : Memory → Memory) : (s.modMem f).ops = s.ops := rfl
@[simp] theorem State.modMem_xd (s : State) (f : Memory → Memory) : (s.modMem f).xd = s.xd := rfl
@[simp] theorem State.modMem_preempts (s : State) (f : Memory → Memory) : (s.modMem f).preempts = s.preempts := rfl
@[simp] theorem State.modMem_pageReqs (s : State) (f : Memory → Memory) : (s.modMem f).pageReqs = s.pageReqs := rfl
@[simp] theorem State.modMem_nodes (s : State) (f : Memory → Memory) : (s.modMem f).nodes = s.nodes := rfl
@[simp] theorem State.modMem_ats (s : State) (f : Memory → Memory) : (s.modMem f).ats = s.ats := rfl
@[simp] theorem State.modMem_invals (s : State) (f : Memory → Memory) : (s.modMem f).invals = s.invals := rfl
@[simp] theorem State.modMem_log (s : State) (f : Memory → Memory) : (s.modMem f).log = s.log := rfl
@[simp] theorem State.modMem_cur (s : State) (f : Memory → Memory) : (s.modMem f).cur = s.cur := rfl
@[simp] theorem State.modMem_forced (s : State) (f : Memory → Memory) : (s.modMem f).forced = s.forced := rfl
@[simp] theorem State.modMem_agenda (s : State) (f : Memory → Memory) : (s.modMem f).agenda = s.agenda := rfl
@[simp] theorem State.modMem_served (s : State) (f : Memory → Memory) : (s.modMem f).served = s.served := rfl
@[simp] theorem State.modMem_late (s : State) (f : Memory → Memory) : (s.modMem f).late = s.late := rfl
@[simp] theorem State.modMem_arrivals (s : State) (f : Memory → Memory) : (s.modMem f).arrivals = s.arrivals := rfl
@[simp] theorem State.modMem_barred (s : State) (f : Memory → Memory) : (s.modMem f).barred = s.barred := rfl
@[simp] theorem State.modMem_fresh (s : State) (f : Memory → Memory) : (s.modMem f).fresh = s.fresh := rfl
@[simp] theorem State.modMem_nextId (s : State) (f : Memory → Memory) : (s.modMem f).nextId = s.nextId := rfl

/-! ### bump -/

@[simp] theorem State.bump_pkg (s : State) : (s.bump).pkg = s.pkg := rfl
@[simp] theorem State.bump_mem (s : State) : (s.bump).mem = s.mem := rfl
@[simp] theorem State.bump_home (s : State) : (s.bump).home = s.home := rfl
@[simp] theorem State.bump_warps (s : State) : (s.bump).warps = s.warps := rfl
@[simp] theorem State.bump_gangs (s : State) : (s.bump).gangs = s.gangs := rfl
@[simp] theorem State.bump_launches (s : State) : (s.bump).launches = s.launches := rfl
@[simp] theorem State.bump_ctxs (s : State) : (s.bump).ctxs = s.ctxs := rfl
@[simp] theorem State.bump_paddocks (s : State) : (s.bump).paddocks = s.paddocks := rfl
@[simp] theorem State.bump_journal (s : State) : (s.bump).journal = s.journal := rfl
@[simp] theorem State.bump_chans (s : State) : (s.bump).chans = s.chans := rfl
@[simp] theorem State.bump_cores (s : State) : (s.bump).cores = s.cores := rfl
@[simp] theorem State.bump_reqs (s : State) : (s.bump).reqs = s.reqs := rfl
@[simp] theorem State.bump_ops (s : State) : (s.bump).ops = s.ops := rfl
@[simp] theorem State.bump_xd (s : State) : (s.bump).xd = s.xd := rfl
@[simp] theorem State.bump_preempts (s : State) : (s.bump).preempts = s.preempts := rfl
@[simp] theorem State.bump_pageReqs (s : State) : (s.bump).pageReqs = s.pageReqs := rfl
@[simp] theorem State.bump_nodes (s : State) : (s.bump).nodes = s.nodes := rfl
@[simp] theorem State.bump_ats (s : State) : (s.bump).ats = s.ats := rfl
@[simp] theorem State.bump_invals (s : State) : (s.bump).invals = s.invals := rfl
@[simp] theorem State.bump_log (s : State) : (s.bump).log = s.log := rfl
@[simp] theorem State.bump_cur (s : State) : (s.bump).cur = s.cur := rfl
@[simp] theorem State.bump_forced (s : State) : (s.bump).forced = s.forced := rfl
@[simp] theorem State.bump_agenda (s : State) : (s.bump).agenda = s.agenda := rfl
@[simp] theorem State.bump_served (s : State) : (s.bump).served = s.served := rfl
@[simp] theorem State.bump_late (s : State) : (s.bump).late = s.late := rfl
@[simp] theorem State.bump_arrivals (s : State) : (s.bump).arrivals = s.arrivals := rfl
@[simp] theorem State.bump_barred (s : State) : (s.bump).barred = s.barred := rfl
@[simp] theorem State.bump_fresh (s : State) : (s.bump).fresh = s.fresh := rfl
@[simp] theorem State.bump_nextId (s : State) : (s.bump).nextId = s.nextId + 1 := rfl

/-! ### note -/

@[simp] theorem State.note_pkg (s : State) (c : Option Nat) (k : LogKind) (d : List Int) : (s.note c k d).pkg = s.pkg := rfl
@[simp] theorem State.note_mem (s : State) (c : Option Nat) (k : LogKind) (d : List Int) : (s.note c k d).mem = s.mem := rfl
@[simp] theorem State.note_home (s : State) (c : Option Nat) (k : LogKind) (d : List Int) : (s.note c k d).home = s.home := rfl
@[simp] theorem State.note_warps (s : State) (c : Option Nat) (k : LogKind) (d : List Int) : (s.note c k d).warps = s.warps := rfl
@[simp] theorem State.note_gangs (s : State) (c : Option Nat) (k : LogKind) (d : List Int) : (s.note c k d).gangs = s.gangs := rfl
@[simp] theorem State.note_launches (s : State) (c : Option Nat) (k : LogKind) (d : List Int) : (s.note c k d).launches = s.launches := rfl
@[simp] theorem State.note_ctxs (s : State) (c : Option Nat) (k : LogKind) (d : List Int) : (s.note c k d).ctxs = s.ctxs := rfl
@[simp] theorem State.note_paddocks (s : State) (c : Option Nat) (k : LogKind) (d : List Int) : (s.note c k d).paddocks = s.paddocks := rfl
@[simp] theorem State.note_journal (s : State) (c : Option Nat) (k : LogKind) (d : List Int) : (s.note c k d).journal = s.journal := rfl
@[simp] theorem State.note_chans (s : State) (c : Option Nat) (k : LogKind) (d : List Int) : (s.note c k d).chans = s.chans := rfl
@[simp] theorem State.note_cores (s : State) (c : Option Nat) (k : LogKind) (d : List Int) : (s.note c k d).cores = s.cores := rfl
@[simp] theorem State.note_reqs (s : State) (c : Option Nat) (k : LogKind) (d : List Int) : (s.note c k d).reqs = s.reqs := rfl
@[simp] theorem State.note_ops (s : State) (c : Option Nat) (k : LogKind) (d : List Int) : (s.note c k d).ops = s.ops := rfl
@[simp] theorem State.note_xd (s : State) (c : Option Nat) (k : LogKind) (d : List Int) : (s.note c k d).xd = s.xd := rfl
@[simp] theorem State.note_preempts (s : State) (c : Option Nat) (k : LogKind) (d : List Int) : (s.note c k d).preempts = s.preempts := rfl
@[simp] theorem State.note_pageReqs (s : State) (c : Option Nat) (k : LogKind) (d : List Int) : (s.note c k d).pageReqs = s.pageReqs := rfl
@[simp] theorem State.note_nodes (s : State) (c : Option Nat) (k : LogKind) (d : List Int) : (s.note c k d).nodes = s.nodes := rfl
@[simp] theorem State.note_ats (s : State) (c : Option Nat) (k : LogKind) (d : List Int) : (s.note c k d).ats = s.ats := rfl
@[simp] theorem State.note_invals (s : State) (c : Option Nat) (k : LogKind) (d : List Int) : (s.note c k d).invals = s.invals := rfl
@[simp] theorem State.note_log (s : State) (c : Option Nat) (k : LogKind) (d : List Int) : (s.note c k d).log = s.log ++ [⟨c, k, d⟩] := rfl
@[simp] theorem State.note_cur (s : State) (c : Option Nat) (k : LogKind) (d : List Int) : (s.note c k d).cur = s.cur := rfl
@[simp] theorem State.note_forced (s : State) (c : Option Nat) (k : LogKind) (d : List Int) : (s.note c k d).forced = s.forced := rfl
@[simp] theorem State.note_agenda (s : State) (c : Option Nat) (k : LogKind) (d : List Int) : (s.note c k d).agenda = s.agenda := rfl
@[simp] theorem State.note_served (s : State) (c : Option Nat) (k : LogKind) (d : List Int) : (s.note c k d).served = s.served := rfl
@[simp] theorem State.note_late (s : State) (c : Option Nat) (k : LogKind) (d : List Int) : (s.note c k d).late = s.late := rfl
@[simp] theorem State.note_arrivals (s : State) (c : Option Nat) (k : LogKind) (d : List Int) : (s.note c k d).arrivals = s.arrivals := rfl
@[simp] theorem State.note_barred (s : State) (c : Option Nat) (k : LogKind) (d : List Int) : (s.note c k d).barred = s.barred := rfl
@[simp] theorem State.note_fresh (s : State) (c : Option Nat) (k : LogKind) (d : List Int) : (s.note c k d).fresh = s.fresh := rfl
@[simp] theorem State.note_nextId (s : State) (c : Option Nat) (k : LogKind) (d : List Int) : (s.note c k d).nextId = s.nextId := rfl

/-! ### modCore -/

@[simp] theorem State.modCore_pkg (s : State) (n : Nat) (f : Core → Core) : (s.modCore n f).pkg = s.pkg := by unfold State.modCore; split <;> rfl
@[simp] theorem State.modCore_mem (s : State) (n : Nat) (f : Core → Core) : (s.modCore n f).mem = s.mem := by unfold State.modCore; split <;> rfl
@[simp] theorem State.modCore_home (s : State) (n : Nat) (f : Core → Core) : (s.modCore n f).home = s.home := by unfold State.modCore; split <;> rfl
@[simp] theorem State.modCore_warps (s : State) (n : Nat) (f : Core → Core) : (s.modCore n f).warps = s.warps := by unfold State.modCore; split <;> rfl
@[simp] theorem State.modCore_gangs (s : State) (n : Nat) (f : Core → Core) : (s.modCore n f).gangs = s.gangs := by unfold State.modCore; split <;> rfl
@[simp] theorem State.modCore_launches (s : State) (n : Nat) (f : Core → Core) : (s.modCore n f).launches = s.launches := by unfold State.modCore; split <;> rfl
@[simp] theorem State.modCore_ctxs (s : State) (n : Nat) (f : Core → Core) : (s.modCore n f).ctxs = s.ctxs := by unfold State.modCore; split <;> rfl
@[simp] theorem State.modCore_paddocks (s : State) (n : Nat) (f : Core → Core) : (s.modCore n f).paddocks = s.paddocks := by unfold State.modCore; split <;> rfl
@[simp] theorem State.modCore_journal (s : State) (n : Nat) (f : Core → Core) : (s.modCore n f).journal = s.journal := by unfold State.modCore; split <;> rfl
@[simp] theorem State.modCore_chans (s : State) (n : Nat) (f : Core → Core) : (s.modCore n f).chans = s.chans := by unfold State.modCore; split <;> rfl
@[simp] theorem State.modCore_reqs (s : State) (n : Nat) (f : Core → Core) : (s.modCore n f).reqs = s.reqs := by unfold State.modCore; split <;> rfl
@[simp] theorem State.modCore_ops (s : State) (n : Nat) (f : Core → Core) : (s.modCore n f).ops = s.ops := by unfold State.modCore; split <;> rfl
@[simp] theorem State.modCore_xd (s : State) (n : Nat) (f : Core → Core) : (s.modCore n f).xd = s.xd := by unfold State.modCore; split <;> rfl
@[simp] theorem State.modCore_preempts (s : State) (n : Nat) (f : Core → Core) : (s.modCore n f).preempts = s.preempts := by unfold State.modCore; split <;> rfl
@[simp] theorem State.modCore_pageReqs (s : State) (n : Nat) (f : Core → Core) : (s.modCore n f).pageReqs = s.pageReqs := by unfold State.modCore; split <;> rfl
@[simp] theorem State.modCore_nodes (s : State) (n : Nat) (f : Core → Core) : (s.modCore n f).nodes = s.nodes := by unfold State.modCore; split <;> rfl
@[simp] theorem State.modCore_ats (s : State) (n : Nat) (f : Core → Core) : (s.modCore n f).ats = s.ats := by unfold State.modCore; split <;> rfl
@[simp] theorem State.modCore_invals (s : State) (n : Nat) (f : Core → Core) : (s.modCore n f).invals = s.invals := by unfold State.modCore; split <;> rfl
@[simp] theorem State.modCore_log (s : State) (n : Nat) (f : Core → Core) : (s.modCore n f).log = s.log := by unfold State.modCore; split <;> rfl
@[simp] theorem State.modCore_cur (s : State) (n : Nat) (f : Core → Core) : (s.modCore n f).cur = s.cur := by unfold State.modCore; split <;> rfl
@[simp] theorem State.modCore_forced (s : State) (n : Nat) (f : Core → Core) : (s.modCore n f).forced = s.forced := by unfold State.modCore; split <;> rfl
@[simp] theorem State.modCore_agenda (s : State) (n : Nat) (f : Core → Core) : (s.modCore n f).agenda = s.agenda := by unfold State.modCore; split <;> rfl
@[simp] theorem State.modCore_served (s : State) (n : Nat) (f : Core → Core) : (s.modCore n f).served = s.served := by unfold State.modCore; split <;> rfl
@[simp] theorem State.modCore_late (s : State) (n : Nat) (f : Core → Core) : (s.modCore n f).late = s.late := by unfold State.modCore; split <;> rfl
@[simp] theorem State.modCore_arrivals (s : State) (n : Nat) (f : Core → Core) : (s.modCore n f).arrivals = s.arrivals := by unfold State.modCore; split <;> rfl
@[simp] theorem State.modCore_barred (s : State) (n : Nat) (f : Core → Core) : (s.modCore n f).barred = s.barred := by unfold State.modCore; split <;> rfl
@[simp] theorem State.modCore_fresh (s : State) (n : Nat) (f : Core → Core) : (s.modCore n f).fresh = s.fresh := by unfold State.modCore; split <;> rfl
@[simp] theorem State.modCore_nextId (s : State) (n : Nat) (f : Core → Core) : (s.modCore n f).nextId = s.nextId := by unfold State.modCore; split <;> rfl

/-! ### modPaddock -/

@[simp] theorem State.modPaddock_pkg (s : State) (n : Nat) (f : Paddock → Paddock) : (s.modPaddock n f).pkg = s.pkg := by unfold State.modPaddock; split <;> rfl
@[simp] theorem State.modPaddock_mem (s : State) (n : Nat) (f : Paddock → Paddock) : (s.modPaddock n f).mem = s.mem := by unfold State.modPaddock; split <;> rfl
@[simp] theorem State.modPaddock_home (s : State) (n : Nat) (f : Paddock → Paddock) : (s.modPaddock n f).home = s.home := by unfold State.modPaddock; split <;> rfl
@[simp] theorem State.modPaddock_warps (s : State) (n : Nat) (f : Paddock → Paddock) : (s.modPaddock n f).warps = s.warps := by unfold State.modPaddock; split <;> rfl
@[simp] theorem State.modPaddock_gangs (s : State) (n : Nat) (f : Paddock → Paddock) : (s.modPaddock n f).gangs = s.gangs := by unfold State.modPaddock; split <;> rfl
@[simp] theorem State.modPaddock_launches (s : State) (n : Nat) (f : Paddock → Paddock) : (s.modPaddock n f).launches = s.launches := by unfold State.modPaddock; split <;> rfl
@[simp] theorem State.modPaddock_ctxs (s : State) (n : Nat) (f : Paddock → Paddock) : (s.modPaddock n f).ctxs = s.ctxs := by unfold State.modPaddock; split <;> rfl
@[simp] theorem State.modPaddock_journal (s : State) (n : Nat) (f : Paddock → Paddock) : (s.modPaddock n f).journal = s.journal := by unfold State.modPaddock; split <;> rfl
@[simp] theorem State.modPaddock_chans (s : State) (n : Nat) (f : Paddock → Paddock) : (s.modPaddock n f).chans = s.chans := by unfold State.modPaddock; split <;> rfl
@[simp] theorem State.modPaddock_cores (s : State) (n : Nat) (f : Paddock → Paddock) : (s.modPaddock n f).cores = s.cores := by unfold State.modPaddock; split <;> rfl
@[simp] theorem State.modPaddock_reqs (s : State) (n : Nat) (f : Paddock → Paddock) : (s.modPaddock n f).reqs = s.reqs := by unfold State.modPaddock; split <;> rfl
@[simp] theorem State.modPaddock_ops (s : State) (n : Nat) (f : Paddock → Paddock) : (s.modPaddock n f).ops = s.ops := by unfold State.modPaddock; split <;> rfl
@[simp] theorem State.modPaddock_xd (s : State) (n : Nat) (f : Paddock → Paddock) : (s.modPaddock n f).xd = s.xd := by unfold State.modPaddock; split <;> rfl
@[simp] theorem State.modPaddock_preempts (s : State) (n : Nat) (f : Paddock → Paddock) : (s.modPaddock n f).preempts = s.preempts := by unfold State.modPaddock; split <;> rfl
@[simp] theorem State.modPaddock_pageReqs (s : State) (n : Nat) (f : Paddock → Paddock) : (s.modPaddock n f).pageReqs = s.pageReqs := by unfold State.modPaddock; split <;> rfl
@[simp] theorem State.modPaddock_nodes (s : State) (n : Nat) (f : Paddock → Paddock) : (s.modPaddock n f).nodes = s.nodes := by unfold State.modPaddock; split <;> rfl
@[simp] theorem State.modPaddock_ats (s : State) (n : Nat) (f : Paddock → Paddock) : (s.modPaddock n f).ats = s.ats := by unfold State.modPaddock; split <;> rfl
@[simp] theorem State.modPaddock_invals (s : State) (n : Nat) (f : Paddock → Paddock) : (s.modPaddock n f).invals = s.invals := by unfold State.modPaddock; split <;> rfl
@[simp] theorem State.modPaddock_log (s : State) (n : Nat) (f : Paddock → Paddock) : (s.modPaddock n f).log = s.log := by unfold State.modPaddock; split <;> rfl
@[simp] theorem State.modPaddock_cur (s : State) (n : Nat) (f : Paddock → Paddock) : (s.modPaddock n f).cur = s.cur := by unfold State.modPaddock; split <;> rfl
@[simp] theorem State.modPaddock_forced (s : State) (n : Nat) (f : Paddock → Paddock) : (s.modPaddock n f).forced = s.forced := by unfold State.modPaddock; split <;> rfl
@[simp] theorem State.modPaddock_agenda (s : State) (n : Nat) (f : Paddock → Paddock) : (s.modPaddock n f).agenda = s.agenda := by unfold State.modPaddock; split <;> rfl
@[simp] theorem State.modPaddock_served (s : State) (n : Nat) (f : Paddock → Paddock) : (s.modPaddock n f).served = s.served := by unfold State.modPaddock; split <;> rfl
@[simp] theorem State.modPaddock_late (s : State) (n : Nat) (f : Paddock → Paddock) : (s.modPaddock n f).late = s.late := by unfold State.modPaddock; split <;> rfl
@[simp] theorem State.modPaddock_arrivals (s : State) (n : Nat) (f : Paddock → Paddock) : (s.modPaddock n f).arrivals = s.arrivals := by unfold State.modPaddock; split <;> rfl
@[simp] theorem State.modPaddock_barred (s : State) (n : Nat) (f : Paddock → Paddock) : (s.modPaddock n f).barred = s.barred := by unfold State.modPaddock; split <;> rfl
@[simp] theorem State.modPaddock_fresh (s : State) (n : Nat) (f : Paddock → Paddock) : (s.modPaddock n f).fresh = s.fresh := by unfold State.modPaddock; split <;> rfl
@[simp] theorem State.modPaddock_nextId (s : State) (n : Nat) (f : Paddock → Paddock) : (s.modPaddock n f).nextId = s.nextId := by unfold State.modPaddock; split <;> rfl

/-! ### Register updates of a warp -/

@[simp] theorem Warp.setV_wid (w : Warp) (l n : Nat) (x : Int) : (w.setV l n x).wid = w.wid := rfl
@[simp] theorem Warp.setV_gid (w : Warp) (l n : Nat) (x : Int) : (w.setV l n x).gid = w.gid := rfl
@[simp] theorem Warp.setV_ctx (w : Warp) (l n : Nat) (x : Int) : (w.setV l n x).ctx = w.ctx := rfl
@[simp] theorem Warp.setV_num (w : Warp) (l n : Nat) (x : Int) : (w.setV l n x).num = w.num := rfl
@[simp] theorem Warp.setV_place (w : Warp) (l n : Nat) (x : Int) : (w.setV l n x).place = w.place := rfl
@[simp] theorem Warp.setV_cls (w : Warp) (l n : Nat) (x : Int) : (w.setV l n x).cls = w.cls := rfl
@[simp] theorem Warp.setV_level (w : Warp) (l n : Nat) (x : Int) : (w.setV l n x).level = w.level := rfl
@[simp] theorem Warp.setV_allot (w : Warp) (l n : Nat) (x : Int) : (w.setV l n x).allot = w.allot := rfl
@[simp] theorem Warp.setV_g (w : Warp) (l n : Nat) (x : Int) : (w.setV l n x).g = w.g := rfl
@[simp] theorem Warp.setV_p (w : Warp) (l n : Nat) (x : Int) : (w.setV l n x).p = w.p := rfl
@[simp] theorem Warp.setV_q (w : Warp) (l n : Nat) (x : Int) : (w.setV l n x).q = w.q := rfl
@[simp] theorem Warp.setV_spill (w : Warp) (l n : Nat) (x : Int) : (w.setV l n x).spill = w.spill := rfl
@[simp] theorem Warp.setV_gtimeh (w : Warp) (l n : Nat) (x : Int) : (w.setV l n x).gtimeh = w.gtimeh := rfl
@[simp] theorem Warp.setV_redSeq (w : Warp) (l n : Nat) (x : Int) : (w.setV l n x).redSeq = w.redSeq := rfl
@[simp] theorem Warp.setV_lanes (w : Warp) (l n : Nat) (x : Int) : (w.setV l n x).lanes = w.lanes := rfl
@[simp] theorem Warp.setV_handler (w : Warp) (l n : Nat) (x : Int) : (w.setV l n x).handler = w.handler := rfl
@[simp] theorem Warp.setV_hpc (w : Warp) (l n : Nat) (x : Int) : (w.setV l n x).hpc = w.hpc := rfl
@[simp] theorem Warp.setV_tCause (w : Warp) (l n : Nat) (x : Int) : (w.setV l n x).tCause = w.tCause := rfl
@[simp] theorem Warp.setV_tLanes (w : Warp) (l n : Nat) (x : Int) : (w.setV l n x).tLanes = w.tLanes := rfl
@[simp] theorem Warp.setV_tLevel (w : Warp) (l n : Nat) (x : Int) : (w.setV l n x).tLevel = w.tLevel := rfl
@[simp] theorem Warp.setV_inTaskf (w : Warp) (l n : Nat) (x : Int) : (w.setV l n x).inTaskf = w.inTaskf := rfl
@[simp] theorem Warp.setV_taskfs (w : Warp) (l n : Nat) (x : Int) : (w.setV l n x).taskfs = w.taskfs := rfl
@[simp] theorem Warp.setV_watchTraps (w : Warp) (l n : Nat) (x : Int) : (w.setV l n x).watchTraps = w.watchTraps := rfl
@[simp] theorem Warp.setV_permits (w : Warp) (l n : Nat) (x : Int) : (w.setV l n x).permits = w.permits := rfl
@[simp] theorem Warp.setV_pends (w : Warp) (l n : Nat) (x : Int) : (w.setV l n x).pends = w.pends := rfl
@[simp] theorem Warp.setV_fence (w : Warp) (l n : Nat) (x : Int) : (w.setV l n x).fence = w.fence := rfl
@[simp] theorem Warp.setV_code (w : Warp) (l n : Nat) (x : Int) : (w.setV l n x).code = w.code := rfl
@[simp] theorem Warp.setV_park (w : Warp) (l n : Nat) (x : Int) : (w.setV l n x).park = w.park := rfl
@[simp] theorem Warp.setV_deadline (w : Warp) (l n : Nat) (x : Int) : (w.setV l n x).deadline = w.deadline := rfl
@[simp] theorem Warp.setV_halts (w : Warp) (l n : Nat) (x : Int) : (w.setV l n x).halts = w.halts := rfl
@[simp] theorem Warp.setV_dbl (w : Warp) (l n : Nat) (x : Int) : (w.setV l n x).dbl = w.dbl := rfl
@[simp] theorem Warp.setV_idle (w : Warp) (l n : Nat) (x : Int) : (w.setV l n x).idle = w.idle := rfl
@[simp] theorem Warp.setV_lastIssue (w : Warp) (l n : Nat) (x : Int) : (w.setV l n x).lastIssue = w.lastIssue := rfl
@[simp] theorem Warp.setV_hold (w : Warp) (l n : Nat) (x : Int) : (w.setV l n x).hold = w.hold := rfl
@[simp] theorem Warp.setV_blocked (w : Warp) (l n : Nat) (x : Int) : (w.setV l n x).blocked = w.blocked := rfl
@[simp] theorem Warp.setV_released (w : Warp) (l n : Nat) (x : Int) : (w.setV l n x).released = w.released := rfl
@[simp] theorem Warp.setG_wid (w : Warp) (n : Nat) (x : Int) : (w.setG n x).wid = w.wid := rfl
@[simp] theorem Warp.setG_gid (w : Warp) (n : Nat) (x : Int) : (w.setG n x).gid = w.gid := rfl
@[simp] theorem Warp.setG_ctx (w : Warp) (n : Nat) (x : Int) : (w.setG n x).ctx = w.ctx := rfl
@[simp] theorem Warp.setG_num (w : Warp) (n : Nat) (x : Int) : (w.setG n x).num = w.num := rfl
@[simp] theorem Warp.setG_place (w : Warp) (n : Nat) (x : Int) : (w.setG n x).place = w.place := rfl
@[simp] theorem Warp.setG_cls (w : Warp) (n : Nat) (x : Int) : (w.setG n x).cls = w.cls := rfl
@[simp] theorem Warp.setG_level (w : Warp) (n : Nat) (x : Int) : (w.setG n x).level = w.level := rfl
@[simp] theorem Warp.setG_allot (w : Warp) (n : Nat) (x : Int) : (w.setG n x).allot = w.allot := rfl
@[simp] theorem Warp.setG_v (w : Warp) (n : Nat) (x : Int) : (w.setG n x).v = w.v := rfl
@[simp] theorem Warp.setG_p (w : Warp) (n : Nat) (x : Int) : (w.setG n x).p = w.p := rfl
@[simp] theorem Warp.setG_q (w : Warp) (n : Nat) (x : Int) : (w.setG n x).q = w.q := rfl
@[simp] theorem Warp.setG_spill (w : Warp) (n : Nat) (x : Int) : (w.setG n x).spill = w.spill := rfl
@[simp] theorem Warp.setG_gtimeh (w : Warp) (n : Nat) (x : Int) : (w.setG n x).gtimeh = w.gtimeh := rfl
@[simp] theorem Warp.setG_redSeq (w : Warp) (n : Nat) (x : Int) : (w.setG n x).redSeq = w.redSeq := rfl
@[simp] theorem Warp.setG_lanes (w : Warp) (n : Nat) (x : Int) : (w.setG n x).lanes = w.lanes := rfl
@[simp] theorem Warp.setG_handler (w : Warp) (n : Nat) (x : Int) : (w.setG n x).handler = w.handler := rfl
@[simp] theorem Warp.setG_hpc (w : Warp) (n : Nat) (x : Int) : (w.setG n x).hpc = w.hpc := rfl
@[simp] theorem Warp.setG_tCause (w : Warp) (n : Nat) (x : Int) : (w.setG n x).tCause = w.tCause := rfl
@[simp] theorem Warp.setG_tLanes (w : Warp) (n : Nat) (x : Int) : (w.setG n x).tLanes = w.tLanes := rfl
@[simp] theorem Warp.setG_tLevel (w : Warp) (n : Nat) (x : Int) : (w.setG n x).tLevel = w.tLevel := rfl
@[simp] theorem Warp.setG_inTaskf (w : Warp) (n : Nat) (x : Int) : (w.setG n x).inTaskf = w.inTaskf := rfl
@[simp] theorem Warp.setG_taskfs (w : Warp) (n : Nat) (x : Int) : (w.setG n x).taskfs = w.taskfs := rfl
@[simp] theorem Warp.setG_watchTraps (w : Warp) (n : Nat) (x : Int) : (w.setG n x).watchTraps = w.watchTraps := rfl
@[simp] theorem Warp.setG_permits (w : Warp) (n : Nat) (x : Int) : (w.setG n x).permits = w.permits := rfl
@[simp] theorem Warp.setG_pends (w : Warp) (n : Nat) (x : Int) : (w.setG n x).pends = w.pends := rfl
@[simp] theorem Warp.setG_fence (w : Warp) (n : Nat) (x : Int) : (w.setG n x).fence = w.fence := rfl
@[simp] theorem Warp.setG_code (w : Warp) (n : Nat) (x : Int) : (w.setG n x).code = w.code := rfl
@[simp] theorem Warp.setG_park (w : Warp) (n : Nat) (x : Int) : (w.setG n x).park = w.park := rfl
@[simp] theorem Warp.setG_deadline (w : Warp) (n : Nat) (x : Int) : (w.setG n x).deadline = w.deadline := rfl
@[simp] theorem Warp.setG_halts (w : Warp) (n : Nat) (x : Int) : (w.setG n x).halts = w.halts := rfl
@[simp] theorem Warp.setG_dbl (w : Warp) (n : Nat) (x : Int) : (w.setG n x).dbl = w.dbl := rfl
@[simp] theorem Warp.setG_idle (w : Warp) (n : Nat) (x : Int) : (w.setG n x).idle = w.idle := rfl
@[simp] theorem Warp.setG_lastIssue (w : Warp) (n : Nat) (x : Int) : (w.setG n x).lastIssue = w.lastIssue := rfl
@[simp] theorem Warp.setG_hold (w : Warp) (n : Nat) (x : Int) : (w.setG n x).hold = w.hold := rfl
@[simp] theorem Warp.setG_blocked (w : Warp) (n : Nat) (x : Int) : (w.setG n x).blocked = w.blocked := rfl
@[simp] theorem Warp.setG_released (w : Warp) (n : Nat) (x : Int) : (w.setG n x).released = w.released := rfl
@[simp] theorem Warp.setP_wid (w : Warp) (l n : Nat) (x : Int) : (w.setP l n x).wid = w.wid := by unfold Warp.setP; split <;> rfl
@[simp] theorem Warp.setP_gid (w : Warp) (l n : Nat) (x : Int) : (w.setP l n x).gid = w.gid := by unfold Warp.setP; split <;> rfl
@[simp] theorem Warp.setP_ctx (w : Warp) (l n : Nat) (x : Int) : (w.setP l n x).ctx = w.ctx := by unfold Warp.setP; split <;> rfl
@[simp] theorem Warp.setP_num (w : Warp) (l n : Nat) (x : Int) : (w.setP l n x).num = w.num := by unfold Warp.setP; split <;> rfl
@[simp] theorem Warp.setP_place (w : Warp) (l n : Nat) (x : Int) : (w.setP l n x).place = w.place := by unfold Warp.setP; split <;> rfl
@[simp] theorem Warp.setP_cls (w : Warp) (l n : Nat) (x : Int) : (w.setP l n x).cls = w.cls := by unfold Warp.setP; split <;> rfl
@[simp] theorem Warp.setP_level (w : Warp) (l n : Nat) (x : Int) : (w.setP l n x).level = w.level := by unfold Warp.setP; split <;> rfl
@[simp] theorem Warp.setP_allot (w : Warp) (l n : Nat) (x : Int) : (w.setP l n x).allot = w.allot := by unfold Warp.setP; split <;> rfl
@[simp] theorem Warp.setP_v (w : Warp) (l n : Nat) (x : Int) : (w.setP l n x).v = w.v := by unfold Warp.setP; split <;> rfl
@[simp] theorem Warp.setP_g (w : Warp) (l n : Nat) (x : Int) : (w.setP l n x).g = w.g := by unfold Warp.setP; split <;> rfl
@[simp] theorem Warp.setP_q (w : Warp) (l n : Nat) (x : Int) : (w.setP l n x).q = w.q := by unfold Warp.setP; split <;> rfl
@[simp] theorem Warp.setP_spill (w : Warp) (l n : Nat) (x : Int) : (w.setP l n x).spill = w.spill := by unfold Warp.setP; split <;> rfl
@[simp] theorem Warp.setP_gtimeh (w : Warp) (l n : Nat) (x : Int) : (w.setP l n x).gtimeh = w.gtimeh := by unfold Warp.setP; split <;> rfl
@[simp] theorem Warp.setP_redSeq (w : Warp) (l n : Nat) (x : Int) : (w.setP l n x).redSeq = w.redSeq := by unfold Warp.setP; split <;> rfl
@[simp] theorem Warp.setP_lanes (w : Warp) (l n : Nat) (x : Int) : (w.setP l n x).lanes = w.lanes := by unfold Warp.setP; split <;> rfl
@[simp] theorem Warp.setP_handler (w : Warp) (l n : Nat) (x : Int) : (w.setP l n x).handler = w.handler := by unfold Warp.setP; split <;> rfl
@[simp] theorem Warp.setP_hpc (w : Warp) (l n : Nat) (x : Int) : (w.setP l n x).hpc = w.hpc := by unfold Warp.setP; split <;> rfl
@[simp] theorem Warp.setP_tCause (w : Warp) (l n : Nat) (x : Int) : (w.setP l n x).tCause = w.tCause := by unfold Warp.setP; split <;> rfl
@[simp] theorem Warp.setP_tLanes (w : Warp) (l n : Nat) (x : Int) : (w.setP l n x).tLanes = w.tLanes := by unfold Warp.setP; split <;> rfl
@[simp] theorem Warp.setP_tLevel (w : Warp) (l n : Nat) (x : Int) : (w.setP l n x).tLevel = w.tLevel := by unfold Warp.setP; split <;> rfl
@[simp] theorem Warp.setP_inTaskf (w : Warp) (l n : Nat) (x : Int) : (w.setP l n x).inTaskf = w.inTaskf := by unfold Warp.setP; split <;> rfl
@[simp] theorem Warp.setP_taskfs (w : Warp) (l n : Nat) (x : Int) : (w.setP l n x).taskfs = w.taskfs := by unfold Warp.setP; split <;> rfl
@[simp] theorem Warp.setP_watchTraps (w : Warp) (l n : Nat) (x : Int) : (w.setP l n x).watchTraps = w.watchTraps := by unfold Warp.setP; split <;> rfl
@[simp] theorem Warp.setP_permits (w : Warp) (l n : Nat) (x : Int) : (w.setP l n x).permits = w.permits := by unfold Warp.setP; split <;> rfl
@[simp] theorem Warp.setP_pends (w : Warp) (l n : Nat) (x : Int) : (w.setP l n x).pends = w.pends := by unfold Warp.setP; split <;> rfl
@[simp] theorem Warp.setP_fence (w : Warp) (l n : Nat) (x : Int) : (w.setP l n x).fence = w.fence := by unfold Warp.setP; split <;> rfl
@[simp] theorem Warp.setP_code (w : Warp) (l n : Nat) (x : Int) : (w.setP l n x).code = w.code := by unfold Warp.setP; split <;> rfl
@[simp] theorem Warp.setP_park (w : Warp) (l n : Nat) (x : Int) : (w.setP l n x).park = w.park := by unfold Warp.setP; split <;> rfl
@[simp] theorem Warp.setP_deadline (w : Warp) (l n : Nat) (x : Int) : (w.setP l n x).deadline = w.deadline := by unfold Warp.setP; split <;> rfl
@[simp] theorem Warp.setP_halts (w : Warp) (l n : Nat) (x : Int) : (w.setP l n x).halts = w.halts := by unfold Warp.setP; split <;> rfl
@[simp] theorem Warp.setP_dbl (w : Warp) (l n : Nat) (x : Int) : (w.setP l n x).dbl = w.dbl := by unfold Warp.setP; split <;> rfl
@[simp] theorem Warp.setP_idle (w : Warp) (l n : Nat) (x : Int) : (w.setP l n x).idle = w.idle := by unfold Warp.setP; split <;> rfl
@[simp] theorem Warp.setP_lastIssue (w : Warp) (l n : Nat) (x : Int) : (w.setP l n x).lastIssue = w.lastIssue := by unfold Warp.setP; split <;> rfl
@[simp] theorem Warp.setP_hold (w : Warp) (l n : Nat) (x : Int) : (w.setP l n x).hold = w.hold := by unfold Warp.setP; split <;> rfl
@[simp] theorem Warp.setP_blocked (w : Warp) (l n : Nat) (x : Int) : (w.setP l n x).blocked = w.blocked := by unfold Warp.setP; split <;> rfl
@[simp] theorem Warp.setP_released (w : Warp) (l n : Nat) (x : Int) : (w.setP l n x).released = w.released := by unfold Warp.setP; split <;> rfl
@[simp] theorem Warp.setQ_wid (w : Warp) (n : Nat) (x : Int) : (w.setQ n x).wid = w.wid := by unfold Warp.setQ; split <;> rfl
@[simp] theorem Warp.setQ_gid (w : Warp) (n : Nat) (x : Int) : (w.setQ n x).gid = w.gid := by unfold Warp.setQ; split <;> rfl
@[simp] theorem Warp.setQ_ctx (w : Warp) (n : Nat) (x : Int) : (w.setQ n x).ctx = w.ctx := by unfold Warp.setQ; split <;> rfl
@[simp] theorem Warp.setQ_num (w : Warp) (n : Nat) (x : Int) : (w.setQ n x).num = w.num := by unfold Warp.setQ; split <;> rfl
@[simp] theorem Warp.setQ_place (w : Warp) (n : Nat) (x : Int) : (w.setQ n x).place = w.place := by unfold Warp.setQ; split <;> rfl
@[simp] theorem Warp.setQ_cls (w : Warp) (n : Nat) (x : Int) : (w.setQ n x).cls = w.cls := by unfold Warp.setQ; split <;> rfl
@[simp] theorem Warp.setQ_level (w : Warp) (n : Nat) (x : Int) : (w.setQ n x).level = w.level := by unfold Warp.setQ; split <;> rfl
@[simp] theorem Warp.setQ_allot (w : Warp) (n : Nat) (x : Int) : (w.setQ n x).allot = w.allot := by unfold Warp.setQ; split <;> rfl
@[simp] theorem Warp.setQ_v (w : Warp) (n : Nat) (x : Int) : (w.setQ n x).v = w.v := by unfold Warp.setQ; split <;> rfl
@[simp] theorem Warp.setQ_g (w : Warp) (n : Nat) (x : Int) : (w.setQ n x).g = w.g := by unfold Warp.setQ; split <;> rfl
@[simp] theorem Warp.setQ_p (w : Warp) (n : Nat) (x : Int) : (w.setQ n x).p = w.p := by unfold Warp.setQ; split <;> rfl
@[simp] theorem Warp.setQ_spill (w : Warp) (n : Nat) (x : Int) : (w.setQ n x).spill = w.spill := by unfold Warp.setQ; split <;> rfl
@[simp] theorem Warp.setQ_gtimeh (w : Warp) (n : Nat) (x : Int) : (w.setQ n x).gtimeh = w.gtimeh := by unfold Warp.setQ; split <;> rfl
@[simp] theorem Warp.setQ_redSeq (w : Warp) (n : Nat) (x : Int) : (w.setQ n x).redSeq = w.redSeq := by unfold Warp.setQ; split <;> rfl
@[simp] theorem Warp.setQ_lanes (w : Warp) (n : Nat) (x : Int) : (w.setQ n x).lanes = w.lanes := by unfold Warp.setQ; split <;> rfl
@[simp] theorem Warp.setQ_handler (w : Warp) (n : Nat) (x : Int) : (w.setQ n x).handler = w.handler := by unfold Warp.setQ; split <;> rfl
@[simp] theorem Warp.setQ_hpc (w : Warp) (n : Nat) (x : Int) : (w.setQ n x).hpc = w.hpc := by unfold Warp.setQ; split <;> rfl
@[simp] theorem Warp.setQ_tCause (w : Warp) (n : Nat) (x : Int) : (w.setQ n x).tCause = w.tCause := by unfold Warp.setQ; split <;> rfl
@[simp] theorem Warp.setQ_tLanes (w : Warp) (n : Nat) (x : Int) : (w.setQ n x).tLanes = w.tLanes := by unfold Warp.setQ; split <;> rfl
@[simp] theorem Warp.setQ_tLevel (w : Warp) (n : Nat) (x : Int) : (w.setQ n x).tLevel = w.tLevel := by unfold Warp.setQ; split <;> rfl
@[simp] theorem Warp.setQ_inTaskf (w : Warp) (n : Nat) (x : Int) : (w.setQ n x).inTaskf = w.inTaskf := by unfold Warp.setQ; split <;> rfl
@[simp] theorem Warp.setQ_taskfs (w : Warp) (n : Nat) (x : Int) : (w.setQ n x).taskfs = w.taskfs := by unfold Warp.setQ; split <;> rfl
@[simp] theorem Warp.setQ_watchTraps (w : Warp) (n : Nat) (x : Int) : (w.setQ n x).watchTraps = w.watchTraps := by unfold Warp.setQ; split <;> rfl
@[simp] theorem Warp.setQ_permits (w : Warp) (n : Nat) (x : Int) : (w.setQ n x).permits = w.permits := by unfold Warp.setQ; split <;> rfl
@[simp] theorem Warp.setQ_pends (w : Warp) (n : Nat) (x : Int) : (w.setQ n x).pends = w.pends := by unfold Warp.setQ; split <;> rfl
@[simp] theorem Warp.setQ_fence (w : Warp) (n : Nat) (x : Int) : (w.setQ n x).fence = w.fence := by unfold Warp.setQ; split <;> rfl
@[simp] theorem Warp.setQ_code (w : Warp) (n : Nat) (x : Int) : (w.setQ n x).code = w.code := by unfold Warp.setQ; split <;> rfl
@[simp] theorem Warp.setQ_park (w : Warp) (n : Nat) (x : Int) : (w.setQ n x).park = w.park := by unfold Warp.setQ; split <;> rfl
@[simp] theorem Warp.setQ_deadline (w : Warp) (n : Nat) (x : Int) : (w.setQ n x).deadline = w.deadline := by unfold Warp.setQ; split <;> rfl
@[simp] theorem Warp.setQ_halts (w : Warp) (n : Nat) (x : Int) : (w.setQ n x).halts = w.halts := by unfold Warp.setQ; split <;> rfl
@[simp] theorem Warp.setQ_dbl (w : Warp) (n : Nat) (x : Int) : (w.setQ n x).dbl = w.dbl := by unfold Warp.setQ; split <;> rfl
@[simp] theorem Warp.setQ_idle (w : Warp) (n : Nat) (x : Int) : (w.setQ n x).idle = w.idle := by unfold Warp.setQ; split <;> rfl
@[simp] theorem Warp.setQ_lastIssue (w : Warp) (n : Nat) (x : Int) : (w.setQ n x).lastIssue = w.lastIssue := by unfold Warp.setQ; split <;> rfl
@[simp] theorem Warp.setQ_hold (w : Warp) (n : Nat) (x : Int) : (w.setQ n x).hold = w.hold := by unfold Warp.setQ; split <;> rfl
@[simp] theorem Warp.setQ_blocked (w : Warp) (n : Nat) (x : Int) : (w.setQ n x).blocked = w.blocked := by unfold Warp.setQ; split <;> rfl
@[simp] theorem Warp.setQ_released (w : Warp) (n : Nat) (x : Int) : (w.setQ n x).released = w.released := by unfold Warp.setQ; split <;> rfl
@[simp] theorem Warp.setDst_wid (w : Warp) (l : Nat) (d : Dst) (b : Bool) (x : Int) : (w.setDst l d b x).wid = w.wid := by unfold Warp.setDst; split <;> (try split) <;> rfl
@[simp] theorem Warp.setDst_gid (w : Warp) (l : Nat) (d : Dst) (b : Bool) (x : Int) : (w.setDst l d b x).gid = w.gid := by unfold Warp.setDst; split <;> (try split) <;> rfl
@[simp] theorem Warp.setDst_ctx (w : Warp) (l : Nat) (d : Dst) (b : Bool) (x : Int) : (w.setDst l d b x).ctx = w.ctx := by unfold Warp.setDst; split <;> (try split) <;> rfl
@[simp] theorem Warp.setDst_num (w : Warp) (l : Nat) (d : Dst) (b : Bool) (x : Int) : (w.setDst l d b x).num = w.num := by unfold Warp.setDst; split <;> (try split) <;> rfl
@[simp] theorem Warp.setDst_place (w : Warp) (l : Nat) (d : Dst) (b : Bool) (x : Int) : (w.setDst l d b x).place = w.place := by unfold Warp.setDst; split <;> (try split) <;> rfl
@[simp] theorem Warp.setDst_cls (w : Warp) (l : Nat) (d : Dst) (b : Bool) (x : Int) : (w.setDst l d b x).cls = w.cls := by unfold Warp.setDst; split <;> (try split) <;> rfl
@[simp] theorem Warp.setDst_level (w : Warp) (l : Nat) (d : Dst) (b : Bool) (x : Int) : (w.setDst l d b x).level = w.level := by unfold Warp.setDst; split <;> (try split) <;> rfl
@[simp] theorem Warp.setDst_allot (w : Warp) (l : Nat) (d : Dst) (b : Bool) (x : Int) : (w.setDst l d b x).allot = w.allot := by unfold Warp.setDst; split <;> (try split) <;> rfl
@[simp] theorem Warp.setDst_p (w : Warp) (l : Nat) (d : Dst) (b : Bool) (x : Int) : (w.setDst l d b x).p = w.p := by unfold Warp.setDst; split <;> (try split) <;> rfl
@[simp] theorem Warp.setDst_q (w : Warp) (l : Nat) (d : Dst) (b : Bool) (x : Int) : (w.setDst l d b x).q = w.q := by unfold Warp.setDst; split <;> (try split) <;> rfl
@[simp] theorem Warp.setDst_spill (w : Warp) (l : Nat) (d : Dst) (b : Bool) (x : Int) : (w.setDst l d b x).spill = w.spill := by unfold Warp.setDst; split <;> (try split) <;> rfl
@[simp] theorem Warp.setDst_gtimeh (w : Warp) (l : Nat) (d : Dst) (b : Bool) (x : Int) : (w.setDst l d b x).gtimeh = w.gtimeh := by unfold Warp.setDst; split <;> (try split) <;> rfl
@[simp] theorem Warp.setDst_redSeq (w : Warp) (l : Nat) (d : Dst) (b : Bool) (x : Int) : (w.setDst l d b x).redSeq = w.redSeq := by unfold Warp.setDst; split <;> (try split) <;> rfl
@[simp] theorem Warp.setDst_lanes (w : Warp) (l : Nat) (d : Dst) (b : Bool) (x : Int) : (w.setDst l d b x).lanes = w.lanes := by unfold Warp.setDst; split <;> (try split) <;> rfl
@[simp] theorem Warp.setDst_handler (w : Warp) (l : Nat) (d : Dst) (b : Bool) (x : Int) : (w.setDst l d b x).handler = w.handler := by unfold Warp.setDst; split <;> (try split) <;> rfl
@[simp] theorem Warp.setDst_hpc (w : Warp) (l : Nat) (d : Dst) (b : Bool) (x : Int) : (w.setDst l d b x).hpc = w.hpc := by unfold Warp.setDst; split <;> (try split) <;> rfl
@[simp] theorem Warp.setDst_tCause (w : Warp) (l : Nat) (d : Dst) (b : Bool) (x : Int) : (w.setDst l d b x).tCause = w.tCause := by unfold Warp.setDst; split <;> (try split) <;> rfl
@[simp] theorem Warp.setDst_tLanes (w : Warp) (l : Nat) (d : Dst) (b : Bool) (x : Int) : (w.setDst l d b x).tLanes = w.tLanes := by unfold Warp.setDst; split <;> (try split) <;> rfl
@[simp] theorem Warp.setDst_tLevel (w : Warp) (l : Nat) (d : Dst) (b : Bool) (x : Int) : (w.setDst l d b x).tLevel = w.tLevel := by unfold Warp.setDst; split <;> (try split) <;> rfl
@[simp] theorem Warp.setDst_inTaskf (w : Warp) (l : Nat) (d : Dst) (b : Bool) (x : Int) : (w.setDst l d b x).inTaskf = w.inTaskf := by unfold Warp.setDst; split <;> (try split) <;> rfl
@[simp] theorem Warp.setDst_taskfs (w : Warp) (l : Nat) (d : Dst) (b : Bool) (x : Int) : (w.setDst l d b x).taskfs = w.taskfs := by unfold Warp.setDst; split <;> (try split) <;> rfl
@[simp] theorem Warp.setDst_watchTraps (w : Warp) (l : Nat) (d : Dst) (b : Bool) (x : Int) : (w.setDst l d b x).watchTraps = w.watchTraps := by unfold Warp.setDst; split <;> (try split) <;> rfl
@[simp] theorem Warp.setDst_permits (w : Warp) (l : Nat) (d : Dst) (b : Bool) (x : Int) : (w.setDst l d b x).permits = w.permits := by unfold Warp.setDst; split <;> (try split) <;> rfl
@[simp] theorem Warp.setDst_pends (w : Warp) (l : Nat) (d : Dst) (b : Bool) (x : Int) : (w.setDst l d b x).pends = w.pends := by unfold Warp.setDst; split <;> (try split) <;> rfl
@[simp] theorem Warp.setDst_fence (w : Warp) (l : Nat) (d : Dst) (b : Bool) (x : Int) : (w.setDst l d b x).fence = w.fence := by unfold Warp.setDst; split <;> (try split) <;> rfl
@[simp] theorem Warp.setDst_code (w : Warp) (l : Nat) (d : Dst) (b : Bool) (x : Int) : (w.setDst l d b x).code = w.code := by unfold Warp.setDst; split <;> (try split) <;> rfl
@[simp] theorem Warp.setDst_park (w : Warp) (l : Nat) (d : Dst) (b : Bool) (x : Int) : (w.setDst l d b x).park = w.park := by unfold Warp.setDst; split <;> (try split) <;> rfl
@[simp] theorem Warp.setDst_deadline (w : Warp) (l : Nat) (d : Dst) (b : Bool) (x : Int) : (w.setDst l d b x).deadline = w.deadline := by unfold Warp.setDst; split <;> (try split) <;> rfl
@[simp] theorem Warp.setDst_halts (w : Warp) (l : Nat) (d : Dst) (b : Bool) (x : Int) : (w.setDst l d b x).halts = w.halts := by unfold Warp.setDst; split <;> (try split) <;> rfl
@[simp] theorem Warp.setDst_dbl (w : Warp) (l : Nat) (d : Dst) (b : Bool) (x : Int) : (w.setDst l d b x).dbl = w.dbl := by unfold Warp.setDst; split <;> (try split) <;> rfl
@[simp] theorem Warp.setDst_idle (w : Warp) (l : Nat) (d : Dst) (b : Bool) (x : Int) : (w.setDst l d b x).idle = w.idle := by unfold Warp.setDst; split <;> (try split) <;> rfl
@[simp] theorem Warp.setDst_lastIssue (w : Warp) (l : Nat) (d : Dst) (b : Bool) (x : Int) : (w.setDst l d b x).lastIssue = w.lastIssue := by unfold Warp.setDst; split <;> (try split) <;> rfl
@[simp] theorem Warp.setDst_hold (w : Warp) (l : Nat) (d : Dst) (b : Bool) (x : Int) : (w.setDst l d b x).hold = w.hold := by unfold Warp.setDst; split <;> (try split) <;> rfl
@[simp] theorem Warp.setDst_blocked (w : Warp) (l : Nat) (d : Dst) (b : Bool) (x : Int) : (w.setDst l d b x).blocked = w.blocked := by unfold Warp.setDst; split <;> (try split) <;> rfl
@[simp] theorem Warp.setDst_released (w : Warp) (l : Nat) (d : Dst) (b : Bool) (x : Int) : (w.setDst l d b x).released = w.released := by unfold Warp.setDst; split <;> (try split) <;> rfl
@[simp] theorem Warp.modLane_wid (w : Warp) (l : Nat) (f : Lane → Lane) : (w.modLane l f).wid = w.wid := rfl
@[simp] theorem Warp.modLane_gid (w : Warp) (l : Nat) (f : Lane → Lane) : (w.modLane l f).gid = w.gid := rfl
@[simp] theorem Warp.modLane_ctx (w : Warp) (l : Nat) (f : Lane → Lane) : (w.modLane l f).ctx = w.ctx := rfl
@[simp] theorem Warp.modLane_num (w : Warp) (l : Nat) (f : Lane → Lane) : (w.modLane l f).num = w.num := rfl
@[simp] theorem Warp.modLane_place (w : Warp) (l : Nat) (f : Lane → Lane) : (w.modLane l f).place = w.place := rfl
@[simp] theorem Warp.modLane_cls (w : Warp) (l : Nat) (f : Lane → Lane) : (w.modLane l f).cls = w.cls := rfl
@[simp] theorem Warp.modLane_level (w : Warp) (l : Nat) (f : Lane → Lane) : (w.modLane l f).level = w.level := rfl
@[simp] theorem Warp.modLane_allot (w : Warp) (l : Nat) (f : Lane → Lane) : (w.modLane l f).allot = w.allot := rfl
@[simp] theorem Warp.modLane_v (w : Warp) (l : Nat) (f : Lane → Lane) : (w.modLane l f).v = w.v := rfl
@[simp] theorem Warp.modLane_g (w : Warp) (l : Nat) (f : Lane → Lane) : (w.modLane l f).g = w.g := rfl
@[simp] theorem Warp.modLane_p (w : Warp) (l : Nat) (f : Lane → Lane) : (w.modLane l f).p = w.p := rfl
@[simp] theorem Warp.modLane_q (w : Warp) (l : Nat) (f : Lane → Lane) : (w.modLane l f).q = w.q := rfl
@[simp] theorem Warp.modLane_spill (w : Warp) (l : Nat) (f : Lane → Lane) : (w.modLane l f).spill = w.spill := rfl
@[simp] theorem Warp.modLane_gtimeh (w : Warp) (l : Nat) (f : Lane → Lane) : (w.modLane l f).gtimeh = w.gtimeh := rfl
@[simp] theorem Warp.modLane_redSeq (w : Warp) (l : Nat) (f : Lane → Lane) : (w.modLane l f).redSeq = w.redSeq := rfl
@[simp] theorem Warp.modLane_handler (w : Warp) (l : Nat) (f : Lane → Lane) : (w.modLane l f).handler = w.handler := rfl
@[simp] theorem Warp.modLane_hpc (w : Warp) (l : Nat) (f : Lane → Lane) : (w.modLane l f).hpc = w.hpc := rfl
@[simp] theorem Warp.modLane_tCause (w : Warp) (l : Nat) (f : Lane → Lane) : (w.modLane l f).tCause = w.tCause := rfl
@[simp] theorem Warp.modLane_tLanes (w : Warp) (l : Nat) (f : Lane → Lane) : (w.modLane l f).tLanes = w.tLanes := rfl
@[simp] theorem Warp.modLane_tLevel (w : Warp) (l : Nat) (f : Lane → Lane) : (w.modLane l f).tLevel = w.tLevel := rfl
@[simp] theorem Warp.modLane_inTaskf (w : Warp) (l : Nat) (f : Lane → Lane) : (w.modLane l f).inTaskf = w.inTaskf := rfl
@[simp] theorem Warp.modLane_taskfs (w : Warp) (l : Nat) (f : Lane → Lane) : (w.modLane l f).taskfs = w.taskfs := rfl
@[simp] theorem Warp.modLane_watchTraps (w : Warp) (l : Nat) (f : Lane → Lane) : (w.modLane l f).watchTraps = w.watchTraps := rfl
@[simp] theorem Warp.modLane_permits (w : Warp) (l : Nat) (f : Lane → Lane) : (w.modLane l f).permits = w.permits := rfl
@[simp] theorem Warp.modLane_pends (w : Warp) (l : Nat) (f : Lane → Lane) : (w.modLane l f).pends = w.pends := rfl
@[simp] theorem Warp.modLane_fence (w : Warp) (l : Nat) (f : Lane → Lane) : (w.modLane l f).fence = w.fence := rfl
@[simp] theorem Warp.modLane_code (w : Warp) (l : Nat) (f : Lane → Lane) : (w.modLane l f).code = w.code := rfl
@[simp] theorem Warp.modLane_park (w : Warp) (l : Nat) (f : Lane → Lane) : (w.modLane l f).park = w.park := rfl
@[simp] theorem Warp.modLane_deadline (w : Warp) (l : Nat) (f : Lane → Lane) : (w.modLane l f).deadline = w.deadline := rfl
@[simp] theorem Warp.modLane_halts (w : Warp) (l : Nat) (f : Lane → Lane) : (w.modLane l f).halts = w.halts := rfl
@[simp] theorem Warp.modLane_dbl (w : Warp) (l : Nat) (f : Lane → Lane) : (w.modLane l f).dbl = w.dbl := rfl
@[simp] theorem Warp.modLane_idle (w : Warp) (l : Nat) (f : Lane → Lane) : (w.modLane l f).idle = w.idle := rfl
@[simp] theorem Warp.modLane_lastIssue (w : Warp) (l : Nat) (f : Lane → Lane) : (w.modLane l f).lastIssue = w.lastIssue := rfl
@[simp] theorem Warp.modLane_hold (w : Warp) (l : Nat) (f : Lane → Lane) : (w.modLane l f).hold = w.hold := rfl
@[simp] theorem Warp.modLane_blocked (w : Warp) (l : Nat) (f : Lane → Lane) : (w.modLane l f).blocked = w.blocked := rfl
@[simp] theorem Warp.modLane_released (w : Warp) (l : Nat) (f : Lane → Lane) : (w.modLane l f).released = w.released := rfl
@[simp] theorem Warp.modLanes_wid (w : Warp) (ls : List Nat) (f : Nat → Lane → Lane) : (w.modLanes ls f).wid = w.wid := rfl
@[simp] theorem Warp.modLanes_gid (w : Warp) (ls : List Nat) (f : Nat → Lane → Lane) : (w.modLanes ls f).gid = w.gid := rfl
@[simp] theorem Warp.modLanes_ctx (w : Warp) (ls : List Nat) (f : Nat → Lane → Lane) : (w.modLanes ls f).ctx = w.ctx := rfl
@[simp] theorem Warp.modLanes_num (w : Warp) (ls : List Nat) (f : Nat → Lane → Lane) : (w.modLanes ls f).num = w.num := rfl
@[simp] theorem Warp.modLanes_place (w : Warp) (ls : List Nat) (f : Nat → Lane → Lane) : (w.modLanes ls f).place = w.place := rfl
@[simp] theorem Warp.modLanes_cls (w : Warp) (ls : List Nat) (f : Nat → Lane → Lane) : (w.modLanes ls f).cls = w.cls := rfl
@[simp] theorem Warp.modLanes_level (w : Warp) (ls : List Nat) (f : Nat → Lane → Lane) : (w.modLanes ls f).level = w.level := rfl
@[simp] theorem Warp.modLanes_allot (w : Warp) (ls : List Nat) (f : Nat → Lane → Lane) : (w.modLanes ls f).allot = w.allot := rfl
@[simp] theorem Warp.modLanes_v (w : Warp) (ls : List Nat) (f : Nat → Lane → Lane) : (w.modLanes ls f).v = w.v := rfl
@[simp] theorem Warp.modLanes_g (w : Warp) (ls : List Nat) (f : Nat → Lane → Lane) : (w.modLanes ls f).g = w.g := rfl
@[simp] theorem Warp.modLanes_p (w : Warp) (ls : List Nat) (f : Nat → Lane → Lane) : (w.modLanes ls f).p = w.p := rfl
@[simp] theorem Warp.modLanes_q (w : Warp) (ls : List Nat) (f : Nat → Lane → Lane) : (w.modLanes ls f).q = w.q := rfl
@[simp] theorem Warp.modLanes_spill (w : Warp) (ls : List Nat) (f : Nat → Lane → Lane) : (w.modLanes ls f).spill = w.spill := rfl
@[simp] theorem Warp.modLanes_gtimeh (w : Warp) (ls : List Nat) (f : Nat → Lane → Lane) : (w.modLanes ls f).gtimeh = w.gtimeh := rfl
@[simp] theorem Warp.modLanes_redSeq (w : Warp) (ls : List Nat) (f : Nat → Lane → Lane) : (w.modLanes ls f).redSeq = w.redSeq := rfl
@[simp] theorem Warp.modLanes_handler (w : Warp) (ls : List Nat) (f : Nat → Lane → Lane) : (w.modLanes ls f).handler = w.handler := rfl
@[simp] theorem Warp.modLanes_hpc (w : Warp) (ls : List Nat) (f : Nat → Lane → Lane) : (w.modLanes ls f).hpc = w.hpc := rfl
@[simp] theorem Warp.modLanes_tCause (w : Warp) (ls : List Nat) (f : Nat → Lane → Lane) : (w.modLanes ls f).tCause = w.tCause := rfl
@[simp] theorem Warp.modLanes_tLanes (w : Warp) (ls : List Nat) (f : Nat → Lane → Lane) : (w.modLanes ls f).tLanes = w.tLanes := rfl
@[simp] theorem Warp.modLanes_tLevel (w : Warp) (ls : List Nat) (f : Nat → Lane → Lane) : (w.modLanes ls f).tLevel = w.tLevel := rfl
@[simp] theorem Warp.modLanes_inTaskf (w : Warp) (ls : List Nat) (f : Nat → Lane → Lane) : (w.modLanes ls f).inTaskf = w.inTaskf := rfl
@[simp] theorem Warp.modLanes_taskfs (w : Warp) (ls : List Nat) (f : Nat → Lane → Lane) : (w.modLanes ls f).taskfs = w.taskfs := rfl
@[simp] theorem Warp.modLanes_watchTraps (w : Warp) (ls : List Nat) (f : Nat → Lane → Lane) : (w.modLanes ls f).watchTraps = w.watchTraps := rfl
@[simp] theorem Warp.modLanes_permits (w : Warp) (ls : List Nat) (f : Nat → Lane → Lane) : (w.modLanes ls f).permits = w.permits := rfl
@[simp] theorem Warp.modLanes_pends (w : Warp) (ls : List Nat) (f : Nat → Lane → Lane) : (w.modLanes ls f).pends = w.pends := rfl
@[simp] theorem Warp.modLanes_fence (w : Warp) (ls : List Nat) (f : Nat → Lane → Lane) : (w.modLanes ls f).fence = w.fence := rfl
@[simp] theorem Warp.modLanes_code (w : Warp) (ls : List Nat) (f : Nat → Lane → Lane) : (w.modLanes ls f).code = w.code := rfl
@[simp] theorem Warp.modLanes_park (w : Warp) (ls : List Nat) (f : Nat → Lane → Lane) : (w.modLanes ls f).park = w.park := rfl
@[simp] theorem Warp.modLanes_deadline (w : Warp) (ls : List Nat) (f : Nat → Lane → Lane) : (w.modLanes ls f).deadline = w.deadline := rfl
@[simp] theorem Warp.modLanes_halts (w : Warp) (ls : List Nat) (f : Nat → Lane → Lane) : (w.modLanes ls f).halts = w.halts := rfl
@[simp] theorem Warp.modLanes_dbl (w : Warp) (ls : List Nat) (f : Nat → Lane → Lane) : (w.modLanes ls f).dbl = w.dbl := rfl
@[simp] theorem Warp.modLanes_idle (w : Warp) (ls : List Nat) (f : Nat → Lane → Lane) : (w.modLanes ls f).idle = w.idle := rfl
@[simp] theorem Warp.modLanes_lastIssue (w : Warp) (ls : List Nat) (f : Nat → Lane → Lane) : (w.modLanes ls f).lastIssue = w.lastIssue := rfl
@[simp] theorem Warp.modLanes_hold (w : Warp) (ls : List Nat) (f : Nat → Lane → Lane) : (w.modLanes ls f).hold = w.hold := rfl
@[simp] theorem Warp.modLanes_blocked (w : Warp) (ls : List Nat) (f : Nat → Lane → Lane) : (w.modLanes ls f).blocked = w.blocked := rfl
@[simp] theorem Warp.modLanes_released (w : Warp) (ls : List Nat) (f : Nat → Lane → Lane) : (w.modLanes ls f).released = w.released := rfl
@[simp] theorem Warp.allLanes_wid (w : Warp) (f : Nat → Lane → Lane) : (w.allLanes f).wid = w.wid := rfl
@[simp] theorem Warp.allLanes_gid (w : Warp) (f : Nat → Lane → Lane) : (w.allLanes f).gid = w.gid := rfl
@[simp] theorem Warp.allLanes_ctx (w : Warp) (f : Nat → Lane → Lane) : (w.allLanes f).ctx = w.ctx := rfl
@[simp] theorem Warp.allLanes_num (w : Warp) (f : Nat → Lane → Lane) : (w.allLanes f).num = w.num := rfl
@[simp] theorem Warp.allLanes_place (w : Warp) (f : Nat → Lane → Lane) : (w.allLanes f).place = w.place := rfl
@[simp] theorem Warp.allLanes_cls (w : Warp) (f : Nat → Lane → Lane) : (w.allLanes f).cls = w.cls := rfl
@[simp] theorem Warp.allLanes_level (w : Warp) (f : Nat → Lane → Lane) : (w.allLanes f).level = w.level := rfl
@[simp] theorem Warp.allLanes_allot (w : Warp) (f : Nat → Lane → Lane) : (w.allLanes f).allot = w.allot := rfl
@[simp] theorem Warp.allLanes_v (w : Warp) (f : Nat → Lane → Lane) : (w.allLanes f).v = w.v := rfl
@[simp] theorem Warp.allLanes_g (w : Warp) (f : Nat → Lane → Lane) : (w.allLanes f).g = w.g := rfl
@[simp] theorem Warp.allLanes_p (w : Warp) (f : Nat → Lane → Lane) : (w.allLanes f).p = w.p := rfl
@[simp] theorem Warp.allLanes_q (w : Warp) (f : Nat → Lane → Lane) : (w.allLanes f).q = w.q := rfl
@[simp] theorem Warp.allLanes_spill (w : Warp) (f : Nat → Lane → Lane) : (w.allLanes f).spill = w.spill := rfl
@[simp] theorem Warp.allLanes_gtimeh (w : Warp) (f : Nat → Lane → Lane) : (w.allLanes f).gtimeh = w.gtimeh := rfl
@[simp] theorem Warp.allLanes_redSeq (w : Warp) (f : Nat → Lane → Lane) : (w.allLanes f).redSeq = w.redSeq := rfl
@[simp] theorem Warp.allLanes_handler (w : Warp) (f : Nat → Lane → Lane) : (w.allLanes f).handler = w.handler := rfl
@[simp] theorem Warp.allLanes_hpc (w : Warp) (f : Nat → Lane → Lane) : (w.allLanes f).hpc = w.hpc := rfl
@[simp] theorem Warp.allLanes_tCause (w : Warp) (f : Nat → Lane → Lane) : (w.allLanes f).tCause = w.tCause := rfl
@[simp] theorem Warp.allLanes_tLanes (w : Warp) (f : Nat → Lane → Lane) : (w.allLanes f).tLanes = w.tLanes := rfl
@[simp] theorem Warp.allLanes_tLevel (w : Warp) (f : Nat → Lane → Lane) : (w.allLanes f).tLevel = w.tLevel := rfl
@[simp] theorem Warp.allLanes_inTaskf (w : Warp) (f : Nat → Lane → Lane) : (w.allLanes f).inTaskf = w.inTaskf := rfl
@[simp] theorem Warp.allLanes_taskfs (w : Warp) (f : Nat → Lane → Lane) : (w.allLanes f).taskfs = w.taskfs := rfl
@[simp] theorem Warp.allLanes_watchTraps (w : Warp) (f : Nat → Lane → Lane) : (w.allLanes f).watchTraps = w.watchTraps := rfl
@[simp] theorem Warp.allLanes_permits (w : Warp) (f : Nat → Lane → Lane) : (w.allLanes f).permits = w.permits := rfl
@[simp] theorem Warp.allLanes_pends (w : Warp) (f : Nat → Lane → Lane) : (w.allLanes f).pends = w.pends := rfl
@[simp] theorem Warp.allLanes_fence (w : Warp) (f : Nat → Lane → Lane) : (w.allLanes f).fence = w.fence := rfl
@[simp] theorem Warp.allLanes_code (w : Warp) (f : Nat → Lane → Lane) : (w.allLanes f).code = w.code := rfl
@[simp] theorem Warp.allLanes_park (w : Warp) (f : Nat → Lane → Lane) : (w.allLanes f).park = w.park := rfl
@[simp] theorem Warp.allLanes_deadline (w : Warp) (f : Nat → Lane → Lane) : (w.allLanes f).deadline = w.deadline := rfl
@[simp] theorem Warp.allLanes_halts (w : Warp) (f : Nat → Lane → Lane) : (w.allLanes f).halts = w.halts := rfl
@[simp] theorem Warp.allLanes_dbl (w : Warp) (f : Nat → Lane → Lane) : (w.allLanes f).dbl = w.dbl := rfl
@[simp] theorem Warp.allLanes_idle (w : Warp) (f : Nat → Lane → Lane) : (w.allLanes f).idle = w.idle := rfl
@[simp] theorem Warp.allLanes_lastIssue (w : Warp) (f : Nat → Lane → Lane) : (w.allLanes f).lastIssue = w.lastIssue := rfl
@[simp] theorem Warp.allLanes_hold (w : Warp) (f : Nat → Lane → Lane) : (w.allLanes f).hold = w.hold := rfl
@[simp] theorem Warp.allLanes_blocked (w : Warp) (f : Nat → Lane → Lane) : (w.allLanes f).blocked = w.blocked := rfl
@[simp] theorem Warp.allLanes_released (w : Warp) (f : Nat → Lane → Lane) : (w.allLanes f).released = w.released := rfl

end Sys2Proof.Machine
end

