-- ==== Sys2Proof/Laws/Store.lean ====
section
/-! SUPPORT. Laws/Store.lean: sparse stores and lists: reading what was written, and the canonical form. -/

namespace Sys2Proof.Machine

open Sys2Proof Tern

/-! ### The canonical form of a store -/

theorem swf_cons (a : Nat) (b : Int) (r : Store) :
    swf ((a, b) :: r) = (b != 0 && (match r with | [] => true | (c, _) :: _ => decide (a < c)) && swf r) := rfl

/-- The tail of a canonical store is canonical. -/
theorem swf_tail {p : Nat × Int} {r : Store} (h : swf (p :: r) = true) : swf r = true := by
  obtain ⟨a, b⟩ := p
  simp only [swf_cons, Bool.and_eq_true] at h
  exact h.2

/-- Keys of a canonical store lie above its head's. -/
theorem swf_lt {a : Nat} {b : Int} : ∀ {r : Store}, swf ((a, b) :: r) = true → ∀ p ∈ r, a < p.1
  | [], _, _, hp => by simp at hp
  | (c, d) :: r, h, p, hp => by
    have hr := swf_tail h
    simp only [swf_cons, Bool.and_eq_true, decide_eq_true_eq] at h
    rcases List.mem_cons.1 hp with rfl | hp
    · exact h.1.2
    · exact lt_trans h.1.2 (swf_lt hr p hp)

/-- A canonical store is a head that is not 0 and lies below a canonical tail. -/
theorem swf_of {a : Nat} {b : Int} {r : Store} (hb : b ≠ 0) (hl : ∀ p ∈ r, a < p.1) (hr : swf r = true) :
    swf ((a, b) :: r) = true := by
  cases r with
  | nil => simp [swf, hb]
  | cons p r => obtain ⟨c, d⟩ := p; simp [swf_cons, hb, hr, hl (c, d) (by simp)]

theorem swf_ne {a : Nat} {b : Int} {r : Store} (h : swf ((a, b) :: r) = true) : b ≠ 0 := by
  simp only [swf_cons, Bool.and_eq_true, bne_iff_ne] at h
  exact h.1.1

/-- Filtering keeps the canonical form. -/
theorem swf_filter (q : Nat × Int → Bool) : ∀ {m : Store}, swf m = true → swf (m.filter q) = true
  | [], _ => rfl
  | (a, b) :: r, h => by
    have hr := swf_filter q (swf_tail h)
    by_cases hq : q (a, b) = true
    · rw [List.filter_cons_of_pos hq]
      exact swf_of (swf_ne h) (fun p hp => swf_lt h p (List.mem_filter.1 hp).1) hr
    · rw [List.filter_cons_of_neg hq]; exact hr

/-- Members after an insertion. -/
theorem mem_sins {k : Nat} {v : Int} {p : Nat × Int} : ∀ {m : Store}, p ∈ sins k v m → p = (k, v) ∨ p ∈ m
  | [], h => by
    unfold sins at h; split at h
    · simp at h
    · simpa using h
  | (a, b) :: r, h => by
    unfold sins at h
    split at h
    · split at h
      · exact .inr h
      · rcases List.mem_cons.1 h with h | h
        · exact .inl h
        · exact .inr h
    · rcases List.mem_cons.1 h with h | h
      · exact .inr (by simp [h])
      · rcases mem_sins h with h | h
        · exact .inl h
        · exact .inr (by simp [h])

/-- Inserting at a key that is not listed keeps the canonical form. -/
theorem swf_sins {k : Nat} {v : Int} : ∀ {m : Store}, swf m = true → (∀ p ∈ m, p.1 ≠ k) → swf (sins k v m) = true
  | [], _, _ => by
    unfold sins; split
    · rfl
    · exact swf_of (by assumption) (by simp) rfl
  | (a, b) :: r, h, hk => by
    unfold sins
    split
    · split
      · exact h
      · refine swf_of (by assumption) (fun p hp => ?_) h
        rcases List.mem_cons.1 hp with rfl | hp
        · assumption
        · exact lt_trans (by assumption) (swf_lt h p hp)
    · have hak : a ≠ k := hk (a, b) (by simp)
      refine swf_of (swf_ne h) (fun p hp => ?_) (swf_sins (swf_tail h) fun p hp => hk p (by simp [hp]))
      rcases mem_sins hp with rfl | hp
      · simp only; omega
      · exact swf_lt h p hp

/-- Writing keeps the canonical form. -/
theorem swf_sset {m : Store} (h : swf m = true) (k : Nat) (v : Int) : swf (sset m k v) = true :=
  swf_sins (swf_filter _ h) fun p hp => by simpa using (List.mem_filter.1 hp).2

/-- Writing several keeps the canonical form. -/
theorem swf_ssets : ∀ (vs : List Int) {m : Store} (k : Nat), swf m = true → swf (ssets m k vs) = true
  | [], _, _, h => h
  | v :: vs, _, k, h => swf_ssets vs (k + 1) (swf_sset h k v)

/-! ### Reading what was written -/

theorem sget_nil (k : Nat) : sget [] k = 0 := rfl

theorem sget_cons (a : Nat) (b : Int) (r : Store) (k : Nat) : sget ((a, b) :: r) k = if a = k then b else sget r k := by
  unfold sget
  by_cases h : a = k <;> simp [h]

theorem sget_sins (k : Nat) (v : Int) (j : Nat) : ∀ m : Store, (∀ p ∈ m, p.1 ≠ k) → sget (sins k v m) j = if k = j then v else sget m j
  | [], _ => by
    unfold sins; split
    · rename_i h; by_cases hj : k = j <;> simp [hj, h, sget_nil]
    · rw [sget_cons]
  | (a, b) :: r, hk => by
    have hak : a ≠ k := hk (a, b) (by simp)
    have hr : ∀ p ∈ r, p.1 ≠ k := fun p hp => hk p (by simp [hp])
    have ih := sget_sins k v j r hr
    have hz : k = j → sget r k = 0 := fun _ => by
      unfold sget
      rw [List.find?_eq_none.2 (by intro p hp; simpa using hr p hp)]; rfl
    unfold sins
    split
    · split
      · rename_i h0; by_cases hj : k = j
        · subst hj; simp [sget_cons, hak, hz rfl, h0]
        · simp [hj]
      · by_cases hj : k = j
        · simp [sget_cons, hj]
        · simp [sget_cons, hj]
    · rw [sget_cons, ih, sget_cons]
      by_cases hj : k = j
      · subst hj; simp [hak]
      · simp [hj]

theorem sget_filter_ne (m : Store) (k j : Nat) (h : k ≠ j) : sget (m.filter fun p => p.1 != k) j = sget m j := by
  induction m with
  | nil => rfl
  | cons p r ih =>
    obtain ⟨a, b⟩ := p
    by_cases ha : a = k
    · subst ha; simp [sget_cons, h, ih]
    · rw [List.filter_cons_of_pos (by simpa using ha), sget_cons, sget_cons, ih]

/-- A read after a write. -/
theorem sget_sset (m : Store) (k : Nat) (v : Int) (j : Nat) : sget (sset m k v) j = if k = j then v else sget m j := by
  unfold sset
  rw [sget_sins k v j _ fun p hp => by simpa using (List.mem_filter.1 hp).2]
  by_cases h : k = j
  · simp [h]
  · simp [h, sget_filter_ne m k j h]

@[simp] theorem sget_sset_self (m : Store) (k : Nat) (v : Int) : sget (sset m k v) k = v := by simp [sget_sset]

theorem sget_sset_ne (m : Store) {k j : Nat} (v : Int) (h : k ≠ j) : sget (sset m k v) j = sget m j := by simp [sget_sset, h]

/-- A read after several writes. -/
theorem sget_ssets : ∀ (vs : List Int) (m : Store) (k j : Nat),
    sget (ssets m k vs) j = if k ≤ j ∧ j < k + vs.length then vs.getD (j - k) 0 else sget m j
  | [], m, k, j => by simp [ssets]
  | v :: vs, m, k, j => by
    rw [ssets, sget_ssets vs, sget_sset]
    by_cases h1 : k = j
    · subst h1; simp
    · by_cases h2 : k + 1 ≤ j ∧ j < k + 1 + vs.length
      · have : j - k = (j - (k + 1)) + 1 := by omega
        rw [if_pos h2, if_pos (by simp; omega), this]; rfl
      · simp only [h2, h1, List.length_cons, if_false]
        rw [if_neg (by omega)]

/-! ### Host memory -/

theorem hostWf_tail {c : Host.Cell} {r : List Host.Cell} (h : hostWf (c :: r) = true) : hostWf r = true := by
  simp only [hostWf, Bool.and_eq_true] at h
  exact h.2

theorem hostWf_lt {c : Host.Cell} : ∀ {r : List Host.Cell}, hostWf (c :: r) = true → ∀ p ∈ r, c.1 < p.1
  | [], _, _, hp => by simp at hp
  | d :: r, h, p, hp => by
    have hr := hostWf_tail h
    have h1 : c.1 < d.1 := by simp only [hostWf, Bool.and_eq_true, decide_eq_true_eq] at h; exact h.1.2
    rcases List.mem_cons.1 hp with rfl | hp
    · exact h1
    · exact lt_trans h1 (hostWf_lt hr p hp)

theorem hostWf_of {c : Host.Cell} {r : List Host.Cell} (hb : c.2 ≠ 0) (hl : ∀ p ∈ r, c.1 < p.1) (hr : hostWf r = true) :
    hostWf (c :: r) = true := by
  cases r with
  | nil => simp only [hostWf, Bool.and_true, bne_iff_ne]; exact hb
  | cons d r =>
    have := hl d (by simp)
    simp only [hostWf, Bool.and_eq_true, bne_iff_ne, decide_eq_true_eq] at hr ⊢
    exact ⟨⟨hb, this⟩, hr⟩

theorem hostWf_ne {c : Host.Cell} {r : List Host.Cell} (h : hostWf (c :: r) = true) : c.2 ≠ 0 := by
  simp only [hostWf, Bool.and_eq_true, bne_iff_ne] at h
  exact h.1.1

theorem hostWf_filter (q : Host.Cell → Bool) : ∀ {m : List Host.Cell}, hostWf m = true → hostWf (m.filter q) = true
  | [], _ => rfl
  | c :: r, h => by
    have hr := hostWf_filter q (hostWf_tail h)
    by_cases hq : q c = true
    · rw [List.filter_cons_of_pos hq]
      exact hostWf_of (hostWf_ne h) (fun p hp => hostWf_lt h p (List.mem_filter.1 hp).1) hr
    · rw [List.filter_cons_of_neg hq]; exact hr

theorem mem_hostIns {a : Nat} {b : BitVec 8} {p : Host.Cell} : ∀ {m : List Host.Cell}, p ∈ hostIns a b m → p = (a, b) ∨ p ∈ m
  | [], h => by
    unfold hostIns at h; split at h
    · simp at h
    · simpa using h
  | c :: r, h => by
    unfold hostIns at h
    split at h
    · split at h
      · exact .inr h
      · rcases List.mem_cons.1 h with h | h
        · exact .inl h
        · exact .inr h
    · rcases List.mem_cons.1 h with h | h
      · exact .inr (by simp [h])
      · rcases mem_hostIns h with h | h
        · exact .inl h
        · exact .inr (by simp [h])

theorem hostWf_ins {a : Nat} {b : BitVec 8} : ∀ {m : List Host.Cell}, hostWf m = true → (∀ p ∈ m, p.1 ≠ a) → hostWf (hostIns a b m) = true
  | [], _, _ => by
    unfold hostIns; split
    · rfl
    · exact hostWf_of (by assumption) (by simp) rfl
  | c :: r, h, hk => by
    unfold hostIns
    split
    · split
      · exact h
      · refine hostWf_of (by assumption) (fun p hp => ?_) h
        rcases List.mem_cons.1 hp with rfl | hp
        · assumption
        · exact lt_trans (by assumption) (hostWf_lt h p hp)
    · have hak : c.1 ≠ a := hk c (by simp)
      refine hostWf_of (hostWf_ne h) (fun p hp => ?_) (hostWf_ins (hostWf_tail h) fun p hp => hk p (by simp [hp]))
      rcases mem_hostIns hp with rfl | hp
      · simp only; omega
      · exact hostWf_lt h p hp

/-- Writing a byte of host memory keeps its canonical form. -/
theorem hostWf_set {m : List Host.Cell} (h : hostWf m = true) (a b : Nat) : hostWf (hostSet m a b) = true :=
  hostWf_ins (hostWf_filter _ h) fun p hp => by simpa using (List.mem_filter.1 hp).2

/-! ### Updates of lists -/

/-- The first entry found after an update of it, where the update keeps what it is found by. -/
theorem find_modFirst {α : Type} (p : α → Bool) (f : α → α) (hf : ∀ x, p (f x) = p x) :
    ∀ l : List α, (modFirst p f l).find? p = (l.find? p).map f
  | [] => rfl
  | x :: xs => by
    unfold modFirst
    by_cases h : p x = true
    · simp [h, hf]
    · simp only [h, Bool.false_eq_true, if_false, List.find?_cons]
      exact find_modFirst p f hf xs

/-- Entries found by another test are untouched. -/
theorem find_modFirst_ne {α : Type} (p q : α → Bool) (f : α → α) (hf : ∀ x, p x = true → q (f x) = false ∧ q x = false) :
    ∀ l : List α, (modFirst p f l).find? q = l.find? q
  | [] => rfl
  | x :: xs => by
    unfold modFirst
    by_cases h : p x = true
    · simp [h, hf x h]
    · simp only [h, Bool.false_eq_true, if_false, List.find?_cons]
      rw [find_modFirst_ne p q f hf xs]

theorem modIdx_length {α : Type} (f : Nat → α → α) : ∀ (i : Nat) (l : List α), (modIdx f i l).length = l.length
  | _, [] => rfl
  | i, _ :: xs => by simp [modIdx, modIdx_length f (i + 1) xs]

theorem modIdx_get {α : Type} (f : Nat → α → α) (k : Nat) : ∀ (i : Nat) (l : List α),
    (modIdx f i l)[k]? = (l[k]?).map (f (i + k)) := by
  induction k with
  | zero => intro i l; cases l <;> simp [modIdx]
  | succ k ih =>
    intro i l
    cases l with
    | nil => simp [modIdx]
    | cons x xs => simp [modIdx, ih, Nat.add_comm, Nat.add_left_comm]

end Sys2Proof.Machine
end

