-- ==== Sys2Proof/Laws/Lookup.lean ====
section
/-! SUPPORT. Laws/Lookup.lean: what is found after an update: warps, gangs, cores, lanes. -/

namespace Sys2Proof.Machine

open Sys2Proof Tern

/-- A warp after an update of a warp. -/
theorem State.warp?_modWarp (s : State) (n : Nat) (f : Warp → Warp) (hf : ∀ w, (f w).wid = w.wid) (m : Nat) :
    (s.modWarp n f).warp? m = if m = n then (s.warp? n).map f else s.warp? m := by
  unfold State.warp? State.modWarp
  by_cases h : m = n
  · subst h; simp [find_modFirst (fun w : Warp => w.wid == m) f (by intro x; simp [hf])]
  · simp only [h, if_false]
    exact find_modFirst_ne _ _ f (by intro x hx; simp at hx; subst hx; simp [hf]; exact fun e => h e.symm) _

/-- A gang after an update of a gang. -/
theorem State.gang?_modGang (s : State) (n : Nat) (f : Gang → Gang) (hf : ∀ w, (f w).gid = w.gid) (m : Nat) :
    (s.modGang n f).gang? m = if m = n then (s.gang? n).map f else s.gang? m := by
  unfold State.gang? State.modGang
  by_cases h : m = n
  · subst h; simp [find_modFirst (fun w : Gang => w.gid == m) f (by intro x; simp [hf])]
  · simp only [h, if_false]
    exact find_modFirst_ne _ _ f (by intro x hx; simp at hx; subst hx; simp [hf]; exact fun e => h e.symm) _

/-- A core after an update of a core. -/
theorem State.core_modCore (s : State) (n : Nat) (f : Core → Core) (hf : ∀ w, (f w).n = w.n) (m : Nat) :
    (s.modCore n f).core m = if m = n then f (s.core n) else s.core m := by
  unfold State.core State.modCore
  by_cases ha : (s.cores.any fun c => c.n == n) = true
  · simp only [ha, if_true]
    by_cases h : m = n
    · subst h
      rw [find_modFirst (fun w : Core => w.n == m) f (by intro x; simp [hf])]
      cases hc : s.cores.find? fun c => c.n == m with
      | none =>
        rw [List.find?_eq_none] at hc
        obtain ⟨x, hx, hn⟩ := List.any_eq_true.1 ha
        exact absurd hn (hc x hx)
      | some x => simp
    · simp only [h, if_false]
      rw [find_modFirst_ne _ _ f (by intro x hx; simp at hx; subst hx; simp [hf]; exact fun e => h e.symm)]
  · simp only [ha, Bool.false_eq_true, if_false]
    have hn : s.cores.find? (fun c => c.n == n) = none := by
      rw [List.find?_eq_none]; intro x hx hxn
      exact ha (List.any_eq_true.2 ⟨x, hx, hxn⟩)
    by_cases h : m = n
    · subst h; simp [List.find?_append, hn, hf, Core.empty]
    · have he : ((f (Core.empty n)).n == m) = false := by simp [hf, Core.empty]; exact fun e => h e.symm
      simp [List.find?_append, he, h]

@[simp] theorem State.warp?_modGang (s : State) (n m : Nat) (f : Gang → Gang) : (s.modGang n f).warp? m = s.warp? m := rfl
@[simp] theorem State.warp?_modLaunch (s : State) (n m : Nat) (f : Launch → Launch) : (s.modLaunch n f).warp? m = s.warp? m := rfl
@[simp] theorem State.warp?_modMem (s : State) (m : Nat) (f : Memory → Memory) : (s.modMem f).warp? m = s.warp? m := rfl
@[simp] theorem State.warp?_modPkg (s : State) (m : Nat) (f : Package → Package) : (s.modPkg f).warp? m = s.warp? m := rfl
@[simp] theorem State.warp?_note (s : State) (m : Nat) (c : Option Nat) (k : LogKind) (d : List Int) : (s.note c k d).warp? m = s.warp? m := rfl
@[simp] theorem State.warp?_modCore (s : State) (n m : Nat) (f : Core → Core) : (s.modCore n f).warp? m = s.warp? m := by
  simp [State.warp?]
@[simp] theorem State.gang?_modWarp (s : State) (n m : Nat) (f : Warp → Warp) : (s.modWarp n f).gang? m = s.gang? m := rfl
@[simp] theorem State.gang?_modCore (s : State) (n m : Nat) (f : Core → Core) : (s.modCore n f).gang? m = s.gang? m := by
  simp [State.gang?]
@[simp] theorem State.core_modWarp (s : State) (n m : Nat) (f : Warp → Warp) : (s.modWarp n f).core m = s.core m := rfl
@[simp] theorem State.core_note (s : State) (m : Nat) (c : Option Nat) (k : LogKind) (d : List Int) : (s.note c k d).core m = s.core m := rfl
@[simp] theorem State.core_modLaunch (s : State) (n m : Nat) (f : Launch → Launch) : (s.modLaunch n f).core m = s.core m := rfl

/-! ### Lanes -/

theorem Warp.lane_allLanes (w : Warp) (f : Nat → Lane → Lane) {l : Nat} (h : l < w.lanes.length) :
    (w.allLanes f).lane l = f l (w.lane l) := by
  simp [Warp.lane, Warp.allLanes, List.getD_eq_getElem?_getD, modIdx_get, List.getElem?_eq_getElem h]

theorem Warp.lane_modLanes (w : Warp) (ls : List Nat) (f : Nat → Lane → Lane) {l : Nat} (h : l < w.lanes.length) :
    (w.modLanes ls f).lane l = if l ∈ ls then f l (w.lane l) else w.lane l := by
  simp [Warp.lane, Warp.modLanes, List.getD_eq_getElem?_getD, modIdx_get, List.getElem?_eq_getElem h]

@[simp] theorem Warp.length_allLanes (w : Warp) (f : Nat → Lane → Lane) : (w.allLanes f).lanes.length = w.lanes.length := by
  simp [Warp.allLanes, modIdx_length]
@[simp] theorem Warp.length_modLanes (w : Warp) (ls : List Nat) (f : Nat → Lane → Lane) : (w.modLanes ls f).lanes.length = w.lanes.length := by
  simp [Warp.modLanes, modIdx_length]

end Sys2Proof.Machine
end

