-- ==== Sys2Proof/Laws/After.lean ====
section
/-! SUPPORT. Laws/After.lean: what watch units, halts and a trap's entry leave alone (R277, R297, R298). -/

namespace Sys2Proof.Machine

open Sys2Proof Tern

/-- A lane without what a trap's entry and a halt write. -/
def Lane.soft (x : Lane) : Lane :=
  { x with halted := none, pos := 0, since := 0, tInfo := 0, tAddr := 0, tEpc := 0, tDepth := 0, tLive := false, tWait := false,
           tYield := false, tHalt := false, tested := false }

/-- A warp without what a trap's entry and a halt write. -/
def Warp.soft (w : Warp) : Warp :=
  { w with handler := false, hpc := 0, tCause := 0, tLanes := 0, tLevel := 0, level := 0, inTaskf := false, watchTraps := [],
           dbl := none, halts := [], lanes := w.lanes.map Lane.soft }

/-- What watch units, halts and a trap's entry leave: everything of the machine but watch units, signals, log and the trap state of
the warp. The handler PC may go back to a word (R280). -/
structure Soft (s t : State) (wid : Nat) (back : Option Int := none) : Prop where
  kept : ({ t with warps := [], cores := [], launches := [], log := [] } : State) = { s with warps := [], cores := [], launches := [], log := [] }
  own : ∀ w, s.warp? wid = some w → ∃ w', t.warp? wid = some w' ∧ w'.soft = w.soft ∧ (w.handler = true → w'.handler = true ∧ (w'.hpc = w.hpc ∨ back = some w'.hpc))
  others : ∀ n, n ≠ wid → (t.warp? n).map Warp.halting = (s.warp? n).map Warp.halting
  cores : ∀ n, { t.core n with watch := [] } = { s.core n with watch := [] }
  launches : t.launches.map (fun x => { x with signals := [] }) = s.launches.map (fun x => { x with signals := [] })

theorem Soft.refl (s : State) (wid : Nat) {back : Option Int} : Soft s s wid back :=
  ⟨rfl, fun w h => ⟨w, h, rfl, fun _ => ⟨by assumption, .inl rfl⟩⟩, fun _ _ => rfl, fun _ => rfl, rfl⟩

/-- A change that keeps the handler PC is one that may send it back. -/
theorem Soft.weaken {s t : State} {wid : Nat} {back : Option Int} (h : Soft s t wid) : Soft s t wid back :=
  ⟨h.kept, fun w hw => by
    obtain ⟨w', a, b, c⟩ := h.own w hw
    exact ⟨w', a, b, fun hh => ⟨(c hh).1, (c hh).2.imp_right fun e => by cases e⟩⟩, h.others, h.cores, h.launches⟩

theorem Soft.trans {s t u : State} {wid : Nat} {back : Option Int} (h1 : Soft s t wid back) (h2 : Soft t u wid back) : Soft s u wid back :=
  ⟨h2.kept.trans h1.kept,
   fun w hw => by
    obtain ⟨w1, hw1, he1, hh1⟩ := h1.own w hw
    obtain ⟨w2, hw2, he2, hh2⟩ := h2.own w1 hw1
    exact ⟨w2, hw2, he2.trans he1, fun h => by
      obtain ⟨ha, hb⟩ := hh1 h
      obtain ⟨hc, hd⟩ := hh2 ha
      exact ⟨hc, hd.elim (fun e => e ▸ hb) .inr⟩⟩,
   fun n hn => (h2.others n hn).trans (h1.others n hn),
   fun n => (h2.cores n).trans (h1.cores n),
   h2.launches.trans h1.launches⟩

/-- An update of the warp itself that keeps its soft part. -/
theorem Soft.modWarp (s : State) (wid : Nat) {back : Option Int} (f : Warp → Warp) (hw : ∀ w, (f w).wid = w.wid)
    (hf : ∀ w, s.warp? wid = some w → (f w).soft = w.soft ∧ (w.handler = true → (f w).handler = true ∧ ((f w).hpc = w.hpc ∨ back = some (f w).hpc))) :
    Soft s (s.modWarp wid f) wid back := by
  refine ⟨rfl, fun w h => ?_, fun n hn => ?_, fun _ => rfl, rfl⟩
  · exact ⟨f w, by rw [State.warp?_modWarp s wid f hw]; simp [h], hf w h⟩
  · rw [State.warp?_modWarp s wid f hw]; simp [hn]

theorem Soft.note (s : State) (wid : Nat) (c : Option Nat) (k : LogKind) (d : List Int) : Soft s (s.note c k d) wid :=
  ⟨rfl, fun w h => ⟨w, h, rfl, fun _ => ⟨by assumption, .inl rfl⟩⟩, fun _ _ => rfl, fun _ => rfl, rfl⟩

theorem map_soft_modIdx (f : Nat → Lane → Lane) (hf : ∀ i x, (f i x).soft = x.soft) : ∀ (i : Nat) (l : List Lane),
    (modIdx f i l).map Lane.soft = l.map Lane.soft
  | _, [] => rfl
  | i, x :: xs => by simp [modIdx, hf, map_soft_modIdx f hf (i + 1) xs]

theorem Warp.soft_modLanes (w : Warp) (ls : List Nat) (f : Nat → Lane → Lane) (hf : ∀ i x, (f i x).soft = x.soft) :
    (w.modLanes ls f).soft = w.soft := by
  have := map_soft_modIdx (fun i x => if ls.contains i then f i x else x) (fun i x => by split <;> simp [hf]) 0 w.lanes
  simp only [Warp.soft, Warp.modLanes, this]

theorem Warp.soft_allLanes (w : Warp) (f : Nat → Lane → Lane) (hf : ∀ i x, (f i x).soft = x.soft) :
    (w.allLanes f).soft = w.soft := by
  simp only [Warp.soft, Warp.allLanes, map_soft_modIdx f hf]

theorem Warp.soft_haltLanes (w : Warp) (ls : List Nat) (h : Halt) : (w.haltLanes ls h).soft = w.soft :=
  Warp.soft_modLanes w ls _ fun _ _ => rfl

theorem Soft.doubleTrap (s : State) (w : Warp) (c : Int) : Soft s (s.doubleTrap w c) w.wid := by
  unfold State.doubleTrap
  dsimp only
  refine Soft.trans ?_ (Soft.note _ _ _ _ _)
  refine Soft.modWarp s w.wid _ (fun _ => rfl) fun x _ => ⟨?_, fun h => ⟨h, .inl rfl⟩⟩
  have := Warp.soft_haltLanes x (upto 27) ⟨4, 0, 0⟩
  simp only [Warp.haltAll, Warp.soft] at this ⊢
  simpa [Warp.haltLanes] using this

theorem State.warp?_wid {s : State} {n : Nat} {w : Warp} (h : s.warp? n = some w) : w.wid = n := by
  have := List.find?_some h
  simpa using this

theorem Soft.enterTrap (s : State) (wid : Nat) (t : TrapReq) : Soft s (s.enterTrap wid t) wid := by
  unfold State.enterTrap
  split
  · exact Soft.refl s wid
  · rename_i w hw
    split
    · have := Soft.doubleTrap s w t.cause
      rwa [State.warp?_wid hw] at this
    · rename_i hh
      refine Soft.modWarp s wid _ (fun _ => rfl) fun x hx => ?_
      rw [hw] at hx; cases hx
      refine ⟨?_, fun h => absurd h hh⟩
      have := Warp.soft_allLanes w (Lane.enter t) fun _ _ => rfl
      simp only [Warp.soft] at this ⊢
      simpa using this

theorem Soft.haltBy (s : State) (wid : Nat) (a : Int) (ls : List Nat) (h : Halt) : Soft s (haltBy s wid a ls h) wid := by
  unfold Sys2Proof.Machine.haltBy
  split
  · exact Soft.refl s wid
  rename_i w hw
  have hown : Soft s (if a = 2 then s.modWarp wid (fun w => w.haltLanes ls h) else s.modWarp wid (fun w => w.haltAll h)) wid := by
    split
    · exact Soft.modWarp s wid _ (fun _ => rfl) fun x _ => ⟨Warp.soft_haltLanes x ls h, fun h => ⟨h, .inl rfl⟩⟩
    · exact Soft.modWarp s wid _ (fun _ => rfl) fun x _ => ⟨Warp.soft_haltLanes x _ h, fun h => ⟨h, .inl rfl⟩⟩
  have h1 := hown.trans (Soft.note _ wid (some w.ctx) .halt [w.address 0, h.word])
  have hoth : ∀ (s : State) (p : Warp → Bool) (f : Warp → Int), Soft s
      { s with warps := s.warps.map fun x => if x.wid != wid && p x then { x with halts := x.halts ++ [⟨f x, h.spread⟩] } else x } wid := by
    intro s p f
    have hfind : ∀ n, ({ s with warps := s.warps.map fun x => if x.wid != wid && p x then { x with halts := x.halts ++ [⟨f x, h.spread⟩] } else x } : State).warp? n
        = (s.warp? n).map fun x => if x.wid != wid && p x then { x with halts := x.halts ++ [⟨f x, h.spread⟩] } else x := by
      intro n
      simp only [State.warp?, List.find?_map]
      congr 2
      funext x
      simp only [Function.comp]; split <;> rfl
    refine ⟨rfl, fun w hw => ⟨w, ?_, rfl, fun h => ⟨h, .inl rfl⟩⟩, fun n hn => ?_, fun _ => rfl, rfl⟩
    · rw [hfind, hw]; simp [State.warp?_wid hw]
    · rw [hfind]
      cases s.warp? n with
      | none => rfl
      | some x => simp only [Option.map_some]; split <;> rfl
  dsimp only
  split
  · exact h1
  · split
    · exact h1.trans (hoth _ _ _)
    · split
      · exact h1.trans (hoth _ _ _)
      · split
        · exact h1.trans (hoth _ _ _)
        · refine (h1.trans (hoth _ _ _)).trans ⟨rfl, fun w h => ⟨w, h, rfl, fun h => ⟨h, .inl rfl⟩⟩, fun _ _ => rfl, fun _ => rfl, ?_⟩
          simp only [State.modLaunch_launches]
          generalize State.launches _ = L
          induction L with
          | nil => rfl
          | cons x xs ih => unfold modFirst; split
                            · rfl
                            · exact congrArg (List.cons _) ih

theorem Warp.soft_holdTrap (w : Warp) (t : WatchTrap) : (w.holdTrap t).soft = w.soft ∧ (w.holdTrap t).handler = w.handler ∧ (w.holdTrap t).hpc = w.hpc := by
  unfold Warp.holdTrap; split <;> exact ⟨rfl, rfl, rfl⟩

theorem Soft.watchAct (s : State) (wid : Nat) (ts : List Trig) : Soft s (watchAct s wid ts) wid := by
  unfold Sys2Proof.Machine.watchAct
  dsimp only
  split
  · split
    · exact Soft.refl s wid
    · exact Soft.enterTrap _ _ _
  · refine Soft.trans ?_ (Soft.modWarp _ wid _ (fun x => ?_) fun x _ => ?_)
    · split
      · exact Soft.haltBy _ _ _ _ _
      · exact (Soft.haltBy _ _ _ _ _).trans (Soft.haltBy _ _ _ _ _)
    · unfold Warp.holdTrap; split <;> rfl
    · obtain ⟨a, b, d⟩ := Warp.soft_holdTrap x (trapTrigs ts)
      exact ⟨a, fun hh => ⟨b.trans hh, .inl d⟩⟩

theorem Watch.take_nil (u : Watch) : u.take [] = (u, []) := rfl

theorem Soft.watchTest (s : State) (core : Nat) (t : Int) (m : Watch → List (Nat × Int)) (wid : Nat) :
    Soft s (watchTest s core t m).1 wid := by
  unfold Sys2Proof.Machine.watchTest
  dsimp only
  split
  · exact Soft.refl s wid
  · refine ⟨by simp, fun w h => ⟨w, by simpa using h, rfl, fun h => ⟨h, .inl rfl⟩⟩, fun _ _ => by simp, fun n => ?_, by simp⟩
    dsimp only
    rw [State.core_modCore]
    · split
      · rename_i h; subst h; rfl
      · rfl
    · intro x; rfl

theorem Soft.watchResults (s : State) (c : Cur) (core : Nat) (t : Int) (res : List (List (Nat × Latch) × ResKind)) (fl : List (Nat × Fl)) :
    Soft s (watchResults s c core t res fl).1 c.wid := by
  unfold Sys2Proof.Machine.watchResults
  split
  · exact Soft.refl _ _
  · exact Soft.watchTest _ _ _ _ _

/-- A trap that finds its word done enters the handler, or a double trap sets the handler PC back on the word (R280). -/
theorem Soft.raiseDone (s : State) (c : Cur) (t : TrapReq) (h : c.hstep = none) : Soft s (raiseDone s c t) c.wid (some c.pc) := by
  unfold Sys2Proof.Machine.raiseDone
  rw [h]
  refine Soft.trans (Soft.modWarp s c.wid _ (fun w => by split <;> rfl) fun w _ => ?_) (Soft.enterTrap _ _ _).weaken
  split
  · exact ⟨rfl, fun hh => ⟨hh, .inr rfl⟩⟩
  · exact ⟨rfl, fun hh => absurd hh (by assumption)⟩

/-- After the result and flags are written, only trap state, halts, watch units, signals and the log change; a word whose flags may trap may send
the handler PC back to itself. -/
theorem Soft.afterWord (i : Instr) (s : State) (c : Cur) (w : Warp) (res : List (List (Nat × Latch) × ResKind)) (fl : List (Nat × Fl))
    (h : c.hstep = none) : Soft s (afterWord i s c w res fl) c.wid (if i.te = 0 then none else some c.pc) := by
  unfold Sys2Proof.Machine.afterWord
  have hp : Soft s (if i.isVector && !w.handler then Sys2Proof.Machine.watchResults s c w.coreNo s.now res fl else (s, [])).1 c.wid := by
    split
    · exact Soft.watchResults _ _ _ _ _ _
    · exact Soft.refl _ _
  simp only [h]
  generalize (if i.isVector && !w.handler then Sys2Proof.Machine.watchResults s c w.coreNo s.now res fl else (s, [])) = p at hp ⊢
  split
  · exact (hp.trans (Soft.watchAct _ _ _)).weaken
  · rename_i he
    have hte : i.te ≠ 0 := fun h0 => he (by simp [arithTraps, h0])
    rw [if_neg hte]
    refine Soft.trans ?_ (Soft.raiseDone _ _ _ h)
    split
    · refine (hp.trans (Soft.modWarp _ _ _ (fun x => ?_) fun x _ => ?_)).weaken
      · unfold Warp.holdTrap; split <;> rfl
      · obtain ⟨a, b, d⟩ := Warp.soft_holdTrap x (trapTrigs p.2)
        exact ⟨a, fun hh => ⟨b.trans hh, .inl d⟩⟩
    · exact (hp.trans (Soft.watchAct _ _ _)).weaken

/-- With trap enable 0 and no armed unit nothing follows the word. -/
theorem afterWord_quiet (i : Instr) (s : State) (c : Cur) (w : Warp) (res : List (List (Nat × Latch) × ResKind)) (fl : List (Nat × Fl))
    (h : c.hstep = none) (hte : i.te = 0) (hu : (s.core w.coreNo).watch = []) : afterWord i s c w res fl = s := by
  have hp : (if i.isVector && !w.handler then watchResults s c w.coreNo s.now res fl else (s, [])) = (s, []) := by
    split
    · unfold watchResults
      split
      · rfl
      · simp [watchTest, hu]
    · rfl
  have ha : ∀ q : Nat × Fl, arithTraps i.te q.2 = false := fun q => by simp [arithTraps, hte]
  unfold afterWord
  simp only [hp, h, ha]
  simp [watchAct, strongest, trapTrigs, nodups]

end Sys2Proof.Machine
end

