-- ==== Sys2Proof/Laws/Word.lean ====
section
/-! SUPPORT. Laws/Word.lean: what an issued word does in every case, and what a word of the value classes computes. -/

namespace Sys2Proof.Machine

open Sys2Proof Tern

/-! ### The lanes after a word -/

/-- The chain, latches and exemption of a lane after a word. -/
def Lane.retire (i : Instr) (lts : List (Nat → Latch)) (keep : Bool) (l : Nat) (x : Lane) : Lane :=
  let x1 := Lane.chainStep (!i.latches.isEmpty) x
  let x2 := if x.latches i then lts.foldl (fun x lt => x.latch (lt l)) x1 else x1
  { (if i.chainEnds then x2.chainEnd else x2) with skip := keep && x.skip, tested := false }

theorem latches_same {β : Type} (g : Lane → β) (hg : ∀ x y, g (x.latch y) = g x) (l : Nat) : ∀ (lts : List (Nat → Latch)) (x : Lane),
    g (lts.foldl (fun x lt => x.latch (lt l)) x) = g x
  | [], _ => rfl
  | a :: as, x => by rw [List.foldl_cons, latches_same g hg l as, hg]

/-- Chain, latches and exemption are all that changes. -/
theorem Lane.retire_same {β : Type} (g : Lane → β)
    (hg : ∀ (x : Lane) (a b c : Latch) (m n k : Nat) (e f : Bool),
      g { x with x1 := a, x2 := b, x3 := c, pos := m, since := n, made := k, skip := e, tested := f } = g x)
    (i : Instr) (lts : List (Nat → Latch)) (keep : Bool) (l : Nat) (x : Lane) : g (Lane.retire i lts keep l x) = g x := by
  have h1 : ∀ b x, g (Lane.chainStep b x) = g x := fun b x => by
    unfold Lane.chainStep; split
    · exact hg x x.x1 x.x2 x.x3 (x.pos + 1) x.since x.made x.skip x.tested
    · exact hg x x.x1 x.x2 x.x3 1 0 x.made x.skip x.tested
  have h2 : ∀ x y, g (Lane.latch x y) = g x := fun x y => hg x y.fit x.x1 x.x2 x.pos (x.since + 1) (x.made + 1) x.skip x.tested
  have h3 : ∀ x, g (Lane.chainEnd x) = g x := fun x => hg x x.x1 x.x2 x.x3 0 0 x.made x.skip x.tested
  have h4 : ∀ x k e, g { x with skip := k, tested := e } = g x := fun x k e => hg x x.x1 x.x2 x.x3 x.pos x.since x.made k e
  unfold Lane.retire
  dsimp only
  rw [h4]
  split <;> (try rw [h3]) <;> split <;> (try rw [latches_same g h2]) <;> exact h1 _ _

/-- Flags of a lane under a list of flags to raise. -/
def raisedAt (fl : List (Nat × Fl)) (l : Nat) (v : Int) : Int :=
  match fl.find? fun p => p.1 == l with | some p => flagsOr v p.2 | none => v

theorem Warp.lane_raise (w : Warp) (fl : List (Nat × Fl)) {l : Nat} (h : l < w.lanes.length) :
    (w.raise fl).lane l = { w.lane l with flags := raisedAt fl l (w.lane l).flags } := by
  unfold Warp.raise raisedAt
  rw [Warp.lane_allLanes w _ h]
  cases fl.find? fun p => p.1 == l <;> rfl

theorem Warp.retireWord_eq (w : Warp) (i : Instr) (ls : List Nat) (lts : List (Nat → Latch)) (fl : List (Nat × Fl)) (adv keep : Bool) :
    w.retireWord i ls lts fl adv keep =
      (let w2 := (w.modLanes ls (Lane.retire i lts keep)).raise fl
       if adv then w2.advance ls else w2) := rfl

/-- A lane of the warp after a word. -/
theorem Warp.lane_retireWord (w : Warp) (i : Instr) (ls : List Nat) (lts : List (Nat → Latch)) (fl : List (Nat × Fl)) (adv keep : Bool)
    {l : Nat} (h : l < w.lanes.length) :
    (w.retireWord i ls lts fl adv keep).lane l =
      (let x := if l ∈ ls then Lane.retire i lts keep l (w.lane l) else w.lane l
       { x with flags := raisedAt fl l (w.lane l).flags,
                pc := (w.lane l).pc + (if adv = true ∧ w.handler = false ∧ l ∈ ls then 1 else 0) }) := by
  rw [Warp.retireWord_eq]
  have h1 : l < (w.modLanes ls (Lane.retire i lts keep)).lanes.length := by simpa using h
  have hpc : ∀ x, (Lane.retire i lts keep l x).pc = x.pc := Lane.retire_same (fun x => x.pc) (fun _ _ _ _ _ _ _ _ _ => rfl) i lts keep l
  have hflag : ∀ x, (Lane.retire i lts keep l x).flags = x.flags :=
    Lane.retire_same (fun x => x.flags) (fun _ _ _ _ _ _ _ _ _ => rfl) i lts keep l
  have hbase : ((w.modLanes ls (Lane.retire i lts keep)).raise fl).lane l =
      { (if l ∈ ls then Lane.retire i lts keep l (w.lane l) else w.lane l) with flags := raisedAt fl l (w.lane l).flags } := by
    rw [Warp.lane_raise _ _ h1, Warp.lane_modLanes w ls _ h]
    split
    · simp [hflag]
    · rfl
  cases adv
  · simp only [Bool.false_eq_true, if_false, false_and, add_zero]
    rw [hbase]; split <;> simp [hpc]
  · simp only [if_true]
    unfold Warp.advance
    have hh : ((w.modLanes ls (Lane.retire i lts keep)).raise fl).handler = w.handler := rfl
    rw [hh]
    cases hw : w.handler
    · simp only [Bool.false_eq_true, if_false, true_and]
      rw [Warp.lane_modLanes _ ls _ (by simpa [Warp.raise] using h1), hbase]
      by_cases hm : l ∈ ls <;> simp [hm, hpc]
    · simp only [if_true]
      show ((w.modLanes ls (Lane.retire i lts keep)).raise fl).lane l = _
      rw [hbase]; split <;> simp [hpc]

/-- The warp after a word, beside its lanes and handler PC. -/
theorem Warp.retireWord_hpc (w : Warp) (i : Instr) (ls : List Nat) (lts : List (Nat → Latch)) (fl : List (Nat × Fl)) (adv keep : Bool) :
    (w.retireWord i ls lts fl adv keep).hpc = w.hpc + (if adv = true ∧ w.handler = true then 1 else 0) := by
  rw [Warp.retireWord_eq]
  cases adv
  · simp [Warp.raise]
  · simp only [if_true]
    unfold Warp.advance
    have hh : ((w.modLanes ls (Lane.retire i lts keep)).raise fl).handler = w.handler := rfl
    rw [hh]
    cases hw : w.handler <;> simp [Warp.raise]

/-- A warp without lanes and handler PC is kept. -/
def Warp.frame (w : Warp) : Warp := { w with lanes := [], hpc := 0 }

theorem Warp.retireWord_frame (w : Warp) (i : Instr) (ls : List Nat) (lts : List (Nat → Latch)) (fl : List (Nat × Fl)) (adv keep : Bool) :
    (w.retireWord i ls lts fl adv keep).frame = w.frame := by
  rw [Warp.retireWord_eq]
  cases adv
  · rfl
  · simp only [if_true]; unfold Warp.advance; split <;> rfl

@[simp] theorem Warp.retireWord_length (w : Warp) (i : Instr) (ls : List Nat) (lts : List (Nat → Latch)) (fl : List (Nat × Fl)) (adv keep : Bool) :
    (w.retireWord i ls lts fl adv keep).lanes.length = w.lanes.length := by
  rw [Warp.retireWord_eq]
  cases adv
  · simp [Warp.raise]
  · simp only [if_true]; unfold Warp.advance; split <;> simp [Warp.raise]

theorem Warp.retireWord_wid (w : Warp) (i : Instr) (ls : List Nat) (lts : List (Nat → Latch)) (fl : List (Nat × Fl)) (adv keep : Bool) :
    (w.retireWord i ls lts fl adv keep).wid = w.wid :=
  (congrArg Warp.wid (Warp.retireWord_frame w i ls lts fl adv keep) : (w.retireWord i ls lts fl adv keep).frame.wid = w.frame.wid)

/-! ### Soft parts -/

theorem Warp.lane_soft {w w' : Warp} (h : w'.soft = w.soft) (l : Nat) : (w'.lane l).soft = (w.lane l).soft := by
  have h1 : w'.lanes.map Lane.soft = w.lanes.map Lane.soft := congrArg Warp.lanes h
  have h2 := congrArg (fun x => x.getD l (Lane.soft (Lane.start 0))) h1
  simpa only [Warp.lane, List.getD_map] using h2

/-- The data of a warp that a soft change keeps. -/
theorem Warp.soft_regs {w w' : Warp} (h : w'.soft = w.soft) : w'.v = w.v ∧ w'.g = w.g ∧ w'.p = w.p ∧ w'.q = w.q :=
  ⟨(congrArg Warp.v h : w'.soft.v = w.soft.v), (congrArg Warp.g h : w'.soft.g = w.soft.g), (congrArg Warp.p h : w'.soft.p = w.soft.p),
    (congrArg Warp.q h : w'.soft.q = w.soft.q)⟩

/-! ### A word that runs -/

/-- What a word that runs does with its effect. -/
theorem runWord_eq {i : Instr} {s : State} {c : Cur} {w : Warp} (h : Runs i s c w) (act : State → Cur → Warp → List Nat → Eff) :
    runWord i s act =
      (let al := activeOf i w c.lanes
       match act (s.counted i c.wid) c w al with
       | .trap s2 t => s2.enterTrap c.wid t
       | .stay s2 => s2
       | .part s2 st => finishWord i s2 { c with lanes := c.lanes.filter fun l => !st.contains l } w [latchOf s2 al []] [] [] true
       | .hold n => ({ s with cur := none } : State).modWarp c.wid fun w => { w with blocked := some n }
       | .moved s2 => finishWord i s2 c w [latchOf s2 al []] [] [] false
       | .done s2 res fl k => finishWord i s2 c w [latchOf s2 al res] [(res, k)] fl true
       | .pair s2 r1 r2 fl k1 k2 => finishWord i s2 c w [latchOf s2 [] r1, latchOf s2 [] r2] [(r1, k1), (r2, k2)] fl true) := by
  unfold runWord
  rw [h.cur]
  simp only [h.warp, h.legal, Bool.not_true, Bool.false_eq_true, if_false]
  simp only [raiseTrap, h.own, activeOf, State.counted] <;> rfl

theorem Warp.countYields_lane (w : Warp) (n : Int) {l : Nat} (h : l < w.lanes.length) :
    (w.countYields n).lane l = { w.lane l with yielded := (w.lane l).yielded.map fun y => { y with count := y.count - n } } :=
  Warp.lane_allLanes w _ h

@[simp] theorem Warp.countYields_length (w : Warp) (n : Int) : (w.countYields n).lanes.length = w.lanes.length := by
  simp [Warp.countYields]

theorem State.counted_warp {i : Instr} {s : State} {c : Cur} {w : Warp} (h : s.warp? c.wid = some w) (m : Nat) :
    (s.counted i c.wid).warp? m = if m = c.wid then some (w.countYields (wordCount i)) else s.warp? m := by
  unfold State.counted
  rw [State.warp?_modWarp _ _ _ (fun x => by rfl)]
  have : ({ s with cur := none } : State).warp? c.wid = some w := h
  simp [this]; rfl

/-- What follows a word's effect changes nothing but trap state, halts, watch units, signals and the log. -/
theorem finishWord_soft (i : Instr) (s : State) (c : Cur) (w : Warp) (lts : List (Nat → Latch)) (res : List (List (Nat × Latch) × ResKind))
    (fl : List (Nat × Fl)) (adv : Bool) (h : c.hstep = none) :
    Soft (({ s with fresh := s.fresh + 27 } : State).modWarp c.wid fun x => x.retireWord i c.lanes lts fl adv w.handler)
      (finishWord i s c w lts res fl adv) c.wid (if i.te = 0 then none else some c.pc) :=
  Soft.afterWord i _ c w res fl h

theorem finishWord_quiet (i : Instr) (s : State) (c : Cur) (w : Warp) (lts : List (Nat → Latch)) (res : List (List (Nat × Latch) × ResKind))
    (fl : List (Nat × Fl)) (adv : Bool) (h : c.hstep = none) (hte : i.te = 0) (hu : (s.core w.coreNo).watch = []) :
    finishWord i s c w lts res fl adv =
      ({ s with fresh := s.fresh + 27 } : State).modWarp c.wid fun x => x.retireWord i c.lanes lts fl adv w.handler :=
  afterWord_quiet i _ c w res fl h hte hu

/-! ### Words without a result -/

theorem modFirst_self {α : Type} (p : α → Bool) (f : α → α) (l : List α) (h : ∀ x, l.find? p = some x → f x = x) : modFirst p f l = l := by
  induction l with
  | nil => rfl
  | cons x xs ih =>
    unfold modFirst
    by_cases hp : p x = true
    · simp [hp, h x (by simp [hp])]
    · simp only [hp, Bool.false_eq_true, if_false]
      rw [ih fun y hy => h y (by simp [List.find?_cons, hp, hy])]

/-- Units that match nothing change nothing. -/
theorem watchTest_nothing (s : State) (core : Nat) (t : Int) (m : Watch → List (Nat × Int)) (hm : ∀ u, m u = []) :
    watchTest s core t m = (s, []) := by
  unfold watchTest
  dsimp only
  split
  · rfl
  · rename_i he
    have h1 : (s.core core).watch.map (fun u => u.take (if u.since < t then m u else [])) = (s.core core).watch.map fun u => (u, []) := by
      apply List.map_congr_left; intro u _; simp [hm, Watch.take]
    rw [h1]
    have h2 : (((s.core core).watch.map fun u => (u, ([] : List Trig))).map fun p => p.1) = (s.core core).watch := by simp [Function.comp_def]
    have h3 : (((s.core core).watch.map fun u => (u, ([] : List Trig))).flatMap fun p => p.2) = [] := by simp [List.flatMap_map]
    rw [h2, h3]
    have hin : s.core core ∈ s.cores := by
      unfold State.core at he ⊢
      cases hf : s.cores.find? fun c => c.n == core with
      | none => rw [hf] at he; simp [Core.empty] at he
      | some x => simpa using List.mem_of_find?_eq_some hf
    have hn : (s.core core).n = core := by
      unfold State.core at he ⊢
      cases hf : s.cores.find? fun c => c.n == core with
      | none => rw [hf] at he; simp [Core.empty] at he
      | some x => simpa using List.find?_some hf
    have hany : (s.cores.any fun c => c.n == core) = true := List.any_eq_true.2 ⟨_, hin, by simp [hn]⟩
    unfold State.modCore
    rw [if_pos hany, modFirst_self]
    intro x hx
    have : s.core core = x := by unfold State.core; rw [hx]; rfl
    rw [this]

theorem watchResults_nothing (s : State) (c : Cur) (core : Nat) (t : Int) (res : List (List (Nat × Latch) × ResKind))
    (h : ∀ r ∈ res, r.1 = []) : watchResults s c core t res [] = (s, []) := by
  unfold watchResults
  split
  · rfl
  · apply watchTest_nothing
    intro u
    split
    · have : ∀ l, (res.any fun r => r.1.any fun p => p.1 == l && u.matchesValue r.2 p.2.val) = false := by
        intro l
        rw [List.any_eq_false]
        intro r hr; simp [h r hr]
      simp [this]
    · split <;> rfl

/-- A word without results and flags ends by bookkeeping alone. -/
theorem finishWord_plain (i : Instr) (s : State) (c : Cur) (w : Warp) (lts : List (Nat → Latch)) (res : List (List (Nat × Latch) × ResKind))
    (adv : Bool) (hr : ∀ r ∈ res, r.1 = []) (h : c.hstep = none) :
    finishWord i s c w lts res [] adv =
      ({ s with fresh := s.fresh + 27 } : State).modWarp c.wid fun x => x.retireWord i c.lanes lts [] adv w.handler := by
  unfold finishWord
  dsimp only
  unfold afterWord
  rw [watchResults_nothing _ _ _ _ _ hr]
  simp [h, watchAct, strongest, trapTrigs, nodups]

/-- A word whose effect answers plainly. -/
theorem runWord_plain {i : Instr} {s : State} {c : Cur} {w : Warp} (h : Runs i s c w) {act : State → Cur → Warp → List Nat → Eff} {s2 : State}
    (he : act (s.counted i c.wid) c w (activeOf i w c.lanes) = .plain s2) : runWord i s act = s2.endWord i c w true := by
  rw [runWord_eq h]
  dsimp only
  rw [he]
  exact finishWord_plain i s2 c w _ _ true (by simp) h.own

theorem runWord_moved {i : Instr} {s : State} {c : Cur} {w : Warp} (h : Runs i s c w) {act : State → Cur → Warp → List Nat → Eff} {s2 : State}
    (he : act (s.counted i c.wid) c w (activeOf i w c.lanes) = .moved s2) : runWord i s act = s2.endWord i c w false := by
  rw [runWord_eq h]
  dsimp only
  rw [he]
  exact finishWord_plain i s2 c w _ _ false (by simp) h.own

theorem runWord_trap {i : Instr} {s : State} {c : Cur} {w : Warp} (h : Runs i s c w) {act : State → Cur → Warp → List Nat → Eff} {s2 : State}
    {t : TrapReq} (he : act (s.counted i c.wid) c w (activeOf i w c.lanes) = .trap s2 t) : runWord i s act = s2.enterTrap c.wid t := by
  rw [runWord_eq h]
  dsimp only
  rw [he]

end Sys2Proof.Machine
end

