-- ==== Sys2Proof/Laws/Compute.lean ====
section
/-! SUPPORT. Laws/Compute.lean: a word of the value classes computes its value into its destination. -/

namespace Sys2Proof.Machine

open Sys2Proof Tern

/-! ### Registers -/

theorem Warp.vreg_setV (w : Warp) (l n : Nat) (x : Int) (l' n' : Nat) (hn : n < 81) (hn' : n' < 81) :
    (w.setV l n x).vreg l' n' = if l = l' ∧ n = n' then lowWord x else w.vreg l' n' := by
  unfold Warp.vreg Warp.setV
  rw [sget_sset]
  by_cases h : l = l' ∧ n = n'
  · obtain ⟨rfl, rfl⟩ := h; simp
  · rw [if_neg h, if_neg (by omega)]

theorem Warp.greg_setG (w : Warp) (n : Nat) (x : Int) (n' : Nat) : (w.setG n x).greg n' = if n = n' then lowWord x else w.greg n' := by
  unfold Warp.greg Warp.setG; rw [sget_sset]

/-- The V registers of a destination. -/
def vsOf (d : Dst) (dbl : Bool) : List Nat := match d with | .v n => if dbl then [n, n + 1] else [n] | _ => []
/-- The G registers of a destination. -/
def gsOf (d : Dst) (dbl : Bool) : List Nat := match d with | .g n => if dbl then [n, n + 1] else [n] | _ => []

/-- The word that register n of a destination receives. -/
def dstPart (d : Dst) (dbl : Bool) (n : Nat) (x : Int) : Int :=
  if dbl then (if (match d with | .v m => m | .g m => m | .latch => 0) = n then lowWord x else highWord x) else lowWord x

/-- The upper half of a double as a register takes it. -/
theorem lowWord_shr (x : Int) : lowWord (shr x 27) = highWord x := rfl

/-- Every V register of a destination lies in the file. -/
def dstIn (d : Dst) (dbl : Bool) : Prop := ∀ n ∈ vsOf d dbl, n < 81

theorem Warp.vreg_setDst (w : Warp) (l : Nat) (d : Dst) (dbl : Bool) (x : Int) (hd : dstIn d dbl) (l' n : Nat) (hn : n < 81) :
    (w.setDst l d dbl x).vreg l' n = if l = l' ∧ n ∈ vsOf d dbl then dstPart d dbl n x else w.vreg l' n := by
  cases d with
  | latch => simp [Warp.setDst, vsOf]
  | g m => cases dbl <;> simp [Warp.setDst, vsOf, Warp.vreg]
  | v m =>
    cases dbl
    · have hm : m < 81 := hd m (by simp [vsOf])
      simp only [Warp.setDst, Bool.false_eq_true, if_false, vsOf, dstPart, List.mem_singleton]
      rw [Warp.vreg_setV _ _ _ _ _ _ hm hn]
      by_cases h : l = l' ∧ m = n
      · simp [h]
      · rw [if_neg h, if_neg (by rintro ⟨h1, h2⟩; exact h ⟨h1, h2.symm⟩)]
    · have hm : m < 81 := hd m (by simp [vsOf])
      have hm1 : m + 1 < 81 := hd (m + 1) (by simp [vsOf])
      simp only [Warp.setDst, if_true, vsOf, dstPart]
      rw [Warp.vreg_setV _ _ _ _ _ _ hm1 hn, Warp.vreg_setV _ _ _ _ _ _ hm hn]
      by_cases h1 : l = l' ∧ m + 1 = n
      · obtain ⟨rfl, rfl⟩ := h1; simp [lowWord_shr]
      · rw [if_neg h1]
        by_cases h2 : l = l' ∧ m = n
        · obtain ⟨rfl, rfl⟩ := h2; simp
        · rw [if_neg h2, if_neg]
          rintro ⟨h, hh⟩
          rcases (by simpa using hh : n = m ∨ n = m + 1) with rfl | rfl
          · exact h2 ⟨h, rfl⟩
          · exact h1 ⟨h, rfl⟩

theorem Warp.greg_setDst (w : Warp) (l : Nat) (d : Dst) (dbl : Bool) (x : Int) (n : Nat) :
    (w.setDst l d dbl x).greg n = if n ∈ gsOf d dbl then dstPart d dbl n x else w.greg n := by
  cases d with
  | latch => simp [Warp.setDst, gsOf]
  | v m => cases dbl <;> simp [Warp.setDst, gsOf, Warp.greg]
  | g m =>
    cases dbl
    · simp only [Warp.setDst, Bool.false_eq_true, if_false, gsOf, dstPart, List.mem_singleton]
      rw [Warp.greg_setG]; simp [eq_comm]
    · simp only [Warp.setDst, if_true, gsOf, dstPart]
      rw [Warp.greg_setG, Warp.greg_setG]
      by_cases h1 : m + 1 = n
      · subst h1; simp [lowWord_shr]
      · rw [if_neg h1]
        by_cases h2 : m = n
        · subst h2; simp
        · rw [if_neg h2, if_neg]
          intro hh
          rcases (by simpa using hh : n = m ∨ n = m + 1) with rfl | rfl
          · exact h2 rfl
          · exact h1 rfl

/-! ### Lists of results -/

theorem find_map_self {α : Type} (g : Nat → α) (l : Nat) : ∀ al : List Nat,
    (al.map fun k => (k, g k)).find? (fun p => p.1 == l) = if l ∈ al then some (l, g l) else none
  | [] => rfl
  | a :: as => by
    rw [List.map_cons, List.find?_cons]
    by_cases h : a = l
    · subst h; simp
    · have h2 : ¬ l = a := fun e => h e.symm
      have h3 : (a == l) = false := by simpa using h
      simp [h2, h3, find_map_self g l as]

theorem find_flags (f : Nat → Fl) (l : Nat) : ∀ al : List Nat,
    ((al.filter fun k => !(f k).isNone).map fun k => (k, f k)).find? (fun p => p.1 == l) =
      if l ∈ al ∧ (f l).isNone = false then some (l, f l) else none := by
  intro al
  rw [find_map_self]
  simp

/-! ### A word that only writes registers of its warp -/

/-- A change of a warp's registers alone. -/
def RegsOnly (g : Warp → Warp) : Prop :=
  ∀ x : Warp, ({ g x with v := [], g := [], p := [], q := [] } : Warp) = { x with v := [], g := [], p := [], q := [] }

theorem RegsOnly.field {g : Warp → Warp} (h : RegsOnly g) {β : Type} (π : Warp → β)
    (hp : ∀ x : Warp, π { x with v := [], g := [], p := [], q := [] } = π x) (x : Warp) : π (g x) = π x := by
  rw [← hp (g x), h x, hp x]

/-- What a word that only writes registers of its warp does besides. -/
structure Done (i : Instr) (s t : State) (c : Cur) (w w' : Warp) (cw : Warp) (lts : List (Nat → Latch)) (fl : List (Nat × Fl)) : Prop where
  warp : t.warp? c.wid = some w'
  v : w'.v = cw.v
  g : w'.g = cw.g
  p : w'.p = cw.p
  q : w'.q = cw.q
  flags : ∀ l, l < 27 → (w'.lane l).flags = raisedAt fl l (w.lane l).flags
  x1 : ∀ l, l < 27 → (w'.lane l).x1 = (if l ∈ c.lanes then (Lane.retire i lts w.handler l (w.lane l)).x1 else (w.lane l).x1)
  x2 : ∀ l, l < 27 → (w'.lane l).x2 = (if l ∈ c.lanes then (Lane.retire i lts w.handler l (w.lane l)).x2 else (w.lane l).x2)
  x3 : ∀ l, l < 27 → (w'.lane l).x3 = (if l ∈ c.lanes then (Lane.retire i lts w.handler l (w.lane l)).x3 else (w.lane l).x3)
  moved : MovedOn i c w w'
  apart : Apart s t c.wid
  calm : Quiet i s w → Calm s t c w w'

theorem latches_yield (lts : List (Nat → Latch)) (l : Nat) (y : Option Yield) : ∀ x : Lane,
    lts.foldl (fun x lt => x.latch (lt l)) { x with yielded := y } = { lts.foldl (fun x lt => x.latch (lt l)) x with yielded := y } := by
  induction lts with
  | nil => intro x; rfl
  | cons a as ih => intro x; exact ih (x.latch (a l))

theorem Lane.retire_yield (i : Instr) (lts : List (Nat → Latch)) (k : Bool) (l : Nat) (x : Lane) (y : Option Yield) :
    Lane.retire i lts k l { x with yielded := y } = { Lane.retire i lts k l x with yielded := y } := by
  unfold Lane.retire
  dsimp only
  have h : ∀ b, Lane.chainStep b { x with yielded := y } = { Lane.chainStep b x with yielded := y } := fun b => by
    unfold Lane.chainStep; split <;> rfl
  have hl : Lane.latches i { x with yielded := y } = x.latches i := rfl
  simp only [h, hl]
  split <;> split <;> (try simp only [latches_yield]) <;> rfl

theorem done_spec {i : Instr} {s : State} {c : Cur} {w : Warp} (hr : Runs i s c w) (g : Warp → Warp) (hg : RegsOnly g)
    (lts : List (Nat → Latch)) (res : List (List (Nat × Latch) × ResKind)) (fl : List (Nat × Fl)) :
    ∃ w', Done i s (finishWord i ((s.counted i c.wid).modWarp c.wid g) c w lts res fl true) c w w' (g (w.countYields (wordCount i))) lts fl := by
  have hwid : ∀ x, (g x).wid = x.wid := hg.field Warp.wid fun _ => rfl
  have hlan : ∀ x, (g x).lanes = x.lanes := hg.field Warp.lanes fun _ => rfl
  have hlane : ∀ x l, (g x).lane l = x.lane l := fun x l => by simp only [Warp.lane, hlan]
  have hhan : ∀ x, (g x).handler = x.handler := hg.field Warp.handler fun _ => rfl
  have hhpc : ∀ x, (g x).hpc = x.hpc := hg.field Warp.hpc fun _ => rfl
  set cw := w.countYields (wordCount i) with hcw
  set s2 := (s.counted i c.wid).modWarp c.wid g with hs2
  set s3 := ({ s2 with fresh := s2.fresh + 27 } : State).modWarp c.wid (fun x => x.retireWord i c.lanes lts fl true w.handler) with hs3
  have hsoft := finishWord_soft i s2 c w lts res fl true hr.own
  have hw2 : ∀ m, s2.warp? m = if m = c.wid then some (g cw) else s.warp? m := fun m => by
    rw [hs2, State.warp?_modWarp _ _ _ hwid, State.counted_warp hr.warp, State.counted_warp hr.warp]
    by_cases h : m = c.wid
    · simp [h, hcw]
    · simp [h]
  have hw3 : ∀ m, s3.warp? m = if m = c.wid then some ((g cw).retireWord i c.lanes lts fl true w.handler) else s.warp? m := fun m => by
    rw [hs3, State.warp?_modWarp _ _ _ (fun x => Warp.retireWord_wid x i c.lanes lts fl true w.handler)]
    have : ∀ m, ({ s2 with fresh := s2.fresh + 27 } : State).warp? m = s2.warp? m := fun _ => rfl
    rw [this, this, hw2, hw2]
    by_cases h : m = c.wid
    · simp [h]
    · simp [h]
  set w3 := (g cw).retireWord i c.lanes lts fl true w.handler with hw3d
  have hlen : (g cw).lanes.length = 27 := by rw [hlan, hcw]; simp [hr.shaped.lanes]
  have hcl : ∀ l, l < 27 → (g cw).lane l = { w.lane l with yielded := (w.lane l).yielded.map fun y => { y with count := y.count - wordCount i } } :=
    fun l hl => by rw [hlane, hcw, Warp.countYields_lane _ _ (by rw [hr.shaped.lanes]; exact hl)]
  have hl3 : ∀ l, l < 27 → w3.lane l =
      { (if l ∈ c.lanes then Lane.retire i lts w.handler l (w.lane l) else w.lane l) with
          yielded := (w.lane l).yielded.map fun y => { y with count := y.count - wordCount i }
          flags := raisedAt fl l (w.lane l).flags
          pc := (w.lane l).pc + (if w.handler = false ∧ l ∈ c.lanes then 1 else 0) } := fun l hl => by
    rw [hw3d, Warp.lane_retireWord _ _ _ _ _ _ _ (by rw [hlen]; exact hl), hcl l hl]
    have h1 : (g cw).handler = w.handler := by rw [hhan, hcw]; rfl
    rw [h1]
    by_cases hm : l ∈ c.lanes
    · simp only [hm, if_true, Lane.retire_yield, and_true, true_and]
    · simp only [hm, if_false, and_false]
  obtain ⟨w', hw', hso, hha⟩ := hsoft.own w3 (by rw [← hs3, hw3]; simp)
  have hls := fun l => Warp.lane_soft hso l
  have hfr := Warp.retireWord_frame (g cw) i c.lanes lts fl true w.handler
  obtain ⟨e1, e2, e3, e4⟩ := Warp.soft_regs hso
  have p3 : ∀ {β : Type} (π : Lane → β) (_ : ∀ x : Lane, π x.soft = π x) (l : Nat), π (w'.lane l) = π (w3.lane l) := fun π hp l => by
    rw [← hp (w'.lane l), hls l, hp]
  refine ⟨w', hw', e1.trans (congrArg Warp.v hfr : w3.frame.v = _), e2.trans (congrArg Warp.g hfr : w3.frame.g = _),
    e3.trans (congrArg Warp.p hfr : w3.frame.p = _), e4.trans (congrArg Warp.q hfr : w3.frame.q = _), ?_, ?_, ?_, ?_, ?_, ?_, ?_⟩
  · intro l hl; rw [p3 (fun x => x.flags) (fun _ => rfl), hl3 l hl]
  · intro l hl; rw [p3 (fun x => x.x1) (fun _ => rfl), hl3 l hl]; split <;> rfl
  · intro l hl; rw [p3 (fun x => x.x2) (fun _ => rfl), hl3 l hl]; split <;> rfl
  · intro l hl; rw [p3 (fun x => x.x3) (fun _ => rfl), hl3 l hl]; split <;> rfl
  · refine ⟨?_, ?_, ?_⟩
    · intro l hl; rw [p3 (fun x => x.yielded) (fun _ => rfl), hl3 l hl]
    · intro hh l hl
      rw [p3 (fun x => x.pc) (fun _ => rfl), hl3 l hl]
      simp [hh]
    · intro hh
      have h3h : w3.handler = true := by
        have h1 : w3.handler = (g cw).handler := (congrArg Warp.handler hfr : w3.frame.handler = _)
        rw [h1, hhan, hcw]; exact hh
      obtain ⟨-, hp⟩ := hha h3h
      refine ⟨?_, fun l hl => ?_⟩
      · rcases hp with hp | hp
        · refine .inl ?_
          rw [hp, hw3d, Warp.retireWord_hpc, hhpc, hhan, hcw]
          simp [Warp.countYields, hh]
        · by_cases hte : i.te = 0
          · simp [hte] at hp
          · exact .inr ⟨hte, by simpa [hte] using hp.symm⟩
      · rw [p3 (fun x => x.pc) (fun _ => rfl), hl3 l hl]; simp [hh]
  · have hk := hsoft.kept
    have hmem : (finishWord i s2 c w lts res fl true).mem = s.mem := (congrArg State.mem hk : _)
    have hgan : (finishWord i s2 c w lts res fl true).gangs = s.gangs := (congrArg State.gangs hk : _)
    refine ⟨fun _ _ => by rw [hmem], fun _ _ => by rw [hmem], fun _ => by rw [hmem], fun n => by simp only [State.gang?, hgan], ?_, ?_, ?_, ?_⟩
    · exact congrArg (fun x : State => { x with cur := none, fresh := 0 }) hk
    · intro n hn
      rw [hsoft.others n hn, ← hs3, hw3]; simp [hn]
    · intro n; exact hsoft.cores n
    · exact hsoft.launches
  · intro hq
    have ht := finishWord_quiet i s2 c w lts res fl true hr.own hq.te (by exact hq.units)
    rw [← hs3] at ht
    have hw3' : w' = w3 := by
      have := hw'
      rw [ht, hw3] at this
      simpa using this.symm
    refine ⟨?_, ?_, ?_, ?_, ?_, ?_⟩
    · have h1 : w3.kept = (g cw).kept := (congrArg (fun x : Warp => { x with v := [], g := [], p := [], q := [] }) hfr : _)
      rw [hw3', h1]
      exact (congrArg (fun x : Warp => { x with lanes := [], hpc := 0 }) (hg cw) : _)
    · intro l hl
      rw [hw3', hl3 l hl]
      by_cases hm : l ∈ c.lanes
      · simp only [hm, if_true]
        exact Lane.retire_same (fun x => Lane.kept x) (fun _ _ _ _ _ _ _ _ _ => rfl) i lts w.handler l (w.lane l)
      · simp only [hm, if_false]; rfl
    · intro n hn; rw [ht, hw3]; simp [hn]
    · rw [ht]; rfl
    · rw [ht]; rfl
    · rw [ht]; rfl

end Sys2Proof.Machine
end

