-- ==== Sys2Proof/Laws/Effects.lean ====
section
/-! SUPPORT. Laws/Effects.lean: what the shared operations of words, traps and steps can do, said once. -/

namespace Sys2Proof.Machine

open Sys2Proof Tern

/-! ### Legality and guards -/

/-- A word that handler mode forbids runs outside it (R279). -/
theorem Runs.handler_of {i : Instr} {s : State} {c : Cur} {w : Warp} (h : Runs i s c w) (hn : i.noHandler = true) : w.handler = false := by
  have := Runs.legal h
  simp only [Machine.legal, Bool.and_eq_true, hn] at this
  simpa using this.1.1.1.2

theorem watchTest_unarmed (s : State) (core : Nat) (t : Int) (m : Watch → List (Nat × Int)) (h : (s.core core).watch = []) :
    watchTest s core t m = (s, []) := by
  simp [watchTest, h]

/-- With no unit armed, or in a handler, an access performs for every lane (R296, R300). -/
theorem guarded_unwatched {s : State} {c : Cur} {w : Warp} (h : w.handler = true ∨ (s.core w.coreNo).watch = []) (k : Access) (sc : Bool)
    (acc : List (Nat × Int × Int × Nat)) (go : State → List Nat → State) : guarded s c w k sc acc go = .plain (go s (acc.map fun x => x.1)) := by
  unfold guarded
  rcases h with h | h
  · simp [h]
  · dsimp only
    split
    · rfl
    · rw [watchTest_unarmed _ _ _ _ h]; rfl

theorem pcUnits_unarmed (s : State) (w : Warp) (ls : List Nat) (pc : Int) (h : (s.core w.coreNo).watch = []) : pcUnits s w ls pc = (s, []) := by
  unfold pcUnits
  split
  · rfl
  · exact watchTest_unarmed _ _ _ _ h

/-- The accesses of all their own lanes. -/
theorem accsOf_all (xs : List Acc) : accsOf xs (xs.map fun x => x.lane) = xs := by
  simp only [accsOf, List.filter_eq_self]
  intro a ha
  simpa using ⟨a, ha, rfl⟩
theorem unitAcc_lanes (n : Nat) (xs : List Acc) : ((unitAcc n xs).map fun x => x.1) = xs.map fun x => x.lane := by simp [unitAcc]
theorem tagAcc_lanes (xs : List Acc) : ((tagAcc xs).map fun x => x.1) = xs.map fun x => x.lane := by simp [tagAcc]

/-- An access that is not .SC, or whose lines are all at home, needs no refusal (R206). -/
theorem scAway_none {s : State} {sc : Bool} {xs : List Acc} (h : sc = true → ∀ x ∈ xs, x.away s = false) : scAway s sc xs = [] := by
  unfold scAway
  split
  · rename_i hs; simp; exact fun a ha => h hs a ha
  · rfl

/-! ### Traps (R277, R280, R281) -/

theorem State.enterTrap_none {s : State} {wid : Nat} (t : TrapReq) (h : s.warp? wid = none) : s.enterTrap wid t = s := by simp [State.enterTrap, h]

/-- A trap outside handler mode changes its own warp only, which stands at the handler of the cause. -/
theorem State.enterTrap_some {s : State} {wid : Nat} {w : Warp} (t : TrapReq) (h : s.warp? wid = some w) (hh : w.handler = false) :
    s.enterTrap wid t = s.modWarp wid fun w =>
      { w.allLanes (Lane.enter t) with
          handler := true, hpc := s.handlerPc w.ctx t.cause, tCause := t.cause, tLanes := maskOf (t.lanes.map fun p => p.1),
          tLevel := w.level, level := 1, inTaskf := decide (t.cause = cause.taskf) } := by
  simp [State.enterTrap, h, hh]

/-- A trap in handler mode halts the warp. -/
theorem State.enterTrap_double {s : State} {wid : Nat} {w : Warp} (t : TrapReq) (h : s.warp? wid = some w) (hh : w.handler = true) :
    s.enterTrap wid t = s.doubleTrap w t.cause := by
  simp [State.enterTrap, h, hh]

@[simp] theorem State.enterTrap_mem (s : State) (wid : Nat) (t : TrapReq) : (s.enterTrap wid t).mem = s.mem := by
  unfold State.enterTrap; split
  · rfl
  · split <;> rfl
@[simp] theorem State.enterTrap_gangs (s : State) (wid : Nat) (t : TrapReq) : (s.enterTrap wid t).gangs = s.gangs := by
  unfold State.enterTrap; split
  · rfl
  · split <;> rfl
@[simp] theorem State.enterTrap_reqs (s : State) (wid : Nat) (t : TrapReq) : (s.enterTrap wid t).reqs = s.reqs := by
  unfold State.enterTrap; split
  · rfl
  · split <;> rfl
@[simp] theorem State.enterTrap_pkg (s : State) (wid : Nat) (t : TrapReq) : (s.enterTrap wid t).pkg = s.pkg := by
  unfold State.enterTrap; split
  · rfl
  · split <;> rfl

@[simp] theorem Warp.leave_handler (w : Warp) (now : Int) : (w.leave now).handler = false := rfl
@[simp] theorem Warp.leave_level (w : Warp) (now : Int) : (w.leave now).level = w.tLevel := rfl
theorem Warp.leave_lane (w : Warp) (now : Int) {l : Nat} (h : l < w.lanes.length) : (w.leave now).lane l = Lane.resume now (w.lane l) :=
  Warp.lane_allLanes w (fun _ x => Lane.resume now x) h

/-! ### Steps -/

theorem Out.map_next (f : State → State) (s : State) : Out.map f (.next s) = .next (f s) := rfl

/-- The agenda's head is the move, unless it is an event that is barred. -/
theorem nextMove_agenda {s : State} {t : Turn} {r : List Turn} (h : s.agenda = t :: r) (hb : heldTurn { s with agenda := r } t = false) :
    nextMove s = (.turn t, { s with agenda := r }) := by
  simp [nextMove, h, hb]
theorem nextMove_held {s : State} {t : Turn} {r : List Turn} (h : s.agenda = t :: r) (hb : heldTurn { s with agenda := r } t = true) :
    nextMove s = (defaultMove s, s) := by
  simp [nextMove, h, hb]
theorem nextMove_default {s : State} (h : s.agenda = []) : nextMove s = (defaultMove s, s) := by simp [nextMove, h]

theorem foldl_keeps {α β γ : Type} (f : α → β → α) (k : α → γ) (h : ∀ a b, k (f a b) = k a) (l : List β) (a : α) : k (l.foldl f a) = k a := by
  induction l generalizing a with
  | nil => rfl
  | cons b l ih => simp [ih, h]

theorem movePair_warps (s : State) (pad p : Nat) : (movePair s pad p).warps = s.warps := by
  simp only [movePair, State.modPaddock]; split <;> rfl
theorem movePair_gangs (s : State) (pad p : Nat) : (movePair s pad p).gangs = s.gangs := by
  simp only [movePair, State.modPaddock]; split <;> rfl

theorem balancePads_warps (s : State) : (balancePads s).warps = s.warps := by
  refine foldl_keeps _ (fun s : State => s.warps) ?_ _ _
  intro s p
  dsimp only
  split
  · split
    · exact movePair_warps _ _ _
    · rfl
  · rfl
theorem balancePads_gangs (s : State) : (balancePads s).gangs = s.gangs := by
  refine foldl_keeps _ (fun s : State => s.gangs) ?_ _ _
  intro s p
  dsimp only
  split
  · split
    · exact movePair_gangs _ _ _
    · rfl
  · rfl
theorem noteHeads_warps (s : State) : (noteHeads s).warps = s.warps := by
  refine foldl_keeps _ (fun s : State => s.warps) ?_ _ _
  intro s p
  cases waitingGangs s p with
  | nil => rfl
  | cons x r => dsimp only; split <;> rfl
theorem noteHeads_gangs (s : State) : (noteHeads s).gangs = s.gangs := by
  refine foldl_keeps _ (fun s : State => s.gangs) ?_ _ _
  intro s p
  cases waitingGangs s p with
  | nil => rfl
  | cons x r => dsimp only; split <;> rfl
@[simp] theorem syncJournal_warps (s : State) : (syncJournal s).warps = s.warps := rfl
@[simp] theorem syncJournal_gangs (s : State) : (syncJournal s).gangs = s.gangs := rfl
@[simp] theorem syncJournal_launches (s : State) : (syncJournal s).launches = s.launches := rfl

end Sys2Proof.Machine
end

