-- ==== Sys2Proof/Laws/Ternary.lean ====
section
/-! SUPPORT. Laws/Ternary.lean: narrowing, discarding trits, trits and elements of a value (R5, R7, R26). -/

namespace Sys2Proof.Tern

theorem pow3_eq (n : Nat) : pow3 n = 3 ^ n := by simp [pow3]
theorem pow3_pos (n : Nat) : 0 < pow3 n := by rw [pow3_eq]; positivity
@[simp] theorem pow3_zero : pow3 0 = 1 := rfl
theorem pow3_add (m n : Nat) : pow3 (m + n) = pow3 m * pow3 n := by simp [pow3_eq, pow_add]
theorem pow3_succ (n : Nat) : pow3 (n + 1) = 3 * pow3 n := by rw [pow3_eq, pow3_eq, pow_succ]; ring

/-- 3^n = 2·maxv n + 1. -/
theorem two_maxv (n : Nat) : 2 * maxv n + 1 = pow3 n := by
  have hodd : Nat.pow 3 n % 2 = 1 := by
    show 3 ^ n % 2 = 1
    rw [Nat.pow_mod]; simp
  have : (2 * ((Nat.pow 3 n - 1) / 2) + 1 : Nat) = Nat.pow 3 n := by omega
  unfold maxv pow3
  simp only [Int.ofNat_eq_natCast]
  exact_mod_cast this

theorem maxv_nonneg (n : Nat) : 0 ≤ maxv n := by have := two_maxv n; have := pow3_pos n; omega

theorem narrow_le (v : Int) (n : Nat) : narrow v n ≤ maxv n := by
  have h1 := Int.emod_lt_of_pos (v + maxv n) (pow3_pos n)
  have h2 := two_maxv n
  unfold narrow; omega
theorem le_narrow (v : Int) (n : Nat) : -maxv n ≤ narrow v n := by
  have h1 := Int.emod_nonneg (v + maxv n) (ne_of_gt (pow3_pos n))
  unfold narrow; omega

/-- A value is what the discard of k trits leaves, moved up, and the discarded trits. -/
theorem shr_narrow (v : Int) (k : Nat) : pow3 k * shr v k + narrow v k = v := by
  have h := Int.mul_ediv_add_emod (v + maxv k) (pow3 k)
  unfold shr narrow; omega

theorem dvd_sub_narrow (v : Int) (n : Nat) : pow3 n ∣ v - narrow v n :=
  ⟨shr v n, by have := shr_narrow v n; omega⟩

/-- A quotient and a canonical rest are unique. -/
theorem shr_unique {v q r : Int} {n : Nat} (h : v = pow3 n * q + r) (h1 : -maxv n ≤ r) (h2 : r ≤ maxv n) : shr v n = q ∧ narrow v n = r := by
  have ht := two_maxv n
  have hp := pow3_pos n
  have hq : shr v n = q := by
    unfold shr
    rw [h, show pow3 n * q + r + maxv n = (r + maxv n) + q * pow3 n by ring, Int.add_mul_ediv_right _ _ (ne_of_gt hp),
      Int.ediv_eq_zero_of_lt (by omega) (by omega)]
    simp
  refine ⟨hq, ?_⟩
  have := shr_narrow v n
  rw [hq] at this; omega

theorem narrow_of_canon {v : Int} {n : Nat} (h1 : -maxv n ≤ v) (h2 : v ≤ maxv n) : narrow v n = v :=
  (shr_unique (v := v) (q := 0) (r := v) (n := n) (by simp) h1 h2).2

theorem narrow_unique {v r : Int} {n : Nat} (h1 : -maxv n ≤ r) (h2 : r ≤ maxv n) (h : pow3 n ∣ v - r) : narrow v n = r := by
  obtain ⟨q, hq⟩ := h
  exact (shr_unique (v := v) (q := q) (r := r) (n := n) (by omega) h1 h2).2

@[simp] theorem shr_zero (v : Int) : shr v 0 = v := by
  have : maxv 0 = 0 := rfl
  simp [shr, this]

theorem maxv_add (j k : Nat) : maxv (j + k) = pow3 j * maxv k + maxv j := by
  have h1 := two_maxv (j + k)
  have h2 := two_maxv j
  have h3 := two_maxv k
  rw [pow3_add] at h1
  have : 2 * maxv (j + k) = 2 * (pow3 j * maxv k + maxv j) := by
    have : pow3 j * pow3 k = pow3 j * (2 * maxv k + 1) := by rw [h3]
    nlinarith
  omega

/-- Discards add up. -/
theorem shr_shr (v : Int) (j k : Nat) : shr (shr v j) k = shr v (j + k) := by
  have h1 := shr_narrow v j
  have h2 := shr_narrow (shr v j) k
  have hm := maxv_add j k
  have hp := pow3_pos j
  have a1 := narrow_le v j
  have a2 := le_narrow v j
  have b1 := narrow_le (shr v j) k
  have b2 := le_narrow (shr v j) k
  refine ((shr_unique (q := shr (shr v j) k) (r := pow3 j * narrow (shr v j) k + narrow v j) ?_ ?_ ?_).1).symm
  · rw [pow3_add]
    have : pow3 j * shr v j = pow3 j * (pow3 k * shr (shr v j) k + narrow (shr v j) k) := by rw [h2]
    nlinarith
  · have : pow3 j * (-maxv k) ≤ pow3 j * narrow (shr v j) k := mul_le_mul_of_nonneg_left b2 hp.le
    nlinarith
  · have : pow3 j * narrow (shr v j) k ≤ pow3 j * maxv k := mul_le_mul_of_nonneg_left b1 hp.le
    nlinarith

/-- The trits of a value, one by one. -/
theorem trits_eq (n : Nat) : ∀ v : Int, trits n v = (List.range n).map (trit v) := by
  induction n with
  | zero => intro v; rfl
  | succ n ih =>
    intro v
    rw [trits, ih, List.range_succ_eq_map, List.map_cons, List.map_map]
    congr 1
    · simp [trit]
    · apply List.map_congr_left
      intro i _
      simp [trit, shr_shr, Nat.add_comm]

/-- The elements of a value, one by one. -/
theorem split_eq (w k : Nat) : ∀ v : Int, split w k v = (List.range k).map fun i => narrow (shr v (w * i)) w := by
  induction k with
  | zero => intro v; rfl
  | succ k ih =>
    intro v
    rw [split, ih, List.range_succ_eq_map, List.map_cons, List.map_map]
    congr 1
    · simp
    · apply List.map_congr_left
      intro i _
      simp [shr_shr, Nat.mul_add, Nat.add_comm]

theorem maxv_one : maxv 1 = 1 := rfl

/-- A trit is -1, 0 or +1. -/
theorem trit_cases (v : Int) (i : Nat) : trit v i = -1 ∨ trit v i = 0 ∨ trit v i = 1 := by
  have h1 := narrow_le (shr v i) 1
  have h2 := le_narrow (shr v i) 1
  rw [maxv_one] at h1 h2
  show (narrow (shr v i) 1 : Int) = -1 ∨ (narrow (shr v i) 1 : Int) = 0 ∨ (narrow (shr v i) 1 : Int) = 1
  omega

/-- The value of the lowest n trits is the narrowed value. -/
theorem ofTrits_trits (n : Nat) : ∀ v : Int, ofTrits (trits n v) = narrow v n := by
  induction n with
  | zero => intro v; simp [trits, ofTrits, narrow, pow3, maxv]
  | succ n ih =>
    intro v
    rw [trits, ofTrits, ih]
    have h1 := shr_narrow v 1
    have h2 := shr_narrow (shr v 1) n
    have b1 := narrow_le (shr v 1) n
    have b2 := le_narrow (shr v 1) n
    have c1 := narrow_le v 1
    have c2 := le_narrow v 1
    have hm := maxv_add 1 n
    have hp : pow3 1 = 3 := rfl
    rw [maxv_one, hp] at hm
    rw [maxv_one] at c1 c2
    rw [hp] at h1
    rw [Nat.add_comm 1 n] at hm
    refine ((shr_unique (q := shr (shr v 1) n) (r := narrow v 1 + 3 * narrow (shr v 1) n) ?_ (by omega) (by omega)).2).symm
    rw [pow3_succ]
    nlinarith

/-- A list of trits is read back from its value. -/
theorem trit_ofTrits : ∀ (l : List Trit) (i : Nat), (∀ t ∈ l, t = -1 ∨ t = 0 ∨ t = 1) → trit (ofTrits l) i = l.getD i 0
  | [], i, _ => by
    have : shr 0 i = 0 := (shr_unique (v := 0) (q := 0) (r := 0) (n := i) (by simp) (by have := maxv_nonneg i; omega) (maxv_nonneg i)).1
    simp [ofTrits, trit, this, narrow, maxv_one]; rfl
  | t :: ts, i, h => by
    have ht : (t : Int) = -1 ∨ (t : Int) = 0 ∨ (t : Int) = 1 := h t (by simp)
    have hlo : -(1 : Int) ≤ t := by rcases ht with h | h | h <;> rw [h] <;> norm_num
    have hhi : (t : Int) ≤ 1 := by rcases ht with h | h | h <;> rw [h] <;> norm_num
    have hsh : shr (ofTrits (t :: ts)) 1 = ofTrits ts ∧ narrow (ofTrits (t :: ts)) 1 = t := by
      refine shr_unique ?_ ?_ ?_
      · rw [ofTrits]; show t + 3 * ofTrits ts = 3 * ofTrits ts + t; ring
      · rw [maxv_one]; exact hlo
      · rw [maxv_one]; exact hhi
    cases i with
    | zero => simp [trit, hsh.2]
    | succ i =>
      have := trit_ofTrits ts i (fun x hx => h x (by simp [hx]))
      rw [List.getD_cons_succ, ← this]
      unfold trit
      rw [Nat.add_comm, ← shr_shr, hsh.1]

/-- The double's words. -/
theorem double_low_high {v : Int} (h1 : -maxv 54 ≤ v) (h2 : v ≤ maxv 54) : double (lowWord v) (highWord v) = v := by
  have a := shr_narrow v 27
  have b := shr_narrow (shr v 27) 27
  have hs : shr v 54 = 0 := (shr_unique (v := v) (q := 0) (r := v) (n := 54) (by simp) h1 h2).1
  rw [shr_shr] at b
  simp only [Nat.reduceAdd, hs, mul_zero, zero_add] at b
  show narrow v 27 + pow3 27 * narrow (shr v 27) 27 = v
  rw [b]; linarith

end Sys2Proof.Tern
end

