-- ==== Sys2Proof/Laws/Encoding.lean ====
section
/-! SUPPORT. Laws/Encoding.lean: fields packed into a word are read back, as long as each fits (R6, R98, R104). -/

namespace Sys2Proof

open Tern

/-- Every field fits its width. -/
def Fitting (l : List (Nat × Int)) : Prop := ∀ p ∈ l, -maxv p.1 ≤ p.2 ∧ p.2 ≤ maxv p.1

/-- Unpacking what was packed. -/
theorem unpack_pack : ∀ (l : List (Nat × Int)), Fitting l → unpack (l.map fun p => p.1) (pack l) = l.map fun p => p.2
  | [], _ => rfl
  | (w, v) :: r, h => by
    have h0 := h (w, v) (by simp)
    have hu := shr_unique (v := v + pow3 w * pack r) (q := pack r) (r := v) (n := w) (by ring) h0.1 h0.2
    simp only [List.map_cons, pack, unpack, hu.1, hu.2]
    rw [unpack_pack r fun p hp => h p (by simp [hp])]

/-- The fields of a full word, lowest first, each with its width (R98). -/
def Raw.fields (r : Raw) : List (Nat × Int) :=
  [(16, r.imm), (6, r.mods), (4, r.ci), (1, r.ck), (4, r.bi), (1, r.bk), (4, r.ai), (1, r.ak),
    (4, r.di), (1, r.mode), (2, r.sense), (2, r.pred), (6, r.op), (2, r.form)]

/-- A full word's fields are read back. -/
theorem readRaw_writeRaw (r : Raw) (h : Fitting r.fields) : readRaw (writeRaw r) = r := by
  have e : unpack [16, 6, 4, 1, 4, 1, 4, 1, 4, 1, 2, 2, 6, 2] (writeRaw r) =
      [r.imm, r.mods, r.ci, r.ck, r.bi, r.bk, r.ai, r.ak, r.di, r.mode, r.sense, r.pred, r.op, r.form] := unpack_pack r.fields h
  unfold readRaw
  rw [e]

/-- The fields of a half (R104). -/
def RawHalf.fields (r : RawHalf) : List (Nat × Int) :=
  [(6, r.imm), (3, r.mods), (4, r.si), (1, r.sk), (4, r.di), (1, r.mode), (2, r.pred), (5, r.op)]

/-- A half's fields are read back. -/
theorem readHalf_writeHalf (r : RawHalf) (h : Fitting r.fields) : readHalf (writeHalf r) = r := by
  have e : unpack [6, 3, 4, 1, 4, 1, 2, 5] (writeHalf r) = [r.imm, r.mods, r.si, r.sk, r.di, r.mode, r.pred, r.op] := unpack_pack r.fields h
  unfold readHalf
  rw [e]

end Sys2Proof
end

