-- ==== Sys2Proof/Laws/Memory.lean ====
section
/-! SUPPORT. Laws/Memory.lean: every memory operation keeps the canonical form, reset's memory has it, and a read after a write. -/

namespace Sys2Proof.Machine

open Sys2Proof Tern

/-! ### The canonical form -/

theorem Memory.wf_iff (m : Memory) : m.wf = true ↔ swf m.data = true ∧ swf m.tags = true ∧ hostWf m.host = true := by
  simp [Memory.wf, and_assoc]

theorem reset_mem_wf : State.reset.mem.wf = true := by decide

theorem swf_append {a b : Store} (ha : swf a = true) (hb : swf b = true) (h : ∀ p ∈ a, ∀ q ∈ b, p.1 < q.1) : swf (a ++ b) = true := by
  induction a with
  | nil => exact hb
  | cons p r ih =>
    refine swf_of (swf_ne ha) ?_ (ih (swf_tail ha) fun q hq => h q (by simp [hq]))
    intro q hq
    rcases List.mem_append.1 hq with hq | hq
    · exact swf_lt ha q hq
    · exact h p (by simp) q hq

theorem swf_shift {m : Store} (f : Nat → Nat) (hf : ∀ p ∈ m, ∀ q ∈ m, p.1 < q.1 → f p.1 < f q.1) (h : swf m = true) :
    swf (m.map fun p => (f p.1, p.2)) = true := by
  induction m with
  | nil => rfl
  | cons p r ih =>
    refine swf_of (swf_ne h) ?_ (ih (fun a ha b hb => hf a (by simp [ha]) b (by simp [hb])) (swf_tail h))
    intro q hq
    obtain ⟨x, hx, rfl⟩ := List.mem_map.1 hq
    exact hf p (by simp) x (by simp [hx]) (swf_lt h x hx)

theorem swf_snorm (n : Nat) (d : Store) : swf (snorm n d) = true := by
  unfold snorm
  split
  · assumption
  · exact swf_ssets _ _ rfl

theorem swf_sblit {m d : Store} (k n : Nat) (hm : swf m = true) (hd : swf d = true) : swf (sblit m k n d) = true := by
  unfold sblit
  refine swf_append (swf_append (swf_filter _ hm) (swf_shift (· + k) (by intros; omega) (swf_filter _ hd)) ?_) (swf_filter _ hm) ?_
  · intro p hp q hq
    obtain ⟨x, -, rfl⟩ := List.mem_map.1 hq
    have := (List.mem_filter.1 hp).2
    simp at this ⊢; omega
  · intro p hp q hq
    have hq := (List.mem_filter.1 hq).2
    simp at hq
    rcases List.mem_append.1 hp with hp | hp
    · have := (List.mem_filter.1 hp).2
      simp at this; omega
    · obtain ⟨x, hx, rfl⟩ := List.mem_map.1 hp
      have := (List.mem_filter.1 hx).2
      simp at this ⊢; omega

theorem Memory.wf_write {m : Memory} (h : m.wf = true) (p a : Int) (n : Nat) (v : Int) : (m.write p a n v).wf = true := by
  rw [Memory.wf_iff] at *; exact ⟨swf_ssets _ _ h.1, h.2⟩
theorem Memory.wf_setLine {m : Memory} (h : m.wf = true) (p l : Int) (d : Store) : (m.setLine p l d).wf = true := by
  rw [Memory.wf_iff] at *; exact ⟨swf_sblit _ _ h.1 (swf_snorm _ _), h.2⟩
theorem Memory.wf_setTag {m : Memory} (h : m.wf = true) (p l : Int) (t : Tag) : (m.setTag p l t).wf = true := by
  rw [Memory.wf_iff] at *; exact ⟨h.1, swf_sset h.2.1 _ _, h.2.2⟩
theorem hostWf_write : ∀ (bs : List Nat) {h : List Host.Cell} (a : Nat), hostWf h = true → hostWf (hostWrite h a bs) = true
  | [], _, _, h => h
  | b :: r, _, a, h => hostWf_write r (a + 1) (hostWf_set h a b)
theorem Memory.wf_hostWriteTryte {m : Memory} (h : m.wf = true) (view base off v : Int) : (hostWriteTryte m view base off v).wf = true := by
  have hk : ∀ (x : List Host.Cell), hostWf x = true → ({ m with host := x } : Memory).wf = true := fun x hx => by
    rw [Memory.wf_iff] at *; exact ⟨h.1, h.2.1, hx⟩
  have hh := ((Memory.wf_iff m).1 h).2.2
  unfold hostWriteTryte
  split
  · exact hk _ (hostWf_write _ _ hh)
  · exact hk _ (hostWf_set hh _ _)
theorem wf_foldl {α : Type} (f : Memory → α → Memory) (hf : ∀ m a, m.wf = true → (f m a).wf = true) (l : List α) {m : Memory} (h : m.wf = true) :
    (l.foldl f m).wf = true := by
  induction l generalizing m with
  | nil => exact h
  | cons a l ih => exact ih (hf m a h)
theorem Memory.wf_writeLoc {m : Memory} (h : m.wf = true) (l : Loc) (n : Nat) (v : Int) : (m.writeLoc l n v).wf = true := by
  cases l with
  | dom p a => exact Memory.wf_write h p a n v
  | host w b o =>
    unfold Memory.writeLoc
    exact wf_foldl _ (fun m (i : Nat) h => Memory.wf_hostWriteTryte h w b (o + i) ((split 9 n v).getD i 0)) _ h
theorem wf_writePieces : ∀ (ps : List (Loc × Nat)) {m : Memory} (v : Int), m.wf = true → (writePieces m ps v).wf = true
  | [], _, _, h => h
  | (l, n) :: r, _, v, h => wf_writePieces r _ (by split; exact h; exact Memory.wf_writeLoc h l n _)
theorem wf_materialise {m : Memory} (h : m.wf = true) (p l : Int) : (materialise m p l).wf = true := by
  unfold materialise
  dsimp only
  split
  · exact Memory.wf_setTag (Memory.wf_setLine h _ _ _) _ _ _
  · split
    · split
      · exact h
      · exact wf_foldl _ (fun m c h => Memory.wf_setTag (Memory.wf_setLine h _ _ _) _ _ _) _ h
    · exact h
theorem wf_putImage {m : Memory} (h : m.wf = true) (p l : Int) (img : List Nat) : (putImage m p l img).wf = true :=
  Memory.wf_setTag (Memory.wf_setLine h _ _ _) _ _ _
theorem Memory.wf_clearPkg {m : Memory} (h : m.wf = true) (p : Int) : (m.clearPkg p).wf = true := by
  rw [Memory.wf_iff] at *; exact ⟨swf_filter _ h.1, swf_filter _ h.2.1, h.2.2⟩

theorem swf_renumber {m : Store} (a b : Int) (h : swf m = true) : swf (Store.renumber m a b) = true := by
  unfold Store.renumber
  have hr : swf (m.filter fun p => !ofPkg a p.1 && !ofPkg b p.1) = true := swf_filter _ h
  have hm : swf ((m.filter fun p => ofPkg a p.1).map fun p => (p.1 - memKey a 0 + memKey b 0, p.2)) = true := by
    refine swf_shift (fun k => k - memKey a 0 + memKey b 0) ?_ (swf_filter _ h)
    intro p hp q hq hlt
    have h1 := (List.mem_filter.1 hp).2
    have h2 := (List.mem_filter.1 hq).2
    simp only [ofPkg, decide_eq_true_eq] at h1 h2
    omega
  refine swf_append (swf_append (swf_filter _ hr) hm ?_) (swf_filter _ hr) ?_
  · intro p hp q hq
    obtain ⟨x, -, rfl⟩ := List.mem_map.1 hq
    have := (List.mem_filter.1 hp).2
    simp at this ⊢; omega
  · intro p hp q hq
    have h1 := (List.mem_filter.1 hq).2
    have h2 := (List.mem_filter.1 (List.mem_filter.1 hq).1).2
    simp [ofPkg] at h1 h2
    rcases List.mem_append.1 hp with hp | hp
    · have := (List.mem_filter.1 hp).2
      simp at this; omega
    · obtain ⟨x, hx, rfl⟩ := List.mem_map.1 hp
      have h3 := (List.mem_filter.1 hx).2
      simp [ofPkg] at h3
      simp; omega

theorem Memory.wf_renumber {m : Memory} (h : m.wf = true) (a b : Int) : (m.renumber a b).wf = true := by
  unfold Memory.renumber
  split
  · exact h
  · rw [Memory.wf_iff] at *; exact ⟨swf_renumber a b h.1, swf_renumber a b h.2.1, h.2.2⟩

/-! ### Reading after writing -/

/-- A read of one tryte after a write of one. -/
theorem Memory.read_write_one (m : Memory) (p a : Int) (v : Int) : (m.write p a 1 v).read p a 1 = narrow v 9 := by
  simp [Memory.read, Memory.write, sgets, split, ssets, join]

/-- A tag read after a tag write. -/
theorem Memory.tag_setTag (m : Memory) (p l : Int) (t : Tag) : (m.setTag p l t).tag p l = Tag.ofNum t.num := by
  simp [Memory.tag, Memory.setTag]
theorem Memory.tag_setTag_ne (m : Memory) (p l p' l' : Int) (t : Tag) (h : lineKey p l ≠ lineKey p' l') : (m.setTag p l t).tag p' l' = m.tag p' l' := by
  simp [Memory.tag, Memory.setTag, sget_sset_ne _ _ h]
/-- Data and tags stand apart. -/
@[simp] theorem Memory.tag_write (m : Memory) (p a : Int) (n : Nat) (v : Int) (q l : Int) : (m.write p a n v).tag q l = m.tag q l := rfl
@[simp] theorem Memory.tag_setLine (m : Memory) (p l : Int) (d : Store) (q k : Int) : (m.setLine p l d).tag q k = m.tag q k := rfl
@[simp] theorem Memory.read_setTag (m : Memory) (p l : Int) (t : Tag) (q a : Int) (n : Nat) : (m.setTag p l t).read q a n = m.read q a n := rfl
@[simp] theorem Memory.bad_write (m : Memory) (p a : Int) (n : Nat) (v : Int) (q l : Int) : (m.write p a n v).bad q l = m.bad q l := rfl
@[simp] theorem Memory.bad_setLine (m : Memory) (p l : Int) (d : Store) (q k : Int) : (m.setLine p l d).bad q k = m.bad q k := rfl
@[simp] theorem Memory.bad_setTag (m : Memory) (p l : Int) (t : Tag) (q k : Int) : (m.setTag p l t).bad q k = m.bad q k := rfl

/-- A line written leaves the bytes outside it. -/
theorem sget_sblit_ne (m d : Store) (k n j : Nat) (h : j < k ∨ k + n ≤ j) : sget (sblit m k n d) j = sget m j := by
  have hf : ∀ (q : Nat × Int → Bool) (m : Store), (∀ v, q (j, v) = true) → sget (m.filter q) j = sget m j := by
    intro q m hq
    induction m with
    | nil => rfl
    | cons p r ih =>
      obtain ⟨a, b⟩ := p
      by_cases ha : a = j
      · subst ha; rw [List.filter_cons_of_pos (hq b), sget_cons, sget_cons]; simp
      · by_cases e : q (a, b) = true
        · rw [List.filter_cons_of_pos e, sget_cons, sget_cons, ih]
        · rw [List.filter_cons_of_neg e, sget_cons, ih]; simp [ha]
  have happ : ∀ (a b : Store), (∀ p ∈ a, p.1 ≠ j) → sget (a ++ b) j = sget b j := by
    intro a b hn
    induction a with
    | nil => rfl
    | cons p r ih => obtain ⟨x, y⟩ := p; rw [List.cons_append, sget_cons, ih fun q hq => hn q (by simp [hq])]; simp [hn (x, y) (by simp)]
  have hr : ∀ (a b : Store), (∀ p ∈ b, p.1 ≠ j) → sget (a ++ b) j = sget a j := by
    intro a b hn
    induction a with
    | nil =>
      rw [List.nil_append, sget_nil]; unfold sget
      rw [List.find?_eq_none.2 (by intro p hp; simpa using hn p hp)]; rfl
    | cons p r ih => obtain ⟨x, y⟩ := p; rw [List.cons_append, sget_cons, sget_cons, ih]
  unfold sblit
  rcases h with h | h
  · rw [List.append_assoc, hr _ _ ?_, hf _ _ (by simpa using h)]
    intro p hp
    rcases List.mem_append.1 hp with hp | hp
    · obtain ⟨x, -, rfl⟩ := List.mem_map.1 hp; simp; omega
    · have := (List.mem_filter.1 hp).2; simp at this; omega
  · rw [happ _ _ ?_, hf _ _ (by simpa using h)]
    intro p hp
    rcases List.mem_append.1 hp with hp | hp
    · have := (List.mem_filter.1 hp).2; simp at this; omega
    · obtain ⟨x, hx, rfl⟩ := List.mem_map.1 hp
      have := (List.mem_filter.1 hx).2; simp at this ⊢; omega

end Sys2Proof.Machine
end

