-- ==== Sys2Proof/Laws/Keeps.lean ====
section
/-! SUPPORT. Laws/Keeps.lean: what the updates of memories and registers keep: the canonical form of every memory, and words in their range. -/

namespace Sys2Proof.Machine

open Sys2Proof Tern

/-! ### The memories -/

theorem swf_write {g : Gang} (h : swf g.scratch = true) (a : Int) (n : Nat) (v : Int) : swf (g.write a n v).scratch = true := swf_ssets _ _ h
theorem swf_setLine {g : Gang} (h : swf g.scratch = true) (line : Nat) (d : Store) (t : Tag) : swf (g.setLine line d t).scratch = true :=
  swf_sblit _ _ h (swf_snorm _ _)
theorem swf_landSector {g : Gang} (h : swf g.scratch = true) (line sector : Nat) (d : Store) : swf (g.landSector line sector d).scratch = true :=
  swf_sblit _ _ h (swf_snorm _ _)
@[simp] theorem Gang.setTag_scratch (g : Gang) (line : Nat) (t : Tag) : (g.setTag line t).scratch = g.scratch := rfl

theorem State.memoriesOk_iff (s : State) : s.memoriesOk = true ↔ s.mem.wf = true ∧ ∀ g ∈ s.gangs, swf g.scratch = true := by
  simp [State.memoriesOk]
theorem reset_memoriesOk : State.reset.memoriesOk = true := by decide
/-- An update of the domain's memory that keeps its form keeps every memory's. -/
theorem State.memoriesOk_modMem {s : State} {f : Memory → Memory} (hf : ∀ m, m.wf = true → (f m).wf = true) (h : s.memoriesOk = true) :
    (s.modMem f).memoriesOk = true := by
  rw [State.memoriesOk_iff] at *; exact ⟨hf _ h.1, h.2⟩

/-- Every element after a change of the first that meets a test. -/
theorem forall_modFirst {α : Type} (p : α → Bool) (f : α → α) (P : α → Prop) (hf : ∀ a, P a → P (f a)) :
    ∀ {l : List α}, (∀ a ∈ l, P a) → ∀ a ∈ modFirst p f l, P a
  | [], h, a, ha => h a ha
  | b :: r, h, a, ha => by
    unfold modFirst at ha
    split at ha
    · rcases List.mem_cons.1 ha with rfl | ha
      · exact hf b (h b (by simp))
      · exact h a (by simp [ha])
    · rcases List.mem_cons.1 ha with rfl | ha
      · exact h a (by simp)
      · exact forall_modFirst p f P hf (fun c hc => h c (by simp [hc])) a ha
/-- Every element after a change of each by its place. -/
theorem forall_modIdx {α : Type} (f : Nat → α → α) (P : α → Prop) (hf : ∀ i a, P a → P (f i a)) :
    ∀ (k : Nat) {l : List α}, (∀ a ∈ l, P a) → ∀ a ∈ modIdx f k l, P a
  | _, [], h, a, ha => h a ha
  | k, b :: r, h, a, ha => by
    unfold modIdx at ha
    rcases List.mem_cons.1 ha with rfl | ha
    · exact hf k b (h b (by simp))
    · exact forall_modIdx f P hf (k + 1) (fun c hc => h c (by simp [hc])) a ha

/-- An update of a gang that keeps its scratchpad's form keeps every memory's. -/
theorem State.memoriesOk_modGang {s : State} {f : Gang → Gang} (hf : ∀ g, swf g.scratch = true → swf (f g).scratch = true) (gid : Nat)
    (h : s.memoriesOk = true) : (s.modGang gid f).memoriesOk = true := by
  rw [State.memoriesOk_iff] at *; exact ⟨h.1, forall_modFirst _ f _ hf h.2⟩

/-! ### The registers -/

theorem inR_iff (v lo hi : Int) : inR v lo hi = true ↔ lo ≤ v ∧ v ≤ hi := by simp [inR]
/-- A word that is narrowed is in range. -/
theorem lowWord_range (v : Int) : -maxv 27 ≤ lowWord v ∧ lowWord v ≤ maxv 27 := ⟨le_narrow v 27, narrow_le v 27⟩

theorem wordsOk_iff (m : Store) : wordsOk m = true ↔ ∀ p ∈ m, -maxv 27 ≤ p.2 ∧ p.2 ≤ maxv 27 := by simp [wordsOk, inR_iff]
theorem wordsOk_filter {m : Store} (q : Nat × Int → Bool) (h : wordsOk m = true) : wordsOk (m.filter q) = true := by
  rw [wordsOk_iff] at *; exact fun p hp => h p (List.mem_filter.1 hp).1
theorem wordsOk_sset {m : Store} (h : wordsOk m = true) (k : Nat) {v : Int} (hv : -maxv 27 ≤ v ∧ v ≤ maxv 27) : wordsOk (sset m k v) = true := by
  rw [wordsOk_iff] at *
  intro p hp
  rcases mem_sins hp with rfl | hp
  · exact hv
  · exact h p (List.mem_filter.1 hp).1
theorem wordsOk_ssets : ∀ (vs : List Int) {m : Store} (k : Nat), wordsOk m = true → (∀ v ∈ vs, -maxv 27 ≤ v ∧ v ≤ maxv 27) → wordsOk (ssets m k vs) = true
  | [], _, _, h, _ => h
  | v :: vs, _, k, h, hv => wordsOk_ssets vs (k + 1) (wordsOk_sset h k (hv v (by simp))) fun x hx => hv x (by simp [hx])
/-- What is read of a store of words is a word. -/
theorem sget_range {m : Store} (h : wordsOk m = true) (k : Nat) : -maxv 27 ≤ sget m k ∧ sget m k ≤ maxv 27 := by
  rw [wordsOk_iff] at h
  have h0 : -maxv 27 ≤ 0 ∧ (0 : Int) ≤ maxv 27 := by decide
  induction m with
  | nil => exact h0
  | cons p r ih =>
    obtain ⟨a, b⟩ := p
    rw [sget_cons]
    split
    · exact h (a, b) (by simp)
    · exact ih fun q hq => h q (by simp [hq])

theorem Latch.ok_iff (y : Latch) : y.ok = true ↔ -maxv (if y.dbl then 54 else 27) ≤ y.val ∧ y.val ≤ maxv (if y.dbl then 54 else 27) := inR_iff _ _ _
theorem Latch.fit_ok (y : Latch) : y.fit.ok = true := (Latch.ok_iff _).2 ⟨le_narrow _ _, narrow_le _ _⟩

/-- A lane's latches are in range. -/
def Lane.latchesOk (x : Lane) : Bool := x.x1.ok && x.x2.ok && x.x3.ok
theorem Lane.latchesOk_iff (x : Lane) : x.latchesOk = true ↔ x.x1.ok = true ∧ x.x2.ok = true ∧ x.x3.ok = true := by
  simp [Lane.latchesOk, and_assoc]
theorem Lane.latch_ok {x : Lane} (h : x.latchesOk = true) (y : Latch) : (x.latch y).latchesOk = true := by
  rw [Lane.latchesOk_iff] at *; exact ⟨Latch.fit_ok y, h.1, h.2.1⟩
theorem Lane.lateLatch_ok {x : Lane} (h : x.latchesOk = true) (n : Nat) (y : Latch) : (x.lateLatch n y).latchesOk = true := by
  rw [Lane.latchesOk_iff] at h
  unfold Lane.lateLatch
  split
  · exact (Lane.latchesOk_iff _).2 ⟨Latch.fit_ok y, h.2⟩
  · split
    · exact (Lane.latchesOk_iff _).2 ⟨h.1, Latch.fit_ok y, h.2.2⟩
    · split
      · exact (Lane.latchesOk_iff _).2 ⟨h.1, h.2.1, Latch.fit_ok y⟩
      · exact (Lane.latchesOk_iff _).2 h

theorem Warp.regsOk_iff (w : Warp) : w.regsOk = true ↔ wordsOk w.v = true ∧ wordsOk w.g = true ∧ ∀ x ∈ w.lanes, x.latchesOk = true := by
  simp [Warp.regsOk, Lane.latchesOk, and_assoc]
/-- A change of lanes that keeps their latches in range. -/
theorem Warp.regsOk_lanes {w : Warp} (h : w.regsOk = true) (f : Nat → Lane → Lane) (hf : ∀ i x, x.latchesOk = true → (f i x).latchesOk = true) :
    (w.allLanes f).regsOk = true := by
  rw [Warp.regsOk_iff] at *; exact ⟨h.1, h.2.1, forall_modIdx f _ hf 0 h.2.2⟩
theorem Warp.regsOk_modLanes {w : Warp} (h : w.regsOk = true) (ls : List Nat) (f : Nat → Lane → Lane)
    (hf : ∀ i x, x.latchesOk = true → (f i x).latchesOk = true) : (w.modLanes ls f).regsOk = true :=
  Warp.regsOk_lanes h _ fun i x hx => by split; exact hf i x hx; exact hx
theorem Warp.regsOk_setV {w : Warp} (h : w.regsOk = true) (l n : Nat) (x : Int) : (w.setV l n x).regsOk = true := by
  rw [Warp.regsOk_iff] at *; exact ⟨wordsOk_sset h.1 _ (lowWord_range x), h.2⟩
theorem Warp.regsOk_setG {w : Warp} (h : w.regsOk = true) (n : Nat) (x : Int) : (w.setG n x).regsOk = true := by
  rw [Warp.regsOk_iff] at *; exact ⟨h.1, wordsOk_sset h.2.1 _ (lowWord_range x), h.2.2⟩
theorem Warp.regsOk_setDst {w : Warp} (h : w.regsOk = true) (l : Nat) (d : Dst) (dbl : Bool) (x : Int) : (w.setDst l d dbl x).regsOk = true := by
  unfold Warp.setDst
  split
  · exact h
  · split
    · exact Warp.regsOk_setV (Warp.regsOk_setV h _ _ _) _ _ _
    · exact Warp.regsOk_setV h _ _ _
  · split
    · exact Warp.regsOk_setG (Warp.regsOk_setG h _ _) _ _
    · exact Warp.regsOk_setG h _ _
/-- A word that retires leaves registers and latches in range. -/
theorem Warp.regsOk_retireWord {w : Warp} (h : w.regsOk = true) (i : Instr) (ls : List Nat) (lts : List (Nat → Latch)) (fl : List (Nat × Fl)) (adv keep : Bool) :
    (w.retireWord i ls lts fl adv keep).regsOk = true := by
  have hl : ∀ (lts : List (Nat → Latch)) (l : Nat) (x : Lane), x.latchesOk = true → (lts.foldl (fun x lt => x.latch (lt l)) x).latchesOk = true := by
    intro lts l
    induction lts with
    | nil => exact fun x hx => hx
    | cons a r ih => exact fun x hx => ih _ (Lane.latch_ok hx _)
  have h1 : ∀ b (x : Lane), x.latchesOk = true → (Lane.chainStep b x).latchesOk = true := fun b x hx => by unfold Lane.chainStep; split <;> exact hx
  have h2 : ∀ (x : Lane) (a b : Bool), x.latchesOk = true → ({ x with skip := a, tested := b } : Lane).latchesOk = true := fun _ _ _ hx => hx
  have hw : ((w.modLanes ls fun l x =>
      let x1 := Lane.chainStep (!i.latches.isEmpty) x
      let x2 := if x.latches i then lts.foldl (fun x lt => x.latch (lt l)) x1 else x1
      { (if i.chainEnds then x2.chainEnd else x2) with skip := keep && x.skip, tested := false }).raise fl).regsOk = true := by
    refine Warp.regsOk_lanes (Warp.regsOk_modLanes h ls _ fun l x hx => ?_) _ fun l x hx => by split <;> exact hx
    refine h2 _ _ _ ?_
    split
    · show Lane.latchesOk (Lane.chainEnd _) = true
      unfold Lane.chainEnd
      show Lane.latchesOk _ = true
      split
      · exact hl lts l _ (h1 _ x hx)
      · exact h1 _ x hx
    · split
      · exact hl lts l _ (h1 _ x hx)
      · exact h1 _ x hx
  have hadv : ∀ v : Warp, v.regsOk = true → (v.advance ls).regsOk = true := fun v hv => by
    unfold Warp.advance; split
    · exact hv
    · exact Warp.regsOk_modLanes hv _ _ fun _ _ hx => hx
  cases adv
  · exact hw
  · exact hadv _ hw

/-- A new warp's registers are in range, when its G registers are. -/
theorem newWarp_regsOk (wid : Nat) (gid : Option Nat) (ctx num : Nat) (place : Place) (cls level : Int) (allot : Nat) (entry : Int) {g : Store} (h : wordsOk g = true) :
    (newWarp wid gid ctx num place cls level allot entry g).regsOk = true := by
  rw [Warp.regsOk_iff]
  refine ⟨rfl, h, fun x hx => ?_⟩
  rw [List.eq_of_mem_replicate (show x ∈ List.replicate 27 (Lane.start entry) from hx)]
  have h0 : Latch.ok ⟨0, false⟩ = true := by decide
  exact (Lane.latchesOk_iff _).2 ⟨h0, h0, h0⟩
theorem launchRegs_ok (r : List Int) : wordsOk (launchRegs r) = true :=
  wordsOk_ssets _ _ rfl fun v hv => by
    obtain ⟨x, -, rfl⟩ := List.mem_map.1 hv
    exact lowWord_range x

theorem State.regsOk_iff (s : State) : s.regsOk = true ↔ ∀ w ∈ s.warps, w.regsOk = true := by simp [State.regsOk]
theorem reset_regsOk : State.reset.regsOk = true := by decide
/-- An update of a warp that keeps its registers in range keeps every warp's. -/
theorem State.regsOk_modWarp {s : State} {f : Warp → Warp} (hf : ∀ w, w.regsOk = true → (f w).regsOk = true) (wid : Nat) (h : s.regsOk = true) :
    (s.modWarp wid f).regsOk = true := by
  rw [State.regsOk_iff] at *; exact forall_modFirst _ f _ hf h

end Sys2Proof.Machine
end

