-- ==== Sys2Proof/Laws/PerInstr.lean ====
section
/-! SUPPORT. Laws/PerInstr.lean: of every instruction with an encoding, the word's head fields are those of its form, guard and sense,
and its opcode is one of the map's (R98, R99, R111). An event has no encoding. -/

namespace Sys2Proof.Laws.Heads

open Sys2Proof

/-- The head fields of a word: form, predicate, sense set, and an opcode of the map. -/
def HeadIs (h : Hd) (r : Raw) : Prop :=
  r.form = formVal h.form ∧ r.pred = prIdx h.pred ∧ r.sense = senseVal h.sense ∧ ∃ o : Opc, r.op = o.value

@[simp] theorem headIs_rHd (h : Hd) (o : Opc) : HeadIs h (rHd h o) := ⟨rfl, rfl, rfl, o, rfl⟩
@[simp] theorem headIs_setD (h : Hd) (r : Raw) (d : Dst) : HeadIs h (r.setD d) ↔ HeadIs h r := Iff.rfl
@[simp] theorem headIs_setGD (h : Hd) (r : Raw) (n : Nat) : HeadIs h (r.setGD n) ↔ HeadIs h r := Iff.rfl
@[simp] theorem headIs_setPD (h : Hd) (r : Raw) (n : Nat) : HeadIs h (r.setPD n) ↔ HeadIs h r := Iff.rfl
@[simp] theorem headIs_setA (h : Hd) (r : Raw) (s : Src) : HeadIs h (r.setA s) ↔ HeadIs h r := Iff.rfl
@[simp] theorem headIs_setB (h : Hd) (r : Raw) (s : Src) : HeadIs h (r.setB s) ↔ HeadIs h r := Iff.rfl
@[simp] theorem headIs_setC (h : Hd) (r : Raw) (s : Src) : HeadIs h (r.setC s) ↔ HeadIs h r := Iff.rfl
@[simp] theorem headIs_setPA (h : Hd) (r : Raw) (s : PSrc) : HeadIs h (r.setPA s) ↔ HeadIs h r := Iff.rfl
@[simp] theorem headIs_setPB (h : Hd) (r : Raw) (s : PSrc) : HeadIs h (r.setPB s) ↔ HeadIs h r := Iff.rfl
@[simp] theorem headIs_setM (h : Hd) (r : Raw) (l : List (Nat × Int)) : HeadIs h (r.setM l) ↔ HeadIs h r := Iff.rfl
@[simp] theorem headIs_setI (h : Hd) (r : Raw) (i : Int) : HeadIs h (r.setI i) ↔ HeadIs h r := Iff.rfl
@[simp] theorem headIs_setMC (h : Hd) (r : Raw) (a b c d e : Int) : HeadIs h (r.setMC a b c d e) ↔ HeadIs h r := Iff.rfl
@[simp] theorem headIs_setMM (h : Hd) (r : Raw) (a b c d e : Int) : HeadIs h (r.setMM a b c d e) ↔ HeadIs h r := Iff.rfl
@[simp] theorem headIs_setTop (h : Hd) (r : Raw) (t : Int) : HeadIs h (r.setTop t) ↔ HeadIs h r := Iff.rfl
@[simp] theorem headIs_setAddr (h : Hd) (r : Raw) (a : Addr) : HeadIs h (r.setAddr a) ↔ HeadIs h r := Iff.rfl
@[simp] theorem headIs_setRc (h : Hd) (r : Raw) (n : Option Nat) : HeadIs h (r.setRc n) ↔ HeadIs h r := by cases n <;> exact Iff.rfl
@[simp] theorem headIs_setBI (h : Hd) (r : Raw) (s : SrcImm) : HeadIs h (r.setBI s) ↔ HeadIs h r := by cases s <;> exact Iff.rfl
@[simp] theorem headIs_setLong (h : Hd) (r : Raw) (v : Int) : HeadIs h (setLong r v) ↔ HeadIs h r := Iff.rfl
@[simp] theorem headIs_encTarget (h : Hd) (r : Raw) (t : Target) : HeadIs h (encTarget r t) ↔ HeadIs h r := by cases t <;> exact Iff.rfl
@[simp] theorem headIs_encHItem (h : Hd) (r : Raw) (t : HItem) : HeadIs h (encHItem r t) ↔ HeadIs h r := by cases t <;> exact Iff.rfl
@[simp] theorem headIs_encI (h : Hd) (o : Opc) (ty : ITy) (a b c d : Int) (e : Dst) (f : Src) : HeadIs h (encI h o ty a b c d e f) :=
  ⟨rfl, rfl, rfl, o, rfl⟩
@[simp] theorem headIs_encF (h : Hd) (o : Opc) (ty : FTy) (a b c d : Int) (e : Dst) (f : Src) : HeadIs h (encF h o ty a b c d e f) :=
  ⟨rfl, rfl, rfl, o, rfl⟩
@[simp] theorem headIs_encVRed (o : Opc) (x : VRed) : HeadIs x.hd (encVRed o x) := ⟨rfl, rfl, rfl, o, rfl⟩
@[simp] theorem headIs_encNear (o : Opc) (x : Near) : HeadIs x.hd (encNear o x) := ⟨rfl, rfl, rfl, o, rfl⟩
@[simp] theorem headIs_encDbg (h : Hd) (o : Opc) (d b : Nat) : HeadIs h (encDbg h o d b) := ⟨rfl, rfl, rfl, o, rfl⟩
@[simp] theorem headIs_encBar (h : Hd) (v q n : Int) : HeadIs h (encBar h v q n) := ⟨rfl, rfl, rfl, .bar, rfl⟩
@[simp] theorem headIs_encSn (h : Hd) (v op k : Int) : HeadIs h (encSn h v op k) := ⟨rfl, rfl, rfl, .sn, rfl⟩
@[simp] theorem headIs_encTb (h : Hd) (v : Int) (a b : Nat) (e : Int) : HeadIs h (encTb h v a b e) := ⟨rfl, rfl, rfl, .tb, rfl⟩

/-- The word's head fields are those of the instruction. -/
def Statement (i : Instr) : Prop := ∀ r h, encRaw i = some r → i.hd? = some h → HeadIs h r

theorem of_eq {i : Instr} (r0 : Raw) (h0 : Hd) (e : encRaw i = some r0) (hh : i.hd? = some h0) (k : HeadIs h0 r0) : Statement i := by
  intro r h h1 h2
  rw [e] at h1; rw [hh] at h2
  cases h1; cases h2; exact k

theorem of_none {i : Instr} (e : encRaw i = none) : Statement i := by
  intro r h h1
  rw [e] at h1; cases h1

theorem abs (o : I1) : Statement (.abs o) := of_eq _ _ rfl rfl (by simp [encI1])
theorem add (o : I2) : Statement (.add o) := of_eq _ _ rfl rfl (by simp [encI2])
theorem sub (o : I2) : Statement (.sub o) := of_eq _ _ rfl rfl (by simp [encI2])
theorem neg (o : I1) : Statement (.neg o) := of_eq _ _ rfl rfl (by simp [encI1])
theorem mul (o : I2) : Statement (.mul o) := of_eq _ _ rfl rfl (by simp [encI2])
theorem mulh (o : I2) : Statement (.mulh o) := of_eq _ _ rfl rfl (by simp [encI2])
theorem mad (o : I3) : Statement (.mad o) := of_eq _ _ rfl rfl (by simp [encI3])
theorem div (o : I2) : Statement (.div o) := of_eq _ _ rfl rfl (by simp [encI2])
theorem divz (o : I2) : Statement (.divz o) := of_eq _ _ rfl rfl (by simp [encI2])
theorem mod (o : I2) : Statement (.mod o) := of_eq _ _ rfl rfl (by simp [encI2])
theorem min (o : I2) : Statement (.min o) := of_eq _ _ rfl rfl (by simp [encI2])
theorem max (o : I2) : Statement (.max o) := of_eq _ _ rfl rfl (by simp [encI2])
theorem sgn (o : I1) : Statement (.sgn o) := of_eq _ _ rfl rfl (by simp [encI1])
theorem tsh (o : I2) : Statement (.tsh o) := of_eq _ _ rfl rfl (by simp [encI2])
theorem trot (o : I2) : Statement (.trot o) := of_eq _ _ rfl rfl (by simp [encI2])
theorem tlz (o : I1) : Statement (.tlz o) := of_eq _ _ rfl rfl (by simp [encI1])
theorem tcnt (o : ICnt) : Statement (.tcnt o) := of_eq _ _ rfl rfl (by simp)
theorem tmap (o : ITab1) : Statement (.tmap o) := of_eq _ _ rfl rfl (by simp)
theorem tbin (o : ITab2) : Statement (.tbin o) := of_eq _ _ rfl rfl (by simp)
theorem tsel (o : I3) : Statement (.tsel o) := of_eq _ _ rfl rfl (by simp [encI3])
theorem fadd (o : F2) : Statement (.fadd o) := of_eq _ _ rfl rfl (by simp [encF2])
theorem fsub (o : F2) : Statement (.fsub o) := of_eq _ _ rfl rfl (by simp [encF2])
theorem fmul (o : F2) : Statement (.fmul o) := of_eq _ _ rfl rfl (by simp [encF2])
theorem fma (o : F3) : Statement (.fma o) := of_eq _ _ rfl rfl (by simp)
theorem fmin (o : F2) : Statement (.fmin o) := of_eq _ _ rfl rfl (by simp [encF2])
theorem fmax (o : F2) : Statement (.fmax o) := of_eq _ _ rfl rfl (by simp [encF2])
theorem fneg (o : F1) : Statement (.fneg o) := of_eq _ _ rfl rfl (by simp [encF1])
theorem fabs (o : F1) : Statement (.fabs o) := of_eq _ _ rfl rfl (by simp [encF1])
theorem fdiv (o : F2) : Statement (.fdiv o) := of_eq _ _ rfl rfl (by simp [encF2])
theorem fsqrt (o : F1) : Statement (.fsqrt o) := of_eq _ _ rfl rfl (by simp [encF1])
theorem frcp (o : F1) : Statement (.frcp o) := of_eq _ _ rfl rfl (by simp [encF1])
theorem frsq (o : F1) : Statement (.frsq o) := of_eq _ _ rfl rfl (by simp [encF1])
theorem fexp (o : F1) : Statement (.fexp o) := of_eq _ _ rfl rfl (by simp [encF1])
theorem flog (o : F1) : Statement (.flog o) := of_eq _ _ rfl rfl (by simp [encF1])
theorem fexp3 (o : F1) : Statement (.fexp3 o) := of_eq _ _ rfl rfl (by simp [encF1])
theorem flog3 (o : F1) : Statement (.flog3 o) := of_eq _ _ rfl rfl (by simp [encF1])
theorem ftanh (o : F1) : Statement (.ftanh o) := of_eq _ _ rfl rfl (by simp [encF1])
theorem fscl (o : FScl) : Statement (.fscl o) := of_eq _ _ rfl rfl (by simp)
theorem fcls (o : F1) : Statement (.fcls o) := of_eq _ _ rfl rfl (by simp [encF1])
theorem frnd (o : FRnd) : Statement (.frnd o) := of_eq _ _ rfl rfl (by simp)
theorem fcmp (o : FCmp) : Statement (.fcmp o) := of_eq _ _ rfl rfl (by simp)
theorem cmp (o : Cmp) : Statement (.cmp o) := of_eq _ _ rfl rfl (by simp)
theorem sel (o : Sel) : Statement (.sel o) := of_eq _ _ rfl rfl (by simp)
theorem pset (o : PSet) : Statement (.pset o) := of_eq _ _ rfl rfl (by simp)
theorem ptbl (o : PTbl) : Statement (.ptbl o) := of_eq _ _ rfl rfl (by simp)
theorem pany (o : PRed) : Statement (.pany o) := of_eq _ _ rfl rfl (by simp)
theorem pall (o : PRed) : Statement (.pall o) := of_eq _ _ rfl rfl (by simp)
theorem pcnt (o : PCnt) : Statement (.pcnt o) := of_eq _ _ rfl rfl (by simp)
theorem shfl (o : Shfl) : Statement (.shfl o) := of_eq _ _ rfl rfl (by simp)
theorem bcst (o : Bcst) : Statement (.bcst o) := of_eq _ _ rfl rfl (by simp)
theorem vred (o : VRed) : Statement (.vred o) := of_eq _ _ rfl rfl (by simp)
theorem vscan (o : VRed) : Statement (.vscan o) := of_eq _ _ rfl rfl (by simp)
theorem ld (o : LdA) : Statement (.ld o) := of_eq _ _ rfl rfl (by simp)
theorem st (o : StA) : Statement (.st o) := of_eq _ _ rfl rfl (by simp)
theorem ldg (o : LdgA) : Statement (.ldg o) := of_eq _ _ rfl rfl (by simp)
theorem stg (o : StgA) : Statement (.stg o) := of_eq _ _ rfl rfl (by simp)
theorem lds (o : LdsA) : Statement (.lds o) := of_eq _ _ rfl rfl (by simp)
theorem sts (o : StsA) : Statement (.sts o) := of_eq _ _ rfl rfl (by simp)
theorem atom (o : AtomA) : Statement (.atom o) := of_eq _ _ rfl rfl (by simp)
theorem red (o : RedA) : Statement (.red o) := by
  refine of_eq _ _ rfl rfl ?_
  split <;> simp
theorem ldmc (o : LdmcA) : Statement (.ldmc o) := of_eq _ _ rfl rfl (by simp)
theorem pref (o : PrefA) : Statement (.pref o) := of_eq _ _ rfl rfl (by simp)
theorem fence (o : FenceA) : Statement (.fence o) := of_eq _ _ rfl rfl (by simp)
theorem ldtag (o : LdtagA) : Statement (.ldtag o) := of_eq _ _ rfl rfl (by simp)
theorem sttag (o : SttagA) : Statement (.sttag o) := of_eq _ _ rfl rfl (by simp)
theorem cflush (o : FlushA) : Statement (.cflush o) := of_eq _ _ rfl rfl (by simp)
theorem cinv (o : FlushA) : Statement (.cinv o) := of_eq _ _ rfl rfl (by simp)
theorem icinv (o : Near) : Statement (.icinv o) := of_eq _ _ rfl rfl (by simp)
theorem isync (hd : Hd) : Statement (.isync hd) := of_eq _ _ rfl rfl (by simp)
theorem mov (o : MovA) : Statement (.mov o) := of_eq _ _ rfl rfl (by simp)
theorem movi (o : MoviA) : Statement (.movi o) := of_eq _ _ rfl rfl (by simp)
theorem movh (o : MoviA) : Statement (.movh o) := of_eq _ _ rfl rfl (by simp)
theorem movg (o : MovgA) : Statement (.movg o) := of_eq _ _ rfl rfl (by simp)
theorem movs (o : MovsA) : Statement (.movs o) := by
  refine of_eq _ _ rfl rfl ?_
  split <;> simp
theorem movc (o : MovcA) : Statement (.movc o) := of_eq _ _ rfl rfl (by simp)
theorem cvt (o : CvtA) : Statement (.cvt o) := of_eq _ _ rfl rfl (by simp)
theorem bcvt (o : BcvtA) : Statement (.bcvt o) := of_eq _ _ rfl rfl (by simp)
theorem pack (o : PackA) : Statement (.pack o) := of_eq _ _ rfl rfl (by simp)
theorem unpack (o : PackA) : Statement (.unpack o) := of_eq _ _ rfl rfl (by simp)
theorem bra (o : BraA) : Statement (.bra o) := of_eq _ _ rfl rfl (by simp)
theorem jmpi (o : JmpA) : Statement (.jmpi o) := of_eq _ _ rfl rfl (by simp)
theorem call (o : BraA) : Statement (.call o) := of_eq _ _ rfl rfl (by simp)
theorem calli (o : JmpA) : Statement (.calli o) := of_eq _ _ rfl rfl (by simp)
theorem ret (hd : Hd) : Statement (.ret hd) := of_eq _ _ rfl rfl (by simp)
theorem yld (hd : Hd) : Statement (.yld hd) := of_eq _ _ rfl rfl (by simp)
theorem waitj (o : WaitjA) : Statement (.waitj o) := of_eq _ _ rfl rfl (by simp)
theorem exit (hd : Hd) : Statement (.exit hd) := of_eq _ _ rfl rfl (by simp)
theorem nop (hd : Hd) : Statement (.nop hd) := of_eq _ _ rfl rfl (by simp)
theorem barA (o : BarA) : Statement (.barA o) := of_eq _ _ rfl rfl (by simp)
theorem barS (o : BarA) : Statement (.barS o) := of_eq _ _ rfl rfl (by simp)
theorem barD (o : BarA) : Statement (.barD o) := of_eq _ _ rfl rfl (by simp)
theorem barW (o : BarWA) : Statement (.barW o) := of_eq _ _ rfl rfl (by simp)
theorem sna (o : SnA) : Statement (.sna o) := of_eq _ _ rfl rfl (by simp)
theorem snd (o : SnA) : Statement (.snd o) := of_eq _ _ rfl rfl (by simp)
theorem snr (o : SnrA) : Statement (.snr o) := of_eq _ _ rfl rfl (by simp)
theorem snb (o : SnbA) : Statement (.snb o) := of_eq _ _ rfl rfl (by simp)
theorem snw (o : SnGetA) : Statement (.snw o) := of_eq _ _ rfl rfl (by simp)
theorem snp (o : SnGetA) : Statement (.snp o) := of_eq _ _ rfl rfl (by simp)
theorem tbinit (o : TbA) : Statement (.tbinit o) := of_eq _ _ rfl rfl (by simp)
theorem tbarr (o : TbA) : Statement (.tbarr o) := of_eq _ _ rfl rfl (by simp)
theorem tbexp (o : TbA) : Statement (.tbexp o) := of_eq _ _ rfl rfl (by simp)
theorem tbwait (o : TbA) : Statement (.tbwait o) := of_eq _ _ rfl rfl (by simp)
theorem tbtest (o : TbtestA) : Statement (.tbtest o) := of_eq _ _ rfl rfl (by simp)
theorem sleept (o : SleepA) : Statement (.sleept o) := of_eq _ _ rfl rfl (by simp)
theorem touch (o : Near) : Statement (.touch o) := of_eq _ _ rfl rfl (by simp)
theorem win (o : WinA) : Statement (.win o) := of_eq _ _ rfl rfl (by simp)
theorem winrel (o : WinrelA) : Statement (.winrel o) := of_eq _ _ rfl rfl (by simp)
theorem task (o : TaskA) : Statement (.task o) := of_eq _ _ rfl rfl (by simp)
theorem tqry (o : TqryA) : Statement (.tqry o) := of_eq _ _ rfl rfl (by simp)
theorem send (o : SendA) : Statement (.send o) := of_eq _ _ rfl rfl (by simp)
theorem recv (o : RecvA) : Statement (.recv o) := of_eq _ _ rfl rfl (by simp)
theorem xfst (o : XfstA) : Statement (.xfst o) := of_eq _ _ rfl rfl (by simp)
theorem xtab (o : XtabA) : Statement (.xtab o) := of_eq _ _ rfl rfl (by simp)
theorem lnch (o : LnchA) : Statement (.lnch o) := of_eq _ _ rfl rfl (by simp)
theorem role (o : RoleA) : Statement (.role o) := of_eq _ _ rfl rfl (by simp)
theorem preh (o : PrehA) : Statement (.preh o) := of_eq _ _ rfl rfl (by simp)
theorem trap (o : ImmA) : Statement (.trap o) := of_eq _ _ rfl rfl (by simp)
theorem rft (hd : Hd) : Statement (.rft hd) := of_eq _ _ rfl rfl (by simp)
theorem brk (o : ImmA) : Statement (.brk o) := of_eq _ _ rfl rfl (by simp)
theorem wset (o : WsetA) : Statement (.wset o) := of_eq _ _ rfl rfl (by simp)
theorem wclr (o : WUnitA) : Statement (.wclr o) := of_eq _ _ rfl rfl (by simp)
theorem wrd (o : WUnitA) : Statement (.wrd o) := of_eq _ _ rfl rfl (by simp)
theorem hlst (o : DbgA) : Statement (.hlst o) := of_eq _ _ rfl rfl (by simp)
theorem hrdv (o : HrdvA) : Statement (.hrdv o) := of_eq _ _ rfl rfl (by simp)
theorem hwrv (o : HwrvA) : Statement (.hwrv o) := of_eq _ _ rfl rfl (by simp)
theorem hrdp (o : HrdpA) : Statement (.hrdp o) := of_eq _ _ rfl rfl (by simp)
theorem hwrp (o : HwrpA) : Statement (.hwrp o) := of_eq _ _ rfl rfl (by simp)
theorem hstep (o : DbgA) : Statement (.hstep o) := of_eq _ _ rfl rfl (by simp)
theorem hres (o : HresA) : Statement (.hres o) := of_eq _ _ rfl rfl (by simp)
theorem pairedWord (a : Half) (b : Half) : Statement (.pairedWord a b) := of_none rfl
theorem namedBarrierRelease (gid : Nat) (i : Nat) : Statement (.namedBarrierRelease gid i) := of_none rfl
theorem barcDetection (gid : Nat) : Statement (.barcDetection gid) := of_none rfl
theorem escapementRelease (ch : Nat) : Statement (.escapementRelease ch) := of_none rfl
theorem yieldRelease (wid : Nat) : Statement (.yieldRelease wid) := of_none rfl
theorem waitjBoundExpiry (wid : Nat) : Statement (.waitjBoundExpiry wid) := of_none rfl
theorem sleepWake (wid : Nat) : Statement (.sleepWake wid) := of_none rfl
theorem promiseReissue (wid : Nat) : Statement (.promiseReissue wid) := of_none rfl
theorem sectorLanding (req : Nat) : Statement (.sectorLanding req) := of_none rfl
theorem windowRecall (req : Nat) : Statement (.windowRecall req) := of_none rfl
theorem ownershipRequest (req : Nat) : Statement (.ownershipRequest req) := of_none rfl
theorem sliceRequest (req : Nat) : Statement (.sliceRequest req) := of_none rfl
theorem sliceMissData (req : Nat) : Statement (.sliceMissData req) := of_none rfl
theorem homeStore (req : Nat) : Statement (.homeStore req) := of_none rfl
theorem homeAtomic (req : Nat) : Statement (.homeAtomic req) := of_none rfl
theorem loadReply (op : Nat) : Statement (.loadReply op) := of_none rfl
theorem writeBack (req : Nat) : Statement (.writeBack req) := of_none rfl
theorem redContribution (req : Nat) : Statement (.redContribution req) := of_none rfl
theorem redDetContribution (req : Nat) : Statement (.redDetContribution req) := of_none rfl
theorem multicastRequest (req : Nat) : Statement (.multicastRequest req) := of_none rfl
theorem multicastInject (entry : Nat) : Statement (.multicastInject entry) := of_none rfl
theorem multicastDelivery (req : Nat) : Statement (.multicastDelivery req) := of_none rfl
theorem streamSectorReceipt (req : Nat) : Statement (.streamSectorReceipt req) := of_none rfl
theorem recvBind (wid : Nat) : Statement (.recvBind wid) := of_none rfl
theorem scFrontierReport : Statement (.scFrontierReport) := of_none rfl
theorem frontierRelease : Statement (.frontierRelease) := of_none rfl
theorem translationWalk (core : Nat) (ctx : Nat) (page : Int) : Statement (.translationWalk core ctx page) := of_none rfl
theorem instructionFetch (wid : Nat) : Statement (.instructionFetch wid) := of_none rfl
theorem pageRequestResponse (i : Nat) (success : Bool) : Statement (.pageRequestResponse i success) := of_none rfl
theorem wloadTask (gid : Nat) (ticket : Nat) : Statement (.wloadTask gid ticket) := of_none rfl
theorem mmTask (gid : Nat) (ticket : Nat) : Statement (.mmTask gid ticket) := of_none rfl
theorem streamTask (gid : Nat) (ticket : Nat) : Statement (.streamTask gid ticket) := of_none rfl
theorem epiTask (gid : Nat) (ticket : Nat) : Statement (.epiTask gid ticket) := of_none rfl
theorem taskEnd (gid : Nat) (ticket : Nat) : Statement (.taskEnd gid ticket) := of_none rfl
theorem taskfDelivery (wid : Nat) : Statement (.taskfDelivery wid) := of_none rfl
theorem transducerRequestStart (lane : Nat) : Statement (.transducerRequestStart lane) := of_none rfl
theorem transducerRequestEnd (lane : Nat) : Statement (.transducerRequestEnd lane) := of_none rfl
theorem tableLoadComplete (slot : Nat) : Statement (.tableLoadComplete slot) := of_none rfl
theorem roleGrant (wid : Nat) : Statement (.roleGrant wid) := of_none rfl
theorem warpRetire (wid : Nat) : Statement (.warpRetire wid) := of_none rfl
theorem gangEnd (gid : Nat) : Statement (.gangEnd gid) := of_none rfl
theorem launchEnd (lid : Nat) : Statement (.launchEnd lid) := of_none rfl
theorem gangPlacement (paddock : Nat) (where_ : Placing) : Statement (.gangPlacement paddock where_) := of_none rfl
theorem gangStart (gid : Nat) : Statement (.gangStart gid) := of_none rfl
theorem headGangStarvation (paddock : Nat) : Statement (.headGangStarvation paddock) := of_none rfl
theorem deadlineMiss (lid : Nat) : Statement (.deadlineMiss lid) := of_none rfl
theorem timeSliceEnd (paddock : Nat) : Statement (.timeSliceEnd paddock) := of_none rfl
theorem contextSwitchIn (paddock : Nat) : Statement (.contextSwitchIn paddock) := of_none rfl
theorem sequencerWake (ctx : Nat) : Statement (.sequencerWake ctx) := of_none rfl
theorem preemptionRequest (paddock : Nat) : Statement (.preemptionRequest paddock) := of_none rfl
theorem preemptionDeadline (wid : Nat) : Statement (.preemptionDeadline wid) := of_none rfl
theorem gangRestore (gid : Nat) (where_ : Placing) : Statement (.gangRestore gid where_) := of_none rfl
theorem watchTrapDelivery (wid : Nat) : Statement (.watchTrapDelivery wid) := of_none rfl
theorem launchHaltSignal (lid : Nat) : Statement (.launchHaltSignal lid) := of_none rfl
theorem hresLaunchSignal (lid : Nat) : Statement (.hresLaunchSignal lid) := of_none rfl
theorem permitAudit (bad : List LinkId) : Statement (.permitAudit bad) := of_none rfl
theorem linkError (link : LinkId) : Statement (.linkError link) := of_none rfl
theorem scratchpadBankFailure (core : Nat) (bank : Nat) : Statement (.scratchpadBankFailure core bank) := of_none rfl
theorem coreFence (core : Nat) : Statement (.coreFence core) := of_none rfl
theorem sliceFence (slice : Nat) (readable : List Nat) : Statement (.sliceFence slice readable) := of_none rfl
theorem pseudoChannelFence (slice : Nat) (pc : Nat) (lost : List Nat) : Statement (.pseudoChannelFence slice pc lost) := of_none rfl
theorem transducerLaneFence (lane : Nat) : Statement (.transducerLaneFence lane) := of_none rfl
theorem mDieFailure (die : Nat) : Statement (.mDieFailure die) := of_none rfl
theorem cDieFailure (die : Nat) : Statement (.cDieFailure die) := of_none rfl
theorem gtimeMismatch (core : Nat) : Statement (.gtimeMismatch core) := of_none rfl
theorem watchRecordError (core : Nat) (unit : Nat) : Statement (.watchRecordError core unit) := of_none rfl
theorem referenceClockFault : Statement (.referenceClockFault) := of_none rfl
theorem powerOnReset (images : List BootImage) : Statement (.powerOnReset images) := of_none rfl
theorem warmReset (images : List BootImage) (badLines : List Nat) : Statement (.warmReset images badLines) := of_none rfl
theorem powerGrant (duties : List Nat) : Statement (.powerGrant duties) := of_none rfl
theorem grantApply (die : Nat) : Statement (.grantApply die) := of_none rfl
theorem remoteRequestTimeout (req : Nat) : Statement (.remoteRequestTimeout req) := of_none rfl
theorem peerFailure (package : Int) : Statement (.peerFailure package) := of_none rfl
theorem translationInvalidation (half : Int) (first : Int) (count : Int) (desc : Int) : Statement (.translationInvalidation half first count desc) := of_none rfl
theorem pinRelease (ctx : Nat) (key : Int) : Statement (.pinRelease ctx key) := of_none rfl
theorem roundDiscard (ctx : Nat) (addr : Int) (tag : Int) : Statement (.roundDiscard ctx addr tag) := of_none rfl
theorem channelReset (paddock : Nat) (seq : Int) (name : Int) : Statement (.channelReset paddock seq name) := of_none rfl
theorem contextBind (paddock : Nat) (desc : Int) : Statement (.contextBind paddock desc) := of_none rfl
theorem paddockLimits (paddock : Nat) (min : Nat) (max : Nat) : Statement (.paddockLimits paddock min max) := of_none rfl
theorem contextUnbind (paddock : Nat) (desc : Int) : Statement (.contextUnbind paddock desc) := of_none rfl
theorem atsInvalidation (ctx : Nat) (half : Int) (first : Int) (count : Int) : Statement (.atsInvalidation ctx half first count) := of_none rfl
theorem setPackageNumber (n : Int) : Statement (.setPackageNumber n) := of_none rfl
theorem startSequencer0 (entry : Int) (desc : Int) : Statement (.startSequencer0 entry desc) := of_none rfl
theorem bindVf (vf : Int) (desc : Int) (base : Int) : Statement (.bindVf vf desc base) := of_none rfl
theorem releaseFrame (frame : Int) : Statement (.releaseFrame frame) := of_none rfl
theorem setPowerCeiling (watts : Int) : Statement (.setPowerCeiling watts) := of_none rfl
theorem attest (nonce : List Int) (addr : Int) : Statement (.attest nonce addr) := of_none rfl
theorem getMeasurements (nonce : List Int) : Statement (.getMeasurements nonce) := of_none rfl
theorem controlRegionWrite (line : CtlLine) (word : Nat) (value : Int) : Statement (.controlRegionWrite line word value) := of_none rfl
theorem hostFetchadd (fn : HostFn) (off : Nat) (x : Int) : Statement (.hostFetchadd fn off x) := of_none rfl
theorem hostSwap (fn : HostFn) (off : Nat) (x : Int) : Statement (.hostSwap fn off x) := of_none rfl
theorem hostCas (fn : HostFn) (off : Nat) (c : Int) (x : Int) : Statement (.hostCas fn off c x) := of_none rfl
theorem hostPackedRead (fn : HostFn) (off : Nat) (len : Nat) : Statement (.hostPackedRead fn off len) := of_none rfl
theorem hostPackedWrite (fn : HostFn) (off : Nat) (bytes : List (BitVec 8)) : Statement (.hostPackedWrite fn off bytes) := of_none rfl
theorem hostRawRead (fn : HostFn) (off : Nat) (len : Nat) : Statement (.hostRawRead fn off len) := of_none rfl
theorem hostRawWrite (fn : HostFn) (off : Nat) (bytes : List (BitVec 8)) : Statement (.hostRawWrite fn off bytes) := of_none rfl
theorem ptmExchange (anchor : Int) (hostTime : Int) (rate : Int) : Statement (.ptmExchange anchor hostTime rate) := of_none rfl
theorem ieee1588Sync (anchor : Int) (domainTime : Int) (rate : Int) : Statement (.ieee1588Sync anchor domainTime rate) := of_none rfl
theorem debugHalt (b : Int) (scope : Int) : Statement (.debugHalt b scope) := of_none rfl
theorem debugWset (a0 : Int) (a1 : Int) (a2 : Int) (b : Int) (c : Int) (unit : Int) : Statement (.debugWset a0 a1 a2 b c unit) := of_none rfl
theorem debugWclr (b : Int) (unit : Int) : Statement (.debugWclr b unit) := of_none rfl
theorem debugWrd (b : Int) (unit : Int) : Statement (.debugWrd b unit) := of_none rfl
theorem debugHlst (b : Int) : Statement (.debugHlst b) := of_none rfl
theorem debugHrdv (b : Int) (item : Int) : Statement (.debugHrdv b item) := of_none rfl
theorem debugHwrv (a : Int) (b : Int) (item : Int) : Statement (.debugHwrv a b item) := of_none rfl
theorem debugHrdp (b : Int) (item : Int) (e : Int) : Statement (.debugHrdp b item e) := of_none rfl
theorem debugHwrp (a0 : Int) (a1 : Int) (b : Int) (item : Int) (e : Int) : Statement (.debugHwrp a0 a1 b item e) := of_none rfl
theorem debugHstep (b : Int) : Statement (.debugHstep b) := of_none rfl
theorem debugHres (b : Int) (scope : Int) : Statement (.debugHres b scope) := of_none rfl
theorem completionTimeout (wid : Nat) : Statement (.completionTimeout wid) := of_none rfl
theorem scaleOutLinkFault (lane : Nat) : Statement (.scaleOutLinkFault lane) := of_none rfl
theorem routesRecomputed : Statement (.routesRecomputed) := of_none rfl
theorem duplicatePackageNumber : Statement (.duplicatePackageNumber) := of_none rfl
theorem powerLoss : Statement (.powerLoss) := of_none rfl

end Sys2Proof.Laws.Heads
end

