-- ==== Sys2Proof/Laws/Values.lean ====
section
/-! SUPPORT. Laws/Values.lean: the shared operations of the value classes: computeWord, predWord, crossWord, predReduce. -/

namespace Sys2Proof.Machine

open Sys2Proof Tern

/-! ### Writing a target -/

/-- Write a value to a target in a lane. -/
def To.put (t : To) (l : Nat) (x : Int) (w : Warp) : Warp :=
  match t with
  | .reg d dbl => w.setDst l d dbl x
  | .p n => w.setP l n x
  | .q n => w.setQ n x

/-- The target is one that an encoding admits: V registers in the file, predicates 1 to 8. -/
def To.ok : To → Prop
  | .reg d dbl => dstIn d dbl
  | .p n => 1 ≤ n ∧ n ≤ 8
  | .q n => 1 ≤ n

theorem RegsOnly.put (t : To) (l : Nat) (x : Int) : RegsOnly (t.put l x) := fun w => by
  cases t with
  | reg d dbl =>
    simp only [To.put]; unfold Warp.setDst; split
    · rfl
    · split <;> rfl
    · split <;> rfl
  | p n => simp only [To.put]; unfold Warp.setP; split <;> rfl
  | q n => simp only [To.put]; unfold Warp.setQ; split <;> rfl

theorem RegsOnly.fold (t : To) (x : Nat → Int) : ∀ al : List Nat, RegsOnly fun w => al.foldl (fun w k => t.put k (x k) w) w
  | [] => fun _ => rfl
  | a :: as => fun w => (RegsOnly.fold t x as (t.put a (x a) w)).trans (RegsOnly.put t a (x a) w)

theorem RegsOnly.id : RegsOnly fun w => w := fun _ => rfl

theorem State.modWarp_id (s : State) (n : Nat) : (s.modWarp n fun w => w) = s := by
  have h : ∀ l : List Warp, modFirst (fun w => w.wid == n) (fun w => w) l = l := by
    intro l; induction l with
    | nil => rfl
    | cons x xs ih => unfold modFirst; split <;> simp [ih]
  unfold State.modWarp; rw [h]

/-- The word that V or G register n of a target receives. -/
def To.part (t : To) (n : Nat) (x : Int) : Int := match t with | .reg d dbl => dstPart d dbl n x | _ => x

theorem To.vs_reg (d : Dst) (dbl : Bool) : (To.reg d dbl).vs = vsOf d dbl := by cases d <;> rfl
theorem To.gs_reg (d : Dst) (dbl : Bool) : (To.reg d dbl).gs = gsOf d dbl := by cases d <;> rfl

theorem Warp.vreg_put (w : Warp) (t : To) (l : Nat) (x : Int) (ht : t.ok) (l' n : Nat) (hn : n < 81) :
    (t.put l x w).vreg l' n = if l = l' ∧ n ∈ t.vs then t.part n x else w.vreg l' n := by
  cases t with
  | reg d dbl => rw [To.vs_reg]; exact Warp.vreg_setDst w l d dbl x ht l' n hn
  | p m => simp [To.put, To.vs, Warp.vreg]
  | q m => simp [To.put, To.vs, Warp.vreg]

theorem Warp.greg_put (w : Warp) (t : To) (l : Nat) (x : Int) (n : Nat) :
    (t.put l x w).greg n = if n ∈ t.gs then t.part n x else w.greg n := by
  cases t with
  | reg d dbl => rw [To.gs_reg]; exact Warp.greg_setDst w l d dbl x n
  | p m => simp [To.put, To.gs, Warp.greg]
  | q m => simp [To.put, To.gs, Warp.greg]

theorem Warp.preg_put (w : Warp) (t : To) (l : Nat) (x : Int) (ht : t.ok) (l' n : Nat) (hn : n ≤ 8) :
    (t.put l x w).preg l' n = if l = l' ∧ n ∈ t.ps then x else w.preg l' n := by
  cases t with
  | reg d dbl => simp [To.put, To.ps, Warp.preg]
  | p m =>
    obtain ⟨h1, h8⟩ := ht
    simp only [To.put, To.ps, List.mem_singleton]
    have e : w.setP l m x = { w with p := sset w.p (9 * l + m) x } := if_neg (by omega)
    rw [e]; unfold Warp.preg; dsimp only
    by_cases h0 : n = 0
    · rw [if_pos h0, if_neg (by omega), if_pos h0]
    · rw [if_neg h0, sget_sset]
      by_cases h : l = l' ∧ n = m
      · obtain ⟨rfl, rfl⟩ := h; simp
      · rw [if_neg h, if_neg (by omega), if_neg h0]
  | q m => simp [To.put, To.ps, Warp.preg]

theorem Warp.qreg_put (w : Warp) (t : To) (l : Nat) (x : Int) (ht : t.ok) (n : Nat) :
    (t.put l x w).qreg n = if n ∈ t.qs then x else w.qreg n := by
  cases t with
  | reg d dbl => simp [To.put, To.qs, Warp.qreg]
  | p m => simp [To.put, To.qs, Warp.qreg]
  | q m =>
    have h1 : 1 ≤ m := ht
    simp only [To.put, To.qs, List.mem_singleton]
    have e : w.setQ m x = { w with q := sset w.q m x } := if_neg (by omega)
    rw [e]; unfold Warp.qreg; dsimp only
    by_cases h0 : n = 0
    · rw [if_pos h0, if_neg (by omega), if_pos h0]
    · rw [if_neg h0, if_neg h0, sget_sset]; simp [eq_comm]

theorem Warp.vreg_fold (t : To) (ht : t.ok) (x : Nat → Int) : ∀ (al : List Nat) (w : Warp) (l n : Nat), n < 81 →
    (al.foldl (fun w k => t.put k (x k) w) w).vreg l n = if l ∈ al ∧ n ∈ t.vs then t.part n (x l) else w.vreg l n
  | [], _, _, _, _ => by simp
  | a :: as, w, l, n, hn => by
    rw [List.foldl_cons, Warp.vreg_fold t ht x as _ l n hn, Warp.vreg_put w t a (x a) ht l n hn]
    by_cases h1 : l ∈ as
    · by_cases h2 : n ∈ t.vs <;> simp [h1, h2]
    · by_cases h3 : a = l
      · subst h3; simp [h1]
      · have h4 : ¬ l = a := fun e => h3 e.symm
        simp [h1, h3, h4]

theorem Warp.preg_fold (t : To) (ht : t.ok) (x : Nat → Int) : ∀ (al : List Nat) (w : Warp) (l n : Nat), n ≤ 8 →
    (al.foldl (fun w k => t.put k (x k) w) w).preg l n = if l ∈ al ∧ n ∈ t.ps then x l else w.preg l n
  | [], _, _, _, _ => by simp
  | a :: as, w, l, n, hn => by
    rw [List.foldl_cons, Warp.preg_fold t ht x as _ l n hn, Warp.preg_put w t a (x a) ht l n hn]
    by_cases h1 : l ∈ as
    · by_cases h2 : n ∈ t.ps <;> simp [h1, h2]
    · by_cases h3 : a = l
      · subst h3; simp [h1]
      · have h4 : ¬ l = a := fun e => h3 e.symm
        simp [h1, h3, h4]

theorem Warp.greg_fold (t : To) (hg : t.gs = []) (x : Nat → Int) : ∀ (al : List Nat) (w : Warp) (n : Nat),
    (al.foldl (fun w k => t.put k (x k) w) w).greg n = w.greg n
  | [], _, _ => rfl
  | a :: as, w, n => by rw [List.foldl_cons, Warp.greg_fold t hg x as, Warp.greg_put]; simp [hg]

theorem Warp.qreg_fold (t : To) (ht : t.ok) (hq : t.qs = []) (x : Nat → Int) : ∀ (al : List Nat) (w : Warp) (n : Nat),
    (al.foldl (fun w k => t.put k (x k) w) w).qreg n = w.qreg n
  | [], _, _ => rfl
  | a :: as, w, n => by rw [List.foldl_cons, Warp.qreg_fold t ht hq x as, Warp.qreg_put _ _ _ _ ht]; simp [hq]

/-- The destination's registers lie in the file when the word is legal. -/
theorem dstIn_of_legal {i : Instr} {s : State} {c : Cur} {w : Warp} (hr : Runs i s c w) {d : Dst} {dbl : Bool} (hm : (d, dbl) ∈ i.dsts) :
    dstIn d dbl := by
  intro n hn
  have h := hr.legal
  simp only [legal, Bool.and_eq_true, List.all_eq_true, decide_eq_true_eq] at h
  have h1 := h.1.1.1.1.1 n
  have : n ∈ i.vregs := by
    unfold Instr.vregs
    refine List.mem_append.2 (.inr (List.mem_flatMap.2 ⟨(d, dbl), hm, ?_⟩))
    cases d with
    | v m => simpa [vsOf] using hn
    | g m => simp [vsOf] at hn
    | latch => simp [vsOf] at hn
  have h2 := h1 this
  have := hr.shaped.allot
  omega

theorem To.Holds_of {w : Warp} {l : Nat} {t : To} {x : Int} (hv : ∀ n ∈ t.vs, w.vreg l n = t.part n x) (hg : ∀ n ∈ t.gs, w.greg n = t.part n x)
    (hp : ∀ n ∈ t.ps, w.preg l n = x) (hq : ∀ n ∈ t.qs, w.qreg n = x) : t.Holds w l x := by
  cases t with
  | p n => exact hp n (by simp [To.ps])
  | q n => exact hq n (by simp [To.qs])
  | reg d dbl =>
    cases d with
    | latch => trivial
    | v n =>
      cases dbl
      · simpa [To.Holds, Warp.Holds, To.part, dstPart] using hv n (by simp [To.vs])
      · have h1 := hv n (by simp [To.vs])
        have h2 := hv (n + 1) (by simp [To.vs])
        simp [To.part, dstPart] at h1 h2
        simp [To.Holds, Warp.Holds, h1, h2]
    | g n =>
      cases dbl
      · simpa [To.Holds, Warp.Holds, To.part, dstPart] using hg n (by simp [To.gs])
      · have h1 := hg n (by simp [To.gs])
        have h2 := hg (n + 1) (by simp [To.gs])
        simp [To.part, dstPart] at h1 h2
        simp [To.Holds, Warp.Holds, h1, h2]

/-! ### Latches and flags -/

/-- A word that latches does so in every lane of its issue set. -/
theorem Lane.latches_of {i : Instr} (hno : noLatch i = false) (x : Lane) : x.latches i = i.isVector := by simp [Lane.latches, hno]

/-- A group-wide word latches nothing (R107). -/
theorem Lane.latches_group {i : Instr} (hv : i.isVector = false) (x : Lane) : x.latches i = false := by simp [Lane.latches, hv]

/-- A latched 0 is 0. -/
theorem Latch.fit_zero : Latch.fit ⟨0, false⟩ = ⟨0, false⟩ := by decide
theorem Latch.fit_ite (p : Prop) [Decidable p] (y : Latch) :
    (if p then y else ⟨0, false⟩ : Latch).fit = if p then y.fit else ⟨0, false⟩ := by split <;> simp [Latch.fit_zero]

/-- The latches of a lane after a word that latches once. -/
theorem Lane.retire_x (i : Instr) (lt : Nat → Latch) (k : Bool) (l : Nat) (x : Lane) :
    ((Lane.retire i [lt] k l x).x1 = if x.latches i then (lt l).fit else x.x1) ∧
    ((Lane.retire i [lt] k l x).x2 = if x.latches i then x.x1 else x.x2) ∧
    ((Lane.retire i [lt] k l x).x3 = if x.latches i then x.x2 else x.x3) := by
  unfold Lane.retire Lane.chainStep Lane.chainEnd Lane.latch
  simp only [List.foldl_cons, List.foldl_nil]
  refine ⟨?_, ?_, ?_⟩ <;> (split <;> split <;> split <;> rfl)

theorem latchOf_some (s : State) (al : List Nat) (g : Nat → Latch) (l : Nat) :
    latchOf s al (al.map fun k => (k, g k)) l = if l ∈ al then g l else ⟨0, false⟩ := by
  unfold latchOf
  rw [find_map_self]
  by_cases h : l ∈ al <;> simp [h]

theorem raisedAt_filter (f : Nat → Fl) (al : List Nat) (l : Nat) (v : Int) :
    raisedAt ((al.filter fun k => !(f k).isNone).map fun k => (k, f k)) l v =
      if l ∈ al ∧ (f l).isNone = false then flagsOr v (f l) else v := by
  unfold raisedAt
  rw [find_flags]
  by_cases h : l ∈ al ∧ (f l).isNone = false <;> simp [h]

/-- In the group-wide form the active lanes are the issue set or none. -/
theorem active_group {i : Instr} (hv : i.isVector = false) (w : Warp) (ls : List Nat) (h : activeOf i w ls ≠ []) : activeOf i w ls = ls := by
  unfold Instr.isVector at hv
  unfold activeOf at h ⊢
  cases hh : i.hd? with
  | none => rfl
  | some hd =>
    simp only [hh] at hv h ⊢
    have hf : hd.form = .group := by
      cases hf : hd.form
      · simp [hf] at hv
      · rfl
    simp only [activeLanes, hf] at h ⊢
    split
    · rfl
    · rename_i hs; simp [hs] at h

/-! ### The three shapes of a result -/

/-- A result in each active lane. -/
theorem value_vector {i : Instr} {s : State} {c : Cur} {w : Warp} (hr : Runs i s c w) (tg : To) (ht : tg.ok) (hg : tg.gs = []) (hq : tg.qs = [])
    (hv : i.isVector = true) (hno : noLatch i = false) (x : Nat → Int) (f : Nat → Fl) (res : List (List (Nat × Latch) × ResKind)) :
    ∃ w', Computed i s (finishWord i ((s.counted i c.wid).modWarp c.wid fun u => (activeOf i w c.lanes).foldl (fun u k => tg.put k (x k) u) u) c w
      [latchOf ((s.counted i c.wid).modWarp c.wid fun u => (activeOf i w c.lanes).foldl (fun u k => tg.put k (x k) u) u) (activeOf i w c.lanes)
        ((activeOf i w c.lanes).map fun l => (l, (⟨x l, tg.dbl⟩ : Latch)))] res
      (((activeOf i w c.lanes).filter fun l => !(f l).isNone).map fun l => (l, f l)) true) c w w' tg x f := by
  obtain ⟨w', h⟩ := done_spec hr (fun u => (activeOf i w c.lanes).foldl (fun u k => tg.put k (x k) u) u) (RegsOnly.fold tg x _)
    [latchOf ((s.counted i c.wid).modWarp c.wid fun u => (activeOf i w c.lanes).foldl (fun u k => tg.put k (x k) u) u) (activeOf i w c.lanes)
      ((activeOf i w c.lanes).map fun l => (l, (⟨x l, tg.dbl⟩ : Latch)))] res
    (((activeOf i w c.lanes).filter fun l => !(f l).isNone).map fun l => (l, f l))
  have hvv : ∀ l n, n < 81 → w'.vreg l n = if l ∈ activeOf i w c.lanes ∧ n ∈ tg.vs then tg.part n (x l) else w.vreg l n := fun l n hn => by
    simp only [Warp.vreg, h.v]
    exact Warp.vreg_fold tg ht x _ (w.countYields (wordCount i)) l n hn
  have hpp : ∀ l n, n ≤ 8 → w'.preg l n = if l ∈ activeOf i w c.lanes ∧ n ∈ tg.ps then x l else w.preg l n := fun l n hn => by
    simp only [Warp.preg, h.p]
    exact Warp.preg_fold tg ht x _ (w.countYields (wordCount i)) l n hn
  refine ⟨w', ⟨h.warp, ?_, ?_, ?_, ?_, ?_, ?_, ?_, ?_, h.moved, h.apart, h.calm⟩⟩
  · intro l hl
    refine To.Holds_of (fun n hn => ?_) (fun n hn => by simp [hg] at hn) (fun n hn => ?_) fun n hn => by simp [hq] at hn
    · have : n < 81 := by
        cases tg with
        | reg d dbl => exact ht n (by rw [← To.vs_reg]; exact hn)
        | p m => simp [To.vs] at hn
        | q m => simp [To.vs] at hn
      rw [hvv l n this, if_pos ⟨hl, hn⟩]; simp [hv]
    · have : n ≤ 8 := by
        cases tg with
        | reg d dbl => simp [To.ps] at hn
        | p m => simp [To.ps] at hn; subst hn; exact ht.2
        | q m => simp [To.ps] at hn
      rw [hpp l n this, if_pos ⟨hl, hn⟩]; simp [hv]
  · intro _ l hl
    have hl27 := hr.set l hl
    have hx := Lane.retire_x i (latchOf ((s.counted i c.wid).modWarp c.wid fun u => (activeOf i w c.lanes).foldl (fun u k => tg.put k (x k) u) u)
      (activeOf i w c.lanes) ((activeOf i w c.lanes).map fun l => (l, (⟨x l, tg.dbl⟩ : Latch)))) w.handler l (w.lane l)
    simp only [Lane.latches_of hno, hv, if_true] at hx
    rw [h.x1 l hl27, h.x2 l hl27, h.x3 l hl27]
    simp only [hl, if_true]
    rw [hx.1, hx.2.1, hx.2.2, latchOf_some, Latch.fit_ite]
    exact ⟨rfl, rfl, rfl⟩
  · intro l hl hn
    have : l ∉ c.lanes := fun hm => hn ⟨hv, hm⟩
    rw [h.x1 l hl, h.x2 l hl, h.x3 l hl]; simp [this]
  · intro l hl
    rw [h.flags l hl, raisedAt_filter]; simp [hv]
  · intro l n hn hnot; rw [hvv l n hn, if_neg hnot]
  · intro n _; simp only [Warp.greg, h.g]
    exact Warp.greg_fold tg hg x _ (w.countYields (wordCount i)) n
  · intro l n hn hnot; rw [hpp l n hn, if_neg hnot]
  · intro n _; simp only [Warp.qreg, h.q]
    exact Warp.qreg_fold tg ht hq x _ (w.countYields (wordCount i)) n

/-- A result written once. lt gives what the lanes latch in the vector form. -/
theorem value_once {i : Instr} {s : State} {c : Cur} {w : Warp} (hr : Runs i s c w) (tg : To) (ht : tg.ok) (hvs : tg.vs = []) (hps : tg.ps = [])
    (hal : activeOf i w c.lanes ≠ []) (k0 : Nat) (x : Nat → Int) (f : Nat → Fl) (lt : Nat → Latch) (fl : List (Nat × Fl))
    (hx : ∀ l ∈ activeOf i w c.lanes, x (if i.isVector then l else 0) = x k0)
    (hlt : i.isVector = true → noLatch i = false ∧ ∀ l ∈ c.lanes, lt l = if l ∈ activeOf i w c.lanes then ⟨x l, tg.dbl⟩ else ⟨0, false⟩)
    (hfl : ∀ l v, l < 27 → raisedAt fl l v = (if l ∈ activeOf i w c.lanes ∧ (f (if i.isVector then l else 0)).isNone = false
      then flagsOr v (f (if i.isVector then l else 0)) else v))
    (res : List (List (Nat × Latch) × ResKind)) :
    ∃ w', Computed i s (finishWord i ((s.counted i c.wid).modWarp c.wid (tg.put k0 (x k0))) c w [lt] res fl true) c w w' tg x f := by
  obtain ⟨w', h⟩ := done_spec hr (tg.put k0 (x k0)) (RegsOnly.put tg k0 (x k0)) [lt] res fl
  have hgg : ∀ n, w'.greg n = if n ∈ tg.gs then tg.part n (x k0) else w.greg n := fun n => by
    simp only [Warp.greg, h.g]; exact Warp.greg_put (w.countYields (wordCount i)) tg k0 (x k0) n
  have hqq : ∀ n, w'.qreg n = if n ∈ tg.qs then x k0 else w.qreg n := fun n => by
    simp only [Warp.qreg, h.q]; exact Warp.qreg_put (w.countYields (wordCount i)) tg k0 (x k0) ht n
  refine ⟨w', ⟨h.warp, ?_, ?_, ?_, ?_, ?_, ?_, ?_, ?_, h.moved, h.apart, h.calm⟩⟩
  · intro l hl
    refine To.Holds_of (fun n hn => by simp [hvs] at hn) (fun n hn => ?_) (fun n hn => by simp [hps] at hn) fun n hn => ?_
    · rw [hgg n, if_pos hn, hx l hl]
    · rw [hqq n, if_pos hn, hx l hl]
  · intro hv l hl
    have hl27 := hr.set l hl
    have hx := Lane.retire_x i lt w.handler l (w.lane l)
    simp only [Lane.latches_of (hlt hv).1, hv, if_true] at hx
    rw [h.x1 l hl27, h.x2 l hl27, h.x3 l hl27]
    simp only [hl, if_true]
    rw [hx.1, hx.2.1, hx.2.2, (hlt hv).2 l hl, Latch.fit_ite]
    exact ⟨rfl, rfl, rfl⟩
  · intro l hl hn
    rw [h.x1 l hl, h.x2 l hl, h.x3 l hl]
    by_cases hm : l ∈ c.lanes
    · have hv : i.isVector = false := by
        cases hv : i.isVector
        · rfl
        · exact absurd ⟨hv, hm⟩ hn
      have hx := Lane.retire_x i lt w.handler l (w.lane l)
      simp only [Lane.latches_group hv, Bool.false_eq_true, if_false] at hx
      simp only [hm, if_true]
      rw [hx.1, hx.2.1, hx.2.2]; exact ⟨rfl, rfl, rfl⟩
    · simp [hm]
  · intro l hl; rw [h.flags l hl, hfl l _ hl]
  · intro l n hn _; simp only [Warp.vreg, h.v]
    have := Warp.vreg_put (w.countYields (wordCount i)) tg k0 (x k0) ht l n hn
    simp only [hvs, List.not_mem_nil, and_false, if_false] at this
    exact this
  · intro n hn
    rw [hgg n, if_neg fun hm => hn ⟨hal, hm⟩]
  · intro l n hn _; simp only [Warp.preg, h.p]
    have := Warp.preg_put (w.countYields (wordCount i)) tg k0 (x k0) ht l n hn
    simp only [hps, List.not_mem_nil, and_false, if_false] at this
    exact this
  · intro n hn; rw [hqq n, if_neg fun hm => hn ⟨hal, hm⟩]

/-- No active lane: the word only moves on. -/
theorem value_none {i : Instr} {s : State} {c : Cur} {w : Warp} (hr : Runs i s c w) (tg : To)
    (hal : activeOf i w c.lanes = []) (x : Nat → Int) (f : Nat → Fl) (lt : Nat → Latch)
    (hlt : i.isVector = true → noLatch i = false ∧ ∀ l ∈ c.lanes, lt l = ⟨0, false⟩) (res : List (List (Nat × Latch) × ResKind)) :
    ∃ w', Computed i s (finishWord i (s.counted i c.wid) c w [lt] res [] true) c w w' tg x f := by
  obtain ⟨w', h⟩ := done_spec hr (fun w => w) RegsOnly.id [lt] res []
  rw [State.modWarp_id] at h
  refine ⟨w', ⟨h.warp, ?_, ?_, ?_, ?_, ?_, ?_, ?_, ?_, h.moved, h.apart, h.calm⟩⟩
  · intro l hl; simp [hal] at hl
  · intro hv l hl
    have hl27 := hr.set l hl
    have hx := Lane.retire_x i lt w.handler l (w.lane l)
    simp only [Lane.latches_of (hlt hv).1, hv, if_true] at hx
    rw [h.x1 l hl27, h.x2 l hl27, h.x3 l hl27]
    simp only [hl, if_true]
    rw [hx.1, hx.2.1, hx.2.2, (hlt hv).2 l hl, hal]
    exact ⟨rfl, rfl, rfl⟩
  · intro l hl hn
    rw [h.x1 l hl, h.x2 l hl, h.x3 l hl]
    by_cases hm : l ∈ c.lanes
    · have hv : i.isVector = false := by
        cases hv : i.isVector
        · rfl
        · exact absurd ⟨hv, hm⟩ hn
      have hx := Lane.retire_x i lt w.handler l (w.lane l)
      simp only [Lane.latches_group hv, Bool.false_eq_true, if_false] at hx
      simp only [hm, if_true]
      rw [hx.1, hx.2.1, hx.2.2]; exact ⟨rfl, rfl, rfl⟩
    · simp [hm]
  · intro l hl; rw [h.flags l hl]; simp [raisedAt, hal]
  · intro l n _ _; simp only [Warp.vreg, h.v]; rfl
  · intro n _; simp only [Warp.greg, h.g]; rfl
  · intro l n _ _; simp only [Warp.preg, h.p]; rfl
  · intro n _; simp only [Warp.qreg, h.q]; rfl

/-! ### The shared operations -/

theorem latchOf_none (s : State) (l : Nat) : latchOf s [] [] l = ⟨0, false⟩ := rfl

theorem raisedAt_group (e : Fl) (ls : List Nat) (l : Nat) (v : Int) :
    raisedAt (if e.isNone then [] else ls.map fun l => (l, e)) l v = if l ∈ ls ∧ e.isNone = false then flagsOr v e else v := by
  by_cases hn : e.isNone = true
  · simp [raisedAt, hn]
  · have hn2 : e.isNone = false := by simpa using hn
    simp only [hn2, Bool.false_eq_true, if_false]
    unfold raisedAt
    rw [find_map_self (fun _ => e) l ls]
    by_cases hlm : l ∈ ls <;> simp [hlm]

/-- What computeWord computes. -/
theorem computeWord_spec {i : Instr} {s : State} {c : Cur} {w : Warp} (hr : Runs i s c w) (d : Dst) (dbl : Bool) (k : ResKind)
    (f : Warp → Nat → Int × Fl) (hm : (d, dbl) ∈ i.dsts) (hno : noLatch i = false)
    (hvec : i.isVector = true → gsOf d dbl = []) (hgrp : i.isVector = false → vsOf d dbl = []) :
    ∃ w', Computed i s (computeWord i s d dbl k f) c w w' (.reg d dbl) (fun l => (f w l).1) (fun l => (f w l).2) := by
  have hin := dstIn_of_legal hr hm
  unfold computeWord
  rw [runWord_eq hr]
  dsimp only
  cases hv : i.isVector
  · simp only [Bool.false_eq_true, if_false]
    by_cases hal : (activeOf i w c.lanes).isEmpty = true
    · simp only [hal, if_true, Eff.plain]
      exact value_none hr _ (by simpa using hal) _ _ _ (by simp [hv]) _
    · simp only [hal, Bool.false_eq_true, if_false]
      have hne : activeOf i w c.lanes ≠ [] := by simpa using hal
      refine value_once hr (.reg d dbl) hin (by rw [To.vs_reg]; exact hgrp hv) rfl hne 0 (fun l => (f w l).1) (fun l => (f w l).2) _ _
        (by intro l _; simp [hv]) (by simp [hv]) ?_ _
      intro l v _
      rw [raisedAt_group, active_group hv w c.lanes hne]
      simp [hv]
  · simp only [if_true]
    have := value_vector hr (.reg d dbl) hin (by rw [To.gs_reg]; exact hvec hv) rfl hv hno (fun l => (f w l).1) (fun l => (f w l).2)
      [(((activeOf i w c.lanes).map fun l => (l, f w l)).map (fun r => (r.1, (⟨r.2.1, dbl⟩ : Latch))), k)]
    simpa only [List.foldl_map, List.map_map, List.filter_map, Function.comp_def, To.put, To.dbl] using this

/-- What predWord computes: a P predicate in each active lane, or a Q predicate. -/
theorem predWord_spec {i : Instr} {s : State} {c : Cur} {w : Warp} (hr : Runs i s c w) (pd : Nat) (hpd : 1 ≤ pd ∧ pd ≤ 8)
    (f : Warp → Nat → Int × Fl) (hno : noLatch i = false) :
    ∃ w', Computed i s (predWord i s pd f) c w w' (if i.isVector then .p pd else .q pd) (fun l => (f w l).1) (fun l => (f w l).2) := by
  unfold predWord
  rw [runWord_eq hr]
  dsimp only
  cases hv : i.isVector
  · simp only [Bool.false_eq_true, if_false]
    by_cases hal : (activeOf i w c.lanes).isEmpty = true
    · simp only [hal, if_true, Eff.plain]
      exact value_none hr _ (by simpa using hal) _ _ _ (by simp [hv]) _
    · simp only [hal, Bool.false_eq_true, if_false]
      have hne : activeOf i w c.lanes ≠ [] := by simpa using hal
      refine value_once hr (.q pd) hpd.1 rfl rfl hne 0 (fun l => (f w l).1) (fun l => (f w l).2) _ _
        (by intro l _; simp [hv]) (by simp [hv]) ?_ _
      intro l v _
      rw [raisedAt_group, active_group hv w c.lanes hne]
      simp [hv]
  · simp only [if_true]
    have := value_vector hr (.p pd) hpd rfl rfl hv hno (fun l => (f w l).1) (fun l => (f w l).2)
      [(((activeOf i w c.lanes).map fun l => (l, f w l)).map (fun r => (r.1, (⟨r.2.1, false⟩ : Latch))), .w)]
    simpa only [List.foldl_map, List.map_map, List.filter_map, Function.comp_def, To.put, To.dbl] using this

theorem filter_const (e : Fl) (al : List Nat) :
    (if e.isNone then [] else al.map fun l => (l, e)) = (al.filter fun _ => !e.isNone).map fun l => (l, e) := by
  cases h : e.isNone <;> simp

/-- What crossWord computes. -/
theorem crossWord_spec {i : Instr} {s : State} {c : Cur} {w : Warp} (hr : Runs i s c w) (d : Dst) (dbl : Bool) (k : ResKind)
    (f : Warp → List Nat → Nat → Int) (fl : Warp → List Nat → Fl) (hm : (d, dbl) ∈ i.dsts) (hno : noLatch i = false)
    (hv : i.isVector = true) (hg : gsOf d dbl = []) :
    ∃ w', Computed i s (crossWord i s d dbl k f fl) c w w' (.reg d dbl) (f w (activeOf i w c.lanes)) (fun _ => fl w (activeOf i w c.lanes)) := by
  unfold crossWord
  rw [runWord_eq hr]
  dsimp only
  have := value_vector hr (.reg d dbl) (dstIn_of_legal hr hm) (by rw [To.gs_reg]; exact hg) rfl hv hno (f w (activeOf i w c.lanes))
    (fun _ => fl w (activeOf i w c.lanes))
    [(((activeOf i w c.lanes).map fun l => (l, f w (activeOf i w c.lanes) l)).map (fun r => (r.1, (⟨r.2, dbl⟩ : Latch))), k)]
  rw [filter_const]
  simpa only [List.foldl_map, List.map_map, List.filter_map, Function.comp_def, To.put, To.dbl] using this

/-- What predReduce computes: one trit over the active lanes, into a Q predicate. -/
theorem predReduce_spec {i : Instr} {s : State} {c : Cur} {w : Warp} (hr : Runs i s c w) (qd : Nat) (hqd : 1 ≤ qd) (a : PSrc) (f : Int → Int → Int)
    (hno : noLatch i = false) (hv : i.isVector = true) :
    ∃ w', Computed i s (predReduce i s qd a f) c w w' (.q qd)
      (fun _ => match activeOf i w c.lanes with | [] => 0 | l0 :: r => r.foldl (fun m l => f m (w.psrc l a)) (w.psrc l0 a)) (fun _ => Fl.none) := by
  unfold predReduce
  rw [runWord_eq hr]
  dsimp only
  cases hal : activeOf i w c.lanes with
  | nil =>
    simp only [Eff.plain]
    exact value_none hr _ hal _ _ _ (fun _ => ⟨hno, fun l _ => rfl⟩) _
  | cons l0 r =>
    simp only
    have h := value_once hr (.q qd) hqd rfl rfl (by rw [hal]; simp) 0
      (fun _ => r.foldl (fun m l => f m (w.psrc l a)) (w.psrc l0 a)) (fun _ => Fl.none)
      (latchOf ((s.counted i c.wid).modWarp c.wid fun w_1 => w_1.setQ qd (r.foldl (fun m l => f m (w.psrc l a)) (w.psrc l0 a))) (l0 :: r)
        ((l0 :: r).map fun l => (l, (⟨r.foldl (fun m l => f m (w.psrc l a)) (w.psrc l0 a), false⟩ : Latch)))) []
      (fun _ _ => rfl) (fun _ => ⟨hno, fun l _ => by rw [hal]; exact latchOf_some _ _ _ l⟩) (fun l v _ => by simp [raisedAt, Fl.isNone])
      [((l0 :: r).map fun l => (l, (⟨r.foldl (fun m l => f m (w.psrc l a)) (w.psrc l0 a), false⟩ : Latch)), .w)]
    exact h

end Sys2Proof.Machine
end

