-- ==== Sys2Proof/Machine/Loader.lean ====
section
/-! DEFINITION. Machine/Loader.lean: Ranaitas objects: their layout, relocations, variants and selectors, and what a loader
writes (R316 to R323). -/

namespace Sys2Proof.Machine

open Sys2Proof Sys2Proof.Tern

/-! ### Lines of an object (R43, R316) -/

/-- A line of an object: its 27 words and its tag. -/
structure ObjLine where
  (words : List Int) (tag : Tag)
  deriving DecidableEq, Repr

/-- The line that 150 bytes hold; none for an invalid byte or a nonzero pad trit. -/
def objLine (bs : List Nat) : Option ObjLine :=
  let ts := bs.map byteTrits
  if !ts.all Option.isSome then none
  else
    let gs := ts.map fun t => t.getD 0
    let line := join 5 (gs.take 146)
    let tag := join 5 (gs.drop 146)
    if canon line 729 && canon tag 18 then some ⟨split 27 27 line, Tag.ofNum tag⟩ else none

/-- The lines of a file of n lines. -/
def objLines : Nat → List Nat → Option (List ObjLine)
  | 0, _ => some []
  | n + 1, bs => match objLine (bs.take 150), objLines n (bs.drop 150) with
    | some l, some r => some (l :: r)
    | _, _ => none

/-- Word j of line k. -/
def objWord (o : List ObjLine) (k j : Nat) : Int := wordAt ((o[k]?.map fun l => l.words).getD []) j
/-- Nine words, or three, or one, of a table whose entries stand n to a line. -/
def objEntry (o : List ObjLine) (first n size i : Nat) : List Int :=
  (upto size).map fun j => objWord o (first + i / n) (size * (i % n) + j)

/-- A run of lines lies within the object. -/
def inObj (o : List ObjLine) (first : Int) (n : Nat) : Bool := inR first 1 (o.length - 1) && decide (first.toNat + n ≤ o.length)

/-! ### The tables (R316 to R319) -/

/-- A section (R317): kind, first line, lines, alignment, relocation line, relocations. -/
structure Section where
  (kind : Int) (first lines : Nat) (align : Int) (relLine rels : Nat)
  deriving DecidableEq, Repr

/-- A section entry, when its fields keep R317. -/
def sectionOf (o : List ObjLine) (i : Nat) : Option Section :=
  let e := objEntry o 1 3 9 i
  let w := wordAt e
  if inR (w 0) (-1) 1 && inR (w 2) 1 o.length && inObj o (w 1) (w 2).toNat && inR (w 3) 81 1594323 && w 3 % 81 == 0 &&
      (w 0 != 1 || (w 2 % 2 == 0 && w 3 % 162 == 0 && w 5 == 0)) && inR (w 5) 0 59049 &&
      (if w 5 = 0 then w 4 == 0 else inObj o (w 4) (((w 5).toNat + 8) / 9)) && (e.drop 6).all fun x => x == 0
  then some ⟨w 0, (w 1).toNat, (w 2).toNat, w 3, (w 4).toNat, (w 5).toNat⟩ else none

/-- A relocation (R318): site, kind, target section, addend. -/
structure Reloc where
  (site : Int) (kind : Int) (target : Nat) (addend : Int)
  deriving DecidableEq, Repr

/-- A relocation entry of a section, when its fields keep R318; n sections. -/
def relocOf (o : List ObjLine) (n : Nat) (x : Section) (j : Nat) : Option Reloc :=
  let e := objEntry o x.relLine 9 3 j
  let site := wordAt e 0
  let k := field (wordAt e 1) 26 24
  let t := field (wordAt e 1) 11 0
  let size : Int := if k = 3 then 3 else 6
  if inR k 1 3 && site % size == 0 && decide (0 ≤ site ∧ site + size ≤ 81 * (x.lines : Int)) && field (wordAt e 1) 23 12 == 0 &&
      inR t 0 ((n : Int) - 1)
  then some ⟨site, k, t.toNat, wordAt e 2⟩ else none

/-- A variant of a kernel (R319): its entry and limit in a section, the launch-record fields, the selector's tokens. -/
structure Variant where
  (text : Nat) (entry limit : Int) (fields : List Int) (selector : List Int)
  deriving DecidableEq, Repr

/-- A variant line, when its fields keep R319. -/
def variantOf (o : List ObjLine) (xs : List Section) (line : Int) : Option Variant :=
  if !inObj o line 1 then none
  else
    let w := objWord o line.toNat
    let ok := match xs[(w 0).toNat]? with
      | some x =>
        decide (0 ≤ w 0) && x.kind == 1 && decide (0 ≤ w 1 ∧ w 1 < w 2 ∧ 2 * w 2 ≤ 27 * (x.lines : Int)) && inR (w 3) 1 288 && inR (w 4) 9 81 &&
        w 4 % 9 == 0 && inR (w 5) 0 6561 && inR (field (w 6) 26 18) 0 27 && inR (field (w 6) 17 9) 0 27 && inR (field (w 6) 8 0) 0 32 &&
        inR (w 7) 0 72 && inR (field (w 8) 8 0) (-4) 4 && inR (trit (w 8) 26) 0 1 && field (w 8) 25 9 == 0 && inR (w 10) 1 243 &&
        inObj o (w 9) (((w 10).toNat + 26) / 27) && (upto 16).all fun j => w (11 + j) == 0
      | none => false
    if ok then some ⟨(w 0).toNat, w 1, w 2, (upto 6).map fun j => w (3 + j),
      (upto (w 10).toNat).map fun t => objWord o ((w 9).toNat + t / 27) (t % 27)⟩ else none

/-- A kernel (R319): the trytes of its name, its variants. -/
structure Kernel where
  (name : List Int) (variants : List Variant)
  deriving DecidableEq, Repr

/-- A name: raw trytes, padded with zero trytes. -/
def nameOk : List Int → Bool
  | [] => true
  | c :: r => if c = 0 then r.all fun x => x == 0 else inR c 0 255 && nameOk r

/-- All of a list, or none. -/
def allSome {α : Type} : List (Option α) → Option (List α)
  | [] => some []
  | none :: _ => none
  | some x :: r => (allSome r).map fun y => x :: y

/-- A kernel line, when its fields keep R319. -/
def kernelOf (o : List ObjLine) (xs : List Section) (line : Int) : Option Kernel :=
  if !inObj o line 1 then none
  else
    let w := objWord o line.toNat
    let name := ((upto 25).map fun j => w (2 + j)).flatMap fun v => split 9 3 v
    if inR (w 0) 1 27 && nameOk name then
      (allSome ((upto (w 0).toNat).map fun (i : Nat) => variantOf o xs (w 1 + (i : Int)))).map fun vs => ⟨name, vs⟩
    else none

/-- An object whose tables keep R316 to R319. -/
structure Object where
  (lines : List ObjLine) (sections : List Section) (relocs : List (List Reloc)) (kernels : List Kernel)
  deriving DecidableEq, Repr

/-- Read an object from the bytes of its file; none where the loader refuses it. -/
def readObject (bs : List Nat) : Option Object :=
  if bs.length % 150 ≠ 0 then none
  else match objLines (bs.length / 150) bs with
    | none => none
    | some o =>
      let w := objWord o 0
      if w 0 = pow3 26 ∧ w 1 = 1 ∧ inR (w 2) 1 729 = true ∧ inR (w 3) 0 729 = true ∧ inR (w 4) 1 (o.length - 1) = true ∧ w 5 = o.length ∧ 2 ≤ w 5 ∧
          (upto 21).all (fun j => w (6 + j) == 0) = true ∧ inObj o 1 (((w 2).toNat + 2) / 3) = true then
        match allSome ((upto (w 2).toNat).map (sectionOf o)) with
        | none => none
        | some xs =>
          match allSome (xs.map fun x => allSome ((upto x.rels).map (relocOf o xs.length x))),
              allSome ((upto (w 3).toNat).map fun (m : Nat) => kernelOf o xs (w 4 + (m : Int))) with
          | some rs, some ks => some ⟨o, xs, rs, ks⟩
          | _, _ => none
      else none

/-! ### Selectors (R320, R321) -/

/-- What a selector may ask: the paddock's cores and the context's carve-out. -/
structure Part where
  (cores carve : Int)
  deriving DecidableEq, Repr

/-- The value of a quantity (R321). -/
def Part.quantity (p : Part) (q : Int) : Option Int :=
  if q = 1 then some 16 else if q = 2 then some p.cores else if q = 3 then some (81 * (6561 - p.carve)) else if q = 4 then some 16
  else if q = 5 then some 144 else if q = 6 then some 9 else if q = 7 then some 1 else none

/-- Evaluate tokens on a stack of at most 27 entries, top first; none for a selector that the loader refuses (R321, R322). -/
def selectorRun (p : Part) : List Int → List Int → Option Int
  | [], [x] => some x
  | [], _ => none
  | t :: r, st =>
    let k := field t 26 24
    let v := field t 23 0
    let push (x : Int) : Option Int := if st.length < 27 then selectorRun p r (x :: st) else none
    if k = 1 then push v
    else if k = 2 then match p.quantity v with | some x => push x | none => none
    else if k = 3 then
      if v = 2 then match st with | x :: s => selectorRun p r (-x :: s) | [] => none
      else match st with
        | y :: x :: s =>
          if v = 1 then selectorRun p r (Int.sign (x - y) :: s) else if v = 3 then selectorRun p r (min x y :: s)
          else if v = 4 then selectorRun p r (max x y :: s) else none
        | _ => none
    else none

/-- The trit of a selector. -/
def selectorTrit (p : Part) (ts : List Int) : Option Int := (selectorRun p ts []).map Int.sign

/-- The variant chosen, by its index: the first of trit +1, else the first of trit 0; none where the loader refuses (R321, R322). -/
def chosen (p : Part) (k : Kernel) : Option (Nat × Variant) :=
  match allSome (k.variants.map fun v => selectorTrit p v.selector) with
  | none => none
  | some ts =>
    let vs := List.zip (upto k.variants.length) (List.zip ts k.variants)
    match (vs.find? fun x => x.2.1 == 1), (vs.find? fun x => x.2.1 == 0) with
    | some x, _ => some (x.1, x.2.2)
    | none, some x => some (x.1, x.2.2)
    | none, none => none

/-! ### Placing an object (R317, R318, R323) -/

/-- A loaded tryte address may hold a section: an even small page's start, aligned, and the section's last byte addressable (R138, R317). -/
def baseOk (x : Section) (b : Int) : Bool :=
  b % 39366 == 0 && b % x.align == 0 && canonicalAddr b && canonicalAddr (b + 81 * (x.lines : Int) - 1) && b != 0

/-- Small pages that a section at a base takes. -/
def pagesAt (x : Section) (b : Int) : Int × Int := (pageOf b, pageOf (b + 81 * (x.lines : Int) - 1))

/-- The sections stand on pages of their own. -/
def apart : List (Int × Int) → Bool
  | [] => true
  | p :: r => (r.all fun q => decide (p.2 < q.1 ∨ q.2 < p.1)) && apart r

/-- The words that a relocation writes at its site; none where the loader refuses it (R318). -/
def relocWords (xs : List Section) (bases : List Int) (r : Reloc) : Option (List Int) :=
  let a := bases.getD r.target 0 + r.addend
  if r.kind = 1 then if canonicalAddr a then some [lowWord a, highWord a] else none
  else if r.kind = 2 then
    if (xs[r.target]?.map fun x => x.kind) == some 1 && a % 6 == 0 then some [lowWord (a / 6), highWord (a / 6)] else none
  else if canon a 27 then some [a] else none

/-- A section's words after its relocations. -/
def sectionWords (o : Object) (x : Section) (rs : List (Int × List Int)) : List Int :=
  rs.foldl (fun ws r => (List.zip (upto r.2.length) r.2).foldl (fun ws p => ws.set ((r.1 / 3).toNat + p.1) p.2) ws)
    (((o.lines.drop x.first).take x.lines).flatMap fun l => l.words)

/-- The rights of a section's pages: read, write, execute (R317). -/
structure Rights where
  (r w x : Bool)
  deriving DecidableEq, Repr
def rightsOf (kind : Int) : Rights := if kind = 1 then ⟨true, false, true⟩ else if kind = -1 then ⟨true, false, false⟩ else ⟨true, true, false⟩

/-- A section as loaded: kind, base, the rights of its pages, words, tags. -/
structure LoadedSection where
  (kind base : Int) (rights : Rights) (words : List Int) (tags : List Tag)
  deriving DecidableEq, Repr

/-- What a loader has made of an object: its sections; each kernel's name with the launch-record words 1 to 4
and 9 to 16 and the index of the variant chosen. -/
structure Loaded where
  (sections : List LoadedSection) (kernels : List (List Int × List Int × Nat))
  deriving DecidableEq, Repr

/-- Load an object at given bases; none where the loader refuses the whole object (R322). -/
def loadObject (bs : List Nat) (p : Part) (bases : List Int) : Option Loaded :=
  match readObject bs with
  | none => none
  | some o =>
    let xb := List.zip o.sections bases
    if bases.length ≠ o.sections.length ∨ (xb.all fun x => baseOk x.1 x.2) = false ∨ apart (xb.map fun x => pagesAt x.1 x.2) = false then none
    else
      match allSome (o.relocs.map fun rs => allSome (rs.map fun r => (relocWords o.sections bases r).map fun ws => (r.site, ws))),
          allSome (o.kernels.map fun k => (chosen p k).map fun v => (k, v)) with
      | some rws, some ks => some {
          sections := (List.zip xb rws).map fun x =>
            ⟨x.1.1.kind, x.1.2, rightsOf x.1.1.kind, sectionWords o x.1.1 x.2, ((o.lines.drop x.1.1.first).take x.1.1.lines).map fun l => l.tag⟩,
          kernels := ks.map fun k =>
            let v := k.2.2
            let c := bases.getD v.text 0 / 6
            let f := wordAt v.fields
            (k.1.name, [lowWord (c + v.entry), highWord (c + v.entry), lowWord (c + v.limit), highWord (c + v.limit), f 0, f 1, f 2, f 3, f 4, 0, 0, f 5], k.2.1) }
      | _, _ => none

/-- The leaf of a section's page in a frame of a package (R142, R317). -/
def rightsLeaf (p : Rights) (pkg frame : Int) : Int :=
  let bit (b : Bool) (i : Nat) : Int := if b then pow3 i else 0
  pow3 52 + bit p.r 49 + bit p.w 48 + bit p.x 47 + pkg * pow3 30 + frame

/-- Map n pages of a section, consecutive entries of a level-0 node from a tryte on, to consecutive frames of a package (R317). -/
def mapSection (m : Memory) (tables entry : Int) (p : Rights) (pkg frame : Int) (n : Nat) : Memory :=
  (upto n).foldl (fun m (i : Nat) => m.write tables (entry + 6 * (i : Int)) 6 (rightsLeaf p pkg (frame + (i : Int)))) m

/-- Write a section's lines with their tags to a package's memory from a local line on (R317, R323). -/
def writeSection (m : Memory) (pkg line : Int) (words : List Int) (tags : List Tag) : Memory :=
  (List.zip (upto tags.length) tags).foldl (fun m t =>
    (m.setLine pkg (line + (t.1 : Int)) (ssets [] 0 (((words.drop (27 * t.1)).take 27).flatMap fun w => split 9 3 w))).setTag pkg (line + (t.1 : Int)) t.2) m

end Sys2Proof.Machine
end

