-- ==== Sys2Proof/Machine/AsmText.lean ====
section
/-! DEFINITION. Machine/AsmText.lean: the text of the assembly language: tokens, expressions, operands, guards and the parts of
a statement (R125, R127, R128, R132, R135). -/

namespace Sys2Proof.Machine

open Sys2Proof Sys2Proof.Tern

/-- An identifier as it is written. -/
abbrev Name := List Char

/-- A word of the language, in capitals: mnemonics, suffixes, register names and directives are case-insensitive (R125). -/
def upperOf (s : Name) : String := String.ofList (s.map Char.toUpper)

/-- A token of an operand list. -/
inductive Tok
  | name (s : Name) | num (n : Int) | mark (c : Char)
  deriving DecidableEq, Repr

/-! ### Characters and tokens (R5, R125, R132) -/

def startsName (c : Char) : Bool := c.isAlpha || c == '_'
def inName (c : Char) : Bool := c.isAlphanum || c == '_' || c == '.'
def isBlank (c : Char) : Bool := c == ' ' || c == '\t' || c == '\r'
def isTritChar (c : Char) : Bool := c == '-' || c == '0' || c == '+'

/-- The value of a trit string, most significant trit first (R5). -/
def tritValue (s : List Char) : Int := s.foldl (fun v c => 3 * v + (if c = '+' then 1 else if c = '-' then -1 else 0)) 0
/-- The value of decimal digits. -/
def digitValue (s : List Char) : Int := s.foldl (fun v c => 10 * v + ((c.toNat : Int) - 48)) 0

/-- A line without its comment (R125). -/
def stripComment : List Char → List Char
  | [] => []
  | ';' :: _ => []
  | '/' :: '/' :: _ => []
  | c :: r => c :: stripComment r

/-- A number does not run into a name. -/
def numberEnds (r : List Char) : Bool := match r with | c :: _ => !inName c || c == '.' | [] => true

/-- The tokens of an operand list; none where a character or a number is malformed. -/
def tokens : Nat → List Char → Option (List Tok)
  | 0, l => if l.isEmpty then some [] else none
  | _ + 1, [] => some []
  | n + 1, c :: r =>
    if isBlank c then tokens n r
    else if startsName c then
      (tokens n (r.dropWhile inName)).map fun t => .name (c :: r.takeWhile inName) :: t
    else if c = '0' ∧ r.head? = some 't' then
      let s := r.drop 1
      let ds := s.takeWhile isTritChar
      let rest := s.dropWhile isTritChar
      if ds.isEmpty || !numberEnds rest then none else (tokens n rest).map fun t => .num (tritValue ds) :: t
    else if c.isDigit then
      let rest := r.dropWhile Char.isDigit
      if numberEnds rest then (tokens n rest).map fun t => .num (digitValue (c :: r.takeWhile Char.isDigit)) :: t else none
    else if [',', ':', '(', ')', '[', ']', '+', '-', '*', '&', '|', '=', '.'].contains c then
      (tokens n r).map fun t => .mark c :: t
    else none

/-- The tokens of a text. -/
def tokensOf (s : List Char) : Option (List Tok) := tokens (s.length + 1) s

/-! ### Expressions (R132, R135) -/

/-- An expression: literals, symbols, the address of the statement, arithmetic; and the operators of selectors. -/
inductive Expr
  | lit (n : Int) | sym (s : Name) | here
  | add (a b : Expr) | sub (a b : Expr) | mul (a b : Expr) | neg (a : Expr)
  | cmp (a b : Expr) | least (a b : Expr) | most (a b : Expr)
  deriving DecidableEq, Repr

/-- Binding strength of a binary operator: | least, then &, then + and -, then *. -/
def strength (c : Char) : Nat := if c = '|' then 1 else if c = '&' then 2 else if c = '+' ∨ c = '-' then 3 else if c = '*' then 4 else 0

/-- Join two expressions by an operator. -/
def joinExpr (c : Char) (a b : Expr) : Expr :=
  if c = '|' then .most a b else if c = '&' then .least a b else if c = '+' then .add a b else if c = '-' then .sub a b else .mul a b

/-- Read an expression whose operators bind at least as strongly as p, and give the tokens that follow it. A minus before a number
is the sign of a literal. The two modes are: an operand (none), or a tail after a left operand. -/
def readExpr : Nat → Nat → Option Expr → List Tok → Option (Expr × List Tok)
  | 0, _, _, _ => none
  | n + 1, p, some a, .mark c :: r =>
    if strength c = 0 ∨ strength c < p then some (a, .mark c :: r)
    else match readExpr n (strength c + 1) none r with
      | some (b, r2) => readExpr n p (some (joinExpr c a b)) r2
      | none => none
  | _ + 1, _, some a, r => some (a, r)
  | n + 1, p, none, ts =>
    let first : Option (Expr × List Tok) := match ts with
      | .num v :: r => some (.lit v, r)
      | .mark '-' :: .num v :: r => some (.lit (-v), r)
      | .mark '+' :: .num v :: r => some (.lit v, r)
      | .mark '-' :: r => (readExpr n 5 none r).map fun x => (.neg x.1, x.2)
      | .mark '.' :: r => some (.here, r)
      | .mark '(' :: r => match readExpr n 1 none r with
        | some (a, .mark ')' :: r2) => some (a, r2)
        | _ => none
      | .name s :: .mark '(' :: r =>
        if s = ['c', 'm', 'p'] then match readExpr n 1 none r with
          | some (a, .mark ',' :: r2) => match readExpr n 1 none r2 with
            | some (b, .mark ')' :: r3) => some (.cmp a b, r3)
            | _ => none
          | _ => none
        else none
      | .name s :: r => some (.sym s, r)
      | _ => none
    match first with
    | some (a, r) => readExpr n p (some a) r
    | none => none

/-- An expression at the start of a token list. -/
def exprAt (ts : List Tok) : Option (Expr × List Tok) := readExpr (2 * ts.length + 2) 1 none ts

/-- A whole token list as one expression. -/
def exprOf (ts : List Tok) : Option Expr := match exprAt ts with | some (e, []) => some e | _ => none

/-- What a value rests on (R441): nothing, a difference of labels, one label of a section, or another use of a label. -/
inductive Rests | const | diff | label (sec : Int) | other
  deriving DecidableEq, Repr

/-- A value: its number over the offsets of its labels, how often it counts the base of .data and that of .const (none: in no
fixed number), and what it rests on as a data operand. A label of .text is its word index (R132); the address of a data section
stands in no file. -/
structure AsmVal where
  (n : Int) (bases : Option (Int × Int)) (on : Rests)
  deriving DecidableEq, Repr

def AsmVal.lit (n : Int) : AsmVal := ⟨n, some (0, 0), .const⟩
/-- An offset in a section. -/
def AsmVal.place (sec off : Int) : AsmVal :=
  ⟨off, if sec = 1 then some (0, 0) else if sec = 0 then some (1, 0) else if sec = -1 then some (0, 1) else none, .label sec⟩
/-- A value times a number. -/
def AsmVal.times (k : Int) (a : AsmVal) : AsmVal :=
  ⟨k * a.n, a.bases.map fun b => (k * b.1, k * b.2), if k = 1 then a.on else if a.on = .const then .const else if k = -1 ∧ a.on = .diff then .diff else .other⟩
def AsmVal.plus (a b : AsmVal) : AsmVal :=
  ⟨a.n + b.n, (match a.bases, b.bases with | some x, some y => some (x.1 + y.1, x.2 + y.2) | _, _ => none), match a.on, b.on with
  | .const, o => o
  | o, .const => o
  | .diff, .diff => .diff
  | .diff, .label k => .label k
  | .label k, .diff => .label k
  | _, _ => .other⟩
def AsmVal.minus (a b : AsmVal) : AsmVal := { a.plus (b.times (-1)) with on := match a.on, b.on with
  | o, .const => o
  | .const, .diff => .diff
  | .diff, .diff => .diff
  | .label x, .diff => .label x
  | .label x, .label y => if x = y then .diff else .other
  | _, _ => .other }
/-- A product: a number when one factor counts no base. -/
def AsmVal.mult (a b : AsmVal) : AsmVal :=
  let on := if a.on = .const ∧ b.on = .const then .const else .other
  if a.bases = some (0, 0) then { b.times a.n with on := on } else if b.bases = some (0, 0) then { a.times b.n with on := on } else ⟨0, none, .other⟩

/-- Evaluate an expression exactly: symbols as section and offset, and the statement's own section and offset. -/
def evalExpr (syms : List (Name × Int × Int)) (at_ : Int × Int) : Expr → Option AsmVal
  | .lit n => some (.lit n)
  | .sym s => (syms.lookup s).map fun x => .place x.1 x.2
  | .here => some (.place at_.1 at_.2)
  | .add a b => match evalExpr syms at_ a, evalExpr syms at_ b with | some x, some y => some (x.plus y) | _, _ => none
  | .sub a b => match evalExpr syms at_ a, evalExpr syms at_ b with | some x, some y => some (x.minus y) | _, _ => none
  | .mul a b => match evalExpr syms at_ a, evalExpr syms at_ b with | some x, some y => some (x.mult y) | _, _ => none
  | .neg a => (evalExpr syms at_ a).map fun x => x.times (-1)
  | _ => none

/-- The number of a value that counts no data section's address (R132). -/
def AsmVal.number (v : AsmVal) : Option Int := if v.bases = some (0, 0) then some v.n else none

/-- The tokens of a selector, operands before their operator; none for what R135 does not list (R320, R135). -/
def selectorTokens : Expr → Option (List Int)
  | .lit n => if canon n 24 then some [n + pow3 24] else none
  | .sym s => (["BAYS", "CORES", "SCRATCH", "MACROS", "SLOTS", "LINKDEPTH", "LEVEL"].idxOf? (String.ofList s)).map fun i =>
      [(i : Int) + 1 + 2 * pow3 24]
  | .neg a => (selectorTokens a).map fun x => x ++ [2 + 3 * pow3 24]
  | .cmp a b => match selectorTokens a, selectorTokens b with | some x, some y => some (x ++ y ++ [1 + 3 * pow3 24]) | _, _ => none
  | .least a b => match selectorTokens a, selectorTokens b with | some x, some y => some (x ++ y ++ [3 + 3 * pow3 24]) | _, _ => none
  | .most a b => match selectorTokens a, selectorTokens b with | some x, some y => some (x ++ y ++ [4 + 3 * pow3 24]) | _, _ => none
  | _ => none

/-! ### Registers and operands (R127) -/

/-- A register name. -/
inductive RegName | v (n : Nat) | g (n : Nat) | x (n : Nat) | p (n : Nat) | q (n : Nat) | s (r : SReg)
  deriving DecidableEq, Repr

/-- The names of the special and trap registers (R404). -/
def sregNames : List (String × SReg) :=
  [("S.LANE", .lane), ("S.DEPTH", .depth), ("S.LIVE", .live), ("S.WARP", .warp), ("S.GANG", .gang), ("S.CORE", .core), ("S.BAY", .bay),
   ("S.SPILL", .spill), ("S.FLAGS", .flags), ("S.GTIME", .gtime), ("S.GTIMEH", .gtimeh), ("S.COMMIT", .commit), ("T.CAUSE", .tcause),
   ("T.LANES", .tlanes), ("T.LEVEL", .tlevel), ("T.INFO", .tinfo), ("T.ADDR", .taddr), ("T.ADDRH", .taddrh), ("T.EPC", .tepc),
   ("T.EPCH", .tepch), ("T.DEPTH", .tdepth), ("T.STATE", .tstate), ("T.K0", .tk0), ("T.K1", .tk1), ("T.K2", .tk2)]

/-- A register number as it is written: decimal, with no leading zero. -/
def regNumber (ds : List Char) : Option Nat :=
  if ds.isEmpty || !ds.all Char.isDigit || (ds.head? == some '0' && decide (1 < ds.length)) then none else some (digitValue ds).toNat

/-- The register that an identifier spells (R127). -/
def regOf (s : Name) : Option RegName :=
  match s with
  | [] => none
  | c :: ds =>
    let k := c.toUpper
    match regNumber ds with
    | some n =>
      if k = 'V' ∧ n ≤ 80 then some (.v n) else if k = 'G' ∧ n ≤ 26 then some (.g n)
      else if k = 'X' ∧ 1 ≤ n ∧ n ≤ 3 then some (.x n) else if k = 'P' ∧ n ≤ 8 then some (.p n)
      else if k = 'Q' ∧ n ≤ 8 then some (.q n) else none
    | none => (sregNames.lookup (upperOf s)).map .s

/-- Whether a name spells a register as the tables write it. Register names are read in either case, symbols as they are written, so a
symbol may differ from a register's name in case alone, as p1 does in the spec's own listing; where it is defined, an operand that
is that name is the symbol (R125; DEDUCED, log entry 114). -/
def spellsReg (s : Name) : Bool := (regOf s).isSome && s == s.map Char.toUpper

/-- An operand over a type of numbers: a register, a register's name that a symbol may hold, a pair, no write-back, a memory address, one whose
lane offset is a register's name that a symbol may hold (sym: the offset as an expression), a read count, a number. -/
inductive Opnd (α : Type)
  | reg (r : RegName)
  | named (r : RegName) (e : α)
  | pair (r t : RegName)
  | skip
  | addr (r t : RegName) (off : Option (RegName × Nat)) (e : Option α)
  | addrNamed (r t : RegName) (off : RegName × Nat) (e : Option α) (sym : α)
  | rc (e : α)
  | num (e : α)
  deriving DecidableEq, Repr

/-- The scale k of a factor (R127). -/
def scaleOf (s : Int) : Option Nat := [(1 : Int), 3, 9, 27, 81].idxOf? s

/-- The end of an address: nothing, or an expression. -/
def addrEnd (ts : List Tok) : Option (Option Expr × List Tok) :=
  match ts with
  | .mark ']' :: r => some (none, r)
  | _ =>
    let e : Option (Expr × List Tok) := match ts with
      | .mark '+' :: r => exprAt r
      | .mark '-' :: _ => exprAt ts
      | _ => none
    match e with
    | some (e, .mark ']' :: r) => some (some e, r)
    | _ => none

/-- A lane offset's factor and what follows it; without a factor the scale is 1. -/
def laneFactor (ts : List Tok) : Option (Nat × List Tok) := match ts with
  | .mark '*' :: .num k :: r => (scaleOf k).map fun k => (k, r)
  | .mark '*' :: _ => none
  | r => some (0, r)

/-- The rest of an address after its base: a lane offset with its scale, and an expression. A lane offset without a factor has
scale 1, and the expression may follow a minus, which is its first sign: R127 shows + Vo*s and + e alone (DESIGN CHOICE, log entry 115). A name
that a symbol may hold is read both ways (log entry 114). -/
def readAddr (r t : RegName) (ts : List Tok) : Option (Opnd Expr × List Tok) :=
  let plain := (addrEnd ts).map fun x => (Opnd.addr r t none x.1, x.2)
  match ts with
  | .mark '+' :: .name s :: rest => match regOf s with
    | none => plain
    | some o => match laneFactor rest with
      | none => if spellsReg s then none else plain
      | some (k, rest2) =>
        let lane := addrEnd rest2
        if spellsReg s then lane.map fun x => (.addr r t (some (o, k)) x.1, x.2)
        else match lane, addrEnd ts with
          | some x, some (some e, _) => some (.addrNamed r t (o, k) x.1 e, x.2)
          | _, _ => plain
  | _ => plain

/-- One operand at the start of a token list. A register's name that a symbol may hold begins an expression where an operator follows. -/
def readOpnd (ts : List Tok) : Option (Opnd Expr × List Tok) :=
  match ts with
  | .mark '[' :: .name a :: .mark ':' :: .name b :: r => match regOf a, regOf b with
    | some x, some y => readAddr x y r
    | _, _ => none
  | .name s :: r =>
    if s = ['_'] then some (.skip, r)
    else match regOf s with
      | some x => match r with
        | .mark ':' :: .name t :: r2 => (regOf t).map fun y => (.pair x y, r2)
        | _ =>
          if spellsReg s then some (.reg x, r)
          else match exprAt ts with
            | some (.sym _, r2) => some (.named x (.sym s), r2)
            | some (e, r2) => some (.num e, r2)
            | none => none
      | none =>
        match upperOf s, r with
        | "RC", .mark '=' :: r2 => (exprAt r2).map fun e => (.rc e.1, e.2)
        | _, _ => (exprAt ts).map fun e => (.num e.1, e.2)
  | _ => (exprAt ts).map fun e => (.num e.1, e.2)

/-- Operands separated by commas. -/
def readOpnds : Nat → List Tok → Option (List (Opnd Expr))
  | 0, _ => none
  | n + 1, ts => match readOpnd ts with
    | some (o, []) => some [o]
    | some (o, .mark ',' :: r) => (readOpnds n r).map fun l => o :: l
    | _ => none

/-- The operand list of a statement. -/
def opndsOf (ts : List Tok) : Option (List (Opnd Expr)) := if ts.isEmpty then some [] else readOpnds (ts.length + 1) ts

/-- Evaluate the numbers of an operand. -/
def Opnd.eval (f : Expr → Option AsmVal) : Opnd Expr → Option (Opnd AsmVal)
  | .reg r => some (.reg r)
  | .named r e => match f e with | some v => some (.num v) | none => some (.reg r)
  | .pair r t => some (.pair r t)
  | .skip => some .skip
  | .addr r t o none => some (.addr r t o none)
  | .addr r t o (some e) => (f e).map fun v => .addr r t o (some v)
  | .addrNamed r t o e y => match f y, e with
    | some v, _ => some (.addr r t none (some v))
    | none, none => some (.addr r t (some o) none)
    | none, some e => (f e).map fun v => .addr r t (some o) (some v)
  | .rc e => (f e).map .rc
  | .num e => (f e).map .num

/-! ### Statements (R125, R128, R131) -/

def trimLeft (s : List Char) : List Char := s.dropWhile isBlank
def trim (s : List Char) : List Char := (trimLeft (trimLeft s).reverse).reverse

/-- A guard as it is written: the predicate and its sense; none for the sense of a half that names only its predicate. -/
structure Guard where
  (group : Bool) (pred : Nat) (sense : Option Sense)
  deriving DecidableEq, Repr

/-- The sense of a string (R128): its characters in any order, each at most once. -/
def senseOfChars (s : List Char) : Option Sense :=
  let n (c : Char) := s.count c
  if s = ['*'] then some .always
  else if s.any (fun c => !isTritChar c) || decide (1 < n '+') || decide (1 < n '0') || decide (1 < n '-') then none
  else match n '+', n '0', n '-' with
    | 1, 0, 0 => some .pos | 0, 1, 0 => some .zero | 0, 0, 1 => some .neg
    | 1, 1, 0 => some .posZero | 1, 0, 1 => some .posNeg | 0, 1, 1 => some .zeroNeg
    | _, _, _ => none

/-- The text between the parentheses of a guard. -/
def guardOf (s : List Char) : Option Guard :=
  let p := s.takeWhile fun c => c != '.'
  let sense : Option (Option Sense) := match s.dropWhile fun c => c != '.' with
    | [] => some none
    | _ :: t => (senseOfChars t).map some
  match regOf p, sense with
  | some (.p n), some x => some ⟨false, n, x⟩
  | some (.q n), some x => some ⟨true, n, x⟩
  | _, _ => none

/-- One instruction as it is written: guard, mnemonic with suffixes, operands. -/
structure Written where
  (guard : Option Guard) (words : List String) (ops : List (Opnd Expr))
  deriving DecidableEq, Repr

/-- The parts of a name between its dots. -/
def dotParts : List Char → List Char → List String
  | [], acc => [upperOf acc.reverse]
  | '.' :: r, acc => upperOf acc.reverse :: dotParts r []
  | c :: r, acc => dotParts r (c :: acc)

/-- Read an instruction. -/
def writtenOf (text : List Char) : Option Written :=
  let s := trim text
  let g : Option (Option Guard × List Char) := match s with
    | '(' :: r => match r.dropWhile fun c => c != ')' with
      | _ :: rest => (guardOf (trim (r.takeWhile fun c => c != ')'))).map fun x => (some x, trimLeft rest)
      | [] => none
    | _ => some (none, s)
  match g with
  | none => none
  | some (g, r) => match r with
    | c :: _ =>
      if startsName c then match tokensOf (r.dropWhile inName) with
        | some ts => (opndsOf ts).map fun o => ⟨g, dotParts (r.takeWhile inName) [], o⟩
        | none => none
      else none
    | [] => none

/-- The text before and after the bar pair that joins two halves. -/
def splitBars : List Char → List Char → Option (List Char × List Char)
  | [], _ => none
  | '|' :: '|' :: r, acc => some (acc.reverse, r)
  | c :: r, acc => splitBars r (c :: acc)

/-- A statement: nothing, a directive with its tokens, an instruction, or two halves. -/
inductive Stmt
  | empty
  | directive (d : String) (ts : List Tok)
  | word (w : Written)
  | halves (a b : Written)
  deriving DecidableEq, Repr

/-- Read a line: its label, if any, and its statement (R125). -/
def lineOfText (text : List Char) : Option (Option Name × Stmt) :=
  let s := trim (stripComment text)
  let head : Option Name × List Char :=
    match s with
    | c :: _ =>
      if startsName c then match trimLeft (s.dropWhile inName) with
        | ':' :: rest => (some (s.takeWhile inName), trimLeft rest)
        | _ => (none, s)
      else (none, s)
    | [] => (none, s)
  let body : Option Stmt := match head.2 with
    | [] => some .empty
    | '.' :: r => match r with
      | c :: _ => if startsName c then (tokensOf (r.dropWhile inName)).map fun ts => .directive (upperOf (r.takeWhile inName)) ts else none
      | [] => none
    | s => match splitBars s [] with
      | some (a, b) => match writtenOf a, writtenOf b with
        | some x, some y => some (.halves x y)
        | _, _ => none
      | none => (writtenOf s).map .word
  body.map fun b => (head.1, b)

end Sys2Proof.Machine
end

