-- ==== Sys2Proof/Machine/AsmWords.lean ====
section
/-! DEFINITION. Machine/AsmWords.lean: from a written instruction to the instruction that it encodes (R126 to R131 and the
assembly forms of the instruction reference). -/

namespace Sys2Proof.Machine

open Sys2Proof Sys2Proof.Tern

/-! ### Suffixes (R129) -/

/-- The fields that suffixes set. -/
inductive Fld | ty | sat | te | fzi | fzo | sc | rc | ts | det | op | flt | scope | kind | sel | item | hint | group
  deriving DecidableEq, Repr

/-- A suffix with the field and the value that it sets. -/
abbrev Sfx := String × Fld × Int

/-- The values that the suffixes of a statement give the fields; 0 for a field that none names (R129). -/
abbrev Fields := List (Fld × Int)
def Fields.get (f : Fields) (x : Fld) : Int := (f.lookup x).getD 0
def Fields.has (f : Fields) (x : Fld) : Bool := (f.lookup x).isSome

def sfxInt : List Sfx := [("T", .ty, -1), ("W", .ty, 0), ("D", .ty, 1)]
def sfxWD : List Sfx := [("W", .ty, 0), ("D", .ty, 1)]
def sfxW : List Sfx := [("W", .ty, 0)]
def sfxFloat : List Sfx := [("F9", .ty, -1), ("F27", .ty, 0)]
def sfxFloat3 : List Sfx := [("F9", .ty, -3), ("F27", .ty, 3)]
def sfxSat : List Sfx := [("WRAP", .sat, -1), ("SAT", .sat, 1)]
def sfxTe : List Sfx := [("TE", .te, 1), ("TEX", .te, -1)]
def sfxFlush : List Sfx := [("FZI", .fzi, 1), ("FZO", .fzo, 1)]
def sfxSc : List Sfx := [("SC", .sc, 1)]
def sfxLoad : List Sfx := [("RC", .rc, 1), ("TS", .ts, 1)]
def sfxFold : List Sfx := [("ADD", .op, 0), ("MIN", .op, -1), ("MAX", .op, 1)]
def sfxAtom : List Sfx := sfxFold ++ [("XCHG", .op, 2), ("CAS", .op, 3), ("TBIN", .op, -2)]
def sfxScope : List Sfx :=
  [("WARP", .scope, -4), ("GANG", .scope, -3), ("CORE", .scope, -2), ("PAIR", .scope, -1), ("DIE", .scope, 0), ("PKG", .scope, 1),
   ("DOMAIN", .scope, 2), ("SYS", .scope, 3)]
def sfxKind : List Sfx := [("ACQ", .kind, -1), ("FULL", .kind, 0), ("REL", .kind, 1)]
def sfxCount : List Sfx := [("POS", .sel, 1), ("ZER", .sel, 0), ("NEG", .sel, -1)]
def sfxItem : List Sfx := [("PC", .item, 0), ("DEPTH", .item, 1), ("LINK", .item, -1)]
def sfxHint : List Sfx := [("SELF", .hint, 1), ("PARTNER", .hint, -1)]
def sfxResume : List Sfx := [("LANE", .scope, -1), ("WARP", .scope, 0), ("GANG", .scope, 1), ("LAUNCH", .scope, 2)]
def sfxPlane : List Sfx := [("TI1P", .ty, -1), ("TI3P", .ty, 0), ("TI9P", .ty, 1)]
/-- The full group-wide form. -/
def sfxGroup : List Sfx := [("GW", .group, 1)]

/-- The fields that a list of suffixes sets: each suffix one of the mnemonic's, each field once, the type first (R129, R137). -/
def fieldsOf (allowed : List Sfx) : Bool → List String → Option Fields
  | _, [] => some []
  | first, s :: r => match allowed.lookup s, fieldsOf allowed false r with
    | some x, some f => if f.has x.1 || (x.1 == .ty && !first) then none else some (x :: f)
    | _, _ => none

/-! ### Operands (R126, R127) -/

/-- An evaluated operand. -/
abbrev Arg := Opnd AsmVal

/-- A register destination; a double as a pair, none for write-back suppression. -/
def argDst (dbl : Bool) : Arg → Option Dst
  | .skip => some .latch
  | .reg (.v n) => if dbl then none else some (.v n)
  | .reg (.g n) => if dbl then none else some (.g n)
  | .pair (.v n) (.v m) => if dbl && m == n + 1 then some (.v n) else none
  | .pair (.g n) (.g m) => if dbl && m == n + 1 then some (.g n) else none
  | _ => none
/-- A source; a double as a pair or a latch. -/
def argSrc (dbl : Bool) : Arg → Option Src
  | .reg (.x n) => some (.x n)
  | .reg (.v n) => if dbl then none else some (.v n)
  | .reg (.g n) => if dbl then none else some (.g n)
  | .pair (.v n) (.v m) => if dbl && m == n + 1 then some (.v n) else none
  | .pair (.g n) (.g m) => if dbl && m == n + 1 then some (.g n) else none
  | _ => none
/-- A G register. -/
def argG : Arg → Option Nat | .reg (.g n) => some n | _ => none
/-- A G pair, by its even register. -/
def argGP : Arg → Option Nat | .pair (.g n) (.g m) => if m == n + 1 then some n else none | _ => none
/-- A G register, or a pair for a double. -/
def argGD (dbl : Bool) (a : Arg) : Option Nat := if dbl then argGP a else argG a
/-- The barrier address of a TB word: a G register, or the pair that a sequencer writes (R430). -/
def argGAny (a : Arg) : Option Nat := match argG a with | some n => some n | none => match argGP a with | some n => if n % 2 = 0 then some n else none | none => none
/-- A predicate operand (R402). -/
def argP : Arg → Option PSrc | .reg (.p n) => some (.p n) | .reg (.q n) => some (.q n) | _ => none
/-- A predicate destination: a P predicate in the vector form, a Q predicate in the group-wide form (R340). -/
def argPD (f : Form) : Arg → Option Nat
  | .reg (.p n) => if f = .vector then some n else none
  | .reg (.q n) => if f = .group then some n else none
  | _ => none
def argQ : Arg → Option Nat | .reg (.q n) => some n | _ => none
/-- A number. -/
def argN : Arg → Option Int | .num v => v.number | _ => none
def argNat (a : Arg) : Option Nat := match argN a with | some v => if 0 ≤ v then some v.toNat else none | none => none
/-- A source or a number. -/
def argSI (dbl : Bool) (a : Arg) : Option SrcImm := match argN a with | some v => some (.imm v) | none => (argSrc dbl a).map .src
/-- A lane offset: any V register, latch or G register (R341); V0 when it is omitted (R127). -/
def offSrc : Option (RegName × Nat) → Option (Src × Nat)
  | none => some (.v 0, 0)
  | some (.v n, k) => some (.v n, k)
  | some (.g n, k) => some (.g n, k)
  | some (.x n, k) => some (.x n, k)
  | some _ => none
def exprNumber : Option AsmVal → Option Int | none => some 0 | some v => v.number
/-- An address operand. -/
def argAddr : Arg → Option Addr
  | .addr (.g n) (.g m) o e => if m == n + 1 then match offSrc o, exprNumber e with
      | some x, some v => some ⟨n, x.1, x.2, v⟩
      | _, _ => none
    else none
  | _ => none
/-- An address without a lane offset (LDG, STG). -/
def argFlat : Arg → Option (Nat × Int)
  | .addr (.g n) (.g m) none e => if m == n + 1 then (exprNumber e).map fun v => (n, v) else none
  | _ => none
/-- An address without an expression (ATOM.TBIN). -/
def argBare : Arg → Option Addr | .addr r t o none => argAddr (.addr r t o none) | _ => none
/-- A read count (R129). -/
def argRc : Arg → Option Nat | .rc v => argNat (.num v) | _ => none
/-- The target of BRA and CALL: a label of .text as the words from the branch to it, or an immediate (R132, R353). -/
def argRel (at_ : Int) : Arg → Option Int
  | .num v => match v.on with | .label 1 => some (v.n - at_) | _ => v.number
  | _ => none

/-! ### Statements of one mnemonic -/

/-- A mnemonic: the suffixes it takes, the form that R112 marks, and the instruction that its fields and operands give at a word. -/
structure Mnem where
  (sfx : List Sfx) (form : Option Form) (build : Int → Hd → Fields → List Arg → Option Instr)

/-- Legal in both full forms. -/
def both (sfx : List Sfx) (b : Hd → Fields → List Arg → Option Instr) : Mnem := ⟨sfx ++ sfxGroup, none, fun _ => b⟩
/-- Legal in the vector form only. -/
def vecOnly (sfx : List Sfx) (b : Hd → Fields → List Arg → Option Instr) : Mnem := ⟨sfx, some .vector, fun _ => b⟩
/-- Legal in the group-wide form only; .GW may stand or not (R130). -/
def grpOnly (sfx : List Sfx) (b : Hd → Fields → List Arg → Option Instr) : Mnem := ⟨sfx ++ sfxGroup, some .group, fun _ => b⟩

def sfxArith : List Sfx := sfxInt ++ sfxSat ++ sfxTe
def sfxFl : List Sfx := sfxFloat ++ sfxFlush ++ sfxTe

def asmI1 (mk : I1 → Instr) : Mnem := both sfxArith fun h f ops => match ops with
  | [d, a] => do
    let ty := ityOf (f.get .ty)
    return mk ⟨h, ty, f.get .sat, f.get .te, ← argDst (ty == .d) d, ← argSrc (ty == .d) a⟩
  | _ => none
def asmI2 (mk : I2 → Instr) : Mnem := both sfxArith fun h f ops => match ops with
  | [d, a, b] => do
    let ty := ityOf (f.get .ty)
    return mk ⟨h, ty, f.get .sat, f.get .te, ← argDst (ty == .d) d, ← argSrc (ty == .d) a, ← argSI (ty == .d) b⟩
  | _ => none
def asmI3 (mk : I3 → Instr) : Mnem := both sfxArith fun h f ops => match ops with
  | [d, a, b, c] => do
    let ty := ityOf (f.get .ty)
    return mk ⟨h, ty, f.get .sat, f.get .te, ← argDst (ty == .d) d, ← argSrc (ty == .d) a, ← argSrc (ty == .d) b, ← argSrc (ty == .d) c⟩
  | _ => none
def asmF1 (mk : F1 → Instr) : Mnem := both sfxFl fun h f ops => match ops with
  | [d, a] => do return mk ⟨h, ftyOf (f.get .ty), f.get .fzi, f.get .fzo, f.get .te, ← argDst false d, ← argSrc false a⟩
  | _ => none
def asmF2 (mk : F2 → Instr) : Mnem := both sfxFl fun h f ops => match ops with
  | [d, a, b] => do
    return mk ⟨h, ftyOf (f.get .ty), f.get .fzi, f.get .fzo, f.get .te, ← argDst false d, ← argSrc false a, ← argSrc false b⟩
  | _ => none

/-- Class -- (R115, R342 to R344, R365, R399, R421). -/
def asmInteger : List (String × Mnem) := [
  ("ABS", asmI1 .abs), ("NEG", asmI1 .neg), ("SGN", asmI1 .sgn), ("TLZ", asmI1 .tlz),
  ("ADD", asmI2 .add), ("SUB", asmI2 .sub), ("MUL", asmI2 .mul), ("MULH", asmI2 .mulh), ("DIV", asmI2 .div), ("DIVZ", asmI2 .divz),
  ("MOD", asmI2 .mod), ("MIN", asmI2 .min), ("MAX", asmI2 .max), ("TSH", asmI2 .tsh), ("TROT", asmI2 .trot),
  ("MAD", asmI3 .mad), ("TSEL", asmI3 .tsel),
  ("TCNT", both (sfxArith ++ sfxCount) fun h f ops => match ops with
    | [d, a] => do
      let ty := ityOf (f.get .ty)
      return .tcnt ⟨h, ty, f.get .sat, f.get .te, f.get .sel, ← argDst (ty == .d) d, ← argSrc (ty == .d) a⟩
    | _ => none),
  ("TMAP", both sfxArith fun h f ops => match ops with
    | [d, a, m] => do
      let ty := ityOf (f.get .ty)
      return .tmap ⟨h, ty, f.get .sat, f.get .te, ← argDst (ty == .d) d, ← argSrc (ty == .d) a, ← argN m⟩
    | _ => none),
  ("TBIN", both sfxArith fun h f ops => match ops with
    | [d, a, b, m] => do
      let ty := ityOf (f.get .ty)
      return .tbin ⟨h, ty, f.get .sat, f.get .te, ← argDst (ty == .d) d, ← argSrc (ty == .d) a, ← argSrc (ty == .d) b, ← argN m⟩
    | _ => none)]

/-- Class -0 (R116, R370). -/
def asmFloating : List (String × Mnem) := [
  ("FADD", asmF2 .fadd), ("FSUB", asmF2 .fsub), ("FMUL", asmF2 .fmul), ("FDIV", asmF2 .fdiv), ("FMIN", asmF2 .fmin), ("FMAX", asmF2 .fmax),
  ("FNEG", asmF1 .fneg), ("FABS", asmF1 .fabs), ("FSQRT", asmF1 .fsqrt), ("FRCP", asmF1 .frcp), ("FRSQ", asmF1 .frsq), ("FEXP", asmF1 .fexp),
  ("FLOG", asmF1 .flog), ("FEXP3", asmF1 .fexp3), ("FLOG3", asmF1 .flog3), ("FTANH", asmF1 .ftanh), ("FCLS", asmF1 .fcls),
  ("FMA", both sfxFl fun h f ops => match ops with
    | [d, a, b, c] => do
      return .fma ⟨h, ftyOf (f.get .ty), f.get .fzi, f.get .fzo, f.get .te, ← argDst false d, ← argSrc false a, ← argSrc false b, ← argSrc false c⟩
    | _ => none),
  ("FSCL", both sfxFl fun h f ops => match ops with
    | [d, a, b] => do
      return .fscl ⟨h, ftyOf (f.get .ty), f.get .fzi, f.get .fzo, f.get .te, ← argDst false d, ← argSrc false a, ← argSI false b⟩
    | _ => none),
  ("FRND", both sfxFl fun h f ops => match ops with
    | [d, a, j] => do
      return .frnd ⟨h, ftyOf (f.get .ty), f.get .fzi, f.get .fzo, f.get .te, ← argDst false d, ← argSrc false a, ← argN j⟩
    | _ => none)]

def asmVRed (mk : VRed → Instr) : Mnem :=
  vecOnly (sfxInt ++ sfxFloat3 ++ sfxFold ++ sfxSat ++ sfxFlush ++ sfxTe) fun h f ops => match ops with
  | [d, a] => do
    let ty ← vtyOf (f.get .ty)
    let flt := ty == .f9 || ty == .f27
    if (flt && f.has .sat) || (!flt && (f.has .fzi || f.has .fzo)) then none
    else return mk ⟨h, ty, f.get .op, if flt then f.get .fzi else f.get .sat, f.get .fzo, f.get .te, ← argDst (ty == .d) d, ← argSrc (ty == .d) a⟩
  | _ => none
def asmPRed (mk : PRed → Instr) : Mnem := vecOnly (sfxW ++ sfxTe) fun h f ops => match ops with
  | [d, a] => do return mk ⟨h, f.get .te, ← argQ d, ← argP a⟩
  | _ => none

/-- Class -+ (R117, R350, R361, R380, R408, R417, R423, R434). -/
def asmCompare : List (String × Mnem) := [
  ("CMP", both (sfxInt ++ sfxSat ++ sfxTe) fun h f ops => match ops with
    | [d, a, b] => do
      let ty := ityOf (f.get .ty)
      return .cmp ⟨h, ty, f.get .sat, f.get .te, ← argPD h.form d, ← argSrc (ty == .d) a, ← argSI (ty == .d) b⟩
    | _ => none),
  ("FCMP", both (sfxFloat3 ++ [("FZI", .fzi, 1)] ++ sfxTe) fun h f ops => match ops with
    | [d, a, b, u] => do
      let ty ← if f.get .ty = 0 then none else some (if f.get .ty = -3 then FTy.f9 else .f27)
      return .fcmp ⟨h, ty, f.get .fzi, f.get .te, ← argPD h.form d, ← argSrc false a, ← argSrc false b, ← argN u⟩
    | _ => none),
  ("SEL", both (sfxWD ++ sfxSat ++ sfxTe) fun h f ops => match ops with
    | [d, a, b, c, p] => do
      let dbl := f.get .ty == 1
      return .sel ⟨h, dbl, f.get .sat, f.get .te, ← argDst dbl d, ← argSrc dbl a, ← argSrc dbl b, ← argSrc dbl c, ← argP p⟩
    | _ => none),
  ("PSET", both (sfxW ++ sfxTe) fun h f ops => match ops with
    | [d, a, j] => do return .pset ⟨h, f.get .te, ← argPD h.form d, ← argSrc false a, ← argN j⟩
    | _ => none),
  ("PTBL", both (sfxW ++ sfxTe) fun h f ops => match ops with
    | [d, a, b, m] => do return .ptbl ⟨h, f.get .te, ← argPD h.form d, ← argP a, ← argP b, ← argN m⟩
    | _ => none),
  ("PANY", asmPRed .pany), ("PALL", asmPRed .pall),
  ("PCNT", vecOnly (sfxW ++ sfxTe) fun h f ops => match ops with
    | [d, a, c] => do return .pcnt ⟨h, f.get .te, ← argDst false d, ← argP a, ← argN c⟩
    | _ => none),
  ("SHFL", vecOnly (sfxWD ++ sfxSat ++ sfxTe) fun h f ops => match ops with
    | [d, a, b, e] => do
      let dbl := f.get .ty == 1
      return .shfl ⟨h, dbl, f.get .sat, f.get .te, ← argDst dbl d, ← argSrc dbl a, ← argSrc false b, ← argN e⟩
    | _ => none),
  ("BCST", vecOnly (sfxWD ++ sfxSat ++ sfxTe) fun h f ops => match ops with
    | [d, a, l] => do
      let dbl := f.get .ty == 1
      return .bcst ⟨h, dbl, f.get .sat, f.get .te, ← argDst dbl d, ← argSrc dbl a, ← argN l⟩
    | _ => none),
  ("VRED", asmVRed .vred), ("VSCAN", asmVRed .vscan)]

/-- Data and read count of a load: rc=n stands exactly when .RC does (R129). -/
def loadRc (f : Fields) : List Arg → Option (Option Nat)
  | [] => if f.get .rc = 1 then none else some none
  | [c] => if f.get .rc = 1 then (argRc c).map some else none
  | _ => none
def asmFlush (mk : FlushA → Instr) : Mnem := vecOnly [] fun h _ ops => match ops with
  | [m] => do return mk ⟨h, ← argAddr m⟩
  | _ => none
def nearOf (h : Hd) (m : Arg) : Option Near := match argAddr m with
  | some a => if a.scale = 0 then some ⟨h, a.base, a.off, a.e⟩ else none
  | none => none

/-- Class 0- (R118, R345, R359, R382, R387, R391, R394, R395, R397, R410, R413, R425, R428, R429, R432). -/
def asmMemory : List (String × Mnem) := [
  ("LD", vecOnly (sfxInt ++ sfxSc ++ sfxLoad) fun h f ops => match ops with
    | d :: m :: r => do
      let w := widthOf (f.get .ty)
      return .ld ⟨h, w, f.get .sc == 1, ← loadRc f r, f.get .ts == 1, ← argDst (w == .double) d, ← argAddr m⟩
    | _ => none),
  ("LDS", vecOnly (sfxInt ++ sfxLoad) fun h f ops => match ops with
    | d :: m :: r => do
      let w := widthOf (f.get .ty)
      return .lds ⟨h, w, ← loadRc f r, f.get .ts == 1, ← argDst (w == .double) d, ← argAddr m⟩
    | _ => none),
  ("ST", vecOnly (sfxInt ++ sfxSc) fun h f ops => match ops with
    | [m, c] => do
      let w := widthOf (f.get .ty)
      return .st ⟨h, w, f.get .sc == 1, ← argAddr m, ← argSrc (w == .double) c⟩
    | _ => none),
  ("STS", vecOnly sfxInt fun h f ops => match ops with
    | [m, c] => do
      let w := widthOf (f.get .ty)
      return .sts ⟨h, w, ← argAddr m, ← argSrc (w == .double) c⟩
    | _ => none),
  ("LDG", grpOnly sfxWD fun h f ops => match ops with
    | [d, m] => do
      let a ← argFlat m
      return .ldg ⟨h, f.get .ty == 1, ← argGD (f.get .ty == 1) d, a.1, a.2⟩
    | _ => none),
  ("STG", grpOnly sfxWD fun h f ops => match ops with
    | [m, c] => do
      let a ← argFlat m
      return .stg ⟨h, f.get .ty == 1, ← argGD (f.get .ty == 1) c, a.1, a.2⟩
    | _ => none),
  ("ATOM", vecOnly (sfxWD ++ sfxAtom ++ sfxSc) fun h f ops =>
    let dbl := f.get .ty == 1
    let v := f.get .op
    match ops with
    | [d, m, c] => do
      let o ← if v = 0 then some AtomOp.add else if v = -1 then some .min else if v = 1 then some .max else if v = 2 then some .xchg
        else if v = 3 then some .cas else none
      return .atom ⟨h, dbl, f.get .sc == 1, o, ← argDst dbl d, ← argAddr m, ← argSrc dbl c⟩
    | [d, m, c, t] => do
      if v ≠ -2 then none
      else return .atom ⟨h, dbl, f.get .sc == 1, .tbin (← argN t), ← argDst dbl d, ← argBare m, ← argSrc dbl c⟩
    | _ => none),
  ("RED", vecOnly (sfxInt ++ sfxFold ++ [("FLT", .flt, -1), ("DET", .det, 1)]) fun h f ops =>
    let w := widthOf (f.get .ty)
    match ops with
    | [m, c] => do
      if f.get .det = 1 then none
      else return .red ⟨h, w, none, f.get .op, f.get .flt == -1, ← argAddr m, ← argSrc (w == .double) c⟩
    | [m, c, g] => do
      if f.get .det ≠ 1 then none
      else return .red ⟨h, w, some (← argG g), f.get .op, f.get .flt == -1, ← argAddr m, ← argSrc (w == .double) c⟩
    | _ => none),
  ("LDMC", grpOnly [] fun h _ ops => match ops with
    | [a, b] => do return .ldmc ⟨h, ← argG a, ← argG b⟩
    | _ => none),
  ("PREF", vecOnly [] fun h _ ops => match ops with
    | [m, c] => do return .pref ⟨h, ← argRc c, ← argAddr m⟩
    | _ => none),
  ("FENCE", both (sfxScope ++ sfxKind) fun h f ops => if ops.isEmpty then some (.fence ⟨h, f.get .scope, f.get .kind⟩) else none),
  ("LDTAG", vecOnly [] fun h _ ops => match ops with
    | [d, m] => do return .ldtag ⟨h, ← argDst false d, ← argAddr m⟩
    | _ => none),
  ("STTAG", vecOnly [] fun h _ ops => match ops with
    | [m, c] => do return .sttag ⟨h, ← argSrc false c, ← argAddr m⟩
    | _ => none),
  ("CFLUSH", asmFlush .cflush), ("CINV", asmFlush .cinv),
  ("ICINV", both [] fun h _ ops => match ops with
    | [m] => (nearOf h m).map .icinv
    | _ => none),
  ("TOUCH", vecOnly [] fun h _ ops => match ops with
    | [m] => (nearOf h m).map .touch
    | _ => none),
  ("ISYNC", both [] fun h _ ops => if ops.isEmpty then some (.isync h) else none)]

/-- The conversions of CVT by destination and source format (R119, R363). -/
def cvtNames : List ((String × String) × CvtOp) :=
  [(("TF27", "TF9"), .f9f27), (("TF9", "TF27"), .f27f9), (("TF27", "TW"), .wf27), (("TW", "TF27"), .f27w), (("TF9", "TW"), .wf9),
   (("TW", "TF9"), .f9w), (("TF9", "TI9"), .i9f9), (("TI9", "TF9"), .f9i9), (("TI9", "TW"), .wi9)]
def bfmtNames : List (String × BFmt) := [("B32", .b32), ("B16", .b16), ("BF16", .bf16), ("I8", .i8), ("I16", .i16), ("I32", .i32)]
def tfmtNames : List (String × Int) := [("TF9", -1), ("TW", 0), ("TF27", 1)]
/-- CVT names two formats, destination first (R129). -/
def asmCvt (d s : String) : Option Mnem := (cvtNames.lookup (d, s)).map fun o =>
  both (sfxSat ++ sfxFlush ++ sfxTe) fun h f ops => match ops with
    | [x, a] => do return .cvt ⟨h, o, f.get .sat, f.get .fzi, f.get .fzo, f.get .te, ← argDst false x, ← argSrc false a⟩
    | _ => none
/-- BCVT names two formats, destination first (R129, R351). -/
def asmBcvt (d s : String) : Option Mnem :=
  let mk (b : BFmt) (t : Int) (toT : Bool) : Mnem :=
    let flt := b == .b32 || b == .b16 || b == .bf16
    let wide := b == .b32 || b == .i32
    both ((if flt then [("FZO", .fzo, 1)] else sfxSat) ++ sfxTe) fun h f ops => match ops with
      | [x, a] => do
        return .bcvt ⟨h, b, toT, t, if flt then f.get .fzo else f.get .sat, f.get .te, ← argDst (wide && !toT) x, ← argSrc (wide && toT) a⟩
      | _ => none
  match bfmtNames.lookup d, tfmtNames.lookup s, tfmtNames.lookup d, bfmtNames.lookup s with
  | some b, some t, _, _ => some (mk b t false)
  | _, _, some t, some b => some (mk b t true)
  | _, _, _, _ => none
def asmPack (mk : PackA → Instr) : Mnem := vecOnly sfxPlane fun h f ops => match ops with
  | [d, a] => do return mk ⟨h, f.get .ty, ← argDst false d, ← argSrc false a⟩
  | _ => none

/-- Class 00 (R119, R401, R404, R407, R433). -/
def asmMoves : List (String × Mnem) := [
  ("MOV", both sfxWD fun h f ops => match ops with
    | [d, a] => do
      let dbl := f.get .ty == 1
      return .mov ⟨h, dbl, ← argDst dbl d, ← argSrc dbl a⟩
    | _ => none),
  ("MOVI", both [] fun h _ ops => match ops with
    | [d, i] => do return .movi ⟨h, ← argDst false d, ← argN i⟩
    | _ => none),
  ("MOVH", both [] fun h _ ops => match ops with
    | [d, i] => do return .movh ⟨h, ← argDst true d, ← argN i⟩
    | _ => none),
  ("MOVG", vecOnly [] fun h _ ops => match ops with
    | [d, a, l] => do return .movg ⟨h, ← argG d, ← argSrc false a, ← argN l⟩
    | _ => none),
  ("MOVS", both [] fun h _ ops => match ops with
    | [.reg (.s r), a] => do return .movs ⟨h, .write (← argSrc false a) r⟩
    | [d, .reg (.s r)] => do return .movs ⟨h, .read (← argDst false d) r⟩
    | _ => none),
  ("MOVC", both [] fun h _ ops => match ops with
    | [d, a] => do return .movc ⟨h, ← argDst false d, ← argP a⟩
    | _ => none),
  ("PACK", asmPack .pack), ("UNPACK", asmPack .unpack)]

def asmBranch (f : Option Form) (mk : BraA → Instr) : Mnem :=
  ⟨if f.isNone then sfxGroup else [], f, fun at_ h _ ops => match ops with
    | [t] => (argRel at_ t).map fun i => mk ⟨h, .rel i⟩
    | [a, i] => do return mk ⟨h, .reg (← argGP a) (← argN i)⟩
    | _ => none⟩
def asmJump (mk : JmpA → Instr) : Mnem := vecOnly [] fun h _ ops => match ops with
  | [a, i] => do return mk ⟨h, ← argSrc true a, ← argN i⟩
  | _ => none
def asmNone (m : (Hd → Fields → List Arg → Option Instr) → Mnem) (mk : Hd → Instr) : Mnem :=
  m fun h _ ops => if ops.isEmpty then some (mk h) else none

/-- Class 0+ (R120, R353, R356, R367, R388, R406, R415, R436, R440). -/
def asmControl : List (String × Mnem) := [
  ("BRA", asmBranch none .bra), ("CALL", asmBranch (some .vector) .call), ("JMPI", asmJump .jmpi), ("CALLI", asmJump .calli),
  ("RET", asmNone (vecOnly []) .ret), ("YLD", asmNone (vecOnly []) .yld), ("EXIT", asmNone (vecOnly []) .exit), ("NOP", asmNone (both []) .nop),
  ("WAITJ", vecOnly [] fun h _ ops => match ops with
    | [d, n] => do return .waitj ⟨h, ← argDst false d, ← argNat n⟩
    | _ => none)]

def asmBar (mk : BarA → Instr) : Mnem := vecOnly [] fun h _ ops => match ops with
  | [q, n] => do return mk ⟨h, ← argN q, ← argN n⟩
  | _ => none
def asmSn (mk : SnA → Instr) : Mnem := both [] fun h _ ops => match ops with
  | [k] => do return mk ⟨h, ← argN k⟩
  | _ => none
def asmSnGet (mk : SnGetA → Instr) : Mnem := both [] fun h _ ops => match ops with
  | [d, k] => do return mk ⟨h, ← argG d, ← argN k⟩
  | _ => none
def asmTb (mk : TbA → Instr) : Mnem := both [] fun h _ ops => match ops with
  | [a, b] => do return mk ⟨h, ← argGAny a, ← argG b, 0⟩
  | [a, b, e] => do return mk ⟨h, ← argGAny a, ← argG b, ← argN e⟩
  | _ => none

/-- Class +- (R121, R217, R348, R424, R430). -/
def asmSync : List (String × Mnem) := [
  ("SNA", asmSn .sna), ("SND", asmSn .snd), ("SNW", asmSnGet .snw), ("SNP", asmSnGet .snp),
  ("SNR", both (sfxFold ++ [("TBIN", .op, 3)]) fun h f ops => match ops with
    | [a, k] => do return .snr ⟨h, f.get .op, ← argG a, ← argN k⟩
    | _ => none),
  ("SNB", both [] fun h _ ops => match ops with
    | [a, k] => do return .snb ⟨h, ← argG a, ← argN k⟩
    | _ => none),
  ("TBINIT", asmTb .tbinit), ("TBARR", asmTb .tbarr), ("TBEXP", asmTb .tbexp), ("TBWAIT", asmTb .tbwait),
  ("TBTEST", both [] fun h _ ops => match ops with
    | [d, a, b] => do return .tbtest ⟨h, ← argG d, ← argGAny a, ← argG b, 0⟩
    | [d, a, b, e] => do return .tbtest ⟨h, ← argG d, ← argGAny a, ← argG b, ← argN e⟩
    | _ => none),
  ("SLEEPT", vecOnly [] fun h _ ops => match ops with
    | [a, e] => do return .sleept ⟨h, ← argSrc false a, ← argN e⟩
    | _ => none)]

/-- Class +0 (R122, R237, R251, R252, R418, R437). -/
def asmEngines : List (String × Mnem) := [
  ("WIN", grpOnly [] fun h _ ops => match ops with
    | [a, k] => do return .win ⟨h, ← argG a, ← argNat k⟩
    | _ => none),
  ("WINREL", grpOnly [] fun h _ ops => match ops with
    | [k] => do return .winrel ⟨h, ← argNat k⟩
    | _ => none),
  ("TASK", grpOnly sfxHint fun h f ops => match ops with
    | [d, a, i] => do return .task ⟨h, ← argG d, ← argG a, f.get .hint, ← argN i⟩
    | _ => none),
  ("TQRY", grpOnly [] fun h _ ops => match ops with
    | [d, a] => do return .tqry ⟨h, ← argG d, ← argG a⟩
    | _ => none),
  ("SEND", grpOnly [] fun h _ ops => match ops with
    | [a, b, p] => do return .send ⟨h, ← argG a, ← argG b, ← argNat p⟩
    | _ => none),
  ("RECV", grpOnly [] fun h _ ops => match ops with
    | [a, p] => do return .recv ⟨h, ← argG a, ← argNat p⟩
    | _ => none),
  ("XFST", grpOnly [] fun h _ ops => match ops with
    | [d, a, i] => do return .xfst ⟨h, ← argG d, ← argG a, ← argN i⟩
    | _ => none),
  ("XTAB", grpOnly [] fun h _ ops => match ops with
    | [d, a, i] => do return .xtab ⟨h, ← argG d, ← argGP a, ← argNat i⟩
    | _ => none)]

def asmImm (mk : ImmA → Instr) : Mnem := both [] fun h _ ops => match ops with
  | [i] => do return mk ⟨h, ← argN i⟩
  | _ => none
def asmUnit (mk : WUnitA → Instr) : Mnem := grpOnly [] fun h _ ops => match ops with
  | [d, b, u] => do return mk ⟨h, ← argG d, ← argG b, ← argNat u⟩
  | _ => none
def asmDbg (mk : DbgA → Instr) : Mnem := grpOnly [] fun h _ ops => match ops with
  | [d, b] => do return mk ⟨h, ← argG d, ← argG b⟩
  | _ => none
/-- The item of HRDP and HWRP: e is 0 but for .LINK (R306). -/
def hitemOf (f : Fields) (e : Int) : Option HItem :=
  if f.get .item = -1 then (if 0 ≤ e then some (.link e.toNat) else none)
  else if e ≠ 0 then none else some (if f.get .item = 0 then .pc else .depth)

/-- Class ++ (R122, R260, R281, R282, R286, R302, R309, R416). -/
def asmSystem : List (String × Mnem) := [
  ("LNCH", grpOnly [] fun h _ ops => match ops with
    | [d, a, i] => do return .lnch ⟨h, ← argG d, ← argGP a, ← argN i⟩
    | _ => none),
  ("ROLE", vecOnly [] fun h _ ops => match ops with
    | [a, n, c] => do
      let n ← argNat n
      if n % 9 ≠ 0 then none else return .role ⟨h, ← argGP a, n / 9, ← argN c⟩
    | _ => none),
  ("PREH", vecOnly [] fun h _ ops => match ops with
    | [a, i] => do return .preh ⟨h, ← argGP a, ← argN i⟩
    | _ => none),
  ("TRAP", asmImm .trap), ("BRK", asmImm .brk), ("RFT", asmNone (both []) .rft),
  ("WSET", grpOnly [] fun h _ ops => match ops with
    | [d, a, b, c, u] => do return .wset ⟨h, ← argG d, ← argG a, ← argG b, ← argG c, ← argNat u⟩
    | _ => none),
  ("WCLR", asmUnit .wclr), ("WRD", asmUnit .wrd), ("HLST", asmDbg .hlst), ("HSTEP", asmDbg .hstep),
  ("HRDV", grpOnly [] fun h _ ops => match ops with
    | [d, b, i] => do return .hrdv ⟨h, ← argG d, ← argG b, ← argNat i⟩
    | _ => none),
  ("HWRV", grpOnly [] fun h _ ops => match ops with
    | [d, a, b, i] => do return .hwrv ⟨h, ← argG d, ← argG a, ← argG b, ← argNat i⟩
    | _ => none),
  ("HRDP", grpOnly sfxItem fun h f ops => match ops with
    | [d, b, e] => do return .hrdp ⟨h, ← argG d, ← argG b, ← hitemOf f (← argN e)⟩
    | _ => none),
  ("HWRP", grpOnly sfxItem fun h f ops => match ops with
    | [d, a, b, e] => do return .hwrp ⟨h, ← argG d, ← argG a, ← argG b, ← hitemOf f (← argN e)⟩
    | _ => none),
  ("HRES", grpOnly sfxResume fun h f ops => match ops with
    | [d, b] => do return .hres ⟨h, f.get .scope, ← argG d, ← argG b⟩
    | _ => none)]

/-- A mnemonic with the suffixes that remain: one that a suffix selects, or one of a class. -/
def mnemOf : List String → Option (Mnem × List String)
  | "BAR" :: "A" :: r => some (asmBar .barA, r)
  | "BAR" :: "S" :: r => some (asmBar .barS, r)
  | "BAR" :: "D" :: r => some (asmBar .barD, r)
  | "BAR" :: "W" :: r => some (vecOnly [] fun h _ ops => (match ops with
      | [q] => do return .barW ⟨h, ← argN q⟩
      | _ => none), r)
  | "CVT" :: d :: s :: r => (asmCvt d s).map fun m => (m, r)
  | "BCVT" :: d :: s :: r => (asmBcvt d s).map fun m => (m, r)
  | m :: r => ((asmInteger ++ asmFloating ++ asmCompare ++ asmMemory ++ asmMoves ++ asmControl ++ asmSync ++ asmEngines ++ asmSystem).lookup m).map
      fun x => (x, r)
  | [] => none

/-- The head of a full statement: a vector statement names a P predicate, a group-wide one a Q predicate (R128, R130). -/
def guardHead (f : Form) : Option Guard → Option Hd
  | none => some ⟨f, 0, .always⟩
  | some g => match g.sense with
    | some s => if g.group == (f == .group) then some ⟨f, g.pred, s⟩ else none
    | none => none

/-- The instruction that a full statement encodes at a word of .text. -/
def fullOf (at_ : Int) (ev : Expr → Option AsmVal) (w : Written) : Option Instr := do
  let (m, sfx) ← mnemOf w.words
  let f ← fieldsOf m.sfx true sfx
  let form := m.form.getD (if f.get .group = 1 then .group else .vector)
  let h ← guardHead form w.guard
  let ops ← allSome (w.ops.map (Opnd.eval ev))
  m.build at_ h f ops

/-! ### Paired statements (R123, R124, R131) -/

/-- The mnemonics of the paired subset: with a source, with an immediate. -/
def pairNames : List (String × Option POp × Option POp) :=
  [("ADD", some .add, some .addi), ("SUB", some .sub, some .subi), ("MUL", some .mul, some .muli), ("MIN", some .min, some .mini),
   ("MAX", some .max, some .maxi), ("MOV", some .mov, none), ("MOVI", none, some .movi), ("NEG", some .neg, none), ("ABS", some .abs, none),
   ("TSH", some .tsh, some .tshi), ("FADD", some .fadd, none), ("FSUB", some .fsub, none), ("FMUL", some .fmul, none),
   ("FMIN", some .fmin, none), ("FMAX", some .fmax, none), ("FNEG", some .fneg, none), ("FABS", some .fabs, none)]
/-- The suffixes of a half. -/
def halfSfx (p : POp) : List Sfx := if p.isFloat then sfxFloat ++ sfxFlush else [("T", .ty, -1), ("W", .ty, 0)] ++ sfxSat
/-- A half's guard: a P predicate with the sense of +1 (R104, R131). -/
def halfPred : Option Guard → Option Nat
  | none => some 0
  | some g => if !g.group && (g.sense == none || g.sense == some .pos) then some g.pred else none

/-- One half of a paired statement. -/
def asmHalf (ev : Expr → Option AsmVal) (w : Written) : Option Half := do
  let p ← halfPred w.guard
  let ops ← allSome (w.ops.map (Opnd.eval ev))
  match w.words, ops with
  | m :: sfx, [d, a] =>
    let (withSrc, withImm) ← pairNames.lookup m
    let o ← match a with | .num _ => withImm | _ => withSrc
    let f ← fieldsOf (halfSfx o) true sfx
    if !f.has .ty then none
    else
      let s ← if o.usesSource then (argSrc false a).map some else some none
      let i ← if o.usesSource then some 0 else argN a
      return ⟨o, p, ← argDst false d, s, f.get .ty, if o.isFloat then f.get .fzi else f.get .sat, f.get .fzo, i⟩
  | _, _ => none

/-- The instruction of a statement at a word of .text, when its operands are ones its encoding admits. -/
def instrOf (at_ : Int) (ev : Expr → Option AsmVal) (s : Stmt) : Option Instr :=
  let i : Option Instr := match s with
    | .word w => fullOf at_ ev w
    | .halves a b => match asmHalf ev a, asmHalf ev b with
      | some x, some y => some (.pairedWord x y)
      | _, _ => none
    | _ => none
  match i with
  | some i => if i.wf then some i else none
  | none => none

end Sys2Proof.Machine
end

