-- ==== Sys2Proof/Machine/Assembler.lean ====
section
/-! DEFINITION. Machine/Assembler.lean: the assembler: sections, directives, kernels, relocations and the checks of R137 (R133 to
R137, R441, R447), and the Ranaitas object that it writes (R316 to R320). -/

namespace Sys2Proof.Machine

open Sys2Proof Sys2Proof.Tern

/-! ### What a source file holds -/

/-- A unit of a data section: its offset, its trytes, the address of its statement and its value. -/
structure DataUnit where
  (off : Int) (size : Nat) (stmt : Int) (e : Expr)
  deriving DecidableEq, Repr

/-- A data section under assembly: its length, units and tags, newest first, and the greatest alignment asked for. -/
structure DataSec where
  (used : Bool) (len : Int) (units : List DataUnit) (tags : List (Int × Tag)) (align : Int)
  deriving DecidableEq, Repr

/-- A statement of .text: its word index, whether a chain cannot reach it (R137), the allotment in force and the mode of its kernel. -/
structure TextStmt where
  (at_ : Int) (fresh : Bool) (regs : Int) (handler : Bool) (s : Stmt)
  deriving DecidableEq, Repr

/-- A stash window's box as .window gives it (R133). -/
structure WindowBox where
  (k : Int) (sym : Expr) (rows lpr pitch : Int)
  deriving DecidableEq, Repr

/-- An open kernel: its name, whether no .variant precedes it, the selector's tokens, the entry, its resources and the allotment at its entry. -/
structure OpenKernel where
  (name : Name) (plain : Bool) (selector : List Int) (entry : Int) (warps scratch windows barriers macros channels cls : Int)
  (idempotent handler : Bool) (entryRegs : Int) (boxes : List WindowBox)
  deriving DecidableEq, Repr

/-- A kernel of the file: its name and its variants, oldest first. -/
structure FileKernel where
  (name : Name) (variants : List Variant)
  deriving DecidableEq, Repr

/-- The assembler between two lines. In a draft, the pass that finds where symbols lie, a directive's number that rests on a
symbol not yet known stands open; later holds the symbols as the pass before found them. -/
structure AsmState where
  (draft : Bool) (later : List (Name × Int × Int)) (sec : Option Int) (text : List TextStmt) (textLen : Int) (textUsed : Bool) (data const : DataSec) (syms : List (Name × Int × Int))
  (kernel : Option OpenKernel) (regs : Int) (fresh : Bool) (variant : Option (Name × List Int)) (kernels : List FileKernel)
  (boxes : List WindowBox)
  deriving DecidableEq, Repr

def DataSec.start : DataSec := ⟨false, 0, [], [], 81⟩
/-- No section is open before the first section directive; .regs is 9 outside kernels (R133). -/
def AsmState.start : AsmState := ⟨false, [], none, [], 0, false, .start, .start, [], none, 9, true, none, [], []⟩

/-- The section and offset of the next unit or word. -/
def AsmState.here (s : AsmState) : Option (Int × Int) := match s.sec with
  | some k => some (k, if k = 1 then s.textLen else if k = 0 then s.data.len else s.const.len)
  | none => none

/-- The data section that is open. -/
def AsmState.open_ (s : AsmState) : Option DataSec := match s.sec with
  | some k => if k = 0 then some s.data else if k = -1 then some s.const else none
  | none => none
/-- Put back a data section. -/
def AsmState.put (s : AsmState) (k : Int) (d : DataSec) : AsmState := if k = 0 then { s with data := d } else { s with const := d }
/-- Change the open data section; none in .text (R136). -/
def AsmState.modData (s : AsmState) (f : DataSec → DataSec) : Option AsmState := match s.sec, s.open_ with
  | some k, some d => some (s.put k (f d))
  | _, _ => none

/-- Define a symbol: once, and not with a register's name (R125, R137). A lone underscore, which R125's rule for identifiers admits, is no
symbol: it is write-back suppression (R127; DEDUCED, log entry 129). -/
def AsmState.define (s : AsmState) (n : Name) (k off : Int) : Option AsmState :=
  if n = ['_'] ∨ spellsReg n = true ∨ (s.syms.lookup n).isSome = true then none else some { s with syms := (n, k, off) :: s.syms }

/-! ### Directives (R133 to R136) -/

/-- A directive's number: over the symbols of the file, those that stand further on as the pass before placed them (R132). A draft takes
the given number for one that is not yet known. -/
def AsmState.numberOr (s : AsmState) (open_ : Int) (ts : List Tok) : Option Int := match exprOf ts with
  | some e => match evalExpr (s.syms ++ s.later) (s.here.getD (2, 0)) e with
    | some v => v.number
    | none => if s.draft then some open_ else none
  | none => none
def AsmState.number (s : AsmState) (ts : List Tok) : Option Int := s.numberOr 0 ts

/-- A number within bounds. -/
def AsmState.within (s : AsmState) (lo hi : Int) (ts : List Tok) : Option Int := match s.numberOr lo ts with
  | some v => if lo ≤ v ∧ v ≤ hi then some v else if s.draft then some lo else none
  | none => none

/-- The parts of a token list between its commas, outside parentheses. -/
def commaParts : Nat → List Tok → List Tok → List (List Tok)
  | _, [], acc => [acc.reverse]
  | 0, .mark ',' :: r, acc => acc.reverse :: commaParts 0 r []
  | d, .mark '(' :: r, acc => commaParts (d + 1) r (.mark '(' :: acc)
  | d, .mark ')' :: r, acc => commaParts (d - 1) r (.mark ')' :: acc)
  | d, c :: r, acc => commaParts d r (c :: acc)

def alignUp (v n : Int) : Int := if v % n = 0 then v else v + (n - v % n)

/-- Units of one width at the current address, of the statement at an address. -/
def emitUnits (size : Nat) (stmt : Int) : List (List Tok) → AsmState → Option AsmState
  | [], s => some s
  | ts :: r, s => match exprOf ts with
    | none => none
    | some e => match s.modData fun d => { d with used := true, len := d.len + size, units := ⟨d.len, size, stmt, e⟩ :: d.units } with
      | some s2 => emitUnits size stmt r s2
      | none => none

/-- Align the open data section. -/
def AsmState.alignData (s : AsmState) (n : Int) : Option AsmState :=
  s.modData fun d => { d with used := true, len := alignUp d.len n, align := max d.align n }

/-- Change the open kernel. -/
def AsmState.modKernel (s : AsmState) (f : OpenKernel → OpenKernel) : Option AsmState := s.kernel.map fun k => { s with kernel := some (f k) }

/-- .kernel: opens a kernel at the next code block (R133). -/
def openKernel (s : AsmState) (n : Name) : Option AsmState :=
  if s.sec ≠ some 1 ∨ s.kernel.isSome = true ∨ 75 < n.length then none
  else
    let e := alignUp s.textLen 27
    let (nm, sel) := s.variant.getD (n, [1 + pow3 24])
    some { s with
      textLen := e, textUsed := true, variant := none, regs := 9, fresh := true,
      kernel := some ⟨nm, s.variant.isNone, sel, e, 1, 0, 0, 0, 0, 0, 0, false, false, 9, []⟩ }

/-- Warps that a core holds at an allotment (R262). -/
def coreWarps (r : Int) : Int := 16 * min 9 (243 / r)

/-- .end: closes a kernel. A .variant adds to the kernel of its name, however that kernel was opened; more warps than a pair holds, an
empty kernel, a .kernel of a name that stands already and more than 27 variants are rejected (R133). -/
def closeKernel (s : AsmState) : Option AsmState :=
  match s.kernel with
  | none => none
  | some k =>
    let v : Variant := ⟨0, k.entry, s.textLen,
      [k.warps, k.entryRegs, k.scratch, pack [(9, k.macros), (9, k.barriers), (9, k.windows)], k.channels,
        k.cls + pow3 26 * (if k.idempotent then 1 else 0)], k.selector⟩
    let old := s.kernels.find? fun x => x.name == k.name
    let ks : Option (List FileKernel) := match old with
      | none => some (s.kernels ++ [⟨k.name, [v]⟩])
      | some o => if k.plain || decide (27 ≤ o.variants.length) then none
        else some (s.kernels.map fun x => if x.name = k.name then { x with variants := x.variants ++ [v] } else x)
    if 2 * coreWarps k.entryRegs < k.warps ∨ s.textLen ≤ k.entry then none
    else ks.map fun ks => { s with
      kernel := none, regs := 9, fresh := true, kernels := ks, boxes := k.boxes ++ s.boxes,
      text := s.text.map fun t => if k.entry ≤ t.at_ then { t with handler := k.handler } else t }

/-! #### Liveness records (R134, R287) -/

/-- A span of registers of one kind as numbers; a single name is a span of one. -/
def spanOf (kind : RegName → Option Nat) : List Tok → Option (List Nat × List Tok)
  | .name a :: .mark '-' :: .name b :: r => match (regOf a).bind kind, (regOf b).bind kind with
    | some x, some y => if x ≤ y then some ((upto (y + 1 - x)).map fun i => x + i, r) else none
    | _, _ => none
  | .name a :: r => ((regOf a).bind kind).map fun x => ([x], r)
  | _ => none

/-- A comma-free run of spans: V registers, then predicates or G registers, as the kinds allow. -/
def spansOf (kinds : List (RegName → Option Nat)) : Nat → List Tok → Option (List (Nat × Nat))
  | _, [] => some []
  | 0, _ => none
  | n + 1, ts =>
    let hits := (List.zip (upto kinds.length) kinds).filterMap fun k => (spanOf k.2 ts).map fun x => (k.1, x)
    match hits with
    | (i, l, r) :: _ => (spansOf kinds n r).map fun t => (l.map fun m => (i, m)) ++ t
    | [] => none

def kindV : RegName → Option Nat | .v n => some n | _ => none
def kindG : RegName → Option Nat | .g n => some n | _ => none
def kindP : RegName → Option Nat | .p n => some n | _ => none
def kindQ : RegName → Option Nat | .q n => some n | _ => none

/-- What the items of a .live give: trits of V registers, G registers, P and Q predicates, and the ranges. -/
structure Live where
  (v g p q : List (Nat × Int)) (ranges : List (Int × Int))
  deriving DecidableEq, Repr

/-- Add the part of a .live between two commas: an item, or the lines of the range before it (R134). -/
def livePart (num : List Tok → Option Int) (x : Live × Option Int) : List Tok → Option (Live × Option Int)
  | ts => match x.2, ts with
    | some b, _ => (num ts).map fun n => ({ x.1 with ranges := x.1.ranges ++ [(b, n)] }, none)
    | none, .name k :: .mark '=' :: r =>
      let l := x.1
      match upperOf k with
      | "LIVE" => (spansOf [kindV] r.length r).map fun xs => ({ l with v := l.v ++ xs.map fun x => (x.2, 1) }, none)
      | "SAME" => (spansOf [kindV, kindP] r.length r).map fun xs =>
          ({ l with v := l.v ++ (xs.filter fun x => x.1 == 0).map fun x => (x.2, -1),
                    p := l.p ++ (xs.filter fun x => x.1 == 1).map fun x => (x.2, -1) }, none)
      | "G" => (spansOf [kindG] r.length r).map fun xs => ({ l with g := l.g ++ xs.map fun x => (x.2, 1) }, none)
      | "Q" => (spansOf [kindQ] r.length r).map fun xs => ({ l with q := l.q ++ xs.map fun x => (x.2, 1) }, none)
      | "P" => (spansOf [kindP] r.length r).map fun xs => ({ l with p := l.p ++ xs.map fun x => (x.2, 1) }, none)
      | "RANGE" => (num r).map fun b => (l, some b)
      | _ => none
    | none, _ => none

/-- Read the items of a .live, split at commas. -/
def liveItems (num : List Tok → Option Int) : List (List Tok) → Live × Option Int → Option Live
  | [], x => if x.2.isSome then none else some x.1
  | ts :: r, x => match livePart num x ts with | some y => liveItems num r y | none => none

/-- The number whose trits are given by place. -/
def placed (base n : Nat) (l : List (Nat × Int)) : Int := ofTrits ((upto n).map fun j => (l.lookup (base + j)).getD 0)
/-- Each place named once. -/
def onceEach (l : List (Nat × Int)) : Bool := (l.map fun x => x.1).eraseDups.length == l.length

/-- The words of a liveness record (R287); none when an item breaks its limits. A register that the items name twice is rejected: the spec
is silent on it (DESIGN CHOICE, log entry 116). -/
def liveWords (l : Live) : Option (List Int) :=
  if onceEach l.v && onceEach l.g && onceEach l.p && onceEach l.q && (l.p.lookup 0).isNone && (l.q.lookup 0).isNone &&
      decide (l.ranges.length ≤ 3) && l.ranges.all fun r => r.1 % 81 == 0 && decide (0 ≤ r.1 ∧ 0 ≤ r.2 ∧ r.2 ≤ 6561)
  then some ([placed 0 27 l.v, placed 27 27 l.v, placed 54 27 l.v, placed 0 27 l.g, pack [(9, placed 0 9 l.p), (9, placed 0 9 l.q)]] ++
    l.ranges.flatMap fun r => [r.1, r.2])
  else none

/-- .live: a line-aligned record in .const, named by a symbol. -/
def emitLive (s : AsmState) (n : Name) (items : List (List Tok)) : Option AsmState :=
  match liveItems s.number items (⟨[], [], [], [], []⟩, none) with
  | none => none
  | some l => match if s.draft then some [] else liveWords l with
    | none => none
    | some ws =>
      let a := alignUp s.const.len 81
      let us := (List.zip (upto ws.length) ws).map fun x => (⟨a + 3 * (x.1 : Int), 3, a, .lit x.2⟩ : DataUnit)
      ({ s with const := { s.const with used := true, len := a + 81, units := us.reverse ++ s.const.units } }).define n (-1) a

/-- One directive. -/
def directive (s : AsmState) (d : String) (ts : List Tok) : Option AsmState :=
  let args := commaParts 0 ts []
  match d, args with
  | "TEXT", [[]] => some { s with sec := some 1, textUsed := true }
  | "DATA", [[]] => some { s with sec := some 0, data := { s.data with used := true } }
  | "CONST", [[]] => some { s with sec := some (-1), const := { s.const with used := true } }
  | "KERNEL", [[.name n]] => openKernel s n
  | "END", [[]] => closeKernel s
  | "WARPS", [a] => do let v ← s.within 1 288 a; s.modKernel fun k => { k with warps := v }
  | "REGS", [a] => do
    let v ← s.within 9 81 a
    if v % 9 ≠ 0 ∧ s.draft = false then none
    else (s.modKernel fun k => if s.textLen = k.entry then { k with entryRegs := v } else k).map fun s => { s with regs := v }
  | "SCRATCH", [a] => do let v ← s.within 0 6561 a; s.modKernel fun k => { k with scratch := v }
  | "BARRIERS", [a] => do let v ← s.within 0 27 a; s.modKernel fun k => { k with barriers := v }
  | "WINDOWS", [a] => do let v ← s.within 0 27 a; s.modKernel fun k => { k with windows := v }
  | "MACROS", [a] => do let v ← s.within 0 32 a; s.modKernel fun k => { k with macros := v }
  | "CHANNELS", [a] => do let v ← s.within 0 72 a; s.modKernel fun k => { k with channels := v }
  | "CLASS", [a] => do let v ← s.within (-4) 4 a; s.modKernel fun k => { k with cls := v }
  | "IDEMPOTENT", [[]] => s.modKernel fun k => { k with idempotent := true }
  | "HANDLER", [[]] => s.modKernel fun k => { k with handler := true }
  | "WINDOW", [k, y, r, l, p] => do
    let k ← s.within 0 26 k
    let y ← exprOf y
    let r ← s.within 1 6561 r
    let l ← s.within 1 6561 l
    let p ← s.number p
    if s.draft = true ∨ (r * l ≤ 6561 ∧ p % 81 = 0 ∧ p ≠ 0 ∧ 81 * l ≤ Int.natAbs p) then s.modKernel fun x => { x with boxes := ⟨k, y, r, l, p⟩ :: x.boxes }
    else none
  | "LIVE", [.name n] :: items => emitLive s n items
  | "VARIANT", [[.name n], e] => do
    let e ← exprOf e
    let sel ← selectorTokens e
    if s.variant.isSome || s.kernel.isSome || decide (75 < n.length) || decide (243 < sel.length) then none
    else some { s with variant := some (n, sel) }
  | "TRYTE", _ => emitUnits 1 (s.here.getD (2, 0)).2 args s
  | "WORD", _ => emitUnits 3 (s.here.getD (2, 0)).2 args s
  | "DOUBLE", _ => emitUnits 6 (s.here.getD (2, 0)).2 args s
  | "ALIGN", [a] => do
    let v ← s.within 1 19683 a
    if (upto 10).any fun k => pow3 k == v then s.alignData v else if s.draft then some s else none
  | "LINE", [[]] => s.alignData 81
  | "ZERO", [a] => do
    let v ← s.number a
    if 0 ≤ v ∨ s.draft = true then s.modData fun d => { d with used := true, len := d.len + max 0 v } else none
  | "TAG", [c, e] => do
    let c ← s.number c
    let e ← s.within (-121) 121 e
    if reservedCode c && !s.draft then none else s.modData fun d => { d with tags := (d.len, ⟨c, e⟩) :: d.tags }
  | _, _ => none

/-- One line of the source: its label, then its statement (R125). -/
def asmLine (s : AsmState) (text : List Char) : Option AsmState :=
  match lineOfText text with
  | none => none
  | some (lab, st) =>
    let s1 : Option AsmState := match lab with
      | none => some s
      | some n => match s.here with
        | some (k, off) => (s.define n k off).map fun s => { s with fresh := s.fresh || k == 1 }
        | none => none
    match s1 with
    | none => none
    | some s1 => match st with
      | .empty => some s1
      | .directive d ts => directive s1 d ts
      | i => if s1.sec = some 1 then
          some { s1 with text := ⟨s1.textLen, s1.fresh, s1.regs, false, i⟩ :: s1.text, textLen := s1.textLen + 1, fresh := false, textUsed := true }
        else none

/-- All lines; an open kernel and a .variant that no kernel follows are rejected at the end of the file. -/
def asmLines : AsmState → List (List Char) → Option AsmState
  | s, [] => if s.kernel.isSome || s.variant.isSome then none else some s
  | s, l :: r => match asmLine s l with | some s2 => asmLines s2 r | none => none

/-! ### Words and units -/

/-- The chain rule along the source (R108, R137): position, latches made since the chain began. -/
structure ChainPos where
  (pos : Nat) (made : Nat)
  deriving DecidableEq, Repr

/-- The chain position after a word; none where the word breaks the chain rule. -/
def chainAfter (i : Instr) (fresh : Bool) (c : ChainPos) : Option ChainPos :=
  let c := if fresh then ⟨0, 0⟩ else c
  let made : Nat := match i with | .pairedWord _ _ => 2 | _ => if i.isVector && !noLatch i then 1 else 0
  let next : Option ChainPos :=
    if i.latches.isEmpty then some ⟨1, made⟩
    else if c.pos = 0 ∨ c.pos = 4 ∨ (i.latches.any fun k => decide (c.made < k)) = true then none
    else some ⟨c.pos + 1, c.made + made⟩
  next.map fun n => if i.chainEnds then ⟨0, 0⟩ else n

/-- The words of the statements of .text, in order (R137): each encodes, keeps the allotment and the chain rule, and is one its
mode may run. -/
def asmWords (syms : List (Name × Int × Int)) : ChainPos → List TextStmt → Option (List (Int × Int))
  | _, [] => some []
  | c, t :: r =>
    match instrOf t.at_ (evalExpr syms (1, t.at_)) t.s with
    | none => none
    | some i =>
      let fits := i.vregs.all fun n => decide ((n : Int) < t.regs)
      let mode := if t.handler then !i.noHandler else !i.namesTrapReg && (match i with | .rft _ => false | _ => true)
      if fits && mode then match chainAfter i t.fresh c, encode i with
        | some c2, some w => (asmWords syms c2 r).map fun l => (t.at_, w) :: l
        | _, _ => none
      else none

/-- What a unit of a data section becomes: its number, and the relocation at its site (R441, R447). The sections of the file are given by kind. -/
def unitValue (syms : List (Name × Int × Int)) (secs : List Int) (sec : Int) (u : DataUnit) : Option (Int × Option Reloc) :=
  match evalExpr syms (sec, u.stmt) u.e with
  | none => none
  | some v =>
    let plain (v : Int) : Option (Int × Option Reloc) := if canon v (9 * u.size) then some (v, none) else none
    match v.on with
    | .const => plain v.n
    | .diff => if u.size = 1 then none else plain v.n
    | .other => none
    | .label k => match secs.idxOf? k with
      | none => none
      | some t =>
        if u.size = 6 ∧ u.off % 6 = 0 then
          (if k = 1 then (if canon (6 * v.n) 27 then some (0, some ⟨u.off, 2, t, 6 * v.n⟩) else none)
           else if canon v.n 27 then some (0, some ⟨u.off, 1, t, v.n⟩) else none)
        else if u.size = 3 ∧ u.off % 3 = 0 ∧ k ≠ 1 ∧ canon v.n 27 = true then some (0, some ⟨u.off, 3, t, v.n⟩)
        else none

/-- Values placed at rising places from a position on, with zeros between, up to an end. -/
def fillFrom (pos stop : Int) : List (Int × List Int) → List Int
  | [] => List.replicate (stop - pos).toNat 0
  | (a, vs) :: r => List.replicate (a - pos).toNat 0 ++ vs ++ fillFrom (a + vs.length) stop r

/-- The words of trytes, three each. -/
def wordsOfTrytes : List Int → List Int
  | a :: b :: c :: r => join 9 [a, b, c] :: wordsOfTrytes r
  | _ => []

/-- A section as the assembler gives it: kind, words, line tags, alignment, relocations. -/
structure AsmSection where
  (kind : Int) (words : List Int) (tags : List Tag) (align : Int) (rels : List Reloc)
  deriving DecidableEq, Repr

/-- What a file assembles to. -/
structure Assembled where
  (sections : List AsmSection) (kernels : List FileKernel) (syms : List (Name × Int × Int))
  deriving DecidableEq, Repr

/-- The tag of a line: that of the last .tag before its first tryte (R136); tags newest first. -/
def tagOfLine (tags : List (Int × Tag)) (k : Nat) : Tag := ((tags.find? fun t => decide (t.1 ≤ 81 * (k : Int))).map fun t => t.2).getD Tag.plain

/-- Finish a data section. One that is opened and holds nothing takes one line of zeros: the spec says neither that it does nor that it is left
out (DESIGN CHOICE, log entry 117). -/
def finishData (syms : List (Name × Int × Int)) (secs : List Int) (kind : Int) (d : DataSec) : Option AsmSection :=
  match allSome (d.units.reverse.map fun u => (unitValue syms secs kind u).map fun v => (u, v)) with
  | none => none
  | some us =>
    let stop := max 81 (alignUp d.len 81)
    let ts := fillFrom 0 stop (us.map fun x => (x.1.off, split 9 x.1.size x.2.1))
    let rels := us.filterMap fun x => x.2.2
    if 59049 < rels.length then none
    else some ⟨kind, wordsOfTrytes ts, (upto (stop / 81).toNat).map (tagOfLine d.tags), d.align, rels⟩

/-- Finish .text: two words for each instruction word, whole code blocks. -/
def finishText (s : AsmState) : Option AsmSection :=
  (asmWords s.syms ⟨0, 0⟩ s.text.reverse).map fun ws =>
    let stop := max 27 (alignUp s.textLen 27)
    let ws2 := (fillFrom 0 stop (ws.map fun x => (x.1, [x.2]))).flatMap fun w => split 27 2 w
    ⟨1, ws2, List.replicate (2 * (stop / 27).toNat) Tag.plain, 162, []⟩

/-- A window's symbol names a line of a data section. -/
def boxOk (syms : List (Name × Int × Int)) (b : WindowBox) : Bool := match evalExpr syms (2, 0) b.sym with
  | some v => (match v.on with | .label k => k != 1 && v.n % 81 == 0 | _ => false)
  | none => false

/-- Where the symbols of a file lie: drafts, each over the symbols as the one before placed them, until they stay where they are. -/
def draftSyms (lines : List (List Char)) : Nat → List (Name × Int × Int) → Option (List (Name × Int × Int))
  | 0, _ => none
  | n + 1, later => match asmLines { AsmState.start with draft := true, later := later } lines with
    | some s => if s.syms = later then some later else draftSyms lines n s.syms
    | none => none

/-- A file read: at once where each directive's number rests on symbols before it, else after drafts (R132). -/
def asmPass (lines : List (List Char)) : Option AsmState := match asmLines .start lines with
  | some s => some s
  | none => match draftSyms lines 27 [] with
    | none => none
    | some later => match asmLines { AsmState.start with later := later } lines with
      | some s => if s.syms = later then some s else none
      | none => none

/-- Assemble a file; none where a statement is rejected: there is then no output (R137). -/
def assemble (lines : List (List Char)) : Option Assembled :=
  match asmPass lines with
  | none => none
  | some s =>
    let secs : List Int := (if s.textUsed then [1] else []) ++ (if s.const.used then [-1] else []) ++ (if s.data.used then [0] else [])
    if secs.isEmpty || decide (729 < s.kernels.length) || !s.boxes.all (boxOk s.syms) then none
    else (allSome (secs.map fun k => if k = 1 then finishText s else finishData s.syms secs k (if k = 0 then s.data else s.const))).map fun l =>
      ⟨l, s.kernels, s.syms⟩

/-! ### The object (R316 to R320) -/

/-- Lines of 27 words, the last padded with zeros. -/
def linesOf : Nat → List Int → List ObjLine
  | 0, _ => []
  | n + 1, ws => ⟨(ws.take 27) ++ List.replicate (27 - (ws.take 27).length) 0, Tag.plain⟩ :: linesOf n (ws.drop 27)
/-- How many lines hold n entries, k to a line. -/
def lineCount (n k : Nat) : Nat := (n + k - 1) / k

/-- The lines of an object: header, section table, kernels, variants, selectors, relocations, contents. -/
def objectOf (a : Assembled) : List ObjLine :=
  let n := a.sections.length
  let vs := a.kernels.flatMap fun k => k.variants
  let kernel0 := 1 + lineCount n 3
  let variant0 := kernel0 + a.kernels.length
  let sel0 := variant0 + vs.length
  let selLines := vs.map fun v => lineCount v.selector.length 27
  let rel0 := sel0 + selLines.sum
  let relLines := a.sections.map fun x => lineCount x.rels.length 9
  let body0 := rel0 + relLines.sum
  let before (l : List Nat) (i : Nat) : Nat := (l.take i).sum
  let bodies := a.sections.map fun x => x.tags.length
  let total := body0 + bodies.sum
  let header := linesOf 1 [pow3 26, 1, n, a.kernels.length, if a.kernels.isEmpty then 1 else kernel0, total]
  let table := linesOf (lineCount n 3) ((List.zip (upto n) a.sections).flatMap fun x =>
    [x.2.kind, (body0 + before bodies x.1 : Nat), x.2.tags.length, x.2.align,
     if x.2.rels.isEmpty then 0 else ((rel0 + before relLines x.1 : Nat) : Int), x.2.rels.length, 0, 0, 0])
  let kernels := (List.zip (upto a.kernels.length) a.kernels).flatMap fun x =>
    linesOf 1 ([(x.2.variants.length : Int), ((variant0 + before (a.kernels.map fun k => k.variants.length) x.1 : Nat) : Int)] ++
      wordsOfTrytes ((upto 75).map fun j => ((x.2.name[j]?).map fun c => (c.toNat : Int)).getD 0))
  let variants := (List.zip (upto vs.length) vs).flatMap fun x =>
    linesOf 1 ([(x.2.text : Int), x.2.entry, x.2.limit] ++ x.2.fields ++ [((sel0 + before selLines x.1 : Nat) : Int), (x.2.selector.length : Int)])
  let selectors := vs.flatMap fun v => linesOf (lineCount v.selector.length 27) v.selector
  let relocs := a.sections.flatMap fun x => linesOf (lineCount x.rels.length 9) (x.rels.flatMap fun r =>
    [r.site, (r.target : Int) + pow3 24 * r.kind, r.addend])
  let contents := a.sections.flatMap fun x => List.zipWith (fun (l : ObjLine) t => { l with tag := t }) (linesOf x.tags.length x.words) x.tags
  header ++ table ++ kernels ++ variants ++ selectors ++ relocs ++ contents

/-- The 150 bytes of a line: its 729 trits five to a byte, then its tag (R42, R43, R316). -/
def lineImage (l : ObjLine) : List Nat := ((split 5 146 (join 27 l.words)).map tritsByte) ++ (split 5 4 l.tag.num).map tritsByte

/-- The bytes of the object file. -/
def objectBytes (a : Assembled) : List Nat := (objectOf a).flatMap lineImage

end Sys2Proof.Machine
end

