-- ==== Sys2Proof/Tests/Slice0.lean ====
section
/-! SUPPORT. Tests/Slice0.lean: the model's own tests, and the witnesses of the statements.

Words are written out from the spec's field maps (R98, R104, R111 to R124): a field is its lowest trit and
its value. -/

namespace Sys2Proof.Tests

open Sys2Proof

set_option Elab.async false

/-! ### Ill-formed terms: one for each check of WellFormed -/

/-- No instruction of the list is well formed. -/
def refused (l : List Instr) : Bool := l.all fun i => !i.wf
/-- Every instruction of the list is well formed. -/
def admitted (l : List Instr) : Bool := l.all Instr.wf

/-- Heads: unguarded vector form and unguarded group-wide form. -/
def hv : Hd := ⟨.vector, 0, .always⟩
def hg : Hd := ⟨.group, 0, .always⟩
/-- An address operand that is admitted. -/
def ad0 : Addr := ⟨6, .v 5, 2, -9⟩

theorem test_wf_admits : admitted [.add ⟨hv, .w, 0, 0, .v 5, .v 12, .src (.x 1)⟩, .ld ⟨hv, .double, true, some 26, false, .v 8, ad0⟩,
    .pairedWord ⟨.add, 0, .v 8, some (.x 1), 0, 0, 0, 0⟩ ⟨.sub, 0, .v 10, some (.x 2), 0, 0, 0, 0⟩] = true := by decide

/-- Operand classes: predicate number, latch number, register numbers, odd doubles, forms (R98 to R101). -/
theorem test_wf_operands : refused [
    .nop ⟨.vector, 9, .always⟩,
    .abs ⟨hv, .w, 0, 0, .v 1, .x 4⟩, .abs ⟨hv, .w, 0, 0, .v 1, .x 0⟩, .abs ⟨hg, .w, 0, 0, .g 1, .x 1⟩,
    .abs ⟨hv, .w, 0, 0, .v 1, .v 81⟩, .abs ⟨hg, .w, 0, 0, .g 1, .v 2⟩, .abs ⟨hv, .d, 0, 0, .v 2, .v 3⟩,
    .abs ⟨hv, .w, 0, 0, .v 1, .g 27⟩, .abs ⟨hv, .d, 0, 0, .v 2, .g 26⟩,
    .abs ⟨hv, .w, 0, 0, .v 81, .v 2⟩, .abs ⟨hv, .d, 0, 0, .v 3, .v 2⟩, .abs ⟨hg, .w, 0, 0, .v 3, .g 2⟩,
    .abs ⟨hv, .w, 0, 0, .g 3, .v 2⟩, .abs ⟨hg, .d, 0, 0, .g 26, .g 2⟩, .abs ⟨hg, .w, 0, 0, .latch, .g 2⟩] = true := by decide

/-- Predicates, addresses, read counts and immediates (R83, R341, R118, R103, R115). -/
theorem test_wf_fields : refused [
    .cmp ⟨hv, .w, 0, 0, 0, .v 1, .src (.v 2)⟩, .cmp ⟨hv, .w, 0, 0, 9, .v 1, .src (.v 2)⟩,
    .movc ⟨hv, .v 1, .p 9⟩, .movc ⟨hg, .g 1, .p 2⟩, .movc ⟨hv, .v 1, .q 9⟩,
    .cflush ⟨hv, ⟨5, .v 0, 0, 0⟩⟩, .cflush ⟨hv, ⟨26, .v 0, 0, 0⟩⟩, .cflush ⟨hv, ⟨4, .v 0, 5, 0⟩⟩,
    .cflush ⟨hv, ⟨4, .v 81, 0, 0⟩⟩, .cflush ⟨hv, ⟨4, .v 0, 0, 21523361⟩⟩,
    .pref ⟨hv, 0, ad0⟩, .pref ⟨hv, 27, ad0⟩,
    .add ⟨hv, .t, 0, 0, .v 1, .v 2, .imm 9842⟩, .add ⟨hv, .w, 0, 0, .v 1, .v 2, .imm (-21523361)⟩,
    .jmpi ⟨hv, .v 1, 0⟩, .call ⟨hv, .reg 3 0⟩, .bra ⟨hv, .rel 21523361⟩] = true := by decide

/-- Integer and floating modifiers and tables (R115, R116, R117). -/
theorem test_wf_arithmetic : refused [
    .abs ⟨hv, .w, 2, 0, .v 1, .v 2⟩, .abs ⟨hv, .w, 0, -2, .v 1, .v 2⟩, .tcnt ⟨hv, .w, 0, 0, 2, .v 1, .v 2⟩,
    .tmap ⟨hv, .w, 0, 0, .v 1, .v 2, 14⟩, .tbin ⟨hv, .w, 0, 0, .v 1, .v 2, .v 3, 9842⟩,
    .mad ⟨hv, .d, 0, 0, .v 0, .v 2, .v 4, .v 5⟩, .fadd ⟨hv, .f27, -1, 0, 0, .v 1, .v 2, .v 3⟩,
    .fabs ⟨hv, .f9, 0, 2, 0, .v 1, .v 2⟩, .fma ⟨hv, .f27, 0, 0, 0, .v 1, .v 2, .v 3, .v 90⟩,
    .fscl ⟨hv, .f27, 0, 0, 0, .v 1, .v 2, .imm 21523361⟩, .frnd ⟨hv, .f27, 0, 0, 0, .v 1, .v 2, 365⟩,
    .fcmp ⟨hv, .f9, 0, 0, 1, .v 1, .v 2, 2⟩, .sel ⟨hv, true, 0, 0, .v 0, .v 1, .v 2, .v 4, .p 1⟩,
    .pset ⟨hv, 0, 1, .v 2, 27⟩, .pset ⟨hg, 0, 1, .g 2, -1⟩, .ptbl ⟨hv, 0, 1, .p 1, .p 2, 9842⟩,
    .pany ⟨hg, 0, 1, .q 1⟩, .pcnt ⟨hv, 0, .v 1, .p 1, 2⟩, .shfl ⟨hv, false, 0, 0, .v 1, .v 2, .v 3, 27⟩,
    .bcst ⟨hv, false, 0, 0, .v 1, .v 2, 27⟩, .vred ⟨hv, .f27, 0, -1, 0, 0, .v 1, .v 2⟩, .vscan ⟨hv, .w, 0, 0, 1, 0, .v 1, .v 2⟩,
    .vred ⟨hv, .w, 2, 0, 0, 0, .v 1, .v 2⟩] = true := by decide

/-- The memory class (R118). -/
theorem test_wf_memory : refused [
    .ld ⟨hg, .word, false, none, false, .v 1, ad0⟩, .ld ⟨hv, .tryte, true, none, false, .v 1, ad0⟩, .st ⟨hv, .tryte, true, ad0, .v 1⟩,
    .ldg ⟨hv, false, 1, 2, 0⟩, .ldg ⟨hg, true, 3, 2, 0⟩, .stg ⟨hg, true, 26, 2, 0⟩, .stg ⟨hg, false, 2, 3, 0⟩,
    .lds ⟨hv, .double, none, false, .v 7, ad0⟩, .sts ⟨hv, .double, ad0, .v 7⟩,
    .atom ⟨hv, false, false, .cas, .latch, ad0, .v 1⟩, .atom ⟨hv, false, false, .tbin 1, .v 1, ad0, .v 2⟩,
    .red ⟨hv, .double, none, 0, true, ad0, .v 2⟩, .red ⟨hv, .word, some 27, 0, false, ad0, .v 2⟩,
    .ldmc ⟨hg, 25, 1⟩, .fence ⟨hv, 4, 0⟩, .fence ⟨hv, 0, 2⟩, .ldtag ⟨hg, .v 1, ad0⟩, .sttag ⟨hv, .v 81, ad0⟩,
    .cinv ⟨hg, ad0⟩, .icinv ⟨hg, 4, .v 0, 0⟩, .icinv ⟨hv, 5, .v 0, 0⟩] = true := by decide

/-- Moves, conversions and control flow (R119, R120, R404). -/
theorem test_wf_moves : refused [
    .mov ⟨hv, true, .v 1, .v 2⟩, .movi ⟨hv, .v 1, 3812798742494⟩, .movh ⟨hv, .latch, 0⟩, .movg ⟨hg, 1, .g 2, 0⟩, .movg ⟨hv, 1, .v 2, 27⟩,
    .movs ⟨hg, .read (.g 1) .lane⟩, .movs ⟨hv, .write (.v 1) .gtime⟩, .movs ⟨hg, .write (.g 1) .flags⟩,
    .cvt ⟨hv, .f9f27, 0, -1, 0, 0, .v 1, .v 2⟩, .bcvt ⟨hv, .b32, true, 0, 0, 0, .v 1, .v 2⟩, .bcvt ⟨hv, .i8, true, 1, 0, 0, .v 1, .v 2⟩,
    .bcvt ⟨hv, .b32, false, 1, 0, 0, .v 1, .v 2⟩, .pack ⟨hv, 2, .v 1, .v 2⟩, .unpack ⟨hg, 0, .g 1, .g 2⟩,
    .calli ⟨hg, .g 2, 0⟩, .ret hg, .yld hg, .exit hg, .waitj ⟨hv, .v 1, 21523361⟩] = true := by decide

/-- Synchronisation, engines and system (R121, R122, R348, R416, R305, R306). -/
theorem test_wf_system : refused [
    .barA ⟨hg, 1, 1⟩, .barS ⟨hv, 41, 1⟩, .barD ⟨hv, 1, 265721⟩, .barW ⟨hv, -41⟩, .sna ⟨hv, 72⟩, .snd ⟨hv, -10⟩, .snr ⟨hv, 2, 1, 0⟩,
    .snb ⟨hv, 27, 0⟩, .snw ⟨hv, 27, 0⟩, .snp ⟨hv, 1, 72⟩, .tbinit ⟨hv, 27, 1, 0⟩, .tbtest ⟨hv, 27, 1, 1, 0⟩,
    .sleept ⟨hg, .g 1, 0⟩, .touch ⟨hv, 3, .v 0, 0⟩, .win ⟨hg, 1, 27⟩, .winrel ⟨hv, 0⟩, .task ⟨hg, 1, 2, 2, 0⟩, .tqry ⟨hg, 27, 1⟩,
    .send ⟨hg, 1, 2, 5⟩, .send ⟨hg, 1, 2, 0⟩, .recv ⟨hg, 1, 5⟩, .xfst ⟨hg, 27, 1, 0⟩, .xtab ⟨hg, 1, 2, 36⟩, .xtab ⟨hg, 1, 3, 0⟩,
    .lnch ⟨hg, 1, 3, 0⟩, .role ⟨hv, 2, 0, 0⟩, .role ⟨hv, 2, 1, 5⟩, .preh ⟨hv, 3, 0⟩, .trap ⟨hv, 21523361⟩,
    .wset ⟨hg, 1, 25, 3, 4, 0⟩, .wset ⟨hg, 1, 2, 3, 4, 27⟩, .wclr ⟨hg, 1, 3, 27⟩, .wrd ⟨hg, 22, 3, 0⟩, .hlst ⟨hg, 24, 1⟩,
    .hrdv ⟨hg, 1, 2, 81⟩, .hrdv ⟨hg, 26, 2, 0⟩, .hwrv ⟨hg, 1, 2, 3, 203⟩, .hrdp ⟨hg, 25, 2, .pc⟩, .hrdp ⟨hg, 1, 2, .link 0⟩,
    .hwrp ⟨hg, 1, 26, 3, .pc⟩, .hstep ⟨hg, 25, 1⟩, .hres ⟨hg, 3, 1, 2⟩] = true := by decide

/-- The paired form: guard, destination, modifiers, immediates, banks, latches (R104 to R106, R124). -/
theorem test_wf_paired :
    let ok : Half := ⟨.mov, 0, .v 1, some (.g 2), 0, 0, 0, 0⟩
    refused [
      .pairedWord ⟨.mov, 9, .v 0, some (.g 2), 0, 0, 0, 0⟩ ok, .pairedWord ⟨.mov, 0, .g 0, some (.g 2), 0, 0, 0, 0⟩ ok,
      .pairedWord ⟨.mov, 0, .v 0, some (.g 2), 1, 0, 0, 0⟩ ok, .pairedWord ⟨.fabs, 0, .v 0, some (.g 2), 0, -1, 0, 0⟩ ok,
      .pairedWord ⟨.mov, 0, .v 0, some (.g 2), 0, 0, 1, 0⟩ ok, .pairedWord ⟨.movi, 0, .v 0, none, -1, 0, 0, 1⟩ ok,
      .pairedWord ⟨.mov, 0, .v 0, some (.g 2), 0, 0, 0, 1⟩ ok, .pairedWord ⟨.movi, 0, .v 0, none, 0, 0, 0, 365⟩ ok,
      .pairedWord ⟨.mov, 0, .v 0, none, 0, 0, 0, 0⟩ ok, .pairedWord ⟨.addi, 0, .v 0, some (.v 2), 0, 0, 0, 1⟩ ok,
      .pairedWord ⟨.mov, 0, .v 4, some (.g 2), 0, 0, 0, 0⟩ ok,
      .pairedWord ⟨.add, 0, .v 0, some (.v 3), 0, 0, 0, 0⟩ ⟨.mov, 0, .v 1, some (.v 6), 0, 0, 0, 0⟩,
      .pairedWord ok ⟨.mov, 0, .v 2, some (.x 1), 0, 0, 0, 0⟩] = true := by decide

/-! ### Decoding: a word of every instruction, written out from its fields -/

/-- The word whose fields (lowest trit, value) are these, every other trit zero. -/
def word (l : List (Nat × Int)) : Int := l.foldr (fun f acc => f.2 * (Nat.pow 3 f.1 : Nat) + acc) 0
/-- Opcode i of class c in the vector form, guard P0 always (R98, R99, R111). -/
def vf (c i : Int) (l : List (Nat × Int)) : List (Nat × Int) := (46, 81 * c + i) :: (44, -4) :: l
/-- The same in the group-wide form. -/
def gf (c i : Int) (l : List (Nat × Int)) : List (Nat × Int) := (52, 1) :: (46, 81 * c + i) :: (44, -4) :: l
/-- Every word decodes to the instruction beside it. -/
def decodes (l : List (List (Nat × Int) × Instr)) : Bool := l.all fun r => decode? (word r.1) == some r.2

/-- Class -- (R112, R115): type 21, saturation 20, trap enable 19, B source 18, selector 16. -/
theorem test_decode_integer : decodes [
    (vf (-4) 1 [(18, 1), (37, 5 - 40), (32, 12 - 40), (0, -7)], .add ⟨hv, .w, 0, 0, .v 5, .v 12, .imm (-7)⟩),
    (gf (-4) 2 [(21, 1), (37, 4 - 13), (36, 1), (32, 6 - 13), (31, 1), (27, 8 - 13)], .sub ⟨hg, .d, 0, 0, .g 4, .g 6, .src (.g 8)⟩),
    (vf (-4) 3 [(21, -1), (19, -1), (37, 1 - 40), (32, 80 - 40)], .neg ⟨hv, .t, 0, -1, .v 1, .v 80⟩),
    (vf (-4) 4 [(20, -1), (41, -1), (36, -1), (32, 3)], .abs ⟨hv, .w, -1, 0, .latch, .x 3⟩),
    (vf (-4) 5 [(20, 1), (37, 7 - 40), (32, 1 - 40), (31, 1), (27, 26 - 13)], .mul ⟨hv, .w, 1, 0, .v 7, .v 1, .src (.g 26)⟩),
    (vf (-4) 6 [(19, 1), (37, 9 - 40), (32, 2 - 40), (27, 3 - 40)], .mulh ⟨hv, .w, 0, 1, .v 9, .v 2, .src (.v 3)⟩),
    (vf (-4) 7 [(37, 2 - 40), (32, 3 - 40), (27, 4 - 40), (22, 5 - 40)], .mad ⟨hv, .w, 0, 0, .v 2, .v 3, .v 4, .v 5⟩)] = true := by
  decide +kernel
theorem test_decode_integer_2 : decodes [
    (vf (-4) 8 [(21, 1), (18, 1), (37, 6 - 40), (32, 8 - 40), (0, 11)], .div ⟨hv, .d, 0, 0, .v 6, .v 8, .imm 11⟩),
    (vf (-4) 9 [(37, 6 - 40), (32, 7 - 40), (27, 8 - 40)], .divz ⟨hv, .w, 0, 0, .v 6, .v 7, .src (.v 8)⟩),
    (vf (-4) 10 [(37, 6 - 40), (32, 7 - 40), (31, -1), (27, 2)], .mod ⟨hv, .w, 0, 0, .v 6, .v 7, .src (.x 2)⟩),
    (vf (-4) 11 [(21, -1), (18, 1), (37, 6 - 40), (32, 7 - 40), (0, -9841)], .min ⟨hv, .t, 0, 0, .v 6, .v 7, .imm (-9841)⟩),
    (gf (-4) 12 [(37, 0 - 13), (36, 1), (32, 1 - 13), (31, 1), (27, 2 - 13)], .max ⟨hg, .w, 0, 0, .g 0, .g 1, .src (.g 2)⟩),
    (vf (-4) 13 [(37, 6 - 40), (32, 7 - 40)], .sgn ⟨hv, .w, 0, 0, .v 6, .v 7⟩),
    (vf (-4) 14 [(18, 1), (37, 6 - 40), (32, 7 - 40), (0, 2)], .tsh ⟨hv, .w, 0, 0, .v 6, .v 7, .imm 2⟩),
    (vf (-4) 15 [(37, 6 - 40), (32, 7 - 40), (27, 9 - 40)], .trot ⟨hv, .w, 0, 0, .v 6, .v 7, .src (.v 9)⟩),
    (vf (-4) 16 [(21, 1), (37, 6 - 40), (32, 8 - 40)], .tlz ⟨hv, .d, 0, 0, .v 6, .v 8⟩),
    (vf (-4) 17 [(16, -1), (37, 6 - 40), (32, 7 - 40)], .tcnt ⟨hv, .w, 0, 0, -1, .v 6, .v 7⟩),
    (vf (-4) 18 [(37, 6 - 40), (32, 7 - 40), (0, 13)], .tmap ⟨hv, .w, 0, 0, .v 6, .v 7, 13⟩),
    (vf (-4) 19 [(37, 6 - 40), (32, 7 - 40), (27, 8 - 40), (0, -9840)], .tbin ⟨hv, .w, 0, 0, .v 6, .v 7, .v 8, -9840⟩),
    (vf (-4) 20 [(37, 6 - 40), (32, 7 - 40), (27, 8 - 40), (26, 1), (22, 9 - 13)], .tsel ⟨hv, .w, 0, 0, .v 6, .v 7, .v 8, .g 9⟩)] = true := by
  decide +kernel

/-- Class -0 (R112, R116): type 21, FZI 20, FZO 19, trap enable 18, count source 17. -/
theorem test_decode_floating : decodes [
    (vf (-3) 1 [(20, 1), (37, 6 - 40), (32, 7 - 40), (27, 8 - 40)], .fadd ⟨hv, .f27, 1, 0, 0, .v 6, .v 7, .v 8⟩),
    (vf (-3) 2 [(21, -1), (19, 1), (37, 6 - 40), (32, 7 - 40), (27, 8 - 40)], .fsub ⟨hv, .f9, 0, 1, 0, .v 6, .v 7, .v 8⟩),
    (vf (-3) 3 [(18, -1), (37, 6 - 40), (32, 7 - 40), (27, 8 - 40)], .fmul ⟨hv, .f27, 0, 0, -1, .v 6, .v 7, .v 8⟩),
    (vf (-3) 4 [(37, 6 - 40), (32, 7 - 40), (27, 8 - 40), (22, 10 - 40)], .fma ⟨hv, .f27, 0, 0, 0, .v 6, .v 7, .v 8, .v 10⟩),
    (vf (-3) 5 [(37, 6 - 40), (32, 7 - 40), (27, 8 - 40)], .fmin ⟨hv, .f27, 0, 0, 0, .v 6, .v 7, .v 8⟩),
    (vf (-3) 6 [(37, 6 - 40), (32, 7 - 40), (27, 8 - 40)], .fmax ⟨hv, .f27, 0, 0, 0, .v 6, .v 7, .v 8⟩),
    (vf (-3) 7 [(37, 6 - 40), (32, 7 - 40)], .fneg ⟨hv, .f27, 0, 0, 0, .v 6, .v 7⟩),
    (vf (-3) 8 [(37, 6 - 40), (32, 7 - 40)], .fabs ⟨hv, .f27, 0, 0, 0, .v 6, .v 7⟩),
    (vf (-3) 9 [(21, -1), (37, 6 - 40), (32, 7 - 40), (27, 8 - 40)], .fdiv ⟨hv, .f9, 0, 0, 0, .v 6, .v 7, .v 8⟩),
    (vf (-3) 10 [(37, 6 - 40), (32, 7 - 40)], .fsqrt ⟨hv, .f27, 0, 0, 0, .v 6, .v 7⟩)] = true := by decide +kernel
theorem test_decode_floating_2 : decodes [
    (vf (-3) 11 [(37, 6 - 40), (32, 7 - 40)], .frcp ⟨hv, .f27, 0, 0, 0, .v 6, .v 7⟩),
    (vf (-3) 12 [(37, 6 - 40), (32, 7 - 40)], .frsq ⟨hv, .f27, 0, 0, 0, .v 6, .v 7⟩),
    (gf (-3) 13 [(37, 6 - 13), (36, 1), (32, 7 - 13)], .fexp ⟨hg, .f27, 0, 0, 0, .g 6, .g 7⟩),
    (vf (-3) 14 [(37, 6 - 40), (32, 7 - 40)], .flog ⟨hv, .f27, 0, 0, 0, .v 6, .v 7⟩),
    (vf (-3) 15 [(37, 6 - 40), (32, 7 - 40)], .fexp3 ⟨hv, .f27, 0, 0, 0, .v 6, .v 7⟩),
    (vf (-3) 16 [(37, 6 - 40), (32, 7 - 40)], .flog3 ⟨hv, .f27, 0, 0, 0, .v 6, .v 7⟩),
    (vf (-3) 17 [(37, 6 - 40), (32, 7 - 40)], .ftanh ⟨hv, .f27, 0, 0, 0, .v 6, .v 7⟩),
    (vf (-3) 18 [(17, 1), (37, 6 - 40), (32, 7 - 40), (0, -3)], .fscl ⟨hv, .f27, 0, 0, 0, .v 6, .v 7, .imm (-3)⟩),
    (vf (-3) 19 [(37, 6 - 40), (32, 7 - 40)], .fcls ⟨hv, .f27, 0, 0, 0, .v 6, .v 7⟩),
    (vf (-3) 20 [(37, 6 - 40), (32, 7 - 40), (0, 364)], .frnd ⟨hv, .f27, 0, 0, 0, .v 6, .v 7, 364⟩)] = true := by decide +kernel

/-- Class -+ (R112, R117): type 21-20, operation or B source 19, FZI or saturation 18, FZO 17, trap enable 16. -/
theorem test_decode_compare : decodes [
    (vf (-2) 1 [(20, 1), (19, 1), (37, 1 - 4), (32, 8 - 40), (0, 5)], .cmp ⟨hv, .d, 0, 0, 1, .v 8, .imm 5⟩),
    (vf (-2) 2 [(20, -3), (18, 1), (37, 8 - 4), (32, 7 - 40), (27, 8 - 40), (0, -1)], .fcmp ⟨hv, .f9, 1, 0, 8, .v 7, .v 8, -1⟩),
    (vf (-2) 3 [(37, 6 - 40), (32, 7 - 40), (27, 8 - 40), (22, 9 - 40), (2, 1), (0, 3 - 4)],
      .sel ⟨hv, false, 0, 0, .v 6, .v 7, .v 8, .v 9, .q 3⟩),
    (gf (-2) 4 [(37, 2 - 4), (36, 1), (32, 7 - 13), (0, 4)], .pset ⟨hg, 0, 2, .g 7, 4⟩),
    (vf (-2) 5 [(37, 2 - 4), (32, 3 - 4), (31, 1), (27, 4 - 4), (0, 9841)], .ptbl ⟨hv, 0, 2, .p 3, .q 4, 9841⟩),
    (vf (-2) 6 [(37, 2 - 4), (32, 3 - 4)], .pany ⟨hv, 0, 2, .p 3⟩),
    (vf (-2) 7 [(37, 2 - 4), (32, 3 - 4)], .pall ⟨hv, 0, 2, .p 3⟩),
    (vf (-2) 8 [(37, 6 - 40), (32, 3 - 4), (0, -1)], .pcnt ⟨hv, 0, .v 6, .p 3, -1⟩),
    (vf (-2) 9 [(20, 1), (37, 6 - 40), (32, 8 - 40), (27, 9 - 40), (0, -26)], .shfl ⟨hv, true, 0, 0, .v 6, .v 8, .v 9, -26⟩),
    (vf (-2) 10 [(37, 6 - 40), (32, 8 - 40), (0, 26)], .bcst ⟨hv, false, 0, 0, .v 6, .v 8, 26⟩),
    (vf (-2) 11 [(20, 3), (19, -1), (18, 1), (17, 1), (37, 6 - 40), (32, 8 - 40)], .vred ⟨hv, .f27, -1, 1, 1, 0, .v 6, .v 8⟩),
    (vf (-2) 12 [(20, -1), (19, 1), (18, -1), (37, 6 - 40), (32, 8 - 40)], .vscan ⟨hv, .t, 1, -1, 0, 0, .v 6, .v 8⟩)] = true := by
  decide +kernel

/-- Class 0- (R112, R118). -/
theorem test_decode_memory : decodes [
    (vf (-1) 1 [(21, 1), (20, 1), (19, 1), (17, 4), (16, 1), (37, 8 - 40), (36, 1), (32, 6 - 13), (27, 5 - 40), (22, 26), (0, -9)],
      .ld ⟨hv, .double, true, some 26, true, .v 8, ⟨6, .v 5, 4, -9⟩⟩),
    (vf (-1) 2 [(21, -1), (17, 1), (36, 1), (32, 6 - 13), (27, 5 - 40), (22, 7 - 40)], .st ⟨hv, .tryte, false, ⟨6, .v 5, 1, 0⟩, .v 7⟩),
    (gf (-1) 3 [(21, 1), (37, 2 - 13), (36, 1), (32, 6 - 13), (0, 12)], .ldg ⟨hg, true, 2, 6, 12⟩),
    (gf (-1) 4 [(26, 1), (22, 3 - 13), (36, 1), (32, 6 - 13), (0, 12)], .stg ⟨hg, false, 3, 6, 12⟩),
    (vf (-1) 5 [(19, 1), (17, 2), (37, 8 - 40), (36, 1), (32, 6 - 13), (27, 5 - 40), (22, 1)],
      .lds ⟨hv, .word, some 1, false, .v 8, ⟨6, .v 5, 2, 0⟩⟩),
    (vf (-1) 6 [(17, 3), (36, 1), (32, 6 - 13), (31, 1), (27, 5 - 13), (26, -1), (22, 2)], .sts ⟨hv, .word, ⟨6, .g 5, 3, 0⟩, .x 2⟩),
    (vf (-1) 7 [(20, 1), (18, -2), (16, 2), (37, 8 - 40), (36, 1), (32, 6 - 13), (27, 5 - 40), (22, 7 - 40), (0, 77)],
      .atom ⟨hv, false, true, .tbin 77, .v 8, ⟨6, .v 5, 2, 0⟩, .v 7⟩),
    (vf (-1) 8 [(21, -1), (20, 1), (19, -1), (17, 1), (16, -1), (37, 9 - 13), (36, 1), (32, 6 - 13), (27, 5 - 40), (22, 7 - 40)],
      .red ⟨hv, .tryte, some 9, -1, true, ⟨6, .v 5, 1, 0⟩, .v 7⟩)] = true := by decide +kernel
theorem test_decode_memory_2 : decodes [
    (gf (-1) 9 [(36, 1), (32, 24 - 13), (31, 1), (27, 26 - 13)], .ldmc ⟨hg, 24, 26⟩),
    (vf (-1) 10 [(17, 2), (36, 1), (32, 6 - 13), (27, 5 - 40), (22, 3)], .pref ⟨hv, 3, ⟨6, .v 5, 2, 0⟩⟩),
    (gf (-1) 11 [(20, -4), (19, -1)], .fence ⟨hg, -4, -1⟩),
    (vf (-1) 12 [(37, 8 - 40), (36, 1), (32, 6 - 13), (27, 5 - 40)], .ldtag ⟨hv, .v 8, ⟨6, .v 5, 0, 0⟩⟩),
    (vf (-1) 13 [(22, 8 - 40), (36, 1), (32, 6 - 13), (27, 5 - 40)], .sttag ⟨hv, .v 8, ⟨6, .v 5, 0, 0⟩⟩),
    (vf (-1) 14 [(17, 2), (36, 1), (32, 6 - 13), (27, 5 - 40)], .cflush ⟨hv, ⟨6, .v 5, 2, 0⟩⟩),
    (vf (-1) 15 [(36, 1), (32, 6 - 13), (27, 5 - 40), (0, -162)], .cinv ⟨hv, ⟨6, .v 5, 0, -162⟩⟩),
    (gf (-1) 16 [(36, 1), (32, 6 - 13), (31, 1), (27, 5 - 13), (0, 162)], .icinv ⟨hg, 6, .g 5, 162⟩),
    (vf (-1) 17 [(42, 3)], .isync ⟨.vector, 0, .zero⟩)] = true := by decide +kernel

/-- Classes 00 and 0+ (R112, R103, R119, R120). -/
theorem test_decode_moves : decodes [
    (vf 0 1 [(21, 1), (37, 6 - 40), (32, 8 - 40)], .mov ⟨hv, true, .v 6, .v 8⟩),
    (vf 0 2 [(37, 6 - 40), (26, 1), (0, -2)], .movi ⟨hv, .v 6, 2541865828327⟩),
    (gf 0 3 [(37, 6 - 13), (16, -1)], .movh ⟨hg, .g 6, -43046721⟩),
    (vf 0 4 [(37, 6 - 13), (32, 8 - 40), (0, -1)], .movg ⟨hv, 6, .v 8, -1⟩),
    (vf 0 5 [(32, 8 - 40), (0, -32)], .movs ⟨hv, .write (.v 8) .tk2⟩),
    (vf 0 6 [(37, 6 - 40), (36, 1), (32, 8 - 4)], .movc ⟨hv, .v 6, .q 8⟩),
    (vf 0 7 [(20, -4), (19, 1), (18, 1), (16, 1), (37, 6 - 40), (32, 8 - 40)], .cvt ⟨hv, .f9i9, 1, 1, 0, 1, .v 6, .v 8⟩),
    (vf 0 8 [(20, 3), (19, -1), (18, 1), (17, 1), (37, 6 - 40), (32, 8 - 40)], .bcvt ⟨hv, .bf16, false, 1, 1, 0, .v 6, .v 8⟩),
    (vf 0 9 [(21, 1), (37, 6 - 40), (32, 8 - 40)], .pack ⟨hv, 1, .v 6, .v 8⟩),
    (vf 0 10 [(21, -1), (37, 6 - 40), (32, 8 - 40)], .unpack ⟨hv, -1, .v 6, .v 8⟩)] = true := by decide +kernel
theorem test_decode_control : decodes [
    (gf 1 1 [(21, 1), (36, 1), (32, 8 - 13), (0, 4)], .bra ⟨hg, .reg 8 4⟩),
    (vf 1 2 [(21, 1), (32, 8 - 40), (0, 4)], .jmpi ⟨hv, .v 8, 4⟩),
    ([(46, 84), (44, 3 - 4), (42, -3), (0, -4)], .call ⟨⟨.vector, 3, .posNeg⟩, .rel (-4)⟩),
    (vf 1 4 [(21, 1), (36, 1), (32, 8 - 13)], .calli ⟨hv, .g 8, 0⟩),
    (vf 1 5 [], .ret hv), (vf 1 6 [], .yld hv),
    (vf 1 7 [(37, 3 - 40), (0, 729)], .waitj ⟨hv, .v 3, 729⟩),
    (vf 1 8 [(42, -1)], .exit ⟨.vector, 0, .neg⟩), (gf 1 9 [(42, 2)], .nop ⟨.group, 0, .posZero⟩)] = true := by decide +kernel

/-- Classes +- and +0 (R112, R121, R122, R348). -/
theorem test_decode_synchronisation : decodes [
    (vf 2 1 [(12, 2), (0, 4)], .barA ⟨hv, 2, 4⟩), (vf 2 1 [(20, 1), (12, -40), (0, 4)], .barS ⟨hv, -40, 4⟩),
    (vf 2 1 [(20, -1), (12, 2), (0, 4)], .barD ⟨hv, 2, 4⟩), (vf 2 1 [(20, 2), (12, 2)], .barW ⟨hv, 2⟩),
    (vf 2 2 [(0, 71)], .sna ⟨hv, 71⟩), (vf 2 2 [(20, -1), (0, -9)], .snd ⟨hv, -9⟩),
    (vf 2 2 [(20, 3), (18, 3), (36, 1), (32, 6 - 13), (0, 2)], .snr ⟨hv, 3, 6, 2⟩),
    (gf 2 2 [(20, 2), (36, 1), (32, 6 - 13), (0, 2)], .snb ⟨hg, 6, 2⟩),
    (vf 2 2 [(20, 1), (37, 6 - 13), (0, 2)], .snw ⟨hv, 6, 2⟩), (vf 2 2 [(20, -2), (37, 6 - 13), (0, 2)], .snp ⟨hv, 6, 2⟩),
    (vf 2 3 [(20, -2), (36, 1), (32, 6 - 13), (31, 1), (27, 7 - 13), (0, 3)], .tbinit ⟨hv, 6, 7, 3⟩),
    (vf 2 3 [(20, 1), (36, 1), (32, 6 - 13), (31, 1), (27, 7 - 13), (0, 3)], .tbarr ⟨hv, 6, 7, 3⟩),
    (vf 2 3 [(20, 2), (36, 1), (32, 6 - 13), (31, 1), (27, 7 - 13), (0, 3)], .tbexp ⟨hv, 6, 7, 3⟩),
    (vf 2 3 [(20, 3), (36, 1), (32, 6 - 13), (31, 1), (27, 7 - 13), (0, 3)], .tbwait ⟨hv, 6, 7, 3⟩),
    (vf 2 3 [(20, -1), (37, 5 - 13), (36, 1), (32, 6 - 13), (31, 1), (27, 7 - 13), (0, 3)], .tbtest ⟨hv, 5, 6, 7, 3⟩),
    (vf 2 4 [(32, 6 - 40), (0, 8)], .sleept ⟨hv, .v 6, 8⟩),
    (vf 2 5 [(36, 1), (32, 6 - 13), (27, 9 - 40), (0, 8)], .touch ⟨hv, 6, .v 9, 8⟩)] = true := by decide +kernel
theorem test_decode_engines : decodes [
    (gf 3 1 [(36, 1), (32, 6 - 13), (0, 26)], .win ⟨hg, 6, 26⟩), (gf 3 2 [(0, 26)], .winrel ⟨hg, 26⟩),
    (gf 3 3 [(21, -1), (37, 5 - 13), (36, 1), (32, 6 - 13), (0, 7)], .task ⟨hg, 5, 6, -1, 7⟩),
    (gf 3 4 [(37, 5 - 13), (36, 1), (32, 6 - 13)], .tqry ⟨hg, 5, 6⟩),
    (gf 3 5 [(36, 1), (32, 5 - 13), (31, 1), (27, 6 - 13), (0, 4)], .send ⟨hg, 5, 6, 4⟩),
    (gf 3 6 [(36, 1), (32, 5 - 13), (0, 3)], .recv ⟨hg, 5, 3⟩),
    (gf 3 7 [(37, 5 - 13), (36, 1), (32, 6 - 13), (0, 1)], .xfst ⟨hg, 5, 6, 1⟩),
    (gf 3 8 [(37, 5 - 13), (36, 1), (32, 6 - 13), (0, 35)], .xtab ⟨hg, 5, 6, 35⟩)] = true := by decide +kernel

/-- Class ++ (R112, R122, R305, R306, R416). -/
theorem test_decode_system : decodes [
    (gf 4 1 [(37, 5 - 13), (36, 1), (32, 6 - 13), (0, 1)], .lnch ⟨hg, 5, 6, 1⟩),
    (vf 4 2 [(36, 1), (32, 6 - 13), (2, 9), (0, -4)], .role ⟨hv, 6, 9, -4⟩),
    (vf 4 3 [(36, 1), (32, 6 - 13), (0, 2)], .preh ⟨hv, 6, 2⟩),
    (gf 4 4 [(0, 5)], .trap ⟨hg, 5⟩), (gf 4 5 [], .rft hg), (vf 4 6 [(42, -2), (0, -5)], .brk ⟨⟨.vector, 0, .zeroNeg⟩, -5⟩),
    (gf 4 7 [(37, 5 - 13), (36, 1), (32, 6 - 13), (31, 1), (27, 9 - 13), (26, 1), (22, 10 - 13), (0, 26)], .wset ⟨hg, 5, 6, 9, 10, 26⟩),
    (gf 4 8 [(37, 5 - 13), (31, 1), (27, 9 - 13), (0, 2)], .wclr ⟨hg, 5, 9, 2⟩),
    (gf 4 9 [(37, 21 - 13), (31, 1), (27, 9 - 13), (0, 2)], .wrd ⟨hg, 21, 9, 2⟩),
    (gf 4 10 [(37, 23 - 13), (31, 1), (27, 9 - 13)], .hlst ⟨hg, 23, 9⟩),
    (gf 4 11 [(37, 5 - 13), (31, 1), (27, 9 - 13), (0, 508)], .hrdv ⟨hg, 5, 9, 508⟩),
    (gf 4 12 [(37, 5 - 13), (36, 1), (32, 6 - 13), (31, 1), (27, 9 - 13), (0, 300)], .hwrv ⟨hg, 5, 6, 9, 300⟩),
    (gf 4 13 [(18, 1), (37, 5 - 13), (31, 1), (27, 9 - 13)], .hrdp ⟨hg, 5, 9, .depth⟩),
    (gf 4 14 [(18, -1), (37, 5 - 13), (36, 1), (32, 6 - 13), (31, 1), (27, 9 - 13), (0, 9841)], .hwrp ⟨hg, 5, 6, 9, .link 9841⟩),
    (gf 4 15 [(37, 5 - 13), (31, 1), (27, 9 - 13)], .hstep ⟨hg, 5, 9⟩),
    (gf 4 16 [(20, 2), (37, 5 - 13), (31, 1), (27, 9 - 13)], .hres ⟨hg, 2, 5, 9⟩)] = true := by decide +kernel

/-- The fields of a half from its lowest trit: opcode 21, guard 19, mode 18, destination 14, source 13 and
9, modifiers 6, immediate 0 (R104). -/
def halfAt (p : Nat) (l : List (Nat × Int)) : List (Nat × Int) := l.map fun f => (f.1 + p, f.2)
/-- A paired word (R96). -/
def paired (a b : List (Nat × Int)) : List (Nat × Int) := (52, -4) :: (halfAt 26 a ++ halfAt 0 b)

/-- The paired opcodes of R123; the first is word 42 of the spec's chain. -/
theorem test_decode_paired : decodes [
    (paired [(21, 1), (19, -4), (14, 8 - 40), (13, -1), (9, 1)] [(21, 2), (19, -4), (14, 10 - 40), (13, -1), (9, 2)],
      .pairedWord ⟨.add, 0, .v 8, some (.x 1), 0, 0, 0, 0⟩ ⟨.sub, 0, .v 10, some (.x 2), 0, 0, 0, 0⟩),
    (paired [(21, 3), (19, -3), (14, 8 - 40), (9, 1 - 40), (8, -1), (7, 1)] [(21, 4), (19, 4), (14, 9 - 40), (13, 1), (9, 2 - 13)],
      .pairedWord ⟨.mul, 1, .v 8, some (.v 1), -1, 1, 0, 0⟩ ⟨.min, 8, .v 9, some (.g 2), 0, 0, 0, 0⟩),
    (paired [(21, 5), (19, -4), (18, -1), (9, 1 - 40)] [(21, 6), (19, -4), (14, 9 - 40), (9, 3 - 40)],
      .pairedWord ⟨.max, 0, .latch, some (.v 1), 0, 0, 0, 0⟩ ⟨.mov, 0, .v 9, some (.v 3), 0, 0, 0, 0⟩),
    (paired [(21, 7), (19, -4), (14, 8 - 40), (9, 1 - 40)] [(21, 8), (19, -4), (14, 9 - 40), (9, 3 - 40)],
      .pairedWord ⟨.neg, 0, .v 8, some (.v 1), 0, 0, 0, 0⟩ ⟨.abs, 0, .v 9, some (.v 3), 0, 0, 0, 0⟩),
    (paired [(21, 9), (19, -4), (14, 8 - 40), (9, 1 - 40)] [(21, -1), (19, -4), (14, 9 - 40), (0, 364)],
      .pairedWord ⟨.tsh, 0, .v 8, some (.v 1), 0, 0, 0, 0⟩ ⟨.addi, 0, .v 9, none, 0, 0, 0, 364⟩),
    (paired [(21, -2), (19, -4), (14, 8 - 40), (0, 1)] [(21, -3), (19, -4), (14, 9 - 40), (0, -364)],
      .pairedWord ⟨.subi, 0, .v 8, none, 0, 0, 0, 1⟩ ⟨.muli, 0, .v 9, none, 0, 0, 0, -364⟩)] = true := by decide +kernel
theorem test_decode_paired_2 : decodes [
    (paired [(21, -4), (19, -4), (14, 8 - 40), (0, 1)] [(21, -5), (19, -4), (14, 9 - 40), (0, 2)],
      .pairedWord ⟨.mini, 0, .v 8, none, 0, 0, 0, 1⟩ ⟨.maxi, 0, .v 9, none, 0, 0, 0, 2⟩),
    (paired [(21, -6), (19, -4), (14, 8 - 40), (0, 1)] [(21, -9), (19, -4), (14, 9 - 40), (0, 2)],
      .pairedWord ⟨.movi, 0, .v 8, none, 0, 0, 0, 1⟩ ⟨.tshi, 0, .v 9, none, 0, 0, 0, 2⟩),
    (paired [(21, 10), (19, -4), (14, 8 - 40), (9, 1 - 40), (7, 1), (6, 1)] [(21, 11), (19, -4), (14, 9 - 40), (9, 3 - 40), (8, -1)],
      .pairedWord ⟨.fadd, 0, .v 8, some (.v 1), 0, 1, 1, 0⟩ ⟨.fsub, 0, .v 9, some (.v 3), -1, 0, 0, 0⟩),
    (paired [(21, 12), (19, -4), (14, 8 - 40), (9, 1 - 40)] [(21, 13), (19, -4), (14, 9 - 40), (9, 3 - 40)],
      .pairedWord ⟨.fmul, 0, .v 8, some (.v 1), 0, 0, 0, 0⟩ ⟨.fmin, 0, .v 9, some (.v 3), 0, 0, 0, 0⟩),
    (paired [(21, 14), (19, -4), (14, 8 - 40), (9, 1 - 40)] [(21, 15), (19, -4), (14, 9 - 40), (9, 3 - 40)],
      .pairedWord ⟨.fmax, 0, .v 8, some (.v 1), 0, 0, 0, 0⟩ ⟨.fneg, 0, .v 9, some (.v 3), 0, 0, 0, 0⟩),
    (paired [(21, 16), (19, -4), (14, 8 - 40), (9, 1 - 40)] [(21, 6), (19, -4), (14, 9 - 40), (9, 3 - 40)],
      .pairedWord ⟨.fabs, 0, .v 8, some (.v 1), 0, 0, 0, 0⟩ ⟨.mov, 0, .v 9, some (.v 3), 0, 0, 0, 0⟩)] = true := by decide +kernel

/-- No word of the list decodes. -/
def rejects (l : List (List (Nat × Int))) : Bool := l.all fun r => (decode? (word r)).isNone

/-- ILLEGAL words (R96, R99 to R101, R106, R110, R114 to R124). -/
theorem test_decode_rejects : rejects [
    [], [(52, 2), (46, 90), (44, -4)], [(52, -1), (46, 90), (44, -4)], vf 1 10 [], vf (-4) 21 [], vf 1 9 [(42, 4)], vf 1 9 [(0, 1)],
    vf (-4) 4 [(41, 1), (37, -35), (32, -35)], vf (-4) 4 [(41, -1), (37, 1), (32, -35)], gf (-4) 4 [(37, 14), (36, 1)],
    gf (-4) 4 [(37, 0), (32, 0)], vf (-4) 4 [(17, 1)], vf (-4) 4 [(18, 1)], vf (-4) 1 [(18, 1), (27, 1)], vf (-3) 1 [(21, 1)],
    vf (-2) 1 [(20, 2), (37, 1)], vf (-2) 1 [(37, -4)], gf (-1) 1 [(36, 1), (32, 1)], vf (-1) 1 [(17, -1), (36, 1), (32, 1)],
    vf (-1) 7 [(18, 4), (36, 1), (32, 1)], vf (-1) 11 [(20, 4)], vf 0 8 [(20, 0), (19, 1)], vf 0 5 [(0, 13)],
    gf 2 1 [], vf 2 1 [(20, 3)], vf 2 2 [(20, 2), (18, 1), (36, 1)], vf 4 7 [],
    paired [(21, 17), (19, -4), (14, -32)] [(21, 6), (19, -4), (14, -31)]] = true := by decide +kernel

/-- The trytes of the spec's worked encodings, highest first (chapter 6 and the reference entries). -/
def trytes (a b c d e f : Int) : Int := ((((a * 19683 + b) * 19683 + c) * 19683 + d) * 19683 + e) * 19683 + f

theorem test_decode_worked :
    decode? (trytes (-970) 7914 (-6884) 0 0 0) = some (.add ⟨⟨.vector, 2, .posZero⟩, .w, 0, 0, .v 5, .v 12, .src (.x 1)⟩) ∧
    decode? (trytes 491 (-6560) (-1458) 28 0 2) = some (.snr ⟨hv, 1, 7, 2⟩) ∧
    (decode? (trytes 0 0 0 0 0 0)).isNone := by decide +kernel

/-! ### Witnesses: states that meet the hypotheses of the statements -/

open Sys2Proof.Machine Sys2Proof.Tern

/-- The machine of log entry 5: warp 3 of gang 2 (launch 1, context 0) in core 0, 27 lanes at the word of page 2. -/
def base : State := placeWord State.reset 0
/-- The issue of all 27 lanes of warp 3. -/
def cur0 : Cur := ⟨3, placePc, upto 27, 0, false, none⟩
/-- The machine about to run a word of warp 3, with its warp, its gang and itself as given. -/
def st (fw : Warp → Warp := id) (fg : Gang → Gang := id) (fs : State → State := id) : State :=
  fs { base with warps := base.warps.map fw, gangs := base.gangs.map fg, cur := some cur0, agenda := [] }
/-- Warp 3 and gang 2. -/
def warpOf (s : State) : Warp := s.warps.headD (newWarp 3 none 0 0 .saved 0 0 9 0 [])
def gang0 : Gang := base.gangs.headD ⟨2, 1, 0, 0, 0, 0, [0], 0, 1, [], [], [], [], [], [], [], [], [], 0, false, 0, 0, false, 0, false, false, [], false, false, none, []⟩

/-- Lines held by their home slices, which no read meets an image of. -/
def heldAt (ls : List Int) (s : State) : State := { s with home := { s.home with held := ls.map fun l => ⟨0, l, false, none, none, 0, false⟩ } }

/-- A word of warp 3 is about to run. -/
def ready (i : Instr) (s : State) : Bool :=
  s.cur == some cur0 && s.warp? 3 == some (warpOf s) && i.wf && legal i (warpOf s) (upto 27) &&
    (warpOf s).lanes.length == 27 && decide ((warpOf s).allot ≤ 81)

theorem runs_of_ready {i : Instr} {s : State} (h : ready i s = true) : Runs i s cur0 (warpOf s) := by
  simp only [ready, Bool.and_eq_true, beq_iff_eq, decide_eq_true_eq] at h
  obtain ⟨⟨⟨⟨⟨h1, h2⟩, h3⟩, h4⟩, h5⟩, h6⟩ := h
  exact ⟨h1, h2, rfl, h3, h4, ⟨h5, h6⟩, by decide⟩

/-- Some state runs the word i where P holds. -/
def Meets (i : Instr) (P : State → Cur → Warp → List Nat → Prop) : Prop :=
  ∃ s c w, Runs i s c w ∧ P (s.counted i c.wid) c w (activeOf i w c.lanes)
theorem meets {i : Instr} {P : State → Cur → Warp → List Nat → Prop} (s : State) (h : ready i s = true)
    (hp : P (s.counted i 3) cur0 (warpOf s) (activeOf i (warpOf s) (upto 27))) : Meets i P := ⟨s, _, _, runs_of_ready h, hp⟩

/-- Pairs and arithmetic (NarrowingDiscardingAndDividing, RoundingIsToNearest, NansPassOn: a NaN as the last of three operands). -/
theorem witness_arithmetic :
    (-maxv 9 ≤ -9841 ∧ -9841 ≤ maxv 9 ∧ pow3 9 ∣ 9842 - (-9841)) ∧ ((2 : Int) ≠ 0 ∧ 2 * (1 - divNearest 1 2 * 2).natAbs = (2 : Int).natAbs) ∧
    (0 < 1 ∧ 0 < 2 ∧ (let r := tf27.round 1 2 0; 2 * (((1 * Nat.pow 3 (0 - r.g).toNat : Nat) : Int) - r.q * ((2 * Nat.pow 3 (r.g - 0).toNat : Nat) : Int)).natAbs =
      2 * Nat.pow 3 (r.g - 0).toNat)) ∧
    (∃ x p, tf9.dec x = .nan p ∧ tf9.signalling p = false ∧ ∀ y ∈ [(tf9.finish 0 (.ofFin 7 0)).1, (tf9.finish 0 (.ofFin 2 0)).1], (tf9.dec y).isNan = false) := by
  refine ⟨by decide +kernel, by decide +kernel, by decide +kernel, ⟨9477, 0, by decide +kernel⟩⟩

/-- One word of each shape of the value words runs: the statements about them assume nothing more. -/
theorem witness_value_words : [Instr.abs ⟨hv, .t, 0, 0, .v 26, .v 2⟩, .add ⟨hg, .d, 1, 0, .g 4, .g 24, .src (.g 8)⟩, .mad ⟨hv, .w, -1, 1, .latch, .v 1, .v 2, .g 26⟩,
    .fma ⟨hv, .f9, 0, 1, 0, .v 3, .v 4, .v 5, .v 6⟩, .movh ⟨hg, .g 6, 5⟩, .cvt ⟨hv, .f27f9, 0, 0, 0, 0, .v 1, .v 2⟩,
    .sel ⟨hv, true, 0, 0, .v 24, .v 0, .v 2, .v 4, .p 8⟩, .shfl ⟨hv, false, 0, 0, .v 1, .v 2, .v 3, -26⟩, .cmp ⟨hg, .w, 0, 0, 8, .g 1, .imm 5⟩,
    .pall ⟨hv, 0, 1, .p 2⟩, .vred ⟨hv, .w, 0, 1, 0, 0, .v 1, .v 2⟩, .vscan ⟨hv, .f9, 1, 1, 1, 0, .v 1, .v 2⟩, .vred ⟨hv, .d, 0, 1, 0, 0, .v 0, .v 2⟩,
    .vred ⟨hv, .t, 0, 1, 0, 0, .v 1, .v 2⟩, .vscan ⟨hv, .f27, 0, 1, 0, 0, .v 1, .v 2⟩,
    .movg ⟨hv, 26, .v 2, 26⟩, .movs ⟨hv, .read (.v 2) .lane⟩, .movs ⟨hv, .read (.v 5) .gtime⟩, .movs ⟨hg, .write (.g 5) .spill⟩, .movs ⟨hv, .write (.v 5) .flags⟩,
    .pairedWord ⟨.add, 0, .v 8, some (.v 1), 0, 1, 0, 0⟩ ⟨.movi, 0, .v 9, none, 0, 0, 0, 5⟩].all (fun i => ready i st) = true := by decide +kernel

theorem witness_special_registers :
    (∃ s c w, Runs (.movs ⟨hv, .read (.v 2) .tk0⟩) s c w) ∧ Rule.special st (warpOf st) 5 .lane = some 5 ∧
    (∃ s c w, Runs (.movs ⟨hv, .read (.v 5) .gtime⟩) s c w ∧ activeOf (.movs ⟨hv, .read (.v 5) .gtime⟩) w c.lanes ≠ []) ∧
    (∃ s c w, Runs (.movs ⟨hg, .write (.g 5) .spill⟩) s c w ∧ activeOf (.movs ⟨hg, .write (.g 5) .spill⟩) w c.lanes ≠ []) ∧
    (∃ s c w, Runs (.movs ⟨hv, .write (.v 5) .spill⟩) s c w ∧ activeOf (.movs ⟨hv, .write (.v 5) .spill⟩) w c.lanes ≠ []) ∧
    (∃ s c w, Runs (.movs ⟨hv, .write (.v 5) .flags⟩) s c w ∧ Quiet (.movs ⟨hv, .write (.v 5) .flags⟩) s w) :=
  ⟨⟨st fun w => { w with handler := true }, _, _, runs_of_ready (by decide +kernel)⟩, rfl, ⟨st, _, _, runs_of_ready (by decide +kernel), by decide +kernel⟩,
   ⟨st, _, _, runs_of_ready (by decide +kernel), by decide +kernel⟩, ⟨st, _, _, runs_of_ready (by decide +kernel), by decide +kernel⟩,
   ⟨st, _, _, runs_of_ready (by decide +kernel), ⟨rfl, by decide +kernel⟩⟩⟩

/-- PairedWordRunsBothHalves: no watch unit is armed; a half that overflows raises its flag. -/
theorem witness_paired_word :
    (let i := Instr.pairedWord ⟨.add, 0, .v 8, some (.v 1), 0, 1, 0, 0⟩ ⟨.movi, 0, .v 9, none, 0, 0, 0, 5⟩
     Runs i st cur0 (warpOf st) ∧ Quiet i st (warpOf st)) ∧
    (Rule.half ⟨.add, 0, .v 8, some (.v 1), 0, 1, 0, 0⟩ (maxv 27) 1).2.isNone = false :=
  ⟨⟨runs_of_ready (by decide +kernel), ⟨rfl, by decide +kernel⟩⟩, by decide +kernel⟩

/-- NopExitYldIsync. -/
theorem witness_nop_exit_yld_isync : Meets (.nop hv) (fun _ _ _ _ => True) ∧ Meets (.exit hv) (fun _ _ _ _ => True) ∧ Meets (.yld hv) (fun _ _ _ _ => True) ∧
    Meets (.isync hg) (fun _ _ _ al => al ≠ []) :=
  ⟨meets st (by decide +kernel) trivial, meets st (by decide +kernel) trivial, meets st (by decide +kernel) trivial, meets st (by decide +kernel) (by decide +kernel)⟩

/-- BranchesGoToTheirTargets. -/
theorem witness_branches : Meets (.bra ⟨hv, .rel (-21523360)⟩) (fun _ _ w al => al ≠ [] ∧ w.handler = false) ∧
    Meets (.bra ⟨hg, .reg 24 1⟩) (fun _ _ w al => al ≠ [] ∧ w.handler = true) ∧ Meets (.bra ⟨⟨.vector, 1, .pos⟩, .rel 1⟩) (fun _ _ _ al => al = []) ∧
    Meets (.jmpi ⟨hv, .v 24, 1⟩) (fun _ _ _ _ => True) :=
  ⟨meets st (by decide +kernel) (by decide +kernel), meets (st fun w => { w with handler := true }) (by decide +kernel) (by decide +kernel),
   meets st (by decide +kernel) (by decide +kernel), meets st (by decide +kernel) trivial⟩

/-- Every lane at depth d, with link entries. -/
def deep (d : Nat) (ls : List (Option Int)) (w : Warp) : Warp := w.allLanes fun _ x => { x with depth := d, link := ls }
/-- Scratchpad of the gang: 81 lines. -/
def pad81 (g : Gang) : Gang := { g with alines := 1 }

/-- CallsPushAndReturnsPop: below depth 9, at depth 9 with a spill line that can be read, at the greatest depth, with an uncorrectable spill line. -/
theorem witness_calls :
    Meets (.call ⟨hv, .rel 9⟩) (fun s _ w al => ∃ g, gangOf s w = some g ∧ Rule.callFits g w al ∧ ∀ u ∈ callUnits w al, g.unread u.2 3 = false) ∧
    Meets (.calli ⟨hv, .v 24, 9⟩) (fun s _ w al => ∃ g, gangOf s w = some g ∧ Rule.callFits g w al ∧ (∀ u ∈ callUnits w al, g.unread u.2 3 = false) ∧
      (w.lane 0).depth = 9) ∧
    Meets (.call ⟨hv, .rel 9⟩) (fun s _ w al => ∃ g, gangOf s w = some g ∧ ¬ Rule.callFits g w al) ∧
    Meets (.call ⟨hv, .rel 9⟩) (fun s _ w al => ∃ g, gangOf s w = some g ∧ Rule.callFits g w al ∧ ∃ u ∈ callUnits w al, g.unread u.2 3 = true) ∧
    (∀ l, l < 27 → ((warpOf st).lane l).depth < 9) := by
  refine ⟨meets st (by decide +kernel) ⟨_, rfl, ?_⟩,
    meets (st (fun w => { deep 9 (List.replicate 9 (some 7)) w with spill := 0 }) pad81) (by decide +kernel) ⟨_, rfl, ?_⟩,
    meets (st (deep 9841 [])) (by decide +kernel) ⟨_, rfl, ?_⟩,
    meets (st (fun w => { deep 9 (List.replicate 9 (some 7)) w with spill := 0 }) fun g => { pad81 g with bad := [0] }) (by decide +kernel) ⟨_, rfl, ?_⟩,
    by decide +kernel⟩ <;> unfold Rule.callFits <;> decide +kernel

/-- CallsPushAndReturnsPop: the returns. -/
theorem witness_returns :
    Meets (.ret hv) (fun s _ w al => ∃ g, gangOf s w = some g ∧ ∀ l ∈ al, 1 ≤ (w.lane l).depth ∧ (w.lane l).depth ≤ 9 ∧ ∃ v r, (w.lane l).link = some v :: r) ∧
    Meets (.ret hv) (fun s _ w al => ∃ g, gangOf s w = some g ∧ failing al (retBad g w) = [] ∧
      ∀ l ∈ al, ∀ a ∈ retLines w l, g.unread (a + 3 * (l : Int)) 3 = false) ∧
    Meets (.ret hv) (fun s _ w al => ∃ g, gangOf s w = some g ∧ ∃ l ∈ al, (w.lane l).depth = 0) ∧
    Meets (.ret hv) (fun s _ w al => ∃ g, gangOf s w = some g ∧ failing al (retBad g w) = [] ∧
      ∃ l ∈ al, ∃ a ∈ retLines w l, g.unread (a + 3 * (l : Int)) 3 = true) := by
  refine ⟨meets (st (deep 9 [some 7])) (by decide +kernel) ⟨_, rfl, ?_⟩, meets (st (fun w => { deep 1 [none] w with spill := 0 }) pad81) (by decide +kernel) ⟨_, rfl, by decide +kernel⟩,
    meets st (by decide +kernel) ⟨_, rfl, 0, by decide +kernel⟩,
    meets (st (fun w => { deep 1 [none] w with spill := 0 }) fun g => { pad81 g with bad := [0] }) (by decide +kernel) ⟨_, rfl, by decide +kernel⟩⟩
  have h : ∀ l, l < 27 → 1 ≤ ((warpOf (st (deep 9 [some 7]))).lane l).depth ∧ ((warpOf (st (deep 9 [some 7]))).lane l).depth ≤ 9 ∧
    ((warpOf (st (deep 9 [some 7]))).lane l).link = [some 7] := by decide +kernel
  have m : ∀ l ∈ activeOf (.ret hv) (warpOf (st (deep 9 [some 7]))) (upto 27), l < 27 := by decide +kernel
  exact fun l hl => ⟨(h l (m l hl)).1, (h l (m l hl)).2.1, 7, [], (h l (m l hl)).2.2⟩

/-- WaitjAndSleeptWait. -/
theorem witness_waits : Meets (.waitj ⟨hv, .v 3, 0⟩) (fun _ _ _ _ => True) ∧ Meets (.sleept ⟨hv, .v 3, 1⟩) (fun _ _ w _ => w.handler = false) :=
  ⟨meets st (by decide +kernel) trivial, meets st (by decide +kernel) (by decide +kernel)⟩

/-- A pair by its second part. -/
theorem pair_of {α β : Type} {p : α × β} {b : β} (h : p.2 = b) : ∃ a, p = (a, b) := ⟨p.1, by rw [← h]⟩
/-- A named option. -/
theorem some_of {α : Type} {o : Option α} (h : o.isSome = true) : ∃ a, o = some a := Option.isSome_iff_exists.mp h

/-- A gang of two warps with named barriers. -/
def barred (b : Bar) (g : Gang) : Gang := { g with bars := List.replicate 9 b, nwarps := 2 }

/-- The gang on the pair of cores 0 and 1. -/
def paired2 (g : Gang) : Gang := { g with cores := [0, 1] }
/-- A store of core 0 on its way. -/
def storing (s : State) : State := { s with reqs := [⟨7, 0, 0, 3, 0, 586, .store [⟨0, .dom 0 47466, none, 3, 5⟩], none, 0, 0, []⟩] }

/-- NamedBarrierWordsArriveAndWait: the first and the last barrier and count; a gang on a pair, without and with a store under way. -/
theorem witness_barriers :
    Meets (.barA ⟨hv, 0, 1⟩) (fun s c w al => ∃ g, gangOf s w = some g ∧ al ≠ [] ∧ Rule.barGood g w.wid 0 1 ∧ Rule.gangFreed s c w) ∧
    Meets (.barS ⟨hv, 8, 2⟩) (fun s c w al => ∃ g, gangOf s w = some g ∧ al ≠ [] ∧ Rule.barGood g w.wid 8 2 ∧ Rule.gangFreed s c w ∧ pairGang s w = true) ∧
    Meets (.barD ⟨hv, 8, 2⟩) (fun s c w al => ∃ g, gangOf s w = some g ∧ al ≠ [] ∧ Rule.barGood g w.wid 8 2 ∧ Rule.gangFreed s c w) ∧
    Meets (.barW ⟨hv, 8⟩) (fun s _ w al => ∃ g, gangOf s w = some g ∧ al ≠ [] ∧ 0 ≤ (8 : Int) ∧ (8 : Int).toNat < g.bars.length) ∧
    Meets (.barA ⟨hv, 9, 2⟩) (fun s _ w al => ∃ g, gangOf s w = some g ∧ al ≠ [] ∧ ¬ Rule.barGood g w.wid 9 2) ∧
    Meets (.barA ⟨hv, 8, 2⟩) (fun s c w al => ∃ g, gangOf s w = some g ∧ al ≠ [] ∧ Rule.barGood g w.wid 8 2 ∧ pairGang s w = true ∧ ¬ Rule.freed s c w (-1)) ∧
    Meets (.barW ⟨hv, 9⟩) (fun s _ w al => ∃ g, gangOf s w = some g ∧ al ≠ [] ∧ ¬ (0 ≤ (9 : Int) ∧ (9 : Int).toNat < g.bars.length)) ∧
    (Bar.start.dropped.contains 3 = false ∧ (1 : Int) = 1 - ((0 + 0) - (0 + 0)) ∧ (1 : Int) ≠ 2 - ((0 + 0) - (0 + 0))) := by
  have good : ∀ q n : Int, 0 ≤ q → q ≤ 8 → 1 ≤ n → n ≤ 2 → ∀ g : Gang, g.bars = List.replicate 9 Bar.start → g.nwarps = 2 → Rule.barGood g 3 q n := by
    intro q n h1 h2 h3 h4 g hb hn
    exact ⟨h1, Bar.start, by rw [hb, List.getElem?_replicate, if_pos (by omega)], rfl, ⟨h3, by rw [hn]; exact h4⟩, by simp [Bar.start], by simp [Bar.start]; omega⟩
  refine ⟨meets (st id (barred Bar.start)) ?_ ⟨_, rfl, ?_, good 0 1 (by omega) (by omega) (by omega) (by omega) _ rfl rfl, ?_⟩,
    meets (st id fun g => paired2 (barred Bar.start g)) ?_ ⟨_, rfl, ?_, good 8 2 (by omega) (by omega) (by omega) (by omega) _ rfl rfl, ?_, ?_⟩,
    meets (st id (barred Bar.start)) ?_ ⟨_, rfl, ?_, good 8 2 (by omega) (by omega) (by omega) (by omega) _ rfl rfl, ?_⟩,
    meets (st id (barred Bar.start)) ?_ ⟨_, rfl, ?_⟩,
    meets (st id (barred Bar.start)) ?_ ⟨_, rfl, ?_, ?no⟩,
    meets (st id (fun g => paired2 (barred Bar.start g)) storing) ?_ ⟨_, rfl, ?_, good 8 2 (by omega) (by omega) (by omega) (by omega) _ rfl rfl, ?_, ?_⟩,
    meets (st id (barred Bar.start)) ?_ ⟨_, rfl, ?_⟩, by decide⟩
  case no =>
    rintro ⟨-, b, hb, -⟩
    cases (show (none : Option Bar) = some b from hb)
  all_goals (try unfold Rule.gangFreed) <;> (try unfold Rule.freed) <;> decide +kernel

/-- Channel 30 of launch 1, with an operation, two warps expected; as given. -/
def chanSt (op : Int) (f : Channel → Channel := id) : State := st id id fun s => { s with
  chans := [f (Channel.grant 30 (some 1) 0 (op * pow3 22 + 2))], launches := s.launches.map fun x => { x with chans := [30] } }
/-- System channel 8 (k = -1). -/
def sysChanSt : State := st id id fun s => { s with chans := [Channel.grant 31 none 8 (-4 * pow3 22 + 1)] }
/-- A channel found, with a property. -/
def found (s : State) (w : Warp) (k : Int) (al : List Nat) (p : Channel → Bool) : Bool := match snFind s w k al with | .ok c => p c | .error _ => false
theorem found_of {s : State} {w : Warp} {k : Int} {al : List Nat} {p : Channel → Bool} (h : found s w k al p = true) :
    ∃ c, snFind s w k al = .ok c ∧ p c = true := by
  unfold found at h; split at h
  · exact ⟨_, by assumption, h⟩
  · cases h

/-- ChannelWordsArriveAndRead. -/
theorem witness_channels :
    Meets (.sna ⟨hv, 0⟩) (fun s _ w al => ∃ ch, snFind s w 0 al = .ok ch ∧ (decide (al ≠ []) && !ch.misuse w.wid .plain) = true) ∧
    Meets (.sna ⟨hg, -1⟩) (fun s _ w al => ∃ ch, snFind s w (-1) al = .ok ch ∧ (decide (al ≠ []) && !ch.misuse w.wid .plain) = true) ∧
    Meets (.snd ⟨hv, 0⟩) (fun s _ w al => ∃ ch, snFind s w 0 al = .ok ch ∧ (decide (al ≠ []) && !ch.misuse w.wid .dropping) = true) ∧
    Meets (.snr ⟨hv, 0, 6, 0⟩) (fun s _ w al => ∃ ch, snFind s w 0 al = .ok ch ∧ (decide (al ≠ []) && !ch.misuse w.wid (.value 0 (w.greg 6))) = true) ∧
    Meets (.snb ⟨hv, 6, 0⟩) (fun s _ w al => ∃ ch, snFind s w 0 al = .ok ch ∧ (decide (al ≠ []) && !ch.misuse w.wid (.bcast (w.greg 6))) = true) ∧
    Meets (.sna ⟨hv, 0⟩) (fun s _ w al => ∃ ch, snFind s w 0 al = .ok ch ∧ (decide (al ≠ []) && ch.misuse w.wid .plain) = true) ∧
    Meets (.snw ⟨hv, 6, 0⟩) (fun s _ w al => ∃ ch, snFind s w 0 al = .ok ch ∧ (decide (al ≠ []) && ch.seenBy w.wid == some (0, some 5)) = true) ∧
    Meets (.snw ⟨hv, 6, 0⟩) (fun s _ w al => ∃ ch, snFind s w 0 al = .ok ch ∧ (decide (al ≠ []) && ch.seenBy w.wid == some (0, none)) = true) ∧
    Meets (.snw ⟨hv, 6, 0⟩) (fun s _ w al => ∃ ch, snFind s w 0 al = .ok ch ∧ (decide (al ≠ []) && ch.seenBy w.wid == none) = true) ∧
    Meets (.snp ⟨hv, 6, 0⟩) (fun s _ w al => ∃ ch, snFind s w 0 al = .ok ch ∧ (decide (al ≠ []) && ch.seenBy w.wid == some (13, some 5)) = true) ∧
    Meets (.snp ⟨hv, 6, 0⟩) (fun s _ w al => ∃ ch, snFind s w 0 al = .ok ch ∧ (decide (al ≠ []) && ch.seenBy w.wid == some (0, none)) = true) ∧
    Meets (.snp ⟨hv, 6, 0⟩) (fun s _ w al => ∃ ch, snFind s w 0 al = .ok ch ∧ (decide (al ≠ []) && ch.seenBy w.wid == none) = true) := by
  refine ⟨meets (chanSt (-4)) ?_ (found_of ?_), meets sysChanSt ?_ (found_of ?_), meets (chanSt (-4)) ?_ (found_of ?_), meets (chanSt 0) ?_ (found_of ?_),
    meets (chanSt (-3)) ?_ (found_of ?_), meets (chanSt (-4) fun c => { c with dropped := [3] }) ?_ (found_of ?_),
    meets (chanSt 0 fun c => { c with seen := [(3, 0, some 5)] }) ?_ (found_of ?_), meets (chanSt 0 fun c => { c with seen := [(3, 0, none)] }) ?_ (found_of ?_),
    meets (chanSt 0) ?_ (found_of ?_), meets (chanSt 0 fun c => { c with seen := [(3, 13, some 5)] }) ?_ (found_of ?_),
    meets (chanSt 0 fun c => { c with seen := [(3, 0, none)] }) ?_ (found_of ?_), meets (chanSt 0) ?_ (found_of ?_)⟩ <;> decide +kernel

/-- A scratchpad barrier at address 0 with the count n pending, G4 = 0, G5 = v. -/
def tbSt (n v : Int) : State := st (fun w => w.setG 5 v) (fun g => { pad81 g with scratch := sset [] 0 (n * pow3 12 + n) })
/-- The barrier a TB word names. -/
def tbAt (s : State) (w : Warp) (al : List Nat) : Bool := match (tbFind s w 4 0 al).2 with | .ok l => l == .scr 2 0 | .error _ => false
theorem tbAt_of {s : State} {w : Warp} {al : List Nat} (h : tbAt s w al = true) : tbFind s w 4 0 al = ((tbFind s w 4 0 al).1, .ok (.scr 2 0)) := by
  unfold tbAt at h; split at h
  · rename_i l e
    rw [beq_iff_eq] at h
    rw [← h, ← e]
  · cases h

/-- TransactionBarrierWords: counts and phases at their bounds; the releases that TBARR carries. -/
theorem witness_transaction_barriers :
    Meets (.tbinit ⟨hv, 4, 5, 0⟩) (fun s _ w al => tbAt s w al = true ∧ al ≠ [] ∧ 1 ≤ w.greg 5 ∧ w.greg 5 ≤ 265720) ∧
    Meets (.tbexp ⟨hg, 4, 5, 0⟩) (fun s _ w al => tbAt s w al = true ∧ al ≠ [] ∧ 0 ≤ w.greg 5) ∧
    Meets (.tbarr ⟨hv, 4, 5, 0⟩) (fun s _ w al => tbAt s w al = true ∧ al ≠ [] ∧ 0 ≤ w.greg 5 ∧ (tbGet s (.scr 2 0)).pending ≠ 0 ∧
      Rule.tbFreed s cur0 w (.scr 2 0) ∧ (tbArrive (tbPost (tbDirty (Rule.tbUnheld s cur0 w (.scr 2 0)) w (.scr 2 0) 4 0) (.scr 2 0) (w.greg 5)) (.scr 2 0)).isSome = true) ∧
    (∃ s c w, Runs (.tbarr ⟨hv, 4, 5, 0⟩) s c w ∧ Rule.tbFreed s c w (.glob 0 47466)) ∧
    Meets (.tbwait ⟨hv, 4, 5, 0⟩) (fun s _ w al => tbAt s w al = true ∧ al ≠ [] ∧ -13 ≤ w.greg 5 ∧ w.greg 5 ≤ 13 ∧ (tbGet s (.scr 2 0)).phase = w.greg 5) ∧
    Meets (.tbwait ⟨hv, 4, 5, 0⟩) (fun s _ w al => tbAt s w al = true ∧ al ≠ [] ∧ -13 ≤ w.greg 5 ∧ w.greg 5 ≤ 13 ∧ (tbGet s (.scr 2 0)).phase ≠ w.greg 5) ∧
    Meets (.tbtest ⟨hv, 6, 4, 5, 0⟩) (fun s _ w al => tbAt s w al = true ∧ al ≠ [] ∧ -13 ≤ w.greg 5 ∧ w.greg 5 ≤ 13) := by
  refine ⟨meets (tbSt 0 265720) ?_ ?_, meets (tbSt 1 0) ?_ ?_, meets (tbSt 1 0) ?_ ?_, ⟨tbSt 1 0, _, _, runs_of_ready ?_, .inr ?_⟩, meets (tbSt 1 0) ?_ ?_,
    meets (tbSt 1 13) ?_ ?_, meets (tbSt 1 (-13)) ?_ ?_⟩ <;> (try unfold Rule.tbFreed Rule.gangFreed Rule.freed) <;> decide +kernel

/-- The lanes' addresses stand in page 2 (G4:G5), word-aligned. -/
def dataSt (fg : Gang → Gang := id) (fs : State → State := id) : State := st (fun w => w.setG 4 47466) fg fs
/-- Scratchpad address 0 in G4:G5, three lines, and window 0 over line 0 with its barrier in line 1, its lines as given. -/
def line0 (st_ : LineState) (own : Bool := false) : WLine := ⟨0, st_, .dom 0 47466, own, none, 0, ⟨placeLeaf 0, 0⟩⟩
def win0 (ls : List WLine) : Window := ⟨0, 47466, 81, 1, 1, 81, 0, 0, ls, 0, false⟩
def winGang (ls : List WLine) (g : Gang) : Gang := { g with alines := 3, wins := [some (win0 ls)] }
/-- A lane's address operand: G4:G5 alone. -/
def at4 : Addr := ⟨4, .v 0, 0, 0⟩

/-- The checks of an access pass, and p holds of its units. -/
def reach (s : State) (w : Warp) (addrs : List (Nat × Int)) (n : Nat) (align : Bool) (nd : Need) (p : List Acc → Bool) : Bool :=
  (match (access s w addrs n align nd).2 with | .ok xs => !xs.isEmpty && p xs | .error _ => false) && (w.handler || ((access s w addrs n align nd).1.core w.coreNo).watch.isEmpty)
theorem reaches_of {s : State} {w : Warp} {addrs : List (Nat × Int)} {n : Nat} {align : Bool} {nd : Need} {p : List Acc → Bool}
    (h : reach s w addrs n align nd p = true) : ∃ s1 xs, Rule.reaches s s1 w addrs n align nd xs ∧ p xs = true := by
  unfold reach at h
  rw [Bool.and_eq_true] at h
  obtain ⟨h1, h2⟩ := h
  split at h1
  · rename_i xs e
    rw [Bool.and_eq_true] at h1
    refine ⟨(access s w addrs n align nd).1, xs, ⟨by rw [← e], ?_, ?_⟩, h1.2⟩
    · intro hx; rw [hx] at h1; simp at h1
    · rw [Bool.or_eq_true, List.isEmpty_iff] at h2; exact h2
  · cases h1

/-- WordsWithNoActiveLaneMoveOn. -/
theorem witness_no_active_lane : Meets (.add ⟨⟨.vector, 1, .pos⟩, .w, 0, 0, .v 1, .v 2, .src (.v 3)⟩) (fun _ _ _ al => al = []) ∧
    Meets (.red ⟨⟨.vector, 8, .zeroNeg⟩, .word, none, 0, false, at4, .v 3⟩) (fun _ _ w _ => w.preg 0 8 = 0) :=
  ⟨meets st (by decide +kernel) (by decide +kernel), meets st (by decide +kernel) (by decide +kernel)⟩

/-- GlobalLoadsStartALoadOperation. -/
theorem witness_global_loads :
    Meets (.ld ⟨hv, .double, false, some 26, true, .v 24, at4⟩) (fun s _ w al => al ≠ [] ∧ ∃ s1 xs, Rule.reaches s s1 w (Rule.addresses w al at4) 6 true Need.read xs ∧ true = true) ∧
    Meets (.ld ⟨hv, .word, true, none, false, .v 24, at4⟩) (fun s _ w al => al ≠ [] ∧
      ∃ s1 xs, Rule.reaches s s1 w (Rule.addresses w al at4) 3 true Need.read xs ∧ (xs.all fun x => !x.away s) = true) ∧
    Meets (.ldg ⟨hg, true, 6, 4, 0⟩) (fun s c w al => al ≠ [] ∧
      ∃ s1 xs, Rule.reaches s s1 w [(c.lanes.headD 0, w.gpair 4 + 0)] 6 true Need.read xs ∧ decide (xs.length = 1) = true) ∧
    Meets (.ldtag ⟨hv, .latch, at4⟩) (fun s _ w al => al ≠ [] ∧ ∃ s1 xs, Rule.reaches s s1 w (Rule.addresses w al at4) 1 false Need.read xs ∧ true = true) := by
  refine ⟨meets dataSt ?_ ⟨?_, reaches_of ?_⟩, meets dataSt ?_ ⟨?_, reaches_of ?_⟩, meets dataSt ?_ ⟨?_, reaches_of ?_⟩, meets dataSt ?_ ⟨?_, reaches_of ?_⟩⟩ <;>
    decide +kernel

theorem touching_none {h : Hindrance} (e : (match h with | .none => true | _ => false) = true) : h = .none := by
  cases h <;> first | rfl | cases e

theorem touching_sleep {h : Hindrance} (e : (match h with | .sleep _ _ => true | _ => false) = true) : ∃ s p, h = .sleep s p := by
  cases h <;> first | exact ⟨_, _, rfl⟩ | cases e

/-- ScratchpadLoadsReadTheirLines: a line outside windows, a present line, and an absent one. -/
theorem witness_scratchpad_loads :
    Meets (.lds ⟨hv, .double, none, false, .v 24, ⟨4, .v 0, 0, 72⟩⟩) (fun s c w al => ∃ g, gangOf s w = some g ∧ al ≠ [] ∧
      scratchFault g 6 true (Rule.addresses w al ⟨4, .v 0, 0, 72⟩) = none ∧ (touching s c w g 6 (Rule.addresses w al ⟨4, .v 0, 0, 72⟩) none = .none) ∧
      (w.handler = true ∨ (s.core w.coreNo).watch = [])) ∧
    Meets (.lds ⟨hv, .word, some 26, false, .v 24, at4⟩) (fun s c w al => ∃ g, gangOf s w = some g ∧ al ≠ [] ∧
      scratchFault g 3 true (Rule.addresses w al at4) = none ∧ (touching s c w g 3 (Rule.addresses w al at4) (some 26) = .none) ∧
      (w.handler = true ∨ (s.core w.coreNo).watch = [])) ∧
    Meets (.lds ⟨hv, .word, some 26, false, .v 24, at4⟩) (fun s c w al => ∃ g, gangOf s w = some g ∧ al ≠ [] ∧
      scratchFault g 3 true (Rule.addresses w al at4) = none ∧ ∃ s1 p, touching s c w g 3 (Rule.addresses w al at4) (some 26) = .sleep s1 p) := by
  refine ⟨meets (st id pad81) ?_ ⟨_, rfl, ?_, ?_, touching_none ?_, ?_⟩,
    meets (st id (winGang [line0 .present])) ?_ ⟨_, rfl, ?_, ?_, touching_none ?_, ?_⟩,
    meets (st id (winGang [])) ?_ ⟨_, rfl, ?_, ?_, touching_sleep ?_⟩⟩ <;> decide +kernel

/-- LoadOperationsSendTheirOpenReads. -/
theorem witness_load_operation : base.warp? (warpOf base).wid = some (warpOf base) ∧ cur0.hstep = none := by decide +kernel

/-- The checks of a store pass, and p holds of its units. -/
def storeReach (s : State) (w : Warp) (addrs : List (Nat × Int)) (n : Nat) (val : Nat → Int) (p : List Acc → Bool) : Bool :=
  (match (accessStore s w addrs n val).2 with
    | .ok xs => !xs.isEmpty && p xs && (tagFaults (accessStore s w addrs n val).1 w.coreNo n xs).isEmpty
    | .error _ => false) && (w.handler || ((accessStore s w addrs n val).1.core w.coreNo).watch.isEmpty)
theorem storable_of {s : State} {w : Warp} {addrs : List (Nat × Int)} {n : Nat} {val : Nat → Int} {p : List Acc → Bool}
    (h : storeReach s w addrs n val p = true) : ∃ s1 xs, Rule.storable s s1 w addrs n val xs ∧ p xs = true := by
  unfold storeReach at h
  rw [Bool.and_eq_true] at h
  obtain ⟨h1, h2⟩ := h
  split at h1
  · rename_i xs e
    rw [Bool.and_eq_true, Bool.and_eq_true, List.isEmpty_iff] at h1
    refine ⟨(accessStore s w addrs n val).1, xs, ⟨by rw [← e], ?_, h1.2, ?_⟩, h1.1.2⟩
    · intro hx; rw [hx] at h1; simp at h1
    · rw [Bool.or_eq_true, List.isEmpty_iff] at h2; exact h2
  · cases h1

/-- GlobalStoresSendTheirUnits. -/
theorem witness_global_stores :
    Meets (.st ⟨hv, .tryte, false, ⟨4, .v 0, 4, -1⟩, .v 26⟩) (fun s _ w al => al ≠ [] ∧ ∃ s1 xs,
      Rule.storable s s1 w (Rule.addresses w al ⟨4, .v 0, 4, -1⟩) 1 (Rule.stored w .tryte (.v 26)) xs ∧ true = true) ∧
    Meets (.st ⟨hv, .word, true, at4, .v 26⟩) (fun s _ w al => al ≠ [] ∧ ∃ s1 xs,
      Rule.storable s s1 w (Rule.addresses w al at4) 3 (Rule.stored w .word (.v 26)) xs ∧ (xs.all fun x => !x.away s) = true) ∧
    Meets (.stg ⟨hg, true, 6, 4, 0⟩) (fun s c w al => al ≠ [] ∧ ∃ s1 xs,
      Rule.storable s s1 w [(c.lanes.headD 0, w.gpair 4 + 0)] 6 (fun _ => if true = true then w.gpair 6 else w.greg 6) xs ∧ decide (xs.length = 1) = true) ∧
    Meets (.sttag ⟨⟨.vector, 1, .pos⟩, .v 26, at4⟩) (fun s _ w al => al = [0] ∧ ∃ s1 xs,
      Rule.reaches s s1 w (Rule.addresses w al at4) 1 false Need.write xs ∧ (xs.all fun x => x.lane == 0 && !x.at_.isHost) = true) := by
  refine ⟨meets dataSt ?_ ⟨?_, storable_of ?_⟩, meets dataSt ?_ ⟨?_, storable_of ?_⟩, meets dataSt ?_ ⟨?_, storable_of ?_⟩,
    meets (st fun w => (w.setG 4 47466).setP 0 1 1) ?_ ⟨?_, reaches_of ?_⟩⟩ <;> decide +kernel

/-- ScratchpadStoresWriteTheirUnits, at the last word of the allotment. -/
theorem witness_scratchpad_stores :
    Meets (.sts ⟨hv, .word, ⟨4, .v 0, 0, 78⟩, .v 26⟩) (fun s _ w al => ∃ g, gangOf s w = some g ∧ al ≠ [] ∧
      scratchFault g 3 true (Rule.addresses w al ⟨4, .v 0, 0, 78⟩) = none ∧
      (∀ x ∈ namedLines 3 (Rule.addresses w al ⟨4, .v 0, 0, 78⟩), g.winAt x = none ∧ (-13 ≤ (g.tag x).code ∧ (g.tag x).code ≤ 6) ∧ g.bad.contains x = false) ∧
      (∀ u ∈ Rule.addresses w al ⟨4, .v 0, 0, 78⟩, g.rowsBad u.2 3 = false) ∧ (w.handler = true ∨ (s.core w.coreNo).watch = [])) :=
  meets (st id pad81) (by decide +kernel) ⟨_, rfl, by decide +kernel⟩

/-- A lane of the units is refused at its home as the lines stand. -/
def someRefused (s : State) (n : Nat) (xs : List Acc) : Bool := xs.any fun x => refusedAtHome s x n
/-- AtomicsAndReductionsGoHome: counts 1 and 0 of a round word; a lane refused for a reserved tag; an ATOM.SC in the own package and one in another. -/
theorem witness_atomics :
    Meets (.atom ⟨hv, true, false, .cas, .v 24, at4, .v 22⟩) (fun s _ w al => al ≠ [] ∧ ∃ s1 xs, Rule.reaches s s1 w (Rule.addresses w al at4) 6 true Need.rmw xs ∧ true = true) ∧
    Meets (.red ⟨hv, .tryte, none, 1, false, at4, .v 22⟩) (fun s _ w al => ∃ s1 xs, Rule.reaches s s1 w (Rule.addresses w al at4) 1 true Need.rmw xs ∧ true = true) ∧
    Meets (.red ⟨hv, .word, some 9, 1, false, at4, .v 22⟩) (fun s _ w al => 1 ≤ field (w.greg 9) 11 0 ∧
      ∃ s1 xs, Rule.reaches s s1 w (Rule.addresses w al at4) 3 true Need.rmw xs ∧ true = true) ∧
    Meets (.red ⟨hv, .word, some 9, 1, false, at4, .v 22⟩) (fun _ _ w _ => field (w.greg 9) 11 0 < 1) ∧
    Meets (.atom ⟨hv, false, false, .add, .v 24, at4, .v 22⟩) (fun s _ w al => al ≠ [] ∧
      ∃ s1 xs, Rule.reaches s s1 w (Rule.addresses w al at4) 3 true Need.rmw xs ∧ someRefused s 3 xs = true) ∧
    Meets (.atom ⟨hv, true, true, .xchg, .v 24, at4, .v 22⟩) (fun s _ w al => al ≠ [] ∧
      ∃ s1 xs, Rule.reaches s s1 w (Rule.addresses w al at4) 6 true Need.rmw xs ∧ (xs.all fun x => !x.away s) = true) ∧
    Meets (.atom ⟨hv, true, true, .xchg, .v 24, at4, .v 22⟩) (fun s _ w al => al ≠ [] ∧
      ∃ s1 xs, Rule.reaches s s1 w (Rule.addresses w al at4) 6 true Need.rmw xs ∧ (xs.any fun x => x.away s) = true) := by
  refine ⟨meets dataSt ?_ ⟨?_, reaches_of ?_⟩, meets dataSt ?_ (reaches_of ?_),
    meets (st fun w => (w.setG 4 47466).setG 9 1) ?_ ⟨?_, reaches_of ?_⟩, meets dataSt ?_ ?_,
    meets (dataSt id fun s => s.modMem fun m => m.setTag 0 586 ⟨13, 0⟩) ?_ ⟨?_, reaches_of ?_⟩, meets dataSt ?_ ⟨?_, reaches_of ?_⟩,
    meets (dataSt id fun s => s.modCore 0 fun c => { c with tlb := [⟨0, 1, 0, 2, placeLeaf 1, 0⟩] }) ?_ ⟨?_, reaches_of ?_⟩⟩ <;> decide +kernel

/-- A multicast set of this core alone in die 0, window 0, first line 0, one line, in G6 to G9. -/
def mcast (n : Int) (w : Warp) : Warp := (w.setG 6 1).setG 9 n
/-- FencesTouchesAndCacheWords. -/
theorem witness_fences_and_cache_words :
    Meets (.fence ⟨hv, -3, 1⟩) (fun s _ w al => al ≠ [] ∧ actScope s w (-3) < -1) ∧ Meets (.fence ⟨hg, 3, -1⟩) (fun _ _ _ al => al ≠ []) ∧
    Meets (.fence ⟨hg, -3, 0⟩) (fun s _ w al => al ≠ [] ∧ -1 ≤ actScope s w (-3)) ∧
    Meets (.icinv ⟨hv, 4, .v 0, 0⟩) (fun _ _ _ _ => True) ∧
    Meets (.touch ⟨hv, 4, .v 0, 0⟩) (fun s c w al => ∃ g, gangOf s w = some g ∧ scratchFault g 1 false (al.map fun l => (l, w.gpair 4 + w.src l false (.v 0) + 0)) = none ∧
      touching s c w g 1 (al.map fun l => (l, w.gpair 4 + w.src l false (.v 0) + 0)) none = .none) ∧
    Meets (.pref ⟨hv, 26, at4⟩) (fun s _ w al => ∃ s1 rs, checkUnits s w.coreNo w.ctx (w.level == 1) Need.read true 1 (Rule.addresses w al at4) = (s1, rs)) ∧
    Meets (.cinv ⟨hv, at4⟩) (fun s _ w al => al ≠ [] ∧ (∃ g, gangOf s w = some g ∧ boxLines g (.dom 0 47466) ≠ []) ∧
      (match (access s w (Rule.addresses w al at4) 1 false Need.none).2 with
        | .ok xs => (match gangOf s w with
            | some g => xs.all fun x => (boxLines g x.at_).all fun p => p.2.st == .present || p.2.st == .dirty
            | none => false)
        | .error _ => false) = true) ∧
    Meets (.ldmc ⟨hg, 6, 9⟩) (fun s _ w al => al ≠ [] ∧ ∃ g, gangOf s w = some g ∧ ldmcCheck g w.coreNo (w.greg 6) (w.greg 7) (w.greg 8) (w.greg 9) = 0 ∧
      g.win? (field (w.greg 9) 26 18).toNat = some (win0 []) ∧ (win0 []).lines = [] ∧ [Loc.dom 0 47466].length = (field (w.greg 9) 8 0).toNat ∧
      (checkAddrs s w.coreNo w.ctx (w.level == 1) Need.read true [(win0 []).boxAddr 0]).2 = [((win0 []).boxAddr 0, .ok (.dom 0 47466))]) ∧
    Meets (.ldmc ⟨hg, 6, 9⟩) (fun s _ w al => al ≠ [] ∧ ∃ g, gangOf s w = some g ∧ ldmcCheck g w.coreNo (w.greg 6) (w.greg 7) (w.greg 8) (w.greg 9) = 4) := by
  refine ⟨meets st ?_ ?_, meets st ?_ ?_, meets (st id paired2) ?_ ?_, meets dataSt ?_ trivial, meets (st id pad81) ?_ ⟨_, rfl, ?_, touching_none ?_⟩, meets dataSt ?_ ⟨_, _, rfl⟩,
    meets (dataSt (winGang [line0 .dirty true])) ?_ ⟨?_, ⟨_, rfl, ?_⟩, ?_⟩,
    meets (st (mcast 1) (winGang [])) ?_ ⟨?_, _, rfl, ?_⟩, meets (st (mcast 2) (winGang [])) ?_ ⟨?_, _, rfl, ?_⟩⟩ <;> decide +kernel

/-- AlignmentAndAddressChecks: a misaligned lane; an address of each check, at the bounds of its range. -/
theorem witness_alignment_and_checks :
    Meets (.ld ⟨hv, .word, false, none, false, .v 1, ⟨4, .v 0, 0, 1⟩⟩) (fun _ _ w al => ((Rule.addresses w al ⟨4, .v 0, 0, 1⟩).filter fun p => decide (3 ≠ 1 ∧ p.2 % ((3 : Nat) : Int) ≠ 0)) ≠ []) ∧
    Meets (.st ⟨hv, .double, false, ⟨4, .v 0, 0, 3⟩, .v 2⟩) (fun _ _ w al => ((Rule.addresses w al ⟨4, .v 0, 0, 3⟩).filter fun p => decide (6 ≠ 1 ∧ p.2 % ((6 : Nat) : Int) ≠ 0)) ≠ []) ∧
    Meets (.lds ⟨hv, .word, none, false, .v 1, ⟨4, .v 0, 0, 2⟩⟩) (fun s _ w al => ∃ g, gangOf s w = some g ∧
      ((Rule.addresses w al ⟨4, .v 0, 0, 2⟩).filter fun p => decide (3 ≠ 1 ∧ p.2 % ((3 : Nat) : Int) ≠ 0)) ≠ []) ∧
    (let p := (checkAddr base 0 0 true Need.read true · |>.2)
     let t : Tlb := ⟨0, 1, 0, 2, placeLeaf 0, 0⟩
     ¬ (-(19683 * ((pow3 30 - 1) / 2)) ≤ (pow3 39 - 1) / 2 + 1 ∧ (pow3 39 - 1) / 2 + 1 ≤ (pow3 39 - 1) / 2) ∧ p ((pow3 39 - 1) / 2 + 1) = .fail 1 ∧
     (19682 : Int) / 19683 = 0 ∧ p 19682 = .fail 2 ∧ (-1 : Int) / 19683 < 0 ∧
     (tlbFind (base.core 0) 0 100000 = none ∧ base.nodes = [] ∧ (let st := walkStart (heldAt [26] base) (srcDie 0) 0 100000
       match walkFrom (walkRecall (heldAt [26] base) 100000 st.1 st.2) 100000 st.1 st.2 with | .error _ => true | .ok _ => false) = true) ∧
     tlbFind (base.core 0) 0 (pageOf 39366) = some t ∧ trit t.leaf 44 = 1 ∧ trit t.leaf 49 = 1 ∧ field t.leaf 51 50 = 0 ∧ trit t.leaf 43 ≠ 1 ∧
     base.mem.frames.contains (frameKey (field t.leaf 35 30) 2) = false ∧ base.pkg.deadPeers.contains (field t.leaf 35 30) = false) ∧
    (-364 ≤ (364 : Int) ∧ (0 : Int) ≤ 0 ∧ -maxv (9 * 6) ≤ maxv 54 ∧ (maxv 54 : Int) ≤ maxv (9 * 6) ∧
      (364 + 364 : Int) * 2541865828329 + 0 + 6 ≤ (364 + 364) * 2541865828329 + 6) := by
  refine ⟨meets dataSt ?_ ?_, meets dataSt ?_ ?_, meets (st id pad81) ?_ ⟨_, rfl, ?_⟩, ?_, ?_⟩ <;> decide +kernel

/-- Words stored from a scratchpad address on, and from a memory address on. -/
def Gang.recAt (g : Gang) (a : Int) (ws : List Int) : Gang := (List.zip (upto ws.length) ws).foldl (fun g p => Gang.write g (a + 3 * (p.1 : Int)) 3 p.2) g
def memAt (a : Int) (ws : List Int) (s : State) : State :=
  s.modMem fun m => (List.zip (upto ws.length) ws).foldl (fun m p => m.write 0 (a + 3 * (p.1 : Int)) 3 p.2) m
/-- Forty scratchpad lines, a record at address 162 (in G10), windows, slots and entries as given. -/
def recGang (ws : List Int) (f : Gang → Gang := id) (g : Gang) : Gang := f (Gang.recAt { g with alines := 40 } 162 ws)
def recSt (ws : List Int) (f : Gang → Gang := id) (fs : State → State := id) : State := st (fun w => w.setG 10 162) (recGang ws f) fs

/-- A sound window record: lines 20, one line of page 2, barrier in line 30. -/
def winRec : List Int := [81 * 20, 47466, 0, 81, 1, 1, 81 * 30, 0, 0]
def free2 (g : Gang) : Gang := { g with wins := [none, none] }
def bound2 (g : Gang) : Gang := { g with wins := [none, some ⟨81 * 20, 47466, 81, 1, 1, 81 * 30, 0, 0, [], 0, false⟩] }

/-- WindowWords: window 1 of 2, bound and already being released, and window 2 beyond them. -/
theorem witness_window_words :
    Meets (.win ⟨hg, 10, 1⟩) (fun s _ w al => ∃ g, gangOf s w = some g ∧ al ≠ [] ∧ 1 < g.wins.length ∧ Rule.recordFits g (w.greg 10) ∧
      lowestCharge (winCharges g 1 (g.record (w.greg 10))) = none ∧ g.win? 1 = none) ∧
    Meets (.win ⟨hg, 10, 1⟩) (fun s _ w al => ∃ g, gangOf s w = some g ∧ al ≠ [] ∧ 1 < g.wins.length ∧ Rule.recordFits g (w.greg 10) ∧
      lowestCharge (winCharges g 1 (g.record (w.greg 10))) = none ∧ g.win? 1 = some ⟨81 * 20, 47466, 81, 1, 1, 81 * 30, 0, 0, [], 0, false⟩) ∧
    Meets (.win ⟨hg, 10, 1⟩) (fun s _ w al => ∃ g, gangOf s w = some g ∧ al ≠ [] ∧ 1 < g.wins.length ∧ Rule.recordFits g (w.greg 10) ∧
      lowestCharge (winCharges g 1 (g.record (w.greg 10))) = some 3) ∧
    Meets (.winrel ⟨hg, 1⟩) (fun s _ w al => ∃ g, gangOf s w = some g ∧ al ≠ [] ∧ 1 < g.wins.length ∧ (g.win? 1).isSome = true) ∧
    Meets (.winrel ⟨hg, 1⟩) (fun s _ w al => ∃ g, gangOf s w = some g ∧ al ≠ [] ∧ 1 < g.wins.length ∧ ((g.win? 1).map fun x => x.releasing) = some true) ∧
    Meets (.winrel ⟨hg, 0⟩) (fun s _ w al => ∃ g, gangOf s w = some g ∧ al ≠ [] ∧ 0 < g.wins.length ∧ g.win? 0 = none) ∧
    Meets (.winrel ⟨hg, 2⟩) (fun s _ w al => ∃ g, gangOf s w = some g ∧ al ≠ [] ∧ g.wins.length ≤ 2) := by
  refine ⟨meets (recSt winRec free2) ?_ ⟨_, rfl, ?_⟩, meets (recSt winRec bound2) ?_ ⟨_, rfl, ?_⟩, meets (recSt [] free2) ?_ ⟨_, rfl, ?_⟩,
    meets (recSt [] bound2) ?_ ⟨_, rfl, ?_⟩, meets (recSt [] fun g => { bound2 g with wins := (bound2 g).wins.map fun o => o.map fun x => { x with releasing := true } }) ?_ ⟨_, rfl, ?_⟩,
    meets (recSt [] bound2) ?_ ⟨_, rfl, ?_⟩, meets (recSt [] bound2) ?_ ⟨_, rfl, ?_⟩⟩ <;>
    (try unfold Rule.recordFits) <;> decide +kernel

/-- A sound EPI record: one row of 81 columns from line 10, its output in line 20. -/
def epiRec : List Int := [4 * pow3 24, -1, 0, 0, 0, 0, 81 * 10, 3, 1, 81, 0, 0, 81 * 20, 1]
/-- G10 = 162 and a port word of window 0 in G5: one line from line 0. -/
def portSt (fg : Gang → Gang) : State := st (fun w => w.setG 5 1) fg

/-- The check of a SEND, RECV or launch record, whatever its state. -/
theorem witness_task_and_stream_words :
    Meets (.task ⟨hg, 3, 10, 1, 0⟩) (fun s _ w al => ∃ g, gangOf s w = some g ∧ al ≠ [] ∧ Rule.recordFits g (w.greg 10 + 0) ∧
      taskCheck g w.coreNo (w.greg 10 + 0) (g.record (w.greg 10 + 0)) = none ∧ entryFree (Rule.readRec s g (w.greg 10 + 0)) g = true ∧
      taskWaits (Rule.readRec s g (w.greg 10 + 0)) g.gid = false) ∧
    Meets (.task ⟨hg, 3, 10, 1, 0⟩) (fun s _ w al => ∃ g, gangOf s w = some g ∧ al ≠ [] ∧ Rule.recordFits g (w.greg 10 + 0) ∧
      taskCheck g w.coreNo (w.greg 10 + 0) (g.record (w.greg 10 + 0)) = none ∧ entryFree (Rule.readRec s g (w.greg 10 + 0)) g = false) ∧
    Meets (.task ⟨hg, 3, 10, 1, 0⟩) (fun s _ w al => ∃ g, gangOf s w = some g ∧ al ≠ [] ∧ Rule.recordFits g (w.greg 10 + 0) ∧
      taskCheck g w.coreNo (w.greg 10 + 0) (g.record (w.greg 10 + 0)) = some 0) ∧
    Meets (.tqry ⟨hg, 3, 10⟩) (fun s _ w al => ∃ g, gangOf s w = some g ∧ al ≠ []) ∧
    Meets (.send ⟨hg, 4, 5, 3⟩) (fun s c w al => ∃ g, gangOf s w = some g ∧ al ≠ [] ∧ 1 ≤ w.greg 5 ∧ w.greg 5 ≤ 6561 ∧ w.greg 4 % 81 = 0 ∧
      0 ≤ w.greg 4 ∧ w.greg 4 + 81 * w.greg 5 ≤ g.trytes ∧ (neighbour w.coreNo 3).isSome = true ∧
      (∀ i, i < (w.greg 5).toNat → g.unread (w.greg 4 + 81 * (i : Int)) 81 = false) ∧
      touching s c w g 81 ((upto (w.greg 5).toNat).map fun (i : Nat) => (c.lanes.headD 0, w.greg 4 + 81 * (i : Int))) none = .none) ∧
    Meets (.recv ⟨hg, 5, 2⟩) (fun s _ w al => ∃ g, gangOf s w = some g ∧ al ≠ [] ∧ 1 ≤ field (w.greg 5) 8 0 ∧ field (w.greg 5) 8 0 ≤ 6561 ∧
      0 ≤ field (w.greg 5) 17 9 ∧ field (w.greg 5) 17 9 ≤ 6560 ∧ 0 ≤ field (w.greg 5) 26 18 ∧ g.win? (field (w.greg 5) 26 18).toNat = some (win0 []) ∧
      (win0 []).releasing = false ∧ field (w.greg 5) 17 9 + field (w.greg 5) 8 0 ≤ (win0 []).span ∧ (neighbour w.coreNo 2).isSome = true ∧
      firstBad (checkAddrs s w.coreNo w.ctx (w.level == 1) Need.both true
        (((upto (field (w.greg 5) 8 0).toNat).map fun i => (field (w.greg 5) 17 9).toNat + i).map (win0 []).boxAddr)).2 = none) := by
  refine ⟨meets (recSt epiRec) ?_ ⟨_, rfl, ?_⟩,
    meets (recSt epiRec fun g => { g with tasks := [true, false].flatMap fun b => List.replicate 405 ⟨0, 3, 0, [], 0, 0, true, [], .queued, 0, 0, 0, [], 0, [], b, none⟩ }) ?_ ⟨_, rfl, ?_⟩,
    meets (recSt []) ?_ ⟨_, rfl, ?_⟩, meets (recSt []) ?_ ⟨_, rfl, ?_⟩,
    meets (portSt pad81) ?_ ⟨_, rfl, ?_, ?_, ?_, ?_, ?_, ?_, ?_, ?_, touching_none ?_⟩,
    meets (portSt (winGang [])) ?_ ⟨_, rfl, ?_⟩⟩ <;> (try unfold Rule.recordFits) <;> decide +kernel

/-- A sound request record for lane 0 and slot 0. -/
def xRec : List Int := [0, 47466, 0, 1, 48600, 0, 1, 0, -1, -1]
/-- The context holds slot 0, which is loaded; lane 0's queue as given. -/
def xSt (ws : List Int) (q : List XReq) (st_ : TableSt) (fs : State → State := id) : State := recSt ws id fun s => fs { s with
  ctxs := s.ctxs.map (fun c => { c with words := c.words.set 5 1 }), xd := ⟨[⟨0, st_, 0, 1, 1, 0, [], []⟩], [⟨0, q⟩]⟩ }
def xreq0 : XReq := ⟨9, 2, 1, 0, 162, xRec, [.dom 0 47466], [.dom 0 48600], false, 0, 0, 0, 0, []⟩
/-- Page 3 in frame 3 beside page 2. -/
def nextPage (s : State) : State := s.modCore 0 fun c => { c with tlb := ⟨0, 1, 0, 3, placeLeaf 0 + 1, 0⟩ :: c.tlb }

/-- The record at G10 of a XFST. -/
def xrec (g : Gang) (w : Warp) : List Int := g.record (w.greg 10 + 0)
/-- The record is in place and charges nothing. -/
def xSound (s : State) (w : Warp) (al : List Nat) (g : Gang) : Prop :=
  gangOf s w = some g ∧ al ≠ [] ∧ Rule.recordFits g (w.greg 10 + 0) ∧ lowestCharge (xfstCharges g (xrec g w)) = none
/-- What the refusal's checks of a XFST answer. -/
def xRefused (s : State) (w : Warp) (g : Gang) : Option (Int × Int) :=
  match (xfstRefusal (Rule.readRec s g (w.greg 10 + 0)) w.coreNo w.ctx (w.level == 1) (xrec g w)).2 with | .error e => some e | .ok _ => none

/-- TransducerWords: a XFST that is accepted, refused with detail 31, and waits, one whose record is bad, one of a slot that is not granted; XTAB. -/
theorem witness_transducer_words :
    Meets (.xfst ⟨hg, 2, 10, 0⟩) (fun s _ w al => ∃ g, xSound s w al g ∧ slotGranted s w.ctx (wordAt (xrec g w) 7) = true ∧
      (laneQueue s (wordAt (xrec g w) 0).toNat).length < 27 ∧ xRefused s w g = none) ∧
    Meets (.xfst ⟨hg, 2, 10, 0⟩) (fun s _ w al => ∃ g, xSound s w al g ∧ slotGranted s w.ctx (wordAt (xrec g w) 7) = true ∧
      (laneQueue s (wordAt (xrec g w) 0).toNat).length < 27 ∧ xRefused s w g = some (31, 0)) ∧
    Meets (.xfst ⟨hg, 2, 10, 0⟩) (fun s _ w al => ∃ g, xSound s w al g ∧ slotGranted s w.ctx (wordAt (xrec g w) 7) = true ∧
      27 ≤ (laneQueue s (wordAt (xrec g w) 0).toNat).length) ∧
    Meets (.xfst ⟨hg, 2, 10, 0⟩) (fun s _ w al => ∃ g, gangOf s w = some g ∧ al ≠ [] ∧ Rule.recordFits g (w.greg 10 + 0) ∧
      lowestCharge (xfstCharges g (xrec g w)) = some 0) ∧
    Meets (.xfst ⟨hg, 2, 10, 0⟩) (fun s _ w al => ∃ g, xSound s w al g ∧ slotGranted s w.ctx (wordAt (xrec g w) 7) = false) ∧
    Meets (.xtab ⟨hg, 2, 4, 0⟩) (fun s _ w al => al ≠ [] ∧ slotGranted s w.ctx ((0 : Nat) : Int) = true ∧ w.gpair 4 % 81 = 0 ∧
      (let r := checkAddrs s w.coreNo w.ctx (w.level == 1) Need.read true [w.gpair 4]
       let hs := recallNow r.1 0 (39366 / 81) false
       r.2 = [(w.gpair 4, .ok (.dom 0 39366))] ∧ firstBad (checkAddrs hs w.coreNo w.ctx (w.level == 1) Need.read true
         (pageStarts (w.gpair 4) (81 * (244 + 6 * headerStates hs (.dom 0 39366))))).2 = none)) ∧
    Meets (.xtab ⟨hg, 2, 4, 35⟩) (fun s _ w al => al ≠ [] ∧ slotGranted s w.ctx ((35 : Nat) : Int) = false) ∧
    Meets (.xtab ⟨hg, 2, 4, 0⟩) (fun s _ w al => al ≠ [] ∧ slotGranted s w.ctx ((0 : Nat) : Int) = true ∧ w.gpair 4 % 81 ≠ 0) := by
  refine ⟨meets (xSt xRec [] .loaded) ?_ ⟨_, ⟨rfl, ?_⟩, ?_⟩, meets (xSt xRec [] .loading) ?_ ⟨_, ⟨rfl, ?_⟩, ?_⟩,
    meets (xSt xRec (List.replicate 27 xreq0) .loaded) ?_ ⟨_, ⟨rfl, ?_⟩, ?_⟩, meets (xSt (xRec.set 0 64) [] .loaded) ?_ ⟨_, rfl, ?_⟩,
    meets (recSt xRec) ?_ ⟨_, ⟨rfl, ?_⟩, ?_⟩,
    meets (xSt [] [] .empty fun s => heldAt [486] ((nextPage s).modWarp 3 fun w => w.setG 4 39366)) ?_ ?_, meets (xSt [] [] .empty) ?_ ?_,
    meets (xSt [] [] .empty fun s => s.modWarp 3 fun w => w.setG 4 39367) ?_ ?_⟩ <;>
    (try unfold Rule.recordFits) <;> decide +kernel

/-- A sound launch record: one gang of one warp, its completion word in page 2. -/
def lnchRec : List Int := (placeRecord.set 0 (pow3 24)).set 24 47709
def lnchSt (ws : List Int) (fs : State → State := id) : State := dataSt id fun s => fs (heldAt [586] (memAt 47466 ws s))
/-- The words that a LNCH reads. -/
def lnchReads (s : State) (c : Cur) (w : Warp) (ws : List Int) : Bool := match readRecord s c w (w.gpair 4 + 0) with | .words _ r => r == ws | _ => false
theorem lnchReads_of {s : State} {c : Cur} {w : Warp} {ws : List Int} (h : lnchReads s c w ws = true) :
    ∃ s1, readRecord s c w (w.gpair 4 + 0) = .words s1 ws := by
  unfold lnchReads at h; split at h
  · exact ⟨_, by rw [← beq_iff_eq.mp h]; assumption⟩
  · cases h
/-- The state after the record is read. -/
def afterRead (s : State) (c : Cur) (w : Warp) : State := match readRecord s c w (w.gpair 4 + 0) with | .words s1 _ => s1 | .trap s1 _ => s1 | .busy s1 => s1
def jentry : JEntry := ⟨0, 0, [], 0, none, 0, 0, [], [0, 1]⟩

/-- A translation invalidation of page 1 of the context of descriptor 81. -/
def tinvRec : List Int := [-(pow3 24), 1, 1, 0, 1, 81, 0]
/-- LaunchWords: 728 and 729 launches journalled, a store under way before it and a release that is over, a record with a wrong word 26, a command
that has its effect, one that waits, one with a bad word, one without its level, a misaligned address. -/
theorem witness_launch_words :
    Meets (.lnch ⟨hg, 5, 4, 0⟩) (fun s c w al => al ≠ [] ∧ Rule.freed s c w 1 ∧ (∃ s1, readRecord (Rule.unheld s c w) c w (w.gpair 4 + 0) = .words s1 lnchRec) ∧
      field (wordAt lnchRec 0) 26 24 = 1 ∧
      (let q := checkLaunch (afterRead (Rule.unheld s c w) c w) w.coreNo w.ctx (w.level == 1) lnchRec; q.2 = .ok [] ∧ (journalOf q.1 (padOf q.1 w)).length < 729)) ∧
    Meets (.lnch ⟨hg, 5, 4, 0⟩) (fun s c w al => al ≠ [] ∧ Rule.freed s c w 1 ∧ (∃ s1, readRecord (Rule.unheld s c w) c w (w.gpair 4 + 0) = .words s1 lnchRec) ∧
      field (wordAt lnchRec 0) 26 24 = 1 ∧
      (let q := checkLaunch (afterRead (Rule.unheld s c w) c w) w.coreNo w.ctx (w.level == 1) lnchRec; q.2 = .ok [] ∧ 729 ≤ (journalOf q.1 (padOf q.1 w)).length)) ∧
    Meets (.lnch ⟨hg, 5, 4, 0⟩) (fun s c w al => al ≠ [] ∧ ¬ Rule.freed s c w 1) ∧
    Meets (.lnch ⟨hg, 5, 4, 0⟩) (fun s c w al => al ≠ [] ∧ Rule.freed s c w 1 ∧ w.released = some c.pc ∧ fenceAwaits s w 1 1 ≠ []) ∧
    Meets (.lnch ⟨hg, 5, 4, 0⟩) (fun s c w al => al ≠ [] ∧ Rule.freed s c w 1 ∧
      (∃ s1, readRecord (Rule.unheld s c w) c w (w.gpair 4 + 0) = .words s1 (lnchRec.set 26 1)) ∧
      (checkLaunch (afterRead (Rule.unheld s c w) c w) w.coreNo w.ctx (w.level == 1) (lnchRec.set 26 1)).2 = .refused 26 cause.illegal 26 0) ∧
    Meets (.lnch ⟨hg, 5, 4, 0⟩) (fun s c w al => al ≠ [] ∧ Rule.freed s c w 1 ∧
      (∃ s1, readRecord (Rule.unheld s c w) c w (w.gpair 4 + 0) = .words s1 (-2 * pow3 24 :: List.replicate 26 0)) ∧
      (match command (afterRead (Rule.unheld s c w) c w) w.coreNo w.ctx (padOf s w) (w.level == 1) (-2 * pow3 24 :: List.replicate 26 0) with | .done _ => true | _ => false) = true) ∧
    Meets (.lnch ⟨hg, 5, 4, 0⟩) (fun s c w al => al ≠ [] ∧ Rule.freed s c w 1 ∧
      (∃ s1, readRecord (Rule.unheld s c w) c w (w.gpair 4 + 0) = .words s1 (tinvRec ++ List.replicate 20 0)) ∧
      (match command (afterRead (Rule.unheld s c w) c w) w.coreNo w.ctx (padOf s w) (w.level == 1) (tinvRec ++ List.replicate 20 0) with
        | .wait _ _ => true | _ => false) = true) ∧
    Meets (.lnch ⟨hg, 5, 4, 0⟩) (fun s c w al => al ≠ [] ∧ Rule.freed s c w 1 ∧
      (∃ s1, readRecord (Rule.unheld s c w) c w (w.gpair 4 + 0) = .words s1 (List.replicate 27 0)) ∧
      (match command (afterRead (Rule.unheld s c w) c w) w.coreNo w.ctx (padOf s w) (w.level == 1) (List.replicate 27 0) with
        | .bad _ => true | _ => false) = true) ∧
    Meets (.lnch ⟨hg, 5, 4, 0⟩) (fun s c w al => al ≠ [] ∧ Rule.freed s c w 1 ∧
      (∃ s1, readRecord (Rule.unheld s c w) c w (w.gpair 4 + 0) = .words s1 (tinvRec ++ List.replicate 20 0)) ∧
      (match command (afterRead (Rule.unheld s c w) c w) w.coreNo w.ctx (padOf s w) (w.level == 1) (tinvRec ++ List.replicate 20 0) with
        | .priv => true | _ => false) = true) ∧
    Meets (.lnch ⟨hg, 5, 4, 1⟩) (fun s c w al => al ≠ [] ∧ Rule.freed s c w 1 ∧ (w.gpair 4 + 1) % 81 ≠ 0) ∧
    base.warp? 3 = some (warpOf base) := by
  refine ⟨meets (lnchSt lnchRec fun s => { s with journal := List.replicate 728 jentry }) ?_ ⟨?_, .inr ?_, lnchReads_of ?_, ?_⟩,
    meets (lnchSt lnchRec fun s => { s with journal := List.replicate 729 jentry }) ?_ ⟨?_, .inr ?_, lnchReads_of ?_, ?_⟩,
    meets (lnchSt lnchRec storing) ?_ ⟨?_, ?_⟩,
    meets (lnchSt lnchRec fun s => (storing s).modWarp 3 fun w => { w with released := some placePc }) ?_ ⟨?_, .inl ?_, ?_⟩,
    meets (lnchSt (lnchRec.set 26 1)) ?_ ⟨?_, .inr ?_, lnchReads_of ?_, ?_⟩, meets (lnchSt [-2 * pow3 24]) ?_ ⟨?_, .inr ?_, lnchReads_of ?_, ?_⟩,
    meets (lnchSt tinvRec fun s => (storing s).modWarp 3 fun w => { w with released := some placePc }) ?_ ⟨?_, .inl ?_, lnchReads_of ?_, ?_⟩,
    meets (lnchSt []) ?_ ⟨?_, .inr ?_, lnchReads_of ?_, ?_⟩,
    meets (lnchSt tinvRec fun s => s.modWarp 3 fun w => { w with level := 0 }) ?_ ⟨?_, .inr ?_, lnchReads_of ?_, ?_⟩,
    meets (lnchSt lnchRec) ?_ ⟨?_, .inr ?_, ?_⟩, ?_⟩ <;> (try unfold Rule.freed) <;> decide +kernel

/-- The issue of lane 0 alone. -/
def curOne : Cur := { cur0 with lanes := [0] }
def one (s : State) : State := { s with cur := some curOne }
theorem runs_one {i : Instr} {s : State} (h : ready i s = true) (hl : legal i (warpOf s) [0] = true) : Runs i (one s) curOne (warpOf s) := by
  have r := runs_of_ready h
  exact ⟨rfl, r.warp, rfl, r.wf, hl, r.shaped, by decide⟩

/-- Beside warp 3 in its bay: warps of gang n with 81, 81 and 27 registers. -/
def crowd (n : Nat) (s : State) : State :=
  let more : List Warp := [(81, 1), (81, 2), (27, 3)].map fun (p : Nat × Nat) => newWarp (100 + p.2) (some n) 0 p.2 (.slot 0 0 p.2) 0 1 p.1 placePc []
  { s with warps := s.warps ++ more }

/-- SystemWords. -/
theorem witness_system_words :
    Meets (.role ⟨hv, 4, 3, -4⟩) (fun s c w al => Rule.roleOk ⟨hv, 4, 3, -4⟩ s c w al ∧ 9 * 3 ≤ w.allot) ∧
    Meets (.role ⟨hv, 4, 9, 0⟩) (fun s c w al => Rule.roleOk ⟨hv, 4, 9, 0⟩ s c w al ∧ w.bay? = some (0, 0) ∧ rolesIn s (0, 0) = [] ∧
      bayUsed s 0 0 + 9 * 9 ≤ 243 + w.allot) ∧
    Meets (.role ⟨hv, 4, 9, 0⟩) (fun s c w al => Rule.roleOk ⟨hv, 4, 9, 0⟩ s c w al ∧ ¬ 9 * 9 ≤ w.allot ∧ w.bay? = some (0, 0) ∧
      ¬ bayUsed s 0 0 + 9 * 9 ≤ 243 + w.allot) ∧
    (Runs (.role ⟨hv, 4, 9, 0⟩) (one st) curOne (warpOf st) ∧ ((warpOf st).lane 1).live = true ∧ ¬ 1 ∈ curOne.lanes) ∧
    Meets (.role ⟨hv, 4, 9, 4⟩) (fun s c w al => al ≠ [] ∧ (∀ l, l < 27 → (w.lane l).live = true → l ∈ c.lanes) ∧ w.level = 0 ∧
      (match (gangOf s w).bind fun g => s.launch? g.lid with | some x => x.cls | none => 4) < 4) ∧
    Meets (.role ⟨hv, 4, 9, 0⟩) (fun s c w al => al ≠ [] ∧ (∀ l, l < 27 → (w.lane l).live = true → l ∈ c.lanes) ∧ w.level ≠ 0 ∧ 243 < 9 * 9 + gangAllot s w) ∧
    Meets (.preh ⟨hv, 4, 0⟩) (fun _ _ w _ => w.deadline = none) ∧ Meets (.preh ⟨hv, 4, 0⟩) (fun _ _ w al => al ≠ [] ∧ w.deadline = some 5) ∧
    Meets (.trap ⟨hv, 21523360⟩) (fun _ _ _ al => al ≠ []) ∧ Meets (.rft hg) (fun _ _ w al => w.handler = true ∧ al ≠ []) ∧
    Meets (.rft ⟨.group, 1, .pos⟩) (fun _ _ w al => w.handler = true ∧ al = []) ∧
    Meets (.rft hv) (fun _ _ w _ => w.handler = false) ∧ Meets (.brk ⟨hv, -1⟩) (fun _ _ _ al => al ≠ []) := by
  refine ⟨meets st ?_ ?_, meets st ?_ ?_, meets (st id id (crowd 99)) ?_ ?_, ⟨runs_one ?_ ?_, ?_⟩, meets (st fun w => { w with level := 0 }) ?_ ?_,
    meets (st id id (crowd 2)) ?_ ?_, meets st ?_ ?_, meets (st fun w => { w with deadline := some 5 }) ?_ ?_, meets st ?_ ?_,
    meets (st fun w => { w with handler := true }) ?_ ?_, meets (st fun w => { w with handler := true }) ?_ ?_, meets st ?_ ?_, meets st ?_ ?_⟩ <;>
    (try unfold Rule.roleOk) <;> decide +kernel

/-- The machine with warp 3 halted as given. -/
def haltSt : State := st fun w => w.haltAll ⟨2, 0, 0⟩
/-- The record of a unit that counts integer zeros in its launch. -/
def watchRec : List Int := [2 * pow3 24 + pow3 19 + pow3 10, 0, 0]

/-- HaltedStateWords: lane 26, register 26, and the outcomes −1, −2, −3. -/
theorem witness_halted_state :
    ([Instr.wset ⟨hg, 4, 10, 15, 12, 26⟩, .wclr ⟨hg, 4, 10, 26⟩, .wrd ⟨hg, 4, 10, 0⟩, .hlst ⟨hg, 4, 10⟩, .hrdv ⟨hg, 4, 10, 508⟩, .hwrv ⟨hg, 4, 24, 15, 6⟩,
      .hrdp ⟨hg, 4, 10, .link 9841⟩, .hwrp ⟨hg, 4, 24, 15, .depth⟩, .hstep ⟨hg, 4, 10⟩, .hres ⟨hg, 2, 4, 10⟩].all fun i => ready i st) = true ∧
    Meets (.hlst ⟨hg, 4, 10⟩) (fun _ _ w al => al ≠ [] ∧ w.level ≠ 0) ∧ Meets (.hlst ⟨hg, 4, 10⟩) (fun _ _ w al => al ≠ [] ∧ w.level = 0) ∧
    (Rule.halted haltSt 9 none 26 (warpOf haltSt) 26 ∧ 26 ≤ 80 ∧ 26 < (warpOf haltSt).allot ∧ (warpOf haltSt).handler = false ∧ ((warpOf haltSt).lane 26).wait = none) ∧
    (firstHalted haltSt (addrCore 26) (addrHandle 26) = some (warpOf haltSt) ∧ opsBefore haltSt 9 3 = false ∧ quiet haltSt 9 none 3 = true ∧
      (warpOf haltSt).dbl = none ∧ ((warpOf haltSt).lane ((listedHalts (warpOf haltSt)).headD 0)).halted = some ⟨2, 0, 0⟩) ∧
    (let u : Watch := ⟨26, watchRec, 1, 3, some 2, some 1, 0, 0⟩
     let s := st id id fun s => s.modCore 0 fun c => { c with watch := [u] }
     coreInRange 26 = true ∧ coreFenced s 26 = false ∧ unitBefore s 9 26 26 = false ∧ quietCore s 9 none (addrCore 26).toNat = true ∧ (s.core (addrCore 26).toNat).watch.find? (fun y => y.unit == 26) = some u) ∧
    (warpAt st 26 = some (warpOf st) ∧ coreFenced st 26 = false ∧ field (wordAt watchRec 0) 26 24 ≠ 0 ∧
      watchBad (match (warpOf st).gid.bind st.gang? with | some g => g.cores.length == 2 | none => false) watchRec = none) ∧
    (coreInRange (767 * pow3 18) = true ∧ coreFenced st (767 * pow3 18) = false ∧ warpAt st (767 * pow3 18) = none) ∧
    (coreInRange 0 = true ∧ coreFenced (st.modPkg fun p => { p with deadCores := [0] }) 0 = true) ∧
    (opsBefore st 9 3 = false ∧ quiet st 9 none 3 = true ∧ addrLane 26 = ((26 : Nat) : Int) ∧ ((warpOf st).lane 26).live = true ∧ ((warpOf st).lane 26).halted = none) ∧
    (match dbgTry st 9 (some 3) (.wclr 0) 0 0 with | .done s1 ws => ws == [0] && (s1.warp? 3).isSome | _ => false) = true := by
  refine ⟨?_, meets st ?_ ?_, meets (st fun w => { w with level := 0 }) ?_ ?_, ?_⟩
  case refine_6 => unfold Rule.halted; decide +kernel
  all_goals decide +kernel

/-- The machine of log entry 5 between words, changed as given. -/
def ev (fs : State → State) : State := fs { base with agenda := [] }
/-- With every lane of warp 3 waiting for k since its word. -/
def waits (k : WaitKind) (s : State) : State := s.modWarp 3 fun w => w.allLanes fun _ x => { x with wait := some ⟨k, placePc⟩ }
/-- With a request for line 586 (address 47466), and the line held at its home. -/
def req0 (b : ReqBody) (stage : Nat := 0) : Req := ⟨7, 0, 0, 3, 0, 586, b, none, stage, 0, []⟩
def withReq (b : ReqBody) (stage : Nat := 0) (s : State) : State := { s with reqs := [req0 b stage] }
def held (s : State) : State := heldAt [586] s
/-- A load operation of lane 0, with what it has got. -/
def op0 (g : Got) : LoadOp := ⟨8, 3, placePc, .v 5, 3, false, false, false, none, .nop hv, [⟨0, 47466, .dom 0 47466, none, 3, g⟩], false, 0, false, [], []⟩
def withOp (g : Got) (s : State) : State := { s with ops := [op0 g] }

/-- WaitsEnd. -/
theorem witness_waits_end :
    ((ev fun s => s.modGang 2 (barred Bar.start)).gang? 2 = some (barred Bar.start gang0) ∧ (barred Bar.start gang0).bars[8]? = some Bar.start) ∧
    (let s := waits (.bar 0 0) (ev fun s => s.modGang 2 (barred Bar.start))
     s.gang? 2 = some (barred Bar.start gang0) ∧ barrierCycle s (barred Bar.start gang0) = true ∧ (s.warps.filter fun x => x.gid == some 2) = [warpOf s]) ∧
    (let c : Channel := { Channel.grant 30 (some 1) 0 2 with due := [⟨0, 0, 5, [3]⟩] }
     let s := waits (.chan 30 0 6) (ev fun s => { s with chans := [c] })
     s.chan? 30 = some c ∧ (0 : Int) ≤ s.pkg.gtime ∧ s.warp? 3 = some (warpOf s) ∧ ((warpOf s).lane 26).wait = some ⟨.chan 30 0 6, placePc⟩) ∧
    (base.gang? 2 = some gang0 ∧ barrierCycle base gang0 = false) ∧
    (base.warp? 3 = some (warpOf base) ∧ (warpOf base).place ≠ .saved) ∧
    (let s := ev fun s => s.modWarp 3 fun w => w.modLane 5 fun x => { x with wait := some ⟨.join 0 (.v 3) 0 0, placePc⟩ }
     s.warp? 3 = some (warpOf s) ∧ (warpOf s).place ≠ .saved ∧ (s.core (warpOf s).coreNo).watch = [] ∧
       (∀ j ∈ (warpOf s).joins, ((warpOf s).lane 0).live = true ∧ ((warpOf s).lane 0).atJoin j = false)) ∧
    (let s := waits (.join 9 (.v 3) 0 0) (ev id)
     s.warp? 3 = some (warpOf s) ∧ (s.core (warpOf s).coreNo).watch = [] ∧ (warpOf s).joins = [(placePc, 0)] ∧
       ∀ l, l < 27 → ((warpOf s).lane l).live = true → ((warpOf s).lane l).atJoin (placePc, 0) = true) ∧
    (let s := waits (.touch 0) (ev id)
     s.warp? 3 = some (warpOf s) ∧ promiseGroup (warpOf s) s.pkg.gtime = some (placePc, upto 27) ∧ mayReissue s (warpOf s) = true ∧
       (codeBlock? s 0 0 (placePc / 27)).isSome = true) := by decide +kernel

/-- PROMISE_REISSUE's word decodes and is free of load hazards. -/
theorem witness_promise_reissue :
    (let s := waits (.touch 0) (placeWord State.reset (word (vf 1 9 [])))
     (match codeBlock? s 0 0 (placePc / 27) with | some b => decide (decode? (wordAt b.words (placePc % 27).toNat) = some (.nop hv)) | none => false) = true ∧
       loadHazard s (warpOf s) (.nop hv) (upto 27) = false) := by decide +kernel

/-- Window 0's only line, in a state. -/
def inWin (st_ : LineState) (own : Bool := false) (s : State) : State := s.modGang 2 (winGang [line0 st_ own])

/-- WindowLineEvents: sectors 0 and 2, a present and a dirty line. -/
theorem witness_window_lines :
    (let s := ev fun s => inWin .filling false (withReq (.sectors 2 0 0 [(5, 7)] Tag.plain 2 false) 0 s)
     s.req? 7 = some (req0 (.sectors 2 0 0 [(5, 7)] Tag.plain 2 false)) ∧ firstReply s (req0 (.sectors 2 0 0 [(5, 7)] Tag.plain 2 false)) = true ∧ s.tbMet 2 = false ∧
       s.gang? 2 = some (winGang [line0 .filling] gang0) ∧
       (winGang [line0 .filling] gang0).win? 0 = some (win0 [line0 .filling]) ∧
       (win0 [line0 .filling]).line? 0 = some (line0 .filling)) ∧
    (ev fun s => withReq (.mcopy 2 0 0 [] Tag.plain 0 false) 0 s).req? 7 = some (req0 (.mcopy 2 0 0 [] Tag.plain 0 false)) ∧
    firstReply (ev fun s => withReq (.mcopy 2 0 0 [] Tag.plain 0 false) 0 s) (req0 (.mcopy 2 0 0 [] Tag.plain 0 false)) = true ∧ base.tbMet 2 = false ∧
    (let s := ev fun s => inWin .dirty true (withReq (.recall 2 0 0 true) 0 s)
     s.req? 7 = some (req0 (.recall 2 0 0 true)) ∧ firstRecall s (req0 (.recall 2 0 0 true)) 2 = true ∧ (s.gang? 2).isSome = true ∧
       (((s.gang? 2).bind fun g => g.win? 0).bind fun w => w.line? 0) = some (line0 .dirty true)) ∧
    (let s := ev fun s => inWin .present false (withReq (.own 2 0 0 [(0, 3, 5)]) 0 s)
     s.req? 7 = some (req0 (.own 2 0 0 [(0, 3, 5)])) ∧ arrived s (req0 (.own 2 0 0 [(0, 3, 5)])) = true ∧ remoteHeld s 0 = false ∧ engineBars s [2] 0 586 = false ∧
       clear s 0 586 true (some (2, 0, 0)) = true ∧ (((s.gang? 2).bind fun g => g.win? 0).bind fun w => w.line? 0) = some (line0 .present)) := by
  decide +kernel

/-- The miss entries of line 586's slice full: 81 other lines. -/
def fullMisses (s : State) : State := { s with reqs := s.reqs ++ (upto 81).map fun i => { req0 (.read 8 [0]) 1 with id := 100 + i, line := 586 + 256 * ((i : Int) + 1) } }
/-- Line 586 uncorrectable. -/
def poison586 (s : State) : State := s.modMem fun m => { m with poison := [lineKey 0 586] }
/-- An atomic on lane 0's word. -/
def atom0 : AtomA := ⟨hv, false, false, .add, .v 5, at4, .v 22⟩

/-- ReadsAtTheHome. -/
theorem witness_reads_at_home :
    (let r := { req0 (.read 8 [0]) with sc := some [0, 0, 0, 0, 0] }
     let s := ev fun s => { s with reqs := [r] }
     s.req? 7 = some r ∧ arrived s r = true ∧ remoteHeld s 0 = false ∧ r.sc.isSome = true) ∧
    (let s := ev fun s => held (withReq (.read 8 [0]) 0 s)
     arrived s (req0 (.read 8 [0])) = true ∧ readClear s (req0 (.read 8 [0])) = true ∧ (s.heldLine? 0 586).isSome = true) ∧
    (let s := ev (withReq (.read 8 [0]))
     arrived s (req0 (.read 8 [0])) = true ∧ readClear s (req0 (.read 8 [0])) = true ∧ s.heldLine? 0 586 = none ∧ missing s 0 586 = [] ∧ missLoad s 0 586 < 81) ∧
    (let s := ev fun s => fullMisses (withReq (.read 8 [0]) 0 s)
     s.req? 7 = some (req0 (.read 8 [0])) ∧ arrived s (req0 (.read 8 [0])) = true ∧ readClear s (req0 (.read 8 [0])) = true ∧ s.heldLine? 0 586 = none ∧
       missing s 0 586 = [] ∧ 81 ≤ missLoad s 0 586) ∧
    (let r := req0 (.read 8 [0]) 1
     let s := ev fun s => poison586 (withReq (.read 8 [0]) 1 s)
     s.req? 7 = some r ∧ makeRoom s 0 586 = none ∧ missing s 0 586 = [r] ∧ readClear (install s 0 586 false) r = true) ∧
    ((ev (withOp .waiting)).op? 8 = some (op0 .waiting) ∧ (op0 .waiting).fill = none) ∧
    (let s := waits (.load 8) (ev (withOp (.value 5)))
     s.op? 8 = some (op0 (.value 5)) ∧ s.warp? 3 = some (warpOf s) ∧ (op0 (.value 5)).isAtom = false ∧ (s.core (warpOf s).coreNo).watch = []) ∧
    (let o := { op0 (.value 5) with instr := .atom atom0 }
     let s := ev fun s => { s with ops := [o] }
     s.op? 8 = some o ∧ o.isAtom = true ∧ o.hstep = false ∧ (s.core (warpOf s).coreNo).watch = []) ∧
    ((op0 (.value 5)).group = false ∧ (op0 (.value 5)).dbl = false ∧ (warpOf base).lanes.length = 27) ∧
    (let s := ev fun s => (withOp (.tagFault 47466) s).modWarp 3 fun w => w.modLane 0 fun x => { x with wait := some ⟨.load 8, placePc⟩ }
     s.op? 8 = some (op0 (.tagFault 47466)) ∧ s.warp? 3 = some (warpOf s) ∧ (s.core (warpOf s).coreNo).watch = [] ∧ (warpOf s).waiting (fun x => x.kind == .load 8) = [0]) := by
  refine ⟨?_, ?_, ?_, ?_, ?_, ?_, ?_, ?_, ?_, ?_⟩ <;> decide +kernel

/-- A word's unit at 47466. -/
def unit0 (v : Int) : Unit1 := ⟨0, .dom 0 47466, none, 3, v⟩
/-- WritesAtTheHome: counts 1 and 2 of a round. -/
theorem witness_writes_at_home :
    (let r := req0 (.store [unit0 5])
     let s := ev fun s => held (withReq (.store [unit0 5]) 0 s)
     s.req? 7 = some r ∧ arrived s r = true ∧ remoteHeld s 0 = false ∧ writeReady s 7 (writeLines s r [unit0 5]) = none) ∧
    ((0 : Int) ≤ 81 ∧ (81 : Int) % 81 + ((81 : Nat) : Int) ≤ 81 ∧ base.mem.bad 0 (81 / 81) = false) ∧
    (let r := req0 (.wtag 5 1)
     let s := ev fun s => held (withReq (.wtag 5 1) 0 s)
     arrived s r = true ∧ (s.mem.tag 0 586).code < 7 ∧ writeReady s 7 [(0, 586)] = none ∧ s.mem.bad 0 586 = false) ∧
    (let r := req0 (.atom 8 .cas [unit0 5] [(0, 0)])
     let s := ev fun s => held (withReq (.atom 8 .cas [unit0 5] [(0, 0)]) 0 s)
     arrived s r = true ∧ writeReady s 7 (writeLines s r [unit0 5]) = none ∧
       readPieces (takeLines s (soundLines s (writeLines s r [unit0 5]))).mem 0 (pieces (.dom 0 47466) none 3) = .val 0) ∧
    (let r := req0 (.red 1 false [unit0 5])
     let s := ev fun s => held (withReq (.red 1 false [unit0 5]) 0 s)
     arrived s r = true ∧ writeReady s 7 (writeLines s r [unit0 5]) = none ∧
       readPieces (takeLines s (soundLines s (writeLines s r [unit0 5]))).mem 0 (pieces (.dom 0 47466) none 3) = .val 0) ∧
    ([1, 2].all fun (n : Int) =>
      let r := req0 (.det 0 false 4 n [0, 0, 0, 0] [unit0 5])
      let s := ev fun s => held (withReq (.det 0 false 4 n [0, 0, 0, 0] [unit0 5]) 0 s)
      arrived s r && (writeReady s 7 (writeLines s r [unit0 5])).isNone && s.home.rounds.isEmpty &&
       readPieces (takeLines s (soundLines s (writeLines s r [unit0 5]))).mem 0 (pieces (.dom 0 47466) none 3) == .val 0) = true ∧
    (let r := req0 (.wback (.dom 0 47466) [] Tag.plain 0 false true false)
     let s := ev (withReq (.wback (.dom 0 47466) [] Tag.plain 0 false true false))
     s.req? 7 = some r ∧ r.stage ≠ 5 ∧ firstBack s r = true ∧ remoteHeld s 0 = false ∧ backLoad s 0 586 < 27) ∧
    (let r := req0 (.wback (.dom 0 47466) [] Tag.plain 0 false true false)
     let s := ev fun s => { s with reqs := r :: (upto 27).map fun i => { req0 (.evict false) with id := 100 + i } }
     s.req? 7 = some r ∧ 27 ≤ backLoad s 0 586) ∧
    (ev (withReq (.evict true))).req? 7 = some (req0 (.evict true)) := by
  refine ⟨?_, ?_, ?_, ?_, ?_, ?_, ?_, ?_, ?_⟩ <;> decide +kernel

/-- A page table for page 3: root at line 10, nodes at lines 100 and 200, a leaf of level 2. -/
def leaf2 : Int := placeLeaf 0 - 2 + pow3 12
def tabled (s : State) : State := { (s.modMem fun m => ((m.write 0 (810 + 2184) 6 (-(pow3 52) + 100)).write 0 (8100 + 2184) 6 (-(pow3 52) + 200)).write 0 (16200 + 2184) 6 leaf2) with
  ctxs := s.ctxs.map (fun c => { c with words := c.words.set 0 10 }), home := (heldAt [36, 126, 226] s).home }

/-- MeshTranslationAndFetchEvents. -/
theorem witness_mesh_translation_fetch :
    (let r := req0 (.mcast 2 0 0 [1, 0, 0])
     let s := ev (withReq (.mcast 2 0 0 [1, 0, 0]))
     s.req? 7 = some r ∧ arrived s r = true ∧ remoteHeld s 0 = false ∧ s.home.mcasts = [] ∧ s.heldLine? 0 586 = none ∧ missLoad s 0 586 < 81) ∧
    (let s := ev fun s => fullMisses (withReq (.mcast 2 0 0 [1, 0, 0]) 0 s)
     arrived s (req0 (.mcast 2 0 0 [1, 0, 0])) = true ∧ s.home.mcasts = [] ∧ s.heldLine? 0 586 = none ∧ 81 ≤ missLoad s 0 586) ∧
    (let e : McEntry := ⟨6, 0, 586, [1, 0, 0], []⟩
     let s := ev fun s => { withReq (.mcast 2 0 0 [1, 0, 0]) 0 (poison586 s) with home := { s.home with mcasts := [e] } }
     arrived s (req0 (.mcast 2 0 0 [1, 0, 0])) = true ∧ (s.home.mcasts.find? fun x => x.pkg == 0 && x.line == 586 && x.map == [1, 0, 0]) = some e ∧
       (s.home.mcasts.find? fun x => x.id == 6) = some e ∧ engineBars s (mcGangs s e) 0 586 = false ∧ clear s 0 586 false none = true ∧ makeRoom s 0 586 = none) ∧
    (let b : Binding := ⟨2, 2, 0, .window 0 0, 1, 0, 0, none⟩
     let s := ev fun s => (withReq (.stream 0 2 [] Tag.plain 1) 0 s).modCore 0 fun c => { c with binds := [b] }
     s.req? 7 = some (req0 (.stream 0 2 [] Tag.plain 1)) ∧ (s.core 0).binds = [b] ∧ b.landed + 1 ≠ 3 * b.n ∧ s.tbMet 2 = false ∧
       ((s.reqs.takeWhile fun q => q.id != 7).any fun q => match q.body with | .stream c p _ _ _ => c == 0 && p == 2 | _ => false) = false) ∧
    (let s := ev fun s => s.modWarp 3 fun w => { w with pends := [⟨9, .recv 2 0 0 1 [] true, 0⟩] }
     (warpOf s).gid = some 2 ∧ (warpOf s).pends = [⟨9, .recv 2 0 0 1 [] true, 0⟩] ∧ portFree s 0 2 = true ∧ (recvWaits s 0 2).head? = some (9, 3)) ∧
    (base.pkg.gtime % 27 = 0 ∧ ∀ f ∈ base.pkg.frontiers, f.1 ≠ base.pkg.gtime + 81) ∧ (∀ r ∈ base.reqs, r.sc = none) ∧
    (let s := ev tabled
     (s.context? 0).isSome = true ∧ tlbFind (s.core 0) 0 3 = none ∧ canonicalAddr (19683 * 3) = true ∧
       (let st := walkStart s (srcDie 0) 0 3
        let s0 := walkRecall s 3 st.1 st.2
        (match walkFrom s0 3 st.1 st.2 with | .ok (e, lv, a) => e == leaf2 && lv == 2 && a == 16200 + 2184 | .error _ => false) = true ∧
          pteTarget leaf2 = 0 ∧ leafListed s leaf2 2 = false ∧ ((setPteBit s0 (16200 + 2184) 45).core 0).tlb.length < 729)) ∧
    (let s := (ev fun s => s.modWarp 3 fun w => { w with code := [] })
     s.warp? 3 = some (warpOf s) ∧ freeToIssue s (warpOf s) = true ∧ wordFor s (warpOf s) (warpOf s).issuePc = none ∧ pastLimit s (warpOf s) (warpOf s).issuePc = false) ∧
    (let s := ev fun s => (heldAt [486, 487] (s.modCore 0 fun c => { c with code := [] })).modWarp 3 fun w => { w with code := [] }
     let r := checkAddrs s 0 0 true Need.exec true (Rule.blockPages (warpOf s).issuePc)
     let b := blockOf (warpOf s).issuePc
     r.2 = [(39366, .ok (.dom 0 39366))] ∧ codeBlock? r.1 0 0 b = none ∧
       (∀ i, i < 54 → let p := (blockLoc (162 * b) [Loc.dom 0 39366] (162 * b + 3 * ((i : Nat) : Int))).pkgLine
         remoteHeld r.1 p.1 = false ∧ writing r.1 0 p.1 p.2 = false ∧ engineOwned r.1 p.1 p.2 = false ∧ clear r.1 p.1 p.2 false none = true ∧
           p.1 ≠ 999 ∧ (p.2 = 486 ∨ p.2 = 487) ∧ (readHome (readHome r.1 0 486) 0 487).mem.lineAt (blockLoc (162 * b) [Loc.dom 0 39366] (162 * b + 3 * ((i : Nat) : Int))) ≠ .bad)) ∧
    (let q : PageReq := ⟨5, 0, 2, [0], false⟩
     let s := ev fun s => { s with pageReqs := [q], warps := s.warps.map fun w => { w with park := some ⟨2, 10⟩ } }
     (s.pageReqs.find? fun x => x.i == 5) = some q ∧ s.warps.filter (Rule.parkedOn q) = [warpOf s] ∧ (warpOf s).park = some ⟨q.page, 10⟩) := by
  refine ⟨?_, ?_, ?_, ?_, ?_, ?_, ?_, ?_, ?_, ?_, ?_⟩ <;> decide +kernel

/-- A task that waits or runs, and what it starts from, when its lines are ready (Rule.taskReady as a function). -/
def taskGo (s : State) (gid ticket : Nat) (kind : Int) : Option (Task × State × State × Gang) :=
  (s.gang? gid).bind fun g0 => (g0.tasks.find? fun t => t.ticket == ticket).bind fun t =>
    if taskKind t.words = kind ∧ withheld s (g0.cores.headD 0 / 64) = false ∧ s.tbMet gid = false ∧ (t.st = .running ∨ (t.st = .queued ∧ mayRun s g0 t = true ∧ slotsFit g0 t = true)) then
      let u := if t.st = .queued ∧ kind = 4 then epiUnit s g0 t else t.unit
      let s0 := modTask (if t.st = .queued ∧ kind = 1 then bindSlot s gid t else s) gid ticket fun t => { t with st := .running, unit := u }
      let sa := s0.aside (.task gid ticket)
      (sa.gang? gid).bind fun g1 => match (if kind = 4 then epiPre sa g1 t else noPre sa g1 t) with
        | .done s1 => (s1.gang? gid).bind fun g2 => match taskAccess s1 g2 t with | .done s2 => (s2.gang? gid).map fun g => (t, s0, s2, g) | _ => none
        | _ => none
    else none

theorem meetsTask {s : State} {gid ticket : Nat} {kind : Int} {P : Task → State → Gang → Bool}
    (h : (match taskGo s gid ticket kind with | some (t, _, s2, g) => P t s2 g | none => false) = true) :
    ∃ t s0 s2 g, Rule.taskReady s gid ticket kind t s0 s2 g ∧ P t s2 g = true := by
  split at h
  · rename_i t s0 s2 g e
    refine ⟨t, s0, s2, g, ?_, h⟩
    simp only [taskGo, Option.bind_eq_some_iff] at e
    obtain ⟨g0, h0, t', ht, e⟩ := e
    split at e
    · rename_i hk
      obtain ⟨g1, h1, e⟩ := Option.bind_eq_some_iff.mp e
      split at e
      · rename_i s1' hp
        obtain ⟨g2, h2, e⟩ := Option.bind_eq_some_iff.mp e
        split at e
        · rename_i s2' ha
          obtain ⟨g', hg, e⟩ := Option.map_eq_some_iff.mp e
          obtain ⟨rfl, rfl, rfl, rfl⟩ := by simpa using e
          exact ⟨g0, g1, g2, s1', h0, ht, hk.1, hk.2.1, hk.2.2.1, hk.2.2.2, rfl, h1, hp, h2, ha, hg⟩
        · cases e
      · cases e
    · cases e
  · cases h

/-- A gang with one task of given words, 200 lines and one TI9 slot. -/
def aTask (ws : List Int) : Task := ⟨3, 3, 81 * 150, ws ++ List.replicate (27 - ws.length) 0, 0, 0, true, [], .queued, 0, 0, 0, [], 0, [], false, none⟩
def slot0 (mode : Int) (core : Option Nat) : Slot := ⟨mode, 0, [(0, 5)], core⟩
def taskSt (ws : List Int) (f : Task → Task := id) (sl : Slot := slot0 1 (some 0)) : State :=
  ev fun s => s.modGang 2 fun g => { g with alines := 200, slots := [sl], tasks := [f (aTask ws)] }
def g2 (s : State) : Gang := (s.gang? 2).getD gang0
def tk (s : State) : Task := (g2 s).tasks.headD (aTask [])
def wloadRec : List Int := [pow3 24, -1, 0, 0, 0, 0, 0, 0, 1, 1]
def mmRec : List Int := [2 * pow3 24, -1, 0, 0, 0, 0, 0, 1, 0, 9, 1, 0, 1, 81 * 100, 3, 1, 1]
def streamRec : List Int := [3 * pow3 24, -1, 0, 0, 0, 0, 0, 1, 0, 9, 1, 2, 0, 81 * 100, 3, 1, 1]

/-- TileTasksRun: each kind of task at its first step and at its last; a task that ends; a fault inside and beyond details 1 to 10; TASKF. -/
theorem witness_tile_tasks :
    (9 ≤ 9 ∧ ∀ x ∈ [(9841 : Int), -9841], -9841 ≤ x ∧ x ≤ 9841) ∧
    (∃ t s0 s2 g, Rule.taskReady (taskSt wloadRec) 2 3 1 t s0 s2 g ∧ (match wloadRows g (wordAt t.words 9) none (wloadB t.words).lines with | .ok _ => true | .error _ => false) = true) ∧
    (∃ t s0 s2 g, Rule.taskReady (taskSt mmRec) 2 3 2 t s0 s2 g ∧ (match mmRows g t.words (slotsOf g t.words) 0
      ((upto (mmA t.words).rows.toNat).map fun m => (cRow (mmA t.words) m).map fun a => (a, readA g (wordAt t.words 9) a)) with | .ok _ => true | .error _ => false) = true) ∧
    (∃ t s0 s2 g, Rule.taskReady (taskSt streamRec) 2 3 3 t s0 s2 g ∧ (t.got.isEmpty && !streamBound s2 (t.core g) g t &&
      portFree s2 (t.core g) (wordAt t.words 11).toNat && (recvWaits s2 (t.core g) (wordAt t.words 11).toNat).isEmpty) = true) ∧
    (∃ t s0 s2 g, Rule.taskReady (taskSt streamRec fun t => { t with st := .running, got := [([], Tag.plain)] }) 2 3 3 t s0 s2 g ∧
      (!t.got.isEmpty && wordAt t.words 12 == 0 && t.got.length == streamLines t.words &&
        (match aOps ((upto t.got.length).map fun i => (0, gotLine t.got i)) with | .ok _ => true | .error _ => false) &&
        (match mmRows g t.words (slotsOf g t.words) 0 ((upto (wordAt t.words 10).toNat).map fun m => (upto (wordAt t.words 7).toNat).map fun j =>
          ((0 : Int), gotLine t.got (m * (wordAt t.words 7).toNat + j))) with | .ok _ => true | .error _ => false)) = true) ∧
    (∃ t s0 s2 g, Rule.taskReady (taskSt (epiRec.set 14 (-121))) 2 3 4 t s0 s2 g ∧ (wordAt t.words 15 == 0 && wordAt t.words 18 == 0 && inR (wordAt t.words 14) (-121) 121 &&
      ((epiOut t.words).lines.all fun x => !g.unread x 81) && (match cLines g (epiC t.words).lines with | .ok _ => true | .error _ => false)) = true) ∧
    (let s := taskSt wloadRec fun t => { t with st := .computed }
     s.gang? 2 = some (g2 s) ∧ (g2 s).tasks.find? (fun t => t.ticket == 3) = some (tk s) ∧ (tk s).st = .computed ∧ wordAt (tk s).words 1 = -1) ∧
    (let s := (taskSt (wloadRec.set 1 (81 * 120)) fun t => { t with st := .computed }).modGang 2 fun g => g.write (81 * 120) 3 7
     s.gang? 2 = some (g2 s) ∧ (g2 s).tasks.find? (fun t => t.ticket == 3) = some (tk s) ∧ (tk s).st = .computed ∧ wordAt (tk s).words 1 ≠ -1 ∧
       (tbGet s (.scr 2 (wordAt (tk s).words 1))).pending ≠ 0 ∧
       (tbArrive (dropTask (putWords s ((tk s).core (g2 s)) (g2 s).ctx 2 ((tk s).addr + 15) [pow3 24 + (tk s).flags]) 2 3) (.scr 2 (wordAt (tk s).words 1))).isSome = true) ∧
    (let s := taskSt wloadRec
     s.gang? 2 = some (g2 s) ∧ relaunchable s (g2 s) = false ∧
       (let r := (((tk s).words.set 5 (-(pow3 24) + 10 * pow3 16)).set 25 (lowWord 81)).set 26 (highWord 81)
        taskfWarp (dropTask (putWords s ((tk s).core (g2 s)) (g2 s).ctx 2 (tk s).addr r) 2 (tk s).ticket) 2 (tk s).wid = some 3)) ∧
    (let s := waits (.bar 0 0) (ev fun s => s.modWarp 3 fun w => { w with taskfs := [⟨20, 81, []⟩] })
     s.warp? 3 = some (warpOf s) ∧ (warpOf s).taskfs = [⟨20, 81, []⟩] ∧ taskfNow s (warpOf s) = true ∧ (warpOf s).pends = []) := by
  refine ⟨by decide +kernel, meetsTask ?_, meetsTask ?_, meetsTask ?_, meetsTask ?_, meetsTask ?_, ?_⟩ <;> decide +kernel

/-- An image of one state and one class, its header at 47466, all of its transitions missing. -/
def img : List Loc := [.dom 0 47466, .dom 0 59049]
def imgMem : Memory := ⟨[(memKey 0 47466, 1), (memKey 0 47469, 1)], [], [], [], [], []⟩

theorem img_pages (i : Nat) : ((47466 + (i : Int)) / 19683 - 47466 / 19683).toNat = 0 ∨ ((47466 + (i : Int)) / 19683 - 47466 / 19683).toNat = 1 ∨
    ∃ j, ((47466 + (i : Int)) / 19683 - 47466 / 19683).toNat = j + 2 := by
  match ((47466 + (i : Int)) / 19683 - 47466 / 19683).toNat with
  | 0 => exact .inl rfl
  | 1 => exact .inr (.inl rfl)
  | j + 2 => exact .inr (.inr ⟨j, rfl⟩)

/-- Beyond its header the image reads 0. -/
theorem img_zero (i n : Nat) (hi : 81 ≤ i) : readPieces imgMem 0 [(spanLoc img 47466 i, n)] = .val 0 := by
  obtain ⟨x, hx, h, h0⟩ : ∃ x, spanLoc img 47466 i = .dom 0 x ∧ x / 81 ≠ 586 ∧ 0 ≤ x := by
    unfold spanLoc
    simp only [img, pageOf]
    rcases (img_pages i : ((47466 + (i : Int)) / 19683 - 47466 / 19683).toNat = 0 ∨ ((47466 + (i : Int)) / 19683 - 47466 / 19683).toNat = 1 ∨
      ∃ j, ((47466 + (i : Int)) / 19683 - 47466 / 19683).toNat = j + 2) with hk | hk | ⟨j, hk⟩ <;> simp only [hk]
    · exact ⟨47466 + (47466 + (i : Int) - 47466), rfl, by omega⟩
    · exact ⟨59049 + (47466 + (i : Int) - 19683 * ((47466 + (i : Int)) / 19683)), rfl, by omega⟩
    · exact ⟨0 + (47466 + (i : Int) - 19683 * ((47466 + (i : Int)) / 19683)), rfl, by omega⟩
  have hs : imgMem.line 0 (x / 81) = [] := by
    have a1 : ¬(memKey 0 (81 * (x / 81)) ≤ memKey 0 47466 ∧ memKey 0 47466 < memKey 0 (81 * (x / 81)) + 81) := by unfold memKey; omega
    have a2 : ¬(memKey 0 (81 * (x / 81)) ≤ memKey 0 47469 ∧ memKey 0 47469 < memKey 0 (81 * (x / 81)) + 81) := by unfold memKey; omega
    simp [Memory.line, sslice, imgMem, a1, a2]
  have hl : imgMem.lineAt (.dom 0 x) = .data [] Tag.plain := by
    have t (l : Int) : imgMem.tag 0 l = Tag.plain := by
      show Tag.ofNum 0 = _
      decide +kernel
    have b (l : Int) : imgMem.bad 0 l = false := rfl
    simp only [Memory.lineAt, Memory.logical, t, b, hs]
    rfl
  have hz : ∀ (n k : Nat), join 9 (sgets [] k n) = 0 := by
    intro n; induction n with
    | zero => intro k; rfl
    | succ n ih => intro k; simp [sgets, join, ih, sget]
  rw [hx]
  simp [readPieces, hl, unitOf, hz]

theorem img_word (k : Nat) (hk : 27 ≤ k) : imageWord imgMem img 47466 k = some 0 := by
  unfold imageWord; rw [img_zero (3 * k) 3 (by omega)]
theorem img_tryte (k : Nat) : imageTryte imgMem img 47466 (81 + k) = 0 := by
  unfold imageTryte; rw [img_zero (81 + k) 1 (by omega)]

theorem img_loads : loadTable imgMem ⟨0, .loading, 0, 0, 0, 0, [], []⟩ img 47466 =
    .ok ⟨0, .loaded, 0, 1, 1, 0, ssets [] 0 (List.replicate 19683 0), ssets [] 0 (List.replicate 162 0)⟩ := by
  have h0 : imageWord imgMem img 47466 0 = some 1 := by decide +kernel
  have h1 : imageWord imgMem img 47466 1 = some 1 := by decide +kernel
  have h2 : imageWord imgMem img 47466 2 = some 0 := by decide +kernel
  have hz : ((upto 24).any fun i => imageWord imgMem img 47466 (3 + i) != some 0) = false := by decide +kernel
  have hn : ((upto (244 + 6 * (1 : Int).toNat)).any fun l => (imageWord imgMem img 47466 (27 * l)).isNone) = false := by decide +kernel
  have hm : (upto 19683).map (fun v => imageTryte imgMem img 47466 (81 + v)) = List.replicate 19683 0 := by
    rw [List.map_congr_left (g := fun _ => 0) (fun v _ => img_tryte v)]
    rw [List.map_const', show (upto 19683).length = 19683 by simp [upto]]
  have he : (upto (81 * (1 : Int).toNat)).map (fun e => ((imageWord imgMem img 47466 (27 * 244 + 2 * e)).getD 0, (imageWord imgMem img 47466 (27 * 244 + 2 * e + 1)).getD 0)) =
      List.replicate 81 (0, 0) := by
    rw [List.map_congr_left (g := fun _ => (0, 0)) (fun e _ => by rw [img_word _ (by omega), img_word _ (by omega)]; rfl)]
    rw [List.map_const']; rfl
  unfold loadTable
  simp only [h0, h1, h2, hz, hn, hm, he]
  have hr : (List.replicate 19683 (0 : Int)).any (fun k => !(k == -1 || inR k 0 (1 - 1))) = false := by
    rw [List.any_eq_false]; intro x hx; rw [List.eq_of_mem_replicate hx]; decide
  rw [hr]
  have hq : ((List.zip (upto (List.replicate 81 ((0 : Int), (0 : Int))).length) (List.replicate 81 ((0 : Int), (0 : Int)))).all
      fun p => entryOk (1 : Int).toNat (1 : Int).toNat (p.1 % 81) p.2.1 p.2.2) = true := by decide +kernel
  have hg : (!inR 1 1 729 || !inR 1 1 81 || !inR 0 0 (1 - 1) || false) = false := by decide
  have hf : ((List.replicate 81 ((0 : Int), (0 : Int))).flatMap fun p => [p.1, p.2]) = List.replicate 162 0 := by decide +kernel
  simp only [hq, hg, hf]
  simp only [Bool.not_true, Bool.false_eq_true, if_false, Int.toNat_one, Int.toNat_zero]
/-- The memory of a machine that holds the image is imgMem. -/
theorem imgMem_eq : (memAt 47466 [1, 1, 0] (ev id)).mem = imgMem := by decide +kernel

/-- A table of one state whose class 0 emits a tryte. -/
def slotOne : TableSlot := ⟨0, .loaded, 0, 1, 1, 0, [], [(0, 5), (1, pow3 8 + pow3 6 - 364)]⟩
def xev (f : XReq → XReq) : State := { xSt xRec [f xreq0] .loaded with cur := none }

/-- Its request owns the line that it writes. -/
def xOwned (s : State) : State := { s with home := { s.home with owned := [⟨0, 600, .xducer 9⟩] } }
/-- A request without room, one whose source page is lost. -/
def xNow (z : XRun) (v : Int) (x : XReq) : Bool :=
  let src := spanLoc x.src (dblAt x.words 1) z.o
  !src.isHost && (Rule.xAsked x z).2 && !Rule.lost (fun _ => false) src && (match readPieces (Rule.xAsked x z).1.mem 0 [(src, 1)] with | .val y => y == v | _ => false)

/-- TransducerEvents. -/
theorem witness_transducer_events :
    (let s := xOwned (xev id)
     laneQueue s 0 = [xreq0] ∧ xreq0.running = false ∧ 0 ∉ s.pkg.deadLanes ∧ settled s xreq0.after = true ∧
      (let here (l : List (Int × Int)) := l.filter fun p => !s.pkg.deadPeers.contains p.1
       let dst := here (spanLines xreq0.dst (dblAt xreq0.words 4) (wordAt xreq0.words 6).toNat)
       let read := here (spanLines xreq0.src (dblAt xreq0.words 1) (wordAt xreq0.words 3).toNat)
       let src := (nodups (read ++ read.flatMap (headOf s))).filter fun p => !dst.contains p
       let others := (nodups (dst.flatMap fun p => (tripleLines s p.1 p.2).map fun l => (p.1, l))).filter fun p => !dst.contains p
       (∀ p ∈ src ++ dst, remoteHeld s p.1 = false) ∧ (∀ p ∈ src, engineOwned s p.1 p.2 = false ∧ clear s p.1 p.2 false none = true) ∧
       (∀ p ∈ dst, (s.home.owned.find? fun o => o.pkg == p.1 && o.line == p.2).any (fun o => o.owner == .xducer xreq0.id) = true ∧ clear s p.1 p.2 true none = true) ∧
       allClear s others = true ∧ src ≠ [] ∧ dst ≠ []) ∧ wordAt xreq0.words 8 = -1) ∧
    (let z : XRun := ⟨xev id, 0, 0, 0, none⟩
     xNow z 0 xreq0 = true ∧ slotOne.classOf 0 = some 0 ∧ slotOne.next z.st 0 = some ([5], 0)) ∧
    (let z : XRun := ⟨xev id, 0, 0, 0, none⟩
     let tb : TableSlot := ⟨0, .loaded, 0, 1, 1, 0, [], []⟩
     xNow z 0 xreq0 = true ∧ tb.classOf 0 = some 0 ∧ tb.next 0 0 = none) ∧
    (let z : XRun := ⟨poison586 (xev id), 0, 0, 0, none⟩
     (spanLoc xreq0.src (dblAt xreq0.words 1) z.o).isHost = false ∧ hostHears z.s [spanLoc xreq0.src (dblAt xreq0.words 1) z.o] = (true, z.s) ∧ readPieces (Rule.xAsked xreq0 z).1.mem 0 [(spanLoc xreq0.src (dblAt xreq0.words 1) z.o, 1)] = .bad 0) ∧
    (let s := xev fun x => { x with running := true }
     laneQueue s 0 = [{ xreq0 with running := true }] ∧ (s.gang? 2).isSome = true ∧ ((s.gang? 2).map fun g => g.killed) = some false) := by
  refine ⟨?_, ?_, ?_, ?_, ?_⟩ <;> decide +kernel

/-- TransducerEvents: a table load that completes. -/
def loadSt : State := heldAt [586] (memAt 47466 [1, 1, 0] (ev fun s => { s.modWarp 3 fun w => { w with pends := [⟨9, .xtab 0 47466 4 img true, placePc⟩] } with
  xd := ⟨[⟨0, .loading, 0, 0, 0, 0, [], []⟩], []⟩ }))
theorem witness_table_load : xtabOf loadSt 0 = some (3, 9, 47466, 4, img) ∧
    (let own := spanLines img 47466 (imageTrytes (headerStates (readImage loadSt img 47466 0 1) (.dom 0 47466))).toNat
     ∀ p ∈ ((0, 586) :: headOf loadSt (0, 586)) ++ own ++ own.flatMap (headOf loadSt), Rule.readableNow loadSt p) ∧
    (pageStarts 47466 (imageTrytes (headerStates (readImage loadSt img 47466 0 1) (.dom 0 47466)))).length ≤ img.length ∧
    loadTable loadSt.mem (tableSlot loadSt 0) img 47466 = .ok ⟨0, .loaded, 0, 1, 1, 0, ssets [] 0 (List.replicate 19683 0), ssets [] 0 (List.replicate 162 0)⟩ := by
  refine ⟨by decide +kernel, by unfold Rule.readableNow; decide +kernel, by decide +kernel, ?_⟩
  have hm : loadSt.mem = imgMem := by decide +kernel
  have ht : tableSlot loadSt 0 = ⟨0, .loading, 0, 0, 0, 0, [], []⟩ := by decide +kernel
  rw [hm, ht]; exact img_loads

/-- A launch whose next gang may be placed: one warp, its paddock with pair 0. -/
def launch0 (words : List Int) (n ends : Nat) (f : Launch → Launch := id) : Launch :=
  f ⟨1, 0, 0, 0, words, none, 0, n, ends, [], [], [], true, none, false, false, true, none, [], []⟩
/-- Between words, with launch 1 as given and no warp or gang. -/
def empty1 (words : List Int) (n ends : Nat) (f : Launch → Launch := id) : State :=
  ev fun s => { s with warps := [], gangs := [], launches := [launch0 words n ends f] }

/-- WarpsGangsAndLaunchesLive. -/
theorem witness_lives :
    (let s := ev fun s => s.modWarp 3 fun w => { w with pends := [⟨9, .role 81 (-4) placePc, placePc⟩] }
     s.warp? 3 = some (warpOf s) ∧ (warpOf s).bay? = some (0, 0) ∧ rolesIn s (0, 0) = [(9, 3, 81, -4, placePc)] ∧ bayUsed s 0 0 + 81 ≤ 243 + (warpOf s).allot) ∧
    (warpOf base).lanes.length = 27 ∧
    (let s := ev fun s => s.modWarp 3 fun w => w.allLanes fun _ x => { x with live := false }
     s.warp? 3 = some (warpOf s) ∧ (warpOf s).handler = false ∧ (warpOf s).place ≠ .saved ∧ (∀ l, l < 27 → ((warpOf s).lane l).live = false) ∧
       performed s 3 = true ∧ loadsOut s 3 = false ∧ (warpOf s).taskfs = []) ∧
    (let s := ev fun s => { s with warps := [] }
     s.gang? 2 = some gang0 ∧ (∀ w ∈ s.warps, w.gid ≠ some 2) ∧ gang0.killed = false ∧ gang0.tasks = [] ∧ (∀ o ∈ gang0.wins, o = none) ∧ gangBinds s 2 = [] ∧ gangBusy s 2 = false) ∧
    (let s := empty1 placeRecord 1 1
     s.launch? 1 = some (launch0 placeRecord 1 1) ∧ launchDone s (launch0 placeRecord 1 1) = true) ∧
    (let s := empty1 placeRecord 0 0
     s.pkg.st = 1 ∧ (s.paddock 0).pausing = false ∧ pairMove s = none ∧ (nextGang s 0 == some ((launch0 placeRecord 0 0, (0, 0, 0), none), [0])) = true ∧
       placingOk s (recNeeds placeRecord) [0] [(0, 15, 8)] = true) ∧
    (let s := ev fun s => s.modGang 2 fun g => { g with held := true, start := 0 }
     ((s.gang? 2).map fun g => (g.held, decide (g.start ≤ s.now))) = some (true, true)) ∧
    (let s := (empty1 (placeRecord.set 11 6561) 0 0 fun x => { x with headSince := some (-2187000) })
     (s.paddock 0).starved = false ∧ (starving s 0).isSome = true) ∧
    (let x := launch0 (placeRecord.set 17 1) 1 0
     let s := ev fun s => ({ s with launches := [x] } : State).modPkg fun p => { p with gtime := 1 }
     s.launch? 1 = some x ∧ recDeadline x.words ≠ 0 ∧ recDeadline x.words ≤ s.now ∧ x.missed = false ∧ launchDone s x = false ∧ recRaise x.words = false) ∧
    (let x := launch0 ((placeRecord.set 17 1).set 16 (pow3 25 + pow3 24)) 1 0
     let s := ev fun s => ({ s with launches := [x] } : State).modPkg fun p => { p with gtime := 1 }
     s.launch? 1 = some x ∧ recDeadline x.words ≠ 0 ∧ recDeadline x.words ≤ s.now ∧ x.missed = false ∧ launchDone s x = false ∧ recRaise x.words = true) := by
  refine ⟨?_, ?_, ?_, ?_, ?_, ?_, ?_, ?_, ?_, ?_⟩ <;> decide +kernel

/-- ContextsAndSavedWarps: each of its eleven clauses. -/
theorem witness_contexts :
    (let s := ev fun s => ({ s with ctxs := [⟨0, 81, (List.replicate 27 0).set 17 1, 0, none, false, false⟩, ⟨5, 162, List.replicate 27 0, 0, none, false, false⟩] } : State).modPaddock
        0 fun d => { d with sliceStart := -1 }
     (s.paddock 0).running = some 0 ∧ (s.paddock 0).pausing = false ∧ 2 ≤ runnables s 0 ∧ (s.paddock 0).sliceStart + sliceOf s 0 ≤ s.now ∧
       (∀ g ∈ s.gangs, g.ctx = 0 → g.held = false)) ∧
    (let c : Context := ⟨5, 162, List.replicate 27 0, 0, none, false, false⟩
     let s := ev fun s => ({ s with ctxs := [c] } : State).modPaddock 0 fun d => { d with running := none }
     nextContext s 0 = some c ∧ (s.paddock 0).running = none ∧ chansUsed (switchIn s 0 c) ≤ 72 ∧ 0 ∉ s.pkg.deadSeqs ∧ c.seqWid = none ∧ ∀ w ∈ s.warps, w.wid ≠ s.nextId) ∧
    (let c : Context := ⟨0, 162, List.replicate 27 0, 0, some 3, true, false⟩
     let s := ev fun s => { s.modWarp 3 fun w => { w with place := .saved } with ctxs := [c] }
     s.context? 0 = some c ∧ c.seqWid = some 3 ∧ s.warp? 3 = some (warpOf s) ∧ c.woken = true ∧ (warpOf s).place = .saved) ∧
    (let p : Preempt := ⟨0, 0, [3], 5⟩
     let s := ev fun s => { s with preempts := [p] }
     s.preempts = [p] ∧ p.paddock = 0 ∧ p.at_ ≤ s.now) ∧
    (let s := ev fun s => s.modWarp 3 fun w => { w with deadline := some 0 }
     s.warp? 3 = some (warpOf s) ∧ (warpOf s).deadline = some 0 ∧ (0 : Int) ≤ s.now ∧ (warpOf s).place ≠ .saved ∧ savable s (warpOf s) = true) ∧
    (let s := ev id
     s.warp? 3 = some (warpOf s) ∧ (warpOf s).gid = some 2 ∧ (∀ p ∈ (warpOf s).pends, p.op.atWord = false) ∧
       (∀ l, l < 27 → ((warpOf s).lane l).hwait = none ∧ ((warpOf s).lane l).wait = none) ∧ (warpOf s).lanes.length = 27) ∧
    (let s := ev fun s => (s.modWarp 3 fun w => { w with place := .saved }).modGang 2 fun g => { g with saved := true }
     s.gang? 2 = some (g2 s) ∧ (g2 s).saved = true ∧ s.pkg.st = 1 ∧ ctxRuns s (g2 s) = true ∧ (gangWarps s 2).any Warp.debugging = false ∧
       (restoreCores s (g2 s)).find? (fun cs => restoreOk s cs (gangWarps s 2) [(1, 15, 8)]) = some [1] ∧ ∀ n ∈ [1], (s.core n).symbols = []) ∧
    (let s := ev fun s => s.modWarp 3 fun w => { w with watchTraps := [[(26, 5, 0)]] }
     s.warp? 3 = some (warpOf s) ∧ (warpOf s).handler = false ∧
       (warpOf s).watchTraps.find? (fun t => t.all fun p => ((warpOf s).lane p.1).halted.isNone) = some [(26, 5, 0)] ∧ freeToIssue s (warpOf s) = true ∧
       issuedNow s (warpOf s) = false) ∧
    ([some (⟨2, 0, 0⟩ : Halt), none].all fun h =>
      let s := ev fun s => s.modLaunch 1 fun x => { x with signals := [⟨0, h, none⟩] }
      decide ((s.launch? 1).map (fun x => x.signals) = some [⟨0, h, none⟩] ∧ (0 : Int) ≤ s.now ∧
        ∀ w ∈ s.warps, ofLaunch s 1 w = true → stepped s w.wid = false)) = true := by
  refine ⟨?_, ?_, ?_, ?_, ?_, ?_, ?_, ?_, ?_⟩ <;> decide +kernel

/-- A machine with nothing placed, and one whose links, cores and lanes stand. -/
def bare : State := State.reset
def cut (l : LinkId) : State := bare.modPkg fun p => { p with deadLinks := p.deadLinks ++ [l] }

/-- A core whose vertical links stand is not isolated by the loss of horizontal ones. -/
theorem not_isolated (s : State) (h : ∀ l ∈ s.pkg.deadLinks, l.dir ≠ 3) (c : Nat) : isolated s c = false := by
  have hv (k : Int) : (upto 4).all (fun i => match linkOf k c (i + 1) with | some l => s.pkg.deadLinks.contains l | none => true) = false := by
    rw [List.all_eq_false]
    by_cases hy : c / 8 % 8 = 7
    · refine ⟨0, by decide, ?_⟩
      have : linkOf k c 1 = some ⟨k, ((c - 8 : Nat) : Int), 3⟩ := by simp [linkOf, neighbour, hy, facing]
      simp only [Nat.zero_add, this]
      exact fun hm => h _ (by simpa using hm) rfl
    · refine ⟨2, by decide, ?_⟩
      have : linkOf k c 3 = some ⟨k, (c : Int), 3⟩ := by simp [linkOf, neighbour, hy]
      simp only [this]
      exact fun hm => h _ (by simpa using hm) rfl
  exact congrArg₂ (fun a b => a || (b || false)) (hv 1) (hv 2)

/-- No C-die is cut off by the loss of a link between C-dies. -/
theorem die_not_isolated (s : State) (h : ∀ l ∈ s.pkg.deadLinks, l.place < 12) (d : Nat) : dieIsolated s d = false := by
  unfold dieIsolated
  rw [List.all_eq_false]
  refine ⟨12 + Config.ucieHub (2 * d) % 4, by simp [diePeers, dieHubs], ?_⟩
  intro hm
  have := h _ (by simpa using hm)
  simp only [dieLink] at this
  omega

/-- Links that stand, and whose loss cuts nothing off: between C-dies 0 and 1, and between cores 0 and 1. -/
theorem plain_links : (Rule.stands (ev id) ⟨-1, 1, 0⟩ ∧ Rule.plainLink (ev id) ⟨-1, 1, 0⟩) ∧ Rule.stands (ev id) ⟨2, 0, 2⟩ ∧ Rule.plainLink (ev id) ⟨2, 0, 2⟩ := by
  refine ⟨⟨⟨by decide +kernel, by decide +kernel⟩, ?_⟩, ⟨by decide +kernel, by decide +kernel⟩, ?_⟩
  · exact fun d _ => die_not_isolated _ (by decide +kernel) d
  · exact fun c => not_isolated _ (by decide +kernel) c

/-- UnitsFailAndAreFenced. -/
theorem witness_units_fail :
    (let s := ev id
     s.coreLive 0 = true ∧ s.gang? 2 = some gang0 ∧ 0 ∈ gang0.cores ∧ gang0.saved = false ∧ gang0.killed = false) ∧
    (let s := ev id
     s.coreLive 767 = true ∧ (∀ g ∈ s.gangs, 767 ∉ g.cores) ∧ (∀ w ∈ s.warps, w.pends = []) ∧ s.pkg.dwin = []) ∧
    (let s := ev id
     26 ∉ (s.core 767).banks ∧ (s.core 767).banks.length < 2) ∧
    (let s := ev fun s => s.modCore 767 fun c => { c with banks := [0, 1] }
     26 ∉ (s.core 767).banks ∧ 2 ≤ (s.core 767).banks.length) ∧
    (let u : Watch := ⟨26, watchRec, 1, 3, some 2, some 1, 0, 0⟩
     ((ev fun s => s.modCore 0 fun c => { c with watch := [u] }).core 0).watch.find? (fun u => u.unit == 26) = some u) ∧
    (let s := ev fun s => s.modContext 0 fun c => { c with seqWid := some 3 }
     s.now % 19683 = 0 ∧ seqZero (fenceLink s ⟨2, 0, 2⟩) = some 3 ∧ linkOk ⟨2, 0, 2⟩ = true ∧ (⟨2, 0, 2⟩ : LinkId) ∉ s.pkg.deadLinks) ∧
    (let s := ev held
     255 ∉ s.pkg.deadSlices ∧ copiesAt s (fun p => p.1 == s.pkg.number && homeSlice s p.2 == 255) = [] ∧
       (∀ r ∈ s.reqs, ((r.pkg, r.line).1 == s.pkg.number && homeSlice s r.line == 255) = false)) ∧
    (4 * 255 + 3 ∉ (ev id).pkg.deadPcs ∧ (ev id).reqs = [] ∧ (ev id).pkg.deadPcs = []) ∧
    (let s := xev id
     63 ∉ s.pkg.deadLanes ∧ 0 ∉ s.pkg.deadLanes ∧ laneQueue s 0 = [xreq0]) ∧
    (0 ∉ (ev id).pkg.deadDies ∧ 3 ∉ (ev id).pkg.deadDies) ∧ (∃ c, (ev id).ctxs = [c]) := by
  refine ⟨?_, ?_, ?_, ?_, ?_, ?_, ?_, ?_, ?_, ?_, ⟨_, rfl⟩⟩ <;> decide +kernel

/-- ResetsAndPower: images that pass and images that do not, a warm reset, grants at their bounds, a grant that is due. -/
theorem witness_resets_power :
    (∀ i, i < 5 → (bootImage (List.replicate 5 ⟨true, true, 0, false⟩) i).signed = true ∧ (bootImage (List.replicate 5 ⟨true, true, 0, false⟩) i).keyMatches = true ∧
      (0 : Int) ≤ ((bootImage (List.replicate 5 ⟨true, true, 0, false⟩) i).version : Int)) ∧
    bootFails 0 (List.replicate 5 ⟨true, true, 0, false⟩) = none ∧ bootFails 0 [] ≠ none ∧ (∀ h ∈ (ev id).home.held, h.dirty = false) ∧ (ev id).reqs = [] ∧
    ((ev id).now % 72900 = 0 ∧ granting (ev id) = false ∧ (27 :: List.replicate 15 729).length = 16 ∧
      ∀ d, d < 16 → grantOk (ev id) d ((27 :: List.replicate 15 729).getD d 0) = true) ∧
    (let s := ev fun s => s.modPkg fun p => { p with grants := [⟨grantWord 15 27, 0⟩] }
     s.pkg.grants = [⟨grantWord 15 27, 0⟩] ∧ (⟨grantWord 15 27, 0⟩ : Grant).die = 15 ∧ (0 : Int) ≤ s.now) ∧
    (∀ l : Nat, l ∈ [5] → l < Config.memoryLines) ∧ (let s := ev fun s => s.modPaddock 0 fun d => { d with nextSeq := 7 }
      (s.paddock 0).nextSeq ≠ 0) := by refine ⟨?_, ?_, ?_, ?_, ?_, ?_, ?_, ?_, ?_⟩ <;> decide +kernel

/-- PeersAndTimeouts: requests to packages −364 and 364. -/
theorem witness_peers :
    (let r : Req := ⟨7, 0, 0, 3, 364, 586, .store [], none, 0, -2700000, []⟩
     let s := ev fun s => { s with reqs := [r] }
     s.req? 7 = some r ∧ r.pkg ≠ s.pkg.number ∧ -364 ≤ r.pkg ∧ r.pkg ≤ 364 ∧ 2700000 ≤ s.now - r.sent ∧ r.pkg ∉ s.pkg.deadPeers ∧ s.pkg.rerouting = false) ∧
    (let r : Req := ⟨7, 0, 0, 3, -364, 586, .read 8 [0], none, 0, -2700000, []⟩
     let s := ev fun s => { withOp .waiting s with reqs := [r] }
     s.req? 7 = some r ∧ r.pkg ≠ s.pkg.number ∧ 2700000 ≤ s.now - r.sent ∧ s.pkg.rerouting = false ∧ s.op? 8 = some (op0 .waiting) ∧ (op0 .waiting).lanes[0]?.map (fun x => x.got) = some .waiting) ∧
    (-364 ≠ (ev id).pkg.number ∧ -364 ∉ (ev id).pkg.deadPeers ∧ 31 ∉ (ev id).pkg.scaleDown ∧ (ev id).pkg.scaleDown.length < 31 ∧
      ¬ ((ev id).modPkg fun p => { p with scaleDown := upto 31 }).pkg.scaleDown.length < 31 ∧ (ev id).pkg.st = 1 ∧ State.reset.pkg.st = 0) ∧
    (let s := ev fun s => s.modWarp 3 fun w => { w with fence := some ⟨3, 0, [], true⟩ }
     s.warp? 3 = some (warpOf s) ∧ ((warpOf s).fence.map fun f => f.host) = some true) := by decide +kernel

/-- The translation of page 2 for sequencer 0. -/
def seqPage (s : State) : State := s.modCore 768 fun c => { c with tlb := (s.core 0).tlb }

/-- The fields of a command, at the bounds of their ranges. -/
theorem witness_commands :
    (let s := ev id
     (s.paddock 0).running = some 0 ∧ ((ctxOfDesc s 81).map fun c => c.ctx) = some 0 ∧ invalAwaits s 0 1 (-(maxv 54)) 1 = [] ∧ invalAwaits s 0 (-1) (maxv 54) 1 = [] ∧
       invalAwaits (storing s) 0 1 2 1 ≠ [] ∧
       (81 : Int) ≤ maxv 54) ∧
    (let s := ev seqPage
     let p := checkAddr s 768 0 true Need.rmw true 47466
     let q := checkAddr p.1 768 0 true Need.rmw true 47466
     (match p.2, q.2 with | .ok (.dom 0 47466), .ok (.dom 0 47466) => true | _, _ => false) = true) ∧
    (let s := ev fun s => { s with chans := [{ Channel.grant 30 (some 1) 0 2 with name := 0 }], launches := s.launches.map fun x => { x with chans := [30], descs := [2] } }
     ((launchOfSeq s 0 0).map fun x => x.chans) = some [30]) ∧
    (let s := ev fun s => heldAt [586] (seqPage (memAt 47466 ((List.replicate 27 0).set 9 729) s))
     (match readDesc s 768 0 47466 with | (s1, some d) => (d.length == 27) && (match readDesc s1 768 0 47466 with | (_, some e) => e == d && descOk 26 d | _ => false) | _ => false) = true) ∧
    (((ev id).ctxs.find? fun c => c.paddock == 26 && c.desc == 81) = none ∧ (26 : Nat) ≠ 0 ∧ ∀ e ∈ (ev id).journal, e.paddock ≠ 26) ∧
    (limitsOk (ev id) 26 384 = true ∧ limitsOk (ev id) 0 0 = true) ∧
    (let s := ev fun s => { s with launches := [], warps := [], gangs := [] }
     ((s.ctxs.find? fun c => (c.paddock : Int) == ((0 : Nat) : Int) && c.desc == 81).map fun c => c.ctx) = some 0 ∧ ∀ x ∈ s.launches, x.ctx ≠ 0) := by
  refine ⟨?_, ?_, ?_, ?_, ?_, ?_, ?_⟩ <;> decide +kernel

/-- The descriptor of log entry 5, sound for paddock 0. -/
def soundDesc : List Int := (List.replicate 27 0).set 9 729

/-- MailboxAndDebugWindow: package numbers −364 and 364, the first and last frames, a descriptor and a report at the ends of memory. -/
theorem witness_mailbox :
    ((wordAt State.reset.pkg.mailbox 26 ≠ 1 ∧ State.reset.pkg.st = 0 ∧ State.reset.pkg.detail ≠ 20 ∧ State.reset.pkg.numbered = false) ∧ wordAt (ev id).pkg.mailbox 26 ≠ 1 ∧ (ev id).pkg.st = 1 ∧ (ev id).pkg.st ≠ 0) ∧
    (let s := (heldAt [1] (memAt 81 soundDesc State.reset)).modPkg fun p => { p with numbered := true }
     let s1 := Rule.staged s [2, 0, 0, lowWord 81, highWord 81]
     wordAt s.pkg.mailbox 26 ≠ 1 ∧ s.pkg.st = 0 ∧ s.pkg.numbered = true ∧ s.pkg.detail ≠ 20 ∧ (match localDesc s1 81 with | some d => d == soundDesc && descOk 0 d | none => false) = true) ∧
    (State.reset.ctxs = [] ∧ State.reset.journal = [] ∧ State.reset.warps = [] ∧ 0 ∉ State.reset.pkg.deadSeqs) ∧
    ((ctxOfDesc (ev id) 81).isSome = true ∧ canonicalAddr 0 = true ∧ (0 : Int) % 81 = 0) ∧
    (243 * (0 : Int) + 242 < (ev id).pkg.boundary ∧ 243 * (35349524 : Int) + 242 < (ev id).pkg.boundary ∧ (35349524 : Int) ≤ maxv 54) ∧
    ((81 : Int) % 81 = 0 ∧ (81 : Int) / 81 + 7 < (ev id).pkg.boundary) ∧
    inR (364 : Int) (-364) 364 = true := by
  refine ⟨?_, ?_, ?_, ?_, ?_, ?_, ?_⟩ <;> decide +kernel

/-- The debug window of a machine that has it. -/
def dbgSt (f : Package → Package := id) : State := ev fun s => s.modPkg fun p => f { p with debug := 1 }
theorem witness_debug_window :
    ((dbgSt).pkg.debug = 1 ∧ wordAt (dbgSt).pkg.window 8 ≠ 1 ∧ (dbgSt).pkg.st ≠ -1 ∧ (dbgSt).pkg.window.length = 27) ∧
    Rule.WindowOp (.debugHrdv 0 508) 11 0 0 0 0 0 0 ((508 : Nat) : Int) (.hrdv 508) ∧ Rule.WindowOp (.debugHrdp 0 (-1) ((9841 : Nat) : Int)) 13 (-9) 0 0 0 0 0 ((9841 : Nat) : Int) (.hrdp (.link 9841)) ∧
    (let p : Pend := ⟨9, .dbg .hlst 0 0 0, 0⟩
     let s := dbgSt fun k => { k with dwin := [p] }
     s.pkg.dwin = [p] ∧ p.n = 9 ∧ s.pkg.window.length = 27 ∧
       (match dbgTry s 9 none .hlst 0 0 with | .done s1 ws => decide (s1.pkg = s.pkg) && decide (ws.length ≤ 6) | _ => false) = true) :=
  ⟨by decide +kernel, .hrdv 0 508 (by decide), .hrdpLink 0 9841 (by decide) (by decide), by decide +kernel⟩

/-- A VF bound to the context of log entry 5, its aperture from page 3 on. -/
def vfSt (s : State) : State := (tabled s).modPkg fun p => { p with vfs := [⟨27, 81, 59049⟩] }
/-- HostAccessesLand: through the physical function and through VF 27. -/
theorem witness_host_accesses :
    ([(none, 48600, 3 * 48600), (some 27, 0, 0)].all fun (q : HostFn × Nat × Int) =>
      let s := ev fun s => heldAt [36, 126, 226, 1800, 129140892] (vfSt s)
      let r := hostPlace s q.1 Need.rmw (3 * ((8 * q.2.1 / 8 : Nat) : Int))
      barsUp s && (8 * q.2.1) % 8 == 0 && (match r.2 with
        | .at_ (.dom p a) => !hostBusy r.1 (.dom p a) && !isWake r.1 (.dom p a) && !r.1.mem.bad p (a / 81) &&
            (match (recallNow r.1 p (a / 81) true).mem.lineAt (.dom p a) with | .data _ _ => true | _ => false) && !(Loc.dom p a).isTime
        | _ => false)) = true ∧
    (barsUp (ev fun s => s.modPkg fun p => { p with st := -1 }) = false ∧ (7 : Nat) % 8 ≠ 0 ∧ maxv 27 < maxv 27 + 1) ∧
    (let s := ev fun s => heldAt [36, 126, 226, 129140892] ((tabled s).modContext 0 fun c => { c with words := c.words.set 21 59049 })
     let a : Int := 10460412252
     let s2 := s.modMem fun m => m.write 0 a 3 7
     hostPlace s2 none Need.rmw a = (s2, .at_ (.dom 0 a)) ∧ a % 3 = 0 ∧ hostBusy s2 (.dom 0 a) = false ∧ isWake s2 (.dom 0 a) = true ∧
       (tbArrive (takeNow s2 0 (a / 81)) (.glob 0 a)).isSome = true) ∧
    ([false, true].all fun raw => let s := ev (heldAt [2, 3, 4, 5])
      barsUp s && (match (hostReadAll s none raw (byLine (if raw then 81 else 150) 400 8)).2 with | some (.ok _) => true | _ => false) &&
        (hostWriteAll s none raw (byLine (if raw then 81 else 150) 400 2) [242#8, 255#8]).isSome) = true ∧
    ((586 : Nat) < Config.memoryLines ∧ (let s := ev fun s => { held s with gangs := [] }
      hostBusy s (.dom s.pkg.number (81 * (586 : Int))) = false ∧ s.gangs = [] ∧ (recallNow s s.pkg.number 586 false).mem.bad s.pkg.number 586 = false)) := by
  refine ⟨?_, ?_, ?_, ?_, ?_⟩ <;> decide +kernel

/-- TrapEntryAndReturn: a first trap, a second one, an illegal word, an ARITH on overflow. -/
def ovfAdd : I2 := ⟨hv, .w, 0, 1, .v 1, .v 2, .src (.v 2)⟩
theorem witness_traps :
    (base.warp? 3 = some (warpOf base) ∧ (warpOf base).handler = false ∧ (warpOf base).lanes.length = 27) ∧
    (let s := st fun w => { w with handler := true }
     s.warp? 3 = some (warpOf s) ∧ (warpOf s).handler = true) ∧
    ((encode (.abs ⟨hv, .w, 0, 0, .v 26, .v 27⟩)).isSome = true ∧ (st).cur = some cur0 ∧ (st).warp? cur0.wid = some (warpOf st) ∧ cur0.hstep = none ∧
      legal (.abs ⟨hv, .w, 0, 0, .v 26, .v 27⟩) (warpOf st) cur0.lanes = false) ∧
    (let s := st fun w => { w with v := [(2, maxv 27)] }
     ready (.add ovfAdd) s = true ∧ (warpOf s).handler = false ∧ (s.core (warpOf s).coreNo).watch = [] ∧ ovfAdd.hd.form = .vector ∧
       0 ∈ activeOf (.add ovfAdd) (warpOf s) (upto 27) ∧ (warpOf s).src 0 false (.v 2) = maxv 27 ∧
       arithTraps 1 (fitF ((warpOf s).src 0 false (.v 2) + Rule.operandB (warpOf s) 0 .w (.src (.v 2))) 27 0).2 = true) := by
  refine ⟨?_, ?_, ?_, ?_⟩ <;> decide +kernel

/-- The machine of log entry 5 about to issue a word: its turn, and the rest of the agenda. -/
def placed (v : Int) : State := placeWord State.reset v
def rest (v : Int) : State := { placed v with agenda := [] }
/-- StepRunsTheDecodedWord: a NOP, an undecodable word, an event that can be done (a core fence) and one that cannot be done in this
step (a time exchange while an engine owns line 0), and a machine that has nothing to do but to tick. -/
theorem witness_steps :
    ([(word (vf 1 9 []), true), (0, false)].all fun (q : Int × Bool) =>
      let s := placed q.1
      let s0 := rest q.1
      decide (s.agenda = [.issue 3 0]) && (match s.warp? 3 with
        | some w => freeToIssue s0 w && !issuedNow s0 w && (trapInPlace s0 w).isNone && wordFor s0 w w.issuePc == some q.1 && wordReady s0 w q.1 &&
            decide ((s.core w.coreNo).watch = [] ∧ w.taskfs = []) && (decode? q.1).isSome == q.2
        | none => false)) = true ∧
    ({ State.reset with agenda := [.event (.coreFence 5)] } : State).agenda = [.event (.coreFence 5)] ∧ isBarred (exec (.coreFence 5) State.reset) = false ∧
    (let s := heldAt [0] { State.reset with pkg := { State.reset.pkg with st := 1 }, agenda := [.event (.ptmExchange 0 0 0)] }
     let t : State := { s with home := { s.home with owned := [⟨0, 0, .xducer 9⟩] } }
     isBarred (exec (.ptmExchange 0 0 0) { s with agenda := [] }) = false ∧ isBarred (exec (.ptmExchange 0 0 0) { t with agenda := [] }) = true) ∧
    (let s := { State.reset with pkg := { State.reset.pkg with gtime := 1 } }
     s.agenda = [] ∧ defaultMove s = .turn .tick) := by
  refine ⟨?_, rfl, ?_, ?_, rfl, ?_⟩ <;> decide +kernel

/-- DecodeAndEncodeAgree, EveryStepKeepsTheMemories, EveryStepKeepsRegistersInRange, EveryStepLeavesTheMachineSettled: a decodable word, a step from reset, and one
of a machine with registers, latches, a scratchpad and memory. -/
def kept : State := (placeWord State.reset (word (vf (-4) 1 [(37, 9 - 40), (32, 1 - 40), (27, 2 - 40)]))).modWarp 3 fun w =>
  { (w.setV 0 1 (maxv 27)).setG 4 (-maxv 27) with lanes := w.lanes.map fun x => x.latch ⟨maxv 54, true⟩ }
theorem witness_decode_and_step : (decode? (word (vf 1 9 []))).isSome = true ∧ State.reset.settled = true ∧
    (match step { State.reset with agenda := [.event (.coreFence 5)] } with | .next t => t.settled | _ => false) = true ∧
    kept.memoriesOk = true ∧ kept.regsOk = true ∧ (kept.warps.headD (newWarp 3 none 0 0 .saved 0 0 9 0 [])).v ≠ [] ∧ kept.mem.data ≠ [] ∧
    (match step kept with | .next t => t.memoriesOk && t.regsOk && t.settled | _ => false) = true := by decide +kernel

/-! ### One step, or two, of a placed word -/

/-- The machine after the step of one placed word, with registers of warp 3 set before it. -/
def ran (f : List (Nat × Int)) (fw : Warp → Warp := id) : Option State :=
  match step ((placed (word f)).modWarp 3 fw) with | .next t => some t | _ => none
def lane0 (f : Lane → Int) (t : Option State) : Option Int := t.bind fun t => (t.warp? 3).map fun w => f (w.lane 0)
def v0 (n : Nat) (t : Option State) : Option Int := t.bind fun t => (t.warp? 3).map fun w => w.vreg 0 n
/-- Warp 3 with V1 and V2 of lane 0 at given words. -/
def with12 (a b : Int) (w : Warp) : Warp := { w with v := ssets w.v 1 [a, b] }

/-- R38, R39, R344: a sum beyond the range keeps its low trits; with saturation it is the nearest bound. -/
theorem test_add_wraps : v0 9 (ran (vf (-4) 1 [(37, 9 - 40), (32, 1 - 40), (27, 2 - 40)]) (with12 3812798742493 1)) = some (-3812798742493) := by decide +kernel
theorem test_add_saturates : v0 9 (ran (vf (-4) 1 [(20, 1), (37, 9 - 40), (32, 1 - 40), (27, 2 - 40)]) (with12 3812798742493 1)) = some 3812798742493 := by decide +kernel
/-- R365, R366: the quotient nearest 7/4 is 2; R400: the remainder is −1, and MULH of 3^13 by 3^15 is 3. -/
theorem test_div_nearest : v0 9 (ran (vf (-4) 8 [(37, 9 - 40), (32, 1 - 40), (27, 2 - 40)]) (with12 7 4)) = some 2 := by decide +kernel
theorem test_mod : v0 9 (ran (vf (-4) 10 [(37, 9 - 40), (32, 1 - 40), (27, 2 - 40)]) (with12 7 4)) = some (-1) := by decide +kernel
theorem test_mulh : v0 9 (ran (vf (-4) 6 [(37, 9 - 40), (32, 1 - 40), (27, 2 - 40)]) (with12 1594323 14348907)) = some 3 := by decide +kernel
/-- R49, R442: the TF27 words of +1 and +3^22; −3^22 keeps the exponent 22 (log entry 16); their product with +1. -/
theorem test_fmul : v0 9 (ran (vf (-3) 3 [(37, 9 - 40), (32, 1 - 40), (27, 2 - 40)]) (with12 10460353203 700843664601)) = some 700843664601 := by decide +kernel
theorem test_fneg : v0 9 (ran (vf (-3) 7 [(37, 9 - 40), (32, 2 - 40)]) (with12 10460353203 700843664601)) = some 679922958195 := by decide +kernel
/-- R50, R371: a zero result is the canonical zero. -/
theorem test_fsub_zero : v0 9 (ran (vf (-3) 2 [(37, 9 - 40), (32, 2 - 40), (27, 2 - 40)]) (with12 10460353203 700843664601)) = some (-3797108212689) := by decide +kernel
/-- A step goes on at the next word; EXIT ends its lanes; TRAP enters handler mode with cause 16; an undecodable word traps ILLEGAL (R77, R110, R277, R280). -/
theorem test_nop_next : lane0 (fun x => x.pc) (ran (vf 1 9 [])) = some (placePc + 1) := by decide +kernel
theorem test_exit : lane0 (fun x => if x.live then 1 else 0) (ran (vf 1 8 [])) = some 0 := by decide +kernel
def cause3 (t : Option State) : Option (Bool × Int) := t.bind fun t => (t.warp? 3).map fun w => (w.handler, w.tCause)
theorem test_trap : cause3 (ran (vf 4 4 [(0, 5)])) = some (true, 16) := by decide +kernel
theorem test_illegal : cause3 (ran []) = some (true, 1) := by decide +kernel
/-- R75, its table: 27 active lanes cost 3 passes, 11 cost 2, 4 cost 1; NOP costs none (R406); a pipe is free again after the last pass. -/
theorem test_passes :
    (let w := warpOf (st fun w => w)
     passesOf (.add ovfAdd) w (upto 27) = [3] ∧ passesOf (.add ovfAdd) w (upto 11) = [2] ∧ passesOf (.add ovfAdd) w (upto 4) = [1] ∧
       passesOf (.nop hv) w (upto 27) = []) ∧
    ((ran (vf (-4) 1 [(37, 9 - 40), (32, 1 - 40), (27, 2 - 40)])).map fun t => (t.core 0).pipes) = some [(0, 3, 0)] := by
  refine ⟨?_, ?_⟩ <;> decide +kernel

/-! ### Objects and selectors -/

/-- The three selectors of the example of R321, by the token words of its table. -/
def sel0 : List Int := [564859072969, 282429536483, 847288609444]
def sel1 : List Int := [564859072965, 282430067922, 847288609444, 564859072966, 282429536497, 847288609444, 847288609446]
def sel2 : List Int := [564859072967, 282429536581, 847288609444]
/-- R321, its example: the trits for two carve-outs, and the variant chosen. -/
theorem test_selectors :
    ([(0 : Int), 729].map fun c => [sel0, sel1, sel2].map (selectorTrit ⟨768, c⟩)) =
      [[some (-1), some 0, some 1], [some (-1), some (-1), some 1]] ∧
    (chosen ⟨768, 0⟩ ⟨[], [⟨0, 0, 1, [], sel0⟩, ⟨0, 0, 1, [], sel1⟩, ⟨0, 0, 1, [], sel2⟩]⟩).map (fun x => x.1) = some 2 := by decide +kernel
/-- The 150 bytes of a PLAIN line with given first words (R43). -/
def lineBytes (ws : List Int) : List Nat :=
  ((split 5 146 (join 27 ws)).map tritsByte) ++ (split 5 4 0).map tritsByte
/-- R43: the all-zero PLAIN line has bytes of 0x79. R316, R317: an object of a header, a section table and a code section of two lines loads at
page 2; a header with another level is refused. -/
theorem test_objects :
    lineBytes [] = List.replicate 150 121 ∧
    (let f (lv : Int) : List Nat := lineBytes [2541865828329, lv, 1, 0, 1, 4] ++ lineBytes [1, 2, 2, 162] ++ lineBytes [5] ++ lineBytes []
     ((loadObject (f 1) ⟨768, 0⟩ [39366]).map fun o => o.sections.map fun x => (x.kind, x.base, x.words.take 2, x.tags)) = some [(1, 39366, [5, 0], [⟨0, 0⟩, ⟨0, 0⟩])] ∧
     ((loadObject (f 1) ⟨768, 0⟩ [39366]).map fun o => o.sections.map fun x => x.rights) = some [⟨true, false, true⟩] ∧ loadObject (f 2) ⟨768, 0⟩ [39366] = none ∧ loadObject (f 1) ⟨768, 0⟩ [19683] = none) := by
  refine ⟨?_, ?_, ?_, ?_, ?_⟩ <;> decide +kernel

/-! ### The assembler (R125 to R137, R441, R447) -/

/-- The lines of a source text. -/
def src (l : List String) : List (List Char) := l.map String.toList
/-- The words of .text that a file assembles to, from a word index on. -/
def asmText (l : List String) (k : Nat) : Option (List Int) := (assemble (src l)).map fun a =>
  ((a.sections.headD ⟨0, [], [], 0, []⟩).words.drop (2 * k)).take 2
/-- The trytes of a statement behind two words that open a chain, high to low. -/
def asmTrytes (s : String) : Option (List Int) :=
  (asmText [".text", ".kernel k", ".regs 81", "MOV V1, V2", "MOV V1, V2", s, ".end"] 2).map fun ws => (ws.flatMap (split 9 3)).reverse

/-- Worked statements of the spec: the trytes that its entries give (R5, R282, R370, R391, R407, R425; the example of the opcode map). -/
theorem test_asm_statements :
    ["(P2.+0) ADD.W V5, V12, X1", "FMA.F9 V3, V4, V5, V6", "LD.W.RC V6, [G4:G5 + V1*3], rc=5", "PACK.TI9P V7, V6", "trap 0t+--"].map asmTrytes =
      [some [-970, 7914, -6884, 0, 0, 0], some [-718, -6672, -8783, -2781, 0, 0], some [-241, -6662, -2226, 408, 6561, 0],
       some [26, -6660, -8262, 27, 0, 0], some [983, -6561, 0, 0, 0, 5]] := by decide +kernel
/-- The chain example of the chapter assembles; its three changed forms, and other rejected statements, do not (R106, R108, R137). -/
def chainDemo (third fourth regs : String) : List String :=
  [".text", ".kernel chaindemo", ".warps 1", regs, ".scratch 0", "        MUL.W   V3, V4, V5   ; pos 1", "        ADD.W   _, X1, V7", third,
   fourth, "        EXIT", ".end"]
theorem test_asm_chain :
    (asmText (chainDemo "ADD.W V8, X1 || SUB.W V10, X2" "ST.W [G4:G5 + V1*3], X1" ".regs 18") 0).isSome = true ∧
    asmText (chainDemo "ADD.W V8, X1 || SUB.W V10, X1" "ST.W [G4:G5 + V1*3], X1" ".regs 18") 0 = none ∧
    asmText (chainDemo "ADD.W V8, X1 || SUB.W V10, X2" "l: ST.W [G4:G5 + V1*3], X1" ".regs 18") 0 = none ∧
    asmText (chainDemo "ADD.W V8, X1 || SUB.W V10, X2" "ST.W [G4:G5 + V1*3], X1" ".regs 9") 0 = none ∧
    asmTrytes "RFT" = none ∧ asmTrytes "EXIT.GW" = none ∧ asmTrytes "ADD.W.W V1, V2, V3" = none ∧ asmTrytes "MOVI V1, 3812798742494" = none := by
  decide +kernel
/-- A symbol that the spec's debugger listing defines, in small letters; the trytes of two of that listing's words (R125, its worked example). -/
theorem test_asm_listing :
    (asmText [".text", ".kernel k", ".regs 9", "p1: HLST G14, G6", "CMP.W.GW Q1, G14, 0", "(Q1.-) BRA.GW p1", "EXIT", ".end"] 0).isSome = true ∧
    ["WSET G4, G10, G15, G12, 0", "HWRV G4, G24, G15, 6"].map asmTrytes = [some [3179, -6587, -646, 6480, 0, 0], some [3194, -6587, 2756, 0, 0, 6]] := by
  decide +kernel
/-- Labels, relocations, tags, a liveness record and variants (R132 to R136, R287, R319, R320, R441, R447). -/
def asmFile : List String :=
  [".data", ".line", "y: .word 1, z - y", "   .double y + 6, f", "z: .tag 2, 22", ".live r, live=V0-V2 V4, same=V3, g=G1, range=81,2", ".text",
   ".variant m, cmp(LEVEL, 2) & 3", ".kernel a", ".warps 4", ".regs 18", "f: BRA f2", "NOP", "f2: EXIT", ".end"]
theorem test_asm_file :
    (match assemble (src asmFile) with
      | none => false
      | some a => decide (
        a.sections.map (fun x => (x.kind, x.words.take (if x.kind = 1 then 2 else 7))) = [(1, [2, 94788879642]), (-1, [67, 0, 0, 3, 0, 81, 2]),
          (0, [1, 18, 0, 0, 0, 0, 0])] ∧
        a.sections.map (fun x => x.rels) = [[], [], [⟨6, 1, 2, 6⟩, ⟨12, 2, 0, 0⟩]] ∧
        a.kernels = [⟨['m'], [⟨0, 0, 3, [4, 18, 0, 0, 0, 0],
          [564859072969, 282429536483, 847288609444, 282429536484, 847288609446]⟩]⟩])) = true := by decide +kernel
/-- The object that the assembler writes is read back with its kernels and relocations (R316 to R319). -/
theorem test_asm_object :
    ((assemble (src asmFile)).bind fun a => (readObject (objectBytes a)).map fun o =>
      decide (o.relocs = a.sections.map (fun x => x.rels) ∧ o.kernels.flatMap (fun k => k.variants) = a.kernels.flatMap (fun k => k.variants) ∧
        o.sections.map (fun x => x.kind) = a.sections.map (fun x => x.kind))) = some true := by decide +kernel

end Sys2Proof.Tests
end

section
/-! ## Certificates: narrowing, discarding trits and dividing (R5, R7, R26, R30) -/

namespace Sys2Proof.Tern

/-! ### Canonical values and their trits -/

/-- The two spellings of "canonical in n trits": between the bounds, and by magnitude. -/
theorem canon_eq_natAbs_le (v : Int) (n : Nat) : canon v n = decide (v.natAbs ≤ (Nat.pow 3 n - 1) / 2) := by
  have hmax : maxv n = ((Nat.pow 3 n - 1) / 2 : Nat) := rfl
  unfold canon
  rw [decide_eq_decide, hmax]
  omega

/-- A canonical value is the sum of its n trits (R5). -/
theorem ofTrits_range_of_canon {v : Int} {n : Nat} (hlo : -maxv n ≤ v) (hhi : v ≤ maxv n) : ofTrits ((List.range n).map (trit v)) = v := by
  rw [← trits_eq, ofTrits_trits, narrow_of_canon hlo hhi]

/-- Above its n trits a canonical value has only trits 0. -/
theorem trit_eq_zero_of_canon {v : Int} {n i : Nat} (hlo : -maxv n ≤ v) (hhi : v ≤ maxv n) (hi : n ≤ i) : trit v i = 0 := by
  have hcases : ∀ t ∈ (List.range n).map (trit v), t = -1 ∨ t = 0 ∨ t = 1 := by
    intro t ht
    obtain ⟨j, -, rfl⟩ := List.mem_map.1 ht
    exact trit_cases v j
  have hread := trit_ofTrits _ i hcases
  rwa [ofTrits_range_of_canon hlo hhi, List.getD_eq_default _ _ (by simpa using hi)] at hread

/-! ### The discarded tail -/

/-- What the discard of k trits takes from a value is the narrowed value. -/
theorem sub_shr_eq_narrow (v : Int) (k : Nat) : v - pow3 k * shr v k = narrow v k := by
  have := shr_narrow v k
  omega

/-- A tail is at most (3^k - 1)/2 (R26). -/
theorem two_natAbs_narrow_lt (v : Int) (k : Nat) : 2 * (narrow v k).natAbs < Nat.pow 3 k := by
  have hlo := le_narrow v k
  have hhi := narrow_le v k
  have hpow : 2 * maxv k + 1 = (Nat.pow 3 k : Nat) := two_maxv k
  omega

/-- No multiple of 3^k is nearer to a value than the one that the discard leaves: where another is within (3^k - 1)/2, it is the same. -/
theorem natAbs_narrow_le_sub_mul (v q : Int) (k : Nat) : (narrow v k).natAbs ≤ (v - pow3 k * q).natAbs := by
  have hlo := le_narrow v k
  have hhi := narrow_le v k
  by_cases hnear : -maxv k ≤ v - pow3 k * q ∧ v - pow3 k * q ≤ maxv k
  · rw [narrow_unique hnear.1 hnear.2 ⟨q, by ring⟩]
  · omega

/-! ### The quotient to nearest -/

theorem sgn_eq_sign (v : Int) : sgn v = v.sign := by
  rcases lt_trichotomy v 0 with hneg | rfl | hpos
  · simp [sgn, hneg, Int.sign_eq_neg_one_of_neg hneg]
  · rfl
  · simp [sgn, hpos.not_gt, hpos.ne', Int.sign_eq_one_of_pos hpos]

/-- The rest of DIV: the rest of the truncated quotient, less one divisor's magnitude on the dividend's side where that rest is above half. -/
theorem sub_divNearest_mul (a b : Int) :
    a - divNearest a b * b = if 2 * (a.tmod b).natAbs > b.natAbs then a.tmod b - a.sign * b.natAbs else a.tmod b := by
  have hrest : a - a.tdiv b * b = a.tmod b := by rw [Int.tmod_def, mul_comm]
  simp only [divNearest, hrest, sgn_eq_sign]
  split
  · rw [← Int.sign_mul_self_eq_natAbs b, ← hrest]
    ring
  · exact hrest

/-- Above half, the rest on the dividend's other side is what the truncated quotient's rest lacks of a divisor. -/
theorem natAbs_tmod_sub_sign_mul (a : Int) {b : Int} (hb : b ≠ 0) (hhalf : 2 * (a.tmod b).natAbs > b.natAbs) :
    (a.tmod b - a.sign * b.natAbs).natAbs = b.natAbs - (a.tmod b).natAbs := by
  have hlt : (a.tmod b).natAbs < b.natAbs := by
    rw [Int.natAbs_tmod]
    exact Nat.mod_lt _ (Int.natAbs_pos.2 hb)
  rcases lt_trichotomy a 0 with hneg | rfl | hpos
  · have hrest : 0 ≤ -a.tmod b := by rw [← Int.neg_tmod]; exact Int.tmod_nonneg b (by omega)
    rw [Int.sign_eq_neg_one_of_neg hneg]
    omega
  · simp at hhalf
  · have hrest : 0 ≤ a.tmod b := Int.tmod_nonneg b hpos.le
    rw [Int.sign_eq_one_of_pos hpos]
    omega

/-- DIV's quotient is nearest (R30). -/
theorem two_natAbs_sub_divNearest_le (a : Int) {b : Int} (hb : b ≠ 0) : 2 * (a - divNearest a b * b).natAbs ≤ b.natAbs := by
  rw [sub_divNearest_mul]
  split
  case isTrue hhalf =>
    rw [natAbs_tmod_sub_sign_mul a hb hhalf]
    omega
  case isFalse hhalf => omega

/-- A truncated quotient's multiple of the divisor is no larger than the dividend. -/
theorem natAbs_tdiv_mul_le (a b : Int) : (a.tdiv b * b).natAbs ≤ a.natAbs := by
  rw [Int.natAbs_mul, Int.natAbs_tdiv]
  exact Nat.div_mul_le_self _ _

/-- In a tie DIV's quotient is the truncated one: one more divisor leaves a rest strictly below half (R30). -/
theorem divNearest_eq_tdiv_of_tie {a b : Int} (hb : b ≠ 0) (htie : 2 * (a - divNearest a b * b).natAbs = b.natAbs) :
    divNearest a b = a.tdiv b := by
  have hhalf : ¬ 2 * (a.tmod b).natAbs > b.natAbs := by
    intro habove
    rw [sub_divNearest_mul, if_pos habove, natAbs_tmod_sub_sign_mul a hb habove] at htie
    omega
  have hrest := sub_divNearest_mul a b
  have hdiv := Int.tdiv_mul_add_tmod a b
  rw [if_neg hhalf] at hrest
  exact mul_right_cancel₀ hb (by omega)

/-! ### The obligation -/

/-- Settles O2: canonicity, trits and tails from the unique split of a value into 3^k·shr and its narrowed value; DIV from the rest it leaves. -/
theorem narrowingDiscardingAndDividing : Obligations.NarrowingDiscardingAndDividing := by
  unfold Obligations.NarrowingDiscardingAndDividing
  refine ⟨fun v n => ⟨⟨le_narrow v n, narrow_le v n⟩, dvd_sub_narrow v n, fun r hlo hhi hdvd => (narrow_unique hlo hhi hdvd).symm⟩,
    fun v n hlo hhi => ⟨ofTrits_range_of_canon hlo hhi, trit_cases v, fun i hi => trit_eq_zero_of_canon hlo hhi hi⟩,
    canon_eq_natAbs_le, fun v k => ?_, fun v k => ⟨(shr_narrow v k).symm, ?_, fun q => ?_⟩,
    fun a b hb => ⟨two_natAbs_sub_divNearest_le a hb, fun htie => ?_⟩⟩
  · rw [sub_shr_eq_narrow]
    exact two_natAbs_narrow_lt v k
  · exact Nat.le_sub_one_of_lt (two_natAbs_narrow_lt v k)
  · rw [sub_shr_eq_narrow]
    exact natAbs_narrow_le_sub_mul v q k
  · rw [divNearest_eq_tdiv_of_tie hb htie]
    exact natAbs_tdiv_mul_le a b

end Sys2Proof.Tern
end

section
/-! ## Certificates: the arithmetic that the value words share (R5, R23, R32 to R38) -/

namespace Sys2Proof.Tern

/-! ### Fitting an exact value (R38) -/

theorem fit_of_canon {v : Int} {n : Nat} (s : Trit) (hlo : -maxv n ≤ v) (hhi : v ≤ maxv n) : fit v n s = (v, false) := by
  simp [fit, canon, hlo, hhi]

/-- Beyond the range saturation gives the bound on the value's side. -/
theorem fit_saturated {v : Int} {n : Nat} (hout : ¬ (-maxv n ≤ v ∧ v ≤ maxv n)) : fit v n 1 = (if v < 0 then -maxv n else maxv n, true) := by
  have hbound := maxv_nonneg n
  have hne : v ≠ 0 := by omega
  by_cases hneg : v < 0 <;> simp [fit, canon, hout, sgn, hneg, hne]

theorem fit_narrowed {v : Int} {n : Nat} {s : Trit} (hout : ¬ (-maxv n ≤ v ∧ v ≤ maxv n)) (hs : s ≠ 1) :
    fit v n s = (narrow v n, decide (s = 0)) := by
  simp [fit, canon, hout, hs, beq_eq_decide]

/-- Settles O1, by the three cases of R38 in their order. -/
theorem fittingAnExactValue : Obligations.FittingAnExactValue := by
  unfold Obligations.FittingAnExactValue
  intro v n s
  unfold Rule.Fits
  by_cases hin : -maxv n ≤ v ∧ v ≤ maxv n
  · rw [if_pos hin, fit_of_canon s hin.1 hin.2]
    exact ⟨rfl, rfl⟩
  · rw [if_neg hin]
    by_cases hsat : s = 1
    · rw [if_pos hsat, hsat, fit_saturated hin]
      exact ⟨rfl, rfl⟩
    · rw [if_neg hsat, fit_narrowed hin hsat]
      exact ⟨⟨le_narrow v n, narrow_le v n⟩, dvd_sub_narrow v n, rfl⟩

/-! ### Parts of a narrowed value -/

/-- The upper and the lower part of a narrowed value are parts of the value. -/
theorem shr_narrow_narrow (v : Int) (m k : Nat) : shr (narrow v (m + k)) m = narrow (shr v m) k ∧ narrow (narrow v (m + k)) m = narrow v m := by
  have hlow := shr_narrow v m
  have hupper := shr_narrow (shr v m) k
  have hwhole := shr_narrow v (m + k)
  rw [← shr_shr, pow3_add] at hwhole
  refine shr_unique ?_ (le_narrow v m) (narrow_le v m)
  linear_combination hwhole - pow3 m * hupper - hlow

theorem trit_shr (v : Int) (j i : Nat) : trit (shr v j) i = trit v (j + i) := by simp [trit, shr_shr]

theorem ofTrits_range (v : Int) (n : Nat) : ofTrits ((List.range n).map (trit v)) = narrow v n := by rw [← trits_eq, ofTrits_trits]

theorem ofTrits_append (a b : List Trit) : ofTrits (a ++ b) = ofTrits a + pow3 a.length * ofTrits b := by
  induction a with
  | nil => simp [ofTrits]
  | cons t ts ih =>
    rw [List.cons_append, ofTrits, ih, ofTrits, List.length_cons, pow3_succ]
    ring

/-! ### Trit words, trit by trit (R33 to R36) -/

theorem tlz_eq (x : Int) (n : Nat) : tlz x n = (((List.range n).reverse.takeWhile fun i => trit x i == 0).length : Nat) := by
  simp [tlz, trits_eq, ← List.map_reverse, List.takeWhile_map, Function.comp_def]

theorem tcnt_eq (x : Int) (n : Nat) (c : Trit) : tcnt x n c = ((List.range n).countP fun i => trit x i == c : Nat) := by
  simp [tcnt, trits_eq, List.countP_map, Function.comp_def]

theorem tmap_eq (m x : Int) (n : Nat) : tmap m x n = ofTrits ((List.range n).map fun i => trit m (trit x i + 1).toNat) := by
  simp [tmap, trits_eq, Function.comp_def]

theorem tbin_eq (m x y : Int) (n : Nat) :
    tbin m x y n = ofTrits ((List.range n).map fun i => trit m (3 * (trit x i + 1) + (trit y i + 1)).toNat) := by
  simp [tbin, trits_eq, g2, List.zipWith_map]

theorem tsel_eq (x y z : Int) (n : Nat) :
    tsel x y z n = ofTrits ((List.range n).map fun i => if trit z i = 1 then trit x i else if trit z i = 0 then 0 else trit y i) := by
  simp [tsel, trits_eq, tsel1, List.zip_map', List.zipWith_map]

/-! ### TROT (R33) -/

/-- The part of m trits that stays inside goes up by r, the r trits above it come in below. -/
theorem trot_eq_parts (x k : Int) {m r : Nat} (hr : (k % ((m + r : Nat) : Int)).toNat = r) :
    trot x k (m + r) = narrow (shr x m) r + pow3 r * narrow x m := by
  obtain ⟨hupper, hlower⟩ := shr_narrow_narrow x m r
  have hsplit := shr_narrow (narrow x (m + r)) m
  have hshift : narrow (narrow x (m + r) * pow3 r) (m + r) = pow3 r * narrow x m := by
    have hpow := pow3_pos r
    have hbound : maxv (m + r) = pow3 r * maxv m + maxv r := by rw [Nat.add_comm, maxv_add]
    have hrest := maxv_nonneg r
    refine narrow_unique ?_ ?_ ⟨shr (narrow x (m + r)) m, ?_⟩
    · nlinarith [le_narrow x m]
    · nlinarith [narrow_le x m]
    · rw [pow3_add]
      rw [hlower] at hsplit
      linear_combination (-pow3 r) * hsplit
  unfold trot
  simp only [hr, Nat.add_sub_cancel, hupper, hshift]
  ring

theorem narrow_zero (v : Int) : narrow v 0 = 0 := by
  have hlo := le_narrow v 0
  have hhi := narrow_le v 0
  have hmax : maxv 0 = 0 := rfl
  omega

/-- Trit i of the rotated value is the trit k places below, around the n trits. -/
theorem trot_eq (x k : Int) (n : Nat) :
    trot x k n = ofTrits ((List.range n).map fun i : Nat => trit x (((i : Int) - k) % n).toNat) := by
  rcases Nat.eq_zero_or_pos n with rfl | hn
  · simp [trot, narrow_zero, ofTrits]
  have hlo := Int.emod_nonneg k (b := n) (by omega)
  have hhi := Int.emod_lt_of_pos k (b := n) (by omega)
  obtain ⟨r, hr⟩ := Int.eq_ofNat_of_zero_le hlo
  obtain ⟨m, rfl⟩ : ∃ m, n = m + r := ⟨n - r, by omega⟩
  have hplace : ∀ i : Int, (i - k) % ((m + r : Nat) : Int) = (i - r) % ((m + r : Nat) : Int) := by
    intro i
    rw [Int.sub_emod, hr, Int.sub_emod i r, ← hr, Int.emod_emod]
  have hin : ∀ i ∈ List.range r, trit x (((i : Int) - k) % ((m + r : Nat) : Int)).toNat = trit (shr x m) i := by
    intro i hi
    have := List.mem_range.1 hi
    rw [hplace, ← Int.add_emod_right, Int.emod_eq_of_lt (by omega) (by omega), trit_shr]
    congr 1
    omega
  have hup : ∀ i ∈ List.range m, trit x (((r + i : Nat) - k) % ((m + r : Nat) : Int)).toNat = trit x i := by
    intro i hi
    have := List.mem_range.1 hi
    rw [hplace, Int.emod_eq_of_lt (by omega) (by omega)]
    congr 1
    omega
  rw [trot_eq_parts x k (by omega), Nat.add_comm m r, List.range_add, List.map_append, List.map_map, ofTrits_append]
  rw [Nat.add_comm r m, List.map_congr_left hin, Function.comp_def, List.map_congr_left hup]
  simp [ofTrits_range]

/-! ### Elements (R23) -/

/-- The three trytes of a word, each a field of it. -/
theorem split_trytes (a : Int) : split 9 3 a = [field a 8 0, field a 17 9, field a 26 18] := by
  simp [split_eq, field, List.range_succ]

end Sys2Proof.Tern
end

section
/-! ## Certificates: integer words (R342 to R344, R365, R366, R399, R400, R421, R422) -/

namespace Sys2Proof.Machine

open Sys2Proof Tern

/-! ### Flags of the elements together (R61) -/

@[simp] theorem Fl.none_or (f : Fl) : Fl.none.or f = f := by simp [Fl.or, Fl.none]
@[simp] theorem Fl.or_none (f : Fl) : f.or Fl.none = f := by simp [Fl.or, Fl.none]
@[simp] theorem Fl.or_self (f : Fl) : f.or f = f := by simp [Fl.or]

/-- Of three elements that may each raise the same flags, the word raises them when one does. -/
theorem Fl.all_three_ite (e : Fl) (p q r : Bool) :
    Fl.all [if p then e else Fl.none, if q then e else Fl.none, if r then e else Fl.none] = if p || q || r then e else Fl.none := by
  simp only [Fl.all, List.foldl_cons, List.foldl_nil, Fl.none_or]
  cases p <;> cases q <;> cases r <;> simp

/-! ### Element functions over a word -/

theorem join_trytes (a b c : Int) : join 9 [a, b, c] = a + pow3 9 * (b + pow3 9 * c) := by simp [join]

/-- An element function that raises no flag acts on each element of the word. -/
theorem elems1_eq {f : Nat → Int → Int × Fl} {r : Nat → Int → Int} (hf : ∀ n x, f n x = (r n x, Fl.none)) (ty : ITy) (a : Int) :
    elems1 ty f a = (Rule.each1 ty r a, Fl.none) := by
  cases ty with
  | t => simp [elems1, Rule.each1, split_trytes, hf, join_trytes, Fl.all]
  | w => exact hf 27 a
  | d => exact hf 54 a

/-- An element function that may raise the flags e acts on each element, and the word raises e when an element does. -/
theorem elems2_eq {f : Nat → Int → Int → Int × Fl} {r : Nat → Int → Int → Int} {q : Nat → Int → Int → Bool} {e : Fl}
    (hf : ∀ n x y, f n x y = (r n x y, if q n x y then e else Fl.none)) (ty : ITy) (a b : Int) :
    elems2 ty f a b = (Rule.each2 ty r a b, if Rule.any2 ty q a b then e else Fl.none) := by
  cases ty with
  | t =>
    simp only [elems2, split_trytes, List.zipWith_cons_cons, List.zipWith_nil_right, List.map_cons, List.map_nil, hf, join_trytes,
      Fl.all_three_ite]
    rfl
  | w => exact hf 27 a b
  | d => exact hf 54 a b

theorem elems3_eq {f : Nat → Int → Int → Int → Int × Fl} {r : Nat → Int → Int → Int → Int} {q : Nat → Int → Int → Int → Bool} {e : Fl}
    (hf : ∀ n x y z, f n x y z = (r n x y z, if q n x y z then e else Fl.none)) (ty : ITy) (a b c : Int) :
    elems3 ty f a b c = (Rule.each3 ty r a b c, if Rule.any3 ty q a b c then e else Fl.none) := by
  cases ty with
  | t =>
    simp only [elems3, split_trytes, List.zip_cons_cons, List.zip_nil_right, List.zipWith_cons_cons, List.zipWith_nil_right, List.map_cons,
      List.map_nil, hf, join_trytes, Fl.all_three_ite]
    rfl
  | w => exact hf 27 a b c
  | d => exact hf 54 a b c

theorem elems2_eq_of_flagless {f : Nat → Int → Int → Int × Fl} {r : Nat → Int → Int → Int} (hf : ∀ n x y, f n x y = (r n x y, Fl.none))
    (ty : ITy) (a b : Int) : elems2 ty f a b = (Rule.each2 ty r a b, Fl.none) := by
  simpa using elems2_eq (q := fun _ _ _ => false) (e := Fl.none) (by simpa using hf) ty a b

theorem elems3_eq_of_flagless {f : Nat → Int → Int → Int → Int × Fl} {r : Nat → Int → Int → Int → Int}
    (hf : ∀ n x y z, f n x y z = (r n x y z, Fl.none)) (ty : ITy) (a b c : Int) : elems3 ty f a b c = (Rule.each3 ty r a b c, Fl.none) := by
  simpa using elems3_eq (q := fun _ _ _ _ => false) (e := Fl.none) (by simpa using hf) ty a b c

/-- Operand B as the model reads it (R343). -/
theorem Warp.intB_eq (w : Warp) (l : Nat) (ty : ITy) (b : SrcImm) : w.intB l ty b = Rule.operandB w l ty b := by
  cases b with
  | src b => rfl
  | imm i => simp [Warp.intB, Rule.operandB, join_trytes]

/-! ### Element functions, one by one -/

theorem absF_eq (n : Nat) (x : Int) : absF n x = (if x < 0 then -x else x, Fl.none) := by
  simp only [absF, Prod.mk.injEq, and_true]
  split <;> omega

theorem minF_eq (n : Nat) (x y : Int) : minF n x y = (if x ≤ y then x else y, Fl.none) := by simp [minF, min_def]
theorem maxF_eq (n : Nat) (x y : Int) : maxF n x y = (if x ≤ y then y else x, Fl.none) := by simp [maxF, max_def]

/-- A division by 0 gives 0 and raises DZ (R30). -/
theorem divF_eq (n : Nat) (x y : Int) : divF n x y = (if y = 0 then 0 else divNearest x y, if y == 0 then Fl.dvz else Fl.none) := by
  by_cases hy : y = 0 <;> simp [divF, hy]
theorem divzF_eq (n : Nat) (x y : Int) : divzF n x y = (if y = 0 then 0 else Int.tdiv x y, if y == 0 then Fl.dvz else Fl.none) := by
  by_cases hy : y = 0 <;> simp [divzF, divZero, hy]
theorem modF_eq (n : Nat) (x y : Int) :
    modF n x y = (if y = 0 then 0 else x - divNearest x y * y, if y == 0 then Fl.dvz else Fl.none) := by
  by_cases hy : y = 0 <;> simp [modF, hy]

/-- TROT of n trits (R33); the places 0 to n - 1 are read as integers, as the rule has them. -/
theorem trotF_eq (n : Nat) (x k : Int) :
    trotF n x k = (ofTrits ((List.range n).map fun i => trit x (((i : Int) - k) % n).toNat), Fl.none) := by
  simp only [trotF, trot_eq, bind_pure_comp, List.map_eq_map, List.map_map, Function.comp_def]

/-- TSH to the left is fitted and may raise OV; to the right it rounds (R32). -/
theorem tshF_eq (s : Int) (n : Nat) (x k : Int) :
    tshF s n x k = (if 0 < k then (fit (x * pow3 (Min.min k.toNat n)) n s).1 else shr x (Min.min (-k).toNat n),
      if decide (0 < k) && (fit (x * pow3 (Min.min k.toNat n)) n s).2 then Fl.ovf else Fl.none) := by
  by_cases hk : 0 < k <;> simp [tshF, tsh, hk]

/-! ### Where a value word may write -/

/-- Word i writes its result to d: the destination is one of its own, and, where the encoding admits the word, one that its form allows. -/
structure WritesDst (i : Instr) (d : Dst) (dbl : Bool) : Prop where
  own : (d, dbl) ∈ i.dsts
  latching : noLatch i = false
  vector : i.wf = true → i.isVector = true → gsOf d dbl = []
  group : i.wf = true → i.isVector = false → vsOf d dbl = []

theorem gsOf_of_dst_vector {d : Dst} {dbl : Bool} (h : Wf.dst .vector dbl d = true) : gsOf d dbl = [] := by
  cases d <;> simp_all [Wf.dst, gsOf]

theorem vsOf_of_dst_group {d : Dst} {dbl : Bool} (h : Wf.dst .group dbl d = true) : vsOf d dbl = [] := by
  cases d <;> simp_all [Wf.dst, vsOf]

theorem WritesDst.of_dst {i : Instr} {h : Hd} {d : Dst} {dbl : Bool} (hhd : i.hd? = some h) (hown : i.dsts = [(d, dbl)])
    (hlatch : noLatch i = false) (hdst : i.wf = true → Wf.dst h.form dbl d = true) : WritesDst i d dbl where
  own := by simp [hown]
  latching := hlatch
  vector hwf hv := by
    have hform : h.form = .vector := by simpa [Instr.isVector, hhd] using hv
    exact gsOf_of_dst_vector (hform ▸ hdst hwf)
  group hwf hv := by
    have hform : h.form = .group := by
      cases hf : h.form with
      | vector => simp [Instr.isVector, hhd, hf] at hv
      | group => rfl
    exact vsOf_of_dst_group (hform ▸ hdst hwf)

/-- A word that hands an element function with the stated values and flags to computeWord computes them. -/
theorem WritesDst.computes {i : Instr} {d : Dst} {dbl : Bool} (hd : WritesDst i d dbl) {k : ResKind} {f : Warp → Nat → Int × Fl}
    {x : Warp → Nat → Int} {fl : Warp → Nat → Fl} (hexec : ∀ s, exec i s = .next (computeWord i s d dbl k f))
    (hf : ∀ w l, f w l = (x w l, fl w l)) : Computes i (.reg d dbl) (fun w _ l => x w l) (fun w _ l => fl w l) := by
  intro s c w hr
  obtain ⟨w', hw'⟩ := computeWord_spec hr d dbl k f hd.own hd.latching (hd.vector hr.wf) (hd.group hr.wf)
  simp only [hf] at hw'
  exact ⟨_, w', hexec s, hw'⟩

/-! ### Destinations that the encoding admits (R100, R101) -/

theorem dst_of_wf_i1 {o : I1} (h : Wf.i1 o = true) : Wf.dst o.hd.form (o.ty == .d) o.d = true := by
  simp only [Wf.i1, Bool.and_eq_true] at h
  obtain ⟨⟨-, hdst⟩, -⟩ := h
  exact hdst
theorem dst_of_wf_i2 {b : Bool} {o : I2} (h : Wf.i2 b o = true) : Wf.dst o.hd.form (o.ty == .d) o.d = true := by
  simp only [Wf.i2, Bool.and_eq_true] at h
  obtain ⟨⟨⟨⟨-, hdst⟩, -⟩, -⟩, -⟩ := h
  exact hdst
theorem dst_of_wf_i3 {o : I3} (h : Wf.i3 o = true) : Wf.dst o.hd.form (o.ty == .d) o.d = true := by
  simp only [Wf.i3, Bool.and_eq_true] at h
  obtain ⟨⟨⟨⟨-, hdst⟩, -⟩, -⟩, -⟩ := h
  exact hdst
theorem dst_of_wf_tcnt {o : ICnt} (h : (Instr.tcnt o).wf = true) : Wf.dst o.hd.form (o.ty == .d) o.d = true := by
  simp only [Instr.wf, Bool.and_eq_true] at h
  obtain ⟨⟨-, hdst⟩, -⟩ := h
  exact hdst
theorem dst_of_wf_tmap {o : ITab1} (h : (Instr.tmap o).wf = true) : Wf.dst o.hd.form (o.ty == .d) o.d = true := by
  simp only [Instr.wf, Bool.and_eq_true] at h
  obtain ⟨⟨⟨-, hdst⟩, -⟩, -⟩ := h
  exact hdst
theorem dst_of_wf_tbin {o : ITab2} (h : (Instr.tbin o).wf = true) : Wf.dst o.hd.form (o.ty == .d) o.d = true := by
  simp only [Instr.wf, Bool.and_eq_true] at h
  obtain ⟨⟨⟨⟨-, hdst⟩, -⟩, -⟩, -⟩ := h
  exact hdst

end Sys2Proof.Machine

namespace Sys2Proof.Rule

open Sys2Proof.Machine Sys2Proof.Tern

/-! ### Words of one operand -/

theorem One.writesDst {i : Instr} {d : Dst} {ty : ITy} {a : Src} {r : Nat → Int → Int} (h : One i d ty a r) :
    WritesDst i d (ty == .d) := by
  cases h with
  | abs o | neg o | sgn o | tlz o => exact .of_dst rfl rfl rfl dst_of_wf_i1
  | tcnt o => exact .of_dst rfl rfl rfl dst_of_wf_tcnt
  | tmap o => exact .of_dst rfl rfl rfl dst_of_wf_tmap

/-- The model's element function of a word of one operand gives the rule's result and no flag. -/
theorem One.exec_eq {i : Instr} {d : Dst} {ty : ITy} {a : Src} {r : Nat → Int → Int} (h : One i d ty a r) :
    ∃ f, (∀ s, exec i s = .next (computeWord i s d (ty == .d) (kindOf ty) fun w l => elems1 ty f (w.src l (ty == .d) a))) ∧
      ∀ n x, f n x = (r n x, Fl.none) := by
  cases h with
  | abs o => exact ⟨absF, fun _ => rfl, absF_eq⟩
  | neg o => exact ⟨negF, fun _ => rfl, fun _ _ => rfl⟩
  | sgn o => exact ⟨sgnF, fun _ => rfl, fun _ _ => rfl⟩
  | tlz o => exact ⟨tlzF, fun _ => rfl, fun n x => by rw [tlzF, tlz_eq]⟩
  | tcnt o => exact ⟨tcntF o.sel, fun _ => rfl, fun n x => by rw [tcntF, tcnt_eq]⟩
  | tmap o => exact ⟨tmapF o.tbl, fun _ => rfl, fun n x => by rw [tmapF, tmap_eq]⟩

/-- Settles O4: each word is computeWord over its element function, which is the rule's. -/
theorem oneOperandIntegerWords : Obligations.OneOperandIntegerWords := by
  unfold Obligations.OneOperandIntegerWords
  intro i d ty a r h
  obtain ⟨f, hexec, hf⟩ := h.exec_eq
  exact h.writesDst.computes hexec fun w l => elems1_eq hf ty _

/-! ### Words of two operands -/

theorem Two.writesDst {i : Instr} {d : Dst} {ty : ITy} {a : Src} {b : SrcImm} {r : Nat → Int → Int → Int} {e : Int → Int → Fl}
    (h : Two i d ty a b r e) : WritesDst i d (ty == .d) := by
  cases h with
  | add o | sub o | mul o | mulh o | div o | divz o | mod o | min o | max o | tsh o | trot o => exact .of_dst rfl rfl rfl dst_of_wf_i2
  | tbin o => exact .of_dst rfl rfl rfl dst_of_wf_tbin

/-- The model's word of two operands gives each element the rule's result, and raises the rule's flags. -/
theorem Two.exec_eq {i : Instr} {d : Dst} {ty : ITy} {a : Src} {b : SrcImm} {r : Nat → Int → Int → Int} {e : Int → Int → Fl}
    (h : Two i d ty a b r e) :
    ∃ f, (∀ s, exec i s = .next (computeWord i s d (ty == .d) (kindOf ty) fun w l =>
        elems2 ty f (w.src l (ty == .d) a) (w.intB l ty b))) ∧
      ∀ x y, elems2 ty f x y = (each2 ty r x y, e x y) := by
  cases h with
  | add o => exact ⟨addF o.sat, fun _ => rfl, elems2_eq (e := Fl.ovf) (fun _ _ _ => rfl) o.ty⟩
  | sub o => exact ⟨subF o.sat, fun _ => rfl, elems2_eq (e := Fl.ovf) (fun _ _ _ => rfl) o.ty⟩
  | mul o => exact ⟨mulF o.sat, fun _ => rfl, elems2_eq (e := Fl.ovf) (fun _ _ _ => rfl) o.ty⟩
  | tsh o => exact ⟨tshF o.sat, fun _ => rfl, elems2_eq (tshF_eq o.sat) o.ty⟩
  | div o => exact ⟨divF, fun _ => rfl, elems2_eq divF_eq o.ty⟩
  | divz o => exact ⟨divzF, fun _ => rfl, elems2_eq divzF_eq o.ty⟩
  | mod o => exact ⟨modF, fun _ => rfl, elems2_eq modF_eq o.ty⟩
  | mulh o => exact ⟨mulhF, fun _ => rfl, elems2_eq_of_flagless (fun _ _ _ => rfl) o.ty⟩
  | min o => exact ⟨minF, fun _ => rfl, elems2_eq_of_flagless minF_eq o.ty⟩
  | max o => exact ⟨maxF, fun _ => rfl, elems2_eq_of_flagless maxF_eq o.ty⟩
  | trot o => exact ⟨trotF, fun _ => rfl, elems2_eq_of_flagless trotF_eq o.ty⟩
  | tbin o => exact ⟨tbinF o.tbl, fun _ => rfl, elems2_eq_of_flagless (fun n x y => by rw [tbinF, tbin_eq]) o.ty⟩

/-- Settles O5: each word is computeWord over its element function, which gives the rule's results and flags. -/
theorem twoOperandIntegerWords : Obligations.TwoOperandIntegerWords := by
  unfold Obligations.TwoOperandIntegerWords
  intro i d ty a b r e h
  obtain ⟨f, hexec, hf⟩ := h.exec_eq
  exact h.writesDst.computes hexec fun w l => by rw [Warp.intB_eq, hf]

/-! ### Words of three operands -/

theorem Three.writesDst {i : Instr} {o : I3} {r : Nat → Int → Int → Int → Int} {e : Int → Int → Int → Fl} (h : Three i o r e) :
    WritesDst i o.d (o.ty == .d) := by
  cases h with
  | mad | tsel => exact .of_dst rfl rfl rfl dst_of_wf_i3

theorem Three.exec_eq {i : Instr} {o : I3} {r : Nat → Int → Int → Int → Int} {e : Int → Int → Int → Fl} (h : Three i o r e) :
    ∃ f, (∀ s, exec i s = .next (intWord3 i o s f)) ∧ ∀ x y z, elems3 o.ty f x y z = (each3 o.ty r x y z, e x y z) := by
  cases h with
  | mad => exact ⟨madF o.sat, fun _ => rfl, elems3_eq (e := Fl.ovf) (fun _ _ _ _ => rfl) o.ty⟩
  | tsel => exact ⟨tselF, fun _ => rfl, elems3_eq_of_flagless (fun n x y z => by rw [tselF, tsel_eq]) o.ty⟩

/-- Settles O6, as O5 is settled. -/
theorem threeOperandIntegerWords : Obligations.ThreeOperandIntegerWords := by
  unfold Obligations.ThreeOperandIntegerWords
  intro i o r e h
  obtain ⟨f, hexec, hf⟩ := h.exec_eq
  exact h.writesDst.computes hexec fun w l => hf _ _ _

end Sys2Proof.Rule
end

section
/-! ## Certificates: words that write predicates (R37, R361, R362, R380, R381, R409) -/

namespace Sys2Proof.Machine

open Sys2Proof Tern

/-! ### The comparison trit (R37, R362) -/

theorem sgn_sub (a b : Int) : sgn (a - b) = if a < b then -1 else if a = b then 0 else 1 := by
  simp only [sgn, sub_neg, sub_eq_zero]

theorem sgn_sub_eq_zero {a b : Int} : sgn (a - b) = 0 ↔ a = b := by
  rw [sgn_eq_sign, Int.sign_eq_zero_iff_zero, sub_eq_zero]

/-- In .T the first nonzero comparison from the top is that of the highest elements that differ. -/
theorem cmpWord_eq (ty : ITy) (a b : Int) : cmpWord ty a b = Rule.compared ty a b := by
  cases ty with
  | t =>
    simp only [cmpWord, Rule.compared, split_trytes, List.zipWith_cons_cons, List.zipWith_nil_right, List.reverse_cons, List.reverse_nil,
      List.nil_append, List.cons_append, firstNonzero, sgn_sub_eq_zero, ← sgn_sub, ite_not]
    by_cases hlow : field a 8 0 = field b 8 0 <;> simp [hlow, sgn]
  | w => exact sgn_sub a b
  | d => exact sgn_sub a b

/-! ### Words that write a predicate -/

/-- A word that hands a function with the stated trits and flags to predWord computes them into a P predicate, or a Q predicate. -/
theorem computes_of_predWord {i : Instr} {n : Nat} {f : Warp → Nat → Int × Fl} {x : Warp → Nat → Int} {fl : Warp → Nat → Fl}
    (hn : i.wf = true → Wf.pdst n = true) (hlatch : noLatch i = false) (hexec : ∀ s, exec i s = .next (predWord i s n f))
    (hf : ∀ w l, f w l = (x w l, fl w l)) : Computes i (if i.isVector then .p n else .q n) (fun w _ l => x w l) (fun w _ l => fl w l) := by
  intro s c w hr
  have hrange : 1 ≤ n ∧ n ≤ 8 := by simpa [Wf.pdst] using hn hr.wf
  obtain ⟨w', hw'⟩ := predWord_spec hr n hrange f hlatch
  simp only [hf] at hw'
  exact ⟨_, w', hexec s, hw'⟩

/-- PANY and PALL are admitted in the vector form only, with a Q predicate of 1 to 8 (R409). -/
theorem vector_pdst_of_wf_pred {o : PRed} (h : (Wf.hv o.hd && Wf.tr o.te && Wf.pdst o.qd && Wf.psrc .vector o.a) = true) :
    (o.hd.form == .vector) = true ∧ Wf.pdst o.qd = true := by
  simp only [Wf.hv, Bool.and_eq_true] at h
  obtain ⟨⟨⟨⟨hform, -⟩, -⟩, hqd⟩, -⟩ := h
  exact ⟨hform, hqd⟩

/-- A word over predReduce computes the fold of the active lanes' predicate trits, 0 of none, into a Q predicate. -/
theorem computes_of_predReduce {i : Instr} {n : Nat} {a : PSrc} {f : Int → Int → Int} (hv : i.wf = true → i.isVector = true ∧ Wf.pdst n = true)
    (hlatch : noLatch i = false) (hexec : ∀ s, exec i s = .next (predReduce i s n a f)) :
    Computes i (.q n) (fun w al _ => al.tail.foldl (fun m l => f m (w.psrc l a)) (if al = [] then 0 else w.psrc (al.headD 0) a))
      (fun _ _ _ => Fl.none) := by
  intro s c w hr
  obtain ⟨hvec, hn⟩ := hv hr.wf
  have hrange : 1 ≤ n ∧ n ≤ 8 := by simpa [Wf.pdst] using hn
  obtain ⟨w', hw'⟩ := predReduce_spec hr n hrange.1 a f hlatch hvec
  refine ⟨_, w', hexec s, ?_⟩
  cases hal : activeOf i w c.lanes with
  | nil => simpa [hal] using hw'
  | cons l ls => simpa [hal] using hw'

end Sys2Proof.Machine

namespace Sys2Proof.Rule

open Sys2Proof.Machine Sys2Proof.Tern

theorem PredOp.pdst {i : Instr} {n : Nat} {x : Warp → Nat → Int} {e : Warp → Nat → Fl} (h : PredOp i n x e) (hwf : i.wf = true) :
    Wf.pdst n = true := by
  cases h with
  | cmp o | fcmp o | pset o | ptbl o => simp_all [Instr.wf]

theorem PredOp.noLatch {i : Instr} {n : Nat} {x : Warp → Nat → Int} {e : Warp → Nat → Fl} (h : PredOp i n x e) : Machine.noLatch i = false := by
  cases h with
  | cmp o | fcmp o | pset o | ptbl o => rfl

theorem PredOp.exec_eq {i : Instr} {n : Nat} {x : Warp → Nat → Int} {e : Warp → Nat → Fl} (h : PredOp i n x e) :
    ∃ f, (∀ s, exec i s = .next (predWord i s n f)) ∧ ∀ w l, f w l = (x w l, e w l) := by
  cases h with
  | cmp o => exact ⟨_, fun _ => rfl, fun w l => by rw [cmpWord_eq, Warp.intB_eq]⟩
  | fcmp o | pset o | ptbl o => exact ⟨_, fun _ => rfl, fun _ _ => rfl⟩

/-- Settles O19: the first four words are predWord over their trit, PANY and PALL predReduce by max and min. -/
theorem predicateWords : Obligations.PredicateWords := by
  unfold Obligations.PredicateWords
  refine ⟨fun i n x e h => ?_, fun o => ?_, fun o => ?_⟩
  · obtain ⟨f, hexec, hf⟩ := h.exec_eq
    exact computes_of_predWord h.pdst h.noLatch hexec hf
  · exact computes_of_predReduce vector_pdst_of_wf_pred rfl fun _ => rfl
  · exact computes_of_predReduce vector_pdst_of_wf_pred rfl fun _ => rfl

end Sys2Proof.Rule
end

section
/-! ## Certificates: what every step brings about (R92, R109, R265, R293) -/

namespace Sys2Proof.Machine

open Sys2Proof Tern

/-! ### A step ends in settle -/

theorem Out.map_eq_next {f : State → State} {o : Out} {t : State} (h : Out.map f o = .next t) : ∃ s, o = .next s ∧ t = f s := by
  cases o with
  | next s => exact ⟨s, rfl, by simpa [Out.map] using h.symm⟩
  | fault r => cases h
  | refused r => cases h

/-- Whatever the move was, a step's answer is what settle makes of some state. -/
theorem step_settles {s t : State} (h : step s = .next t) : ∃ tick s1, t = settle tick s1 := by
  obtain ⟨s1, -, rfl⟩ := Out.map_eq_next h
  exact ⟨_, s1, rfl⟩

/-! ### The three parts of a settled state, each brought about by one operation -/

/-- A chain hold that has no lane to issue for lapses (R109). -/
theorem settleHolds_holdOk (s : State) : ∀ w ∈ (settleHolds s).warps, w.holdOk = true := by
  intro w hw
  obtain ⟨x, -, rfl⟩ := List.mem_map.1 hw
  by_cases hx : (x.hold.isSome && !x.hasLanes) = true
  · simp [hx, Warp.holdOk]
  · simp only [hx, Warp.holdOk]
    cases hh : x.hold <;> simp_all

/-- Whether the barrier cycle of a gang holds is asked of the warps, and of no note of the gang's (R92). -/
theorem barrierCycle_congr {s t : State} (hw : t.warps = s.warps) (g : Gang) (b : Option Int) :
    barrierCycle t { g with barcSince := b } = barrierCycle s g := by
  simp only [barrierCycle, hw]
  rfl

theorem settleBarc_warps (s : State) : (settleBarc s).warps = s.warps := rfl

/-- Each gang notes its barrier cycle as the warps stand (R92). -/
theorem settleBarc_barcOk {s t : State} (hw : t.warps = s.warps) : ∀ g ∈ (settleBarc s).gangs, g.barcOk t = true := by
  intro g hg
  obtain ⟨x, -, rfl⟩ := List.mem_map.1 hg
  by_cases hx : barrierCycle s x = true <;> simp [hx, Gang.barcOk, barrierCycle_congr hw]

/-- A journal entry takes over what its launch holds (R265, R293). -/
theorem syncJournal_synced (s : State) : ∀ j ∈ (syncJournal s).journal, j.synced (syncJournal s) = true := by
  intro j hj
  obtain ⟨x, -, rfl⟩ := List.mem_map.1 hj
  unfold JEntry.synced
  cases hl : s.launches.find? fun y => y.seq == x.seq && y.paddock == x.paddock with
  | none => simp [hl]
  | some y => simp [hl]

/-- The last operations of settle leave any state settled: each of them keeps what those before it have brought about. -/
theorem settled_of_syncJournal (s : State) : (syncJournal (noteHeads (balancePads (settleBarc (settleHolds s))))).settled = true := by
  have hwarps : (syncJournal (noteHeads (balancePads (settleBarc (settleHolds s))))).warps = (settleHolds s).warps := by
    rw [syncJournal_warps, noteHeads_warps, balancePads_warps, settleBarc_warps]
  simp only [State.settled, Bool.and_eq_true, List.all_eq_true]
  refine ⟨⟨?_, ?_⟩, syncJournal_synced _⟩
  · rw [hwarps]
    exact settleHolds_holdOk s
  · rw [syncJournal_gangs, noteHeads_gangs, balancePads_gangs]
    exact settleBarc_barcOk hwarps

theorem settle_settled (tick : Bool) (s : State) : (settle tick s).settled = true := settled_of_syncJournal _

/-- Settles O60: a step ends in settle, which leaves every state settled. -/
theorem everyStepLeavesTheMachineSettled : Obligations.EveryStepLeavesTheMachineSettled := by
  unfold Obligations.EveryStepLeavesTheMachineSettled
  intro s t h
  obtain ⟨tick, s1, rfl⟩ := step_settles h
  exact settle_settled tick s1

end Sys2Proof.Machine
end

section
/-! ## Certificates: every instruction and every step answers a next state -/

namespace Sys2Proof.Machine

open Sys2Proof Tern

/-- An answer that is a next state. -/
def IsNext (o : Out) : Prop := ∃ t, o = .next t

theorem isNext_next (s : State) : IsNext (.next s) := ⟨s, rfl⟩

theorem isNext_map {o : Out} (f : State → State) (h : IsNext o) : IsNext (Out.map f o) := by
  obtain ⟨s, rfl⟩ := h
  exact ⟨f s, rfl⟩

/-- No arm of exec faults or refuses: each answers its meaning's next state. -/
theorem exec_isNext (i : Instr) (s : State) : IsNext (exec i s) := by
  cases i <;> exact ⟨_, rfl⟩

/-! ### The moves of a step -/

theorem issueAt_isNext (s : State) (w : Warp) (slot : Nat) (v : Int) : IsNext (issueAt s w slot v) := by
  unfold issueAt
  dsimp only
  split
  · exact isNext_next _
  · split
    · exact isNext_next _
    · split
      · exact isNext_next _
      · exact isNext_map _ (exec_isNext _ _)

theorem issueTurn_isNext (s : State) (wid slot : Nat) : IsNext (issueTurn s wid slot) := by
  unfold issueTurn
  split
  · exact isNext_next _
  · split
    · exact isNext_next _
    · split
      · exact isNext_next _
      · split
        · exact isNext_next _
        · split
          · exact issueAt_isNext _ _ _ _
          · exact isNext_next _

theorem runForced_isNext (s : State) (w : Warp) (c : Cur) (i : Instr) : IsNext (runForced s w c i) := exec_isNext _ _

theorem stepTurn_isNext (s : State) (w : Warp) (c : Cur) : IsNext (stepTurn s w c) := by
  unfold stepTurn
  split
  · exact isNext_next _
  · split
    · exact isNext_next _
    · exact isNext_next _
    · exact isNext_next _
    · split
      · exact isNext_next _
      · split
        · exact runForced_isNext _ _ _ _
        · exact isNext_next _

theorem forcedTurn_isNext (s : State) (c : Cur) : IsNext (forcedTurn s c) := by
  unfold forcedTurn
  dsimp only
  split
  · exact isNext_next _
  · split
    · exact isNext_next _
    · split
      · exact stepTurn_isNext _ _ _
      · split
        · exact runForced_isNext _ _ _ _
        · exact isNext_next _

theorem makeMove_isNext (m : Move) (s : State) : IsNext (makeMove m s) := by
  refine isNext_map _ ?_
  cases m with
  | turn t =>
    cases t with
    | event i => exact exec_isNext i s
    | issue wid slot => exact issueTurn_isNext s wid slot
    | tick => exact isNext_next _
  | forced c => exact forcedTurn_isNext s c
  | choose key => exact isNext_next _
  | close => exact isNext_next _

theorem step_isNext (s : State) : IsNext (step s) := isNext_map _ (makeMove_isNext _ _)

/-- Settles O59, from the arms of exec and the moves of a step. -/
theorem everyInstructionAndStepAnswers : Obligations.EveryInstructionAndStepAnswers :=
  ⟨exec_isNext, step_isNext⟩

end Sys2Proof.Machine
end

section
/-! ## Certificates: worked words and the state after reset (R96 to R105, R224, R338) -/

namespace Sys2Proof.Machine

open Sys2Proof Tern

/-- Settles O56, by decoding each word. -/
theorem workedWordsDecode : Obligations.WorkedWordsDecode := by
  unfold Obligations.WorkedWordsDecode
  decide

/-! ### The first cycle after reset -/

theorem State.orStay_self (s : State) : s.orStay s = s := by
  unfold State.orStay
  split <;> rfl


/-- A machine as after reset, but for the package's registers and the cores. -/
def idleMachine (p : Package) (cs : List Core) : State := { State.reset with pkg := p, cores := cs }

/-- Without a gang an upset is noted by its core alone, none of whose banks has failed. -/
theorem strike_idleMachine (p : Package) (u : Option (Nat × Nat × Nat)) :
    ∃ cs, strike (idleMachine p []) u = idleMachine p cs ∧ ∀ c ∈ cs, c.banks = [] := by
  rcases u with _ | ⟨core, row, bank⟩
  · exact ⟨[], rfl, by simp⟩
  · unfold strike
    dsimp only
    split
    · exact ⟨[], rfl, by simp⟩
    · exact ⟨[{ Core.empty core with symbols := [(row, bank)] }], rfl, by simp [Core.empty]⟩

/-- A frontier is reported at multiples of 27 only (R207). -/
theorem scFrontierReport_idleMachine {p : Package} (hp : p.gtime = 1) (cs : List Core) :
    exec .scFrontierReport (idleMachine p cs) = .next (idleMachine p cs) := by
  have hnow : (idleMachine p cs).now = 1 := hp
  simp [exec, execScFrontierReport, hnow]

/-- With no frontier noted a release takes none. -/
theorem frontierRelease_idleMachine {p : Package} (hp : p.frontiers = []) (cs : List Core) :
    exec .frontierRelease (idleMachine p cs) = .next (idleMachine p cs) := by
  have hkeep : ({ p with frontier := p.frontier, frontiers := p.frontiers } : Package) = p := rfl
  simp only [exec, execFrontierRelease, State.modPkg, idleMachine, hp, List.filter_nil, List.foldl_nil]
  rw [← hp]
  rfl

theorem movePair_pkg (s : State) (pad n : Nat) : (movePair s pad n).pkg = s.pkg := by
  simp only [movePair, State.modPaddock]
  split <;> rfl

theorem balancePads_pkg (s : State) : (balancePads s).pkg = s.pkg := by
  refine foldl_keeps _ (fun s : State => s.pkg) (fun s pad => ?_) _ _
  dsimp only
  split
  · split
    · exact movePair_pkg _ _ _
    · rfl
  · rfl

theorem noteHeads_pkg (s : State) : (noteHeads s).pkg = s.pkg := by
  refine foldl_keeps _ (fun s : State => s.pkg) (fun s pad => ?_) _ _
  cases waitingGangs s pad with
  | nil => rfl
  | cons x r => dsimp only; split <;> rfl

theorem syncJournal_pkg (s : State) : (syncJournal s).pkg = s.pkg := rfl

/-- Nothing that a step brings about changes the registers of a package without warps, gangs, failed banks or debug operations. -/
theorem settle_idleMachine_pkg (tick : Bool) {p : Package} {cs : List Core} (hp : p.dwin = []) (hcs : ∀ c ∈ cs, c.banks = []) :
    (settle tick (idleMachine p cs)).pkg = p := by
  have hbanks : settleBanks (idleMachine p cs) = idleMachine p cs := by
    have hnone : (idleMachine p cs).cores.filter (fun c => decide (3 ≤ c.banks.length) && (idleMachine p cs).coreLive c.n) = [] := by
      refine List.filter_eq_nil_iff.2 fun c hc => ?_
      simp [hcs c hc]
    rw [settleBanks, hnone, List.foldl_nil]
  have hpends : settlePends (settleJoins (settleBlocked (settleFences (idleMachine p cs)))) tick = idleMachine p cs := by
    show settleWindow (idleMachine p cs) tick = _
    rw [settleWindow, show (idleMachine p cs).pkg.dwin = [] from hp]
    rfl
  unfold settle
  dsimp only
  rw [syncJournal_pkg, noteHeads_pkg, balancePads_pkg, hbanks, hpends]
  rfl

/-- The package's registers in the first cycle. -/
def firstCycle : Package := { Package.reset with gtime := 1 }

/-- A cycle of a machine just reset makes GTIME 1 and leaves it idle. -/
theorem tick_reset : ∃ cs, tick State.reset = idleMachine firstCycle cs ∧ ∀ c ∈ cs, c.banks = [] := by
  obtain ⟨cs, hcs, hbanks⟩ := strike_idleMachine firstCycle (Config.upset 1)
  refine ⟨cs, ?_, hbanks⟩
  have htime : narrow ((0 : Int) + 1) 54 = 1 := by decide
  have htick : tick State.reset = happen (strike (idleMachine { Package.reset with gtime := narrow (0 + 1) 54 } [])
      (Config.upset (narrow (0 + 1) 54))) (channelEvents (idleMachine { Package.reset with gtime := narrow (0 + 1) 54 } [])) := rfl
  rw [htick, htime]
  show happen (strike (idleMachine firstCycle []) (Config.upset 1)) [.scFrontierReport, .frontierRelease] = _
  rw [hcs]
  simp only [happen, List.foldl_cons, List.foldl_nil, scFrontierReport_idleMachine (p := firstCycle) rfl, State.orStay_self,
    frontierRelease_idleMachine (p := firstCycle) rfl]

theorem step_tick_reset : step { State.reset with agenda := [.tick] } = .next (settle true (State.reset.orStay (tick State.reset))) := rfl

/-- Memory that nothing has written reads 0 (log entry 2). -/
theorem Memory.read_nil (m : Memory) (p a : Int) (n : Nat) (hm : m.data = []) : m.read p a n = 0 := by
  unfold Memory.read
  rw [hm]
  generalize memKey p a = k
  induction n generalizing k with
  | zero => rfl
  | succ n ih => simp [sgets, sget_nil, join, ih]

/-- Settles O55: the reset state is a literal, and its first cycle leaves the machine idle. -/
theorem resetState : Obligations.ResetState := by
  unfold Obligations.ResetState
  refine ⟨rfl, rfl, rfl, rfl, rfl, rfl, rfl, rfl, rfl, rfl, rfl, reset_memoriesOk, reset_regsOk, rfl, fun p a n => ?_, fun p l => ⟨rfl, rfl⟩, ?_⟩
  · exact Memory.read_nil _ p a n rfl
  · obtain ⟨cs, htick, hbanks⟩ := tick_reset
    refine ⟨_, step_tick_reset, ?_⟩
    have hstay : State.reset.orStay (idleMachine firstCycle cs) = idleMachine firstCycle cs := rfl
    rw [htick, hstay, settle_idleMachine_pkg true rfl hbanks]
    rfl

end Sys2Proof.Machine
end

section
/-! ## Certificates: a step runs the decoded word (R73, R97, R110, R273) -/

namespace Sys2Proof.Machine

open Sys2Proof Tern

theorem Out.map_map (f g : State → State) (o : Out) : Out.map f (Out.map g o) = Out.map (fun s => f (g s)) o := by
  cases o <;> rfl

/-! ### A step by the head of its agenda -/

/-- An event that nothing bars is the move. -/
theorem step_event {s : State} {i : Instr} {r : List Turn} (h : s.agenda = .event i :: r)
    (hb : isBarred (exec i { s with agenda := r }) = false) : step s = Out.map (settle false) (exec i { s with agenda := r }) := by
  obtain ⟨t, ht⟩ := exec_isNext i { s with agenda := r }
  have hstay : ({ s with agenda := r } : State).orStay t = t := by
    rw [ht] at hb
    exact if_neg (by simpa [isBarred] using hb)
  simp only [step, turn, nextMove_agenda h hb, makeMove, Move.ticks, ht, Out.map_next, hstay]

/-- An event that is barred stays, and the default order moves. -/
theorem step_event_barred {s : State} {i : Instr} {r : List Turn} (h : s.agenda = .event i :: r)
    (hb : isBarred (exec i { s with agenda := r }) = true) : step s = Out.map (settle (defaultMove s).ticks) (makeMove (defaultMove s) s) := by
  simp only [step, turn, nextMove_held h hb]

theorem step_default {s : State} (h : s.agenda = []) : step s = Out.map (settle (defaultMove s).ticks) (makeMove (defaultMove s) s) := by
  simp only [step, turn, nextMove_default h]

theorem step_tick {s : State} (h : s.agenda = []) (hm : defaultMove s = .turn .tick) : step s = .next (settle true (s.orStay (tick s))) := by
  rw [step_default h, hm]
  rfl

/-- An issue of the agenda is never held. -/
theorem step_issue {s : State} {wid slot : Nat} {r : List Turn} (h : s.agenda = .issue wid slot :: r) :
    step s = Out.map (fun t => settle false (({ s with agenda := r } : State).orStay t)) (issueTurn { s with agenda := r } wid slot) := by
  obtain ⟨t, ht⟩ := issueTurn_isNext { s with agenda := r } wid slot
  simp only [step, turn, nextMove_agenda h rfl, makeMove, Move.ticks, ht, Out.map_next]

/-! ### The issue of a warp that is free to -/

/-- What lets a warp issue the word v in the state s: it is free, no trap stands in place of the word, and the word is fetched and ready. -/
structure Issues (s : State) (w : Warp) (v : Int) : Prop where
  free : freeToIssue s w = true
  first : issuedNow s w = false
  untrapped : trapInPlace s w = none
  word : wordFor s w w.issuePc = some v
  ready : wordReady s w v = true

theorem issueTurn_issues {s : State} {wid slot : Nat} {w : Warp} {v : Int} (hw : s.warp? wid = some w) (h : Issues s w v) :
    issueTurn s wid slot = issueAt s w slot v := by
  unfold issueTurn
  simp only [hw, h.free, h.first, h.untrapped, h.word, h.ready, Bool.not_true, Bool.or_self, Bool.false_eq_true, if_false, if_true]

/-- Without an armed unit and a held TASKF a decoded word runs. -/
theorem issueAt_decoded {s : State} {w : Warp} {slot : Nat} {v : Int} {i : Instr} (hunits : (s.core w.coreNo).watch = []) (htf : w.taskfs = [])
    (hv : decode? v = some i) :
    issueAt s w slot v = Out.map (fun t => match (t.warp? w.wid).bind fun w => w.blocked with
        | some n => s.modWarp w.wid fun w => { w with blocked := some n }
        | none => noteHold t w.wid slot (some i) w.handler)
      (exec i { startWord (noteIssue s w.wid slot) w with cur := some ⟨w.wid, w.issuePc, w.issuers, slot, false, none⟩ }) := by
  have hpc := pcUnits_unarmed (noteIssue s w.wid slot) w w.issuers w.issuePc hunits
  have htask : taskfHere w (some i) = none := by simp [taskfHere, htf]
  unfold issueAt
  simp only [hpc, hv, htask, List.isEmpty_nil, Bool.not_true, Bool.false_eq_true, if_false] <;> rfl

/-- An undecodable word traps ILLEGAL (R110). -/
theorem issueAt_undecoded {s : State} {w : Warp} {slot : Nat} {v : Int} (hunits : (s.core w.coreNo).watch = []) (htf : w.taskfs = [])
    (hv : decode? v = none) :
    issueAt s w slot v = .next (noteHold (((startWord (noteIssue s w.wid slot) w).modWarp w.wid fun w => w.countYields 1).enterTrap w.wid
      ⟨cause.illegal, listed w.issuers 0 0⟩) w.wid slot none w.handler) := by
  have hpc := pcUnits_unarmed (noteIssue s w.wid slot) w w.issuers w.issuePc hunits
  have htask : taskfHere w none = none := by simp [taskfHere, htf]
  unfold issueAt
  simp only [hpc, hv, htask, List.isEmpty_nil, Bool.not_true, Bool.false_eq_true, if_false, raiseTrap]

/-- Settles O58: a step by the head of its agenda, and an issue by what the word decodes to. -/
theorem stepRunsTheDecodedWord : Obligations.StepRunsTheDecodedWord := by
  unfold Obligations.StepRunsTheDecodedWord
  refine ⟨?_, ?_, fun s i r h hb => step_event h hb, fun s i r h hb => step_event_barred h hb, fun s h => step_default h,
    fun s h hm => step_tick h hm⟩
  · intro s wid slot r w v i h hw s0 hfree hfirst htrap hword hready hunits htf hv
    have hissue : issueTurn s0 wid slot = issueAt s0 w slot v := issueTurn_issues hw ⟨hfree, hfirst, htrap, hword, hready⟩
    rw [step_issue h, hissue, issueAt_decoded (s := s0) hunits htf hv]
    exact Out.map_map _ _ _
  · intro s wid slot r w v h hw s0 hfree hfirst htrap hword hready hunits htf hv
    have hissue : issueTurn s0 wid slot = issueAt s0 w slot v := issueTurn_issues hw ⟨hfree, hfirst, htrap, hword, hready⟩
    rw [step_issue h, hissue, issueAt_undecoded (s := s0) hunits htf hv, Out.map_next]

end Sys2Proof.Machine
end

section
/-! ## Certificates: what an encoded word carries (R98 to R106) -/

namespace Sys2Proof

open Tern

/-! ### Fields that fit their widths (R6) -/

theorem canon_iff {v : Int} {n : Nat} : canon v n = true ↔ -maxv n ≤ v ∧ v ≤ maxv n := by simp [canon]

theorem canon_zero (n : Nat) : canon 0 n = true := by
  have := maxv_nonneg n
  exact canon_iff.2 (by omega)

theorem Fitting.nil : Fitting [] := by simp [Fitting]

theorem Fitting.cons {w : Nat} {v : Int} {l : List (Nat × Int)} (h : canon v w = true) (hl : Fitting l) : Fitting ((w, v) :: l) := by
  intro p hp
  rcases List.mem_cons.1 hp with rfl | hp
  · exact canon_iff.1 h
  · exact hl p hp

theorem Fitting.canon {l : List (Nat × Int)} (h : Fitting l) {p : Nat × Int} (hp : p ∈ l) : Tern.canon p.2 p.1 = true := canon_iff.2 (h p hp)

/-- Fields that fit make a value that fits their widths together. -/
theorem Fitting.canon_pack : ∀ {l : List (Nat × Int)}, Fitting l → Tern.canon (pack l) (l.map fun p => p.1).sum = true
  | [], _ => rfl
  | (w, v) :: r, h => by
    have hv := h (w, v) (by simp)
    have hr := canon_iff.1 (Fitting.canon_pack (l := r) fun p hp => h p (by simp [hp]))
    have hpos := pow3_pos w
    simp only [List.map_cons, List.sum_cons, pack, canon_iff, maxv_add]
    constructor <;> nlinarith

/-! ### The values of the fields -/

theorem canon_one_of_tr {t : Int} (h : Wf.tr t = true) : canon t 1 = true := by simpa [Wf.tr, canon_iff, maxv_one] using h
theorem canon_one_of_bit {t : Int} (h : Wf.bit t = true) : canon t 1 = true := by
  simp only [Wf.bit, decide_eq_true_eq] at h
  exact canon_iff.2 (by rw [maxv_one]; omega)
theorem canon_boolVal (b : Bool) : canon (boolVal b) 1 = true := by cases b <;> decide
theorem canon_ityVal (k : ITy) : canon (ityVal k) 1 = true := by cases k <;> decide
theorem canon_ftyVal (k : FTy) : canon (ftyVal k) 1 = true := by cases k <;> decide
theorem canon_widthVal (k : Width) : canon (widthVal k) 1 = true := by cases k <;> decide
theorem canon_vtyVal (k : VTy) : canon (vtyVal k) 2 = true := by cases k <;> decide
theorem canon_cvtVal (k : CvtOp) : canon (cvtVal k) 2 = true := by cases k <;> decide
theorem canon_bfmtVal (k : BFmt) : canon (bfmtVal k) 2 = true := by cases k <;> decide
theorem canon_atomOpVal (k : AtomOp) : canon (atomOpVal k) 2 = true := by cases k <;> rfl
theorem canon_formVal (f : Form) : canon (formVal f) 2 = true := by cases f <;> decide
theorem canon_senseVal (t : Sense) : canon (senseVal t) 2 = true := by cases t <;> decide
theorem canon_bsOf (b : SrcImm) : canon (bsOf b) 1 = true := by cases b <;> rfl
theorem canon_rcBit (n : Option Nat) : canon (rcBit n) 1 = true := by cases n <;> rfl
theorem canon_opcValue (o : Opc) : canon o.value 6 = true := by cases o <;> decide
theorem canon_popVal (o : POp) : canon (popVal o) 5 = true := by cases o <;> decide
theorem canon_sregNum (m : SReg) : canon (sregNum m) 16 = true ∧ canon (-(sregNum m : Int)) 16 = true := by cases m <;> decide

theorem maxv_four : maxv 4 = 40 := rfl
theorem maxv_two : maxv 2 = 4 := rfl
theorem maxv_sixteen : maxv 16 = 21523360 := rfl

/-- A number of at most 40 fits the four trits of an index (R100). -/
theorem canon_four_of_le {n : Nat} (h : n ≤ 40) : canon n 4 = true := canon_iff.2 (by rw [maxv_four]; omega)
/-- A number within the immediate fits its sixteen trits (R103). -/
theorem canon_imm_of_le {n : Nat} (h : n ≤ 21523360) : canon n 16 = true := canon_iff.2 (by rw [maxv_sixteen]; omega)
theorem canon_imm_of_bounds {e b : Int} (hb : b ≤ 21523360) (h : -b ≤ e ∧ e ≤ b) : canon e 16 = true :=
  canon_iff.2 (by rw [maxv_sixteen]; omega)
/-- A value of fewer trits fits more. -/
theorem canon_mono {e : Int} {n k : Nat} (h : canon e n = true) : canon e (n + k) = true := by
  have hv := canon_iff.1 h
  have hk := maxv_nonneg k
  have hpos := pow3_pos n
  refine canon_iff.2 ?_
  rw [maxv_add]
  constructor <;> nlinarith

theorem canon_srcKind (s : Src) : canon (srcKind s) 1 = true := by cases s <;> rfl
theorem canon_srcIdx {f : Form} {b : Bool} {s : Src} (h : Wf.src f b s = true) : canon (srcIdx s) 4 = true := by
  refine canon_iff.2 ?_
  rw [maxv_four]
  cases s <;> simp only [Wf.src, srcIdx, Bool.and_eq_true, decide_eq_true_eq] at h ⊢ <;> omega
theorem canon_dstMode (d : Dst) : canon (dstMode d) 1 = true := by cases d <;> rfl
theorem canon_dstIdx {f : Form} {b : Bool} {d : Dst} (h : Wf.dst f b d = true) : canon (dstIdx d) 4 = true := by
  refine canon_iff.2 ?_
  rw [maxv_four]
  cases d <;> simp only [Wf.dst, dstIdx, Bool.and_eq_true, decide_eq_true_eq] at h ⊢ <;> omega
theorem canon_psrcKind (s : PSrc) : canon (psrcKind s) 1 = true := by cases s <;> rfl
theorem canon_psrcIdx {f : Form} {s : PSrc} (h : Wf.psrc f s = true) : canon (psrcIdx s) 2 = true := by
  refine canon_iff.2 ?_
  rw [maxv_two]
  cases s <;> simp only [Wf.psrc, psrcIdx, Bool.and_eq_true, decide_eq_true_eq] at h ⊢ <;> omega
theorem canon_grIdx {n : Nat} (h : n ≤ 26) : canon (grIdx n) 4 = true := canon_iff.2 (by rw [maxv_four, grIdx]; omega)
theorem canon_prIdx {n : Nat} (h : n ≤ 8) : canon (prIdx n) 2 = true := canon_iff.2 (by rw [maxv_two, prIdx]; omega)

/-! ### The values read back -/

@[simp] theorem ityOf_ityVal (k : ITy) : ityOf (ityVal k) = k := by cases k <;> rfl
@[simp] theorem ftyOf_ftyVal (k : FTy) : ftyOf (ftyVal k) = k := by cases k <;> rfl
@[simp] theorem widthOf_widthVal (k : Width) : widthOf (widthVal k) = k := by cases k <;> rfl
@[simp] theorem vtyOf_vtyVal (k : VTy) : vtyOf (vtyVal k) = some k := by cases k <;> rfl
@[simp] theorem cvtOf_cvtVal (k : CvtOp) : cvtOf (cvtVal k) = k := by cases k <;> rfl
@[simp] theorem bfmtOf_bfmtVal (k : BFmt) : bfmtOf (bfmtVal k) = some k := by cases k <;> rfl
@[simp] theorem boolVal_beq_one (b : Bool) : (boolVal b == 1) = b := by cases b <;> rfl
@[simp] theorem formOf_formVal (f : Form) : formOf (formVal f) = some f := by cases f <;> rfl
@[simp] theorem senseOf_senseVal (t : Sense) : senseOf (senseVal t) = some t := by cases t <;> rfl
@[simp] theorem opcOf_value (o : Opc) : opcOf o.value = some o := by cases o <;> decide
@[simp] theorem popOf_popVal (o : POp) : popOf (popVal o) = some o := by cases o <;> decide
@[simp] theorem sregOf_sregNum (m : SReg) : sregOf (sregNum m) = some m := by cases m <;> rfl
@[simp] theorem grOf_grIdx (n : Nat) : grOf (grIdx n) = n := by simp [grOf, grIdx]
@[simp] theorem prOf_prIdx (n : Nat) : prOf (prIdx n) = n := by simp [prOf, prIdx]
@[simp] theorem srcOf_srcKind_srcIdx (s : Src) : srcOf (srcKind s) (srcIdx s) = s := by cases s <;> simp [srcOf, srcKind, srcIdx]
@[simp] theorem psrcOf_psrcKind_psrcIdx (s : PSrc) : psrcOf (psrcKind s) (psrcIdx s) = s := by cases s <;> simp [psrcOf, psrcKind, psrcIdx]
/-- A G register as a source operand is named by its index (R100). -/
@[simp] theorem grOf_srcIdx_g (n : Nat) : grOf (srcIdx (.g n)) = n := by simp [grOf, srcIdx]

/-- The form decides whether a destination index names a V or a G register (R101). -/
theorem dstOf_dstMode_dstIdx {f : Form} {b : Bool} {d : Dst} (h : Wf.dst f b d = true) : dstOf f (dstMode d) (dstIdx d) = d := by
  cases d <;> cases f <;> simp_all [Wf.dst, dstOf, dstMode, dstIdx]

/-- A source of the form, of whatever width, or an immediate of sixteen trits (R103). -/
def SrcImm.Fits (f : Form) : SrcImm → Prop
  | .src s => ∃ b, Wf.src f b s = true
  | .imm i => Wf.imm i = true

/-! ### A full word's fields, built up as the encoder builds them -/

/-- The fields r are those of an instruction word with opcode o and head h: each fits its width (R98). -/
structure Carries (o : Opc) (h : Hd) (r : Raw) : Prop where
  fits : Fitting r.fields
  op : r.op = o.value
  form : r.form = formVal h.form
  pred : r.pred = prIdx h.pred
  sense : r.sense = senseVal h.sense

section
variable {o : Opc} {h : Hd} {r : Raw}

/-- The fields' widths, one by one. -/
theorem Raw.fitting_iff (r : Raw) : Fitting r.fields ↔ canon r.imm 16 = true ∧ canon r.mods 6 = true ∧ canon r.ci 4 = true ∧ canon r.ck 1 = true ∧
    canon r.bi 4 = true ∧ canon r.bk 1 = true ∧ canon r.ai 4 = true ∧ canon r.ak 1 = true ∧ canon r.di 4 = true ∧ canon r.mode 1 = true ∧
    canon r.sense 2 = true ∧ canon r.pred 2 = true ∧ canon r.op 6 = true ∧ canon r.form 2 = true := by
  simp [Fitting, Raw.fields, canon_iff]

theorem Carries.rHd (o : Opc) (hp : Wf.hd h = true) : Carries o h (rHd h o) := by
  refine ⟨(Raw.fitting_iff _).2 ?_, rfl, rfl, rfl, rfl⟩
  have hpred : h.pred ≤ 8 := by simpa [Wf.hd] using hp
  exact ⟨rfl, rfl, rfl, rfl, rfl, rfl, rfl, rfl, rfl, rfl, canon_senseVal _, canon_prIdx hpred, canon_opcValue o, canon_formVal _⟩

theorem Carries.setD (hr : Carries o h r) {f : Form} {b : Bool} {d : Dst} (hd : Wf.dst f b d = true) : Carries o h (r.setD d) := by
  obtain ⟨hfit, hop, hform, hpred, hsense⟩ := hr
  refine ⟨?_, hop, hform, hpred, hsense⟩
  simp only [Raw.fitting_iff, Raw.setD, canon_dstMode, canon_dstIdx hd] at hfit ⊢
  tauto

theorem Carries.setDi (hr : Carries o h r) {i : Int} (hi : canon i 4 = true) : Carries o h { r with di := i } := by
  obtain ⟨hfit, hop, hform, hpred, hsense⟩ := hr
  refine ⟨?_, hop, hform, hpred, hsense⟩
  simp only [Raw.fitting_iff, hi] at hfit ⊢
  tauto

theorem Carries.setGD (hr : Carries o h r) {n : Nat} (hn : n ≤ 26) : Carries o h (r.setGD n) := hr.setDi (canon_grIdx hn)

theorem Carries.setPD (hr : Carries o h r) {n : Nat} (hn : Wf.pdst n = true) : Carries o h (r.setPD n) := by
  have hle : n ≤ 8 := by simp only [Wf.pdst, decide_eq_true_eq] at hn; omega
  exact hr.setDi (canon_mono (k := 2) (canon_prIdx hle))

theorem Carries.setAi (hr : Carries o h r) {k i : Int} (hk : canon k 1 = true) (hi : canon i 4 = true) : Carries o h { r with ak := k, ai := i } := by
  obtain ⟨hfit, hop, hform, hpred, hsense⟩ := hr
  refine ⟨?_, hop, hform, hpred, hsense⟩
  simp only [Raw.fitting_iff, hi, hk] at hfit ⊢
  tauto

theorem Carries.setBi (hr : Carries o h r) {k i : Int} (hk : canon k 1 = true) (hi : canon i 4 = true) : Carries o h { r with bk := k, bi := i } := by
  obtain ⟨hfit, hop, hform, hpred, hsense⟩ := hr
  refine ⟨?_, hop, hform, hpred, hsense⟩
  simp only [Raw.fitting_iff, hi, hk] at hfit ⊢
  tauto

theorem Carries.setCi (hr : Carries o h r) {k i : Int} (hk : canon k 1 = true) (hi : canon i 4 = true) : Carries o h { r with ck := k, ci := i } := by
  obtain ⟨hfit, hop, hform, hpred, hsense⟩ := hr
  refine ⟨?_, hop, hform, hpred, hsense⟩
  simp only [Raw.fitting_iff, hi, hk] at hfit ⊢
  tauto

theorem Carries.setA (hr : Carries o h r) {f : Form} {b : Bool} {s : Src} (hs : Wf.src f b s = true) : Carries o h (r.setA s) :=
  hr.setAi (canon_srcKind s) (canon_srcIdx hs)
theorem Carries.setB (hr : Carries o h r) {f : Form} {b : Bool} {s : Src} (hs : Wf.src f b s = true) : Carries o h (r.setB s) :=
  hr.setBi (canon_srcKind s) (canon_srcIdx hs)
theorem Carries.setC (hr : Carries o h r) {f : Form} {b : Bool} {s : Src} (hs : Wf.src f b s = true) : Carries o h (r.setC s) :=
  hr.setCi (canon_srcKind s) (canon_srcIdx hs)
theorem Carries.setPA (hr : Carries o h r) {f : Form} {s : PSrc} (hs : Wf.psrc f s = true) : Carries o h (r.setPA s) :=
  hr.setAi (canon_psrcKind s) (canon_mono (k := 2) (canon_psrcIdx hs))
theorem Carries.setPB (hr : Carries o h r) {f : Form} {s : PSrc} (hs : Wf.psrc f s = true) : Carries o h (r.setPB s) :=
  hr.setBi (canon_psrcKind s) (canon_mono (k := 2) (canon_psrcIdx hs))

/-- A G register is a source of either form (R100). -/
theorem Wf.src_g {n : Nat} (hn : n ≤ 26) : Wf.src .group false (.g n) = true := by simp [Wf.src, hn]

theorem Carries.setGA (hr : Carries o h r) {n : Nat} (hn : n ≤ 26) : Carries o h (r.setA (.g n)) := hr.setA (Wf.src_g hn)
theorem Carries.setGB (hr : Carries o h r) {n : Nat} (hn : n ≤ 26) : Carries o h (r.setB (.g n)) := hr.setB (Wf.src_g hn)
theorem Carries.setGC (hr : Carries o h r) {n : Nat} (hn : n ≤ 26) : Carries o h (r.setC (.g n)) := hr.setC (Wf.src_g hn)

theorem Carries.setI (hr : Carries o h r) {i : Int} (hi : canon i 16 = true) : Carries o h (r.setI i) := by
  obtain ⟨hfit, hop, hform, hpred, hsense⟩ := hr
  refine ⟨?_, hop, hform, hpred, hsense⟩
  simp only [Raw.fitting_iff, Raw.setI, hi] at hfit ⊢
  tauto

theorem Carries.setM (hr : Carries o h r) {l : List (Nat × Int)} (hl : Fitting l) (hw : (l.map fun p => p.1).sum = 6) : Carries o h (r.setM l) := by
  obtain ⟨hfit, hop, hform, hpred, hsense⟩ := hr
  refine ⟨?_, hop, hform, hpred, hsense⟩
  have hm : canon (pack l) 6 = true := hw ▸ hl.canon_pack
  simp only [Raw.fitting_iff, Raw.setM, hm] at hfit ⊢
  tauto

theorem Carries.setBI (hr : Carries o h r) {s : SrcImm} (hs : s.Fits h.form) : Carries o h (r.setBI s) := by
  cases s with
  | src s =>
    obtain ⟨b, hs⟩ := hs
    exact hr.setB hs
  | imm i => exact hr.setI hs

theorem Wf.le_of_gp {n : Nat} (h : Wf.gp n = true) : n ≤ 24 := by
  simp only [Wf.gp, Bool.and_eq_true, decide_eq_true_eq] at h
  exact h.2
theorem Wf.le_of_gr {n : Nat} (h : Wf.gr n = true) : n ≤ 26 := by simpa [Wf.gr] using h
theorem Wf.gr_of_gp {n : Nat} (h : Wf.gp n = true) : n ≤ 26 := by have := Wf.le_of_gp h; omega

/-- What an address operand's check says (R341). -/
theorem Wf.addr_iff {f : Form} {a : Addr} :
    Wf.addr f a = true ↔ Wf.gp a.base = true ∧ Wf.src f false a.off = true ∧ a.scale ≤ 4 ∧ Wf.imm a.e = true := by
  simp [Wf.addr, and_assoc]

theorem Carries.setAddr (hr : Carries o h r) {f : Form} {a : Addr} (ha : Wf.addr f a = true) : Carries o h (r.setAddr a) := by
  obtain ⟨hbase, hoff, -, himm⟩ := Wf.addr_iff.1 ha
  exact ((hr.setGA (Wf.gr_of_gp hbase)).setB hoff).setI himm

theorem Carries.setRc (hr : Carries o h r) {n : Option Nat} (hn : Wf.rc n = true) : Carries o h (r.setRc n) := by
  cases n with
  | none => exact hr
  | some n =>
    have hle : n ≤ 40 := by simp only [Wf.rc, decide_eq_true_eq] at hn; omega
    have hck : canon r.ck 1 = true := by have := (Raw.fitting_iff r).1 hr.fits; tauto
    exact hr.setCi hck (canon_four_of_le hle)

end

/-! ### Modifiers read back -/

section
variable {r : Raw} {a b c d e f : Int}

theorem mInt_eq (hm : r.mods = pack [(1, a), (1, b), (1, c), (1, d), (1, e), (1, f)])
    (hl : Fitting [(1, a), (1, b), (1, c), (1, d), (1, e), (1, f)]) : mInt r = (a, b, c, d, e, f) := by
  have hu : unpack [1, 1, 1, 1, 1, 1] r.mods = [a, b, c, d, e, f] := hm ▸ unpack_pack _ hl
  simp only [mInt, hu]

theorem mCmp_eq (hm : r.mods = pack [(1, a), (1, b), (1, c), (1, d), (2, e)]) (hl : Fitting [(1, a), (1, b), (1, c), (1, d), (2, e)]) :
    mCmp r = (a, b, c, d, e) := by
  have hu : unpack [1, 1, 1, 1, 2] r.mods = [a, b, c, d, e] := hm ▸ unpack_pack _ hl
  simp only [mCmp, hu]

theorem mMem_eq (hm : r.mods = pack [(1, a), (2, b), (1, c), (1, d), (1, e)]) (hl : Fitting [(1, a), (2, b), (1, c), (1, d), (1, e)]) :
    mMem r = (a, b, c, d, e) := by
  have hu : unpack [1, 2, 1, 1, 1] r.mods = [a, b, c, d, e] := hm ▸ unpack_pack _ hl
  simp only [mMem, hu]

theorem mTop_eq (hm : r.mods = pack [(5, 0), (1, a)]) (ha : canon a 1 = true) : mTop r = a := by
  have hu : unpack [5, 1] r.mods = [0, a] := hm ▸ unpack_pack _ (.cons (canon_zero 5) (.cons ha .nil))
  simp only [mTop, hu]

theorem mSync_eq (hm : r.mods = pack [(2, 0), (2, a), (2, b)]) (ha : canon a 2 = true) (hb : canon b 2 = true) : mSync r = (a, b) := by
  have hu : unpack [2, 2, 2] r.mods = [0, a, b] := hm ▸ unpack_pack _ (.cons (canon_zero 2) (.cons ha (.cons hb .nil)))
  simp only [mSync, hu]

end

/-! ### From the fields to the instruction -/

/-- The form stands in the two highest trits of the 54 (R96). -/
theorem field_form_eq (w : Int) : (readRaw w).form = field w 53 52 := by
  simp only [readRaw, unpack, shr_shr, field]

theorem parseWord_writeRaw {o : Opc} {h : Hd} {r : Raw} {i : Instr} (hr : Carries o h r) (hp : parse o h r = some i) :
    parseWord (writeRaw r) = .ok i := by
  have hread := readRaw_writeRaw r hr.fits
  have hform : field (writeRaw r) 53 52 = formVal h.form := by rw [← field_form_eq, hread, hr.form]
  have hpair : formVal h.form ≠ -4 := by cases h.form <;> decide
  unfold parseWord
  simp only [hform, hread, hr.sense, hr.op, hr.pred, if_neg hpair, formOf_formVal, senseOf_senseVal, opcOf_value, prOf_prIdx]
  rw [show (⟨h.form, h.pred, h.sense⟩ : Hd) = h from rfl, hp]

/-- The instruction's fields carry it: parsing them gives it back. -/
def Parses (i : Instr) : Prop := ∃ o h r, encRaw i = some r ∧ Carries o h r ∧ parse o h r = some i

end Sys2Proof
end

section
/-! ## Certificates: each encoded word parses to its instruction (R111 to R122) -/

namespace Sys2Proof

open Tern

/-! ### The heads of the two forms -/

theorem Wf.hv_iff {h : Hd} : Wf.hv h = true ↔ h.form = .vector ∧ Wf.hd h = true := by simp [Wf.hv]
theorem Wf.hg_iff {h : Hd} : Wf.hg h = true ↔ h.form = .group ∧ Wf.hd h = true := by simp [Wf.hg]

/-! ### The modifier fields of the classes (R115 to R118) -/

section
variable {a b c d e f : Int}

theorem fitting_int (ha : canon a 1 = true) (hb : canon b 1 = true) (hc : canon c 1 = true) (hd : canon d 1 = true) (he : canon e 1 = true)
    (hf : canon f 1 = true) : Fitting [(1, a), (1, b), (1, c), (1, d), (1, e), (1, f)] :=
  .cons ha (.cons hb (.cons hc (.cons hd (.cons he (.cons hf .nil)))))

theorem fitting_cmp (ha : canon a 1 = true) (hb : canon b 1 = true) (hc : canon c 1 = true) (hd : canon d 1 = true) (he : canon e 2 = true) :
    Fitting [(1, a), (1, b), (1, c), (1, d), (2, e)] := .cons ha (.cons hb (.cons hc (.cons hd (.cons he .nil))))

theorem fitting_mem (ha : canon a 1 = true) (hb : canon b 2 = true) (hc : canon c 1 = true) (hd : canon d 1 = true) (he : canon e 1 = true) :
    Fitting [(1, a), (2, b), (1, c), (1, d), (1, e)] := .cons ha (.cons hb (.cons hc (.cons hd (.cons he .nil))))

theorem fitting_top (ha : canon a 1 = true) : Fitting [(5, 0), (1, a)] := .cons (canon_zero 5) (.cons ha .nil)
theorem fitting_sync (ha : canon a 2 = true) (hb : canon b 2 = true) : Fitting [(2, 0), (2, a), (2, b)] :=
  .cons (canon_zero 2) (.cons ha (.cons hb .nil))

end

section
variable {o : Opc} {h : Hd} {r : Raw} {a b c d e : Int}

theorem Carries.setMC (hr : Carries o h r) (hf : Fitting [(1, a), (1, b), (1, c), (1, d), (2, e)]) : Carries o h (r.setMC a b c d e) := hr.setM hf rfl
theorem Carries.setMM (hr : Carries o h r) (hf : Fitting [(1, a), (2, b), (1, c), (1, d), (1, e)]) : Carries o h (r.setMM a b c d e) := hr.setM hf rfl
theorem Carries.setTop (hr : Carries o h r) (ha : canon a 1 = true) : Carries o h (r.setTop a) := hr.setM (fitting_top ha) rfl

end

/-! ### Integer words (R115) -/

theorem Wf.srcImm_fits {f : Form} {ty : ITy} {s : SrcImm} (hs : Wf.srcImm f ty s = true) : s.Fits f := by
  cases s with
  | src s => exact ⟨_, hs⟩
  | imm i =>
    simp only [Wf.srcImm, Wf.intImm, Bool.and_eq_true] at hs
    exact hs.1

/-- B, or the immediate in its place, is read back (R115). -/
theorem srcImm_setBI (r : Raw) (s : SrcImm) :
    (if bsOf s = 1 then SrcImm.imm (r.setBI s).imm else .src (srcOf (r.setBI s).bk (r.setBI s).bi)) = s := by
  cases s <;> simp [bsOf, Raw.setBI, Raw.setB, Raw.setI]

theorem Raw.setBI_others (r : Raw) (s : SrcImm) :
    (r.setBI s).mods = r.mods ∧ (r.setBI s).mode = r.mode ∧ (r.setBI s).di = r.di ∧ (r.setBI s).ak = r.ak ∧ (r.setBI s).ai = r.ai := by
  cases s <;> simp [Raw.setBI, Raw.setB, Raw.setI]

section
variable {o : Opc} {h : Hd} {ty : ITy} {sat te bs sel : Int} {dst : Dst} {a : Src}

theorem fitting_encI (hsat : Wf.tr sat = true) (hte : Wf.tr te = true) (hbs : canon bs 1 = true) (hsel : canon sel 1 = true) :
    Fitting [(1, sel), (1, 0), (1, bs), (1, te), (1, sat), (1, ityVal ty)] :=
  fitting_int hsel (canon_zero 1) hbs (canon_one_of_tr hte) (canon_one_of_tr hsat) (canon_ityVal ty)

theorem carries_encI (hh : Wf.hd h = true) (hf : Fitting [(1, sel), (1, 0), (1, bs), (1, te), (1, sat), (1, ityVal ty)])
    (hd : Wf.dst h.form (ty == .d) dst = true) (ha : Wf.src h.form (ty == .d) a = true) : Carries o h (encI h o ty sat te bs sel dst a) :=
  (((Carries.rHd o hh).setM hf rfl).setD hd).setA ha

end

section
variable {o : Opc}

theorem parses_i1 {c : I1 → Instr} {x : I1} (hx : Wf.i1 x = true) (henc : encRaw (c x) = some (encI1 o x))
    (hparse : ∀ h r, parse o h r = some (c (pI1 h r))) : Parses (c x) := by
  simp only [Wf.i1, Bool.and_eq_true, and_assoc] at hx
  obtain ⟨hh, hsat, hte, hd, ha⟩ := hx
  have hf := fitting_encI (ty := x.ty) hsat hte (canon_zero 1) (canon_zero 1)
  refine ⟨o, x.hd, _, henc, carries_encI hh hf hd ha, ?_⟩
  have hm : mInt (encI1 o x) = _ := mInt_eq rfl hf
  rw [hparse, pI1, hm]
  simp [encI1, encI, Raw.setA, Raw.setD, dstOf_dstMode_dstIdx hd]

theorem parses_i2 {c : I2 → Instr} {x : I2} (hx : Wf.i2 true x = true) (henc : encRaw (c x) = some (encI2 o x))
    (hparse : ∀ h r, parse o h r = some (c (pI2 h r))) : Parses (c x) := by
  simp only [Wf.i2, Bool.and_eq_true, and_assoc] at hx
  obtain ⟨hh, hsat, hte, hd, ha, hb, -⟩ := hx
  have hf := fitting_encI (ty := x.ty) hsat hte (canon_bsOf x.b) (canon_zero 1)
  refine ⟨o, x.hd, _, henc, (carries_encI hh hf hd ha).setBI (Wf.srcImm_fits hb), ?_⟩
  obtain ⟨hmods, hmode, hdi, hak, hai⟩ := (encI x.hd o x.ty x.sat x.te (bsOf x.b) 0 x.d x.a).setBI_others x.b
  have hm : mInt (encI2 o x) = _ := mInt_eq (by rw [encI2, hmods]; rfl) hf
  rw [hparse, pI2, hm]
  simp only [encI2, hmode, hdi, hak, hai, srcImm_setBI]
  simp [encI, Raw.setA, Raw.setD, dstOf_dstMode_dstIdx hd]

theorem parses_i3 {c : I3 → Instr} {x : I3} (hx : Wf.i3 x = true) (henc : encRaw (c x) = some (encI3 o x))
    (hparse : ∀ h r, parse o h r = some (c (pI3 h r))) : Parses (c x) := by
  simp only [Wf.i3, Bool.and_eq_true, and_assoc] at hx
  obtain ⟨hh, hsat, hte, hd, ha, hb, hc⟩ := hx
  have hf := fitting_encI (ty := x.ty) hsat hte (canon_zero 1) (canon_zero 1)
  refine ⟨o, x.hd, _, henc, ((carries_encI hh hf hd ha).setB hb).setC hc, ?_⟩
  have hm : mInt (encI3 o x) = _ := mInt_eq rfl hf
  rw [hparse, pI3, hm]
  simp [encI3, encI, Raw.setA, Raw.setB, Raw.setC, Raw.setD, dstOf_dstMode_dstIdx hd]

end

theorem parses_tcnt {x : ICnt} (hx : (Instr.tcnt x).wf = true) : Parses (.tcnt x) := by
  simp only [Instr.wf, Bool.and_eq_true, and_assoc] at hx
  obtain ⟨hh, hsat, hte, hsel, hd, ha⟩ := hx
  have hf := fitting_encI (ty := x.ty) hsat hte (canon_zero 1) (canon_one_of_tr hsel)
  refine ⟨.tcnt, x.hd, _, rfl, carries_encI hh hf hd ha, ?_⟩
  have hm : mInt (encI x.hd .tcnt x.ty x.sat x.te 0 x.sel x.d x.a) = _ := mInt_eq rfl hf
  simp only [parse, pICnt, hm]
  simp [encI, Raw.setA, Raw.setD, dstOf_dstMode_dstIdx hd]

theorem parses_tmap {x : ITab1} (hx : (Instr.tmap x).wf = true) : Parses (.tmap x) := by
  simp only [Instr.wf, Bool.and_eq_true, and_assoc] at hx
  obtain ⟨hh, hsat, hte, hd, ha, htbl⟩ := hx
  have hf := fitting_encI (ty := x.ty) hsat hte (canon_zero 1) (canon_zero 1)
  refine ⟨.tmap, x.hd, _, rfl, (carries_encI hh hf hd ha).setI (canon_mono (k := 13) htbl), ?_⟩
  have hm : mInt ((encI x.hd .tmap x.ty x.sat x.te 0 0 x.d x.a).setI x.tbl) = _ := mInt_eq rfl hf
  simp only [parse, pITab1, hm]
  simp [encI, Raw.setA, Raw.setD, Raw.setI, dstOf_dstMode_dstIdx hd]

theorem parses_tbin {x : ITab2} (hx : (Instr.tbin x).wf = true) : Parses (.tbin x) := by
  simp only [Instr.wf, Bool.and_eq_true, and_assoc] at hx
  obtain ⟨hh, hsat, hte, hd, ha, hb, htbl⟩ := hx
  have hf := fitting_encI (ty := x.ty) hsat hte (canon_zero 1) (canon_zero 1)
  refine ⟨.tbin, x.hd, _, rfl, ((carries_encI hh hf hd ha).setB hb).setI (canon_mono (k := 7) htbl), ?_⟩
  have hm : mInt (((encI x.hd .tbin x.ty x.sat x.te 0 0 x.d x.a).setB x.b).setI x.tbl) = _ := mInt_eq rfl hf
  simp only [parse, pITab2, hm]
  simp [encI, Raw.setA, Raw.setB, Raw.setD, Raw.setI, dstOf_dstMode_dstIdx hd]

/-! ### Floating words (R116) -/

section
variable {o : Opc} {h : Hd} {ty : FTy} {fzi fzo te cs : Int} {dst : Dst} {a : Src}

theorem fitting_encF (hfzi : Wf.bit fzi = true) (hfzo : Wf.bit fzo = true) (hte : Wf.tr te = true) (hcs : canon cs 1 = true) :
    Fitting [(1, 0), (1, cs), (1, te), (1, fzo), (1, fzi), (1, ftyVal ty)] :=
  fitting_int (canon_zero 1) hcs (canon_one_of_tr hte) (canon_one_of_bit hfzo) (canon_one_of_bit hfzi) (canon_ftyVal ty)

theorem carries_encF (hh : Wf.hd h = true) (hf : Fitting [(1, 0), (1, cs), (1, te), (1, fzo), (1, fzi), (1, ftyVal ty)])
    (hd : Wf.dst h.form false dst = true) (ha : Wf.src h.form false a = true) : Carries o h (encF h o ty fzi fzo te cs dst a) :=
  (((Carries.rHd o hh).setM hf rfl).setD hd).setA ha

theorem parses_f1 {c : F1 → Instr} {x : F1} (hx : Wf.f1 x = true) (henc : encRaw (c x) = some (encF1 o x))
    (hparse : ∀ h r, parse o h r = some (c (pF1 h r))) : Parses (c x) := by
  simp only [Wf.f1, Bool.and_eq_true, and_assoc] at hx
  obtain ⟨hh, hfzi, hfzo, hte, hd, ha⟩ := hx
  have hf := fitting_encF (ty := x.ty) hfzi hfzo hte (canon_zero 1)
  refine ⟨o, x.hd, _, henc, carries_encF hh hf hd ha, ?_⟩
  have hm : mInt (encF1 o x) = _ := mInt_eq rfl hf
  rw [hparse, pF1, hm]
  simp [encF1, encF, Raw.setA, Raw.setD, dstOf_dstMode_dstIdx hd]

theorem parses_f2 {c : F2 → Instr} {x : F2} (hx : Wf.f2 x = true) (henc : encRaw (c x) = some (encF2 o x))
    (hparse : ∀ h r, parse o h r = some (c (pF2 h r))) : Parses (c x) := by
  simp only [Wf.f2, Bool.and_eq_true, and_assoc] at hx
  obtain ⟨hh, hfzi, hfzo, hte, hd, ha, hb⟩ := hx
  have hf := fitting_encF (ty := x.ty) hfzi hfzo hte (canon_zero 1)
  refine ⟨o, x.hd, _, henc, (carries_encF hh hf hd ha).setB hb, ?_⟩
  have hm : mInt (encF2 o x) = _ := mInt_eq rfl hf
  rw [hparse, pF2, hm]
  simp [encF2, encF, Raw.setA, Raw.setB, Raw.setD, dstOf_dstMode_dstIdx hd]

end

theorem parses_fma {x : F3} (hx : (Instr.fma x).wf = true) : Parses (.fma x) := by
  simp only [Instr.wf, Bool.and_eq_true, and_assoc] at hx
  obtain ⟨hh, hfzi, hfzo, hte, hd, ha, hb, hc⟩ := hx
  have hf := fitting_encF (ty := x.ty) hfzi hfzo hte (canon_zero 1)
  refine ⟨.fma, x.hd, _, rfl, ((carries_encF hh hf hd ha).setB hb).setC hc, ?_⟩
  have hm : mInt (((encF x.hd .fma x.ty x.fzi x.fzo x.te 0 x.d x.a).setB x.b).setC x.c) = _ := mInt_eq rfl hf
  simp only [parse, pF3, hm]
  simp [encF, Raw.setA, Raw.setB, Raw.setC, Raw.setD, dstOf_dstMode_dstIdx hd]

theorem parses_fscl {x : FScl} (hx : (Instr.fscl x).wf = true) : Parses (.fscl x) := by
  simp only [Instr.wf, Bool.and_eq_true, and_assoc] at hx
  obtain ⟨hh, hfzi, hfzo, hte, hd, ha, hk⟩ := hx
  have hf := fitting_encF (ty := x.ty) hfzi hfzo hte (canon_bsOf x.k)
  have hfit : x.k.Fits x.hd.form := by
    cases hx : x.k with
    | src s => exact ⟨false, by simpa [hx] using hk⟩
    | imm i =>
      rw [hx] at hk
      exact hk
  refine ⟨.fscl, x.hd, _, rfl, (carries_encF hh hf hd ha).setBI hfit, ?_⟩
  obtain ⟨hmods, hmode, hdi, hak, hai⟩ := (encF x.hd .fscl x.ty x.fzi x.fzo x.te (bsOf x.k) x.d x.a).setBI_others x.k
  have hm : mInt ((encF x.hd .fscl x.ty x.fzi x.fzo x.te (bsOf x.k) x.d x.a).setBI x.k) = _ := mInt_eq (by rw [hmods]; rfl) hf
  simp only [parse, pFScl, hm, hmode, hdi, hak, hai, srcImm_setBI]
  simp [encF, Raw.setA, Raw.setD, dstOf_dstMode_dstIdx hd]

theorem parses_frnd {x : FRnd} (hx : (Instr.frnd x).wf = true) : Parses (.frnd x) := by
  simp only [Instr.wf, Bool.and_eq_true, decide_eq_true_eq, and_assoc] at hx
  obtain ⟨hh, hfzi, hfzo, hte, hd, ha, hlo, hhi⟩ := hx
  have hf := fitting_encF (ty := x.ty) hfzi hfzo hte (canon_zero 1)
  refine ⟨.frnd, x.hd, _, rfl, (carries_encF hh hf hd ha).setI (canon_imm_of_bounds (b := 364) (by decide) ⟨hlo, hhi⟩), ?_⟩
  have hm : mInt ((encF x.hd .frnd x.ty x.fzi x.fzo x.te 0 x.d x.a).setI x.pos) = _ := mInt_eq rfl hf
  simp only [parse, pFRnd, hm]
  simp [encF, Raw.setA, Raw.setD, Raw.setI, dstOf_dstMode_dstIdx hd]

/-! ### Comparisons, selections and lane words (R117) -/

theorem canon_ityVal_two (k : ITy) : canon (ityVal k) 2 = true := canon_mono (k := 1) (canon_ityVal k)
theorem canon_boolVal_two (b : Bool) : canon (boolVal b) 2 = true := canon_mono (k := 1) (canon_boolVal b)

theorem parses_fcmp {x : FCmp} (hx : (Instr.fcmp x).wf = true) : Parses (.fcmp x) := by
  simp only [Instr.wf, Bool.and_eq_true, and_assoc] at hx
  obtain ⟨hh, hfzi, hte, hp, ha, hb, hu⟩ := hx
  have hu16 := canon_mono (k := 15) (canon_one_of_tr hu)
  obtain ⟨hd, ty, fzi, te, pd, a, b, u⟩ := x
  cases ty
  case f9 =>
    have hf := fitting_cmp (e := -3) (canon_one_of_tr hte) (canon_zero 1) (canon_one_of_bit hfzi) (canon_zero 1) rfl
    refine ⟨.fcmp, hd, _, rfl, (((((Carries.rHd _ hh).setMC hf).setPD hp).setA ha).setB hb).setI hu16, ?_⟩
    have hm : mCmp ((((((rHd hd .fcmp).setMC te 0 fzi 0 (-3)).setPD pd).setA a).setB b).setI u) = _ := mCmp_eq rfl hf
    simp only [parse, pFCmp, hm]
    simp [Raw.setA, Raw.setB, Raw.setPD, Raw.setI]
  case f27 =>
    have hf := fitting_cmp (e := 3) (canon_one_of_tr hte) (canon_zero 1) (canon_one_of_bit hfzi) (canon_zero 1) rfl
    refine ⟨.fcmp, hd, _, rfl, (((((Carries.rHd _ hh).setMC hf).setPD hp).setA ha).setB hb).setI hu16, ?_⟩
    have hm : mCmp ((((((rHd hd .fcmp).setMC te 0 fzi 0 3).setPD pd).setA a).setB b).setI u) = _ := mCmp_eq rfl hf
    simp only [parse, pFCmp, hm]
    simp [Raw.setA, Raw.setB, Raw.setPD, Raw.setI]

theorem parses_cmp {x : Cmp} (hx : (Instr.cmp x).wf = true) : Parses (.cmp x) := by
  simp only [Instr.wf, Bool.and_eq_true, and_assoc] at hx
  obtain ⟨hh, hsat, hte, hp, ha, hb⟩ := hx
  have hf := fitting_cmp (canon_one_of_tr hte) (canon_zero 1) (canon_one_of_tr hsat) (canon_bsOf x.b) (canon_ityVal_two x.ty)
  refine ⟨.cmp, x.hd, _, rfl, ((((Carries.rHd _ hh).setMC hf).setPD hp).setA ha).setBI (Wf.srcImm_fits hb), ?_⟩
  obtain ⟨hmods, -, hdi, hak, hai⟩ := ((((rHd x.hd .cmp).setMC x.te 0 x.sat (bsOf x.b) (ityVal x.ty)).setPD x.pd).setA x.a).setBI_others x.b
  have hm : mCmp (((((rHd x.hd .cmp).setMC x.te 0 x.sat (bsOf x.b) (ityVal x.ty)).setPD x.pd).setA x.a).setBI x.b) = _ := mCmp_eq (by rw [hmods]; rfl) hf
  simp only [parse, pCmp, hm, hdi, hak, hai, srcImm_setBI]
  simp [Raw.setA, Raw.setPD]

theorem canon_pack_psrc {f : Form} {s : PSrc} (hs : Wf.psrc f s = true) : Fitting [(2, psrcIdx s), (14, psrcKind s)] :=
  .cons (canon_psrcIdx hs) (.cons (canon_mono (k := 13) (canon_psrcKind s)) .nil)

theorem parses_sel {x : Sel} (hx : (Instr.sel x).wf = true) : Parses (.sel x) := by
  simp only [Instr.wf, Bool.and_eq_true, and_assoc] at hx
  obtain ⟨hh, hsat, hte, hd, ha, hb, hc, hp⟩ := hx
  have hf := fitting_cmp (canon_one_of_tr hte) (canon_zero 1) (canon_one_of_tr hsat) (canon_zero 1) (canon_boolVal_two x.dbl)
  have hq := canon_pack_psrc hp
  refine ⟨.sel, x.hd, _, rfl, ((((((Carries.rHd _ hh).setMC hf).setD hd).setA ha).setB hb).setC hc).setI hq.canon_pack, ?_⟩
  have hm : mCmp (((((((rHd x.hd .sel).setMC x.te 0 x.sat 0 (boolVal x.dbl)).setD x.d).setA x.a).setB x.b).setC x.c).setI
    (pack [(2, psrcIdx x.p), (14, psrcKind x.p)])) = _ := mCmp_eq rfl hf
  have hu : unpack [2, 14] (pack [(2, psrcIdx x.p), (14, psrcKind x.p)]) = [psrcIdx x.p, psrcKind x.p] := unpack_pack _ hq
  simp only [parse, pSel, hm]
  simp only [Raw.setI, hu]
  have hps : (if psrcKind x.p = 1 then PSrc.q (prOf (psrcIdx x.p)) else .p (prOf (psrcIdx x.p))) = x.p := psrcOf_psrcKind_psrcIdx x.p
  simp [Raw.setA, Raw.setB, Raw.setC, Raw.setD, dstOf_dstMode_dstIdx hd, hps]

section
variable {te : Int}

/-- The modifiers of the words whose one modifier is the trap enable (R117). -/
theorem fitting_te (hte : Wf.tr te = true) : Fitting [(1, te), (1, 0), (1, 0), (1, 0), (2, 0)] :=
  fitting_cmp (canon_one_of_tr hte) (canon_zero 1) (canon_zero 1) (canon_zero 1) (canon_zero 2)

end

theorem parses_pset {x : PSet} (hx : (Instr.pset x).wf = true) : Parses (.pset x) := by
  simp only [Instr.wf, Bool.and_eq_true, decide_eq_true_eq, and_assoc] at hx
  obtain ⟨hh, hte, hp, ha, hhi, hlo⟩ := hx
  have hj : canon x.j 16 = true := canon_imm_of_bounds (b := 26) (by decide) ⟨by split at hlo <;> omega, hhi⟩
  have hf := fitting_te hte
  refine ⟨.pset, x.hd, _, rfl, ((((Carries.rHd _ hh).setMC hf).setPD hp).setA ha).setI hj, ?_⟩
  have hm : mCmp (((((rHd x.hd .pset).setMC x.te 0 0 0 0).setPD x.pd).setA x.a).setI x.j) = _ := mCmp_eq rfl hf
  simp only [parse, pPSet, hm]
  simp [Raw.setA, Raw.setPD, Raw.setI]

theorem parses_ptbl {x : PTbl} (hx : (Instr.ptbl x).wf = true) : Parses (.ptbl x) := by
  simp only [Instr.wf, Bool.and_eq_true, and_assoc] at hx
  obtain ⟨hh, hte, hp, ha, hb, htbl⟩ := hx
  have hf := fitting_te hte
  refine ⟨.ptbl, x.hd, _, rfl, (((((Carries.rHd _ hh).setMC hf).setPD hp).setPA ha).setPB hb).setI (canon_mono (k := 7) htbl), ?_⟩
  have hm : mCmp ((((((rHd x.hd .ptbl).setMC x.te 0 0 0 0).setPD x.pd).setPA x.a).setPB x.b).setI x.tbl) = _ := mCmp_eq rfl hf
  simp only [parse, pPTbl, hm]
  simp [Raw.setPA, Raw.setPB, Raw.setPD, Raw.setI]

theorem parses_pred {o : Opc} {c : PRed → Instr} {x : PRed}
    (hx : (Wf.hv x.hd && Wf.tr x.te && Wf.pdst x.qd && Wf.psrc .vector x.a) = true)
    (henc : encRaw (c x) = some ((((rHd x.hd o).setMC x.te 0 0 0 0).setPD x.qd).setPA x.a))
    (hparse : ∀ h r, parse o h r = some (c (pPRed h r))) : Parses (c x) := by
  simp only [Bool.and_eq_true, Wf.hv_iff, and_assoc] at hx
  obtain ⟨-, hh, hte, hp, ha⟩ := hx
  have hf := fitting_te hte
  refine ⟨o, x.hd, _, henc, (((Carries.rHd _ hh).setMC hf).setPD hp).setPA ha, ?_⟩
  have hm : mCmp ((((rHd x.hd o).setMC x.te 0 0 0 0).setPD x.qd).setPA x.a) = _ := mCmp_eq rfl hf
  rw [hparse, pPRed, hm]
  simp [Raw.setPA, Raw.setPD]

theorem parses_pcnt {x : PCnt} (hx : (Instr.pcnt x).wf = true) : Parses (.pcnt x) := by
  simp only [Instr.wf, Bool.and_eq_true, Wf.hv_iff, and_assoc] at hx
  obtain ⟨hv, hh, hte, hd, ha, hc⟩ := hx
  have hf := fitting_te hte
  refine ⟨.pcnt, x.hd, _, rfl, ((((Carries.rHd _ hh).setMC hf).setD hd).setPA ha).setI (canon_mono (k := 15) (canon_one_of_tr hc)), ?_⟩
  have hm : mCmp (((((rHd x.hd .pcnt).setMC x.te 0 0 0 0).setD x.d).setPA x.a).setI x.c) = _ := mCmp_eq rfl hf
  simp only [parse, pPCnt, hm]
  simp [Raw.setPA, Raw.setD, Raw.setI, hv, dstOf_dstMode_dstIdx hd]

theorem parses_shfl {x : Shfl} (hx : (Instr.shfl x).wf = true) : Parses (.shfl x) := by
  simp only [Instr.wf, Bool.and_eq_true, Wf.hv_iff, decide_eq_true_eq, and_assoc] at hx
  obtain ⟨hv, hh, hsat, hte, hd, ha, hb, hoff⟩ := hx
  have hf := fitting_cmp (canon_one_of_tr hte) (canon_zero 1) (canon_one_of_tr hsat) (canon_zero 1) (canon_boolVal_two x.dbl)
  refine ⟨.shfl, x.hd, _, rfl, (((((Carries.rHd _ hh).setMC hf).setD hd).setA ha).setB hb).setI (canon_imm_of_bounds (by decide) hoff), ?_⟩
  have hm : mCmp ((((((rHd x.hd .shfl).setMC x.te 0 x.sat 0 (boolVal x.dbl)).setD x.d).setA x.a).setB x.b).setI x.off) = _ := mCmp_eq rfl hf
  simp only [parse, pShfl, hm]
  simp [Raw.setA, Raw.setB, Raw.setD, Raw.setI, hv, dstOf_dstMode_dstIdx hd]

theorem parses_bcst {x : Bcst} (hx : (Instr.bcst x).wf = true) : Parses (.bcst x) := by
  simp only [Instr.wf, Bool.and_eq_true, Wf.hv_iff, decide_eq_true_eq, and_assoc] at hx
  obtain ⟨hv, hh, hsat, hte, hd, ha, hlo, hhi⟩ := hx
  have hf := fitting_cmp (canon_one_of_tr hte) (canon_zero 1) (canon_one_of_tr hsat) (canon_zero 1) (canon_boolVal_two x.dbl)
  have hl : canon x.lane 16 = true := canon_imm_of_bounds (b := 26) (by decide) (by omega)
  refine ⟨.bcst, x.hd, _, rfl, ((((Carries.rHd _ hh).setMC hf).setD hd).setA ha).setI hl, ?_⟩
  have hm : mCmp (((((rHd x.hd .bcst).setMC x.te 0 x.sat 0 (boolVal x.dbl)).setD x.d).setA x.a).setI x.lane) = _ := mCmp_eq rfl hf
  simp only [parse, pBcst, hm]
  simp [Raw.setA, Raw.setD, Raw.setI, hv, dstOf_dstMode_dstIdx hd]

/-- The two trits a reduction's type settles: each a trit (R117). -/
theorem vred_modifiers {x : VRed} (hs : (match x.ty with | .f9 | .f27 => Wf.bit x.s18 && Wf.bit x.fzo | _ => Wf.tr x.s18 && x.fzo == 0) = true) :
    canon x.s18 1 = true ∧ canon x.fzo 1 = true := by
  split at hs <;> simp only [Bool.and_eq_true, beq_iff_eq] at hs
  · exact ⟨canon_one_of_bit hs.1, canon_one_of_bit hs.2⟩
  · exact ⟨canon_one_of_bit hs.1, canon_one_of_bit hs.2⟩
  · exact ⟨canon_one_of_tr hs.1, hs.2 ▸ canon_zero 1⟩

theorem parses_vred {o : Opc} {c : VRed → Instr} {x : VRed}
    (hx : (Wf.hv x.hd && Wf.tr x.op && (match x.ty with | .f9 | .f27 => Wf.bit x.s18 && Wf.bit x.fzo | _ => Wf.tr x.s18 && x.fzo == 0) &&
      Wf.tr x.te && Wf.dst .vector (x.ty == .d) x.d && Wf.src .vector (x.ty == .d) x.a) = true)
    (henc : encRaw (c x) = some (encVRed o x)) (hparse : ∀ h r, parse o h r = (pVRed h r).map c) : Parses (c x) := by
  simp only [Bool.and_eq_true, Wf.hv_iff, and_assoc] at hx
  obtain ⟨hv, hh, hop, hs, hte, hd, ha⟩ := hx
  obtain ⟨h18, hfzo⟩ := vred_modifiers (x := x) (by simpa using hs)
  have hf := fitting_cmp (canon_one_of_tr hte) hfzo h18 (canon_one_of_tr hop) (canon_vtyVal x.ty)
  refine ⟨o, x.hd, _, henc, (((Carries.rHd _ hh).setMC hf).setD hd).setA ha, ?_⟩
  have hm : mCmp (encVRed o x) = _ := mCmp_eq rfl hf
  rw [hparse, pVRed, hm]
  simp [encVRed, Raw.setA, Raw.setD, hv, dstOf_dstMode_dstIdx hd]

end Sys2Proof
end

section
/-! ## Certificates: encoded memory words parse to their instructions (R118) -/

namespace Sys2Proof

open Tern

theorem canon_scale {n : Nat} (h : n ≤ 4) : canon (n : Int) 2 = true := canon_iff.2 (by rw [maxv_two]; omega)

/-- A read count stands in C's index, and the bit says that it does (R118). -/
theorem rc_setRc (r : Raw) (n : Option Nat) : (if rcBit n = 1 then some (r.setRc n).ci.toNat else none) = n := by
  cases n <;> simp [rcBit, Raw.setRc]

theorem Raw.setRc_others (r : Raw) (n : Option Nat) :
    (r.setRc n).mods = r.mods ∧ (r.setRc n).mode = r.mode ∧ (r.setRc n).di = r.di ∧ (r.setRc n).ai = r.ai ∧ (r.setRc n).bk = r.bk ∧
      (r.setRc n).bi = r.bi ∧ (r.setRc n).imm = r.imm := by
  cases n <;> simp [Raw.setRc]

/-- An address operand is read back, its scale from the modifiers (R341). -/
theorem pAddr_eq {r : Raw} {a : Addr} (hai : r.ai = grIdx a.base) (hbk : r.bk = srcKind a.off) (hbi : r.bi = srcIdx a.off) (himm : r.imm = a.e) :
    pAddr r a.scale = a := by
  simp [pAddr, hai, hbk, hbi, himm]

theorem canon_one_of_eq_one : canon 1 1 = true := rfl

theorem parses_ld {x : LdA} (hx : (Instr.ld x).wf = true) : Parses (.ld x) := by
  simp only [Instr.wf, Bool.and_eq_true, Wf.hv_iff, and_assoc] at hx
  obtain ⟨hv, hh, hrc, -, hd, had⟩ := hx
  have hf := fitting_mem (canon_boolVal x.ts) (canon_scale (Wf.addr_iff.1 had).2.2.1) (canon_rcBit x.rc) (canon_boolVal x.sc) (canon_widthVal x.w)
  refine ⟨.ld, x.hd, _, rfl, ((((Carries.rHd _ hh).setMM hf).setD hd).setAddr had).setRc hrc, ?_⟩
  obtain ⟨hmods, hmode, hdi, hai, hbk, hbi, himm⟩ :=
    ((((rHd x.hd .ld).setMM (boolVal x.ts) x.ad.scale (rcBit x.rc) (boolVal x.sc) (widthVal x.w)).setD x.d).setAddr x.ad).setRc_others x.rc
  have hm : mMem (((((rHd x.hd .ld).setMM (boolVal x.ts) x.ad.scale (rcBit x.rc) (boolVal x.sc) (widthVal x.w)).setD x.d).setAddr x.ad).setRc x.rc) = _ :=
    mMem_eq (by rw [hmods]; rfl) hf
  simp only [parse, pLd, hm, rc_setRc, hmode, hdi, pAddr_eq hai hbk hbi himm]
  simp [Raw.setAddr, Raw.setA, Raw.setB, Raw.setI, Raw.setD, hv, dstOf_dstMode_dstIdx hd]

theorem parses_lds {x : LdsA} (hx : (Instr.lds x).wf = true) : Parses (.lds x) := by
  simp only [Instr.wf, Bool.and_eq_true, Wf.hv_iff, and_assoc] at hx
  obtain ⟨hv, hh, hrc, hd, had⟩ := hx
  have hf := fitting_mem (canon_boolVal x.ts) (canon_scale (Wf.addr_iff.1 had).2.2.1) (canon_rcBit x.rc) (canon_zero 1) (canon_widthVal x.w)
  refine ⟨.lds, x.hd, _, rfl, ((((Carries.rHd _ hh).setMM hf).setD hd).setAddr had).setRc hrc, ?_⟩
  obtain ⟨hmods, hmode, hdi, hai, hbk, hbi, himm⟩ :=
    ((((rHd x.hd .lds).setMM (boolVal x.ts) x.ad.scale (rcBit x.rc) 0 (widthVal x.w)).setD x.d).setAddr x.ad).setRc_others x.rc
  have hm : mMem (((((rHd x.hd .lds).setMM (boolVal x.ts) x.ad.scale (rcBit x.rc) 0 (widthVal x.w)).setD x.d).setAddr x.ad).setRc x.rc) = _ :=
    mMem_eq (by rw [hmods]; rfl) hf
  simp only [parse, pLds, hm, rc_setRc, hmode, hdi, pAddr_eq hai hbk hbi himm]
  simp [Raw.setAddr, Raw.setA, Raw.setB, Raw.setI, Raw.setD, hv, dstOf_dstMode_dstIdx hd]

theorem parses_st {x : StA} (hx : (Instr.st x).wf = true) : Parses (.st x) := by
  simp only [Instr.wf, Bool.and_eq_true, Wf.hv_iff, and_assoc] at hx
  obtain ⟨-, hh, -, hc, had⟩ := hx
  have hf := fitting_mem (canon_zero 1) (canon_scale (Wf.addr_iff.1 had).2.2.1) (canon_zero 1) (canon_boolVal x.sc) (canon_widthVal x.w)
  refine ⟨.st, x.hd, _, rfl, (((Carries.rHd _ hh).setMM hf).setAddr had).setC hc, ?_⟩
  have hm : mMem ((((rHd x.hd .st).setMM 0 x.ad.scale 0 (boolVal x.sc) (widthVal x.w)).setAddr x.ad).setC x.c) = _ := mMem_eq rfl hf
  simp only [parse, pSt, hm]
  rw [pAddr_eq (a := x.ad) rfl rfl rfl rfl]
  simp [Raw.setC]

theorem parses_sts {x : StsA} (hx : (Instr.sts x).wf = true) : Parses (.sts x) := by
  simp only [Instr.wf, Bool.and_eq_true, Wf.hv_iff, and_assoc] at hx
  obtain ⟨-, hh, hc, had⟩ := hx
  have hf := fitting_mem (canon_zero 1) (canon_scale (Wf.addr_iff.1 had).2.2.1) (canon_zero 1) (canon_zero 1) (canon_widthVal x.w)
  refine ⟨.sts, x.hd, _, rfl, (((Carries.rHd _ hh).setMM hf).setAddr had).setC hc, ?_⟩
  have hm : mMem ((((rHd x.hd .sts).setMM 0 x.ad.scale 0 0 (widthVal x.w)).setAddr x.ad).setC x.c) = _ := mMem_eq rfl hf
  simp only [parse, pSts, hm]
  rw [pAddr_eq (a := x.ad) rfl rfl rfl rfl]
  simp [Raw.setC]

/-- A G register, or the even one of a pair. -/
theorem Wf.le_of_gpOrGr {dbl : Bool} {n : Nat} (h : (if dbl then Wf.gp n else Wf.gr n) = true) : n ≤ 26 := by
  cases dbl
  · exact Wf.le_of_gr h
  · exact Wf.gr_of_gp h

theorem parses_ldg {x : LdgA} (hx : (Instr.ldg x).wf = true) : Parses (.ldg x) := by
  simp only [Instr.wf, Bool.and_eq_true, Wf.hg_iff, and_assoc] at hx
  obtain ⟨-, hh, hd, hbase, himm⟩ := hx
  have hf := fitting_mem (canon_zero 1) (canon_zero 2) (canon_zero 1) (canon_zero 1) (canon_boolVal x.dbl)
  refine ⟨.ldg, x.hd, _, rfl, ((((Carries.rHd _ hh).setMM hf).setGD (Wf.le_of_gpOrGr hd)).setGA (Wf.gr_of_gp hbase)).setI himm, ?_⟩
  have hm : mMem (((((rHd x.hd .ldg).setMM 0 0 0 0 (boolVal x.dbl)).setGD x.d).setA (.g x.base)).setI x.e) = _ := mMem_eq rfl hf
  simp only [parse, pLdg, hm]
  simp [Raw.setGD, Raw.setA, Raw.setI]

theorem parses_stg {x : StgA} (hx : (Instr.stg x).wf = true) : Parses (.stg x) := by
  simp only [Instr.wf, Bool.and_eq_true, Wf.hg_iff, and_assoc] at hx
  obtain ⟨-, hh, hc, hbase, himm⟩ := hx
  have hf := fitting_mem (canon_zero 1) (canon_zero 2) (canon_zero 1) (canon_zero 1) (canon_boolVal x.dbl)
  refine ⟨.stg, x.hd, _, rfl, ((((Carries.rHd _ hh).setMM hf).setGA (Wf.gr_of_gp hbase)).setGC (Wf.le_of_gpOrGr hc)).setI himm, ?_⟩
  have hm : mMem (((((rHd x.hd .stg).setMM 0 0 0 0 (boolVal x.dbl)).setA (.g x.base)).setC (.g x.c)).setI x.e) = _ := mMem_eq rfl hf
  simp only [parse, pStg, hm]
  simp [Raw.setC, Raw.setA, Raw.setI]

theorem fitting_atom {x : AtomA} (hs : x.ad.scale ≤ 4) :
    Fitting [(2, (x.ad.scale : Int)), (2, atomOpVal x.op), (1, boolVal x.sc), (1, boolVal x.dbl)] :=
  .cons (canon_scale hs) (.cons (canon_atomOpVal x.op) (.cons (canon_boolVal x.sc) (.cons (canon_boolVal x.dbl) .nil)))

/-- The address whose immediate an ATOM carries: a TBIN's table stands in its place (R118, R345). -/
def AtomA.carried (x : AtomA) : Addr := match x.op with | .tbin t => { x.ad with e := t } | _ => x.ad

theorem AtomA.addr_carried {x : AtomA} (hx : (Instr.atom x).wf = true) : Wf.addr .vector x.carried = true := by
  simp only [Instr.wf, Bool.and_eq_true, and_assoc] at hx
  obtain ⟨-, -, -, had, hop⟩ := hx
  obtain ⟨hbase, hoff, hscale, -⟩ := Wf.addr_iff.1 had
  unfold AtomA.carried
  split
  next t ht =>
    rw [ht] at hop
    simp only [Bool.and_eq_true] at hop
    exact Wf.addr_iff.2 ⟨hbase, hoff, hscale, canon_mono (k := 7) hop.1⟩
  next => exact had

theorem parses_atom {x : AtomA} (hx : (Instr.atom x).wf = true) : Parses (.atom x) := by
  have hcarried := AtomA.addr_carried hx
  simp only [Instr.wf, Bool.and_eq_true, Wf.hv_iff, and_assoc] at hx
  obtain ⟨hv, hh, hd, hc, had, hop⟩ := hx
  have hf := fitting_atom (x := x) (Wf.addr_iff.1 had).2.2.1
  refine ⟨.atom, x.hd, _, rfl, ((((Carries.rHd _ hh).setM hf rfl).setD hd).setAddr hcarried).setC hc, ?_⟩
  have hu : unpack [2, 2, 1, 1] (((((rHd x.hd .atom).setM [(2, (x.ad.scale : Int)), (2, atomOpVal x.op), (1, boolVal x.sc), (1, boolVal x.dbl)]).setD x.d).setAddr
      x.carried).setC x.c).mods = [(x.ad.scale : Int), atomOpVal x.op, boolVal x.sc, boolVal x.dbl] := unpack_pack _ hf
  simp only [parse, pAtom]
  obtain ⟨hd', dbl, sc, op, d, ad, c⟩ := x
  obtain ⟨base, off, scale, e⟩ := ad
  cases op <;> simp_all [AtomA.carried, atomOpVal, Raw.setC, Raw.setAddr, Raw.setA, Raw.setB, Raw.setI, Raw.setD, dstOf_dstMode_dstIdx hd]

/-- The fields of a reduction before the register of its round word (R413). -/
def RedA.raw (x : RedA) : Raw :=
  (((rHd x.hd .red).setMM (if x.flt then -1 else 0) x.ad.scale x.op (if x.det.isSome then 1 else 0) (widthVal x.w)).setAddr x.ad).setC x.c

theorem parses_red {x : RedA} (hx : (Instr.red x).wf = true) : Parses (.red x) := by
  simp only [Instr.wf, Bool.and_eq_true, Wf.hv_iff, and_assoc] at hx
  obtain ⟨-, hh, hop, hdet, -, hc, had⟩ := hx
  have hflt : canon (if x.flt then -1 else 0) 1 = true := by cases x.flt <;> rfl
  have hsome : canon (if x.det.isSome then 1 else 0) 1 = true := by cases x.det <;> rfl
  have hf := fitting_mem hflt (canon_scale (Wf.addr_iff.1 had).2.2.1) (canon_one_of_tr hop) hsome (canon_widthVal x.w)
  have hcar : Carries .red x.hd x.raw := (((Carries.rHd _ hh).setMM hf).setAddr had).setC hc
  have hm : mMem x.raw = _ := mMem_eq rfl hf
  have had' : pAddr x.raw x.ad.scale = x.ad := pAddr_eq rfl rfl rfl rfl
  obtain ⟨hd, w, det, op, flt, ad, c⟩ := x
  dsimp only at hm had'
  cases det with
  | none =>
    refine ⟨.red, hd, _, rfl, hcar, ?_⟩
    change (some (.red (pRed hd (RedA.raw _))) : Option Instr) = _
    simp only [pRed, hm, had']
    cases flt <;> simp [RedA.raw, Raw.setC]
  | some g =>
    refine ⟨.red, hd, _, rfl, hcar.setGD (Wf.le_of_gr hdet), ?_⟩
    have hmg : mMem (Raw.setGD (RedA.raw ⟨hd, w, some g, op, flt, ad, c⟩) g) = _ := hm
    have hadg : pAddr (Raw.setGD (RedA.raw ⟨hd, w, some g, op, flt, ad, c⟩) g) ad.scale = ad := had'
    change (some (.red (pRed hd (Raw.setGD (RedA.raw _) g))) : Option Instr) = _
    simp only [pRed, hmg, hadg]
    cases flt <;> simp [RedA.raw, Raw.setC, Raw.setGD]

theorem parses_ldmc {x : LdmcA} (hx : (Instr.ldmc x).wf = true) : Parses (.ldmc x) := by
  simp only [Instr.wf, Bool.and_eq_true, Wf.hg_iff, decide_eq_true_eq, and_assoc] at hx
  obtain ⟨-, hh, ha, hb⟩ := hx
  refine ⟨.ldmc, x.hd, _, rfl, ((Carries.rHd _ hh).setGA (by omega)).setGB (Wf.le_of_gr hb), ?_⟩
  simp [parse, Raw.setA, Raw.setB]

/-- The modifiers of the words whose one modifier is the scale (R118). -/
theorem fitting_scale {n : Nat} (hn : n ≤ 4) : Fitting [(1, 0), (2, (n : Int)), (1, 0), (1, 0), (1, 0)] :=
  fitting_mem (canon_zero 1) (canon_scale hn) (canon_zero 1) (canon_zero 1) (canon_zero 1)

theorem parses_pref {x : PrefA} (hx : (Instr.pref x).wf = true) : Parses (.pref x) := by
  simp only [Instr.wf, Bool.and_eq_true, Wf.hv_iff, and_assoc] at hx
  obtain ⟨-, hh, hn, had⟩ := hx
  have hf := fitting_scale (Wf.addr_iff.1 had).2.2.1
  refine ⟨.pref, x.hd, _, rfl, (((Carries.rHd _ hh).setMM hf).setAddr had).setRc hn, ?_⟩
  have hm : mMem ((((rHd x.hd .pref).setMM 0 x.ad.scale 0 0 0).setAddr x.ad).setRc (some x.n)) = _ := mMem_eq rfl hf
  simp only [parse, pPref, hm]
  rw [pAddr_eq (a := x.ad) rfl rfl rfl rfl]
  simp [Raw.setRc]

theorem parses_fence {x : FenceA} (hx : (Instr.fence x).wf = true) : Parses (.fence x) := by
  simp only [Instr.wf, Bool.and_eq_true, decide_eq_true_eq, and_assoc] at hx
  obtain ⟨hh, hlo, hhi, hkind⟩ := hx
  have hsc : canon x.scope 2 = true := canon_iff.2 (by rw [maxv_two]; omega)
  have hf : Fitting [(3, 0), (1, x.kind), (2, x.scope)] := .cons (canon_zero 3) (.cons (canon_one_of_tr hkind) (.cons hsc .nil))
  refine ⟨.fence, x.hd, _, rfl, (Carries.rHd _ hh).setM hf rfl, ?_⟩
  have hu : unpack [3, 1, 2] ((rHd x.hd .fence).setM [(3, 0), (1, x.kind), (2, x.scope)]).mods = [0, x.kind, x.scope] := unpack_pack _ hf
  simp only [parse, pFence, hu]

theorem parses_ldtag {x : LdtagA} (hx : (Instr.ldtag x).wf = true) : Parses (.ldtag x) := by
  simp only [Instr.wf, Bool.and_eq_true, Wf.hv_iff, and_assoc] at hx
  obtain ⟨hv, hh, hd, had⟩ := hx
  have hf := fitting_scale (Wf.addr_iff.1 had).2.2.1
  refine ⟨.ldtag, x.hd, _, rfl, (((Carries.rHd _ hh).setMM hf).setD hd).setAddr had, ?_⟩
  have hm : mMem ((((rHd x.hd .ldtag).setMM 0 x.ad.scale 0 0 0).setD x.d).setAddr x.ad) = _ := mMem_eq rfl hf
  simp only [parse, hm]
  rw [pAddr_eq (a := x.ad) rfl rfl rfl rfl]
  simp [Raw.setAddr, Raw.setA, Raw.setB, Raw.setI, Raw.setD, hv, dstOf_dstMode_dstIdx hd]

theorem parses_sttag {x : SttagA} (hx : (Instr.sttag x).wf = true) : Parses (.sttag x) := by
  simp only [Instr.wf, Bool.and_eq_true, Wf.hv_iff, and_assoc] at hx
  obtain ⟨-, hh, hc, had⟩ := hx
  have hf := fitting_scale (Wf.addr_iff.1 had).2.2.1
  refine ⟨.sttag, x.hd, _, rfl, (((Carries.rHd _ hh).setMM hf).setAddr had).setC hc, ?_⟩
  have hm : mMem ((((rHd x.hd .sttag).setMM 0 x.ad.scale 0 0 0).setAddr x.ad).setC x.c) = _ := mMem_eq rfl hf
  simp only [parse, hm]
  rw [pAddr_eq (a := x.ad) rfl rfl rfl rfl]
  simp [Raw.setC]

theorem parses_flush {o : Opc} {c : FlushA → Instr} {x : FlushA} (hx : (Wf.hv x.hd && Wf.addr .vector x.ad) = true)
    (henc : encRaw (c x) = some (((rHd x.hd o).setMM 0 x.ad.scale 0 0 0).setAddr x.ad))
    (hparse : ∀ h r, parse o h r = some (c ⟨h, pAddr r (mMem r).2.1⟩)) : Parses (c x) := by
  simp only [Bool.and_eq_true, Wf.hv_iff, and_assoc] at hx
  obtain ⟨-, hh, had⟩ := hx
  have hf := fitting_scale (Wf.addr_iff.1 had).2.2.1
  refine ⟨o, x.hd, _, henc, ((Carries.rHd _ hh).setMM hf).setAddr had, ?_⟩
  have hm : mMem (((rHd x.hd o).setMM 0 x.ad.scale 0 0 0).setAddr x.ad) = _ := mMem_eq rfl hf
  rw [hparse, hm, pAddr_eq (a := x.ad) rfl rfl rfl rfl]

theorem parses_near {o : Opc} {c : Near → Instr} {x : Near} (hh : Wf.hd x.hd = true) (hbase : Wf.gp x.base = true)
    (hoff : Wf.src x.hd.form false x.off = true) (he : Wf.imm x.e = true)
    (henc : encRaw (c x) = some (encNear o x)) (hparse : ∀ h r, parse o h r = some (c (pNear h r))) : Parses (c x) := by
  refine ⟨o, x.hd, _, henc, (((Carries.rHd _ hh).setGA (Wf.gr_of_gp hbase)).setB hoff).setI he, ?_⟩
  rw [hparse]
  simp [pNear, encNear, Raw.setA, Raw.setB, Raw.setI]

theorem parses_icinv {x : Near} (hx : (Instr.icinv x).wf = true) : Parses (.icinv x) := by
  simp only [Instr.wf, Bool.and_eq_true, and_assoc] at hx
  obtain ⟨hh, hbase, hoff, he⟩ := hx
  exact parses_near hh hbase hoff he rfl fun _ _ => rfl

theorem parses_touch {x : Near} (hx : (Instr.touch x).wf = true) : Parses (.touch x) := by
  simp only [Instr.wf, Bool.and_eq_true, Wf.hv_iff, and_assoc] at hx
  obtain ⟨hv, hh, hbase, hoff, he⟩ := hx
  exact parses_near hh hbase (hv ▸ hoff) he rfl fun _ _ => rfl

/-- A word of a head alone. -/
theorem parses_head {o : Opc} {c : Hd → Instr} {h : Hd} (hh : Wf.hd h = true) (henc : encRaw (c h) = some (rHd h o))
    (hparse : ∀ h r, parse o h r = some (c h)) : Parses (c h) :=
  ⟨o, h, _, henc, Carries.rHd o hh, hparse h _⟩

theorem parses_vhead {o : Opc} {c : Hd → Instr} {h : Hd} (hh : Wf.hv h = true) (henc : encRaw (c h) = some (rHd h o))
    (hparse : ∀ h r, parse o h r = some (c h)) : Parses (c h) := parses_head (Wf.hv_iff.1 hh).2 henc hparse

end Sys2Proof
end

section
/-! ## Certificates: encoded moves, branches and system words parse to their instructions (R119 to R122) -/

namespace Sys2Proof

open Tern

/-! ### Moves and conversions (R119) -/

theorem parses_mov {x : MovA} (hx : (Instr.mov x).wf = true) : Parses (.mov x) := by
  simp only [Instr.wf, Bool.and_eq_true, and_assoc] at hx
  obtain ⟨hh, hd, ha⟩ := hx
  refine ⟨.mov, x.hd, _, rfl, (((Carries.rHd _ hh).setTop (canon_boolVal x.dbl)).setD hd).setA ha, ?_⟩
  have hm : mTop ((((rHd x.hd .mov).setTop (boolVal x.dbl)).setD x.d).setA x.a) = _ := mTop_eq rfl (canon_boolVal x.dbl)
  simp only [parse, hm]
  simp [Raw.setA, Raw.setD, dstOf_dstMode_dstIdx hd]

/-- A long immediate is cut at its fields' widths, and reads back whole (R103). -/
theorem unpack_long {v : Int} (hv : canon v 27 = true) :
    ∃ i m k s, unpack [16, 6, 4, 1] v = [i, m, k, s] ∧ Fitting [(16, i), (6, m), (4, k), (1, s)] ∧ i + pow3 16 * (m + pow3 6 * (k + pow3 4 * s)) = v := by
  have hfit : ∀ (w : Nat) (v : Int), canon (narrow v w) w = true := fun w v => canon_iff.2 ⟨le_narrow v w, narrow_le v w⟩
  refine ⟨_, _, _, _, rfl, .cons (hfit ..) (.cons (hfit ..) (.cons (hfit ..) (.cons (hfit ..) .nil))), ?_⟩
  have hlast : narrow (shr (shr (shr v 16) 6) 4) 1 = shr (shr (shr v 16) 6) 4 := by
    obtain ⟨hlo, hhi⟩ := canon_iff.1 hv
    rw [shr_shr, shr_shr]
    have hs := shr_narrow v 26
    have h1 := le_narrow v 26
    have h2 := narrow_le v 26
    refine narrow_of_canon ?_ ?_ <;> norm_num [maxv, pow3] at * <;> omega
  have h1 := shr_narrow v 16
  have h2 := shr_narrow (shr v 16) 6
  have h3 := shr_narrow (shr (shr v 16) 6) 4
  rw [hlast]
  calc narrow v 16 + pow3 16 * (narrow (shr v 16) 6 + pow3 6 * (narrow (shr (shr v 16) 6) 4 + pow3 4 * shr (shr (shr v 16) 6) 4))
      = narrow v 16 + pow3 16 * (narrow (shr v 16) 6 + pow3 6 * shr (shr v 16) 6) := by rw [show narrow (shr (shr v 16) 6) 4 + pow3 4 * shr (shr (shr v 16) 6) 4 = shr (shr v 16) 6 by omega]
    _ = narrow v 16 + pow3 16 * shr v 16 := by rw [show narrow (shr v 16) 6 + pow3 6 * shr (shr v 16) 6 = shr v 16 by omega]
    _ = v := by omega

theorem parses_long {o : Opc} {c : MoviA → Instr} {x : MoviA} {b : Bool} (hh : Wf.hd x.hd = true) (hd : Wf.dst x.hd.form b x.d = true)
    (himm : canon x.imm 27 = true) (henc : encRaw (c x) = some (setLong ((rHd x.hd o).setD x.d) x.imm))
    (hparse : ∀ h r, parse o h r = some (c ⟨h, dstOf h.form r.mode r.di, longImm r⟩)) : Parses (c x) := by
  obtain ⟨i, m, k, s, hu, hfit, hsum⟩ := unpack_long himm
  have hset : setLong ((rHd x.hd o).setD x.d) x.imm = { (rHd x.hd o).setD x.d with imm := i, mods := m, ci := k, ck := s } := by
    simp only [setLong, hu]
  rw [hset] at henc
  obtain ⟨hf, hop, hform, hpred, hsense⟩ := (Carries.rHd o hh).setD hd
  refine ⟨o, x.hd, _, henc, ⟨?_, hop, hform, hpred, hsense⟩, ?_⟩
  · have hi := hfit.canon (p := (16, i)) (by simp)
    have hmod := hfit.canon (p := (6, m)) (by simp)
    have hci := hfit.canon (p := (4, k)) (by simp)
    have hck := hfit.canon (p := (1, s)) (by simp)
    simp only [Raw.fitting_iff] at hf ⊢
    tauto
  · rw [hparse]
    simp [longImm, hsum, Raw.setD, dstOf_dstMode_dstIdx hd]

theorem parses_movi {x : MoviA} (hx : (Instr.movi x).wf = true) : Parses (.movi x) := by
  simp only [Instr.wf, Bool.and_eq_true, and_assoc] at hx
  obtain ⟨hh, hd, himm⟩ := hx
  exact parses_long hh hd himm rfl fun _ _ => rfl

theorem parses_movh {x : MoviA} (hx : (Instr.movh x).wf = true) : Parses (.movh x) := by
  simp only [Instr.wf, Bool.and_eq_true, and_assoc] at hx
  obtain ⟨hh, hd, -, himm⟩ := hx
  exact parses_long hh hd himm rfl fun _ _ => rfl

theorem parses_movg {x : MovgA} (hx : (Instr.movg x).wf = true) : Parses (.movg x) := by
  simp only [Instr.wf, Bool.and_eq_true, Wf.hv_iff, decide_eq_true_eq, and_assoc] at hx
  obtain ⟨-, hh, hg, ha, hlo, hhi⟩ := hx
  refine ⟨.movg, x.hd, _, rfl, (((Carries.rHd _ hh).setGD (Wf.le_of_gr hg)).setA ha).setI (canon_imm_of_bounds (b := 26) (by decide) (by omega)), ?_⟩
  simp [parse, Raw.setGD, Raw.setA, Raw.setI]

theorem sregNum_pos (m : SReg) : 0 < sregNum m := by cases m <;> decide

theorem parses_movs {x : MovsA} (hx : (Instr.movs x).wf = true) : Parses (.movs x) := by
  obtain ⟨hd, op⟩ := x
  simp only [Instr.wf, Bool.and_eq_true] at hx
  obtain ⟨hh, hop⟩ := hx
  cases op with
  | read d m =>
    simp only [Bool.and_eq_true] at hop
    refine ⟨.movs, hd, _, rfl, ((Carries.rHd _ hh).setD hop.1).setI (canon_sregNum m).1, ?_⟩
    simp [parse, pMovs, Raw.setI, Raw.setD, sregNum_pos, dstOf_dstMode_dstIdx hop.1]
  | write a m =>
    simp only [Bool.and_eq_true, and_assoc] at hop
    refine ⟨.movs, hd, _, rfl, ((Carries.rHd _ hh).setA hop.1).setI (canon_sregNum m).2, ?_⟩
    have hneg : ¬ (0 : Int) < -(sregNum m : Int) := by omega
    simp only [parse, pMovs, Raw.setI, Raw.setA]
    simp

theorem parses_movc {x : MovcA} (hx : (Instr.movc x).wf = true) : Parses (.movc x) := by
  simp only [Instr.wf, Bool.and_eq_true, and_assoc] at hx
  obtain ⟨hh, hd, ha⟩ := hx
  refine ⟨.movc, x.hd, _, rfl, ((Carries.rHd _ hh).setD hd).setPA ha, ?_⟩
  simp [parse, Raw.setPA, Raw.setD, dstOf_dstMode_dstIdx hd]

theorem parses_cvt {x : CvtA} (hx : (Instr.cvt x).wf = true) : Parses (.cvt x) := by
  simp only [Instr.wf, Bool.and_eq_true, and_assoc] at hx
  obtain ⟨hh, hsat, hfzi, hfzo, hte, hd, ha⟩ := hx
  have hf := fitting_cmp (canon_one_of_tr hte) (canon_one_of_bit hfzo) (canon_one_of_bit hfzi) (canon_one_of_tr hsat) (canon_cvtVal x.op)
  refine ⟨.cvt, x.hd, _, rfl, (((Carries.rHd _ hh).setMC hf).setD hd).setA ha, ?_⟩
  have hm : mCmp ((((rHd x.hd .cvt).setMC x.te x.fzo x.fzi x.sat (cvtVal x.op)).setD x.d).setA x.a) = _ := mCmp_eq rfl hf
  simp only [parse, pCvt, hm]
  simp [Raw.setA, Raw.setD, dstOf_dstMode_dstIdx hd]

theorem parses_bcvt {x : BcvtA} (hx : (Instr.bcvt x).wf = true) : Parses (.bcvt x) := by
  simp only [Instr.wf, Bool.and_eq_true, and_assoc] at hx
  obtain ⟨hh, hte, htf, hx17, hd, ha⟩ := hx
  have h17 : canon x.x17 1 = true := by
    split at hx17 <;> simp only [Bool.and_eq_true] at hx17
    · exact canon_one_of_bit hx17.2
    · exact canon_one_of_tr hx17.2
  have hdir : canon (if x.toTernary then 1 else -1) 1 = true := by cases x.toTernary <;> rfl
  have hf := fitting_cmp (canon_one_of_tr hte) h17 (canon_one_of_tr htf) hdir (canon_bfmtVal x.fmt)
  refine ⟨.bcvt, x.hd, _, rfl, (((Carries.rHd _ hh).setMC hf).setD hd).setA ha, ?_⟩
  have hm : mCmp ((((rHd x.hd .bcvt).setMC x.te x.x17 x.tf (if x.toTernary then 1 else -1) (bfmtVal x.fmt)).setD x.d).setA x.a) = _ := mCmp_eq rfl hf
  have hback : ((if x.toTernary then (1 : Int) else -1) == 1) = x.toTernary := by cases x.toTernary <;> rfl
  simp only [parse, pBcvt, hm, hback]
  simp [Raw.setA, Raw.setD, dstOf_dstMode_dstIdx hd]

theorem parses_planes {o : Opc} {c : PackA → Instr} {x : PackA}
    (hx : (Wf.hv x.hd && Wf.tr x.fmt && Wf.dst .vector false x.d && Wf.src .vector false x.a) = true)
    (henc : encRaw (c x) = some ((((rHd x.hd o).setTop x.fmt).setD x.d).setA x.a))
    (hparse : ∀ h r, parse o h r = some (c ⟨h, mTop r, dstOf h.form r.mode r.di, srcOf r.ak r.ai⟩)) : Parses (c x) := by
  simp only [Bool.and_eq_true, Wf.hv_iff, and_assoc] at hx
  obtain ⟨hv, hh, hfmt, hd, ha⟩ := hx
  refine ⟨o, x.hd, _, henc, (((Carries.rHd _ hh).setTop (canon_one_of_tr hfmt)).setD hd).setA ha, ?_⟩
  have hm : mTop ((((rHd x.hd o).setTop x.fmt).setD x.d).setA x.a) = _ := mTop_eq rfl (canon_one_of_tr hfmt)
  rw [hparse, hm]
  simp [Raw.setA, Raw.setD, hv, dstOf_dstMode_dstIdx hd]

/-! ### Control (R120) -/

theorem parses_target {o : Opc} {c : BraA → Instr} {x : BraA} (hh : Wf.hd x.hd = true) (ht : Wf.target x.t = true)
    (henc : encRaw (c x) = some (encTarget (rHd x.hd o) x.t)) (hparse : ∀ h r, parse o h r = some (c ⟨h, pTarget r⟩)) : Parses (c x) := by
  obtain ⟨hd, t⟩ := x
  cases t with
  | rel i =>
    refine ⟨o, hd, _, henc, (Carries.rHd _ hh).setI ht, ?_⟩
    have hm : mTop ((rHd hd o).setI i) = 0 := mTop_eq rfl (canon_zero 1)
    rw [hparse]
    simp only [pTarget, encTarget, hm]
    simp [Raw.setI]
  | reg b i =>
    simp only [Wf.target, Bool.and_eq_true] at ht
    refine ⟨o, hd, _, henc, (((Carries.rHd _ hh).setTop canon_one_of_eq_one).setGA (Wf.gr_of_gp ht.1)).setI ht.2, ?_⟩
    have hm : mTop ((((rHd hd o).setTop 1).setA (.g b)).setI i) = 1 := mTop_eq rfl canon_one_of_eq_one
    rw [hparse]
    simp only [pTarget, encTarget, hm]
    simp [Raw.setA, Raw.setI]

theorem parses_jmp {o : Opc} {c : JmpA → Instr} {x : JmpA} (hx : (Wf.hv x.hd && Wf.src .vector true x.a && Wf.imm x.imm) = true)
    (henc : encRaw (c x) = some ((((rHd x.hd o).setTop 1).setA x.a).setI x.imm)) (hparse : ∀ h r, parse o h r = some (c (pJmp h r))) : Parses (c x) := by
  simp only [Bool.and_eq_true, Wf.hv_iff, and_assoc] at hx
  obtain ⟨-, hh, ha, himm⟩ := hx
  refine ⟨o, x.hd, _, henc, (((Carries.rHd _ hh).setTop canon_one_of_eq_one).setA ha).setI himm, ?_⟩
  rw [hparse]
  simp [pJmp, Raw.setA, Raw.setI]

theorem parses_bra {x : BraA} (hx : (Instr.bra x).wf = true) : Parses (.bra x) := by
  simp only [Instr.wf, Bool.and_eq_true] at hx
  exact parses_target hx.1 hx.2 rfl fun _ _ => rfl

theorem parses_call {x : BraA} (hx : (Instr.call x).wf = true) : Parses (.call x) := by
  simp only [Instr.wf, Bool.and_eq_true, Wf.hv_iff] at hx
  exact parses_target hx.1.2 hx.2 rfl fun _ _ => rfl

theorem parses_waitj {x : WaitjA} (hx : (Instr.waitj x).wf = true) : Parses (.waitj x) := by
  simp only [Instr.wf, Bool.and_eq_true, Wf.hv_iff, decide_eq_true_eq, and_assoc] at hx
  obtain ⟨hv, hh, hd, hn⟩ := hx
  refine ⟨.waitj, x.hd, _, rfl, ((Carries.rHd _ hh).setD hd).setI (canon_imm_of_le hn), ?_⟩
  simp [parse, Raw.setD, Raw.setI, hv, dstOf_dstMode_dstIdx hd]

/-! ### Barriers, channels and sleeps (R121) -/

theorem fitting_bar {q n : Int} (hq : canon q 4 = true) (hn : canon n 12 = true) : Fitting [(12, n), (4, q)] := .cons hn (.cons hq .nil)

/-- BAR's fields: its variant, name and count (R348). -/
theorem carries_bar {h : Hd} {v q n : Int} (hh : Wf.hd h = true) (hv : canon v 2 = true) (hq : canon q 4 = true) (hn : canon n 12 = true) :
    Carries .bar h (encBar h v q n) ∧ barImm (encBar h v q n).imm = (n, q) ∧ mSync (encBar h v q n) = (0, v) := by
  have hb := fitting_bar hq hn
  refine ⟨((Carries.rHd _ hh).setM (fitting_sync (canon_zero 2) hv) rfl).setI hb.canon_pack, ?_, mSync_eq rfl (canon_zero 2) hv⟩
  have hu : unpack [12, 4] (encBar h v q n).imm = [n, q] := unpack_pack _ hb
  simp only [barImm, hu]

theorem parses_bar {c : BarA → Instr} {x : BarA} {v : Int} (hx : (Wf.hv x.hd && canon x.q 4 && canon x.n 12) = true) (hv : canon v 2 = true)
    (henc : encRaw (c x) = some (encBar x.hd v x.q x.n))
    (hparse : ∀ h r n q z, barImm r.imm = (n, q) → mSync r = (z, v) → pBar h r = some (c ⟨h, q, n⟩)) : Parses (c x) := by
  simp only [Bool.and_eq_true, Wf.hv_iff, and_assoc] at hx
  obtain ⟨-, hh, hq, hn⟩ := hx
  obtain ⟨hcar, himm, hm⟩ := carries_bar hh hv hq hn
  exact ⟨.bar, x.hd, _, henc, hcar, hparse _ _ _ _ _ himm hm⟩

theorem parses_barA {x : BarA} (hx : (Instr.barA x).wf = true) : Parses (.barA x) :=
  parses_bar (v := 0) hx (by decide) rfl fun h r n q z hi hm => by simp [pBar, hi, hm]
theorem parses_barS {x : BarA} (hx : (Instr.barS x).wf = true) : Parses (.barS x) :=
  parses_bar (v := 1) hx (by decide) rfl fun h r n q z hi hm => by simp [pBar, hi, hm]
theorem parses_barD {x : BarA} (hx : (Instr.barD x).wf = true) : Parses (.barD x) :=
  parses_bar (v := -1) hx (by decide) rfl fun h r n q z hi hm => by simp [pBar, hi, hm]
theorem parses_barW {x : BarWA} (hx : (Instr.barW x).wf = true) : Parses (.barW x) := by
  simp only [Instr.wf, Bool.and_eq_true, Wf.hv_iff, and_assoc] at hx
  obtain ⟨-, hh, hq⟩ := hx
  obtain ⟨hcar, himm, hm⟩ := carries_bar (v := 2) (n := 0) hh (by decide) hq (canon_zero 12)
  exact ⟨.bar, x.hd, _, rfl, hcar, by simp [parse, pBar, himm, hm]⟩

/-- SN's fields: its variant, operation and channel (R121). -/
theorem carries_sn {h : Hd} {v op k : Int} (hh : Wf.hd h = true) (hv : canon v 2 = true) (hop : canon op 2 = true) (hk : -9 ≤ k ∧ k ≤ 71) :
    Carries .sn h (encSn h v op k) ∧ mSync (encSn h v op k) = (op, v) :=
  ⟨((Carries.rHd _ hh).setM (fitting_sync hop hv) rfl).setI (canon_imm_of_bounds (b := 71) (by decide) (by omega)), mSync_eq rfl hop hv⟩

theorem parses_snArrive {c : SnA → Instr} {x : SnA} {v : Int} (hx : (Wf.hd x.hd && decide (-9 ≤ x.k ∧ x.k ≤ 71)) = true) (hv : canon v 2 = true)
    (henc : encRaw (c x) = some (encSn x.hd v 0 x.k)) (hparse : ∀ h r, mSync r = (0, v) → pSn h r = some (c ⟨h, r.imm⟩)) : Parses (c x) := by
  simp only [Bool.and_eq_true, decide_eq_true_eq] at hx
  obtain ⟨hcar, hm⟩ := carries_sn hx.1 hv (canon_zero 2) hx.2
  exact ⟨.sn, x.hd, _, henc, hcar, hparse _ _ hm⟩

theorem parses_sna {x : SnA} (hx : (Instr.sna x).wf = true) : Parses (.sna x) :=
  parses_snArrive (v := 0) hx (by decide) rfl fun h r hm => by simp [pSn, hm]
theorem parses_snd {x : SnA} (hx : (Instr.snd x).wf = true) : Parses (.snd x) :=
  parses_snArrive (v := -1) hx (by decide) rfl fun h r hm => by simp [pSn, hm]

theorem parses_snr {x : SnrA} (hx : (Instr.snr x).wf = true) : Parses (.snr x) := by
  simp only [Instr.wf, Bool.and_eq_true, decide_eq_true_eq, and_assoc] at hx
  obtain ⟨hh, ha, hlo, hhi, hop1, hop2, -⟩ := hx
  obtain ⟨hcar, hm⟩ := carries_sn (v := 3) (op := x.op) (k := x.k) hh (by decide) (canon_iff.2 (by rw [maxv_two]; omega)) ⟨hlo, hhi⟩
  refine ⟨.sn, x.hd, _, rfl, hcar.setGA (Wf.le_of_gr ha), ?_⟩
  have hm' : mSync ((encSn x.hd 3 x.op x.k).setA (.g x.a)) = _ := hm
  simp only [parse, pSn, hm']
  simp [Raw.setA, encSn, Raw.setI]

theorem parses_snb {x : SnbA} (hx : (Instr.snb x).wf = true) : Parses (.snb x) := by
  simp only [Instr.wf, Bool.and_eq_true, decide_eq_true_eq, and_assoc] at hx
  obtain ⟨hh, ha, hk⟩ := hx
  obtain ⟨hcar, hm⟩ := carries_sn (v := 2) (op := 0) hh (by decide) (by decide) hk
  refine ⟨.sn, x.hd, _, rfl, hcar.setGA (Wf.le_of_gr ha), ?_⟩
  have hm' : mSync ((encSn x.hd 2 0 x.k).setA (.g x.a)) = _ := hm
  simp only [parse, pSn, hm']
  simp [Raw.setA, encSn, Raw.setI]

theorem parses_snGet {c : SnGetA → Instr} {x : SnGetA} {v : Int} (hx : (Wf.hd x.hd && Wf.gr x.d && decide (-9 ≤ x.k ∧ x.k ≤ 71)) = true)
    (hv : canon v 2 = true) (henc : encRaw (c x) = some ((encSn x.hd v 0 x.k).setGD x.d))
    (hparse : ∀ h r, mSync r = (0, v) → pSn h r = some (c ⟨h, grOf r.di, r.imm⟩)) : Parses (c x) := by
  simp only [Bool.and_eq_true, decide_eq_true_eq, and_assoc] at hx
  obtain ⟨hh, hd, hk⟩ := hx
  obtain ⟨hcar, hm⟩ := carries_sn hh hv (canon_zero 2) hk
  refine ⟨.sn, x.hd, _, henc, hcar.setGD (Wf.le_of_gr hd), ?_⟩
  have hp : pSn x.hd ((encSn x.hd v 0 x.k).setGD x.d) = _ := hparse _ _ hm
  simp only [parse, hp]
  simp [Raw.setGD, encSn, Raw.setI]

theorem parses_snw {x : SnGetA} (hx : (Instr.snw x).wf = true) : Parses (.snw x) :=
  parses_snGet (v := 1) hx (by decide) rfl fun h r hm => by simp [pSn, hm]
theorem parses_snp {x : SnGetA} (hx : (Instr.snp x).wf = true) : Parses (.snp x) :=
  parses_snGet (v := -2) hx (by decide) rfl fun h r hm => by simp [pSn, hm]

/-- TB's fields: its variant, barrier and operand (R121). -/
theorem carries_tb {h : Hd} {v e : Int} {a b : Nat} (hh : Wf.hd h = true) (hv : canon v 2 = true) (ha : Wf.gr a = true) (hb : Wf.gr b = true)
    (he : Wf.imm e = true) : Carries .tb h (encTb h v a b e) ∧ mSync (encTb h v a b e) = (0, v) :=
  ⟨((((Carries.rHd _ hh).setM (fitting_sync (canon_zero 2) hv) rfl).setGA (Wf.le_of_gr ha)).setGB (Wf.le_of_gr hb)).setI he,
    mSync_eq rfl (canon_zero 2) hv⟩

theorem parses_tb {c : TbA → Instr} {x : TbA} {v : Int} (hx : (Wf.hd x.hd && Wf.gr x.a && Wf.gr x.b && Wf.imm x.e) = true) (hv : canon v 2 = true)
    (henc : encRaw (c x) = some (encTb x.hd v x.a x.b x.e))
    (hparse : ∀ h r, mSync r = (0, v) → pTb h r = some (c ⟨h, grOf r.ai, grOf r.bi, r.imm⟩)) : Parses (c x) := by
  simp only [Bool.and_eq_true, and_assoc] at hx
  obtain ⟨hh, ha, hb, he⟩ := hx
  obtain ⟨hcar, hm⟩ := carries_tb hh hv ha hb he
  refine ⟨.tb, x.hd, _, henc, hcar, ?_⟩
  have hp : pTb x.hd (encTb x.hd v x.a x.b x.e) = _ := hparse _ _ hm
  simp only [parse, hp]
  simp [encTb, Raw.setA, Raw.setB, Raw.setI]

theorem parses_tbinit {x : TbA} (hx : (Instr.tbinit x).wf = true) : Parses (.tbinit x) :=
  parses_tb (v := -2) hx (by decide) rfl fun h r hm => by simp [pTb, hm]
theorem parses_tbarr {x : TbA} (hx : (Instr.tbarr x).wf = true) : Parses (.tbarr x) :=
  parses_tb (v := 1) hx (by decide) rfl fun h r hm => by simp [pTb, hm]
theorem parses_tbexp {x : TbA} (hx : (Instr.tbexp x).wf = true) : Parses (.tbexp x) :=
  parses_tb (v := 2) hx (by decide) rfl fun h r hm => by simp [pTb, hm]
theorem parses_tbwait {x : TbA} (hx : (Instr.tbwait x).wf = true) : Parses (.tbwait x) :=
  parses_tb (v := 3) hx (by decide) rfl fun h r hm => by simp [pTb, hm]

theorem parses_tbtest {x : TbtestA} (hx : (Instr.tbtest x).wf = true) : Parses (.tbtest x) := by
  simp only [Instr.wf, Bool.and_eq_true, and_assoc] at hx
  obtain ⟨hh, hd, ha, hb, he⟩ := hx
  obtain ⟨hcar, hm⟩ := carries_tb (v := -1) hh (by decide) ha hb he
  refine ⟨.tb, x.hd, _, rfl, hcar.setGD (Wf.le_of_gr hd), ?_⟩
  have hm' : mSync ((encTb x.hd (-1) x.a x.b x.e).setGD x.d) = _ := hm
  simp only [parse, pTb, hm']
  simp [Raw.setGD, encTb, Raw.setA, Raw.setB, Raw.setI]

theorem parses_sleept {x : SleepA} (hx : (Instr.sleept x).wf = true) : Parses (.sleept x) := by
  simp only [Instr.wf, Bool.and_eq_true, Wf.hv_iff, and_assoc] at hx
  obtain ⟨-, hh, ha, he⟩ := hx
  refine ⟨.sleept, x.hd, _, rfl, ((Carries.rHd _ hh).setA ha).setI he, ?_⟩
  simp [parse, Raw.setA, Raw.setI]

end Sys2Proof
end

section
/-! ## Certificates: every well-formed instruction parses back from its encoding (R96 to R124) -/

namespace Sys2Proof

open Tern

/-! ### Engine and system words (R122) -/

theorem canon_imm_nat {n b : Nat} (hb : b ≤ 21523360) (h : n ≤ b) : canon n 16 = true := canon_imm_of_le (h.trans hb)

theorem parses_win {x : WinA} (hx : (Instr.win x).wf = true) : Parses (.win x) := by
  simp only [Instr.wf, Bool.and_eq_true, Wf.hg_iff, decide_eq_true_eq, and_assoc] at hx
  obtain ⟨-, hh, ha, hk⟩ := hx
  refine ⟨.win, x.hd, _, rfl, ((Carries.rHd _ hh).setGA (Wf.le_of_gr ha)).setI (canon_imm_nat (by decide) hk), ?_⟩
  simp [parse, Raw.setA, Raw.setI]

theorem parses_winrel {x : WinrelA} (hx : (Instr.winrel x).wf = true) : Parses (.winrel x) := by
  simp only [Instr.wf, Bool.and_eq_true, Wf.hg_iff, decide_eq_true_eq, and_assoc] at hx
  obtain ⟨-, hh, hk⟩ := hx
  refine ⟨.winrel, x.hd, _, rfl, (Carries.rHd _ hh).setI (canon_imm_nat (by decide) hk), ?_⟩
  simp [parse, Raw.setI]

theorem parses_task {x : TaskA} (hx : (Instr.task x).wf = true) : Parses (.task x) := by
  simp only [Instr.wf, Bool.and_eq_true, Wf.hg_iff, and_assoc] at hx
  obtain ⟨-, hh, hd, ha, hhint, himm⟩ := hx
  have hc := canon_one_of_tr hhint
  refine ⟨.task, x.hd, _, rfl, ((((Carries.rHd _ hh).setTop hc).setGD (Wf.le_of_gr hd)).setGA (Wf.le_of_gr ha)).setI himm, ?_⟩
  have hm : mTop (((((rHd x.hd .task).setTop x.hint).setGD x.d).setA (.g x.a)).setI x.imm) = _ := mTop_eq rfl hc
  simp only [parse, hm]
  simp [Raw.setGD, Raw.setA, Raw.setI]

theorem parses_tqry {x : TqryA} (hx : (Instr.tqry x).wf = true) : Parses (.tqry x) := by
  simp only [Instr.wf, Bool.and_eq_true, Wf.hg_iff, and_assoc] at hx
  obtain ⟨-, hh, hd, ha⟩ := hx
  refine ⟨.tqry, x.hd, _, rfl, ((Carries.rHd _ hh).setGD (Wf.le_of_gr hd)).setGA (Wf.le_of_gr ha), ?_⟩
  simp [parse, Raw.setGD, Raw.setA]

theorem parses_send {x : SendA} (hx : (Instr.send x).wf = true) : Parses (.send x) := by
  simp only [Instr.wf, Bool.and_eq_true, Wf.hg_iff, decide_eq_true_eq, and_assoc] at hx
  obtain ⟨-, hh, ha, hb, -, hp⟩ := hx
  refine ⟨.send, x.hd, _, rfl, (((Carries.rHd _ hh).setGA (Wf.le_of_gr ha)).setGB (Wf.le_of_gr hb)).setI (canon_imm_nat (by decide) hp), ?_⟩
  simp [parse, Raw.setA, Raw.setB, Raw.setI]

theorem parses_recv {x : RecvA} (hx : (Instr.recv x).wf = true) : Parses (.recv x) := by
  simp only [Instr.wf, Bool.and_eq_true, Wf.hg_iff, decide_eq_true_eq, and_assoc] at hx
  obtain ⟨-, hh, ha, -, hp⟩ := hx
  refine ⟨.recv, x.hd, _, rfl, ((Carries.rHd _ hh).setGA (Wf.le_of_gr ha)).setI (canon_imm_nat (by decide) hp), ?_⟩
  simp [parse, Raw.setA, Raw.setI]

/-- A word of a G destination, a G operand and an immediate. -/
theorem carries_gdgai {o : Opc} {h : Hd} {d a : Nat} {i : Int} (hh : Wf.hd h = true) (hd : d ≤ 26) (ha : a ≤ 26) (hi : canon i 16 = true) :
    Carries o h ((((rHd h o).setGD d).setA (.g a)).setI i) := (((Carries.rHd _ hh).setGD hd).setGA ha).setI hi

theorem parses_xfst {x : XfstA} (hx : (Instr.xfst x).wf = true) : Parses (.xfst x) := by
  simp only [Instr.wf, Bool.and_eq_true, Wf.hg_iff, and_assoc] at hx
  obtain ⟨-, hh, hd, ha, himm⟩ := hx
  refine ⟨.xfst, x.hd, _, rfl, carries_gdgai hh (Wf.le_of_gr hd) (Wf.le_of_gr ha) himm, ?_⟩
  simp [parse, Raw.setGD, Raw.setA, Raw.setI]

theorem parses_xtab {x : XtabA} (hx : (Instr.xtab x).wf = true) : Parses (.xtab x) := by
  simp only [Instr.wf, Bool.and_eq_true, Wf.hg_iff, decide_eq_true_eq, and_assoc] at hx
  obtain ⟨-, hh, hd, ha, hs⟩ := hx
  refine ⟨.xtab, x.hd, _, rfl, carries_gdgai hh (Wf.le_of_gr hd) (Wf.gr_of_gp ha) (canon_imm_nat (by decide) hs), ?_⟩
  simp [parse, Raw.setGD, Raw.setA, Raw.setI]

theorem parses_lnch {x : LnchA} (hx : (Instr.lnch x).wf = true) : Parses (.lnch x) := by
  simp only [Instr.wf, Bool.and_eq_true, Wf.hg_iff, and_assoc] at hx
  obtain ⟨-, hh, hd, ha, himm⟩ := hx
  refine ⟨.lnch, x.hd, _, rfl, carries_gdgai hh (Wf.le_of_gr hd) (Wf.gr_of_gp ha) himm, ?_⟩
  simp [parse, Raw.setGD, Raw.setA, Raw.setI]

theorem parses_role {x : RoleA} (hx : (Instr.role x).wf = true) : Parses (.role x) := by
  simp only [Instr.wf, Bool.and_eq_true, Wf.hv_iff, decide_eq_true_eq, and_assoc] at hx
  obtain ⟨-, hh, ha, -, hb, hlo, hhi⟩ := hx
  have hc2 : canon x.c 2 = true := canon_iff.2 (by rw [maxv_two]; omega)
  have hb14 : canon (x.b : Int) 14 = true := canon_iff.2 (by rw [show maxv 14 = 2391484 from rfl]; omega)
  have hf : Fitting [(2, x.c), (14, (x.b : Int))] := .cons hc2 (.cons hb14 .nil)
  refine ⟨.role, x.hd, _, rfl, ((Carries.rHd _ hh).setGA (Wf.gr_of_gp ha)).setI hf.canon_pack, ?_⟩
  have hu : unpack [2, 14] (((rHd x.hd .role).setA (.g x.a)).setI (pack [(2, x.c), (14, (x.b : Int))])).imm = [x.c, (x.b : Int)] := unpack_pack _ hf
  simp only [parse, pRole, hu]
  simp [Raw.setA, Raw.setI]

theorem parses_preh {x : PrehA} (hx : (Instr.preh x).wf = true) : Parses (.preh x) := by
  simp only [Instr.wf, Bool.and_eq_true, Wf.hv_iff, and_assoc] at hx
  obtain ⟨-, hh, ha, himm⟩ := hx
  refine ⟨.preh, x.hd, _, rfl, ((Carries.rHd _ hh).setGA (Wf.gr_of_gp ha)).setI himm, ?_⟩
  simp [parse, Raw.setA, Raw.setI]

theorem parses_immA {o : Opc} {c : ImmA → Instr} {x : ImmA} (hx : (Wf.hd x.hd && Wf.imm x.imm) = true)
    (henc : encRaw (c x) = some ((rHd x.hd o).setI x.imm)) (hparse : ∀ h r, parse o h r = some (c ⟨h, r.imm⟩)) : Parses (c x) := by
  simp only [Bool.and_eq_true] at hx
  exact ⟨o, x.hd, _, henc, (Carries.rHd _ hx.1).setI hx.2, hparse _ _⟩

/-- The fields of a debug word: Gd and Gb (R122). -/
theorem carries_dbg {o : Opc} {h : Hd} {d b : Nat} (hh : Wf.hd h = true) (hd : d ≤ 26) (hb : Wf.gr b = true) : Carries o h (encDbg h o d b) :=
  ((Carries.rHd _ hh).setGD hd).setGB (Wf.le_of_gr hb)

theorem parses_wset {x : WsetA} (hx : (Instr.wset x).wf = true) : Parses (.wset x) := by
  simp only [Instr.wf, Bool.and_eq_true, Wf.hg_iff, decide_eq_true_eq, and_assoc] at hx
  obtain ⟨-, hh, hd, ha, hb, hc, hu⟩ := hx
  refine ⟨.wset, x.hd, _, rfl, (((((Carries.rHd _ hh).setGD (Wf.le_of_gr hd)).setGA (by omega)).setGB (Wf.le_of_gr hb)).setGC (Wf.le_of_gr hc)).setI
    (canon_imm_nat (by decide) hu), ?_⟩
  simp [parse, Raw.setGD, Raw.setA, Raw.setB, Raw.setC, Raw.setI]

theorem parses_unit {o : Opc} {c : WUnitA → Instr} {x : WUnitA} (hh : Wf.hd x.hd = true) (hd : x.d ≤ 26) (hb : Wf.gr x.b = true) (hu : x.unit ≤ 26)
    (henc : encRaw (c x) = some ((encDbg x.hd o x.d x.b).setI x.unit))
    (hparse : ∀ h r, parse o h r = some (c ⟨h, grOf r.di, grOf r.bi, r.imm.toNat⟩)) : Parses (c x) := by
  refine ⟨o, x.hd, _, henc, (carries_dbg hh hd hb).setI (canon_imm_nat (by decide) hu), ?_⟩
  rw [hparse]
  simp [encDbg, Raw.setGD, Raw.setB, Raw.setI]

theorem parses_wclr {x : WUnitA} (hx : (Instr.wclr x).wf = true) : Parses (.wclr x) := by
  simp only [Instr.wf, Bool.and_eq_true, Wf.hg_iff, decide_eq_true_eq, and_assoc] at hx
  obtain ⟨-, hh, hd, hb, hu⟩ := hx
  exact parses_unit hh (Wf.le_of_gr hd) hb hu rfl fun _ _ => rfl

theorem parses_wrd {x : WUnitA} (hx : (Instr.wrd x).wf = true) : Parses (.wrd x) := by
  simp only [Instr.wf, Bool.and_eq_true, Wf.hg_iff, decide_eq_true_eq, and_assoc] at hx
  obtain ⟨-, hh, hd, hb, hu⟩ := hx
  exact parses_unit hh (by omega) hb hu rfl fun _ _ => rfl

theorem parses_dbg {o : Opc} {c : DbgA → Instr} {x : DbgA} {n : Nat} (hx : (Wf.hg x.hd && decide (x.d ≤ n) && Wf.gr x.b) = true) (hn : n ≤ 26)
    (henc : encRaw (c x) = some (encDbg x.hd o x.d x.b)) (hparse : ∀ h r, parse o h r = some (c ⟨h, grOf r.di, grOf r.bi⟩)) : Parses (c x) := by
  simp only [Bool.and_eq_true, Wf.hg_iff, decide_eq_true_eq, and_assoc] at hx
  obtain ⟨-, hh, hd, hb⟩ := hx
  refine ⟨o, x.hd, _, henc, carries_dbg hh (hd.trans hn) hb, ?_⟩
  rw [hparse]
  simp [encDbg, Raw.setGD, Raw.setB]

theorem Wf.le_of_item {i : Nat} (h : Wf.item i = true) : i ≤ 508 := by
  simp only [Wf.item, Bool.or_eq_true, decide_eq_true_eq, beq_iff_eq] at h
  omega

theorem parses_hrdv {x : HrdvA} (hx : (Instr.hrdv x).wf = true) : Parses (.hrdv x) := by
  simp only [Instr.wf, Bool.and_eq_true, Wf.hg_iff, decide_eq_true_eq, and_assoc] at hx
  obtain ⟨-, hh, hd, hb, hi⟩ := hx
  refine ⟨.hrdv, x.hd, _, rfl, (carries_dbg hh (by omega) hb).setI (canon_imm_nat (by decide) (Wf.le_of_item hi)), ?_⟩
  simp [parse, encDbg, Raw.setGD, Raw.setB, Raw.setI]

theorem parses_hwrv {x : HwrvA} (hx : (Instr.hwrv x).wf = true) : Parses (.hwrv x) := by
  simp only [Instr.wf, Bool.and_eq_true, Wf.hg_iff, and_assoc] at hx
  obtain ⟨-, hh, hd, ha, hb, hi⟩ := hx
  refine ⟨.hwrv, x.hd, _, rfl,
    ((carries_dbg hh (Wf.le_of_gr hd) hb).setGA (Wf.le_of_gr ha)).setI (canon_imm_nat (by decide) (Wf.le_of_item hi)), ?_⟩
  simp [parse, encDbg, Raw.setGD, Raw.setA, Raw.setB, Raw.setI]

/-- HRDP's and HWRP's item is read back (R306). -/
theorem pHItem_encHItem {r : Raw} {it : HItem} (hmods : r.mods = 0) : pHItem (encHItem r it) = some it := by
  cases it with
  | pc =>
    have hu : unpack [2, 2, 2] r.mods = [0, 0, 0] := by rw [hmods]; rfl
    simp [pHItem, encHItem, hu]
  | depth =>
    have hu : unpack [2, 2, 2] (r.setM [(2, 0), (2, 1), (2, 0)]).mods = [0, 1, 0] := rfl
    simp only [pHItem, encHItem, hu]
    rfl
  | link e =>
    have hu : unpack [2, 2, 2] ((r.setM [(2, 0), (2, -1), (2, 0)]).setI e).mods = [0, -1, 0] := rfl
    simp only [pHItem, encHItem, hu]
    simp [Raw.setI]

theorem encHItem_others (r : Raw) (it : HItem) : (encHItem r it).di = r.di ∧ (encHItem r it).ai = r.ai ∧ (encHItem r it).bi = r.bi := by
  cases it <;> simp [encHItem, Raw.setM, Raw.setI]

theorem Carries.encHItem {o : Opc} {h : Hd} {r : Raw} {it : HItem} (hr : Carries o h r) (hit : Wf.hitem it = true) : Carries o h (encHItem r it) := by
  cases it with
  | pc => exact hr
  | depth => exact hr.setM (fitting_sync (by decide) (canon_zero 2)) rfl
  | link e =>
    simp only [Wf.hitem, decide_eq_true_eq] at hit
    exact (hr.setM (fitting_sync (by decide) (canon_zero 2)) rfl).setI (canon_imm_nat (by decide) hit.2)

theorem parses_hrdp {x : HrdpA} (hx : (Instr.hrdp x).wf = true) : Parses (.hrdp x) := by
  simp only [Instr.wf, Bool.and_eq_true, Wf.hg_iff, decide_eq_true_eq, and_assoc] at hx
  obtain ⟨-, hh, hd, hb, hit⟩ := hx
  refine ⟨.hrdp, x.hd, _, rfl, (carries_dbg hh (by omega) hb).encHItem hit, ?_⟩
  obtain ⟨hdi, -, hbi⟩ := encHItem_others (encDbg x.hd .hrdp x.d x.b) x.item
  simp only [parse, pHItem_encHItem (r := encDbg x.hd .hrdp x.d x.b) rfl, hdi, hbi]
  simp [encDbg, Raw.setGD, Raw.setB]

theorem parses_hwrp {x : HwrpA} (hx : (Instr.hwrp x).wf = true) : Parses (.hwrp x) := by
  simp only [Instr.wf, Bool.and_eq_true, Wf.hg_iff, decide_eq_true_eq, and_assoc] at hx
  obtain ⟨-, hh, hd, ha, hb, hit⟩ := hx
  refine ⟨.hwrp, x.hd, _, rfl, ((carries_dbg hh (Wf.le_of_gr hd) hb).setGA (by omega)).encHItem hit, ?_⟩
  obtain ⟨hdi, hai, hbi⟩ := encHItem_others ((encDbg x.hd .hwrp x.d x.b).setA (.g x.a)) x.item
  simp only [parse, pHItem_encHItem (r := (encDbg x.hd .hwrp x.d x.b).setA (.g x.a)) rfl, hdi, hai, hbi]
  simp [encDbg, Raw.setGD, Raw.setA, Raw.setB]

theorem parses_hres {x : HresA} (hx : (Instr.hres x).wf = true) : Parses (.hres x) := by
  simp only [Instr.wf, Bool.and_eq_true, Wf.hg_iff, decide_eq_true_eq, and_assoc] at hx
  obtain ⟨-, hh, hd, hb, hlo, hhi⟩ := hx
  have hs : canon x.scope 2 = true := canon_iff.2 (by rw [maxv_two]; omega)
  have hf : Fitting [(4, 0), (2, x.scope)] := .cons (canon_zero 4) (.cons hs .nil)
  refine ⟨.hres, x.hd, _, rfl, (carries_dbg hh (Wf.le_of_gr hd) hb).setM hf rfl, ?_⟩
  have hu : unpack [4, 2] ((encDbg x.hd .hres x.d x.b).setM [(4, 0), (2, x.scope)]).mods = [0, x.scope] := unpack_pack _ hf
  simp only [parse, pScope, hu]
  simp [encDbg, Raw.setGD, Raw.setB, Raw.setM]

/-! ### Every full word -/

/-- Every well-formed instruction with an encoding of its own, the paired word apart, parses back from its fields. -/
theorem parses_of_wf {i : Instr} (hraw : encRaw i ≠ none) (h : i.wf = true) : Parses i := by
  cases i with
  | abs x | neg x | sgn x | tlz x => exact parses_i1 h rfl fun _ _ => rfl
  | add x | sub x | mul x | mulh x | div x | divz x | mod x | min x | max x | tsh x | trot x => exact parses_i2 h rfl fun _ _ => rfl
  | mad x | tsel x => exact parses_i3 h rfl fun _ _ => rfl
  | tcnt x => exact parses_tcnt h
  | tmap x => exact parses_tmap h
  | tbin x => exact parses_tbin h
  | fadd x | fsub x | fmul x | fmin x | fmax x | fdiv x => exact parses_f2 h rfl fun _ _ => rfl
  | fma x => exact parses_fma h
  | fneg x | fabs x | fsqrt x | frcp x | frsq x | fexp x | flog x | fexp3 x | flog3 x | ftanh x | fcls x => exact parses_f1 h rfl fun _ _ => rfl
  | fscl x => exact parses_fscl h
  | frnd x => exact parses_frnd h
  | fcmp x => exact parses_fcmp h
  | cmp x => exact parses_cmp h
  | sel x => exact parses_sel h
  | pset x => exact parses_pset h
  | ptbl x => exact parses_ptbl h
  | pany x | pall x => exact parses_pred h rfl fun _ _ => rfl
  | pcnt x => exact parses_pcnt h
  | shfl x => exact parses_shfl h
  | bcst x => exact parses_bcst h
  | vred x | vscan x => exact parses_vred h rfl fun _ _ => rfl
  | ld x => exact parses_ld h
  | st x => exact parses_st h
  | ldg x => exact parses_ldg h
  | stg x => exact parses_stg h
  | lds x => exact parses_lds h
  | sts x => exact parses_sts h
  | atom x => exact parses_atom h
  | red x => exact parses_red h
  | ldmc x => exact parses_ldmc h
  | pref x => exact parses_pref h
  | fence x => exact parses_fence h
  | ldtag x => exact parses_ldtag h
  | sttag x => exact parses_sttag h
  | cflush x | cinv x => exact parses_flush h rfl fun _ _ => rfl
  | icinv x => exact parses_icinv h
  | touch x => exact parses_touch h
  | isync x | nop x | rft x => exact parses_head h rfl fun _ _ => rfl
  | ret x | yld x | exit x => exact parses_vhead h rfl fun _ _ => rfl
  | mov x => exact parses_mov h
  | movi x => exact parses_movi h
  | movh x => exact parses_movh h
  | movg x => exact parses_movg h
  | movs x => exact parses_movs h
  | movc x => exact parses_movc h
  | cvt x => exact parses_cvt h
  | bcvt x => exact parses_bcvt h
  | pack x | unpack x => exact parses_planes h rfl fun _ _ => rfl
  | bra x => exact parses_bra h
  | call x => exact parses_call h
  | jmpi x | calli x => exact parses_jmp h rfl fun _ _ => rfl
  | waitj x => exact parses_waitj h
  | barA x => exact parses_barA h
  | barS x => exact parses_barS h
  | barD x => exact parses_barD h
  | barW x => exact parses_barW h
  | sna x => exact parses_sna h
  | snd x => exact parses_snd h
  | snr x => exact parses_snr h
  | snb x => exact parses_snb h
  | snw x => exact parses_snw h
  | snp x => exact parses_snp h
  | tbinit x => exact parses_tbinit h
  | tbarr x => exact parses_tbarr h
  | tbexp x => exact parses_tbexp h
  | tbwait x => exact parses_tbwait h
  | tbtest x => exact parses_tbtest h
  | sleept x => exact parses_sleept h
  | win x => exact parses_win h
  | winrel x => exact parses_winrel h
  | task x => exact parses_task h
  | tqry x => exact parses_tqry h
  | send x => exact parses_send h
  | recv x => exact parses_recv h
  | xfst x => exact parses_xfst h
  | xtab x => exact parses_xtab h
  | lnch x => exact parses_lnch h
  | role x => exact parses_role h
  | preh x => exact parses_preh h
  | trap x | brk x => exact parses_immA h rfl fun _ _ => rfl
  | wset x => exact parses_wset h
  | wclr x => exact parses_wclr h
  | wrd x => exact parses_wrd h
  | hlst x => exact parses_dbg h (by decide) rfl fun _ _ => rfl
  | hstep x => exact parses_dbg h (by decide) rfl fun _ _ => rfl
  | hrdv x => exact parses_hrdv h
  | hwrv x => exact parses_hwrv h
  | hrdp x => exact parses_hrdp h
  | hwrp x => exact parses_hwrp h
  | hres x => exact parses_hres h
  | _ => exact absurd rfl hraw

/-! ### The paired word (R104 to R106, R123) -/

theorem Wf.half_iff {h : Half} : Wf.half h = true ↔ h.pred ≤ 8 ∧ Wf.dst .vector false h.d = true ∧ (-1 ≤ h.m8 ∧ h.m8 ≤ 0) ∧
    (if h.op.isFloat then Wf.bit h.m7 && Wf.bit h.m6 else Wf.tr h.m7 && h.m6 == 0) = true ∧ (h.op != .movi || h.m8 == 0) = true ∧
    (if h.op.usesSource then (match h.s with | some s => Wf.src .vector false s | none => false) && h.imm == 0
      else h.s == none && canon h.imm 6) = true := by
  simp only [Wf.half, Bool.and_eq_true, decide_eq_true_eq, and_assoc] <;> rfl

/-- A half's modifiers each fit a trit. -/
theorem Wf.half_modifiers {h : Half} (hw : Wf.half h = true) : Fitting [(1, h.m6), (1, h.m7), (1, h.m8)] := by
  obtain ⟨-, -, hm8, hm, -, -⟩ := Wf.half_iff.1 hw
  have h8 : canon h.m8 1 = true := canon_one_of_tr (by simp [Wf.tr]; omega)
  split at hm <;> simp only [Bool.and_eq_true, beq_iff_eq] at hm
  · exact .cons (canon_one_of_bit hm.2) (.cons (canon_one_of_bit hm.1) (.cons h8 .nil))
  · exact .cons (hm.2 ▸ canon_zero 1) (.cons (canon_one_of_tr hm.1) (.cons h8 .nil))

/-- A half's source and immediate: one of the two, as its opcode takes it (R104). -/
theorem Wf.half_operand {h : Half} (hw : Wf.half h = true) : canon (srcIdx (h.s.getD (.v 40))) 4 = true ∧ canon h.imm 6 = true ∧
    (if h.op.usesSource then some (h.s.getD (.v 40)) else none) = h.s ∧ (if h.op.usesSource then 0 else h.imm) = h.imm := by
  obtain ⟨-, -, -, -, -, hs⟩ := Wf.half_iff.1 hw
  by_cases hu : h.op.usesSource = true
  · simp only [hu, if_true, Bool.and_eq_true, beq_iff_eq] at hs ⊢
    obtain ⟨hsrc, himm⟩ := hs
    cases hx : h.s with
    | none => simp [hx] at hsrc
    | some s =>
      rw [hx] at hsrc
      exact ⟨canon_srcIdx (f := .vector) (b := false) hsrc, himm ▸ canon_zero 6, rfl, himm.symm⟩
  · simp only [hu, Bool.false_eq_true, if_false, Bool.and_eq_true, beq_iff_eq] at hs ⊢
    obtain ⟨hnone, himm⟩ := hs
    exact ⟨by rw [hnone]; rfl, himm, hnone.symm, trivial⟩

theorem encHalf_fits {h : Half} (hw : Wf.half h = true) : Fitting (encHalf h).fields := by
  obtain ⟨hpred, hd, -, -, -, -⟩ := Wf.half_iff.1 hw
  obtain ⟨hidx, himm, -, -⟩ := Wf.half_operand hw
  exact .cons himm (.cons (Wf.half_modifiers hw).canon_pack (.cons hidx (.cons (canon_srcKind _) (.cons (canon_dstIdx hd) (.cons (canon_dstMode _)
    (.cons (canon_prIdx hpred) (.cons (canon_popVal _) .nil)))))))

theorem parseHalf_encHalf {h : Half} (hw : Wf.half h = true) : parseHalf (encHalf h) = some h := by
  obtain ⟨-, hd, -, -, -, -⟩ := Wf.half_iff.1 hw
  obtain ⟨-, -, hsrc, himm⟩ := Wf.half_operand hw
  have hu : unpack [1, 1, 1] (encHalf h).mods = [h.m6, h.m7, h.m8] := unpack_pack _ (Wf.half_modifiers hw)
  simp only [parseHalf, hu]
  simp [encHalf, dstOf_dstMode_dstIdx hd, hsrc, himm]

theorem canon_writeHalf {h : Half} (hw : Wf.half h = true) : canon (writeHalf (encHalf h)) 26 = true := (encHalf_fits hw).canon_pack

/-- Unpacking what was packed, with more above it. -/
theorem unpack_pack_above : ∀ (l : List (Nat × Int)) (k : Int), Fitting l →
    unpack (l.map fun p => p.1) (pack l + pow3 (l.map fun p => p.1).sum * k) = l.map fun p => p.2
  | [], _, _ => rfl
  | (w, v) :: r, k, h => by
    have hv := h (w, v) (by simp)
    have hu := shr_unique (v := pack ((w, v) :: r) + pow3 (((w, v) :: r).map fun p => p.1).sum * k) (q := pack r + pow3 (r.map fun p => p.1).sum * k)
      (r := v) (n := w) (by simp only [pack, List.map_cons, List.sum_cons, pow3_add]; ring) hv.1 hv.2
    simp only [List.map_cons, unpack] at hu ⊢
    rw [hu.1, hu.2, unpack_pack_above r k fun p hp => h p (by simp [hp])]

/-- A half is read from its 26 trits, whatever stands above them (R104). -/
theorem readHalf_writeHalf_above {h : Half} (hw : Wf.half h = true) (k : Int) :
    readHalf (writeHalf (encHalf h) + pow3 26 * k) = encHalf h := by
  have hu : unpack [6, 3, 4, 1, 4, 1, 2, 5] (writeHalf (encHalf h) + pow3 26 * k) = _ := unpack_pack_above (encHalf h).fields k (encHalf_fits hw)
  simp only [readHalf, hu]
  rfl

/-- The word of two halves (R104). -/
def pairWord (a b : Half) : Int := pack [(26, writeHalf (encHalf b)), (26, writeHalf (encHalf a)), (2, -4)]

theorem parseWord_pairWord {a b : Half} (ha : Wf.half a = true) (hb : Wf.half b = true) : parseWord (pairWord a b) = .ok (.pairedWord a b) := by
  obtain ⟨ha1, ha2⟩ := canon_iff.1 (canon_writeHalf ha)
  obtain ⟨hb1, hb2⟩ := canon_iff.1 (canon_writeHalf hb)
  have hlow := shr_unique (v := pairWord a b) (q := writeHalf (encHalf a) + pow3 26 * -4) (by simp only [pairWord, pack]; ring) hb1 hb2
  have hhigh := shr_unique (v := writeHalf (encHalf a) + pow3 26 * -4) (q := -4) (by ring) ha1 ha2
  have hform : field (pairWord a b) 53 52 = -4 := by
    have hs : shr (pairWord a b) 52 = -4 := by
      have h2 := shr_shr (pairWord a b) 26 26
      rw [hlow.1, hhigh.1] at h2
      exact h2.symm
    simp only [field, hs]
    decide
  have hreadb := readHalf_writeHalf_above hb 0
  rw [mul_zero, add_zero] at hreadb
  simp only [parseWord, hform, if_true, hlow.1, hlow.2, readHalf_writeHalf_above ha, hreadb, parseHalf_encHalf ha, parseHalf_encHalf hb]

/-! ### Decoding and encoding -/

/-- The word of a well-formed instruction parses to it. -/
theorem parseWord_encode {i : Instr} {w : Int} (hwf : i.wf = true) (hw : encode i = some w) : parseWord w = .ok i := by
  by_cases hraw : encRaw i = none
  · cases i with
    | pairedWord a b =>
      simp only [Instr.wf, Bool.and_eq_true, and_assoc] at hwf
      obtain ⟨ha, hb, -⟩ := hwf
      obtain rfl : pairWord a b = w := by simpa [encode, pairWord] using hw
      exact parseWord_pairWord ha hb
    | _ => simp [encode, hraw] at hw
  · obtain ⟨o, h, r, henc, hcar, hparse⟩ := parses_of_wf hraw hwf
    have hr : writeRaw r = w := by
      cases i with
      | pairedWord a b => exact absurd rfl hraw
      | _ => simpa [encode, henc] using hw
    rw [← hr]
    exact parseWord_writeRaw hcar hparse

/-- What decoding accepts: a well-formed instruction whose encoding is the word (R101, R110, R114). -/
theorem decode_ok {w : Int} {i : Instr} (h : decode w = .ok i) : i.wf = true ∧ encode i = some w := by
  unfold decode at h
  split at h
  next => cases h
  next j _ =>
    split at h
    next => cases h
    next hwf =>
      split at h
      next henc =>
        cases h
        exact ⟨by simpa using hwf, henc⟩
      next => cases h

/-- Settles O57: decoding checks that the instruction is well formed and that its encoding is the word; and a well-formed instruction's fields, each
within its width, are read back from its word. -/
theorem decodeAndEncodeAgree : Obligations.DecodeAndEncodeAgree := by
  unfold Obligations.DecodeAndEncodeAgree
  intro i w
  constructor
  · intro h
    refine decode_ok ?_
    unfold decode? at h
    split at h
    next j hj => rw [hj, Option.some.inj h]
    next => cases h
  · rintro ⟨hwf, henc⟩
    simp [decode?, decode, parseWord_encode hwf henc, hwf, henc]

end Sys2Proof
end

section
/-! ## Certificates: what a word does or traps, from the effect that it runs; updates that agree (R73, R276) -/

namespace Sys2Proof.Machine

open Sys2Proof Tern

/-! ### Words with an effect -/

section
variable {i : Instr} {act : State → Cur → Warp → List Nat → Eff} {P : State → Cur → Warp → List Nat → Prop}
  {e : State → Cur → Warp → List Nat → State} {t : State → Cur → Warp → List Nat → TrapReq}

/-- A word whose effect answers plainly has it and moves on. -/
theorem Does.of_plain (hexec : ∀ s, exec i s = .next (runWord i s act)) (h : ∀ s c w al, P s c w al → act s c w al = .plain (e s c w al)) :
    Does i P e true := fun s c w hr hp => by
  rw [hexec, runWord_plain hr (h _ _ _ _ hp)]

/-- A word whose effect has set the PCs of its issue set. -/
theorem Does.of_moved (hexec : ∀ s, exec i s = .next (runWord i s act)) (h : ∀ s c w al, P s c w al → act s c w al = .moved (e s c w al)) :
    Does i P e false := fun s c w hr hp => by
  rw [hexec, runWord_moved hr (h _ _ _ _ hp)]

/-- A word whose effect is a trap. -/
theorem Traps.of_trap (hexec : ∀ s, exec i s = .next (runWord i s act)) (h : ∀ s c w al, P s c w al → ∃ s2, act s c w al = .trap s2 (t s c w al) ∧ s2 = s) :
    Traps i P t := fun s c w hr hp => by
  obtain ⟨s2, he, rfl⟩ := h _ _ _ _ hp
  rw [hexec, runWord_trap hr he]

/-- An effect that is wanted only up to what the word's warp and lanes are. -/
theorem Does.congr {e' : State → Cur → Warp → List Nat → State} {adv : Bool} (h : Does i P e adv)
    (he : ∀ s c w, Runs i s c w → P (s.counted i c.wid) c w (activeOf i w c.lanes) →
      e (s.counted i c.wid) c w (activeOf i w c.lanes) = e' (s.counted i c.wid) c w (activeOf i w c.lanes)) : Does i P e' adv :=
  fun s c w hr hp => by rw [h s c w hr hp, he s c w hr hp]

/-- A condition that says more. -/
theorem Does.imp {Q : State → Cur → Warp → List Nat → Prop} {adv : Bool} (h : Does i Q e adv) (hq : ∀ s c w al, P s c w al → Q s c w al) :
    Does i P e adv := fun s c w hr hp => h s c w hr (hq _ _ _ _ hp)

end

/-! ### The warp that runs -/

/-- The warp as its word's effect finds it. -/
theorem Runs.counted_warp? {i : Instr} {s : State} {c : Cur} {w : Warp} (h : Runs i s c w) :
    (s.counted i c.wid).warp? c.wid = some (w.countYields (wordCount i)) := by
  rw [State.counted_warp h.warp, if_pos rfl]

theorem Warp.countYields_lane_eq (w : Warp) (n : Int) {l : Nat} (h : l < w.lanes.length) {β : Type} (g : Lane → β)
    (hg : ∀ x y, g { x with yielded := y } = g x) : g ((w.countYields n).lane l) = g (w.lane l) := by
  rw [Warp.countYields_lane w n h, hg]

/-- The active lanes are lanes of the issue set. -/
theorem Runs.active_lt {i : Instr} {s : State} {c : Cur} {w : Warp} (h : Runs i s c w) {l : Nat} (hl : l ∈ activeOf i w c.lanes) : l < w.lanes.length := by
  rw [h.shaped.lanes]
  refine h.set l ?_
  unfold activeOf activeLanes at hl
  split at hl
  · split at hl
    · exact (List.mem_filter.1 hl).1
    · split at hl
      · exact hl
      · cases hl
  · exact hl

/-! ### Updates that agree -/

theorem modFirst_congr {α : Type} {p : α → Bool} {f g : α → α} : ∀ {l : List α}, (∀ x, l.find? p = some x → f x = g x) → modFirst p f l = modFirst p g l
  | [], _ => rfl
  | x :: xs, h => by
    by_cases hp : p x = true
    · simp [modFirst, hp, h x (by simp [hp])]
    · simp only [modFirst, hp, Bool.false_eq_true, if_false]
      rw [modFirst_congr (l := xs) fun y hy => h y (by simp [hp, hy])]

/-- Two updates of a warp that agree on the warp found. -/
theorem State.modWarp_congr {s : State} {n : Nat} {f g : Warp → Warp} (h : ∀ x, s.warp? n = some x → f x = g x) : s.modWarp n f = s.modWarp n g := by
  unfold State.modWarp
  rw [modFirst_congr h]

/-- Two updates of a gang that agree on the gang found. -/
theorem State.modGang_congr {s : State} {n : Nat} {f g : Gang → Gang} (h : ∀ x, s.gang? n = some x → f x = g x) : s.modGang n f = s.modGang n g := by
  unfold State.modGang
  rw [modFirst_congr h]

theorem modIdx_congr {α : Type} {f g : Nat → α → α} : ∀ {i : Nat} {l : List α}, (∀ k x, l[k]? = some x → f (i + k) x = g (i + k) x) → modIdx f i l = modIdx g i l
  | _, [], _ => rfl
  | i, x :: xs, h => by
    have h0 := h 0 x rfl
    rw [Nat.add_zero] at h0
    have hrest : modIdx f (i + 1) xs = modIdx g (i + 1) xs := modIdx_congr fun k y hy => by
      have := h (k + 1) y hy
      rwa [show i + (k + 1) = i + 1 + k by omega] at this
    rw [modIdx, modIdx, h0, hrest]

/-- Two updates of the lanes that agree on each lane. -/
theorem Warp.allLanes_congr {w : Warp} {f g : Nat → Lane → Lane} (h : ∀ l < w.lanes.length, f l (w.lane l) = g l (w.lane l)) : w.allLanes f = w.allLanes g := by
  have hlanes : modIdx f 0 w.lanes = modIdx g 0 w.lanes := modIdx_congr fun k x hx => by
    obtain ⟨hk, rfl⟩ := List.getElem?_eq_some_iff.1 hx
    have := h k hk
    simpa [Warp.lane, List.getD_eq_getElem?_getD, List.getElem?_eq_getElem hk] using this
  unfold Warp.allLanes
  rw [hlanes]

theorem Warp.modLanes_eq_allLanes (w : Warp) (ls : List Nat) (f : Nat → Lane → Lane) :
    w.modLanes ls f = w.allLanes fun l x => if ls.contains l then f l x else x := rfl

theorem modIdx_modIdx {α : Type} (f g : Nat → α → α) : ∀ (i : Nat) (l : List α), modIdx f i (modIdx g i l) = modIdx (fun k x => f k (g k x)) i l
  | _, [] => rfl
  | i, _ :: xs => by simp [modIdx, modIdx_modIdx f g (i + 1) xs]

theorem Warp.allLanes_allLanes (w : Warp) (f g : Nat → Lane → Lane) : (w.allLanes g).allLanes f = w.allLanes fun l x => f l (g l x) := by
  simp only [Warp.allLanes, modIdx_modIdx]

theorem modIdx_id {α : Type} : ∀ (i : Nat) (l : List α), modIdx (fun _ x => x) i l = l
  | _, [] => rfl
  | i, _ :: xs => by rw [modIdx, modIdx_id (i + 1) xs]

theorem Warp.allLanes_id (w : Warp) : (w.allLanes fun _ x => x) = w := by simp only [Warp.allLanes, modIdx_id]

end Sys2Proof.Machine
end

section
/-! ## Certificates: control words (R73, R77 to R82, R279, R353 to R358, R367, R388, R406, R415, R424, R436, R440) -/

namespace Sys2Proof.Machine

open Sys2Proof Tern

/-- Settles O7: each word's effect is the one stated, with the lanes of its issue set updated one by one. -/
theorem nopExitYldIsync : Obligations.NopExitYldIsync := by
  unfold Obligations.NopExitYldIsync
  refine ⟨fun h => Does.of_plain (fun _ => rfl) fun _ _ _ _ _ => rfl, fun h => Does.of_moved (fun _ => rfl) fun _ _ _ _ _ => rfl,
    fun h => Does.of_plain (fun _ => rfl) fun _ _ _ _ _ => rfl, fun h => Does.of_plain (fun _ => rfl) fun s c w al hal => ?_⟩
  rw [if_neg (by simpa using hal)]

/-- Settles O8: a branch without an active lane moves on; one of a handler sets the handler PC; else the active lanes take their targets. -/
theorem branchesGoToTheirTargets : Obligations.BranchesGoToTheirTargets := by
  unfold Obligations.BranchesGoToTheirTargets
  refine ⟨fun o => ?_, fun o => ?_, fun o => ?_, fun o => Does.of_moved (fun _ => rfl) fun _ _ _ _ _ => rfl⟩
  · refine Does.of_moved (fun _ => rfl) fun s c w al hp => ?_
    rw [if_neg (by simpa using hp.1), if_neg (by simp [hp.2])]
    cases o.t <;> rfl
  · refine Does.of_moved (fun _ => rfl) fun s c w al hp => ?_
    rw [if_neg (by simpa using hp.1), if_pos hp.2]
    cases o.t <;> rfl
  · refine Does.of_plain (fun _ => rfl) fun s c w al hp => ?_
    rw [if_pos (by simpa using hp)]

/-! ### Waits of single lanes (R82, R424, R436) -/

/-- Waits set lane by lane, outside handler mode. -/
theorem foldl_waitOn (p : Nat → Bool) (k : Nat → WaitKind) (pc : Int) : ∀ (al : List Nat) (x : Warp), x.handler = false →
    al.foldl (fun w l => if p l then w else w.waitOn [l] (k l) pc) x =
      x.allLanes fun l y => if al.contains l && !p l then { y with wait := some ⟨k l, pc⟩ } else y
  | [], x, _ => by simp [Warp.allLanes_id]
  | a :: as, x, hx => by
    rw [List.foldl_cons]
    by_cases hp : p a = true
    · rw [if_pos hp, foldl_waitOn p k pc as x hx]
      refine Warp.allLanes_congr fun l _ => ?_
      by_cases hl : l = a
      · subst hl; simp [hp]
      · simp [hl]
    · rw [if_neg hp]
      have hw : x.waitOn [a] (k a) pc = x.allLanes fun l y => if [a].contains l then { y with wait := some ⟨k a, pc⟩ } else y := by
        unfold Warp.waitOn
        rw [if_neg (by simp [hx])]
        rfl
      rw [hw, foldl_waitOn p k pc as _ (by simpa using hx), Warp.allLanes_allLanes]
      refine Warp.allLanes_congr fun l _ => ?_
      by_cases hl : l = a
      · subst hl
        by_cases has : l ∈ as <;> simp [has, hp]
      · simp [hl]

/-- A WAITJ does not run in handler mode (R279). -/
theorem Runs.waitj_handler {o : WaitjA} {s : State} {c : Cur} {w : Warp} (h : Runs (.waitj o) s c w) : w.handler = false := by
  have hl := h.legal
  unfold Machine.legal at hl
  simp only [Bool.and_eq_true, and_assoc] at hl
  obtain ⟨-, -, hh, -⟩ := hl
  simpa [Instr.noHandler] using hh

/-- Settles O11: each active lane's wait is set on its own; a lane whose due time has come does not sleep. -/
theorem waitjAndSleeptWait : Obligations.WaitjAndSleeptWait := by
  unfold Obligations.WaitjAndSleeptWait
  refine ⟨fun o => ?_, fun o => ?_⟩
  · refine (Does.of_plain (fun _ => rfl) fun _ _ _ _ _ => rfl).congr fun s c w hr _ => State.modWarp_congr fun x hx => ?_
    rw [hr.counted_warp?] at hx
    obtain rfl := Option.some.inj hx
    have hfold := foldl_waitOn (fun _ => false) (fun l => .join ((s.counted (.waitj o) c.wid).now + o.n) o.d (w.lane l).depth ((w.lane l).made + 1)) c.pc
      (activeOf (.waitj o) w c.lanes) (w.countYields (wordCount (.waitj o))) hr.waitj_handler
    simp only [Bool.false_eq_true, if_false] at hfold
    rw [hfold]
    refine Warp.allLanes_congr fun l hl => ?_
    rw [Warp.countYields_length] at hl
    rw [Warp.countYields_lane w _ hl]
    simp [State.now]
  · refine (Does.of_plain (fun _ => rfl) fun _ _ _ _ _ => rfl).congr fun s c w hr hh => State.modWarp_congr fun x hx => ?_
    rw [hr.counted_warp?] at hx
    obtain rfl := Option.some.inj hx
    rw [foldl_waitOn (fun l => sleepOver (s.counted (.sleept o) c.wid).now (sleepDue w l o)) (fun l => .sleep (sleepDue w l o)) c.pc _ (w.countYields _) hh]
    refine Warp.allLanes_congr fun l hl => ?_
    have hover : sleepOver (s.counted (.sleept o) c.wid).now (sleepDue w l o) =
        !decide (narrow ((s.counted (.sleept o) c.wid).pkg.gtime - narrow (w.src l false o.a + o.e) 27) 27 < 0) := by
      rw [← decide_not]
      exact decide_eq_decide.2 not_lt.symm
    simp only [hover, Bool.and_eq_true, Bool.not_not, decide_eq_true_eq]
    rfl

/-! ### Calls and returns (R77 to R79, R356 to R358, R415) -/

theorem failing_eq_nil {al : List Nat} {f : Nat → Option Int} : failing al f = [] ↔ ∀ l ∈ al, f l = none := by
  simp [failing]

theorem scrub_nil (s : State) (gid : Nat) : scrub s gid [] = s := by
  unfold scrub
  split
  · rfl
  · simp [nodups]

/-- A lane may be called exactly when neither check of R79 fails. -/
theorem callBad_eq_none {g : Gang} {w : Warp} {l : Nat} : callBad g w l = none ↔
    (w.lane l).depth ≠ 9841 ∧ (9 ≤ (w.lane l).depth → spillOk g (w.spill + 81 * (((w.lane l).depth - 9 : Nat) : Int)) = true) := by
  have hline : w.spillLine ((w.lane l).depth + 1 - 10) = w.spill + 81 * (((w.lane l).depth - 9 : Nat) : Int) := by
    rw [Warp.spillLine, show (w.lane l).depth + 1 - 10 = (w.lane l).depth - 9 by omega]
  unfold callBad
  dsimp only
  rw [hline]
  by_cases h1 : (w.lane l).depth = 9841
  · simp [h1]
  · by_cases h9 : 9 ≤ (w.lane l).depth <;> by_cases hok : spillOk g (w.spill + 81 * (((w.lane l).depth - 9 : Nat) : Int)) = true <;> simp [h1, h9, hok]

theorem callFits_iff {g : Gang} {w : Warp} {al : List Nat} : Rule.callFits g w al ↔ failing al (callBad g w) = [] := by
  simp only [failing_eq_nil, callBad_eq_none, Rule.callFits]

section
variable {i : Instr} {target : Warp → Cur → Nat → Int} (hexec : ∀ s, exec i s = .next (callWord i s target))
include hexec

/-- A call that fits and whose spill words can be read. -/
theorem Does.of_call (g : Gang) : Does i (fun s _ w al => gangOf s w = some g ∧ Rule.callFits g w al ∧ ∀ u ∈ callUnits w al, g.unread u.2 3 = false)
    (fun s c w al => ((scrub s g.gid ((callUnits w al).map fun u => (u.2, 3))).modGang g.gid (spillCalls w al)).modWarp c.wid
      (Rule.called c al (target w c))) false := by
  refine Does.of_moved hexec fun s c w al ⟨hg, hfit, hread⟩ => ?_
  have hlost : ((callUnits w al).filter fun u => g.unread u.2 3) = [] := by
    simpa [List.filter_eq_nil_iff] using hread
  simp only [hg, callFits_iff.1 hfit, hlost]
  rfl

theorem Traps.of_call_stack (g : Gang) : Traps i (fun s _ w al => gangOf s w = some g ∧ ¬ Rule.callFits g w al)
    (fun _ _ w al => ⟨cause.stack, failing al (callBad g w)⟩) := by
  refine Traps.of_trap hexec fun s c w al ⟨hg, hfit⟩ => ⟨s, ?_, rfl⟩
  rw [callFits_iff] at hfit
  simp only [hg]

theorem Traps.of_call_uncor (g : Gang) : Traps i
    (fun s _ w al => gangOf s w = some g ∧ Rule.callFits g w al ∧ ∃ u ∈ callUnits w al, g.unread u.2 3 = true)
    (fun _ _ w al => ⟨cause.uncor, ((callUnits w al).filter fun u => g.unread u.2 3).map fun u => (u.1, 0, 81 * (u.2 / 81))⟩) := by
  refine Traps.of_trap hexec fun s c w al ⟨hg, hfit, u, hu, hlost⟩ => ⟨s, ?_, rfl⟩
  have hne : ((callUnits w al).filter fun u => g.unread u.2 3) ≠ [] := List.ne_nil_of_mem (List.mem_filter.2 ⟨hu, hlost⟩)
  simp only [hg, callFits_iff.1 hfit]

end

/-- The spill stores of calls below depth 9: none (R78). -/
theorem spillCalls_of_shallow {w : Warp} (hw : ∀ l, (w.lane l).depth < 9) (g : Gang) : ∀ al : List Nat, spillCalls w al g = g := by
  intro al
  unfold spillCalls
  induction al generalizing g with
  | nil => rfl
  | cons a as ih =>
    have ha := hw a
    rw [List.foldl_cons, if_neg (by omega)]
    exact ih g

theorem callUnits_of_shallow {w : Warp} (hw : ∀ l, (w.lane l).depth < 9) (al : List Nat) : callUnits w al = [] := by
  have hnone : (al.filter fun l => decide (9 ≤ (w.lane l).depth) && ((w.lane l).entry ((w.lane l).depth - 8)).isSome) = [] := by
    rw [List.filter_eq_nil_iff]
    intro l _
    have := hw l
    simp
    omega
  rw [callUnits, hnone]
  rfl

/-- A return is refused at depth 0. -/
theorem retBad_of_zero {g : Gang} {w : Warp} {l : Nat} (h : (w.lane l).depth = 0) : retBad g w l = some 0 := by
  simp [retBad, h]

/-- The newest entry of a lane's link stack. -/
theorem Lane.entry_depth (x : Lane) : x.entry x.depth = x.link.headD none := by
  unfold Lane.entry
  rw [Nat.sub_self]
  cases x.link <;> rfl

/-- A lane below depth 10 whose newest entry is held needs no spill line. -/
theorem ret_held {g : Gang} {w : Warp} {l : Nat} {v : Int} {r : List (Option Int)} (h1 : 1 ≤ (w.lane l).depth) (h9 : (w.lane l).depth ≤ 9)
    (hlink : (w.lane l).link = some v :: r) : retBad g w l = none ∧ retLines w l = [] := by
  have he : (w.lane l).entry (w.lane l).depth = some v := by rw [Lane.entry_depth, hlink]; rfl
  have h0 : ¬ (w.lane l).depth = 0 := by omega
  have h10 : ¬ 10 ≤ (w.lane l).depth := by omega
  simp [retBad, retLines, he, h0, h10]

section
variable {h : Hd}

/-- A return that passes its checks and whose spill words can be read. -/
theorem Does.of_ret (g : Gang) : Does (.ret h) (fun s _ w al => gangOf s w = some g ∧ failing al (retBad g w) = [] ∧
      ∀ l ∈ al, ∀ a ∈ retLines w l, g.unread (a + 3 * (l : Int)) 3 = false)
    (fun s c w al => (scrub s g.gid (al.flatMap fun l => (retLines w l).map fun a => (a + 3 * (l : Int), 3))).modWarp c.wid fun x => x.allLanes (fun l x => if c.lanes.contains l then
      (if al.contains l then retLane g w l x else { x with pc := x.pc + 1 }) else x)) false := by
  refine Does.of_moved (fun _ => rfl) fun s c w al ⟨hg, hfit, hread⟩ => ?_
  have hlost : (failing al fun l => (retLines w l).find? fun a => g.unread (a + 3 * (l : Int)) 3) = [] := by
    rw [failing_eq_nil]
    intro l hl
    simpa using hread l hl
  simp only [hg, hfit, hlost]
  rfl

theorem Traps.of_ret_stack (g : Gang) : Traps (.ret h) (fun s _ w al => gangOf s w = some g ∧ ∃ l ∈ al, (w.lane l).depth = 0)
    (fun _ _ w al => ⟨cause.stack, failing al (retBad g w)⟩) := by
  refine Traps.of_trap (fun _ => rfl) fun s c w al ⟨hg, l, hl, hd⟩ => ⟨s, ?_, rfl⟩
  have hne : failing al (retBad g w) ≠ [] := fun h0 => by
    have := failing_eq_nil.1 h0 l hl
    rw [retBad_of_zero hd] at this
    cases this
  simp only [hg]

theorem Traps.of_ret_uncor (g : Gang) : Traps (.ret h) (fun s _ w al => gangOf s w = some g ∧ failing al (retBad g w) = [] ∧
      ∃ l ∈ al, ∃ a ∈ retLines w l, g.unread (a + 3 * (l : Int)) 3 = true)
    (fun _ _ w al => ⟨cause.uncor, failing al fun l => (retLines w l).find? fun a => g.unread (a + 3 * (l : Int)) 3⟩) := by
  refine Traps.of_trap (fun _ => rfl) fun s c w al ⟨hg, hfit, l, hl, a, ha, hu⟩ => ⟨s, ?_, rfl⟩
  have hne : (failing al fun l => (retLines w l).find? fun a => g.unread (a + 3 * (l : Int)) 3) ≠ [] := fun h0 => by
    have := failing_eq_nil.1 h0 l hl
    simp only [List.find?_eq_none] at this
    exact this a ha hu
  simp only [hg, hfit]

/-- Below depth 10 a lane whose newest entry is held goes there. -/
theorem Does.of_ret_held (g : Gang) : Does (.ret h) (fun s _ w al => gangOf s w = some g ∧ ∀ l ∈ al, 1 ≤ (w.lane l).depth ∧ (w.lane l).depth ≤ 9 ∧
      ∃ v r, (w.lane l).link = some v :: r)
    (fun s c _ al => s.modWarp c.wid fun x => x.allLanes (fun l x => if c.lanes.contains l then
      (if al.contains l then { x with depth := x.depth - 1, link := x.link.drop 1, pc := (x.link.headD none).getD 0 } else { x with pc := x.pc + 1 })
      else x)) false := by
  refine ((Does.of_ret g).imp fun s c w al ⟨hg, hheld⟩ => ⟨hg, ?_, ?_⟩).congr fun s c w hr ⟨_, hheld⟩ => ?_
  case refine_1 =>
    have hus : ((activeOf (.ret h) w c.lanes).flatMap fun l => (retLines w l).map fun a => (a + 3 * (l : Int), 3)) = [] := by
      rw [List.flatMap_eq_nil_iff]
      intro l hl
      obtain ⟨h1, h9, v, r, hlink⟩ := hheld l hl
      rw [(ret_held (g := g) h1 h9 hlink).2]
      rfl
    rw [hus, scrub_nil]
    refine State.modWarp_congr fun x hx => Warp.allLanes_congr fun l hl => ?_
    rw [hr.counted_warp?] at hx
    obtain rfl := Option.some.inj hx
    rw [Warp.countYields_length] at hl
    rw [Warp.countYields_lane w _ hl]
    split
    · split
      next hal =>
        obtain ⟨h1, h9, v, r, hlink⟩ := hheld l (by simpa using hal)
        have h10 : ¬ 10 ≤ (w.lane l).depth := by omega
        simp only [retLane, Lane.entry_depth, hlink, Lane.ret, List.headD_cons, ge_iff_le, if_neg h10, Option.getD_some]
      next => rfl
    · rfl
  case refine_2 =>
    rw [failing_eq_nil]
    intro l hl
    obtain ⟨h1, h9, v, r, hlink⟩ := hheld l hl
    exact (ret_held h1 h9 hlink).1
  case refine_3 =>
    intro l hl a ha
    obtain ⟨h1, h9, v, r, hlink⟩ := hheld l hl
    rw [(ret_held (g := g) h1 h9 hlink).2] at ha
    cases ha

end

/-- Settles O9: a call's and a return's effect by the outcome of its checks, in their order; a lane below depth 9 has no spill store, and below depth 10
a return whose entry is held reads no spill line. -/
theorem callsPushAndReturnsPop : Obligations.CallsPushAndReturnsPop := by
  unfold Obligations.CallsPushAndReturnsPop
  refine ⟨fun o g => ?_, fun o g => ?_, fun i o p g hi => ?_, fun i o p g hi => ?_, fun w al hw => callUnits_of_shallow hw al,
    fun w g hw al => spillCalls_of_shallow hw g al, fun h g => Does.of_ret_held g, fun h g => Does.of_ret g, fun h g => Traps.of_ret_stack g,
    fun h g => Traps.of_ret_uncor g⟩
  · refine (Does.of_call (i := .call o) (fun _ => rfl) g).congr fun s c w _ _ => ?_
    cases o.t <;> rfl
  · exact Does.of_call (i := .calli o) (fun _ => rfl) g
  · obtain rfl | rfl := hi
    · exact Traps.of_call_stack (fun _ => rfl) g
    · exact Traps.of_call_stack (fun _ => rfl) g
  · obtain rfl | rfl := hi
    · exact Traps.of_call_uncor (fun _ => rfl) g
    · exact Traps.of_call_uncor (fun _ => rfl) g

end Sys2Proof.Machine
end

section
/-! ## Certificates: words on named barriers, channels and transaction barriers (R87 to R91, R170, R171, R198, R201, R214 to R222) -/

namespace Sys2Proof.Machine

open Sys2Proof Tern

/-! ### Releases that words carry (R198, R201) -/

/-- A release that is over, or awaits nothing, is used up and the word goes on. -/
theorem releaseFirst_freed {s : State} {c : Cur} {w : Warp} {scope : Int} (h : Rule.freed s c w scope) (go : State → Eff) :
    releaseFirst s c w scope go = go (Rule.unheld s c w) := by
  unfold releaseFirst Rule.unheld
  by_cases hr : w.released = some c.pc
  · simp [hr]
  · simp [hr, h.resolve_left hr]

/-- The word stays and its warp waits for what the release awaits. -/
def heldBack (s : State) (c : Cur) (w : Warp) (scope : Int) : State :=
  s.modWarp c.wid fun x => { x.modLanes c.lanes (fun _ y => { y with tested := true }) with
    fence := some ⟨scope, 1, fenceAwaits s w scope 1, false⟩, released := some c.pc }

/-- A release that awaits something keeps the word where it is. -/
theorem releaseFirst_held {s : State} {c : Cur} {w : Warp} {scope : Int} (hc : c.hstep = none) (h : ¬ Rule.freed s c w scope) (go : State → Eff) :
    releaseFirst s c w scope go = .stay (heldBack s c w scope) := by
  unfold Rule.freed at h
  simp only [not_or] at h
  unfold releaseFirst
  rw [if_neg h.1, if_neg (by simp [h.2, hc])]
  rfl

theorem runWord_stay {i : Instr} {s : State} {c : Cur} {w : Warp} (h : Runs i s c w) {act : State → Cur → Warp → List Nat → Eff} {s2 : State}
    (he : act (s.counted i c.wid) c w (activeOf i w c.lanes) = .stay s2) : runWord i s act = s2 := by
  rw [runWord_eq h]
  dsimp only
  rw [he]

/-- A word whose effect carries a release of the scope. -/
theorem HoldsBack.of_release {i : Instr} {P : State → Cur → Warp → List Nat → Prop} {scope : Int} {act : State → Cur → Warp → List Nat → Eff}
    (hexec : ∀ s, exec i s = .next (runWord i s act)) (h : ∀ s c w al, P s c w al → ∃ go, act s c w al = releaseFirst s c w scope go) :
    Rule.HoldsBack i P scope := fun s c w hr hp hheld => by
  obtain ⟨go, he⟩ := h _ _ _ _ hp
  rw [hexec, runWord_stay hr (he.trans (releaseFirst_held hr.own hheld go))]
  rfl

theorem releaseGang_freed {s : State} {c : Cur} {w : Warp} (h : Rule.gangFreed s c w) (go : State → Eff) :
    releaseGang s c w go = go (Rule.gangUnheld s c w) := by
  unfold releaseGang Rule.gangUnheld
  by_cases hp : pairGang s w = true
  · rw [if_pos hp, if_pos hp, releaseFirst_freed (h hp)]
  · rw [if_neg hp, if_neg hp]

theorem releaseAt_freed {s : State} {c : Cur} {w : Warp} {l : TbLoc} (h : Rule.tbFreed s c w l) (go : State → Eff) :
    releaseAt s c w l go = go (Rule.tbUnheld s c w l) := by
  cases l with
  | scr g a => exact releaseGang_freed h go
  | glob p a => exact releaseFirst_freed h go

/-! ### Named barriers (R87 to R91) -/

/-- The misuse cases of an arrival are those stated (R90). -/
theorem barGood_iff {g : Gang} {wid : Nat} {q n : Int} : Rule.barGood g wid q n ↔ barMisuse g wid q n = false := by
  unfold Rule.barGood barMisuse
  by_cases hq : q < 0
  · simp [hq, not_le.2 hq]
  · rw [if_neg hq]
    cases hb : g.bars[q.toNat]? with
    | none => simp
    | some b => cases ho : b.operand <;> simp [inR, not_lt.1 hq, ho, and_assoc]

/-- What a wait becomes when phase ph of barrier q completes now: a wait for the release (R91). -/
def barWaitEnd (now : Int) (g : Gang) (q : Nat) (ph : Int) (w : Warp) (x : Wait) : Wait :=
  match x.kind with
  | .bar b p => if b = q ∧ p = ph then { x with kind := .barEnd q (barDue g now w) } else x
  | _ => x

theorem endBarPhase_eq (s : State) (g : Gang) (q : Nat) (ph : Int) : endBarPhase s g q ph =
    { s with warps := s.warps.map fun w => if w.gid = some g.gid then
      (w.allLanes fun _ x => { x with wait := x.wait.map (barWaitEnd s.now g q ph w), hwait := x.hwait.map (barWaitEnd s.now g q ph w) })
    else w } := rfl

theorem barDue_eq (g : Gang) (now : Int) (w : Warp) : barDue g now w = now + (match w.place with
    | .slot c _ _ => if g.cores.head? = some c then 1 else 9
    | _ => 1) := by
  unfold barDue
  cases w.place with
  | slot c b k => by_cases h : g.cores.head? = some c <;> simp [h]
  | saved => rfl
  | seq k => rfl

theorem barWaitEnd_eq (now : Int) (g : Gang) (q : Nat) (ph : Int) (w : Warp) : barWaitEnd now g q ph w = Rule.barEnds now g q ph w := by
  funext x
  unfold barWaitEnd Rule.barEnds
  rw [barDue_eq]
  cases hk : x.kind with
  | bar b p =>
    by_cases h : b = q ∧ p = ph
    · simp [h] <;> rfl
    · simp [h]
  | _ => simp

/-- What an arrival leaves, by whether it completes its phase. -/
theorem barAfter_eq (s : State) (g : Gang) (w : Warp) (q : Nat) (n : Int) (drop : Bool) :
    (if ((g.bars.getD q Bar.start).arrive w.wid n drop).phase = (g.bars.getD q Bar.start).phase then s
      else endBarPhase s g q (g.bars.getD q Bar.start).phase) = Rule.barAfter s g w q n drop := by
  rw [endBarPhase_eq]
  simp only [barWaitEnd_eq]
  rfl

section
variable {i : Instr} {o : BarA} {drop wait : Bool} (hexec : ∀ s, exec i s = .next (barWord i o drop wait s)) (g : Gang)
include hexec

/-- An arrival that is no misuse, its release over (R88, R91). -/
theorem Does.of_bar : Does i (fun s c w al => gangOf s w = some g ∧ al ≠ [] ∧ Rule.barGood g w.wid o.q o.n ∧ Rule.gangFreed s c w)
    (fun s c w al =>
      let s1 := Rule.barArrived (Rule.gangUnheld s c w) g w o.q.toNat o.n drop
      Rule.barAfter (if wait then s1.modWarp c.wid fun x => x.waitOn al (.bar o.q.toNat (g.bars.getD o.q.toNat Bar.start).phase) c.pc else s1)
        g w o.q.toNat o.n drop) true := by
  refine Does.of_plain hexec fun s c w al ⟨hg, hal, hgood, hfreed⟩ => ?_
  simp only [hg, List.isEmpty_iff, hal, if_false, barGood_iff.1 hgood, Bool.false_eq_true]
  rw [releaseGang_freed hfreed]
  exact congrArg Eff.plain (barAfter_eq _ _ _ _ _ _)

theorem Traps.of_bar_misuse : Traps i (fun s _ w al => gangOf s w = some g ∧ al ≠ [] ∧ ¬ Rule.barGood g w.wid o.q o.n)
    (fun _ _ _ al => ⟨cause.barx, listed al 0 0⟩) := by
  refine Traps.of_trap hexec fun s c w al ⟨hg, hal, hbad⟩ => ⟨s, ?_, rfl⟩
  rw [barGood_iff, Bool.not_eq_false] at hbad
  simp only [hg, List.isEmpty_iff, hal, if_false, hbad, if_true]

theorem HoldsBack.of_bar : Rule.HoldsBack i (fun s _ w al => gangOf s w = some g ∧ al ≠ [] ∧ Rule.barGood g w.wid o.q o.n ∧ pairGang s w = true) (-1) := by
  refine HoldsBack.of_release hexec fun s c w al ⟨hg, hal, hgood, hpair⟩ => ?_
  simp only [hg, List.isEmpty_iff, hal, if_false, barGood_iff.1 hgood, Bool.false_eq_true, releaseGang, hpair, if_true]
  exact ⟨_, rfl⟩

end

/-- An arrival of a warp that has not dropped: the phase completes exactly when its arrivals reach the operand less the earlier drops (R88, R89). -/
theorem Bar.arrive_count (b : Bar) (wid : Nat) (n : Int) (drop : Bool) (hd : b.dropped.contains wid = false) :
    let k : Int := (b.arrived.length : Int) + (if b.arrived.contains wid then 0 else 1)
    let e : Int := n - ((b.drops + (if drop then 1 else 0)) - (b.dropsNow + (if drop then 1 else 0)))
    let b' := b.arrive wid n drop
    b'.drops = b.drops + (if drop then 1 else 0) ∧
    (k = e → b'.phase = (b.phase + 1) % 27 ∧ b'.arrived = [] ∧ b'.dropsNow = 0 ∧ b'.operand = none) ∧
    (k ≠ e → b'.phase = b.phase ∧ (b'.arrived.length : Int) = k ∧ b'.operand = some n) := by
  have hlen : (((if b.arrived.contains wid then b.arrived else b.arrived ++ [wid] : List Nat)).length : Int) =
      (b.arrived.length : Int) + (if b.arrived.contains wid then 0 else 1) := by
    cases b.arrived.contains wid <;> simp
  dsimp only
  rw [← hlen]
  unfold Bar.arrive
  generalize (if b.arrived.contains wid then b.arrived else b.arrived ++ [wid] : List Nat) = arrived
  cases drop
  · simp only [Bool.false_and, Bool.false_eq_true, if_false, add_zero]
    split
    next h => exact ⟨rfl, fun _ => ⟨rfl, rfl, rfl, rfl⟩, fun hne => absurd h hne⟩
    next h => exact ⟨rfl, fun he => absurd he h, fun _ => ⟨rfl, rfl, rfl⟩⟩
  · simp only [hd, Bool.not_false, Bool.and_self, if_true]
    split
    next h => exact ⟨rfl, fun _ => ⟨rfl, rfl, rfl, rfl⟩, fun hne => absurd h hne⟩
    next h => exact ⟨rfl, fun he => absurd he h, fun _ => ⟨rfl, rfl, rfl⟩⟩

/-- Settles O12: the three arriving words share one effect, whose cases are the misuse, the release awaited and the arrival. -/
theorem namedBarrierWordsArriveAndWait : Obligations.NamedBarrierWordsArriveAndWait := by
  unfold Obligations.NamedBarrierWordsArriveAndWait
  refine ⟨fun o g => Does.of_bar (drop := false) (wait := false) (fun _ => rfl) g, fun o g => Does.of_bar (drop := false) (wait := true) (fun _ => rfl) g,
    fun o g => Does.of_bar (drop := true) (wait := false) (fun _ => rfl) g, fun o g => ?_, fun i o g hi => ?_, fun o g => ?_, Bar.arrive_count⟩
  · refine Does.of_plain (fun _ => rfl) fun s c w al ⟨hg, hal, hq, hlt⟩ => ?_
    simp [hg, hal, not_lt.2 hq, List.getElem?_eq_getElem hlt]
  · obtain rfl | rfl | rfl := hi
    · exact ⟨Traps.of_bar_misuse (drop := false) (wait := false) (fun _ => rfl) g, HoldsBack.of_bar (drop := false) (wait := false) (fun _ => rfl) g⟩
    · exact ⟨Traps.of_bar_misuse (drop := false) (wait := true) (fun _ => rfl) g, HoldsBack.of_bar (drop := false) (wait := true) (fun _ => rfl) g⟩
    · exact ⟨Traps.of_bar_misuse (drop := true) (wait := false) (fun _ => rfl) g, HoldsBack.of_bar (drop := true) (wait := false) (fun _ => rfl) g⟩
  · refine Traps.of_trap (fun _ => rfl) fun s c w al ⟨hg, hal, hbad⟩ => ⟨s, ?_, rfl⟩
    have hcond : (o.q < 0 || (g.bars[o.q.toNat]?).isNone) = true := by
      by_cases hq : o.q < 0
      · simp [hq]
      · have hlen : g.bars.length ≤ o.q.toNat := not_lt.1 fun hlt => hbad ⟨not_lt.1 hq, hlt⟩
        simp [hlen]
    simp only [hg, List.isEmpty_iff, hal, if_false, hcond, if_true]

/-! ### Channels (R214 to R222) -/

section
variable {i : Instr} {k : Int} {a : Warp → Arrival} (hexec : ∀ s, exec i s = .next (snArrive i s k a)) (ch : Channel)
include hexec

theorem Does.of_snArrive : Does i (fun s _ w al => al ≠ [] ∧ snFind s w k al = .ok ch ∧ ch.misuse w.wid (a w) = false)
    (fun s _ w _ => (Rule.chanMet (s.commitWarp w) ch.ch w).modChan ch.ch fun x => x.arrive w.wid w.slotKey (a w) s.now) true := by
  refine Does.of_plain hexec fun s c w al ⟨hal, hfind, hgood⟩ => ?_
  simp only [List.isEmpty_iff, hal, if_false, hfind, hgood, Bool.false_eq_true]
  rfl

theorem Traps.of_snArrive : Traps i (fun s _ w al => al ≠ [] ∧ snFind s w k al = .ok ch ∧ ch.misuse w.wid (a w) = true)
    (fun _ _ _ al => ⟨cause.snx, listed al k 0⟩) := by
  refine Traps.of_trap hexec fun s c w al ⟨hal, hfind, hbad⟩ => ⟨s, ?_, rfl⟩
  simp only [List.isEmpty_iff, hal, if_false, hfind, hbad, if_true]

end

/-- Settles O13: the arriving words share one effect; the reading words answer by what the warp has seen. -/
theorem channelWordsArriveAndRead : Obligations.ChannelWordsArriveAndRead := by
  unfold Obligations.ChannelWordsArriveAndRead
  refine ⟨fun o ch => Does.of_snArrive (fun _ => rfl) ch, fun o ch => Does.of_snArrive (fun _ => rfl) ch,
    fun o ch => Does.of_snArrive (i := .snr o) (a := fun w => .value o.op (w.greg o.a)) (fun _ => rfl) ch,
    fun o ch => Does.of_snArrive (i := .snb o) (a := fun w => .bcast (w.greg o.a)) (fun _ => rfl) ch,
    fun o ch => Traps.of_snArrive (fun _ => rfl) ch, fun o ch => Traps.of_snArrive (fun _ => rfl) ch,
    fun o ch => Traps.of_snArrive (i := .snr o) (a := fun w => .value o.op (w.greg o.a)) (fun _ => rfl) ch,
    fun o ch => Traps.of_snArrive (i := .snb o) (a := fun w => .bcast (w.greg o.a)) (fun _ => rfl) ch,
    fun o ch ph v => ?_, fun o ch ph => ?_, fun o ch => ?_, fun o ch ph v => ?_, fun o ch ph => ?_, fun o ch => ?_⟩
  all_goals
    refine Does.of_plain (fun _ => rfl) fun s c w al ⟨hal, hfind, hseen⟩ => ?_
    simp [hal, hfind, hseen]
  · rfl

/-! ### Transaction barriers (R170, R171, R201, R430, R431) -/

section
variable {i : Instr} {a b : Nat} {e : Int} {ok : Int → Bool} {f : State → Cur → Warp → List Nat → TbLoc → Int → Eff}
  (hexec : ∀ s, exec i s = .next (tbWord1 i s a b e ok f)) {s1 : State} {l : TbLoc} {P : Cur → Warp → List Nat → Prop}
  {eff : Cur → Warp → List Nat → State}
include hexec

/-- A word on a transaction barrier that it finds, with a value in range. -/
theorem Does.of_tbWord (h : ∀ c w al, P c w al → ok (w.greg b) = true ∧ f s1 c w al l (w.greg b) = .plain (eff c w al)) :
    Does i (fun s c w al => al ≠ [] ∧ tbFind s w a e al = (s1, .ok l) ∧ P c w al) (fun _ c w al => eff c w al) true := by
  refine Does.of_plain hexec fun s c w al ⟨hal, hfind, hp⟩ => ?_
  obtain ⟨hok, hf⟩ := h c w al hp
  simp only [List.isEmpty_iff, hal, if_false, hfind, hok, Bool.not_true, Bool.false_eq_true, hf]

end

/-- Settles O14: each word finds its barrier, takes a value in range, and acts on the barrier found. -/
theorem transactionBarrierWords : Obligations.TransactionBarrierWords := by
  unfold Obligations.TransactionBarrierWords
  refine ⟨fun o s1 l => Does.of_tbWord (fun _ => rfl) fun c w al ⟨hlo, hhi⟩ => ⟨by simp [inR, hlo, hhi], rfl⟩,
    fun o s1 l => Does.of_tbWord (fun _ => rfl) fun c w al hlo => ⟨by simpa using hlo, rfl⟩,
    fun o s1 l s2 => Does.of_tbWord (fun _ => rfl) fun c w al ⟨hlo, hpend, hfreed, harr⟩ => ⟨by simpa using hlo, ?_⟩,
    fun o s1 l => Does.of_tbWord (fun _ => rfl) fun c w al ⟨hlo, hhi, hph⟩ => ⟨by simp [inR, hlo, hhi], by rw [if_pos hph]⟩,
    fun o s1 l => Does.of_tbWord (fun _ => rfl) fun c w al ⟨hlo, hhi, hph⟩ => ⟨by simp [inR, hlo, hhi], by rw [if_neg hph]⟩,
    fun o s1 l => Does.of_tbWord (fun _ => rfl) fun c w al ⟨hlo, hhi⟩ => ⟨by simp [inR, hlo, hhi], rfl⟩⟩
  rw [if_neg hpend, releaseAt_freed hfreed, harr]
  rfl

end Sys2Proof.Machine
end

section
/-! ## Certificates: floating words, moves, conversions and lane words (R53 to R68, R350 to R352, R363, R364, R369 to R379, R401 to R407, R417, R423, R433 to R435) -/

namespace Sys2Proof.Machine

open Sys2Proof Tern

/-! ### Floating elements (R339) -/

theorem Fl.all_three (a b c : Fl) : Fl.all [a, b, c] = (a.or b).or c := by
  simp only [Fl.all, List.foldl_cons, List.foldl_nil, Fl.none_or]

/-- A floating element function acts on each element, and the word raises what the elements raise. -/
theorem felems_eq (ty : FTy) (f : Fmt → List Int → Int × Fl) (xs : List Int) :
    felems ty f xs = (Rule.eachF ty (fun F xs => (f F xs).1) xs, Rule.flagsF ty (fun F xs => (f F xs).2) xs) := by
  cases ty with
  | f27 => rfl
  | f9 =>
    have hrange : upto 3 = [0, 1, 2] := rfl
    simp only [felems, hrange, List.map_cons, List.map_nil, split_trytes, List.getD_cons_zero, List.getD_cons_succ, join_trytes, Fl.all_three]
    rfl

/-! ### Destinations of the floating words -/

theorem dst_of_wf_f1 {o : F1} (h : Wf.f1 o = true) : Wf.dst o.hd.form false o.d = true := by
  simp only [Wf.f1, Bool.and_eq_true] at h
  obtain ⟨⟨-, hdst⟩, -⟩ := h
  exact hdst
theorem dst_of_wf_f2 {o : F2} (h : Wf.f2 o = true) : Wf.dst o.hd.form false o.d = true := by
  simp only [Wf.f2, Bool.and_eq_true] at h
  obtain ⟨⟨⟨-, hdst⟩, -⟩, -⟩ := h
  exact hdst
theorem dst_of_wf_fma {o : F3} (h : (Instr.fma o).wf = true) : Wf.dst o.hd.form false o.d = true := by
  simp only [Instr.wf, Bool.and_eq_true] at h
  obtain ⟨⟨⟨⟨-, hdst⟩, -⟩, -⟩, -⟩ := h
  exact hdst
theorem dst_of_wf_frnd {o : FRnd} (h : (Instr.frnd o).wf = true) : Wf.dst o.hd.form false o.d = true := by
  simp only [Instr.wf, Bool.and_eq_true] at h
  obtain ⟨⟨⟨-, hdst⟩, -⟩, -⟩ := h
  exact hdst
theorem dst_of_wf_fscl {o : FScl} (h : (Instr.fscl o).wf = true) : Wf.dst o.hd.form false o.d = true := by
  simp only [Instr.wf, Bool.and_eq_true] at h
  obtain ⟨⟨⟨-, hdst⟩, -⟩, -⟩ := h
  exact hdst

end Sys2Proof.Machine

namespace Sys2Proof.Rule

open Sys2Proof.Machine Sys2Proof.Tern

section
variable {i : Instr} {d : Dst} {ty : FTy} {as : List Src} {r : Fmt → List Int → Int × Fl}

theorem FltOp.writesDst (h : FltOp i d ty as r) : WritesDst i d false := by
  cases h with
  | fadd o | fsub o | fmul o | fmin o | fmax o | fdiv o => exact .of_dst rfl rfl rfl dst_of_wf_f2
  | fma o => exact .of_dst rfl rfl rfl dst_of_wf_fma
  | fneg o | fabs o | fsqrt o | frcp o | frsq o | fexp o | flog o | fexp3 o | flog3 o | ftanh o | fcls o => exact .of_dst rfl rfl rfl dst_of_wf_f1
  | frnd o => exact .of_dst rfl rfl rfl dst_of_wf_frnd

/-- The model's word applies an element function that is the rule's. -/
theorem FltOp.exec_eq (h : FltOp i d ty as r) :
    ∃ f, (∀ s, exec i s = .next (computeWord i s d false (fkindOf ty) fun w l => felems ty f (as.map (w.src l false)))) ∧ f = r := by
  cases h with
  | fma o =>
    refine ⟨_, fun _ => rfl, ?_⟩
    funext f xs
    have hfma : fmaV = fun vs => match vs with
        | [x, y, z] => (match mulV x y with | some p => addV p z | none => .invalid) | _ => .invalid := by
      funext vs
      match vs with
      | [a, b, c] =>
        simp only [fmaV]
        cases mulV a b <;> rfl
      | [] | [_] | [_, _] | _ :: _ :: _ :: _ :: _ => rfl
    rw [hfma]
    rfl
  | fmul o =>
    refine ⟨_, fun _ => rfl, ?_⟩
    funext f xs
    have hmul : mulR = fun x y => match mulV x y with | some v => resV v | none => .invalid := by
      funext x y
      unfold mulR
      cases mulV x y <;> rfl
    rw [hmul]
    rfl
  | fmin o | fmax o | fneg o | fabs o | fcls o => exact ⟨_, fun _ => rfl, by funext f xs; rfl⟩
  | fadd o | fsub o | fdiv o | fsqrt o | frcp o | frsq o | fexp o | flog o | fexp3 o | flog3 o | ftanh o | frnd o => exact ⟨_, fun _ => rfl, rfl⟩

end

/-- Settles O17: each word is computeWord over its element function, which is the rule's. -/
theorem floatingWords : Obligations.FloatingWords := by
  unfold Obligations.FloatingWords
  intro i d ty as r h
  obtain ⟨f, hexec, rfl⟩ := h.exec_eq
  exact h.writesDst.computes hexec fun w l => felems_eq ty f _

end Sys2Proof.Rule

namespace Sys2Proof.Machine

open Sys2Proof Tern

/-! ### Words whose results depend on the set of active lanes -/

/-- A word that hands a function of the active lanes to crossWord computes it. -/
theorem WritesDst.computes_cross {i : Instr} {d : Dst} {dbl : Bool} (hd : WritesDst i d dbl) {k : ResKind} {f x : Warp → List Nat → Nat → Int}
    {fl e : Warp → List Nat → Fl} (hv : i.wf = true → i.isVector = true) (hexec : ∀ s, exec i s = .next (crossWord i s d dbl k f fl))
    (hf : ∀ w al l, (∀ j ∈ al, j < 27) → f w al l = x w al l) (hfl : ∀ w al, fl w al = e w al) :
    Computes i (.reg d dbl) x (fun w al _ => e w al) := by
  intro s c w hr
  obtain ⟨w', hw'⟩ := crossWord_spec hr d dbl k f fl hd.own hd.latching (hv hr.wf) (hd.vector hr.wf (hv hr.wf))
  have hal : ∀ j ∈ activeOf i w c.lanes, j < 27 := fun j hj => hr.shaped.lanes ▸ hr.active_lt hj
  have hx : f w (activeOf i w c.lanes) = x w (activeOf i w c.lanes) := funext fun l => hf _ _ _ hal
  rw [hx, hfl] at hw'
  exact ⟨_, w', hexec s, hw'⟩

/-- A word of the vector form only, whose destination is one of that form. -/
theorem WritesDst.of_vector {i : Instr} {h : Hd} {d : Dst} {dbl : Bool} (hhd : i.hd? = some h) (hown : i.dsts = [(d, dbl)])
    (hlatch : noLatch i = false) (hdst : i.wf = true → h.form = .vector ∧ Wf.dst .vector dbl d = true) :
    WritesDst i d dbl ∧ (i.wf = true → i.isVector = true) :=
  ⟨.of_dst hhd hown hlatch fun hwf => (hdst hwf).1 ▸ (hdst hwf).2, fun hwf => by simp [Instr.isVector, hhd, (hdst hwf).1]⟩

theorem dst_of_wf_mov {o : MovA} (h : (Instr.mov o).wf = true) : Wf.dst o.hd.form o.dbl o.d = true := by
  simp only [Instr.wf, Bool.and_eq_true] at h
  exact h.1.2
theorem dst_of_wf_movi {o : MoviA} (h : (Instr.movi o).wf = true) : Wf.dst o.hd.form false o.d = true := by
  simp only [Instr.wf, Bool.and_eq_true] at h
  exact h.1.2
theorem dst_of_wf_movh {o : MoviA} (h : (Instr.movh o).wf = true) : Wf.dst o.hd.form true o.d = true := by
  simp only [Instr.wf, Bool.and_eq_true] at h
  obtain ⟨⟨⟨-, hdst⟩, -⟩, -⟩ := h
  exact hdst
theorem dst_of_wf_movc {o : MovcA} (h : (Instr.movc o).wf = true) : Wf.dst o.hd.form false o.d = true := by
  simp only [Instr.wf, Bool.and_eq_true] at h
  exact h.1.2
theorem dst_of_wf_cvt {o : CvtA} (h : (Instr.cvt o).wf = true) : Wf.dst o.hd.form false o.d = true := by
  simp only [Instr.wf, Bool.and_eq_true] at h
  exact h.1.2
theorem dst_of_wf_bcvt {o : BcvtA} (h : (Instr.bcvt o).wf = true) : Wf.dst o.hd.form (bWide o.fmt && !o.toTernary) o.d = true := by
  simp only [Instr.wf, Bool.and_eq_true] at h
  exact h.1.2
theorem dst_of_wf_sel {o : Sel} (h : (Instr.sel o).wf = true) : Wf.dst o.hd.form o.dbl o.d = true := by
  simp only [Instr.wf, Bool.and_eq_true] at h
  obtain ⟨⟨⟨⟨⟨-, hdst⟩, -⟩, -⟩, -⟩, -⟩ := h
  exact hdst

theorem dst_of_wf_planes {o : PackA} (h : (Wf.hv o.hd && Wf.tr o.fmt && Wf.dst .vector false o.d && Wf.src .vector false o.a) = true) :
    o.hd.form = .vector ∧ Wf.dst .vector false o.d = true := by
  simp only [Bool.and_eq_true, Wf.hv_iff] at h
  exact ⟨h.1.1.1.1, h.1.2⟩
theorem dst_of_wf_pcnt {o : PCnt} (h : (Instr.pcnt o).wf = true) : o.hd.form = .vector ∧ Wf.dst .vector false o.d = true := by
  simp only [Instr.wf, Bool.and_eq_true, Wf.hv_iff] at h
  obtain ⟨⟨⟨⟨hv, -⟩, hdst⟩, -⟩, -⟩ := h
  exact ⟨hv.1, hdst⟩
theorem dst_of_wf_shfl {o : Shfl} (h : (Instr.shfl o).wf = true) : o.hd.form = .vector ∧ Wf.dst .vector o.dbl o.d = true := by
  simp only [Instr.wf, Bool.and_eq_true, Wf.hv_iff] at h
  obtain ⟨⟨⟨⟨⟨⟨hv, -⟩, -⟩, hdst⟩, -⟩, -⟩, -⟩ := h
  exact ⟨hv.1, hdst⟩
theorem dst_of_wf_bcst {o : Bcst} (h : (Instr.bcst o).wf = true) : o.hd.form = .vector ∧ Wf.dst .vector o.dbl o.d = true := by
  simp only [Instr.wf, Bool.and_eq_true, Wf.hv_iff] at h
  obtain ⟨⟨⟨⟨⟨hv, -⟩, -⟩, hdst⟩, -⟩, -⟩ := h
  exact ⟨hv.1, hdst⟩
theorem dst_of_wf_vred {o : VRed} (h : (Instr.vred o).wf = true) : o.hd.form = .vector ∧ Wf.dst .vector (o.ty == .d) o.d = true := by
  simp only [Instr.wf, Bool.and_eq_true, Wf.hv_iff] at h
  obtain ⟨⟨⟨⟨⟨hv, -⟩, -⟩, -⟩, hdst⟩, -⟩ := h
  exact ⟨hv.1, hdst⟩

/-- Settles O18: each word hands its result to computeWord, or, where it depends on the active lanes, to crossWord. -/
theorem movingAndConvertingWords : Obligations.MovingAndConvertingWords := by
  unfold Obligations.MovingAndConvertingWords
  intro i t x f h
  cases h with
  | mov o => exact (WritesDst.of_dst rfl rfl rfl dst_of_wf_mov).computes (fun _ => rfl) fun _ _ => rfl
  | movi o => exact (WritesDst.of_dst rfl rfl rfl dst_of_wf_movi).computes (fun _ => rfl) fun _ _ => rfl
  | movh o =>
    refine (WritesDst.of_dst (i := .movh o) rfl rfl rfl dst_of_wf_movh).computes (fun _ => rfl) fun w l => ?_
    cases o.d <;> rfl
  | movc o =>
    refine (WritesDst.of_dst (i := .movc o) rfl rfl rfl dst_of_wf_movc).computes (fun _ => rfl) fun w l => ?_
    cases o.a <;> rfl
  | cvt o => exact (WritesDst.of_dst rfl rfl rfl dst_of_wf_cvt).computes (fun _ => rfl) fun _ _ => rfl
  | bcvt o => exact (WritesDst.of_dst rfl rfl rfl dst_of_wf_bcvt).computes (fun _ => rfl) fun _ _ => rfl
  | sel o => exact (WritesDst.of_dst rfl rfl rfl dst_of_wf_sel).computes (fun _ => rfl) fun _ _ => rfl
  | pack o => exact (WritesDst.of_vector (i := .pack o) rfl rfl rfl dst_of_wf_planes).1.computes (fun _ => rfl) fun _ _ => rfl
  | unpack o => exact (WritesDst.of_vector (i := .unpack o) rfl rfl rfl dst_of_wf_planes).1.computes (fun _ => rfl) fun _ _ => rfl
  | pcnt o =>
    obtain ⟨hd, hv⟩ := WritesDst.of_vector (i := .pcnt o) rfl rfl rfl dst_of_wf_pcnt
    exact hd.computes_cross hv (fun _ => rfl) (fun _ _ _ _ => rfl) fun _ _ => rfl
  | shfl o =>
    obtain ⟨hd, hv⟩ := WritesDst.of_vector (i := .shfl o) rfl rfl rfl dst_of_wf_shfl
    exact hd.computes_cross hv (fun _ => rfl) (fun _ _ _ _ => rfl) fun _ _ => rfl
  | bcst o =>
    obtain ⟨hd, hv⟩ := WritesDst.of_vector (i := .bcst o) rfl rfl rfl dst_of_wf_bcst
    exact hd.computes_cross hv (fun _ => rfl) (fun _ _ _ _ => rfl) fun _ _ => rfl
  | fscl o => exact (WritesDst.of_dst rfl rfl rfl dst_of_wf_fscl).computes (fun _ => rfl) fun w l => felems_eq o.ty _ _

/-! ### Reductions and scans (R434, R435) -/

/-- An integer reduction gives the rule's result. -/
theorem intRed_fst (n : Nat) (op s : Int) (xs : List Int) : (intRed n op s xs).1 = Rule.reduced n op s xs := by
  unfold intRed Rule.reduced
  split
  · rfl
  · split
    · simp only [max_def]
    · have hmin : (fun a x : Int => min a x) = fun a x => if x ≤ a then x else a := by
        funext a x
        rw [min_comm, min_def]
      rw [hmin]

theorem contrib_whole {w : Warp} {al : List Nat} (hal : ∀ j ∈ al, j < 27) (dbl : Bool) (a : Src) :
    contrib w al dbl a 26 = al.map fun j => w.src j dbl a := by
  have hfilter : (al.filter fun j => decide (j ≤ 26)) = al := List.filter_eq_self.2 fun j hj => by
    have := hal j hj
    simp
    omega
  rw [contrib, hfilter]

theorem isEmpty_ite {al : List Nat} {a b : Fl} : (if al.isEmpty then a else b) = if al = [] then a else b := by
  cases al <;> simp

section
variable {o : VRed}

theorem intLane_word (hty : o.ty = .w ∨ o.ty = .d) (w : Warp) (al : List Nat) (l : Nat) :
    (intLane o w al l).1 = Rule.reduced (if o.ty = .d then 54 else 27) o.op o.s18 (contrib w al (o.ty == .d) o.a l) := by
  obtain hw | hd := hty
  · simp only [intLane, hw, intRed_fst]
    rfl
  · simp only [intLane, hd, intRed_fst]
    rfl

theorem isFloat_false (hty : o.ty = .w ∨ o.ty = .d ∨ o.ty = .t) : VTy.isFloat o.ty = false := by
  obtain h | h | h := hty <;> rw [h] <;> rfl

theorem trees_f27 (hty : o.ty = .f27) (w : Warp) (al : List Nat) : trees o w al = [treeOf tf27 o.op o.s18 o.fzo (fcontrib o w al 0)] := by
  rw [trees, hty, if_neg (by decide)]
theorem trees_f9 (hty : o.ty = .f9) (w : Warp) (al : List Nat) :
    trees o w al = (List.range 3).map fun k => treeOf tf9 o.op o.s18 o.fzo (fcontrib o w al k) := by
  rw [trees, hty, if_pos (by rfl)]
  rfl

theorem join_one (x : Int) : join 9 [x] = x := by simp [join]
theorem Fl.all_one (f : Fl) : Fl.all [f] = f := Fl.none_or f

end

section
variable {o : VRed} {x : Warp → List Nat → Nat → Int} {e : Warp → List Nat → Fl}

theorem computes_vred (hx : ∀ w al l, (∀ j ∈ al, j < 27) →
      (if VTy.isFloat o.ty then join 9 ((trees o w al).map fun t => t.1) else (intLane o w al 26).1) = x w al l)
    (he : ∀ w al, (if VTy.isFloat o.ty then Fl.all ((trees o w al).map fun t => t.2.2.1) else (intLane o w al 26).2) = e w al) :
    Computes (.vred o) (.reg o.d (o.ty == .d)) x (fun w al _ => if al = [] then Fl.none else e w al) := by
  obtain ⟨hd, hv⟩ := WritesDst.of_vector (i := .vred o) rfl rfl rfl dst_of_wf_vred
  exact hd.computes_cross (e := fun w al => if al = [] then Fl.none else e w al) hv (fun _ => rfl) hx fun w al => by rw [isEmpty_ite, he]

theorem computes_vscan (hx : ∀ w al l, (if VTy.isFloat o.ty then join 9 ((trees o w al).map fun t => t.2.1 l) else (intLane o w al l).1) = x w al l)
    (he : ∀ w al, (if VTy.isFloat o.ty then Fl.all ((trees o w al).map fun t => t.2.2.2) else Fl.all (al.map fun l => (intLane o w al l).2)) = e w al) :
    Computes (.vscan o) (.reg o.d (o.ty == .d)) x (fun w al _ => if al = [] then Fl.none else e w al) := by
  obtain ⟨hd, hv⟩ := WritesDst.of_vector (i := .vscan o) rfl rfl rfl (dst_of_wf_vred (o := o))
  exact hd.computes_cross (e := fun w al => if al = [] then Fl.none else e w al) hv (fun _ => rfl) (fun w al l _ => hx w al l)
    fun w al => by rw [isEmpty_ite, he]

end

/-- Settles O20: a reduction's result and flags by its type: an integer fold of the contributions, or the tree of each element. -/
theorem reductionsAndScans : Obligations.ReductionsAndScans := by
  unfold Obligations.ReductionsAndScans
  refine ⟨fun o hty => ?_, fun o hty => ?_, fun o hty => ?_, fun o hty => ?_, fun o hty => ?_, fun o hty => ?_, fun o hty => ?_, fun o hty => ?_⟩
  · have hint := isFloat_false (o := o) (by tauto)
    refine computes_vred (fun w al l hal => ?_) fun w al => by rw [hint]; rfl
    rw [hint, if_neg Bool.false_ne_true, intLane_word hty, contrib_whole hal]
  · have hint := isFloat_false (o := o) (by tauto)
    refine computes_vscan (fun w al l => ?_) fun w al => by rw [hint]; rfl
    rw [hint, if_neg Bool.false_ne_true, intLane_word hty, contrib]
  · have hint := isFloat_false (o := o) (by tauto)
    have hword : (o.ty == VTy.d) = false := by rw [hty]; rfl
    rw [← hword]
    refine computes_vred (fun w al _ _ => ?_) fun w al => ?_ <;> rw [hint, if_neg Bool.false_ne_true]
  · have hint := isFloat_false (o := o) (by tauto)
    have hword : (o.ty == VTy.d) = false := by rw [hty]; rfl
    rw [← hword]
    refine computes_vscan (fun w al _ => ?_) fun w al => ?_ <;> rw [hint, if_neg Bool.false_ne_true]
  · have hword : (o.ty == VTy.d) = false := by rw [hty]; rfl
    rw [← hword]
    refine computes_vred (fun w al _ _ => ?_) fun w al => ?_ <;> rw [trees_f27 hty, hty, if_pos (by rfl)]
    · exact join_one _
    · exact Fl.all_one _
  · have hword : (o.ty == VTy.d) = false := by rw [hty]; rfl
    rw [← hword]
    refine computes_vred (fun w al _ _ => ?_) fun w al => ?_ <;> rw [trees_f9 hty, List.map_map, hty, if_pos (by rfl)] <;> rfl
  · have hword : (o.ty == VTy.d) = false := by rw [hty]; rfl
    rw [← hword]
    refine computes_vscan (fun w al _ => ?_) fun w al => ?_ <;> rw [trees_f27 hty, hty, if_pos (by rfl)]
    · exact join_one _
    · exact Fl.all_one _
  · have hword : (o.ty == VTy.d) = false := by rw [hty]; rfl
    rw [← hword]
    refine computes_vscan (fun w al _ => ?_) fun w al => ?_ <;> rw [trees_f9 hty, List.map_map, hty, if_pos (by rfl)] <;> rfl

end Sys2Proof.Machine
end

section
/-! ## Certificates: a word with no active lane (R73, R99) -/

namespace Sys2Proof.Machine

open Sys2Proof Tern

/-- A word whose effect has no result and no flag moves on. -/
theorem runWord_nothing {i : Instr} {s : State} {c : Cur} {w : Warp} (h : Runs i s c w) {act : State → Cur → Warp → List Nat → Eff} {s2 : State}
    {k : ResKind} (he : act (s.counted i c.wid) c w (activeOf i w c.lanes) = .done s2 [] [] k) : runWord i s act = s2.endWord i c w true := by
  rw [runWord_eq h]
  dsimp only
  rw [he]
  exact finishWord_plain i s2 c w _ _ true (by simp) h.own

/-- The word i, with no active lane, only moves its issue set on. -/
def OnlyMovesOn (i : Instr) : Prop := Does i (fun _ _ _ al => al = []) (fun s _ _ _ => s) true

theorem OnlyMovesOn.of_effect {i : Instr} {act : State → Cur → Warp → List Nat → Eff} (hexec : ∀ s, exec i s = .next (runWord i s act))
    (h : ∀ s c w, ∃ k, act s c w [] = .done s [] [] k) : OnlyMovesOn i := fun s c w hr hal => by
  obtain ⟨k, hk⟩ := h (s.counted i c.wid) c w
  rw [hexec, runWord_nothing hr (hal ▸ hk)]

theorem OnlyMovesOn.of_plain {i : Instr} {act : State → Cur → Warp → List Nat → Eff} (hexec : ∀ s, exec i s = .next (runWord i s act))
    (h : ∀ s c w, act s c w [] = .plain s) : OnlyMovesOn i := .of_effect hexec fun s c w => ⟨.none, h s c w⟩

/-- A word that computes a result in each active lane, or once, writes none. -/
theorem OnlyMovesOn.of_computeWord {i : Instr} {d : Dst} {dbl : Bool} {k : ResKind} {f : Warp → Nat → Int × Fl}
    (hexec : ∀ s, exec i s = .next (computeWord i s d dbl k f)) : OnlyMovesOn i := .of_effect hexec fun s c w => by
  by_cases hv : i.isVector
  · exact ⟨k, by simp only [hv, if_true, List.map_nil, List.foldl_nil, List.filter_nil]; exact congrArg (Eff.done · [] [] k) (State.modWarp_id ..)⟩
  · exact ⟨.none, by simp [hv, Eff.plain]⟩

theorem OnlyMovesOn.of_predWord {i : Instr} {pd : Nat} {f : Warp → Nat → Int × Fl} (hexec : ∀ s, exec i s = .next (predWord i s pd f)) :
    OnlyMovesOn i := .of_effect hexec fun s c w => by
  by_cases hv : i.isVector
  · exact ⟨.w, by simp only [hv, if_true, List.map_nil, List.foldl_nil, List.filter_nil]; exact congrArg (Eff.done · [] [] .w) (State.modWarp_id ..)⟩
  · exact ⟨.none, by simp [hv, Eff.plain]⟩

theorem OnlyMovesOn.of_crossWord {i : Instr} {d : Dst} {dbl : Bool} {k : ResKind} {f : Warp → List Nat → Nat → Int} {fl : Warp → List Nat → Fl}
    (hexec : ∀ s, exec i s = .next (crossWord i s d dbl k f fl)) : OnlyMovesOn i := .of_effect hexec fun s c w => ⟨k, by
  simp only [List.map_nil, List.foldl_nil, ite_self]; exact congrArg (Eff.done · [] [] k) (State.modWarp_id ..)⟩

/-- A predicate reduced over no active lane writes none. -/
theorem OnlyMovesOn.of_predReduce {i : Instr} {qd : Nat} {a : PSrc} {f : Int → Int → Int} (hexec : ∀ s, exec i s = .next (predReduce i s qd a f)) :
    OnlyMovesOn i := .of_plain hexec fun _ _ _ => rfl

/-- A word of a gang's warp does nothing outside a gang, and nothing in it with no active lane. -/
theorem OnlyMovesOn.of_gang {i : Instr} {act : State → Cur → Warp → List Nat → Gang → Eff}
    (hexec : ∀ s, exec i s = .next (runWord i s fun s c w al => match gangOf s w with | none => .plain s | some g => act s c w al g))
    (h : ∀ s c w g, act s c w [] g = .plain s) : OnlyMovesOn i := .of_plain hexec fun s c w => by
  cases gangOf s w with
  | none => rfl
  | some g => exact h s c w g

theorem OnlyMovesOn.of_gangWord {i : Instr} {f : State → Cur → Warp → Gang → Eff} (hexec : ∀ s, exec i s = .next (gangWord i s f)) :
    OnlyMovesOn i := .of_plain hexec fun s c w => by
  cases hg : gangOf s w <;> rfl

theorem OnlyMovesOn.of_barWord {i : Instr} {o : BarA} {dr wt : Bool} (hexec : ∀ s, exec i s = .next (barWord i o dr wt s)) :
    OnlyMovesOn i := .of_plain hexec fun s c w => by
  cases hg : gangOf s w <;> rfl

/-- The units of no lane: no accesses, no new state. -/
theorem access_nil (s : State) (w : Warp) (n : Nat) (al : Bool) (nd : Need) : access s w [] n al nd = (s, .ok []) := by
  cases al <;> rfl

theorem Warp.modLanes_nil (w : Warp) (f : Nat → Lane → Lane) : w.modLanes [] f = w := by
  rw [Warp.modLanes_eq_allLanes]; exact Warp.allLanes_id w

theorem guarded_nil (s : State) (c : Cur) (w : Warp) (k : Access) (sc : Bool) {go : State → List Nat → State} (h : go s [] = s) :
    guarded s c w k sc [] go = .plain s := by
  unfold guarded
  split
  · exact congrArg Eff.plain h
  · rw [watchTest_nothing s _ _ _ fun u => by simp]
    exact congrArg Eff.plain h

theorem sendUnits_nil (s : State) (w : Warp) (body : List Unit1 → ReqBody) : sendUnits s w [] body = s := by
  simp [sendUnits, sendParts, partLines, nodups]

/-- RED without a determinism key has no check of its own before its lanes'. -/
theorem red_onlyMovesOn {o : RedA} (hd : o.det = none) : OnlyMovesOn (.red o) := fun s c w hr hal => by
  refine (runWord_nothing hr (k := .none) ?_).symm ▸ rfl
  rw [show activeOf (.red o) w c.lanes = [] from hal]
  simp only [laneAddrs, List.map_nil, access_nil, hd, Option.isSome_none, Bool.false_and, Bool.false_eq_true, if_false]
  refine guarded_nil _ c w _ _ ?_
  simp [accsOf, sendUnits_nil, stepAwaits, hr.own, nodups]

/-- TRAP with no active lane does not trap. -/
theorem trap_onlyMovesOn (o : ImmA) : OnlyMovesOn (.trap o) := fun s c w hr hal => by
  have hal' : activeLanes w o.hd c.lanes = [] := hal
  simp only [exec, execTrap, hr.cur, hr.warp, hal', List.isEmpty_nil, Bool.or_true, if_true]
  rw [runWord_nothing hr (k := .none) rfl]

/-- TOUCH with no active lane touches nothing. -/
theorem touch_onlyMovesOn (o : Near) : OnlyMovesOn (.touch o) := .of_gang (fun _ => rfl) fun _ _ _ _ => rfl

theorem icinv_onlyMovesOn (o : Near) : OnlyMovesOn (.icinv o) := .of_plain (fun _ => rfl) fun s c w => by
  cases o.hd.form == .vector <;> simp

theorem yld_onlyMovesOn (h : Hd) : OnlyMovesOn (.yld h) := .of_plain (fun _ => rfl) fun s c _ =>
  congrArg Eff.plain ((State.modWarp_congr fun x _ => Warp.modLanes_nil x _).trans (State.modWarp_id s c.wid))

/-- Settles O23: with no active lane, a word's effect on the state is none, by the family that it belongs to. -/
theorem wordsWithNoActiveLaneMoveOn : Obligations.WordsWithNoActiveLaneMoveOn := by
  unfold Obligations.WordsWithNoActiveLaneMoveOn
  intro i h hh hjmpi hcall hcalli hret hexit hrft hred
  change OnlyMovesOn i
  cases i with
  | abs o | add o | sub o | neg o | mul o | mulh o | mad o | div o | divz o | mod o | min o | max o | sgn o | tsh o | trot o | tlz o
  | tcnt o | tmap o | tbin o | tsel o => exact .of_computeWord fun _ => rfl
  | fadd o | fsub o | fmul o | fma o | fmin o | fmax o | fneg o | fabs o | fdiv o | fsqrt o | frcp o | frsq o | fexp o | flog o
  | fexp3 o | flog3 o | ftanh o | fscl o | fcls o | frnd o => exact .of_computeWord fun _ => rfl
  | sel o | mov o | movi o | movh o | movc o | cvt o | bcvt o | pack o | unpack o => exact .of_computeWord fun _ => rfl
  | fcmp o | cmp o | pset o | ptbl o => exact .of_predWord fun _ => rfl
  | pany o | pall o => exact .of_predReduce fun _ => rfl
  | pcnt o | shfl o | bcst o | vred o | vscan o => exact .of_crossWord fun _ => rfl
  | ld o | st o | ldg o | stg o | atom o | fence o | ldtag o | sttag o | cflush o | cinv o => exact .of_plain (fun _ => rfl) fun _ _ _ => rfl
  | movg o | movs o | bra o | nop o | isync o | pref o => exact .of_plain (fun _ => rfl) fun _ _ _ => rfl
  | waitj o | sleept o => exact .of_plain (fun _ => rfl) fun _ _ _ => congrArg Eff.plain (State.modWarp_id ..)
  | lds o | sts o | ldmc o | barW o => exact .of_gang (fun _ => rfl) fun _ _ _ _ => rfl
  | barA o | barS o | barD o => exact .of_barWord fun _ => rfl
  | sna o | snd o | snr o | snb o | snw o | snp o => exact .of_plain (fun _ => rfl) fun _ _ _ => rfl
  | tbinit o | tbarr o | tbexp o | tbwait o | tbtest o => exact .of_plain (fun _ => rfl) fun _ _ _ => rfl
  | win o | winrel o | task o | tqry o | send o | recv o | xfst o => exact .of_gangWord fun _ => rfl
  | xtab o | lnch o | role o | preh o | brk o => exact .of_plain (fun _ => rfl) fun _ _ _ => rfl
  | wset o | wclr o | wrd o | hlst o | hrdv o | hwrv o | hrdp o | hwrp o | hstep o | hres o => exact .of_plain (fun _ => rfl) fun _ _ _ => rfl
  | red o => exact red_onlyMovesOn (hred o rfl)
  | trap o => exact trap_onlyMovesOn o
  | touch o => exact touch_onlyMovesOn o
  | icinv o => exact icinv_onlyMovesOn o
  | yld h => exact yld_onlyMovesOn h
  | jmpi o => exact absurd rfl (hjmpi o)
  | call o => exact absurd rfl (hcall o)
  | calli o => exact absurd rfl (hcalli o)
  | ret h => exact absurd rfl (hret h)
  | exit h => exact absurd rfl (hexit h)
  | rft h => exact absurd rfl (hrft h)
  | _ => exact nomatch hh

end Sys2Proof.Machine
end

section
/-! ## Certificates: domain memory, NaNs (R4, R55, R56, R195) -/

namespace Sys2Proof.Machine

open Sys2Proof Tern

/-- Elements joined again are the value, in as many trits as they have. -/
theorem join_split (w : Nat) : ∀ (k : Nat) (v : Int), join w (split w k v) = narrow v (w * k)
  | 0, v => by simp [split, join, narrow_zero]
  | k + 1, v => by
    obtain ⟨hhi, hlo⟩ := shr_narrow_narrow v w (w * k)
    have h := shr_narrow (narrow v (w + w * k)) w
    rw [hhi, hlo] at h
    rw [split, join, join_split w k, Nat.mul_succ, Nat.add_comm (w * k) w]
    omega

/-- Reading n elements gives a list when each stands at its key. -/
theorem sgets_eq {m : Store} : ∀ {k : Nat} {vs : List Int}, (∀ i < vs.length, sget m (k + i) = vs.getD i 0) → sgets m k vs.length = vs
  | _, [], _ => rfl
  | k, v :: vs, h => by
    rw [List.length_cons, sgets, sgets_eq fun i hi => by simpa [Nat.add_assoc, Nat.add_comm 1 i] using h (i + 1) (by simpa using hi)]
    exact congrArg (· :: vs) (by simpa using h 0 (by simp))

theorem sgets_ssets (m : Store) (k : Nat) (vs : List Int) : sgets (ssets m k vs) k vs.length = vs :=
  sgets_eq fun i hi => by rw [sget_ssets, if_pos (by omega), Nat.add_sub_cancel_left]

theorem length_split (w k : Nat) (v : Int) : (split w k v).length = k := by simp [split_eq]

theorem Memory.read_write_self (m : Memory) (pkg a : Int) (n : Nat) (v : Int) : (m.write pkg a n v).read pkg a n = narrow v (9 * n) := by
  have h := sgets_ssets m.data (memKey pkg a) (split 9 n v)
  rw [length_split] at h
  rw [Memory.read, Memory.write, h, join_split]

/-- A tryte whose key is outside those written stands. -/
theorem Memory.read_write_of_key_outside (m : Memory) {pkg a q b : Int} {n : Nat} (v : Int)
    (h : memKey q b < memKey pkg a ∨ memKey pkg a + n ≤ memKey q b) : (m.write pkg a n v).read q b 1 = m.read q b 1 := by
  simp only [Memory.read, Memory.write, sgets, sget_ssets, length_split]
  rw [if_neg (by omega)]

/-- Settles O32: the written elements stand at their keys, and joined they are the value; other keys and the tags stand. -/
theorem memoryReadsWhatWasWritten : Obligations.MemoryReadsWhatWasWritten := by
  unfold Obligations.MemoryReadsWhatWasWritten
  intro m pkg a n v hpkg ha hlo hhi
  refine ⟨(m.read_write_self pkg a n v).trans (narrow_of_canon hlo hhi), fun q b hq hb hout => ?_, fun q l => rfl⟩
  refine m.read_write_of_key_outside v ?_
  unfold memKey
  omega

/-! ### NaNs -/

/-- An operand's value under FZI is a NaN exactly when it is one without. -/
theorem Fmt.opnd_of_nan {f : Fmt} {x p : Int} (fzi : Int) (h : f.dec x = .nan p) : f.opnd fzi x = (.nan p, Fl.none) := by
  simp [Fmt.opnd, h, Fmt.isSub]

theorem Fmt.isNan_opnd (f : Fmt) (fzi y : Int) : (f.opnd fzi y).1.isNan = (f.dec y).isNan := by
  unfold Fmt.opnd
  cases h : f.dec y with
  | nan p => simp [Fmt.isSub]
  | inf s => simp [Fmt.isSub]
  | fin m e => dsimp only; split <;> rfl

theorem Fmt.isSignalling_opnd (f : Fmt) (fzi y : Int) : f.isSignalling (f.opnd fzi y).1 = f.isSignalling (f.dec y) := by
  unfold Fmt.opnd
  cases h : f.dec y with
  | nan p => simp [Fmt.isSub]
  | inf s => simp [Fmt.isSub]
  | fin m e => dsimp only; split <;> rfl

theorem Fmt.opnd_flags (f : Fmt) (fzi y : Int) : (f.opnd fzi y).2 = { Fl.none with sb := decide (fzi = 1) && f.isSub (f.dec y) } := by
  unfold Fmt.opnd
  dsimp only
  split
  · rename_i h; rw [h]; rfl
  · rename_i h; rw [Bool.not_eq_true] at h; rw [h]; rfl

/-- Flag sets that hold SB alone join to SB of any of them. -/
theorem foldl_or_sb (l : List Bool) (b : Bool) :
    (l.map fun x => { Fl.none with sb := x }).foldl Fl.or { Fl.none with sb := b } = { Fl.none with sb := b || l.any id } := by
  induction l generalizing b with
  | nil => simp
  | cons x l ih => 
    rw [List.map_cons, List.foldl_cons]
    refine Eq.trans ?_ ((ih (b || x)).trans ?_)
    · rfl
    · simp [Bool.or_assoc]

theorem Fmt.all_opnd_flags (f : Fmt) (fzi : Int) (xs : List Int) :
    Fl.all (xs.map fun y => (f.opnd fzi y).2) = { Fl.none with sb := decide (fzi = 1) && xs.any fun y => f.isSub (f.dec y) } := by
  have h := foldl_or_sb (xs.map fun y => decide (fzi = 1) && f.isSub (f.dec y)) false
  rw [List.map_map] at h
  simp only [Fl.all, Fmt.opnd_flags]
  refine h.trans ?_
  cases decide (fzi = 1) <;> simp

/-- The first NaN of some operands decides. -/
theorem Fmt.firstNan_opnds {f : Fmt} {fzi x p : Int} {before after : List Int} (hb : ∀ y ∈ before, (f.dec y).isNan = false) (hx : f.dec x = .nan p) :
    f.firstNan ((before ++ x :: after).map fun y => (f.opnd fzi y).1) =
      some (.nan (if f.signalling p then f.quiet p else p) ((before ++ x :: after).any fun y => f.isSignalling (f.dec y))) := by
  have hfind : ((before ++ x :: after).map fun y => (f.opnd fzi y).1).find? FV.isNan = some (.nan p) := by
    rw [List.map_append, List.find?_append, List.find?_eq_none.2, List.map_cons, Fmt.opnd_of_nan fzi hx]
    · rfl
    · intro v hv
      obtain ⟨y, hy, rfl⟩ := List.mem_map.1 hv
      simp [Fmt.isNan_opnd, hb y hy]
  have hany : ((before ++ x :: after).map fun y => (f.opnd fzi y).1).any f.isSignalling =
      (before ++ x :: after).any fun y => f.isSignalling (f.dec y) := by
    rw [List.any_map]; exact congrArg _ (funext fun y => f.isSignalling_opnd fzi y)
  simp only [Fmt.firstNan, hfind, hany]

/-- Settles O16: the first NaN among the operands decides the result, and FMIN and FMAX take the other operand of a quiet one. -/
theorem nansPassOn : Obligations.NansPassOn := by
  unfold Obligations.NansPassOn
  refine ⟨fun f fzi fzo before after x g p hb hx => ?_, fun f s x y p hx hq hy => ?_⟩
  · have hfl := f.all_opnd_flags fzi (before ++ x :: after)
    have hnan := Fmt.firstNan_opnds (fzi := fzi) (after := after) hb hx
    simp only [Fmt.op, List.map_map, Function.comp_def, hfl, hnan, Fmt.finish]
    cases (before ++ x :: after).any fun y => f.isSignalling (f.dec y) <;> simp [Fl.or, Fl.none, Fl.nan]
  · have hx0 : f.opnd 0 x = (.nan p, Fl.none) := Fmt.opnd_of_nan 0 hx
    have hy0 : f.opnd 0 y = (f.dec y, Fl.none) := by simp [Fmt.opnd]
    cases hd : f.dec y with
    | nan q => rw [hd] at hy; cases hy
    | inf t => simp [Fmt.minmax, hx0, hy0, hd, Fmt.isSignalling, hq, Fl.or, Fl.none]
    | fin m e => simp [Fmt.minmax, hx0, hy0, hd, Fmt.isSignalling, hq, Fl.or, Fl.none]

end Sys2Proof.Machine
end

section
/-! ## Certificates: rounding (R53, R54) -/

namespace Sys2Proof.Machine

open Sys2Proof Tern

/-! ### Fractions scaled by powers of three -/

/-- The power with a negative exponent on one side is the power with a positive one on the other. -/
theorem zpow_mul_pow_toNat_neg (x : Int) : (3 : ℚ) ^ x * 3 ^ (-x).toNat = 3 ^ x.toNat := by
  rcases Int.le_total 0 x with h | h
  · obtain ⟨k, rfl⟩ := Int.eq_ofNat_of_zero_le h
    simp
  · obtain ⟨k, hk⟩ := Int.eq_ofNat_of_zero_le (Int.neg_nonneg_of_nonpos h)
    obtain rfl : x = -k := by omega
    simp

/-- Scaling both sides of a comparison to natural numbers. -/
theorem exists_scale (x y : Int) : ∃ c : ℚ, 0 < c ∧ (3 : ℚ) ^ (x - y).toNat = c * 3 ^ x ∧ (3 : ℚ) ^ (y - x).toNat = c * 3 ^ y := by
  refine ⟨3 ^ (-y) * 3 ^ (y - x).toNat, by positivity, ?_, ?_⟩
  · have h := zpow_mul_pow_toNat_neg (x - y)
    rw [neg_sub, sub_eq_add_neg, zpow_add₀ (by norm_num)] at h
    rw [← sub_eq_add_neg] at h
    rw [← h]; ring
  · have h : (3 : ℚ) ^ (-y) * 3 ^ y = 1 := by rw [← zpow_add₀ (by norm_num)]; simp
    calc (3 : ℚ) ^ (y - x).toNat = (3 ^ (-y) * 3 ^ y) * 3 ^ (y - x).toNat := by rw [h, one_mul]
      _ = _ := by ring

theorem scaled_lt_iff (a b : Nat) (x y : Int) : a * Nat.pow 3 (x - y).toNat < b * Nat.pow 3 (y - x).toNat ↔ (a : ℚ) * 3 ^ x < b * 3 ^ y := by
  obtain ⟨c, hc, hx, hy⟩ := exists_scale x y
  rw [← Nat.cast_lt (α := ℚ)]
  simp only [Nat.pow_eq, Nat.cast_mul, Nat.cast_pow, Nat.cast_ofNat, hx, hy, mul_left_comm _ c]
  exact mul_lt_mul_iff_right₀ hc

theorem scaled_le_iff (a b : Nat) (x y : Int) : a * Nat.pow 3 (x - y).toNat ≤ b * Nat.pow 3 (y - x).toNat ↔ (a : ℚ) * 3 ^ x ≤ b * 3 ^ y := by
  rw [← not_lt, ← not_lt, scaled_lt_iff]

/-! ### The leading trit -/

/-- k is the number of trits of n/d before the point. -/
def IsLead (n d k : Nat) : Prop := 2 * n ≤ d * 3 ^ k ∧ (k = 0 ∨ d * 3 ^ (k - 1) < 2 * n)

theorem leadFrom_isLead {n d : Nat} : ∀ {fuel k : Nat}, (k = 0 ∨ d * 3 ^ (k - 1) < 2 * n) → 2 * n ≤ d * 3 ^ (k + fuel) → IsLead n d (leadFrom n d fuel k)
  | 0, _, hk, hf => ⟨hf, hk⟩
  | fuel + 1, k, hk, hf => by
    rw [leadFrom]
    split
    · rename_i h; exact ⟨h, hk⟩
    · rename_i h
      exact leadFrom_isLead (.inr (by simpa using h)) (by rwa [Nat.add_assoc, Nat.add_comm 1 fuel])

/-- Five trits are fewer than eight bits. -/
theorem three_pow_le_two_pow (m : Nat) : 3 ^ (m * 5 / 8) ≤ 2 ^ m := by
  have h : (3 ^ (m * 5 / 8)) ^ 8 ≤ (2 ^ m) ^ 8 := calc
    (3 ^ (m * 5 / 8)) ^ 8 = 3 ^ (m * 5 / 8 * 8) := by rw [← Nat.pow_mul]
    _ ≤ 3 ^ (5 * m) := Nat.pow_le_pow_right (by norm_num) (by omega)
    _ = 243 ^ m := by rw [Nat.pow_mul]
    _ ≤ 256 ^ m := Nat.pow_le_pow_left (by norm_num) m
    _ = (2 ^ m) ^ 8 := by rw [← Nat.pow_mul, Nat.mul_comm m 8, Nat.pow_mul]
  exact (Nat.pow_le_pow_iff_left (by norm_num)).1 h

/-- The search starts at or below the leading trit: below, n/d exceeds 2^(m - 1), with m the difference of the logarithms. -/
theorem lead_start {n d : Nat} (hd : 0 < d) (hle : d ≤ n) (hk : (Nat.log2 n - Nat.log2 d) * 5 / 8 - 1 ≠ 0) :
    d * 3 ^ ((Nat.log2 n - Nat.log2 d) * 5 / 8 - 1 - 1) < 2 * n := by
  have hn : 2 ^ Nat.log2 n ≤ n := Nat.log2_self_le (by omega)
  have hd2 : d < 2 ^ (Nat.log2 d + 1) := Nat.lt_log2_self
  have hm : 3 ^ ((Nat.log2 n - Nat.log2 d) * 5 / 8 - 1 - 1) ≤ 2 ^ (Nat.log2 n - Nat.log2 d) :=
    (Nat.pow_le_pow_right (by norm_num) (by omega)).trans (three_pow_le_two_pow _)
  calc d * 3 ^ ((Nat.log2 n - Nat.log2 d) * 5 / 8 - 1 - 1) ≤ d * 2 ^ (Nat.log2 n - Nat.log2 d) := Nat.mul_le_mul_left d hm
    _ < 2 ^ (Nat.log2 d + 1) * 2 ^ (Nat.log2 n - Nat.log2 d) := Nat.mul_lt_mul_of_pos_right hd2 (by positivity)
    _ = 2 * 2 ^ Nat.log2 n := by rw [← Nat.pow_add, ← Nat.pow_succ']; congr 1; omega
    _ ≤ 2 * n := by omega

theorem lead_isLead {n d : Nat} (hd : 0 < d) (hle : d ≤ n) : IsLead n d (lead n d) := by
  refine leadFrom_isLead ?_ ?_
  · by_cases hk : (Nat.log2 n - Nat.log2 d) * 5 / 8 - 1 = 0
    · exact .inl hk
    · exact .inr (lead_start hd hle hk)
  · have hn : n < 2 ^ (Nat.log2 n + 1) := Nat.lt_log2_self
    calc 2 * n ≤ 2 ^ (Nat.log2 n + 2) := by rw [Nat.pow_succ]; omega
      _ ≤ 3 ^ (Nat.log2 n + 2) := Nat.pow_le_pow_left (by norm_num) _
      _ ≤ 3 ^ ((Nat.log2 n - Nat.log2 d) * 5 / 8 - 1 + (Nat.log2 n + 2)) := Nat.pow_le_pow_right (by norm_num) (by omega)
      _ ≤ _ := Nat.le_mul_of_pos_left _ hd

/-! ### The nearest multiple -/

/-- q is the integer nearest to num/den, and of two the lower. -/
structure IsNearest (num den q : Nat) : Prop where
  below : 2 * num ≤ (2 * q + 1) * den
  above : 2 * (q * den) < 2 * num + den

/-- The quotient, one more when the remainder exceeds half of the divisor, is the nearest integer. -/
theorem isNearest_quotient {num den : Nat} (hden : 0 < den) : IsNearest num den (if 2 * (num - num / den * den) > den then num / den + 1 else num / den) := by
  have h := Nat.div_add_mod num den
  have hr := Nat.mod_lt num hden
  rw [Nat.mul_comm] at h
  split
  · exact ⟨by nlinarith, by rw [Nat.add_mul]; omega⟩
  · exact ⟨by rw [Nat.add_mul, Nat.mul_assoc]; omega, by omega⟩

/-- It is exact when nothing remains. -/
theorem remainder_ne_zero_iff {num den q : Nat} (hden : 0 < den) (hq : q = if 2 * (num - num / den * den) > den then num / den + 1 else num / den) :
    num - num / den * den ≠ 0 ↔ num ≠ q * den := by
  have h := Nat.div_add_mod num den
  have hr := Nat.mod_lt num hden
  rw [Nat.mul_comm] at h
  subst hq
  split
  · rw [Nat.add_mul]; omega
  · omega

/-- What is nearest to a fraction is nearest to each form of it. -/
theorem IsNearest.of_eq {num den q a b : Nat} (h : IsNearest num den q) (hden : 0 < den) (hb : 0 < b) (he : num * b = a * den) : IsNearest a b q where
  below := Nat.le_of_mul_le_mul_right (c := den) (by have := Nat.mul_le_mul_right b h.below; linarith) hden
  above := Nat.lt_of_mul_lt_mul_right (a := den) (by have := Nat.mul_lt_mul_of_pos_right h.above hb; linarith)

theorem IsNearest.eq_iff {num den q a b : Nat} (hden : 0 < den) (hb : 0 < b) (he : num * b = a * den) : num = q * den ↔ a = q * b := by
  constructor
  · rintro rfl; exact Nat.eq_of_mul_eq_mul_right hden (by linarith)
  · rintro rfl; exact Nat.eq_of_mul_eq_mul_right hb (by linarith)

theorem IsNearest.distance {a b q : Nat} (h : IsNearest a b q) : 2 * ((a : Int) - q * b).natAbs ≤ b ∧ (2 * ((a : Int) - q * b).natAbs = b → q * b ≤ a) := by
  obtain ⟨hlo, hhi⟩ := h
  rw [Nat.add_mul, Nat.mul_assoc] at hlo
  rw [← Nat.cast_mul]
  omega

/-- A fraction of at most half of 3^p rounds to p trits. -/
theorem IsNearest.fits {num den q p : Nat} (h : IsNearest num den q) (hle : 2 * num ≤ den * 3 ^ p) : 2 * q ≤ 3 ^ p - 1 := by
  have hodd : Odd (3 ^ p) := Odd.pow (by decide)
  have hlt : 2 * q < 3 ^ p + 1 := Nat.lt_of_mul_lt_mul_right (a := den) (by have := h.above; nlinarith)
  obtain ⟨k, hk⟩ := hodd
  omega

/-! ### Rounding -/

/-- n/d·3^e written as a fraction of at least 1 times a power of three. -/
theorem le_mul_pow_scale {n d : Nat} (hn : 0 < n) : d ≤ n * 3 ^ (if n < d then Nat.log2 d - Nat.log2 n + 1 else 0) := by
  split
  · have h1 : 2 ^ Nat.log2 n ≤ n := Nat.log2_self_le (by omega)
    have h2 : d < 2 ^ (Nat.log2 d + 1) := Nat.lt_log2_self
    calc d ≤ 2 ^ (Nat.log2 d + 1) := h2.le
      _ ≤ 2 ^ (Nat.log2 n + (Nat.log2 d - Nat.log2 n + 1)) := Nat.pow_le_pow_right (by norm_num) (by omega)
      _ = 2 ^ Nat.log2 n * 2 ^ (Nat.log2 d - Nat.log2 n + 1) := Nat.pow_add ..
      _ ≤ n * 3 ^ (Nat.log2 d - Nat.log2 n + 1) := Nat.mul_le_mul h1 (Nat.pow_le_pow_left (by norm_num) _)
  · omega

/-- The exponent of the leading trit of n/d·3^e. -/
structure LeadsAt (n d : Nat) (e h : Int) : Prop where
  above : (d : ℚ) * 3 ^ h < 2 * n * 3 ^ e
  below : 2 * (n : ℚ) * 3 ^ e ≤ d * 3 ^ (h + 1)

theorem leadsAt_of_le {n d : Nat} (hd : 0 < d) (hle : d ≤ n) (e : Int) : LeadsAt n d e (e + lead n d - 1) := by
  obtain ⟨hhi, hlo⟩ := lead_isLead hd hle
  have h3 : (0 : ℚ) < 3 ^ e := by positivity
  obtain ⟨k, hk⟩ : ∃ k, lead n d = k + 1 := Nat.exists_eq_succ_of_ne_zero fun h0 => by rw [h0] at hhi; omega
  rw [hk] at hhi hlo ⊢
  simp only [Nat.add_eq_zero_iff, one_ne_zero, and_false, false_or, Nat.add_sub_cancel] at hlo
  have hlo' : (d : ℚ) * 3 ^ k < 2 * n := by exact_mod_cast hlo
  have hhi' : 2 * (n : ℚ) ≤ d * 3 ^ (k + 1) := by exact_mod_cast hhi
  constructor
  · rw [show e + ((k + 1 : Nat) : Int) - 1 = k + e by push_cast; ring, zpow_add₀ (by norm_num), zpow_natCast, ← mul_assoc]
    exact mul_lt_mul_of_pos_right hlo' h3
  · rw [show e + ((k + 1 : Nat) : Int) - 1 + 1 = (k + 1 : Nat) + e by push_cast; ring, zpow_add₀ (by norm_num), zpow_natCast, ← mul_assoc]
    exact mul_le_mul_of_nonneg_right hhi' h3.le

theorem LeadsAt.unscale {n d j : Nat} {e h : Int} (hl : LeadsAt (n * 3 ^ j) d (e - j) h) : LeadsAt n d e h := by
  have hs : ((n * 3 ^ j : Nat) : ℚ) * 3 ^ (e - j) = n * 3 ^ e := by
    push_cast; rw [zpow_sub₀ (by norm_num), zpow_natCast]; field_simp
  obtain ⟨ha, hb⟩ := hl
  rw [mul_assoc, hs, ← mul_assoc] at ha hb
  exact ⟨ha, hb⟩

/-- A fraction n/d·3^e in units of 3^g. -/
def InUnits (n d : Nat) (e g : Int) (num den : Nat) : Prop := 0 < den ∧ (num : ℚ) * (d * 3 ^ g) = den * (n * 3 ^ e)

theorem inUnits_scaled {n d : Nat} (hd : 0 < d) (e g : Int) : InUnits n d e g (n * Nat.pow 3 (e - g).toNat) (d * Nat.pow 3 (g - e).toNat) := by
  obtain ⟨c, hc, hx, hy⟩ := exists_scale e g
  refine ⟨Nat.mul_pos hd (Nat.pow_pos (by norm_num)), ?_⟩
  simp only [Nat.pow_eq, Nat.cast_mul, Nat.cast_pow, Nat.cast_ofNat, hx, hy]
  ring

theorem InUnits.cross {n d num den a b : Nat} {e g : Int} (hd : 0 < d) (h : InUnits n d e g num den) (h' : InUnits n d e g a b) : num * b = a * den := by
  obtain ⟨_, h1⟩ := h
  obtain ⟨_, h2⟩ := h'
  have h3 : (d : ℚ) * 3 ^ g ≠ 0 := by positivity
  have : (num : ℚ) * b = a * den := mul_right_cancel₀ h3 (by linear_combination (b : ℚ) * h1 - den * h2)
  exact_mod_cast this

theorem InUnits.unscale {n d num den j : Nat} {e g : Int} (h : InUnits (n * 3 ^ j) d (e - j) g num den) : InUnits n d e g num den := by
  refine ⟨h.1, h.2.trans ?_⟩
  push_cast; rw [zpow_sub₀ (by norm_num), zpow_natCast]; field_simp

/-- A value whose leading trit stands at most at g + p - 1 is at most half of 3^p units of 3^g. -/
theorem InUnits.le_half {n d num den p : Nat} {e g h : Int} (hd : 0 < d) (hu : InUnits n d e g num den) (hl : LeadsAt n d e h) (hg : h + 1 ≤ g + p) :
    2 * num ≤ den * 3 ^ p := by
  obtain ⟨hden, he⟩ := hu
  have h3 : (0 : ℚ) < d * 3 ^ g := by positivity
  have hp : (3 : ℚ) ^ (h + 1) ≤ 3 ^ g * 3 ^ p := by
    rw [← zpow_natCast, ← zpow_add₀ (by norm_num)]; exact zpow_le_zpow_right₀ (by norm_num) hg
  have : 2 * (num : ℚ) * (d * 3 ^ g) ≤ den * 3 ^ p * (d * 3 ^ g) := calc
    2 * (num : ℚ) * (d * 3 ^ g) = den * (2 * n * 3 ^ e) := by linear_combination 2 * he
    _ ≤ den * (d * 3 ^ (h + 1)) := mul_le_mul_of_nonneg_left hl.below (by positivity)
    _ ≤ den * (d * (3 ^ g * 3 ^ p)) := by gcongr
    _ = _ := by ring
  exact_mod_cast le_of_mul_le_mul_right this h3

/-- Where a value is rounded, and to what. -/
structure RoundsTo (f : Fmt) (n d : Nat) (e h : Int) (num den : Nat) (r : Rounded) : Prop where
  leads : LeadsAt n d e h
  units : InUnits n d e r.g num den
  g_eq : r.g = max h f.emin - f.p + 1
  q_eq : r.q = if 2 * (num - num / den * den) > den then num / den + 1 else num / den
  inexact_eq : r.inexact = (num - num / den * den != 0)
  big_eq : r.big = decide (h > f.emax)
  sub_eq : r.sub = decide (h < f.emin)

/-- The fraction as the model scales it. -/
theorem inUnits_rounding {n d : Nat} (hd : 0 < d) (e g : Int) :
    InUnits n d e g (if e < g then n else n * Nat.pow 3 (e - g).toNat) (if e < g then d * Nat.pow 3 (g - e).toNat else d) := by
  have h := inUnits_scaled (n := n) hd e g
  split
  · rwa [Int.toNat_of_nonpos (by omega : e - g ≤ 0), Nat.pow_eq, pow_zero, Nat.mul_one] at h
  · rwa [Int.toNat_of_nonpos (by omega : g - e ≤ 0), show Nat.pow 3 0 = 1 from rfl, Nat.mul_one] at h

theorem Fmt.round_roundsTo (f : Fmt) {n d : Nat} (e : Int) (hn : 0 < n) (hd : 0 < d) : ∃ h num den, RoundsTo f n d e h num den (f.round n d e) := by
  have hle := le_mul_pow_scale (d := d) hn
  refine ⟨_, _, _, ⟨(leadsAt_of_le hd hle (e - _)).unscale, (inUnits_rounding hd _ _).unscale, rfl, rfl, rfl, rfl, rfl⟩⟩

/-- Settles O15: the fraction in units of 3^g rounds to the nearest integer, and the leading trit bounds it. -/
theorem roundingIsToNearest : Obligations.RoundingIsToNearest := by
  unfold Obligations.RoundingIsToNearest
  refine ⟨fun f n d e hn hd => ?_, by decide⟩
  obtain ⟨h, num, den, hr⟩ := f.round_roundsTo e hn hd
  have hden : 0 < den := hr.units.1
  have hab : InUnits n d e (f.round n d e).g _ _ := inUnits_scaled hd e _
  have hcross := hr.units.cross hd hab
  have hnear : IsNearest num den (f.round n d e).q := hr.q_eq ▸ isNearest_quotient hden
  obtain ⟨hdist, htie⟩ := (hnear.of_eq hden hab.1 hcross).distance
  refine ⟨⟨hdist, ?_, fun ht => by exact_mod_cast htie ht⟩, h, ?_, ?_, ?_, ?_, hr.big_eq, hr.sub_eq⟩
  · rw [hr.inexact_eq, Bool.eq_iff_iff, bne_iff_ne, decide_eq_true_iff]
    exact (((remainder_ne_zero_iff hden hr.q_eq).trans (IsNearest.eq_iff hden hab.1 hcross).not).trans (by norm_cast))
  · exact (scaled_lt_iff d (2 * n) h e).2 (by push_cast; exact hr.leads.above)
  · exact (scaled_le_iff (2 * n) d e (h + 1)).2 (by push_cast; exact hr.leads.below)
  · rw [hr.g_eq, max_def]
    split <;> split <;> omega
  · exact hnear.fits (hr.units.le_half hd hr.leads (by rw [hr.g_eq]; omega))

end Sys2Proof.Machine
end

section
/-! ## Certificates: moves of special registers (R61, R224, R278, R401 to R405) -/

namespace Sys2Proof.Machine

open Sys2Proof Tern

/-! ### A word that changes its warp beside the registers -/

theorem modFirst_modFirst {α : Type} {p : α → Bool} {f g : α → α} (hg : ∀ x, p (g x) = p x) :
    ∀ l : List α, modFirst p f (modFirst p g l) = modFirst p (fun x => f (g x)) l
  | [] => rfl
  | x :: xs => by
    by_cases hp : p x = true
    · simp [modFirst, hp, hg]
    · simp [modFirst, hp, modFirst_modFirst hg xs]

theorem State.modWarp_modWarp (s : State) (n : Nat) (f g : Warp → Warp) (hg : ∀ x, (g x).wid = x.wid) :
    (s.modWarp n g).modWarp n f = s.modWarp n fun x => f (g x) := by
  unfold State.modWarp
  dsimp only
  rw [modFirst_modFirst fun x => by rw [hg]]

/-- A change of the running warp that no check of the word and no count of yields depends on. -/
structure Presets (f : Warp → Warp) (i : Instr) (c : Cur) (w : Warp) : Prop where
  wid : ∀ x, (f x).wid = x.wid
  shaped : (f w).Shaped
  legal : legal i (f w) c.lanes = true
  counts : f (w.countYields (wordCount i)) = (f w).countYields (wordCount i)

section
variable {f : Warp → Warp} {i : Instr} {s : State} {c : Cur} {w : Warp}

theorem Presets.runs (hf : Presets f i c w) (hr : Runs i s c w) : Runs i (s.modWarp c.wid f) c (f w) where
  cur := hr.cur
  warp := by rw [State.warp?_modWarp _ _ _ hf.wid, if_pos rfl, hr.warp]; rfl
  own := hr.own
  wf := hr.wf
  legal := hf.legal
  shaped := hf.shaped
  set := hr.set

theorem Presets.counted (hf : Presets f i c w) (hr : Runs i s c w) :
    (s.modWarp c.wid f).counted i c.wid = (s.counted i c.wid).modWarp c.wid f := by
  have hcount : ∀ x : Warp, (x.countYields (wordCount i)).wid = x.wid := fun _ => rfl
  refine ((State.modWarp_modWarp ({ s with cur := none } : State) c.wid _ f hf.wid).trans ?_).trans
    (State.modWarp_modWarp ({ s with cur := none } : State) c.wid f _ hcount).symm
  refine State.modWarp_congr fun x hx => ?_
  have hxw : x = w := Option.some.inj (hx.symm.trans hr.warp)
  rw [hxw, hf.counts]

/-- What is apart from the changed state is apart from the state. -/
theorem Presets.apart (hf : Presets f i c w) {t : State} (h : Apart (s.modWarp c.wid f) t c.wid) : Apart s t c.wid where
  bytes := h.bytes
  tags := h.tags
  host := h.host
  scratch := h.scratch
  kept := h.kept
  others n hn := by rw [h.others n hn, State.warp?_modWarp _ _ _ hf.wid, if_neg hn]
  cores := h.cores
  launches := h.launches

end

/-! ### MOVG -/

theorem Computed.congr {i : Instr} {s t : State} {c : Cur} {w w' : Warp} {tg : To} {x y : Nat → Int} {f : Nat → Fl} (h : Computed i s t c w w' tg x f)
    (he : x = y) : Computed i s t c w w' tg y f := he ▸ h

theorem movg_computes (o : MovgA) : Computes (.movg o) (.reg (.g o.gd) false)
    (fun w al _ => w.src (if o.lane = -1 then al.headD 0 else o.lane.toNat) false o.a) (fun _ _ _ => Fl.none) := by
  intro s c w hr
  have hexec : exec (.movg o) s = execMovg o s := rfl
  rw [hexec, execMovg, runWord_eq hr]
  dsimp only
  cases hal : activeOf (.movg o) w c.lanes with
  | nil =>
    obtain ⟨w', hw'⟩ := value_none hr (.reg (.g o.gd) false) hal (fun _ => w.src (if o.lane = -1 then 0 else o.lane.toNat) false o.a) (fun _ => Fl.none)
      (latchOf (s.counted (.movg o) c.wid) [] []) (fun _ => ⟨rfl, fun _ _ => rfl⟩) [([], .none)]
    exact ⟨_, w', rfl, hw'⟩
  | cons l0 r =>
    obtain ⟨w', hw'⟩ := value_once hr (.reg (.g o.gd) false) (fun n hn => nomatch hn) rfl rfl (by rw [hal]; simp) 0
      (fun _ => w.src (if o.lane = -1 then l0 else o.lane.toNat) false o.a) (fun _ => Fl.none)
      (latchOf (s.counted (.movg o) c.wid) (l0 :: r) ((l0 :: r).map fun l => (l, (⟨w.src (if o.lane = -1 then l0 else o.lane.toNat) false o.a, false⟩ : Latch)))) []
      (fun _ _ => rfl) (fun _ => ⟨rfl, fun l _ => by rw [hal]; exact latchOf_some _ _ _ l⟩) (fun l v _ => by simp [raisedAt, Fl.isNone])
      [((l0 :: r).map fun l => (l, (⟨w.src (if o.lane = -1 then l0 else o.lane.toNat) false o.a, false⟩ : Latch)), .w)]
    exact ⟨_, w', rfl, hw'⟩

/-! ### MOVS, reading -/

/-- A special register reads the same once the word is taken up. -/
theorem readS_counted (s : State) (i : Instr) (n : Nat) (w : Warp) (l : Nat) (r : SReg) : readS (s.counted i n) w l r = readS s w l r := by
  cases r <;> rfl

theorem movs_read_dst {hd : Hd} {d : Dst} {r : SReg} (h : (Instr.movs ⟨hd, .read d r⟩).wf = true) : Wf.dst hd.form false d = true := by
  simp only [Instr.wf, Bool.and_eq_true] at h
  exact h.2.1

theorem movs_read_writesDst (hd : Hd) (d : Dst) (r : SReg) : WritesDst (.movs ⟨hd, .read d r⟩) d false :=
  .of_dst rfl rfl rfl movs_read_dst

theorem Warp.lane_countYields (w : Warp) (n : Int) (l : Nat) :
    (w.countYields n).lane l = { w.lane l with yielded := (w.lane l).yielded.map fun y => { y with count := y.count - n } } := by
  by_cases h : l < w.lanes.length
  · exact Warp.countYields_lane w n h
  · have h1 : w.lane l = Lane.start 0 := List.getD_eq_default _ _ (by omega)
    have h2 : (w.countYields n).lane l = Lane.start 0 := List.getD_eq_default _ _ (by rw [Warp.countYields_length]; omega)
    rw [h1, h2]
    rfl

/-- Counting yields changes no special register. -/
theorem readS_countYields (s : State) (w : Warp) (n : Int) (l : Nat) (r : SReg) : readS s (w.countYields n) l r = readS s w l r := by
  cases r with
  | live => simp only [readS, Warp.where_, Warp.lane_countYields]
  | depth | flags | tinfo | taddr | taddrh | tepc | tepch | tdepth | tk0 | tk1 | tk2 => simp only [readS, Warp.lane_countYields]
  | tstate => simp only [readS, Lane.tstate, Warp.lane_countYields]
  | _ => rfl

/-- What MOVS does with a value for each lane that it has read: x, in each active lane of the vector form, once of the other. -/
def movsRead (hd : Hd) (d : Dst) (s : State) (c : Cur) (al : List Nat) (x : Nat → Int) : Eff :=
  if al.isEmpty then .plain s
  else if hd.form = .vector then
    .done (s.modWarp c.wid fun w => (al.map fun l => (l, x l)).foldl (fun w p => w.setDst p.1 d false p.2) w)
      ((al.map fun l => (l, x l)).map fun p => (p.1, ⟨p.2, false⟩)) [] .w
  else .done (s.modWarp c.wid fun w => w.setDst 0 d false (x 0)) [] [] .none

theorem movsRead_computed {hd : Hd} {d : Dst} {r : SReg} {s : State} {c : Cur} {w : Warp} (hr : Runs (.movs ⟨hd, .read d r⟩) s c w) (x : Nat → Int)
    {act : State → Cur → Warp → List Nat → Eff}
    (ha : act (s.counted (.movs ⟨hd, .read d r⟩) c.wid) c w (activeOf (.movs ⟨hd, .read d r⟩) w c.lanes) =
      movsRead hd d (s.counted (.movs ⟨hd, .read d r⟩) c.wid) c (activeOf (.movs ⟨hd, .read d r⟩) w c.lanes) x) :
    ∃ w', Computed (.movs ⟨hd, .read d r⟩) s (runWord (.movs ⟨hd, .read d r⟩) s act) c w w' (.reg d false) x (fun _ => Fl.none) := by
  have hd' := movs_read_writesDst hd d r
  have hin := dstIn_of_legal hr hd'.own
  have hvec : (Instr.movs ⟨hd, .read d r⟩).isVector = true ↔ hd.form = .vector := by simp [Instr.isVector, Instr.hd?]
  rw [runWord_eq hr]
  dsimp only
  rw [ha, movsRead]
  by_cases hal : activeOf (.movs ⟨hd, .read d r⟩) w c.lanes = []
  · rw [hal]
    exact value_none hr _ hal _ _ _ (fun _ => ⟨rfl, fun _ _ => rfl⟩) _
  rw [if_neg (by simpa using hal)]
  by_cases hv : hd.form = .vector
  · rw [if_pos hv]
    have h := value_vector hr (.reg d false) hin (by rw [To.gs_reg]; exact hd'.vector hr.wf (hvec.2 hv)) rfl (hvec.2 hv) rfl x (fun _ => Fl.none)
      [(((activeOf (.movs ⟨hd, .read d r⟩) w c.lanes).map fun l => (l, x l)).map (fun p => (p.1, (⟨p.2, false⟩ : Latch))), .w)]
    simpa [List.foldl_map, List.map_map, Function.comp_def, To.put, To.dbl, Fl.isNone, Fl.none] using h
  · rw [if_neg hv]
    have hv' : (Instr.movs ⟨hd, .read d r⟩).isVector = false := by rw [← Bool.not_eq_true, hvec]; exact hv
    exact value_once hr (.reg d false) hin (by rw [To.vs_reg]; exact hd'.group hr.wf hv') rfl hal 0 x (fun _ => Fl.none) _ []
      (fun _ _ => by simp [hv']) (by simp [hv']) (fun l v _ => by simp [raisedAt, Fl.isNone, Fl.none]) _

/-- A MOVS that reads has read x. -/
theorem movsRead_spec {hd : Hd} {d : Dst} {r : SReg} {s : State} {c : Cur} {w : Warp} (hr : Runs (.movs ⟨hd, .read d r⟩) s c w)
    {act : State → Cur → Warp → List Nat → Eff} (hexec : ∀ s, exec (.movs ⟨hd, .read d r⟩) s = .next (runWord (.movs ⟨hd, .read d r⟩) s act))
    (x : Nat → Int)
    (ha : act (s.counted (.movs ⟨hd, .read d r⟩) c.wid) c w (activeOf (.movs ⟨hd, .read d r⟩) w c.lanes) =
      movsRead hd d (s.counted (.movs ⟨hd, .read d r⟩) c.wid) c (activeOf (.movs ⟨hd, .read d r⟩) w c.lanes) x) :
    ∃ t w', exec (.movs ⟨hd, .read d r⟩) s = .next t ∧ Computed (.movs ⟨hd, .read d r⟩) s t c w w' (.reg d false) x (fun _ => Fl.none) := by
  obtain ⟨w', hw'⟩ := movsRead_computed hr x ha
  exact ⟨_, w', hexec s, hw'⟩

theorem movs_read_computed {hd : Hd} {d : Dst} {r : SReg} {s : State} {c : Cur} {w : Warp} (hr : Runs (.movs ⟨hd, .read d r⟩) s c w) (hne : r ≠ .gtime) :
    ∃ t w', exec (.movs ⟨hd, .read d r⟩) s = .next t ∧
      Computed (.movs ⟨hd, .read d r⟩) s t c w w' (.reg d false) (fun l => readS s w l r) (fun _ => Fl.none) := by
  refine movsRead_spec hr (fun _ => rfl) _ ?_
  have hread : (s.counted (.movs ⟨hd, .read d r⟩) c.wid).modWarp c.wid (fun w => w.setDst 0 d false (readS s w 0 r)) =
      (s.counted (.movs ⟨hd, .read d r⟩) c.wid).modWarp c.wid (fun x => x.setDst 0 d false (readS s w 0 r)) := State.modWarp_congr fun x hx => by
    rw [← Option.some.inj (hr.counted_warp?.symm.trans hx), readS_countYields]
  simp only [readS_counted, if_neg hne, hread]
  rfl

/-! ### A field that no word but its writer changes -/

/-- A part of a warp that its registers, its lanes, its PCs and its trap state do not hold. -/
structure Lasting {β : Type} (π : Warp → β) : Prop where
  soft : ∀ x, π (Warp.soft x) = π x
  frame : ∀ x, π (Warp.frame x) = π x
  count : ∀ x n, π (Warp.countYields x n) = π x
  regs : ∀ x : Warp, π { x with v := [], g := [], p := [], q := [] } = π x

/-- The end of a word keeps such a part of its warp. -/
theorem finishWord_keeps {i : Instr} {s : State} {c : Cur} {w w' : Warp} (hr : Runs i s c w) {β : Type} {π : Warp → β} (hπ : Lasting π)
    {g : Warp → Warp} (hg : RegsOnly g) {lts : List (Nat → Latch)} {res : List (List (Nat × Latch) × ResKind)} {fl : List (Nat × Fl)} {adv : Bool}
    (hw' : (finishWord i ((s.counted i c.wid).modWarp c.wid g) c w lts res fl adv).warp? c.wid = some w') : π w' = π w := by
  set s2 := (s.counted i c.wid).modWarp c.wid g
  have hw2 : s2.warp? c.wid = some (g (w.countYields (wordCount i))) := by
    rw [State.warp?_modWarp _ _ _ (hg.field Warp.wid fun _ => rfl), if_pos rfl, hr.counted_warp?]; rfl
  have hw3 : (({ s2 with fresh := s2.fresh + 27 } : State).modWarp c.wid fun x => x.retireWord i c.lanes lts fl adv w.handler).warp? c.wid =
      some ((g (w.countYields (wordCount i))).retireWord i c.lanes lts fl adv w.handler) := by
    rw [State.warp?_modWarp _ _ _ (fun x => Warp.retireWord_wid x i c.lanes lts fl adv w.handler), if_pos rfl]
    exact congrArg (Option.map _) hw2
  obtain ⟨w1, hw1, hso, -⟩ := (finishWord_soft i s2 c w lts res fl adv hr.own).own _ hw3
  have hww : w1 = w' := Option.some.inj (hw1.symm.trans hw')
  subst hww
  rw [← hπ.soft w1, hso, hπ.soft, ← hπ.frame, Warp.retireWord_frame, hπ.frame, hg.field π hπ.regs, hπ.count]

/-- A word whose effect answers results. -/
theorem runWord_done {i : Instr} {s : State} {c : Cur} {w : Warp} (hr : Runs i s c w) {act : State → Cur → Warp → List Nat → Eff} {s2 : State}
    {res : List (Nat × Latch)} {fl : List (Nat × Fl)} {k : ResKind} (ha : act (s.counted i c.wid) c w (activeOf i w c.lanes) = .done s2 res fl k) :
    runWord i s act = finishWord i s2 c w [latchOf s2 (activeOf i w c.lanes) res] [(res, k)] fl true := by
  rw [runWord_eq hr]
  dsimp only
  rw [ha]

/-- Two effects that answer the same results end a word alike. -/
theorem Presets.runWord_congr {f : Warp → Warp} {i : Instr} {s : State} {c : Cur} {w : Warp} (hf : Presets f i c w) (hr : Runs i s c w)
    (hhandler : (f w).handler = w.handler) (hcore : (f w).coreNo = w.coreNo) (hal : activeOf i (f w) c.lanes = activeOf i w c.lanes)
    {act act' : State → Cur → Warp → List Nat → Eff} {s2 : State} {res : List (Nat × Latch)} {fl : List (Nat × Fl)} {k : ResKind}
    (ha : act (s.counted i c.wid) c w (activeOf i w c.lanes) = .done s2 res fl k)
    (ha' : act' ((s.modWarp c.wid f).counted i c.wid) c (f w) (activeOf i (f w) c.lanes) = .done s2 res fl k) :
    runWord i s act = runWord i (s.modWarp c.wid f) act' := by
  rw [runWord_done hr ha, runWord_done (hf.runs hr) ha', hal]
  unfold finishWord afterWord
  rw [hhandler, hcore]

/-! ### MOVS reading S.GTIME -/

/-- A read of S.GTIME latches its upper word. -/
def Warp.latchGtime (t : Int) (w : Warp) : Warp := { w with gtimeh := highWord t }

theorem latchGtime_presets {i : Instr} {s : State} {c : Cur} {w : Warp} (hr : Runs i s c w) (t : Int) : Presets (Warp.latchGtime t) i c w where
  wid := fun _ => rfl
  shaped := ⟨hr.shaped.lanes, hr.shaped.allot⟩
  legal := hr.legal
  counts := rfl

theorem movsRead_done {hd : Hd} {d : Dst} {s : State} {c : Cur} {al : List Nat} {x : Nat → Int} (hal : al ≠ []) :
    ∃ g res k, RegsOnly g ∧ movsRead hd d s c al x = .done (s.modWarp c.wid g) res [] k := by
  rw [movsRead, if_neg (by simpa using hal)]
  by_cases hv : hd.form = .vector
  · rw [if_pos hv]
    refine ⟨_, _, _, ?_, rfl⟩
    simp only [List.foldl_map]
    exact RegsOnly.fold (.reg d false) x al
  · rw [if_neg hv]
    exact ⟨_, _, _, RegsOnly.put (.reg d false) 0 (x 0), rfl⟩

/-- MOVS once it has a value that is the same for each lane. -/
def movsReadOf (hd : Hd) (d : Dst) (x : Int) (s : State) (c : Cur) (_ : Warp) (al : List Nat) : Eff := movsRead hd d s c al fun _ => x

theorem movs_gtime_spec {hd : Hd} {d : Dst} {s : State} {c : Cur} {w : Warp} (hr : Runs (.movs ⟨hd, .read d .gtime⟩) s c w)
    (hal : activeOf (.movs ⟨hd, .read d .gtime⟩) w c.lanes ≠ []) :
    ∃ t w', exec (.movs ⟨hd, .read d .gtime⟩) s = .next t ∧ t.warp? c.wid = some w' ∧ w'.gtimeh = highWord s.pkg.gtime ∧
      (∀ l ∈ activeOf (.movs ⟨hd, .read d .gtime⟩) w c.lanes, w'.Holds l d false (lowWord s.pkg.gtime)) ∧
      MovedOn (.movs ⟨hd, .read d .gtime⟩) c w w' ∧ Apart s t c.wid := by
  have hf := latchGtime_presets hr s.now
  have hr' := hf.runs hr
  obtain ⟨g, res, k, hg, hdone⟩ := movsRead_done (hd := hd) (d := d) (s := (s.modWarp c.wid (Warp.latchGtime s.now)).counted (.movs ⟨hd, .read d .gtime⟩) c.wid)
    (c := c) (x := fun _ => lowWord s.now) hal
  obtain ⟨w', hw'⟩ := movsRead_computed hr' (fun _ => lowWord s.now) (act := movsReadOf hd d (lowWord s.now)) rfl
  have hexec : exec (.movs ⟨hd, .read d .gtime⟩) s = .next
      (runWord (.movs ⟨hd, .read d .gtime⟩) (s.modWarp c.wid (Warp.latchGtime s.now)) (movsReadOf hd d (lowWord s.now))) := by
    refine congrArg Host.Outcome.next (hf.runWord_congr hr rfl rfl rfl ?_ hdone)
    rw [← hdone, hf.counted hr]
    simp only [movsRead, List.isEmpty_iff, hal, if_true, if_false]
    rfl
  refine ⟨_, w', hexec, hw'.warp, ?_, fun l hl => hw'.result l hl, ⟨hw'.moved.yields, hw'.moved.pcs, hw'.moved.hpc⟩, hf.apart hw'.apart⟩
  have hfin := hw'.warp
  rw [runWord_done hr' hdone] at hfin
  exact finishWord_keeps hr' (π := Warp.gtimeh) ⟨fun _ => rfl, fun _ => rfl, fun _ _ => rfl, fun _ => rfl⟩ hg hfin

/-! ### MOVS writing S.SPILL -/

theorem Warp.src_countYields (w : Warp) (n : Int) (l : Nat) (dbl : Bool) (a : Src) : (w.countYields n).src l dbl a = w.src l dbl a := by
  cases a with
  | x k => simp only [Warp.src, Warp.lane_countYields]
  | _ => rfl

/-- A write of S.SPILL, from lane l. -/
def Warp.putSpill (l : Nat) (a : Src) (w : Warp) : Warp := { w with spill := w.src l false a }

theorem putSpill_presets {i : Instr} {s : State} {c : Cur} {w : Warp} (hr : Runs i s c w) (l : Nat) (a : Src) : Presets (Warp.putSpill l a) i c w where
  wid := fun _ => rfl
  shaped := ⟨hr.shaped.lanes, hr.shaped.allot⟩
  legal := hr.legal
  counts := by simp only [Warp.putSpill, Warp.src_countYields]; rfl

/-- What a word latches whose active lanes each have a result, in the vector form. -/
theorem Done.x1_of_results {i : Instr} {s t s2 : State} {c : Cur} {w w' cw : Warp} {al : List Nat} {x : Nat → Latch} {fl : List (Nat × Fl)}
    (hd : Done i s t c w w' cw [latchOf s2 al (al.map fun l => (l, x l))] fl) (hv : i.isVector = true) (hno : noLatch i = false) {l : Nat}
    (hl : l ∈ c.lanes) (hl27 : l < 27) : (w'.lane l).x1 = if l ∈ al then (x l).fit else ⟨0, false⟩ := by
  have hx := (Lane.retire_x i (latchOf s2 al (al.map fun l => (l, x l))) w.handler l (w.lane l)).1
  rw [hd.x1 l hl27, if_pos hl, hx, Lane.latches_of hno, hv, if_pos rfl, latchOf_some, Latch.fit_ite]

theorem movs_spill_spec {hd : Hd} {a : Src} {s : State} {c : Cur} {w : Warp} (hr : Runs (.movs ⟨hd, .write a .spill⟩) s c w)
    (hal : activeOf (.movs ⟨hd, .write a .spill⟩) w c.lanes ≠ []) :
    ∃ t w', exec (.movs ⟨hd, .write a .spill⟩) s = .next t ∧ t.warp? c.wid = some w' ∧
      w'.spill = w.src ((activeOf (.movs ⟨hd, .write a .spill⟩) w c.lanes).headD 0) false a ∧ w'.v = w.v ∧ w'.g = w.g ∧ w'.p = w.p ∧ w'.q = w.q ∧
      (hd.form = .vector → ∀ l ∈ c.lanes, (w'.lane l).x1 = (if l ∈ activeOf (.movs ⟨hd, .write a .spill⟩) w c.lanes then
        Latch.fit ⟨w.src ((activeOf (.movs ⟨hd, .write a .spill⟩) w c.lanes).headD 0) false a, false⟩ else ⟨0, false⟩)) ∧
      MovedOn (.movs ⟨hd, .write a .spill⟩) c w w' ∧ Apart s t c.wid := by
  set i : Instr := .movs ⟨hd, .write a .spill⟩ with hi
  set al := activeOf i w c.lanes with hal'
  have hf := putSpill_presets hr (firstOf al) a
  have hr' := hf.runs hr
  set res : List (Nat × Latch) := al.map fun l => (l, ⟨w.src (al.headD 0) false a, false⟩) with hres
  have hfin : exec i s = .next (finishWord i (((s.modWarp c.wid (Warp.putSpill (firstOf al) a)).counted i c.wid).modWarp c.wid fun w => w) c
      (Warp.putSpill (firstOf al) a w) [latchOf s al res] [(res, .w)] [] true) := by
    rw [State.modWarp_id, hf.counted hr]
    refine congrArg Host.Outcome.next ((runWord_done hr (res := res) (fl := []) (k := .w) ?_).trans rfl)
    exact if_neg (by simpa using hal)
  obtain ⟨w', hw'⟩ := done_spec hr' (fun w => w) RegsOnly.id [latchOf s al res] [(res, .w)] []
  refine ⟨_, w', hfin, hw'.warp, ?_, hw'.v, hw'.g, hw'.p, hw'.q, fun hv l hl => ?_, ⟨hw'.moved.yields, hw'.moved.pcs, hw'.moved.hpc⟩, hf.apart hw'.apart⟩
  · exact finishWord_keeps hr' (π := Warp.spill) ⟨fun _ => rfl, fun _ => rfl, fun _ _ => rfl, fun _ => rfl⟩ RegsOnly.id hw'.warp
  · exact hw'.x1_of_results (by simp [hi, Instr.isVector, Instr.hd?, hv]) rfl hl (hr.set l hl)

/-! ### MOVS writing the other registers -/

/-- A write of a register changes none of what the chain rule reads. -/
theorem Lane.chain_writeS (x : Lane) (r : SReg) (v : Int) : (x.writeS r v).pos = x.pos ∧ (x.writeS r v).since = x.since := by
  cases r with
  | tdepth => unfold Lane.writeS; dsimp only; split <;> exact ⟨rfl, rfl⟩
  | tstate => unfold Lane.writeS Lane.setState; dsimp only; split_ifs <;> exact ⟨rfl, rfl⟩
  | _ => exact ⟨rfl, rfl⟩

/-- The count of a yield goes on under a write, which at most ends the yield. -/
theorem Lane.writeS_yielded (x : Lane) (r : SReg) (v n : Int) :
    ({ x with yielded := x.yielded.map fun y => { y with count := y.count - n } } : Lane).writeS r v =
      { x.writeS r v with yielded := (x.writeS r v).yielded.map fun y => { y with count := y.count - n } } := by
  cases r with
  | tdepth => unfold Lane.writeS; dsimp only; split <;> rfl
  | tstate => unfold Lane.writeS Lane.setState; dsimp only; split_ifs <;> rfl
  | _ => rfl

/-- The flags that a write of S.FLAGS stores. -/
theorem flagsStored_eq (v : Int) : flagsStored v = (List.range 7).foldl (fun x k => x + (if trit v k = 1 then pow3 k else 0)) 0 := by
  have hb : ∀ k, bitv (trit v k == 1) = if trit v k = 1 then 1 else 0 := fun k => by simp [bitv]
  have hp : ∀ (k : Nat) (n : Int), pow3 k = n → n * (if trit v k = 1 then 1 else 0) = if trit v k = 1 then pow3 k else 0 := fun k n h => by
    rw [h]; split <;> simp
  simp only [flagsStored, Fl.num, Fl.ofNum, hb, show List.range 7 = [0, 1, 2, 3, 4, 5, 6] from rfl, List.foldl_cons, List.foldl_nil]
  rw [← hp 0 1 rfl, ← hp 1 3 rfl, ← hp 2 9 rfl, ← hp 3 27 rfl, ← hp 4 81 rfl, ← hp 5 243 rfl, ← hp 6 729 rfl]
  omega

theorem Lane.flags_writeS_of_ne (x : Lane) {r : SReg} (v : Int) (h : r ≠ .flags) : (x.writeS r v).flags = x.flags := by
  cases r with
  | flags => exact absurd rfl h
  | tdepth => unfold Lane.writeS; dsimp only; split <;> rfl
  | tstate => unfold Lane.writeS Lane.setState; dsimp only; split_ifs <;> rfl
  | _ => rfl

/-- A write of a register in some lanes, of a value for each. -/
def Warp.putS (al : List Nat) (r : SReg) (x : Nat → Int) (w : Warp) : Warp := w.modLanes al fun l y => y.writeS r (x l)

theorem Warp.lane_putS (w : Warp) (al : List Nat) (r : SReg) (x : Nat → Int) {l : Nat} (h : l < w.lanes.length) :
    (w.putS al r x).lane l = if l ∈ al then (w.lane l).writeS r (x l) else w.lane l := Warp.lane_modLanes w al _ h

theorem legal_putS {i : Instr} {w : Warp} {ls : List Nat} (hls : ∀ l ∈ ls, l < w.lanes.length) (al : List Nat) (r : SReg) (x : Nat → Int) :
    legal i (w.putS al r x) ls = legal i w ls := by
  have hch : (ls.all fun l => chainOk ((w.putS al r x).lane l) i.latches) = ls.all fun l => chainOk (w.lane l) i.latches := by
    rw [Bool.eq_iff_iff, List.all_eq_true, List.all_eq_true]
    refine forall₂_congr fun l hl => ?_
    rw [Warp.lane_putS w al r x (hls l hl)]
    split
    · obtain ⟨hpos, hsince⟩ := (w.lane l).chain_writeS r (x l)
      simp only [chainOk, hpos, hsince]
    · rfl
  unfold legal
  rw [hch]
  rfl

theorem putS_presets {i : Instr} {s : State} {c : Cur} {w : Warp} (hr : Runs i s c w) (al : List Nat) (r : SReg) (x : Nat → Int) :
    Presets (Warp.putS al r x) i c w where
  wid := fun _ => rfl
  shaped := ⟨by simpa [Warp.putS] using hr.shaped.lanes, hr.shaped.allot⟩
  legal := by rw [legal_putS (fun l hl => by rw [hr.shaped.lanes]; exact hr.set l hl)]; exact hr.legal
  counts := by
    simp only [Warp.putS, Warp.countYields, Warp.modLanes_eq_allLanes, Warp.allLanes_allLanes]
    refine Warp.allLanes_congr fun l _ => ?_
    by_cases h : al.contains l = true
    · rw [if_pos h, if_pos h, Lane.writeS_yielded]
    · rw [if_neg h, if_neg h]

/-- What MOVS leaves that writes another register than S.SPILL. -/
theorem movs_write_done {hd : Hd} {a : Src} {r : SReg} {s : State} {c : Cur} {w : Warp} (hr : Runs (.movs ⟨hd, .write a r⟩) s c w) (hne : r ≠ .spill)
    {al : List Nat} (hal : activeOf (.movs ⟨hd, .write a r⟩) w c.lanes = al) :
    ∃ t w' lts, exec (.movs ⟨hd, .write a r⟩) s = .next t ∧
      Done (.movs ⟨hd, .write a r⟩) (s.modWarp c.wid (Warp.putS al r fun l => w.src l false a)) t c (w.putS al r fun l => w.src l false a) w'
        ((w.putS al r fun l => w.src l false a).countYields (wordCount (.movs ⟨hd, .write a r⟩))) lts [] := by
  set i : Instr := .movs ⟨hd, .write a r⟩ with hi
  have hf := putS_presets hr al r fun l => w.src l false a
  by_cases hnil : al = []
  · subst hnil
    have hid : (Warp.putS [] r fun l => w.src l false a) = fun x => x := funext fun x => Warp.modLanes_nil x _
    obtain ⟨w', hw'⟩ := done_spec hr (fun w => w) RegsOnly.id [latchOf (s.counted i c.wid) [] []] [([], .none)] []
    refine ⟨_, w', _, ?_, by rw [hid, State.modWarp_id]; exact hw'⟩
    refine congrArg Host.Outcome.next ((runWord_done hr (s2 := s.counted i c.wid) (res := []) (fl := []) (k := .none) ?_).trans ?_)
    · rw [hal]; rfl
    · rw [State.modWarp_id, hal]
  · obtain ⟨w', hw'⟩ := done_spec (hf.runs hr) (fun w => w) RegsOnly.id
      [latchOf ((s.modWarp c.wid (Warp.putS al r fun l => w.src l false a)).counted i c.wid) al (al.map fun l => (l, ⟨w.src l false a, false⟩))]
      [(al.map fun l => (l, ⟨w.src l false a, false⟩), .w)] []
    refine ⟨_, w', _, ?_, hw'⟩
    refine congrArg Host.Outcome.next ((runWord_done hr (s2 := (s.modWarp c.wid (Warp.putS al r fun l => w.src l false a)).counted i c.wid)
      (res := al.map fun l => (l, ⟨w.src l false a, false⟩)) (fl := []) (k := .w) ?_).trans ?_)
    · rw [hf.counted hr, hal]
      simp only [List.isEmpty_iff, hnil, hne, if_false]
      rfl
    · rw [State.modWarp_id, hal]; rfl

theorem movs_write_spec {hd : Hd} {a : Src} {r : SReg} {s : State} {c : Cur} {w : Warp} (hr : Runs (.movs ⟨hd, .write a r⟩) s c w)
    (hq : Quiet (.movs ⟨hd, .write a r⟩) s w) (hne : r ≠ .spill) :
    ∃ t w', exec (.movs ⟨hd, .write a r⟩) s = .next t ∧ t.warp? c.wid = some w' ∧
      (∀ l, l < 27 → (w'.lane l).kept = (if l ∈ activeOf (.movs ⟨hd, .write a r⟩) w c.lanes then
        ((w.lane l).writeS r (w.src l false a)).kept else (w.lane l).kept)) ∧
      (∀ l, l < 27 → (w'.lane l).flags = (if l ∈ activeOf (.movs ⟨hd, .write a r⟩) w c.lanes ∧ r = .flags then
        ((List.range 7).foldl (fun x k => x + (if trit (w.src l false a) k = 1 then pow3 k else 0)) 0) else (w.lane l).flags)) ∧
      w'.v = w.v ∧ w'.g = w.g ∧ w'.p = w.p ∧ w'.q = w.q ∧ Apart s t c.wid := by
  set al := activeOf (.movs ⟨hd, .write a r⟩) w c.lanes with hal
  have hf := putS_presets hr al r fun l => w.src l false a
  obtain ⟨t, w', lts, hexec, hdone⟩ := movs_write_done hr hne hal.symm
  have hlane : ∀ l, l < 27 → (w.putS al r fun l => w.src l false a).lane l = if l ∈ al then (w.lane l).writeS r (w.src l false a) else w.lane l :=
    fun l hl => Warp.lane_putS w al r _ (by rw [hr.shaped.lanes]; exact hl)
  have hcalm := hdone.calm ⟨hq.te, hq.units⟩
  refine ⟨t, w', hexec, hdone.warp, fun l hl => ?_, fun l hl => ?_, hdone.v, hdone.g, hdone.p, hdone.q, hf.apart hdone.apart⟩
  · rw [hcalm.lanes l hl, hlane l hl]
    split <;> rfl
  · rw [hdone.flags l hl, hlane l hl]
    by_cases hm : l ∈ al
    · by_cases hfl : r = .flags
      · subst hfl
        simpa [hm, raisedAt] using (rfl : ((w.lane l).writeS .flags (w.src l false a)).flags = _).trans (flagsStored_eq _)
      · simpa [hm, hfl, raisedAt] using Lane.flags_writeS_of_ne _ _ hfl
    · simp [hm, raisedAt]

/-- The rule's special registers are those that are read. -/
theorem readS_of_special {s : State} {w : Warp} {l : Nat} {r : SReg} {x : Int} (h : Rule.special s w l r = some x) : readS s w l r = x := by
  have hlive : Rule.special s w l .live = some (readS s w l .live) := rfl
  cases r with
  | live => exact Option.some.inj (hlive.symm.trans h)
  | warp | core | bay =>
    cases hp : w.place with
    | slot a b d => simp only [Rule.special, hp, Option.some.injEq] at h; simp only [readS, placeReg, hp, h]
    | _ => simp [Rule.special, hp] at h
  | gang | commit =>
    cases hp : w.place with
    | slot a b d =>
      cases hg : w.gid.bind s.gang? with
      | none => simp [Rule.special, hp, hg] at h
      | some g => simp only [Rule.special, hp, hg, Option.some.injEq] at h; simp only [readS, placeReg, hp, hg, h]
    | _ => simp [Rule.special, hp] at h
  | gtime | tstate => cases h
  | _ => exact Option.some.inj h

/-- Settles O21: the registers that MOVG and MOVS write stand in their warp when the word ends, which changes nothing more. -/
theorem specialRegisterMoves : Obligations.SpecialRegisterMoves := by
  unfold Obligations.SpecialRegisterMoves
  refine ⟨movg_computes, fun hd d r s c w hr hne => movs_read_computed hr hne, fun s w l r x h => readS_of_special h, fun hd d s c w hr hal => movs_gtime_spec hr hal,
    fun hd a s c w hr hal => movs_spill_spec hr hal, fun hd a r s c w hr hq hne => movs_write_spec hr hq hne⟩

end Sys2Proof.Machine
end

section
/-! ## Certificates: the paired word (R104 to R107, R123, R124) -/

namespace Sys2Proof.Machine

open Sys2Proof Tern

/-! ### What a half computes -/

theorem Half.result_eq (h : Half) (w : Warp) (l : Nat) : h.result w l = Rule.half h (h.dval w l) (h.sval w l) := by
  unfold Half.result Rule.half
  cases h.op with
  | add | addi => exact elems2_eq (f := addF h.m7) (e := Fl.ovf) (fun _ _ _ => rfl) h.ity _ _
  | sub | subi => exact elems2_eq (f := subF h.m7) (e := Fl.ovf) (fun _ _ _ => rfl) h.ity _ _
  | mul | muli => exact elems2_eq (f := mulF h.m7) (e := Fl.ovf) (fun _ _ _ => rfl) h.ity _ _
  | min | mini => exact elems2_eq_of_flagless minF_eq h.ity _ _
  | max | maxi => exact elems2_eq_of_flagless maxF_eq h.ity _ _
  | mov | movi => rfl
  | neg => exact elems1_eq (f := negF) (fun _ _ => rfl) h.ity _
  | abs => exact elems1_eq absF_eq h.ity _
  | tsh | tshi => exact elems2_eq (tshF_eq h.m7) h.ity _ _
  | fadd | fsub => exact felems_eq h.fty _ _
  | fmul => exact felems_eq h.fty (fop h.m7 h.m6 (two mulR)) _
  | fmin => exact felems_eq h.fty (fmm (-1) h.m7) _
  | fmax => exact felems_eq h.fty (fmm 1 h.m7) _
  | fneg => exact felems_eq h.fty (fun1 Fmt.negE) _
  | fabs => exact felems_eq h.fty (fun1 Fmt.absE) _

/-! ### Which lanes a half runs in, and what it writes -/

theorem Half.mem_lanes {h : Half} {w : Warp} {ls : List Nat} {l : Nat} : l ∈ h.lanes w ls ↔ l ∈ ls ∧ w.preg l h.pred = 1 := by
  simp [Half.lanes]

theorem Half.write_results (h : Half) (w u : Warp) (ls : List Nat) :
    h.write (h.results w ls) u = (h.lanes w ls).foldl (fun u l => (To.reg h.d false).put l (h.result w l).1 u) u := by
  simp only [Half.write, Half.results, List.foldl_map]
  rfl

theorem Half.write_regsOnly (h : Half) (w : Warp) (ls : List Nat) : RegsOnly (h.write (h.results w ls)) := by
  simp only [funext fun u => Half.write_results h w u ls]
  exact RegsOnly.fold _ _ _

/-- The halves' destinations as the encoding admits them: V registers that are not the same, or none. -/
theorem pairedWord_dsts {a b : Half} (h : (Instr.pairedWord a b).wf = true) :
    Wf.dst .vector false a.d = true ∧ Wf.dst .vector false b.d = true ∧ ∀ n, ¬(a.d = .v n ∧ b.d = .v n) := by
  simp only [Instr.wf, Wf.half, Wf.pairRules, Bool.and_eq_true] at h
  obtain ⟨⟨⟨⟨⟨⟨⟨-, ha⟩, -⟩, -⟩, -⟩, -⟩, ⟨⟨⟨⟨⟨-, hb⟩, -⟩, -⟩, -⟩, -⟩⟩, ⟨⟨-, hne⟩, -⟩⟩ := h
  refine ⟨ha, hb, fun n hn => ?_⟩
  obtain ⟨h1, h2⟩ := hn
  simp [h1, h2] at hne

theorem dst_vector_gs {d : Dst} (h : Wf.dst .vector false d = true) : gsOf d false = [] := by
  cases d with
  | g n => simp [Wf.dst] at h
  | _ => rfl

/-! ### Latches and flags of two halves -/

theorem latchOf_results (s : State) (h : Half) (w : Warp) (ls : List Nat) {l : Nat} (hl : l ∈ ls) :
    latchOf s [] (latched (h.results w ls)) l = if w.preg l h.pred = 1 then ⟨(h.result w l).1, false⟩ else ⟨0, false⟩ := by
  have he : latched (h.results w ls) = (h.lanes w ls).map fun l => (l, (⟨(h.result w l).1, false⟩ : Latch)) := by
    simp [latched, Half.results, List.map_map, Function.comp_def]
  unfold latchOf
  rw [he, find_map_self]
  by_cases hp : w.preg l h.pred = 1
  · rw [if_pos (Half.mem_lanes.2 ⟨hl, hp⟩), if_pos hp]
  · rw [if_neg fun hm => hp (Half.mem_lanes.1 hm).2, if_neg hp]; rfl

/-- The latches of a lane after a word that latches twice. -/
theorem Lane.retire_x_two {i : Instr} (hno : noLatch i = false) (hv : i.isVector = true) (lt1 lt2 : Nat → Latch) (k : Bool) (l : Nat) (x : Lane) :
    (Lane.retire i [lt1, lt2] k l x).x1 = (lt2 l).fit ∧ (Lane.retire i [lt1, lt2] k l x).x2 = (lt1 l).fit ∧
      (Lane.retire i [lt1, lt2] k l x).x3 = x.x1 := by
  have hl : x.latches i = true := by rw [Lane.latches_of hno, hv]
  simp only [Lane.retire, hl, if_true]
  split <;> (unfold Lane.chainStep; split <;> exact ⟨rfl, rfl, rfl⟩)

/-- Equal flags join to themselves. -/
theorem foldl_or_replicate (e f : Fl) : ∀ n, (List.replicate n f).foldl Fl.or e = if n = 0 then e else e.or f
  | 0 => rfl
  | n + 1 => by
    have hff : (e.or f).or f = e.or f := by simp [Fl.or]
    rw [List.replicate_succ, List.foldl_cons, foldl_or_replicate (e.or f) f n, hff]
    simp

theorem filter_results (h : Half) (w : Warp) (ls : List Nat) {l : Nat} (hl : l ∈ ls) :
    ∃ n, ((h.results w ls).filter fun r => r.1 == l).map (fun r => r.2.2) = List.replicate n (h.result w l).2 ∧ (n = 0 ↔ w.preg l h.pred ≠ 1) := by
  refine ⟨(h.lanes w ls).count l, ?_, ?_⟩
  · rw [Half.results, List.filter_map, List.map_map, List.count_eq_length_filter]
    rw [List.eq_replicate_iff]
    refine ⟨by simp [Function.comp_def], fun x hx => ?_⟩
    obtain ⟨k, hk, rfl⟩ := List.mem_map.1 hx
    have : k = l := by simpa using (List.mem_filter.1 hk).2
    rw [this]; rfl
  · rw [List.count_eq_zero, Half.mem_lanes]
    exact ⟨fun hn hp => hn ⟨hl, hp⟩, fun hn hm => hn hm.2⟩

/-- The flags that the halves raise in a lane of the issue set. -/
theorem all_flags_results (a b : Half) (w : Warp) (ls : List Nat) {l : Nat} (hl : l ∈ ls) :
    Fl.all (((a.results w ls ++ b.results w ls).filter fun r => r.1 == l).map fun r => r.2.2) =
      (if w.preg l a.pred = 1 then (a.result w l).2 else Fl.none).or (if w.preg l b.pred = 1 then (b.result w l).2 else Fl.none) := by
  obtain ⟨m, hm, hm0⟩ := filter_results a w ls hl
  obtain ⟨n, hn, hn0⟩ := filter_results b w ls hl
  rw [List.filter_append, List.map_append, hm, hn, Fl.all, List.foldl_append, foldl_or_replicate, foldl_or_replicate]
  simp only [hm0, hn0, Fl.none_or]
  split <;> split <;> simp_all

theorem raisedAt_pairFlags (a b : Half) (w : Warp) (ls : List Nat) (l : Nat) (v : Int) :
    let f := (if w.preg l a.pred = 1 then (a.result w l).2 else Fl.none).or (if w.preg l b.pred = 1 then (b.result w l).2 else Fl.none)
    raisedAt (pairFlags ls (a.results w ls) (b.results w ls)) l v = if l ∈ ls ∧ f.isNone = false then flagsOr v f else v := by
  unfold raisedAt pairFlags
  rw [List.filter_map, Function.comp_def,
    find_flags (fun l => Fl.all (((a.results w ls ++ b.results w ls).filter fun r => r.1 == l).map fun r => r.2.2)) l ls]
  by_cases hl : l ∈ ls
  · rw [all_flags_results a b w ls hl]
    generalize Fl.or _ _ = f
    cases hf : f.isNone <;> simp [hl, hf]
  · simp [hl]

/-! ### The registers after both halves -/

/-- The warp after both halves have written. -/
def written (a b : Half) (w : Warp) (ls : List Nat) (u : Warp) : Warp := b.write (b.results w ls) (a.write (a.results w ls) u)

theorem vreg_half_write {h : Half} (hin : dstIn h.d false) (w u : Warp) (ls : List Nat) (l : Nat) {n : Nat} (hn : n < 81) :
    (h.write (h.results w ls) u).vreg l n =
      if (l ∈ ls ∧ w.preg l h.pred = 1) ∧ h.d = .v n then lowWord (h.result w l).1 else u.vreg l n := by
  rw [Half.write_results, Warp.vreg_fold (.reg h.d false) hin _ _ u l n hn, To.vs_reg]
  have hmem : n ∈ vsOf h.d false ↔ h.d = .v n := by
    cases hd : h.d <;> simp [vsOf, eq_comm]
  simp only [Half.mem_lanes, hmem]
  rfl

theorem vreg_written {a b : Half} (ha : dstIn a.d false) (hb : dstIn b.d false) (w u : Warp) (ls : List Nat) (l : Nat) {n : Nat} (hn : n < 81) :
    (written a b w ls u).vreg l n =
      if (l ∈ ls ∧ w.preg l b.pred = 1) ∧ b.d = .v n then lowWord (b.result w l).1
      else if (l ∈ ls ∧ w.preg l a.pred = 1) ∧ a.d = .v n then lowWord (a.result w l).1 else u.vreg l n := by
  rw [written, vreg_half_write hb w _ ls l hn, vreg_half_write ha w u ls l hn]

theorem half_write_pq (h : Half) (w u : Warp) (ls : List Nat) :
    (h.write (h.results w ls) u).p = u.p ∧ (h.write (h.results w ls) u).q = u.q := by
  have hput : ∀ (t : Warp) (r : Nat × Int × Fl), (t.setDst r.1 h.d false r.2.1).p = t.p ∧ (t.setDst r.1 h.d false r.2.1).q = t.q := fun t r => by
    cases h.d <;> exact ⟨rfl, rfl⟩
  unfold Half.write
  induction h.results w ls generalizing u with
  | nil => exact ⟨rfl, rfl⟩
  | cons r rs ih =>
    obtain ⟨hp, hq⟩ := ih (u.setDst r.1 h.d false r.2.1)
    exact ⟨hp.trans (hput u r).1, hq.trans (hput u r).2⟩

theorem greg_half_write {h : Half} (hd : gsOf h.d false = []) (w u : Warp) (ls : List Nat) (n : Nat) :
    (h.write (h.results w ls) u).greg n = u.greg n := by
  rw [Half.write_results, Warp.greg_fold (.reg h.d false) (by rw [To.gs_reg]; exact hd)]

theorem holds_of_vreg {w : Warp} {l : Nat} {d : Dst} {x : Int} (hg : gsOf d false = []) (hin : dstIn d false)
    (h : ∀ n, d = .v n → n < 81 → w.vreg l n = lowWord x) : w.Holds l d false x := by
  cases d with
  | latch => trivial
  | v n => exact h n rfl (hin n (by simp [vsOf]))
  | g n => simp [gsOf] at hg

/-! ### The paired word -/

/-- What a paired word leaves. -/
theorem pairedWord_done {a b : Half} {s : State} {c : Cur} {w : Warp} (hr : Runs (.pairedWord a b) s c w) :
    ∃ t w' s2, exec (.pairedWord a b) s = .next t ∧ Done (.pairedWord a b) s t c w w' (written a b.second w c.lanes (w.countYields 2))
      [latchOf s2 [] (latched (a.results w c.lanes)), latchOf s2 [] (latched (b.second.results w c.lanes))]
      (pairFlags c.lanes (a.results w c.lanes) (b.second.results w c.lanes)) := by
  have hreg : RegsOnly (written a b.second w c.lanes) := fun u =>
    (Half.write_regsOnly b.second w c.lanes _).trans (Half.write_regsOnly a w c.lanes u)
  obtain ⟨w', hw'⟩ := done_spec hr (written a b.second w c.lanes) hreg _ [(latched (a.results w c.lanes), a.kind), (latched (b.second.results w c.lanes), b.kind)] _
  exact ⟨_, w', _, congrArg Host.Outcome.next (runWord_eq hr _), hw'⟩

/-- The second half's source, as the rule reads it. -/
theorem Half.result_second (b : Half) (w : Warp) (l : Nat) :
    b.second.result w l = Rule.half b (match b.d with | .v n => w.vreg l n | _ => 0)
      (match b.s with
        | some (.x k) => w.src l false (.x (k - 1))
        | some r => w.src l false r
        | none => if b.m8 = -1 then b.imm + pow3 9 * (b.imm + pow3 9 * b.imm) else b.imm) := by
  rw [Half.result_eq]
  have hs : b.second.sval w l = (match b.s with
      | some (.x k) => w.src l false (.x (k - 1))
      | some r => w.src l false r
      | none => if b.m8 = -1 then b.imm + pow3 9 * (b.imm + pow3 9 * b.imm) else b.imm) := by
    cases h : b.s with
    | none => simp [Half.sval, Half.second, h, join_trytes]
    | some r => cases r <;> simp [Half.sval, Half.second, h]
  rw [hs]
  rfl

theorem Half.result_first (a : Half) (w : Warp) (l : Nat) :
    a.result w l = Rule.half a (match a.d with | .v n => w.vreg l n | _ => 0)
      (match a.s with
        | some (.x k) => w.src l false (.x (k - 0))
        | some r => w.src l false r
        | none => if a.m8 = -1 then a.imm + pow3 9 * (a.imm + pow3 9 * a.imm) else a.imm) := by
  rw [Half.result_eq]
  have hs : a.sval w l = (match a.s with
      | some (.x k) => w.src l false (.x (k - 0))
      | some r => w.src l false r
      | none => if a.m8 = -1 then a.imm + pow3 9 * (a.imm + pow3 9 * a.imm) else a.imm) := by
    cases h : a.s with
    | none => simp [Half.sval, h, join_trytes]
    | some r => cases r <;> simp [Half.sval, h]
  rw [hs]
  rfl

/-- Settles O22: both results are read from the warp before the word, and what the halves then write are different registers. -/
theorem pairedWordRunsBothHalves : Obligations.PairedWordRunsBothHalves := by
  unfold Obligations.PairedWordRunsBothHalves
  intro a b s c w hr
  obtain ⟨t, w', s2, hexec, hd⟩ := pairedWord_done hr
  obtain ⟨hwa, hwb, hne⟩ := pairedWord_dsts hr.wf
  have hina : dstIn a.d false := dstIn_of_legal hr (i := .pairedWord a b) (by simp [Instr.dsts])
  have hinb : dstIn b.second.d false := dstIn_of_legal hr (i := .pairedWord a b) (by simp [Instr.dsts, Half.second])
  refine ⟨t, w', hexec, hd.warp, ?_⟩
  intro src old x1 x2 on fl
  have hx1 : ∀ l, a.result w l = x1 l := fun l => Half.result_first a w l
  have hx2 : ∀ l, b.second.result w l = x2 l := fun l => Half.result_second b w l
  have hvreg : ∀ l n, n < 81 → w'.vreg l n = if on b l ∧ b.d = .v n then lowWord (x2 l).1 else if on a l ∧ a.d = .v n then lowWord (x1 l).1 else w.vreg l n :=
    fun l n hn => by
      have h := vreg_written (a := a) (b := b.second) hina hinb w (w.countYields 2) c.lanes l hn
      rw [hx1, hx2] at h
      exact (congrArg (fun v => sget v (81 * l + n)) hd.v).trans h
  have hregs : w'.p = w.p ∧ w'.q = w.q := by
    obtain ⟨hp1, hq1⟩ := half_write_pq a w (w.countYields 2) c.lanes
    obtain ⟨hp2, hq2⟩ := half_write_pq b.second w (a.write (a.results w c.lanes) (w.countYields 2)) c.lanes
    exact ⟨hd.p.trans (hp2.trans hp1), hd.q.trans (hq2.trans hq1)⟩
  have hgreg : ∀ n, w'.greg n = w.greg n := fun n => by
    have h1 := greg_half_write (dst_vector_gs hwa) w (w.countYields 2) c.lanes n
    have h2 := greg_half_write (h := b.second) (dst_vector_gs hwb) w (a.write (a.results w c.lanes) (w.countYields 2)) c.lanes n
    exact (congrArg (fun g => sget g n) hd.g).trans (h2.trans h1)
  refine ⟨fun l hl => ?_, fun l hl => ?_, fun l n hn ha hb => ?_, fun l hl => ?_, fun l hl hm => ?_, fun l hl => ?_, hd.calm, hgreg, ?_, ?_, hd.moved, hd.apart⟩
  · refine holds_of_vreg (dst_vector_gs hwa) hina fun n hn h81 => ?_
    rw [hvreg l n h81, if_neg fun h => hne n ⟨hn, h.2⟩, if_pos ⟨hl, hn⟩]
  · refine holds_of_vreg (dst_vector_gs hwb) hinb fun n hn h81 => ?_
    rw [hvreg l n h81, if_pos ⟨hl, hn⟩]
  · rw [hvreg l n hn, if_neg hb, if_neg ha]
  · have hl27 := hr.set l hl
    obtain ⟨h1, h2, h3⟩ := Lane.retire_x_two (i := .pairedWord a b) rfl rfl (latchOf s2 [] (latched (a.results w c.lanes)))
      (latchOf s2 [] (latched (b.second.results w c.lanes))) w.handler l (w.lane l)
    rw [hd.x1 l hl27, hd.x2 l hl27, hd.x3 l hl27, if_pos hl, if_pos hl, if_pos hl, h1, h2, h3, latchOf_results s2 a w c.lanes hl,
      latchOf_results s2 b.second w c.lanes hl, Latch.fit_ite, Latch.fit_ite, hx1, hx2]
    exact ⟨fun h => if_pos h, fun h => if_neg h, fun h => if_pos h, fun h => if_neg h, rfl⟩
  · rw [hd.x1 l hl, hd.x2 l hl, hd.x3 l hl, if_neg hm, if_neg hm, if_neg hm]
    exact ⟨rfl, rfl, rfl⟩
  · rw [hd.flags l hl, raisedAt_pairFlags, hx1, hx2]
    rfl
  · intro l n; simp only [Warp.preg, hregs.1]
  · intro n; simp only [Warp.qreg, hregs.2]

end Sys2Proof.Machine
end

section
/-! ## Certificates: loads (R158, R159, R163, R165, R169, R206, R391 to R397, R457) -/

namespace Sys2Proof.Machine

open Sys2Proof Tern

/-! ### Addresses and checks -/

theorem laneAddrs_eq (w : Warp) (al : List Nat) (ad : Addr) : laneAddrs w al ad = Rule.addresses w al ad := rfl

theorem dblTrytes_eq (b : Bool) : dblTrytes b = if b then 6 else 3 := rfl

/-- A guarded word of units that no armed unit watches performs the accesses of all its lanes. -/
theorem guarded_units {s : State} {c : Cur} {w : Warp} (h : w.handler = true ∨ (s.core w.coreNo).watch = []) (k : Access) (sc : Bool) (n : Nat) (xs : List Acc)
    (go : State → List Nat → State) : guarded s c w k sc (unitAcc n xs) go = .plain (go s (xs.map fun x => x.lane)) := by
  rw [guarded_unwatched h, unitAcc_lanes]

theorem guarded_tags {s : State} {c : Cur} {w : Warp} (h : w.handler = true ∨ (s.core w.coreNo).watch = []) (k : Access) (sc : Bool) (xs : List Acc)
    (go : State → List Nat → State) : guarded s c w k sc (tagAcc xs) go = .plain (go s (xs.map fun x => x.lane)) := by
  rw [guarded_unwatched h, tagAcc_lanes]

/-! ### Loads -/

theorem Acc.reads_eq (x : Acc) (n : Nat) : x.reads n = if Rule.twoParts x n
      then [⟨x.lane, x.virt, x.at_, none, 3, .waiting⟩, ⟨x.lane, x.virt + 3, x.hi.getD (x.at_.plus 3), none, 3, .waiting⟩]
      else [⟨x.lane, x.virt, x.at_, x.hi, n, .waiting⟩] := by
  have hparts : x.apart n = Rule.twoParts x n := by
    cases h : x.hi with
    | none => simp [Acc.apart, Rule.twoParts, h]
    | some y => rw [Bool.eq_iff_iff]; simp [Acc.apart, Rule.twoParts, h, or_assoc]
  rw [Acc.reads, hparts]
  rfl

theorem ld_does {o : LdA} (s1 : State) (xs : List Acc) : Does (.ld o)
    (fun s _ w al => al ≠ [] ∧ Rule.reaches s s1 w (Rule.addresses w al o.ad) o.w.trytes true Need.read xs ∧ scAway s o.sc xs = [])
    (fun _ c w _ => performLd o s1 c w xs) true :=
  .of_plain (fun _ => rfl) fun s c w al ⟨hal, ⟨hacc, hxs, hquiet⟩, haway⟩ => by
    simp only [laneAddrs_eq, hacc, haway, guarded_units hquiet, List.isEmpty_iff, hal, hxs, List.map_eq_nil_iff, if_false, accsOf_all]

/-- Settles O24: no check, refusal or watch unit stands in the way, so the word starts the load of the lanes that its checks have passed. -/
theorem globalLoadsStartALoadOperation : Obligations.GlobalLoadsStartALoadOperation := by
  unfold Obligations.GlobalLoadsStartALoadOperation
  refine ⟨fun o s1 xs hsc => ?_, fun o s1 xs hsc => ?_, fun o s1 x => ?_, fun o s1 xs => ?_, Acc.reads_eq⟩
  · refine ((ld_does s1 xs).imp fun s c w al h => ⟨h.1, h.2, by simp [scAway, hsc]⟩).congr fun s c w hr hp => ?_
    simp only [performLd, hsc]
    rfl
  · refine ((ld_does s1 xs).imp fun s c w al h => ⟨h.1, h.2.1, scAway_none fun _ => h.2.2⟩).congr fun s c w hr hp => ?_
    simp only [performLd, hsc]
    rfl
  · refine Does.of_plain (fun _ => rfl) fun s c w al ⟨hal, hacc, hxs, hquiet⟩ => ?_
    rw [← dblTrytes_eq] at hacc ⊢
    simp only [hacc, guarded_units hquiet, List.isEmpty_iff, hal, hxs, List.map_eq_nil_iff, if_false, List.flatMap_cons, List.flatMap_nil, List.append_nil]
  · refine Does.of_plain (fun _ => rfl) fun s c w al ⟨hal, hacc, hxs, hquiet⟩ => ?_
    simp only [laneAddrs_eq, hacc, guarded_tags hquiet, List.isEmpty_iff, hal, hxs, List.map_eq_nil_iff, if_false, accsOf_all] <;> rfl

/-! ### Scratchpad loads -/

/-- The units of the lanes that a list of units names are those units. -/
theorem filter_own_lanes (us : List (Nat × Int)) : us.filter (fun u => (us.map fun u => u.1).contains u.1) = us := by
  simp only [List.filter_eq_self]
  intro u hu
  simpa using ⟨u.2, hu⟩

theorem addresses_lanes (w : Warp) (al : List Nat) (ad : Addr) : (Rule.addresses w al ad).map (fun u => u.1) = al := by
  simp [Rule.addresses, Function.comp_def]

/-- Settles O25: with its lines present the word reads them, and with one that is not it sleeps until the promise of its fill. -/
theorem scratchpadLoadsReadTheirLines : Obligations.ScratchpadLoadsReadTheirLines := by
  unfold Obligations.ScratchpadLoadsReadTheirLines
  refine ⟨fun o g => Does.of_plain (fun _ => rfl) fun s c w al ⟨hg, hal, hfault, htouch, hquiet⟩ => ?_,
    fun o g s c w s1 p hr hg hal hfault htouch => ?_⟩
  · have hlanes : ((Rule.addresses w al o.ad).map fun u => (u.1, u.2, u.2, o.w.trytes)).map (fun x => x.1) = al := by
      rw [List.map_map]; exact addresses_lanes w al o.ad
    have hfilter := filter_own_lanes (Rule.addresses w al o.ad)
    rw [addresses_lanes] at hfilter
    simp only [hg, List.isEmpty_iff, hal, if_false, laneAddrs_eq, hfault, htouch, guarded_unwatched hquiet, hlanes, hfilter]
  · have he : exec (.lds o) s = execLds o s := rfl
    rw [he, execLds, runWord_eq hr]
    simp only [hg, List.isEmpty_iff, hal, if_false, laneAddrs_eq, hfault, htouch]

end Sys2Proof.Machine
end

section
/-! ## Certificates: the requests of a load operation (R107, R389, R390, R457) -/

namespace Sys2Proof.Machine

open Sys2Proof Tern

/-! ### Lists of lines -/

theorem mem_foldl_nodups {α : Type} [DecidableEq α] {x : α} : ∀ (l acc : List α),
    x ∈ l.foldl (fun acc x => if acc.contains x then acc else acc ++ [x]) acc ↔ x ∈ acc ∨ x ∈ l
  | [], acc => by simp
  | y :: l, acc => by
    rw [List.foldl_cons, mem_foldl_nodups l]
    by_cases h : acc.contains y
    · rw [if_pos h]
      have hy : y ∈ acc := by simpa using h
      constructor
      · rintro (hx | hx)
        · exact .inl hx
        · exact .inr (List.mem_cons_of_mem _ hx)
      · rintro (hx | hx)
        · exact .inl hx
        · rcases List.mem_cons.1 hx with rfl | hx
          · exact .inl hy
          · exact .inr hx
    · rw [if_neg h, List.mem_append, List.mem_singleton, List.mem_cons, or_assoc]

theorem mem_nodups {α : Type} [DecidableEq α] {x : α} (l : List α) : x ∈ nodups l ↔ x ∈ l := by
  rw [nodups, mem_foldl_nodups]; simp

theorem mem_partLines {parts : List (Nat × Int × Int)} {l : Int × Int} : l ∈ partLines parts ↔ ∃ p ∈ parts, p.2 = l := by
  unfold partLines
  simp only [List.mem_append, List.mem_filter, mem_nodups, List.mem_map, ← and_or_left]
  refine and_iff_left_of_imp fun _ => ?_
  cases (nodups (parts.map fun p => p.2)).any fun a => partBefore parts a l <;> simp

theorem mem_zip_upto {α : Type} {l : List α} {i : Nat} {x : α} : (i, x) ∈ List.zip (upto l.length) l ↔ l[i]? = some x := by
  simp only [List.mem_iff_getElem?, upto, List.getElem?_zip_eq_some]
  constructor
  · rintro ⟨j, hj, hx⟩
    obtain ⟨hlt, he⟩ := List.getElem?_eq_some_iff.1 hj
    rw [List.getElem_range] at he
    exact he ▸ hx
  · intro hx
    obtain ⟨hlt, -⟩ := List.getElem?_eq_some_iff.1 hx
    exact ⟨i, by simp [hlt], hx⟩

/-- A part comes before another only in another line. -/
theorem partBefore_ne {parts : List (Nat × Int × Int)} {a b : Int × Int} (h : partBefore parts a b = true) : a ≠ b := by
  simp only [partBefore, Bool.and_eq_true, bne_iff_ne] at h
  exact h.1

/-! ### Requests -/

/-- new are requests that a warp sends at a time for the reads ls of a load operation: what each asks is of its own line, what it waits for is another
line's and only without .SC keys, and each read is asked for. -/
structure Asks (w : Warp) (now : Int) (body : List Nat → ReqBody) (sc : Option Nat) (ls : List (Nat × LaneRead)) (new : List Req) : Prop where
  source : ∀ q ∈ new, q.src = w.coreNo ∧ q.ctx = w.ctx ∧ q.wid = w.wid ∧ q.stage = 0 ∧ q.sent = now
  items : ∀ q ∈ new, ∃ items, q.body = body items ∧ ∀ k ∈ items, ∃ x, (k, x) ∈ ls ∧ x.at_.pkgLine = (q.pkg, q.line)
  after : ∀ q ∈ new, ∀ m ∈ q.after, sc = none ∧ ∃ p ∈ new, p.id = m ∧ (p.pkg, p.line) ≠ (q.pkg, q.line)
  all : ∀ p ∈ ls, ∃ q ∈ new, ∃ items, p.1 ∈ items ∧ q.body = body items

/-- Sending changes the list of requests and the next name alone. -/
def State.sending (s : State) (new : List Req) (n : Nat) : State := { s with reqs := s.reqs ++ new, nextId := n }

theorem send_each (w : Warp) (body : List Nat → ReqBody) (slot : Nat) : ∀ (ls : List (Nat × LaneRead)) (s : State),
    ∃ new n, (ls.foldl (fun s p => s.send w.coreNo w.ctx w.wid p.2.at_.pkgLine.1 p.2.at_.pkgLine.2 (body [p.1]) (some (scKey s w slot p.2.lane))) s) =
      s.sending new n ∧ Asks w s.now body (some slot) ls new
  | [], s => ⟨[], s.nextId, by simp [State.sending], ⟨by simp, by simp, by simp, by simp⟩⟩
  | p :: ls, s => by
    obtain ⟨new, n, he, ha⟩ := send_each w body slot ls
      (s.send w.coreNo w.ctx w.wid p.2.at_.pkgLine.1 p.2.at_.pkgLine.2 (body [p.1]) (some (scKey s w slot p.2.lane)))
    set q : Req := ⟨s.nextId, w.coreNo, w.ctx, w.wid, p.2.at_.pkgLine.1, p.2.at_.pkgLine.2, body [p.1], some (scKey s w slot p.2.lane), 0, s.now, []⟩ with hq
    refine ⟨q :: new, n, ?_, ⟨?_, ?_, ?_, ?_⟩⟩
    · rw [List.foldl_cons, he]
      simp [State.sending, State.send, hq]
    · rintro r (_ | ⟨_, hr⟩)
      · exact ⟨rfl, rfl, rfl, rfl, rfl⟩
      · exact ha.source r hr
    · rintro r (_ | ⟨_, hr⟩)
      · exact ⟨[p.1], rfl, fun k hk => ⟨p.2, by simp at hk; simp [hk], rfl⟩⟩
      · obtain ⟨items, hb, hi⟩ := ha.items r hr
        exact ⟨items, hb, fun k hk => by obtain ⟨x, hx, hl⟩ := hi k hk; exact ⟨x, List.mem_cons_of_mem _ hx, hl⟩⟩
    · rintro r (_ | ⟨_, hr⟩) m hm
      · cases hm
      · exact nomatch (ha.after r hr m hm).1
    · rintro r (_ | ⟨_, hr⟩)
      · exact ⟨q, List.mem_cons_self, [p.1], by simp, rfl⟩
      · obtain ⟨t, ht, items, hi, hb⟩ := ha.all r hr
        exact ⟨t, List.mem_cons_of_mem _ ht, items, hi, hb⟩

/-- The request for a line among those of some lines that are sent together. -/
theorem sendParts_asks (s : State) (w : Warp) (body : List Nat → ReqBody) (ls : List (Nat × LaneRead)) :
    ∃ new n, sendParts s w (ls.map fun p => (p.2.lane, p.2.at_.pkgLine)) (fun l => body ((ls.filter fun p => p.2.at_.pkgLine == l).map fun p => p.1)) =
      s.sending new n ∧ Asks w s.now body none ls new := by
  set parts := ls.map fun p => (p.2.lane, p.2.at_.pkgLine) with hparts
  set lines := List.zip (upto (partLines parts).length) (partLines parts) with hlines
  refine ⟨_, _, rfl, ⟨?_, ?_, ?_, ?_⟩⟩
  · intro q hq
    obtain ⟨p, -, rfl⟩ := List.mem_map.1 hq
    exact ⟨rfl, rfl, rfl, rfl, rfl⟩
  · intro q hq
    obtain ⟨p, -, rfl⟩ := List.mem_map.1 hq
    refine ⟨_, rfl, fun k hk => ?_⟩
    obtain ⟨r, hr, rfl⟩ := List.mem_map.1 hk
    obtain ⟨hr, hl⟩ := List.mem_filter.1 hr
    exact ⟨r.2, hr, by simpa using hl⟩
  · intro q hq m hm
    obtain ⟨p, -, rfl⟩ := List.mem_map.1 hq
    obtain ⟨r, hr, rfl⟩ := List.mem_map.1 hm
    obtain ⟨hr, hb⟩ := List.mem_filter.1 hr
    exact ⟨rfl, _, List.mem_map_of_mem hr, rfl, partBefore_ne hb⟩
  · intro p hp
    have hl : p.2.at_.pkgLine ∈ partLines parts := mem_partLines.2 ⟨_, List.mem_map_of_mem hp, rfl⟩
    obtain ⟨i, hi⟩ := List.mem_iff_getElem?.1 hl
    exact ⟨_, List.mem_map_of_mem (mem_zip_upto.2 hi), _, List.mem_map_of_mem (List.mem_filter.2 ⟨hp, by simp⟩), rfl⟩

theorem sendReads_asks (s : State) (w : Warp) (op : Nat) (tag : Bool) (sc : Option Nat) (ls : List (Nat × LaneRead)) :
    ∃ new n, sendReads s w op tag sc ls = s.sending new n ∧ Asks w s.now (fun items => if tag then .rtag op items else .read op items) sc ls new := by
  cases sc with
  | some slot => exact send_each w (fun items => if tag then .rtag op items else .read op items) slot ls s
  | none => exact sendParts_asks s w (fun items => if tag then .rtag op items else .read op items) ls

theorem mem_open_reads {rs : List LaneRead} {k : Nat} {x : LaneRead} :
    (k, x) ∈ (List.zip (upto rs.length) rs).filter (fun p => p.2.got == .waiting) ↔ rs[k]? = some x ∧ x.got = .waiting := by
  rw [List.mem_filter, mem_zip_upto, beq_iff_eq]

/-- The load operation that a word not stepped by a debugger starts. -/
def startedOp (s : State) (c : Cur) (w : Warp) (i : Instr) (d : Dst) (n : Nat) (group ts : Bool) (fill : Option (Option Nat)) (ls : List Nat)
    (rs : List LaneRead) : LoadOp :=
  ⟨s.nextId, w.wid, c.pc, d, n, n == 6, group, ts, fill, i, rs, false, s.now, w.handler, w.latchMarks ls, []⟩

/-- A load operation noted. -/
def State.noting (s : State) (op : LoadOp) : State := { s with ops := s.ops ++ [op], nextId := s.nextId + 1 }

theorem startLoad_eq {s : State} {c : Cur} (hc : c.hstep = none) (w : Warp) (i : Instr) (d : Dst) (n : Nat) (group ts : Bool) (fill : Option (Option Nat))
    (tag : Bool) (sc : Option Nat) (ls : List Nat) (rs : List LaneRead) :
    ∃ new m, startLoad s c w i d n group ts fill tag sc ls rs =
        ((s.noting (startedOp s c w i d n group ts fill ls rs)).sending new m).modWarp w.wid (fun x => x.waitOn ls (.load s.nextId) c.pc) ∧
      Asks w s.now (fun items => if tag then .rtag s.nextId items else .read s.nextId items) sc
        ((List.zip (upto rs.length) rs).filter fun p => p.2.got == .waiting) new := by
  obtain ⟨new, m, he, ha⟩ := sendReads_asks (s.noting (startedOp s c w i d n group ts fill ls rs)) w s.nextId tag sc
    ((List.zip (upto rs.length) rs).filter fun p => p.2.got == .waiting)
  refine ⟨new, m, ?_, ha⟩
  rw [← he]
  simp only [startLoad, stepAwaits, hc, Option.isSome_none]
  rfl

theorem Warp.waitOn_wid (w : Warp) (ls : List Nat) (k : WaitKind) (pc : Int) : (w.waitOn ls k pc).wid = w.wid := by
  unfold Warp.waitOn; split <;> rfl

/-- Settles O26: the operation is noted, its open reads are asked for, and its lanes wait. -/
theorem loadOperationsSendTheirOpenReads : Obligations.LoadOperationsSendTheirOpenReads := by
  unfold Obligations.LoadOperationsSendTheirOpenReads
  intro s c w i d n group ts fill tag sc ls rs hw hc
  obtain ⟨new, m, he, ha⟩ := startLoad_eq (s := s) hc w i d n group ts fill tag sc ls rs
  have hwarp := fun k => State.warp?_modWarp ((s.noting (startedOp s c w i d n group ts fill ls rs)).sending new m) w.wid _ (fun x => Warp.waitOn_wid x ls (.load s.nextId) c.pc) k
  rw [he]
  refine ⟨rfl, (hwarp _).trans ?_, fun k hk => (hwarp k).trans ?_, rfl, rfl, rfl, rfl, rfl, rfl, new, rfl, ?_, ha.after, ?_⟩
  · rw [if_pos rfl]
    exact congrArg (Option.map _) hw
  · rw [if_neg hk]; rfl
  · intro q hq
    obtain ⟨hsrc, hctx, hwid, hstage, hsent⟩ := ha.source q hq
    obtain ⟨items, hb, hi⟩ := ha.items q hq
    refine ⟨hsrc, hctx, hwid, hstage, hsent, items, hb, fun k hk => ?_⟩
    obtain ⟨x, hx, hl⟩ := hi k hk
    obtain ⟨hrs, hgot⟩ := mem_open_reads.1 hx
    exact ⟨x, hrs, hgot, hl⟩
  · intro k x hx hgot
    obtain ⟨q, hq, items, hk, hb⟩ := ha.all (k, x) (mem_open_reads.2 ⟨hx, hgot⟩)
    exact ⟨q, hq, items, hk, hb⟩

end Sys2Proof.Machine
end

section
/-! ## Certificates: stores (R149, R154, R195, R202, R206, R425 to R429) -/

namespace Sys2Proof.Machine

open Sys2Proof Tern

/-- A word whose effect answers plainly where it runs. -/
theorem Does.of_running {i : Instr} {act : State → Cur → Warp → List Nat → Eff} {P : State → Cur → Warp → List Nat → Prop}
    {e : State → Cur → Warp → List Nat → State} (hexec : ∀ s, exec i s = .next (runWord i s act))
    (h : ∀ s c w al, c.hstep = none → P s c w al → act s c w al = .plain (e s c w al)) : Does i P e true := fun s c w hr hp => by
  rw [hexec, runWord_plain hr (h _ _ _ _ hr.own hp)]

/-- A word that no debugger steps awaits nothing for one. -/
theorem stepAwaits_own {c : Cur} (hc : c.hstep = none) (s : State) (n : Nat) : stepAwaits s c n = s := by simp [stepAwaits, hc]

theorem storeVal_eq (w : Warp) (wd : Width) (c : Src) : storeVal w wd c = Rule.stored w wd c := by
  funext l; cases wd <;> rfl

/-! ### Global stores -/

theorem storeWord_plain {s s1 : State} {c : Cur} {w : Warp} {sc : Bool} {n : Nat} {addrs : List (Nat × Int)} {val : Nat → Int}
    {all : List (Nat × Int × Int) → List (Nat × Int × Int)} {xs : List Acc} (hst : Rule.storable s s1 w addrs n val xs) (haway : scAway s sc xs = []) :
    storeWord s c w sc n addrs val all = .plain (performSt s1 c w sc n val xs) := by
  obtain ⟨hacc, -, htags, hquiet⟩ := hst
  simp only [storeWord, hacc, haway, htags, guarded_units hquiet, accsOf_all]

theorem performSt_own {c : Cur} (hc : c.hstep = none) (s : State) (w : Warp) (n : Nat) (val : Nat → Int) {xs : List Acc} (hxs : xs ≠ []) :
    performSt s c w false n val xs =
      sendUnits ((xs.flatMap (unitsOf n val)).foldl (fun s u => l1Store s w.coreNo u) (dirtyPages s w xs)) w (xs.flatMap (unitsOf n val)) .store := by
  simp only [performSt, List.isEmpty_iff, hxs, if_false, Bool.false_eq_true, stepAwaits_own hc]

theorem performSt_sc {c : Cur} (hc : c.hstep = none) (s : State) (w : Warp) (n : Nat) (val : Nat → Int) {xs : List Acc} (hxs : xs ≠ []) :
    performSt s c w true n val xs =
      (xs.flatMap (unitsOf n val)).foldl (fun s (u : Unit1) =>
        ((unitsLines [u]).foldl (fun s p => dropL1 s w.coreNo p.1 p.2) s).send w.coreNo w.ctx w.wid u.at_.pkgLine.1 u.at_.pkgLine.2 (.store [u])
          (some (scKey s w c.slot u.lane))) (dirtyPages (s.commitWarp w) w xs) := by
  simp only [performSt, List.isEmpty_iff, hxs, if_false, if_true, stepAwaits_own hc]

/-- The one group of one element. -/
theorem groupsBy_singleton {α κ : Type} [DecidableEq κ] (key : α → κ) (x : α) : groupsBy key [x] = [(key x, [x])] := by
  simp [groupsBy, nodups]

/-- Settles O27: past its checks a store dirties its pages and sends its units. -/
theorem globalStoresSendTheirUnits : Obligations.GlobalStoresSendTheirUnits := by
  unfold Obligations.GlobalStoresSendTheirUnits
  refine ⟨fun o s1 xs hsc => Does.of_running (fun _ => rfl) fun s c w al hc ⟨hal, hst⟩ => ?_,
    fun o s1 xs hsc => Does.of_running (fun _ => rfl) fun s c w al hc ⟨hal, hst, haway⟩ => ?_,
    fun o s1 x => Does.of_running (fun _ => rfl) fun s c w al hc ⟨hal, hst⟩ => ?_,
    fun o s1 x => Does.of_running (fun _ => rfl) fun s c w al hc ⟨hal, hhost, hacc, hxs, hquiet⟩ => ?_⟩
  · simp only [List.isEmpty_iff, hal, if_false, hsc, laneAddrs_eq, storeVal_eq, storeWord_plain hst (scAway_none (sc := false) nofun), performSt_own hc s1 w _ _ hst.2.1]
  · simp only [List.isEmpty_iff, hal, if_false, hsc, laneAddrs_eq, storeVal_eq, storeWord_plain hst (scAway_none fun _ => haway), performSt_sc hc s1 w _ _ hst.2.1]
  · rw [← dblTrytes_eq] at hst ⊢
    simp only [List.isEmpty_iff, hal, if_false, storeWord_plain hst (scAway_none (sc := false) nofun), performSt_own hc s1 w _ _ hst.2.1,
      List.flatMap_cons, List.flatMap_nil, List.append_nil]
  · have hne : al ≠ [] := by rw [hal]; simp
    simp only [List.isEmpty_iff, hne, if_false, laneAddrs_eq, hacc, guarded_tags hquiet, accsOf_all, stepAwaits_own hc, hhost, Bool.not_false,
      List.filter_cons_of_pos, List.filter_nil, groupsBy_singleton, List.foldl_cons, List.foldl_nil, List.getLast?_singleton]

end Sys2Proof.Machine
end

section
/-! ## Certificates: scratchpad stores (R154, R195, R425, R427) -/

namespace Sys2Proof.Machine

open Sys2Proof Tern

/-! ### Lines outside windows -/

theorem mem_namedLines {n : Nat} {us : List (Nat × Int)} {x : Nat} : x ∈ namedLines n us ↔ ∃ u ∈ us, x ∈ scrLines u.2 n := by
  simp [namedLines, mem_nodups]

section
variable {g : Gang} {n : Nat} {us : List (Nat × Int)} (hwin : ∀ x ∈ namedLines n us, g.winAt x = none)
include hwin

theorem winAt_none {u : Nat × Int} (hu : u ∈ us) {x : Nat} (hx : x ∈ scrLines u.2 n) : g.winAt x = none := hwin x (mem_namedLines.2 ⟨u, hu, hx⟩)

/-- Units outside windows name no window line. -/
theorem winUnits_outside : winUnits g n us = [] := by
  simp only [winUnits, List.flatMap_eq_nil_iff, List.filterMap_eq_nil_iff, Option.map_eq_none_iff]
  exact fun u hu x hx => winAt_none hwin hu hx

theorem touching_outside (s : State) (c : Cur) (w : Warp) (rc : Option Nat) : touching s c w g n us rc = .none := by
  simp [touching, winUnits_outside hwin]

theorem spannedLines_outside (s : State) : spannedLines s g n us = [] := by
  have h : ∀ u ∈ us, (scrLines u.2 n).filterMap g.winAt = [] := fun u hu => by
    rw [List.filterMap_eq_nil_iff]; exact fun x hx => winAt_none hwin hu hx
  have hnil : ∀ l : List (Nat × Int), (∀ u ∈ l, u ∈ us) → ∀ p : Nat × Nat → Bool,
      (l.flatMap fun u => ((scrLines u.2 n).filterMap g.winAt).filter p) = [] := fun l hl p => by
    rw [List.flatMap_eq_nil_iff]; exact fun u hu => by rw [h u (hl u hu)]; rfl
  unfold spannedLines
  dsimp only
  rw [hnil _ (fun u hu => (List.mem_filter.1 hu).1)]
  rfl

end

/-! ### Lines whose trytes stand as they are -/

/-- A line that can be read and whose tag code is an unpacked one. -/
structure PlainLine (g : Gang) (x : Nat) : Prop where
  code : -13 ≤ (g.tag x).code ∧ (g.tag x).code ≤ 6
  good : g.bad.contains x = false

theorem PlainLine.lineAt {g : Gang} {x : Nat} (h : PlainLine g x) : g.lineAt x = .data (expandLine (g.tag x).code (g.line x)) (g.tag x) := by
  obtain ⟨⟨hlo, hhi⟩, hgood⟩ := h
  have hres : reservedCode (g.tag x).code = false := by simp [reservedCode]; omega
  simp only [Gang.lineAt, hgood, hres, Bool.false_eq_true, if_false]
  rw [if_neg (by omega)]

theorem PlainLine.unpacked {g : Gang} {x : Nat} (h : PlainLine g x) : inR (g.tag x).code 7 11 = false := by
  have := h.code; simp [inR]; omega

theorem PlainLine.plainLine {g : Gang} {x : Nat} (h : PlainLine g x) : g.plainLine x = g := by
  have := h.code
  unfold Gang.plainLine
  dsimp only
  rw [if_neg (by omega), if_neg (by omega)]

theorem State.modGang_self {s : State} {n : Nat} {f : Gang → Gang} (h : ∀ x, s.gang? n = some x → f x = x) : s.modGang n f = s := by
  unfold State.modGang
  rw [modFirst_self _ _ _ h]

theorem foldl_plainLine {s : State} {g : Gang} {gid : Nat} (hg : s.gang? gid = some g) : ∀ {ls : List Nat}, (∀ x ∈ ls, PlainLine g x) →
    ls.foldl (fun s x => s.modGang gid fun g => g.plainLine x) s = s
  | [], _ => rfl
  | x :: ls, h => by
    have hx : (s.modGang gid fun g => g.plainLine x) = s := State.modGang_self fun y hy => by
      rw [← Option.some.inj (hg.symm.trans hy)]; exact (h x List.mem_cons_self).plainLine
    rw [List.foldl_cons, hx]
    exact foldl_plainLine hg fun y hy => h y (List.mem_cons_of_mem _ hy)

/-! ### Correcting rows leaves all of a gang but its uncorrectable rows -/

/-- Gangs are the same but for the rows that they note as uncorrectable. -/
def SameButRows (s t : State) : Prop := ∀ n, ∃ rows, t.gang? n = (s.gang? n).map fun g => { g with badRows := rows }

theorem SameButRows.refl (s : State) : SameButRows s s := fun n => by
  cases h : s.gang? n with
  | none => exact ⟨[], rfl⟩
  | some g => exact ⟨g.badRows, rfl⟩

theorem SameButRows.of_gangs {s t : State} (h : t.gangs = s.gangs) : SameButRows s t := fun n => by
  rw [show t.gang? n = s.gang? n by simp only [State.gang?, h]]
  exact SameButRows.refl s n

theorem sameButRows_modCore (s : State) (n : Nat) (f : Core → Core) : SameButRows s (s.modCore n f) := .of_gangs (by simp)

theorem SameButRows.trans {s t u : State} (h : SameButRows s t) (h' : SameButRows t u) : SameButRows s u := fun n => by
  obtain ⟨rows, hr⟩ := h n
  obtain ⟨rows', hr'⟩ := h' n
  refine ⟨rows', ?_⟩
  rw [hr', hr, Option.map_map]
  rfl

/-- What the gang is after the rows that a word reads are corrected. -/
theorem SameButRows.gang? {s t : State} (h : SameButRows s t) {n : Nat} {g : Gang} (hg : s.gang? n = some g) : ∃ rows, t.gang? n = some { g with badRows := rows } := by
  obtain ⟨rows, hr⟩ := h n
  exact ⟨rows, by rw [hr, hg]; rfl⟩

theorem gang?_map (f : Gang → Gang) (hf : ∀ g, (f g).gid = g.gid) (l : List Gang) (n : Nat) :
    (l.map f).find? (fun g => g.gid == n) = (l.find? fun g => g.gid == n).map f := by
  rw [List.find?_map]
  simp only [Function.comp_def, hf]

theorem sameButRows_noteRows (s : State) (n : Nat) : SameButRows s (noteRows s n) := fun m => by
  unfold noteRows State.gang?
  dsimp only
  rw [gang?_map _ fun g => by split <;> rfl]
  cases s.gangs.find? fun g => g.gid == m with
  | none => exact ⟨[], rfl⟩
  | some g =>
    rw [Option.map_some]
    simp only [Option.map_some]
    split
    · exact ⟨_, rfl⟩
    · exact ⟨g.badRows, rfl⟩

theorem sameButRows_markBank (s : State) (core bank : Nat) : SameButRows s (markBank s core bank) :=
  SameButRows.trans (sameButRows_modCore s core _) (sameButRows_noteRows _ core)

theorem sameButRows_correctRow (s : State) (p : Nat × Nat) : SameButRows s (correctRow s p) := by
  unfold correctRow
  dsimp only
  split
  · split
    · exact SameButRows.refl s
    · split
      · exact sameButRows_modCore s _ _
      · exact (sameButRows_modCore s _ _).trans (sameButRows_markBank _ _ _)
  · exact SameButRows.refl s

theorem sameButRows_foldl_correctRow : ∀ (l : List (Nat × Nat)) (s : State), SameButRows s (l.foldl correctRow s)
  | [], s => SameButRows.refl s
  | p :: l, s => (sameButRows_correctRow s p).trans (sameButRows_foldl_correctRow l _)

theorem sameButRows_scrub (s : State) (gid : Nat) (us : List (Int × Nat)) : SameButRows s (scrub s gid us) := by
  unfold scrub
  split
  · exact SameButRows.refl s
  · split
    · exact SameButRows.refl s
    · exact sameButRows_foldl_correctRow _ s

/-! ### Units outside windows -/

theorem ssets_append : ∀ (vs us : List Int) (m : Store) (k : Nat), ssets m k (vs ++ us) = ssets (ssets m k vs) (k + vs.length) us
  | [], _, _, _ => rfl
  | v :: vs, us, m, k => by
    rw [List.cons_append, ssets, ssets, ssets_append vs us, List.length_cons, Nat.add_assoc, Nat.add_comm 1]

/-- The trytes of a value: the first three, and the rest. -/
theorem split_parts (n : Nat) (v : Int) : split 9 (3 + n) v = split 9 3 (narrow v 27) ++ split 9 n (shr v 27) := by
  rw [split_eq, split_eq, split_eq, List.range_add, List.map_append, List.map_map]
  refine congrArg₂ _ (List.map_congr_left fun i hi => ?_) (List.map_congr_left fun i _ => ?_)
  · have hi3 := List.mem_range.1 hi
    obtain ⟨h, -⟩ := shr_narrow_narrow v (9 * i) (27 - 9 * i)
    rw [show 9 * i + (27 - 9 * i) = 27 by omega] at h
    obtain ⟨-, h'⟩ := shr_narrow_narrow (shr v (9 * i)) 9 (27 - 9 * i - 9)
    rw [show 9 + (27 - 9 * i - 9) = 27 - 9 * i by omega] at h'
    rw [h, h']
  · rw [Function.comp_apply, shr_shr, show 9 * (3 + i) = 27 + 9 * i by omega]

theorem Gang.write_parts (g : Gang) {a : Int} (ha : 0 ≤ a) {n : Nat} (hn : 3 ≤ n) (v : Int) :
    (g.write a 3 (narrow v 27)).write (a + 3) (n - 3) (shr v 27) = g.write a n v := by
  obtain ⟨m, rfl⟩ := Nat.exists_eq_add_of_le hn
  have h3 : (split 9 3 (narrow v 27)).length = 3 := length_split ..
  rw [Nat.add_sub_cancel_left]
  simp only [Gang.write, split_parts m v, ssets_append, h3, show (a + 3).toNat = a.toNat + 3 by omega]

theorem State.modGang_modGang (s : State) (n : Nat) (f g : Gang → Gang) (hg : ∀ x, (g x).gid = x.gid) :
    (s.modGang n g).modGang n f = s.modGang n fun x => f (g x) := by
  unfold State.modGang
  dsimp only
  rw [modFirst_modFirst fun x => by rw [hg]]

/-- The first scratchpad line of a part of a unit is one of the unit's. -/
theorem mem_scrLines_first (a : Int) (n : Nat) : (a / 81).toNat ∈ scrLines a n := by simp [scrLines, mem_nodups]

theorem mem_scrLines_second {a : Int} {n : Nat} (hn : n = 6) (ha : 0 ≤ a) : ((a + 3) / 81).toNat ∈ scrLines a n := by
  simp only [scrLines, mem_nodups, List.mem_cons, List.not_mem_nil, or_false]
  omega

theorem Width.trytes_cases (w : Width) : w.trytes = 1 ∨ w.trytes = 3 ∨ w.trytes = 6 := by cases w <;> simp [Width.trytes]

/-- The width of a unit, and that it is aligned within lines unless it is a double. -/
structure UnitOk (a : Int) (n : Nat) : Prop where
  nonneg : 0 ≤ a
  width : n = 1 ∨ n = 3 ∨ n = 6
  aligned : n = 3 → a % 3 = 0

/-- A unit outside windows is written as a whole. -/
theorem stsUnit_outside {s : State} {g : Gang} {gid : Nat} (hg : s.gang? gid = some g) (w : Warp) {a : Int} {n : Nat} (hu : UnitOk a n)
    (hwin : ∀ x ∈ scrLines a n, g.winAt x = none) (v : Int) : stsUnit s w gid a n v = s.modGang gid fun g => g.write a n v := by
  obtain ⟨hnonneg, hwidth, halign⟩ := hu
  simp only [stsUnit, devUnit, hg]
  by_cases hcross : a % 81 + n > 81
  · have hn6 : n = 6 := by
      rcases hwidth with rfl | rfl | rfl
      · omega
      · have := halign rfl; omega
      · rfl
    rw [if_pos hcross]
    simp only [List.foldl_cons, List.foldl_nil, hwin _ (mem_scrLines_first a n), hwin _ (mem_scrLines_second hn6 hnonneg)]
    rw [State.modGang_modGang s gid _ (fun g => g.write a 3 (narrow v 27)) fun _ => rfl]
    simp only [Gang.write_parts _ hnonneg (show 3 ≤ n by omega)]
  · rw [if_neg hcross]
    simp only [List.foldl_cons, List.foldl_nil, hwin _ (mem_scrLines_first a n)]

/-- Writing leaves the windows where they are. -/
theorem winAt_of_wins {g g' : Gang} (h : g'.wins = g.wins) (x : Nat) : g'.winAt x = g.winAt x := by simp only [Gang.winAt, Gang.win?, h]

theorem gang?_gid {s : State} {n : Nat} {g : Gang} (h : s.gang? n = some g) : g.gid = n := by
  have := List.find?_some h
  simpa using this

/-- Units outside windows, one after the other. -/
theorem foldl_stsUnit {w : Warp} {gid n : Nat} {val : Nat → Int} : ∀ {us : List (Nat × Int)} {s : State} {g : Gang}, s.gang? gid = some g →
    (∀ u ∈ us, UnitOk u.2 n ∧ ∀ x ∈ scrLines u.2 n, g.winAt x = none) →
    us.foldl (fun s u => stsUnit s w gid u.2 n (val u.1)) s = s.modGang gid fun g => us.foldl (fun g u => g.write u.2 n (val u.1)) g
  | [], s, _, _, _ => (State.modGang_self fun _ _ => rfl).symm
  | u :: us, s, g, hg, h => by
    obtain ⟨hok, hwin⟩ := h u List.mem_cons_self
    have hg' : (s.modGang gid fun g => g.write u.2 n (val u.1)).gang? gid = some (g.write u.2 n (val u.1)) := by
      rw [State.gang?_modGang s gid (fun g => g.write u.2 n (val u.1)) (fun _ => rfl), if_pos rfl, hg]; rfl
    rw [List.foldl_cons, stsUnit_outside hg w hok hwin, foldl_stsUnit hg' fun v hv => ?_,
      State.modGang_modGang s gid _ (fun g => g.write u.2 n (val u.1)) fun _ => rfl]
    · rfl
    · obtain ⟨hok', hwin'⟩ := h v (List.mem_cons_of_mem _ hv)
      exact ⟨hok', fun x hx => (winAt_of_wins (by rfl) x).trans (hwin' x hx)⟩

/-- What passes the checks of a scratchpad word is aligned and in the allotment. -/
theorem unitOk_of_scratchFault {g : Gang} {wd : Width} {us : List (Nat × Int)} (h : scratchFault g wd.trytes true us = none) {u : Nat × Int} (hu : u ∈ us) :
    UnitOk u.2 wd.trytes := by
  simp only [scratchFault, if_true, Bool.not_eq_true'] at h
  have hmis : (us.filter fun u => misaligned wd.trytes u.2).isEmpty = true := by
    by_contra hne
    rw [if_pos (by simpa using hne)] at h
    cases h
  rw [if_neg (by simp [hmis])] at h
  have hout : (us.filter fun u => !g.holds u.2 wd.trytes).isEmpty = true := by
    by_contra hne
    rw [if_pos (by simpa using hne)] at h
    cases h
  simp only [List.isEmpty_iff, List.filter_eq_nil_iff] at hmis hout
  have hm := hmis u hu
  have hh := hout u hu
  simp only [misaligned, Gang.holds] at hm hh
  refine ⟨?_, Width.trytes_cases wd, fun h3 => ?_⟩
  · simp at hh; omega
  · simp [h3] at hm; omega

section
variable {g : Gang} {n : Nat} {us : List (Nat × Int)} (hplain : ∀ x ∈ namedLines n us, PlainLine g x)
include hplain

theorem plain_of_scrLines {u : Nat × Int} (hu : u ∈ us) {x : Nat} (hx : x ∈ scrLines u.2 n) : PlainLine g x := hplain x (mem_namedLines.2 ⟨u, hu, hx⟩)

/-- No line of the units is uncorrectable. -/
theorem no_bad_lines (hrows : ∀ u ∈ us, g.rowsBad u.2 n = false) :
    us.filterMap (fun u => ((scrLines u.2 n).find? fun x => g.lineAt x == .bad || g.rowsBad u.2 n).map fun (x : Nat) => (u.1, (0 : Int), 81 * (x : Int))) = [] := by
  simp only [List.filterMap_eq_nil_iff, Option.map_eq_none_iff, List.find?_eq_none]
  intro u hu x hx
  simp [(plain_of_scrLines hplain hu hx).lineAt, hrows u hu]

theorem no_reserved_lines :
    us.filterMap (fun u => ((scrLines u.2 n).find? fun x => g.lineAt x == .reserved).map fun (x : Nat) => (u.1, (0 : Int), 81 * (x : Int))) = [] := by
  simp only [List.filterMap_eq_nil_iff, Option.map_eq_none_iff, List.find?_eq_none]
  intro u hu x hx
  simp [(plain_of_scrLines hplain hu hx).lineAt]

theorem no_packed_lines : (namedLines n us).filter (fun x => inR (g.tag x).code 7 11) = [] := by
  rw [List.filter_eq_nil_iff]
  exact fun x hx => by simp [(hplain x hx).unpacked]

end

/-- Settles O28: the lines stand outside windows and as they are, so each unit is written in place. -/
theorem scratchpadStoresWriteTheirUnits : Obligations.ScratchpadStoresWriteTheirUnits := by
  unfold Obligations.ScratchpadStoresWriteTheirUnits
  refine fun o g => Does.of_running (fun _ => rfl) fun s c w al hc ⟨hg, hal, hfault, hlines, hrows, hquiet⟩ => ?_
  set us := Rule.addresses w al o.ad with hus
  have hwin : ∀ x ∈ namedLines o.w.trytes us, g.winAt x = none := fun x hx => (hlines x hx).1
  have hplain : ∀ x ∈ namedLines o.w.trytes us, PlainLine g x := fun x hx => ⟨(hlines x hx).2.1, (hlines x hx).2.2⟩
  have hgang : s.gang? g.gid = some g := by
    obtain ⟨gid, -, hgid⟩ := Option.bind_eq_some_iff.1 hg
    rwa [gang?_gid hgid]
  have hlanes : (us.map fun u => (u.1, u.2, u.2, o.w.trytes)).map (fun x => x.1) = al := by
    rw [List.map_map]; exact addresses_lanes w al o.ad
  have hfilter : us.filter (fun u => al.contains u.1) = us := by
    have h := filter_own_lanes us
    rwa [hus, addresses_lanes] at h
  have hunits : ∀ u ∈ us, UnitOk u.2 o.w.trytes ∧ ∀ x ∈ scrLines u.2 o.w.trytes, g.winAt x = none := fun u hu =>
    ⟨unitOk_of_scratchFault hfault hu, fun x hx => winAt_none hwin hu hx⟩
  obtain ⟨rows, hg'⟩ := (sameButRows_scrub s g.gid (us.map fun u => (u.2, o.w.trytes))).gang? hgang
  have hstore := foldl_stsUnit (w := w) (val := Rule.stored w o.w o.c) hg' fun u hu =>
    ⟨(hunits u hu).1, fun x hx => (winAt_of_wins (by rfl) x).trans ((hunits u hu).2 x hx)⟩
  simp only [hg, List.isEmpty_iff, hal, if_false, laneAddrs_eq, ← hus, hfault, winUnits_outside hwin, List.filter_nil, touching_outside hwin,
    no_bad_lines hplain hrows, no_reserved_lines hplain, no_packed_lines hplain, List.filterMap_nil, spannedLines_outside hwin,
    guarded_unwatched hquiet, hlanes, hfilter, foldl_plainLine hgang hplain, stepAwaits_own hc, storeVal_eq, hstore]
  rfl

end Sys2Proof.Machine
end

section
/-! ## Certificates: atomics and reductions (R185, R187, R206, R244, R345 to R347, R413, R414) -/

namespace Sys2Proof.Machine

open Sys2Proof Tern

/-- The old values that the model picks for a unit, or for the units of a line, are those of the rule. -/
theorem oldsAt_unit (olds : List Unit1) (u : Unit1) :
    (olds.filter fun v => u.at_.pkgLine == v.at_.pkgLine).map (fun v => (v.lane, v.val)) = Rule.oldsAt olds [u] := by
  simp only [Rule.oldsAt, Bool.beq_comm]

theorem oldsAt_units (olds vs : List Unit1) : (vs.head?.map fun u => Rule.oldsAt olds [u]).getD [] = Rule.oldsAt olds vs := by
  cases vs <;> rfl

/-- What ATOM sends: its units to their homes, or with keys one by one. -/
def atomSent (o : AtomA) (c : Cur) (w : Warp) (id : Nat) (xs : List Acc) (s : State) : State :=
  let n := if o.dbl then 6 else 3
  let us := xs.flatMap (unitsOf n fun l => w.src l o.dbl o.c)
  let olds := xs.flatMap (unitsOf n fun l => match o.d with | .v m => w.src l o.dbl (.v m) | _ => 0)
  if o.sc then us.foldl (fun s (u : Unit1) => s.send w.coreNo w.ctx w.wid u.at_.pkgLine.1 u.at_.pkgLine.2
    (.atom id o.op [u] ((Rule.oldsAt olds [u]).filter fun p => p.1 == u.lane)) (some (scKey s w c.slot u.lane))) s
  else sendUnits s w us fun vs => .atom id o.op vs (Rule.oldsAt olds vs)

theorem atom_does (o : AtomA) (s1 : State) (xs : List Acc) : Does (.atom o) (fun s _ w al => al ≠ [] ∧
      Rule.reaches s s1 w (Rule.addresses w al o.ad) (if o.dbl then 6 else 3) true Need.rmw xs ∧ scAway s o.sc xs = [])
    (fun _ c w _ => Rule.atomWaits o c w s1 xs (atomSent o c w s1.nextId xs (Rule.atomBegun o c w s1 xs))) true :=
  Does.of_running (fun _ => rfl) fun s c w al hc ⟨hal, ⟨hacc, hxs, hquiet⟩, haway⟩ => by
    rw [← dblTrytes_eq] at hacc
    have hls : ¬ xs.map (fun x => x.lane) = [] := by simpa using hxs
    simp only [List.isEmpty_iff, hal, hls, if_false, laneAddrs_eq, hacc, haway, guarded_units hquiet, accsOf_all, stepAwaits_own hc,
      oldsAt_unit, oldsAt_units, hc, Option.isSome_none]
    rfl

/-- The count of a round word has 12 trits. -/
theorem field_low_le (v : Int) : field v 11 0 ≤ 265720 := narrow_le _ 12

/-- Settles O29: past their checks these words begin their operation and send its units. -/
theorem atomicsAndReductionsGoHome : Obligations.AtomicsAndReductionsGoHome := by
  unfold Obligations.AtomicsAndReductionsGoHome
  refine ⟨fun o s1 xs hsc => ?_, fun o s1 xs hsc => ?_, fun o s c w s1 xs hsc hr hal hacc haway => ?_, fun o s1 xs hdet => ?_, fun o r s1 xs hdet => ?_,
    fun o r hdet => ?_⟩
  · refine ((atom_does o s1 xs).imp fun s c w al h => ⟨h.1, h.2, by simp [scAway, hsc]⟩).congr fun s c w _ _ => ?_
    simp only [atomSent, hsc, Bool.false_eq_true, if_false] <;> rfl
  · refine ((atom_does o s1 xs).imp fun s c w al h => ⟨h.1, h.2.1, scAway_none fun _ => h.2.2⟩).congr fun s c w _ _ => ?_
    simp only [atomSent, hsc, if_true] <;> rfl
  · have haway' : scAway (s.counted (.atom o) c.wid) o.sc xs = (xs.filter fun x => x.away s).map fun x => (x.lane, 14, x.virt) := by
      simp only [scAway, hsc, if_true]
      rfl
    obtain ⟨x, hx, hxa⟩ := haway
    obtain ⟨b, bs, hb⟩ := List.exists_cons_of_ne_nil (l := (xs.filter fun x => x.away s).map fun x => (x.lane, (14 : Int), x.virt))
      (by simpa using ⟨x, hx, hxa⟩)
    refine congrArg Host.Outcome.next (runWord_trap hr ?_)
    rw [← dblTrytes_eq] at hacc
    rw [hb] at haway' ⊢
    simp only [List.isEmpty_iff, hal, if_false, laneAddrs_eq, hacc, haway']
  · refine Does.of_running (fun _ => rfl) fun s c w al hc ⟨hacc, hxs, hquiet⟩ => ?_
    simp only [hdet, Option.isSome_none, Bool.false_and, Bool.false_eq_true, if_false, laneAddrs_eq, hacc, guarded_units hquiet, hxs, List.map_eq_nil_iff,
      List.isEmpty_iff, accsOf_all, stepAwaits_own hc, storeVal_eq]
  · refine Does.of_running (fun _ => rfl) fun s c w al hc ⟨hcount, hacc, hxs, hquiet⟩ => ?_
    have hin : inR (field (w.greg r) 11 0) 1 265720 = true := by simp [inR, hcount, field_low_le]
    simp only [hdet, hin, Option.isSome_some, Bool.not_true, Bool.and_false, Bool.false_eq_true, if_false, if_true, laneAddrs_eq, hacc, guarded_units hquiet,
      hxs, List.map_eq_nil_iff, List.isEmpty_iff, accsOf_all, stepAwaits_own hc, storeVal_eq]
    rfl
  · refine Traps.of_trap (fun _ => rfl) fun s c w al hcount => ⟨s, ?_, rfl⟩
    have hin : inR (field (w.greg r) 11 0) 1 265720 = false := by simp [inR]; omega
    simp only [hdet, hin, Option.isSome_some, Bool.not_false, Bool.and_true, if_true]
    rfl

end Sys2Proof.Machine
end

section
/-! ## Certificates: fences, touches and cache words (R163, R182, R198 to R200, R360, R382, R383, R387, R395, R396, R410, R432) -/

namespace Sys2Proof.Machine

open Sys2Proof Tern

/-! ### Cache words -/

/-- The heads of groups are elements of the list. -/
theorem mem_of_group_heads {α κ : Type} [DecidableEq κ] {key : α → κ} {xs : List α} {y : α} (h : y ∈ (groupsBy key xs).filterMap fun g => g.2.head?) : y ∈ xs := by
  obtain ⟨g, hg, hy⟩ := List.mem_filterMap.1 h
  obtain ⟨k, -, rfl⟩ := List.mem_map.1 hg
  exact (List.mem_filter.1 (List.mem_of_mem_head? hy)).1

/-- Lines that are all present or dirty are flushed now, and none is awaited. -/
theorem flush_lists {ls : List (Nat × WLine)} (h : ∀ p ∈ ls, p.2.st = .present ∨ p.2.st = .dirty) :
    ls.filter (fun p => p.2.st == .filling || p.2.st == .recv) = [] ∧ ls.filter (fun p => p.2.st == .present || p.2.st == .dirty) = ls := by
  rw [List.filter_eq_nil_iff, List.filter_eq_self]
  refine ⟨fun p hp => ?_, fun p hp => ?_⟩
  · rcases h p hp with h | h <;> simp [h]
  · rcases h p hp with h | h <;> simp [h]

theorem flushWord_does {i : Instr} {o : FlushA} {inv : Bool} (hexec : ∀ s, exec i s = .next (flushWord i o inv s)) (g : Gang) (s1 : State) (xs : List Acc) :
    Does i (fun s _ w al => al ≠ [] ∧ access s w (Rule.addresses w al o.ad) 1 false Need.none = (s1, .ok xs) ∧ gangOf s w = some g ∧
      ∀ x ∈ xs, ∀ p ∈ boxLines g x.at_, p.2.st = .present ∨ p.2.st = .dirty)
    (fun _ c w al =>
      let ys := (groupsBy (fun (x : Acc) => x.at_.lineStart) xs).filterMap fun g => g.2.head?
      let s2 := ys.foldl (fun s x => dropL1 s w.coreNo x.at_.pkgLine.1 x.at_.pkgLine.2) s1
      let q := flushLines s2 g.gid inv ((nodups (ys.flatMap fun x => boxLines g x.at_)).map fun p => (p.1, p.2.j))
      if q.2 = [] then q.1 else pendOn q.1 c al (.flush inv [] q.2)) true :=
  Does.of_plain hexec fun s c w al ⟨hal, hacc, hg, hlines⟩ => by
    obtain ⟨hfills, hnow⟩ := flush_lists (ls := nodups (((groupsBy (fun (x : Acc) => x.at_.lineStart) xs).filterMap fun g => g.2.head?).flatMap fun x => boxLines g x.at_))
      fun p hp => by
        obtain ⟨x, hx, hp⟩ := List.mem_flatMap.1 ((mem_nodups _).1 hp)
        exact hlines x (mem_of_group_heads hx) p hp
    simp only [List.isEmpty_iff, hal, if_false, laneAddrs_eq, hacc, hg, hfills, hnow, List.map_nil, List.isEmpty_nil, Bool.true_and]
    split <;> rfl

/-! ### LDMC -/

/-- The count of a sound pass is positive. -/
theorem ldmcCheck_count {g : Gang} {core : Nat} {a0 a1 a2 b : Int} (h : ldmcCheck g core a0 a1 a2 b = 0) : 1 ≤ field b 8 0 := by
  simp only [ldmcCheck] at h
  split at h
  · cases h
  · rename_i hn
    simp only [Bool.or_eq_true, not_or, Bool.not_eq_true', Bool.not_eq_false] at hn
    obtain ⟨-, hn⟩ := hn
    simp only [inR, decide_eq_true_eq] at hn
    exact hn.1

/-- Addresses that all pass have no first that does not. -/
theorem firstBad_ok (f : Nat × Loc → Int) (ps : List (Nat × Loc)) : firstBad (ps.map fun p => (f p, .ok p.2)) = none := by
  induction ps with
  | nil => rfl
  | cons p ps ih => exact ih

/-- Settles O30: each word's effect, past its checks, is the one stated. -/
theorem fencesTouchesAndCacheWords : Obligations.FencesTouchesAndCacheWords := by
  unfold Obligations.FencesTouchesAndCacheWords
  refine ⟨fun o => Does.of_plain (fun _ => rfl) fun s c w al ⟨hal, hno⟩ => ?_, fun o => Does.of_plain (fun _ => rfl) fun s c w al ⟨hal, hscope, hkind⟩ => ?_,
    fun s w k => rfl, fun o => Does.of_plain (fun _ => rfl) fun s c w al _ => ?_,
    fun o g => Does.of_plain (fun _ => rfl) fun s c w al ⟨hg, hfault, htouch⟩ => ?_,
    fun o s1 rs => Does.of_plain (fun _ => rfl) fun s c w al hchk => ?_, fun i o inv g s1 xs hi => ?_,
    fun o g x s1 locs => Does.of_plain (fun _ => rfl) fun s c w al ⟨hg, hal, hcheck, hwin, hlines, hlen, haddrs⟩ => ?_,
    fun o g e he => Traps.of_trap (fun _ => rfl) fun s c w al ⟨hg, hal, hcheck⟩ => ⟨s, ?_, rfl⟩⟩
  · have hfence : (decide (o.kind ≥ 0) && decide (-1 ≤ actScope s w o.scope)) = false := by
      rw [Bool.and_eq_false_iff, decide_eq_false_iff_not, decide_eq_false_iff_not]; omega
    simp only [List.isEmpty_iff, hal, hfence, Bool.false_eq_true, if_false]
  · simp only [List.isEmpty_iff, hal, if_false, hscope, hkind, decide_true, Bool.and_true, if_true]
  · simp only [beq_iff_eq]
  · simp only [hg, hfault, htouch]
  · simp only [laneAddrs_eq, hchk]
  · rcases hi with ⟨rfl, rfl⟩ | ⟨rfl, rfl⟩
    · exact flushWord_does (fun _ => rfl) g s1 xs
    · exact flushWord_does (fun _ => rfl) g s1 xs
  · have hcount := ldmcCheck_count hcheck
    have hjs : ((upto (field (w.greg o.b) 8 0).toNat).map fun i => (field (w.greg o.b) 17 9).toNat + i).length = locs.length := by
      rw [List.length_map, upto, List.length_range, hlen]
    have hne : List.zip ((upto (field (w.greg o.b) 8 0).toNat).map fun i => (field (w.greg o.b) 17 9).toNat + i) locs ≠ [] := by
      rw [ne_eq, ← List.length_eq_zero_iff, List.length_zip, hjs, hlen]; omega
    have habsent : ∀ l : List (Nat × Loc), l.filter (fun q => x.stateOf q.1 == .absent) = l := fun l => by
      rw [List.filter_eq_self]; intro q _; simp [Window.stateOf, Window.line?, hlines]
    simp only [hg, List.isEmpty_iff, hal, if_false, wordAt, List.getD_cons_zero, List.getD_cons_succ, hcheck, ne_eq, not_true_eq_false, hwin, haddrs,
      firstBad_ok]
    simp only [List.map_map, Function.comp_def, List.map_snd_zip hjs.ge, habsent, hne, if_false]
    rfl
  · simp only [hg, List.isEmpty_iff, hal, if_false, wordAt, List.getD_cons_zero, List.getD_cons_succ, hcheck, ne_eq, he, not_false_eq_true, if_true]
    rfl

end Sys2Proof.Machine
end

section
/-! ## Certificates: alignment and the checks of an address (R138 to R149, R341) -/

namespace Sys2Proof.Machine

open Sys2Proof Tern

/-! ### Misaligned lanes -/

/-- The misaligned lanes of a word, as R341 says it. -/
theorem misaligned_lanes (n : Nat) (us : List (Nat × Int)) :
    us.filter (fun u => misaligned n u.2) = us.filter fun u => decide (n ≠ 1 ∧ u.2 % (n : Int) ≠ 0) := by
  refine List.filter_congr fun u _ => ?_
  rw [Bool.eq_iff_iff, decide_eq_true_iff]
  simp [misaligned, bne]

theorem access_misaligned (s : State) (w : Warp) {us : List (Nat × Int)} {n : Nat} (nd : Need) (h : us.filter (fun u => misaligned n u.2) ≠ []) :
    access s w us n true nd = (s, .error ⟨cause.align, (us.filter fun u => misaligned n u.2).map fun p => (p.1, 0, p.2)⟩) := by
  simp only [access, if_true, Bool.not_eq_true', List.isEmpty_eq_false_iff.2 h]

theorem accessStore_misaligned (s : State) (w : Warp) {us : List (Nat × Int)} {n : Nat} (val : Nat → Int) (h : us.filter (fun u => misaligned n u.2) ≠ []) :
    accessStore s w us n val = (s, .error ⟨cause.align, (us.filter fun u => misaligned n u.2).map fun p => (p.1, 0, p.2)⟩) := by
  simp only [accessStore, Bool.not_eq_true', List.isEmpty_eq_false_iff.2 h, if_true]

theorem scratchFault_misaligned (g : Gang) {us : List (Nat × Int)} {n : Nat} (h : us.filter (fun u => misaligned n u.2) ≠ []) :
    scratchFault g n true us = some ⟨cause.align, (us.filter fun u => misaligned n u.2).map fun p => (p.1, 0, p.2)⟩ := by
  simp only [scratchFault, if_true, Bool.not_eq_true', List.isEmpty_eq_false_iff.2 h]

/-- A word with a misaligned lane has an active lane. -/
theorem active_of_misaligned {w : Warp} {al : List Nat} {ad : Addr} {n : Nat}
    (h : (Rule.addresses w al ad).filter (fun u => misaligned n u.2) ≠ []) : al ≠ [] := by
  rintro rfl
  exact h rfl

theorem misalignedLanes_trap :
    (∀ o, Traps (.ld o) (fun _ _ w al => (Rule.addresses w al o.ad).filter (fun u => misaligned o.w.trytes u.2) ≠ [])
      fun _ _ w al => ⟨cause.align, ((Rule.addresses w al o.ad).filter fun u => misaligned o.w.trytes u.2).map fun p => (p.1, 0, p.2)⟩) ∧
    (∀ o, Traps (.st o) (fun _ _ w al => (Rule.addresses w al o.ad).filter (fun u => misaligned o.w.trytes u.2) ≠ [])
      fun _ _ w al => ⟨cause.align, ((Rule.addresses w al o.ad).filter fun u => misaligned o.w.trytes u.2).map fun p => (p.1, 0, p.2)⟩) ∧
    (∀ o, Traps (.atom o) (fun _ _ w al => (Rule.addresses w al o.ad).filter (fun u => misaligned (dblTrytes o.dbl) u.2) ≠ [])
      fun _ _ w al => ⟨cause.align, ((Rule.addresses w al o.ad).filter fun u => misaligned (dblTrytes o.dbl) u.2).map fun p => (p.1, 0, p.2)⟩) ∧
    (∀ o g, Traps (.lds o) (fun s _ w al => gangOf s w = some g ∧ (Rule.addresses w al o.ad).filter (fun u => misaligned o.w.trytes u.2) ≠ [])
      fun _ _ w al => ⟨cause.align, ((Rule.addresses w al o.ad).filter fun u => misaligned o.w.trytes u.2).map fun p => (p.1, 0, p.2)⟩) ∧
    (∀ o g, Traps (.sts o) (fun s _ w al => gangOf s w = some g ∧ (Rule.addresses w al o.ad).filter (fun u => misaligned o.w.trytes u.2) ≠ [])
      fun _ _ w al => ⟨cause.align, ((Rule.addresses w al o.ad).filter fun u => misaligned o.w.trytes u.2).map fun p => (p.1, 0, p.2)⟩) := by
  refine ⟨fun o => Traps.of_trap (fun _ => rfl) fun s c w al h => ⟨s, ?_, rfl⟩, fun o => Traps.of_trap (fun _ => rfl) fun s c w al h => ⟨s, ?_, rfl⟩,
    fun o => Traps.of_trap (fun _ => rfl) fun s c w al h => ⟨s, ?_, rfl⟩, fun o g => Traps.of_trap (fun _ => rfl) fun s c w al ⟨hg, h⟩ => ⟨s, ?_, rfl⟩,
    fun o g => Traps.of_trap (fun _ => rfl) fun s c w al ⟨hg, h⟩ => ⟨s, ?_, rfl⟩⟩
  · simp only [List.isEmpty_iff, active_of_misaligned h, if_false, laneAddrs_eq, access_misaligned _ _ _ h]
  · simp only [List.isEmpty_iff, active_of_misaligned h, if_false, laneAddrs_eq, storeWord, accessStore_misaligned _ _ _ h, id]
  · simp only [List.isEmpty_iff, active_of_misaligned h, if_false, laneAddrs_eq, access_misaligned _ _ _ h]
  · simp only [hg, List.isEmpty_iff, active_of_misaligned h, if_false, laneAddrs_eq, scratchFault_misaligned _ h]
  · simp only [hg, List.isEmpty_iff, active_of_misaligned h, if_false, laneAddrs_eq, scratchFault_misaligned _ h]

/-! ### The checks of an address (R146) -/

section
variable (s : State) (core ctx : Nat) (sup : Bool) (nd : Need) (poison : Bool) {a : Int}

theorem checkAddr_not_canonical (h : canonicalAddr a = false) : (checkAddr s core ctx sup nd poison a).2 = .fail 1 := by
  simp [checkAddr, h]

theorem checkAddr_page_zero (hc : canonicalAddr a = true) (h : pageOf a = 0) : (checkAddr s core ctx sup nd poison a).2 = .fail 2 := by
  simp [checkAddr, hc, h]

theorem checkAddr_supervisor_half (hc : canonicalAddr a = true) (h : pageOf a < 0) (hsup : sup = false) :
    (checkAddr s core ctx sup nd poison a).2 = .fail 3 := by
  simp [checkAddr, hc, h, hsup, h.ne]

variable {s core ctx sup nd poison} (hcanon : canonicalAddr a = true) (hpage : pageOf a ≠ 0) (hhalf : 0 < pageOf a ∨ sup = true)
include hcanon hpage hhalf

/-- Past the checks of its own, an address has the answer of its leaf. -/
theorem checkAddr_leaf : (checkAddr s core ctx sup nd poison a).2 =
    match (if nd.w then leafForWrite s core ctx (pageOf a) else leafFor s core ctx (pageOf a)) with
    | (_, .error d) => if d = -1 then .uncor else .fail d
    | (s1, .ok (e, lv, _)) => leafChk s1 ctx nd e lv a poison := by
  have h3 : ¬ ((decide (pageOf a < 0) && !sup) = true) := by
    rcases hhalf with h | h
    · simp [h.le]
    · simp [h]
  simp only [checkAddr, hcanon, Bool.not_true, Bool.false_eq_true, if_false, hpage, h3]
  rcases (if nd.w then leafForWrite s core ctx (pageOf a) else leafFor s core ctx (pageOf a)) with ⟨s1, d | ⟨e, lv, at_⟩⟩ <;> rfl

/-- A page that the TLB does not hold fails as its walk does. -/
theorem checkAddr_of_walk_error (hmiss : tlbFind (s.core core) ctx (pageOf a) = none) {d : Int}
    (hwalk : walkFrom (walkRecall s (pageOf a) (walkStart s (srcDie core) ctx (pageOf a)).1 (walkStart s (srcDie core) ctx (pageOf a)).2) (pageOf a)
      (walkStart s (srcDie core) ctx (pageOf a)).1 (walkStart s (srcDie core) ctx (pageOf a)).2 = .error d) :
    (checkAddr s core ctx sup nd poison a).2 = if d = -1 then .uncor else .fail d := by
  rw [checkAddr_leaf hcanon hpage hhalf]
  simp only [leafForWrite, leafFor, hmiss, ite_self, walk, hwalk]

/-- A leaf that the TLB holds is checked as it stands; for a write, one whose page is dirty. -/
theorem checkAddr_of_tlb {t : Tlb} (hhit : tlbFind (s.core core) ctx (pageOf a) = some t) (hdirty : nd.w = true → trit t.leaf 44 = 1) :
    (checkAddr s core ctx sup nd poison a).2 = leafChk s ctx nd t.leaf t.level a poison := by
  rw [checkAddr_leaf hcanon hpage hhalf]
  by_cases hw : nd.w = true
  · simp [leafForWrite, hhit, hw, pteBit, hdirty hw]
  · simp [leafFor, hhit, hw]

end

/-- A leaf's grant of what is needed. -/
theorem grants_bit {b : Bool} {e : Int} {i : Nat} (h : b = true → trit e i = 1) : (b && pteBit e i != 1) = false := by
  cases b with
  | false => rfl
  | true => simp [pteBit, h rfl]

theorem refuses_bit {b : Bool} {e : Int} {i : Nat} (h : ¬ (b = true → trit e i = 1)) : (b && pteBit e i != 1) = true := by
  obtain ⟨hb, he⟩ := Classical.not_imp.1 h
  simp [pteBit, hb, he]

/-- A leaf of the domain that grants what is needed gives its place, unless that is poisoned. -/
theorem leafChk_domain {s : State} {ctx : Nat} {nd : Need} {e : Int} {lv : Nat} {a : Int} {poison : Bool} (hr : nd.r = true → trit e 49 = 1)
    (hw : nd.w = true → trit e 48 = 1) (hx : nd.x = true → trit e 47 = 1) (hdom : field e 51 50 = 0) :
    leafChk s ctx nd e lv a poison =
      if poison && (pteBit e 43 == 1 || (s.mem.frames.contains (frameKey (field e 35 30) ((19683 * (pteFrame e + narrow (pageOf a) (6 * lv)) + offOf a) / 19683)) ||
          s.pkg.deadPeers.contains (field e 35 30))) then .uncor
      else .ok (.dom (field e 35 30) (19683 * (pteFrame e + narrow (pageOf a) (6 * lv)) + offOf a)) := by
  simp only [leafChk, grants_bit hr, grants_bit hw, grants_bit hx, pteTarget, hdom, placeOf, ptePkg, bne_self_eq_false, Bool.and_false, Bool.false_and, Bool.false_eq_true, if_false, if_true]

/-- Settles O31: the misaligned lanes, and the checks of an address one after the other. -/
theorem alignmentAndAddressChecks : Obligations.AlignmentAndAddressChecks := by
  unfold Obligations.AlignmentAndAddressChecks
  refine ⟨?_, fun s core ctx sup nd poison a => ?_⟩
  · simp only [← misaligned_lanes]
    exact misalignedLanes_trap
  · have hcanon : canonicalAddr a = decide (-(19683 * ((pow3 30 - 1) / 2)) ≤ a ∧ a ≤ (pow3 39 - 1) / 2) := rfl
    refine ⟨fun h => checkAddr_not_canonical _ _ _ _ _ _ (by rw [hcanon]; exact decide_eq_false h),
      fun h h0 => checkAddr_page_zero _ _ _ _ _ _ (by rw [hcanon]; exact decide_eq_true h) h0,
      fun hlow hneg hsup => checkAddr_supervisor_half _ _ _ _ _ _ ?_ hneg hsup,
      fun d hc h0 hhalf hmiss hwalk => checkAddr_of_walk_error hc h0 hhalf hmiss hwalk, fun hnone => ?_,
      fun t hc h0 hhalf hhit hdirty => ?_⟩
    · rw [hcanon, decide_eq_true_iff]
      have hpow : (0 : Int) ≤ (pow3 39 - 1) / 2 := by decide
      exact ⟨hlow, by omega⟩
    · rw [walkStart, List.filter_eq_nil_iff.2 fun y hy => by simp [hnone y hy]]
      rfl
    · simp only [checkAddr_of_tlb hc h0 hhalf hhit hdirty]
      refine ⟨fun h => ?_, fun hr h => ?_, fun hr hw hat h => ?_, fun hr hw hx hdom hp h43 => ?_, fun hr hw hx hdom hclean => ?_⟩
      · simp only [leafChk, refuses_bit h, if_true]
      · simp only [leafChk, grants_bit hr, refuses_bit h, Bool.false_eq_true, if_false, if_true]
      · simp only [leafChk, grants_bit hr, grants_bit hw, hat, refuses_bit h, Bool.false_and, Bool.false_eq_true, if_false, if_true]
      · rw [leafChk_domain hr hw hx hdom]
        simp [hp, pteBit, h43]
      · rw [leafChk_domain hr hw hx hdom]
        cases poison with
        | false => rfl
        | true =>
          obtain ⟨h43, hframe, hpeer⟩ := hclean rfl
          have hx2 : (19683 * (pteFrame t.leaf + narrow (pageOf a) (6 * t.level)) + offOf a) / 19683 =
            (19683 * (field t.leaf 29 0 + narrow (pageOf a) (6 * t.level)) + a % 19683) / 19683 := rfl
          simp only [hx2, hframe, hpeer, pteBit, Bool.or_false, Bool.true_and, beq_iff_eq, h43, if_false]
          rfl

end Sys2Proof.Machine
end

section
/-! ## Certificates: windows, tasks and streams (R158 to R160, R167, R191, R237, R238, R418 to R420, R437 to R439) -/

namespace Sys2Proof.Machine

open Sys2Proof Tern

/-! ### Group-wide words and their records -/

theorem gangOf_counted (i : Instr) (s : State) (n : Nat) (w : Warp) : gangOf (s.counted i n) w = gangOf s w := rfl

/-- The gang of a warp is its gang by name. -/
theorem gang?_of_gangOf {s : State} {w : Warp} {g : Gang} (h : gangOf s w = some g) : s.gang? g.gid = some g := by
  obtain ⟨n, -, hg⟩ := Option.bind_eq_some_iff.1 h
  rwa [gang?_gid hg]

section
variable {i : Instr} {f : State → Cur → Warp → Gang → Eff} {P : State → Cur → Warp → List Nat → Prop} {g : Gang}

/-- A group-wide word whose effect answers plainly. -/
theorem Does.of_gangWord {e : State → Cur → Warp → List Nat → State} (hexec : ∀ s, exec i s = .next (gangWord i s f))
    (h : ∀ s c w al, gangOf s w = some g → P s c w al → f s c w g = .plain (e s c w al)) :
    Does i (fun s c w al => gangOf s w = some g ∧ al ≠ [] ∧ P s c w al) e true :=
  Does.of_plain hexec fun s c w al ⟨hg, hal, hp⟩ => by simp only [hg, List.isEmpty_iff, hal, if_false, h s c w al hg hp]

/-- A group-wide word that traps. -/
theorem Traps.of_gangWord {t : State → Cur → Warp → List Nat → TrapReq} (hexec : ∀ s, exec i s = .next (gangWord i s f))
    (h : ∀ s c w al, gangOf s w = some g → P s c w al → f s c w g = .trap s (t s c w al)) :
    Traps i (fun s c w al => gangOf s w = some g ∧ al ≠ [] ∧ P s c w al) t :=
  Traps.of_trap hexec fun s c w al ⟨hg, hal, hp⟩ => ⟨s, by simp only [hg, List.isEmpty_iff, hal, if_false, h s c w al hg hp], rfl⟩

/-- A group-wide word that traps in a state of its own. -/
theorem exec_gangWord_trap {s s2 : State} {c : Cur} {w : Warp} {t : TrapReq} (hexec : ∀ s, exec i s = .next (gangWord i s f)) (hr : Runs i s c w)
    (hg : gangOf s w = some g) (hal : activeOf i w c.lanes ≠ []) (h : f (s.counted i c.wid) c w g = .trap s2 t) :
    exec i s = .next (s2.enterTrap c.wid t) := by
  rw [hexec, gangWord]
  refine congrArg Host.Outcome.next (runWord_trap hr ?_)
  simp only [gangOf_counted, hg, List.isEmpty_iff, hal, if_false, h]

end

/-- A record line that fits is read, its rows corrected. -/
theorem recordAt_fits {g : Gang} {a : Int} (h : Rule.recordFits g a) (s : State) (c : Cur) : recordAt s c g a = .ok (Rule.readRec s g a, g.record a) := by
  obtain ⟨halign, h0, hend, hread⟩ := h
  simp [recordAt, halign, Gang.holds, h0, hend, hread, Rule.readRec]

/-! ### Windows -/

/-- Settles O33: the windows bound, released and refused. -/
theorem windowWords : Obligations.WindowWords := by
  unfold Obligations.WindowWords
  refine ⟨fun o g => Does.of_gangWord (fun _ => rfl) fun s c w al hg ⟨hk, hfits, hsound, hfree⟩ => ?_,
    fun o g x => Does.of_gangWord (fun _ => rfl) fun s c w al hg ⟨hk, hfits, hsound, hbound⟩ => ?_,
    fun o g s c w k hr hg hal hk hfits hbad => exec_gangWord_trap (fun _ => rfl) hr hg hal ?_,
    fun o g x => Does.of_gangWord (fun _ => rfl) fun s c w al hg ⟨hk, hbound⟩ => ?_,
    fun o g => Does.of_gangWord (fun _ => rfl) fun s c w al hg ⟨hk, hfree⟩ => ?_, fun i k o p hik g => ?_⟩
  · simp only [Nat.not_le.2 hk, if_false, recordAt_fits hfits, hsound, hfree, bindWin]
  · simp only [Nat.not_le.2 hk, if_false, recordAt_fits hfits, hsound, hbound]
  · simp only [Nat.not_le.2 hk, if_false, recordAt_fits hfits, hbad, illegalTrap]
  · simp only [Nat.not_le.2 hk, if_false, hbound]
  · simp only [Nat.not_le.2 hk, if_false, hfree]
  · rcases hik with ⟨rfl, rfl⟩ | ⟨rfl, rfl⟩ <;> refine Traps.of_gangWord (fun _ => rfl) fun s c w al hg hk => ?_ <;> simp only [hk, if_true, illegalTrap]

/-! ### Tasks and streams -/

theorem mem_upto {i n : Nat} : i ∈ upto n ↔ i < n := List.mem_range

/-- The gang as TASK finds it once its record is read. -/
theorem readRec_gang? {s : State} {w : Warp} {g : Gang} (hg : gangOf s w = some g) (a : Int) :
    ∃ rows, (Rule.readRec s g a).gang? g.gid = some { g with badRows := rows } :=
  (sameButRows_scrub s g.gid [(a, 81)]).gang? (gang?_of_gangOf hg)

/-- Settles O34: an accepted TASK and one that waits, TQRY's report, and the waits of SEND and RECV. -/
theorem taskAndStreamWords : Obligations.TaskAndStreamWords := by
  unfold Obligations.TaskAndStreamWords
  refine ⟨fun o g => Does.of_gangWord (fun _ => rfl) fun s c w al hg ⟨hfits, hsound, hfree, hfirst⟩ => ?_,
    fun o g => Does.of_gangWord (fun _ => rfl) fun s c w al hg ⟨hfits, hsound, hfull⟩ => ?_,
    fun o g s c w k hr hg hal hfits hbad => exec_gangWord_trap (fun _ => rfl) hr hg hal ?_,
    fun o g => Does.imp (Does.of_gangWord (P := fun _ _ _ _ => True) (fun _ => rfl) fun s c w al hg _ => rfl) fun s c w al ⟨hg, hal⟩ => ⟨hg, hal, trivial⟩,
    fun o g => Does.of_gangWord (fun _ => rfl) fun s c w al hg ⟨h1, h2, halign, hlow, hhigh, hport, hread, htouch⟩ => ?_,
    fun o g x s1 rs => Does.of_gangWord (fun _ => rfl) fun s c w al hg ⟨hn1, hn2, hf1, hf2, hk, hwin, hrel, hspan, hport, hcheck, hgood⟩ => ?_⟩
  · obtain ⟨rows, hgang⟩ := readRec_gang? hg (w.greg o.a + o.imm)
    simp only [recordAt_fits hfits, hsound, hfree, hfirst, Bool.not_false, Bool.and_self, if_true, acceptTask, hgang]
    rfl
  · have hwait : (entryFree (Rule.readRec s g (w.greg o.a + o.imm)) g && !taskWaits (Rule.readRec s g (w.greg o.a + o.imm)) g.gid) = false := by
      rcases hfull with h | h <;> simp [h]
    simp only [recordAt_fits hfits, hsound, hwait, Bool.false_eq_true, if_false]
  · simp only [recordAt_fits hfits, hbad, illegalTrap]
  · have hn : inR (w.greg o.b) 1 6561 = true := (inR_iff _ _ _).2 ⟨h1, h2⟩
    have hholds : ((upto (w.greg o.b).toNat).map fun (i : Nat) => w.greg o.a + 81 * (i : Int)).find? (fun x => !g.holds x 81) = none := by
      simp only [List.find?_eq_none, List.mem_map, forall_exists_index, and_imp, forall_apply_eq_imp_iff₂]
      intro i hi
      have hlt := mem_upto.1 hi
      simp [Gang.holds]
      omega
    have hunread : ((upto (w.greg o.b).toNat).map fun (i : Nat) => w.greg o.a + 81 * (i : Int)).find? (fun x => g.unread x 81) = none := by
      simp only [List.find?_eq_none, List.mem_map, forall_exists_index, and_imp, forall_apply_eq_imp_iff₂]
      intro i hi
      simpa using hread i (mem_upto.1 hi)
    have htouch' : touching s c w g 81 (((upto (w.greg o.b).toNat).map fun (i : Nat) => w.greg o.a + 81 * (i : Int)).map fun x => (c.lanes.headD 0, x)) none = .none := by
      rw [List.map_map]
      exact htouch
    simp only [hn, halign, hholds, Option.isNone_eq_false_iff.2 hport, htouch', hunread, Bool.not_true, Bool.false_eq_true, if_false, ne_eq, not_true]
  · have hn : inR (field (w.greg o.a) 8 0) 1 6561 = true := (inR_iff _ _ _).2 ⟨hn1, hn2⟩
    have hf : inR (field (w.greg o.a) 17 9) 0 6560 = true := (inR_iff _ _ _).2 ⟨hf1, hf2⟩
    simp only [hn, hf, not_lt.2 hk, hwin, hrel, not_lt.2 hspan, Option.isNone_eq_false_iff.2 hport, hcheck, hgood, Bool.not_true, Bool.or_self,
      Bool.false_eq_true, if_false] <;> rfl

end Sys2Proof.Machine
end

section
/-! ## Certificates: transducer words (R248 to R253) -/

namespace Sys2Proof.Machine

open Sys2Proof Tern

/-! ### What correcting rows changes -/

/-- All but cores, gangs and the log is the same. -/
def OnlyRows (s t : State) : Prop := ∃ cs gs lg, t = { s with cores := cs, gangs := gs, log := lg }

theorem OnlyRows.refl (s : State) : OnlyRows s s := ⟨_, _, _, rfl⟩

theorem OnlyRows.trans {s t u : State} (h : OnlyRows s t) (h' : OnlyRows t u) : OnlyRows s u := by
  obtain ⟨cs, gs, lg, rfl⟩ := h
  obtain ⟨cs', gs', lg', rfl⟩ := h'
  exact ⟨cs', gs', lg', rfl⟩

theorem onlyRows_modCore (s : State) (n : Nat) (f : Core → Core) : OnlyRows s (s.modCore n f) := by
  unfold State.modCore
  split <;> exact ⟨_, _, _, rfl⟩

theorem onlyRows_markBank (s : State) (core bank : Nat) : OnlyRows s (markBank s core bank) :=
  (onlyRows_modCore s core _).trans ⟨_, _, _, rfl⟩

theorem onlyRows_correctRow (s : State) (p : Nat × Nat) : OnlyRows s (correctRow s p) := by
  unfold correctRow
  dsimp only
  split
  · split
    · exact .refl s
    · split
      · exact onlyRows_modCore s _ _
      · exact (onlyRows_modCore s _ _).trans (onlyRows_markBank _ _ _)
  · exact .refl s

theorem onlyRows_foldl_correctRow : ∀ (l : List (Nat × Nat)) (s : State), OnlyRows s (l.foldl correctRow s)
  | [], s => .refl s
  | p :: l, s => (onlyRows_correctRow s p).trans (onlyRows_foldl_correctRow l _)

theorem onlyRows_scrub (s : State) (gid : Nat) (us : List (Int × Nat)) : OnlyRows s (scrub s gid us) := by
  unfold scrub
  split
  · exact .refl s
  · split
    · exact .refl s
    · exact onlyRows_foldl_correctRow _ s

section
variable {s t : State} (h : OnlyRows s t)
include h

theorem OnlyRows.warp? (n : Nat) : t.warp? n = s.warp? n := by obtain ⟨cs, gs, lg, rfl⟩ := h; rfl

theorem OnlyRows.slotGranted (ctx : Nat) (n : Int) : Machine.slotGranted t ctx n = Machine.slotGranted s ctx n := by obtain ⟨cs, gs, lg, rfl⟩ := h; rfl

theorem OnlyRows.laneQueue (n : Nat) : Machine.laneQueue t n = Machine.laneQueue s n := by obtain ⟨cs, gs, lg, rfl⟩ := h; rfl

end

/-! ### XFST -/

section
variable {o : XfstA} {g : Gang} {s : State} {c : Cur} {w : Warp} {r : List Int} {a : Int} (hr : Runs (.xfst o) s c w) (hg : gangOf s w = some g)
include hr hg

/-- The warp and its gang as XFST finds them once its record is read. -/
theorem xfst_warp_gang (a : Int) : ∃ w' rows, (Rule.readRec (s.counted (.xfst o) c.wid) g a).warp? w.wid = some w' ∧
    gangOf (Rule.readRec (s.counted (.xfst o) c.wid) g a) w' = some { g with badRows := rows } ∧
    w'.coreNo = w.coreNo ∧ w'.ctx = w.ctx ∧ w'.level = w.level ∧ w'.gid = w.gid := by
  have hw := hr.counted_warp?
  rw [← (onlyRows_scrub _ g.gid [(a, 81)]).warp?] at hw
  obtain ⟨rows, hgang⟩ := readRec_gang? (s := s.counted (.xfst o) c.wid) hg a
  obtain ⟨n, hn, hs⟩ := Option.bind_eq_some_iff.1 hg
  refine ⟨w.countYields (wordCount (.xfst o)), rows, (congrArg _ (State.warp?_wid hr.warp)).trans hw, ?_, rfl, rfl, rfl, rfl⟩
  simp only [gangOf, Warp.countYields, Warp.allLanes, hn, Option.bind_some]
  rwa [← gang?_gid hs]

theorem xfst_full (hfull : 27 ≤ (laneQueue s (wordAt r 0).toNat).length) :
    xfstTry (Rule.readRec (s.counted (.xfst o) c.wid) g a) w.wid r a o.d = (Rule.readRec (s.counted (.xfst o) c.wid) g a, false) := by
  obtain ⟨w', rows, hw, hgang, -⟩ := xfst_warp_gang hr hg a
  have hq : 27 ≤ (laneQueue (Rule.readRec (s.counted (.xfst o) c.wid) g a) (wordAt r 0).toNat).length := by
    rwa [Rule.readRec, (onlyRows_scrub _ _ _).laneQueue]
  simp only [xfstTry, hw, hgang, hq, if_true]

variable (hroom : (laneQueue s (wordAt r 0).toNat).length < 27)
include hroom

theorem xfst_refused {s1 : State} {d x : Int} (href : xfstRefusal (Rule.readRec (s.counted (.xfst o) c.wid) g a) w.coreNo w.ctx (w.level == 1) r = (s1, .error (d, x))) :
    xfstTry (Rule.readRec (s.counted (.xfst o) c.wid) g a) w.wid r a o.d =
      ((xfstStatus s1 w.coreNo w.ctx w.wid g.gid a (-5 * pow3 24 + d * pow3 12) 0 x).modWarp w.wid fun y => y.setG o.d (-1), true) := by
  obtain ⟨w', rows, hw, hgang, hcore, hctx, hlevel, -⟩ := xfst_warp_gang hr hg a
  have hq : ¬ 27 ≤ (laneQueue (Rule.readRec (s.counted (.xfst o) c.wid) g a) (wordAt r 0).toNat).length := by
    rw [Rule.readRec, (onlyRows_scrub _ _ _).laneQueue]
    exact Nat.not_le.2 hroom
  simp only [xfstTry, hw, hgang, hq, if_false, hcore, hctx, hlevel, href]

theorem xfst_accepted {s1 : State} {src dst : List Loc}
    (href : xfstRefusal (Rule.readRec (s.counted (.xfst o) c.wid) g a) w.coreNo w.ctx (w.level == 1) r = (s1, .ok (src, dst))) :
    let ls := spanLines dst (dblAt r 4) (wordAt r 6).toNat
    let s2 := if wordAt r 8 = -1 then recallAll s1 ls else tbPost (recallAll s1 ls) (.scr g.gid (wordAt r 8)) (Min.min (3 * wordAt r 3) (wordAt r 6))
    xfstTry (Rule.readRec (s.counted (.xfst o) c.wid) g a) w.wid r a o.d =
      (((modQueue { s2 with home := { s2.home with owned := s2.home.owned ++ ls.map fun p => ⟨p.1, p.2, .xducer s2.nextId⟩ }, nextId := s2.nextId + 1 }
        (wordAt r 0).toNat fun l => l ++ [⟨s2.nextId, g.gid, g.lid, w.ctx, a, r, src, dst, false, 0, 0, 0, 0, coreWrites s1 w.coreNo⟩]).commitWarp w).modWarp
          w.wid fun y => y.setG o.d 1, true) := by
  obtain ⟨w', rows, hw, hgang, hcore, hctx, hlevel, hgid⟩ := xfst_warp_gang hr hg a
  have hq : ¬ 27 ≤ (laneQueue (Rule.readRec (s.counted (.xfst o) c.wid) g a) (wordAt r 0).toNat).length := by
    rw [Rule.readRec, (onlyRows_scrub _ _ _).laneQueue]
    exact Nat.not_le.2 hroom
  simp only [xfstTry, hw, hgang, hq, if_false, hcore, hctx, hlevel, href, State.commitWarp, hgid]

end

/-- The effect of XFST of a sound record of a granted slot. -/
theorem exec_xfst {o : XfstA} {g : Gang} {s : State} {c : Cur} {w : Warp} (hr : Runs (.xfst o) s c w) (hg : gangOf s w = some g)
    (hal : activeOf (.xfst o) w c.lanes ≠ []) (hfits : Rule.recordFits g (w.greg o.a + o.imm))
    (hsound : lowestCharge (xfstCharges g (g.record (w.greg o.a + o.imm))) = none)
    (hslot : slotGranted s w.ctx (wordAt (g.record (w.greg o.a + o.imm)) 7) = true) :
    let a := w.greg o.a + o.imm
    let q := xfstTry (Rule.readRec (s.counted (.xfst o) c.wid) g a) w.wid (g.record a) a o.d
    exec (.xfst o) s = .next ((if q.2 then q.1 else pendOn q.1 c c.lanes (.xfst (g.record a) a o.d)).endWord (.xfst o) c w true) := by
  intro a q
  have hslot' : slotGranted (Rule.readRec (s.counted (.xfst o) c.wid) g a) w.ctx (wordAt (g.record a) 7) = true := by
    rw [Rule.readRec, (onlyRows_scrub _ _ _).slotGranted]
    exact hslot
  refine congrArg Host.Outcome.next (runWord_plain hr ?_)
  simp only [gangOf_counted, hg, List.isEmpty_iff, hal, if_false, recordAt_fits hfits, hsound, a, q, hslot', Bool.not_true, Bool.false_eq_true]
  split <;> rfl

/-- Settles O35: a request taken, refused, waiting and bad, and the load of a table. -/
theorem transducerWords : Obligations.TransducerWords := by
  unfold Obligations.TransducerWords
  refine ⟨fun o g s c w s1 src dst hr hg hal hfits hsound hslot hroom href => ?_,
    fun o g s1 d x s c w hr ⟨hg, hal, hfits, hsound, hslot, hroom, href⟩ => ?_,
    fun o g s c w hr ⟨hg, hal, hfits, hsound, hslot, hfull⟩ => ?_,
    fun o g s c w k hr hg hal hfits hbad => exec_gangWord_trap (fun _ => rfl) hr hg hal ?_,
    fun o g s c w hr hg hal hfits hsound hslot => exec_gangWord_trap (fun _ => rfl) hr hg hal ?_,
    fun o s c w s1 l s2 rs hr hal hslot halign hhead himage hgood => ?_,
    fun o => Traps.of_trap (fun _ => rfl) fun s c w al ⟨hal, hslot⟩ => ⟨s, ?_, rfl⟩,
    fun o => Traps.of_trap (fun _ => rfl) fun s c w al ⟨hal, hslot, halign⟩ => ⟨s, ?_, rfl⟩⟩
  · rw [exec_xfst hr hg hal hfits hsound hslot, xfst_accepted hr hg hroom href, State.warp?_wid hr.warp]
    rfl
  · rw [exec_xfst hr hg hal hfits hsound hslot, xfst_refused hr hg hroom href]
    simp only [if_true, State.warp?_wid hr.warp]
  · rw [exec_xfst hr hg hal hfits hsound hslot, xfst_full hr hg hfull]
    rfl
  · simp only [recordAt_fits hfits, hbad, illegalTrap]
  · have hslot' : slotGranted (Rule.readRec (s.counted (.xfst o) c.wid) g (w.greg o.a + o.imm)) w.ctx (wordAt (g.record (w.greg o.a + o.imm)) 7) = false := by
      rw [Rule.readRec, (onlyRows_scrub _ _ _).slotGranted]
      exact hslot
    simp only [recordAt_fits hfits, hsound, hslot', Bool.not_false, if_true, privTrap]
  · refine congrArg Host.Outcome.next (runWord_plain hr ?_)
    have hslot' : slotGranted (s.counted (.xtab o) c.wid) w.ctx o.slot = true := hslot
    simp only [List.isEmpty_iff, hal, if_false, hslot', halign, hhead, Bool.not_true, Bool.false_eq_true, ne_eq, not_true]
    rw [show imageTrytes (headerStates (readBefore s1 l) l) = 81 * (244 + 6 * headerStates (readBefore s1 l) l) from rfl, himage]
    simp only [hgood] <;> rfl
  · simp only [List.isEmpty_iff, hal, if_false, hslot, Bool.not_false, if_true, privTrap]
  · simp only [List.isEmpty_iff, hal, if_false, hslot, halign, Bool.not_true, Bool.false_eq_true, wholeTrap, ne_eq, not_false_iff, if_true]

end Sys2Proof.Machine
end

section
/-! ## Certificates: LNCH (R261, R265) -/

namespace Sys2Proof.Machine

open Sys2Proof Tern

/-- A machine whose paddock 0 has reached the sequence number 3^27, one more trit than a register holds, and a warp that launches there. -/
def State.pastSequence : State :=
  { State.reset with warps := [newWarp 0 none 0 0 .saved 0 0 9 0 []], paddocks := [{ Paddock.start 0 with nextSeq := pow3 27 }] }

theorem acceptLaunch_pastSequence : ((acceptLaunch State.pastSequence 0 [] [] 0).warp? 0).map (fun w => w.greg 0) = some 0 := by decide

/-- Refutes O36: a launch that takes the sequence number 3^27 leaves in Gd the low word of it, which is 0. -/
theorem not_launchWords : ¬ Obligations.LaunchWords := by
  unfold Obligations.LaunchWords
  rintro ⟨-, -, -, -, -, -, -, -, haccept⟩
  have hseq := (haccept State.pastSequence 0 _ [] [] 0 rfl).2.1
  rw [acceptLaunch_pastSequence] at hseq
  exact absurd hseq (by decide)

end Sys2Proof.Machine
end

section
/-! ## Certificates: system words (R93, R281, R282, R286, R309, R411, R416) -/

namespace Sys2Proof.Machine

open Sys2Proof Tern

/-! ### ROLE -/

theorem role_partial_iff (c : Cur) (w : Warp) :
    (w.where_ fun x => x.live).any (fun l => !c.lanes.contains l) = true ↔ ∃ l, l < 27 ∧ (w.lane l).live = true ∧ ¬ l ∈ c.lanes := by
  simp [Warp.where_, mem_upto]

theorem role_whole_iff (c : Cur) (w : Warp) :
    (w.where_ fun x => x.live).any (fun l => !c.lanes.contains l) = false ↔ ∀ l, l < 27 → (w.lane l).live = true → l ∈ c.lanes := by
  rw [← Bool.not_eq_true, role_partial_iff]
  push Not
  rfl

/-- The allotment is taken at once: the model's test as R93 says it. -/
theorem roleNow_iff (o : RoleA) (s : State) (w : Warp) :
    (decide (9 * o.b ≤ w.allot) || (match w.bay? with
      | some b => (rolesIn s b).isEmpty && decide (bayUsed s b.1 b.2 + 9 * o.b ≤ 243 + w.allot)
      | none => true)) = true ↔ Rule.roleNow o s w := by
  unfold Rule.roleNow
  cases w.bay? <;> simp

/-- The class that a warp's launch allows it. -/
def topClass (s : State) (w : Warp) : Int := match (gangOf s w).bind fun g => s.launch? g.lid with | some x => x.cls | none => 4

/-- ROLE, its tests by name. -/
def roleWord (o : RoleA) (s : State) (c : Cur) (w : Warp) (al : List Nat) : Eff :=
  if al.isEmpty then .plain s
  else if (w.where_ fun x => x.live).any fun l => !c.lanes.contains l then illegalTrap s c.lanes 0
  else if w.user && decide (topClass s w < o.c) then privTrap s c
  else if 9 * o.b + gangAllot s w > 243 then wholeTrap s c cause.barc (-1) 0
  else if decide (9 * o.b ≤ w.allot) || (match w.bay? with
      | some b => (rolesIn s b).isEmpty && decide (bayUsed s b.1 b.2 + 9 * o.b ≤ 243 + w.allot)
      | none => true) then .moved (s.modWarp c.wid fun x => x.applyRole (9 * o.b) o.c (w.gpair o.a))
  else .plain (pendOn s c c.lanes (.role (9 * o.b) o.c (w.gpair o.a)))

theorem exec_role (o : RoleA) (s : State) : exec (.role o) s = .next (runWord (.role o) s (roleWord o)) := rfl

/-- Within a launch of its class, or at supervisor level. -/
theorem role_class_iff (o : RoleA) (s : State) (w : Warp) : (w.user && decide (topClass s w < o.c)) = false ↔ (w.level = 0 → o.c ≤ topClass s w) := by
  by_cases h : w.level = 0 <;> simp [Warp.user, h]

/-- ROLE past its checks. -/
theorem roleWord_ok {o : RoleA} {s : State} {c : Cur} {w : Warp} {al : List Nat} (h : Rule.roleOk o s c w al) [Decidable (Rule.roleNow o s w)] :
    roleWord o s c w al = if Rule.roleNow o s w then .moved (s.modWarp c.wid fun x => x.applyRole (9 * o.b) o.c (w.gpair o.a))
      else .plain (pendOn s c c.lanes (.role (9 * o.b) o.c (w.gpair o.a))) := by
  obtain ⟨hal, hwhole, hclass, hfit⟩ := h
  have hclass' : (w.user && decide (topClass s w < o.c)) = false := (role_class_iff o s w).2 hclass
  simp only [roleWord, List.isEmpty_iff, hal, if_false, (role_whole_iff c w).2 hwhole, hclass', Bool.false_eq_true, Nat.not_lt.2 hfit, roleNow_iff]

/-! ### The lanes of TRAP -/

/-- A word with an active lane acts for its active lanes in vector form, else for its issue set (R99). -/
theorem active_or_all {w : Warp} {h : Hd} {ls : List Nat} (hal : activeLanes w h ls ≠ []) :
    (if h.form = .vector then activeLanes w h ls else ls) = activeLanes w h ls := by
  cases hf : h.form with
  | vector => rfl
  | group =>
    simp only [activeLanes, hf] at hal ⊢
    split at hal
    next hon => rw [if_neg (by simp), if_pos hon]
    · exact absurd rfl hal

/-- Settles O37: the roles taken, waiting and refused, PREH, TRAP, RFT and BRK. -/
theorem systemWords : Obligations.SystemWords := by
  classical
  unfold Obligations.SystemWords
  refine ⟨fun o => Does.of_moved (exec_role o) fun s c w al ⟨hok, hnow⟩ => by rw [roleWord_ok hok, if_pos hnow]; rfl,
    fun o => Does.of_plain (exec_role o) fun s c w al ⟨hok, hnow⟩ => by rw [roleWord_ok hok, if_neg hnow],
    fun o => Traps.of_trap (exec_role o) fun s c w al ⟨hal, hpart⟩ => ⟨s, ?_, rfl⟩,
    fun o => Traps.of_trap (exec_role o) fun s c w al ⟨hal, hwhole, hlevel, hclass⟩ => ⟨s, ?_, rfl⟩,
    fun o => Traps.of_trap (exec_role o) fun s c w al ⟨hal, hwhole, hclass, hfit⟩ => ⟨s, ?_, rfl⟩,
    fun o => Does.of_plain (fun _ => rfl) fun s c w al hd => ?_,
    fun o d => Does.of_plain (fun _ => rfl) fun s c w al ⟨hal, hd⟩ => ?_, fun o s c w hr hal => ?_,
    fun h => Does.of_moved (fun _ => rfl) fun s c w al ⟨hh, hal⟩ => ?_, fun h => Does.of_plain (fun _ => rfl) fun s c w al ⟨hh, hal⟩ => ?_,
    fun h => Traps.of_trap (fun _ => rfl) fun s c w al hh => ⟨s, ?_, rfl⟩,
    fun o => Does.of_running (fun _ => rfl) fun s c w al hc hal => ?_⟩
  · simp only [roleWord, List.isEmpty_iff, hal, if_false, (role_partial_iff c w).2 hpart, if_true, illegalTrap]
  · have hclass' : (w.user && decide (topClass s w < o.c)) = true := by
      simp only [Warp.user, hlevel, beq_self_eq_true, Bool.true_and, decide_eq_true_iff]
      exact hclass
    simp only [roleWord, List.isEmpty_iff, hal, if_false, (role_whole_iff c w).2 hwhole, hclass', Bool.false_eq_true, if_true, privTrap]
  · have hclass' : (w.user && decide (topClass s w < o.c)) = false := (role_class_iff o s w).2 hclass
    simp only [roleWord, List.isEmpty_iff, hal, if_false, (role_whole_iff c w).2 hwhole, hclass', Bool.false_eq_true, if_pos hfit, gt_iff_lt, wholeTrap]
  · simp only [hd, Option.isNone_none, Bool.or_true, if_true]
  · have hrun : (al.isEmpty || w.deadline.isNone) = false := by simp [hal, hd]
    simp only [hrun, Bool.false_eq_true, if_false]
  · have hword : runWord (.trap o) s (fun s _ _ _ => .plain s) = (s.counted (.trap o) c.wid).endWord (.trap o) c w true := runWord_plain hr rfl
    have hact : activeLanes w o.hd c.lanes ≠ [] := hal
    have hrun : (!legal (.trap o) w c.lanes || (activeLanes w o.hd c.lanes).isEmpty) = false := by simp [hr.legal, hact]
    refine congrArg Host.Outcome.next ?_
    simp only [hr.cur, hr.warp, hword, hrun, Bool.false_eq_true, if_false, raiseDone, hr.own, active_or_all hact]
    rfl
  · simp only [hh, List.isEmpty_iff, hal, Bool.not_true, Bool.false_eq_true, if_false]
    rfl
  · simp only [hh, hal, List.isEmpty_nil, Bool.not_true, Bool.false_eq_true, if_false, if_true]
  · simp only [hh, Bool.not_false, if_true, illegalTrap]
  · have hrun : (al.isEmpty || c.hstep.isSome) = false := by simp [hal, hc]
    simp [hrun, State.note, Halt.word, dbgStatus]

end Sys2Proof.Machine
end

section
/-! ## Certificates: halted-state words (R304) -/

namespace Sys2Proof.Machine

open Sys2Proof Tern

/-- The result words of an operation that has ended. -/
def DbgOut.words? : DbgOut → Option (List Int)
  | .done _ ws => some ws
  | _ => none

/-- A halted warp whose double trap noted an immediate of 3^18, one more trit than a halt reason word has room for. -/
def Warp.wideHalt : Warp :=
  { newWarp 0 none 0 0 (.slot 0 0 0) 0 0 9 0 [] with
    dbl := some ⟨0, 0, pow3 18⟩, lanes := List.replicate 27 { Lane.start 0 with halted := some ⟨0, 0, 0⟩ } }

def State.wideHalt : State := { State.reset with warps := [Warp.wideHalt] }

/-- HLST gives the reason word with its low trits alone. -/
theorem hlst_wideHalt : (dbgTry State.wideHalt 0 none .hlst 0 0).words? = some [0, 0, maskOf (upto 27), 0] := by decide

/-- Refutes O38: HLST of a warp whose halt noted an immediate of more than 18 trits gives the immediate's low 18 trits. -/
theorem not_haltedStateWords : ¬ Obligations.HaltedStateWords := by
  unfold Obligations.HaltedStateWords
  rintro ⟨-, -, -, -, -, -, -, -, -, -, -, -, hlst, -⟩
  have h := hlst State.wideHalt 0 none 0 Warp.wideHalt ⟨0, 0, pow3 18⟩ 0 (by decide) (by decide) (by decide) (by decide) (.inl rfl)
  have hw := congrArg DbgOut.words? h
  rw [hlst_wideHalt] at hw
  exact absurd hw (by decide)

end Sys2Proof.Machine
end

section
/-! ## Certificates: the ends of waits (R80, R82, R91, R92, R163, R219, R424) -/

namespace Sys2Proof.Machine

open Sys2Proof Tern

/-! ### Units that are not armed -/

theorem watchResults_unarmed {s : State} {core : Nat} (h : (s.core core).watch = []) (c : Cur) (t : Int) (res : List (List (Nat × Latch) × ResKind))
    (fl : List (Nat × Fl)) : watchResults s c core t res fl = (s, []) := by
  unfold watchResults
  split
  · rfl
  · simp [watchTest, h]

/-! ### Joins -/

/-- The end of lanes' waits at a join, with no unit armed or in handler mode. -/
theorem joinEnd_eq {s : State} {wid : Nat} {w : Warp} (hw : s.warp? wid = some w) (hquiet : w.handler = true ∨ (s.core w.coreNo).watch = []) (ls : List Nat) (v : Int) :
    joinEnd s wid ls v = s.modWarp wid fun x => ls.foldl (Rule.joined v) x := by
  have hjoined : ∀ x : Warp, ls.foldl (fun w l => match (w.lane l).wait with
      | some ⟨.join _ d _ n, _⟩ => (w.setDst l d false v).modLane l fun x => { x.lateLatch n ⟨v, false⟩ with wait := none }
      | _ => w) x = ls.foldl (Rule.joined v) x := fun x => rfl
  simp only [joinEnd, hw]
  rcases hquiet with hh | hwatch
  · simp only [hh, if_true]
    rfl
  · cases hh : w.handler with
    | true => rfl
    | false =>
      simp only [Bool.false_eq_true, if_false]
      rw [watchResults_unarmed (by exact hwatch)]
      rfl

/-! ### The lanes at a join -/

theorem Lane.atJoin_iff {x : Lane} {j : Int × Nat} : x.atJoin j = true ↔ ∃ due d n, x.wait = some ⟨.join due d j.2 n, j.1⟩ := by
  obtain ⟨word, depth⟩ := j
  unfold Lane.atJoin
  split
  next due d dep n w' h =>
    simp only [h, beq_iff_eq, Prod.mk.injEq, Option.some.injEq, Wait.mk.injEq, WaitKind.join.injEq]
    exact ⟨fun ⟨h1, h2⟩ => ⟨_, _, _, ⟨rfl, rfl, h2, rfl⟩, h1⟩, fun ⟨_, _, _, ⟨_, _, h2, _⟩, h1⟩ => ⟨h1, h2⟩⟩
  next h =>
    refine ⟨nofun, fun ⟨due, d, n, hx⟩ => absurd hx (h _ _ _ _ _)⟩

theorem atJoin_of_joinLate {x : Lane} {now : Int} (h : x.joinLate now = true) : ∃ j, x.atJoin j = true := by
  unfold Lane.joinLate at h
  split at h
  next due d dep n w' hx => exact ⟨(w', dep), Lane.atJoin_iff.2 ⟨_, _, _, hx⟩⟩
  next => exact absurd h nofun

/-- A lane's join is one of its warp's. -/
theorem mem_joins {w : Warp} {l : Nat} {j : Int × Nat} (hl : l < 27) (h : (w.lane l).atJoin j = true) : j ∈ w.joins := by
  obtain ⟨due, d, n, hx⟩ := Lane.atJoin_iff.1 h
  rw [Warp.joins, mem_nodups, List.mem_filterMap]
  exact ⟨l, mem_upto.2 hl, by rw [hx]⟩

theorem mem_where {w : Warp} {p : Lane → Bool} {l : Nat} : l ∈ w.where_ p ↔ l < 27 ∧ p (w.lane l) = true := by simp [Warp.where_, mem_upto]

theorem where_isEmpty {w : Warp} {p : Lane → Bool} : (w.where_ p).isEmpty = true ↔ ∀ l, l < 27 → p (w.lane l) = false := by
  simp [Warp.where_, mem_upto]

/-- A join is complete when no live lane is elsewhere. -/
theorem join_complete {w : Warp} {j : Int × Nat} :
    (w.where_ fun x => x.live && !x.atJoin j).isEmpty = true ↔ ∀ l, l < 27 → (w.lane l).live = true → (w.lane l).atJoin j = true := by
  rw [where_isEmpty]
  simp

theorem joinRelease_none {s : State} {wid : Nat} {w : Warp} (hw : s.warp? wid = some w)
    (h : ∀ j ∈ w.joins, ∃ l, l < 27 ∧ (w.lane l).live = true ∧ (w.lane l).atJoin j = false) : joinRelease s wid = s := by
  have hnone : w.joins.find? (fun j => (w.where_ fun x => x.live && !x.atJoin j).isEmpty) = none := by
    rw [List.find?_eq_none]
    intro j hj
    obtain ⟨l, hl, hlive, hat⟩ := h j hj
    rw [join_complete]
    exact fun hall => by simp [hall l hl hlive] at hat
  simp only [joinRelease, hw, hnone]

theorem joinRelease_one {s : State} {wid : Nat} {w : Warp} {j : Int × Nat} (hw : s.warp? wid = some w) (hj : w.joins = [j])
    (hall : ∀ l, l < 27 → (w.lane l).live = true → (w.lane l).atJoin j = true) : joinRelease s wid = joinEnd s wid (w.where_ (Lane.atJoin j)) 0 := by
  have hsome : w.joins.find? (fun j => (w.where_ fun x => x.live && !x.atJoin j).isEmpty) = some j := by
    rw [hj]
    exact List.find?_cons_of_pos (join_complete.2 hall)
  simp only [joinRelease, hw, hsome]

/-! ### Waits after a join has ended -/

theorem Warp.lane_modLane (w : Warp) (l : Nat) (f : Lane → Lane) (k : Nat) :
    (w.modLane l f).lane k = if k = l ∧ k < w.lanes.length then f (w.lane k) else w.lane k := by
  simp only [Warp.lane, Warp.modLane, List.getD_eq_getElem?_getD, modIdx_get, Nat.zero_add]
  by_cases h : k < w.lanes.length
  · rw [List.getElem?_eq_getElem h]
    by_cases hk : k = l
    · subst hk; simp [h]
    · simp [hk]
  · simp [h]

theorem joined_wait (v : Int) (w : Warp) (l k : Nat) : ((Rule.joined v w l).lane k).wait = (w.lane k).wait ∨ ((Rule.joined v w l).lane k).wait = none := by
  unfold Rule.joined
  split
  next due d dep n word h =>
    rw [Warp.lane_modLane]
    split
    · exact .inr rfl
    · exact .inl (by simp only [Warp.lane, Warp.setDst_lanes])
  next => exact .inl rfl

theorem joined_wait_self {v : Int} {w : Warp} {l : Nat} {j : Int × Nat} (h : (w.lane l).atJoin j = true) : ((Rule.joined v w l).lane l).wait = none := by
  obtain ⟨due, d, n, hx⟩ := Lane.atJoin_iff.1 h
  have hl : l < w.lanes.length := by
    by_contra hl
    rw [Warp.lane, List.getD_eq_default _ _ (Nat.not_lt.1 hl)] at hx
    exact absurd hx nofun
  simp only [Rule.joined, hx, Warp.lane_modLane, Warp.setDst_lanes, hl, and_self, if_true]

theorem foldl_joined_wait (v : Int) (k : Nat) : ∀ (ls : List Nat) (w : Warp),
    ((ls.foldl (Rule.joined v) w).lane k).wait = (w.lane k).wait ∨ ((ls.foldl (Rule.joined v) w).lane k).wait = none
  | [], _ => .inl rfl
  | l :: ls, w => by
    rcases foldl_joined_wait v k ls (Rule.joined v w l) with h | h
    · rcases joined_wait v w l k with h' | h'
      · exact .inl (h.trans h')
      · exact .inr (h.trans h')
    · exact .inr h

/-- A lane whose join has ended waits no more. -/
theorem foldl_joined_wait_mem {v : Int} {k : Nat} {j : Int × Nat} {ls : List Nat} {w : Warp} (hk : k ∈ ls) (h : (w.lane k).atJoin j = true) :
    ((ls.foldl (Rule.joined v) w).lane k).wait = none := by
  induction ls generalizing w with
  | nil => cases hk
  | cons l ls ih =>
    rw [List.foldl_cons]
    have later : ((Rule.joined v w l).lane k).wait = none → ((ls.foldl (Rule.joined v) (Rule.joined v w l)).lane k).wait = none := fun h' =>
      (foldl_joined_wait v k ls (Rule.joined v w l)).elim (fun h'' => h''.trans h') id
    rcases List.mem_cons.1 hk with rfl | hk
    · exact later (joined_wait_self h)
    · rcases joined_wait v w l k with h' | h'
      · refine ih hk ?_
        rw [Lane.atJoin_iff] at h ⊢
        rwa [h']
      · exact later h'

theorem foldl_joined_wid (v : Int) : ∀ (ls : List Nat) (w : Warp), (ls.foldl (Rule.joined v) w).wid = w.wid
  | [], _ => rfl
  | l :: ls, w => (foldl_joined_wid v ls _).trans (by
      unfold Rule.joined
      split
      · exact Warp.setDst_wid _ _ _ _ _
      · rfl)

theorem modWarp_of_eq {s : State} {n : Nat} {f : Warp → Warp} (h : ∀ w, f w = w) : s.modWarp n f = s := by
  unfold State.modWarp
  rw [modFirst_self _ _ _ fun w _ => h w]

/-! ### Escapement releases -/

section
variable {ch : Nat} {r : Release}

/-- A lane's wait for a phase of a channel. -/
def chanWait (ch : Nat) (r : Release) (x : Wait) : Bool := match x.kind with | .chan c n _ => c == ch && n == r.n | _ => false

/-- The registers that the lanes of a warp wait to receive a phase's value in. -/
def chanGds (ch : Nat) (r : Release) (w : Warp) : List Nat := nodups ((upto 27).flatMap fun l =>
  [(w.lane l).wait, (w.lane l).hwait].filterMap fun o => match o with
    | some ⟨.chan c n gd, _⟩ => if c == ch && n == r.n then some gd else none
    | _ => none)

theorem applyRelease_warps (s : State) : (applyRelease s ch r).warps =
    s.warps.map fun w => ((chanGds ch r w).foldl (fun w gd => w.setG gd r.value) w).wake (chanWait ch r) := rfl

theorem mem_chanGds {w : Warp} {l gd : Nat} {word : Int} (hl : l < 27) (h : (w.lane l).wait = some ⟨.chan ch r.n gd, word⟩) : gd ∈ chanGds ch r w := by
  rw [chanGds, mem_nodups, List.mem_flatMap]
  exact ⟨l, mem_upto.2 hl, List.mem_filterMap.2 ⟨_, List.mem_cons_self .., by simp [h]⟩⟩

theorem foldl_setG (v : Int) (gd : Nat) : ∀ (gds : List Nat) (w : Warp), (gds.foldl (fun w gd => w.setG gd v) w).greg gd = if gd ∈ gds then lowWord v else w.greg gd
  | [], _ => rfl
  | g :: gds, w => by
    rw [List.foldl_cons, foldl_setG v gd gds]
    by_cases h : gd ∈ gds
    · simp [h]
    · by_cases hg : gd = g
      · subst hg; simp [h, Warp.greg, Warp.setG]
      · simp [h, hg, Warp.greg, Warp.setG, sget_sset_ne _ _ (Ne.symm hg)]

theorem foldl_setG_lanes (v : Int) : ∀ (gds : List Nat) (w : Warp), (gds.foldl (fun w gd => w.setG gd v) w).lanes = w.lanes
  | [], _ => rfl
  | _ :: gds, _ => (foldl_setG_lanes v gds _).trans rfl

theorem foldl_setG_wid (v : Int) : ∀ (gds : List Nat) (w : Warp), (gds.foldl (fun w gd => w.setG gd v) w).wid = w.wid
  | [], _ => rfl
  | _ :: gds, _ => (foldl_setG_wid v gds _).trans rfl

/-- What a release gives the warps that wait for it. -/
theorem applyRelease_warp {s : State} {wid : Nat} {w : Warp} (hw : s.warp? wid = some w) {l gd : Nat} {word : Int} (hl : l < 27)
    (h : (w.lane l).wait = some ⟨.chan ch r.n gd, word⟩) :
    ∃ w', (applyRelease s ch r).warp? wid = some w' ∧ w'.greg gd = lowWord r.value ∧ (w'.lane l).wait = none := by
  refine ⟨((chanGds ch r w).foldl (fun w gd => w.setG gd r.value) w).wake (chanWait ch r), ?_, ?_, ?_⟩
  · rw [State.warp?, applyRelease_warps, List.find?_map]
    have hwid : ((fun w : Warp => w.wid == wid) ∘ fun w => ((chanGds ch r w).foldl (fun w gd => w.setG gd r.value) w).wake (chanWait ch r)) = fun w => w.wid == wid := by
      funext x
      exact congrArg (· == wid) (foldl_setG_wid r.value (chanGds ch r x) x)
    rw [hwid]
    exact congrArg _ hw
  · exact (foldl_setG r.value gd (chanGds ch r w) w).trans (if_pos (mem_chanGds hl h))
  · have hlen : l < ((chanGds ch r w).foldl (fun w gd => w.setG gd r.value) w).lanes.length := by
      rw [foldl_setG_lanes]
      by_contra hlen
      rw [Warp.lane, List.getD_eq_default _ _ (Nat.not_lt.1 hlen)] at h
      exact absurd h nofun
    have hlane : ((chanGds ch r w).foldl (fun w gd => w.setG gd r.value) w).lane l = w.lane l := by rw [Warp.lane, foldl_setG_lanes]; rfl
    rw [Warp.wake, Warp.lane_allLanes _ _ hlen, hlane]
    simp [h, chanWait]

theorem chan?_modChan (s : State) (ch : Nat) {f : Channel → Channel} (hf : ∀ c, (f c).ch = c.ch) : (s.modChan ch f).chan? ch = (s.chan? ch).map f :=
  find_modFirst (fun c : Channel => c.ch == ch) f (fun c => by rw [hf]) s.chans

theorem applyRelease_chan {s : State} {c : Channel} (hc : s.chan? ch = some c) :
    ∃ c', (applyRelease s ch r).chan? ch = some c' ∧ c'.value = r.value ∧ c'.due = c.due := by
  refine ⟨_, (chan?_modChan s ch ?_).trans (congrArg _ hc), ?_, ?_⟩
  · exact fun _ => rfl
  · rfl
  · rfl

end

theorem barOver_eq (i : Nat) (now : Int) : barOver i now = Rule.released i now := by
  funext ⟨kind, word⟩
  cases kind with
  | barEnd b t => exact (Bool.decide_and (b = i) (t ≤ now)).symm
  | _ => rfl

/-- When a bound is tested: a cycle later while a lane of the warp may still arrive (R82). -/
theorem boundTime_eq (s : State) (w : Warp) : (if mayArrive s w then s.now - 1 else s.now) =
    if w.readyLanes ≠ [] ∧ issuedNow s w = false then s.pkg.gtime - 1 else s.pkg.gtime := by
  have h : (mayArrive s w = true) = (w.readyLanes ≠ [] ∧ issuedNow s w = false) := by simp [mayArrive]
  simp only [h, State.now]

/-- Settles O39: the waits that a release, BARC, a bound, a due time and a promise end. -/
theorem waitsEnd : Obligations.WaitsEnd := by
  unfold Obligations.WaitsEnd
  refine ⟨fun s gid i => ?_, fun s gid g hg hcycle => ?_, fun s gid g hg hcycle => ?_, fun s ch c r hc hdue hat => ?_, fun s wid w hw hp => ?_,
    fun s wid w hw hp hquiet hopen => ?_, fun s wid w word depth hw hquiet hj hall => ?_, fun s wid w word depth hw hp hquiet hj hall => ?_,
    fun s wid w hw hp => ?_, fun s wid w pc ls b i hw hpromise hmay hcode hdec hhaz => ?_⟩
  · have hgid : ∀ w : Warp, (w.gid == some gid) = decide (w.gid = some gid) := fun w => by rw [Bool.eq_iff_iff]; simp
    simp only [exec, execNamedBarrierRelease, barOver_eq, hgid]
    rfl
  · refine congrArg Host.Outcome.next ?_
    simp only [hg, hcycle, Bool.not_true, Bool.false_eq_true, if_false, barcWarp, List.isEmpty_iff]
  · refine congrArg Host.Outcome.next ?_
    simp only [hg, hcycle, Bool.not_false, if_true]
  · have hat' : r.at_ ≤ s.now := hat
    have hafter : ¬ s.now < r.at_ := not_lt.2 hat
    refine ⟨applyRelease (s.modChan ch fun c => { c with due := c.due.filter fun r => decide (s.now < r.at_) }) ch r, ?_, ?_, ?_⟩
    · refine congrArg Host.Outcome.next ?_
      simp only [releaseDue, hc, hdue, List.filter_cons, hat', decide_true, if_true, List.filter_nil, List.foldl_cons, List.foldl_nil]
    · have hchan := chan?_modChan s ch (f := fun c => { c with due := c.due.filter fun r => decide (s.now < r.at_) }) fun _ => rfl
      rw [hc] at hchan
      obtain ⟨c', hc', hval, hdue'⟩ := applyRelease_chan (r := r) hchan
      refine ⟨c', hc', hval, ?_⟩
      simp [hdue', hdue, hat']
    · exact fun wid w l gd word hw hl h => applyRelease_warp hw hl h
  · have hp' : (w.place == .saved) = false := beq_eq_false_iff_ne.2 hp
    refine congrArg Host.Outcome.next ?_
    simp only [hw, hp', Bool.false_eq_true, if_false]
    refine congrArg (s.modWarp wid) (funext fun x => congrArg x.allLanes (funext fun _ => funext fun y => ?_))
    cases y.yielded with
    | none => rfl
    | some z =>
      have hover : (yieldOver s.now (!w.handler && w.readyLanes.isEmpty) z = true) =
          (z.count ≤ 0 ∨ z.due ≤ s.pkg.gtime ∨ w.handler = false ∧ w.readyLanes = []) := by
        rw [yieldOver, Bool.or_eq_true, decide_eq_true_iff, or_assoc]
        simp [State.now]
      simp only [hover]
  · have hp' : (w.place == .saved) = false := beq_eq_false_iff_ne.2 hp
    refine congrArg Host.Outcome.next ?_
    simp only [hw, hp', Bool.false_eq_true, if_false, joinRelease_none hw hopen, boundTime_eq]
    generalize (if w.readyLanes ≠ [] ∧ issuedNow s w = false then s.pkg.gtime - 1 else s.pkg.gtime) = now
    change (if (w.where_ (Lane.joinLate now)).isEmpty = true then s else joinEnd s wid (w.where_ (Lane.joinLate now)) 1) =
      s.modWarp wid fun x => (w.where_ (Lane.joinLate now)).foldl (Rule.joined 1) x
    split
    next h =>
      rw [List.isEmpty_iff] at h
      rw [h]
      exact (modWarp_of_eq fun _ => rfl).symm
    next => exact joinEnd_eq hw hquiet _ _
  · rw [joinRelease_one hw hj hall, joinEnd_eq hw hquiet]
  · have hp' : (w.place == .saved) = false := beq_eq_false_iff_ne.2 hp
    refine congrArg Host.Outcome.next ?_
    have hrel : joinRelease s wid = s.modWarp wid fun x => (w.where_ (Lane.atJoin (word, depth))).foldl (Rule.joined 0) x := by
      rw [joinRelease_one hw hj hall, joinEnd_eq hw hquiet]
    have hw1 : (joinRelease s wid).warp? wid = some ((w.where_ (Lane.atJoin (word, depth))).foldl (Rule.joined 0) w) := by
      rw [hrel, State.warp?_modWarp _ _ _ (fun x => foldl_joined_wid 0 _ x), if_pos rfl, hw]
      rfl
    have hlate : ∀ now, (((w.where_ (Lane.atJoin (word, depth))).foldl (Rule.joined 0) w).where_ (Lane.joinLate now)).isEmpty = true := fun now => by
      rw [where_isEmpty]
      intro l hl
      by_contra h
      obtain ⟨j, hat⟩ := atJoin_of_joinLate (Bool.not_eq_false _ ▸ h : _ = true)
      obtain ⟨due, d, n, hwait⟩ := Lane.atJoin_iff.1 hat
      rcases foldl_joined_wait 0 l (w.where_ (Lane.atJoin (word, depth))) w with h' | h'
      · have hat' : (w.lane l).atJoin j = true := Lane.atJoin_iff.2 ⟨due, d, n, h' ▸ hwait⟩
        have hj' : j = (word, depth) := by simpa [hj] using mem_joins hl hat'
        rw [foldl_joined_wait_mem (mem_where.2 ⟨hl, hj' ▸ hat'⟩) hat'] at hwait
        exact absurd hwait nofun
      · rw [h'] at hwait
        exact absurd hwait nofun
    simp only [hw, hp', Bool.false_eq_true, if_false, hw1, hlate, if_true]
  · have hp' : (w.place == .saved) = false := beq_eq_false_iff_ne.2 hp
    refine congrArg Host.Outcome.next ?_
    simp only [hw, hp', Bool.false_eq_true, if_false]
    rfl
  · refine congrArg Host.Outcome.next ?_
    simp only [hw, State.now, hpromise, hmay, blockOf, hcode, hdec, hhaz, Bool.not_true, Bool.false_eq_true, if_false]

end Sys2Proof.Machine
end

section
/-! ## Certificates: events of window lines (R163, R166, R171, R176, R179, R183, R427) -/

namespace Sys2Proof.Machine

open Sys2Proof Tern

/-! ### Reading a sector that has landed -/

theorem sget_append_left {a b : Store} {j : Nat} (h : ∀ p ∈ a, p.1 ≠ j) : sget (a ++ b) j = sget b j := by
  have hnone : a.find? (fun p => p.1 == j) = none := List.find?_eq_none.2 fun p hp => by simpa using h p hp
  simp only [sget, List.find?_append, hnone, Option.none_or]

theorem sget_append_right {a b : Store} {j : Nat} (h : ∀ p ∈ b, p.1 ≠ j) : sget (a ++ b) j = sget a j := by
  have hnone : b.find? (fun p => p.1 == j) = none := List.find?_eq_none.2 fun p hp => by simpa using h p hp
  simp only [sget, List.find?_append, hnone, Option.or_none]

theorem sget_filter {m : Store} {q : Nat × Int → Bool} {j : Nat} (h : ∀ v, q (j, v) = true) : sget (m.filter q) j = sget m j := by
  have hq : (fun p : Nat × Int => decide (q p = true ∧ (p.1 == j) = true)) = fun p => p.1 == j := by
    funext ⟨k, v⟩
    by_cases hk : k = j
    · subst hk; simp [h v]
    · simp [hk]
  rw [sget, List.find?_filter, hq]
  rfl

/-- A read at a key that keys are moved to. -/
theorem sget_map_key {m : Store} {f : Nat → Nat} {j : Nat} (h : ∀ p ∈ m, f p.1 = f j → p.1 = j) : sget (m.map fun p => (f p.1, p.2)) (f j) = sget m j := by
  have hfind : m.find? (fun p : Nat × Int => f p.1 == f j) = m.find? fun p => p.1 == j := by
    refine List.find?_congr fun p hp => ?_
    by_cases hk : p.1 = j
    · simp [hk]
    · simpa [hk] using fun hf => hk (h p hp hf)
  simp only [sget, List.find?_map, hfind, Option.map_map, Function.comp_def]

theorem sget_sslice (m : Store) (k n : Nat) {i : Nat} (hi : i < n) : sget (sslice m k n) i = sget m (k + i) := by
  have h := sget_map_key (m := m.filter fun p => decide (k ≤ p.1 ∧ p.1 < k + n)) (f := fun x => x - k) (j := k + i) fun p hp hf => by
    have := (List.mem_filter.1 hp).2
    simp at this hf
    omega
  rw [Nat.add_sub_cancel_left] at h
  exact h.trans (sget_filter fun v => by simp [hi])

theorem sget_sblit (m d : Store) (k n : Nat) {i : Nat} (hi : i < n) : sget (sblit m k n d) (k + i) = sget d i := by
  unfold sblit
  rw [sget_append_right fun p hp => by have := (List.mem_filter.1 hp).2; simp at this; omega,
    sget_append_left fun p hp => by have := (List.mem_filter.1 hp).2; simp at this; omega, Nat.add_comm k i]
  exact (sget_map_key (f := fun x => x + k) fun p _ hf => Nat.add_right_cancel hf).trans (sget_filter fun v => by simp [hi])

theorem sgets_length (m : Store) : ∀ (k n : Nat), (sgets m k n).length = n
  | _, 0 => rfl
  | k, n + 1 => congrArg (· + 1) (sgets_length m (k + 1) n)

theorem sgets_getD (m : Store) : ∀ (k : Nat) {n i : Nat}, i < n → (sgets m k n).getD i 0 = sget m (k + i)
  | _, n + 1, 0, _ => rfl
  | k, n + 1, i + 1, h => by
    rw [sgets, List.getD_cons_succ, sgets_getD m (k + 1) (Nat.lt_of_succ_lt_succ h)]
    congr 1
    omega

theorem sget_snorm (n : Nat) (d : Store) {i : Nat} (hi : i < n) : sget (snorm n d) i = sget d i := by
  unfold snorm
  split
  · rfl
  · have hlen : (sgets d 0 n).length = n := sgets_length d 0 n
    rw [sget_ssets, if_pos (by rw [hlen]; omega), Nat.sub_zero, sgets_getD d 0 hi, Nat.zero_add]

/-! ### A landing -/

theorem landSector_read (g : Gang) (line n : Nat) (d : Store) {i : Nat} (hi : i < 27) :
    sget (g.landSector line n d).scratch (81 * line + 27 * n + i) = sget d (27 * n + i) := by
  rw [Gang.landSector, sget_sblit _ _ _ _ hi, sget_snorm _ _ hi, sget_sslice _ _ _ hi]

theorem landSector_outside (g : Gang) (line n : Nat) (d : Store) {a : Nat} (ha : a < 81 * line + 27 * n ∨ 81 * line + 27 * n + 27 ≤ a) :
    sget (g.landSector line n d).scratch a = sget g.scratch a := sget_sblit_ne _ _ _ _ _ ha

/-- The gang once a sector has landed in it. -/
def landedGang (k j line n : Nat) (d : Store) (t : Tag) (st : LineState) (bad : Bool) (g : Gang) : Gang :=
  let g1 := g.landSector line n d
  if n = 2 then
    let g2 := g1.setTag line t
    { g2 with bad := if bad then nodups (g2.bad ++ [line]) else g2.bad.filter fun x => x != line }.modWin k fun w =>
      w.modLine j fun x => { x with st := st, owned := st == LineState.dirty, count := if st = LineState.dirty then none else x.count }
  else g1

theorem landedGang_scratch (k j line n : Nat) (d : Store) (t : Tag) (st : LineState) (bad : Bool) (g : Gang) :
    (landedGang k j line n d t st bad g).scratch = (g.landSector line n d).scratch := by
  unfold landedGang
  split <;> rfl

theorem landedGang_gid (k j line n : Nat) (d : Store) (t : Tag) (st : LineState) (bad : Bool) (g : Gang) : (landedGang k j line n d t st bad g).gid = g.gid := by
  unfold landedGang
  split <;> rfl

theorem landIn_eq {s : State} {gid k j : Nat} {d : Store} {t : Tag} {n : Nat} {st : LineState} {bad : Bool} {g : Gang} {w : Window} {x : WLine}
    (hg : s.gang? gid = some g) (hw : g.win? k = some w) (hx : w.line? j = some x) :
    landIn s gid k j d t n st bad = tbLand ((scrub s gid [(81 * ((w.first + j : Nat) : Int) + 27 * (n : Int), 27)]).modGang gid
      (landedGang k j (w.first + j) n d t st bad)) (.scr gid w.bar) 27 := by
  simp only [landIn, hg, hw, hx, Option.isNone_some, Bool.false_eq_true, if_false]
  rfl

/-- A sector landed: its trytes, and all others. -/
theorem landIn_spec (s : State) (gid k j : Nat) (d : Store) (t : Tag) (n : Nat) (st : LineState) (bad : Bool) (g : Gang) (w : Window) (x : WLine)
    (hg : s.gang? gid = some g) (hw : g.win? k = some w) (hx : w.line? j = some x) :
    ∃ s1 g1, landIn s gid k j d t n st bad = tbLand s1 (.scr gid w.bar) 27 ∧ s1.gang? gid = some g1 ∧ s1.mem = s.mem ∧
      (∀ i, i < 27 → sget g1.scratch (81 * (w.first + j) + 27 * n + i) = sget d (27 * n + i)) ∧
      (∀ a, a < 81 * (w.first + j) + 27 * n ∨ 81 * (w.first + j) + 27 * n + 27 ≤ a → sget g1.scratch a = sget g.scratch a) := by
  obtain ⟨rows, hg'⟩ := (sameButRows_scrub s gid [(81 * ((w.first + j : Nat) : Int) + 27 * (n : Int), 27)]).gang? hg
  refine ⟨_, landedGang k j (w.first + j) n d t st bad { g with badRows := rows }, landIn_eq hg hw hx, ?_, ?_, fun i hi => ?_, fun a ha => ?_⟩
  · rw [State.gang?_modGang _ _ _ fun y => landedGang_gid k j _ n d t st bad y, if_pos rfl, hg']
    rfl
  · obtain ⟨cs, gs, lg, h⟩ := onlyRows_scrub s gid [(81 * ((w.first + j : Nat) : Int) + 27 * (n : Int), 27)]
    rw [h]
    rfl
  · rw [landedGang_scratch]
    exact landSector_read _ _ _ _ hi
  · rw [landedGang_scratch]
    exact landSector_outside { g with badRows := rows } _ _ _ ha

/-! ### Order of replies -/

theorem standsBefore_iff (s : State) (r q : Req) : standsBefore s r q = true ↔ Rule.sentBefore s r q := by
  unfold standsBefore Rule.sentBefore
  rw [Bool.and_eq_true, Bool.and_eq_true, beq_iff_eq, beq_iff_eq, and_assoc]
  refine and_congr_right fun _ => and_congr_right fun _ => ?_
  cases hb : q.body with
  | sectors g k j d t n b => simp
  | mcopy g k j d t n b => simp
  | data o => cases ho : s.op? o <;> simp [ho]
  | _ => simp

theorem firstReply_iff (s : State) (r : Req) : firstReply s r = true ↔ ∀ q ∈ s.reqs.takeWhile (fun q => q.id != r.id), ¬ Rule.sentBefore s r q := by
  rw [firstReply, List.all_eq_true]
  exact forall₂_congr fun q _ => by rw [← standsBefore_iff, Bool.not_eq_true', Bool.not_eq_true]

/-- Settles O40: landings, recalls and grants. -/
theorem windowLineEvents : Obligations.WindowLineEvents := by
  unfold Obligations.WindowLineEvents
  refine ⟨fun s id r g k j d t n bad hr hb hfirst hmet => ?_, fun s id r g k j d t n bad hr hb hfirst hmet => ?_, landIn_spec,
    fun s id r gid k j own g w x hr hb hfirst hg hw hx => ⟨fun hst => ?_, fun hst => ?_⟩,
    fun s id r gid k j us g w x hr hb harr hheld hhost hbars hclear hg hw hx hst => ?_, firstReply_iff⟩
  · refine congrArg Host.Outcome.next ?_
    simp only [hr, hb, hfirst, hmet, Bool.not_true, Bool.or_self, Bool.false_eq_true, if_false]
    rfl
  · refine congrArg Host.Outcome.next ?_
    simp only [hr, hb, hfirst, hmet, Bool.not_true, Bool.or_self, Bool.false_eq_true, if_false]
  · refine congrArg Host.Outcome.next ?_
    simp only [hr, hb, hfirst, hg, hw, hx, hst, Option.bind_some, Bool.not_true, Bool.false_eq_true, if_false]
  · refine congrArg Host.Outcome.next ?_
    simp only [hr, hb, hfirst, hg, hw, hx, hst, Option.bind_some, Bool.not_true, Bool.false_eq_true, if_false]
  · have hneed : ownLines s r w j = [r.line] := by simp [ownLines, hhost, hx]
    have hstate : (w.stateOf j == .filling || w.stateOf j == .recv) = false := by
      rcases hst with h | h <;> simp [Window.stateOf, hx, h]
    have hfree : [r.line].any (fun l => engineBars s [gid] r.pkg l || !clear s r.pkg l true (some (gid, k, j))) = false := by simp [hbars, hclear]
    refine congrArg Host.Outcome.next ?_
    simp only [hr, hb, harr, hheld, hg, hw, hneed, hfree, hstate, hx, Option.bind_some, Option.isSome_some, Bool.true_or, Bool.not_true, Bool.or_self, Bool.false_eq_true,
      if_false, if_true, takeOwned, List.isEmpty_iff]

end Sys2Proof.Machine
end

section
/-! ## Certificates: reads at the home and the replies of a load (R107, R176 to R180, R207, R346, R389, R390) -/

namespace Sys2Proof.Machine

open Sys2Proof Tern

theorem req?_id {s : State} {id : Nat} {r : Req} (h : s.req? id = some r) : r.id = id := by
  have := List.find?_some h
  simpa using this

/-! ### A read at its home -/

section
variable {s : State} {id : Nat} {r : Req} {op : Nat} {items : List Nat} (hr : s.req? id = some r) (hb : r.body = .read op items)
include hr hb

section
variable (harr : arrived s r = true) (hheld : remoteHeld s r.pkg = false)
include harr hheld

theorem sliceRequest_sc (hsc : r.sc.isSome = true) : exec (.sliceRequest id) s = .next (s.modReq id fun r => { r with stage := 2 }) := by
  refine congrArg Host.Outcome.next ?_
  simp only [hr, hb, harr, hheld, hsc]
  rfl

variable (hsc : r.sc = none) (hclear : readClear s r = true) (hhost : r.pkg ≠ 999)
include hsc hclear hhost

theorem sliceRequest_hit (hhit : (s.heldLine? r.pkg r.line).isSome = true) : exec (.sliceRequest id) s = .next (serveRead (install s r.pkg r.line false) r) := by
  refine congrArg Host.Outcome.next ?_
  simp only [hr, hb, harr, hheld, hsc, hclear, hhost, hhit]
  rfl

theorem sliceRequest_miss (hmiss : s.heldLine? r.pkg r.line = none) (hnone : missing s r.pkg r.line = []) : exec (.sliceRequest id) s =
    .next (if 81 ≤ missLoad s r.pkg r.line then retryQueue s r else s.modReq id fun r => { r with stage := 1 }) := by
  refine congrArg Host.Outcome.next ?_
  simp only [hr, hb, harr, hheld, hsc, hclear, hhost, hmiss, hnone]
  simp

end
end

/-- A read of no fill captures what its place holds and sends it (R390). -/
theorem serveRead_read {s : State} {r : Req} {op : Nat} {items : List Nat} {o : LoadOp} (hb : r.body = .read op items) (ho : s.op? op = some o)
    (hfill : o.fill = none) (hsc : r.sc = none) : serveRead s r = ((capture s op items (gotOf s.mem o.ts)).delReq r.id).send r.src r.ctx r.wid r.pkg r.line (.data op) none := by
  simp only [serveRead, hb, ho, hfill, hsc, Option.isSome_none, Bool.false_eq_true, if_false, State.data]

/-! ### What the lanes of an operation have received -/

theorem join_values {x : Got} (hx : ∃ v, x = .value v) : ∀ (l : List LaneRead), (∀ y ∈ l, ∃ v, y.got = .value v) → ∃ v, l.foldl (fun g y => g.join y.got) x = .value v
  | [], _ => hx
  | y :: l, h => by
    obtain ⟨v, rfl⟩ := hx
    obtain ⟨u, hu⟩ := h y (List.mem_cons_self ..)
    refine join_values ?_ l fun z hz => h z (List.mem_cons_of_mem _ hz)
    exact ⟨v + pow3 27 * u, by simp only [hu, Got.join]⟩

/-- An operation all of whose reads found a value gives each lane one. -/
theorem results_values {o : LoadOp} (h : ∀ x ∈ o.lanes, ∃ v, x.got = .value v) {p : Nat × Got} (hp : p ∈ o.results) : ∃ v, p.2 = .value v := by
  obtain ⟨l, hl, rfl⟩ := List.mem_map.1 hp
  obtain ⟨x, hx, rfl⟩ := List.mem_map.1 ((mem_nodups _).1 hl)
  have hmem : x ∈ o.lanes.filter fun y => y.lane == x.lane := List.mem_filter.2 ⟨hx, by simp⟩
  have hall : ∀ y ∈ o.lanes.filter (fun y => y.lane == x.lane), ∃ v, y.got = .value v := fun y hy => h y (List.mem_filter.1 hy).1
  dsimp only
  split
  next y r heq =>
    rw [heq] at hall
    exact join_values (hall y (List.mem_cons_self ..)) r fun z hz => hall z (List.mem_cons_of_mem _ hz)
  next heq => rw [heq] at hmem; cases hmem

theorem refused_values {o : LoadOp} (h : ∀ x ∈ o.lanes, ∃ v, x.got = .value v) : o.refused = [] := by
  rw [LoadOp.refused, List.filterMap_eq_nil_iff]
  intro p hp
  obtain ⟨v, hv⟩ := results_values h hp
  rw [hv]

theorem complete_values {o : LoadOp} (h : ∀ x ∈ o.lanes, ∃ v, x.got = .value v) : o.complete = true := by
  rw [LoadOp.complete, List.all_eq_true]
  intro x hx
  obtain ⟨v, hv⟩ := h x hx
  rw [hv]
  rfl

theorem results_lanes (o : LoadOp) : o.results.map (fun x => x.1) = nodups (o.lanes.map fun x => x.lane) := by
  rw [LoadOp.results, List.map_map]
  exact List.map_id _

/-! ### The reply of a load -/

/-- The lanes that take what a reply brings (R346, R389). -/
def LoadOp.takers (o : LoadOp) (w : Warp) : List Nat := if o.isAtom then o.results.map fun x => x.1 else opWaiting w o.id

section
variable {s : State} {o : LoadOp} {w : Warp} {live : List Nat}

theorem watchAct_nothing (s : State) (wid : Nat) : watchAct s wid [] = s := rfl

/-- The end of a load that no debugger steps, with no unit armed. -/
theorem endLoad_quiet (hstep : o.hstep = false) (hquiet : o.inHandler = true ∨ (s.core w.coreNo).watch = []) (bad : List (Nat × Int × Int)) (last : Bool) :
    endLoad s o w live bad last = if bad.isEmpty then s else s.enterTrap o.wid ⟨if o.anyUncor then cause.uncor else cause.tag, bad⟩ := by
  have hp : ∀ c t res fl, (if o.inHandler || o.group then (s, []) else watchResults s c w.coreNo t res fl) = (s, []) := by
    intro c t res fl
    rcases hquiet with h | h
    · simp [h]
    · rw [watchResults_unarmed h, ite_self]
  have hhold : ∀ wid, (s.modWarp wid fun w => w.holdTrap (trapTrigs [])) = s := fun wid => modWarp_of_eq fun _ => rfl
  simp only [endLoad, hp, hstep, Bool.false_eq_true, if_false, watchAct_nothing, show strongest [] = 0 from rfl, if_true, hhold]

end

theorem op?_id {s : State} {id : Nat} {o : LoadOp} (h : s.op? id = some o) : o.id = id := by
  have := List.find?_some h
  simpa using this

section
variable {s : State} {id : Nat} {o : LoadOp} {w : Warp} (ho : s.op? id = some o) (hw : s.warp? o.wid = some w) (hstep : o.hstep = false) (hfirst : opFirst s id = true)
  (hquiet : o.inHandler = true ∨ (s.core w.coreNo).watch = [])
include ho hw hstep hfirst hquiet

theorem loadReply_values (hall : ∀ x ∈ o.lanes, ∃ v, x.got = .value v) : exec (.loadReply id) s = .next (({ s with
    reqs := s.reqs.filter (fun q => q.body != .data id), ops := s.ops.filter fun x => x.id != id } : State).modWarp o.wid fun y =>
      (o.write (o.takers w) y).wake fun x => x.kind == .load id) := by
  obtain rfl := op?_id ho
  refine congrArg Host.Outcome.next ?_
  simp only [ho, hfirst, complete_values hall, hw, refused_values hall, Bool.not_true, Bool.false_eq_true, if_false, Bool.false_and, if_true, List.filter_nil, ite_self]
  exact endLoad_quiet hstep (by exact hquiet) _ _

end

section
variable {s : State} {id : Nat} {o : LoadOp} {w : Warp} (ho : s.op? id = some o) (hw : s.warp? o.wid = some w) (hstep : o.hstep = false) (hfirst : opFirst s id = true)
include ho hw hstep hfirst

/-- A lane whose tag has no meaning traps on its word. -/
theorem loadReply_tagFault {l : Nat} {virt : Int} {at_ : Loc} {hi : Option Loc} {a : Int} (hlanes : o.lanes = [⟨l, virt, at_, hi, o.width, .tagFault a⟩])
    (hwait : w.waiting (fun x => x.kind == .load id) = [l]) (hgroup : o.group = false) (hatom : o.isAtom = false) (hstood : o.stood = [])
    (hhandler : w.handler = false) (hwatch : (s.core w.coreNo).watch = []) :
    exec (.loadReply id) s = .next ((({ s with reqs := s.reqs.filter (fun q => q.body != .data id), ops := s.ops.filter fun x => x.id != id } : State).modWarp o.wid fun y =>
      (y.wake fun x => x.kind == .load id).modLanes [l] fun _ x => { x with pc := o.word }).enterTrap o.wid ⟨cause.tag, [(l, 0, a)]⟩) := by
  have hres : o.results = [(l, .tagFault a)] := by simp [LoadOp.results, hlanes, nodups]
  have hcomplete : o.complete = true := by simp [LoadOp.complete, hlanes]
  have hrefused : o.refused = [(l, 0, a)] := by simp [LoadOp.refused, hres]
  have huncor : o.anyUncor = false := by simp [LoadOp.anyUncor, hres]
  have htake : opWaiting w id = [l] := hwait
  have hwrite : ∀ y, o.write [l] y = y := fun y => by simp [LoadOp.write, hres, Got.deliver]
  have hmine : [((l, 0, a) : Nat × Int × Int)].filter (fun p => [l].contains p.1) = [(l, 0, a)] := by simp
  refine congrArg Host.Outcome.next ?_
  simp only [ho, hfirst, hcomplete, hw, hgroup, hatom, hrefused, htake, hwrite, hmine, Bool.not_true, Bool.false_eq_true, if_false, Bool.false_and, if_true,
    List.map_cons, List.map_nil]
  refine (endLoad_quiet hstep (.inr (by exact hwatch)) _ _).trans ?_
  simp only [List.isEmpty_cons, Bool.false_eq_true, if_false, huncor]
  refine congrArg (fun u : State => u.enterTrap o.wid ⟨cause.tag, [(l, 0, a)]⟩) (State.modWarp_congr fun x hx => ?_)
  have hx' : x = w := Option.some.inj (hx.symm.trans hw)
  subst hx'
  have hh : (x.wake fun y => y.kind == .load id).handler = false := hhandler
  simp only [LoadOp.putBack, List.isEmpty_cons, Bool.false_eq_true, if_false, hstood, List.lookup_nil, hh, Bool.and_false]

end

/-! ### One lane's word (R107, R389) -/

section
variable {o : LoadOp} {w : Warp} {l n k : Nat} {v : Int}

theorem write_word {virt : Int} {at_ : Loc} {hi : Option Loc} (hgroup : o.group = false) (hdbl : o.dbl = false) (hd : o.d = .v n)
    (hlanes : o.lanes = [⟨l, virt, at_, hi, o.width, .value v⟩]) (hmarks : o.marks = [(l, k)]) :
    o.write [l] w = ((w.setV l n v).modLane l fun y => y.lateLatch k ⟨v, false⟩).raise [(l, Fl.none)] := by
  have hres : o.results = [(l, .value v)] := by simp [LoadOp.results, hlanes, nodups]
  simp [LoadOp.write, hres, Got.deliver, hgroup, hdbl, hd, hmarks, Warp.setDst]

end

/-- The latch that a late result takes. -/
theorem lateLatch_latches (x : Lane) (n : Nat) (y : Latch) :
    (x.lateLatch n y).x1 = (if x.made = n then y.fit else x.x1) ∧ (x.lateLatch n y).x2 = (if x.made = n + 1 then y.fit else x.x2) ∧
    (x.lateLatch n y).x3 = if x.made = n + 2 then y.fit else x.x3 := by
  unfold Lane.lateLatch
  by_cases h0 : x.made = n
  · simp [h0]
  · by_cases h1 : x.made = n + 1
    · simp [h1]
    · by_cases h2 : x.made = n + 2
      · simp [h2]
      · simp [h0, h1, h2]

/-- Settles O41: the reads at the home and the replies of a load. -/
theorem readsAtTheHome : Obligations.ReadsAtTheHome := by
  unfold Obligations.ReadsAtTheHome
  refine ⟨fun s id r op items hr hb harr hheld => ⟨sliceRequest_sc hr hb harr hheld, sliceRequest_hit hr hb harr hheld,
      fun hsc hclear hhost hmiss hnone hroom => ?_, fun hsc hclear hhost hmiss hnone hfull => ?_⟩,
    fun s id r op items hr hb hst hheld hroom hmiss hclear => ?_, fun s r op items o hb ho hfill hsc => serveRead_read hb ho hfill hsc,
    fun s id o w ho hw hall hstep hatom hfirst hquiet => ?_, fun s id o w ho hw hall hstep hatom hfirst hquiet => ?_,
    fun o w l virt at_ hi n v hgroup hatom hdbl hd hn hl hlen hlanes k hmarks => ?_,
    fun s id o w ho hw hh hgroup hstep hatom hstood hfirst hwatch l virt at_ hi a hlanes hwait =>
      loadReply_tagFault ho hw hstep hfirst hlanes hwait hgroup hatom hstood hh hwatch⟩
  · rw [sliceRequest_miss hr hb harr hheld hsc hclear hhost hmiss hnone, if_neg (Nat.not_le.2 hroom)]
  · rw [sliceRequest_miss hr hb harr hheld hsc hclear hhost hmiss hnone, if_pos hfull, retryQueue, req?_id hr]
  · refine congrArg Host.Outcome.next ?_
    simp only [hr, hb, hst, hheld, hroom, hmiss, List.foldl_cons, List.foldl_nil, hclear]
    rfl
  · rw [loadReply_values ho hw hstep hfirst hquiet hall, LoadOp.takers, if_neg (by simp [hatom]), op?_id ho]
    rfl
  · rw [loadReply_values ho hw hstep hfirst hquiet hall, LoadOp.takers, if_pos hatom, results_lanes]
  · rw [write_word hgroup hdbl hd hlanes hmarks]
    have hvreg : ∀ i m, (((w.setV l n v).modLane l fun y => y.lateLatch k ⟨v, false⟩).raise [(l, Fl.none)]).vreg i m = (w.setV l n v).vreg i m := fun _ _ => rfl
    have hlane : (((w.setV l n v).modLane l fun y => y.lateLatch k ⟨v, false⟩).raise [(l, Fl.none)]).lane l =
        { (w.lane l).lateLatch k ⟨v, false⟩ with flags := raisedAt [(l, Fl.none)] l ((w.lane l).lateLatch k ⟨v, false⟩).flags } := by
      have hlen' : l < ((w.setV l n v).modLane l fun y => y.lateLatch k ⟨v, false⟩).lanes.length := by
        rw [Warp.modLane, modIdx_length]
        exact hlen ▸ hl
      rw [Warp.lane_raise _ _ hlen', Warp.lane_modLane, if_pos ⟨rfl, by simpa [hlen] using hl⟩]
      rfl
    refine ⟨?_, fun i m hm hne => ?_, ?_⟩
    · rw [hvreg, Warp.vreg_setV _ _ _ _ _ _ hn hn, if_pos ⟨rfl, rfl⟩]
    · rw [hvreg, Warp.vreg_setV _ _ _ _ _ _ hn hm, if_neg (by omega)]
    · dsimp only
      rw [hlane]
      exact lateLatch_latches _ _ _

end Sys2Proof.Machine
end

section
/-! ## Certificates: writes at the home (R64, R181, R185, R187, R190, R195, R205, R346, R426, R429) -/

namespace Sys2Proof.Machine

open Sys2Proof Tern

/-! ### Open rounds -/

/-- The open rounds of reductions are the same. -/
theorem install_rounds (s : State) (pkg line : Int) (dirty : Bool) : (install s pkg line dirty).home.rounds = s.home.rounds := by
  have hevict : ∀ (u : State) v, (evictLine u v).home.rounds = u.home.rounds := fun u v => by
    unfold evictLine
    split_ifs <;> rfl
  unfold install
  dsimp only
  split
  · rfl
  · split
    · rfl
    · split
      · exact hevict _ _
      · rfl

theorem takeLines_rounds (s : State) (ls : List (Int × Int)) : (takeLines s ls).home.rounds = s.home.rounds := by
  have hfold : ∀ (l : List (Int × Int)) (u : State), (l.foldl (fun s p => install s p.1 p.2 true) u).home.rounds = u.home.rounds := fun l => by
    induction l with
    | nil => exact fun _ => rfl
    | cons p l ih => exact fun u => (ih _).trans (install_rounds _ _ _ _)
  exact hfold _ _

/-! ### Units at their home -/

theorem pieces_inLine {p a : Int} {n : Nat} (h : a % 81 + n ≤ 81) : pieces (.dom p a) none n = [(.dom p a, n)] := by
  have hoff : ¬ ((Loc.dom p a).offset + (n : Int) > 81) := by simp only [Loc.offset]; omega
  simp only [pieces, hoff, if_false]

/-- A unit within one sound line is written there (R195). -/
theorem applyUnits_one (s : State) (ctx l : Nat) {p a : Int} {n : Nat} (v : Int) (ha : 81 ≤ a) (hn : a % 81 + n ≤ 81) (hsound : s.mem.lineAt (.dom p a) ≠ .bad) :
    applyUnits s ctx [⟨l, .dom p a, none, n, v⟩] = s.modMem fun m => m.write p a n (narrow v (9 * n)) := by
  have hbad : (s.mem.lineAt (.dom p a) == .bad) = false := beq_eq_false_iff_ne.2 hsound
  have htime : (Loc.dom p a).isTime = false := by simp only [Loc.isTime, decide_eq_false_iff_not]; omega
  simp only [applyUnits, List.foldl_cons, List.foldl_nil, pieces_inLine hn, List.any_cons, List.any_nil, hbad, Bool.and_false, Bool.or_false, Bool.false_eq_true, if_false,
    writePieces, htime, Memory.writeLoc]

/-- The round of a unit that comes first: held, or closed at once (R187). -/
theorem holdDet_first {s : State} {ctx : Nat} {op tag count : Int} {key : List Int} {u : Unit1} {p a m : Int} (hnone : s.home.rounds = []) (hat : u.at_ = .dom p a)
    (hread : readPieces s.mem 0 (pieces u.at_ u.hi u.width) = .val m) : holdDet s ctx op false tag count key u =
      if count = 1 then s.modMem fun y => writePieces y (pieces u.at_ u.hi u.width)
        (if op = 0 then narrow (m + u.val) (9 * u.width) else if op = -1 then min m u.val else max m u.val)
      else { s with home := { s.home with rounds := [⟨p, a, u.width, tag, count, op, false, [(key ++ [(u.lane : Int)], u.val)], ctx⟩] } } := by
  have hputback : ({ s with home := { s.home with rounds := [] } } : State) = s := by rw [← hnone]
  obtain ⟨l, at_, hi, n, v⟩ := u
  obtain rfl : at_ = .dom p a := hat
  simp only [holdDet, hread, hnone, List.find?_nil, Option.getD_none, bne_self_eq_false, Bool.false_eq_true, if_false, List.nil_append, List.length_singleton,
    List.filter_nil, List.any_nil, hputback]
  by_cases hc : count = 1
  · subst hc
    simp [sortBy, insertBy, closeVal]
  · have hc' : ¬ ((1 : Nat) : Int) = count := fun h => hc (by omega)
    simp only [hc', hc, if_false]

/-- What an atomic writes, as R346 says it. -/
theorem atomVal_eq (k : AtomOp) (n : Nat) (m x d : Int) : atomVal k n m x d = match k with
    | .add => narrow (m + x) n
    | .min => if m ≤ x then m else x
    | .max => if m ≤ x then x else m
    | .xchg => x
    | .cas => if m = d then x else m
    | .tbin t => tbin t m x n := by
  cases k <;> rfl

/-- A line that goes home within its core's write-back. -/
theorem homeTake_line (s : State) (p : Int) {line : Int} (d : Store) (t : Tag) (bad : Bool) (h : line ≠ 0) : homeTake s p line d t bad = { s with
    mem := { (s.mem.setLine p line d).setTag p line t with
      poison := (s.mem.poison.filter fun k => k != lineKey p line) ++ (if bad then [lineKey p line] else []) },
    home := { s.home with dedup := s.home.dedup.filter fun q => q.1 != lineKey p line,
                          held := modFirst (fun h => h.pkg == p && h.line == line) (fun h => { h with dirty := false, dedup := false }) s.home.held } } := by
  have hline : (line != 0) = true := bne_iff_ne.2 h
  cases bad <;> simp [homeTake, homeWrite, h, hline, State.modMem, Memory.setTag, Memory.setLine]

/-- Settles O42: stores, tags, atomics, reductions and write-backs at the home. -/
theorem writesAtTheHome : Obligations.WritesAtTheHome := by
  unfold Obligations.WritesAtTheHome
  refine ⟨fun s id r us hr hb harr hheld hsc hready => ?_, fun s ctx l p a n v _ ha hn hsound => applyUnits_one s ctx l v (by omega) (by omega) hsound,
    fun s id r code scale hr hb harr hheld htag hready hbad hline => ?_, fun s id r op k u old m hr hb harr hheld hsc hready hread => ?_,
    fun s id r op u m hr hb harr hheld hready hread => ?_, fun s id r op tag count key u m hr hb harr hheld hready hrounds p a hat hread => ⟨fun hc => ?_, fun hc => ?_⟩,
    fun s id r p a d t dedup bad hr hb hst hfirst hheld ha hhost hline hroom => ?_, fun s id r p a d t dedup bad hr hb hst hhost hfull => ?_,
    fun s id r dedup hr hb => ?_⟩
  all_goals refine congrArg Host.Outcome.next ?_
  · obtain rfl := req?_id hr
    simp only [hr, hb, harr, hheld, hsc, applyStore, hready, Option.isSome_none, Bool.not_true, Bool.or_self, Bool.false_eq_true, if_false]
  · have hpacked : (inR (s.mem.tag r.pkg r.line).code 7 11 && (s.mem.tag r.pkg r.line).code != code) = false := by
      rcases htag with h | h | h
      · simp [inR, h]
      · simp [inR, h]
      · simp [h]
    simp only [hr, hb, harr, hheld, hpacked, hready, hbad, hline, Bool.not_true, Bool.or_self, Bool.false_eq_true, if_false]
  · obtain rfl := req?_id hr
    simp only [hr, hb, harr, hheld, hsc, applyAtom, hready, hread, Option.isSome_none, Bool.not_true, Bool.or_self, Bool.false_eq_true, if_false, List.foldl_cons, List.foldl_nil,
      atomVal_eq, State.data, beq_iff_eq, Bool.and_eq_true] <;> rfl
  · simp only [hr, hb, harr, hheld, hready, applyRed, hread, Bool.not_true, Bool.or_self, Bool.false_eq_true, if_false, List.foldl_cons, List.foldl_nil, redVal]
  · have hrounds' := (takeLines_rounds s (soundLines s (writeLines s r [u]))).trans hrounds
    simp only [hr, hb, harr, hheld, hready, holdDet_first hrounds' hat hread, hc, Bool.not_true, Bool.or_self, Bool.false_eq_true, if_false, if_true, List.foldl_cons, List.foldl_nil]
  · have hrounds' := (takeLines_rounds s (soundLines s (writeLines s r [u]))).trans hrounds
    have hc' : count ≠ 1 := by omega
    simp only [hr, hb, harr, hheld, hready, holdDet_first hrounds' hat hread, hc', Bool.not_true, Bool.or_self, Bool.false_eq_true, if_false, List.foldl_cons, List.foldl_nil]
  · have hline' : a / 81 ≠ 0 := by omega
    have hown : (r.pkg != 999 && r.line != 0) = true := by simp [hhost, hline]
    have hgo : (!firstBack s r || (r.pkg != 999 && true && decide (27 ≤ backLoad s r.pkg r.line))) = false := by simp [hfirst, hroom]
    obtain rfl := req?_id hr
    simp only [hr, hb, hheld, hst, hgo, homeTake_line s p d t bad hline', hown, Bool.not_true, Bool.false_eq_true, if_false, Bool.and_self, if_true, bne_self_eq_false, Bool.false_and]
  · have hwait : (!firstBack s r || (r.pkg != 999 && true && decide (27 ≤ backLoad s r.pkg r.line))) = true := by simp [hhost, hfull]
    simp only [hr, hb, hst, if_false, hwait, if_true, ite_self]
  · simp only [hr, hb]

end Sys2Proof.Machine
end

section
/-! ## Certificates: the block that a fetch loads (R152, R210) -/

namespace Sys2Proof.Machine

open Sys2Proof Tern

/-- A warp in a handler whose PC stands in page 1, at user or supervisor level. -/
def Warp.fetcher (level : Int) : Warp := { newWarp 0 none 0 0 (.slot 0 0 0) 0 level 9 3294 [] with handler := true, hpc := 3294 }

/-- The leaf of page 1: it may be read and executed, and is in domain memory. -/
def Tlb.codePage : Tlb := ⟨0, 1, 0, 1, pow3 49 + pow3 47, 0⟩

/-- The two lines of the block, which their slices hold. -/
def HeldLine.ofBlock : List HeldLine := [⟨0, 1, false, none, none, 0, false⟩, ⟨0, 2, false, none, none, 0, false⟩]

/-- A user-level warp whose core's TLB holds page 1. -/
def State.fetching : State := { State.reset with
    home := ⟨HeldLine.ofBlock, [], [], [], []⟩, warps := [Warp.fetcher 0], cores := [{ Core.empty 0 with tlb := [Tlb.codePage] }] }

/-- The fetch notes the block with the level of the warp that stands in the state. -/
theorem fetchFor_fetching : (fetchFor State.fetching (Warp.fetcher 1)).warps.map (fun w => w.code) = [[244]] := by decide +kernel

/-- Refutes O43: the clause for a block that loads speaks of any warp, and of one whose level is not that of the state's warp of its name it tells the level that
the fetch notes wrongly. -/
theorem not_meshTranslationAndFetchEvents : ¬ Obligations.MeshTranslationAndFetchEvents := by
  unfold Obligations.MeshTranslationAndFetchEvents
  rintro ⟨-, -, -, -, -, -, -, -, -, -, -, -, fetch, -⟩
  have h := fetch State.fetching (Warp.fetcher 1) (checkAddrs State.fetching 0 0 true Need.exec true (Rule.blockPages 3294)).1 [(19764, .dom 0 81)]
    (Prod.ext rfl (by decide +kernel)) (by decide +kernel) (by decide +kernel) (by decide +kernel)
  have hcode := congrArg (fun s : State => s.warps.map fun w => w.code) h
  rw [fetchFor_fetching] at hcode
  exact absurd hcode (by decide +kernel)

end Sys2Proof.Machine
end

section
/-! ## Certificates: tile tasks (R228 to R230, R236, R241, R242, R245, R246) -/

namespace Sys2Proof.Machine

open Sys2Proof Tern

/-! ### The planes of an MM (R230) -/

/-- The top p + 1 planes of a word of 9 trits are its top p, moved up by one trit, and the next one. -/
theorem shr_plane (x : Int) {p : Nat} (hp : p < 9) : shr x (9 - (p + 1)) = 3 * shr x (9 - p) + trit x (8 - p) := by
  have hk : 9 - p = (8 - p) + 1 := by omega
  have h := shr_narrow (shr x (8 - p)) 1
  rw [shr_shr, show pow3 1 = 3 from rfl] at h
  rw [show 9 - (p + 1) = 8 - p by omega, hk]
  exact h.symm

theorem dot_linear (c : Int) (f g : Int → Int) (a col : List Int) :
    dot (a.map fun x => c * f x + g x) col = c * dot (a.map f) col + dot (a.map g) col := by
  induction a generalizing col with
  | nil => simp [dot]
  | cons x a ih =>
    cases col with
    | nil => simp [dot]
    | cons y col =>
      simp only [List.map_cons, dot, ih]
      ring

theorem dot_zeros (a col : List Int) (f : Int → Int) (h : ∀ x ∈ a, f x = 0) : dot (a.map f) col = 0 := by
  induction a generalizing col with
  | nil => simp [dot]
  | cons x a ih =>
    cases col with
    | nil => simp [dot]
    | cons y col => simp [dot, h x List.mem_cons_self, ih _ fun z hz => h z (List.mem_cons_of_mem x hz)]

/-- A word of 9 trits has nothing above trit 8. -/
theorem shr_nine {x : Int} (h : -9841 ≤ x ∧ x ≤ 9841) : shr x 9 = 0 := by
  have h1 : pow3 9 = 19683 := by decide
  have h2 : maxv 9 = 9841 := by decide
  rw [shr, h1, h2]
  omega

/-- The planes taken one by one are the word without its low trits. -/
theorem planes_eq {a : List Int} (col : List Int) (ha : ∀ x ∈ a, -9841 ≤ x ∧ x ≤ 9841) :
    ∀ {p : Nat}, p ≤ 9 → Rule.planes p a col = dot (a.map fun x => shr x (9 - p)) col
  | 0, _ => (dot_zeros a col _ fun x hx => shr_nine (ha x hx)).symm
  | p + 1, hp => by
    have ih := planes_eq col ha (p := p) (by omega)
    unfold Rule.planes at ih ⊢
    rw [List.range_succ, List.foldl_append, ih]
    simp only [List.foldl_cons, List.foldl_nil, fun x => shr_plane x (show p < 9 by omega)]
    rw [dot_linear]

/-! ### Driving a task -/

theorem modTask_home (s : State) (gid ticket : Nat) (f : Task → Task) : (modTask s gid ticket f).home = s.home := rfl

theorem bindSlot_home (s : State) (gid : Nat) (t : Task) : (bindSlot s gid t).home = s.home := by
  unfold bindSlot
  split
  · rfl
  · dsimp only
    split <;> rfl

/-- What stands of a step of a task once its lines are ready. -/
def tookStep (s0 : State) (gid : Nat) (t : Task) : TaskOut → State
  | .wait s2 => s0.ownedAs s2
  | .fault s2 d a => taskFault (s0.ownedAs s2) gid t d a
  | .done s2 => s0.ownedAs s2

/-- A task that is ready runs its own step on the state with its lines. -/
theorem driveTask_ready {s s0 s2 : State} {gid ticket : Nat} {kind : Int} {t : Task} {g : Gang} (pre f : State → Gang → Task → TaskOut)
    (hpre : pre = if kind = 4 then epiPre else noPre) (h : Rule.taskReady s gid ticket kind t s0 s2 g) :
    driveTask s gid ticket kind pre f = tookStep s0 gid t (f s2 g t) := by
  obtain ⟨g0, g1, g2, s1, hg0, ht, hkind, hheld, hmet, hst, hs0, hg1, hp, hg2, hacc, hg⟩ := h
  have howned : ∀ u : State, s0.ownedAs u = s.ownedAs u := fun u => by
    have hhome : s0.home = s.home := by
      rw [hs0, modTask_home]
      split
      · exact bindSlot_home s gid t
      · rfl
    rw [State.ownedAs, State.ownedAs, hhome]
  have hk : decide (taskKind t.words ≠ kind) = false := decide_eq_false (not_not.2 hkind)
  have hgo : (taskKind t.words ≠ kind || t.st == .computed || withheld s (g0.cores.headD 0 / 64) || s.tbMet gid || (t.st == .queued && !mayRun s g0 t)) = false := by
    rcases hst with hst | ⟨hst, hrun, -⟩
    · simp only [hheld, hmet, hst, hk]; rfl
    · simp only [hheld, hmet, hst, hrun, hk]; rfl
  have hfit : (!slotsFit g0 t && t.st == .queued) = false := by
    rcases hst with hst | ⟨hst, -, hfit⟩
    · simp [hst]
    · simp [hfit]
  have hpre' : pre (s0.aside (.task gid ticket)) g1 t = .done s1 := by
    rw [hpre, ← hp]
    split <;> rfl
  unfold driveTask tookStep
  simp only [hg0, ht, hgo, hfit, Bool.false_eq_true, if_false, howned, Bool.and_eq_true, decide_eq_true_eq]
  simp only [← hs0, hg1, hpre', hg2, hacc, hg] <;> rfl

/-- A warp with no pending operation has none to drop. -/
theorem dropPends_none {s : State} {wid : Nat} {w : Warp} (hw : s.warp? wid = some w) (h : w.pends = []) : dropPends s wid = s := by
  simp only [dropPends, hw, h, List.foldl_nil]
  refine (State.modWarp_congr (g := id) fun x hx => ?_).trans (modWarp_of_eq fun _ => rfl)
  obtain rfl := Option.some.inj (hw.symm.trans hx)
  rw [← h]
  rfl

/-- Settles O44: a ready task's step by its kind, the ends and faults of tasks, and TASKF. -/
theorem tileTasksRun : Obligations.TileTasksRun := by
  unfold Obligations.TileTasksRun
  refine ⟨fun p a col sa sb c hp ha => ?_, fun s gid ticket t s0 s2 g rows sc h hrows => ?_, fun s gid ticket t s0 s2 g rows f h hrows => ?_,
    fun g p a => ?_, fun s gid ticket t s0 s2 g h hgot hbound hfree hwaits => ?_, fun s gid ticket t s0 s2 g xs rows f h hgot hfwd hlen hops hrows => ?_,
    fun s gid ticket t s0 s2 g cs h hscale hfold hsh hread hcs => ?_, fun s gid ticket g t hg ht hst hbar => ?_,
    fun s gid ticket g t s3 hg ht hst hbar hpend harr => ?_, fun s gid g t d a wid hg hd => ?_,
    fun s wid w tf rest hw htf hnow hpends => ?_⟩
  · simp only [mmStep, planes_eq col ha hp, Bool.false_eq_true, if_false] <;> rfl
  · refine congrArg Host.Outcome.next ((driveTask_ready noPre _ rfl h).trans ?_)
    simp only [tookStep, hrows]
  · refine congrArg Host.Outcome.next ((driveTask_ready noPre _ rfl h).trans ?_)
    simp only [tookStep, mmRun, hrows]
    rfl
  · by_cases hcode : (g.tag (a / 81).toNat).code = 6
    · simp only [readA, aLength, hcode, if_true, true_and]
      cases g.rowsBad a (9 * p.toNat) <;> rfl
    · simp only [readA, hcode, if_false, false_and]
  · refine congrArg Host.Outcome.next ((driveTask_ready noPre _ rfl h).trans ?_)
    simp only [tookStep, hgot, hbound, hfree, hwaits, List.isEmpty_nil, Bool.not_false, Bool.and_self, if_true]
  · refine congrArg Host.Outcome.next ((driveTask_ready noPre _ rfl h).trans ?_)
    have hne : t.got.isEmpty = false := by simpa using hgot
    have hops' : aOps (((upto t.got.length).map fun i => gotLine t.got i).map fun x => (0, x)) = .ok xs := by rw [List.map_map]; exact hops
    have hall : (decide (t.got.length < streamLines t.words) || decide (t.got.length < streamLines t.words)) = false := by simp [hlen]
    simp only [tookStep, hne, hops', hfwd, Int.toNat_zero, if_true, hall, mmRun, hrows, Bool.false_and, Bool.false_eq_true, if_false]
    rfl
  · refine congrArg Host.Outcome.next ((driveTask_ready epiPre _ rfl h).trans ?_)
    have hunread : ((epiOut t.words).lines.find? fun x => g.unread x 81) = none := by
      rw [List.find?_eq_none]
      exact fun x hx => by simp [hread x hx]
    have hplaces : epiPlaces s2 g t = (s2, .ok (.dom 0 0, .dom 0 0)) := by
      simp only [epiPlaces, hscale, hfold]
      rfl
    have h01 : ((0 : Int) == 1) = false := rfl
    simp only [tookStep, hplaces, hscale, hfold, h01, Bool.false_and, Bool.false_eq_true, if_false, List.append_nil, List.any_nil, allClear, List.all_nil, Bool.not_true,
      List.findSome?_nil, List.foldl_nil, hsh, hunread, hcs]
    rfl
  · refine congrArg Host.Outcome.next ?_
    simp only [hg, ht, hst, hbar, taskStatus, bne_self_eq_false, Bool.false_eq_true, if_false, beq_self_eq_true, Bool.true_or, if_true, one_mul, zero_mul, add_zero]
  · refine congrArg Host.Outcome.next ?_
    have hfull : (wordAt t.words 1 == -1 || (tbGet s (.scr gid (wordAt t.words 1))).pending != 0) = true := by simp [hpend]
    simp only [hg, ht, hst, hbar, taskStatus, hfull, bne_self_eq_false, Bool.false_eq_true, if_false, if_true, one_mul, zero_mul, add_zero, harr, State.met]
  · intro r s1 hwid
    have hno : (inR d 1 10 && relaunchable s g) = false := by
      rcases hd with hd | hd | hd
      · simp [inR, hd]
      · simp [inR, hd]
      · simp [hd]
    have hstat : taskStatus (-1) d 0 = -(pow3 24) + d * pow3 16 := by simp [taskStatus]
    simp only [taskFault, hg, hno, hwid, hstat, Bool.false_eq_true, if_false]
    rfl
  · refine congrArg Host.Outcome.next ?_
    simp only [hw, htf, hnow, Bool.not_true, Bool.false_eq_true, if_false, dropPends_none hw hpends, enterTaskf]
    have hlanes : s.modWarp wid (fun x => { x with
        taskfs := rest,
        lanes := (x.modLanes (w.where_ fun x => x.live && x.wait.isSome) fun _ x => { x with pc := (match x.wait with | some y => y.word | none => x.pc), wait := none }).lanes }) =
      s.modWarp wid fun w => { w with
        taskfs := rest,
        lanes := (w.modLanes (w.where_ fun x => x.live && x.wait.isSome) fun _ x => { x with pc := ((x.wait.map fun y => y.word).getD x.pc), wait := none }).lanes } := by
      refine State.modWarp_congr fun x hx => ?_
      obtain rfl := Option.some.inj (hw.symm.trans hx)
      have hpc : (fun (_ : Nat) (x : Lane) => ({ x with pc := (match x.wait with | some y => y.word | none => x.pc), wait := none } : Lane)) =
          fun _ x => { x with pc := ((x.wait.map fun y => y.word).getD x.pc), wait := none } := by
        funext _ x
        cases x.wait <;> rfl
      rw [hpc]
    exact congrArg (fun u : State => (u.enterTrap wid ⟨cause.taskf, listed (w.where_ fun x => x.live && x.wait.isSome) tf.detail tf.addr⟩).modWarp wid fun w =>
        w.allLanes fun _ x => { x with tInfo := tf.detail, tAddr := tf.addr }) hlanes

end Sys2Proof.Machine
end

section
/-! ## Certificates: transducer events (R249 to R251, R254, R255) -/

namespace Sys2Proof.Machine

open Sys2Proof Tern

/-! ### A step of a request -/

/-- What the host is asked before a source is read, and its answer. -/
theorem hostHears_source (s : State) (l : Loc) :
    hostHears s [l] = if l.isHost then (Config.hostAnswers s.fresh, { s with fresh := s.fresh + 1 }) else (true, s) := by
  simp only [hostHears, List.foldl_cons, List.foldl_nil, Bool.true_and]

theorem hostHears_domain {s : State} : ∀ {ls : List Loc}, (∀ l ∈ ls, l.isHost = false) → hostHears s ls = (true, s)
  | [], _ => rfl
  | l :: ls, h => by
    have ih := hostHears_domain (s := s) fun x hx => h x (List.mem_cons_of_mem l hx)
    simpa only [hostHears, List.foldl_cons, h l List.mem_cons_self, Bool.false_eq_true, if_false] using ih

/-- The state, the host's answer and the place of the source with which a step begins. -/
theorem xAsked_eq (x : XReq) (z : XRun) : Rule.xAsked x z =
    ((hostHears (if z.o = 0 || (spanLoc x.src (dblAt x.words 1) z.o).offset = 0 then hostActs z.s (spanLoc x.src (dblAt x.words 1) z.o) else z.s)
        [spanLoc x.src (dblAt x.words 1) z.o]).2,
      (hostHears (if z.o = 0 || (spanLoc x.src (dblAt x.words 1) z.o).offset = 0 then hostActs z.s (spanLoc x.src (dblAt x.words 1) z.o) else z.s)
        [spanLoc x.src (dblAt x.words 1) z.o]).1) := by
  rw [hostHears_source]
  unfold Rule.xAsked
  dsimp only
  cases (spanLoc x.src (dblAt x.words 1) z.o).isHost <;> rfl

/-- What a step does with the value that its source gives. -/
def xTakes (gone : Int → Bool) (tb : TableSlot) (x : XReq) (z : XRun) (s : State) (v : Int) : XRun :=
  match (tb.classOf v).bind fun k => tb.next z.st k with
  | none => { z with s := s, out := some (-1) }
  | some (es, st) =>
    if (wordAt x.words 6).toNat < z.t + es.length then { z with s := s, out := some (-2) }
    else
      let ys := List.zip (upto es.length) es
      let at_ (i : Nat) : Loc := spanLoc x.dst (dblAt x.words 4) (z.t + i)
      if ys.any fun p => (match at_ p.1 with | .host view _ _ => view == -1 | .dom _ _ => false) && !inR p.2 0 255 then { z with s := s, out := some (-3) }
      else if ys.any fun p => Rule.lost gone (at_ p.1) then { z with s := s, out := some (-4) }
      else if (hostHears s (ys.map fun p => at_ p.1)).1 = false then { z with s := (hostHears s (ys.map fun p => at_ p.1)).2, out := some (-4) }
      else { z with s := ys.foldl (fun s p => xWrite x s (z.t + p.1) p.2) (hostHears s (ys.map fun p => at_ p.1)).2,
                    st := st, o := z.o + 1, t := z.t + es.length }

/-- A step whose source gives a value. -/
theorem xStep_reads {gone : Int → Bool} (tb : TableSlot) {x : XReq} {z : XRun} {v : Int} (h : Rule.xReads gone x z v) :
    xStep gone tb x z = xTakes gone tb x z (Rule.xAsked x z).1 v := by
  obtain ⟨hlost, hans, hread⟩ := h
  rw [xAsked_eq] at hans hread ⊢
  unfold xStep
  dsimp only at hans hread ⊢
  refine (if_neg (Bool.eq_false_iff.1 (Bool.or_eq_false_iff.2 ⟨hlost, by rw [hans]; rfl⟩))).trans ?_
  simp only [hread, xTakes, decide_eq_true_eq, Bool.not_eq_true']
  rfl

/-- A step whose source gives none. -/
theorem xStep_refused {gone : Int → Bool} (tb : TableSlot) {x : XReq} {z : XRun} (h : ∀ v, ¬ Rule.xReads gone x z v) :
    xStep gone tb x z = { z with s := (Rule.xAsked x z).1, out := some (-4) } := by
  have hx := xAsked_eq x z
  unfold xStep
  dsimp only
  by_cases hgo : Rule.lost gone (spanLoc x.src (dblAt x.words 1) z.o) = false ∧ (Rule.xAsked x z).2 = true
  · have hread : ∀ v, readPieces (Rule.xAsked x z).1.mem 0 [(spanLoc x.src (dblAt x.words 1) z.o, 1)] ≠ .val v := fun v hv => h v ⟨hgo.1, hgo.2, hv⟩
    rw [hx] at hgo hread ⊢
    dsimp only at hgo hread ⊢
    refine (if_neg (Bool.eq_false_iff.1 (Bool.or_eq_false_iff.2 ⟨hgo.1, by rw [hgo.2]; rfl⟩))).trans ?_
    split
    · next v hv => exact absurd hv (hread v)
    · rfl
  · rw [hx] at hgo ⊢
    refine if_pos ?_
    show (Rule.lost gone _ || !_) = true
    simpa [Classical.or_iff_not_imp_left] using hgo

/-- A table that loads has its sizes in range and starts in one of its states. -/
theorem loadTable_ok {m : Memory} {t u : TableSlot} {locs : List Loc} {a : Int} (h : loadTable m t locs a = .ok u) :
    u.st = .loaded ∧ u.t = t.t ∧ 1 ≤ u.states ∧ u.states ≤ 729 ∧ 1 ≤ u.classes ∧ u.classes ≤ 81 ∧ u.start < u.states := by
  unfold loadTable at h
  split at h
  · split_ifs at h with hsizes
    dsimp only at h
    split_ifs at h
    cases h
    simp only [Bool.or_eq_true, not_or, Bool.not_eq_true', inR, decide_eq_true_eq, Bool.not_eq_true, Bool.not_eq_false] at hsizes
    obtain ⟨⟨⟨hs, hk⟩, hst⟩, -⟩ := hsizes
    refine ⟨rfl, rfl, ?_, ?_, ?_, ?_, ?_⟩ <;> dsimp only <;> omega
  · cases h

/-- Settles O45: the start, the steps and the end of a request, and the load of a table. -/
theorem transducerEvents : Obligations.TransducerEvents := by
  unfold Obligations.TransducerEvents
  refine ⟨fun s lane x rest hq hrun hmet hdead hset => ?_, fun gone tb x z v k es st hv hk hn => ?_, fun s ls h => hostHears_domain h, fun s l hl => ?_,
    fun gone tb x z v hv hno => ?_, fun gone tb x z h => xStep_refused tb h, fun s lane x rest g hq hrun hg hkill hmet hbar => ?_,
    fun s slot wid n a gd l locs hx => ?_, fun s locs a first n => rfl, fun m t locs a u h => ?_⟩
  · intro here dst read src others hheld hsrc hdst hothers hbar
    refine congrArg Host.Outcome.next ?_
    have hrem : ((src ++ dst).any fun p => remoteHeld s p.1) = false := by
      rw [List.any_eq_false]
      exact fun p hp => by simp [hheld p hp]
    have hown : (dst.all fun p => (s.home.owned.find? fun o => o.pkg == p.1 && o.line == p.2).any fun o => o.owner == .xducer x.id) = true := by
      rw [List.all_eq_true]
      exact fun p hp => (hdst p hp).1
    have hclear : (dst.all fun p => clear s p.1 p.2 true none) = true := by
      rw [List.all_eq_true]
      exact fun p hp => (hdst p hp).2
    have hready : (src.all fun p => !engineOwned s p.1 p.2 && clear s p.1 p.2 false none) = true := by
      rw [List.all_eq_true]
      exact fun p hp => by simp [hsrc p hp]
    have hlane : s.pkg.deadLanes.contains lane = false := by simpa using hdead
    simp only [hq, hrun, hmet, hlane, hset, hbar, Bool.or_self, Bool.not_true, Bool.false_eq_true, if_false, if_true]
    refine (if_neg (Bool.eq_false_iff.1 hrem)).trans ?_
    refine (if_neg fun h => Bool.eq_false_iff.1 (Bool.not_eq_eq_eq_not.2 hown) h).trans ?_
    refine (if_neg fun h => Bool.eq_false_iff.1 (Bool.not_eq_eq_eq_not.2 hready) h).trans ?_
    refine (if_neg fun h => Bool.eq_false_iff.1 (Bool.not_eq_eq_eq_not.2 hclear) h).trans ?_
    refine (if_neg fun h => Bool.eq_false_iff.1 (Bool.not_eq_eq_eq_not.2 hothers) h).trans ?_
    rfl
  · rw [xStep_reads tb hv]
    simp only [xTakes, hk, hn, Option.bind_some] <;> rfl
  · rw [hostHears_source, if_pos hl]
  · rw [xStep_reads tb hv]
    have hnone : ((tb.classOf v).bind fun k => tb.next z.st k) = none := by
      cases hc : tb.classOf v with
      | none => rfl
      | some k => exact hno k hc
    simp only [xTakes, hnone]
  · refine congrArg Host.Outcome.next ?_
    have hgang : xGang s x = some g := by simp [xGang, hg, hkill]
    have hgang' : ∀ f o, xGang (modQueue ({ s with home := o } : State) lane f) x = some g := fun f o => hgang
    simp only [hq, hrun, xMet, hgang, hmet, Bool.not_false, Bool.and_self, if_true, endXReq, hgang', hbar]
  · intro s1 len own hread hpages s2
    refine congrArg Host.Outcome.next ?_
    have hstuck : ∀ ls : List (Int × Int), (∀ p ∈ ls, Rule.readableNow s p) → (ls.any fun p => remoteHeld s p.1 && !s.pkg.deadPeers.contains p.1) = false := by
      intro ls h
      rw [List.any_eq_false]
      exact fun p hp => by simp [(h p hp).2.1]
    have hgone : ∀ ls : List (Int × Int), (∀ p ∈ ls, Rule.readableNow s p) → (ls.any fun p => s.pkg.deadPeers.contains p.1) = false := by
      intro ls h
      rw [List.any_eq_false]
      exact fun p hp => by simp [(h p hp).1]
    have hopen : ∀ ls : List (Int × Int), (∀ p ∈ ls, Rule.readableNow s p) →
        (ls.all fun p => s.pkg.deadPeers.contains p.1 || (!engineOwned s p.1 p.2 && clear s p.1 p.2 false none)) = true := by
      intro ls h
      rw [List.all_eq_true]
      exact fun p hp => by simp [(h p hp).2.2.1, (h p hp).2.2.2]
    have hhead : ∀ p ∈ (if l.isHost then [] else nodups (l.pkgLine :: headOf s l.pkgLine)), Rule.readableNow s p := by
      intro p hp
      refine hread p (List.mem_append_left _ (List.mem_append_left _ ?_))
      split at hp
      · exact absurd hp List.not_mem_nil
      · next hl => rwa [if_neg hl, ← mem_nodups]
    have himage : ∀ p ∈ nodups (own ++ own.flatMap (headOf s)), Rule.readableNow s p := by
      intro p hp
      refine hread p ?_
      rw [List.append_assoc]
      exact List.mem_append_right _ ((mem_nodups _).1 hp)
    simp only [hx, List.getD_cons_zero]
    refine (if_neg (Bool.eq_false_iff.1 (hstuck _ hhead))).trans ?_
    refine (if_neg (Bool.eq_false_iff.1 (hgone _ hhead))).trans ?_
    refine (if_neg fun h => Bool.eq_false_iff.1 (Bool.not_eq_eq_eq_not.2 (hopen _ hhead)) h).trans ?_
    refine (if_neg (Nat.not_lt.2 hpages)).trans ?_
    refine (if_neg (Bool.eq_false_iff.1 (hstuck _ himage))).trans ?_
    refine (if_neg (Bool.eq_false_iff.1 (hgone _ himage))).trans ?_
    refine (if_neg fun h => Bool.eq_false_iff.1 (Bool.not_eq_eq_eq_not.2 (hopen _ himage)) h).trans ?_
    rfl
  · exact loadTable_ok h

end Sys2Proof.Machine
end

section
/-! ## Certificates: the lives of warps, gangs and launches (R71, R93, R173, R266, R267, R269, R270, R368) -/

namespace Sys2Proof.Machine

open Sys2Proof Tern

/-- A place that is filtered out reads as nothing. -/
theorem sget_filter_out {m : Store} {q : Nat × Int → Bool} {j : Nat} (h : ∀ v, q (j, v) = false) : sget (m.filter q) j = 0 := by
  have hq : (m.filter q).find? (fun p => p.1 == j) = none := by
    rw [List.find?_eq_none]
    rintro ⟨k, v⟩ hm hk
    obtain rfl : k = j := by simpa using hk
    exact absurd (List.mem_filter.1 hm).2 (by simp [h v])
  rw [sget, hq]
  rfl

/-- What the registers keep, and where the lanes go, after a ROLE. -/
theorem applyRole_spec (w : Warp) (a : Nat) (c e : Int) (l : Nat) (hlen : w.lanes.length = 27) (hl : l < 27) :
    (w.applyRole a c e).allot = a ∧ (w.applyRole a c e).cls = c ∧
      ((w.lane l).live = true → ((w.applyRole a c e).lane l).pc = e ∧ ((w.applyRole a c e).lane l).depth = 0) ∧
      ∀ n, n < 81 → (w.applyRole a c e).vreg l n = if n < a then w.vreg l n else 0 := by
  have hlane : (w.applyRole a c e).lane l = if (w.lane l).live then { w.lane l with pc := e, depth := 0, link := [], pos := 0, since := 0 }
      else { w.lane l with pos := 0, since := 0 } := Warp.lane_allLanes w _ (by omega)
  refine ⟨rfl, rfl, fun hlive => ?_, fun n hn => ?_⟩
  · rw [hlane, if_pos hlive]
    exact ⟨rfl, rfl⟩
  · have hplace : (81 * l + n) % 81 = n := by omega
    show sget (w.v.filter fun p => decide (p.1 % 81 < a)) (81 * l + n) = _
    split
    · next h => exact sget_filter fun v => by simp [hplace, h]
    · next h => exact sget_filter_out fun v => by simp [hplace, h]

/-! ### The end of a gang -/

section
variable {s : State} {gid : Nat} {g : Gang} (hg : s.gang? gid = some g)
include hg

/-- A gang without tasks and bindings has no stream to end. -/
theorem endStreams_none (htasks : g.tasks = []) (hbinds : gangBinds s gid = []) : endStreams s gid = s := by
  simp only [endStreams, hg, htasks, hbinds, List.foldl_nil, ite_self]

/-- A gang without bound windows has none to release. -/
theorem endWindows_none (hwins : ∀ o ∈ g.wins, o = none) : ∀ n, endWindows s gid n = s := by
  have hwin : ∀ k, g.win? k = none := fun k => by
    unfold Gang.win?
    rw [List.getD_eq_getElem?_getD]
    cases hk : g.wins[k]? with
    | none => rfl
    | some o => exact hwins o (List.mem_of_getElem? hk)
  intro n
  unfold endWindows
  generalize upto n = l
  induction l with
  | nil => rfl
  | cons k l ih =>
    rw [List.foldl_cons]
    simp only [hg, hwin] at ih ⊢
    exact ih

end

/-- Settles O46: each event of a warp, a gang or a launch, where its condition holds. -/
theorem warpsGangsAndLaunchesLive : Obligations.WarpsGangsAndLaunchesLive := by
  unfold Obligations.WarpsGangsAndLaunchesLive
  refine ⟨fun s wid w b n a c e rest hw hb hroles hroom => ?_, fun w a c e l hlen hl => applyRole_spec w a c e l hlen hl,
    fun s wid w hw hh hplace hlive hperf hloads htf => ?_, fun s gid g hg hwarps hkill htasks hwins hbinds hbusy => ?_, fun s lid x hx hdone => ?_,
    fun s pad pl w cores hst hpause hpair hnext hok => ?_, fun s x c count cores pl => ?_, fun wid gid ctx num place cls lvl allot entry r l n hl => ?_,
    fun s gid g hg hheld hstart => ?_, fun s pad x c a hst hstarv => ?_, fun s lid x hx hdl hnow hmiss hdone hraise => ?_,
    fun s lid x hx hdl hnow hmiss hdone hraise => ?_⟩
  · refine congrArg Host.Outcome.next ?_
    simp only [hw, hb, hroles, hroom, and_self, if_true]
  · refine congrArg Host.Outcome.next ?_
    have hnone : (w.where_ fun x => x.live) = [] := by
      rw [List.eq_nil_iff_forall_not_mem]
      exact fun l hl => absurd (mem_where.1 hl).2 (by simp [hlive l (mem_where.1 hl).1])
    have hplace' : (w.place == .saved) = false := by simpa using hplace
    simp only [hw, hh, hplace', hnone, hperf, hloads, List.isEmpty_nil, Bool.not_true, Bool.or_self, Bool.false_eq_true, if_false]
    simp only [passTaskfs, htf, dropWarps]
    have hids : ∀ o : LoadOp, ((s.warps.filter fun x => x.wid == wid).map fun w => w.wid).contains o.wid = (o.wid == wid) := fun o => by
      rw [Bool.eq_iff_iff]
      simp only [List.contains_iff_mem, List.mem_map, List.mem_filter, beq_iff_eq]
      exact ⟨fun ⟨x, hx, h⟩ => h ▸ hx.2, fun h => ⟨w, ⟨List.mem_of_find?_eq_some hw, State.warp?_wid hw⟩, (State.warp?_wid hw).trans h.symm⟩⟩
    simp only [hids]
    rfl
  · refine congrArg Host.Outcome.next ?_
    have hany : (s.warps.any fun w => w.gid == some gid) = false := by
      rw [List.any_eq_false]
      exact fun w hw => by simpa using hwarps w hw
    have hwin : g.wins.any Option.isSome = false := by
      rw [List.any_eq_false]
      exact fun o ho => by simp [hwins o ho]
    simp only [hg, hany, hkill, htasks, List.any_nil, Bool.false_eq_true, if_false, endStreams_none hg htasks hbinds, endWindows_none hg hwins, hbusy, hwin, Bool.or_self,
      finishGang, Bool.false_and, gang?_gid hg]
  · refine congrArg Host.Outcome.next ?_
    simp only [hx, hdone, Bool.not_true, Bool.false_eq_true, if_false]
  · refine congrArg Host.Outcome.next ?_
    simp only [hst, hpause, hpair, hnext, hok, ne_eq, not_true_eq_false, decide_false, Bool.or_self, Bool.false_eq_true, if_false, if_true]
  · refine ⟨_, List.mem_append_right _ List.mem_cons_self, rfl, rfl, rfl, rfl, rfl, rfl⟩
  · intro w
    have hg : ∀ k, w.greg k = ([wordAt r 6, wordAt r 7, wordAt r 5, wordAt r 8].map lowWord).getD k 0 := fun k => by
      refine (sget_ssets _ [] 0 k).trans ?_
      split_ifs with hk
      · rfl
      · have h4 : 4 ≤ k := by
          simp only [List.length_map, List.length_cons, List.length_nil] at hk
          omega
        exact (List.getD_eq_default _ _ h4).symm
    have hlane : w.lane l = Lane.start entry := by
      show (List.replicate 27 (Lane.start entry)).getD l (Lane.start 0) = _
      rw [List.getD_replicate _ hl]
    refine ⟨hg 0, hg 1, hg 2, hg 3, (hg _).trans ?_, rfl, rfl, rfl, ?_, ?_, ?_, rfl⟩
    · simp
    all_goals rw [hlane]; rfl
  · refine congrArg Host.Outcome.next ?_
    simp only [hg, hheld, hstart, decide_true, Bool.and_self, if_true]
  · refine congrArg Host.Outcome.next ?_
    simp only [hst, hstarv, Bool.false_eq_true, if_false]
  · refine congrArg Host.Outcome.next ?_
    have hlate : decide (s.now < recDeadline x.words) = false := by simpa using hnow
    simp only [hx, hdl, hmiss, hlate, hdone, hraise, decide_false, Bool.or_self, Bool.false_eq_true, if_false, Bool.false_and, List.map_id']
  · refine congrArg Host.Outcome.next ?_
    have hlate : decide (s.now < recDeadline x.words) = false := by simpa using hnow
    simp only [hx, hdl, hmiss, hlate, hdone, hraise, decide_false, Bool.or_self, Bool.false_eq_true, if_false, if_true, Bool.true_and]
    have hmine : (fun w : Warp => if (match w.gid.bind s.gang? with | some g => g.lid == lid | none => false) = true then { w with cls := (4 : Int) } else w) =
        fun w => if (w.gid.bind s.gang?).any (fun g => g.lid == lid) then { w with cls := 4 } else w := by
      funext w
      cases w.gid.bind s.gang? <;> rfl
    simp only [← hmine] <;> rfl

end Sys2Proof.Machine
end

section
/-! ## Certificates: contexts, saved warps, launches halted and resumed (R272, R285, R288, R289, R297, R298, R308, R310) -/

namespace Sys2Proof.Machine

open Sys2Proof Tern

/-! ### Saving a warp -/

theorem Warp.allLanes_self {w : Warp} {f : Nat → Lane → Lane} (h : ∀ l x, f l x = x) : w.allLanes f = w := by
  obtain rfl : f = fun _ x => x := funext fun l => funext fun x => h l x
  exact Warp.allLanes_id w

/-- No wait is for one of no operations. -/
theorem onPend_nil (y : Wait) : onPend [] y = false := by
  unfold onPend
  split <;> rfl

theorem wake_none (w : Warp) : w.wake (onPend []) = w := by
  refine Warp.allLanes_self fun l x => ?_
  obtain ⟨_, _, _, _, wait, hwait, _⟩ := x
  cases wait <;> cases hwait <;> simp only [onPend_nil, Bool.false_eq_true, if_false]

theorem reissue_none (w : Warp) : w.reissue (onPend []) = w := by
  unfold Warp.reissue
  dsimp only
  rw [List.filterMap_eq_nil_iff.2, Warp.allLanes_self, wake_none]
  · intro l x
    obtain ⟨_, _, _, _, wait, _⟩ := x
    cases wait <;> simp only [onPend_nil, Bool.false_eq_true, if_false]
  · intro l _
    cases (w.lane l).hwait <;> simp only [onPend_nil, Bool.false_eq_true, if_false]

/-- A warp none of whose operations is saved at its word has nothing to undo. -/
theorem undoPends_none {s : State} {wid : Nat} {w : Warp} (hw : s.warp? wid = some w) (h : ∀ p ∈ w.pends, p.op.atWord = false) : undoPends s w = s := by
  have hps : (w.pends.filter fun p => p.op.atWord) = [] := List.filter_eq_nil_iff.2 fun p hp => by simp [h p hp]
  have hkeep : (w.pends.filter fun p => !p.op.atWord) = w.pends := List.filter_eq_self.2 fun p hp => by simp [h p hp]
  have hsame : ∀ s1 : State, s1 = s → s1.modWarp w.wid (fun w => { (w.reissue (onPend [])).wake (onPend []) with pends := w.pends.filter fun p => !p.op.atWord }) = s := by
    rintro s1 rfl
    refine (State.modWarp_congr (g := id) fun x hx => ?_).trans (modWarp_of_eq fun _ => rfl)
    obtain rfl := Option.some.inj ((State.warp?_wid hw ▸ hw).symm.trans hx)
    rw [reissue_none, wake_none, hkeep]
    rfl
  simp only [undoPends, hps, List.filter_nil, List.map_nil, List.foldl_nil]
  refine hsame _ ?_
  cases w.gid <;> rfl

/-! ### Placing a gang again -/

theorem setCarve_symbols (s : State) (ctx : Nat) (cores : List Nat) (n : Nat) : ((setCarve s ctx cores).core n).symbols = (s.core n).symbols := by
  unfold setCarve
  induction cores generalizing s with
  | nil => rfl
  | cons c cores ih =>
    rw [List.foldl_cons, ih]
    dsimp only
    split
    · rfl
    · rw [State.core_modCore]
      · split
        · next h => rw [h]
        · rfl
      · exact fun _ => rfl

theorem setCarve_gangs (s : State) (ctx : Nat) (cores : List Nat) : (setCarve s ctx cores).gangs = s.gangs := by
  unfold setCarve
  induction cores generalizing s with
  | nil => rfl
  | cons c cores ih =>
    rw [List.foldl_cons, ih]
    dsimp only
    split
    · rfl
    · exact State.modCore_gangs _ _ _

/-- Cores without erroneous rows have none to clear. -/
theorem clearRows_none {s : State} {gid : Nat} {g : Gang} {f : Gang → Gang} (hg : s.gang? gid = some g) (hf : ∀ x, (f x).gid = x.gid)
    (h : ∀ n ∈ (f g).cores, (s.core n).symbols = []) : clearRows (s.modGang gid f) gid = s.modGang gid f := by
  have hg' : (s.modGang gid f).gang? gid = some (f g) := by rw [State.gang?_modGang s gid f hf, if_pos rfl, hg, Option.map_some]
  have hall : ((f g).cores.all fun n => ((s.modGang gid f).core n).symbols.isEmpty) = true := List.all_eq_true.2 fun n hn => List.isEmpty_iff.2 (h n hn)
  simp only [clearRows, hg', hall, if_true]

/-- Settles O47: each event of a context, a saved warp or a launch's signal, where its condition holds. -/
theorem contextsAndSavedWarps : Obligations.ContextsAndSavedWarps := by
  unfold Obligations.ContextsAndSavedWarps
  refine ⟨fun s pad ctx hrun hpause htwo hslice hheld => ?_, fun s pad c hnext hrun hchans hdebug => ?_, fun s pad c hpad hseq hfresh => ?_,
    fun s ctx c wid w hc hseq hw hwoken hplace => ?_, fun s pad p hp hpad hat => ?_, fun s wid w d hw hd hnow hplace hsav => ?_,
    fun s wid w gid hw hg hpends hlen => ?_, fun s gid g pl cores hg hsaved hst hruns hdebug hfind hsym => ?_, fun s wid w t hw hh ht hfree hnot => ?_,
    fun s lid x t h but hx hsig hdue => ?_, fun s lid x t but hx hsig hdue hstep => ?_⟩
  · refine congrArg Host.Outcome.next ?_
    have hheld' : (s.gangs.filter fun g => g.ctx == ctx && g.held && !g.saved) = [] := List.filter_eq_nil_iff.2 fun g hg => by
      by_cases hc : g.ctx = ctx
      · simp [hheld g hg hc]
      · simp [hc]
    have hgo : (false || decide (runnables s pad ≤ 1) || decide (s.now < (s.paddock pad).sliceStart + sliceOf s ctx)) = false := by
      simp only [Bool.false_or, Bool.or_eq_false_iff, decide_eq_false_iff_not]
      omega
    simp only [hrun, hpause, hgo, Bool.false_eq_true, if_false, preemptContext, hheld', List.foldl_nil]
  · refine congrArg Host.Outcome.next ?_
    have hopen : (match c.seqWid.bind s.warp? with | some w => w.debugging | none => false) = false := by
      cases hw : c.seqWid.bind s.warp? with
      | none => rfl
      | some w =>
        obtain ⟨wid, hwid, hw⟩ := Option.bind_eq_some_iff.1 hw
        exact hdebug wid w hwid hw
    simp only [hnext, hrun, trySwitch, hchans, decide_true, Bool.true_and]
    exact if_pos (Bool.not_eq_eq_eq_not.2 hopen)
  · have hdead : s.pkg.deadSeqs.contains pad = false := by simpa using hpad
    refine ⟨newWarp s.nextId none c.ctx 0 (.seq pad) 0 (if pad = 0 then 1 else 0) 0 (dblAt c.words 19) (ssets [] 0 ([wordAt c.words 21, wordAt c.words 22].map lowWord)),
      ?_, rfl, rfl, rfl, sget_ssets _ [] 0 0, sget_ssets _ [] 0 1, fun l hl => ?_⟩
    · have hnone : s.warps.find? (fun w => w.wid == s.nextId) = none := List.find?_eq_none.2 fun w hw => by simpa using hfresh w hw
      have hpad : ∀ f, (s.modPaddock pad f).warps = s.warps ∧ (s.modPaddock pad f).nextId = s.nextId := fun f => by simp
      simp only [switchIn, hseq, State.warp?, hdead, hpad, Bool.false_eq_true, if_false]
      simp [State.modContext, hnone, newWarp]
    · show ((List.replicate 27 (Lane.start (dblAt c.words 19))).getD l (Lane.start 0)).pc = _
      rw [List.getD_replicate _ hl]
      rfl
  · refine congrArg Host.Outcome.next ?_
    simp only [hc, hseq, Option.bind_some, hw, hwoken, hplace, beq_self_eq_true, Bool.and_self, if_true]
  · refine congrArg Host.Outcome.next ?_
    simp only [hp, hpad, hat, List.filter_cons, List.filter_nil, beq_self_eq_true, decide_true, Bool.and_self, Bool.not_true, Bool.false_eq_true, if_true, if_false,
      List.foldl_cons, List.foldl_nil]
    have hmark : (fun w : Warp => if (p.wids.contains w.wid && w.place != .saved) = true then { w with deadline := some (p.at_ + p.budget) } else w) =
        fun w => if w.wid ∈ p.wids ∧ w.place ≠ .saved then { w with deadline := some (p.at_ + p.budget) } else w := by
      funext w
      simp only [Bool.and_eq_true, List.contains_iff_mem, bne_iff_ne]
    rw [hmark]
  · refine congrArg Host.Outcome.next ?_
    simp only [hw, hd, hnow, hplace, hsav, ne_eq, not_false_eq_true, and_self, if_true]
  · simp only [saveWarp, hw, undoPends_none hw hpends, hg]
  · refine congrArg Host.Outcome.next ?_
    simp only [hg, hsaved, hst, hruns, hdebug, hfind, Bool.not_true, ne_eq, not_true_eq_false, decide_false, Bool.or_self, Bool.false_eq_true, if_false]
    generalize hs1 : ({ s with warps := _, nextId := _, fresh := _ } : State) = s1
    have hsc : ∀ n ∈ cores, ((setCarve s1 g.ctx cores).core n).symbols = [] := fun n hn => (setCarve_symbols s1 g.ctx cores n).trans (by rw [← hs1]; exact hsym n hn)
    have hg1 : (setCarve s1 g.ctx cores).gang? gid = some g := by rw [State.gang?, setCarve_gangs, ← hs1]; exact hg
    refine (congrArg (fun u => g.tasks.foldl (fun s t => ownTask s gid t) u) (clearRows_none hg1 ?_ ?_)).trans ?_
    · exact fun _ => rfl
    · exact hsc
    · subst hs1
      rfl
  · refine congrArg Host.Outcome.next ?_
    simp only [hw, watchDue, hh, ht, hfree, hnot, Bool.false_eq_true, if_false, Bool.not_false, Bool.and_self, if_true, deliverWatch, List.map_id']
  · refine congrArg Host.Outcome.next ?_
    have hd : dueSignals x s.now true = ([⟨t, some h, but⟩], { x with signals := [] }) := by
      simp [dueSignals, hsig, Signal.isDue, hdue]
    have hhalt : (fun w => if ofLaunch s lid w then (dueSignals x s.now true).1.foldl Warp.takeSignal w else w) =
        fun w => if ofLaunch s lid w = true ∧ w.gid ≠ but then w.haltAll h.spread else w := by
      funext w
      by_cases ho : ofLaunch s lid w = true <;> by_cases hb : w.gid = but <;> simp [hd, Warp.takeSignal, ho, hb]
    simp only [hx, hhalt]
    rw [hd]
  · refine congrArg Host.Outcome.next ?_
    have hd : dueSignals x s.now false = ([⟨t, none, but⟩], { x with signals := [] }) := by
      simp [dueSignals, hsig, Signal.isDue, hdue]
    have hno : (s.warps.any fun w => ofLaunch s lid w && stepped s w.wid) = false := by
      rw [List.any_eq_false]
      intro w hw
      by_cases ho : ofLaunch s lid w = true
      · simp [hstep w hw ho]
      · simp [ho]
    simp only [hx, hno, hd, Bool.false_eq_true, if_false, List.isEmpty_cons, Bool.not_false, Bool.true_and]

end Sys2Proof.Machine
end

section
/-! ## The memory layer: what lines brought home, walks and writes of the device change (R148, R149, R166, R178 to R181, R203) -/

namespace Sys2Proof.Machine

open Sys2Proof Tern

/-- A gang's name and whether it is killed. -/
def Gang.frame (g : Gang) : Nat × Bool := (g.gid, g.killed)

/-- A change of a gang that leaves its name, whether it is killed, and the form of its scratchpad. -/
def KeepsGang (f : Gang → Gang) : Prop := ∀ g, (f g).frame = g.frame ∧ (swf g.scratch = true → swf (f g).scratch = true)

theorem map_frame_modFirst {f : Gang → Gang} (hf : KeepsGang f) (p : Gang → Bool) (l : List Gang) : (modFirst p f l).map Gang.frame = l.map Gang.frame := by
  induction l with
  | nil => rfl
  | cons g l ih =>
    unfold modFirst
    split
    · rw [List.map_cons, List.map_cons, (hf g).1]
    · rw [List.map_cons, List.map_cons, ih]

/-- Only the memories, the homes' bookkeeping, the cores' own stores and the log differ, and the memories keep their form. -/
structure HomeOnly (s t : State) : Prop where
  rest : ∃ mem home gangs cores reqs nodes ats log barred fresh nextId, t = { s with
    mem := mem, home := home, gangs := gangs, cores := cores, reqs := reqs, nodes := nodes, ats := ats, log := log, barred := barred, fresh := fresh,
    nextId := nextId }
  frames : t.gangs.map Gang.frame = s.gangs.map Gang.frame
  memories : s.memoriesOk = true → t.memoriesOk = true

namespace HomeOnly

theorem refl (s : State) : HomeOnly s s := ⟨⟨_, _, _, _, _, _, _, _, _, _, _, rfl⟩, rfl, id⟩

theorem trans {s t u : State} (h : HomeOnly s t) (h' : HomeOnly t u) : HomeOnly s u := by
  obtain ⟨⟨_, _, _, _, _, _, _, _, _, _, _, rfl⟩, hf, hm⟩ := h
  obtain ⟨⟨_, _, _, _, _, _, _, _, _, _, _, rfl⟩, hf', hm'⟩ := h'
  exact ⟨⟨_, _, _, _, _, _, _, _, _, _, _, rfl⟩, hf'.trans hf, hm' ∘ hm⟩

section
variable {s t : State} (h : HomeOnly s t)
include h

theorem warps : t.warps = s.warps := by obtain ⟨⟨_, _, _, _, _, _, _, _, _, _, _, rfl⟩, -, -⟩ := h; rfl
theorem launches : t.launches = s.launches := by obtain ⟨⟨_, _, _, _, _, _, _, _, _, _, _, rfl⟩, -, -⟩ := h; rfl
theorem paddocks : t.paddocks = s.paddocks := by obtain ⟨⟨_, _, _, _, _, _, _, _, _, _, _, rfl⟩, -, -⟩ := h; rfl
theorem journal : t.journal = s.journal := by obtain ⟨⟨_, _, _, _, _, _, _, _, _, _, _, rfl⟩, -, -⟩ := h; rfl
theorem ctxs : t.ctxs = s.ctxs := by obtain ⟨⟨_, _, _, _, _, _, _, _, _, _, _, rfl⟩, -, -⟩ := h; rfl
theorem pkg : t.pkg = s.pkg := by obtain ⟨⟨_, _, _, _, _, _, _, _, _, _, _, rfl⟩, -, -⟩ := h; rfl

/-- The domain's memory is as it was, up to its form. -/
theorem update {mem : Memory} {home : Home} {cores : List Core} {reqs : List Req} {nodes : List NodeEntry} {ats : List AtsEntry} {log : List LogEvent}
    {barred : Bool} {fresh nextId : Nat} (hmem : t.mem.wf = true → mem.wf = true) :
    HomeOnly s { t with
      mem := mem, home := home, cores := cores, reqs := reqs, nodes := nodes, ats := ats, log := log, barred := barred, fresh := fresh,
      nextId := nextId } :=
  h.trans ⟨⟨_, _, _, _, _, _, _, _, _, _, _, rfl⟩, rfl, fun hk => by
    rw [State.memoriesOk_iff] at *
    exact ⟨hmem hk.1, hk.2⟩⟩

theorem modGang {f : Gang → Gang} (hf : KeepsGang f) (gid : Nat) : HomeOnly s (t.modGang gid f) :=
  h.trans ⟨⟨_, _, _, _, _, _, _, _, _, _, _, rfl⟩, map_frame_modFirst hf _ _, State.memoriesOk_modGang (fun g => (hf g).2) gid⟩

theorem modMem {f : Memory → Memory} (hf : ∀ m, m.wf = true → (f m).wf = true) : HomeOnly s (t.modMem f) := h.update (hf _)

theorem modCore (n : Nat) (f : Core → Core) : HomeOnly s (t.modCore n f) := by
  unfold State.modCore
  split <;> exact h.update id

theorem modReq (id : Nat) (f : Req → Req) : HomeOnly s (t.modReq id f) := h.update (fun hm => hm)
theorem modHeld (pkg line : Int) (f : HeldLine → HeldLine) : HomeOnly s (t.modHeld pkg line f) := h.update id
theorem note (ctx : Option Nat) (k : LogKind) (data : List Int) : HomeOnly s (t.note ctx k data) := h.update id
theorem bar : HomeOnly s t.bar := h.update id

theorem ite {c : Prop} [Decidable c] {u : State} (h' : HomeOnly s u) : HomeOnly s (if c then t else u) := by split <;> assumption

theorem foldl {α : Type} {f : State → α → State} (hf : ∀ u x, HomeOnly s u → HomeOnly s (f u x)) (l : List α) : HomeOnly s (l.foldl f t) := by
  induction l generalizing t with
  | nil => exact h
  | cons x l ih => exact ih (hf t x h)

/-! ### Rows and requests -/

theorem noteRows (core : Nat) : HomeOnly s (Machine.noteRows t core) :=
  h.trans ⟨⟨_, _, _, _, _, _, _, _, _, _, _, rfl⟩, by
    rw [Machine.noteRows, List.map_map]
    exact List.map_congr_left fun g _ => by dsimp only [Function.comp]; split <;> rfl, fun hk => by
    rw [State.memoriesOk_iff] at *
    refine ⟨hk.1, fun g hg => ?_⟩
    obtain ⟨g0, hg0, rfl⟩ := List.mem_map.1 hg
    split <;> exact hk.2 g0 hg0⟩

theorem markBank (core bank : Nat) : HomeOnly s (Machine.markBank t core bank) := ((h.modCore _ _).noteRows _).note _ _ _

theorem correctRow (p : Nat × Nat) : HomeOnly s (Machine.correctRow t p) := by
  unfold Machine.correctRow
  dsimp only
  split
  · exact h.ite ((h.modCore _ _).ite ((h.modCore _ _).markBank _ _))
  · exact h

theorem scrub (gid : Nat) (us : List (Int × Nat)) : HomeOnly s (Machine.scrub t gid us) := by
  unfold Machine.scrub
  split
  · exact h
  · exact h.ite (h.foldl (fun _ _ hu => hu.correctRow _) _)

theorem send (src ctx wid : Nat) (pkg line : Int) (b : ReqBody) (sc : Option ScKey) : HomeOnly s (t.send src ctx wid pkg line b sc) := h.update id
theorem dedupLine (pkg line : Int) : HomeOnly s (Machine.dedupLine t pkg line) := h.update id

/-! ### Lines written at their homes -/

theorem homeWrite (pkg line : Int) (d : Store) (tag : Tag) : HomeOnly s (Machine.homeWrite t pkg line d tag) :=
  h.ite (h.update fun hm => Memory.wf_setTag (Memory.wf_setLine hm _ _ _) _ _ _)

theorem homeTake (pkg line : Int) (d : Store) (tag : Tag) (bad : Bool) : HomeOnly s (Machine.homeTake t pkg line d tag bad) :=
  ((h.homeWrite _ _ _ _).modMem (by exact fun _ hm => hm)).ite (h.homeWrite _ _ _ _)

theorem throughEntry (pkg line : Int) (dedup : Bool) : HomeOnly s (Machine.throughEntry t pkg line dedup) := h.bar.ite ((h.dedupLine _ _).ite h)

theorem landBack (r : Req) : HomeOnly s (Machine.landBack t r) := by
  unfold Machine.landBack
  split
  · refine HomeOnly.modReq ?_ _ _
    split
    · exact (h.homeTake _ _ _ _ _).throughEntry _ _ _
    · exact h
  · exact h

theorem putHome (own : Bool) (x : Nat × Nat × WLine) : HomeOnly s (Machine.putHome own t x) := by
  unfold Machine.putHome
  split
  · exact h
  · split
    · exact h
    · refine HomeOnly.modGang ?_ (by exact fun _ => ⟨rfl, id⟩) _
      exact (((h.scrub _ _).homeTake _ _ _ _ _).throughEntry _ _ _).ite h

theorem refreshFills (pkg line : Int) : HomeOnly s (Machine.refreshFills t pkg line) := by
  have land : ∀ (d : Store) (j : Nat) (l : List Nat), KeepsGang fun g => l.foldl (fun x i => x.landSector j i d) g := fun d j l =>
    l.rec (fun _ => ⟨rfl, id⟩) fun i _ ih g => ⟨(ih (g.landSector j i d)).1, fun hg => (ih _).2 (swf_landSector hg _ _ _)⟩
  have relay : ∀ {u : State} (g k j n : Nat) (d : Store), HomeOnly s u → HomeOnly s (u.modGang g fun x => match x.win? k with
      | some w => (upto n).foldl (fun x i => x.landSector (w.first + j) i d) x
      | none => x) := fun g k j n d hu => hu.modGang (fun x => by split; exacts [land _ _ _ x, ⟨rfl, id⟩]) _
  refine h.foldl (fun u r hu => ?_) _
  split
  · exact (relay _ _ _ _ _ hu).modReq _ _
  · exact (relay _ _ _ _ _ hu).modReq _ _
  · exact hu

theorem homePut (addr : Int) (n : Nat) (v : Int) : HomeOnly s (Machine.homePut t addr n v) :=
  h.ite ((h.update fun hm => Memory.wf_write hm _ _ _ _).refreshFills _ _)

/-! ### Recalls within a step -/

theorem pull {f : State → Nat × Nat × WLine → State} (hf : ∀ u x, HomeOnly s u → HomeOnly s (f u x)) (pkg line : Int) (own : Bool) :
    HomeOnly s (Machine.pull f t pkg line own) :=
  (HomeOnly.foldl (h.bar.ite h) (fun _ _ hu => hu.landBack _) _).foldl hf _

theorem walkVia {rc : State → Int → State} (hrc : ∀ u l, HomeOnly s u → HomeOnly s (rc u l)) (n : Int) (lv : Nat) (node : Int) :
    HomeOnly s (Machine.walkVia rc t n lv node) := by
  induction lv generalizing t node with
  | zero => exact hrc _ _ h
  | succ lv ih => exact (ih (hrc _ _ h) _).ite (hrc _ _ h)

theorem markCopy {rc : State → Int → State} (hrc : ∀ u l, HomeOnly s u → HomeOnly s (rc u l)) (x : Nat × Nat × WLine) : HomeOnly s (Machine.markCopy rc t x) := by
  unfold Machine.markCopy
  refine ((hrc _ _ h).homePut _ _ _).ite ?_
  split
  · exact hrc _ _ h
  · split
    · exact hrc _ _ h
    · have hw := (hrc t (x.2.2.leaf.place / 81) h).walkVia hrc
      dsimp only
      split
      · exact ((hw _ _ _).homePut _ _ _).ite (hw _ _ _)
      · exact hw _ _ _

theorem bringHome (n : Nat) (own : Bool) (x : Nat × Nat × WLine) : HomeOnly s (Machine.bringHome n own t x) := by
  induction n generalizing t own x with
  | zero => exact h.putHome _ _
  | succ n ih => exact ((h.markCopy (fun _ _ hu => hu.pull (fun _ _ hv => ih hv _ _) _ _ _) _).putHome _ _).ite (h.putHome _ _)

theorem dropFrame (pkg frame : Int) : HomeOnly s (Machine.dropFrame t pkg frame) := h.update id

theorem poisonFrames (pkg : Int) (fs : List Int) : HomeOnly s (Machine.poisonFrames t pkg fs) :=
  (h.modMem (by exact fun _ hm => hm)).foldl (fun _ _ hu => hu.dropFrame _ _) _

theorem loseLines (pkg : Int) (ls : List Int) : HomeOnly s (Machine.loseLines t pkg ls) := (h.modMem (by exact fun _ hm => hm)).poisonFrames _ _

theorem poisonImage (pkg line : Int) : HomeOnly s (Machine.poisonImage t pkg line) := (h.loseLines _ _).ite (h.update fun hm => hm)

theorem readHome (pkg line : Int) : HomeOnly s (Machine.readHome t pkg line) := by
  have hs : HomeOnly s (if (missing t pkg line).isEmpty && decide (81 ≤ missLoad t pkg line) then t.bar else t) := h.bar.ite h
  exact h.ite ((hs.poisonImage _ _).ite hs)

theorem recallNow (pkg line : Int) (own : Bool) : HomeOnly s (Machine.recallNow t pkg line own) :=
  (h.pull (fun _ _ hu => hu.bringHome _ _ _) _ _ _).readHome _ _

theorem deviceWrite (addr : Int) (n : Nat) (v : Int) : HomeOnly s (Machine.deviceWrite t addr n v) := h.ite ((h.recallNow _ _ _).homePut _ _ _)

/-! ### Walks and checks -/

theorem setPteBit (a : Int) (i : Nat) : HomeOnly s (Machine.setPteBit t a i) := ((h.recallNow _ _ _).homePut _ _ _).ite (h.recallNow _ _ _)

theorem loadTlb (core : Nat) (e : Tlb) : HomeOnly s (Machine.loadTlb t core e) := (h.modCore _ _).update id

theorem walkRecall (n : Int) (lv : Nat) (node : Int) : HomeOnly s (Machine.walkRecall t n lv node) := h.walkVia (fun _ _ hu => hu.recallNow _ _ _) _ _ _

theorem coldWalk (ctx : Nat) (n : Int) : HomeOnly s (Machine.coldWalk t ctx n).1 := h.walkRecall _ _ _

theorem keepNode (die ctx : Nat) (n : Int) (p : Nat × Int) : HomeOnly s (Machine.keepNode die ctx n t p) := h.ite ((h.update id).ite (h.update id))

theorem walk (core ctx : Nat) (n : Int) : HomeOnly s (Machine.walk t core ctx n).1 := by
  unfold Machine.walk
  dsimp only
  have hr := h.walkRecall n
  split
  · exact hr _ _
  · exact HomeOnly.foldl (HomeOnly.loadTlb (.ite (((hr _ _).setPteBit _ _).setPteBit _ _) ((hr _ _).setPteBit _ _)) _ _) (fun _ _ hu => hu.keepNode _ _ _ _) _

theorem leafFor (core ctx : Nat) (n : Int) : HomeOnly s (Machine.leafFor t core ctx n).1 := by
  unfold Machine.leafFor
  split
  · exact h
  · exact h.walk _ _ _

theorem forget (core ctx : Nat) (n : Int) : HomeOnly s (Machine.forget t core ctx n) := h.modCore _ _

theorem leafForWrite (core ctx : Nat) (n : Int) : HomeOnly s (Machine.leafForWrite t core ctx n).1 := by
  unfold Machine.leafForWrite
  split
  next e _ =>
    have hr : HomeOnly s (if pteBit e.leaf 44 = 1 then t else Machine.recallNow t t.pkg.number (e.entry / 81) false) := h.ite (h.recallNow _ _ _)
    generalize (if pteBit e.leaf 44 = 1 then t else Machine.recallNow t t.pkg.number (e.entry / 81) false) = u at hr
    dsimp only
    split
    · exact hr
    · exact (hr.forget _ _ _).walk _ _ _
  · exact h.walk _ _ _

theorem keepAts (ctx : Nat) (e : Int) : HomeOnly s (Machine.keepAts t ctx e) := h.ite (h.update id)

theorem checkAddr (core ctx : Nat) (sup : Bool) (nd : Need) (poison : Bool) (a : Int) : HomeOnly s (Machine.checkAddr t core ctx sup nd poison a).1 := by
  have hl : HomeOnly s (if nd.w then Machine.leafForWrite t core ctx (pageOf a) else Machine.leafFor t core ctx (pageOf a)).1 := by
    split
    · exact h.leafForWrite _ _ _
    · exact h.leafFor _ _ _
  unfold Machine.checkAddr
  split
  · exact h
  · split
    · exact h
    · split
      · exact h
      · dsimp only
        split
        · exact hl
        · dsimp only
          split
          · exact hl
          · exact hl.keepAts _ _

theorem checkAddrs (core ctx : Nat) (sup : Bool) (nd : Need) (poison : Bool) (l : List Int) : HomeOnly s (Machine.checkAddrs t core ctx sup nd poison l).1 := by
  induction l generalizing t with
  | nil => exact h
  | cons a l ih => exact ih (h.checkAddr _ _ _ _ _ _)

theorem markDirty (core : Nat) (place e : Int) : HomeOnly s (Machine.markDirty t core place e) := h.ite ((h.setPteBit _ _).modCore _ _)

theorem markLeaf (core ctx : Nat) (a : Int) (f : Leaf) (loc : Loc) : HomeOnly s (Machine.markLeaf t core ctx a f loc) := by
  have hr := h.recallNow t.pkg.number (f.place / 81) true
  refine h.ite ((hr.markDirty _ _ _).ite ?_)
  dsimp only
  split
  · exact (((hr.forget _ _ _).walk _ _ _).markDirty _ _ _).ite ((hr.forget _ _ _).walk _ _ _)
  · exact (hr.forget _ _ _).walk _ _ _

theorem markWalk (ctx : Nat) (a : Int) (loc : Loc) : HomeOnly s (Machine.markWalk t ctx a loc) := by
  unfold Machine.markWalk
  dsimp only
  split
  · exact ((h.coldWalk _ _).setPteBit _ _).ite (h.coldWalk _ _)
  · exact h.coldWalk _ _

theorem setDirty (core ctx : Nat) (a : Int) (loc : Loc) : HomeOnly s (Machine.setDirty t core ctx a loc) := by
  unfold Machine.setDirty
  split
  · exact h.markLeaf _ _ _ _ _
  · exact h.markWalk _ _ _

theorem setLeafDirty (core ctx : Nat) (a : Int) (f : Leaf) (loc : Loc) : HomeOnly s (Machine.setLeafDirty t core ctx a f loc) := h.ite (h.markLeaf _ _ _ _ _)

/-! ### Writes of the device's own -/

theorem evictLine (v : HeldLine) : HomeOnly s (Machine.evictLine t v) := h.ite ((h.send _ _ _ _ _ _ _).ite ((h.dedupLine _ _).ite h))

theorem install (pkg line : Int) (dirty : Bool) : HomeOnly s (Machine.install t pkg line dirty) := by
  have hn : HomeOnly s { t with nextId := t.nextId + 1 } := h.update id
  unfold Machine.install
  dsimp only
  split
  · exact hn.modHeld _ _ _
  · refine (hn.update id).ite ?_
    split
    · exact ((hn.update (fun hm => hm)).evictLine _).update id
    · exact hn

theorem unshare (ls : List (Int × Int)) : HomeOnly s (Machine.unshare t ls) := h.update id

theorem takeLines (ls : List (Int × Int)) : HomeOnly s (Machine.takeLines t ls) :=
  ((h.update fun hm => wf_foldl _ (fun _ _ hm => wf_materialise hm _ _) ls hm).unshare ls).foldl (fun _ _ hu => hu.install _ _ _) _

theorem roomNow (pkg line : Int) (n : Nat) : HomeOnly s (Machine.roomNow pkg line n t) := by
  induction n generalizing t with
  | zero => exact h
  | succ n ih =>
    unfold Machine.roomNow
    split
    · exact ih (h.pull (fun _ _ hu => hu.bringHome _ _ _) _ _ _)
    · exact h.bar.ite h

theorem takeNow (pkg line : Int) : HomeOnly s (Machine.takeNow t pkg line) :=
  (((h.recallNow _ _ _).foldl (fun _ _ hu => hu.recallNow _ _ _) _).foldl (fun _ _ hu => hu.roomNow _ _ _) _).takeLines _

theorem updateNow (l : Loc) (n : Nat) (f : Int → Int) : HomeOnly s (Machine.updateNow t l n f) := by
  have ht : HomeOnly s (match l with | .dom p a => Machine.takeNow t p (a / 81) | .host _ _ _ => t) := by
    split
    · exact h.takeNow _ _
    · exact h
  refine ht.ite ?_
  have hw := ht.modMem (f := fun m => m.writeLoc l n (f (m.rawAt l n))) fun m hm => Memory.wf_writeLoc hm _ _ _
  cases l with
  | dom p a => exact hw.refreshFills _ _
  | host _ _ _ => exact hw

theorem cwSet (core ctx : Nat) (sup : Bool) (a seq v : Int) : HomeOnly s (Machine.cwSet t core ctx sup a seq v) := by
  have hc := h.checkAddr core ctx sup Need.write true a
  refine h.ite ?_
  dsimp only
  split
  · exact (hc.setDirty _ _ _ _).updateNow _ _ _
  · exact hc.note _ _ _
  · exact hc

end

end HomeOnly

end Sys2Proof.Machine
end

section
/-! ## Certificates: units that fail and are fenced (R14, R20, R22, R158, R188, R224, R255, R290 to R294) -/

namespace Sys2Proof.Machine

open Sys2Proof Tern

/-! ### Gangs that are killed stay killed -/

namespace HomeOnly

section
variable {s t : State} (h : HomeOnly s t)
include h

theorem cwUpdate (x : Launch) (st : Option Int) (bits : List Nat) : HomeOnly s (Machine.cwUpdate t x st bits) := by
  have hw := h.coldWalk x.ctx (pageOf (dblAt x.words 24))
  unfold Machine.cwUpdate
  dsimp only
  split
  · exact hw
  · split
    · exact hw.updateNow _ _ _
    · exact hw.note _ _ _

theorem cwGang (gid : Nat) (st : Option Int) (bits : List Nat) : HomeOnly s (Machine.cwGang t gid st bits) := by
  unfold Machine.cwGang
  split
  · split
    · exact h.cwUpdate _ _ _
    · exact h
  · exact h

end

end HomeOnly

/-- A gang is killed, and none of its warps runs. -/
def State.dead (s : State) (gid : Nat) : Prop := (∃ g, s.gang? gid = some g ∧ g.killed = true) ∧ ∀ w ∈ s.warps, w.gid ≠ some gid

/-- The gangs keep their names and stay killed, and no warp joins a gang. -/
structure Outlives (s t : State) : Prop where
  gangs : ∀ gid g, s.gang? gid = some g → ∃ g', t.gang? gid = some g' ∧ (g.killed = true → g'.killed = true)
  warps : ∀ w ∈ t.warps, ∃ v ∈ s.warps, v.gid = w.gid

namespace Outlives

/-- The name and the state of a gang, read from the frames. -/
theorem gang?_frame (s : State) (gid : Nat) : (s.gang? gid).map Gang.frame = (s.gangs.map Gang.frame).find? fun p => p.1 == gid := by
  rw [List.find?_map]
  rfl

theorem of_frames {s t : State} (hg : t.gangs.map Gang.frame = s.gangs.map Gang.frame) (hw : ∀ w ∈ t.warps, ∃ v ∈ s.warps, v.gid = w.gid) : Outlives s t := by
  refine ⟨fun gid g h => ?_, hw⟩
  have hf := gang?_frame t gid
  rw [hg, ← gang?_frame, h, Option.map_some] at hf
  obtain ⟨g', hg', he⟩ := Option.map_eq_some_iff.1 hf
  exact ⟨g', hg', fun hk => (congrArg Prod.snd he).trans hk⟩

theorem refl (s : State) : Outlives s s := of_frames rfl fun w hw => ⟨w, hw, rfl⟩

theorem trans {s t u : State} (h : Outlives s t) (h' : Outlives t u) : Outlives s u := by
  refine ⟨fun gid g hg => ?_, fun w hw => ?_⟩
  · obtain ⟨g1, hg1, hk1⟩ := h.gangs gid g hg
    obtain ⟨g2, hg2, hk2⟩ := h'.gangs gid g1 hg1
    exact ⟨g2, hg2, hk2 ∘ hk1⟩
  · obtain ⟨v, hv, hvw⟩ := h'.warps w hw
    obtain ⟨x, hx, hxv⟩ := h.warps v hv
    exact ⟨x, hx, hxv.trans hvw⟩

theorem of_homeOnly {s t : State} (h : HomeOnly s t) : Outlives s t := of_frames h.frames fun w hw => ⟨w, h.warps ▸ hw, rfl⟩

theorem modWarp (s : State) (wid : Nat) {f : Warp → Warp} (hf : ∀ w, (f w).gid = w.gid) : Outlives s (s.modWarp wid f) :=
  of_frames rfl (forall_modFirst _ f (fun w => ∃ v ∈ s.warps, v.gid = w.gid) (fun w ⟨v, hv, h⟩ => ⟨v, hv, h.trans (hf w).symm⟩) fun w hw => ⟨w, hw, rfl⟩)

theorem note {s t : State} (h : Outlives s t) (c : Option Nat) (k : LogKind) (d : List Int) : Outlives s (t.note c k d) := ⟨h.gangs, h.warps⟩

theorem foldl {α : Type} {f : State → α → State} (hf : ∀ u x, Outlives u (f u x)) (l : List α) (s : State) : Outlives s (l.foldl f s) := by
  induction l generalizing s with
  | nil => exact refl s
  | cons x l ih => exact (hf s x).trans (ih _)

theorem enterTrap (s : State) (wid : Nat) (t : TrapReq) : Outlives s (s.enterTrap wid t) := by
  unfold State.enterTrap
  split
  · exact refl s
  · next w hw =>
    split
    · exact (modWarp s w.wid (by exact fun _ => rfl)).note _ _ _
    · exact modWarp s _ (by exact fun _ => rfl)

theorem breakChan (s : State) (ch : Nat) : Outlives s (Machine.breakChan s ch) := by
  unfold Machine.breakChan
  dsimp only
  refine trans (of_frames (t := s.modChan ch fun c => { c with broken := true }) rfl fun w hw => ⟨w, hw, rfl⟩) (foldl ?_ _ _)
  intro u w
  split
  · exact refl u
  · exact (modWarp u _ (by exact fun _ => rfl)).trans (enterTrap _ _ _)

/-- A killed gang without warps stays so. -/
theorem dead {s t : State} (h : Outlives s t) {gid : Nat} (hs : s.dead gid) : t.dead gid := by
  obtain ⟨⟨g, hg, hk⟩, hw⟩ := hs
  obtain ⟨g', hg', hk'⟩ := h.gangs gid g hg
  refine ⟨⟨g', hg', hk' hk⟩, fun w hw' => ?_⟩
  obtain ⟨v, hv, hvw⟩ := h.warps w hw'
  exact hvw ▸ hw v hv

/-- A gang changes into a killed one of its name, and its warps leave. -/
theorem of_kill {s u : State} {gid : Nat} {g : Gang} (f : Gang → Gang) (hg : s.gang? gid = some g) (hf : ∀ x, (f x).gid = x.gid ∧ (f x).killed = true)
    (hgangs : u.gangs = (s.modGang gid f).gangs) (hwarps : u.warps = s.warps.filter (fun w => !(w.gid == some gid))) : Outlives s u ∧ u.dead gid := by
  have hgang : ∀ i, u.gang? i = if i = gid then (s.gang? gid).map f else s.gang? i := fun i => by
    rw [State.gang?, hgangs]
    exact State.gang?_modGang s gid f (fun x => (hf x).1) i
  refine ⟨⟨fun i x hx => ?_, fun w hw => ⟨w, (List.mem_filter.1 (hwarps ▸ hw)).1, rfl⟩⟩, ⟨f g, ?_, (hf g).2⟩, fun w hw he => ?_⟩
  · rw [hgang]
    split
    · exact ⟨f g, by rw [hg]; rfl, fun _ => (hf g).2⟩
    · exact ⟨x, hx, id⟩
  · rw [hgang, if_pos rfl, hg]
    rfl
  · have hf := (List.mem_filter.1 (hwarps ▸ hw)).2
    simp [he] at hf

/-- What a completion word notes of a gang changes none. -/
theorem cwGang {s u : State} {gid : Nat} (h : Outlives s u ∧ u.dead gid) (bits : List Nat) :
    Outlives s (Machine.cwGang u gid none bits) ∧ (Machine.cwGang u gid none bits).dead gid := by
  have hu := Outlives.of_homeOnly ((HomeOnly.refl u).cwGang gid none bits)
  exact ⟨h.1.trans hu, hu.dead h.2⟩

theorem modLaunch {s u : State} {gid : Nat} (h : Outlives s u ∧ u.dead gid) (lid : Nat) (f : Launch → Launch) :
    Outlives s (u.modLaunch lid f) ∧ (u.modLaunch lid f).dead gid := ⟨⟨h.1.gangs, h.1.warps⟩, h.2⟩

end Outlives

/-- What killing a gang does to its own record. -/
def Gang.kill (again : Bool) (g : Gang) : Gang := { g with killed := true, reported := !again, tasks := [], wins := g.wins.map fun _ => none }

/-- The state in which a gang has been killed, before its launch notes it. -/
def State.killed (s : State) (gid : Nat) (again : Bool) : State :=
  let s3 := (clearWatch (dropWarps s fun w => w.gid == some gid) fun u => u.gid == some gid && u.scope != 1).modGang gid (Gang.kill again)
  { s3 with
    home := { s3.home with owned := s3.home.owned.filter fun o => match o.owner with
      | .task g' _ => g' != gid
      | .recv g' _ => g' != gid
      | .xducer _ => true },
    cores := s3.cores.map fun c => { c with binds := stopBinds gid c.binds } }

theorem killGang_eq {s : State} {gid : Nat} {g : Gang} (hg : s.gang? gid = some g) (page : Option Int) (tf : Option TaskF) : killGang s gid page tf =
    if relaunchable s g then (cwGang (s.killed gid true) gid none [14]).modLaunch g.lid fun x =>
      { x with again := x.again ++ [⟨g.x, g.y, g.z, g.relaunches + 1, page, tf⟩],
               table := x.table.filter fun e => !(e.1 == g.x && e.2.1 == g.y && e.2.2.1 == g.z) }
    else cwGang (s.killed gid false) gid none [11] := by
  unfold killGang
  simp only [hg]
  split
  · next h => rw [h]; rfl
  · next h => rw [eq_false_of_ne_true h]; rfl

/-- A gang is killed, and the others stay as they were. -/
theorem killGang_kills {s : State} {gid : Nat} {g : Gang} (hg : s.gang? gid = some g) (page : Option Int) (tf : Option TaskF) :
    Outlives s (killGang s gid page tf) ∧ (killGang s gid page tf).dead gid := by
  have hkill : ∀ again, Outlives s (s.killed gid again) ∧ (s.killed gid again).dead gid := fun again =>
    Outlives.of_kill (Gang.kill again) hg (fun _ => ⟨rfl, rfl⟩) rfl rfl
  rw [killGang_eq hg]
  split
  · exact Outlives.modLaunch (Outlives.cwGang (hkill true) _) _ _
  · exact Outlives.cwGang (hkill false) _

theorem Outlives.killGang (s : State) (gid : Nat) (page : Option Int) (tf : Option TaskF) : Outlives s (Machine.killGang s gid page tf) := by
  cases hg : s.gang? gid with
  | none =>
    rw [Machine.killGang, hg]
    exact .refl s
  | some g => exact (killGang_kills hg page tf).1

/-- The end of the steps on a core leaves the gangs. -/
theorem endSteps_gangs (s : State) (core : Nat) : (endSteps s core).gangs = s.gangs := by
  have hend : ∀ (u : State) iss n gd ws, (dbgEnd u iss n gd ws).gangs = u.gangs := fun u iss n gd ws => by
    cases iss <;> rfl
  have hends : ∀ (p : Nat → Bool) iss (ps : List Pend) (u : State), (ps.foldl (fun s p' => match p'.op with
      | .hstep x _ gd _ _ => if p x then dbgEnd s iss p'.n gd [dbgStatus (-3) 0 0, 0, 0] else s
      | _ => s) u).gangs = u.gangs := fun p iss ps => by
    induction ps with
    | nil => exact fun _ => rfl
    | cons q ps ih =>
      intro u
      rw [List.foldl_cons, ih]
      split
      · split
        · exact hend _ _ _ _ _
        · rfl
      · rfl
  have hall : ∀ (p : Nat → Bool) (ws : List Warp) (u : State), (ws.foldl (fun s w => w.pends.foldl (fun s p' => match p'.op with
      | .hstep x _ gd _ _ => if p x then dbgEnd s (some w.wid) p'.n gd [dbgStatus (-3) 0 0, 0, 0] else s
      | _ => s) s) u).gangs = u.gangs := fun p ws => by
    induction ws with
    | nil => exact fun _ => rfl
    | cons w ws ih => exact fun u => (ih _).trans (hends p _ _ u)
  exact (hends _ _ _ _).trans (hall _ _ _)

/-- Every gang that runs on a core is killed with it. -/
theorem killOn_kills {s : State} {core gid : Nat} {g : Gang} (hg : s.gang? gid = some g) (hcore : core ∈ g.cores) (hsaved : g.saved = false) (hkilled : g.killed = false) :
    (killOn s core).dead gid := by
  have hstep : ∀ (u : State) (x : Gang), Outlives u (match (killGang u x.gid none none).launch? x.lid with
      | some y => y.chans.foldl breakChan (killGang u x.gid none none)
      | none => killGang u x.gid none none) := fun u x => by
    have hk := Outlives.killGang u x.gid none none
    split
    · exact hk.trans (.foldl (fun v c => .breakChan v c) _ _)
    · exact hk
  have hmem : g ∈ s.gangs.filter fun g => !g.saved && !g.killed && g.cores.contains core :=
    List.mem_filter.2 ⟨List.mem_of_find?_eq_some hg, by simp [hsaved, hkilled, hcore]⟩
  obtain ⟨before, after, hsplit⟩ := List.append_of_mem hmem
  unfold killOn
  dsimp only
  rw [hsplit, List.foldl_append, List.foldl_cons]
  refine (Outlives.foldl hstep _ _).dead ?_
  obtain ⟨g1, hg1, -⟩ := (Outlives.foldl hstep before s).gangs gid g hg
  have hdead := (killGang_kills hg1 none none).2
  rw [gang?_gid hg]
  split
  · exact (Outlives.foldl (fun v c => .breakChan v c) _ _).dead hdead
  · exact hdead

/-- A fold no step of which changes the state. -/
theorem foldl_fixed {α β : Type} {f : β → α → β} {s : β} : ∀ {l : List α}, (∀ x ∈ l, f s x = s) → l.foldl f s = s
  | [], _ => rfl
  | x :: l, h => by rw [List.foldl_cons, h x List.mem_cons_self]; exact foldl_fixed fun y hy => h y (List.mem_cons_of_mem x hy)

/-- A core on which nothing runs is fenced. -/
theorem fenceCore_idle {s : State} {core : Nat} (hlive : s.coreLive core = true) (hgangs : ∀ g ∈ s.gangs, core ∉ g.cores) (hpends : ∀ w ∈ s.warps, w.pends = [])
    (hdwin : s.pkg.dwin = []) : fenceCore s core =
      (({ s with paddocks := s.paddocks.map fun d => { d with pairs := d.pairs.filter fun q => q != core / 2 } } : State).modPkg
        fun p => { p with deadCores := p.deadCores ++ [core] }).modCore core fun c => { Core.empty core with banks := c.banks, corrected := c.corrected } := by
  have hend : endSteps s core = s := by
    unfold endSteps
    dsimp only
    rw [foldl_fixed (s := s) (l := s.warps.filter fun w => w.coreNo != core), hdwin]
    · rfl
    · intro w hw
      rw [hpends w (List.mem_filter.1 hw).1]
      rfl
  have hkill : killOn s core = s := by
    have hnone : (s.gangs.filter fun g => !g.saved && !g.killed && g.cores.contains core) = [] :=
      List.filter_eq_nil_iff.2 fun g hg => by simp [hgangs g hg]
    simp only [killOn, hnone, List.foldl_nil]
  have hgo : (!s.coreLive core) = false := by rw [hlive]; rfl
  simp only [fenceCore, hgo, hend, hkill, Bool.false_eq_true, if_false]
  rfl

/-- A link whose loss isolates nothing is fenced, and no more. -/
theorem fenceLink_plain {s : State} {l : LinkId} (h : Rule.plainLink s l) : fenceLink s l = s.modPkg fun p => { p with deadLinks := p.deadLinks ++ [l] } := by
  unfold Rule.plainLink at h
  unfold fenceLink
  dsimp only at h ⊢
  split
  · next hk =>
    rw [if_pos hk] at h
    refine foldl_fixed fun d hd => ?_
    rw [h d (of_decide_eq_true (List.mem_filter.1 hd).2)]
    rfl
  · next hk =>
    rw [if_neg hk] at h
    refine foldl_fixed fun c _ => ?_
    rw [h c]
    rfl

/-- The banks of a core after one more has failed. -/
theorem markBank_banks (s : State) (core bank : Nat) : ((markBank s core bank).core core).banks = (s.core core).banks ++ [bank] := by
  have hcore : (markBank s core bank).core core = (s.modCore core fun c => { c with banks := c.banks ++ [bank] }).core core := rfl
  rw [hcore, State.core_modCore, if_pos rfl]
  exact fun _ => rfl

theorem poisonFrames_mem (s : State) (pkg : Int) (fs : List Int) :
    (poisonFrames s pkg fs).mem = { s.mem with frames := nodups (s.mem.frames ++ fs.map (frameKey pkg)) } := by
  have hdrop : ∀ (l : List Int) (u : State), (l.foldl (fun s f => dropFrame s pkg f) u).mem = u.mem := fun l => by
    induction l with
    | nil => exact fun _ => rfl
    | cons f l ih => exact fun u => ih _
  exact hdrop _ _

/-- Lost lines are uncorrectable, and what stands in memory stands. -/
theorem loseLines_spec (s : State) (pkg : Int) (ls : List Int) (l a : Int) (n : Nat) (hl : l ∈ ls) :
    (loseLines s pkg ls).mem.bad pkg l = true ∧ (loseLines s pkg ls).mem.read pkg a n = s.mem.read pkg a n := by
  unfold loseLines
  dsimp only
  rw [poisonFrames_mem]
  refine ⟨?_, rfl⟩
  have hmem : lineKey pkg l ∈ nodups (s.mem.poison ++ nodups (ls.map (lineKey pkg) ++ (ls.map (lineKey pkg)).flatMap (sharers s))) := by
    rw [mem_nodups, List.mem_append, mem_nodups, List.mem_append]
    exact .inr (.inl (List.mem_map_of_mem hl))
  simp [Memory.bad, State.modMem, hmem]

/-- Work moves with lines for which no request is under way. -/
theorem moveWork_idle {s : State} {moved : Int × Int → Bool} (h : ∀ r ∈ s.reqs, moved (r.pkg, r.line) = false) : moveWork s moved = { s with home := { s.home with
    held := s.home.held.filter (fun h => !moved (h.pkg, h.line)), mcasts := s.home.mcasts.filter fun e => !moved (e.pkg, e.line) } } := by
  have hnone : (s.reqs.filter fun r => moved (r.pkg, r.line)) = [] := List.filter_eq_nil_iff.2 fun r hr => by simp [h r hr]
  have hmap : (s.reqs.map fun r => if moved (r.pkg, r.line) && (r.stage == 1 || r.stage == 3 || r.stage == 4) then { r with stage := 0 } else r) = s.reqs :=
    (List.map_congr_left fun r hr => by rw [h r hr]; rfl).trans (List.map_id _)
  simp only [moveWork, hnone, List.foldl_nil, hmap]

theorem poisonFrames_barred (s : State) (pkg : Int) (fs : List Int) : (poisonFrames s pkg fs).barred = s.barred := by
  have hdrop : ∀ (l : List Int) (u : State), (l.foldl (fun s f => dropFrame s pkg f) u).barred = u.barred := fun l => by
    induction l with
    | nil => exact fun _ => rfl
    | cons f l ih => exact fun u => ih _
  exact hdrop _ _

section
variable {s : State} {homed : Int × Int → Bool} (hreqs : ∀ r ∈ s.reqs, homed (r.pkg, r.line) = false)
include hreqs

/-- With no copies and no requests, the newest data of a line stand at its home. -/
theorem newerOut_idle (hcopies : copiesAt s homed = []) {p : Int × Int} (hp : homed p = true) : newerOut s homed p = false := by
  have hany : (s.reqs.any fun r => (r.pkg, r.line) == p && match r.body with | .wback _ _ _ _ _ h _ => h | _ => false) = false := by
    rw [List.any_eq_false]
    intro r hr h
    have he : (r.pkg, r.line) = p := beq_iff_eq.1 (Bool.and_eq_true_iff.1 h).1
    exact absurd hp (by rw [← he, hreqs r hr]; decide)
  rw [newerOut, hcopies]
  exact hany

/-- The dirty lines that are lost are those that the slice holds. -/
theorem lost_idle (hcopies : copiesAt s homed = []) (readable : List Nat) :
    ((dirtyLines s homed).filter fun p => !readable.contains p.2.toNat && !newerOut s homed p).map (fun p => p.2) =
      (s.home.held.filter fun h => homed (h.pkg, h.line) && h.dirty && !readable.contains h.line.toNat).map fun h => h.line := by
  have hback : (s.reqs.filter fun r => homed (r.pkg, r.line) && match r.body with | .evict _ => true | _ => false) = [] :=
    List.filter_eq_nil_iff.2 fun r hr => by simp [hreqs r hr]
  have hdirty : dirtyLines s homed = (s.home.held.filter fun h => h.dirty && homed (h.pkg, h.line)).map fun h => (h.pkg, h.line) := by
    rw [dirtyLines]
    exact (congrArg (fun l : List Req => _ ++ l.map fun r => (r.pkg, r.line)) hback).trans (List.append_nil _)
  rw [hdirty, List.filter_map, List.map_map, List.filter_filter]
  refine congrArg (fun l => l.map fun h : HeldLine => h.line) (List.filter_congr fun h _ => ?_)
  cases hh : homed (h.pkg, h.line) with
  | false => simp
  | true => simp [newerOut_idle hreqs hcopies hh, Bool.and_comm]

end

/-- A slice without window copies or requests of its lines is fenced. -/
theorem fenceSlice_idle {s : State} {slice : Nat} (readable : List Nat) {homed : Int × Int → Bool} (hslice : slice < 256) (hlive : slice ∉ s.pkg.deadSlices)
    (hhomed : homed = fun p => p.1 == s.pkg.number && homeSlice s p.2 == slice) (hcopies : copiesAt s homed = [])
    (hreqs : ∀ r ∈ s.reqs, homed (r.pkg, r.line) = false) : fenceSlice s slice readable =
    (poisonFrames (loseLines { s with home := { s.home with
        held := s.home.held.filter (fun h => !homed (h.pkg, h.line)), rounds := s.home.rounds.filter (fun r => !homed (r.pkg, r.addr / 81)),
        mcasts := s.home.mcasts.filter fun e => !homed (e.pkg, e.line) } } s.pkg.number
      ((s.home.held.filter fun h => homed (h.pkg, h.line) && h.dirty && !readable.contains h.line.toNat).map fun h => h.line)) s.pkg.number
      ((s.home.rounds.filter fun r => homed (r.pkg, r.addr / 81)).map fun r => r.addr / 19683)).modPkg
        fun p => { p with deadSlices := p.deadSlices ++ [slice] } := by
  have hret : returnWindows s homed = s := by rw [returnWindows, hcopies]; rfl
  have hacc : ∀ p : Req → Bool, (∀ r, p r = true → homed (r.pkg, r.line) = true) → (s.reqs.filter p).foldl loseReq s = s := fun p hp => by
    rw [List.filter_eq_nil_iff.2 fun r hr h => absurd (hp r h) (by simp [hreqs r hr])]
    rfl
  have hbar : ∀ (u : State) (f : Package → Package) b, u.barred = b → ({ u.modPkg f with barred := b } : State) = u.modPkg f := fun u f b h => by rw [← h]; rfl
  have hgo : (decide (256 ≤ slice) || s.pkg.deadSlices.contains slice) = false := by simp [Nat.not_le.2 hslice, hlive]
  have hlost := lost_idle hreqs hcopies readable
  subst hhomed
  simp only [fenceSlice, hgo, Bool.false_eq_true, if_false, hret, hlost]
  rw [hacc _ fun r h => (Bool.and_eq_true_iff.1 h).1]
  refine hbar _ _ _ ?_
  rw [poisonFrames_barred, loseLines, poisonFrames_barred]
  rfl

/-- A link that stands is the one link of its list that does. -/
theorem standing_of_stands {s : State} {l : LinkId} (h : Rule.stands s l) : standing s [l] = [l] := by
  obtain ⟨hok, hlive⟩ := h
  simp [standing, hok, hlive, nodups]

/-- Settles O48: what each failing unit loses, and what goes on. -/
theorem unitsFailAndAreFenced : Obligations.UnitsFailAndAreFenced := by
  unfold Obligations.UnitsFailAndAreFenced
  refine ⟨fun s core gid g hlive hg hcore hsaved hkilled => ?_, fun s core hlive hgangs hpends hdwin => ?_, fun s die hdie => ?_, fun s core bank hcore hbank hnew hfew => ?_,
    fun s core bank hcore hbank hnew hmany => ?_, fun s core unit u hu => ?_, fun s l hl => ?_, fun s l hl => ?_, fun s l wid hl hnow hseq => ?_,
    fun s slice readable hslice hlive => ?_, fun s pkg ls l a n hl => ?_, fun s slice pc lost hslice hpc hlive => ?_, fun s l hpcs => ?_,
    fun s lane x hlane hlive hq => ?_, fun s hlive => ?_, fun s die h1 h4 hlive => ?_, fun s die gs hgs => ?_, fun s => rfl⟩
  · obtain ⟨hdead, hwarps⟩ : (killOn (endSteps s core) core).dead gid :=
      killOn_kills (by rw [State.gang?, endSteps_gangs]; exact hg) hcore hsaved hkilled
    obtain ⟨g', hg', hk'⟩ := hdead
    have hgo : (!s.coreLive core) = false := by rw [hlive]; rfl
    refine ⟨_, g', rfl, ?_, ?_, hk', ?_⟩
    · simp [fenceCore, hgo]
    · simpa [fenceCore, hgo, State.gang?] using hg'
    · simpa [fenceCore, hgo] using hwarps
  · intro t
    have hfence : fenceCore s core = t := fenceCore_idle hlive hgangs hpends hdwin
    exact ⟨congrArg _ hfence, congrArg _ hfence⟩
  · have hdie' : ¬ 12 ≤ die := by omega
    exact congrArg Host.Outcome.next (if_neg hdie')
  · refine congrArg Host.Outcome.next ?_
    have hgo : (decide (Config.cores ≤ core) || decide (27 ≤ bank) || (s.core core).banks.contains bank) = false := by simp [Config.cores, Nat.not_le.2 hcore, hbank, hnew]
    have hfew' : ¬ 3 ≤ (s.core core).banks.length + 1 := by omega
    simp only [hgo, markBank_banks, List.length_append, List.length_cons, List.length_nil, hfew', Bool.false_eq_true, if_false, Nat.zero_add]
    rfl
  · refine congrArg Host.Outcome.next ?_
    have hgo : (decide (Config.cores ≤ core) || decide (27 ≤ bank) || (s.core core).banks.contains bank) = false := by simp [Config.cores, Nat.not_le.2 hcore, hbank, hnew]
    have hmany' : 3 ≤ (s.core core).banks.length + 1 := by omega
    simp only [hgo, markBank_banks, List.length_append, List.length_cons, List.length_nil, hmany', Bool.false_eq_true, if_false, if_true, Nat.zero_add]
    rfl
  · refine congrArg Host.Outcome.next ?_
    simp only [hu]
  · refine congrArg Host.Outcome.next ?_
    rw [standing_of_stands hl]
    rfl
  · exact fenceLink_plain hl
  · refine congrArg Host.Outcome.next ?_
    simp only [hnow, ne_eq, not_true_eq_false, if_false, standing_of_stands hl, List.foldl_cons, List.foldl_nil, hseq]
  · intro homed hcopies hreqs
    refine congrArg Host.Outcome.next ?_
    exact fenceSlice_idle readable hslice hlive rfl hcopies hreqs
  · exact loseLines_spec s pkg ls l a n hl
  · intro mine hreqs
    refine congrArg Host.Outcome.next ?_
    have hgo : (decide (256 ≤ slice) || decide (4 ≤ pc) || s.pkg.deadPcs.contains (4 * slice + pc)) = false := by simp [Nat.not_le.2 hslice, Nat.not_le.2 hpc, hlive]
    have hmove := moveWork_idle (s := s) (moved := fun p => p.1 == s.pkg.number && mine p.2) fun r hr => by
      by_cases hp : r.pkg = s.pkg.number
      · simp [hp, hreqs r hr hp]
      · simp [hp]
    simp only [hgo, Bool.false_eq_true, if_false]
    exact congrArg (fun u => (loseLines u s.pkg.number ((lost.map fun (l : Nat) => (l : Int)).filter mine)).modPkg fun p => { p with deadPcs := p.deadPcs ++ [4 * slice + pc] }) hmove
  · simp only [standsIn, hpcs, List.contains_nil, liveSlice, Bool.false_eq_true, if_false]
  · refine congrArg Host.Outcome.next ?_
    have hgo : (decide (64 ≤ lane) || s.pkg.deadLanes.contains lane) = false := by simp [hlane, hlive]
    have hq' : ∀ f, laneQueue (s.modPkg f) lane = [x] := fun _ => hq
    simp only [fenceLane, hgo, hq', Bool.false_eq_true, if_false, List.foldl_cons, List.foldl_nil]
  · refine congrArg Host.Outcome.next ?_
    have hgo : (decide (4 ≤ 0) || s.pkg.deadDies.contains 0) = false := by simp [hlive]
    simp only [hgo, Bool.false_eq_true, if_false, if_true]
  · refine congrArg Host.Outcome.next ?_
    have hgo : (decide (4 ≤ die) || s.pkg.deadDies.contains die) = false := by simp [h4, hlive]
    have hne : die ≠ 0 := by omega
    simp only [hgo, hne, Bool.false_eq_true, if_false, dieLanes, List.foldl_map, List.isEmpty_iff] <;> rfl
  · rw [← hgs]
    refine congrArg (fun l : List Gang => l.foldl (fun s g => killGang s g.gid none none) s) (List.filter_congr fun g _ => ?_)
    cases s.launch? g.lid <;> rfl

end Sys2Proof.Machine
end

section
/-! ## Certificates: resets, secure boot, power (R265, R293, R335, R337, R338) -/

namespace Sys2Proof.Machine

open Sys2Proof Tern

/-! ### Memory that is cleared -/

/-- Every place of a package lies within its keys. -/
theorem ofPkg_memKey {pkg a : Int} (h0 : 0 ≤ a) (h : a < 2541865828329) : ofPkg pkg (memKey pkg a) = true := by
  have hspan : pkgSpan = 2541865828329 := by decide
  rw [ofPkg, decide_eq_true_eq, hspan]
  unfold memKey
  generalize (pkg + 364) * 2541865828329 = k
  omega

theorem read_clearPkg (m : Memory) (pkg : Int) {a : Int} (h0 : 0 ≤ a) (h : a < 2541865828329) : (m.clearPkg pkg).read pkg a 1 = 0 := by
  have hget : sget (m.data.filter fun p => !ofPkg pkg p.1) (memKey pkg a) = 0 := sget_filter_out fun v => by simp [ofPkg_memKey h0 h]
  show join 9 [sget (m.data.filter fun p => !ofPkg pkg p.1) (memKey pkg a)] = 0
  rw [hget]
  rfl

/-! ### Secure boot -/

/-- The boundary that a power-on reset fixes stands within the memory. -/
theorem bootBoundary_spec (n : Nat) : 1 ≤ bootBoundary n ∧ bootBoundary n ≤ Config.memoryLines := by
  have h : Config.reservedLines n % Config.memoryLines < Config.memoryLines := Nat.mod_lt _ (by decide)
  unfold bootBoundary
  omega


theorem imageFails_none {fused : Int} {i : BootImage} : imageFails fused i = none ↔ i.signed = true ∧ i.keyMatches = true ∧ fused ≤ (i.version : Int) := by
  unfold imageFails
  split_ifs <;> simp_all

theorem bootFails_none {fused : Int} {l : List BootImage} : bootFails fused l = none ↔ ∀ i, i < 5 → (bootImage l i).signed = true ∧ (bootImage l i).keyMatches = true ∧
    fused ≤ ((bootImage l i).version : Int) := by
  simp only [bootFails, List.findSome?_eq_none_iff, mem_upto, Option.map_eq_none_iff, imageFails_none]

/-- A boot that is accepted leaves the package before its start; one that is refused stops it with a detail from 1 to 19. -/
theorem bootPkg_spec (old : Package) (l : List BootImage) : (bootPkg old l).number = old.number ∧ (bootPkg old l).gtime = 0 ∧ (bootPkg old l).deadCores = [] ∧
    (bootFails old.security l = none → (bootPkg old l).st = 0) ∧
    (bootFails old.security l ≠ none → (bootPkg old l).st = -1 ∧ 1 ≤ (bootPkg old l).detail ∧ (bootPkg old l).detail ≤ 19) := by
  unfold bootPkg
  cases hb : bootFails old.security l with
  | none => exact ⟨rfl, rfl, rfl, fun _ => rfl, fun h => absurd rfl h⟩
  | some p =>
    refine ⟨rfl, rfl, rfl, ?_, fun _ => ⟨rfl, ?_, ?_⟩⟩
    · exact fun h => absurd h (by simp)
    · dsimp only
      omega
    · dsimp only
      omega

/-! ### Numbers after a warm reset (R265) -/

/-- The number above every entry of a list, and no less than a given one. -/
def nextAbove (l : List JEntry) (m : Int) : Int := l.foldl (fun m j => Max.max m (j.seq + 1)) m

theorem le_nextAbove (l : List JEntry) : ∀ m, m ≤ nextAbove l m ∧ ∀ j ∈ l, j.seq < nextAbove l m := by
  induction l with
  | nil => exact fun m => ⟨Int.le_refl m, fun j hj => absurd hj List.not_mem_nil⟩
  | cons x l ih =>
    intro m
    obtain ⟨hm, hl⟩ := ih (Max.max m (x.seq + 1))
    refine ⟨(le_max_left _ _).trans hm, fun j hj => ?_⟩
    rcases List.mem_cons.1 hj with rfl | hj
    · have hx : j.seq + 1 ≤ Max.max m (j.seq + 1) := le_max_right _ _
      exact Int.lt_of_add_one_le (hx.trans hm)
    · exact hl j hj

/-- A paddock after an update of a paddock. -/
theorem State.paddock_modPaddock (s : State) (n : Nat) (f : Paddock → Paddock) (hf : ∀ d, (f d).n = d.n) (m : Nat) :
    (s.modPaddock n f).paddock m = if m = n then f (s.paddock n) else s.paddock m := by
  unfold State.paddock State.modPaddock
  split
  · next ha =>
    by_cases h : m = n
    · subst h
      rw [if_pos rfl, find_modFirst (fun d : Paddock => d.n == m) f fun x => by rw [hf]]
      obtain ⟨x, hx⟩ := Option.isSome_iff_exists.1 (List.find?_isSome.2 (List.any_eq_true.1 ha))
      rw [hx]
      rfl
    · rw [if_neg h, find_modFirst_ne _ _ f]
      intro x hx
      obtain rfl := beq_iff_eq.1 hx
      simp [hf, Ne.symm h]
  · next ha =>
    have hn : s.paddocks.find? (fun d => d.n == n) = none := List.find?_eq_none.2 fun x hx hxn => ha (List.any_eq_true.2 ⟨x, hx, hxn⟩)
    by_cases h : m = n
    · subst h
      simp [List.find?_append, hn, hf, Paddock.start]
    · have he : ((f (Paddock.start n)).n == m) = false := by simp [hf, Paddock.start, Ne.symm h]
      simp [List.find?_append, he, h]

/-- The numbering of a paddock goes on in the new state. -/
def State.numberOn (s t : State) (n : Nat) : State :=
  if (s.paddock n).nextSeq = 0 then t else t.modPaddock n fun d => { d with nextSeq := nextAbove (journalOf s n) (s.paddock n).nextSeq }

theorem numberOn_rest (s : State) (l : List Nat) : ∀ t, ∃ ps, l.foldl s.numberOn t = { t with paddocks := ps } := by
  induction l with
  | nil => exact fun t => ⟨_, rfl⟩
  | cons n l ih =>
    intro t
    obtain ⟨ps, hps⟩ := ih (s.numberOn t n)
    rw [List.foldl_cons, hps]
    unfold State.numberOn State.modPaddock
    split
    · exact ⟨_, rfl⟩
    · split <;> exact ⟨_, rfl⟩

theorem numberOn_paddock (s t : State) {n : Nat} (h : (s.paddock n).nextSeq ≠ 0) (m : Nat) :
    ((s.numberOn t m).paddock n).nextSeq = if n = m then nextAbove (journalOf s n) (s.paddock n).nextSeq else (t.paddock n).nextSeq := by
  unfold State.numberOn
  by_cases hm : n = m
  · subst hm
    rw [if_neg h, State.paddock_modPaddock _ _ _ (by exact fun _ => rfl), if_pos rfl, if_pos rfl]
  · rw [if_neg hm]
    split
    · rfl
    · rw [State.paddock_modPaddock _ _ _ (by exact fun _ => rfl), if_neg hm]

/-- A warm reset without newer data in the slices, before the paddocks' numbers go on. -/
def State.warmed (s : State) (images : List BootImage) (bad : List Nat) : State :=
  { wiped (poisonLines s bad) (poisonLines s bad).mem { bootPkg s.pkg images with
      boundary := s.pkg.boundary, deadCores := s.pkg.deadCores, deadSlices := s.pkg.deadSlices, deadPcs := s.pkg.deadPcs,
      deadLanes := s.pkg.deadLanes, deadSeqs := s.pkg.deadSeqs, deadDies := s.pkg.deadDies, deadLinks := s.pkg.deadLinks } with
    journal := s.journal, home := { State.reset.home with dedup := s.home.dedup } }

theorem warmed_bad (s : State) (images : List BootImage) {bad : List Nat} {l : Nat} (hl : l ∈ bad) (hlt : l < Config.memoryLines) :
    (s.warmed images bad).mem.bad s.pkg.number l = true := by
  have hmem : lineKey s.pkg.number l ∈ (poisonLines s bad).mem.poison := by
    unfold poisonLines
    refine (mem_nodups _).2 (List.mem_append_left _ (List.mem_append_right _ (List.mem_map.2 ⟨l, List.mem_filter.2 ⟨hl, ?_⟩, rfl⟩)))
    exact decide_eq_true hlt
  show ((poisonLines s bad).mem.poison.contains _ || _) = true
  simp [hmem]

/-- A paddock that has numbered launches goes on above its entries. -/
theorem foldl_numberOn (s : State) {n : Nat} (h : (s.paddock n).nextSeq ≠ 0) {l : List Nat} (hn : n ∈ l) (t : State) :
    ((l.foldl s.numberOn t).paddock n).nextSeq = nextAbove (journalOf s n) (s.paddock n).nextSeq := by
  have hkeep : ∀ (l : List Nat) (t : State), (t.paddock n).nextSeq = nextAbove (journalOf s n) (s.paddock n).nextSeq →
      ((l.foldl s.numberOn t).paddock n).nextSeq = nextAbove (journalOf s n) (s.paddock n).nextSeq := fun l => by
    induction l with
    | nil => exact fun t ht => ht
    | cons m l ih =>
      intro t ht
      refine ih _ ?_
      rw [numberOn_paddock s t h m]
      split
      · rfl
      · exact ht
  obtain ⟨before, after, rfl⟩ := List.append_of_mem hn
  rw [List.foldl_append, List.foldl_cons]
  exact hkeep after _ ((numberOn_paddock s _ h n).trans (if_pos rfl))

/-! ### Power grants (R337) -/

/-- The die and the duty of a grant word. -/
theorem grantWord_fields {die duty : Nat} (t : Int) (hdie : die < 16) (hduty : duty ≤ 729) :
    (⟨grantWord die duty, t⟩ : Grant).die = die ∧ (⟨grantWord die duty, t⟩ : Grant).duty = duty := by
  have h23 : pow3 23 = 94143178827 := by decide
  have m23 : maxv 23 = 47071589413 := by decide
  have m4 : maxv 4 = 40 := by decide
  have m10 : maxv 10 = 29524 := by decide
  have hshr : shr (grantWord die duty) 23 = die := (shr_unique (r := duty) rfl (by rw [m23]; omega) (by rw [m23]; omega)).1
  have hlow : narrow (grantWord die duty) 10 = duty := by
    refine narrow_unique (by rw [m10]; omega) (by rw [m10]; omega) ⟨pow3 13 * die, ?_⟩
    rw [grantWord, ← mul_assoc, show pow3 10 * pow3 13 = pow3 23 by decide]
    ring
  constructor
  · show (narrow (shr (grantWord die duty) 23) 4).toNat = die
    rw [hshr, narrow_of_canon (by rw [m4]; omega) (by rw [m4]; omega), Int.toNat_natCast]
  · show (narrow (shr (grantWord die duty) 0) 10).toNat = duty
    rw [shr_zero, hlow, Int.toNat_natCast]

/-- Settles O49: resets, secure boot, power loss and power grants. -/
theorem resetsAndPower : Obligations.ResetsAndPower := by
  unfold Obligations.ResetsAndPower
  refine ⟨fun s images => ?_, fun fused images => bootFails_none, fun s images bad hheld hreqs => ?_, fun s => ?_, fun s duties hnow hgrant hlen hok => ?_,
    fun die duty t hdie hduty => ?_, fun s die g hg hdie hat => ?_⟩
  · obtain ⟨hnum, htime, hcores, hgood, hbad⟩ := bootPkg_spec s.pkg images
    refine ⟨_, rfl, rfl, rfl, rfl, rfl, rfl, rfl, htime, hcores, hnum, ?_, ?_, hgood, hbad, fun a h0 h => read_clearPkg _ _ h0 h⟩
    · exact (bootBoundary_spec s.fresh).1
    · exact (bootBoundary_spec s.fresh).2
  · have hclean : dirtyLines s (fun p => p.1 == s.pkg.number) = [] := by
      have hback : (s.reqs.filter fun r => r.pkg == s.pkg.number && match r.body with | .evict _ => true | _ => false) = [] :=
        List.filter_eq_nil_iff.2 fun r hr h => by
          cases hb : r.body with
          | evict d => exact hreqs r hr d hb
          | _ => simp [hb] at h
      have hclean : (s.home.held.filter fun h => h.dirty && h.pkg == s.pkg.number) = [] := List.filter_eq_nil_iff.2 fun h hh => by simp [hheld h hh]
      rw [dirtyLines, hclean]
      exact congrArg (fun l : List Req => [] ++ l.map fun r => (r.pkg, r.line)) hback
    have ht : exec (.warmReset images bad) s = .next ((upto 27).foldl s.numberOn (s.warmed images bad)) := congrArg Host.Outcome.next (by
      rw [hclean]
      rfl)
    obtain ⟨ps, hps⟩ := numberOn_rest s (upto 27) (s.warmed images bad)
    have hnext := fun n hn hseq => foldl_numberOn s (n := n) hseq (l := upto 27) hn (s.warmed images bad)
    rw [hps] at ht hnext
    refine ⟨_, ht, rfl, rfl, rfl, rfl, rfl, rfl, (bootPkg_spec s.pkg images).2.1, rfl, rfl, rfl, fun l hl hlt => warmed_bad s images hl hlt, fun n hn hseq => ?_⟩
    rw [hnext n (mem_upto.2 hn) hseq]
    exact le_nextAbove _ _
  · exact ⟨_, rfl, rfl, rfl, rfl, rfl, fun a h0 h => read_clearPkg _ _ h0 h⟩
  · have hgo : (decide (s.now % 72900 ≠ 0) || granting s || decide (duties.length ≠ 16)) = false := by simp [hnow, hgrant, hlen]
    have hall : ((List.zip (upto 16) duties).all fun p => grantOk s p.1 p.2) = true := by
      rw [List.all_eq_true]
      rintro ⟨d, v⟩ hp
      obtain ⟨i, hi, he⟩ := List.mem_iff_getElem.1 hp
      have h16 : i < 16 := by simp [upto] at hi; omega
      obtain ⟨rfl, rfl⟩ : i = d ∧ duties[i]'(by omega) = v := by simpa [upto] using he
      have h := hok i h16
      rwa [List.getD_eq_getElem _ _ (by omega)] at h
    refine ⟨({ s with fresh := s.fresh + 1 } : State).modPkg fun k =>
      { k with grants := (List.zip (upto 16) duties).map fun p => ⟨grantWord p.1 p.2, s.now + 9 * (p.1 : Int) + 81⟩ }, congrArg Host.Outcome.next ?_, ?_, fun d hd => ?_⟩
    · simp only [hgo, hall, Bool.not_true, Bool.false_eq_true, if_false]
    · simp [State.modPkg, upto, hlen]
    · have hlt : d < duties.length := by omega
      simp [State.modPkg, upto, hd, List.getD_eq_getElem?_getD, hlt]
  · exact grantWord_fields t hdie hduty
  · have hdue : (g.die == die && decide (g.at_ ≤ s.now)) = true := by simp [hdie, hat]
    refine ⟨s.modPkg fun k => { k with
      duty := (die, g.duty) :: k.duty.filter (fun p => p.1 != die), grants := k.grants.filter fun x => !(x.die == die && decide (x.at_ ≤ s.now)) },
      congrArg Host.Outcome.next ?_, ?_, ?_, fun d hd => ?_⟩
    · simp only [hg, List.find?_cons, hdue]
    · simp [dutyOf, State.modPkg]
    · simp [State.modPkg, hg, hdie, hat]
    · have hfind : (s.pkg.duty.filter fun p => p.1 != die).find? (fun p => p.1 == d) = s.pkg.duty.find? fun p => p.1 == d := by
        rw [List.find?_filter]
        refine List.find?_congr fun p _ => ?_
        by_cases hp : p.1 = d <;> simp [hp, hd]
      have hne : (die == d) = false := by simpa using Ne.symm hd
      simp only [dutyOf, State.modPkg, List.find?_cons, hne, hfind]

end Sys2Proof.Machine
end

section
/-! ## Certificates: peers and time-outs (R331, R332, R334, R383) -/

namespace Sys2Proof.Machine

open Sys2Proof Tern

/-- A peer that was live fails. -/
theorem failPeer_live {s : State} {p : Int} (hown : p ≠ s.pkg.number) (hlo : -364 ≤ p) (hhi : p ≤ 364) (hlive : p ∉ s.pkg.deadPeers) :
    failPeer s p = s.modPkg fun k => { k with deadPeers := k.deadPeers ++ [p], rerouting := true } := by
  have hgo : (decide (p = s.pkg.number) || !inR p (-364) 364 || s.pkg.deadPeers.contains p) = false := by simp [inR, hown, hlo, hhi, hlive]
  rw [failPeer, hgo]
  rfl

theorem failPeer_op? (s : State) (p : Int) (op : Nat) : (failPeer s p).op? op = s.op? op := by
  unfold failPeer
  split <;> rfl

/-- A load whose request has ended has its open reads as uncorrectable. -/
theorem capture_op? {s : State} {op : Nat} {items : List Nat} {f : LaneRead → Got} {o : LoadOp} (ho : s.op? op = some o)
    (hopen : ∀ i ∈ items, ∃ x, o.lanes[i]? = some x ∧ x.got = .waiting) :
    ∃ o', (capture s op items f).op? op = some o' ∧ ∀ i ∈ items, ∃ x, o'.lanes[i]? = some x ∧ ∃ y, x.got = f y := by
  refine ⟨{ o with lanes := modIdx (fun i x => if items.contains i && x.got == .waiting then { x with got := f x } else x) 0 o.lanes }, ?_, fun i hi => ?_⟩
  · refine (find_modFirst (fun x : LoadOp => x.id == op) _ ?_ s.ops).trans (congrArg (Option.map _) ho)
    exact fun _ => rfl
  · obtain ⟨x, hx, hgot⟩ := hopen i hi
    refine ⟨{ x with got := f x }, ?_, x, rfl⟩
    rw [modIdx_get, hx]
    simp [hi, hgot]

/-- Settles O50: remote time-outs, failed peers and lanes, new routes, duplicate numbers, completion timeouts. -/
theorem peersAndTimeouts : Obligations.PeersAndTimeouts := by
  unfold Obligations.PeersAndTimeouts
  refine ⟨fun s id r us hr hb hown hlo hhi hlate hlive hroute => ?_, fun s id r op items o hr hb hown hlo hhi hlate hroute ho hopen => ?_,
    fun s p hown hlo hhi hlive => congrArg Host.Outcome.next (failPeer_live hown hlo hhi hlive), fun s lane hlane hup => ?_, fun s => ?_, fun s hst => ?_,
    fun s wid w f hw hf hhost => ?_⟩
  · refine congrArg Host.Outcome.next ?_
    have h999 : r.pkg ≠ 999 := by omega
    have hgo : (decide (r.pkg = s.pkg.number) || decide (r.pkg = 999) || !true || decide (s.now - r.sent < 2700000) || (s.pkg.rerouting && !s.pkg.deadPeers.contains r.pkg)) =
        false := by simp [hown, h999, Int.not_lt.2 hlate, hroute]
    simp only [hr, hb, hgo, Bool.false_eq_true, if_false, endRemote]
    exact failPeer_live hown hlo hhi hlive
  · have h999 : r.pkg ≠ 999 := by omega
    have hgo : (decide (r.pkg = s.pkg.number) || decide (r.pkg = 999) || !true || decide (s.now - r.sent < 2700000) || (s.pkg.rerouting && !s.pkg.deadPeers.contains r.pkg)) =
        false := by
      cases hre : s.pkg.rerouting with
      | false => simp [hown, h999, Int.not_lt.2 hlate]
      | true => simp [hown, h999, Int.not_lt.2 hlate, hroute hre]
    obtain ⟨o', ho', hgot⟩ := capture_op? (f := fun x => .uncor (81 * (x.virt / 81))) ho hopen
    refine ⟨failPeer (endRemote s r) r.pkg, o', congrArg Host.Outcome.next ?_, ?_, fun i hi => ?_⟩
    · simp only [hr, hb, hgo, Bool.false_eq_true, if_false]
    · rw [failPeer_op?, endRemote, hb]
      simp only [loseReq, hb]
      exact ho'
    · obtain ⟨x, hx, y, hy⟩ := hgot i hi
      exact ⟨x, _, hx, hy⟩
  · intro s1
    refine congrArg Host.Outcome.next ?_
    have hgo : (decide (32 ≤ lane) || s.pkg.scaleDown.contains lane) = false := by simp [Nat.not_le.2 hlane, hup]
    have hlen : s1.pkg.scaleDown.length = s.pkg.scaleDown.length + 1 := by simp [s1, State.modPkg]
    have hiff : s1.pkg.scaleDown.length < 32 ↔ s.pkg.scaleDown.length < 31 := by omega
    simp only [laneDown, hgo, Bool.false_eq_true, if_false]
    exact if_congr hiff rfl rfl
  · refine congrArg Host.Outcome.next ?_
    simp only [Bool.and_eq_true, bne_iff_ne, Bool.not_eq_true', List.contains_eq_mem, decide_eq_false_iff_not, ne_eq, and_assoc]
  · refine congrArg Host.Outcome.next (if_neg ?_)
    omega
  · refine congrArg Host.Outcome.next ?_
    simp only [hw, hf, hhost, if_true]

end Sys2Proof.Machine
end

section
/-! ## Certificates: the commands of command programs (R150, R151, R168, R188, R216, R258, R264, R271) -/

namespace Sys2Proof.Machine

open Sys2Proof Tern

/-! ### What a line brought home leaves of the TLBs -/

/-- Every core's TLB is as it was. -/
def SameTlbs (s t : State) : Prop := ∀ n, (t.core n).tlb = (s.core n).tlb

namespace SameTlbs

section
variable {s t : State} (h : SameTlbs s t)
include h

/-- The same cores, other parts of the state aside. -/
theorem of_cores {u : State} (hu : u.cores = t.cores) : SameTlbs s u := fun n => by
  rw [← h n, State.core, hu, State.core]

theorem modCore {f : Core → Core} (hn : ∀ c, (f c).n = c.n) (hf : ∀ c, (f c).tlb = c.tlb) (k : Nat) : SameTlbs s (t.modCore k f) := fun n => by
  rw [State.core_modCore _ _ _ hn]
  split
  next hk => rw [hf, ← hk, h n]
  next => exact h n

theorem ite {c : Prop} [Decidable c] {u : State} (h' : SameTlbs s u) : SameTlbs s (if c then t else u) := by split <;> assumption

theorem foldl {α : Type} {f : State → α → State} (hf : ∀ u x, SameTlbs s u → SameTlbs s (f u x)) (l : List α) : SameTlbs s (l.foldl f t) := by
  induction l generalizing t with
  | nil => exact h
  | cons x l ih => exact ih (hf t x h)

theorem modReq (id : Nat) (f : Req → Req) : SameTlbs s (t.modReq id f) := h
theorem modGang (gid : Nat) (f : Gang → Gang) : SameTlbs s (t.modGang gid f) := h
theorem modMem (f : Memory → Memory) : SameTlbs s (t.modMem f) := h
theorem bar : SameTlbs s t.bar := h
theorem dedupLine (pkg line : Int) : SameTlbs s (Machine.dedupLine t pkg line) := h

theorem markBank (core bank : Nat) : SameTlbs s (Machine.markBank t core bank) :=
  of_cores (h.modCore (f := fun c => { c with banks := c.banks ++ [bank] }) (fun _ => rfl) (fun _ => rfl) core) rfl

theorem correctRow (p : Nat × Nat) : SameTlbs s (Machine.correctRow t p) := by
  unfold Machine.correctRow
  dsimp only
  split
  next x _ =>
    have hc := fun n => h.modCore (f := fun c => { c with symbols := c.symbols.filter (fun y => y != x), corrected := c.corrected + 1, streaks := [(x.2, n)] })
      (fun _ => rfl) (fun _ => rfl) p.1
    exact h.ite ((hc _).ite ((hc _).markBank _ _))
  next => exact h

theorem scrub (gid : Nat) (us : List (Int × Nat)) : SameTlbs s (Machine.scrub t gid us) := by
  unfold Machine.scrub
  split
  · exact h
  · exact h.ite (h.foldl (fun _ _ hu => hu.correctRow _) _)

theorem homeTake (pkg line : Int) (d : Store) (tag : Tag) (bad : Bool) : SameTlbs s (Machine.homeTake t pkg line d tag bad) := by
  have hw : SameTlbs s (homeWrite t pkg line d tag) := by
    unfold homeWrite
    split
    · exact h
    · exact h.of_cores rfl
  exact (hw.modMem _).ite hw

theorem throughEntry (pkg line : Int) (dedup : Bool) : SameTlbs s (Machine.throughEntry t pkg line dedup) :=
  h.bar.ite ((h.dedupLine _ _).ite h)

theorem landBack (r : Req) : SameTlbs s (Machine.landBack t r) := by
  unfold Machine.landBack
  split
  · refine SameTlbs.modReq ?_ _ _
    split
    · exact (h.homeTake _ _ _ _ _).throughEntry _ _ _
    · exact h
  · exact h

theorem putHome (own : Bool) (x : Nat × Nat × WLine) : SameTlbs s (Machine.putHome own t x) := by
  unfold Machine.putHome
  split
  · exact h
  · split
    · exact h
    · exact SameTlbs.modGang ((((h.scrub _ _).homeTake _ _ _ _ _).throughEntry _ _ _).ite h) _ _

theorem refreshFills (pkg line : Int) : SameTlbs s (Machine.refreshFills t pkg line) := by
  refine h.foldl (fun u r hu => ?_) _
  split
  · exact (hu.modGang _ _).modReq _ _
  · exact (hu.modGang _ _).modReq _ _
  · exact hu

theorem write (pkg a : Int) (n : Nat) (v : Int) (home : Home) : SameTlbs s { t with mem := t.mem.write pkg a n v, home := home } := h

theorem homePut (addr : Int) (n : Nat) (v : Int) : SameTlbs s (Machine.homePut t addr n v) := h.ite ((h.write _ _ _ _ _).refreshFills _ _)

theorem pull {f : State → Nat × Nat × WLine → State} (hf : ∀ u x, SameTlbs s u → SameTlbs s (f u x)) (pkg line : Int) (own : Bool) :
    SameTlbs s (Machine.pull f t pkg line own) :=
  (SameTlbs.foldl (h.bar.ite h) (fun _ _ hu => hu.landBack _) _).foldl hf _

theorem walkVia {rc : State → Int → State} (hrc : ∀ u l, SameTlbs s u → SameTlbs s (rc u l)) (n : Int) (lv : Nat) (node : Int) :
    SameTlbs s (Machine.walkVia rc t n lv node) := by
  induction lv generalizing t node with
  | zero => exact hrc _ _ h
  | succ lv ih => exact (ih (hrc _ _ h) _).ite (hrc _ _ h)

theorem markCopy {rc : State → Int → State} (hrc : ∀ u l, SameTlbs s u → SameTlbs s (rc u l)) (x : Nat × Nat × WLine) :
    SameTlbs s (Machine.markCopy rc t x) := by
  unfold Machine.markCopy
  refine ((hrc _ _ h).homePut _ _ _).ite ?_
  split
  · exact hrc _ _ h
  · split
    · exact hrc _ _ h
    · have hw := (hrc t (x.2.2.leaf.place / 81) h).walkVia hrc
      dsimp only
      split
      · exact ((hw _ _ _).homePut _ _ _).ite (hw _ _ _)
      · exact hw _ _ _

theorem bringHome (n : Nat) (own : Bool) (x : Nat × Nat × WLine) : SameTlbs s (Machine.bringHome n own t x) := by
  induction n generalizing t own x with
  | zero => exact h.putHome _ _
  | succ n ih => exact ((h.markCopy (fun _ _ hu => hu.pull (fun _ _ hv => ih hv _ _) _ _ _) _).putHome _ _).ite (h.putHome _ _)

end

end SameTlbs

/-- A part of each core after an update of every core's other parts. -/
theorem core_map (s : State) {f : Core → Core} (hn : ∀ c, (f c).n = c.n) (n : Nat) (hempty : f (Core.empty n) = Core.empty n) :
    ({ s with cores := s.cores.map f } : State).core n = f (s.core n) := by
  have hp : (fun c => c.n == n) ∘ f = fun c : Core => c.n == n := funext fun c => by simp [hn]
  simp only [State.core, List.find?_map, hp]
  cases s.cores.find? fun c => c.n == n with
  | none => exact hempty.symm
  | some c => rfl

/-- What an invalidation leaves of a TLB: nothing of the range (R150). -/
theorem invalidate_tlb (s : State) (ctx : Nat) (half first count : Int) (n : Nat) : ((invalidate s ctx half first count).core n).tlb =
    ((s.core n).tlb).filter fun t => !(t.ctx == ctx && t.half == half && groupMeets t.page (6 * t.level) first count) := by
  have hr : SameTlbs s (returnPages s ctx half first count) := SameTlbs.foldl (fun _ => rfl) (fun _ _ hu => hu.bringHome _ _ _) _
  let g := fun c : Core => { c with code := c.code.filter fun b => !(b.ctx == ctx && touchesPages half first count b.block) }
  let f := fun c : Core => { c with tlb := c.tlb.filter fun t => !(t.ctx == ctx && t.half == half && groupMeets t.page (6 * t.level) first count) }
  have hg : (invalidate s ctx half first count).core n = g ((dropTlb (returnPages s ctx half first count) ctx half first count).core n) :=
    core_map (dropTlb (returnPages s ctx half first count) ctx half first count) (f := g) (fun _ => rfl) n rfl
  have hf : (dropTlb (returnPages s ctx half first count) ctx half first count).core n = f ((returnPages s ctx half first count).core n) :=
    core_map (returnPages s ctx half first count) (f := f) (fun _ => rfl) n rfl
  rw [hg, hf]
  exact congrArg (List.filter _) (hr n)

/-! ### Commands -/

/-- A command whose fields pass, and which completes at once, has its effect. -/
theorem commandEvent_done {s s1 t : State} {pad ctx : Nat} {r : List Int} (hrun : (s.paddock 0).running = some ctx)
    (hf : commandFields s 768 ctx pad r = (s1, none)) (hp : performCommand s1 768 ctx pad r = .done t) : commandEvent s pad r = t := by
  simp only [commandEvent, hrun, command, hf, Bool.not_true, Bool.false_and, Bool.false_eq_true, if_false, hp]

theorem commandRecord_kind {k : Int} (ws : List Int) (hlo : -13 ≤ k) (hhi : k ≤ 13) : field (wordAt (commandRecord k ws) 0) 26 24 = k := by
  have hs : shr (k * pow3 24) 24 = k := (shr_unique (r := 0) (by ring) (by decide) (by decide)).1
  show narrow (shr (k * pow3 24) 24) 3 = k
  rw [hs]
  exact narrow_of_canon hlo hhi

theorem lowestCharge_none {l : List Charge} (h : ∀ c ∈ l, c.2 = false) : lowestCharge l = none := by
  have : l.filter (fun c => c.2) = [] := List.filter_eq_nil_iff.2 fun c hc => by simp [h c hc]
  rw [lowestCharge, this]
  rfl

theorem unbindContext_ctxs (s : State) (c : Context) : (unbindContext s c).ctxs = s.ctxs.filter fun x => x.ctx != c.ctx := by
  rw [unbindContext, State.modPaddock]
  split <;> rfl

theorem unbindContext_warps (s : State) (c : Context) : (unbindContext s c).warps = s.warps.filter fun w => !(w.gid.isNone && w.ctx == c.ctx) := by
  rw [unbindContext, State.modPaddock]
  split <;> rfl

theorem inR_of {x lo hi : Int} (hlo : lo ≤ x) (hhi : x ≤ hi) : inR x lo hi = true := by simp [inR, hlo, hhi]

/-- Settles O51: what the commands do as they take effect. -/
theorem commandsTakeEffect : Obligations.CommandsTakeEffect := by
  unfold Obligations.CommandsTakeEffect
  refine ⟨fun s half first count desc c k hrun hhalf hcount hf1 hf2 hd1 hd2 hc hw => ?_, fun s ctx half first count hw => ?_,
    fun s ctx half first count ws hw hne => ?_, fun s ctx half first count n t ht => ?_, fun s ctx key => ?_,
    fun s ctx addr tag s1 p x ha1 ha2 h3 hchk hchk2 => ?_, fun s pad seq k x ch ctx hrun hx hch => ?_,
    fun s pad desc ctx s1 d s2 d2 hrun hpad hd1 hd2 hr hok hr2 => ?_, fun s pad desc d hnew hpad hj => ?_,
    fun s pad lo hi ctx hrun hpad hlo hhi hok => ?_, fun s pad desc c ctx hrun hpad hd1 hd2 hc hl => ?_⟩
  · have hkind : field (wordAt (commandRecord (-1) [half, lowWord first, highWord first, count, lowWord desc, highWord desc]) 0) 26 24 = -1 := commandRecord_kind _ (by decide) (by decide)
    have hdesc : dblAt (commandRecord (-1) [half, lowWord first, highWord first, count, lowWord desc, highWord desc]) 5 = desc := double_low_high hd1 hd2
    have hfirst : dblAt (commandRecord (-1) [half, lowWord first, highWord first, count, lowWord desc, highWord desc]) 2 = first := double_low_high hf1 hf2
    have h1 : wordAt (commandRecord (-1) [half, lowWord first, highWord first, count, lowWord desc, highWord desc]) 1 = half := rfl
    have h4 : wordAt (commandRecord (-1) [half, lowWord first, highWord first, count, lowWord desc, highWord desc]) 4 = count := rfl
    refine congrArg Host.Outcome.next (commandEvent_done hrun (s1 := s) ?_ ?_)
    · rw [commandFields, hkind, if_pos rfl, hdesc, h1, h4, hc]
      refine congrArg (Prod.mk s) (lowestCharge_none ?_)
      rcases hhalf with rfl | rfl <;> simp [Int.not_lt.2 hcount]
    · simp only [performCommand, hkind, if_true, hdesc, hc, hfirst, h1, h4, hw, List.isEmpty_nil]
  · simp only [exec, execAtsInvalidation, hw, List.isEmpty_nil, if_true]
  · have he : ws.isEmpty = false := by simpa using hne
    simp only [exec, execAtsInvalidation, hw, he, Bool.false_eq_true, if_false]
    rfl
  · rw [invalidate_tlb, List.mem_filter] at ht
    obtain ⟨hmem, hout⟩ := ht
    refine ⟨hmem, fun ⟨hc, hh, h1, h2⟩ => ?_⟩
    simp [hc, hh, groupMeets, h1, h2] at hout
  · refine ⟨_, rfl, fun h hh => ?_, List.length_map _, rfl, rfl⟩
    obtain ⟨h0, -, rfl⟩ := List.mem_map.1 hh
    split
    · simp
    · assumption
  · have hkind : field (wordAt (commandRecord (-3) [lowWord addr, highWord addr, tag]) 0) 26 24 = -3 := commandRecord_kind _ (by decide) (by decide)
    have ha : dblAt (commandRecord (-3) [lowWord addr, highWord addr, tag]) 1 = addr := double_low_high ha1 ha2
    have h3' : wordAt (commandRecord (-3) [lowWord addr, highWord addr, tag]) 3 = tag := rfl
    have hf : commandFields s 768 ctx 0 (commandRecord (-3) [lowWord addr, highWord addr, tag]) = (s1, none) := by
      rw [commandFields, hkind]
      simp only [ha, hchk]
      simp [h3, lowestCharge]
    simp only [exec, execRoundDiscard, command, hf, Bool.not_true, Bool.false_and, Bool.false_eq_true, if_false, performCommand, hkind, discardRound, ha, hchk2, h3']
    rfl
  · have hkind : field (wordAt (commandRecord (-4) [seq, k]) 0) 26 24 = -4 := commandRecord_kind _ (by decide) (by decide)
    have h1 : wordAt (commandRecord (-4) [seq, k]) 1 = seq := rfl
    have h2 : wordAt (commandRecord (-4) [seq, k]) 2 = k := rfl
    have hk : k < x.chans.length := (List.getElem?_eq_some_iff.1 hch).1
    refine congrArg Host.Outcome.next (commandEvent_done (s1 := s) hrun ?_ ?_)
    · rw [commandFields, hkind]
      simp only [h1, h2, hx]
      rw [inR_of (by omega) (by omega)]
      rfl
    · simp only [performCommand, hkind, h1, h2, hx, resetChan, Int.toNat_natCast, hch]
      rfl
  · have hkind : field (wordAt (commandRecord 2 [pad, lowWord desc, highWord desc]) 0) 26 24 = 2 := commandRecord_kind _ (by decide) (by decide)
    have h1 : wordAt (commandRecord 2 [pad, lowWord desc, highWord desc]) 1 = pad := rfl
    have h2 : dblAt (commandRecord 2 [pad, lowWord desc, highWord desc]) 2 = desc := double_low_high hd1 hd2
    refine congrArg Host.Outcome.next (commandEvent_done (s1 := s1) hrun ?_ ?_)
    · rw [commandFields, hkind]
      simp only [h1, h2, hr]
      rw [inR_of (by omega) (by omega), Int.toNat_natCast, hok]
      rfl
    · simp only [performCommand, hkind, h1, h2, hr2, Int.toNat_natCast]
      rfl
  · have hj' : (s.journal.filter fun e => e.paddock == pad && e.desc == desc && !(s.launches.any fun x => x.paddock == pad && x.seq == e.seq)) = [] :=
      List.filter_eq_nil_iff.2 fun e he => by simp [hj e he]
    simp only [bindContext, hnew, if_neg hpad, hj', List.foldl_nil]
  · have hkind : field (wordAt (commandRecord 3 [pad, lo, hi]) 0) 26 24 = 3 := commandRecord_kind _ (by decide) (by decide)
    have h1 : wordAt (commandRecord 3 [pad, lo, hi]) 1 = pad := rfl
    have h2 : wordAt (commandRecord 3 [pad, lo, hi]) 2 = lo := rfl
    have h3 : wordAt (commandRecord 3 [pad, lo, hi]) 3 = hi := rfl
    refine congrArg Host.Outcome.next (commandEvent_done (s1 := s) hrun ?_ ?_)
    · rw [commandFields, hkind]
      simp only [h1, h2, h3, Int.toNat_natCast]
      rw [inR_of (x := pad) (by omega) (by omega), inR_of (x := lo) (by omega) (by omega), inR_of (x := hi) (by omega) (by omega),
        inR_of (x := hi) (by omega) (by omega), hok]
      rfl
    · simp only [performCommand, hkind, h1, h2, h3, Int.toNat_natCast]
      rfl
  · have hkind : field (wordAt (commandRecord 4 [pad, lowWord desc, highWord desc]) 0) 26 24 = 4 := commandRecord_kind _ (by decide) (by decide)
    have h1 : wordAt (commandRecord 4 [pad, lowWord desc, highWord desc]) 1 = pad := rfl
    have h2 : dblAt (commandRecord 4 [pad, lowWord desc, highWord desc]) 2 = desc := double_low_high hd1 hd2
    refine ⟨congrArg Host.Outcome.next (commandEvent_done (s1 := s) hrun ?_ ?_), fun c' hc' => ?_, fun w hw hg => ?_⟩
    · have hany : (s.ctxs.any fun c => (c.paddock : Int) == (pad : Int) && c.desc == desc) = true :=
        List.any_eq_true.2 ⟨c, List.mem_of_find?_eq_some hc, List.find?_some (p := fun c : Context => (c.paddock : Int) == (pad : Int) && c.desc == desc) hc⟩
      rw [commandFields, hkind]
      simp only [h1, h2, hany]
      rw [inR_of (by omega) (by omega)]
      rfl
    · have hnone : (s.launches.any fun x => x.ctx == c.ctx) = false := List.any_eq_false.2 fun x hx => by simp [hl x hx]
      simp only [performCommand, hkind, h1, h2, hc, hnone]
      rfl
    · rw [unbindContext_ctxs] at hc'
      simpa using (List.mem_filter.1 hc').2
    · rw [unbindContext_warps] at hw
      simpa [hg] using (List.mem_filter.1 hw).2

end Sys2Proof.Machine
end

section
/-! ## Certificates: the mailbox, the report and the debug window (R10, R311, R326, R329 to R331, R335, R336) -/

namespace Sys2Proof.Machine

open Sys2Proof Tern

/-! ### The mailbox -/

/-- An idle mailbox runs the operation that the host stages, and answers it. -/
theorem mailboxEvent_idle {s t : State} {ws : List Int} {a : Int} (hidle : Rule.mailboxIdle s)
    (hop : mailboxOp (Rule.staged s ws) (Rule.staged s ws).pkg.mailbox = (t, a)) : mailboxEvent s ws = Rule.answered t a := by
  rw [mailboxEvent, if_neg hidle]
  exact congrArg (fun q : State × Int => Rule.answered q.1 q.2) hop

section
variable {s : State} {w : List Int}

theorem mailboxOp_number (h0 : wordAt w 0 = 1) (hst : s.pkg.st = 0) (hnum : s.pkg.numbered = false) (h1 : inR (wordAt w 1) (-364) 364 = true) :
    mailboxOp s w = (setNumber s (wordAt w 1), 0) := by
  simp only [mailboxOp, h0, hst, hnum, h1]
  rfl

/-- The number stands once it is set, and once the package is started (log entry 113). -/
theorem mailboxOp_number_late (h0 : wordAt w 0 = 1) (hlate : s.pkg.st ≠ 0 ∨ s.pkg.numbered = true) : mailboxOp s w = (s, -2) := by
  have h : (decide (s.pkg.st ≠ 0) || s.pkg.numbered) = true := by simpa using hlate
  rw [mailboxOp, h0]
  exact (if_pos rfl).trans (if_pos h)

theorem mailboxOp_start {d : List Int} (h0 : wordAt w 0 = 2) (hst : s.pkg.st = 0) (hdet : s.pkg.detail ≠ 20) (hnum : s.pkg.numbered = true)
    (hd : localDesc s (dblAt w 3) = some d) (hok : descOk 0 d = true) : mailboxOp s w = (startZero s (dblAt w 1) (dblAt w 3) d, 0) := by
  have h : (decide (s.pkg.st ≠ 0) || decide (s.pkg.detail = 20) || !s.pkg.numbered) = false := by simp [hst, hdet, hnum]
  simp only [mailboxOp, h0, h, hd, hok]
  rfl

theorem mailboxOp_vf (h0 : wordAt w 0 = 3) (hst : s.pkg.st = 1) (h1 : inR (wordAt w 1) 1 27 = true) (hctx : (ctxOfDesc s (dblAt w 2)).isSome = true)
    (hcan : canonicalAddr (dblAt w 4) = true) (hal : dblAt w 4 % 81 = 0) : mailboxOp s w = (s.modPkg fun p =>
      { p with vfs := p.vfs.filter (fun v => (v.n : Int) != wordAt w 1) ++ [⟨(wordAt w 1).toNat, dblAt w 2, dblAt w 4⟩] }, 0) := by
  have h : (!inR (wordAt w 1) 1 27 || (ctxOfDesc s (dblAt w 2)).isNone || !canonicalAddr (dblAt w 4) || decide (dblAt w 4 % 81 ≠ 0)) = false := by
    rw [← Option.not_isSome]
    simp [h1, hctx, hcan, hal]
  simp only [mailboxOp, h0, hst, h]
  rfl

theorem mailboxOp_frame (h0 : wordAt w 0 = 4) (hst : s.pkg.st = 1) (hpos : 0 ≤ dblAt w 1) (hline : 243 * dblAt w 1 + 242 < s.pkg.boundary) :
    mailboxOp s w = (freeFrame s (dblAt w 1), 0) := by
  have hl : localLine s (243 * dblAt w 1 + 242) = true := decide_eq_true ⟨by omega, hline⟩
  have h : (decide (dblAt w 1 < 0) || !localLine s (243 * dblAt w 1 + 242)) = false := by simp [hl, hpos]
  simp only [mailboxOp, h0, hst, h]
  rfl

theorem mailboxOp_ceiling (h0 : wordAt w 0 = 5) (hst : s.pkg.st ≠ -1) (h1 : inR (wordAt w 1) 0 3600 = true) :
    mailboxOp s w = (s.modPkg fun p => { p with ceiling := wordAt w 1 }, 0) := by
  simp only [mailboxOp, h0, hst, h1]
  rfl

theorem mailboxOp_attest (h0 : wordAt w 0 = 6) (hst : s.pkg.st = 1) (hal : dblAt w 5 % 81 = 0) (hpos : 0 < dblAt w 5)
    (hline : dblAt w 5 / 81 + 7 < s.pkg.boundary) : mailboxOp s w =
      (writeReport (s.modPkg fun p => { p with report := signedReport s [wordAt w 1, wordAt w 2, wordAt w 3, wordAt w 4] }) (dblAt w 5)
        (signedReport s [wordAt w 1, wordAt w 2, wordAt w 3, wordAt w 4]), 0) := by
  have hl : localLine s (dblAt w 5 / 81 + 7) = true := decide_eq_true ⟨by omega, hline⟩
  have h : (decide (dblAt w 5 % 81 ≠ 0) || decide (dblAt w 5 ≤ 0) || !localLine s (dblAt w 5 / 81 + 7)) = false := by simp [hal, hpos, hl]
  simp only [mailboxOp, h0, hst, h]
  rfl

end

/-! ### Sequencer 0 -/

/-- The system channels alone change. -/
theorem setSysChans_keeps (s : State) (d : List Int) : (setSysChans s none d).ctxs = s.ctxs ∧ (setSysChans s none d).warps = s.warps ∧
    (setSysChans s none d).pkg = s.pkg ∧ (setSysChans s none d).journal = s.journal := by
  simp only [setSysChans, List.foldl_cons, List.foldl_nil, Bool.false_eq_true, if_false, and_self]

theorem modPaddock_eq (s : State) (n : Nat) (f : Paddock → Paddock) : ∃ ps, s.modPaddock n f = { s with paddocks := ps } := by
  rw [State.modPaddock]
  split
  · exact ⟨_, rfl⟩
  · exact ⟨_, rfl⟩

/-- What the first context of a package, bound to paddock 0, leaves. -/
theorem bindContext_first {s : State} {desc : Int} {d : List Int} (hc : s.ctxs = []) (hj : s.journal = []) :
    (bindContext s 0 desc d).ctxs = [⟨s.nextId, desc, d, 0, none, false, false⟩] ∧ (bindContext s 0 desc d).warps = s.warps ∧
      (bindContext s 0 desc d).pkg = s.pkg := by
  simp only [bindContext, hc, List.find?_nil, if_true, (setSysChans_keeps _ _).1, (setSysChans_keeps _ _).2.1, (setSysChans_keeps _ _).2.2.1,
    (setSysChans_keeps _ _).2.2.2, hj, List.filter_nil, List.foldl_nil, List.nil_append, and_self]

/-- The first switch of the only context of a package starts its sequencer. -/
theorem switchIn_first {s : State} {c : Context} (hc : s.ctxs = [c]) (hw : s.warps = []) (hseq : 0 ∉ s.pkg.deadSeqs) (hnew : c.seqWid = none) :
    (switchIn s 0 c).ctxs = [{ c with seqWid := some s.nextId }] ∧ (switchIn s 0 c).pkg = s.pkg ∧ ((switchIn s 0 c).paddock 0).running = some c.ctx ∧
      (switchIn s 0 c).warps = [newWarp s.nextId none c.ctx 0 (.seq 0) 0 1 0 (dblAt c.words 19) (ssets [] 0 ([wordAt c.words 21, wordAt c.words 22].map lowWord))] := by
  have hlive : s.pkg.deadSeqs.contains 0 = false := by simpa using hseq
  have hrun := State.paddock_modPaddock s 0 (fun p => { p with running := some c.ctx, sliceStart := s.now, pausing := false }) (fun _ => rfl) 0
  obtain ⟨ps, hps⟩ := modPaddock_eq s 0 fun p => { p with running := some c.ctx, sliceStart := s.now, pausing := false }
  rw [hps, if_pos rfl] at hrun
  simp only [switchIn, hps, hlive, Bool.false_eq_true, if_false, hnew, hw, List.nil_append, State.modContext, hc, modFirst, beq_self_eq_true, if_true]
  exact ⟨trivial, trivial, congrArg Paddock.running hrun, trivial⟩

/-- The start of sequencer 0 in a package that had no context. -/
theorem startZero_first {s : State} {entry desc : Int} {d : List Int} (hc : s.ctxs = []) (hj : s.journal = []) (hw : s.warps = [])
    (hseq : 0 ∉ s.pkg.deadSeqs) : ∃ w c, (startZero s entry desc d).pkg.st = 1 ∧ (startZero s entry desc d).ctxs = [c] ∧ c.desc = desc ∧ c.paddock = 0 ∧
      ((startZero s entry desc d).paddock 0).running = some c.ctx ∧ (startZero s entry desc d).warps = [w] ∧ w.place = .seq 0 ∧ w.level = 1 ∧
      ∀ l, l < 27 → (w.lane l).pc = entry := by
  obtain ⟨hbc, hbw, hbp⟩ := bindContext_first (desc := desc) (d := d) hc hj
  obtain ⟨hsc, hsp, hsr, hsw⟩ := switchIn_first hbc (hbw.trans hw) (by rwa [hbp]) rfl
  simp only [startZero, hbc, List.find?_cons, beq_self_eq_true, Bool.and_self, State.context?, State.modPkg_ctxs, hsc, Option.bind_some]
  refine ⟨_, _, rfl, hsc, rfl, rfl, hsr, (congrArg (modFirst _ _) hsw).trans (if_pos (beq_self_eq_true _)), ?_⟩
  refine ⟨rfl, rfl, fun l hl => ?_⟩
  rw [Warp.lane, List.getD_eq_getElem?_getD, List.getElem?_replicate, if_pos hl]
  rfl

/-! ### Frames released -/

theorem refreshFills_mem (s : State) (pkg line : Int) : (refreshFills s pkg line).mem = s.mem := by
  refine foldl_keeps _ State.mem (fun u r => ?_) _ s
  split <;> rfl

theorem foldl_refreshFills_mem (pkg : Int) (ls : List Int) (s : State) : (ls.foldl (fun s l => refreshFills s pkg l) s).mem = s.mem :=
  foldl_keeps _ State.mem (fun u l => refreshFills_mem u pkg l) ls s

/-- A line of zeros with the plain tag. -/
def clearLine (me : Int) (m : Memory) (l : Int) : Memory := (m.setLine me l []).setTag me l Tag.plain

/-- What lines cleared leave at a key: what stood there, or zero. -/
theorem clearLine_data (me : Int) (m : Memory) (l : Int) (k : Nat) : sget (clearLine me m l).data k = 0 ∨ sget (clearLine me m l).data k = sget m.data k := by
  show sget (sblit m.data (memKey me (81 * l)) 81 []) k = 0 ∨ sget (sblit m.data (memKey me (81 * l)) 81 []) k = _
  by_cases hk : k < memKey me (81 * l) ∨ memKey me (81 * l) + 81 ≤ k
  · exact .inr (sget_sblit_ne _ _ _ _ _ hk)
  · obtain ⟨i, rfl⟩ := Nat.exists_eq_add_of_le (show memKey me (81 * l) ≤ k by omega)
    exact .inl (sget_sblit _ _ _ _ (by omega))

theorem clearLine_tags (me : Int) (m : Memory) (l : Int) (k : Nat) : sget (clearLine me m l).tags k = 0 ∨ sget (clearLine me m l).tags k = sget m.tags k := by
  show sget (sset m.tags (lineKey me l) Tag.plain.num) k = 0 ∨ sget (sset m.tags (lineKey me l) Tag.plain.num) k = _
  rw [sget_sset]
  split
  · exact .inl rfl
  · exact .inr rfl

theorem clearLines_data {me : Int} {k : Nat} : ∀ (ls : List Int) (m : Memory), sget m.data k = 0 → sget (ls.foldl (clearLine me) m).data k = 0
  | [], _, h => h
  | l :: ls, m, h => clearLines_data ls _ ((clearLine_data me m l k).elim id fun he => he.trans h)

theorem clearLines_tags {me : Int} {k : Nat} : ∀ (ls : List Int) (m : Memory), sget m.tags k = 0 → sget (ls.foldl (clearLine me) m).tags k = 0
  | [], _, h => h
  | l :: ls, m, h => clearLines_tags ls _ ((clearLine_tags me m l k).elim id fun he => he.trans h)

/-- A line that is cleared among others reads zero, with the plain tag. -/
theorem clearLines_spec {me l : Int} : ∀ {ls : List Int} (m : Memory), l ∈ ls → sget (ls.foldl (clearLine me) m).tags (lineKey me l) = 0 ∧
    ∀ i, i < 81 → sget (ls.foldl (clearLine me) m).data (memKey me (81 * l) + i) = 0
  | x :: ls, m, hl => by
    rcases List.mem_cons.1 hl with rfl | hl
    · exact ⟨clearLines_tags ls _ (sget_sset_self _ _ _), fun i hi => clearLines_data ls _ (sget_sblit _ _ _ _ hi)⟩
    · exact clearLines_spec (ls := ls) _ hl

/-! ### The debug window -/

theorem reportBody_length (s : State) (nonce : List Int) : (reportBody s nonce).length = 217 := by
  simp [reportBody, upto, bytesLE, List.length_flatMap]

/-- The released frame's lines are cleared in what the recalls leave. -/
theorem freeFrame_spec (s : State) (f : Int) {l : Int} (h1 : 243 * f ≤ l) (h2 : l < 243 * f + 243) (h0 : l ≠ 0) :
    (freeFrame s f).mem.tag s.pkg.number l = Tag.plain ∧ (∀ i, i < 81 → sget (freeFrame s f).mem.data (memKey s.pkg.number (81 * l) + i) = 0) ∧
      frameKey s.pkg.number f ∉ (freeFrame s f).mem.frames := by
  have hl : l ∈ ((upto 243).map fun (i : Nat) => 243 * f + (i : Int)).filter fun l => l != 0 := by
    refine List.mem_filter.2 ⟨List.mem_map.2 ⟨(l - 243 * f).toNat, mem_upto.2 (by omega), by omega⟩, by simpa using h0⟩
  generalize hls : (((upto 243).map fun (i : Nat) => 243 * f + (i : Int)).filter fun l => l != 0) = ls at hl
  have hmem : (freeFrame s f).mem.data = (ls.foldl (clearLine s.pkg.number) (ls.foldl (fun u l => recallNow u s.pkg.number l true) s).mem).data ∧
      (freeFrame s f).mem.tags = (ls.foldl (clearLine s.pkg.number) (ls.foldl (fun u l => recallNow u s.pkg.number l true) s).mem).tags ∧
      (freeFrame s f).mem.frames = (ls.foldl (clearLine s.pkg.number) (ls.foldl (fun u l => recallNow u s.pkg.number l true) s).mem).frames.filter
        fun k => k != frameKey s.pkg.number f := by
    simp only [freeFrame, hls, dropFrame, foldl_refreshFills_mem]
    exact ⟨rfl, rfl, rfl⟩
  obtain ⟨hdata, htags, hframes⟩ := hmem
  obtain ⟨ht, hd⟩ := clearLines_spec (me := s.pkg.number) (ls.foldl (fun u l => recallNow u s.pkg.number l true) s).mem hl
  refine ⟨?_, fun i hi => ?_, fun hk => ?_⟩
  · rw [Memory.tag, htags, ht]
    rfl
  · rw [hdata, hd i hi]
  · rw [hframes] at hk
    simpa using (List.mem_filter.1 hk).2

theorem windowFree_of {s : State} (hdbg : s.pkg.debug = 1) (hw : wordAt s.pkg.window 8 ≠ 1) (hst : s.pkg.st ≠ -1) : windowFree s = true := by
  simp [windowFree, hdbg, hw, hst]

/-- An operation of the window is staged and started by its event. -/
theorem windowOp_exec {i : Instr} {op m a0 a1 a2 b c k : Int} {r : DbgOp} (h : Rule.WindowOp i op m a0 a1 a2 b c k r) (s : State) :
    exec i s = .next (windowEvent s op m a0 a1 a2 b c k) := by
  cases h
  case halt sc h1 h2 => exact congrArg (fun x => Host.Outcome.next (windowEvent s 0 x 0 0 0 b 0 0)) (mul_comm sc 81)
  case hres sc h1 h2 => exact congrArg (fun x => Host.Outcome.next (windowEvent s 16 x 0 0 0 b 0 0)) (mul_comm sc 81)
  all_goals rfl

/-- The values of a halted lane that an operation names by a number. -/
theorem valItem_of {k : Nat} (hk : k ≤ 80 ∨ (100 ≤ k ∧ k ≤ 108) ∨ (200 ≤ k ∧ k ≤ 202) ∨ k = 300 ∨ (400 ≤ k ∧ k ≤ 426) ∨ (500 ≤ k ∧ k ≤ 508)) :
    ((0 : Int) == 0 && (inR (k : Int) 0 80 || inR (k : Int) 100 108 || inR (k : Int) 200 202 || (k : Int) == 300 || inR (k : Int) 400 426 ||
      inR (k : Int) 500 508)) = true := by
  simp only [inR, beq_self_eq_true, Bool.true_and, Bool.or_eq_true, decide_eq_true_eq, beq_iff_eq]
  omega

/-- The words of an operation of the window ask for it. -/
theorem windowOp_of {i : Instr} {op m a0 a1 a2 b c k : Int} {r : DbgOp} (h : Rule.WindowOp i op m a0 a1 a2 b c k r) (rest : List Int) :
    windowOp ([op, m, a0, a1, a2, b, c, k] ++ rest) = some r := by
  cases h with
  | halt b sc h1 h2 =>
    have hsc : sc = -1 ∨ sc = 0 ∨ sc = 1 ∨ sc = 2 := by omega
    rcases hsc with rfl | rfl | rfl | rfl <;> rfl
  | wset a0 a1 a2 b c u h1 h2 => simp [windowOp, wordAt, inR, h1, h2]
  | wclr b u h1 h2 => simp [windowOp, wordAt, inR, h1, h2]
  | wrd b u h1 h2 => simp [windowOp, wordAt, inR, h1, h2]
  | hlst b => rfl
  | hrdv b k hk => exact if_pos (valItem_of hk)
  | hwrv a b k hk => exact if_pos (valItem_of hk)
  | hrdpPc b => rfl
  | hrdpDepth b => rfl
  | hrdpLink b e h1 h2 =>
    have he : inR (e : Int) 1 9841 = true := inR_of (by omega) (by omega)
    exact congrArg (Option.map DbgOp.hrdp) (if_pos (c := _ ∧ _) ⟨rfl, he⟩)
  | hwrpPc a0 a1 b => rfl
  | hwrpDepth a0 a1 b => rfl
  | hwrpLink a0 a1 b e h1 h2 =>
    have he : inR (e : Int) 1 9841 = true := inR_of (by omega) (by omega)
    exact congrArg (Option.map fun x => DbgOp.hwrp a0 a1 x) (if_pos (c := _ ∧ _) ⟨rfl, he⟩)
  | hstep b => rfl
  | hres b sc h1 h2 =>
    have hsc : sc = -1 ∨ sc = 0 ∨ sc = 1 ∨ sc = 2 := by omega
    rcases hsc with rfl | rfl | rfl | rfl <;> rfl

/-- The window starts the operation that its words ask for. -/
theorem startWindow_of {s : State} {r : DbgOp} (h : windowOp s.pkg.window = some r) : startWindow s =
    dbgRun (s.bump.modPkg fun p => { p with window := p.window.set 8 1, dwin := p.dwin ++ [⟨s.nextId, .dbg r (wordAt s.pkg.window 5) 0 s.now, 0⟩] }) none s.nextId r
      (wordAt s.pkg.window 5) 0 s.now := by
  rw [startWindow, h]

/-- The window's words after an operation's answer. -/
theorem answerWords_get (w : List Int) (hw : w.length = 27) : ∀ (ws : List Int), ws.length ≤ 6 →
    ((List.zip (upto ws.length) ws).foldl (fun l p => l.set (9 + p.1) p.2) w).length = 27 ∧
    ∀ i x, ws[i]? = some x → ((List.zip (upto ws.length) ws).foldl (fun l p => l.set (9 + p.1) p.2) w)[9 + i]? = some x := by
  intro ws
  induction ws using List.reverseRecOn with
  | nil => exact fun _ => ⟨hw, fun i x hx => by simp at hx⟩
  | append_singleton ws y ih =>
    intro hlen
    rw [List.length_append, List.length_singleton] at hlen
    obtain ⟨hl, hg⟩ := ih (by omega)
    have hz : List.zip (upto (ws ++ [y]).length) (ws ++ [y]) = List.zip (upto ws.length) ws ++ [(ws.length, y)] := by
      rw [List.length_append, List.length_singleton, upto, List.range_succ, List.zip_append (by simp)]
      rfl
    rw [hz, List.foldl_append]
    refine ⟨by simpa using hl, fun i x hx => ?_⟩
    rw [List.foldl_cons, List.foldl_nil, List.getElem?_set]
    by_cases hi : i = ws.length
    · subst hi
      have hlt : 9 + ws.length < 27 := by omega
      simp only [hl, hlt, if_true]
      simpa using hx
    · rw [if_neg (by omega)]
      refine hg i x ?_
      rw [← hx, List.getElem?_append_left]
      have := (List.getElem?_eq_some_iff.1 hx).1
      rw [List.length_append, List.length_singleton] at this
      omega

/-- Settles O52: the mailbox, the report, the control region and the debug window. -/
theorem mailboxAndDebugWindow : Obligations.MailboxAndDebugWindow := by
  unfold Obligations.MailboxAndDebugWindow
  refine ⟨fun s n hidle hst hnum hlo hhi => ?_, fun s n hidle hst => ?_, fun s entry desc d hidle hst hdet hnum he1 he2 hd1 hd2 => ?_,
    fun s entry desc d hc hj hw hseq => startZero_first hc hj hw hseq, fun s vf desc base hidle hst hv1 hv2 hd1 hd2 hb1 hb2 hctx hcan hal => ?_,
    fun s f hidle hst h0 hb hf => ?_, fun s f l h0 hf h1 h2 hl hnum => ?_, fun s x hidle hst hx1 hx2 => ?_, fun s a b c d x hidle hst hal h0 hx hb => ?_,
    fun s nonce => ?_, fun s nonce hst => congrArg Host.Outcome.next (if_neg hst), fun s word v hidle hword => ?_, fun s hidle => ?_,
    fun s word v hdbg hw8 hst hword hne => ?_, fun s hdbg hw8 hst => ?_, fun s word v hword => ?_, fun s vf line word v => ⟨rfl, rfl⟩,
    fun s i op m a0 a1 a2 b c k r hop hdbg hw8 hst hlen => ?_, fun s n r b at_ ws s1 p hdw hp hdone hpkg hlen hws => ?_⟩
  · exact congrArg Host.Outcome.next (mailboxEvent_idle hidle (mailboxOp_number rfl hst hnum (inR_of hlo hhi)))
  · exact congrArg Host.Outcome.next (mailboxEvent_idle hidle (mailboxOp_number_late rfl hst))
  · intro s1 hd hok
    have h1 : dblAt s1.pkg.mailbox 1 = entry := double_low_high he1 he2
    have h3 : dblAt s1.pkg.mailbox 3 = desc := double_low_high hd1 hd2
    have hop := mailboxOp_start (s := s1) (w := s1.pkg.mailbox) (d := d) rfl hst hdet hnum (h3.symm ▸ hd) hok
    rw [h1, h3] at hop
    exact congrArg Host.Outcome.next (mailboxEvent_idle hidle hop)
  · let s1 := Rule.staged s [3, vf, lowWord desc, highWord desc, lowWord base, highWord base]
    have h2 : dblAt s1.pkg.mailbox 2 = desc := double_low_high hd1 hd2
    have h4 : dblAt s1.pkg.mailbox 4 = base := double_low_high hb1 hb2
    have hop := mailboxOp_vf (s := s1) (w := s1.pkg.mailbox) rfl hst (inR_of hv1 hv2) (h2.symm ▸ hctx) (h4.symm ▸ hcan) (h4.symm ▸ hal)
    rw [h2, h4] at hop
    exact congrArg Host.Outcome.next (mailboxEvent_idle hidle hop)
  · let s1 := Rule.staged s [4, lowWord f, highWord f]
    have h1 : dblAt s1.pkg.mailbox 1 = f := double_low_high (le_trans (by decide) h0) hf
    have hop := mailboxOp_frame (s := s1) (w := s1.pkg.mailbox) rfl hst (h1.symm ▸ h0) (h1.symm ▸ hb)
    rw [h1] at hop
    exact congrArg Host.Outcome.next (mailboxEvent_idle hidle hop)
  · obtain ⟨ht, hd, hk⟩ := freeFrame_spec s f h1 h2 hl
    refine ⟨ht, fun i hi => ?_, hk⟩
    have hn : -364 ≤ s.pkg.number := (of_decide_eq_true hnum).1
    have hkey : memKey s.pkg.number (81 * l + (i : Nat)) = memKey s.pkg.number (81 * l) + i := by
      unfold memKey
      omega
    show join 9 [sget (freeFrame s f).mem.data (memKey s.pkg.number (81 * l + (i : Nat)))] = 0
    rw [hkey, hd i hi]
    rfl
  · exact congrArg Host.Outcome.next (mailboxEvent_idle hidle (mailboxOp_ceiling rfl hst (inR_of hx1 hx2)))
  · let s1 := Rule.staged s [6, a, b, c, d, lowWord x, highWord x]
    have h5 : dblAt s1.pkg.mailbox 5 = x := double_low_high (le_trans (by decide) h0.le) hx
    have hop := mailboxOp_attest (s := s1) (w := s1.pkg.mailbox) rfl hst (h5.symm ▸ hal) (h5.symm ▸ h0) (h5.symm ▸ hb)
    rw [h5] at hop
    exact congrArg Host.Outcome.next (mailboxEvent_idle hidle hop)
  · rw [signedReport, List.length_append, reportBody_length]
    simp [upto]
  · refine congrArg Host.Outcome.next ?_
    have hgo : (Option.isSome (none : HostFn) || decide (27 ≤ word)) = false := by simp; omega
    exact (if_neg (Bool.eq_false_iff.1 hgo)).trans ((if_pos rfl).trans ((if_neg hidle).trans (if_neg (fun h => absurd h.1 (by omega)))))
  · refine congrArg Host.Outcome.next ?_
    exact (if_neg (by decide)).trans ((if_pos rfl).trans ((if_neg hidle).trans (if_pos ⟨rfl, rfl⟩)))
  · refine congrArg Host.Outcome.next ?_
    have hgo : (Option.isSome (none : HostFn) || decide (27 ≤ word)) = false := by simp; omega
    have hfree : windowFree s = true := windowFree_of hdbg hw8 hst
    have hin : (!windowFree s || decide (15 ≤ word)) = false := by simp [hfree, hword]
    exact (if_neg (Bool.eq_false_iff.1 hgo)).trans ((if_neg (by decide)).trans ((if_pos rfl).trans ((if_neg (Bool.eq_false_iff.1 hin)).trans (if_neg hne))))
  · refine congrArg Host.Outcome.next ?_
    have hin : (!windowFree s || decide (15 ≤ 8)) = false := by simp [windowFree_of hdbg hw8 hst]
    exact (if_neg (by decide)).trans ((if_neg (by decide)).trans ((if_pos rfl).trans ((if_neg (Bool.eq_false_iff.1 hin)).trans ((if_pos rfl).trans (if_pos rfl)))))
  · refine congrArg Host.Outcome.next ?_
    have hout : (!windowFree s || decide (15 ≤ word)) = true := by simp [hword]
    exact ite_eq_left_iff.2 fun _ => (if_neg (by decide)).trans ((if_pos rfl).trans (if_pos hout))
  · have he : exec i s = .next (windowEvent s op m a0 a1 a2 b c k) := windowOp_exec hop s
    rw [he, windowEvent, windowFree_of hdbg hw8 hst]
    refine congrArg Host.Outcome.next ?_
    have hw := windowOp_of hop (s.pkg.window.drop 8)
    refine (if_neg (by decide)).trans ?_
    exact startWindow_of hw
  · obtain ⟨hl, hg⟩ := answerWords_get s.pkg.window hlen ws hws
    refine ⟨dbgEnd s1 none n 0 ws, ?_, ?_, ?_, fun i x hi => ?_⟩
    · rw [dbgRun, hdone]
    · rw [dbgEnd, State.modPkg_pkg, hpkg, hdw]
      simp [hp]
    · rw [dbgEnd, State.modPkg_pkg, hpkg]
      simp [wordAt, List.getD_eq_getElem?_getD, hl]
    · rw [dbgEnd, State.modPkg_pkg, hpkg, wordAt, List.getD_eq_getElem?_getD, List.getElem?_set_ne (by omega), hg i x hi]
      rfl

end Sys2Proof.Machine
end

section
/-! ## Certificates: the host's accesses (R42, R268, R326 to R328, R335) -/

namespace Sys2Proof.Machine

open Sys2Proof Tern

/-- The event of an AtomicOp: it arrives on a wake barrier when it is a decrement. -/
theorem hostAtomic_exec {i : Instr} {fn : HostFn} {off : Nat} {xs : List Int} {f : Int → Int} (h : Rule.HostAtomic i fn off xs f) :
    ∃ arrive, ∀ s, exec i s = .next (hostAtomic s fn off xs arrive f) := by
  cases h <;> exact ⟨_, fun s => rfl⟩

/-- An AtomicOp of a word at a word's place, while the package answers, passes the first checks. -/
theorem hostAtomic_accepted {s : State} {off : Nat} {xs : List Int} (hup : barsUp s = true) (hoff : off % 8 = 0)
    (hxs : ∀ x ∈ xs, -maxv 27 ≤ x ∧ x ≤ maxv 27) : (!barsUp s || decide (off % 8 ≠ 0) || !(xs.all inWord)) = false := by
  have hall : xs.all inWord = true := List.all_eq_true.2 fun x hx => decide_eq_true (hxs x hx)
  simp [hup, hoff, hall]

theorem hostAtomic_updates {s s1 : State} {fn : HostFn} {off : Nat} {xs : List Int} {arrive : Bool} {f : Int → Int} {p a : Int} {d : Store} {tg : Tag}
    (hup : barsUp s = true) (hoff : off % 8 = 0) (hxs : ∀ x ∈ xs, -maxv 27 ≤ x ∧ x ≤ maxv 27)
    (hplace : hostPlace s fn Need.rmw (3 * ((off / 8 : Nat) : Int)) = (s1, .at_ (.dom p a))) (hbusy : hostBusy s1 (.dom p a) = false)
    (hwake : isWake s1 (.dom p a) = false) (hline : (recallNow s1 p (a / 81) true).mem.lineAt (.dom p a) = .data d tg) :
    hostAtomic s fn off xs arrive f = hostAnswer (updateNow (takeNow (recallNow s1 p (a / 81) true) p (a / 81)) (.dom p a) 3 f)
      [0, (takeNow (recallNow s1 p (a / 81) true) p (a / 81)).mem.rawAt (.dom p a) 3] := by
  rw [hostAtomic, hostAtomic_accepted hup hoff hxs, hplace]
  simp only [Bool.false_eq_true, if_false, hbusy, hwake, Loc.pkgLine, hline]

theorem hostAtomic_refused {s : State} {fn : HostFn} {off : Nat} {xs : List Int} {arrive : Bool} {f : Int → Int}
    (h : barsUp s = false ∨ off % 8 ≠ 0 ∨ ∃ x ∈ xs, x < -maxv 27 ∨ maxv 27 < x) : hostAtomic s fn off xs arrive f = hostAnswer s [1] := by
  refine if_pos ?_
  rcases h with h | h | ⟨x, hx, hout⟩
  · simp [h]
  · simp [h]
  · have hall : xs.all inWord = false := by
      refine List.all_eq_false.2 ⟨x, hx, ?_⟩
      simp only [inWord, canon, decide_eq_true_eq]
      omega
    simp [hall]

/-- One line of a window that its slice can read. -/
theorem hostReadLine_dom {s s1 s2 : State} {fn : HostFn} {raw : Bool} {l lo n : Nat} {p a : Int}
    (hplace : hostPlace s fn Need.read (81 * (l : Int)) = (s1, .at_ (.dom p a))) (hbusy : hostBusy s1 (.dom p a) = false)
    (hrecall : recallNow s1 p (a / 81) false = s2) (hbad : s2.mem.bad p (a / 81) = false) :
    hostReadLine s fn raw (l, lo, n) = (s2, some (windowBytes raw lo n (s2.mem.line p (a / 81)) (s2.mem.tag p (a / 81)))) := by
  rw [hostReadLine, hplace]
  simp only [Loc.isHost, Bool.false_eq_true, if_false, hbusy, Loc.pkgLine, hrecall, hbad]

/-- A place of function 0 within the package's memory. -/
theorem hostPlace_zero {s : State} {nd : Need} {l : Nat} (hl : l < Config.memoryLines) :
    hostPlace s none nd (81 * (l : Int)) = (s, .at_ (.dom s.pkg.number (81 * (l : Int)))) := by
  have hin : 81 * (l : Int) < 81 * (Config.memoryLines : Nat) := by omega
  rw [hostPlace, if_pos hin]

theorem windowBytes_packed (o n : Nat) (d : Store) (t : Tag) :
    windowBytes false o n d t = .ok (((imageBytes d t).drop o).take n |>.map fun (b : Nat) => (b : Int)) := by
  simp only [windowBytes, Bool.false_eq_true, if_false]

theorem split_length (w : Nat) : ∀ (n : Nat) (v : Int), (split w n v).length = n
  | 0, _ => rfl
  | n + 1, v => congrArg Nat.succ (split_length w n (shr v w))

/-- Each element of a value is a value of its trits. -/
theorem split_le (w : Nat) : ∀ (n : Nat) (v : Int), ∀ x ∈ split w n v, x ≤ maxv w
  | 0, _, _, h => absurd h List.not_mem_nil
  | n + 1, v, x, h => (List.mem_cons.1 h).elim (fun e => e ▸ narrow_le v w) fun h => split_le w n (shr v w) x h

/-- The packed image of a line is 150 bytes of five trits each (R42). -/
theorem imageBytes_spec (d : Store) (t : Tag) : (imageBytes d t).length = 150 ∧ ∀ b ∈ imageBytes d t, b ≤ 242 := by
  have hmax : maxv 5 = 121 := by decide
  have hbyte : ∀ (n : Nat) (v : Int), ∀ b ∈ (split 5 n v).map tritsByte, b ≤ 242 := fun n v b hb => by
    obtain ⟨x, hx, rfl⟩ := List.mem_map.1 hb
    have := split_le 5 n v x hx
    unfold tritsByte
    omega
  refine ⟨?_, fun b hb => ?_⟩
  · rw [imageBytes, List.length_append, List.length_map, List.length_map, split_length, split_length]
  · exact (List.mem_append.1 hb).elim (hbyte _ _ b) (hbyte _ _ b)

/-- Settles O53: what the host's accesses do as they land. -/
theorem hostAccessesLand : Obligations.HostAccessesLand := by
  unfold Obligations.HostAccessesLand
  refine ⟨fun i fn off xs f s s1 p a d tg hi hup hoff hxs hplace hbusy hwake => ?_, fun s p a n f htime => ?_, fun i fn off xs f s hi hbad => ?_,
    fun fn off s s1 p a s2 hup hoff hplace hbusy hwake harr => ?_, fun i fn raw off len s s1 bs hi hup hread => ?_, fun s l lo n hl hbusy _ hbad => ?_,
    fun m p l => ?_, fun i fn raw off len s hi hdown => ?_, fun i fn raw off bs s s1 hi hup hwrite => ?_, fun i fn raw off bs s hi hdown => ?_,
    fun s a t r i w b hi hup => ?_⟩
  · intro s2 s3 hline
    obtain ⟨arrive, he⟩ := hostAtomic_exec hi
    rw [he, hostAtomic_updates hup hoff hxs hplace hbusy hwake hline]
  · rw [updateNow, htime]
    rfl
  · obtain ⟨arrive, he⟩ := hostAtomic_exec hi
    rw [he, hostAtomic_refused hbad]
  · refine congrArg Host.Outcome.next ?_
    rw [hostAtomic, hostAtomic_accepted (xs := [-1]) hup hoff (by simp; decide), hplace]
    simp only [Bool.false_eq_true, if_false, hbusy, hwake, if_true, harr]
    rfl
  · have he : exec i s = .next (hostRead s fn raw off len) := by cases hi <;> rfl
    rw [he, hostRead, hup, hread]
    rfl
  · have hdiv : 81 * (l : Int) / 81 = l := Int.mul_ediv_cancel_left _ (by decide)
    rw [← hdiv] at hbad
    rw [hostReadAll, hostReadLine_dom (raw := false) (lo := lo) (n := n) (hostPlace_zero hl) hbusy rfl hbad, windowBytes_packed, hdiv]
    simp only [hostReadAll, List.append_nil, packedImage]
  · exact imageBytes_spec _ _
  · have he : exec i s = .next (hostRead s fn raw off len) := by cases hi <;> rfl
    rw [he, hostRead, hdown]
    rfl
  · have he : exec i s = .next (hostWriteWin s fn raw off bs) := by cases hi <;> rfl
    rw [he, hostWriteWin, hup, hwrite]
    rfl
  · have he : exec i s = .next (hostWriteWin s fn raw off bs) := by cases hi <;> rfl
    rw [he, hostWriteWin, hdown]
    rfl
  · have he : exec i s = .next (timeUpdate s w a t r b) := by
      rcases hi with ⟨rfl, rfl, rfl⟩ | ⟨rfl, rfl, rfl⟩ <;> rfl
    rw [he, timeUpdate, hup]
    rfl

end Sys2Proof.Machine
end

section
/-! ## Certificates: traps entered, double, refused words, ARITH, and the return (R61, R110, R275 to R277, R280, R281) -/

namespace Sys2Proof.Machine

open Sys2Proof Tern

/-! ### Entry and return -/

/-- A warp as a trap outside handler mode leaves it (R277). -/
def Warp.entered (s : State) (t : TrapReq) (w : Warp) : Warp :=
  { w.allLanes (Lane.enter t) with
      handler := true, hpc := s.handlerPc w.ctx t.cause, tCause := t.cause, tLanes := maskOf (t.lanes.map fun p => p.1),
      tLevel := w.level, level := 1, inTaskf := decide (t.cause = cause.taskf) }

theorem warp?_modWarp_self {s : State} {wid : Nat} {w : Warp} {f : Warp → Warp} (hw : s.warp? wid = some w) (hf : ∀ w, (f w).wid = w.wid) :
    (s.modWarp wid f).warp? wid = some (f w) := by
  rw [State.warp?_modWarp s wid f hf, if_pos rfl, hw]
  rfl

theorem enterTrap_warp? {s : State} {wid : Nat} {w : Warp} (t : TrapReq) (hw : s.warp? wid = some w) (hh : w.handler = false) :
    (s.enterTrap wid t).warp? wid = some (Warp.entered s t w) := by
  rw [State.enterTrap_some t hw hh]
  exact warp?_modWarp_self (f := Warp.entered s t) hw fun _ => rfl

theorem Warp.entered_lane {s : State} {t : TrapReq} {w : Warp} {l : Nat} (hlanes : w.lanes.length = 27) (hl : l < 27) :
    (Warp.entered s t w).lane l = Lane.enter t l (w.lane l) := Warp.lane_allLanes w _ (hlanes ▸ hl)

/-- What a trap lists of a lane (R278). -/
theorem Lane.enter_listed {t : TrapReq} {l : Nat} {i a : Int} (x : Lane) (h : t.lanes.find? (fun p => p.1 == l) = some (l, i, a)) :
    (Lane.enter t l x).tInfo = i ∧ (Lane.enter t l x).tAddr = a := by
  simp only [Lane.enter, h, and_self]

theorem Lane.enter_unlisted {t : TrapReq} {l : Nat} (x : Lane) (h : ∀ p ∈ t.lanes, p.1 ≠ l) : (Lane.enter t l x).tInfo = 0 ∧ (Lane.enter t l x).tAddr = 0 := by
  have hn : t.lanes.find? (fun p => p.1 == l) = none := List.find?_eq_none.2 fun p hp => by simpa using h p hp
  simp only [Lane.enter, hn, and_self]

/-- A trap leaves every other warp as it was. -/
theorem enterTrap_others (s : State) (wid : Nat) (t : TrapReq) {n : Nat} (hn : n ≠ wid) : (s.enterTrap wid t).warp? n = s.warp? n := by
  cases hw : s.warp? wid with
  | none => rw [State.enterTrap_none t hw]
  | some w =>
    cases hh : w.handler with
    | false =>
      rw [State.enterTrap_some t hw hh]
      exact (State.warp?_modWarp s wid (Warp.entered s t) (fun _ => rfl) n).trans (if_neg hn)
    | true =>
      rw [State.enterTrap_double t hw hh, State.doubleTrap, State.warp?_wid hw]
      exact (State.warp?_modWarp s wid (fun w => { w.haltAll ⟨4, 0, 0⟩ with dbl := some ⟨4, 0, 0⟩ }) (fun _ => rfl) n).trans (if_neg hn)

theorem Warp.haltAll_lane {w : Warp} {l : Nat} (h : Halt) (hlanes : w.lanes.length = 27) (hl : l < 27) :
    ((w.haltAll h).lane l).halted.isSome = true ∧ ((w.haltAll h).lane l).tEpc = (w.lane l).tEpc := by
  rw [Warp.haltAll, Warp.haltLanes, Warp.lane_modLanes _ _ _ (hlanes ▸ hl), if_pos (mem_upto.2 hl)]
  refine ⟨?_, rfl⟩
  cases (w.lane l).halted <;> rfl

/-! ### Refused words (R110) -/

/-- The word i traps ILLEGAL where a check of R110 fails, and only counts against the yields (log entry 84). -/
def Refuses (i : Instr) : Prop := ∀ s c w, s.cur = some c → s.warp? c.wid = some w → c.hstep = none → legal i w c.lanes = false →
  exec i s = .next ((s.counted i c.wid).enterTrap c.wid ⟨cause.illegal, listed c.lanes 0 0⟩)

theorem runWord_illegal {i : Instr} {s : State} {c : Cur} {w : Warp} (act : State → Cur → Warp → List Nat → Eff) (hc : s.cur = some c)
    (hw : s.warp? c.wid = some w) (hstep : c.hstep = none) (hbad : legal i w c.lanes = false) :
    runWord i s act = (s.counted i c.wid).enterTrap c.wid ⟨cause.illegal, listed c.lanes 0 0⟩ := by
  simp only [runWord, hc, hw, hbad, Bool.not_false, if_true, raiseTrap, hstep]
  rfl

theorem Refuses.of_word {i : Instr} {act : State → Cur → Warp → List Nat → Eff} (hexec : ∀ s, exec i s = .next (runWord i s act)) : Refuses i :=
  fun s c w hc hw hstep hbad => by rw [hexec, runWord_illegal act hc hw hstep hbad]

theorem Refuses.of_computeWord {i : Instr} {d : Dst} {dbl : Bool} {k : ResKind} {f : Warp → Nat → Int × Fl}
    (hexec : ∀ s, exec i s = .next (computeWord i s d dbl k f)) : Refuses i := .of_word hexec

theorem Refuses.of_predWord {i : Instr} {pd : Nat} {f : Warp → Nat → Int × Fl} (hexec : ∀ s, exec i s = .next (predWord i s pd f)) : Refuses i :=
  .of_word hexec

theorem Refuses.of_crossWord {i : Instr} {d : Dst} {dbl : Bool} {k : ResKind} {f : Warp → List Nat → Nat → Int} {fl : Warp → List Nat → Fl}
    (hexec : ∀ s, exec i s = .next (crossWord i s d dbl k f fl)) : Refuses i := .of_word hexec

theorem Refuses.of_predReduce {i : Instr} {qd : Nat} {a : PSrc} {f : Int → Int → Int} (hexec : ∀ s, exec i s = .next (predReduce i s qd a f)) :
    Refuses i := .of_word hexec

theorem Refuses.of_gangWord {i : Instr} {f : State → Cur → Warp → Gang → Eff} (hexec : ∀ s, exec i s = .next (gangWord i s f)) : Refuses i :=
  .of_word hexec

theorem Refuses.of_barWord {i : Instr} {o : BarA} {dr wt : Bool} (hexec : ∀ s, exec i s = .next (barWord i o dr wt s)) : Refuses i := .of_word hexec

theorem trap_refuses (o : ImmA) : Refuses (.trap o) := fun s c w hc hw hstep hbad => by
  simp only [exec, execTrap, hc, hw, hbad, Bool.not_false, Bool.true_or, if_true]
  rw [runWord_illegal _ hc hw hstep hbad]

/-- Every word that has an encoding is refused as R110 says. -/
theorem refuses_of_encode {i : Instr} (h : (encode i).isSome = true) : Refuses i := by
  cases i with
  | abs o | add o | sub o | neg o | mul o | mulh o | mad o | div o | divz o | mod o | min o | max o | sgn o | tsh o | trot o | tlz o
  | tcnt o | tmap o | tbin o | tsel o => exact .of_computeWord fun _ => rfl
  | fadd o | fsub o | fmul o | fma o | fmin o | fmax o | fneg o | fabs o | fdiv o | fsqrt o | frcp o | frsq o | fexp o | flog o
  | fexp3 o | flog3 o | ftanh o | fscl o | fcls o | frnd o => exact .of_computeWord fun _ => rfl
  | sel o | mov o | movi o | movh o | movc o | cvt o | bcvt o | pack o | unpack o => exact .of_computeWord fun _ => rfl
  | fcmp o | cmp o | pset o | ptbl o => exact .of_predWord fun _ => rfl
  | pany o | pall o => exact .of_predReduce fun _ => rfl
  | pcnt o | shfl o | bcst o | vred o | vscan o => exact .of_crossWord fun _ => rfl
  | ld o | st o | ldg o | stg o | atom o | fence o | ldtag o | sttag o | cflush o | cinv o | red o => exact .of_word fun _ => rfl
  | movg o | movs o | bra o | nop o | isync o | pref o | waitj o | sleept o => exact .of_word fun _ => rfl
  | lds o | sts o | ldmc o | barW o => exact .of_word fun _ => rfl
  | barA o | barS o | barD o => exact .of_barWord fun _ => rfl
  | sna o | snd o | snr o | snb o | snw o | snp o | tbinit o | tbarr o | tbexp o | tbwait o | tbtest o => exact .of_word fun _ => rfl
  | win o | winrel o | task o | tqry o | send o | recv o | xfst o => exact .of_gangWord fun _ => rfl
  | xtab o | lnch o | role o | preh o | brk o => exact .of_word fun _ => rfl
  | wset o | wclr o | wrd o | hlst o | hrdv o | hwrv o | hrdp o | hwrp o | hstep o | hres o => exact .of_word fun _ => rfl
  | touch o | icinv o | yld o | jmpi o | call o | calli o | ret o | exit o | rft o | pairedWord a b => exact .of_word fun _ => rfl
  | trap o => exact trap_refuses o
  | _ => exact nomatch h

/-! ### ARITH (R61, R276) -/

/-- With no armed unit, a word whose flags trap is followed by ARITH alone. -/
theorem afterWord_arith {i : Instr} {s : State} {c : Cur} {w x : Warp} {res : List (List (Nat × Latch) × ResKind)} {fl : List (Nat × Fl)}
    (hown : c.hstep = none) (hu : (s.core w.coreNo).watch = []) (hx : s.warp? c.wid = some x) (hh : x.handler = false)
    (har : (fl.filter fun q => arithTraps i.te q.2).isEmpty = false) : afterWord i s c w res fl =
      s.enterTrap c.wid ⟨cause.arith, (fl.filter fun q => arithTraps i.te q.2).map fun q => (q.1, q.2.num, 0)⟩ := by
  have hp : (if i.isVector && !w.handler then watchResults s c w.coreNo s.now res fl else (s, [])) = (s, []) := by
    split
    · unfold watchResults
      split
      · rfl
      · simp [watchTest, hu]
    · rfl
  have hhold : s.modWarp c.wid (fun w => w.holdTrap (trapTrigs [])) = s := State.modWarp_id s c.wid
  have hback : s.modWarp c.wid (fun w => if w.handler then { w with hpc := c.pc } else w) = s :=
    (State.modWarp_congr fun y hy => by
      rw [hx, Option.some.injEq] at hy
      rw [← hy, hh]
      rfl).trans (State.modWarp_id s c.wid)
  simp only [afterWord, hp, hown, har, Bool.false_eq_true, if_false]
  refine Eq.trans (b := raiseDone (s.modWarp c.wid fun w => w.holdTrap (trapTrigs [])) c _) rfl ?_
  rw [hhold, raiseDone, hown]
  exact congrArg (State.enterTrap · _ _) hback

/-- The warp has just trapped ARITH, with what ar lists of its lanes; their resume PCs are their PCs. -/
def TrapsArith (t : State) (wid : Nat) (ar : List (Nat × Int × Int)) : Prop :=
  ∃ w', t.warp? wid = some w' ∧ w'.handler = true ∧ w'.tCause = cause.arith ∧
    ∀ l, l < 27 → (w'.lane l).tEpc = (w'.lane l).pc ∧ ∀ n, ar.find? (fun p => p.1 == l) = some (l, n, 0) → (w'.lane l).tInfo = n

/-- A word that only writes registers, and whose flags trap, ends in its handler. -/
theorem finishWord_arith {i : Instr} {s : State} {c : Cur} {w : Warp} {g : Warp → Warp} {lts : List (Nat → Latch)}
    {res : List (List (Nat × Latch) × ResKind)} {fl : List (Nat × Fl)} (hr : Runs i s c w) (hg : RegsOnly g) (hh : w.handler = false)
    (hu : (s.core w.coreNo).watch = []) (har : (fl.filter fun q => arithTraps i.te q.2).isEmpty = false) :
    TrapsArith (finishWord i ((s.counted i c.wid).modWarp c.wid g) c w lts res fl true) c.wid
      ((fl.filter fun q => arithTraps i.te q.2).map fun q => (q.1, q.2.num, 0)) := by
  have hret : ∀ x : Warp, (x.retireWord i c.lanes lts fl true w.handler).handler = x.handler := fun x =>
    (congrArg Warp.handler (Warp.retireWord_frame x i c.lanes lts fl true w.handler) : (Warp.frame _).handler = x.frame.handler)
  have hwarp : (({ (s.counted i c.wid).modWarp c.wid g with fresh := s.fresh + 27 } : State).modWarp c.wid fun x =>
      x.retireWord i c.lanes lts fl true w.handler).warp? c.wid = some ((g (w.countYields (wordCount i))).retireWord i c.lanes lts fl true w.handler) :=
    warp?_modWarp_self (warp?_modWarp_self (s := s.counted i c.wid) hr.counted_warp? (hg.field Warp.wid fun _ => rfl))
      fun x => Warp.retireWord_wid x i c.lanes lts fl true w.handler
  have hhand : ((g (w.countYields (wordCount i))).retireWord i c.lanes lts fl true w.handler).handler = false := by
    rw [hret, hg.field Warp.handler fun _ => rfl]
    exact hh
  have hlen : ((g (w.countYields (wordCount i))).retireWord i c.lanes lts fl true w.handler).lanes.length = 27 := by
    rw [Warp.retireWord_length, hg.field (fun x => x.lanes) fun _ => rfl, Warp.countYields_length, hr.shaped.lanes]
  have hend := afterWord_arith (res := res) hr.own (by exact hu) hwarp hhand har
  refine ⟨_, (congrArg (State.warp? · c.wid) hend).trans (enterTrap_warp? _ hwarp hhand), rfl, rfl, fun l hl => ?_⟩
  rw [Warp.entered_lane hlen hl]
  exact ⟨rfl, fun n hn => (Lane.enter_listed _ hn).1⟩

/-- What the list of the lanes that trap says of one of them. -/
theorem find_trapping {te : Int} {al : List Nat} {y : Nat → Int × Fl} {l : Nat} (hl : l ∈ al) (ht : arithTraps te (y l).2 = true) :
    (((((al.map fun l => (l, y l)).filter fun r => !r.2.2.isNone).map fun r => (r.1, r.2.2)).filter fun q => arithTraps te q.2).map
      fun q => (q.1, q.2.num, (0 : Int))).find? (fun p => p.1 == l) = some (l, (y l).2.num, 0) := by
  have hraised : (y l).2.isNone = false := by
    by_contra hn
    have hnone : (y l).2 = Fl.none := by simpa [Fl.isNone] using hn
    rw [hnone] at ht
    simp [arithTraps, Fl.none] at ht
  have hmem : (l, (y l).2.num, (0 : Int)) ∈ ((((al.map fun l => (l, y l)).filter fun r => !r.2.2.isNone).map fun r => (r.1, r.2.2)).filter
      fun q => arithTraps te q.2).map fun q => (q.1, q.2.num, (0 : Int)) :=
    List.mem_map.2 ⟨(l, (y l).2), List.mem_filter.2 ⟨List.mem_map.2 ⟨(l, y l), List.mem_filter.2 ⟨List.mem_map.2 ⟨l, hl, rfl⟩, by simp [hraised]⟩, rfl⟩, ht⟩, rfl⟩
  obtain ⟨p, hp⟩ := Option.isSome_iff_exists.1 (List.find?_isSome (p := fun p : Nat × Int × Int => p.1 == l).2 ⟨_, hmem, beq_self_eq_true l⟩)
  obtain ⟨q, hq, rfl⟩ := List.mem_map.1 (List.mem_of_find?_eq_some hp)
  obtain ⟨r, hr, rfl⟩ := List.mem_map.1 (List.mem_filter.1 hq).1
  obtain ⟨k, -, rfl⟩ := List.mem_map.1 (List.mem_filter.1 hr).1
  have hk : k = l := beq_iff_eq.1 (List.find?_some (p := fun p : Nat × Int × Int => p.1 == l) hp)
  rw [hp, hk]

/-- A vector word that computes results, and whose flags trap in a lane, ends in its handler, which knows the lane's flags. -/
theorem computeWord_arith {i : Instr} {s : State} {c : Cur} {w : Warp} {d : Dst} {dbl : Bool} {k : ResKind} {y : Warp → Nat → Int × Fl} {l : Nat}
    (hr : Runs i s c w) (hv : i.isVector = true) (hh : w.handler = false) (hu : (s.core w.coreNo).watch = []) (hl : l ∈ activeOf i w c.lanes)
    (ht : arithTraps i.te (y w l).2 = true) : ∃ w', (computeWord i s d dbl k y).warp? c.wid = some w' ∧ w'.handler = true ∧ w'.tCause = cause.arith ∧
      (w'.lane l).tEpc = (w'.lane l).pc ∧ (w'.lane l).tInfo = (y w l).2.num := by
  have hl27 : l < 27 := hr.shaped.lanes ▸ hr.active_lt hl
  have hfind := find_trapping (y := y w) hl ht
  have hg : RegsOnly fun u => ((activeOf i w c.lanes).map fun l => (l, y w l)).foldl (fun u r => u.setDst r.1 d dbl r.2.1) u := by
    simp only [List.foldl_map]
    exact RegsOnly.fold (.reg d dbl) (fun l => (y w l).1) (activeOf i w c.lanes)
  have har : (((((activeOf i w c.lanes).map fun l => (l, y w l)).filter fun r => !r.2.2.isNone).map fun r => (r.1, r.2.2)).filter
      fun q => arithTraps i.te q.2).isEmpty = false := by
    rw [List.isEmpty_eq_false_iff]
    intro he
    rw [he] at hfind
    cases hfind
  have htrap : TrapsArith (computeWord i s d dbl k y) c.wid (((((activeOf i w c.lanes).map fun l => (l, y w l)).filter fun r => !r.2.2.isNone).map
      fun r => (r.1, r.2.2)).filter (fun q => arithTraps i.te q.2) |>.map fun q => (q.1, q.2.num, 0)) := by
    rw [computeWord, runWord_eq hr]
    simp only [hv, if_true]
    exact finishWord_arith hr hg hh hu har
  obtain ⟨w', hw', hhand, hcause, hlane⟩ := htrap
  exact ⟨w', hw', hhand, hcause, (hlane l hl27).1, (hlane l hl27).2 _ hfind⟩

/-- Settles O54: traps entered and left, double traps, refused words, and ARITH. -/
theorem trapEntryAndReturn : Obligations.TrapEntryAndReturn := by
  unfold Obligations.TrapEntryAndReturn
  refine ⟨fun s wid w t hw hh hlanes => ⟨_, enterTrap_warp? t hw hh, rfl, rfl, rfl, rfl, rfl, rfl, rfl, rfl, rfl, rfl, fun l hl => ?_⟩,
    fun s wid t => ⟨State.enterTrap_mem s wid t, State.enterTrap_gangs s wid t, fun n hn => enterTrap_others s wid t hn⟩,
    fun s wid w t hw hh hlanes => ?_, fun w now l hlanes hl => ?_, fun i s c w h hc hw hstep hbad => refuses_of_encode h s c w hc hw hstep hbad,
    fun o r f s c w l htwo hr hh hu hv hl => ?_⟩
  · rw [Warp.entered_lane hlanes hl]
    exact ⟨⟨rfl, rfl, rfl, rfl, rfl, rfl, rfl, rfl, rfl, rfl, rfl, rfl, rfl, rfl, rfl, rfl⟩, fun a i h => Lane.enter_listed _ h, Lane.enter_unlisted _⟩
  · rw [State.enterTrap_double t hw hh, State.doubleTrap, State.warp?_wid hw]
    exact ⟨_, warp?_modWarp_self (f := fun w => { w.haltAll ⟨4, 0, 0⟩ with dbl := some ⟨4, 0, 0⟩ }) hw (fun _ => rfl), rfl, rfl, rfl, hh,
      fun l hl => Warp.haltAll_lane _ hlanes hl, rfl⟩
  · rw [Warp.leave_lane w now (hlanes ▸ hl)]
    exact ⟨rfl, rfl, rfl, rfl, rfl, rfl, rfl⟩
  · intro fl hfl
    obtain ⟨e, hexec, he⟩ := htwo.exec_eq
    have hvec : (Instr.add o).isVector = true := by simp [Instr.isVector, Instr.hd?, hv]
    obtain ⟨t, w', ht, hcomp⟩ := Rule.twoOperandIntegerWords _ _ _ _ _ _ _ htwo s c w hr
    have hy : (elems2 o.ty e (w.src l (o.ty == .d) o.a) (w.intB l o.ty o.b)).2 = fl := by rw [he, Warp.intB_eq]
    obtain ⟨w'', hw'', hhand, hcause, hepc, hinfo⟩ := computeWord_arith (d := o.d) (dbl := o.ty == .d) (k := kindOf o.ty)
      (y := fun w l => elems2 o.ty e (w.src l (o.ty == .d) o.a) (w.intB l o.ty o.b)) hr hvec hh hu hl ((congrArg (arithTraps o.te) hy).trans hfl)
    have hsame : w'' = w' := by
      rw [hexec, Host.Outcome.next.injEq] at ht
      rw [ht, hcomp.warp, Option.some.injEq] at hw''
      exact hw''.symm
    subst hsame
    have hpc := hcomp.moved.pcs hh l (hr.shaped.lanes ▸ hr.active_lt hl)
    have hset : l ∈ c.lanes := by
      simp only [activeOf, Instr.hd?, activeLanes, hv] at hl
      exact (List.mem_filter.1 hl).1
    rw [if_pos hset] at hpc
    have hres := hcomp.result l hl
    rw [hvec] at hres
    exact ⟨t, w'', ht, hcomp.warp, hhand, hcause, hepc.trans hpc, hinfo.trans (congrArg Fl.num hy), hres⟩

end Sys2Proof.Machine
end

section
/-! ## The invariant layer: memories in their canonical form, registers in range (R2, R4, R69, R107)

`Sound M R t` says that, under M, every memory of t stands in its canonical form and, under R, every warp's registers and latches are in
range. One lemma per function of the model, in the model's order, says that it keeps this. -/

namespace Sys2Proof.Machine

open Sys2Proof Tern

/-- Under M the memories of t are canonical, under R its warps' registers are in range. -/
structure Sound (M R : Prop) (t : State) : Prop where
  memories : M → t.memoriesOk = true
  registers : R → t.regsOk = true

/-- What a word's effect answers is sound, when it answers a state. -/
def SoundEff (M R : Prop) : Eff → Prop
  | .done s _ _ _ | .pair s _ _ _ _ _ | .moved s | .stay s | .part s _ | .trap s _ => Sound M R s
  | .hold _ => True

def SoundOut (M R : Prop) : Out → Prop
  | .next s => Sound M R s
  | _ => True

def SoundOpt (M R : Prop) : Option State → Prop
  | some s => Sound M R s
  | none => True

def SoundDbg (M R : Prop) : DbgOut → Prop
  | .done s _ => Sound M R s
  | _ => True

def SoundCmd (M R : Prop) : CmdOut → Prop
  | .done s | .wait s _ => Sound M R s
  | _ => True

def SoundTask (M R : Prop) : TaskOut → Prop
  | .wait s | .fault s _ _ | .done s => Sound M R s

def SoundFetch (M R : Prop) : FetchOut → Prop
  | .ok s | .trap s _ | .park s _ _ | .wait s => Sound M R s

def SoundHindrance (M R : Prop) : Hindrance → Prop
  | .trap s _ | .sleep s _ => Sound M R s
  | _ => True

def SoundRead (M R : Prop) : RecordRead → Prop
  | .trap s _ | .busy s | .words s _ => Sound M R s

/-- A record that is read in a sound state, or the effect of not reading it. -/
def SoundRec {α : Type} (M R : Prop) : Except Eff (State × α) → Prop
  | .ok p => Sound M R p.1
  | .error e => SoundEff M R e

section
variable {M R : Prop} {s : State}

theorem SoundOut.next {o : Out} (h : SoundOut M R o) (he : o = .next s) : Sound M R s := by subst he; exact h
theorem SoundOpt.some {o : Option State} (h : SoundOpt M R o) (he : o = Option.some s) : Sound M R s := by subst he; exact h
theorem SoundDbg.done {o : DbgOut} {ws : List Int} (h : SoundDbg M R o) (he : o = .done s ws) : Sound M R s := by subst he; exact h
theorem SoundCmd.done {o : CmdOut} (h : SoundCmd M R o) (he : o = .done s) : Sound M R s := by subst he; exact h
theorem SoundCmd.wait {o : CmdOut} {ws : List Nat} (h : SoundCmd M R o) (he : o = .wait s ws) : Sound M R s := by subst he; exact h
theorem SoundFetch.ok {o : FetchOut} (h : SoundFetch M R o) (he : o = .ok s) : Sound M R s := by subst he; exact h
theorem SoundFetch.trap {o : FetchOut} {t : TrapReq} (h : SoundFetch M R o) (he : o = .trap s t) : Sound M R s := by subst he; exact h
theorem SoundFetch.park {o : FetchOut} {p d : Int} (h : SoundFetch M R o) (he : o = .park s p d) : Sound M R s := by subst he; exact h
theorem SoundFetch.wait {o : FetchOut} (h : SoundFetch M R o) (he : o = .wait s) : Sound M R s := by subst he; exact h
theorem SoundHindrance.trap {o : Hindrance} {t : TrapReq} (h : SoundHindrance M R o) (he : o = .trap s t) : Sound M R s := by subst he; exact h
theorem SoundHindrance.sleep {o : Hindrance} {p : Int} (h : SoundHindrance M R o) (he : o = .sleep s p) : Sound M R s := by subst he; exact h
theorem SoundRead.trap {o : RecordRead} {t : TrapReq} (h : SoundRead M R o) (he : o = .trap s t) : Sound M R s := by subst he; exact h
theorem SoundRead.busy {o : RecordRead} (h : SoundRead M R o) (he : o = .busy s) : Sound M R s := by subst he; exact h
theorem SoundRead.words {o : RecordRead} {r : List Int} (h : SoundRead M R o) (he : o = .words s r) : Sound M R s := by subst he; exact h
theorem SoundRec.ok {α : Type} {o : Except Eff (State × α)} {x : α} (h : SoundRec M R o) (he : o = .ok (s, x)) : Sound M R s := by subst he; exact h
theorem SoundRec.error {α : Type} {o : Except Eff (State × α)} {e : Eff} (h : SoundRec M R o) (he : o = .error e) : SoundEff M R e := by subst he; exact h

end

theorem mem_of_warpAt {s : State} {b : Int} {w : Warp} (he : warpAt s b = some w) : w ∈ s.warps := by
  unfold warpAt at he
  split at he
  · cases he
  · exact List.mem_of_find?_eq_some he

namespace Sound

theorem ofFindSome {M R : Prop} {α : Type} {l : List α} {f : α → Option State} {t : State} (hf : ∀ a, SoundOpt M R (f a)) (he : l.findSome? f = some t) :
    Sound M R t := by
  obtain ⟨a, -, ha⟩ := List.exists_of_findSome?_eq_some he
  exact (hf a).some ha

section
variable {M R : Prop}

/-! ### Parts of the state -/

section
variable {s : State}

theorem homeOnly {t : State} (h : Sound M R s) (k : HomeOnly s t) : Sound M R t :=
  ⟨fun m => k.memories (h.memories m), fun r => (congrArg (fun l : List Warp => l.all Warp.regsOk) k.warps).trans (h.registers r)⟩

/-- An update of neither the memories nor the warps. -/
theorem update {pkg : Package} {home : Home} {launches : List Launch} {ctxs : List Context} {paddocks : List Paddock} {journal : List JEntry}
    {chans : List Channel} {cores : List Core} {reqs : List Req} {ops : List LoadOp} {xd : Xducer} {preempts : List Preempt} {pageReqs : List PageReq}
    {nodes : List NodeEntry} {ats : List AtsEntry} {invals : List AtsInval} {log : List LogEvent} {cur : Option Cur} {forced : Option Cur}
    {agenda : List Turn} {served : List Nat} {late : List (Nat × Nat)} {arrivals : List (Meeting × Nat)} {barred : Bool} {fresh nextId : Nat} (h : Sound M R s) :
    Sound M R { s with
      pkg := pkg, home := home, launches := launches, ctxs := ctxs, paddocks := paddocks, journal := journal, chans := chans, cores := cores, reqs := reqs,
      ops := ops, xd := xd, preempts := preempts, pageReqs := pageReqs, nodes := nodes, ats := ats, invals := invals, log := log, cur := cur,
      forced := forced, agenda := agenda, served := served, late := late, arrivals := arrivals, barred := barred, fresh := fresh, nextId := nextId } :=
  ⟨h.memories, h.registers⟩

/-- An update of the domain's memory. -/
theorem setMem {m : Memory} (h : Sound M R s) (hm : s.mem.wf = true → m.wf = true) : Sound M R { s with mem := m } :=
  ⟨fun k => by
    have hs := h.memories k
    rw [State.memoriesOk_iff] at *
    exact ⟨hm hs.1, hs.2⟩, h.registers⟩

theorem modMem {f : Memory → Memory} (h : Sound M R s) (hf : ∀ m, m.wf = true → (f m).wf = true) : Sound M R (s.modMem f) := h.setMem (hf _)

/-- Other gangs, whose scratchpads keep their form when the old gangs' have theirs. -/
theorem setGangs {gs : List Gang} (h : Sound M R s) (hg : (∀ g ∈ s.gangs, swf g.scratch = true) → ∀ g ∈ gs, swf g.scratch = true) : Sound M R { s with gangs := gs } :=
  ⟨fun k => by
    have hs := h.memories k
    rw [State.memoriesOk_iff] at *
    exact ⟨hs.1, hg hs.2⟩, h.registers⟩

theorem pair {α : Type} {x : α} (h : Sound M R s) : Sound M R (s, x).1 := h

theorem modGang {gid : Nat} {f : Gang → Gang} (h : Sound M R s) (hf : ∀ g, swf g.scratch = true → swf (f g).scratch = true) : Sound M R (s.modGang gid f) :=
  h.setGangs (forall_modFirst _ f _ hf)

theorem mapGangs {f : Gang → Gang} (h : Sound M R s) (hf : ∀ g, swf g.scratch = true → swf (f g).scratch = true) : Sound M R { s with gangs := s.gangs.map f } :=
  h.setGangs fun hg x hx => by
    obtain ⟨g, hgs, rfl⟩ := List.mem_map.1 hx
    exact hf g (hg g hgs)

theorem filterGangs {q : Gang → Bool} (h : Sound M R s) : Sound M R { s with gangs := s.gangs.filter q } := h.setGangs fun hg x hx => hg x (List.mem_filter.1 hx).1

/-- Other warps, whose registers are in range when the old warps' are. -/
theorem setWarps {ws : List Warp} (h : Sound M R s) (hw : (∀ w ∈ s.warps, w.regsOk = true) → ∀ w ∈ ws, w.regsOk = true) : Sound M R { s with warps := ws } :=
  ⟨h.memories, fun r => by
    have hs := h.registers r
    rw [State.regsOk_iff] at *
    exact hw hs⟩

theorem modWarp {wid : Nat} {f : Warp → Warp} (h : Sound M R s) (hf : ∀ w, w.regsOk = true → (f w).regsOk = true) : Sound M R (s.modWarp wid f) :=
  h.setWarps (forall_modFirst _ f _ hf)

theorem mapWarps {f : Warp → Warp} (h : Sound M R s) (hf : ∀ w, w.regsOk = true → (f w).regsOk = true) : Sound M R { s with warps := s.warps.map f } :=
  h.setWarps fun hw x hx => by
    obtain ⟨w, hws, rfl⟩ := List.mem_map.1 hx
    exact hf w (hw w hws)

theorem filterWarps {q : Warp → Bool} (h : Sound M R s) : Sound M R { s with warps := s.warps.filter q } := h.setWarps fun hw x hx => hw x (List.mem_filter.1 hx).1

theorem addWarps {ws : List Warp} (h : Sound M R s) (hws : ∀ w ∈ ws, w.regsOk = true) : Sound M R { s with warps := s.warps ++ ws } :=
  h.setWarps fun hw x hx => (List.mem_append.1 hx).elim (hw x) (hws x)

/-! The same where other parts change too. -/

theorem ofMem {t : State} (h : Sound M R s) (hg : t.gangs = s.gangs) (hw : t.warps = s.warps) (hm : s.mem.wf = true → t.mem.wf = true) : Sound M R t :=
  ⟨fun k => by
    have hs := h.memories k
    rw [State.memoriesOk_iff] at *
    rw [hg]
    exact ⟨hm hs.1, hs.2⟩, fun r => (congrArg (fun l : List Warp => l.all Warp.regsOk) hw).trans (h.registers r)⟩

theorem ofWarps {t : State} {ws : List Warp} (h : Sound M R s) (hm : t.mem = s.mem) (hg : t.gangs = s.gangs) (hw : t.warps = ws) (hs : Sound M R { s with warps := ws }) :
    Sound M R t :=
  ⟨fun k => by
    have hk := h.memories k
    rw [State.memoriesOk_iff] at *
    rwa [hm, hg], fun r => (congrArg (fun l : List Warp => l.all Warp.regsOk) hw).trans (hs.registers r)⟩

/-- The memory of one state with the gangs and warps of another. -/
theorem merge {u t : State} (h : Sound M R s) (hu : Sound M R u) (hm : u.mem.wf = true → t.mem.wf = true)
    (hg : (∀ g ∈ s.gangs, swf g.scratch = true) → ∀ g ∈ t.gangs, swf g.scratch = true)
    (hw : (∀ w ∈ s.warps, w.regsOk = true) → ∀ w ∈ t.warps, w.regsOk = true) : Sound M R t :=
  ⟨fun k => by
    have hs := h.memories k
    have hk := hu.memories k
    rw [State.memoriesOk_iff] at *
    exact ⟨hm hk.1, hg hs.2⟩, fun r => by
    have hr := h.registers r
    rw [State.regsOk_iff] at *
    exact hw hr⟩

theorem warp_ok {w : Warp} (h : Sound M R s) (r : R) (hw : w ∈ s.warps) : w.regsOk = true := (State.regsOk_iff s).1 (h.registers r) w hw

theorem replaceWarp {wid : Nat} {x : Warp} (h : Sound M R s) (hx : R → x.regsOk = true) : Sound M R (s.modWarp wid fun _ => x) :=
  ⟨h.memories, fun r => (h.modWarp fun _ _ => hx r).registers r⟩

theorem modLaunch {id : Nat} {f : Launch → Launch} (h : Sound M R s) : Sound M R (s.modLaunch id f) := h.update
theorem modContext {id : Nat} {f : Context → Context} (h : Sound M R s) : Sound M R (s.modContext id f) := h.update
theorem modChan {ch : Nat} {f : Channel → Channel} (h : Sound M R s) : Sound M R (s.modChan ch f) := h.update
theorem modReq {id : Nat} {f : Req → Req} (h : Sound M R s) : Sound M R (s.modReq id f) := h.update
theorem delReq {id : Nat} (h : Sound M R s) : Sound M R (s.delReq id) := h.update
theorem modOp {id : Nat} {f : LoadOp → LoadOp} (h : Sound M R s) : Sound M R (s.modOp id f) := h.update
theorem modPkg {f : Package → Package} (h : Sound M R s) : Sound M R (s.modPkg f) := h.update
theorem note {ctx : Option Nat} {k : LogKind} {data : List Int} (h : Sound M R s) : Sound M R (s.note ctx k data) := h.update
theorem bump (h : Sound M R s) : Sound M R s.bump := h.update
theorem modHeld {pkg line : Int} {f : HeldLine → HeldLine} (h : Sound M R s) : Sound M R (s.modHeld pkg line f) := h.update
theorem modCore {n : Nat} {f : Core → Core} (h : Sound M R s) : Sound M R (s.modCore n f) := h.homeOnly ((HomeOnly.refl s).modCore n f)
theorem modPaddock {n : Nat} {f : Paddock → Paddock} (h : Sound M R s) : Sound M R (s.modPaddock n f) := by
  unfold State.modPaddock
  split
  · exact h.update
  · exact h.update

theorem ite {c : Prop} [Decidable c] {u : State} (h : Sound M R s) (h' : Sound M R u) : Sound M R (if c then s else u) := by split <;> assumption

theorem foldl {α : Type} {f : State → α → State} {l : List α} (h : Sound M R s) (hf : ∀ u x, Sound M R u → Sound M R (f u x)) : Sound M R (l.foldl f s) := by
  induction l generalizing s with
  | nil => exact h
  | cons x l ih => exact ih (hf s x h)
end
end
end Sound
end Sys2Proof.Machine
end

section
/-! ## What the parts of the state keep: a warp's registers, a gang's scratchpad, memory -/

namespace Sys2Proof.Machine

open Sys2Proof Tern

/-! ### Warps -/

namespace Warp

/-- An update of neither registers nor lanes. -/
theorem regsOk_of {w w' : Warp} (h : w.regsOk = true) (hv : w'.v = w.v) (hg : w'.g = w.g) (hl : w'.lanes = w.lanes) : w'.regsOk = true := by
  rw [Warp.regsOk_iff] at *
  rwa [hv, hg, hl]

/-- A list of changes that each keep the registers in range. -/
theorem regsOk_foldl {α : Type} {f : Warp → α → Warp} {l : List α} {w : Warp} (h : w.regsOk = true) (hf : ∀ w x, w.regsOk = true → (f w x).regsOk = true) :
    (l.foldl f w).regsOk = true :=
  List.foldlRecOn l f (motive := (·.regsOk = true)) h fun w hw x _ => hf w x hw

variable {w : Warp}

theorem regsOk_modLane {l : Nat} {f : Lane → Lane} (h : w.regsOk = true) (hf : ∀ x, x.latchesOk = true → (f x).latchesOk = true) : (w.modLane l f).regsOk = true :=
  regsOk_lanes h _ fun i x hx => by
    split
    · exact hf x hx
    · exact hx
theorem regsOk_countYields {n : Int} (h : w.regsOk = true) : (w.countYields n).regsOk = true := regsOk_lanes h _ fun _ _ hx => hx
theorem regsOk_haltLanes {ls : List Nat} {t : Halt} (h : w.regsOk = true) : (w.haltLanes ls t).regsOk = true := regsOk_modLanes h _ _ fun _ _ hx => hx
theorem regsOk_haltAll {t : Halt} (h : w.regsOk = true) : (w.haltAll t).regsOk = true := regsOk_haltLanes h
theorem regsOk_holdTrap {t : WatchTrap} (h : w.regsOk = true) : (w.holdTrap t).regsOk = true := by
  unfold Warp.holdTrap
  split
  · exact h
  · exact h
theorem regsOk_raise {fl : List (Nat × Fl)} (h : w.regsOk = true) : (w.raise fl).regsOk = true :=
  regsOk_lanes h _ fun _ _ hx => by split <;> exact hx
theorem regsOk_setP {l n : Nat} {x : Int} (h : w.regsOk = true) : (w.setP l n x).regsOk = true := by
  unfold Warp.setP
  split
  · exact h
  · exact h
theorem regsOk_setQ {n : Nat} {x : Int} (h : w.regsOk = true) : (w.setQ n x).regsOk = true := by
  unfold Warp.setQ
  split
  · exact h
  · exact h
theorem regsOk_waitOn {ls : List Nat} {k : WaitKind} {word : Int} (h : w.regsOk = true) : (w.waitOn ls k word).regsOk = true := by
  unfold Warp.waitOn
  split
  · exact regsOk_modLanes h _ _ fun _ _ hx => hx
  · exact regsOk_modLanes h _ _ fun _ _ hx => hx
theorem regsOk_wake {p : Wait → Bool} (h : w.regsOk = true) : (w.wake p).regsOk = true := regsOk_lanes h _ fun _ _ hx => hx
theorem regsOk_jump {ls al : List Nat} {target : Nat → Int} (h : w.regsOk = true) : (w.jump ls al target).regsOk = true :=
  regsOk_modLanes h _ _ fun _ _ hx => hx
theorem regsOk_stays {ls : List Nat} (h : w.regsOk = true) : (w.stays ls).regsOk = true := regsOk_modLanes h _ _ fun _ _ hx => hx
theorem regsOk_leave {now : Int} (h : w.regsOk = true) : (w.leave now).regsOk = true :=
  regsOk_of (regsOk_lanes h (fun _ x => Lane.resume now x) fun _ _ hx => hx) rfl rfl rfl
theorem regsOk_unhalt (h : w.regsOk = true) : w.unhalt.regsOk = true :=
  regsOk_of (regsOk_lanes h _ fun _ _ hx => by split <;> exact hx) rfl rfl rfl
theorem regsOk_applyRole {allot : Nat} {cls entry : Int} (h : w.regsOk = true) : (w.applyRole allot cls entry).regsOk = true := by
  have hl := regsOk_lanes h (fun _ x => if x.live then { x with pc := entry, depth := 0, link := [], pos := 0, since := 0 } else { x with pos := 0, since := 0 })
    fun _ _ hx => by split <;> exact hx
  rw [regsOk_iff] at *
  exact ⟨wordsOk_filter _ h.1, hl.2⟩
theorem regsOk_reissue {p : Wait → Bool} (h : w.regsOk = true) : (w.reissue p).regsOk = true :=
  regsOk_of (regsOk_wake (p := p) (regsOk_lanes h (fun _ x => { x with pc := match x.wait with | some y => if p y then y.word else x.pc | none => x.pc })
    fun _ _ hx => hx)) rfl rfl rfl
theorem regsOk_untouch {ls : List Nat} (h : w.regsOk = true) : (w.untouch ls).regsOk = true := by
  unfold Warp.untouch
  split
  · exact regsOk_modLanes h _ _ fun _ _ hx => hx
  · exact regsOk_modLanes h _ _ fun _ _ hx => hx
theorem regsOk_takeSignal {g : Signal} (h : w.regsOk = true) : (w.takeSignal g).regsOk = true := by
  unfold Warp.takeSignal
  split
  · split
    · exact h
    · exact regsOk_haltAll h
  · exact h
theorem regsOk_halfWrite {a : Half} {rs : List (Nat × Int × Fl)} (h : w.regsOk = true) : (a.write rs w).regsOk = true :=
  regsOk_foldl h fun _ _ hw => regsOk_setDst hw _ _ _ _

theorem regsOk_setWarpItem {w' : Warp} {item : Nat} {v : Int} (h : w.regsOk = true) (he : setWarpItem w item v = some w') : w'.regsOk = true := by
  unfold setWarpItem at he
  split at he
  · obtain rfl := Option.some.inj he
    exact regsOk_setG h _ _
  · split at he
    · cases he
    · obtain rfl := Option.some.inj he
      exact regsOk_setQ h

/-- A debugger's write of a latch fits it. -/
theorem regsOk_setLaneItem {w' : Warp} {l item : Nat} {v : Int} (h : w.regsOk = true) (he : setLaneItem w l item v = some w') : w'.regsOk = true := by
  unfold setLaneItem at he
  split at he
  · split at he
    · obtain rfl := Option.some.inj he
      exact regsOk_setV h _ _ _
    · cases he
  · split at he
    · split at he
      · cases he
      · obtain rfl := Option.some.inj he
        exact regsOk_setP h
    · split at he
      · obtain rfl := Option.some.inj he
        refine regsOk_modLane h fun x hx => ?_
        obtain ⟨h1, h2, h3⟩ := (Lane.latchesOk_iff x).1 hx
        split
        · exact (Lane.latchesOk_iff _).2 ⟨Latch.fit_ok _, h2, h3⟩
        · split
          · exact (Lane.latchesOk_iff _).2 ⟨h1, Latch.fit_ok _, h3⟩
          · exact (Lane.latchesOk_iff _).2 ⟨h1, h2, Latch.fit_ok _⟩
      · obtain rfl := Option.some.inj he
        exact regsOk_modLane h fun _ hx => hx

end Warp

namespace Lane

theorem start_latchesOk (pc : Int) : (Lane.start pc).latchesOk = true := by
  have h0 : Latch.ok ⟨0, false⟩ = true := by decide
  exact (Lane.latchesOk_iff _).2 ⟨h0, h0, h0⟩

theorem writeS_latchesOk {x : Lane} {r : SReg} {v : Int} (h : x.latchesOk = true) : (x.writeS r v).latchesOk = true := by
  unfold Lane.writeS Lane.setState
  split
  · exact h
  · exact h
  · exact h
  · split <;> exact h
  · extract_lets x1 x2
    have h2 : x2.latchesOk = true := by
      unfold x2
      split <;> exact h
    split
    · exact h2
    · split <;> exact h2
  · exact h
  · exact h
  · exact h
  · exact h

end Lane

/-- A load's results go into registers and latches in range. -/
theorem Warp.regsOk_loadWrite {o : LoadOp} {live : List Nat} {w : Warp} (h : w.regsOk = true) : (o.write live w).regsOk = true := by
  refine Warp.regsOk_foldl h fun w x hw => ?_
  split
  · exact hw
  · split
    · split
      · exact hw
      · exact Warp.regsOk_setDst hw _ _ _ _
    · split
      · exact hw
      · exact Warp.regsOk_raise (Warp.regsOk_modLane (Warp.regsOk_setDst hw _ _ _ _) fun _ hx => Lane.lateLatch_ok hx _ _)

theorem Warp.regsOk_putBack {o : LoadOp} {bad : List Nat} {w : Warp} (h : w.regsOk = true) : (o.putBack bad w).regsOk = true := by
  unfold LoadOp.putBack
  split
  · exact h
  · split
    · exact h
    · refine Warp.regsOk_modLanes h _ _ fun _ x hx => ?_
      split
      · unfold Lane.standAgain
        extract_lets y
        split <;> exact hx
      · exact hx

/-- What a liveness record leaves in registers: 0 or what stood in one. -/
theorem Warp.regsOk_applyRecord {w : Warp} {r : List Int} (h : w.regsOk = true) : (applyRecord w r).regsOk = true := by
  rw [Warp.regsOk_iff] at *
  obtain ⟨hv, hg, hl⟩ := h
  have h0 : -maxv 27 ≤ 0 ∧ (0 : Int) ≤ maxv 27 := by decide
  refine ⟨?_, ?_, hl⟩
  · refine List.foldlRecOn _ _ (motive := (wordsOk · = true)) hv fun m hm l _ => List.foldlRecOn _ _ (motive := (wordsOk · = true)) hm fun m hm n _ => ?_
    split
    · exact hm
    · refine wordsOk_sset hm _ ?_
      split
      · exact h0
      · exact sget_range hv _
  · refine List.foldlRecOn _ _ (motive := (wordsOk · = true)) hg fun m hm n _ => ?_
    split
    · exact wordsOk_sset hm _ h0
    · exact hm

/-! ### Memory -/

/-- Other data in the canonical form. -/
theorem wf_setData {m : Memory} {d : Store} (hm : m.wf = true) (hd : swf m.data = true → swf d = true) : ({ m with data := d } : Memory).wf = true := by
  rw [Memory.wf_iff] at *
  exact ⟨hd hm.1, hm.2⟩

/-! ### Scratchpads -/

theorem swf_plainLine {g : Gang} {line : Nat} (h : swf g.scratch = true) : swf (g.plainLine line).scratch = true := by
  unfold Gang.plainLine
  extract_lets t
  split
  · exact swf_setLine h _ _ _
  · split
    · exact List.foldlRecOn _ _ (motive := fun g : Gang => swf g.scratch = true) h fun _ hg _ _ => swf_setLine hg _ _ _
    · exact h
theorem swf_spillStore {l : Nat} {a v : Int} {g : Gang} (h : swf g.scratch = true) : swf (spillStore l a v g).scratch = true :=
  swf_write (swf_plainLine h) _ _ _
theorem swf_spillCalls {w : Warp} {al : List Nat} {g : Gang} (h : swf g.scratch = true) : swf (spillCalls w al g).scratch = true := by
  refine List.foldlRecOn _ _ (motive := fun g : Gang => swf g.scratch = true) h fun g hg l _ => ?_
  extract_lets x
  split
  · split
    · exact swf_spillStore hg
    · exact hg
  · exact hg
theorem swf_modWin {g : Gang} {k : Nat} {f : Window → Window} (h : swf g.scratch = true) : swf (g.modWin k f).scratch = true := h
theorem swf_modBar {g : Gang} {q : Nat} {f : Bar → Bar} (h : swf g.scratch = true) : swf (g.modBar q f).scratch = true := h

end Sys2Proof.Machine
end

section
/-! ## The invariant layer: words and what they share: traps, watch units, results, translation, the scratchpad, control -/

namespace Sys2Proof.Machine

open Sys2Proof Tern

namespace Sound

variable {M R : Prop}

/-! ### Ops -/

theorem orStay {s t : State} (h : Sound M R s) (h1 : Sound M R t) : Sound M R (s.orStay t) := by
  unfold Machine.State.orStay
  exact h.ite h1

theorem met {s : State} {m : Meeting} {key : Nat} (h : Sound M R s) : Sound M R (s.met m key) := by
  unfold Machine.State.met
  exact h.update

theorem commitGang {s : State} {gid : Nat} (h : Sound M R s) : Sound M R (s.commitGang gid) := by
  unfold Machine.State.commitGang
  extract_lets s1
  have hs1 : Sound M R s1 := h.modGang (fun _ hg => hg)
  split
  · exact h
  · exact hs1.modLaunch

theorem commitWarp {s : State} {w : Warp} (h : Sound M R s) : Sound M R (s.commitWarp w) := by
  unfold Machine.State.commitWarp
  split
  · exact h.commitGang
  · exact h

theorem doubleTrap {s : State} {w : Warp} {c : Int} (h : Sound M R s) : Sound M R (s.doubleTrap w c) := by
  unfold Machine.State.doubleTrap
  extract_lets h'
  exact note (h.modWarp (fun _ hw => Warp.regsOk_haltAll hw))

theorem enterTrap {s : State} {wid : Nat} {t : TrapReq} (h : Sound M R s) : Sound M R (s.enterTrap wid t) := by
  unfold Machine.State.enterTrap
  split
  · exact h
  · exact h.doubleTrap.ite (h.modWarp (fun _ hw => Warp.regsOk_lanes hw _ (fun _ _ hx => hx)))

/-! ### WatchOps -/

theorem watchTest {s : State} {core : Nat} {t : Int} {m : Watch → List (Nat × Int)} (h : Sound M R s) :
    Sound M R (Machine.watchTest s core t m).1 := by
  unfold Machine.watchTest
  extract_lets us
  split
  · exact h
  · exact h.modCore.pair

theorem haltBy {s : State} {wid : Nat} {action : Int} {lanes : List Nat} {t : Halt} (h : Sound M R s) :
    Sound M R (Machine.haltBy s wid action lanes t) := by
  unfold Machine.haltBy
  extract_lets own others
  have hown : Sound M R own := ite (h.modWarp (fun _ hw => Warp.regsOk_haltLanes hw)) (h.modWarp (fun _ hw => Warp.regsOk_haltAll hw))
  have hothers : ∀ {u p at_}, Sound M R u → Sound M R (others u p at_) := fun hu => hu.mapWarps fun w hw => by split <;> exact hw
  split
  · exact h
  · extract_lets s1 s2
    have hs2 : Sound M R s2 := hothers hown.note
    split
    · exact hown.note
    · split
      · exact hs2
      · split
        · exact hs2
        · split
          · exact hs2
          · exact hs2.modLaunch

theorem watchAct {s : State} {wid : Nat} {ts : List Trig} (h : Sound M R s) : Sound M R (Machine.watchAct s wid ts) := by
  unfold Machine.watchAct
  extract_lets tr st laneH unit s1 s2
  have hs1 : Sound M R s1 := h.ite h.haltBy
  have hs2 : Sound M R s2 := hs1.haltBy
  exact ite (h.ite h.enterTrap) (hs2.modWarp (fun _ hw => Warp.regsOk_holdTrap hw))

/-! ### Issue -/

theorem plain {s : State} (h : Sound M R s) : SoundEff M R (Machine.Eff.plain s) := by
  unfold Machine.Eff.plain
  exact h

theorem modStep {s : State} {dbg n : Nat} {f : PendOp → PendOp} (h : Sound M R s) : Sound M R (s.modStep dbg n f) := by
  unfold Machine.State.modStep
  extract_lets g
  exact modPkg (h.modWarp (fun _ hw => hw))

theorem recordStep {s : State} {dbg n : Nat} {r : Int × Int × Int × Int} (h : Sound M R s) : Sound M R (Machine.recordStep s dbg n r) := by
  unfold Machine.recordStep
  exact h.modStep

theorem raiseTrap {s : State} {c : Cur} {t : TrapReq} (h : Sound M R s) : Sound M R (Machine.raiseTrap s c t) := by
  unfold Machine.raiseTrap
  extract_lets ia
  split
  · exact h.enterTrap
  · exact h.recordStep

theorem raiseDone {s : State} {c : Cur} {t : TrapReq} (h : Sound M R s) : Sound M R (Machine.raiseDone s c t) := by
  unfold Machine.raiseDone
  split
  · refine enterTrap (h.modWarp (fun _ hw => ?_))
    split
    · exact hw
    · exact hw
  · exact h.raiseTrap

theorem watchResults {s : State} {c : Cur} {core : Nat} {t : Int} {res : List (List (Nat × Latch) × ResKind)} {fl : List (Nat × Fl)} (h : Sound M R s) :
    Sound M R (Machine.watchResults s c core t res fl).1 := by
  unfold Machine.watchResults
  split
  · exact h
  · exact h.watchTest

theorem afterWord {i : Instr} {s : State} {c : Cur} {w : Warp} {res : List (List (Nat × Latch) × ResKind)} {fl : List (Nat × Fl)} (h : Sound M R s) :
    Sound M R (Machine.afterWord i s c w res fl) := by
  unfold Machine.afterWord
  extract_lets p ar s1
  have hp : Sound M R p.1 := by
    unfold p
    split
    · exact h.watchResults
    · exact h
  have hs1 : Sound M R s1 := ite (hp.modWarp (fun _ hw => Warp.regsOk_holdTrap hw)) hp.watchAct
  split
  · exact hp.recordStep.ite hp.raiseTrap
  · exact hp.watchAct.ite hs1.raiseDone

theorem finishWord {i : Instr} {s : State} {c : Cur} {w : Warp} {lts : List (Nat → Latch)} {res : List (List (Nat × Latch) × ResKind)} {fl : List (Nat × Fl)} {adv : Bool} (h : Sound M R s) :
    Sound M R (Machine.finishWord i s c w lts res fl adv) := by
  unfold Machine.finishWord
  extract_lets s1
  have hs1 : Sound M R s1 := h.update
  exact afterWord (hs1.modWarp (fun _ hw => Warp.regsOk_retireWord hw _ _ _ _ _ _))

/-- A word keeps what its effect keeps. -/
theorem runWord {i : Instr} {s : State} {act : State → Cur → Warp → List Nat → Eff} (h : Sound M R s)
    (ha : ∀ {u c w al}, Sound M R u → SoundEff M R (act u c w al)) : Sound M R (Machine.runWord i s act) := by
  unfold Machine.runWord
  extract_lets s'
  have hs' : Sound M R s' := h.update
  split
  · exact h
  · rename_i c _
    extract_lets s1
    have hs1 : Sound M R s1 := modWarp hs' (fun _ hw => Warp.regsOk_countYields hw)
    split
    · exact h
    · rename_i w _
      extract_lets al
      have he : SoundEff M R (act s1 c w al) := ha hs1
      split
      · exact hs1.raiseTrap
      · split
        all_goals rename_i heq; rw [heq] at he
        · exact Sound.raiseTrap he
        · split
          · exact Sound.recordStep he
          · exact he
        · exact Sound.finishWord he
        · exact hs'.modWarp (fun _ hw => hw)
        · exact Sound.finishWord he
        · exact Sound.finishWord he
        · exact Sound.finishWord he

theorem privTrap {s : State} {c : Cur} (h : Sound M R s) : SoundEff M R (Machine.privTrap s c) := by
  unfold Machine.privTrap
  exact h

theorem illegalTrap {s : State} {ls : List Nat} {info : Int} (h : Sound M R s) : SoundEff M R (Machine.illegalTrap s ls info) := by
  unfold Machine.illegalTrap
  exact h

theorem computeWord {i : Instr} {s : State} {d : Dst} {dbl : Bool} {k : ResKind} {f : Warp → Nat → Int × Fl} (h : Sound M R s) :
    Sound M R (Machine.computeWord i s d dbl k f) := by
  unfold Machine.computeWord
  refine h.runWord (fun hu => ?_)
  extract_lets rs s1 r s1'
  have hs1 : Sound M R s1 := hu.modWarp (fun _ hw => Warp.regsOk_foldl hw (fun _ _ hw1 => Warp.regsOk_setDst hw1 _ _ _ _))
  have hs1' : Sound M R s1' := hu.modWarp (fun _ hw => Warp.regsOk_setDst hw _ _ _ _)
  split
  · exact hs1
  · split
    · exact hu.plain
    · exact hs1'

theorem predWord {i : Instr} {s : State} {pd : Nat} {f : Warp → Nat → Int × Fl} (h : Sound M R s) : Sound M R (Machine.predWord i s pd f) := by
  unfold Machine.predWord
  refine h.runWord (fun hu => ?_)
  extract_lets rs s1 r
  have hs1 : Sound M R s1 := hu.modWarp (fun _ hw => Warp.regsOk_foldl hw (fun _ _ hw1 => Warp.regsOk_setP hw1))
  split
  · exact hs1
  · split
    · exact hu.plain
    · exact hu.modWarp (fun _ hw => Warp.regsOk_setQ hw)

/-! ### Floating -/

theorem fltWord1 {i : Instr} {o : F1} {s : State} {f : Fmt → List Int → Int × Fl} (h : Sound M R s) : Sound M R (Machine.fltWord1 i o s f) := by
  unfold Machine.fltWord1
  exact h.computeWord

theorem fltWord2 {i : Instr} {o : F2} {s : State} {f : Fmt → List Int → Int × Fl} (h : Sound M R s) : Sound M R (Machine.fltWord2 i o s f) := by
  unfold Machine.fltWord2
  exact h.computeWord

/-! ### Integer -/

theorem intWord1 {i : Instr} {o : I1} {s : State} {f : Nat → Int → Int × Fl} (h : Sound M R s) : Sound M R (Machine.intWord1 i o s f) := by
  unfold Machine.intWord1
  exact h.computeWord

theorem intWord2 {i : Instr} {o : I2} {s : State} {f : Nat → Int → Int → Int × Fl} (h : Sound M R s) : Sound M R (Machine.intWord2 i o s f) := by
  unfold Machine.intWord2
  exact h.computeWord

theorem intWord3 {i : Instr} {o : I3} {s : State} {f : Nat → Int → Int → Int → Int × Fl} (h : Sound M R s) :
    Sound M R (Machine.intWord3 i o s f) := by
  unfold Machine.intWord3
  exact h.computeWord

/-! ### Compare -/

theorem predReduce {i : Instr} {s : State} {qd : Nat} {a : PSrc} {f : Int → Int → Int} (h : Sound M R s) :
    Sound M R (Machine.predReduce i s qd a f) := by
  unfold Machine.predReduce
  refine h.runWord (fun hu => ?_)
  split
  · exact hu.plain
  · extract_lets v
    exact hu.modWarp (fun _ hw => Warp.regsOk_setQ hw)

theorem crossWord {i : Instr} {s : State} {d : Dst} {dbl : Bool} {k : ResKind} {f : Warp → List Nat → Nat → Int} {fl : Warp → List Nat → Fl} (h : Sound M R s) :
    Sound M R (Machine.crossWord i s d dbl k f fl) := by
  unfold Machine.crossWord
  refine h.runWord (fun hu => ?_)
  extract_lets rs e
  exact hu.modWarp (fun _ hw => Warp.regsOk_foldl hw (fun _ _ hw1 => Warp.regsOk_setDst hw1 _ _ _ _))

/-! ### Windows -/

theorem noteRows {s : State} {core : Nat} (h : Sound M R s) : Sound M R (Machine.noteRows s core) :=
  h.homeOnly ((HomeOnly.refl _).noteRows _)

theorem markBank {s : State} {core bank : Nat} (h : Sound M R s) : Sound M R (Machine.markBank s core bank) :=
  h.homeOnly ((HomeOnly.refl _).markBank _ _)

theorem strike {s : State} {a : Option (Nat × Nat × Nat)} (h : Sound M R s) : Sound M R (Machine.strike s a) := by
  unfold Machine.strike
  split
  · exact h.ite h.modCore.noteRows
  · exact h

theorem correctRow {s : State} {p : Nat × Nat} (h : Sound M R s) : Sound M R (Machine.correctRow s p) :=
  h.homeOnly ((HomeOnly.refl _).correctRow _)

theorem scrub {s : State} {gid : Nat} {us : List (Int × Nat)} (h : Sound M R s) : Sound M R (Machine.scrub s gid us) :=
  h.homeOnly ((HomeOnly.refl _).scrub _ _)

theorem clearRows {s : State} {gid : Nat} (h : Sound M R s) : Sound M R (Machine.clearRows s gid) := by
  unfold Machine.clearRows
  split
  · exact h
  · extract_lets rows
    exact h.ite (h.foldl (fun _ _ hu => hu.modCore.noteRows))

theorem send {s : State} {src ctx wid : Nat} {pkg line : Int} {b : ReqBody} {sc : Option ScKey} (h : Sound M R s) :
    Sound M R (s.send src ctx wid pkg line b sc) :=
  h.homeOnly ((HomeOnly.refl _).send _ _ _ _ _ _ _)

theorem dedupLine {s : State} {pkg line : Int} (h : Sound M R s) : Sound M R (Machine.dedupLine s pkg line) :=
  h.homeOnly ((HomeOnly.refl _).dedupLine _ _)

theorem sendRecalls {s : State} {pkg line : Int} {own : Bool} {except : Option (Nat × Nat × Nat)} (h : Sound M R s) :
    Sound M R (Machine.sendRecalls s pkg line own except) := by
  unfold Machine.sendRecalls
  extract_lets hs todo
  exact h.foldl (fun _ _ hu => hu.send)

/-! ### Translate -/

theorem homeTake {s : State} {pkg line : Int} {d : Store} {t : Tag} {bad : Bool} (h : Sound M R s) :
    Sound M R (Machine.homeTake s pkg line d t bad) :=
  h.homeOnly ((HomeOnly.refl _).homeTake _ _ _ _ _)

theorem refreshFills {s : State} {pkg line : Int} (h : Sound M R s) : Sound M R (Machine.refreshFills s pkg line) :=
  h.homeOnly ((HomeOnly.refl _).refreshFills _ _)

theorem bringHome {a : Nat} {a1 : Bool} {a2 : State} {a3 : Nat × Nat × WLine} (h : Sound M R a2) : Sound M R (Machine.bringHome a a1 a2 a3) :=
  h.homeOnly ((HomeOnly.refl _).bringHome _ _ _)

theorem dropFrame {s : State} {pkg frame : Int} (h : Sound M R s) : Sound M R (Machine.dropFrame s pkg frame) :=
  h.homeOnly ((HomeOnly.refl _).dropFrame _ _)

theorem poisonFrames {s : State} {pkg : Int} {fs : List Int} (h : Sound M R s) : Sound M R (Machine.poisonFrames s pkg fs) :=
  h.homeOnly ((HomeOnly.refl _).poisonFrames _ _)

theorem loseLines {s : State} {pkg : Int} {ls : List Int} (h : Sound M R s) : Sound M R (Machine.loseLines s pkg ls) :=
  h.homeOnly ((HomeOnly.refl _).loseLines _ _)

theorem poisonImage {s : State} {pkg line : Int} (h : Sound M R s) : Sound M R (Machine.poisonImage s pkg line) :=
  h.homeOnly ((HomeOnly.refl _).poisonImage _ _)

theorem readHome {s : State} {pkg line : Int} (h : Sound M R s) : Sound M R (Machine.readHome s pkg line) :=
  h.homeOnly ((HomeOnly.refl _).readHome _ _)

theorem recallNow {s : State} {pkg line : Int} {own : Bool} (h : Sound M R s) : Sound M R (Machine.recallNow s pkg line own) :=
  h.homeOnly ((HomeOnly.refl _).recallNow _ _ _)

theorem setPteBit {s : State} {a : Int} {i : Nat} (h : Sound M R s) : Sound M R (Machine.setPteBit s a i) :=
  h.homeOnly ((HomeOnly.refl _).setPteBit _ _)

theorem coldWalk {s : State} {ctx : Nat} {n : Int} (h : Sound M R s) : Sound M R (Machine.coldWalk s ctx n).1 :=
  h.homeOnly ((HomeOnly.refl _).coldWalk _ _)

theorem walk {s : State} {core ctx : Nat} {n : Int} (h : Sound M R s) : Sound M R (Machine.walk s core ctx n).1 :=
  h.homeOnly ((HomeOnly.refl _).walk _ _ _)

theorem leafFor {s : State} {core ctx : Nat} {n : Int} (h : Sound M R s) : Sound M R (Machine.leafFor s core ctx n).1 :=
  h.homeOnly ((HomeOnly.refl _).leafFor _ _ _)

theorem checkAddr {s : State} {core ctx : Nat} {sup : Bool} {nd : Need} {poison : Bool} {a : Int} (h : Sound M R s) :
    Sound M R (Machine.checkAddr s core ctx sup nd poison a).1 :=
  h.homeOnly ((HomeOnly.refl _).checkAddr _ _ _ _ _ _)

theorem checkAddrs {s : State} {core ctx : Nat} {sup : Bool} {nd : Need} {poison : Bool} {a : List Int} (h : Sound M R s) :
    Sound M R (Machine.checkAddrs s core ctx sup nd poison a).1 :=
  h.homeOnly ((HomeOnly.refl _).checkAddrs _ _ _ _ _ _)

theorem markWalk {s : State} {ctx : Nat} {a : Int} {loc : Loc} (h : Sound M R s) : Sound M R (Machine.markWalk s ctx a loc) :=
  h.homeOnly ((HomeOnly.refl _).markWalk _ _ _)

theorem setDirty {s : State} {core ctx : Nat} {a : Int} {loc : Loc} (h : Sound M R s) : Sound M R (Machine.setDirty s core ctx a loc) :=
  h.homeOnly ((HomeOnly.refl _).setDirty _ _ _ _)

theorem setLeafDirty {s : State} {core ctx : Nat} {a : Int} {f : Leaf} {loc : Loc} (h : Sound M R s) :
    Sound M R (Machine.setLeafDirty s core ctx a f loc) :=
  h.homeOnly ((HomeOnly.refl _).setLeafDirty _ _ _ _ _)

theorem dropTlb {s : State} {ctx : Nat} {half first count : Int} (h : Sound M R s) : Sound M R (Machine.dropTlb s ctx half first count) := by
  unfold Machine.dropTlb
  exact h.update

/-! ### Scratch -/

theorem tbPut {s : State} {l : TbLoc} {t : Tb} (h : Sound M R s) : Sound M R (Machine.tbPut s l t) := by
  unfold Machine.tbPut
  split
  · exact h.scrub.modGang (fun _ hg => swf_write (swf_write (swf_write hg _ _ _) _ _ _) _ _ _)
  · exact h.ite (refreshFills (h.modMem (fun _ hm => Memory.wf_write (Memory.wf_write (Memory.wf_write hm _ _ _ _) _ _ _ _) _ _ _ _)))

theorem meetDeps {s : State} {gid : Nat} {a phase : Int} (h : Sound M R s) : Sound M R (Machine.meetDeps s gid a phase) := by
  unfold Machine.meetDeps
  exact h.modGang (fun _ hg => hg)

theorem noteWake {s : State} {l : TbLoc} (h : Sound M R s) : Sound M R (Machine.noteWake s l) := by
  unfold Machine.noteWake
  split
  · exact h
  · extract_lets f
    exact h.update

theorem acquireGang {s : State} {w : Warp} (h : Sound M R s) : Sound M R (Machine.acquireGang s w) := by
  unfold Machine.acquireGang
  extract_lets pair ids s1
  have hs1 : Sound M R s1 := h.modCore.ite h
  exact hs1.ite (hs1.modWarp (fun _ hw => hw))

theorem tbSettle {s : State} {l : TbLoc} (h : Sound M R s) : Sound M R (Machine.tbSettle s l) := by
  unfold Machine.tbSettle
  extract_lets t s1 ph sa s2
  have hs1 : Sound M R s1 := h.tbPut.noteWake.ite h
  have hsa : Sound M R sa := hs1.foldl (fun _ _ hu => hu.acquireGang)
  have hs2 : Sound M R s2 := hsa.mapWarps (fun _ hw => Warp.regsOk_wake hw)
  split
  · exact hs2.meetDeps
  · exact hs2

theorem tbInit {s : State} {l : TbLoc} {n : Int} (h : Sound M R s) : Sound M R (Machine.tbInit s l n) := by
  unfold Machine.tbInit
  exact h.tbPut.tbSettle

theorem tbPost {s : State} {l : TbLoc} {n : Int} (h : Sound M R s) : Sound M R (Machine.tbPost s l n) := by
  unfold Machine.tbPost
  extract_lets t
  exact h.tbPut.tbSettle

theorem tbLand {s : State} {l : TbLoc} {n : Int} (h : Sound M R s) : Sound M R (Machine.tbLand s l n) := by
  unfold Machine.tbLand
  exact h.tbPost

theorem tbArrive {s : State} {l : TbLoc} (h : Sound M R s) : SoundOpt M R (Machine.tbArrive s l) := by
  unfold Machine.tbArrive
  extract_lets t
  split
  · exact trivial
  · exact h.tbPut.tbSettle

theorem tbPromise {s : State} {l : TbLoc} {p : Int} (h : Sound M R s) : Sound M R (Machine.tbPromise s l p) := by
  unfold Machine.tbPromise
  extract_lets t p'
  exact tbSettle (h.tbPut.ite h)

theorem startFill {s : State} {gid k : Nat} {w : Window} {js : List Nat} {ctx core : Nat} {sup : Bool} {rc : Option Nat} (h : Sound M R s) :
    Sound M R (Machine.startFill s gid k w js ctx core sup rc).1 := by
  unfold Machine.startFill
  extract_lets r p l places x s1 s2 s3
  have hr : Sound M R r.1 := h.checkAddrs
  have hs1 : Sound M R s1 := hr.update.tbPost.tbPromise
  have hs2 : Sound M R s2 := hs1.modGang (fun _ hg => swf_modWin hg)
  have hs3 : Sound M R s3 := hs2.foldl (fun _ _ hu => hu.send)
  split
  · exact hr
  · exact hs3

theorem touchLine {s : State} {gid k j ctx core : Nat} {sup : Bool} {rc : Option Nat} (h : Sound M R s) :
    Sound M R (Machine.touchLine s gid k j ctx core sup rc).1 := by
  unfold Machine.touchLine
  split
  · exact h
  · split
    · exact h
    · split
      · split
        · exact h
        · exact h
        · exact h
        · exact h
        · exact h
      · exact h.startFill

theorem touchAll {s : State} {gid ctx core : Nat} {sup : Bool} {rc : Option Nat} {l : List (Nat × Nat)} (h : Sound M R s) :
    Sound M R (Machine.touchAll s gid ctx core sup rc l).1 := by
  induction l generalizing s with
  | nil => exact h
  | cons p l ih => exact ih h.touchLine

theorem countRead {s : State} {gid k j : Nat} (h : Sound M R s) : Sound M R (Machine.countRead s gid k j) := by
  unfold Machine.countRead
  exact h.modGang (fun _ hg => swf_modWin hg)

theorem writeBackLine {s : State} {gid k j : Nat} {pin : Int} (h : Sound M R s) : Sound M R (Machine.writeBackLine s gid k j pin) := by
  unfold Machine.writeBackLine
  split
  · exact h
  · split
    · exact h
    · extract_lets line core
      split
      · exact h
      · extract_lets s0 s1
        have hs0 : Sound M R s0 := h.setLeafDirty.scrub.ite h
        have hs1 : Sound M R s1 := hs0.send
        exact hs1.modGang (fun _ hg => swf_modWin hg)

/-! ### Control -/

theorem execBra {o : BraA} {s : State} (h : Sound M R s) : SoundOut M R (Machine.execBra o s) := by
  unfold Machine.execBra
  refine h.runWord (fun hu => ?_)
  split
  · exact hu.plain
  · split
    · exact hu.modWarp (fun _ hw => hw)
    · exact hu.modWarp (fun _ hw => Warp.regsOk_jump hw)

theorem execJmpi {o : JmpA} {s : State} (h : Sound M R s) : SoundOut M R (Machine.execJmpi o s) := by
  unfold Machine.execJmpi
  exact h.runWord (fun hu => hu.modWarp (fun _ hw => Warp.regsOk_jump hw))

theorem callWord {i : Instr} {s : State} {target : Warp → Cur → Nat → Int} (h : Sound M R s) : Sound M R (Machine.callWord i s target) := by
  unfold Machine.callWord
  refine h.runWord (fun hu => ?_)
  extract_lets us
  split
  · exact hu.plain
  · extract_lets s1
    have hs1 : Sound M R s1 := hu.scrub.modGang (fun _ hg => swf_spillCalls hg)
    split
    · split
      · refine hs1.modWarp (fun _ hw => Warp.regsOk_modLanes hw _ _ (fun _ _ hx => ?_))
        split
        · exact hx
        · exact hx
      · exact hu
    · exact hu

theorem execRet {a0 : Hd} {s : State} (h : Sound M R s) : SoundOut M R (Machine.execRet a0 s) := by
  unfold Machine.execRet
  refine h.runWord (fun hu => ?_)
  split
  · exact hu.plain
  · split
    · split
      · refine hu.scrub.modWarp (fun _ hw => Warp.regsOk_modLanes hw _ _ (fun _ _ hx => ?_))
        split
        · exact hx
        · exact hx
      · exact hu
    · exact hu

theorem execYld {a0 : Hd} {s : State} (h : Sound M R s) : SoundOut M R (Machine.execYld a0 s) := by
  unfold Machine.execYld
  exact h.runWord (fun hu => plain (hu.modWarp (fun _ hw => Warp.regsOk_modLanes hw _ _ (fun _ _ hx => hx))))

theorem execWaitj {o : WaitjA} {s : State} (h : Sound M R s) : SoundOut M R (Machine.execWaitj o s) := by
  unfold Machine.execWaitj
  exact h.runWord (fun hu => plain (hu.modWarp (fun _ hw => Warp.regsOk_foldl hw (fun _ _ hw1 => Warp.regsOk_waitOn hw1))))

theorem execExit {a0 : Hd} {s : State} (h : Sound M R s) : SoundOut M R (Machine.execExit a0 s) := by
  unfold Machine.execExit
  refine h.runWord (fun hu => hu.modWarp (fun _ hw => Warp.regsOk_modLanes hw _ _ (fun _ _ hx => ?_)))
  split
  · exact hx
  · exact hx

theorem execNop {a0 : Hd} {s : State} (h : Sound M R s) : SoundOut M R (Machine.execNop a0 s) := by
  unfold Machine.execNop
  exact h.runWord (fun hu => hu.plain)

end Sound
end Sys2Proof.Machine
end

section
/-! ## The invariant layer: channels, tasks, the home and accesses -/

namespace Sys2Proof.Machine

open Sys2Proof Tern

namespace Sound

variable {M R : Prop}

/-! ### Channels -/

theorem applyRelease {s : State} {ch : Nat} {r : Release} (h : Sound M R s) : Sound M R (Machine.applyRelease s ch r) := by
  unfold Machine.applyRelease
  extract_lets s1 isWait gds
  have hs1 : Sound M R s1 := h.modChan
  exact hs1.mapWarps (fun _ hw => Warp.regsOk_wake (Warp.regsOk_foldl hw (fun _ _ hw1 => Warp.regsOk_setG hw1 _ _)))

theorem releaseDue {s : State} {ch : Nat} (h : Sound M R s) : Sound M R (Machine.releaseDue s ch) := by
  unfold Machine.releaseDue
  split
  · exact h
  · extract_lets rs
    exact h.modChan.foldl (fun _ _ hu => hu.applyRelease)

theorem breakChan {s : State} {ch : Nat} (h : Sound M R s) : Sound M R (Machine.breakChan s ch) := by
  unfold Machine.breakChan
  extract_lets s1 isWait
  have hs1 : Sound M R s1 := h.modChan
  refine hs1.foldl fun u w hu => ?_
  extract_lets ls hw s2
  have hs2 : Sound M R s2 := hu.modWarp fun x hx => Warp.regsOk_of (Warp.regsOk_wake (p := isWait) (Warp.regsOk_modLanes hx ls
    (fun _ x => { x with pc := match x.wait with | some y => if isWait y then y.word else x.pc | none => x.pc }) fun _ _ hl => hl)) rfl rfl rfl
  exact hu.ite hs2.enterTrap

/-! ### Home -/

theorem install {s : State} {pkg line : Int} {dirty : Bool} (h : Sound M R s) : Sound M R (Machine.install s pkg line dirty) :=
  h.homeOnly ((HomeOnly.refl _).install _ _ _)

theorem makeRoom {s : State} {pkg line : Int} (h : Sound M R s) : SoundOpt M R (Machine.makeRoom s pkg line) := by
  unfold Machine.makeRoom
  split
  · exact trivial
  · split
    · exact h.sendRecalls
    · split
      · exact h
      · split
        · exact h.poisonImage
        · exact trivial

theorem roomNow {pkg line : Int} {a : Nat} {a3 : State} (h : Sound M R a3) : Sound M R (Machine.roomNow pkg line a a3) :=
  h.homeOnly ((HomeOnly.refl _).roomNow _ _ _)

theorem data {s : State} {r : Req} {op : Nat} (h : Sound M R s) : Sound M R (s.data r op) := by
  unfold Machine.State.data
  exact h.delReq.send

theorem reply {s : State} {ids : List Nat} {f : Req → Req} (h : Sound M R s) : Sound M R (s.reply ids f) := by
  unfold Machine.State.reply
  exact h.update

theorem recallAll {s : State} {ls : List (Int × Int)} (h : Sound M R s) : Sound M R (Machine.recallAll s ls) := by
  unfold Machine.recallAll
  exact h.foldl (fun _ _ hu => hu.sendRecalls)

theorem unshare {s : State} {ls : List (Int × Int)} (h : Sound M R s) : Sound M R (Machine.unshare s ls) :=
  h.homeOnly ((HomeOnly.refl _).unshare _)

theorem takeLines {s : State} {ls : List (Int × Int)} (h : Sound M R s) : Sound M R (Machine.takeLines s ls) :=
  h.homeOnly ((HomeOnly.refl _).takeLines _)

theorem l1Scrub {s : State} {core : Nat} {p : Int × Int} {o n : Nat} (h : Sound M R s) : Sound M R (Machine.l1Scrub s core p o n) := by
  unfold Machine.l1Scrub
  extract_lets c
  split
  · exact h
  · split
    · exact h.foldl (fun _ _ hu => hu.correctRow)
    · exact h

theorem dropL1 {s : State} {core : Nat} {pkg line : Int} (h : Sound M R s) : Sound M R (Machine.dropL1 s core pkg line) := by
  unfold Machine.dropL1
  exact h.modCore

theorem fillL1 {s : State} {core : Nat} {pkg line : Int} {count : Option Nat} (h : Sound M R s) :
    Sound M R (Machine.fillL1 s core pkg line count) := by
  unfold Machine.fillL1
  extract_lets cap s1 n s2 free p
  have hs1 : Sound M R s1 := h.dropL1
  have hs2 : Sound M R s2 := hs1.ite hs1.modCore
  split
  · exact h
  · split
    · extract_lets s3
      have hs3 : Sound M R s3 := hs2.modCore
      exact hs3.update.l1Scrub
    · exact h

theorem capture {s : State} {op : Nat} {items : List Nat} {f : LaneRead → Got} (h : Sound M R s) : Sound M R (Machine.capture s op items f) := by
  unfold Machine.capture
  exact h.modOp

theorem startSectors {s : State} {r : Req} {g k j : Nat} (h : Sound M R s) : Sound M R (Machine.startSectors s r g k j) := by
  unfold Machine.startSectors
  extract_lets d
  exact h.reply

theorem serveRead {s : State} {r : Req} (h : Sound M R s) : Sound M R (Machine.serveRead s r) := by
  unfold Machine.serveRead
  split
  · split
    · exact h.delReq
    · extract_lets s1 s2
      have hs1 : Sound M R s1 := h.capture
      have hs2 : Sound M R s2 := by
        unfold s2
        split
        · exact hs1.foldl (fun _ _ hu => hu.dropL1)
        · split
          · exact hs1.fillL1.ite hs1
          · exact hs1
      exact hs2.data
  · exact h.capture.data
  · exact h.fillL1.delReq
  · exact h.startSectors
  · exact h

theorem readRecall {s : State} {r : Req} (h : Sound M R s) : Sound M R (Machine.readRecall s r) := by
  unfold Machine.readRecall
  exact h.foldl (fun _ _ hu => hu.ite hu.sendRecalls)

theorem applyUnits {s : State} {ctx : Nat} {us : List Unit1} (h : Sound M R s) : Sound M R (Machine.applyUnits s ctx us) := by
  unfold Machine.applyUnits
  exact h.foldl (fun _ _ hu => hu.note.ite (hu.modMem (fun _ hm => wf_writePieces _ _ hm)))

theorem hostActs {s : State} {l : Loc} (h : Sound M R s) : Sound M R (Machine.hostActs s l) := by
  unfold Machine.hostActs
  split
  · exact h
  · extract_lets n a0 hs
    refine h.ofMem rfl rfl fun hm => ?_
    rw [Memory.wf_iff] at *
    refine ⟨hm.1, hm.2.1, List.foldlRecOn _ _ (motive := fun l => hostWf l = true) hm.2.2 fun l hl i _ => ?_⟩
    split
    · exact hostWf_set hl _ _
    · exact hl

theorem hostBefore {s : State} {r : Req} (h : Sound M R s) : Sound M R (Machine.hostBefore s r) := by
  unfold Machine.hostBefore
  split
  · split
    · refine h.foldl (fun _ _ hu => ?_)
      split
      · exact hu.foldl (fun _ _ hu1 => hu1.hostActs)
      · exact hu
    · exact h
  · split
    · exact h.hostActs
    · exact h
  · split
    · exact h.hostActs
    · exact h
  · exact h

theorem takeNow {s : State} {pkg line : Int} (h : Sound M R s) : Sound M R (Machine.takeNow s pkg line) :=
  h.homeOnly ((HomeOnly.refl _).takeNow _ _)

theorem readBefore {s : State} {l : Loc} (h : Sound M R s) : Sound M R (Machine.readBefore s l) := by
  unfold Machine.readBefore
  split
  · exact h.recallNow
  · exact h.hostActs

theorem seekHeld {s : State} {src ctx wid : Nat} {ls : List (Int × Int)} (h : Sound M R s) : Sound M R (Machine.seekHeld s src ctx wid ls) := by
  unfold Machine.seekHeld
  exact h.foldl (fun _ _ hu => hu.ite hu.send)

theorem updateNow {s : State} {l : Loc} {n : Nat} {f : Int → Int} (h : Sound M R s) : Sound M R (Machine.updateNow s l n f) :=
  h.homeOnly ((HomeOnly.refl _).updateNow _ _ _)

/-! ### Access -/

theorem checkUnit {s : State} {core ctx : Nat} {sup : Bool} {nd : Need} {poison : Bool} {n l : Nat} {a : Int} (h : Sound M R s) :
    Sound M R (Machine.checkUnit s core ctx sup nd poison n l a).1 := by
  unfold Machine.checkUnit
  extract_lets fail r q
  have hr : Sound M R r.1 := h.checkAddr
  have hq : Sound M R q.1 := hr.checkAddr
  split
  · split
    · split
      · exact hq
      · exact hq
    · exact hr
  · exact hr

theorem checkUnits {s : State} {core ctx : Nat} {sup : Bool} {nd : Need} {poison : Bool} {n : Nat} {l : List (Nat × Int)} (h : Sound M R s) :
    Sound M R (Machine.checkUnits s core ctx sup nd poison n l).1 := by
  induction l generalizing s with
  | nil => exact h
  | cons p l ih => exact ih h.checkUnit

theorem access {s : State} {w : Warp} {addrs : List (Nat × Int)} {n : Nat} {align : Bool} {nd : Need} (h : Sound M R s) :
    Sound M R (Machine.access s w addrs n align nd).1 := by
  unfold Machine.access
  extract_lets mis r
  have hr : Sound M R r.1 := h.checkUnits
  split
  · exact h
  · split
    · exact hr
    · exact hr

theorem accessStore {s : State} {w : Warp} {addrs : List (Nat × Int)} {n : Nat} {val : Nat → Int} (h : Sound M R s) :
    Sound M R (Machine.accessStore s w addrs n val).1 := by
  unfold Machine.accessStore
  extract_lets mis r1 r2 f rs
  have hr1 : Sound M R r1.1 := h.checkUnits
  have hr2 : Sound M R r2.1 := hr1.checkUnits
  split
  · exact h
  · split
    · exact hr2
    · exact hr2

theorem dirtyPages {s : State} {w : Warp} {xs : List Acc} (h : Sound M R s) : Sound M R (Machine.dirtyPages s w xs) := by
  unfold Machine.dirtyPages
  refine h.foldl (fun _ _ hu => ?_)
  extract_lets s1
  have hs1 : Sound M R s1 := hu.setDirty
  split
  · exact hs1.setDirty
  · exact hs1

theorem guarded {s : State} {c : Cur} {w : Warp} {k : Access} {scratch : Bool} {acc : List (Nat × Int × Int × Nat)} {go : State → List Nat → State} (h : Sound M R s) (hgo : ∀ {u x1}, Sound M R u → Sound M R (go u x1)) :
    SoundEff M R (Machine.guarded s c w k scratch acc go) := by
  unfold Machine.guarded
  extract_lets ls p s1 hl
  have hp : Sound M R p.1 := h.watchTest
  have hs1 : Sound M R s1 := hp.watchAct
  split
  · exact plain (hgo h)
  · split
    · exact plain (hgo hp)
    · split
      · exact hgo hs1
      · exact hs1

theorem sendParts {s : State} {w : Warp} {parts : List (Nat × Int × Int)} {body : Int × Int → ReqBody} (h : Sound M R s) :
    Sound M R (Machine.sendParts s w parts body) := by
  unfold Machine.sendParts
  extract_lets ls
  exact h.update

theorem sendReads {s : State} {w : Warp} {op : Nat} {tag : Bool} {sc : Option Nat} {ls : List (Nat × LaneRead)} (h : Sound M R s) :
    Sound M R (Machine.sendReads s w op tag sc ls) := by
  unfold Machine.sendReads
  extract_lets body
  split
  · exact h.foldl (fun _ _ hu => hu.send)
  · exact h.sendParts

theorem stepAwaits {s : State} {c : Cur} {n : Nat} (h : Sound M R s) : Sound M R (Machine.stepAwaits s c n) := by
  unfold Machine.stepAwaits
  extract_lets ids
  split
  · exact h
  · exact h.modStep

theorem startLoad {s : State} {c : Cur} {w : Warp} {i : Instr} {d : Dst} {n : Nat} {group ts : Bool} {fill : Option (Option Nat)} {tag : Bool} {sc : Option Nat} {wait : List Nat} {rs : List LaneRead} (h : Sound M R s) :
    Sound M R (Machine.startLoad s c w i d n group ts fill tag sc wait rs) := by
  unfold Machine.startLoad
  extract_lets id op s1 todo s2
  have hs1 : Sound M R s1 := h.update
  have hs2 : Sound M R s2 := hs1.sendReads
  exact stepAwaits (hs2.modWarp (fun _ hw => Warp.regsOk_waitOn hw))

theorem l1Count {s : State} {core : Nat} {p : Int × Int} (h : Sound M R s) : Sound M R (Machine.l1Count s core p) := by
  unfold Machine.l1Count
  split
  · exact h.dropL1.ite h.modCore
  · exact h

theorem sendUnits {s : State} {w : Warp} {us : List Unit1} {body : List Unit1 → ReqBody} (h : Sound M R s) :
    Sound M R (Machine.sendUnits s w us body) := by
  unfold Machine.sendUnits
  exact h.sendParts

theorem l1Store {s : State} {core : Nat} {u : Unit1} (h : Sound M R s) : Sound M R (Machine.l1Store s core u) := by
  unfold Machine.l1Store
  extract_lets f ps
  have hf : ∀ {t q}, Sound M R t → Sound M R (f t q) := by
    intro t q ht
    unfold f
    dsimp only
    split
    · exact ht
    · exact ite ht.dropL1 (modCore ht.l1Scrub)
  clear_value f ps
  split
  · exact hf (hf h)
  · exact hf h
  · exact h

theorem touching {s : State} {c : Cur} {w : Warp} {g : Gang} {n : Nat} {us : List (Nat × Int)} {rc : Option Nat} (h : Sound M R s) :
    SoundHindrance M R (Machine.touching s c w g n us rc) := by
  unfold Machine.touching
  extract_lets wu st open_ late ks r bad fails mine
  have hr : Sound M R r.1 := h.touchAll
  split
  · trivial
  · split
    · exact h
    · split
      · trivial
      · clear_value bad
        split
        · exact hr
        · split
          · exact hr
          · trivial

theorem releaseFirst {s : State} {c : Cur} {w : Warp} {scope : Int} {go : State → Eff} (h : Sound M R s) (hgo : ∀ {u}, Sound M R u → SoundEff M R (go u)) :
    SoundEff M R (Machine.releaseFirst s c w scope go) := by
  unfold Machine.releaseFirst
  extract_lets ws
  split
  · exact hgo (h.modWarp (fun _ hw => hw))
  · split
    · exact hgo h
    · exact h.modWarp (fun _ hw => Warp.regsOk_stays hw)

theorem releaseGang {s : State} {c : Cur} {w : Warp} {go : State → Eff} (h : Sound M R s) (hgo : ∀ {u}, Sound M R u → SoundEff M R (go u)) :
    SoundEff M R (Machine.releaseGang s c w go) := by
  unfold Machine.releaseGang
  split
  · exact h.releaseFirst (fun hu => hgo hu)
  · exact hgo h

end Sound
end Sys2Proof.Machine
end

section
/-! ## The invariant layer: scheduling, memory words and events, the engines -/

namespace Sys2Proof.Machine

open Sys2Proof Tern

namespace Sound

variable {M R : Prop}

/-! ### Sched -/

theorem cwUpdate {s : State} {x : Launch} {st : Option Int} {bits : List Nat} (h : Sound M R s) : Sound M R (Machine.cwUpdate s x st bits) :=
  h.homeOnly ((HomeOnly.refl _).cwUpdate _ _ _)

theorem cwGang {s : State} {gid : Nat} {st : Option Int} {bits : List Nat} (h : Sound M R s) : Sound M R (Machine.cwGang s gid st bits) :=
  h.homeOnly ((HomeOnly.refl _).cwGang _ _ _)

theorem setCarve {s : State} {ctx : Nat} {cores : List Nat} (h : Sound M R s) : Sound M R (Machine.setCarve s ctx cores) := by
  unfold Machine.setCarve
  refine h.foldl (fun _ _ hu => ?_)
  extract_lets n
  exact hu.ite hu.modCore

theorem movePair {s : State} {pad p : Nat} (h : Sound M R s) : Sound M R (Machine.movePair s pad p) := by
  unfold Machine.movePair
  extract_lets s1
  have hs1 : Sound M R s1 := h.update
  exact hs1.modPaddock

theorem startGang {s : State} {x : Launch} {c : Int × Int × Int} {count : Nat} {cores : List Nat} {pl : Placing} (h : Sound M R s) :
    Sound M R (Machine.startGang s x c count cores pl) := by
  unfold Machine.startGang
  extract_lets r gid s0 home slots g ws s1
  have hs0 : Sound M R s0 := h.setCarve
  have hs1 : Sound M R s1 := h.merge hs0 id
    (fun hg y hy => (List.mem_append.1 hy).elim (hg y) fun he => by rw [List.mem_singleton.1 he]; rfl)
    fun hw y hy => (List.mem_append.1 hy).elim (hw y) fun he => by
      obtain ⟨p, -, rfl⟩ := List.mem_map.1 he
      exact newWarp_regsOk _ _ _ _ _ _ _ _ _ (launchRegs_ok _)
  exact hs1.modLaunch

theorem grantChans {s : State} {x : Launch} (h : Sound M R s) : Sound M R (Machine.grantChans s x) := by
  unfold Machine.grantChans
  extract_lets free chs recs s1
  have hs1 : Sound M R s1 := h.update
  exact hs1.modLaunch

theorem clearWatch {s : State} {p : Watch → Bool} (h : Sound M R s) : Sound M R (Machine.clearWatch s p) := by
  unfold Machine.clearWatch
  exact h.update

theorem dropWarps {s : State} {p : Warp → Bool} (h : Sound M R s) : Sound M R (Machine.dropWarps s p) := by
  unfold Machine.dropWarps
  extract_lets ids ts x
  exact h.ofWarps rfl rfl rfl h.filterWarps

theorem killGang {s : State} {gid : Nat} {page : Option Int} {tf : Option TaskF} (h : Sound M R s) : Sound M R (Machine.killGang s gid page tf) := by
  unfold Machine.killGang
  extract_lets s1 s2
  have hs1 : Sound M R s1 := h.dropWarps
  have hs2 : Sound M R s2 := hs1.clearWatch
  split
  · exact h
  · extract_lets again s3 x s4 s5
    have hs3 : Sound M R s3 := hs2.modGang (fun _ hg => hg)
    have hs4 : Sound M R s4 := hs3.update
    have hs5 : Sound M R s5 := hs4.update
    exact hs5.cwGang.modLaunch.ite hs5.cwGang

theorem finishGang {s : State} {g : Gang} (h : Sound M R s) : Sound M R (Machine.finishGang s g) := by
  unfold Machine.finishGang
  extract_lets s1 s2
  have hs1 : Sound M R s1 := h.filterGangs
  have hs2 : Sound M R s2 := hs1.clearWatch
  exact hs2.ite hs2.modLaunch

theorem syncJournal {s : State} (h : Sound M R s) : Sound M R (Machine.syncJournal s) := by
  unfold Machine.syncJournal
  extract_lets f
  exact h.update

theorem switchIn {s : State} {pad : Nat} {c : Context} (h : Sound M R s) : Sound M R (Machine.switchIn s pad c) := by
  unfold Machine.switchIn
  extract_lets s1 g w s2
  have hs1 : Sound M R s1 := h.modPaddock
  have hs2 : Sound M R s2 := hs1.ofWarps rfl rfl rfl (hs1.addWarps fun x hx => by
    rw [List.mem_singleton.1 hx]
    exact newWarp_regsOk _ _ _ _ _ _ _ _ _ (wordsOk_ssets _ _ rfl fun v hv => by
      obtain ⟨x, -, rfl⟩ := List.mem_map.1 hv
      exact lowWord_range x))
  split
  · exact hs1
  · split
    · exact modContext (hs1.modWarp fun _ hw => hw)
    · exact hs2.modContext

/-! ### EvMemory -/

theorem landIn {s : State} {gid k j : Nat} {d : Store} {t : Tag} {sector : Nat} {st : LineState} {bad : Bool} (h : Sound M R s) :
    Sound M R (Machine.landIn s gid k j d t sector st bad) := by
  unfold Machine.landIn
  split
  · exact h
  · split
    · exact h
    · extract_lets line s1
      have hs1 : Sound M R s1 := h.scrub.modGang fun _ hg => by
        extract_lets g1 g2
        split
        · exact swf_landSector hg _ _ _
        · exact swf_landSector hg _ _ _
      exact h.ite hs1.tbLand

theorem execSectorLanding {id : Nat} {s : State} (h : Sound M R s) : SoundOut M R (Machine.execSectorLanding id s) := by
  unfold Machine.execSectorLanding
  show Sound M R _
  split
  · split
    · extract_lets s1
      have hs1 : Sound M R s1 := h.landIn
      exact h.ite (hs1.delReq.ite hs1.modReq)
    · exact h
  · exact h

theorem execMulticastDelivery {id : Nat} {s : State} (h : Sound M R s) : SoundOut M R (Machine.execMulticastDelivery id s) := by
  unfold Machine.execMulticastDelivery
  show Sound M R _
  split
  · split
    · extract_lets s1
      have hs1 : Sound M R s1 := h.landIn
      exact h.ite (hs1.countRead.delReq.ite hs1.modReq)
    · exact h
  · exact h

theorem execWindowRecall {id : Nat} {s : State} (h : Sound M R s) : SoundOut M R (Machine.execWindowRecall id s) := by
  unfold Machine.execWindowRecall
  show Sound M R _
  split
  · split
    · extract_lets s1
      have hs1 : Sound M R s1 := h.writeBackLine
      split
      · exact h
      · split
        · exact h.delReq
        · split
          · exact h
          · exact h
          · exact h
          · exact delReq (ite (h.modGang (fun _ hg => swf_modWin hg)) h)
          · exact delReq (hs1.modGang (fun _ hg => swf_modWin hg))
    · exact h
  · exact h

theorem takeOwned {gid k j : Nat} {us : List (Int × Nat × Int)} {s : State} (h : Sound M R s) : Sound M R (Machine.takeOwned gid k j us s) :=
  h.modGang fun _ hg => List.foldlRecOn us (fun (g : Gang) (u : Int × Nat × Int) => g.write u.1 u.2.1 u.2.2)
    (motive := fun g : Gang => swf g.scratch = true) hg fun _ hx _ _ => swf_write hx _ _ _

theorem execOwnershipRequest {id : Nat} {s : State} (h : Sound M R s) : SoundOut M R (Machine.execOwnershipRequest id s) := by
  unfold Machine.execOwnershipRequest
  show Sound M R _
  split
  · split
    · split
      · exact h
      · split
        · exact h.delReq
        · extract_lets need f s1 s2
          have hs1 : Sound M R s1 := h.takeLines
          have hs2 : Sound M R s2 := hs1.modGang fun _ hg => swf_modWin (swf_setLine hg _ _ _)
          split
          · exact h.modReq.foldl fun _ _ hu => hu.sendRecalls
          · split
            · exact h
            · split
              · exact h.takeOwned.delReq
              · split
                · rename_i he
                  exact ofFindSome (fun _ => h.makeRoom) he
                · exact hs2.takeOwned.delReq
    · exact h
  · exact h

theorem stall {s : State} {id : Nat} (h : Sound M R s) : Sound M R (Machine.stall s id) := by
  unfold Machine.stall
  exact h.modReq

theorem retryQueue {s : State} {r : Req} (h : Sound M R s) : Sound M R (Machine.retryQueue s r) := by
  unfold Machine.retryQueue
  exact h.ite h.modReq

theorem execSliceRequest {id : Nat} {s : State} (h : Sound M R s) : SoundOut M R (Machine.execSliceRequest id s) := by
  unfold Machine.execSliceRequest
  show Sound M R _
  split
  · extract_lets isRead ms
    exact ite (h.ite h.delReq) (h.ite (h.modReq.ite (h.stall.readRecall.ite (h.hostBefore.serveRead.ite (h.install.serveRead.ite (h.retryQueue.ite (h.modReq.ite h.stall)))))))
  · exact h

theorem execSliceMissData {id : Nat} {s : State} (h : Sound M R s) : SoundOut M R (Machine.execSliceMissData id s) := by
  unfold Machine.execSliceMissData
  show Sound M R _
  split
  · split
    · exact h
    · split
      · rename_i heq
        have hs := h.makeRoom.some heq
        exact hs
      · exact h.install.foldl (fun _ _ hu => hu.serveRead.ite hu.stall.readRecall)
  · exact h

theorem writeReady {s : State} {id : Nat} {ls : List (Int × Int)} (h : Sound M R s) : SoundOpt M R (Machine.writeReady s id ls) := by
  unfold Machine.writeReady
  split
  · exact h.stall.recallAll
  · cases hf : ls.findSome? fun p => Machine.makeRoom s p.1 p.2 with
    | none => trivial
    | some t =>
      obtain ⟨p, -, hp⟩ := List.exists_of_findSome?_eq_some hf
      exact h.makeRoom.some hp

theorem applyStore {s : State} {r : Req} {us : List Unit1} (h : Sound M R s) : Sound M R (Machine.applyStore s r us) := by
  unfold Machine.applyStore
  extract_lets ls
  split
  · rename_i heq
    have hs := h.writeReady.some heq
    exact hs
  · exact h.takeLines.applyUnits.delReq

theorem execHomeStore {id : Nat} {s : State} (h : Sound M R s) : SoundOut M R (Machine.execHomeStore id s) := by
  unfold Machine.execHomeStore
  show Sound M R _
  split
  · split
    · exact h
    · split
      · exact delReq (h.setMem (fun hm => wf_foldl _ (fun _ _ hm1 => wf_writePieces _ _ hm1) _ hm))
      · exact h.modReq.ite h.applyStore
      · extract_lets packed ls s1
        have hs1 : Sound M R s1 := h.takeLines.ite h.unshare.install
        split
        · rename_i heq
          have hs := h.writeReady.some heq
          exact hs
        · exact h.note.delReq.ite (h.delReq.ite (delReq (hs1.modMem (fun _ hm => Memory.wf_setTag hm _ _ _))))
      · exact h
  · exact h

theorem applyAtom {s : State} {r : Req} {op : Nat} {k : AtomOp} {us : List Unit1} {old : List (Nat × Int)} (h : Sound M R s) :
    Sound M R (Machine.applyAtom s r op k us old) := by
  unfold Machine.applyAtom
  extract_lets ls s1
  have hs1 : Sound M R s1 := h.takeLines
  split
  · rename_i heq
    have hs := h.writeReady.some heq
    exact hs
  · refine data (hs1.foldl (fun _ _ hu => ?_))
    extract_lets ps cap d
    have hcap : ∀ {u : State} {x1 : LaneRead → Got}, Sound M R u → Sound M R (cap u x1) := by
      intro _ _ hu
      unfold cap
      exact hu.modOp
    split
    · exact hcap hu
    · exact hcap hu
    · exact hcap (hu.modMem (fun _ hm => wf_writePieces _ _ hm))

theorem execHomeAtomic {id : Nat} {s : State} (h : Sound M R s) : SoundOut M R (Machine.execHomeAtomic id s) := by
  unfold Machine.execHomeAtomic
  show Sound M R _
  split
  · split
    · exact h.ite (h.modReq.ite h.applyAtom)
    · exact h
  · exact h

theorem applyRed {s : State} {ctx : Nat} {us : List Unit1} {f : Nat → Int → Int → Int} (h : Sound M R s) :
    Sound M R (Machine.applyRed s ctx us f) := by
  unfold Machine.applyRed
  refine h.foldl (fun _ _ hu => ?_)
  extract_lets ps
  split
  · exact hu.modMem (fun _ hm => wf_writePieces _ _ hm)
  · exact hu.note

theorem execRedContribution {id : Nat} {s : State} (h : Sound M R s) : SoundOut M R (Machine.execRedContribution id s) := by
  unfold Machine.execRedContribution
  show Sound M R _
  split
  · split
    · extract_lets ls
      split
      · exact h
      · split
        · rename_i heq
          have hs := h.writeReady.some heq
          exact hs
        · exact h.takeLines.applyRed.delReq
    · exact h
  · exact h

theorem holdDet {s : State} {ctx : Nat} {op : Int} {flt : Bool} {tag count : Int} {key : List Int} {u : Unit1} (h : Sound M R s) :
    Sound M R (Machine.holdDet s ctx op flt tag count key u) := by
  unfold Machine.holdDet
  extract_lets a ps isIt x put r0 held xs
  have hput : ∀ {u : List Round}, Sound M R (put u) := by
    intro _
    unfold put
    exact h.update
  split
  · exact h.note.ite (ite (hput.modMem (fun _ hm => wf_writePieces _ _ hm)) (hput.ite hput))
  · exact h.note

theorem execRedDetContribution {id : Nat} {s : State} (h : Sound M R s) : SoundOut M R (Machine.execRedDetContribution id s) := by
  unfold Machine.execRedDetContribution
  show Sound M R _
  split
  · split
    · extract_lets ls
      split
      · exact h
      · split
        · rename_i heq
          have hs := h.writeReady.some heq
          exact hs
        · exact delReq (h.takeLines.foldl (fun _ _ hu => hu.holdDet))
    · exact h
  · exact h

theorem endLoad {s : State} {o : LoadOp} {w : Warp} {live : List Nat} {bad : List (Nat × Int × Int)} {last : Bool} (h : Sound M R s) :
    Sound M R (Machine.endLoad s o w live bad last) := by
  unfold Machine.endLoad
  extract_lets k new res fl t c p s2
  have hp : Sound M R p.1 := by
    unfold p
    split
    · exact h
    · exact h.watchResults
  have hs2 : Sound M R s2 := ite (hp.modWarp (fun _ hw => Warp.regsOk_holdTrap hw)) hp.watchAct
  split
  · exact hp.ite (hp.recordStep.ite hp.raiseTrap)
  · exact hp.watchAct.ite hs2.enterTrap

theorem taken {s : State} {id : Nat} (h : Sound M R s) : Sound M R (s.taken id) := by
  unfold Machine.State.taken
  exact h.update

theorem execLoadReply {id : Nat} {s : State} (h : Sound M R s) : SoundOut M R (Machine.execLoadReply id s) := by
  unfold Machine.execLoadReply
  extract_lets x
  have hx : Sound M R x := h.taken
  show Sound M R _
  split
  · exact hx
  · extract_lets last s0
    have hs0 : Sound M R s0 := hx.update.ite hx.modOp
    split
    · exact h
    · split
      · exact h
      · split
        · exact hs0
        · extract_lets live bad s1
          have hs1 : Sound M R s1 := by
            refine hs0.modWarp (fun _ hw => Warp.regsOk_putBack ?_)
            split
            · exact Warp.regsOk_wake (Warp.regsOk_loadWrite hw)
            · exact Warp.regsOk_loadWrite hw
          exact hs1.endLoad

theorem pinLine {s : State} {ctx : Nat} {lid : Option Nat} {pkg line key : Int} (h : Sound M R s) :
    Sound M R (Machine.pinLine s ctx lid pkg line key) := by
  unfold Machine.pinLine
  extract_lets quota fits
  split
  · exact h
  · split
    · exact h.modHeld
    · split
      · exact h.cwUpdate
      · exact h

theorem askPin {s : State} {r : Req} {at_ : Loc} {pin : Int} (h : Sound M R s) : Sound M R (Machine.askPin s r at_ pin) := by
  unfold Machine.askPin
  exact h.send.modReq

theorem execWriteBack {id : Nat} {s : State} (h : Sound M R s) : SoundOut M R (Machine.execWriteBack id s) := by
  unfold Machine.execWriteBack
  show Sound M R _
  split
  · extract_lets own
    split
    · exact delReq (h.dedupLine.ite h)
    · extract_lets s1 s2 s3
      have hs1 : Sound M R s1 := by
        unfold s1
        split
        · exact h
        · split
          · exact h.homeTake
          · exact h.modMem (fun _ hm => wf_foldl _ (fun _ _ hm1 => Memory.wf_writeLoc hm1 _ _ _) _ hm)
      have hs2 : Sound M R s2 := hs1.delReq
      have hs3 : Sound M R s3 := hs2.send.ite hs2
      split
      · exact h
      · split
        · split
          · rename_i heq
            have hs := h.makeRoom.some heq
            exact hs
          · exact h.install.pinLine.delReq
        · exact h.ite (hs3.askPin.ite hs3)
    · exact h
  · exact h

/-! ### Memory -/

theorem performLd {o : LdA} {s : State} {c : Cur} {w : Warp} {xs : List Acc} (h : Sound M R s) : Sound M R (Machine.performLd o s c w xs) := by
  unfold Machine.performLd
  extract_lets n core s1 rs hits s0 s1'
  have hs1 : Sound M R s1 := h.foldl (fun _ _ hu => hu.dropL1)
  have hs0 : Sound M R s0 := h.foldl (fun _ _ hu => hu.l1Scrub)
  have hs1' : Sound M R s1' := hs0.foldl (fun _ _ hu => hu.l1Count)
  exact hs1.startLoad.ite hs1'.startLoad

theorem execLd {o : LdA} {s : State} (h : Sound M R s) : SoundOut M R (Machine.execLd o s) := by
  unfold Machine.execLd
  refine h.runWord (fun hu => ?_)
  extract_lets r
  have hr : Sound M R r.1 := hu.access
  split
  · exact hu.plain
  · split
    · exact hr
    · split
      · exact hr.guarded (fun hu1 => hu1.ite hu1.performLd)
      · exact hr

theorem execLdg {o : LdgA} {s : State} (h : Sound M R s) : SoundOut M R (Machine.execLdg o s) := by
  unfold Machine.execLdg
  refine h.runWord (fun hu => ?_)
  extract_lets a n l0 r
  have hr : Sound M R r.1 := hu.access
  split
  · exact hu.plain
  · split
    · exact hr
    · exact hr.guarded (fun hu1 => hu1.ite hu1.startLoad)

theorem execLdtag {o : LdtagA} {s : State} (h : Sound M R s) : SoundOut M R (Machine.execLdtag o s) := by
  unfold Machine.execLdtag
  refine h.runWord (fun hu => ?_)
  extract_lets r
  have hr : Sound M R r.1 := hu.access
  split
  · exact hu.plain
  · split
    · exact hr
    · refine hr.guarded (fun hu1 => ?_)
      extract_lets got
      exact hu1.ite hu1.startLoad

theorem performSt {s : State} {c : Cur} {w : Warp} {sc : Bool} {n : Nat} {val : Nat → Int} {xs : List Acc} (h : Sound M R s) :
    Sound M R (Machine.performSt s c w sc n val xs) := by
  unfold Machine.performSt
  extract_lets core n0 s1 us s2
  have hs1 : Sound M R s1 := dirtyPages (h.commitWarp.ite h)
  have hs2 : Sound M R s2 :=
    ite (hs1.foldl fun _ _ hu => send (hu.foldl fun _ _ hv => hv.dropL1)) (sendUnits (hs1.foldl fun _ _ hu => hu.l1Store))
  exact h.ite hs2.stepAwaits

theorem storeWord {s : State} {c : Cur} {w : Warp} {sc : Bool} {n : Nat} {addrs : List (Nat × Int)} {val : Nat → Int} {all : List (Nat × Int × Int) → List (Nat × Int × Int)} (h : Sound M R s) :
    SoundEff M R (Machine.storeWord s c w sc n addrs val all) := by
  unfold Machine.storeWord
  extract_lets r
  have hr : Sound M R r.1 := h.accessStore
  split
  · exact hr
  · split
    · split
      · exact hr.guarded (fun hu => hu.performSt)
      · exact hr
    · exact hr

theorem execSt {o : StA} {s : State} (h : Sound M R s) : SoundOut M R (Machine.execSt o s) := by
  unfold Machine.execSt
  refine h.runWord (fun hu => ?_)
  split
  · exact hu.plain
  · exact hu.storeWord

theorem execStg {o : StgA} {s : State} (h : Sound M R s) : SoundOut M R (Machine.execStg o s) := by
  unfold Machine.execStg
  refine h.runWord (fun hu => ?_)
  split
  · exact hu.plain
  · exact hu.storeWord

theorem execSttag {o : SttagA} {s : State} (h : Sound M R s) : SoundOut M R (Machine.execSttag o s) := by
  unfold Machine.execSttag
  refine h.runWord (fun hu => ?_)
  extract_lets r
  have hr : Sound M R r.1 := hu.access
  split
  · exact hu.plain
  · split
    · exact hr
    · refine hr.guarded (fun hu1 => ?_)
      extract_lets ys n0 s1 s2
      have hs1 : Sound M R s1 := hu1.dirtyPages
      have hs2 : Sound M R s2 := by
        refine hs1.foldl (fun _ _ hu2 => ?_)
        extract_lets t
        exact hu2.dropL1.send
      exact hs2.stepAwaits

theorem execLds {o : LdsA} {s : State} (h : Sound M R s) : SoundOut M R (Machine.execLds o s) := by
  unfold Machine.execLds
  refine h.runWord (fun hu => ?_)
  extract_lets n us
  split
  · exact hu.plain
  · split
    · exact hu.plain
    · split
      · exact hu
      · split
        · rename_i heq
          have hs := hu.touching.trap heq
          exact hs
        · exact trivial
        · rename_i heq
          have hs := hu.touching.sleep heq
          exact hs.modWarp (fun _ hw => Warp.regsOk_waitOn hw)
        · refine hu.guarded (fun hu1 => ?_)
          extract_lets vs wl s1
          have hs1 : Sound M R s1 := hu1.foldl (fun _ _ hu2 => hu2.countRead)
          exact hs1.ite hs1.scrub.startLoad

theorem devUnit {s : State} {core ctx wid gid : Nat} {a : Int} {n : Nat} {v : Int} (h : Sound M R s) :
    Sound M R (Machine.devUnit s core ctx wid gid a n v) := by
  unfold Machine.devUnit
  extract_lets parts
  split
  · exact h
  · refine h.foldl (fun _ _ hu => ?_)
    extract_lets write
    have hwrite : ∀ {u : Gang}, swf u.scratch = true → swf (write u).scratch = true := by
      intro _ hg
      unfold write
      exact swf_write hg _ _ _
    split
    · exact hu.modGang (fun _ hg => hwrite hg)
    · split
      · split
        · exact hu.modGang (fun _ hg => swf_modWin (hwrite hg))
        · split
          · exact hu.modReq
          · exact hu.send
      · exact hu.modGang (fun _ hg => hwrite hg)

theorem stsUnit {s : State} {w : Warp} {gid : Nat} {a : Int} {n : Nat} {v : Int} (h : Sound M R s) : Sound M R (Machine.stsUnit s w gid a n v) := by
  unfold Machine.stsUnit
  exact h.devUnit

theorem askLines {s : State} {c : Cur} {w : Warp} {gid : Nat} {ls : List (Nat × Nat)} (h : Sound M R s) :
    SoundEff M R (Machine.askLines s c w gid ls) := by
  unfold Machine.askLines
  extract_lets s1
  have hs1 : Sound M R s1 := by
    refine h.foldl (fun _ _ hu => ?_)
    split
    · exact hu.send
    · exact hu
  exact hs1.modWarp (fun _ hw => Warp.regsOk_waitOn hw)

theorem unpackLines {s : State} {c : Cur} {w : Warp} {gid : Nat} {ls : List (Nat × Nat)} (h : Sound M R s) :
    SoundEff M R (Machine.unpackLines s c w gid ls) := by
  unfold Machine.unpackLines
  extract_lets s1 r
  have hs1 : Sound M R s1 := by
    refine h.foldl (fun _ _ hu => ?_)
    split
    · exact hu
    · extract_lets s1' s2
      have hs1' : Sound M R s1' := hu.writeBackLine.ite hu
      have hs2 : Sound M R s2 := hs1'.modGang (fun _ hg => swf_modWin hg)
      exact hs2.send
  have hr : Sound M R r.1 := hs1.touchAll
  split
  · exact hr.modWarp (fun _ hw => Warp.regsOk_waitOn hw)
  · exact hr

theorem execSts {o : StsA} {s : State} (h : Sound M R s) : SoundOut M R (Machine.execSts o s) := by
  unfold Machine.execSts
  refine h.runWord (fun hu => ?_)
  extract_lets n us
  split
  · exact hu.plain
  · extract_lets ro bad tags packed win
    split
    · exact hu.plain
    · split
      · exact hu
      · split
        · exact hu
        · split
          · rename_i heq
            have hs := hu.touching.trap heq
            exact hs
          · exact trivial
          · rename_i heq
            have hs := hu.touching.sleep heq
            exact hs.modWarp (fun _ hw => Warp.regsOk_waitOn hw)
          · split
            · exact hu
            · split
              · exact hu
              · split
                · exact hu.unpackLines
                · split
                  · exact hu.askLines
                  · refine hu.guarded (fun hu1 => ?_)
                    extract_lets n0 vs s1
                    have hs1 : Sound M R s1 := hu1.foldl (fun _ _ hu2 => hu2.modGang (fun _ hg => swf_plainLine hg))
                    exact stepAwaits (hs1.scrub.foldl (fun _ _ hu2 => hu2.stsUnit))

theorem execAtom {o : AtomA} {s : State} (h : Sound M R s) : SoundOut M R (Machine.execAtom o s) := by
  unfold Machine.execAtom
  refine h.runWord (fun hu => ?_)
  extract_lets n r at_
  have hr : Sound M R r.1 := hu.access
  split
  · exact hu.plain
  · split
    · exact hr
    · split
      · refine hr.guarded (fun hu1 => ?_)
        extract_lets ys id s1 s2 op s3 us olds old s4 stay
        have hs1 : Sound M R s1 := hu1.commitWarp.dirtyPages
        have hs2 : Sound M R s2 := hs1.foldl (fun _ _ hu2 => hu2.dropL1)
        have hs3 : Sound M R s3 := hs2.update
        have hs4 : Sound M R s4 := ite (hs3.foldl (fun _ _ hu2 => hu2.send)) hs3.sendUnits
        exact hu1.ite (stepAwaits (hs4.ite (hs4.modWarp (fun _ hw => Warp.regsOk_waitOn hw))))
      · exact hr

theorem execRed {o : RedA} {s : State} (h : Sound M R s) : SoundOut M R (Machine.execRed o s) := by
  unfold Machine.execRed
  refine h.runWord (fun hu => ?_)
  extract_lets n rw r
  have hr : Sound M R r.1 := hu.access
  split
  · exact hu.illegalTrap
  · split
    · exact hr
    · refine hr.guarded (fun hu1 => ?_)
      extract_lets ys n0 s1 s2 s3 us body
      have hs1 : Sound M R s1 := ite (hu1.modWarp (fun _ hw => hw)) hu1
      have hs2 : Sound M R s2 := hs1.ite hs1.commitWarp.dirtyPages
      have hs3 : Sound M R s3 := hs2.foldl (fun _ _ hu2 => hu2.dropL1)
      exact hs3.sendUnits.stepAwaits

theorem execLdmc {o : LdmcA} {s : State} (h : Sound M R s) : SoundOut M R (Machine.execLdmc o s) := by
  unfold Machine.execLdmc
  refine h.runWord (fun hu => ?_)
  extract_lets b a k js
  split
  · exact hu.plain
  · extract_lets e
    split
    · exact hu.plain
    · split
      · exact hu.illegalTrap
      · split
        · exact hu.plain
        · extract_lets r locs todo l p x s1 s2
          have hr : Sound M R r.1 := hu.checkAddrs
          have hs1 : Sound M R s1 := hr.update.tbPost.tbPromise
          have hs2 : Sound M R s2 := hs1.modGang (fun _ hg => swf_modWin hg)
          split
          · exact hr
          · exact hr
          · split
            · exact hr.plain
            · exact plain (hs2.foldl (fun _ _ hu1 => hu1.send))

theorem prefLine {s : State} {w : Warp} {n : Nat} {x : Acc} (h : Sound M R s) : Sound M R (Machine.prefLine s w n x) := by
  unfold Machine.prefLine
  extract_lets va hits
  split
  · exact h.touchAll
  · exact h.ite h.send

theorem execPref {o : PrefA} {s : State} (h : Sound M R s) : SoundOut M R (Machine.execPref o s) := by
  unfold Machine.execPref
  refine h.runWord (fun hu => ?_)
  extract_lets r xs
  have hr : Sound M R r.1 := hu.checkUnits
  exact plain (hr.foldl (fun _ _ hu1 => hu1.prefLine))

theorem flushLine {s : State} {gid : Nat} {inv : Bool} {p : Nat × Nat} (h : Sound M R s) : Sound M R (Machine.flushLine s gid inv p).1 := by
  unfold Machine.flushLine
  split
  · exact h
  · extract_lets r
    have hr : Sound M R r.1 := by
      unfold r
      split
      · exact h.writeBackLine.pair
      · exact h
    exact pair (ite (hr.modGang (fun _ hg => swf_modWin hg)) hr)

theorem flushLines {s : State} {gid : Nat} {inv : Bool} {l : List (Nat × Nat)} (h : Sound M R s) : Sound M R (Machine.flushLines s gid inv l).1 := by
  induction l generalizing s with
  | nil => exact h
  | cons p l ih => exact ih h.flushLine

theorem pendOn {s : State} {c : Cur} {ls : List Nat} {op : PendOp} (h : Sound M R s) : Sound M R (Machine.pendOn s c ls op) := by
  unfold Machine.pendOn
  extract_lets n
  exact h.update.modWarp (fun _ hw => Warp.regsOk_waitOn hw)

theorem flushWord {i : Instr} {o : FlushA} {inv : Bool} {s : State} (h : Sound M R s) : Sound M R (Machine.flushWord i o inv s) := by
  unfold Machine.flushWord
  refine h.runWord (fun hu => ?_)
  extract_lets r
  have hr : Sound M R r.1 := hu.access
  split
  · exact hu.plain
  · split
    · exact hr
    · extract_lets ys s1
      have hs1 : Sound M R s1 := hr.foldl (fun _ _ hu1 => hu1.dropL1)
      split
      · exact hs1.plain
      · extract_lets ls fills now q
        have hq : Sound M R q.1 := hs1.flushLines
        split
        · exact hq.plain
        · exact hq.pendOn.plain

theorem execIcinv {o : Near} {s : State} (h : Sound M R s) : SoundOut M R (Machine.execIcinv o s) := by
  unfold Machine.execIcinv
  refine h.runWord (fun hu => ?_)
  extract_lets ls bs
  exact plain (hu.foldl (fun _ _ hu1 => hu1.modCore))

theorem execIsync {a0 : Hd} {s : State} (h : Sound M R s) : SoundOut M R (Machine.execIsync a0 s) := by
  unfold Machine.execIsync
  exact h.runWord (fun hu => plain (hu.ite (hu.modWarp (fun _ hw => hw))))

theorem execFence {o : FenceA} {s : State} (h : Sound M R s) : SoundOut M R (Machine.execFence o s) := by
  unfold Machine.execFence
  refine h.runWord (fun hu => ?_)
  extract_lets scope s1
  have hs1 : Sound M R s1 := hu.commitWarp.ite hu
  split
  · exact hu.plain
  · exact plain (hs1.modWarp (fun _ hw => hw))

/-! ### Engines -/

theorem wholeTrap {s : State} {c : Cur} {cs info addr : Int} (h : Sound M R s) : SoundEff M R (Machine.wholeTrap s c cs info addr) := by
  unfold Machine.wholeTrap
  exact h

theorem recordAt {s : State} {c : Cur} {g : Gang} {a : Int} (h : Sound M R s) : SoundRec M R (Machine.recordAt s c g a) := by
  unfold Machine.recordAt
  split
  · exact h
  · split
    · exact h
    · split
      · exact h
      · exact Sound.scrub h

theorem gangWord {i : Instr} {s : State} {f : State → Cur → Warp → Gang → Eff} (h : Sound M R s) (hf : ∀ {u x1 x2 x3}, Sound M R u → SoundEff M R (f u x1 x2 x3)) :
    Sound M R (Machine.gangWord i s f) := by
  unfold Machine.gangWord
  refine h.runWord (fun hu => ?_)
  split
  · exact hu.plain
  · split
    · exact hu.plain
    · exact hf hu

theorem cancelBinding {s : State} {core : Nat} {b : Binding} (h : Sound M R s) : Sound M R (Machine.cancelBinding s core b) := by
  unfold Machine.cancelBinding
  extract_lets s1 s2
  have hs1 : Sound M R s1 := h.update
  have hs2 : Sound M R s2 := hs1.modCore
  split
  · exact hs2
  · extract_lets js s3 x
    have hs3 : Sound M R s3 := hs2.modGang (fun _ hg => swf_modWin hg)
    split
    · exact hs2
    · extract_lets lost own
      exact hs3.update.tbLand

theorem unmarkRecv {s : State} {gid : Nat} {p : PendOp} (h : Sound M R s) : Sound M R (Machine.unmarkRecv s gid p) := by
  unfold Machine.unmarkRecv
  split
  · exact h.cancelBinding
  · exact h

theorem cancelRecv {s : State} {gid k : Nat} (h : Sound M R s) : Sound M R (Machine.cancelRecv s gid k) := by
  unfold Machine.cancelRecv
  extract_lets bs s1 isIt
  have hs1 : Sound M R s1 := h.foldl (fun _ _ hu => hu.cancelBinding)
  exact hs1.foldl (fun _ _ hu => hu.foldl (fun _ _ hu1 => hu1.unmarkRecv))

theorem beginRelease {s : State} {gid k : Nat} (h : Sound M R s) : Sound M R (Machine.beginRelease s gid k) := by
  unfold Machine.beginRelease
  exact h.cancelRecv.modGang (fun _ hg => swf_modWin hg)

theorem finishRelease {s : State} {gid k : Nat} {w : Window} (h : Sound M R s) : Sound M R (Machine.finishRelease s gid k w).1 := by
  unfold Machine.finishRelease
  extract_lets js s1 ids
  have hs1 : Sound M R s1 := h.foldl (fun _ _ hu => hu.writeBackLine)
  exact pair (hs1.modGang (fun _ hg => hg))

theorem bindWin {s : State} {gid k : Nat} {r : List Int} (h : Sound M R s) : Sound M R (Machine.bindWin s gid k r) := by
  unfold Machine.bindWin
  exact h.update.modGang (fun _ hg => hg)

theorem execWin {o : WinA} {s : State} (h : Sound M R s) : SoundOut M R (Machine.execWin o s) := by
  unfold Machine.execWin
  refine h.gangWord (fun hu => ?_)
  split
  · exact hu.illegalTrap
  · split
    · rename_i heq
      have hs := hu.recordAt.error heq
      exact hs
    · rename_i heq
      have hs := hu.recordAt.ok heq
      split
      · exact hs.illegalTrap
      · split
        · exact hs.bindWin.plain
        · exact hs.beginRelease.pendOn.plain

theorem execWinrel {o : WinrelA} {s : State} (h : Sound M R s) : SoundOut M R (Machine.execWinrel o s) := by
  unfold Machine.execWinrel
  refine h.gangWord (fun hu => ?_)
  split
  · exact hu.illegalTrap
  · split
    · exact hu.plain
    · exact hu.beginRelease.pendOn.plain

theorem ownTask {s : State} {gid : Nat} {t : Task} (h : Sound M R s) : Sound M R (Machine.ownTask s gid t) := by
  unfold Machine.ownTask
  split
  · exact h
  · refine h.foldl (fun _ _ hu => ?_)
    split
    · exact hu
    · extract_lets q r x x'
      have hq : Sound M R q.1 := hu.checkAddr
      have hr : Sound M R r.1 := by
        unfold r
        split
        · exact hu
        · exact hq
      split
      · exact hr.update
      · exact hr

theorem disownTasks {s : State} {p : Nat → Nat → Bool} (h : Sound M R s) : Sound M R (Machine.disownTasks s p) := by
  unfold Machine.disownTasks
  exact h.update

theorem acceptTask {s : State} {gid wid : Nat} {r : List Int} {addr : Int} {gd : Nat} {hint : Int} {side : Nat} {sup : Bool} (h : Sound M R s) :
    Sound M R (Machine.acceptTask s gid wid r addr gd hint side sup) := by
  unfold Machine.acceptTask
  extract_lets bs
  split
  · exact h
  · extract_lets t0 t
    exact ownTask (modWarp (h.modGang (fun _ hg => hg)) (fun _ hw => Warp.regsOk_setG hw _ _))

theorem execTask {o : TaskA} {s : State} (h : Sound M R s) : SoundOut M R (Machine.execTask o s) := by
  unfold Machine.execTask
  refine h.gangWord (fun hu => ?_)
  extract_lets addr side
  split
  · rename_i heq
    have hs := hu.recordAt.error heq
    exact hs
  · rename_i heq
    have hs := hu.recordAt.ok heq
    split
    · exact hs.illegalTrap
    · split
      · exact hs.acceptTask.plain
      · exact hs.pendOn.plain

theorem execTqry {o : TqryA} {s : State} (h : Sound M R s) : SoundOut M R (Machine.execTqry o s) := by
  unfold Machine.execTqry
  refine h.gangWord (fun hu => ?_)
  extract_lets st
  exact plain (modWarp (hu.acquireGang.ite hu) (fun _ hw => Warp.regsOk_setG hw _ _))

theorem sendLine {s : State} {src ctx wid core port : Nat} {d : Store} {t : Tag} (h : Sound M R s) :
    Sound M R (Machine.sendLine s src ctx wid core port d t) := by
  unfold Machine.sendLine
  extract_lets s1
  have hs1 : Sound M R s1 := h.foldl (fun _ _ hu => hu.send)
  exact hs1.modCore

theorem execSend {o : SendA} {s : State} (h : Sound M R s) : SoundOut M R (Machine.execSend o s) := by
  unfold Machine.execSend
  refine h.gangWord (fun hu => ?_)
  extract_lets a n ls all
  split
  · exact hu.illegalTrap
  · split
    · exact hu.wholeTrap
    · split
      · exact hu.wholeTrap
      · split
        · exact hu.illegalTrap
        · split
          · rename_i heq
            have hs := hu.touching.trap heq
            exact hs
          · exact trivial
          · rename_i heq
            have hs := hu.touching.sleep heq
            exact hs.modWarp (fun _ hw => Warp.regsOk_waitOn hw)
          · split
            · exact hu.wholeTrap
            · exact hu.commitWarp.pendOn.plain

theorem execRecv {o : RecvA} {s : State} (h : Sound M R s) : SoundOut M R (Machine.execRecv o s) := by
  unfold Machine.execRecv
  refine h.gangWord (fun hu => ?_)
  extract_lets d k first n js
  split
  · exact hu.illegalTrap
  · split
    · exact hu.illegalTrap
    · extract_lets r locs
      have hr : Sound M R r.1 := hu.checkAddrs
      split
      · exact hu.illegalTrap
      · split
        · exact hu.illegalTrap
        · split
          · exact hu.illegalTrap
          · split
            · exact hr.wholeTrap
            · exact hr.wholeTrap
            · exact hr.pendOn.plain

theorem modQueue {s : State} {n : Nat} {f : List XReq → List XReq} (h : Sound M R s) : Sound M R (Machine.modQueue s n f) := by
  unfold Machine.modQueue
  extract_lets ls x
  exact h.update

theorem setSlot {s : State} {x : TableSlot} (h : Sound M R s) : Sound M R (Machine.setSlot s x) := by
  unfold Machine.setSlot
  exact h.update

theorem xfstStatus {s : State} {core ctx wid gid : Nat} {addr status produced fault : Int} (h : Sound M R s) :
    Sound M R (Machine.xfstStatus s core ctx wid gid addr status produced fault) := by
  unfold Machine.xfstStatus
  extract_lets put
  have hput : ∀ {u : State} {x1 x2 : Int}, Sound M R u → Sound M R (put u x1 x2) := by
    intro _ _ _ hu
    unfold put
    exact hu.devUnit
  exact hput (hput (hput (hput h)))

theorem xfstRefusal {s : State} {core ctx : Nat} {sup : Bool} {r : List Int} (h : Sound M R s) :
    Sound M R (Machine.xfstRefusal s core ctx sup r).1 := by
  unfold Machine.xfstRefusal
  extract_lets t a detail locs b
  have ha : Sound M R a.1 := h.checkAddrs
  have hb : Sound M R b.1 := ha.checkAddrs
  split
  · exact h
  · split
    · exact h
    · split
      · exact h
      · split
        · exact ha
        · split
          · exact hb
          · exact hb

theorem xfstTry {s : State} {wid : Nat} {r : List Int} {addr : Int} {gd : Nat} (h : Sound M R s) : Sound M R (Machine.xfstTry s wid r addr gd).1 := by
  unfold Machine.xfstTry
  extract_lets lane n cap
  split
  · exact h
  · extract_lets q
    have hq : Sound M R q.1 := h.xfstRefusal
    split
    · exact h
    · split
      · exact h
      · split
        · exact pair (hq.xfstStatus.modWarp (fun _ hw => Warp.regsOk_setG hw _ _))
        · extract_lets ls s1 s2 id own x s3 x'
          have hs1 : Sound M R s1 := hq.recallAll
          have hs2 : Sound M R s2 := hs1.ite hs1.tbPost
          have hs3 : Sound M R s3 := hs2.update
          exact pair (hs3.modQueue.commitWarp.modWarp (fun _ hw => Warp.regsOk_setG hw _ _))

theorem execXfst {o : XfstA} {s : State} (h : Sound M R s) : SoundOut M R (Machine.execXfst o s) := by
  unfold Machine.execXfst
  refine h.gangWord (fun hu => ?_)
  extract_lets addr
  split
  · rename_i heq
    have hs := hu.recordAt.error heq
    exact hs
  · rename_i heq
    have hs := hu.recordAt.ok heq
    extract_lets t
    have ht : Sound M R t.1 := hs.xfstTry
    split
    · exact hs.illegalTrap
    · split
      · exact hs.privTrap
      · split
        · exact ht.plain
        · exact ht.pendOn.plain

theorem execXtab {o : XtabA} {s : State} (h : Sound M R s) : SoundOut M R (Machine.execXtab o s) := by
  unfold Machine.execXtab
  refine h.runWord (fun hu => ?_)
  extract_lets a trapAt h'
  have htrapAt : ∀ {u : State} {x1 : Int × Chk}, Sound M R u → SoundEff M R (trapAt u x1) := by
    intro _ _ hu
    unfold trapAt
    split
    · exact hu.wholeTrap
    · exact hu.wholeTrap
  have hh' : Sound M R h'.1 := hu.checkAddrs
  split
  · exact hu.plain
  · split
    · exact hu.privTrap
    · split
      · exact hu.wholeTrap
      · split
        · extract_lets hs r
          have hhs : Sound M R hs := hh'.readBefore
          have hr : Sound M R r.1 := hhs.checkAddrs
          split
          · exact htrapAt hr
          · exact hr.pendOn.plain
        · exact htrapAt hh'
        · exact hh'.plain

theorem endPend {s : State} {wid n : Nat} (h : Sound M R s) : Sound M R (Machine.endPend s wid n) := by
  unfold Machine.endPend
  exact h.modWarp (fun _ hw => Warp.regsOk_wake hw)

theorem setPend {s : State} {wid n : Nat} {op : PendOp} (h : Sound M R s) : Sound M R (Machine.setPend s wid n op) := by
  unfold Machine.setPend
  exact h.modWarp (fun _ hw => hw)

theorem noteBacks {s : State} {gid k bid : Nat} {ids : List Nat} (h : Sound M R s) : Sound M R (Machine.noteBacks s gid k bid ids) := by
  unfold Machine.noteBacks
  extract_lets f
  refine h.mapWarps (fun _ hw => ?_)
  split
  · exact hw
  · exact hw

theorem stepWinrel {s : State} {w : Warp} {n k bid : Nat} {next : Option (List Int)} {wbs : List Nat} (h : Sound M R s) :
    Sound M R (Machine.stepWinrel s w n k bid next wbs) := by
  unfold Machine.stepWinrel
  split
  · exact h.endPend
  · extract_lets bound
    clear_value bound
    split
    · extract_lets r
      have hr : Sound M R r.1 := h.finishRelease
      exact h.ite hr.noteBacks
    · split
      · exact h
      · split
        · exact h.bindWin.endPend
        · exact h.beginRelease.setPend
        · exact h.endPend

theorem stepTask {s : State} {w : Warp} {n : Nat} {r : List Int} {addr : Int} {gd : Nat} {hint : Int} (h : Sound M R s) :
    Sound M R (Machine.stepTask s w n r addr gd hint) := by
  unfold Machine.stepTask
  split
  · exact h.endPend
  · exact h.acceptTask.endPend.ite h

theorem sendLoop {s : State} {w : Warp} {gid core port : Nat} {addr : Int} {k sent : Nat} (h : Sound M R s) :
    Sound M R (Machine.sendLoop s w gid core port addr k sent).1 := by
  induction k generalizing s sent with
  | zero => exact h
  | succ k ih =>
    unfold Machine.sendLoop
    split
    · split
      · exact h
      · exact ih h.scrub.sendLine
    · exact h

theorem stepSend {s : State} {w : Warp} {n port : Nat} {addr : Int} {cnt sent : Nat} (h : Sound M R s) :
    Sound M R (Machine.stepSend s w n port addr cnt sent) := by
  unfold Machine.stepSend
  split
  · extract_lets r
    have hr : Sound M R r.1 := h.sendLoop
    exact hr.endPend.ite (h.ite hr.setPend)
  · exact h

theorem bindRecv {s : State} {w : Warp} {n port k first cnt : Nat} (h : Sound M R s) : Sound M R (Machine.bindRecv s w n port k first cnt) := by
  unfold Machine.bindRecv
  split
  · exact h
  · exact h.modCore.endPend

theorem stepRecv {s : State} {w : Warp} {n port k first cnt : Nat} {locs : List Loc} {marked : Bool} (h : Sound M R s) :
    Sound M R (Machine.stepRecv s w n port k first cnt locs marked) := by
  unfold Machine.stepRecv
  extract_lets js gl x
  split
  · exact h.endPend
  · extract_lets own s1 s2
    have hs1 : Sound M R s1 := h.update
    have hs2 : Sound M R s2 := hs1.modGang (fun _ hg => swf_modWin hg)
    split
    · exact h.endPend
    · extract_lets ls s3
      have hs3 : Sound M R s3 := hs2.tbPost.setPend
      exact h.endPend.ite (h.ite (h.ite (h.flushLines.ite (h.recallAll.ite (hs3.bindRecv.ite hs3)))))

theorem execRecvBind {wid : Nat} {s : State} (h : Sound M R s) : SoundOut M R (Machine.execRecvBind wid s) := by
  unfold Machine.execRecvBind
  show Sound M R _
  split
  · exact h
  · split
    · exact h.bindRecv
    · exact h

theorem stepXtab {s : State} {w : Warp} {n slot : Nat} {a : Int} {gd : Nat} {locs : List Loc} {loading : Bool} (h : Sound M R s) :
    Sound M R (Machine.stepXtab s w n slot a gd locs loading) := by
  unfold Machine.stepXtab
  exact h.ite (h.ite h.setSlot.setPend)

theorem stepFlush {s : State} {w : Warp} {n : Nat} {inv : Bool} {lines : List (Nat × Nat)} {wbs : List Nat} (h : Sound M R s) :
    Sound M R (Machine.stepFlush s w n inv lines wbs) := by
  unfold Machine.stepFlush
  split
  · exact h.endPend
  · extract_lets st wait r wbs2
    have hr : Sound M R r.1 := h.flushLines
    exact hr.endPend.ite (h.ite hr.setPend)

end Sound
end Sys2Proof.Machine
end

section
/-! ## The invariant layer: tile tasks, pre-emption, the debug operations, the system words -/

namespace Sys2Proof.Machine

open Sys2Proof Tern

namespace Sound

variable {M R : Prop}

/-! ### EvTasks -/

theorem putWords {s : State} {core ctx gid : Nat} {addr : Int} {ws : List Int} (h : Sound M R s) :
    Sound M R (Machine.putWords s core ctx gid addr ws) := by
  unfold Machine.putWords
  exact h.scrub.foldl (fun _ _ hu => hu.devUnit)

theorem dropTask {s : State} {gid ticket : Nat} (h : Sound M R s) : Sound M R (Machine.dropTask s gid ticket) := by
  unfold Machine.dropTask
  exact h.disownTasks.modGang (fun _ hg => hg)

theorem requestPage {s : State} {ctx : Nat} {page : Int} {core : Nat} {relaunch : Bool} (h : Sound M R s) :
    Sound M R (Machine.requestPage s ctx page core relaunch) := by
  unfold Machine.requestPage
  exact h.update.ite h.update

theorem taskFault {s : State} {gid : Nat} {t : Task} {detail addr : Int} (h : Sound M R s) : Sound M R (Machine.taskFault s gid t detail addr) := by
  unfold Machine.taskFault
  extract_lets r tf
  split
  · exact h
  · extract_lets s1
    have hs1 : Sound M R s1 := h.putWords.dropTask
    split
    · exact ite (h.killGang.requestPage.ite h.killGang) h.killGang
    · split
      · exact hs1.modWarp (fun _ hw => hw)
      · exact hs1.cwGang

theorem taskAccess {s : State} {g : Gang} {t : Task} (h : Sound M R s) : SoundTask M R (Machine.taskAccess s g t) := by
  unfold Machine.taskAccess
  extract_lets reads writes ro all r no need
  have hr : Sound M R r.1 := h.touchAll
  clear_value ro
  split
  · exact h
  · split
    · exact h
    · split
      · exact hr
      · exact hr
      · split
        · exact hr
        · split
          · exact hr
          · refine hr.foldl (fun _ _ hu => ?_)
            split
            · exact hu.send
            · exact hu

theorem bindSlot {s : State} {gid : Nat} {t : Task} (h : Sound M R s) : Sound M R (Machine.bindSlot s gid t) := by
  unfold Machine.bindSlot
  extract_lets i used
  split
  · exact h
  · extract_lets c
    split
    · exact h
    · exact h.modGang (fun _ hg => hg)

theorem modTask {s : State} {gid ticket : Nat} {f : Task → Task} (h : Sound M R s) : Sound M R (Machine.modTask s gid ticket f) := by
  unfold Machine.modTask
  exact h.modGang (fun _ hg => hg)

theorem aside {s : State} {o : Owner} (h : Sound M R s) : Sound M R (s.aside o) := by
  unfold Machine.State.aside
  exact h.update

theorem ownedAs {s t : State} (_h : Sound M R s) (h1 : Sound M R t) : Sound M R (s.ownedAs t) := by
  unfold Machine.State.ownedAs
  exact h1.update

theorem noPre {s : State} {x : Gang} {a2 : Task} (h : Sound M R s) : SoundTask M R (Machine.noPre s x a2) := by
  unfold Machine.noPre
  exact h

theorem driveTask {s : State} {gid ticket : Nat} {kind : Int} {pre f : State → Gang → Task → TaskOut} (h : Sound M R s)
    (hpre : ∀ {u g t}, Sound M R u → SoundTask M R (pre u g t)) (hf : ∀ {u g t}, Sound M R u → SoundTask M R (f u g t)) :
    Sound M R (Machine.driveTask s gid ticket kind pre f) := by
  unfold Machine.driveTask
  split
  · exact h
  · split
    · exact h
    · rename_i g _ _ t _
      extract_lets u s1 andThen
      have hs1 : Sound M R s1 := modTask (h.bindSlot.ite h)
      have hand : ∀ {o k}, SoundTask M R o → (∀ {u g}, Sound M R u → SoundTask M R (k u g)) → SoundTask M R (andThen o k) := by
        intro o k ho hk
        unfold andThen
        split
        · split
          · exact hk ho
          · exact ho
        · exact ho
      have hstart : SoundTask M R (.done (s1.aside (.task gid ticket))) := hs1.aside
      have hlines : SoundTask M R (andThen (andThen (.done (s1.aside (.task gid ticket))) fun s g => pre s g t) fun s g => Machine.taskAccess s g t) :=
        hand (k := fun s g => Machine.taskAccess s g t) (hand (k := fun s g => pre s g t) hstart hpre) Sound.taskAccess
      have hrun : SoundTask M R
          (andThen (andThen (andThen (.done (s1.aside (.task gid ticket))) fun s g => pre s g t) fun s g => Machine.taskAccess s g t) fun s g => f s g t) :=
        hand (k := fun s g => f s g t) hlines hf
      split
      · exact h
      · split
        · exact h.taskFault
        · split
          all_goals rename_i he; rw [he] at hrun
          · exact h.ownedAs hrun
          · exact Sound.taskFault (h.ownedAs hrun)
          · exact h.ownedAs hrun

theorem countReads {s : State} {g : Gang} {us : List (Int × Nat)} (h : Sound M R s) : Sound M R (Machine.countReads s g us) := by
  unfold Machine.countReads
  exact h.scrub.foldl (fun _ _ hu => hu.countRead)

theorem computed {s : State} {gid ticket : Nat} {flags : Fl} (h : Sound M R s) : Sound M R (Machine.computed s gid ticket flags) := by
  unfold Machine.computed
  exact h.modTask

theorem taskLine {s : State} {gid : Nat} {a : Int} {d : Store} {t : Tag} (h : Sound M R s) : Sound M R (Machine.taskLine s gid a d t) := by
  refine h.scrub.modGang fun g hg => ?_
  extract_lets line g1
  have hg1 : swf g1.scratch = true := swf_setLine hg _ _ _
  split
  · exact hg1
  · exact hg1

theorem execWloadTask {gid ticket : Nat} {s : State} (h : Sound M R s) : SoundOut M R (Machine.execWloadTask gid ticket s) := by
  unfold Machine.execWloadTask
  refine h.driveTask (fun hu => hu.noPre) (fun hu => ?_)
  extract_lets mode i
  split
  · exact hu
  · extract_lets w s1
    have hs1 : Sound M R s1 := hu.modGang (fun _ hg => hg)
    exact hs1.countReads.computed

theorem mmWrite {s : State} {gid : Nat} {r : List Int} {rows : List (List Int)} (h : Sound M R s) : Sound M R (Machine.mmWrite s gid r rows) := by
  unfold Machine.mmWrite
  refine h.foldl (fun _ _ hu => ?_)
  extract_lets cs
  exact hu.foldl (fun _ _ hu1 => hu1.taskLine)

theorem mmRun {s : State} {g : Gang} {t : Task} {as : List (List (Int × LineRead))} {reads : List (Int × Nat)} (h : Sound M R s) :
    SoundTask M R (Machine.mmRun s g t as reads) := by
  unfold Machine.mmRun
  split
  · exact h
  · exact h.countReads.mmWrite.computed

theorem execMmTask {gid ticket : Nat} {s : State} (h : Sound M R s) : SoundOut M R (Machine.execMmTask gid ticket s) := by
  unfold Machine.execMmTask
  refine h.driveTask (fun hu => hu.noPre) (fun hu => ?_)
  extract_lets x p as
  exact hu.mmRun

theorem forwardLoop {s : State} {g : Gang} {t : Task} {core to_ port k sent : Nat} (h : Sound M R s) :
    Sound M R (Machine.forwardLoop s g t core to_ port k sent).1 := by
  induction k generalizing s sent with
  | zero => exact h
  | succ k ih =>
    unfold Machine.forwardLoop
    split
    · split
      · exact ih h.sendLine
      · exact h
    · exact h

theorem execStreamTask {gid ticket : Nat} {s : State} (h : Sound M R s) : SoundOut M R (Machine.execStreamTask gid ticket s) := by
  unfold Machine.execStreamTask
  refine h.driveTask (fun hu => hu.noPre) (fun hu => ?_)
  extract_lets core port fwd n unbind ls r c as
  have hunbind : ∀ {u : State}, Sound M R u → Sound M R (unbind u) := by
    intro _ hu
    unfold unbind
    exact hu.modCore
  have hr : Sound M R r.1 := by
    unfold r
    split
    · exact hu.forwardLoop
    · exact hu
  split
  · split
    · exact hu.modCore
    · exact hu
  · split
    · exact hunbind hu
    · split
      · exact hr.ite hr.modTask
      · exact hr.modTask.mmRun

theorem execStreamSectorReceipt {id : Nat} {s : State} (h : Sound M R s) : SoundOut M R (Machine.execStreamSectorReceipt id s) := by
  unfold Machine.execStreamSectorReceipt
  extract_lets s1
  have hs1 : Sound M R s1 := h.delReq
  show Sound M R _
  split
  · split
    · split
      · exact h
      · split
        · exact hs1
        · extract_lets next adv
          have hadv : ∀ {u : State}, Sound M R u → Sound M R (adv u) := by
            intro _ hu
            unfold adv
            exact hu.modCore
          split
          · exact h
          · split
            · exact hadv (hs1.modTask.ite hs1)
            · extract_lets j s2 x s3
              have hs2 : Sound M R s2 := hs1.landIn
              have hs3 : Sound M R s3 := by
                unfold s3
                split
                · exact hs2.update
                · exact hs2
              exact hadv hs3
    · exact h
  · exact h

theorem epiWord {s : State} {g : Gang} {t : Task} {nd : Need} {a : Int} (h : Sound M R s) : Sound M R (Machine.epiWord s g t nd a).1 := by
  unfold Machine.epiWord
  extract_lets r
  have hr : Sound M R r.1 := h.checkAddr
  split
  · exact hr
  · exact hr
  · exact hr

theorem epiWriteRow {s : State} {gid : Nat} {r : List Int} {m : Nat} {sh : Int} {ys : List Int} (h : Sound M R s) :
    Sound M R (Machine.epiWriteRow s gid r m sh ys) := by
  unfold Machine.epiWriteRow
  extract_lets os f27 code
  exact h.foldl (fun _ _ hu => hu.taskLine)

theorem epiPlaces {s : State} {g : Gang} {t : Task} (h : Sound M R s) : Sound M R (Machine.epiPlaces s g t).1 := by
  unfold Machine.epiPlaces
  extract_lets r a b
  have ha : Sound M R a.1 := by
    unfold a
    split
    · exact h.epiWord
    · exact h
  have hb : Sound M R b.1 := by
    unfold b
    split
    · exact ha.epiWord
    · exact ha
  split
  · exact ha
  · split
    · exact hb
    · exact hb

theorem epiPre {s : State} {g : Gang} {t : Task} (h : Sound M R s) : SoundTask M R (Machine.epiPre s g t) := by
  unfold Machine.epiPre
  extract_lets p
  have hp : Sound M R p.1 := h.epiPlaces
  split
  · exact hp
  · exact hp

theorem execEpiTask {gid ticket : Nat} {s : State} (h : Sound M R s) : SoundOut M R (Machine.execEpiTask gid ticket s) := by
  refine h.driveTask Sound.epiPre fun hu => ?_
  extract_lets r core sa fa useS useF p s0 ms
  have hp : Sound M R p.1 := hu.epiPlaces
  split
  · exact hp
  · extract_lets sl fl s1 sc
    have hs1 : Sound M R s1 := (hp.hostActs.ite hp).foldl fun _ _ hv => hv.readHome
    clear_value s1 sc
    split
    · exact Sound.seekHeld hp
    · split
      · exact hp.foldl fun _ _ hv => hv.sendRecalls
      · split
        · exact Sound.recallAll hp
        · split
          · rename_i he
            exact ofFindSome (fun _ => hp.makeRoom) he
          · split
            · exact hs1
            · exact hs1
            · extract_lets e sh step z s2 s3
              have hz : Sound M R z.1 := List.foldlRecOn ms step (motive := fun a => Sound M R a.1) hs1.countReads fun a ha m _ => by
                unfold step
                split
                · exact ha
                · exact ha.epiWriteRow
              have hs2 : Sound M R s2 := setDirty hz.commitGang
              have hs3 : Sound M R s3 := by
                unfold s3
                clear_value useF
                split
                · exact hs2.takeLines.applyRed
                · exact hz
              split
              · exact hs1
              · split
                · exact hs1
                · split
                  · exact hs1
                  · exact hs3.computed

theorem execTaskEnd {gid ticket : Nat} {s : State} (h : Sound M R s) : SoundOut M R (Machine.execTaskEnd gid ticket s) := by
  unfold Machine.execTaskEnd
  show Sound M R _
  split
  · exact h
  · split
    · exact h
    · extract_lets b full s1 s2
      have hs1 : Sound M R s1 := h.putWords
      have hs2 : Sound M R s2 := hs1.dropTask
      split
      · exact h
      · split
        · exact hs2
        · split
          · rename_i heq
            have hs := hs2.tbArrive.some heq
            exact hs.met
          · exact hs2

theorem dropPends {s : State} {wid : Nat} (h : Sound M R s) : Sound M R (Machine.dropPends s wid) := by
  unfold Machine.dropPends
  split
  · exact h
  · extract_lets undo s1
    have hundo : ∀ {u : State} {x1 : Pend}, Sound M R u → Sound M R (undo u x1) := by
      intro _ _ hu
      unfold undo
      split
      · exact hu.setSlot
      · exact hu.unmarkRecv
      · exact hu
    have hs1 : Sound M R s1 := h.foldl (fun _ _ hu => hundo hu)
    exact hs1.modWarp (fun _ hw => hw)

theorem enterTaskf {s : State} {wid : Nat} {ls : List Nat} {tf : TaskF} (h : Sound M R s) : Sound M R (Machine.enterTaskf s wid ls tf) := by
  unfold Machine.enterTaskf
  exact h.enterTrap.modWarp (fun _ hw => Warp.regsOk_lanes hw _ (fun _ _ hx => hx))

theorem execTaskfDelivery {wid : Nat} {s : State} (h : Sound M R s) : SoundOut M R (Machine.execTaskfDelivery wid s) := by
  unfold Machine.execTaskfDelivery
  show Sound M R _
  split
  · exact h
  · split
    · extract_lets ls s1 s2
      have hs2 : Sound M R s2 := modWarp h.dropPends fun w hw => Warp.regsOk_of (Warp.regsOk_modLanes hw ls
        (fun _ x => { x with pc := (match x.wait with | some y => y.word | none => x.pc), wait := none }) fun _ _ hl => hl) rfl rfl rfl
      exact h.ite hs2.enterTaskf
    · exact h

theorem xWrite {x : XReq} {s : State} {i : Nat} {v : Int} (h : Sound M R s) : Sound M R (Machine.xWrite x s i v) := by
  unfold Machine.xWrite
  extract_lets loc s1 ls
  have hs1 : Sound M R s1 := h.markWalk.ite h
  exact hs1.takeLines.applyUnits

theorem hostHears {s : State} {ls : List Loc} (h : Sound M R s) : Sound M R (Machine.hostHears s ls).2 := by
  refine List.foldlRecOn ls _ (motive := fun z : Bool × State => Sound M R z.2) h fun z hz l _ => ?_
  split
  · exact hz.update
  · exact hz

theorem xStep {gone : Int → Bool} {tb : TableSlot} {x : XReq} {z : XRun} (h : Sound M R z.s) : Sound M R (Machine.xStep gone tb x z).s := by
  unfold Machine.xStep
  extract_lets src s lost q s1 loc raw
  have hs : Sound M R s := h.hostActs.ite h
  have hs1 : Sound M R s1 := hs.hostHears
  split
  · exact hs1
  · split
    · split
      · exact hs1
      · extract_lets ys q2 s2
        have hs2 : Sound M R s2 := hs1.hostHears
        split
        · exact hs1
        · split
          · exact hs1
          · split
            · exact hs1
            · split
              · exact hs2
              · exact hs2.foldl fun _ _ hu => hu.xWrite
    · exact hs1

theorem xRun {gone : Int → Bool} {tb : TableSlot} {x : XReq} {n : Nat} {z : XRun} (h : Sound M R z.s) : Sound M R (Machine.xRun gone tb x n z).s := by
  induction n generalizing z with
  | zero => exact h
  | succ n ih =>
    unfold Machine.xRun
    split
    · exact h
    · extract_lets y
      have hy : Sound M R y.s := xStep h
      split
      · exact hy
      · exact ih hy

theorem execTransducerRequestStart {lane : Nat} {s : State} (h : Sound M R s) : SoundOut M R (Machine.execTransducerRequestStart lane s) := by
  unfold Machine.execTransducerRequestStart
  show Sound M R _
  split
  · extract_lets gone here mine dst read src others tb st z s1
    have hz : Sound M R z.s := xRun (h.aside.foldl fun _ _ hu => hu.readHome)
    have hs1 : Sound M R s1 := modQueue (h.ownedAs hz)
    split
    · exact h
    · split
      · exact h
      · split
        · exact h.seekHeld
        · split
          · exact h
          · split
            · exact h.foldl fun _ _ hu => hu.sendRecalls
            · split
              · exact h.recallAll
              · split
                · exact h.recallAll
                · split
                  · exact hs1
                  · split
                    · exact hs1.tbLand
                    · exact hs1
  · exact h

theorem endXReq {s : State} {lane : Nat} {x : XReq} (h : Sound M R s) : Sound M R (Machine.endXReq s lane x) := by
  unfold Machine.endXReq
  extract_lets own x' s1
  have hs1 : Sound M R s1 := h.update.modQueue
  split
  · exact hs1
  · extract_lets core s2
    have hs2 : Sound M R s2 := hs1.putWords
    exact hs2.ite hs2.tbLand

theorem execTransducerRequestEnd {lane : Nat} {s : State} (h : Sound M R s) : SoundOut M R (Machine.execTransducerRequestEnd lane s) := by
  unfold Machine.execTransducerRequestEnd
  show Sound M R _
  split
  · exact h.endXReq.ite h
  · exact h

theorem reissuePend {s : State} {wid n : Nat} (h : Sound M R s) : Sound M R (Machine.reissuePend s wid n) := by
  unfold Machine.reissuePend
  extract_lets is
  split
  · exact h
  · extract_lets s1
    have hs1 : Sound M R s1 := by
      refine h.modWarp (fun _ hw => Warp.regsOk_modLanes ?_ _ _ (fun _ _ hx => hx))
      split
      · exact hw
      · exact hw
    exact hs1.endPend

theorem readImage {s : State} {locs : List Loc} {a : Int} {first n : Nat} (h : Sound M R s) : Sound M R (Machine.readImage s locs a first n) := by
  unfold Machine.readImage
  refine h.foldl (fun _ _ hu => ?_)
  extract_lets l
  exact hu.hostActs.ite hu.readHome

theorem execTableLoadComplete {slot : Nat} {s : State} (h : Sound M R s) : SoundOut M R (Machine.execTableLoadComplete slot s) := by
  unfold Machine.execTableLoadComplete
  extract_lets gone stuck open_ t
  show Sound M R _
  split
  · exact h
  · extract_lets l0 hl fail s1 len own ls s2
    have hfail : ∀ {u : State} {x1 : Int}, Sound M R u → Sound M R (fail u x1) := by
      intro _ _ hu
      unfold fail
      exact endPend (hu.setSlot.modWarp (fun _ hw => Warp.regsOk_setG hw _ _))
    have hs1 : Sound M R s1 := h.readImage
    have hs2 : Sound M R s2 := hs1.readImage
    split
    · exact h.seekHeld
    · split
      · exact hfail h
      · split
        · exact h.foldl (fun _ _ hu => hu.sendRecalls)
        · split
          · exact hs1.setSlot.reissuePend
          · split
            · exact h.seekHeld
            · split
              · exact hfail h
              · split
                · exact h.foldl (fun _ _ hu => hu.sendRecalls)
                · split
                  · exact endPend (hs2.setSlot.modWarp (fun _ hw => Warp.regsOk_setG hw _ _))
                  · exact hfail hs2

/-! ### Preempt -/

theorem undoPends {s : State} {w : Warp} (h : Sound M R s) : Sound M R (Machine.undoPends s w) := by
  unfold Machine.undoPends
  extract_lets ps back s1
  have hs1 : Sound M R s1 := by
    unfold s1
    split
    · exact h.foldl (fun _ _ hu => hu.unmarkRecv)
    · exact h
  exact hs1.modWarp (fun _ hw => Warp.regsOk_wake (Warp.regsOk_reissue hw))

theorem saveWarp {s : State} {wid : Nat} {rc : Option (List Int)} (h : Sound M R s) : Sound M R (Machine.saveWarp s wid rc) := by
  unfold Machine.saveWarp
  split
  · exact h
  · extract_lets restrict mark s1
    have hr : ∀ w, w.regsOk = true → (restrict w).regsOk = true := fun w hw => by
      unfold restrict
      split
      · exact Warp.regsOk_applyRecord hw
      · exact hw
    have hm : ∀ g, swf g.scratch = true → swf (mark g).scratch = true := fun g hg => by
      unfold mark
      split
      · exact hg
      · exact hg
    have hs1 : Sound M R s1 := modWarp h.undoPends fun w hw => hr w hw
    split
    · exact hs1.modContext
    · exact hs1.modGang hm

theorem stopStreams {s : State} {gid : Nat} (h : Sound M R s) : Sound M R (Machine.stopStreams s gid) := by
  unfold Machine.stopStreams
  extract_lets s1 back
  have hs1 : Sound M R s1 := h.foldl (fun _ _ hu => hu.cancelBinding)
  exact hs1.modGang (fun _ hg => hg)

theorem saveGang {s : State} {gid : Nat} (h : Sound M R s) : Sound M R (Machine.saveGang s gid) := by
  unfold Machine.saveGang
  split
  · exact h
  · extract_lets ws open_ s0 dirty s1 logs s3 s4 kept
    have hs0 : Sound M R s0 := h.stopStreams
    have hs1 : Sound M R s1 := hs0.foldl fun _ _ hu => hu.writeBackLine
    have hs3 : Sound M R s3 := hs1.foldl fun _ _ hu => hu.note
    have hs4 : Sound M R s4 := disownTasks hs3.clearWatch
    split
    · exact h
    · split
      · exact hs0
      · exact hs4.modGang fun _ hg => swf_filter _ hg

theorem saveGangs {s : State} (h : Sound M R s) : Sound M R (Machine.saveGangs s) := by
  unfold Machine.saveGangs
  exact h.foldl (fun _ _ hu => hu.orStay hu.saveGang)

theorem saveWaiting {s : State} (h : Sound M R s) : Sound M R (Machine.saveWaiting s) := by
  unfold Machine.saveWaiting
  extract_lets s1
  have hs1 : Sound M R s1 := by
    refine h.foldl (fun _ _ hu => ?_)
    split
    · exact hu
    · split
      · exact hu.saveWarp
      · exact hu.saveWarp.ite hu
  exact hs1.saveGangs

theorem preemptContext {s : State} {pad : Nat} (h : Sound M R s) : Sound M R (Machine.preemptContext s pad) := by
  unfold Machine.preemptContext
  split
  · exact h
  · extract_lets held s1 wids s2
    have hs1 : Sound M R s1 := by
      refine h.foldl (fun _ _ hu => ?_)
      extract_lets s1' s2'
      have hs1' : Sound M R s1' := hu.dropWarps
      have hs2' : Sound M R s2' := hs1'.filterGangs
      exact hs2'.modLaunch
    have hs2 : Sound M R s2 := hs1.update
    exact hs2.modPaddock

/-! ### DebugOps -/

theorem dropL1s {s : State} {issuer : Option Nat} {wid : Nat} (h : Sound M R s) : Sound M R (Machine.dropL1s s issuer wid) := by
  unfold Machine.dropL1s
  extract_lets cs
  exact h.update

theorem dropCoreL1s {s : State} {issuer : Option Nat} {core : Nat} (h : Sound M R s) : Sound M R (Machine.dropCoreL1s s issuer core) := by
  unfold Machine.dropCoreL1s
  extract_lets cs
  exact h.update

theorem refuse {s : State} {outcome : Int} {k : Nat} (h : Sound M R s) : SoundDbg M R (Machine.refuse s outcome k) := by
  unfold Machine.refuse
  exact h

theorem dbgWset {s : State} {n : Nat} {iss : Option Nat} {b : Int} {r : List Int} {mask : Int} {u : Nat} (h : Sound M R s) :
    SoundDbg M R (Machine.dbgWset s n iss b r mask u) := by
  unfold Machine.dbgWset
  split
  · exact h.refuse
  · extract_lets g x
    split
    · exact h.refuse
    · split
      · exact trivial
      · split
        · exact h
        · exact h.dropL1s.modCore

theorem dbgWclr {s : State} {n : Nat} {iss : Option Nat} {b : Int} {u : Nat} (h : Sound M R s) : SoundDbg M R (Machine.dbgWclr s n iss b u) := by
  unfold Machine.dbgWclr
  split
  · exact h.refuse
  · split
    · exact h.refuse
    · split
      · exact trivial
      · exact h.dropCoreL1s.modCore

theorem dbgWrd {s : State} {n : Nat} {iss : Option Nat} {b : Int} {u : Nat} (h : Sound M R s) : SoundDbg M R (Machine.dbgWrd s n iss b u) := by
  unfold Machine.dbgWrd
  extract_lets s1
  have hs1 : Sound M R s1 := h.dropCoreL1s
  split
  · exact h.refuse
  · split
    · exact h.refuse
    · split
      · exact trivial
      · split
        · exact hs1
        · exact hs1.refuse

theorem dbgHlst {s : State} {n : Nat} {iss : Option Nat} {b : Int} (h : Sound M R s) : SoundDbg M R (Machine.dbgHlst s n iss b) := by
  unfold Machine.dbgHlst
  split
  · exact h.refuse
  · split
    · exact h.refuse
    · extract_lets ls l0 h'
      split
      · exact trivial
      · exact h.dropL1s

theorem mem_of_dbgTarget {s : State} {n : Nat} {iss : Option Nat} {b : Int} {whole : Bool} {w : Warp}
    (he : dbgTarget s n iss b whole = .warp w ∨ ∃ l, dbgTarget s n iss b whole = .lane w l) : w ∈ s.warps := by
  unfold dbgTarget at he
  split at he
  · simp at he
  · split at he
    · simp at he
    · split at he
      · simp at he
      · rename_i w' hw
        refine mem_of_warpAt ((?_ : w' = w) ▸ hw)
        split at he
        · simp at he
        · split at he
          · split at he
            · simp at he
            · simpa using he
          · split at he
            · simp at he
            · split at he
              · simp at he
              · simpa using he

theorem dbgHrdv {s : State} {n : Nat} {iss : Option Nat} {b : Int} {item : Nat} (h : Sound M R s) :
    SoundDbg M R (Machine.dbgHrdv s n iss b item) := by
  unfold Machine.dbgHrdv
  split
  · exact h.refuse
  · exact trivial
  · exact h.dropL1s
  · split
    · exact h.dropL1s
    · exact h.refuse

theorem dbgHwrv {s : State} {n : Nat} {iss : Option Nat} {b v : Int} {item : Nat} (h : Sound M R s) :
    SoundDbg M R (Machine.dbgHwrv s n iss b v item) := by
  unfold Machine.dbgHwrv
  extract_lets put
  have hput : ∀ {w o}, (R → ∀ x, o = some x → x.regsOk = true) → SoundDbg M R (put w o) := by
    intro w o ho
    unfold put
    split
    · exact h.dropL1s.replaceWarp fun r => ho r _ rfl
    · exact h.refuse
  split
  · exact h.refuse
  · trivial
  · rename_i he
    exact hput fun r _ hx => Warp.regsOk_setWarpItem (h.warp_ok r (mem_of_dbgTarget (.inl he))) hx
  · rename_i he
    exact hput fun r _ hx => Warp.regsOk_setLaneItem (h.warp_ok r (mem_of_dbgTarget (.inr ⟨_, he⟩))) hx

theorem dbgHrdp {s : State} {n : Nat} {iss : Option Nat} {b : Int} {item : HItem} (h : Sound M R s) :
    SoundDbg M R (Machine.dbgHrdp s n iss b item) := by
  unfold Machine.dbgHrdp
  split
  · exact h.refuse
  · exact trivial
  · exact trivial
  · extract_lets x out
    have hout : ∀ {u : Int}, SoundDbg M R (out u) := by
      intro _
      unfold out
      exact h.dropL1s
    split
    · exact hout
    · exact h.dropL1s
    · split
      · exact hout
      · exact hout
      · exact h.refuse

theorem dbgHwrp {s : State} {n : Nat} {iss : Option Nat} {b lo hi : Int} {item : HItem} (h : Sound M R s) :
    SoundDbg M R (Machine.dbgHwrp s n iss b lo hi item) := by
  unfold Machine.dbgHwrp
  split
  · exact h.refuse
  · trivial
  · trivial
  · extract_lets s1 put
    have hs1 : Sound M R s1 := h.dropL1s
    have hput : ∀ {u f}, Sound M R u → (∀ x, x.latchesOk = true → (f x).latchesOk = true) → SoundDbg M R (put u f) := fun hu hf =>
      hu.modWarp fun _ hw => Warp.regsOk_modLane hw fun x hx => hf x hx
    split
    · exact hput hs1 fun _ hx => hx
    · split
      · exact hput hs1 fun _ hx => hx
      · exact h.refuse
    · split
      · exact hput hs1 fun _ hx => hx
      · exact hput (hs1.modGang fun _ hg => swf_spillStore hg) fun _ hx => hx
      · exact h.refuse

theorem dbgHstep {s : State} {n : Nat} {iss : Option Nat} {b : Int} (h : Sound M R s) : SoundDbg M R (Machine.dbgHstep s n iss b) := by
  unfold Machine.dbgHstep
  split
  · exact h.refuse
  · exact trivial
  · exact trivial
  · split
    · exact h.refuse
    · split
      · exact h.refuse
      · exact trivial

theorem dbgHres {s : State} {n : Nat} {iss : Option Nat} {b scope t : Int} (h : Sound M R s) : SoundDbg M R (Machine.dbgHres s n iss b scope t) := by
  unfold Machine.dbgHres
  split
  · exact h.refuse
  · split
    · exact h.refuse
    · split
      · exact h.refuse
      · extract_lets lid mine s1
        have hs1 : Sound M R s1 := h.dropL1s
        split
        · exact trivial
        · split
          · split
            · exact h.refuse
            · split
              · exact h.refuse
              · split
                · exact h.refuse
                · exact hs1.modWarp (fun _ hw => Warp.regsOk_modLane hw (fun _ hx => hx))
          · split
            · exact h.refuse
            · split
              · exact trivial
              · split
                · clear_value lid
                  split
                  · exact hs1.modLaunch
                  · exact h.refuse
                · refine hs1.mapWarps (fun _ hw => ?_)
                  split
                  · exact Warp.regsOk_unhalt hw
                  · exact hw

theorem dbgHalt {s : State} {b scope : Int} (h : Sound M R s) : SoundDbg M R (Machine.dbgHalt s b scope) := by
  unfold Machine.dbgHalt
  extract_lets h'
  split
  · exact h.refuse
  · split
    · exact h.refuse
    · split
      · exact h.refuse
      · split
        · split
          · exact h.refuse
          · exact h.haltBy
        · exact h.haltBy

theorem dbgTry {s : State} {n : Nat} {iss : Option Nat} {r : DbgOp} {b t : Int} (h : Sound M R s) : SoundDbg M R (Machine.dbgTry s n iss r b t) := by
  unfold Machine.dbgTry
  split
  · exact h.dbgWset
  · exact h.dbgWclr
  · exact h.dbgWrd
  · exact h.dbgHlst
  · exact h.dbgHrdv
  · exact h.dbgHwrv
  · exact h.dbgHrdp
  · exact h.dbgHwrp
  · exact h.dbgHstep
  · exact h.dbgHres
  · exact h.dbgHalt

theorem dbgEnd {s : State} {iss : Option Nat} {n gd : Nat} {ws : List Int} (h : Sound M R s) : Sound M R (Machine.dbgEnd s iss n gd ws) := by
  unfold Machine.dbgEnd
  split
  · exact endPend (h.modWarp (fun _ hw => Warp.regsOk_foldl hw (fun _ _ hw1 => Warp.regsOk_setG hw1 _ _)))
  · exact h.modPkg

theorem dbgSet {s : State} {iss : Option Nat} {n : Nat} {op : PendOp} (h : Sound M R s) : Sound M R (Machine.dbgSet s iss n op) := by
  unfold Machine.dbgSet
  split
  · exact h.setPend
  · exact h.modPkg

theorem stepLane {s : State} {iss : Option Nat} {n wid l : Nat} (h : Sound M R s) : Sound M R (Machine.stepLane s iss n wid l) := by
  unfold Machine.stepLane
  extract_lets s1
  have hs1 : Sound M R s1 := h.modWarp (fun _ hw => Warp.regsOk_modLane hw (fun _ hx => hx))
  split
  · exact h
  · exact hs1.update

theorem dbgRun {s : State} {iss : Option Nat} {n : Nat} {r : DbgOp} {b : Int} {gd : Nat} {t : Int} (h : Sound M R s) :
    Sound M R (Machine.dbgRun s iss n r b gd t) := by
  unfold Machine.dbgRun
  split
  · rename_i heq
    have hs := h.dbgTry.done heq
    exact hs.dbgEnd
  · exact h
  · exact h.ite h.dbgSet.dropL1s.stepLane

theorem hstepRun {s : State} {iss : Option Nat} {n wid l gd : Nat} {done : Option (Int × Int × Int × Int)} {ws : List Nat} (h : Sound M R s) :
    Sound M R (Machine.hstepRun s iss n wid l gd done ws) := by
  unfold Machine.hstepRun
  split
  · exact h.dbgEnd
  · split
    · extract_lets st
      exact h.ite h.dropL1s.dbgEnd
    · exact h.ite (h.dbgEnd.ite h.stepLane)

/-! ### System -/

theorem chanTable {s : State} {core ctx : Nat} {sup : Bool} {tab : Int} {a5 : Nat} (h : Sound M R s) :
    Sound M R (Machine.chanTable s core ctx sup tab a5).1 := by
  unfold Machine.chanTable
  extract_lets r locs s1
  have hr : Sound M R r.1 := h.checkAddrs
  have hs1 : Sound M R s1 := hr.foldl (fun _ _ hu => hu.readBefore)
  split
  · exact hr
  · exact hr
  · split
    · exact hs1
    · exact hs1

theorem writeChk {s : State} {core ctx : Nat} {sup atomic : Bool} {a : Int} (h : Sound M R s) :
    Sound M R (Machine.writeChk s core ctx sup atomic a).1 := by
  unfold Machine.writeChk
  extract_lets r
  have hr : Sound M R r.1 := h.checkAddr
  split
  · exact hr
  · exact hr

theorem checkLaunch {s : State} {core ctx : Nat} {sup : Bool} {r : List Int} (h : Sound M R s) :
    Sound M R (Machine.checkLaunch s core ctx sup r).1 := by
  unfold Machine.checkLaunch
  extract_lets h' t total badDesc b c
  have ht : Sound M R t.1 := by
    unfold t
    split
    · exact h
    · exact h.chanTable
  have hb : Sound M R b.1 := by
    unfold b
    split
    · exact ht
    · exact ht.writeChk
  have hc : Sound M R c.1 := hb.writeChk
  split
  · exact h
  · clear_value badDesc
    split
    · exact ht
    · split
      · exact ht
      · split
        · exact ht
        · split
          · exact ht
          · split
            · exact hb
            · split
              · exact hc
              · exact hc

theorem cwSet {s : State} {core ctx : Nat} {sup : Bool} {a seq v : Int} (h : Sound M R s) : Sound M R (Machine.cwSet s core ctx sup a seq v) :=
  h.homeOnly ((HomeOnly.refl _).cwSet _ _ _ _ _ _)

theorem acceptLaunch {s : State} {wid : Nat} {r descs : List Int} {gd : Nat} (h : Sound M R s) :
    Sound M R (Machine.acceptLaunch s wid r descs gd) := by
  unfold Machine.acceptLaunch
  split
  · exact h
  · extract_lets pad seq desc s1 e x s2
    have hs1 : Sound M R s1 := h.modPaddock
    have hs2 : Sound M R s2 := hs1.update
    exact hs2.cwSet.modWarp (fun _ hw => Warp.regsOk_setG hw _ _)

theorem resumeEntry {s : State} {ctx : Nat} {e : JEntry} (h : Sound M R s) : Sound M R (Machine.resumeEntry s ctx e) := by
  unfold Machine.resumeEntry
  extract_lets idem again lost t descs x x' s1
  have ht : Sound M R t.1 := h.chanTable
  have hs1 : Sound M R s1 := ht.update
  exact hs1.cwUpdate

theorem setSysChans {s : State} {old : Option (List Int)} {d : List Int} (h : Sound M R s) : Sound M R (Machine.setSysChans s old d) := by
  unfold Machine.setSysChans
  refine h.foldl (fun _ _ hu => ?_)
  extract_lets v rest
  exact hu.ite hu.update

theorem bindContext {s : State} {pad : Nat} {desc : Int} {d : List Int} (h : Sound M R s) : Sound M R (Machine.bindContext s pad desc d) := by
  unfold Machine.bindContext
  extract_lets ctx s1 s2
  have hs1 : Sound M R s1 := h.update
  have hs2 : Sound M R s2 := hs1.setSysChans.ite hs1
  split
  · extract_lets s1'
    have hs1' : Sound M R s1' := h.modContext
    exact hs1'.setSysChans.ite hs1'
  · exact hs2.foldl (fun _ _ hu => hu.resumeEntry)

theorem readDesc {s : State} {core ctx : Nat} {a : Int} (h : Sound M R s) : Sound M R (Machine.readDesc s core ctx a).1 := by
  unfold Machine.readDesc
  extract_lets r
  have hr : Sound M R r.1 := h.checkAddr
  split
  · exact h
  · split
    · extract_lets s1
      have hs1 : Sound M R s1 := hr.readBefore
      split
      · exact hs1
      · exact hs1
    · exact hr

theorem returnPages {s : State} {ctx : Nat} {half first count : Int} (h : Sound M R s) : Sound M R (Machine.returnPages s ctx half first count) := by
  unfold Machine.returnPages
  extract_lets hs
  exact h.foldl (fun _ _ hu => hu.bringHome)

theorem invalidate {s : State} {ctx : Nat} {half first count : Int} (h : Sound M R s) : Sound M R (Machine.invalidate s ctx half first count) := by
  unfold Machine.invalidate
  extract_lets s1
  have hs1 : Sound M R s1 := h.returnPages.dropTlb
  refine hs1.ofWarps rfl rfl rfl (hs1.mapWarps (fun _ hw => ?_))
  split
  · exact hw
  · exact hw

theorem unbindContext {s : State} {c : Context} (h : Sound M R s) : Sound M R (Machine.unbindContext s c) := by
  unfold Machine.unbindContext
  extract_lets x s1 s2
  have hs1 : Sound M R s1 := h.update
  have hs2 : Sound M R s2 := hs1.dropWarps
  exact hs2.modPaddock

theorem commandFields {s : State} {core ctx pad : Nat} {r : List Int} (h : Sound M R s) : Sound M R (Machine.commandFields s core ctx pad r).1 := by
  unfold Machine.commandFields
  extract_lets k first q q' ok2
  have hq : Sound M R q.1 := h.checkAddr
  have hq' : Sound M R q'.1 := h.readDesc
  split
  · exact h
  · split
    · exact h
    · split
      · exact hq
      · split
        · exact h
        · split
          · split
            · exact h
            · exact hq'
          · split
            · exact h
            · split
              · exact h
              · exact h

theorem discardRound {s : State} {core ctx : Nat} {a tag : Int} (h : Sound M R s) : Sound M R (Machine.discardRound s core ctx a tag) := by
  unfold Machine.discardRound
  extract_lets x
  split
  · exact h.update
  · exact h

theorem releasePins {s : State} {ctx : Nat} {key : Int} (h : Sound M R s) : Sound M R (Machine.releasePins s ctx key) := by
  unfold Machine.releasePins
  exact h.update

theorem resetChan {s : State} {x : Launch} {k : Nat} (h : Sound M R s) : Sound M R (Machine.resetChan s x k) := by
  unfold Machine.resetChan
  split
  · exact h
  · exact h.modChan

theorem performCommand {s : State} {core ctx pad : Nat} {r : List Int} (h : Sound M R s) :
    SoundCmd M R (Machine.performCommand s core ctx pad r) := by
  unfold Machine.performCommand
  extract_lets k q
  have hq : Sound M R q.1 := h.readDesc
  split
  · split
    · exact trivial
    · extract_lets ws
      split
      · exact h.invalidate
      · exact h.dropTlb
  · split
    · exact h.releasePins
    · split
      · exact h.discardRound
      · split
        · split
          · exact h.resetChan
          · exact trivial
        · split
          · split
            · exact hq.bindContext
            · exact trivial
          · split
            · exact h.modPaddock
            · split
              · exact trivial
              · split
                · exact h
                · exact h.unbindContext

theorem command {s : State} {core ctx pad : Nat} {sup : Bool} {r : List Int} (h : Sound M R s) :
    SoundCmd M R (Machine.command s core ctx pad sup r) := by
  unfold Machine.command
  extract_lets f
  have hf : Sound M R f.1 := h.commandFields
  split
  · exact trivial
  · split
    · exact trivial
    · exact hf.performCommand

theorem readRecord {s : State} {c : Cur} {w : Warp} {a : Int} (h : Sound M R s) : SoundRead M R (Machine.readRecord s c w a) := by
  unfold Machine.readRecord
  extract_lets q
  have hq : Sound M R q.1 := h.checkAddr
  split
  · exact h
  · split
    · exact hq
    · exact hq
    · extract_lets p s1
      have hs1 : Sound M R s1 := hq.readBefore
      split
      · exact hq
      · split
        · exact hs1
        · exact hs1
        · exact hs1

theorem launchWord {s : State} {c : Cur} {w : Warp} {r descs : List Int} {gd : Nat} (h : Sound M R s) :
    SoundEff M R (Machine.launchWord s c w r descs gd) := by
  unfold Machine.launchWord
  extract_lets s1
  have hs1 : Sound M R s1 := h.commitWarp
  split
  · exact hs1.acceptLaunch.plain
  · exact hs1.pendOn.plain

theorem commandWord {s : State} {c : Cur} {w : Warp} {r : List Int} {gd : Nat} (h : Sound M R s) : SoundEff M R (Machine.commandWord s c w r gd) := by
  unfold Machine.commandWord
  split
  · exact h.illegalTrap
  · exact h.privTrap
  · rename_i heq
    have hs := h.command.done heq
    exact plain (hs.commitWarp.modWarp (fun _ hw => Warp.regsOk_setG hw _ _))
  · rename_i heq
    have hs := h.command.wait heq
    exact hs.pendOn.plain

theorem execLnch {o : LnchA} {s : State} (h : Sound M R s) : SoundOut M R (Machine.execLnch o s) := by
  unfold Machine.execLnch
  refine h.runWord (fun hu => ?_)
  split
  · exact hu.plain
  · refine hu.releaseFirst (fun hu1 => ?_)
    split
    · rename_i heq
      have hs := hu1.readRecord.trap heq
      exact hs
    · rename_i heq
      have hs := hu1.readRecord.busy heq
      exact hs.modWarp (fun _ hw => Warp.regsOk_stays hw)
    · rename_i heq
      have hs := hu1.readRecord.words heq
      extract_lets q
      have hq : Sound M R q.1 := hs.checkLaunch
      split
      · exact hs.commandWord
      · split
        · exact hq.launchWord
        · exact hq.cwSet

theorem stepLnch {s : State} {w : Warp} {n : Nat} {words : List Int} {gd : Nat} (h : Sound M R s) : Sound M R (Machine.stepLnch s w n words gd) := by
  unfold Machine.stepLnch
  exact h.acceptLaunch.endPend.ite h

theorem stepCmd {s : State} {w : Warp} {n : Nat} {r : List Int} {gd : Nat} {ws : List Nat} (h : Sound M R s) :
    Sound M R (Machine.stepCmd s w n r gd ws) := by
  unfold Machine.stepCmd
  extract_lets done
  have hdone : ∀ {u : State}, Sound M R u → Sound M R (done u) := by
    intro _ hu
    unfold done
    exact endPend (hu.commitWarp.modWarp (fun _ hw => Warp.regsOk_setG hw _ _))
  split
  · split
    · exact h
    · split
      · exact hdone h.invalidate
      · exact hdone h
  · split
    · exact hdone h
    · exact h.ite (unbindContext (hdone h))

theorem execRole {o : RoleA} {s : State} (h : Sound M R s) : SoundOut M R (Machine.execRole o s) := by
  unfold Machine.execRole
  refine h.runWord (fun hu => ?_)
  extract_lets allot entry top room
  split
  · exact hu.plain
  · split
    · exact hu.illegalTrap
    · split
      · exact hu.privTrap
      · split
        · exact hu.wholeTrap
        · split
          · exact hu.modWarp (fun _ hw => Warp.regsOk_applyRole hw)
          · exact hu.pendOn.plain

theorem prehRecord {s : State} {c : Cur} {w : Warp} {a : Int} (h : Sound M R s) : Sound M R (Machine.prehRecord s c w a).1 := by
  unfold Machine.prehRecord
  extract_lets q
  have hq : Sound M R q.1 := h.readDesc
  split
  · exact h
  · split
    · split
      · exact hq
      · exact hq.note.pair
    · exact hq.note.pair

theorem execPreh {o : PrehA} {s : State} (h : Sound M R s) : SoundOut M R (Machine.execPreh o s) := by
  unfold Machine.execPreh
  refine h.runWord (fun hu => ?_)
  extract_lets q
  have hq : Sound M R q.1 := hu.prehRecord
  split
  · exact hu.plain
  · exact hq.pendOn.plain

theorem execTrap {o : ImmA} {s : State} (h : Sound M R s) : SoundOut M R (Machine.execTrap o s) := by
  unfold Machine.execTrap
  extract_lets s1
  have hs1 : Sound M R s1 := h.runWord (fun hu => hu.plain)
  show Sound M R _
  split
  · exact h
  · split
    · exact h
    · extract_lets al
      exact hs1.ite hs1.raiseDone

theorem execRft {a0 : Hd} {s : State} (h : Sound M R s) : SoundOut M R (Machine.execRft a0 s) := by
  unfold Machine.execRft
  refine h.runWord (fun hu => ?_)
  split
  · exact hu.illegalTrap
  · split
    · exact hu.plain
    · exact hu.modWarp (fun _ hw => Warp.regsOk_leave hw)

theorem execBrk {o : ImmA} {s : State} (h : Sound M R s) : SoundOut M R (Machine.execBrk o s) := by
  unfold Machine.execBrk
  refine h.runWord (fun hu => ?_)
  split
  · exact hu.plain
  · exact plain (note (hu.modWarp (fun _ hw => Warp.regsOk_lanes hw _ (fun _ _ hx => hx))))

theorem haltedWord {i : Instr} {s : State} {gd b : Nat} {r : Warp → DbgOp} (h : Sound M R s) : Sound M R (Machine.haltedWord i s gd b r) := by
  unfold Machine.haltedWord
  refine h.runWord (fun hu => ?_)
  split
  · exact hu.plain
  · split
    · exact hu.privTrap
    · exact hu.pendOn.dbgRun.plain

end Sound
end Sys2Proof.Machine
end

section
/-! ## The invariant layer: synchronisation, releases, lives, failures, power, commands, the host, the mesh -/

namespace Sys2Proof.Machine

open Sys2Proof Tern

namespace Sound

variable {M R : Prop}

/-! ### Eligible -/

theorem fetchBlock {s : State} {w : Warp} {ls : List Nat} {pc : Int} (h : Sound M R s) : SoundFetch M R (Machine.fetchBlock s w ls pc) := by
  unfold Machine.fetchBlock
  extract_lets b a0 p1 as r locs note words lines hosts s1
  have hr : Sound M R r.1 := h.checkAddrs
  have hnote : ∀ {u}, Sound M R u → Sound M R (note u) := fun hu => hu.modWarp fun _ hw => hw
  have hs1 : Sound M R s1 := (hr.foldl fun _ _ hu => hu.readHome).foldl fun _ _ hu => hu.hostActs
  clear_value s1 hosts lines words
  split
  · split
    · exact hr
    · exact hr
  · split
    · exact hr
    · exact hr
  · split
    · exact hnote hr
    · split
      · exact Sound.seekHeld hr
      · split
        · exact hr.foldl fun _ _ hu => hu.sendRecalls
        · split
          · exact hs1
          · exact hnote hs1.modCore

theorem fetchFor {s : State} {w : Warp} (h : Sound M R s) : Sound M R (Machine.fetchFor s w) := by
  unfold Machine.fetchFor
  split
  · rename_i heq
    have hs := h.fetchBlock.ok heq
    exact hs
  · rename_i heq
    have hs := h.fetchBlock.trap heq
    exact hs.enterTrap
  · rename_i heq
    have hs := h.fetchBlock.park heq
    exact requestPage (hs.modWarp (fun _ hw => hw))
  · rename_i heq
    have hs := h.fetchBlock.wait heq
    exact hs

theorem execInstructionFetch {wid : Nat} {s : State} (h : Sound M R s) : SoundOut M R (Machine.execInstructionFetch wid s) := by
  unfold Machine.execInstructionFetch
  show Sound M R _
  split
  · exact h
  · exact h.fetchFor.ite h

theorem takePipes {s : State} {w : Warp} {i : Instr} {ls : List Nat} (h : Sound M R s) : Sound M R (Machine.takePipes s w i ls) := by
  unfold Machine.takePipes
  extract_lets now
  split
  · extract_lets t put
    have hput : ∀ {u : Int × Int}, Sound M R (put u) := by
      intro _
      unfold put
      exact h.modCore
    split
    · exact h
    · exact hput.ite hput
    · exact hput
  · exact h

theorem chooseBay {s : State} {key : Nat} (h : Sound M R s) : Sound M R (Machine.chooseBay s key) := by
  unfold Machine.chooseBay
  extract_lets ws cs order pass ends
  have hpass : ∀ {x0 : Warp}, x0.regsOk = true → (pass x0).regsOk = true := by
    intro _ hw
    unfold pass
    split
    · exact hw
    · exact hw
  exact h.ofWarps rfl rfl rfl (h.mapWarps (fun _ hw => hpass hw))

theorem closeCycle {s : State} (h : Sound M R s) : Sound M R (Machine.closeCycle s) := by
  unfold Machine.closeCycle
  extract_lets key
  exact h.update

/-! ### Sync -/

theorem endBarPhase {s : State} {g : Gang} {q : Nat} {ph : Int} (h : Sound M R s) : Sound M R (Machine.endBarPhase s g q ph) := by
  unfold Machine.endBarPhase
  extract_lets go
  refine h.mapWarps (fun _ hw => ?_)
  split
  · exact Warp.regsOk_lanes hw _ (fun _ _ hx => hx)
  · exact hw

theorem barWord {i : Instr} {o : BarA} {drop wait : Bool} {s : State} (h : Sound M R s) : Sound M R (Machine.barWord i o drop wait s) := by
  unfold Machine.barWord
  refine h.runWord (fun hu => ?_)
  extract_lets q
  split
  · exact hu.plain
  · extract_lets ph
    split
    · exact hu.plain
    · split
      · exact hu
      · refine hu.releaseGang (fun hu1 => ?_)
        extract_lets s1 s2
        have hs1 : Sound M R s1 := hu1.met.modGang (fun _ hg => swf_modBar hg)
        have hs2 : Sound M R s2 := ite (hs1.modWarp (fun _ hw => Warp.regsOk_waitOn hw)) hs1
        exact plain (hs2.ite hs2.endBarPhase)

theorem execBarW {o : BarWA} {s : State} (h : Sound M R s) : SoundOut M R (Machine.execBarW o s) := by
  unfold Machine.execBarW
  refine h.runWord (fun hu => ?_)
  split
  · exact hu.plain
  · split
    · exact hu.plain
    · split
      · exact hu
      · exact plain (hu.modWarp (fun _ hw => Warp.regsOk_waitOn hw))

theorem snArrive {i : Instr} {s : State} {k : Int} {a : Warp → Arrival} (h : Sound M R s) : Sound M R (Machine.snArrive i s k a) := by
  unfold Machine.snArrive
  refine h.runWord (fun hu => ?_)
  split
  · exact hu.plain
  · split
    · exact hu
    · split
      · exact hu
      · exact hu.commitWarp.met.modChan.plain

theorem execSnw {o : SnGetA} {s : State} (h : Sound M R s) : SoundOut M R (Machine.execSnw o s) := by
  unfold Machine.execSnw
  refine h.runWord (fun hu => ?_)
  split
  · exact hu.plain
  · split
    · exact hu
    · split
      · exact plain (hu.modWarp (fun _ hw => Warp.regsOk_setG hw _ _))
      · exact plain (hu.modWarp (fun _ hw => Warp.regsOk_waitOn hw))
      · exact plain (hu.modWarp (fun _ hw => Warp.regsOk_waitOn hw))

theorem execSnp {o : SnGetA} {s : State} (h : Sound M R s) : SoundOut M R (Machine.execSnp o s) := by
  unfold Machine.execSnp
  refine h.runWord (fun hu => ?_)
  split
  · exact hu.plain
  · split
    · exact hu
    · extract_lets st
      exact plain (hu.modWarp (fun _ hw => Warp.regsOk_setG hw _ _))

theorem tbFind {s : State} {w : Warp} {a : Nat} {e : Int} {al : List Nat} (h : Sound M R s) : Sound M R (Machine.tbFind s w a e al).1 := by
  unfold Machine.tbFind
  extract_lets b b' r
  have hr : Sound M R r.1 := h.checkAddr
  split
  · split
    · exact h
    · split
      · exact h
      · split
        · exact h
        · split
          · exact h
          · exact h.scrub.pair
  · split
    · exact h
    · split
      · exact hr
      · exact hr
      · extract_lets s1
        have hs1 : Sound M R s1 := hr.recallNow
        split
        · exact hs1
        · exact hs1.takeNow.pair
      · exact hr

theorem tbDirty {s : State} {w : Warp} {l : TbLoc} {a : Nat} {e : Int} (h : Sound M R s) : Sound M R (Machine.tbDirty s w l a e) := by
  unfold Machine.tbDirty
  split
  · exact h
  · exact h.setDirty

theorem tbWord1 {i : Instr} {s : State} {a b : Nat} {e : Int} {ok : Int → Bool} {f : State → Cur → Warp → List Nat → TbLoc → Int → Eff} (h : Sound M R s) (hf : ∀ {u x1 x2 x3 x4 x5}, Sound M R u → SoundEff M R (f u x1 x2 x3 x4 x5)) :
    Sound M R (Machine.tbWord1 i s a b e ok f) := by
  unfold Machine.tbWord1
  refine h.runWord (fun hu => ?_)
  extract_lets r
  have hr : Sound M R r.1 := hu.tbFind
  split
  · exact hu.plain
  · split
    · exact hr
    · split
      · exact hr.illegalTrap
      · exact hf hr

theorem execTbinit {o : TbA} {s : State} (h : Sound M R s) : SoundOut M R (Machine.execTbinit o s) := by
  unfold Machine.execTbinit
  exact h.tbWord1 (fun hu => hu.tbDirty.tbInit.plain)

theorem execTbexp {o : TbA} {s : State} (h : Sound M R s) : SoundOut M R (Machine.execTbexp o s) := by
  unfold Machine.execTbexp
  exact h.tbWord1 (fun hu => hu.tbDirty.tbPost.plain)

theorem releaseAt {s : State} {c : Cur} {w : Warp} {l : TbLoc} {go : State → Eff} (h : Sound M R s) (hgo : ∀ {u}, Sound M R u → SoundEff M R (go u)) :
    SoundEff M R (Machine.releaseAt s c w l go) := by
  unfold Machine.releaseAt
  split
  · exact h.releaseGang (fun hu => hgo hu)
  · exact h.releaseFirst (fun hu => hgo hu)

theorem execTbarr {o : TbA} {s : State} (h : Sound M R s) : SoundOut M R (Machine.execTbarr o s) := by
  unfold Machine.execTbarr
  refine h.tbWord1 (fun hu => ?_)
  split
  · exact hu
  · refine hu.releaseAt (fun hu1 => ?_)
    split
    · rename_i heq
      have hs := hu1.tbDirty.tbPost.tbArrive.some heq
      exact hs.met.plain
    · exact hu1

theorem execTbwait {o : TbA} {s : State} (h : Sound M R s) : SoundOut M R (Machine.execTbwait o s) := by
  unfold Machine.execTbwait
  exact h.tbWord1 (fun hu => plain (ite (hu.modWarp (fun _ hw => Warp.regsOk_waitOn hw)) hu.acquireGang))

theorem execTbtest {o : TbtestA} {s : State} (h : Sound M R s) : SoundOut M R (Machine.execTbtest o s) := by
  unfold Machine.execTbtest
  refine h.tbWord1 (fun hu => ?_)
  extract_lets ph
  exact plain (modWarp (hu.ite hu.acquireGang) (fun _ hw => Warp.regsOk_setG hw _ _))

theorem execSleept {o : SleepA} {s : State} (h : Sound M R s) : SoundOut M R (Machine.execSleept o s) := by
  unfold Machine.execSleept
  refine h.runWord (fun hu => plain (hu.modWarp (fun _ hw => Warp.regsOk_foldl hw (fun _ _ hw1 => ?_))))
  split
  · exact hw1
  · exact Warp.regsOk_waitOn hw1

theorem execTouch {o : Near} {s : State} (h : Sound M R s) : SoundOut M R (Machine.execTouch o s) := by
  unfold Machine.execTouch
  refine h.runWord (fun hu => ?_)
  extract_lets us
  split
  · exact hu.plain
  · split
    · exact hu
    · split
      · rename_i heq
        have hs := hu.touching.trap heq
        exact hs
      · exact trivial
      · rename_i heq
        have hs := hu.touching.sleep heq
        exact hs.modWarp (fun _ hw => Warp.regsOk_waitOn hw)
      · exact hu.plain

/-! ### EvRelease -/

theorem execNamedBarrierRelease {gid i : Nat} {s : State} (h : Sound M R s) : SoundOut M R (Machine.execNamedBarrierRelease gid i s) := by
  unfold Machine.execNamedBarrierRelease
  extract_lets hit s1
  have hs1 : Sound M R s1 := h.foldl (fun _ _ hu => hu.acquireGang)
  refine hs1.mapWarps (fun _ hw => ?_)
  split
  · exact Warp.regsOk_wake hw
  · exact hw

theorem barcWarp {s : State} {g : Gang} {w : Warp} (h : Sound M R s) : Sound M R (Machine.barcWarp s g w) := by
  unfold Machine.barcWarp
  extract_lets ls s1
  have hs1 : Sound M R s1 := h.modWarp (fun _ hw => Warp.regsOk_reissue hw)
  exact h.ite hs1.enterTrap

theorem execBarcDetection {gid : Nat} {s : State} (h : Sound M R s) : SoundOut M R (Machine.execBarcDetection gid s) := by
  unfold Machine.execBarcDetection
  show Sound M R _
  split
  · exact h
  · exact h.ite (h.foldl (fun _ _ hu => hu.barcWarp))

theorem execYieldRelease {wid : Nat} {s : State} (h : Sound M R s) : SoundOut M R (Machine.execYieldRelease wid s) := by
  unfold Machine.execYieldRelease
  show Sound M R _
  split
  · exact h
  · extract_lets idle
    split
    · exact h
    · refine h.modWarp (fun _ hw => Warp.regsOk_lanes hw _ (fun _ _ hx => ?_))
      split
      · split
        · exact hx
        · exact hx
      · exact hx

theorem joinEnd {s : State} {wid : Nat} {ls : List Nat} {v : Int} (h : Sound M R s) : Sound M R (Machine.joinEnd s wid ls v) := by
  unfold Machine.joinEnd
  extract_lets s1 c
  have hs1 : Sound M R s1 := by
    refine h.modWarp (fun _ hw => Warp.regsOk_foldl hw (fun _ _ hw1 => ?_))
    split
    · exact Warp.regsOk_modLane (Warp.regsOk_setDst hw1 _ _ _ _) (fun _ hx => Lane.lateLatch_ok hx _ _)
    · exact hw1
  split
  · exact h
  · extract_lets p
    have hp : Sound M R p.1 := hs1.watchResults
    exact hs1.ite hp.watchAct

theorem joinRelease {s : State} {wid : Nat} (h : Sound M R s) : Sound M R (Machine.joinRelease s wid) := by
  unfold Machine.joinRelease
  split
  · exact h
  · split
    · exact h.joinEnd
    · exact h

theorem execWaitjBoundExpiry {wid : Nat} {s : State} (h : Sound M R s) : SoundOut M R (Machine.execWaitjBoundExpiry wid s) := by
  unfold Machine.execWaitjBoundExpiry
  extract_lets s1
  have hs1 : Sound M R s1 := h.joinRelease
  show Sound M R _
  split
  · exact h
  · split
    · exact h
    · split
      · exact hs1
      · extract_lets ls
        exact hs1.ite hs1.joinEnd

theorem execSleepWake {wid : Nat} {s : State} (h : Sound M R s) : SoundOut M R (Machine.execSleepWake wid s) := by
  unfold Machine.execSleepWake
  show Sound M R _
  split
  · exact h
  · exact h.ite (h.modWarp (fun _ hw => Warp.regsOk_wake hw))

theorem execPromiseReissue {wid : Nat} {s : State} (h : Sound M R s) : SoundOut M R (Machine.execPromiseReissue wid s) := by
  unfold Machine.execPromiseReissue
  show Sound M R _
  split
  · exact h
  · split
    · exact h
    · extract_lets x
      have hx : Sound M R x := h.modWarp (fun _ hw => Warp.regsOk_untouch hw)
      split
      · exact h
      · split
        · split
          · exact h.ite hx.update
          · exact hx
        · split
          · rename_i heq
            have hs := h.fetchBlock.ok heq
            exact hs
          · rename_i heq
            have hs := h.fetchBlock.wait heq
            exact hs
          · rename_i heq
            have hs := h.fetchBlock.trap heq
            exact enterTrap (hs.modWarp (fun _ hw => Warp.regsOk_untouch hw))
          · rename_i heq
            have hs := h.fetchBlock.park heq
            exact requestPage (hs.modWarp (fun _ hw => Warp.regsOk_untouch hw))

/-! ### EvLife -/

theorem execRoleGrant {wid : Nat} {s : State} (h : Sound M R s) : SoundOut M R (Machine.execRoleGrant wid s) := by
  unfold Machine.execRoleGrant
  show Sound M R _
  split
  · exact h
  · split
    · exact h
    · split
      · exact ite (endPend (h.modWarp (fun _ hw => Warp.regsOk_applyRole hw))) h
      · exact h

theorem passTaskfs {s : State} {w : Warp} (h : Sound M R s) : Sound M R (Machine.passTaskfs s w) := by
  unfold Machine.passTaskfs
  split
  · exact h
  · split
    · exact h.modWarp (fun _ hw => hw)
    · exact h.cwGang
  · exact h

theorem execWarpRetire {wid : Nat} {s : State} (h : Sound M R s) : SoundOut M R (Machine.execWarpRetire wid s) := by
  unfold Machine.execWarpRetire
  show Sound M R _
  split
  · exact h
  · exact h.ite h.dropWarps.passTaskfs

theorem endWindows {s : State} {gid n : Nat} (h : Sound M R s) : Sound M R (Machine.endWindows s gid n) := by
  unfold Machine.endWindows
  refine h.foldl (fun _ _ hu => ?_)
  split
  · exact hu
  · split
    · exact hu
    · exact hu.beginRelease.ite (hu.ite hu.finishRelease)

theorem endStreams {s : State} {gid : Nat} (h : Sound M R s) : Sound M R (Machine.endStreams s gid) := by
  unfold Machine.endStreams
  extract_lets coming s1
  have hs1 : Sound M R s1 := h.foldl (fun _ _ hu => hu.cancelBinding)
  split
  · exact h
  · exact h.ite (hs1.foldl (fun _ _ hu => hu.dropTask))

theorem execGangEnd {gid : Nat} {s : State} (h : Sound M R s) : SoundOut M R (Machine.execGangEnd gid s) := by
  unfold Machine.execGangEnd
  show Sound M R _
  split
  · exact h
  · extract_lets queued ts s1 s2
    have hs1 : Sound M R s1 := ite (cwGang (h.foldl (fun _ _ hu => hu.dropTask))) h
    have hs2 : Sound M R s2 := hs1.endStreams.endWindows
    split
    · exact h
    · split
      · exact h.ite h.finishGang
      · split
        · exact hs2
        · exact hs2.ite hs2.finishGang

theorem completionArrive {s : State} {x : Launch} (h : Sound M R s) : Sound M R (Machine.completionArrive s x) := by
  unfold Machine.completionArrive
  extract_lets a r
  have hr : Sound M R r.1 := h.coldWalk
  split
  · exact h
  · split
    · exact hr
    · split
      · extract_lets s0 s1
        have hs0 : Sound M R s0 := hr.recallNow
        have hs1 : Sound M R s1 := hs0.setPteBit.takeNow
        split
        · exact hs0
        · split
          · rename_i heq
            have hs := hs1.tbArrive.some heq
            exact hs
          · exact hs1
      · exact hr

theorem execLaunchEnd {lid : Nat} {s : State} (h : Sound M R s) : SoundOut M R (Machine.execLaunchEnd lid s) := by
  unfold Machine.execLaunchEnd
  show Sound M R _
  split
  · exact h
  · extract_lets s1 s2
    have hs1 : Sound M R s1 := h.cwUpdate.completionArrive
    have hs2 : Sound M R s2 := hs1.update
    exact h.ite hs2.clearWatch

theorem placeGang {s : State} {w : Waiting} {cores : List Nat} {pl : Placing} (h : Sound M R s) : Sound M R (Machine.placeGang s w cores pl) := by
  unfold Machine.placeGang
  extract_lets x s0 s1 s2 s3 gid s4
  have hs0 : Sound M R s0 := h.update
  have hs1 : Sound M R s1 := hs0.ite hs0.grantChans
  have hs2 : Sound M R s2 := hs1.modLaunch
  have hs3 : Sound M R s3 := hs2.modPaddock
  have hs4 : Sound M R s4 := hs3.startGang.clearRows
  split
  · exact hs4.putWords.modWarp (fun _ hw => hw)
  · exact hs4

theorem execGangPlacement {pad : Nat} {pl : Placing} {s : State} (h : Sound M R s) : SoundOut M R (Machine.execGangPlacement pad pl s) := by
  unfold Machine.execGangPlacement
  show Sound M R _
  split
  · exact h
  · split
    · exact h.movePair
    · split
      · exact h.placeGang.ite h
      · exact h

theorem noteHeads {s : State} (h : Sound M R s) : Sound M R (Machine.noteHeads s) := by
  unfold Machine.noteHeads
  refine h.foldl (fun _ _ hu => ?_)
  split
  · extract_lets wait f
    exact hu.ite hu.update
  · exact hu

theorem balancePads {s : State} (h : Sound M R s) : Sound M R (Machine.balancePads s) := by
  unfold Machine.balancePads
  refine h.foldl (fun _ _ hu => ?_)
  extract_lets d
  split
  · split
    · exact hu.movePair
    · exact hu
  · exact hu

theorem execGangStart {gid : Nat} {s : State} (h : Sound M R s) : SoundOut M R (Machine.execGangStart gid s) := by
  unfold Machine.execGangStart
  show Sound M R _
  split
  · exact ite (h.modGang (fun _ hg => hg)) h
  · exact h

theorem execHeadGangStarvation {pad : Nat} {s : State} (h : Sound M R s) : SoundOut M R (Machine.execHeadGangStarvation pad s) := by
  unfold Machine.execHeadGangStarvation
  show Sound M R _
  split
  · exact h
  · split
    · exact h.note.modPaddock
    · exact h

theorem execDeadlineMiss {lid : Nat} {s : State} (h : Sound M R s) : SoundOut M R (Machine.execDeadlineMiss lid s) := by
  unfold Machine.execDeadlineMiss
  extract_lets mine
  show Sound M R _
  split
  · exact h
  · extract_lets raise s1 s2
    have hs1 : Sound M R s1 := h.cwUpdate.note
    have hs2 : Sound M R s2 := hs1.modLaunch
    split
    · exact h
    · refine hs2.mapWarps (fun _ hw => ?_)
      split
      · exact hw
      · exact hw

theorem execTimeSliceEnd {pad : Nat} {s : State} (h : Sound M R s) : SoundOut M R (Machine.execTimeSliceEnd pad s) := by
  unfold Machine.execTimeSliceEnd
  show Sound M R _
  split
  · exact h
  · exact h.ite h.preemptContext

theorem trySwitch {s s1 : State} {pad : Nat} {c : Context} (h : Sound M R s) (h1 : Sound M R s1) : Sound M R (Machine.trySwitch s s1 pad c) := by
  unfold Machine.trySwitch
  extract_lets s2 open_
  have hs2 : Sound M R s2 := h1.switchIn
  exact hs2.ite h

theorem execContextSwitchIn {pad : Nat} {s : State} (h : Sound M R s) : SoundOut M R (Machine.execContextSwitchIn pad s) := by
  unfold Machine.execContextSwitchIn
  show Sound M R _
  split
  · exact h
  · split
    · exact h.trySwitch h
    · split
      · exact ite (h.trySwitch h) h
      · split
        · exact h
        · split
          · exact h.trySwitch h
          · split
            · exact h
            · split
              · exact h.trySwitch h
              · exact ite (h.trySwitch h) (ite (h.trySwitch h.saveWarp) h)

theorem execSequencerWake {ctx : Nat} {s : State} (h : Sound M R s) : SoundOut M R (Machine.execSequencerWake ctx s) := by
  unfold Machine.execSequencerWake
  show Sound M R _
  split
  · exact h
  · split
    · exact h.modContext.ite h
    · exact h

theorem execPreemptionRequest {pad : Nat} {s : State} (h : Sound M R s) : SoundOut M R (Machine.execPreemptionRequest pad s) := by
  unfold Machine.execPreemptionRequest
  extract_lets due s1 mark
  have hs1 : Sound M R s1 := h.update
  have hmark : ∀ {u : Preempt} {x1 : Warp}, x1.regsOk = true → (mark u x1).regsOk = true := by
    intro _ _ hw
    unfold mark
    split
    · exact hw
    · exact hw
  exact hs1.foldl (fun _ _ hu => hu.mapWarps (fun _ hw => hmark hw))

theorem execPreemptionDeadline {wid : Nat} {s : State} (h : Sound M R s) : SoundOut M R (Machine.execPreemptionDeadline wid s) := by
  unfold Machine.execPreemptionDeadline
  show Sound M R _
  split
  · exact h
  · split
    · exact h.saveWarp.saveGangs.ite h
    · exact h

theorem execGangRestore {gid : Nat} {pl : Placing} {s : State} (h : Sound M R s) : SoundOut M R (Machine.execGangRestore gid pl s) := by
  unfold Machine.execGangRestore
  extract_lets ws where_ s1
  have hwhere_ : ∀ {x0 : Warp}, x0.regsOk = true → (where_ x0).regsOk = true := by
    intro _ hw
    unfold where_
    split
    · exact hw
    · exact hw
  have hs1 : Sound M R s1 := h.ofWarps rfl rfl rfl (h.mapWarps (fun _ hw => hwhere_ hw))
  show Sound M R _
  split
  · exact h
  · split
    · exact h
    · split
      · exact h
      · extract_lets sc ph s2
        have hsc : Sound M R sc := hs1.setCarve
        have hs2 : Sound M R s2 := clearRows (hsc.modGang (fun _ hg => hg))
        exact hs2.foldl (fun _ _ hu => hu.ownTask)

theorem deliverWatch {s : State} {wid : Nat} {t : WatchTrap} (h : Sound M R s) : Sound M R (Machine.deliverWatch s wid t) := by
  unfold Machine.deliverWatch
  extract_lets s1
  have hs1 : Sound M R s1 := h.modWarp (fun _ hw => hw)
  exact hs1.enterTrap

theorem execWatchTrapDelivery {wid : Nat} {s : State} (h : Sound M R s) : SoundOut M R (Machine.execWatchTrapDelivery wid s) := by
  unfold Machine.execWatchTrapDelivery
  show Sound M R _
  split
  · exact h
  · split
    · exact h.deliverWatch.ite h
    · exact h

theorem execLaunchHaltSignal {lid : Nat} {s : State} (h : Sound M R s) : SoundOut M R (Machine.execLaunchHaltSignal lid s) := by
  unfold Machine.execLaunchHaltSignal
  show Sound M R _
  split
  · exact h
  · extract_lets d halt
    have hhalt : ∀ {x0 : Warp}, x0.regsOk = true → (halt x0).regsOk = true := by
      intro _ hw
      unfold halt
      split
      · exact Warp.regsOk_foldl hw (fun _ _ hw1 => Warp.regsOk_takeSignal hw1)
      · exact hw
    exact modLaunch (h.mapWarps (fun _ hw => hhalt hw))

theorem execHresLaunchSignal {lid : Nat} {s : State} (h : Sound M R s) : SoundOut M R (Machine.execHresLaunchSignal lid s) := by
  unfold Machine.execHresLaunchSignal
  show Sound M R _
  split
  · exact h
  · extract_lets d resume
    have hresume : ∀ {x0 : Warp}, x0.regsOk = true → (resume x0).regsOk = true := by
      intro _ hw
      unfold resume
      split
      · exact Warp.regsOk_unhalt hw
      · exact hw
    exact modLaunch (h.mapWarps (fun _ hw => hresume hw))

/-! ### EvFail -/

theorem endSteps {s : State} {core : Nat} (h : Sound M R s) : Sound M R (Machine.endSteps s core) := by
  unfold Machine.endSteps
  extract_lets on ends s1
  have hends : ∀ {u : State} {x1 : Option Nat} {x2 : List Pend}, Sound M R u → Sound M R (ends u x1 x2) := by
    intro _ _ _ hu
    unfold ends
    refine hu.foldl (fun _ _ hu1 => ?_)
    split
    · exact hu1.dbgEnd.ite hu1
    · exact hu1
  have hs1 : Sound M R s1 := h.foldl (fun _ _ hu => hends hu)
  exact hends hs1

theorem killOn {s : State} {core : Nat} (h : Sound M R s) : Sound M R (Machine.killOn s core) := by
  unfold Machine.killOn
  extract_lets gs
  refine h.foldl (fun _ _ hu => ?_)
  extract_lets s1
  have hs1 : Sound M R s1 := hu.killGang
  split
  · exact hs1.foldl (fun _ _ hu1 => hu1.breakChan)
  · exact hs1

theorem fenceCore {s : State} {core : Nat} (h : Sound M R s) : Sound M R (Machine.fenceCore s core) := by
  unfold Machine.fenceCore
  extract_lets s1 s2 s3 x
  have hs1 : Sound M R s1 := h.endSteps.killOn
  have hs2 : Sound M R s2 := hs1.modPkg
  have hs3 : Sound M R s3 := hs2.update
  exact h.ite hs3.modCore

theorem fenceDie {s : State} {die : Nat} (h : Sound M R s) : Sound M R (Machine.fenceDie s die) := by
  unfold Machine.fenceDie
  exact h.foldl (fun _ _ hu => hu.fenceCore)

theorem execCDieFailure {die : Nat} {s : State} (h : Sound M R s) : SoundOut M R (Machine.execCDieFailure die s) := by
  unfold Machine.execCDieFailure
  exact h.ite h.fenceDie

theorem execScratchpadBankFailure {core bank : Nat} {s : State} (h : Sound M R s) : SoundOut M R (Machine.execScratchpadBankFailure core bank s) := by
  unfold Machine.execScratchpadBankFailure
  extract_lets s1
  have hs1 : Sound M R s1 := h.markBank
  exact h.ite (hs1.fenceCore.ite hs1)

theorem execWatchRecordError {core unit : Nat} {s : State} (h : Sound M R s) : SoundOut M R (Machine.execWatchRecordError core unit s) := by
  unfold Machine.execWatchRecordError
  show Sound M R _
  split
  · exact h.modCore
  · exact h

theorem fenceLink {s : State} {l : LinkId} (h : Sound M R s) : Sound M R (Machine.fenceLink s l) := by
  unfold Machine.fenceLink
  extract_lets s1 a cs
  have hs1 : Sound M R s1 := h.modPkg
  exact ite (hs1.foldl (fun _ _ hu => hu.fenceDie.ite hu)) (hs1.foldl (fun _ _ hu => hu.fenceCore.ite hu))

theorem execPermitAudit {bad : List LinkId} {s : State} (h : Sound M R s) : SoundOut M R (Machine.execPermitAudit bad s) := by
  unfold Machine.execPermitAudit
  show Sound M R _
  split
  · exact h
  · refine h.foldl (fun _ _ hu => ?_)
    extract_lets s1
    have hs1 : Sound M R s1 := hu.fenceLink
    split
    · exact hs1.modWarp (fun _ hw => hw)
    · exact hs1

theorem execLinkError {link : LinkId} {s : State} (h : Sound M R s) : SoundOut M R (Machine.execLinkError link s) := by
  unfold Machine.execLinkError
  exact h.foldl (fun _ _ hu => hu.fenceLink)

theorem returnWindows {s : State} {homed : Int × Int → Bool} (h : Sound M R s) : Sound M R (Machine.returnWindows s homed) := by
  unfold Machine.returnWindows
  exact h.foldl (fun _ _ hu => hu.bringHome)

theorem loseReq {s : State} {r : Req} (h : Sound M R s) : Sound M R (Machine.loseReq s r) := by
  unfold Machine.loseReq
  split
  · exact h.capture.data
  · exact h.capture.data
  · exact h.modOp.data
  · exact h.modReq
  · exact h.modReq
  · exact h.modReq
  · exact h.delReq

theorem fenceSlice {s : State} {slice : Nat} {readable : List Nat} (h : Sound M R s) : Sound M R (Machine.fenceSlice s slice readable) := by
  unfold Machine.fenceSlice
  extract_lets me homed lost elems s1 accepted s2 x s3 x'
  have hs1 : Sound M R s1 := h.returnWindows
  have hs2 : Sound M R s2 := hs1.foldl (fun _ _ hu => hu.loseReq)
  have hs3 : Sound M R s3 := hs2.update
  have hx' : Sound M R x' := hs3.loseLines.poisonFrames.modPkg
  exact h.ite hx'.update

theorem moveWork {s : State} {moved : Int × Int → Bool} (h : Sound M R s) : Sound M R (Machine.moveWork s moved) := by
  unfold Machine.moveWork
  extract_lets mine s1 x
  have hs1 : Sound M R s1 := by
    refine h.foldl (fun _ _ hu => ?_)
    split
    · exact delReq (hu.dedupLine.ite hu)
    · exact hu
  exact hs1.update

theorem execPseudoChannelFence {slice pc : Nat} {lost : List Nat} {s : State} (h : Sound M R s) :
    SoundOut M R (Machine.execPseudoChannelFence slice pc lost s) := by
  unfold Machine.execPseudoChannelFence
  extract_lets mine s1
  have hs1 : Sound M R s1 := h.moveWork
  exact h.ite hs1.loseLines.modPkg

theorem failPeer {s : State} {pkg : Int} (h : Sound M R s) : Sound M R (Machine.failPeer s pkg) := by
  unfold Machine.failPeer
  exact h.ite h.modPkg

theorem laneDown {s : State} {lane : Nat} (h : Sound M R s) : Sound M R (Machine.laneDown s lane) := by
  unfold Machine.laneDown
  extract_lets s1
  have hs1 : Sound M R s1 := h.modPkg
  exact h.ite (hs1.ite (hs1.foldl (fun _ _ hu => hu.failPeer)))

theorem fenceLane {s : State} {lane : Nat} (h : Sound M R s) : Sound M R (Machine.fenceLane s lane) := by
  unfold Machine.fenceLane
  extract_lets s1
  have hs1 : Sound M R s1 := h.modPkg
  exact h.ite (hs1.foldl (fun _ _ hu => hu.endXReq))

theorem resumeDie {s : State} {die : Nat} (h : Sound M R s) : Sound M R (Machine.resumeDie s die) := by
  unfold Machine.resumeDie
  extract_lets mine
  exact h.foldl (fun _ _ hu => hu.killGang)

theorem execMDieFailure {die : Nat} {s : State} (h : Sound M R s) : SoundOut M R (Machine.execMDieFailure die s) := by
  unfold Machine.execMDieFailure
  show Sound M R _
  extract_lets s1 s2 s3 keep s4 m s5
  have hs2 : Sound M R s2 := (h.foldl fun _ _ hu => hu.fenceSlice).foldl fun _ _ hu => hu.fenceLane
  have hs4 : Sound M R s4 := hs2.dropWarps.foldl fun _ _ hu => hu.laneDown
  have hs5 : Sound M R s5 := resumeDie (hs4.merge hs2.dropWarps (fun hm => hm) id id)
  exact h.ite (h.modPkg.ite hs5.modPkg)

theorem execReferenceClockFault {s : State} (h : Sound M R s) : SoundOut M R (Machine.execReferenceClockFault s) := by
  unfold Machine.execReferenceClockFault
  extract_lets tell
  have htell : ∀ {u : State} {x1 : Context}, Sound M R u → Sound M R (tell u x1) := by
    intro _ _ hu
    unfold tell
    extract_lets s1
    have hs1 : Sound M R s1 := hu.note
    split
    · exact hs1.enterTrap
    · exact hs1
  exact modPkg (h.foldl (fun _ _ hu => htell hu))

/-! ### EvPower -/

theorem wiped {s : State} {m : Memory} {p : Package} (h : Sound M R s) (hm : s.mem.wf = true → m.wf = true) : Sound M R (Machine.wiped s m p) :=
  ⟨fun k => (State.memoriesOk_iff _).2 ⟨hm ((State.memoriesOk_iff s).1 (h.memories k)).1, fun g hg => by cases hg⟩, fun _ => rfl⟩

theorem execPowerOnReset {images : List BootImage} {s : State} (h : Sound M R s) : SoundOut M R (Machine.execPowerOnReset images s) := by
  unfold Machine.execPowerOnReset
  exact h.update.wiped (fun hm => Memory.wf_clearPkg hm _)

theorem execPowerLoss {s : State} (h : Sound M R s) : SoundOut M R (Machine.execPowerLoss s) := by
  unfold Machine.execPowerLoss
  exact h.wiped (fun hm => Memory.wf_clearPkg hm _)

theorem staleLine {s : State} {p : Int × Int} (h : Sound M R s) : Sound M R (Machine.staleLine s p) :=
  h.ofMem rfl rfl fun hm => Memory.wf_setTag (Memory.wf_setLine hm _ _ _) _ _ _

theorem poisonLines {s : State} {ls : List Nat} (h : Sound M R s) : Sound M R (Machine.poisonLines s ls) := by
  unfold Machine.poisonLines
  extract_lets ks
  exact h.modMem (fun _ hm => hm)

theorem execWarmReset {images : List BootImage} {badLines : List Nat} {s : State} (h : Sound M R s) :
    SoundOut M R (Machine.execWarmReset images badLines s) := by
  unfold Machine.execWarmReset
  extract_lets dirty s1 x p x' x'2 s2
  have hs1 : Sound M R s1 := poisonLines (h.foldl (fun _ _ hu => hu.staleLine))
  have hx' : Sound M R x' := hs1.wiped (fun hm => hm)
  have hs2 : Sound M R s2 := hx'.update
  exact hs2.foldl (fun _ _ hu => hu.ite hu.modPaddock)

theorem execPowerGrant {duties : List Nat} {s : State} (h : Sound M R s) : SoundOut M R (Machine.execPowerGrant duties s) := by
  unfold Machine.execPowerGrant
  exact h.ite (h.ite h.update.modPkg)

theorem execGrantApply {die : Nat} {s : State} (h : Sound M R s) : SoundOut M R (Machine.execGrantApply die s) := by
  unfold Machine.execGrantApply
  extract_lets due
  show Sound M R _
  split
  · exact h
  · exact h.modPkg

theorem endRemote {s : State} {r : Req} (h : Sound M R s) : Sound M R (Machine.endRemote s r) := by
  unfold Machine.endRemote
  extract_lets lost land
  have hlost : ∀ {u : State}, Sound M R u → Sound M R (lost u) := by
    intro _ hu
    unfold lost
    exact hu.note.delReq
  have hland : ∀ {u : State} {x1 x2 x3 : Nat}, Sound M R u → Sound M R (land u x1 x2 x3) := by
    intro _ _ _ _ hu
    unfold land
    exact delReq (hu.foldl (fun _ _ hu1 => hu1.landIn))
  split
  · exact hland h
  · exact hland h
  · exact h.loseReq
  · exact h.loseReq
  · exact h.loseReq
  · exact h.delReq
  · exact h.delReq
  · exact hlost h

theorem execRemoteRequestTimeout {id : Nat} {s : State} (h : Sound M R s) : SoundOut M R (Machine.execRemoteRequestTimeout id s) := by
  unfold Machine.execRemoteRequestTimeout
  show Sound M R _
  split
  · extract_lets on
    exact h.ite h.endRemote.failPeer
  · exact h

theorem execRoutesRecomputed {s : State} (h : Sound M R s) : SoundOut M R (Machine.execRoutesRecomputed s) := by
  unfold Machine.execRoutesRecomputed
  extract_lets go
  exact h.update.modPkg

theorem execDuplicatePackageNumber {s : State} (h : Sound M R s) : SoundOut M R (Machine.execDuplicatePackageNumber s) := by
  unfold Machine.execDuplicatePackageNumber
  exact h.ite h.modPkg

theorem execCompletionTimeout {wid : Nat} {s : State} (h : Sound M R s) : SoundOut M R (Machine.execCompletionTimeout wid s) := by
  unfold Machine.execCompletionTimeout
  show Sound M R _
  split
  · split
    · exact ite (note (h.modWarp (fun _ hw => hw))) h
    · exact h
  · exact h

/-! ### EvCommand -/

theorem commandEvent {s : State} {pad : Nat} {r : List Int} (h : Sound M R s) : Sound M R (Machine.commandEvent s pad r) := by
  unfold Machine.commandEvent
  split
  · exact h
  · split
    · rename_i heq
      have hs := h.command.done heq
      exact hs
    · exact h

theorem execRoundDiscard {ctx : Nat} {addr tag : Int} {s : State} (h : Sound M R s) : SoundOut M R (Machine.execRoundDiscard ctx addr tag s) := by
  unfold Machine.execRoundDiscard
  show Sound M R _
  split
  · rename_i heq
    have hs := h.command.done heq
    exact hs
  · exact h

theorem execAtsInvalidation {ctx : Nat} {half first count : Int} {s : State} (h : Sound M R s) :
    SoundOut M R (Machine.execAtsInvalidation ctx half first count s) := by
  unfold Machine.execAtsInvalidation
  extract_lets ws s1
  have hs1 : Sound M R s1 := h.invalidate.ite h.dropTlb
  exact hs1.update

/-! ### EvHost -/

theorem freeFrame {s : State} {frame : Int} (h : Sound M R s) : Sound M R (Machine.freeFrame s frame) := by
  unfold Machine.freeFrame
  extract_lets me ls s1 m keys m2 hd h'
  have hs1 : Sound M R s1 := h.foldl fun _ _ hu => hu.recallNow
  have hm : s1.mem.wf = true → m.wf = true := fun h1 =>
    List.foldlRecOn ls _ (motive := fun m : Memory => m.wf = true) h1 fun _ hx _ _ => Memory.wf_setTag (Memory.wf_setLine hx _ _ _) _ _ _
  have hs2 : Sound M R { s1 with mem := m2, home := h' } := hs1.ofMem rfl rfl fun h1 => hm h1
  exact dropFrame (hs2.foldl fun _ _ hu => hu.refreshFills)

theorem writeReport {s : State} {addr : Int} {bs : List (BitVec 8)} (h : Sound M R s) : Sound M R (Machine.writeReport s addr bs) := by
  unfold Machine.writeReport
  extract_lets me s1 s2
  have hs1 : Sound M R s1 := h.foldl fun _ _ hu => hu.takeNow
  have hs2 : Sound M R s2 := hs1.modMem fun _ hm => wf_setData hm (swf_ssets _ _)
  exact hs2.foldl fun _ _ hu => hu.refreshFills

theorem startZero {s : State} {entry desc : Int} {d : List Int} (h : Sound M R s) : Sound M R (Machine.startZero s entry desc d) := by
  unfold Machine.startZero
  extract_lets s1
  have hs1 : Sound M R s1 := h.bindContext
  split
  · exact hs1
  · extract_lets s2
    have hs2 : Sound M R s2 := modPkg hs1.switchIn
    split
    · refine hs2.modWarp fun w hw => ?_
      rw [Warp.regsOk_iff] at *
      exact ⟨hw.1, hw.2.1, fun x hx => List.eq_of_mem_replicate hx ▸ Lane.start_latchesOk _⟩
    · exact hs2

theorem setNumber {s : State} {n : Int} (h : Sound M R s) : Sound M R (Machine.setNumber s n) :=
  modPkg (h.ofMem (t := { s with mem := s.mem.renumber s.pkg.number n, home := s.home.renumber s.pkg.number n }) rfl rfl fun hm => Memory.wf_renumber hm _ _)

theorem mailboxOp {s : State} {w : List Int} (h : Sound M R s) : Sound M R (Machine.mailboxOp s w).1 := by
  unfold Machine.mailboxOp
  extract_lets op st r
  split
  · split
    · exact h
    · split
      · exact h
      · exact h.setNumber.pair
  · split
    · split
      · exact h
      · split
        · split
          · exact h.startZero.pair
          · exact h
        · exact h
    · split
      · split
        · exact h
        · split
          · exact h
          · exact h.modPkg.pair
      · split
        · split
          · exact h
          · split
            · exact h
            · exact h.freeFrame.pair
        · split
          · split
            · exact h
            · split
              · exact h
              · exact h.modPkg.pair
          · split
            · split
              · exact h
              · split
                · exact h
                · exact h.modPkg.writeReport.pair
            · exact h

theorem runMailbox {s : State} (h : Sound M R s) : Sound M R (Machine.runMailbox s) := by
  unfold Machine.runMailbox
  extract_lets r
  have hr : Sound M R r.1 := h.mailboxOp
  exact hr.modPkg

theorem mailboxEvent {s : State} {ws : List Int} (h : Sound M R s) : Sound M R (Machine.mailboxEvent s ws) := by
  unfold Machine.mailboxEvent
  exact h.ite h.modPkg.runMailbox

theorem execGetMeasurements {nonce : List Int} {s : State} (h : Sound M R s) : SoundOut M R (Machine.execGetMeasurements nonce s) := by
  unfold Machine.execGetMeasurements
  exact h.ite h.modPkg

theorem startWindow {s : State} (h : Sound M R s) : Sound M R (Machine.startWindow s) := by
  unfold Machine.startWindow
  extract_lets b n
  split
  · exact h.modPkg
  · extract_lets s1
    have hs1 : Sound M R s1 := h.bump.modPkg
    exact hs1.dbgRun

theorem windowEvent {s : State} {op m a0 a1 a2 b c i : Int} (h : Sound M R s) : Sound M R (Machine.windowEvent s op m a0 a1 a2 b c i) := by
  unfold Machine.windowEvent
  exact h.ite h.modPkg.startWindow

theorem execControlRegionWrite {line : CtlLine} {word : Nat} {value : Int} {s : State} (h : Sound M R s) :
    SoundOut M R (Machine.execControlRegionWrite line word value s) := by
  unfold Machine.execControlRegionWrite
  extract_lets s1
  have hs1 : Sound M R s1 := h.modPkg
  exact h.ite (ite (h.ite (hs1.runMailbox.ite hs1)) (ite (h.ite (ite (h.startWindow.ite h) h.modPkg)) h))

theorem hostPlace {s : State} {fn : HostFn} {nd : Need} {t : Int} (h : Sound M R s) : Sound M R (Machine.hostPlace s fn nd t).1 := by
  unfold Machine.hostPlace
  split
  · exact h
  · split
    · exact h
    · extract_lets a w
      have hw : Sound M R w.1 := h.coldWalk
      split
      · exact h
      · split
        · exact hw
        · extract_lets s1
          have hs1 : Sound M R s1 := hw.setPteBit
          split
          · exact (hs1.setPteBit.ite hs1).pair
          · exact hw

theorem hostAnswer {s : State} {ws : List Int} (h : Sound M R s) : Sound M R (Machine.hostAnswer s ws) := by
  unfold Machine.hostAnswer
  exact h.modPkg

theorem aerDiscard {s : State} (h : Sound M R s) : Sound M R (Machine.aerDiscard s) := by
  unfold Machine.aerDiscard
  exact h.note.modPkg

theorem hostReadLine {s : State} {fn : HostFn} {raw : Bool} {p : Nat × Nat × Nat} (h : Sound M R s) :
    Sound M R (Machine.hostReadLine s fn raw p).1 := by
  unfold Machine.hostReadLine
  extract_lets r
  have hr : Sound M R r.1 := h.hostPlace
  split
  · exact hr
  · extract_lets s1 q s1'
    have hs1 : Sound M R s1 := hr.hostActs
    have hs1' : Sound M R s1' := hr.recallNow
    split
    · exact hs1
    · split
      · exact hr
      · split
        · exact hs1'
        · exact hs1'

theorem hostReadAll {s : State} {fn : HostFn} {raw : Bool} {l : List (Nat × Nat × Nat)} (h : Sound M R s) :
    Sound M R (Machine.hostReadAll s fn raw l).1 := by
  induction l generalizing s with
  | nil => exact h
  | cons p l ih =>
    unfold Machine.hostReadAll
    extract_lets x y
    have hx : Sound M R x.1 := h.hostReadLine
    split
    · exact ih hx
    · exact hx

theorem hostRead {s : State} {fn : HostFn} {raw : Bool} {off len : Nat} (h : Sound M R s) : Sound M R (Machine.hostRead s fn raw off len) := by
  unfold Machine.hostRead
  extract_lets r
  have hr : Sound M R r.1 := h.hostReadAll
  split
  · exact h.hostAnswer
  · split
    · exact h
    · exact hr.hostAnswer
    · exact hr.hostAnswer

theorem logBytes {raw : Bool} {bs : List (BitVec 8)} {s : State} (h : Sound M R s) : Sound M R (Machine.logBytes raw bs s) := by
  unfold Machine.logBytes
  exact h.aerDiscard.ite h

theorem hostLeafWrite {s : State} {l : Loc} {raw : Bool} {o : Nat} {bs : List (BitVec 8)} (h : Sound M R s) :
    Sound M R (Machine.hostLeafWrite s l raw o bs) := by
  unfold Machine.hostLeafWrite
  split
  · exact h.modMem (fun _ hm => wf_foldl _ (fun _ _ hm1 => Memory.wf_writeLoc hm1 _ _ _) _ hm)
  · split
    · extract_lets e
      refine logBytes (h.modMem (fun _ hm => wf_foldl _ (fun _ _ hm1 => ?_) _ hm))
      split
      · exact hm1
      · exact Memory.wf_writeLoc hm1 _ _ _
    · exact h.aerDiscard

theorem hostWriteLine {s : State} {fn : HostFn} {raw : Bool} {p : Nat × Nat × Nat} {bs : List (BitVec 8)} (h : Sound M R s) :
    SoundOpt M R (Machine.hostWriteLine s fn raw p bs) := by
  unfold Machine.hostWriteLine
  extract_lets r bs'
  have hr : Sound M R r.1 := h.hostPlace
  split
  · exact hr.aerDiscard
  · split
    · exact hostLeafWrite hr.hostActs
    · split
      · trivial
      · extract_lets q s1 s2 s3
        have hs1 : Sound M R s1 := hr.recallNow
        have hs2 : Sound M R s2 := install (unshare hs1.roomNow)
        have hs3 : Sound M R s3 := hs2.modMem fun _ hm => by
          split
          · exact wf_setData hm (swf_ssets _ _)
          · exact wf_putImage hm _ _ _
        split
        · exact hr
        · split
          · exact hs1.aerDiscard
          · exact logBytes hs3.refreshFills

theorem hostWriteAll {s : State} {fn : HostFn} {raw : Bool} {l : List (Nat × Nat × Nat)} {bs : List (BitVec 8)} (h : Sound M R s) :
    SoundOpt M R (Machine.hostWriteAll s fn raw l bs) := by
  induction l generalizing s bs with
  | nil => exact h
  | cons p l ih =>
    unfold Machine.hostWriteAll
    split
    · rename_i he
      exact ih (h.hostWriteLine.some he)
    · trivial

theorem hostWriteWin {s : State} {fn : HostFn} {raw : Bool} {off : Nat} {bs : List (BitVec 8)} (h : Sound M R s) :
    Sound M R (Machine.hostWriteWin s fn raw off bs) := by
  unfold Machine.hostWriteWin
  split
  · exact h.aerDiscard
  · cases hw : Machine.hostWriteAll s fn raw (byLine (if raw then 81 else 150) off bs.length) bs with
    | none => exact h
    | some t => exact h.hostWriteAll.some hw

theorem hostAtomic {s : State} {fn : HostFn} {off : Nat} {xs : List Int} {arrive : Bool} {f : Int → Int} (h : Sound M R s) :
    Sound M R (Machine.hostAtomic s fn off xs arrive f) := by
  unfold Machine.hostAtomic
  extract_lets r
  have hr : Sound M R r.1 := h.hostPlace
  split
  · exact h.hostAnswer
  · split
    · exact hr.hostAnswer
    · extract_lets q s0 s1
      have hs0 : Sound M R s0 := hr.recallNow
      have hs1 : Sound M R s1 := hs0.takeNow
      split
      · exact h
      · split
        · split
          · exact hr.hostAnswer
          · split
            · extract_lets s1' old
              have hs1' : Sound M R s1' := hr.takeNow
              split
              · rename_i heq
                have hs := hs1'.tbArrive.some heq
                exact hs.hostAnswer
              · exact hs1'.note.modPkg.hostAnswer
            · exact h
        · split
          · exact hs1.updateNow.hostAnswer
          · exact hs0.hostAnswer
          · exact hs0.hostAnswer

theorem timeUpdate {s : State} {w : Nat} {anchor time rate : Int} {bit : Nat} (h : Sound M R s) :
    Sound M R (Machine.timeUpdate s w anchor time rate bit) := by
  unfold Machine.timeUpdate
  extract_lets me s1 rd put v st s2
  have hs2 : Sound M R s2 := modMem h.recallNow fun _ hm => List.foldlRecOn _ put (motive := fun m : Memory => m.wf = true) hm fun _ hx p _ => Memory.wf_write hx _ _ _ _
  exact h.ite hs2.refreshFills

/-! ### EvMesh -/

theorem execMulticastRequest {id : Nat} {s : State} (h : Sound M R s) : SoundOut M R (Machine.execMulticastRequest id s) := by
  unfold Machine.execMulticastRequest
  extract_lets x
  show Sound M R _
  split
  · split
    · extract_lets ms
      exact h.ite (h.hostBefore.startSectors.ite (h.update.modReq.ite (ite (h.install.startSectors.ite h.stall.readRecall) (h.update.modReq.ite h.retryQueue))))
    · exact h
  · exact h

theorem execMulticastInject {id : Nat} {s : State} (h : Sound M R s) : SoundOut M R (Machine.execMulticastInject id s) := by
  unfold Machine.execMulticastInject
  show Sound M R _
  split
  · exact h
  · extract_lets s1 s2 x s3 d
    have hs1 : Sound M R s1 := h.install
    have hs2 : Sound M R s2 := hs1.modHeld
    have hs3 : Sound M R s3 := hs2.update
    split
    · exact h
    · split
      · exact h.sendRecalls
      · split
        · rename_i heq
          have hs := h.makeRoom.some heq
          exact hs
        · exact hs3.reply

theorem execScFrontierReport {s : State} (h : Sound M R s) : SoundOut M R (Machine.execScFrontierReport s) := by
  unfold Machine.execScFrontierReport
  exact h.ite h.modPkg

theorem performScRead {s : State} {r : Req} (h : Sound M R s) : Sound M R (Machine.performScRead s r) := by
  unfold Machine.performScRead
  split
  · exact h.readRecall
  · split
    · exact h
    · split
      · rename_i heq
        have hs := h.makeRoom.some heq
        exact hs
      · exact h.install.serveRead

theorem performSc {s : State} {r : Req} (h : Sound M R s) : Sound M R (Machine.performSc s r) := by
  unfold Machine.performSc
  split
  · exact h
  · split
    · exact h.performScRead
    · exact h.performScRead
    · exact h.applyStore
    · exact h.applyAtom
    · exact h

theorem performQueue {s : State} {blocked : List Nat} {l : List Req} (h : Sound M R s) : Sound M R (Machine.performQueue s blocked l) := by
  induction l generalizing s blocked with
  | nil => exact h
  | cons r l ih =>
    unfold Machine.performQueue
    exact ite (ih h) (ih h.performSc)

theorem execFrontierRelease {s : State} (h : Sound M R s) : SoundOut M R (Machine.execFrontierRelease s) := by
  unfold Machine.execFrontierRelease
  extract_lets due s1 q
  have hs1 : Sound M R s1 := h.modPkg
  exact hs1.performQueue

theorem execTranslationWalk {core ctx : Nat} {page : Int} {s : State} (h : Sound M R s) :
    SoundOut M R (Machine.execTranslationWalk core ctx page s) := by
  unfold Machine.execTranslationWalk
  exact h.ite h.walk

theorem dropPage {s : State} {cores : List Nat} {ctx : Nat} {page : Int} (h : Sound M R s) : Sound M R (Machine.dropPage s cores ctx page) := by
  unfold Machine.dropPage
  exact h.foldl (fun _ _ hu => hu.modCore)

theorem execPageRequestResponse {i : Nat} {success : Bool} {s : State} (h : Sound M R s) :
    SoundOut M R (Machine.execPageRequestResponse i success s) := by
  unfold Machine.execPageRequestResponse
  extract_lets s0
  have hs0 : Sound M R s0 := h.update
  show Sound M R _
  split
  · exact h
  · extract_lets isIt free freed s1 s2
    have hs1 : Sound M R s1 := hs0.update.ite hs0
    have hs2 : Sound M R s2 := hs1.dropPage
    split
    · refine hs2.ofWarps rfl rfl rfl (hs2.mapWarps (fun _ hw => ?_))
      split
      · exact hw
      · exact hw
    · refine hs1.foldl (fun _ _ hu => ?_)
      extract_lets d ls pc
      exact enterTrap (hu.modWarp (fun _ hw => hw))

end Sound
end Sys2Proof.Machine
end

section
/-! ## The invariant layer: special registers, paired words, the dispatch, and a turn -/

namespace Sys2Proof.Machine

open Sys2Proof Tern

namespace Sound

variable {M R : Prop}

/-! ### Moves -/

theorem execMovg {o : MovgA} {s : State} (h : Sound M R s) : SoundOut M R (Machine.execMovg o s) := by
  unfold Machine.execMovg
  refine h.runWord (fun hu => ?_)
  split
  · exact hu.plain
  · extract_lets v
    exact hu.modWarp (fun _ hw => Warp.regsOk_setG hw _ _)

theorem execMovs {o : MovsA} {s : State} (h : Sound M R s) : SoundOut M R (Machine.execMovs o s) := by
  unfold Machine.execMovs
  refine h.runWord (fun hu => ?_)
  extract_lets res
  split
  · exact hu.plain
  · split
    · extract_lets s1 rs
      have hs1 : Sound M R s1 := ite (hu.modWarp (fun _ hw => hw)) hu
      split
      · exact hs1.modWarp (fun _ hw => Warp.regsOk_foldl hw (fun _ _ hw1 => Warp.regsOk_setDst hw1 _ _ _ _))
      · exact hs1.modWarp (fun _ hw => Warp.regsOk_setDst hw _ _ _ _)
    · split
      · exact hu.modWarp (fun _ hw => hw)
      · exact hu.modWarp (fun _ hw => Warp.regsOk_modLanes hw _ _ (fun _ _ hx => Lane.writeS_latchesOk hx))

/-! ### Paired -/

theorem execPairedWord {a b : Half} {s : State} (h : Sound M R s) : SoundOut M R (Machine.execPairedWord a b s) := by
  unfold Machine.execPairedWord
  refine h.runWord (fun hu => ?_)
  extract_lets r1 r2
  exact hu.modWarp (fun _ hw => Warp.regsOk_halfWrite (Warp.regsOk_halfWrite hw))

/-! ### Dispatch -/

theorem exec {i : Instr} {s : State} (h : Sound M R s) : SoundOut M R (Machine.exec i s) := by
  cases i with
  | abs | neg | sgn | tlz => exact h.intWord1
  | add | sub | mul | mulh | div | divz | mod | min | max | tsh | trot => exact h.intWord2
  | mad | tsel => exact h.intWord3
  | tcnt | tmap | tbin | fma | fscl | frnd | sel | mov | movi | movh | movc | cvt | bcvt | pack | unpack => exact h.computeWord
  | fadd | fsub | fmul | fmin | fmax | fdiv => exact h.fltWord2
  | fneg | fabs | fsqrt | frcp | frsq | fexp | flog | fexp3 | flog3 | ftanh | fcls => exact h.fltWord1
  | fcmp | cmp | pset | ptbl => exact h.predWord
  | pany | pall => exact h.predReduce
  | pcnt | shfl | bcst | vred | vscan => exact h.crossWord
  | ld => exact h.execLd
  | st => exact h.execSt
  | ldg => exact h.execLdg
  | stg => exact h.execStg
  | lds => exact h.execLds
  | sts => exact h.execSts
  | atom => exact h.execAtom
  | red => exact h.execRed
  | ldmc => exact h.execLdmc
  | pref => exact h.execPref
  | fence => exact h.execFence
  | ldtag => exact h.execLdtag
  | sttag => exact h.execSttag
  | cflush | cinv => exact h.flushWord
  | icinv => exact h.execIcinv
  | isync => exact h.execIsync
  | movg => exact h.execMovg
  | movs => exact h.execMovs
  | bra => exact h.execBra
  | jmpi => exact h.execJmpi
  | call | calli => exact h.callWord
  | ret => exact h.execRet
  | yld => exact h.execYld
  | waitj => exact h.execWaitj
  | exit => exact h.execExit
  | nop => exact h.execNop
  | barA | barS | barD => exact h.barWord
  | barW => exact h.execBarW
  | sna | snd | snr | snb => exact h.snArrive
  | snw => exact h.execSnw
  | snp => exact h.execSnp
  | tbinit => exact h.execTbinit
  | tbarr => exact h.execTbarr
  | tbexp => exact h.execTbexp
  | tbwait => exact h.execTbwait
  | tbtest => exact h.execTbtest
  | sleept => exact h.execSleept
  | touch => exact h.execTouch
  | win => exact h.execWin
  | winrel => exact h.execWinrel
  | task => exact h.execTask
  | tqry => exact h.execTqry
  | send => exact h.execSend
  | recv => exact h.execRecv
  | xfst => exact h.execXfst
  | xtab => exact h.execXtab
  | lnch => exact h.execLnch
  | role => exact h.execRole
  | preh => exact h.execPreh
  | trap => exact h.execTrap
  | rft => exact h.execRft
  | brk => exact h.execBrk
  | wset | wclr | wrd | hlst | hrdv | hwrv | hrdp | hwrp | hstep | hres => exact h.haltedWord
  | pairedWord => exact h.execPairedWord
  | namedBarrierRelease => exact h.execNamedBarrierRelease
  | barcDetection => exact h.execBarcDetection
  | escapementRelease => exact h.releaseDue
  | yieldRelease => exact h.execYieldRelease
  | waitjBoundExpiry => exact h.execWaitjBoundExpiry
  | sleepWake => exact h.execSleepWake
  | promiseReissue => exact h.execPromiseReissue
  | sectorLanding => exact h.execSectorLanding
  | windowRecall => exact h.execWindowRecall
  | ownershipRequest => exact h.execOwnershipRequest
  | sliceRequest => exact h.execSliceRequest
  | sliceMissData => exact h.execSliceMissData
  | homeStore => exact h.execHomeStore
  | homeAtomic => exact h.execHomeAtomic
  | loadReply => exact h.execLoadReply
  | writeBack => exact h.execWriteBack
  | redContribution => exact h.execRedContribution
  | redDetContribution => exact h.execRedDetContribution
  | multicastRequest => exact h.execMulticastRequest
  | multicastInject => exact h.execMulticastInject
  | multicastDelivery => exact h.execMulticastDelivery
  | streamSectorReceipt => exact h.execStreamSectorReceipt
  | recvBind => exact h.execRecvBind
  | scFrontierReport => exact h.execScFrontierReport
  | frontierRelease => exact h.execFrontierRelease
  | translationWalk => exact h.execTranslationWalk
  | instructionFetch => exact h.execInstructionFetch
  | pageRequestResponse => exact h.execPageRequestResponse
  | wloadTask => exact h.execWloadTask
  | mmTask => exact h.execMmTask
  | streamTask => exact h.execStreamTask
  | epiTask => exact h.execEpiTask
  | taskEnd => exact h.execTaskEnd
  | taskfDelivery => exact h.execTaskfDelivery
  | transducerRequestStart => exact h.execTransducerRequestStart
  | transducerRequestEnd => exact h.execTransducerRequestEnd
  | tableLoadComplete => exact h.execTableLoadComplete
  | roleGrant => exact h.execRoleGrant
  | warpRetire => exact h.execWarpRetire
  | gangEnd => exact h.execGangEnd
  | launchEnd => exact h.execLaunchEnd
  | gangPlacement => exact h.execGangPlacement
  | gangStart => exact h.execGangStart
  | headGangStarvation => exact h.execHeadGangStarvation
  | deadlineMiss => exact h.execDeadlineMiss
  | timeSliceEnd => exact h.execTimeSliceEnd
  | contextSwitchIn => exact h.execContextSwitchIn
  | sequencerWake => exact h.execSequencerWake
  | preemptionRequest => exact h.execPreemptionRequest
  | preemptionDeadline => exact h.execPreemptionDeadline
  | gangRestore => exact h.execGangRestore
  | watchTrapDelivery => exact h.execWatchTrapDelivery
  | launchHaltSignal => exact h.execLaunchHaltSignal
  | hresLaunchSignal => exact h.execHresLaunchSignal
  | permitAudit => exact h.execPermitAudit
  | linkError => exact h.execLinkError
  | scratchpadBankFailure => exact h.execScratchpadBankFailure
  | coreFence | gtimeMismatch => exact h.fenceCore
  | sliceFence => exact h.fenceSlice
  | pseudoChannelFence => exact h.execPseudoChannelFence
  | transducerLaneFence => exact h.fenceLane
  | mDieFailure => exact h.execMDieFailure
  | cDieFailure => exact h.execCDieFailure
  | watchRecordError => exact h.execWatchRecordError
  | referenceClockFault => exact h.execReferenceClockFault
  | powerOnReset => exact h.execPowerOnReset
  | warmReset => exact h.execWarmReset
  | powerGrant => exact h.execPowerGrant
  | grantApply => exact h.execGrantApply
  | remoteRequestTimeout => exact h.execRemoteRequestTimeout
  | peerFailure => exact h.failPeer
  | translationInvalidation | channelReset | contextBind | paddockLimits | contextUnbind => exact h.commandEvent
  | pinRelease => exact h.releasePins
  | roundDiscard => exact h.execRoundDiscard
  | atsInvalidation => exact h.execAtsInvalidation
  | setPackageNumber | startSequencer0 | bindVf | releaseFrame | setPowerCeiling | attest => exact h.mailboxEvent
  | getMeasurements => exact h.execGetMeasurements
  | controlRegionWrite => exact h.execControlRegionWrite
  | hostFetchadd | hostSwap | hostCas => exact h.hostAtomic
  | hostPackedRead | hostRawRead => exact h.hostRead
  | hostPackedWrite | hostRawWrite => exact h.hostWriteWin
  | ptmExchange | ieee1588Sync => exact h.timeUpdate
  | debugHalt | debugWset | debugWclr | debugWrd | debugHlst | debugHrdv | debugHwrv | debugHrdp | debugHwrp | debugHstep | debugHres => exact h.windowEvent
  | completionTimeout => exact h.execCompletionTimeout
  | scaleOutLinkFault => exact h.laneDown
  | routesRecomputed => exact h.execRoutesRecomputed
  | duplicatePackageNumber => exact h.execDuplicatePackageNumber
  | powerLoss => exact h.execPowerLoss

/-! ### Settle -/

theorem settleFences {s : State} (h : Sound M R s) : Sound M R (Machine.settleFences s) := by
  unfold Machine.settleFences
  refine h.foldl (fun _ _ hu => ?_)
  extract_lets s1
  have hs1 : Sound M R s1 := hu.modWarp (fun _ hw => hw)
  split
  · split
    · exact ite (hs1.modCore.ite hs1) hu
    · exact hu
  · exact hu

theorem settleBlocked {s : State} (h : Sound M R s) : Sound M R (Machine.settleBlocked s) := by
  unfold Machine.settleBlocked
  extract_lets f
  have hf : ∀ {x0 : Warp}, x0.regsOk = true → (f x0).regsOk = true := by
    intro _ hw
    unfold f
    split
    · split
      · exact hw
      · exact hw
    · exact hw
  exact h.mapWarps (fun _ hw => hf hw)

theorem settleHolds {s : State} (h : Sound M R s) : Sound M R (Machine.settleHolds s) := by
  unfold Machine.settleHolds
  extract_lets f
  have hf : ∀ {x0 : Warp}, x0.regsOk = true → (f x0).regsOk = true := by
    intro _ hw
    unfold f
    split
    · exact hw
    · exact hw
  exact h.mapWarps (fun _ hw => hf hw)

theorem settleJoins {s : State} (h : Sound M R s) : Sound M R (Machine.settleJoins s) := by
  unfold Machine.settleJoins
  refine h.foldl (fun _ _ hu => ?_)
  split
  · exact hu.ite hu.joinRelease
  · exact hu

theorem settlePend {s : State} {tick : Bool} {n wid : Nat} (h : Sound M R s) : Sound M R (Machine.settlePend s tick n wid) := by
  unfold Machine.settlePend
  split
  · exact h
  · split
    · exact h
    · split
      · exact h.stepTask
      · extract_lets t
        have ht : Sound M R t.1 := h.xfstTry
        exact ht.endPend.ite ht
      · exact h.stepXtab
      · exact h.stepWinrel
      · exact h.stepSend
      · exact h.stepRecv
      · exact h.stepLnch
      · exact h.stepCmd
      · exact h.stepFlush
      · exact h.hstepRun.ite h
      · exact h.dbgRun
      · exact h
      · exact h

theorem settleWindow {s : State} {tick : Bool} (h : Sound M R s) : Sound M R (Machine.settleWindow s tick) := by
  unfold Machine.settleWindow
  refine h.foldl (fun _ _ hu => hu.orStay ?_)
  split
  · split
    · exact hu.dbgRun
    · exact hu.hstepRun.ite hu
    · exact hu
  · exact hu

theorem settlePends {s : State} {tick : Bool} (h : Sound M R s) : Sound M R (Machine.settlePends s tick) := by
  unfold Machine.settlePends
  exact settleWindow (h.foldl (fun _ _ hu => hu.orStay hu.settlePend))

theorem settleHalts {s : State} (h : Sound M R s) : Sound M R (Machine.settleHalts s) := by
  unfold Machine.settleHalts
  extract_lets f
  have hf : ∀ {x0 : Warp}, x0.regsOk = true → (f x0).regsOk = true := by
    intro _ hw
    unfold f
    extract_lets due w1
    split
    · exact hw
    · exact Warp.regsOk_foldl hw (fun _ _ hw1 => Warp.regsOk_haltAll hw1)
  exact h.mapWarps (fun _ hw => hf hw)

theorem settleBarc {s : State} (h : Sound M R s) : Sound M R (Machine.settleBarc s) := by
  unfold Machine.settleBarc
  extract_lets f
  have hf : ∀ {u : Gang}, swf u.scratch = true → swf (f u).scratch = true := by
    intro _ hg
    unfold f
    split
    · exact hg
    · exact hg
  exact h.mapGangs (fun _ hg => hf hg)

theorem settleInvals {s : State} (h : Sound M R s) : Sound M R (Machine.settleInvals s) := by
  unfold Machine.settleInvals
  refine h.foldl (fun _ _ hu => ?_)
  extract_lets s1
  have hs1 : Sound M R s1 := hu.invalidate
  exact hu.ite (hu.orStay hs1.update)

theorem settleBanks {s : State} (h : Sound M R s) : Sound M R (Machine.settleBanks s) := by
  unfold Machine.settleBanks
  exact h.foldl (fun _ _ hu => hu.orStay hu.fenceCore)

theorem settle {tick : Bool} {s : State} (h : Sound M R s) : Sound M R (Machine.settle tick s) := by
  unfold Machine.settle
  extract_lets s1 s2 s3
  have hs1 : Sound M R s1 := h.settleBanks.settleFences.settleBlocked
  have hs2 : Sound M R s2 := hs1.settleJoins.settlePends
  have hs3 : Sound M R s3 := hs2.settleInvals.settleHalts.saveWaiting
  exact hs3.settleHolds.settleBarc.balancePads.noteHeads.syncJournal

/-! ### Turn -/

theorem outMap {f : State → State} {o : Out} (h : SoundOut M R o) (hf : ∀ {u}, Sound M R u → Sound M R (f u)) : SoundOut M R (o.map f) := by
  cases o with
  | next s => exact hf h
  | fault r => trivial
  | refused r => trivial

theorem noteIssue {s : State} {wid slot : Nat} (h : Sound M R s) : Sound M R (Machine.noteIssue s wid slot) := by
  unfold Machine.noteIssue
  exact h.modWarp (fun _ hw => hw)

theorem trapDue {s : State} {w : Warp} {ls : List Nat} {pc : Int} {held : Option WatchTrap} {p : State × TrapReq} (h : Sound M R s)
    (he : Machine.trapDue s w ls pc held = some p) : Sound M R p.1 := by
  unfold Machine.trapDue at he
  split at he
  · obtain rfl := Option.some.inj he
    exact h.modWarp fun _ hw => hw
  · split at he
    · obtain rfl := Option.some.inj he
      exact h.modCore.pair
    · split at he
      · obtain rfl := Option.some.inj he
        exact h.modWarp fun _ hw => hw
      · split at he
        · obtain rfl := Option.some.inj he
          exact h
        · cases he

theorem trapInPlace {s : State} {w : Warp} (h : Sound M R s) : SoundOpt M R (Machine.trapInPlace s w) := by
  unfold Machine.trapInPlace
  cases hd : Machine.trapDue s w w.issuers w.issuePc (watchDue w) with
  | none => trivial
  | some p => exact enterTrap (h.trapDue hd)

theorem pcUnits {s : State} {w : Warp} {ls : List Nat} {pc : Int} (h : Sound M R s) : Sound M R (Machine.pcUnits s w ls pc).1 := by
  unfold Machine.pcUnits
  split
  · exact h
  · exact h.watchTest

theorem noteRunning {s : State} {w : Warp} (h : Sound M R s) : Sound M R (Machine.noteRunning s w) := by
  unfold Machine.noteRunning
  split
  · exact h.ite h.cwUpdate.modLaunch
  · exact h

theorem startWord {s : State} {w : Warp} (h : Sound M R s) : Sound M R (Machine.startWord s w) := by
  unfold Machine.startWord
  refine Sound.noteRunning ?_
  split
  · exact h.takePipes
  · exact h

theorem noteHold {s : State} {wid slot : Nat} {i : Option Instr} {wasHandler : Bool} (h : Sound M R s) :
    Sound M R (Machine.noteHold s wid slot i wasHandler) := by
  unfold Machine.noteHold
  exact h.modWarp (fun _ hw => hw)

theorem issueAt {s : State} {w : Warp} {slot : Nat} {v : Int} (h : Sound M R s) : SoundOut M R (Machine.issueAt s w slot v) := by
  unfold Machine.issueAt
  extract_lets ls c s1 p i s2
  have hp : Sound M R p.1 := h.noteIssue.pcUnits
  have hs2 : Sound M R s2 := hp.startWord
  split
  · exact hp.watchAct
  · split
    · exact enterTaskf (hp.modWarp fun _ hw => hw)
    · clear_value i
      split
      · exact noteHold (raiseTrap (hs2.modWarp fun _ hw => Warp.regsOk_countYields hw))
      · refine outMap hs2.update.exec fun hu => ?_
        split
        · exact h.modWarp fun _ hw => hw
        · exact hu.noteHold

theorem issueTurn {s : State} {wid slot : Nat} (h : Sound M R s) : SoundOut M R (Machine.issueTurn s wid slot) := by
  unfold Machine.issueTurn
  split
  · exact h
  · split
    · exact h
    · split
      · rename_i heq
        have hs := h.trapInPlace.some heq
        exact hs.noteIssue
      · split
        · exact h.fetchFor
        · split
          · exact h.issueAt
          · exact h

theorem runForced {s : State} {w : Warp} {c : Cur} {i : Instr} (h : Sound M R s) : SoundOut M R (Machine.runForced s w c i) := by
  unfold Machine.runForced
  exact h.takePipes.update.exec

theorem stepTurn {s : State} {w : Warp} {c : Cur} (h : Sound M R s) : SoundOut M R (Machine.stepTurn s w c) := by
  unfold Machine.stepTurn
  split
  · rename_i he
    exact Sound.raiseTrap (h.trapDue he)
  · have hf := h.fetchBlock (w := w) (ls := c.lanes) (pc := c.pc)
    split
    all_goals rename_i he; rw [he] at hf
    · exact Sound.raiseTrap hf
    · exact Sound.raiseTrap hf
    · exact hf
    · split
      · exact Sound.update hf
      · split
        · exact Sound.runForced hf
        · exact Sound.raiseTrap hf

theorem forcedTurn {s : State} {c : Cur} (h : Sound M R s) : SoundOut M R (Machine.forcedTurn s c) := by
  unfold Machine.forcedTurn
  extract_lets s1
  have hs1 : Sound M R s1 := h.update
  split
  · exact h
  · split
    · exact hs1
    · split
      · exact hs1.stepTurn
      · split
        · exact hs1.noteIssue.runForced
        · exact hs1

theorem nextMove {s : State} (h : Sound M R s) : Sound M R (Machine.nextMove s).2 := by
  unfold Machine.nextMove
  split
  · split
    · exact h
    · exact h.update
  · exact h

theorem happen {s : State} {es : List Instr} (h : Sound M R s) : Sound M R (Machine.happen s es) := by
  unfold Machine.happen
  refine h.foldl (fun _ _ hu => ?_)
  split
  · rename_i heq
    have hs := hu.exec.next heq
    exact hu.orStay hs
  · exact hu

theorem expireJoins {s : State} (h : Sound M R s) : Sound M R (Machine.expireJoins s) := by
  unfold Machine.expireJoins
  exact h.happen

theorem tick {s : State} (h : Sound M R s) : Sound M R (Machine.tick s) := by
  unfold Machine.tick
  extract_lets f s0 s1
  have hf : ∀ {x0 : Warp}, x0.regsOk = true → (f x0).regsOk = true := fun hw => hw
  have hs0 : Sound M R s0 := h.expireJoins
  have hs1 : Sound M R s1 := modPkg (hs0.ofWarps rfl rfl rfl (hs0.mapWarps (fun _ hw => hf hw)))
  exact hs1.strike.happen

theorem makeMove {m : Move} {s : State} (h : Sound M R s) : SoundOut M R (Machine.makeMove m s) := by
  unfold Machine.makeMove
  refine outMap ?_ (fun hu => h.orStay hu)
  split
  · exact h.exec
  · exact h.issueTurn
  · exact h.tick
  · exact h.forcedTurn
  · exact h.chooseBay
  · exact h.closeCycle

theorem turn {s : State} (h : Sound M R s) : SoundOut M R (Machine.turn s) :=
  outMap h.nextMove.makeMove fun hu => hu.settle

end Sound
end Sys2Proof.Machine
end

section
/-! ## Every step keeps the memories and the registers -/

namespace Sys2Proof.Machine

open Sys2Proof Tern

/-- A step keeps what holds of the memories and of the registers. -/
theorem step_sound {M R : Prop} {s t : State} (h : Sound M R s) (he : step s = .next t) : Sound M R t := h.turn.next he

/-- Settles O3: every function of the model that writes a memory writes it in its canonical form. -/
theorem everyStepKeepsTheMemories : Obligations.EveryStepKeepsTheMemories := fun s _ hs he =>
  (step_sound (M := s.memoriesOk = true) (R := False) ⟨id, False.elim⟩ he).memories hs

/-- Settles O10: every write of a register narrows its value to 27 trits, every write of a latch fits it. -/
theorem everyStepKeepsRegistersInRange : Obligations.EveryStepKeepsRegistersInRange := by
  refine ⟨fun s _ hs he => (step_sound (M := False) (R := s.regsOk = true) ⟨False.elim, id⟩ he).registers hs, fun w hw => ?_⟩
  obtain ⟨hv, hg, -⟩ := (Warp.regsOk_iff w).1 hw
  exact ⟨fun l n => sget_range hv _, fun n => sget_range hg _⟩
end Sys2Proof.Machine
end
